-- ==== Sys2Proof/Word.lean ====
section
/-! DEFINITION. The word types of the D12 and the sparse map that holds every store of the model. -/

namespace Sys2Proof

/-- A 64-bit word: a token's payload, a register, an address operand (R75, R76). -/
abbrev Word := BitVec 64

/-- The smallest addressable unit of memory (R157). -/
abbrev Byte := BitVec 8

/-- A sparse store: pairs (key, value) with strictly rising keys, and no pair that equals what an
unlisted key reads as (see `Machine.SMap` operations in Machine/Sparse.lean). -/
abbrev SMap (α : Type) := List (Nat × α)

end Sys2Proof
end

