-- ==== Sys2Proof/Syntax.lean ====
section
/-! DEFINITION. The syntax: the node record's fields (R67 to R74) and one constructor per row of the opcode table. Rows 0 to 164
are node instructions and carry their record's fields; rows 165 to 256 are the machine's own steps and carry what says where
they happen. Meaning is in Machine/ alone. -/

namespace Sys2Proof

/-- The element types, in the order of their codes 0 to 15 (R10, R82). -/
inductive Ty where
  | n64 | i64 | n32 | i32 | n16 | i16 | n8 | i8 | t2 | e2m1 | e4m3 | e5m2 | bf16 | f16 | f32 | f64
  deriving DecidableEq, Repr

/-- The operand ports of a node (R68): codes 0 l, 1 r, 2 p; code 3 is "none" and is no Port. -/
inductive Port where
  | l | r | p
  deriving DecidableEq, Repr

/-- The frame mode of a destination (R70). -/
inductive FrameMode where
  | cur | nxt | par | dyn
  deriving DecidableEq, Repr

/-- A used destination of a node record with its frame mode (R68, R70). -/
structure Dest where
  dx   : BitVec 4
  dy   : BitVec 4
  node : BitVec 12
  port : Port
  fm   : FrameMode
  deriving DecidableEq, Repr

/-- The fields of a node record other than its opcode (R67). A destination that is not used is none (R69). `lit` is the literal,
whose fields each instruction's description assigns (R74, R183, R275, R314, R339, R377, R434). -/
structure Node where
  ty      : Ty
  slot    : BitVec 8
  d0      : Option Dest
  d1      : Option Dest
  stR     : Bool
  stCount : BitVec 6
  epass   : Bool
  litr    : Bool
  sense   : Bool
  pred    : Bool
  lit     : BitVec 16
  deriving DecidableEq, Repr

/-- A master that can be frozen, as FRZCTL names it (R417, R418): a PE by its number, or a unit by its kind (coded as in R79) and
index. -/
inductive MasterId where
  | pe (idx : Nat)
  | unit (skind idx : Nat)
  deriving DecidableEq, Repr

/-- A spoke link message: the header fields of R450 and the data that follows it. -/
structure Flit where
  ty     : Nat
  tag    : Nat
  srcdev : Nat
  vf     : Nat
  prio   : Nat
  size   : Nat
  op     : Nat
  code   : Nat
  addr   : Nat
  data   : List Byte
  deriving DecidableEq, Repr

/-- One constructor per row of the opcode table, in the table's order. -/
inductive Instr where
  /-- NOP (R277): Consumes one token on l and emits nothing. -/
  | nop (n : Node)
  /-- MOV (R277): Passes l, with its kind and payload unchanged, to each used destination. -/
  | mov (n : Node)
  /-- CONST (R277): On a trigger, emits lane 0 of the literal as a value token. -/
  | const (n : Node)
  /-- SINK (R281): Consumes l. Sends an error l to the graph's sink unless DROP is set. -/
  | sink (n : Node)
  /-- SWITCH (R279): Steers l to DEST0 or DEST1 by the r predicate, optionally sending a null to the other destination. -/
  | switch (n : Node)
  /-- MERGE (R279): Passes on whichever of l and r is not null, or l when neither is, discarding r. -/
  | merge (n : Node)
  /-- GATE (R279): Passes l on once the trigger r has arrived. -/
  | gate (n : Node)
  /-- NULLIFY (R277): On a trigger, emits a null token with STATUS UNTAKEN. -/
  | nullify (n : Node)
  /-- ISNULL (R280): Emits 1 if l is a null token and 0 otherwise. -/
  | isnull (n : Node)
  /-- ISERR (R280): Emits 1 if l is an error token and 0 otherwise, consuming errors. -/
  | iserr (n : Node)
  /-- ERRCODE (R280): Emits the payload of an error l, or 0 for any other kind. -/
  | errcode (n : Node)
  /-- MKERR (R280): Creates a user error token with the literal code and the PE's next SEQ. -/
  | mkerr (n : Node)
  /-- FRAMEOF (R286): Emits the firing's frame pointer as an n64 value. -/
  | frameof (n : Node)
  /-- FALLOC (R287): Allocates a frame across the rectangle, sets its links and wave number, and emits its fp. -/
  | falloc (n : Node)
  /-- FFREE (R289): Frees the selected frame in every PE of its rectangle, discarding the tokens it holds. -/
  | ffree (n : Node)
  /-- FLINK (R290): Writes l into a link slot of the frame named by r and passes l on. -/
  | flink (n : Node)
  /-- SEND (R283): Delivers l to a destination computed at run time from a target word. -/
  | send (n : Node)
  /-- COUNT (R284): Counts arrivals in a count cell and emits N on VC1 at every Nth arrival. -/
  | count (n : Node)
  /-- RELAY (R278): Passes l on to destinations at extended offsets. -/
  | relay (n : Node)
  /-- HALT (R285): Stops the launch, frees its frames, publishes its stores and reports it complete. -/
  | halt (n : Node)
  /-- ADD (R291): Integer addition modulo 2^w. -/
  | add (n : Node)
  /-- SUB (R291): Integer subtraction modulo 2^w. -/
  | sub (n : Node)
  /-- NEG (R291): Integer negation modulo 2^w. -/
  | neg (n : Node)
  /-- MUL (R291): Low half of the integer product. -/
  | mul (n : Node)
  /-- MULH (R291): High half of the exact 2w-bit integer product. -/
  | mulh (n : Node)
  /-- DIV (R292): Integer division truncating toward zero, with a defined result on division by zero. -/
  | div (n : Node)
  /-- REM (R292): Integer remainder of truncating division. -/
  | rem (n : Node)
  /-- MIN (R291): Smaller of l and r, signed or unsigned by type. -/
  | min (n : Node)
  /-- MAX (R291): Larger of l and r, signed or unsigned by type. -/
  | max (n : Node)
  /-- ABS (R291): Absolute value modulo 2^w. -/
  | abs (n : Node)
  /-- AND (R291): Bitwise AND on w bits. -/
  | and (n : Node)
  /-- OR (R291): Bitwise OR on w bits. -/
  | or (n : Node)
  /-- XOR (R291): Bitwise exclusive OR on w bits. -/
  | xor (n : Node)
  /-- NOT (R291): Bitwise complement on w bits. -/
  | not (n : Node)
  /-- SHL (R293): Logical shift left. -/
  | shl (n : Node)
  /-- SHR (R293): Logical shift right. -/
  | shr (n : Node)
  /-- SAR (R293): Arithmetic shift right. -/
  | sar (n : Node)
  /-- ROTL (R293): Rotate left by c mod w. -/
  | rotl (n : Node)
  /-- CLZ (R293): Counts leading zeros. -/
  | clz (n : Node)
  /-- CTZ (R293): Counts trailing zeros. -/
  | ctz (n : Node)
  /-- POPC (R293): Counts the one bits. -/
  | popc (n : Node)
  /-- CMP (R294): Integer comparison under a literal condition, emitting 1 or 0. -/
  | cmp (n : Node)
  /-- SEL (R295): Emits the payload of l or of r according to p. -/
  | sel (n : Node)
  /-- ADDSAT (R291): Saturating integer addition. -/
  | addsat (n : Node)
  /-- SUBSAT (R291): Saturating integer subtraction. -/
  | subsat (n : Node)
  /-- EXT (R296): Extracts a bit field, sign- or zero-extended. -/
  | ext (n : Node)
  /-- INS (R296): Inserts the low bits of r into a bit field of l. -/
  | ins (n : Node)
  /-- CVT (R297): Converts between integer types, wrapping or saturating. -/
  | cvt (n : Node)
  /-- IDX (R298): Computes l + r × 2^SH + OFF. -/
  | idx (n : Node)
  /-- BND (R298): Passes l on if it lies within the bound r; otherwise emits a BOUNDS error. -/
  | bnd (n : Node)
  /-- FADD (R300): Floating-point addition, rounded once. -/
  | fadd (n : Node)
  /-- FSUB (R300): Floating-point subtraction, rounded once. -/
  | fsub (n : Node)
  /-- FMUL (R300): Floating-point multiplication, rounded once. -/
  | fmul (n : Node)
  /-- FFMA (R300): Fused multiply-add l × r + p, rounded once. -/
  | ffma (n : Node)
  /-- FMIN (R301): IEEE minimumNumber. -/
  | fmin (n : Node)
  /-- FMAX (R301): IEEE maximumNumber. -/
  | fmax (n : Node)
  /-- FABS (R302): Clears the sign bit. -/
  | fabs (n : Node)
  /-- FNEG (R302): Inverts the sign bit. -/
  | fneg (n : Node)
  /-- FCMP (R303): Floating-point comparison under a condition, emitting 1 or 0. -/
  | fcmp (n : Node)
  /-- FCVT (R304): Converts to or from a floating-point type. -/
  | fcvt (n : Node)
  /-- FRND (R305): Rounds to an integral value in the operand's own format. -/
  | frnd (n : Node)
  /-- FCLASS (R302): Emits a one-hot classification of l. -/
  | fclass (n : Node)
  /-- FSCL (R306): Scales l by 2^r, rounded once. -/
  | fscl (n : Node)
  /-- FRCP (R300): Reciprocal, rounded once. -/
  | frcp (n : Node)
  /-- FRSQ (R300): Reciprocal square root, rounded once. -/
  | frsq (n : Node)
  /-- FSQRT (R300): Square root, rounded once. -/
  | fsqrt (n : Node)
  /-- FDIV (R300): Division, rounded once. -/
  | fdiv (n : Node)
  /-- FEXP2 (R266): Computes 2^x by the reference procedure. -/
  | fexp2 (n : Node)
  /-- FLOG2 (R267): Computes log2 x by the reference procedure. -/
  | flog2 (n : Node)
  /-- FTANH (R268): Computes tanh x by the reference procedure. -/
  | ftanh (n : Node)
  /-- FSIGM (R269): Computes the logistic sigmoid by the reference procedure. -/
  | fsigm (n : Node)
  /-- TADD (R318): Element-wise tile addition. -/
  | tadd (n : Node)
  /-- TSUB (R318): Element-wise tile subtraction. -/
  | tsub (n : Node)
  /-- TMUL (R318): Element-wise tile multiplication. -/
  | tmul (n : Node)
  /-- TFMA (R318): Element-wise fused multiply-add of tiles. -/
  | tfma (n : Node)
  /-- TMIN (R318): Element-wise minimum of tiles. -/
  | tmin (n : Node)
  /-- TMAX (R318): Element-wise maximum of tiles. -/
  | tmax (n : Node)
  /-- TABS (R318): Element-wise absolute value. -/
  | tabs (n : Node)
  /-- TNEG (R318): Element-wise negation. -/
  | tneg (n : Node)
  /-- TSCL (R319): Scales each row of a tile. -/
  | tscl (n : Node)
  /-- TBIAS (R319): Adds a bias to each column of a tile. -/
  | tbias (n : Node)
  /-- TCLAMP (R320): Clamps each element between lo and hi. -/
  | tclamp (n : Node)
  /-- TACT (R323): Applies an activation function to each element. -/
  | tact (n : Node)
  /-- TRED (R324): Reduces a tile by rows or by columns into a tile of one row. -/
  | tred (n : Node)
  /-- TTR (R325): Transposes each 16 × 16 block of a tile. -/
  | ttr (n : Node)
  /-- TBC (R326): Broadcasts a row or a column of a tile. -/
  | tbc (n : Node)
  /-- TSEL (R322): Selects each element from l or r by a mask tile. -/
  | tsel (n : Node)
  /-- TCMP (R321): Element-wise comparison, giving 1 or 0. -/
  | tcmp (n : Node)
  /-- TCPY (R327): Copies a tile, with its metadata, into a new tile. -/
  | tcpy (n : Node)
  /-- TVIEW (R328): Reinterprets a tile under another TID, in place or as a copy. -/
  | tview (n : Node)
  /-- TCOND (R332): Conditions a floating-point tile into lane or plane form on a converter PE. -/
  | tcond (n : Node)
  /-- TCVT (R333): Converts a tile between element formats on a converter PE. -/
  | tcvt (n : Node)
  /-- TRNG (R330): Requests a random tile from the slot's generator. -/
  | trng (n : Node)
  /-- TFILL (R329): Makes a tile with every element equal to l. -/
  | tfill (n : Node)
  /-- TIOTA (R329): Makes a tile of counting values starting at l. -/
  | tiota (n : Node)
  /-- ACC_NEW (R342): Allocates an accumulator or a ranked-list accumulator, optionally binding it for pruning. -/
  | accNew (n : Node)
  /-- ACC_ZERO (R343): Clears an accumulator and its SEALED and PRUNED state. -/
  | accZero (n : Node)
  /-- ACC_FREE (R343): Frees an accumulator whatever its REF. -/
  | accFree (n : Node)
  /-- ACC_GET (R344): Reads one accumulator entry, or one list key or index. -/
  | accGet (n : Node)
  /-- MMA (R347): Merges the exact block product of A and B into an accumulator, or skips it by pruning. -/
  | mma (n : Node)
  /-- MMA_PAIR (R349): Splits one product over a pair of PEs, combined at the leader. -/
  | mmaPair (n : Node)
  /-- SMMA (R353): Sparse matrix multiply driven by queued coordinate tokens. -/
  | smma (n : Node)
  /-- ACC_DRAIN (R354): Drains an accumulator into an element-form tile. -/
  | accDrain (n : Node)
  /-- ACC_RL (R356): Drains an ordinary accumulator into ranked lists. -/
  | accRl (n : Node)
  /-- RL_INS (R357): Inserts the elements of a tile into ranked lists. -/
  | rlIns (n : Node)
  /-- RL_MERGE (R358): Merges an exported list-form tile into a list accumulator. -/
  | rlMerge (n : Node)
  /-- RL_OUT (R359): Exports a list accumulator to a list-form tile. -/
  | rlOut (n : Node)
  /-- RL_THR (R360): Emits the threshold of one list. -/
  | rlThr (n : Node)
  /-- LD (R185): Issues a scalar load, taking a fetch tag. -/
  | ld (n : Node)
  /-- ST (R185): Makes a pending scalar store in the cistern. -/
  | st (n : Node)
  /-- LDT (R185): Issues an indexed scalar load with a full/empty read mode. -/
  | ldt (n : Node)
  /-- STT (R185): Makes a pending indexed scalar store. -/
  | stt (n : Node)
  /-- TLD (R187): Allocates a tile and loads it from memory. -/
  | tld (n : Node)
  /-- TST (R188): Stores a whole tile as pending stores, row by row. -/
  | tst (n : Node)
  /-- TALLOC (R192): Allocates an empty tile and emits its handle. -/
  | talloc (n : Node)
  /-- TREF (R193): Adds references to a tile or accumulator entry. -/
  | tref (n : Node)
  /-- TREL (R194): Drops the consumed reference and n more. -/
  | trel (n : Node)
  /-- PUMP_GET (R203): Starts a pump command fetching a tile from memory. -/
  | pumpGet (n : Node)
  /-- PUMP_PUT (R204): Starts a pump command writing a tile to memory. -/
  | pumpPut (n : Node)
  /-- PUMP_XFER (R205): Starts a pump copy of a tile to a node of the configuration. -/
  | pumpXfer (n : Node)
  /-- PUMP_MCAST (R206): Starts delivery of tile copies to multicast consumers. -/
  | pumpMcast (n : Node)
  /-- GATHER (R207): Starts a gather of indexed rows into a new tile. -/
  | gather (n : Node)
  /-- SCATTER (R207): Starts a scatter of tile rows to indexed addresses. -/
  | scatter (n : Node)
  /-- STREAM (R208): Binds an affine generator to a descriptor and starts its reads. -/
  | stream (n : Node)
  /-- ATOM_ADD (R209): Atomic add at the sparse-update unit. -/
  | atomAdd (n : Node)
  /-- ATOM_FADD (R209): Atomic floating-point add. -/
  | atomFadd (n : Node)
  /-- ATOM_MIN (R209): Atomic minimum. -/
  | atomMin (n : Node)
  /-- ATOM_MAX (R209): Atomic maximum. -/
  | atomMax (n : Node)
  /-- ATOM_AND (R209): Atomic AND. -/
  | atomAnd (n : Node)
  /-- ATOM_OR (R209): Atomic OR. -/
  | atomOr (n : Node)
  /-- ATOM_XOR (R209): Atomic exclusive OR. -/
  | atomXor (n : Node)
  /-- ATOM_XCHG (R209): Atomic exchange. -/
  | atomXchg (n : Node)
  /-- ATOM_CAS (R209): Atomic compare-and-swap. -/
  | atomCas (n : Node)
  /-- RED_ADD (R210): Reduction add, with no result. -/
  | redAdd (n : Node)
  /-- RED_FADD (R210): Floating-point reduction add. -/
  | redFadd (n : Node)
  /-- RED_MIN (R210): Reduction minimum. -/
  | redMin (n : Node)
  /-- RED_MAX (R210): Reduction maximum. -/
  | redMax (n : Node)
  /-- RED_AND (R210): Reduction AND. -/
  | redAnd (n : Node)
  /-- RED_OR (R210): Reduction OR. -/
  | redOr (n : Node)
  /-- RED_XOR (R210): Reduction exclusive OR. -/
  | redXor (n : Node)
  /-- PHASE (R212): Counts an arrival for the PE's phase and emits the phase number when the boundary completes. -/
  | phase (n : Node)
  /-- FENCE (R213): Releases every write that happens before it, at a scope. -/
  | fence (n : Node)
  /-- AFENCE (R213): Publishes the PE's pending stores early and makes aliases agree. -/
  | afence (n : Node)
  /-- SPAWN (R378): Enqueues a task or launch record through a capability. -/
  | spawn (n : Node)
  /-- JOIN (R380): Sends a join-counter update to the sparse-update unit. -/
  | join (n : Node)
  /-- ENQ (R379): Enqueues a value. -/
  | enq (n : Node)
  /-- DEQ (R379): Dequeues the oldest value. -/
  | deq (n : Node)
  /-- STEAL (R379): Removes the newest value. -/
  | steal (n : Node)
  /-- QLEN (R379): Returns the queue's length. -/
  | qlen (n : Node)
  /-- BAR_ARRIVE (R399): Emits a barrier arrival token and advances the barrier cell. -/
  | barArrive (n : Node)
  /-- BAR_COMB (R400): Combines a barrier arrival into its slot and releases the phase when complete. -/
  | barComb (n : Node)
  /-- RCNT_ADD (R396): Adds to a routing counter, saturating. -/
  | rcntAdd (n : Node)
  /-- RCNT_SNAP (R397): Snapshots and clears routing counters and writes them to memory. -/
  | rcntSnap (n : Node)
  /-- YIELD (R381): Ends the VF's quantum in the slot if another entry is runnable. -/
  | yield (n : Node)
  /-- TRAP (R435): Delivers l to the VF's handler node, or posts a TRAP event. -/
  | trap (n : Node)
  /-- BRK (R437): Freezes the firing PE and posts a BREAK event. -/
  | brk (n : Node)
  /-- EVT (R438): Posts a USER event. -/
  | evt (n : Node)
  /-- SYSRD (R439): Reads a management register. -/
  | sysrd (n : Node)
  /-- SYSWR (R439): Writes a management register and returns its read-back. -/
  | syswr (n : Node)
  /-- NRG_RD (R440): Folds the slot's delta and emits the VF's energy counter. -/
  | nrgRd (n : Node)
  /-- SEED (R441): Seeds the slot's random tile generator. -/
  | seed (n : Node)
  /-- CFG_LD (R442): Loads, validates, places and makes resident a configuration image. -/
  | cfgLd (n : Node)
  /-- CFG_DROP (R443): Publishes a configuration's stores, frees its frames and drops it. -/
  | cfgDrop (n : Node)
  /-- WIN_OPEN (R444): Installs a WINTAB entry from a request in memory. -/
  | winOpen (n : Node)
  /-- WIN_CLOSE (R444): Disables a WINTAB entry. -/
  | winClose (n : Node)
  /-- TOKEN_ARRIVAL (R218): A token reaches a PE's matching stage and is checked, matched, parked or made sticky. -/
  | tokenArrival (k : Nat)
  /-- COORDINATE_TOKEN (R352): A coordinate token for an smma port enters the PE's coordinate queue. -/
  | coordinateToken (k : Nat)
  /-- RESULT_EMIT (R227): A firing's result completes after its latency and its tokens are emitted. -/
  | resultEmit (b pe k : Nat)
  /-- READY_AGING (R225): A normal firing waiting 1,024 resident cycles moves to the urgent level. -/
  | readyAging (b pe k : Nat)
  /-- WINDOW_WRITE (R65): A window write reaches a frame slot or tile-store granule and takes effect. -/
  | windowWrite (req piece : Nat)
  /-- WINDOW_ACCESS_PERFORM (R24): A waiting window access is performed when its VF becomes resident at the target slot. -/
  | windowAccessPerform (req piece : Nat)
  /-- WELL_TRANSLATE (R29): The well accepts a request and translates it through its buffer, or opens a walk. -/
  | wellTranslate (req : Nat)
  /-- PAGE_WALK_COMPLETE (R32): A page-table walk completes and serves every request in its miss-merge entry. -/
  | pageWalkComplete (b vf vpage : Nat)
  /-- PARK_REFUSED_RETRY (R37): A request refused for lack of park entries is re-presented after 64 cycles. -/
  | parkRefusedRetry (req : Nat)
  /-- FQCTL_REPLAY (R38): Replays every request under a park id and closes it. -/
  | fqctlReplay (b parkid : Nat)
  /-- FQCTL_DROP (R38): Completes every request under a park id with an XLATE_FAULT error. -/
  | fqctlDrop (b parkid : Nat)
  /-- FQCTL_BAD_OP (R44): FQCTL OP 3, or a park id that is not open, sets XBSTAT.ERR. -/
  | fqctlBadOp (b op parkid : Nat)
  /-- XBINV_VF (R44): Invalidates every translation entry of a VF. -/
  | xbinvVf (b vf : Nat)
  /-- XBINV_VA (R44): Invalidates a VF's entries covering a virtual address. -/
  | xbinvVa (b vf vpage : Nat)
  /-- XBINV_ALL (R44): Invalidates every translation entry of every VF. -/
  | xbinvAll (b : Nat)
  /-- XBINV_BAD (R44): XBINV KIND 3 does nothing and sets XBSTAT.ERR. -/
  | xbinvBad (b : Nat)
  /-- XBINV_COMPLETE (R40): An invalidation completes once its matching entries and requests are gone. -/
  | xbinvComplete (b : Nat)
  /-- VFROOT_WRITE (R44): Sets a VF's root table in every well of its tenant and invalidates its entries. -/
  | vfrootWrite (vf : Nat) (v : Word)
  /-- SECTOR_ADMIT (R113): A waiting piece of a request takes a sector slot once one is free. -/
  | sectorAdmit (req piece : Nat)
  /-- SECTOR_RETURN (R112): A sector request's data or acknowledgement returns to the well and frees its slot. -/
  | sectorReturn (req piece : Nat)
  /-- FETCH_REPLY (R118): All pieces of a fetch tag's request have replied, and the tag enters REPLIED. -/
  | fetchReply (b pe tag : Nat)
  /-- INBOUND_ACCEPT (R114): A cross-bulkhead request takes an inbound entry at the target well. -/
  | inboundAccept (req piece : Nat)
  /-- EDGE_CROSSING (R407): Traffic crosses an edge into a bulkhead and is judged by the edge's inbound state. -/
  | edgeCrossing (req piece : Nat)
  /-- SPARSE_UPDATE_OP (R126): A sparse-update unit performs an atomic or reduction on its word. -/
  | sparseUpdateOp (b ch : Nat)
  /-- JOIN_COUNTER_UPDATE (R376): Decrements a join counter and enqueues the continuation at zero. -/
  | joinCounterUpdate (b ch : Nat)
  /-- ECC_WRITEBACK (R128): A corrected codeword is written back once its sector is idle. -/
  | eccWriteback (cw : Nat)
  /-- SCRUB_STEP (R131): Every INTERVAL cycles the well scrubs one sector in each channel. -/
  | scrubStep (b : Nat)
  /-- PHASE_BOUNDARY (R161): A completed phase boundary publishes the group's pending stores and releases them. -/
  | phaseBoundary (cfg : Nat)
  /-- CISTERN_FULL (R166): A VF's stores cannot get cistern entries and nothing of the VF can issue. -/
  | cisternFull (b vf : Nat)
  /-- BLOCK_INSTALL (R154): BCCTL OP 1 installs an encoded block from source sectors. -/
  | blockInstall (b : Nat) (md : Byte)
  /-- BLOCK_META_READ (R154): BCCTL OP 2 reads a block's metadata byte into BCSTAT. -/
  | blockMetaRead (b : Nat)
  /-- BCCTL_BAD_OP (R153): BCCTL OP 3 does nothing and sets BCSTAT.ERR. -/
  | bcctlBadOp (b : Nat)
  /-- ENGINE_COMPLETION (R173): An engine command finishes and emits its completion token, with or without a release. -/
  | engineCompletion (cmd : Nat)
  /-- STREAM_ELEMENT (R208): An affine generator emits the next element token. -/
  | streamElement (cmd : Nat)
  /-- MCAST_LAG_EXPIRE (R206): A multicast wait reaches LAG and the consumer detaches. -/
  | mcastLagExpire (cmd : Nat)
  /-- PAIR_MESSAGE (R350): A follower's SUMS or BROKEN message reaches the leader over the pair link. -/
  | pairMessage (b pe : Nat)
  /-- PAIR_LIMIT_EXPIRE (R351): A leader's pair wait reaches its LIMIT and emits a LIMIT error. -/
  | pairLimitExpire (b pe k : Nat)
  /-- BARRIER_LIMIT_EXPIRE (R401): A root barrier's BLIM count expires and the phase advances without release. -/
  | barrierLimitExpire (b pe node fp : Nat)
  /-- RNG_GENERATOR_SERVE (R272): The slot's generator takes a waiting trng and produces its tile. -/
  | rngGeneratorServe (b sl : Nat)
  /-- STARVE (R237): A firing waiting 2^20 cycles for an allocation or boundary posts STARVE. -/
  | starve (b vf : Nat)
  /-- PLACEMENT_RETRY (R233): A waiting configuration load is retried after a change in slots or residency. -/
  | placementRetry (cmd : Nat)
  /-- LAUNCH_TAKE (R387): The region sequencer takes a launch record from a launch queue and assigns a LID. -/
  | launchTake (b q : Nat)
  /-- LAUNCH_START (R230): A launch's root frame is allocated and its entry tokens are injected. -/
  | launchStart (lid : Nat)
  /-- LAUNCH_QUIESCE (R387): A running launch becomes quiescent and enters ENDING. -/
  | launchQuiesce (lid : Nat)
  /-- LAUNCH_END (R388): A launch finishes ENDING, writes its completion record and posts LAUNCH_DONE. -/
  | launchEnd (lid : Nat)
  /-- QUEUE_CONTROLLER_OP (R372): A queue controller checks and performs one queue operation. -/
  | queueControllerOp (cmd : Nat)
  /-- TASK_ACCEPT (R382): A task is accepted into the dependence table and its declared pages are translated. -/
  | taskAccept (task : Nat)
  /-- DISPATCH_DECISION (R389): The sequencer picks a VF's head task and dispatches it. -/
  | dispatchDecision (b : Nat)
  /-- TASK_COMPLETE (R385): A task's frames and work are done: its stores are released, its join runs and it retires. -/
  | taskComplete (task : Nat)
  /-- HQREC_COMMIT (R449): A host write to HQREC bytes 120–127 commits and enqueues a launch record. -/
  | hqrecCommit (b p : Nat) (v : Word)
  /-- QUEUE_ENABLE (R369): A QBASE write sets the queue up, with EN := 1 resetting HEAD and TAIL. -/
  | queueEnable (b q : Nat) (v : Word)
  /-- QCKEY_WRITE (R369): Changes the key of every capability of the bulkhead. -/
  | qckeyWrite (b : Nat) (v : Word)
  /-- QCAP_RIGHTS_WRITE (R369): Sets the rights of the capability returned by the next QCAP read. -/
  | qcapRightsWrite (b q : Nat) (v : Word)
  /-- QUANTUM_END (R392): A VF's quantum count in a slot reaches its quantum. -/
  | quantumEnd (b sl : Nat)
  /-- CONTEXT_SAVE (R431): A VF's live set in a slot is saved and the slot cleared. -/
  | contextSave (b sl : Nat)
  /-- CONTEXT_RESTORE (R432): A VF's context is checked, reloaded and its spilled tokens delivered. -/
  | contextRestore (b sl : Nat) (crcOk : Bool)
  /-- QUANT_WRITE (R390): Writes a quantum-table entry, refused with SCHSTAT.ERR when not allowed. -/
  | quantWrite (b sl e : Nat) (v : Word)
  /-- SLOTOWN_WRITE (R394): Sets a slot's owner and lending permission. -/
  | slotownWrite (b sl : Nat) (v : Word)
  /-- SLOT_LEND (R394): The placer lends a lendable slot to a VF of the same tenant. -/
  | slotLend (b sl vf : Nat)
  /-- SLOT_RECLAIM (R394): The owner's demand starts the reclaim of a lent slot. -/
  | slotReclaim (b sl : Nat)
  /-- VFSCOPE_WRITE (R182): Sets a VF's scope cap and cistern policy in every bulkhead of its tenant. -/
  | vfscopeWrite (vf : Nat) (v : Word)
  /-- ENERGY_FOLD (R425): Every 4,096 cycles a slot's energy delta is folded into the VF's counter. -/
  | energyFold (b sl : Nat)
  /-- BHRST_GO (R411): Starts a bulkhead reset, entering FENCE. -/
  | bhrstGo (b : Nat) (rail hold : Bool)
  /-- BHRST_RELEASE (R411): Leaves HELD for RELOCK. -/
  | bhrstRelease (b : Nat)
  /-- RESET_FENCE_DONE (R412): All neighbours acknowledge the fence, and the bulkhead enters HELD and is cleared. -/
  | resetFenceDone (b : Nat)
  /-- RESET_RELOCK_DONE (R412): The clock locks after the reset, leading to SCRUB or RUN. -/
  | resetRelockDone (b : Nat)
  /-- RESET_SCRUB_DONE (R412): The post-reset scrub completes and the bulkhead returns to RUN. -/
  | resetScrubDone (b : Nat)
  /-- BHCTL_WRITE (R404): Sets tenant and shape while HELD, or is refused. -/
  | bhctlWrite (b : Nat) (v : Word)
  /-- BHGATE_WRITE (R406): Sets the inbound edge states, or is refused. -/
  | bhgateWrite (b : Nat) (v : Word)
  /-- WINTAB_WRITE (R408): Writes a window-table entry, or is refused. -/
  | wintabWrite (b e word : Nat) (v : Word)
  /-- BHCLK_WRITE (R410): Changes the region clock, stopping it while it relocks. -/
  | bhclkWrite (b : Nat) (v : Word)
  /-- CLOCK_LOCK (R410): The region clock relocks at the new frequency. -/
  | clockLock (b : Nat)
  /-- APTAB_WRITE (R452): Binds or unbinds a spoke aperture, or is refused for a bad port. -/
  | aptabWrite (b a : Nat) (v : Word)
  /-- FRZCTL_RETRY (R418): Releases a frozen master, retrying the faulting work. -/
  | frzctlRetry (b : Nat) (m : MasterId) (vf : Nat)
  /-- FRZCTL_FAIL (R418): Releases a frozen master, failing the faulting work with ABANDON. -/
  | frzctlFail (b : Nat) (m : MasterId) (vf : Nat)
  /-- FRZCTL_FREEZE (R418): Freezes a master. -/
  | frzctlFreeze (b : Nat) (m : MasterId) (vf : Nat)
  /-- VF_RESET (R419): Resets a VF in every bulkhead of its tenant. -/
  | vfReset (b vf : Nat)
  /-- DBGVAL_WRITE (R445): Requests injection of a debugger token. -/
  | dbgvalWrite (b : Nat) (v : Word)
  /-- DEBUG_TOKEN_DELIVER (R445): The debugger token is injected once its VF is resident. -/
  | debugTokenDeliver (k : Nat)
  /-- ATTEST (R459): Reads a nonce and writes a signed attestation report. -/
  | attest (b : Nat) (v : Word)
  /-- HOST_MEM_ACCESS (R180): A host CXL.mem read or write is performed at the point of coherence. -/
  | hostMemAccess (write : Bool) (pa : Nat) (bytes : List Byte)
  /-- SPOKE_REQUEST_RECEIVE (R453): A remote request flit is received, judged against SPKIN and performed. -/
  | spokeRequestReceive (port : Nat) (fl : Flit)
  /-- SPOKE_REPLY_RECEIVE (R450): A reply flit from a spoke partner answers an outstanding request. -/
  | spokeReplyReceive (port : Nat) (fl : Flit)
  /-- DOOR_DELIVERY (R455): A door access is checked and delivers a token to its target node. -/
  | doorDelivery (port : Nat) (fl : Flit)
  /-- SPOKE_NOTICE (R456): An ABANDON notice delivers error tokens to matching doors. -/
  | spokeNotice (port : Nat) (fl : Flit)
  /-- SPOKE_LINK_UP (R451): A spoke link trains and identifies its partner. -/
  | spokeLinkUp (port partner : Nat)
  /-- SPOKE_LINK_DOWN (R451): A spoke link falls, and every outstanding request gets ABANDON. -/
  | spokeLinkDown (port : Nat)
  /-- THERMAL_TRIP (R457): A bulkhead above 110 °C is reset with its rail cut and held. -/
  | thermalTrip (b : Nat)
  /-- POWER_ON_BRINGUP (R457): Power-up runs the boot ROM, firmware check, HBM init and rail bring-up. -/
  | powerOnBringup
  /-- REGISTER_WRITE (R12): A write to a register with no behaviour of its own updates its fields. -/
  | registerWrite (b off : Nat) (v : Word)
  /-- HOST_ACKNOWLEDGEMENT (R448): A CXL completion or back-invalidate response from the host arrives for a device access to the host window or a HOSTCACHE page, answering a read or acknowledging writes. -/
  | hostAcknowledgement (req piece : Nat) (bytes : List Byte)
  /-- DISCARDED_FLIT (R450): A spoke flit with TYPE 9–15 arrives, is discarded and counted in BADFLIT. -/
  | discardedFlit (port : Nat) (fl : Flit)
  deriving DecidableEq, Repr

end Sys2Proof
end

