-- ==== Sys2Proof/Machine/State.lean ====
section
/-! DEFINITION. The state of the whole D12 package as plain data, the reasons a step can stop, and the state after reset. Sparse maps
list only what differs from an empty entry; functions that read and write them stand in Machine/Ops.lean and beside it. -/

namespace Sys2Proof.Machine

/-- A step that the machine stops on. -/
inductive Fault where
  /-- The record fetched for a firing is not one that load-time validation accepts (R13, R106). cfg.ld never lets such a record become
  valid, so only a state no run reaches raises it. Raised by `step`. Safe. -/
  | badRecord
  /-- A host CXL.mem access names an address that no HDM decoder maps (R447). Raised by `execHostMemAccess`. Safe. -/
  | hostUnmapped
  deriving DecidableEq, Repr

/-- A step the model gives no meaning to. -/
inductive Refusal where
  /-- The instruction has no meaning in this model yet. Safe. -/
  | notModelled (mnemonic : String)
  deriving DecidableEq, Repr

/-- The kind of a token or operand (R75), codes 0 to 3. -/
inductive Kind where
  | value | handle | null | err
  deriving DecidableEq, Repr

/-- A token (R75). `pe` is y*16 + x. -/
structure Token where
  payload : Word
  kind    : Kind
  vf      : Nat
  fp      : Nat
  port    : Port
  node    : Nat
  bh      : Nat
  pe      : Nat
  flags   : BitVec 9
  prio    : Nat
  deriving DecidableEq, Repr

/-- A token on its way: the source it came from (R228), its virtual channel, and the BH cycle of the target bulkhead from which it can
be matched (R227). `lid` is the launch its flags are credited to (R119). -/
structure Flight where
  tok   : Token
  src   : Nat
  vc    : Nat
  due   : Nat
  lid   : Nat
  loc   : Bool
  deriving DecidableEq, Repr

/-- An operand of a firing: the kind and payload taken at the match (R220). -/
structure Operand where
  kind    : Kind
  payload : Word
  deriving DecidableEq, Repr

/-- A firing (R215, R216): the node, its frame, configuration, launch and task, and its operands (R220). `resAt` is the slot's
resident-cycle count at the match (R225); `broken` marks a firing whose PE was frozen while it stood matched (R350); `rsv` one that takes a reserved entry of the ready queue (R224);
`aged` one that READY_AGING made urgent (R225); `wave` is its frame's wave number at the match (R164); `fails` marks a store that waited at a
CISTERN_FULL event with CFAULT (R166); `rel` holds the releases of the arrival that a combiner's firing stands for (R400). -/
structure Firing where
  bh         : Nat
  pe         : Nat
  node       : Nat
  fp         : Nat
  vf         : Nat
  l          : Option Operand
  r          : Option Operand
  p          : Option Operand
  prio       : Nat
  urgent     : Bool
  matchCycle : Nat
  resAt      : Nat
  cfg        : Nat
  lid        : Nat
  task       : Option Nat
  broken     : Bool
  rsv        : Bool
  aged       : Bool
  wave       : Nat
  fails      : Bool
  rel        : Option (List Word) := none
  deriving DecidableEq, Repr

/-- A destination resolved to a PE, node, port and frame (R116). -/
structure RDest where
  bh   : Nat
  pe   : Nat
  node : Nat
  port : Port
  fp   : Nat
  deriving DecidableEq, Repr

/-- Where a result goes: a destination field, resolved when the result is emitted (R53, R70, R288), with relay's extension in PEs
(R278); or a destination already resolved. -/
inductive Target where
  | field (d : Dest) (ex ey : Int)
  | fixed (d : RDest)
  deriving DecidableEq, Repr

/-- One token a firing emits when its result completes. -/
structure Emit where
  target  : Target
  kind    : Kind
  payload : Word
  vc1     : Bool
  deriving DecidableEq, Repr

/-- One (P, Ep, affected) triple of a matrix firing (R258, R348, R350). -/
structure CellSum where
  p        : Int
  ep       : Int
  affected : Bool
  deriving DecidableEq, Repr

/-- What a firing does, beside emitting tokens, when its result completes. -/
inductive Effect where
  /-- drop n references of a handle-table entry of the firing PE, if its generation still matches (R58) -/
  | drop (hidx gen n : Nat)
  /-- the producer of a tile has completed: PEND := 0 (R60) -/
  | produced (hidx : Nat)
  /-- free an accumulator whatever its REF (R343) -/
  | freeEntry (hidx gen : Nat)
  /-- write link `which` of a frame in every PE of its rectangle (R288) -/
  | link (fp which : Nat) (v : Word)
  /-- free a frame in every PE of its rectangle (R289) -/
  | freeFrame (fp : Nat)
  /-- send an error token to the graph's sink (R223) -/
  | sinkErr (payload : Word)
  /-- a follower sends its pair message to the leader on a PE (R350) -/
  | pairSend (pe : Nat) (sums : Option (List CellSum))
  /-- free a fetch tag (R118) -/
  | tagFree (id : Nat)
  /-- the counter unit adds to routing counter i for the issued firing `id` (R396) -/
  | countAdd (id i inc : Nat)
  /-- the counter unit takes the snapshot of a command (R397) -/
  | countSnap (cmd : Nat)
  deriving DecidableEq, Repr

/-- What an issued firing still waits for before its result can be emitted. -/
inductive Wait where
  | nothing
  /-- a phase node waits for its boundary (R212) -/
  | phase (cfg p : Nat)
  /-- a fence or afence waits for writes already on their way (R175, R168) -/
  | reqs (ids : List Nat)
  /-- the leader of a pair waits for its message: its own sums, its LIMIT and the resident-cycle count at the end of its array part
  (R350, R351) -/
  | pair (sums : List CellSum) (limit start : Nat)
  /-- an smma issued in cycle `start` waits for coordinate tokens up to a tile stop; it has taken these so far (R336, R353, R364) -/
  | coord (taken : List Word) (start : Nat)
  /-- a trng or seed waits at the slot's generator (R330, R441) -/
  | rng
  deriving DecidableEq, Repr

/-- An issued firing (R227): the cycle at whose end its result completes, what it emits, its flags (R251), and the handle-table indexes of
the accumulators that it writes (R345). `quiet` marks an outcome of steps 1 to 6, which raises no flag (R221, R222). -/
structure Issued where
  id      : Nat
  f       : Firing
  node    : Node
  due     : Nat
  emits   : List Emit
  effects : List Effect
  flags   : BitVec 9
  wait    : Wait
  writes  : List Nat
  quiet   : Bool
  deriving DecidableEq, Repr

/-- States of a fetch tag that is not FREE (R118). -/
inductive TagState where
  | issued | parked | replied
  deriving DecidableEq, Repr

/-- A fetch tag in use (R116): the destinations resolved at issue, for tld the tile being filled, for tst the next
row to enter the cistern. -/
structure Tag where
  id     : Nat
  st     : TagState
  f      : Firing
  code   : Nat
  node   : Node
  dests  : List RDest
  hidx   : Nat
  wave   : Nat
  row    : Nat
  flags  : BitVec 9
  err    : Option Word
  deriving DecidableEq, Repr

/-- What is kept beside each frame, out of reach of the window (R230). `site` is its loop site: PE * 4096 + node of
the falloc, and the frame in which it fired (R231); `payer` the RCB from which its units are charged (R229, R367). -/
structure FrameInfo where
  cls  : Nat
  wave : Nat
  site : Option (Nat × Nat)
  cfg  : Nat
  lid  : Nat
  task : Option Nat
  payer : Nat
  deriving DecidableEq, Repr

/-- The KIND field of a handle-table entry (R60). -/
inductive HKind where
  | free | tile | acc
  deriving DecidableEq, Repr

/-- A handle-table entry: the header and the metadata fields of a tile or of an accumulator (R60). `accFields` says which of the two a free entry was
left with (R64); `payer` is the RCB from which its pages are charged (R189, R367). -/
structure HEntry where
  ref     : Nat
  kind    : HKind
  pages   : List Nat
  pend    : Bool
  gen     : Nat
  tid     : Nat
  rexp    : List (BitVec 16)
  cexp    : List (BitVec 16)
  rflag   : BitVec 32
  cflag   : BitVec 32
  bound   : BitVec 32
  part    : Nat
  km1     : Nat
  keyType : Nat
  count   : List Nat
  mode    : Nat
  clear   : Bool
  isSealed : Bool
  pruned  : BitVec 16
  accFields : Bool
  payer   : Nat
  deriving DecidableEq, Repr

/-- A free entry as reset leaves it: GEN 0x0001, everything else zero (R60). -/
def HEntry.empty : HEntry :=
  { ref := 0, kind := .free, pages := [], pend := false, gen := 1, tid := 0, rexp := [], cexp := [], rflag := 0, cflag := 0,
    bound := 0, part := 0, km1 := 0, keyType := 0, count := [], mode := 0, clear := false, isSealed := false, pruned := 0, accFields := false, payer := 0 }

/-- A prune binding (R346). -/
structure Binding where
  hidx : Nat
  gen  : Nat
  deriving DecidableEq, Repr

/-- A coordinate token in a PE's queue, tagged with its node and frame (R352). -/
structure Coord where
  node    : Nat
  fp      : Nat
  payload : Word
  deriving DecidableEq, Repr

/-- What is to be consumed and discarded for a node and frame, on behalf of issued firing `id`: the tokens of an smma up to a tile stop
(R353), a message of a leader (R350, R351), or, on a follower, a message that the link has already answered (R350). -/
structure Discard where
  node : Nat
  fp   : Nat
  id   : Nat
  deriving DecidableEq, Repr

/-- A message over the pair link: the leader's PE, the frame, and either the follower's sums or BROKEN (R350). -/
structure PairMsg where
  pe   : Nat
  fp   : Nat
  sums : Option (List CellSum)
  deriving DecidableEq, Repr

/-- Why a master is frozen (R417) and, for a retry or a fail, the work that faulted (R418). -/
inductive FreezeReason where
  | protection (req : Nat)
  | capability (cmd : Nat)
  | gate (req : Nat)
  | register (cmd : Nat)
  | brk
  | forced
  deriving DecidableEq, Repr

/-- A frozen unit of a bulkhead, by SKIND and index (R417), with its reason and the VF it was frozen for. -/
structure FrozenUnit where
  kind : Nat
  idx  : Nat
  why  : FreezeReason
  vf   : Nat
  deriving DecidableEq, Repr

/-- A VF_RESET_DONE that waits for bulkheads under reset (R446): the VF, the bulkhead that posts it, the queue entries removed (R419), and the bulkheads awaited. -/
structure VfDone where
  vf    : Nat
  bh    : Nat
  count : Nat
  wait  : List Nat
  deriving DecidableEq, Repr

/-- A root barrier's limit count: its node, its frame, and the resident-cycle counts at the first arrivals of phases CUR and CUR + 1 (R401). A
held arrival keeps its own in its flight's `due`. -/
structure BarTimer where
  node  : Nat
  fp    : Nat
  since : Option Nat
  next  : Option Nat
  deriving DecidableEq, Repr

/-- A processing element: its five stores (R45 to R63) and the state of its matching and issue stages (R217 to R238). `late` holds what takes
effect at the end of the BH cycle (R58, R288, R289), each with its firing; `reads` the operand tiles that the matrix array has finished reading at
the end of a cycle (R347): that cycle, the handle-table index and its generation; `spoilt` marks the ECC units of its stores that hold an uncorrectable
error, each by its first byte in the store windows (R64, log 142); `phys` says that the PE has fired an afence (R168). -/
structure PE where
  instr    : SMap Byte
  frames   : SMap Word
  tags     : SMap (BitVec 16)
  fmap     : SMap (BitVec 5)
  finfo    : List (Nat × FrameInfo)
  acc      : SMap Byte
  handles  : SMap HEntry
  tile     : SMap Byte
  full     : SMap Bool
  spoilt   : SMap Bool
  ready    : List Firing
  held     : List Flight
  issued   : List Issued
  fetch    : List Tag
  cells    : SMap Nat
  sites    : List ((Nat × Nat) × Nat)
  bars     : SMap (BitVec 32)
  hold     : List Flight
  timers   : List BarTimer
  prune    : List (Nat × Binding)
  coord    : List Coord
  discards : List Discard
  units    : SMap Nat
  late     : List (Firing × Effect)
  reads    : List (Nat × Nat × Nat)
  phys     : Bool
  issueAt  : Nat
  localAt  : Nat
  routerAt : Nat
  frozen   : Option FreezeReason
  deriving DecidableEq, Repr

/-- A PE holding nothing (R46). -/
def PE.empty : PE :=
  { instr := [], frames := [], tags := [], fmap := [], finfo := [], acc := [], handles := [], tile := [], full := [], spoilt := [], ready := [],
    held := [], issued := [], fetch := [], cells := [], sites := [], bars := [], hold := [], timers := [], prune := [], coord := [],
    discards := [], units := [], late := [], reads := [], phys := false, issueAt := 0, localAt := 0, routerAt := 0, frozen := none }

/-- The residency state of a slot (R392); `idle` before any VF has been resident. -/
inductive SlotState where
  | idle | resident | saving | restoring
  deriving DecidableEq, Repr

/-- A slot: who is resident and for how long (R392), the random tile generator with the
queue of (PE, issued firing) that wait at it and the cycle from which it is free (R270, R330), the routing counters (R396), the energy delta
(R425), and which quantum-table entries were entered by lending, with the table's words before the loan (R391, R394); `foldDue` says that the delta is folded as the BH cycle ends (R425, R477). -/
structure Slot where
  st        : SlotState
  vf        : Nat
  qcount    : Nat
  resCycles : Nat
  endNow    : Bool
  rngKey    : Word
  rngStream : BitVec 32
  rngCtr    : Word
  rngQueue  : List (Nat × Nat)
  rngAt     : Nat
  rcnt      : SMap (BitVec 32)
  delta     : Nat
  foldAt    : Nat
  borrowed  : List Nat
  displaced : List Word
  reclaim   : Bool
  foldDue   : Bool := false
  deriving DecidableEq, Repr

/-- A slot nothing has been resident in (R392, R270). -/
def Slot.empty : Slot :=
  { st := .idle, vf := 0, qcount := 0, resCycles := 0, endNow := false, rngKey := 0, rngStream := 0, rngCtr := 0, rngQueue := [],
    rngAt := 0, rcnt := [], delta := 0, foldAt := 0, borrowed := [], displaced := [], reclaim := false }

/-- A TID entry (R102). -/
structure TidEntry where
  tid    : Nat
  fmt    : Ty
  form   : Nat
  planes : Nat
  rows   : Nat
  scale  : Int
  ibase  : BitVec 32
  deriving DecidableEq, Repr

/-- A placed configuration and its phase group (R105, R159, R216, R232). `valid` is the valid bit its PEs hold; a saved configuration
of a VF that is switched out keeps its place with `valid` false (R234). `boundary` is the lowest phase whose boundary is not complete;
`arrivals` lists (PE, node, phase, clamped scope) of the firings counted for phases from `boundary` up; `waveSeen` the (wave, LSID)
pairs counted for R164; `waitAt` the cycle from which a saved configuration waits for a slot (R237); `keys` what its last publications still wait for (R160, R161). `phNodes` lists its phase nodes as (PE, node). `outs` holds the multicast consumers' states: (descriptor, consumer, OUT, detached) (R206). -/
structure Placed where
  id       : Nat
  vf       : Nat
  bh       : Nat
  ox       : Nat
  oy       : Nat
  w        : Nat
  h        : Nat
  nbase    : Nat
  ncount   : Nat
  mode     : Nat
  respat   : Nat
  wavemask : BitVec 32
  lid      : Nat
  root     : Bool
  image    : Nat
  tids     : List TidEntry
  descs    : List (BitVec 256)
  pols     : List (BitVec 32)
  valid    : Bool
  boundary : Nat
  arrivals : List (Nat × Nat × Nat × Nat)
  pePhase  : SMap Nat
  waveNext : Nat
  waveSeen : List (Nat × Nat)
  outs     : List (Nat × Nat × List (Nat × Nat) × Bool)
  keys     : List Nat
  phNodes  : List (Nat × Nat)
  waitAt   : Nat := 0
  deriving DecidableEq, Repr

/-- The agents that issue requests and commands (R29, R156). `peNo` is a PE number within bulkhead b. -/
inductive Agent where
  | pe (b peNo : Nat)
  | pump (b cl : Nat)
  | gather (b sl : Nat)
  | stream (b peNo : Nat)
  | well (b : Nat)
  | seqr (b : Nat)
  | qctl (b : Nat)
  | host
  | spoke (port : Nat)
  deriving DecidableEq, Repr

/-- The outcome of translating one part of a request (R29, R30): the physical address and the leaf's COMP, HOSTCACHE and WIN bits, or
a reason of R35 with the level at which the walk stopped and the virtual address of the first faulting byte. -/
inductive XRes where
  | ok (pa : Nat) (comp hostc win : Bool)
  | bad (reason level addr : Nat)
  deriving DecidableEq, Repr

/-- A part of a request inside one 16 KiB page (R30), and the level of the leaf that it was resolved through, 0 for none (R34, R40). -/
structure ReqPart where
  va  : Nat
  off : Nat
  len : Nat
  res : Option XRes
  leaf : Nat
  deriving DecidableEq, Repr

/-- How far a sector request has come (R112 to R114). -/
inductive Stage where
  | waiting
  | slotted
  | arrived
  | inbound
  | queued
  | window
  | reply
  | host
  | spoke (port tag : Nat)
  | done
  deriving DecidableEq, Repr

/-- What performing an access gave: its bytes, the offsets withheld (R130), its error and its flags. -/
structure Done where
  bytes : List Byte
  bad   : List Nat
  err   : Option Word
  flags : BitVec 9
  deriving DecidableEq, Repr

/-- One sector request of a request (R112): its bytes [off, off+len) of the request at physical address pa, none for a sector that is read for the
block's sake alone (R142), and the bulkhead it has reached (R407). `key` is its number in the request; `seq` orders arrival at a gate and acceptance at a
sparse-update unit (R114, R126); `slotRes` and `inRes` say that it holds a reserved sector slot or inbound entry (R113, R114), `bare` that it takes no
slot; `ans` is its answer, where the request's access to its block has been performed before it came there (R147); `err` is the error it met; `atPort` orders the
pieces that wait for a tag at a spoke port (R454). -/
structure Piece where
  key   : Nat
  off   : Nat
  len   : Nat
  pa    : Nat
  comp  : Bool
  hostc : Bool
  stage : Stage
  reached : Nat
  seq   : Nat
  slotRes : Bool
  inRes : Bool
  bare  : Bool
  ans   : Option Done
  err   : Option Word
  atPort : Option Nat := none
  deriving DecidableEq, Repr

/-- The operation of an atomic, reduction or join (R209, R210, R376). `op` is the low opcode offset from atom.add: 0 add, 1 fadd, 2 min,
3 max, 4 and, 5 or, 6 xor, 7 xchg, 8 cas; 9 is the join-counter update. -/
structure AtomOp where
  op      : Nat
  ty      : Ty
  operand : Word
  cmp     : Word
  det     : Bool
  red     : Bool
  deriving DecidableEq, Repr

/-- Who receives the outcome of a request; `gone`: its requester has been reset, and the reply is discarded (R120). -/
inductive Owner where
  | tag (id : Nat)
  | store (sid : Nat)
  | cmd (cid row : Nat)
  | red
  | join
  | pub (pe : Nat)
  | gone
  deriving DecidableEq, Repr

/-- Where a request stands (R29 to R39, R112). -/
inductive ReqState where
  | atWell
  | walking
  | parked (pid : Nat) (reserve : Bool)
  | refused (atCycle : Nat)
  | frozen
  | moving
  | finished
  deriving DecidableEq, Repr

/-- A request from an agent to the memory system (R29). `supply` holds the bytes its PE's own pending stores supply (R162); `got` the
bytes returned so far; `heldFor` the group and phase whose publication it waits for (R160); `waitFor` the earlier writes an acquire
or a release makes it wait for (R173, R176); `mode` ldt's read mode (R186); `cfg` and `phase` those of a node load (R160, R162); `mask` which bytes a
write writes, empty for all of them (R146); `ord` orders its arrival at the well, and among the parked (R31, R38). -/
structure Req where
  id      : Nat
  ord     : Nat
  bh      : Nat
  agent   : Agent
  kind    : Nat
  node    : Nat
  vf      : Nat
  lid     : Nat
  prio    : Nat
  task    : Option Nat
  va      : Nat
  len     : Nat
  write   : Bool
  data    : List Byte
  mask    : List Bool
  atom    : Option AtomOp
  supply  : SMap Byte
  got     : SMap Byte
  mode    : Nat
  cfg     : Nat
  phase   : Nat
  heldFor : Option (Nat × Nat)
  waitFor : List Nat
  owner   : Owner
  st      : ReqState
  parts   : List ReqPart
  pieces  : List Piece
  err     : Option Word
  flags   : BitVec 9
  deriving DecidableEq, Repr

/-- A pending node store in a cistern (R160, R165): `parts` are its translated pieces (offset, physical address, length, COMP, HOSTCACHE),
empty until the translation at issue has been done (R167). `early` marks a store already published by an afence or a task (R168); `shared`
counts its entries that are not of its VF's reserve (R165); `tag` is the fetch tag of the tst whose row it is (R188); `leaving` lists the writes of its
publication, from when that has begun (R165); `payer` is the RCB from which its entries are charged (R367). -/
structure PStore where
  sid   : Nat
  bh    : Nat
  pe    : Nat
  vf    : Nat
  lid   : Nat
  cfg   : Nat
  phase : Nat
  wave  : Nat
  lsid  : Nat
  task  : Option Nat
  va    : Nat
  bytes : List Byte
  parts : List (Nat × Nat × Nat × Bool × Bool)
  early : Bool
  shared : Nat
  tag   : Option Nat
  leaving : Option (List Nat)
  payer : Nat
  deriving DecidableEq, Repr

/-- A command: an engine command, a queue command, a register access, a load or a drop of a configuration (R121, R202, R377, R434). The
instruction is its opcode. `stage` and `aux` hold its progress, `hidx` and `hgen` the tile it reads or fills, `mask` and `bad` what it
has counted, `since` the resident-cycle count from which a wait is counted (R206, R351); `begun` says that an engine has read its tiles and sent its first
requests (R173); `held` that its place at a queue controller is one of its VF's reserve (R395); `waitAt` the cycle from
which a copy waits for pages (R237). -/
structure Cmd where
  id      : Nat
  code    : Nat
  agent   : Agent
  f       : Firing
  node    : Node
  dests   : List (Option RDest)
  started : Bool
  begun   : Bool
  stage   : Nat
  aux     : Nat
  hidx    : Nat
  hgen    : Nat
  bad     : Nat
  mask    : Nat
  since   : Nat
  scope   : Nat
  waitFor : List Nat
  bytes   : List Byte
  flags   : BitVec 9
  held    : Bool := false
  waitAt  : Nat := 0
  deriving DecidableEq, Repr

/-- A task-page declaration (R374, R382): the virtual page, RD, WR, whether it is renamable, whether it has been mapped, and the page of the version it maps
to, none for version 0 (R384). -/
structure TPage where
  vpn   : Nat
  rd    : Bool
  wr    : Bool
  ren   : Bool
  mapped : Bool
  ver   : Option Nat
  deriving DecidableEq, Repr

/-- The states of a task (R386). -/
inductive TaskState where
  | accepted | waiting | ready | running | draining
  deriving DecidableEq, Repr

/-- A task in a dependence table (R382 to R386). `waitFor` lists the writes whose release its completion awaits (R385); `held` and `ovHeld` say that its
table entry and its overlay are of its VF's reserve (R395). -/
structure Task where
  id      : Nat
  seq     : Nat
  lid     : Nat
  bh      : Nat
  vf      : Nat
  st      : TaskState
  tw      : Word
  join    : Nat
  rcb     : Nat
  args    : List Word
  pages   : List TPage
  readyAt : Nat
  waitFor : List Nat
  held    : Bool := false
  ovHeld  : Bool := false
  deriving DecidableEq, Repr

/-- A version of a renamable page of a launch (R384): the virtual page, the physical page, the sequence number of the task that it was made for (R383), and
whether it is the current one. -/
structure Version where
  lid     : Nat
  vpn     : Nat
  page    : Nat
  maker   : Nat
  current : Bool
  deriving DecidableEq, Repr

/-- The states of a launch after it has left its queue (R387). -/
inductive LaunchState where
  | placing | starting | running | ending | ended
  deriving DecidableEq, Repr

/-- A launch (R373, R387, R388). -/
structure Launch where
  lid     : Nat
  bh      : Nat
  vf      : Nat
  st      : LaunchState
  image   : Nat
  rcb     : Nat
  compl   : Nat
  tq      : Word
  apool   : Nat
  apages  : Nat
  poolFree : List Nat
  blim    : Nat
  cls     : Nat
  argptr  : Nat
  args    : List Word
  cfg     : Nat
  rootFp  : Nat
  errcnt  : Nat
  exit    : Word
  halted  : Bool
  status  : Nat
  flags   : BitVec 9
  taskSeq : Nat
  prio    : Nat
  errhalt : Bool
  fdom    : Bool
  deriving DecidableEq, Repr

/-- The budgets of an RCB and the counts charged to it (R365, R367). -/
structure Budget where
  slot  : Nat
  page  : Nat
  frame : Nat
  qent  : Nat
  cist  : Nat
  task  : Nat
  deriving DecidableEq, Repr

/-- Nothing charged. -/
def Budget.zero : Budget := { slot := 0, page := 0, frame := 0, qent := 0, cist := 0, task := 0 }

/-- An RCB that the sequencer knows (R367): its effective values, fixed at activation, the budgets whose override bit is set (0: not charged here or no
limit), and what is charged to it now. One that is not `active` is kept for its counts alone. -/
structure Rcb where
  addr    : Nat
  active  : Bool
  parent  : Nat
  vf      : Nat
  fdom    : Bool
  prio    : Nat
  cap     : Nat
  strict  : Bool
  cfault  : Bool
  errhalt : Bool
  ecap    : Nat
  evq     : Nat
  quant   : Nat
  limit   : Budget
  used    : Budget
  ecapPosted : Bool
  deriving DecidableEq, Repr

/-- A translation-buffer entry (R31): the VF, the leaf's level, the index of the leaf's virtual range, and the leaf itself. -/
structure TlbEntry where
  vf    : Nat
  level : Nat
  vidx  : Nat
  pte   : Word
  deriving DecidableEq, Repr

/-- An invalidation in progress or queued (R40, R44): KIND, VF, virtual page, and the requests it still waits for. -/
structure Inval where
  kind    : Nat
  vf      : Nat
  vpage   : Nat
  begun   : Bool
  waitFor : List Nat
  deriving DecidableEq, Repr

/-- What a bulkhead holds beside its registers, slots and PEs: its clock count, well, sequencer and reset state. `posted` and
`lastIssue` serve STARVE (R237); `age`, `rrVf`, `rrCount` the dispatch decision (R389); `lidNext` the launch ids (R387); `stuck` the
VFs none of whose firings here is issuable, as a CISTERN_FULL step is judged (R166); `frozenUnits` the frozen units
(R417); `newTenant`, `oldBhctl`, `holdReq` and `railReq` belong to a reset (R412, R414): bit 63 of `oldBhctl` marks one that
GO began, the other bits are BHCTL as it was then; `frz` the FRZCTL operations that wait for a restore: OP, master and VF (R418); `mmt` is the miss-merge
table, as (VF, virtual page) in the order of opening (R31). -/
structure Bulk where
  cycle     : Nat
  tlb       : List TlbEntry
  mmt       : List (Nat × Nat)
  invals    : List Inval
  parks     : List (Nat × Nat × Nat)
  lidNext   : Nat
  rrVf      : Nat
  rrCount   : Nat
  age       : SMap Nat
  dispAt    : Nat
  scrubOff  : Nat
  scrubAt   : Nat
  ceAt      : Nat
  lastIssue : SMap Nat
  posted    : List Nat
  cfMode    : List (Nat × Nat)
  cfPosted  : List Nat
  stuck     : List Nat
  newTenant : Bool
  oldBhctl  : Word
  holdReq   : Bool
  railReq   : Bool
  frozenUnits : List FrozenUnit
  frz       : List (Nat × MasterId × Nat)
  deriving DecidableEq, Repr

/-- A bulkhead holding nothing. -/
def Bulk.empty : Bulk :=
  { cycle := 0, tlb := [], mmt := [], invals := [], parks := [], lidNext := 0, rrVf := 0, rrCount := 0, age := [], dispAt := 0, scrubOff := 0,
    scrubAt := 0, ceAt := 0, lastIssue := [], posted := [], cfMode := [], cfPosted := [], stuck := [], newTenant := false, oldBhctl := 0,
    holdReq := false, railReq := false, frozenUnits := [], frz := [] }

/-- The state of a codeword of HBM (R128, R129). `correctable` and `uncorrectable` are errors the well has not met yet. -/
inductive Ecc where
  | good | correctable | uncorrectable | poisoned
  deriving DecidableEq, Repr

/-- The saved context of a VF in a slot, beside what its slot block holds in memory (R429 to R432): what stands in the areas the manual calls
opaque. `slot` is the slot's own state as it was saved, `links` the messages of its pair links by cluster, `units` its frozen engines. -/
structure Saved where
  vf    : Nat
  bh    : Nat
  sl    : Nat
  slot  : Slot
  pes   : List (Nat × PE)
  links : List (Nat × List PairMsg)
  units : List FrozenUnit
  deriving DecidableEq, Repr

/-- What happens next, when the schedule of the run says so: the issue of the k-th firing of a PE's ready queue, a machine step of the
table, or the passing of one BH cycle of a bulkhead. -/
inductive Choice where
  | issue (b pe k : Nat)
  | happen (i : Instr)
  | tick (b : Nat)
  deriving DecidableEq, Repr

/-- The firing a meaning reads before any firing has been issued. -/
def Firing.empty : Firing :=
  { bh := 0, pe := 0, node := 0, fp := 0, vf := 0, l := none, r := none, p := none, prio := 0, urgent := false, matchCycle := 0,
    resAt := 0, cfg := 0, lid := 0xFFFF, task := none, broken := false, rsv := false, aged := false, wave := 0,
    fails := false }

/-- The whole package. `regs` is keyed by the management offset b*2^24 + offset; `mem` by the physical address; `bmeta` by block
number; `ecc` by codeword number; `pes`, `slots`, `links` and `bhs` by b*512 + PE, b*32 + slot, b*128 + cluster and b. `cur` is the
firing being issued. `agenda` is the schedule of the run, `fresh` the model's own counter that free values are drawn with, and
`nextId` numbers requests, commands, tasks and configurations. -/
structure State where
  regs     : SMap Word
  nrgRem   : SMap Nat
  mem      : List Host.Cell
  bmeta    : SMap Byte
  ecc      : SMap Ecc
  pes      : SMap PE
  slots    : SMap Slot
  links    : SMap (List PairMsg)
  bhs      : SMap Bulk
  cfgs     : List Placed
  launches : List Launch
  tasks    : List Task
  versions : List Version
  rcbs     : List Rcb
  flights  : List Flight
  inject   : List Flight
  reqs     : List Req
  cmds     : List Cmd
  stores   : List PStore
  saved    : List Saved
  errSeq   : SMap Nat
  evSeq    : SMap Nat
  spokeOut : List (Nat × Flit)
  vfDone   : List VfDone
  powered  : Bool
  cur      : Firing
  agenda   : List Choice
  fresh    : Nat
  nextId   : Nat
  deriving DecidableEq, Repr

/-- BHSTAT of every bulkhead after bring-up: STATE HELD, RAILON 1 (R411, R457); the other registers hold their reset values. -/
def resetRegs : SMap Word :=
  [(0x00020008, 0x12), (0x01020008, 0x12), (0x02020008, 0x12), (0x03020008, 0x12), (0x04020008, 0x12), (0x05020008, 0x12),
   (0x06020008, 0x12), (0x07020008, 0x12), (0x08020008, 0x12), (0x09020008, 0x12), (0x0A020008, 0x12), (0x0B020008, 0x12)]

/-- The package right after bring-up (R457 step 5): every bulkhead HELD with its registers at reset, HBM all ZERO blocks (R155), every
store, queue and table empty, no schedule. -/
def State.reset : State :=
  { regs := resetRegs, nrgRem := [], mem := [], bmeta := [], ecc := [], pes := [], slots := [], links := [], bhs := [], cfgs := [],
    launches := [], tasks := [], versions := [], rcbs := [], flights := [], inject := [], reqs := [], cmds := [], stores := [], saved := [],
    errSeq := [], evSeq := [], spokeOut := [], vfDone := [], powered := true, cur := Firing.empty, agenda := [], fresh := 0, nextId := 1 }

end Sys2Proof.Machine
end

