-- ==== Sys2Proof/Machine/Fields.lean ====
section
/-! DEFINITION. Bit fields, sign extension, byte order (R11), the codes of types, ports, kinds and frame modes (R68, R70, R75, R82), and
the numbers of PEs, clusters and slots (R2 to R4). -/

namespace Sys2Proof.Machine

/-- Bits [lo + len - 1 : lo] of a natural number (R11). -/
def bits (x lo len : Nat) : Nat := x / 2 ^ lo % 2 ^ len

/-- Bit i of a natural number. -/
def bitAt (x i : Nat) : Bool := x / 2 ^ i % 2 == 1

/-- The low w bits of x read as two's complement. -/
def sextInt (w x : Nat) : Int := if x % 2 ^ w < 2 ^ (w - 1) then ((x % 2 ^ w : Nat) : Int) else ((x % 2 ^ w : Nat) : Int) - (2 ^ w : Nat)

/-- An integer modulo 2^w. -/
def wrapNat (w : Nat) (x : Int) : Nat := (x % ((2 ^ w : Nat) : Int)).toNat

/-- A payload from a natural number. -/
def word (x : Nat) : Word := BitVec.ofNat 64 x

/-- A Bool as a bit. -/
def b2n (b : Bool) : Nat := if b then 1 else 0

/-- The little-endian value of a list of bytes (R11). -/
def leNat : List Byte → Nat
  | [] => 0
  | b :: bs => b.toNat + 256 * leNat bs

/-- n bytes of x, little-endian (R11). -/
def leBytes : Nat → Nat → List Byte
  | 0, _ => []
  | n + 1, x => BitVec.ofNat 8 x :: leBytes n (x / 256)

/-- Bytes [off, off + len) of a list, zeros past its end. -/
def slice (bs : List Byte) (off len : Nat) : List Byte :=
  let t := (bs.drop off).take len
  t ++ List.replicate (len - t.length) 0

/-- The little-endian field of `len` bytes at byte `off`. -/
def fieldAt (bs : List Byte) (off len : Nat) : Nat := leNat (slice bs off len)

/-- The code of a type (R82). -/
def tyCode : Ty → Nat
  | .n64 => 0 | .i64 => 1 | .n32 => 2 | .i32 => 3 | .n16 => 4 | .i16 => 5 | .n8 => 6 | .i8 => 7
  | .t2 => 8 | .e2m1 => 9 | .e4m3 => 10 | .e5m2 => 11 | .bf16 => 12 | .f16 => 13 | .f32 => 14 | .f64 => 15

/-- The type of a code, of which only bits [3:0] are used (R82). -/
def tyOfCode (c : Nat) : Ty :=
  match c % 16 with
  | 0 => .n64 | 1 => .i64 | 2 => .n32 | 3 => .i32 | 4 => .n16 | 5 => .i16 | 6 => .n8 | 7 => .i8
  | 8 => .t2 | 9 => .e2m1 | 10 => .e4m3 | 11 => .e5m2 | 12 => .bf16 | 13 => .f16 | 14 => .f32 | _ => .f64

/-- The width of a type in bits (R274, R309). -/
def tyWidth : Ty → Nat
  | .n64 => 64 | .i64 => 64 | .n32 => 32 | .i32 => 32 | .n16 => 16 | .i16 => 16 | .n8 => 8 | .i8 => 8
  | .t2 => 2 | .e2m1 => 4 | .e4m3 => 8 | .e5m2 => 8 | .bf16 => 16 | .f16 => 16 | .f32 => 32 | .f64 => 64

/-- The lane width of a format (R252); n64 has none. -/
def laneWidth : Ty → Nat
  | .t2 => 8 | .e2m1 => 8 | .e4m3 => 8 | .e5m2 => 8 | .i8 => 8
  | .bf16 => 16 | .f16 => 16 | .n8 => 16 | .i16 => 16
  | .f32 => 32 | .n16 => 32 | .i32 => 32
  | _ => 64

/-- K of a format (R252). -/
def laneCount (t : Ty) : Nat := 4096 / laneWidth t

/-- The i types (R10). -/
def tySigned : Ty → Bool
  | .i64 => true | .i32 => true | .i16 => true | .i8 => true | _ => false

/-- The integer types, codes 0 to 7 (R82). -/
def tyInt (t : Ty) : Bool := tyCode t < 8

/-- The floating-point types, codes 9 to 15 (R241). -/
def tyFloat (t : Ty) : Bool := 8 < tyCode t

/-- The code of a port (R68). -/
def portCode : Port → Nat
  | .l => 0 | .r => 1 | .p => 2

/-- The port of a code; code 3 names none (R68). -/
def portOfCode (c : Nat) : Option Port :=
  match c % 4 with
  | 0 => some .l | 1 => some .r | 2 => some .p | _ => none

/-- The code of a frame mode (R70). -/
def fmCode : FrameMode → Nat
  | .cur => 0 | .nxt => 1 | .par => 2 | .dyn => 3

/-- The frame mode of a code (R70). -/
def fmOfCode (c : Nat) : FrameMode :=
  match c % 4 with
  | 0 => .cur | 1 => .nxt | 2 => .par | _ => .dyn

/-- The code of a token kind (R75). -/
def kindCode : Kind → Nat
  | .value => 0 | .handle => 1 | .null => 2 | .err => 3

/-- The kind of a code (R75). -/
def kindOfCode (c : Nat) : Kind :=
  match c % 4 with
  | 0 => .value | 1 => .handle | 2 => .null | _ => .err

/-- A value of width w as a payload: sign-extended for i types, zero-extended otherwise (R76). -/
def extend (t : Ty) (x : Nat) : Word :=
  if tySigned t then word (wrapNat 64 (sextInt (tyWidth t) x)) else word (x % 2 ^ tyWidth t)

/-- The operand of type t in a payload, as an integer (R76, R274). -/
def readInt (t : Ty) (v : Word) : Int :=
  if tySigned t then sextInt (tyWidth t) v.toNat else ((v.toNat % 2 ^ tyWidth t : Nat) : Int)

/-- The least value of an integer type, and of t2 as element operations give it (R239, R240). -/
def tyMin : Ty → Int
  | .t2 => -1
  | t => if tySigned t then -((2 ^ (tyWidth t - 1) : Nat) : Int) else 0

/-- The greatest value of an integer type, and of t2 (R239, R240). -/
def tyMax : Ty → Int
  | .t2 => 1
  | t => if tySigned t then ((2 ^ (tyWidth t - 1) : Nat) : Int) - 1 else ((2 ^ tyWidth t : Nat) : Int) - 1

/-- x clamped to [lo, hi]. -/
def clampInt (lo hi x : Int) : Int := if x < lo then lo else if hi < x then hi else x

/-- Quotient rounded up. -/
def ceilDiv (a b : Nat) : Nat := (a + b - 1) / b

/-- The key of PE `pe` of bulkhead `b` in State.pes (R3). -/
def peKey (b pe : Nat) : Nat := b * 512 + pe

/-- The slot of a PE (R3). -/
def slotOf (pe : Nat) : Nat := pe / 64 * 4 + pe % 16 / 4

/-- The cluster of a PE (R3). -/
def clusterOf (pe : Nat) : Nat := pe / 32 * 8 + pe % 16 / 2

/-- The PEs of a slot (R3). -/
def slotPes (sl : Nat) : List Nat :=
  (List.range 16).map fun i => (sl / 4 * 4 + i / 4) * 16 + (sl % 4 * 4 + i % 4)

/-- Whether a PE is a converter (R4). -/
def isConverter (pe : Nat) : Bool :=
  let x := pe % 16 % 4
  let y := pe / 16 % 4
  (x == 0 && y == 0) || (x == 2 && y == 2)

/-- Hops between two PEs of a bulkhead (R227). -/
def hops (a b : Nat) : Nat := (Int.natAbs ((a % 16 : Int) - (b % 16 : Int))) + (Int.natAbs ((a / 16 : Int) - (b / 16 : Int)))

end Sys2Proof.Machine
end

