-- ==== Sys2Proof/Machine/Flags.lean ====
section
/-! DEFINITION. The sticky flags (R75, R250), the policy word (R101), the floating-point formats (R241), and the rounding of exact values
with the flags it raises (R242 to R249). Exact values are rationals n/d with a sign; nothing here approximates. -/

namespace Sys2Proof.Machine

/-- The nine flags in the order of the token FLAGS field (R75). -/
abbrev FlagSet := BitVec 9

def flagInvalid : FlagSet := 0x001
def flagDivzero : FlagSet := 0x002
def flagOverflow : FlagSet := 0x004
def flagUnderflow : FlagSet := 0x008
def flagInexact : FlagSet := 0x010
def flagNoncanon : FlagSet := 0x020
def flagEmptyRead : FlagSet := 0x040
def flagSaturated : FlagSet := 0x080
def flagNanDropped : FlagSet := 0x100

/-- A flag when a condition holds. -/
def flagIf (c : Bool) (f : FlagSet) : FlagSet := if c then f else 0

/-- The policy word of a firing (R101). -/
structure Policy where
  ftzi   : Bool
  ftzo   : Bool
  nanpay : Bool
  ovfinf : Bool
  evmask : FlagSet
  deriving DecidableEq, Repr

/-- The fields of a PEPOL word (R101). -/
def policyOf (w : BitVec 32) : Policy :=
  { ftzi := w.getLsbD 0, ftzo := w.getLsbD 1, nanpay := w.getLsbD 2, ovfinf := w.getLsbD 3, evmask := w.extractLsb' 4 9 }

/-- The policy under which bounds are rounded (R190, R256): nothing flushed, an overflow is infinite. -/
def boundPolicy : Policy := { ftzi := false, ftzo := false, nanpay := false, ovfinf := true, evmask := 0 }

/-- The policy of the sparse-update units (R211): nothing flushed, canonical NaNs. -/
def updatePolicy : Policy := boundPolicy

/-- What X all ones means in a format (R241). -/
inductive Special where
  | ordinary | nanOnly | ieee
  deriving DecidableEq, Repr

/-- A floating-point format: fraction bits, bias, the magnitude code of the largest finite value, and what X all ones means. -/
structure FloatFmt where
  m       : Nat
  bias    : Nat
  maxMag  : Nat
  special : Special
  canon   : Nat
  deriving DecidableEq, Repr

/-- The formats of R241; integer types never reach this with a meaning and read as f64. -/
def floatFmt : Ty → FloatFmt
  | .e2m1 => ⟨1, 1, 7, .ordinary, 0⟩
  | .e4m3 => ⟨3, 7, 0x7E, .nanOnly, 0x7F⟩
  | .e5m2 => ⟨2, 15, 0x7B, .ieee, 0x7E⟩
  | .bf16 => ⟨7, 127, 0x7F7F, .ieee, 0x7FC0⟩
  | .f16 => ⟨10, 15, 0x7BFF, .ieee, 0x7E00⟩
  | .f32 => ⟨23, 127, 0x7F7FFFFF, .ieee, 0x7FC00000⟩
  | _ => ⟨52, 1023, 0x7FEFFFFFFFFFFFFF, .ieee, 0x7FF8000000000000⟩

/-- emin of a format (R241). -/
def fmtEmin (f : FloatFmt) : Int := 1 - (f.bias : Int)

/-- A decoded floating-point value: a NaN with its sign, whether it signals, and its fraction aligned to 52 bits; an infinity; or
(-1)^s * m * 2^e, zero included (R241). -/
inductive FloatVal where
  | nan (s sig : Bool) (frac : Nat)
  | inf (s : Bool)
  | fin (s : Bool) (m : Nat) (e : Int)
  deriving DecidableEq, Repr

/-- Decode the bits of a floating-point type (R241). -/
def floatDecode (t : Ty) (x : Nat) : FloatVal :=
  let f := floatFmt t
  let w := tyWidth t
  let s := bitAt x (w - 1)
  let mag := x % 2 ^ (w - 1)
  let xf := mag / 2 ^ f.m
  let mf := mag % 2 ^ f.m
  if f.maxMag < mag then
    match f.special with
    | .ordinary => .fin s 0 0
    | .nanOnly => .nan s false (mf * 2 ^ (52 - f.m))
    | .ieee => if mf = 0 then .inf s else .nan s (mf < 2 ^ (f.m - 1)) (mf * 2 ^ (52 - f.m))
  else if xf = 0 then .fin s mf (fmtEmin f - f.m)
  else .fin s (2 ^ f.m + mf) ((xf : Int) - f.bias - f.m)

/-- Whether the bits are a subnormal of the type (R246). -/
def isSubnormal (t : Ty) (x : Nat) : Bool :=
  let f := floatFmt t
  let mag := x % 2 ^ (tyWidth t - 1)
  0 < mag && mag < 2 ^ f.m

/-- Decode with FTZI applied (R246). -/
def floatRead (pol : Policy) (t : Ty) (x : Nat) : FloatVal :=
  if pol.ftzi && isSubnormal t x then .fin (bitAt x (tyWidth t - 1)) 0 0 else floatDecode t x

/-- A result and the flags it raises. -/
structure FloatRes where
  val   : Nat
  flags : FlagSet
  deriving DecidableEq, Repr

/-- The sign bit of a type. -/
def signBit (t : Ty) (s : Bool) : Nat := if s then 2 ^ (tyWidth t - 1) else 0

/-- ROUNDINT of the exact a = n/d (R243). Mode codes are those of R242. -/
def roundInt (n d : Nat) (s : Bool) (mode u : Nat) : Nat :=
  let m := n / d
  let r := n % d
  let up : Bool :=
    match mode with
    | 0 => d < 2 * r || (2 * r == d && m % 2 == 1)
    | 1 => false
    | 2 => 0 < r && !s
    | 3 => 0 < r && s
    | 4 => d ≤ 2 * r
    | _ => 2 ^ 16 ≤ r * 2 ^ 16 / d + u
  if up then m + 1 else m

/-- n/d times 2^k, as a numerator and a denominator. -/
def scaleNum (n : Nat) (k : Int) : Nat := n * 2 ^ k.toNat
def scaleDen (d : Nat) (k : Int) : Nat := d * 2 ^ (-k).toNat

/-- floor(log2(n/d)) for n, d above 0. -/
def log2Floor (n d : Nat) : Int :=
  let e := (Nat.log2 n : Int) - Nat.log2 d
  if d * 2 ^ e.toNat ≤ n * 2 ^ (-e).toNat then e else e - 1

/-- The outcome of an overflow (R244). -/
def overflowRes (t : Ty) (pol : Policy) (mode : Nat) (s : Bool) : FloatRes :=
  let f := floatFmt t
  let sb := signBit t s
  let toMax : Bool := mode == 1 || (mode == 2 && s) || (mode == 3 && !s)
  let base := flagOverflow ||| flagInexact
  if toMax then ⟨sb + f.maxMag, base⟩
  else
    match t with
    | .f32 => ⟨sb + f.maxMag + 1, base⟩
    | .f64 => ⟨sb + f.maxMag + 1, base⟩
    | .e2m1 => ⟨sb + f.maxMag, base ||| flagSaturated⟩
    | _ => if pol.ovfinf then ⟨sb + f.maxMag + 1, base⟩ else ⟨sb + f.maxMag, base ||| flagSaturated⟩

/-- RND of the exact value (-1)^s * n/d, n above 0, with R244 and R245 (R243). -/
def rnd (t : Ty) (pol : Policy) (mode u : Nat) (s : Bool) (n d : Nat) : FloatRes :=
  let f := floatFmt t
  let e := log2Floor n d
  let q := max e (fmtEmin f) - f.m
  let num := scaleNum n (-q)
  let den := scaleDen d (-q)
  let m0 := roundInt num den s mode u
  let carry : Bool := m0 == 2 ^ (f.m + 1)
  let m := if carry then 2 ^ f.m else m0
  let q' := if carry then q + 1 else q
  let inexact : Bool := m0 * den != num
  let tiny : Bool := e < fmtEmin f
  let mag := if 2 ^ f.m ≤ m then (q' + f.m + f.bias).toNat * 2 ^ f.m + (m - 2 ^ f.m) else m
  if f.maxMag < mag then overflowRes t pol mode s
  else if pol.ftzo && tiny && m != 0 then ⟨signBit t s, flagUnderflow ||| flagInexact⟩
  else ⟨signBit t s + mag, flagIf inexact flagInexact ||| flagIf (tiny && inexact) flagUnderflow⟩

/-- RND of m * 2^e, where m may be zero; a zero keeps the sign s. -/
def rndScaled (t : Ty) (pol : Policy) (mode u : Nat) (s : Bool) (m : Nat) (e : Int) : FloatRes :=
  if m = 0 then ⟨signBit t s, 0⟩ else rnd t pol mode u s (scaleNum m e) (scaleDen 1 e)

/-- The NaN a result takes (R248): the first NaN operand's payload with NANPAY, the canonical NaN otherwise; `raised` is what the operation
itself raises. -/
def nanResult (t : Ty) (pol : Policy) (ops : List FloatVal) (raised : FlagSet) : FloatRes :=
  let f := floatFmt t
  let sigs := ops.any fun v => match v with | .nan _ sig _ => sig | _ => false
  let fl := raised ||| flagIf sigs flagInvalid
  let first := ops.find? fun v => match v with | .nan _ _ _ => true | _ => false
  if t == .e2m1 then ⟨0, fl ||| flagInvalid⟩
  else
    match pol.nanpay, first with
    | true, some (.nan s _ frac) =>
      if t == .e4m3 then ⟨signBit t s + 0x7F, fl⟩
      else
        let q := 2 ^ 51
        let fr := if bitAt frac 51 then frac else frac + q
        ⟨signBit t s + (f.maxMag / 2 ^ f.m + 1) * 2 ^ f.m + fr / 2 ^ (52 - f.m), fl⟩
    | _, _ => ⟨f.canon, fl⟩

/-- An infinite result in a format that may lack infinities (R244). Only conversions meet such a format. -/
def infResult (t : Ty) (pol : Policy) (s : Bool) : FloatRes :=
  let f := floatFmt t
  match f.special with
  | .ieee => ⟨signBit t s + f.maxMag + 1, 0⟩
  | .nanOnly => if pol.ovfinf then ⟨signBit t s + 0x7F, flagInvalid⟩ else ⟨signBit t s + f.maxMag, flagSaturated⟩
  | .ordinary => ⟨signBit t s + f.maxMag, flagSaturated⟩

/-- The sign of an exact zero sum (R243): the operands' own when all are zeros of one sign, else − in rd and + otherwise. -/
def zeroSumSign (mode : Nat) (terms : List (Bool × Nat × Int)) : Bool :=
  if terms.all fun x => x.2.1 == 0 && x.1 then true
  else if terms.all fun x => x.2.1 == 0 && !x.1 then false
  else mode == 3

/-- The exact sum of terms (-1)^s * m * 2^e over the least exponent among them. -/
def exactSum (terms : List (Bool × Nat × Int)) : Int × Int :=
  let nz := terms.filter fun x => x.2.1 != 0
  let e0 := nz.foldl (fun a x => min a x.2.2) (nz.head?.map (·.2.2) |>.getD 0)
  (nz.foldl (fun a x => a + (if x.1 then -1 else 1) * ((x.2.1 * 2 ^ (x.2.2 - e0).toNat : Nat) : Int)) 0, e0)

/-- The exact sum of finite terms, rounded once (R243, R264). -/
def rndSum (t : Ty) (pol : Policy) (mode u : Nat) (terms : List (Bool × Nat × Int)) : FloatRes :=
  let (x, e) := exactSum terms
  if x = 0 then ⟨signBit t (zeroSumSign mode terms), 0⟩
  else rndScaled t pol mode u (decide (x < 0)) x.natAbs e

end Sys2Proof.Machine
end

