-- ==== Sys2Proof/Machine/Float.lean ====
section
/-! DEFINITION. Floating-point operations on bit patterns (R264, R300 to R306), comparisons, conversions (R249, R304, R333), and the special
functions by their reference procedures (R265 to R269). Every result is exact and rounded once. -/

namespace Sys2Proof.Machine

/-- Whether a value is a NaN. -/
def FloatVal.isNan : FloatVal → Bool
  | .nan _ _ _ => true
  | _ => false

/-- Whether a value is a signalling NaN. -/
def FloatVal.isSig : FloatVal → Bool
  | .nan _ sig _ => sig
  | _ => false

/-- The sign of a value. -/
def FloatVal.sign : FloatVal → Bool
  | .nan s _ _ => s
  | .inf s => s
  | .fin s _ _ => s

/-- The value with its sign inverted. -/
def FloatVal.neg : FloatVal → FloatVal
  | .nan s g f => .nan (!s) g f
  | .inf s => .inf (!s)
  | .fin s m e => .fin (!s) m e

/-- The sum of two values (R264). -/
def faddVal (t : Ty) (pol : Policy) (mode : Nat) (ops : List FloatVal) (a b : FloatVal) : FloatRes :=
  match a, b with
  | .nan _ _ _, _ => nanResult t pol ops 0
  | _, .nan _ _ _ => nanResult t pol ops 0
  | .inf s, .inf s' => if s = s' then infResult t pol s else nanResult t pol ops flagInvalid
  | .inf s, _ => infResult t pol s
  | _, .inf s => infResult t pol s
  | .fin s m e, .fin s' m' e' => rndSum t pol mode 0 [(s, m, e), (s', m', e')]

/-- fadd (R300). -/
def fadd (t : Ty) (pol : Policy) (mode : Nat) (x y : Nat) : FloatRes :=
  let a := floatRead pol t x
  let b := floatRead pol t y
  faddVal t pol mode [a, b] a b

/-- fsub: the subtrahend's sign is inverted first; a NaN operand keeps its own (R243, R248, R300). -/
def fsub (t : Ty) (pol : Policy) (mode : Nat) (x y : Nat) : FloatRes :=
  let a := floatRead pol t x
  let b := floatRead pol t y
  faddVal t pol mode [a, b] a b.neg

/-- fmul (R300). -/
def fmul (t : Ty) (pol : Policy) (mode : Nat) (x y : Nat) : FloatRes :=
  let a := floatRead pol t x
  let b := floatRead pol t y
  match a, b with
  | .nan _ _ _, _ => nanResult t pol [a, b] 0
  | _, .nan _ _ _ => nanResult t pol [a, b] 0
  | .inf s, .fin s' m _ => if m = 0 then nanResult t pol [a, b] flagInvalid else infResult t pol (s != s')
  | .fin s m _, .inf s' => if m = 0 then nanResult t pol [a, b] flagInvalid else infResult t pol (s != s')
  | .inf s, .inf s' => infResult t pol (s != s')
  | .fin s m e, .fin s' m' e' => rndScaled t pol mode 0 (s != s') (m * m') (e + e')

/-- ffma: l * r + p with one rounding; infinity times zero is invalid even beside a quiet NaN (R300). -/
def ffma (t : Ty) (pol : Policy) (mode : Nat) (x y z : Nat) : FloatRes :=
  let a := floatRead pol t x
  let b := floatRead pol t y
  let c := floatRead pol t z
  let ops := [a, b, c]
  match a, b with
  | .nan _ _ _, _ => nanResult t pol ops 0
  | _, .nan _ _ _ => nanResult t pol ops 0
  | .inf s, .fin s' m _ => if m = 0 then nanResult t pol ops flagInvalid else faddVal t pol mode ops (.inf (s != s')) c
  | .fin s m _, .inf s' => if m = 0 then nanResult t pol ops flagInvalid else faddVal t pol mode ops (.inf (s != s')) c
  | .inf s, .inf s' => faddVal t pol mode ops (.inf (s != s')) c
  | .fin s m e, .fin s' m' e' => faddVal t pol mode ops (.fin (s != s') (m * m') (e + e')) c

/-- The numerator and denominator of m * 2^e. -/
def ratNum (m : Nat) (e : Int) : Nat := scaleNum m e
def ratDen (e : Int) : Nat := scaleDen 1 e

/-- a / b of decoded values (R264). -/
def fdivVal (t : Ty) (pol : Policy) (mode : Nat) (ops : List FloatVal) (a b : FloatVal) : FloatRes :=
  match a, b with
  | .nan _ _ _, _ => nanResult t pol ops 0
  | _, .nan _ _ _ => nanResult t pol ops 0
  | .inf _, .inf _ => nanResult t pol ops flagInvalid
  | .inf s, .fin s' _ _ => infResult t pol (s != s')
  | .fin s _ _, .inf s' => ⟨signBit t (s != s'), 0⟩
  | .fin s m e, .fin s' m' e' =>
    if m' = 0 then
      if m = 0 then nanResult t pol ops flagInvalid
      else let r := infResult t pol (s != s'); ⟨r.val, r.flags ||| flagDivzero⟩
    else if m = 0 then ⟨signBit t (s != s'), 0⟩
    else rnd t pol mode 0 (s != s') (ratNum m (e - e')) (m' * ratDen (e - e'))

/-- fdiv (R300). -/
def fdiv (t : Ty) (pol : Policy) (mode : Nat) (x y : Nat) : FloatRes :=
  let a := floatRead pol t x
  let b := floatRead pol t y
  fdivVal t pol mode [a, b] a b

/-- frcp is fdiv(1, x) (R264). -/
def frcp (t : Ty) (pol : Policy) (mode : Nat) (x : Nat) : FloatRes :=
  let b := floatRead pol t x
  fdivVal t pol mode [b] (.fin false 1 0) b

/-- The integer square root by bits, from bit k down. -/
def isqrtFrom : Nat → Nat → Nat → Nat
  | 0, x, r => if (r + 1) * (r + 1) ≤ x then r + 1 else r
  | k + 1, x, r => isqrtFrom k x (if (r + 2 ^ (k + 1)) * (r + 2 ^ (k + 1)) ≤ x then r + 2 ^ (k + 1) else r)

/-- floor of the square root. -/
def isqrt (x : Nat) : Nat := isqrtFrom (Nat.log2 x / 2 + 1) x 0

/-- The square root of n/d rounded once (R243, R264). The root is computed to 100 bits and more; an inexact one is replaced by the point
half-way to the next integer of that scale, which lies on the same side of every point at which a rounding changes. -/
def rndSqrt (t : Ty) (pol : Policy) (mode : Nat) (n d : Nat) : FloatRes :=
  let k := 100 + Nat.log2 d
  let z := n * 4 ^ k / d
  let s := isqrt z
  if s * s * d = n * 4 ^ k then rnd t pol mode 0 false s (2 ^ k) else rnd t pol mode 0 false (2 * s + 1) (2 ^ (k + 1))

/-- fsqrt (R264). -/
def fsqrt (t : Ty) (pol : Policy) (mode : Nat) (x : Nat) : FloatRes :=
  let a := floatRead pol t x
  match a with
  | .nan _ _ _ => nanResult t pol [a] 0
  | .inf s => if s then nanResult t pol [a] flagInvalid else infResult t pol false
  | .fin s m e =>
    if m = 0 then ⟨signBit t s, 0⟩
    else if s then nanResult t pol [a] flagInvalid
    else rndSqrt t pol mode (ratNum m e) (ratDen e)

/-- frsq is 1 over the exact root (R264). -/
def frsq (t : Ty) (pol : Policy) (mode : Nat) (x : Nat) : FloatRes :=
  let a := floatRead pol t x
  match a with
  | .nan _ _ _ => nanResult t pol [a] 0
  | .inf s => if s then nanResult t pol [a] flagInvalid else ⟨0, 0⟩
  | .fin s m e =>
    if m = 0 then let r := infResult t pol s; ⟨r.val, r.flags ||| flagDivzero⟩
    else if s then nanResult t pol [a] flagInvalid
    else rndSqrt t pol mode (ratDen e) (ratNum m e)

/-- The order of two values that are not NaNs: whether a < b; −0 equals +0 (R303). -/
def fltVal (a b : FloatVal) : Bool :=
  match a, b with
  | .inf s, .inf s' => s && !s'
  | .inf s, _ => s
  | _, .inf s => !s
  | .fin s m e, .fin s' m' e' => (exactSum [(s, m, e), (!s', m', e')]).1 < 0
  | _, _ => false

/-- Equality of two values that are not NaNs (R303). -/
def feqVal (a b : FloatVal) : Bool :=
  match a, b with
  | .inf s, .inf s' => s == s'
  | .fin s m e, .fin s' m' e' => (exactSum [(s, m, e), (!s', m', e')]).1 == 0
  | _, _ => false

/-- fcmp under a condition code (R303): whether it holds, and its flags. -/
def fcmp (t : Ty) (pol : Policy) (cond : Nat) (x y : Nat) : Bool × FlagSet :=
  let a := floatRead pol t x
  let b := floatRead pol t y
  let nan := a.isNan || b.isNan
  let sig := a.isSig || b.isSig
  let ordered : Bool := 2 ≤ cond && cond ≤ 5
  let holds : Bool :=
    match cond with
    | 0 => !nan && feqVal a b
    | 1 => nan || !feqVal a b
    | 2 => !nan && fltVal a b
    | 3 => !nan && (fltVal a b || feqVal a b)
    | 4 => !nan && fltVal b a
    | 5 => !nan && (fltVal b a || feqVal a b)
    | 6 => nan
    | _ => !nan
  (holds, flagIf (sig || (nan && ordered)) flagInvalid)

/-- A value that no operation has rounded, encoded in its own format with FTZO applied (R245, R301). `bits` is its pattern after FTZI. -/
def flushOut (t : Ty) (pol : Policy) (x : Nat) : FloatRes :=
  if pol.ftzo && isSubnormal t x then ⟨signBit t (bitAt x (tyWidth t - 1)), flagUnderflow ||| flagInexact⟩ else ⟨x % 2 ^ tyWidth t, 0⟩

/-- The pattern after FTZI (R246). -/
def flushIn (t : Ty) (pol : Policy) (x : Nat) : Nat :=
  if pol.ftzi && isSubnormal t x then signBit t (bitAt x (tyWidth t - 1)) else x % 2 ^ tyWidth t

/-- Whether a is below b when −0 counts as less than +0 (R301). -/
def fbelow (a b : FloatVal) : Bool :=
  fltVal a b || (feqVal a b && a.sign && !b.sign)

/-- minimumNumber or maximumNumber (R301). -/
def fminmax (t : Ty) (pol : Policy) (isMax : Bool) (x y : Nat) : FloatRes :=
  let x' := flushIn t pol x
  let y' := flushIn t pol y
  let a := floatDecode t x'
  let b := floatDecode t y'
  let sig := flagIf (a.isSig || b.isSig) flagInvalid
  let res : FloatRes :=
    if a.isNan && b.isNan then nanResult t pol [a, b] 0
    else if a.isNan then flushOut t pol y'
    else if b.isNan then flushOut t pol x'
    else if isMax then (if fbelow a b then flushOut t pol y' else flushOut t pol x')
    else if fbelow b a then flushOut t pol y' else flushOut t pol x'
  ⟨res.val, res.flags ||| sig⟩

/-- fclass (R302). -/
def fclass (t : Ty) (x : Nat) : Nat :=
  match floatDecode t x with
  | .nan _ sig _ => if sig then 1 else 2
  | .inf s => if s then 4 else 0x200
  | .fin s m _ =>
    if m = 0 then (if s then 0x20 else 0x40)
    else if isSubnormal t x then (if s then 0x10 else 0x80)
    else if s then 8 else 0x100

/-- frnd: to an integral value of its own format (R305). -/
def frnd (t : Ty) (pol : Policy) (mode : Nat) (x : Nat) : FloatRes :=
  let a := floatRead pol t x
  match a with
  | .nan _ _ _ => nanResult t pol [a] 0
  | .inf s => infResult t pol s
  | .fin s m e =>
    let n := ratNum m e
    let d := ratDen e
    let k := roundInt n d s mode 0
    let r := rndScaled t pol 1 0 s k 0
    ⟨r.val, flagIf (k * d != n) flagInexact⟩

/-- fscl: l * 2^n rounded once (R306). An n outside ±5,000 overflows or underflows exactly as the nearer bound does. -/
def fscl (t : Ty) (pol : Policy) (mode : Nat) (x : Nat) (n : Int) : FloatRes :=
  let a := floatRead pol t x
  match a with
  | .nan _ _ _ => nanResult t pol [a] 0
  | .inf s => infResult t pol s
  | .fin s m e => rndScaled t pol mode 0 s m (e + clampInt (-5000) 5000 n)

/-- An exact integer to a floating-point type (R249). -/
def intToFloat (t : Ty) (pol : Policy) (mode u : Nat) (v : Int) : FloatRes := rndScaled t pol mode u (decide (v < 0)) v.natAbs 0

/-- A floating-point value to a floating-point type (R249, R304). -/
def floatToFloat (t src : Ty) (pol : Policy) (mode u : Nat) (x : Nat) : FloatRes :=
  let a := floatRead pol src x
  match a with
  | .nan _ _ _ => nanResult t pol [a] 0
  | .inf s => infResult t pol s
  | .fin s m e => rndScaled t pol mode u s m e

/-- A floating-point value to an integer, saturating to [lo, hi] (R249). -/
def floatToInt (lo hi : Int) (src : Ty) (pol : Policy) (mode u : Nat) (x : Nat) : Int × FlagSet :=
  match floatRead pol src x with
  | .nan _ _ _ => (0, flagInvalid)
  | .inf s => (if s then lo else hi, flagInvalid ||| flagSaturated)
  | .fin s m e =>
    let n := ratNum m e
    let d := ratDen e
    let k := roundInt n d s mode u
    let v : Int := if s then -(k : Int) else k
    if v < lo then (lo, flagInvalid ||| flagSaturated)
    else if hi < v then (hi, flagInvalid ||| flagSaturated)
    else (v, flagIf (k * d != n) flagInexact)

/-- 2^128, the scale of the reference procedures (R265). -/
def one128 : Nat := 2 ^ 128

/-- L and G of R265. -/
def ln2Const : Nat := 0xB17217F7D1CF79AB
def log2eConst : Nat := 0x171547652B82FE177

/-- EXPM1F (R265). -/
def expm1f (y : Nat) : Nat :=
  ((List.range 35).foldl (fun (a : Nat × Nat) k => let t := a.1 * y / ((k + 2) * one128); (t, a.2 + t)) (y, y)).2

/-- The least m with y div 2^m at most 2^128 (R265), found within `fuel` steps. -/
def expm1m : Nat → Nat → Nat → Nat
  | 0, _, m => m
  | fuel + 1, y, m => if one128 < y / 2 ^ m then expm1m fuel y (m + 1) else m

/-- EXPM1 (R265). Every caller's y lies below 2^11 * 2^128, so 64 steps are enough. -/
def expm1 (y : Nat) : Nat :=
  let m := expm1m 64 y 0
  (List.range m).foldl (fun z _ => z * z / one128 + 2 * z) (expm1f (y / 2 ^ m))

/-- Raise INEXACT beside what a rounding raised. -/
def orFlags (r : FloatRes) (f : FlagSet) : FloatRes := ⟨r.val, r.flags ||| f⟩

/-- The encoding of ±1. -/
def fone (t : Ty) (s : Bool) : Nat := signBit t s + (floatFmt t).bias * 2 ^ (floatFmt t).m

/-- fexp2 (R266). -/
def fexp2 (t : Ty) (pol : Policy) (x : Nat) : FloatRes :=
  let a := floatRead pol t x
  match a with
  | .nan _ _ _ => nanResult t pol [a] 0
  | .inf s => if s then ⟨0, 0⟩ else infResult t pol false
  | .fin s m e =>
    if m = 0 then ⟨fone t false, 0⟩
    else
      let n := ratNum m e
      let d := ratDen e
      if 2 ^ 16 * d ≤ n then (if s then ⟨0, flagUnderflow ||| flagInexact⟩ else overflowRes t pol 0 false)
      else
        let num : Int := if s then -(n : Int) else n
        let fl := num / (d : Int)
        let fr := ((num - fl * d).toNat * one128) / d
        let tt := fr * ln2Const / 2 ^ 64
        let r := rndScaled t pol 0 0 false (one128 + expm1f tt) (fl - 128)
        orFlags r (flagIf (num % (d : Int) != 0) flagInexact)

/-- flog2 (R267). -/
def flog2 (t : Ty) (pol : Policy) (x : Nat) : FloatRes :=
  let a := floatRead pol t x
  match a with
  | .nan _ _ _ => nanResult t pol [a] 0
  | .inf s => if s then nanResult t pol [a] flagInvalid else infResult t pol false
  | .fin s m e =>
    if m = 0 then let r := infResult t pol true; ⟨r.val, r.flags ||| flagDivzero⟩
    else if s then nanResult t pol [a] flagInvalid
    else
      let k := Nat.log2 m
      let m1 := m * 2 ^ (129 - k)                    -- mx * 2^129
      let big := 3 * one128 ≤ m1
      let mm := if big then m1 / 4 else m1 / 2       -- M = mx * 2^128
      let ex : Int := e + k + (if big then 1 else 0)
      let sq : Int := (((mm : Int) - one128) * one128) / ((mm : Int) + one128)
      let s2 := sq * sq / (one128 : Int)
      let sum := ((List.range 28).foldl (fun (acc : Int × Int) i =>
        let p := acc.1 * s2 / (one128 : Int); (p, acc.2 + p / (2 * ((i : Int) + 1) + 1))) (sq, sq)).2
      let lo := 2 * sum * (log2eConst : Int) / (2 ^ 64 : Int)
      let v := ex * one128 + lo
      let r := if v = 0 then ⟨0, 0⟩ else rndScaled t pol 0 0 (decide (v < 0)) v.natAbs (-128)
      orFlags r (flagIf (m != 2 ^ k) flagInexact)

/-- ftanh (R268). -/
def ftanh (t : Ty) (pol : Policy) (x : Nat) : FloatRes :=
  let a := floatRead pol t x
  match a with
  | .nan _ _ _ => nanResult t pol [a] 0
  | .inf s => ⟨fone t s, 0⟩
  | .fin s m e =>
    if m = 0 then ⟨signBit t s, 0⟩
    else
      let n := ratNum m e
      let d := ratDen e
      if 32 * d ≤ n then ⟨fone t s, flagInexact⟩
      else if n * 2 ^ 64 < d then
        -- x unchanged, then FTZO (R245, R246)
        let xb := flushIn t pol x
        let r := flushOut t pol xb
        ⟨r.val, r.flags ||| flagInexact ||| flagIf (isSubnormal t xb) flagUnderflow⟩
      else
        let ee := expm1 (2 * n * one128 / d)
        orFlags (rnd t pol 0 0 s ee (ee + 2 * one128)) flagInexact

/-- The exact value that fsigm rounds for a finite nonzero x = (-1)^s * n/d, as a numerator and a denominator; (1, 1) and (0, 1) where R269
returns +1 and +0 (R269, R323). -/
def sigmVal (s : Bool) (n d : Nat) : Nat × Nat :=
  if 64 * d ≤ n && !s then (1, 1)
  else if 1100 * d ≤ n && s then (0, 1)
  else
    let ee := expm1 (n * one128 / d)
    if s then (one128, ee + 2 * one128) else (ee + one128, ee + 2 * one128)

/-- fsigm (R269). -/
def fsigm (t : Ty) (pol : Policy) (x : Nat) : FloatRes :=
  let a := floatRead pol t x
  match a with
  | .nan _ _ _ => nanResult t pol [a] 0
  | .inf s => ⟨if s then 0 else fone t false, 0⟩
  | .fin s m e =>
    if m = 0 then rnd t pol 0 0 false 1 2
    else
      let n := ratNum m e
      let d := ratDen e
      if 64 * d ≤ n && !s then ⟨fone t false, flagInexact⟩
      else if 1100 * d ≤ n && s then ⟨0, flagUnderflow ||| flagInexact⟩
      else let v := sigmVal s n d; orFlags (rnd t pol 0 0 false v.1 v.2) flagInexact

/-- tact.silu (R323): x times the exact value that fsigm rounds, rounded once in rne. Where that value is taken as 1 or 0 the product is
exact in the same sense. -/
def fsilu (t : Ty) (pol : Policy) (x : Nat) : FloatRes :=
  let a := floatRead pol t x
  match a with
  | .nan _ _ _ => nanResult t pol [a] 0
  | .inf s => if s then ⟨signBit t true, 0⟩ else infResult t pol false
  | .fin s m e =>
    if m = 0 then ⟨signBit t s, 0⟩
    else
      let n := ratNum m e
      let d := ratDen e
      let v := sigmVal s n d
      if v.1 = 0 then ⟨signBit t s, 0⟩ else rnd t pol 0 0 s (n * v.1) (d * v.2)

end Sys2Proof.Machine
end

