-- ==== Sys2Proof/Machine/OpMap.lean ====
section
/-! DEFINITION. The opcode map (R83 to R91): for every assigned opcode its constructor, the kind of token each port takes, which
operand the literal may replace, the types it allows and the kind of token it emits. -/

namespace Sys2Proof.Machine

/-- What a port takes (R81, R184, R274, R275, R309, R340, R377, R434). `any` takes every kind; a `trigger` takes any kind and its
payload is ignored (R275); `tile` and `acc` take a handle whose entry has KIND 1 or 2; `either` a handle of either KIND. -/
inductive PortKind where
  | absent | any | value | trigger | tile | acc | either
  deriving DecidableEq, Repr

/-- The Result column of the opcode map (R83). -/
inductive Result where
  | v | h | n | e | pass | nothing
  deriving DecidableEq, Repr

/-- One row of the opcode map. `rLit` is the mark r#; `pOpt` a port p written in brackets; `types` has bit t set when type code t is
allowed. -/
structure OpInfo where
  code   : Nat
  make   : Node → Instr
  kl     : PortKind
  kr     : PortKind
  kp     : PortKind
  rLit   : Bool
  pOpt   : Bool
  types  : Nat
  result : Result

/-- Class 0 (R84). -/
def opClass0 : List OpInfo :=
  [
    ⟨0x000, .nop, .any, .absent, .absent, false, false, 0xFFFF, .nothing⟩,
    ⟨0x001, .mov, .any, .absent, .absent, false, false, 0xFFFF, .pass⟩,
    ⟨0x002, .const, .trigger, .absent, .absent, false, false, 0xFFFF, .v⟩,
    ⟨0x003, .sink, .any, .absent, .absent, false, false, 0xFFFF, .nothing⟩,
    ⟨0x004, .switch, .any, .value, .absent, false, false, 0xFFFF, .pass⟩,
    ⟨0x005, .merge, .any, .any, .absent, false, false, 0xFFFF, .pass⟩,
    ⟨0x006, .gate, .any, .trigger, .absent, false, false, 0xFFFF, .pass⟩,
    ⟨0x007, .nullify, .trigger, .absent, .absent, false, false, 0xFFFF, .n⟩,
    ⟨0x008, .isnull, .any, .absent, .absent, false, false, 0x0001, .v⟩,
    ⟨0x009, .iserr, .any, .absent, .absent, false, false, 0x0001, .v⟩,
    ⟨0x00A, .errcode, .any, .absent, .absent, false, false, 0x0001, .v⟩,
    ⟨0x00B, .mkerr, .trigger, .absent, .absent, false, false, 0x0001, .e⟩,
    ⟨0x00C, .frameof, .trigger, .absent, .absent, false, false, 0x0001, .v⟩,
    ⟨0x00D, .falloc, .trigger, .absent, .absent, false, false, 0x0001, .v⟩,
    ⟨0x00E, .ffree, .trigger, .absent, .absent, false, false, 0x0001, .nothing⟩,
    ⟨0x00F, .flink, .value, .value, .absent, false, false, 0x0001, .v⟩,
    ⟨0x010, .send, .any, .value, .absent, false, false, 0xFFFF, .nothing⟩,
    ⟨0x011, .count, .value, .absent, .absent, false, false, 0x0001, .v⟩,
    ⟨0x012, .relay, .any, .absent, .absent, false, false, 0xFFFF, .pass⟩,
    ⟨0x013, .halt, .value, .absent, .absent, false, false, 0x0001, .nothing⟩]

/-- Class 1 (R85). -/
def opClass1 : List OpInfo :=
  [
    ⟨0x040, .add, .value, .value, .absent, true, false, 0x00FF, .v⟩,
    ⟨0x041, .sub, .value, .value, .absent, true, false, 0x00FF, .v⟩,
    ⟨0x042, .neg, .value, .absent, .absent, false, false, 0x00FF, .v⟩,
    ⟨0x043, .mul, .value, .value, .absent, true, false, 0x00FF, .v⟩,
    ⟨0x044, .mulh, .value, .value, .absent, true, false, 0x00FF, .v⟩,
    ⟨0x045, .div, .value, .value, .absent, true, false, 0x00FF, .v⟩,
    ⟨0x046, .rem, .value, .value, .absent, true, false, 0x00FF, .v⟩,
    ⟨0x047, .min, .value, .value, .absent, true, false, 0x00FF, .v⟩,
    ⟨0x048, .max, .value, .value, .absent, true, false, 0x00FF, .v⟩,
    ⟨0x049, .abs, .value, .absent, .absent, false, false, 0x00AA, .v⟩,
    ⟨0x04A, .and, .value, .value, .absent, true, false, 0x00FF, .v⟩,
    ⟨0x04B, .or, .value, .value, .absent, true, false, 0x00FF, .v⟩,
    ⟨0x04C, .xor, .value, .value, .absent, true, false, 0x00FF, .v⟩,
    ⟨0x04D, .not, .value, .absent, .absent, false, false, 0x00FF, .v⟩,
    ⟨0x04E, .shl, .value, .value, .absent, true, false, 0x00FF, .v⟩,
    ⟨0x04F, .shr, .value, .value, .absent, true, false, 0x00FF, .v⟩,
    ⟨0x050, .sar, .value, .value, .absent, true, false, 0x00FF, .v⟩,
    ⟨0x051, .rotl, .value, .value, .absent, true, false, 0x00FF, .v⟩,
    ⟨0x052, .clz, .value, .absent, .absent, false, false, 0x00FF, .v⟩,
    ⟨0x053, .ctz, .value, .absent, .absent, false, false, 0x00FF, .v⟩,
    ⟨0x054, .popc, .value, .absent, .absent, false, false, 0x00FF, .v⟩,
    ⟨0x055, .cmp, .value, .value, .absent, false, false, 0x00FF, .v⟩,
    ⟨0x056, .sel, .value, .value, .value, false, false, 0xFFFF, .v⟩,
    ⟨0x057, .addsat, .value, .value, .absent, true, false, 0x00FF, .v⟩,
    ⟨0x058, .subsat, .value, .value, .absent, true, false, 0x00FF, .v⟩,
    ⟨0x059, .ext, .value, .absent, .absent, false, false, 0x00FF, .v⟩,
    ⟨0x05A, .ins, .value, .value, .absent, false, false, 0x00FF, .v⟩,
    ⟨0x05B, .cvt, .value, .absent, .absent, false, false, 0x00FF, .v⟩,
    ⟨0x05C, .idx, .value, .value, .absent, false, false, 0x00FF, .v⟩,
    ⟨0x05D, .bnd, .value, .value, .absent, false, false, 0x00FF, .v⟩]

/-- Class 2 (R86). -/
def opClass2 : List OpInfo :=
  [
    ⟨0x080, .fadd, .value, .value, .absent, true, false, 0xF000, .v⟩,
    ⟨0x081, .fsub, .value, .value, .absent, true, false, 0xF000, .v⟩,
    ⟨0x082, .fmul, .value, .value, .absent, true, false, 0xF000, .v⟩,
    ⟨0x083, .ffma, .value, .value, .value, true, false, 0xF000, .v⟩,
    ⟨0x084, .fmin, .value, .value, .absent, true, false, 0xF000, .v⟩,
    ⟨0x085, .fmax, .value, .value, .absent, true, false, 0xF000, .v⟩,
    ⟨0x086, .fabs, .value, .absent, .absent, false, false, 0xF000, .v⟩,
    ⟨0x087, .fneg, .value, .absent, .absent, false, false, 0xF000, .v⟩,
    ⟨0x088, .fcmp, .value, .value, .absent, false, false, 0xF000, .v⟩,
    ⟨0x089, .fcvt, .value, .absent, .absent, false, false, 0xFEFF, .v⟩,
    ⟨0x08A, .frnd, .value, .absent, .absent, false, false, 0xF000, .v⟩,
    ⟨0x08B, .fclass, .value, .absent, .absent, false, false, 0xF000, .v⟩,
    ⟨0x08C, .fscl, .value, .value, .absent, false, false, 0xF000, .v⟩,
    ⟨0x08D, .frcp, .value, .absent, .absent, false, false, 0xF000, .v⟩,
    ⟨0x08E, .frsq, .value, .absent, .absent, false, false, 0xF000, .v⟩,
    ⟨0x08F, .fsqrt, .value, .absent, .absent, false, false, 0xF000, .v⟩,
    ⟨0x090, .fdiv, .value, .value, .absent, true, false, 0xF000, .v⟩,
    ⟨0x091, .fexp2, .value, .absent, .absent, false, false, 0xF000, .v⟩,
    ⟨0x092, .flog2, .value, .absent, .absent, false, false, 0xF000, .v⟩,
    ⟨0x093, .ftanh, .value, .absent, .absent, false, false, 0xF000, .v⟩,
    ⟨0x094, .fsigm, .value, .absent, .absent, false, false, 0xF000, .v⟩]

/-- Class 3 (R87). -/
def opClass3 : List OpInfo :=
  [
    ⟨0x0C0, .tadd, .tile, .tile, .absent, true, false, 0xFEFE, .h⟩,
    ⟨0x0C1, .tsub, .tile, .tile, .absent, true, false, 0xFEFE, .h⟩,
    ⟨0x0C2, .tmul, .tile, .tile, .absent, true, false, 0xFEFE, .h⟩,
    ⟨0x0C3, .tfma, .tile, .tile, .tile, true, false, 0xFEFE, .h⟩,
    ⟨0x0C4, .tmin, .tile, .tile, .absent, true, false, 0xFEFE, .h⟩,
    ⟨0x0C5, .tmax, .tile, .tile, .absent, true, false, 0xFEFE, .h⟩,
    ⟨0x0C6, .tabs, .tile, .absent, .absent, false, false, 0xFEFE, .h⟩,
    ⟨0x0C7, .tneg, .tile, .absent, .absent, false, false, 0xFEFE, .h⟩,
    ⟨0x0C8, .tscl, .tile, .tile, .absent, true, false, 0xFE00, .h⟩,
    ⟨0x0C9, .tbias, .tile, .tile, .absent, false, false, 0xFEFE, .h⟩,
    ⟨0x0CA, .tclamp, .tile, .value, .value, false, false, 0xFEFE, .h⟩,
    ⟨0x0CB, .tact, .tile, .absent, .absent, false, false, 0xF000, .h⟩,
    ⟨0x0CC, .tred, .tile, .absent, .absent, false, false, 0xFEFE, .h⟩,
    ⟨0x0CD, .ttr, .tile, .absent, .absent, false, false, 0xFFFF, .h⟩,
    ⟨0x0CE, .tbc, .tile, .absent, .absent, false, false, 0xFFFF, .h⟩,
    ⟨0x0CF, .tsel, .tile, .tile, .tile, false, false, 0xFFFF, .h⟩,
    ⟨0x0D0, .tcmp, .tile, .tile, .absent, true, false, 0xFEFE, .h⟩,
    ⟨0x0D1, .tcpy, .tile, .absent, .absent, false, false, 0xFFFF, .h⟩,
    ⟨0x0D2, .tview, .tile, .absent, .absent, false, false, 0xFFFF, .h⟩,
    ⟨0x0D3, .tcond, .tile, .absent, .tile, false, true, 0xFE00, .h⟩,
    ⟨0x0D4, .tcvt, .tile, .absent, .tile, false, true, 0xFFFE, .h⟩,
    ⟨0x0D5, .trng, .trigger, .absent, .absent, false, false, 0x0040, .h⟩,
    ⟨0x0D6, .tfill, .value, .absent, .absent, false, false, 0xFFFF, .h⟩,
    ⟨0x0D7, .tiota, .value, .absent, .absent, false, false, 0x00FF, .h⟩]

/-- Class 4 (R88). -/
def opClass4 : List OpInfo :=
  [
    ⟨0x100, .accNew, .trigger, .absent, .absent, false, false, 0x0001, .h⟩,
    ⟨0x101, .accZero, .acc, .absent, .absent, false, false, 0x0001, .h⟩,
    ⟨0x102, .accFree, .acc, .absent, .absent, false, false, 0x0001, .nothing⟩,
    ⟨0x103, .accGet, .acc, .value, .absent, false, false, 0x0001, .v⟩,
    ⟨0x104, .mma, .tile, .tile, .acc, false, false, 0x0001, .h⟩,
    ⟨0x105, .mmaPair, .tile, .tile, .acc, false, false, 0x0001, .h⟩,
    ⟨0x106, .smma, .tile, .tile, .acc, false, false, 0x0001, .h⟩,
    ⟨0x107, .accDrain, .acc, .absent, .tile, false, true, 0xFFFE, .h⟩,
    ⟨0x108, .accRl, .acc, .tile, .acc, false, false, 0xC00A, .h⟩,
    ⟨0x109, .rlIns, .tile, .acc, .absent, false, false, 0xC00A, .h⟩,
    ⟨0x10A, .rlMerge, .tile, .acc, .absent, false, false, 0xC00A, .h⟩,
    ⟨0x10B, .rlOut, .acc, .absent, .absent, false, false, 0xC00A, .h⟩,
    ⟨0x10C, .rlThr, .acc, .absent, .absent, false, false, 0xC00A, .v⟩]

/-- Class 5 (R89). -/
def opClass5 : List OpInfo :=
  [
    ⟨0x140, .ld, .value, .absent, .absent, false, false, 0xFCFF, .v⟩,
    ⟨0x141, .st, .value, .value, .absent, false, false, 0xFCFF, .nothing⟩,
    ⟨0x142, .ldt, .value, .value, .absent, false, false, 0xFCFF, .v⟩,
    ⟨0x143, .stt, .value, .value, .value, false, false, 0xFCFF, .nothing⟩,
    ⟨0x144, .tld, .value, .absent, .absent, false, false, 0x0001, .h⟩,
    ⟨0x145, .tst, .tile, .value, .absent, false, false, 0x0001, .v⟩,
    ⟨0x146, .talloc, .trigger, .absent, .absent, false, false, 0x0001, .h⟩,
    ⟨0x147, .tref, .either, .value, .absent, true, false, 0x0001, .h⟩,
    ⟨0x148, .trel, .either, .absent, .absent, false, false, 0x0001, .nothing⟩,
    ⟨0x149, .pumpGet, .value, .value, .absent, false, false, 0x0001, .h⟩,
    ⟨0x14A, .pumpPut, .tile, .value, .absent, false, false, 0x0001, .v⟩,
    ⟨0x14B, .pumpXfer, .tile, .value, .absent, false, false, 0x0001, .v⟩,
    ⟨0x14C, .pumpMcast, .tile, .value, .absent, false, false, 0x0001, .v⟩,
    ⟨0x14D, .gather, .tile, .value, .absent, false, false, 0x0001, .h⟩,
    ⟨0x14E, .scatter, .tile, .tile, .absent, false, false, 0x0001, .v⟩,
    ⟨0x14F, .stream, .value, .absent, .absent, false, false, 0x0001, .v⟩,
    ⟨0x150, .atomAdd, .value, .value, .absent, false, false, 0x000F, .v⟩,
    ⟨0x151, .atomFadd, .value, .value, .absent, false, false, 0xC000, .v⟩,
    ⟨0x152, .atomMin, .value, .value, .absent, false, false, 0x000F, .v⟩,
    ⟨0x153, .atomMax, .value, .value, .absent, false, false, 0x000F, .v⟩,
    ⟨0x154, .atomAnd, .value, .value, .absent, false, false, 0x000F, .v⟩,
    ⟨0x155, .atomOr, .value, .value, .absent, false, false, 0x000F, .v⟩,
    ⟨0x156, .atomXor, .value, .value, .absent, false, false, 0x000F, .v⟩,
    ⟨0x157, .atomXchg, .value, .value, .absent, false, false, 0x000F, .v⟩,
    ⟨0x158, .atomCas, .value, .value, .value, false, false, 0x000F, .v⟩,
    ⟨0x159, .redAdd, .value, .value, .absent, false, false, 0x000F, .nothing⟩,
    ⟨0x15A, .redFadd, .value, .value, .absent, false, false, 0xC000, .nothing⟩,
    ⟨0x15B, .redMin, .value, .value, .absent, false, false, 0x000F, .nothing⟩,
    ⟨0x15C, .redMax, .value, .value, .absent, false, false, 0x000F, .nothing⟩,
    ⟨0x15D, .redAnd, .value, .value, .absent, false, false, 0x000F, .nothing⟩,
    ⟨0x15E, .redOr, .value, .value, .absent, false, false, 0x000F, .nothing⟩,
    ⟨0x15F, .redXor, .value, .value, .absent, false, false, 0x000F, .nothing⟩,
    ⟨0x160, .phase, .value, .absent, .absent, false, false, 0x0001, .v⟩,
    ⟨0x161, .fence, .value, .absent, .absent, false, false, 0x0001, .v⟩,
    ⟨0x162, .afence, .value, .absent, .absent, false, false, 0x0001, .v⟩]

/-- Class 6 (R90). -/
def opClass6 : List OpInfo :=
  [
    ⟨0x180, .spawn, .value, .value, .absent, false, false, 0x0001, .v⟩,
    ⟨0x181, .join, .value, .absent, .absent, false, false, 0x0001, .nothing⟩,
    ⟨0x182, .enq, .value, .value, .absent, false, false, 0x0001, .v⟩,
    ⟨0x183, .deq, .value, .absent, .absent, false, false, 0x0001, .v⟩,
    ⟨0x184, .steal, .value, .absent, .absent, false, false, 0x0001, .v⟩,
    ⟨0x185, .qlen, .value, .absent, .absent, false, false, 0x0001, .v⟩,
    ⟨0x186, .barArrive, .trigger, .absent, .absent, false, false, 0x0001, .v⟩,
    ⟨0x187, .barComb, .value, .value, .absent, false, false, 0x0001, .v⟩,
    ⟨0x188, .rcntAdd, .value, .absent, .absent, false, false, 0x0001, .nothing⟩,
    ⟨0x189, .rcntSnap, .value, .absent, .absent, false, false, 0x0001, .v⟩,
    ⟨0x18A, .yield, .trigger, .absent, .absent, false, false, 0x0001, .v⟩]

/-- Class 7 (R91). -/
def opClass7 : List OpInfo :=
  [
    ⟨0x1C0, .trap, .value, .absent, .absent, false, false, 0x0001, .nothing⟩,
    ⟨0x1C1, .brk, .trigger, .absent, .absent, false, false, 0x0001, .nothing⟩,
    ⟨0x1C2, .evt, .value, .absent, .absent, false, false, 0x0001, .nothing⟩,
    ⟨0x1C3, .sysrd, .value, .absent, .absent, false, false, 0x0001, .v⟩,
    ⟨0x1C4, .syswr, .value, .value, .absent, false, false, 0x0001, .v⟩,
    ⟨0x1C5, .nrgRd, .trigger, .absent, .absent, false, false, 0x0001, .v⟩,
    ⟨0x1C6, .seed, .value, .absent, .absent, false, false, 0x0001, .v⟩,
    ⟨0x1C7, .cfgLd, .value, .absent, .absent, false, false, 0x0001, .v⟩,
    ⟨0x1C8, .cfgDrop, .value, .absent, .absent, false, false, 0x0001, .v⟩,
    ⟨0x1C9, .winOpen, .value, .absent, .absent, false, false, 0x0001, .v⟩,
    ⟨0x1CA, .winClose, .value, .absent, .absent, false, false, 0x0001, .v⟩]

/-- Every assigned opcode (R83). -/
def opMap : List OpInfo :=
  opClass0 ++ opClass1 ++ opClass2 ++ opClass3 ++ opClass4 ++ opClass5 ++ opClass6 ++ opClass7

/-- The row of the opcode map for a code; none for an unassigned code (R83). -/
def opInfo (code : Nat) : Option OpInfo := opMap.find? (fun o => o.code == code)

/-- The opcode and the record fields of a node instruction; none for a machine step. -/
def instrNode (i : Instr) : Option (Nat × Node) :=
  match i with
  | .nop n => some (0x000, n)
  | .mov n => some (0x001, n)
  | .const n => some (0x002, n)
  | .sink n => some (0x003, n)
  | .switch n => some (0x004, n)
  | .merge n => some (0x005, n)
  | .gate n => some (0x006, n)
  | .nullify n => some (0x007, n)
  | .isnull n => some (0x008, n)
  | .iserr n => some (0x009, n)
  | .errcode n => some (0x00A, n)
  | .mkerr n => some (0x00B, n)
  | .frameof n => some (0x00C, n)
  | .falloc n => some (0x00D, n)
  | .ffree n => some (0x00E, n)
  | .flink n => some (0x00F, n)
  | .send n => some (0x010, n)
  | .count n => some (0x011, n)
  | .relay n => some (0x012, n)
  | .halt n => some (0x013, n)
  | .add n => some (0x040, n)
  | .sub n => some (0x041, n)
  | .neg n => some (0x042, n)
  | .mul n => some (0x043, n)
  | .mulh n => some (0x044, n)
  | .div n => some (0x045, n)
  | .rem n => some (0x046, n)
  | .min n => some (0x047, n)
  | .max n => some (0x048, n)
  | .abs n => some (0x049, n)
  | .and n => some (0x04A, n)
  | .or n => some (0x04B, n)
  | .xor n => some (0x04C, n)
  | .not n => some (0x04D, n)
  | .shl n => some (0x04E, n)
  | .shr n => some (0x04F, n)
  | .sar n => some (0x050, n)
  | .rotl n => some (0x051, n)
  | .clz n => some (0x052, n)
  | .ctz n => some (0x053, n)
  | .popc n => some (0x054, n)
  | .cmp n => some (0x055, n)
  | .sel n => some (0x056, n)
  | .addsat n => some (0x057, n)
  | .subsat n => some (0x058, n)
  | .ext n => some (0x059, n)
  | .ins n => some (0x05A, n)
  | .cvt n => some (0x05B, n)
  | .idx n => some (0x05C, n)
  | .bnd n => some (0x05D, n)
  | .fadd n => some (0x080, n)
  | .fsub n => some (0x081, n)
  | .fmul n => some (0x082, n)
  | .ffma n => some (0x083, n)
  | .fmin n => some (0x084, n)
  | .fmax n => some (0x085, n)
  | .fabs n => some (0x086, n)
  | .fneg n => some (0x087, n)
  | .fcmp n => some (0x088, n)
  | .fcvt n => some (0x089, n)
  | .frnd n => some (0x08A, n)
  | .fclass n => some (0x08B, n)
  | .fscl n => some (0x08C, n)
  | .frcp n => some (0x08D, n)
  | .frsq n => some (0x08E, n)
  | .fsqrt n => some (0x08F, n)
  | .fdiv n => some (0x090, n)
  | .fexp2 n => some (0x091, n)
  | .flog2 n => some (0x092, n)
  | .ftanh n => some (0x093, n)
  | .fsigm n => some (0x094, n)
  | .tadd n => some (0x0C0, n)
  | .tsub n => some (0x0C1, n)
  | .tmul n => some (0x0C2, n)
  | .tfma n => some (0x0C3, n)
  | .tmin n => some (0x0C4, n)
  | .tmax n => some (0x0C5, n)
  | .tabs n => some (0x0C6, n)
  | .tneg n => some (0x0C7, n)
  | .tscl n => some (0x0C8, n)
  | .tbias n => some (0x0C9, n)
  | .tclamp n => some (0x0CA, n)
  | .tact n => some (0x0CB, n)
  | .tred n => some (0x0CC, n)
  | .ttr n => some (0x0CD, n)
  | .tbc n => some (0x0CE, n)
  | .tsel n => some (0x0CF, n)
  | .tcmp n => some (0x0D0, n)
  | .tcpy n => some (0x0D1, n)
  | .tview n => some (0x0D2, n)
  | .tcond n => some (0x0D3, n)
  | .tcvt n => some (0x0D4, n)
  | .trng n => some (0x0D5, n)
  | .tfill n => some (0x0D6, n)
  | .tiota n => some (0x0D7, n)
  | .accNew n => some (0x100, n)
  | .accZero n => some (0x101, n)
  | .accFree n => some (0x102, n)
  | .accGet n => some (0x103, n)
  | .mma n => some (0x104, n)
  | .mmaPair n => some (0x105, n)
  | .smma n => some (0x106, n)
  | .accDrain n => some (0x107, n)
  | .accRl n => some (0x108, n)
  | .rlIns n => some (0x109, n)
  | .rlMerge n => some (0x10A, n)
  | .rlOut n => some (0x10B, n)
  | .rlThr n => some (0x10C, n)
  | .ld n => some (0x140, n)
  | .st n => some (0x141, n)
  | .ldt n => some (0x142, n)
  | .stt n => some (0x143, n)
  | .tld n => some (0x144, n)
  | .tst n => some (0x145, n)
  | .talloc n => some (0x146, n)
  | .tref n => some (0x147, n)
  | .trel n => some (0x148, n)
  | .pumpGet n => some (0x149, n)
  | .pumpPut n => some (0x14A, n)
  | .pumpXfer n => some (0x14B, n)
  | .pumpMcast n => some (0x14C, n)
  | .gather n => some (0x14D, n)
  | .scatter n => some (0x14E, n)
  | .stream n => some (0x14F, n)
  | .atomAdd n => some (0x150, n)
  | .atomFadd n => some (0x151, n)
  | .atomMin n => some (0x152, n)
  | .atomMax n => some (0x153, n)
  | .atomAnd n => some (0x154, n)
  | .atomOr n => some (0x155, n)
  | .atomXor n => some (0x156, n)
  | .atomXchg n => some (0x157, n)
  | .atomCas n => some (0x158, n)
  | .redAdd n => some (0x159, n)
  | .redFadd n => some (0x15A, n)
  | .redMin n => some (0x15B, n)
  | .redMax n => some (0x15C, n)
  | .redAnd n => some (0x15D, n)
  | .redOr n => some (0x15E, n)
  | .redXor n => some (0x15F, n)
  | .phase n => some (0x160, n)
  | .fence n => some (0x161, n)
  | .afence n => some (0x162, n)
  | .spawn n => some (0x180, n)
  | .join n => some (0x181, n)
  | .enq n => some (0x182, n)
  | .deq n => some (0x183, n)
  | .steal n => some (0x184, n)
  | .qlen n => some (0x185, n)
  | .barArrive n => some (0x186, n)
  | .barComb n => some (0x187, n)
  | .rcntAdd n => some (0x188, n)
  | .rcntSnap n => some (0x189, n)
  | .yield n => some (0x18A, n)
  | .trap n => some (0x1C0, n)
  | .brk n => some (0x1C1, n)
  | .evt n => some (0x1C2, n)
  | .sysrd n => some (0x1C3, n)
  | .syswr n => some (0x1C4, n)
  | .nrgRd n => some (0x1C5, n)
  | .seed n => some (0x1C6, n)
  | .cfgLd n => some (0x1C7, n)
  | .cfgDrop n => some (0x1C8, n)
  | .winOpen n => some (0x1C9, n)
  | .winClose n => some (0x1CA, n)
  | .tokenArrival _ => none
  | .coordinateToken _ => none
  | .resultEmit _ _ _ => none
  | .readyAging _ _ _ => none
  | .windowWrite _ _ => none
  | .windowAccessPerform _ _ => none
  | .wellTranslate _ => none
  | .pageWalkComplete _ _ _ => none
  | .parkRefusedRetry _ => none
  | .fqctlReplay _ _ => none
  | .fqctlDrop _ _ => none
  | .fqctlBadOp _ _ _ => none
  | .xbinvVf _ _ => none
  | .xbinvVa _ _ _ => none
  | .xbinvAll _ => none
  | .xbinvBad _ => none
  | .xbinvComplete _ => none
  | .vfrootWrite _ _ => none
  | .sectorAdmit _ _ => none
  | .sectorReturn _ _ => none
  | .fetchReply _ _ _ => none
  | .inboundAccept _ _ => none
  | .edgeCrossing _ _ => none
  | .sparseUpdateOp _ _ => none
  | .joinCounterUpdate _ _ => none
  | .eccWriteback _ => none
  | .scrubStep _ => none
  | .phaseBoundary _ => none
  | .cisternFull _ _ => none
  | .blockInstall _ _ => none
  | .blockMetaRead _ => none
  | .bcctlBadOp _ => none
  | .engineCompletion _ => none
  | .streamElement _ => none
  | .mcastLagExpire _ => none
  | .pairMessage _ _ => none
  | .pairLimitExpire _ _ _ => none
  | .barrierLimitExpire _ _ _ _ => none
  | .rngGeneratorServe _ _ => none
  | .starve _ _ => none
  | .placementRetry _ => none
  | .launchTake _ _ => none
  | .launchStart _ => none
  | .launchQuiesce _ => none
  | .launchEnd _ => none
  | .queueControllerOp _ => none
  | .taskAccept _ => none
  | .dispatchDecision _ => none
  | .taskComplete _ => none
  | .hqrecCommit _ _ _ => none
  | .queueEnable _ _ _ => none
  | .qckeyWrite _ _ => none
  | .qcapRightsWrite _ _ _ => none
  | .quantumEnd _ _ => none
  | .contextSave _ _ => none
  | .contextRestore _ _ _ => none
  | .quantWrite _ _ _ _ => none
  | .slotownWrite _ _ _ => none
  | .slotLend _ _ _ => none
  | .slotReclaim _ _ => none
  | .vfscopeWrite _ _ => none
  | .energyFold _ _ => none
  | .bhrstGo _ _ _ => none
  | .bhrstRelease _ => none
  | .resetFenceDone _ => none
  | .resetRelockDone _ => none
  | .resetScrubDone _ => none
  | .bhctlWrite _ _ => none
  | .bhgateWrite _ _ => none
  | .wintabWrite _ _ _ _ => none
  | .bhclkWrite _ _ => none
  | .clockLock _ => none
  | .aptabWrite _ _ _ => none
  | .frzctlRetry _ _ _ => none
  | .frzctlFail _ _ _ => none
  | .frzctlFreeze _ _ _ => none
  | .vfReset _ _ => none
  | .dbgvalWrite _ _ => none
  | .debugTokenDeliver _ => none
  | .attest _ _ => none
  | .hostMemAccess _ _ _ => none
  | .spokeRequestReceive _ _ => none
  | .spokeReplyReceive _ _ => none
  | .doorDelivery _ _ => none
  | .spokeNotice _ _ => none
  | .spokeLinkUp _ _ => none
  | .spokeLinkDown _ => none
  | .thermalTrip _ => none
  | .powerOnBringup => none
  | .registerWrite _ _ _ => none
  | .hostAcknowledgement _ _ _ => none
  | .discardedFlit _ _ => none

end Sys2Proof.Machine
end

