-- ==== Sys2Proof/Machine/RecordCheck.lean ====
section
/-! DEFINITION. The load-time checks of one node record by itself (R69 to R74, R83, R106): arity and ports, the literal limits of every
instruction (R183, R275 to R307, R314, R339, R377, R434) and the reject reasons by name. Checks that need the configuration (PATTERN,
KIND_MISMATCH, PAIR_PLACE, PRIV, DEST_RANGE, DEST_PORT, LSID by WAVEMASK, STREAM_BOUNDS, TID entries) stand in Machine/Image.lean. -/

namespace Sys2Proof.Machine

/-- The reject reasons (R106). -/
inductive Reject where
  | imageFormat | checksum | shape | shapeFit | residentFull | nodeOverlap | pattern | opcodeUnassigned | fieldReserved | typeIllegal
  | kindMismatch | pairPlace | priv | slotRange | flags | sticky | frameMode | destRange | destPort | handleEscape | literal | lsid
  | entry | tidFormat | tidConflict | policy | streamBounds
  deriving DecidableEq, Repr

/-- The code of a reject reason (R106). -/
def rejectCode : Reject → Nat
  | .imageFormat => 0x01 | .checksum => 0x02 | .shape => 0x03 | .shapeFit => 0x04 | .residentFull => 0x05 | .nodeOverlap => 0x06
  | .pattern => 0x07 | .opcodeUnassigned => 0x08 | .fieldReserved => 0x09 | .typeIllegal => 0x0A | .kindMismatch => 0x0B
  | .pairPlace => 0x0C | .priv => 0x0D | .slotRange => 0x0E | .flags => 0x0F | .sticky => 0x10 | .frameMode => 0x11
  | .destRange => 0x12 | .destPort => 0x13 | .handleEscape => 0x14 | .literal => 0x15 | .lsid => 0x16 | .entry => 0x17
  | .tidFormat => 0x18 | .tidConflict => 0x19 | .policy => 0x1A | .streamBounds => 0x1B

/-- Bits [lo + len - 1 : lo] of a node's literal. -/
def litBits (n : Node) (lo len : Nat) : Nat := bits n.lit.toNat lo len

/-- Whether the literal selects a port p that the map writes in brackets: RM 5 of tcond and tcvt (R331) and of acc.drain (R340). -/
def litSelectsP (code : Nat) (n : Node) : Bool :=
  if code == 0x107 then litBits n 0 3 == 5 else litBits n 10 3 == 5

/-- Whether a node has operand port l (R71). -/
def hasL (o : OpInfo) : Bool := o.kl != .absent

/-- Whether a node has operand port r (R71). -/
def hasR (o : OpInfo) (n : Node) : Bool := o.kr != .absent && !n.litr

/-- Whether a node has operand port p (R71). -/
def hasP (o : OpInfo) (n : Node) : Bool :=
  n.pred || (o.kp != .absent && (!o.pOpt || litSelectsP o.code n))

/-- The operand ports of a node, in the order l, r, p (R71). -/
def nodePorts (o : OpInfo) (n : Node) : List Port :=
  (if hasL o then [.l] else []) ++ (if hasR o n then [.r] else []) ++ (if hasP o n then [.p] else [])

/-- The arity of a node (R71). -/
def arity (o : OpInfo) (n : Node) : Nat := (nodePorts o n).length

/-- The nodes R89 names: ld, ldt, st, stt, tld, tst, atom.* and red.*. -/
def hasLsid (code : Nat) : Bool := (0x140 ≤ code && code ≤ 0x145) || (0x150 ≤ code && code ≤ 0x15F)

/-- A literal that stands for a value: the limits that R74 gives for n8 and i8. -/
def litValueOk (n : Node) : Bool :=
  match n.ty with
  | .n8 => litBits n 8 8 == 0
  | .i8 => litBits n 7 9 == 0 || litBits n 7 9 == 0x1FF
  | _ => true

/-- The literals of classes 0 to 2 with LITR = 0 (R275 to R307). -/
def litScalarOk (code : Nat) (n : Node) : Bool :=
  let l := n.lit.toNat
  match code with
  | 0x002 => litValueOk n
  | 0x003 => l < 2
  | 0x004 => l < 2
  | 0x00B => 0x80 ≤ l && l < 0x100
  | 0x00D => litBits n 0 3 ≤ 4 && l < 0x1000
  | 0x00E => l < 4
  | 0x00F => l < 2
  | 0x011 => true
  | 0x012 => l < 0x100
  | 0x055 => l < 6
  | 0x059 => litBits n 0 6 + litBits n 6 6 + 1 ≤ 64 && l < 0x1000
  | 0x05A => litBits n 0 6 + litBits n 6 6 + 1 ≤ 64 && l < 0x1000
  | 0x05B => l < 16
  | 0x05C => true
  | 0x084 => l == 0
  | 0x085 => l == 0
  | 0x086 => l == 0
  | 0x087 => l == 0
  | 0x088 => l < 8
  | 0x089 => litBits n 0 3 ≤ 4 && l < 0x80 && litBits n 3 4 != 8 && !(tyInt n.ty && litBits n 3 4 < 8)
  | 0x08B => l == 0
  | _ => if 0x080 ≤ code && code ≤ 0x094 then l ≤ 4 else l == 0

/-- The literals of class 3 with LITR = 0 (R314). -/
def litTileOk (code : Nat) (n : Node) : Bool :=
  let l := n.lit.toNat
  let rmSat := l < 16 && litBits n 0 3 ≤ 4 && (if tyFloat n.ty then l < 8 else litBits n 0 3 == 0)
  match code with
  | 0x0C4 => l == 0
  | 0x0C5 => l == 0
  | 0x0CA => l == 0
  | 0x0CB => l < 0x80 && litBits n 0 4 ≤ 7 && litBits n 4 3 ≤ 4
  | 0x0CC => litBits n 13 3 ≤ 4
  | 0x0CD => l < 0x400
  | 0x0CE => l < 0x8000
  | 0x0CF => l == 0
  | 0x0D0 => if tyFloat n.ty then l < 8 else l < 6
  | 0x0D1 => l == 0
  | 0x0D2 => l < 0x400
  | 0x0D3 => l < 0x2000 && (litBits n 10 3 == 0 || litBits n 10 3 == 5)
  | 0x0D4 => l < 0x4000 && litBits n 10 3 ≤ 5 && !(tyFloat n.ty && litBits n 13 1 == 1)
  | 0x0D5 => l < 0x400
  | 0x0D6 => l < 0x400
  | 0x0D7 => l < 0x800
  | _ => rmSat

/-- The literals of class 4 (R339). -/
def litMatrixOk (code : Nat) (n : Node) : Bool :=
  let l := n.lit.toNat
  match code with
  | 0x100 => l < 0x2000 && litBits n 0 2 ≤ 2 && (litBits n 0 2 == 2 || litBits n 2 11 == 0)
  | 0x103 =>
    l < 0x200 && litBits n 0 4 != 0 && litBits n 0 4 != 8 && litBits n 4 3 ≤ 4 && !(8 < litBits n 0 4 && litBits n 7 1 == 1)
  | 0x104 => l < 8 && (litBits n 0 1 == 1 || l == 0)
  | 0x105 => l < 0x1000
  | 0x107 => l < 0x4000 && litBits n 0 3 ≤ 5 && !(tyFloat n.ty && litBits n 3 1 == 1)
  | 0x108 => l ≤ 4
  | 0x109 => l < 0x2000 && litBits n 10 3 ≤ 4
  | 0x10B => l < 0x800
  | 0x10C => l < 0x20
  | _ => l == 0

/-- The literals of class 5 with LITR = 0 (R183). -/
def litMemoryOk (code : Nat) (n : Node) : Bool :=
  let l := n.lit.toNat
  let scopeUsed := litBits n 11 3 == 0 || litBits n 14 2 != 0
  match code with
  | 0x142 => litBits n 2 9 == 0 && litBits n 0 2 ≤ 2
  | 0x144 => litBits n 10 1 == 0
  | 0x146 => l < 0x400
  | 0x147 => l == 0
  | 0x148 => l < 0x100
  | 0x149 => litBits n 10 1 == 0 && scopeUsed
  | 0x14A => litBits n 10 1 == 0 && scopeUsed
  | 0x160 => l % 0x800 == 0 && l < 0x4000
  | 0x161 => l % 0x800 == 0 && l < 0x4000
  | 0x162 => l % 0x800 == 0 && l < 0x4000
  | _ =>
    if 0x14B ≤ code && code ≤ 0x14F then litBits n 8 3 == 0 && scopeUsed
    else if 0x150 ≤ code && code ≤ 0x158 then litBits n 0 7 == 0 && (litBits n 7 1 == 1 || litBits n 8 3 == 0)
    else if 0x159 ≤ code && code ≤ 0x15F then litBits n 0 6 == 0 && (litBits n 7 1 == 1 || litBits n 8 3 == 0)
    else litBits n 0 11 == 0

/-- The literals of classes 6 and 7 (R377, R434). -/
def litSystemOk (code : Nat) (n : Node) : Bool :=
  let l := n.lit.toNat
  match code with
  | 0x186 => l < 0x10
  | 0x187 => true
  | 0x188 => true
  | 0x189 => l < 0x8000 && litBits n 0 6 + litBits n 6 6 + 1 ≤ 64
  | 0x1C2 => l < 0x100
  | 0x1C6 => true
  | 0x1C7 => l < 0x10 && litBits n 0 3 ≤ 4
  | _ => l == 0

/-- The literal lies within its limits (R74, R106). With LITR = 1 it is a value of the node's type, for tref a count (R183). -/
def litOk (o : OpInfo) (n : Node) : Bool :=
  if n.litr && o.rLit then (if o.code == 0x147 then n.lit.toNat < 0x100 else litValueOk n)
  else if o.code < 0x0C0 then litScalarOk o.code n
  else if o.code < 0x100 then litTileOk o.code n
  else if o.code < 0x140 then litMatrixOk o.code n
  else if o.code < 0x180 then litMemoryOk o.code n
  else litSystemOk o.code n

/-- The used destinations of a node (R69). -/
def usedDests (n : Node) : List Dest := n.d0.toList ++ n.d1.toList

/-- Frame mode 3 is accepted: r is an operand port that takes a value, any kind or a trigger (R70). -/
def dynOk (o : OpInfo) (n : Node) : Bool :=
  hasR o n && (o.kr == .value || o.kr == .any || o.kr == .trigger)

/-- No field that the node does not use is set: destinations under a Result of "none" (R69), SLOT at arity 1 (R71, log 2), STPORT with
STCOUNT 0 (R72). -/
def unusedClear (o : OpInfo) (n : Node) : Bool :=
  (o.result != .nothing || (n.d0.isNone && n.d1.isNone)) &&
  (arity o n != 1 || n.slot == 0) && (n.stCount != 0 || !n.stR)

/-- SLOT lies in the range of the arity (R71). -/
def slotOk (o : OpInfo) (n : Node) : Bool :=
  arity o n == 1 || (2 ≤ n.slot.toNat && n.slot.toNat ≤ (if arity o n == 3 then 254 else 255))

/-- The flags are one of the accepted combinations (R73). -/
def flagsOk (o : OpInfo) (n : Node) : Bool :=
  (!n.pred || o.kp == .absent) && (!n.sense || n.pred) && (!n.litr || o.rLit)

/-- The sticky port is an operand port of a node of arity 2 or 3 (R72). -/
def stickyOk (o : OpInfo) (n : Node) : Bool :=
  n.stCount == 0 || (2 ≤ arity o n && (nodePorts o n).contains (if n.stR then .r else .l))

/-- An opcode that emits handles has no destination off its PE (R62, R106). -/
def handleStays (o : OpInfo) (n : Node) : Bool :=
  o.result != .h || (usedDests n).all fun d => d.dx == 0 && d.dy == 0

/-- The lowest failing reason among the checks of a record by itself (R106, R107). -/
def recordReason (o : OpInfo) (n : Node) : Option Reject :=
  if !unusedClear o n then some .fieldReserved
  else if !bitAt o.types (tyCode n.ty) then some .typeIllegal
  else if !slotOk o n then some .slotRange
  else if !flagsOk o n then some .flags
  else if !stickyOk o n then some .sticky
  else if !((usedDests n).all fun d => d.fm != .dyn || dynOk o n) then some .frameMode
  else if !handleStays o n then some .handleEscape
  else if !litOk o n then some .literal
  else none

end Sys2Proof.Machine
end

