-- ==== Sys2Proof/WellFormed.lean ====
section
/-! DEFINITION. Well-formed instructions: a node record that load-time validation accepts by itself (R106), and a machine step whose
bulkhead, slot, PE and VF numbers exist (R2, R3, R5). -/

namespace Sys2Proof

open Machine

/-- The record checks of a node instruction (R106); every other row passes. -/
def nodeWf (i : Instr) : Bool :=
  match instrNode i with
  | none => true
  | some (code, n) =>
    match opInfo code with
    | none => false
    | some o => (recordReason o n).isNone

/-- A master's number fits FRZCTL (R418). -/
def masterWf : MasterId → Bool
  | .pe i => i < 512
  | .unit k i => k < 8 && i < 512

/-- The numbers of a machine step exist: bulkhead 0 to 11, PE 0 to 511, slot 0 to 31, VF 0 to 383 (R2, R3, R5), frame and node numbers
of R67 and R75, and the registers' own indexes (R366, R370, R391). Every node instruction passes. -/
def eventWf : Instr → Bool
  | .resultEmit b pe _ => b < 12 && pe < 512
  | .readyAging b pe _ => b < 12 && pe < 512
  | .pageWalkComplete b vf vp => b < 12 && vf < 384 && vp < 2 ^ 33
  | .fqctlReplay b p => b < 12 && p < 4096
  | .fqctlDrop b p => b < 12 && p < 4096
  | .fqctlBadOp b _ _ => b < 12
  | .xbinvVf b vf => b < 12 && vf < 384
  | .xbinvVa b vf vp => b < 12 && vf < 384 && vp < 2 ^ 33
  | .xbinvAll b => b < 12
  | .xbinvBad b => b < 12
  | .xbinvComplete b => b < 12
  | .vfrootWrite vf _ => vf < 384
  | .fetchReply b pe _ => b < 12 && pe < 512
  | .sparseUpdateOp b ch => b < 12 && ch < 32
  | .joinCounterUpdate b ch => b < 12 && ch < 32
  | .scrubStep b => b < 12
  | .cisternFull b vf => b < 12 && vf < 384
  | .blockInstall b _ => b < 12
  | .blockMetaRead b => b < 12
  | .bcctlBadOp b => b < 12
  | .pairMessage b pe => b < 12 && pe < 512
  | .pairLimitExpire b pe _ => b < 12 && pe < 512
  | .barrierLimitExpire b pe node fp => b < 12 && pe < 512 && node < 4096 && fp < 1024
  | .rngGeneratorServe b sl => b < 12 && sl < 32
  | .starve b vf => b < 12 && vf < 384
  | .launchTake b q => b < 12 && q < 4096
  | .dispatchDecision b => b < 12
  | .hqrecCommit b p _ => b < 12 && p < 4
  | .queueEnable b q _ => b < 12 && q < 4096
  | .qckeyWrite b _ => b < 12
  | .qcapRightsWrite b q _ => b < 12 && q < 4096
  | .quantumEnd b sl => b < 12 && sl < 32
  | .contextSave b sl => b < 12 && sl < 32
  | .contextRestore b sl _ => b < 12 && sl < 32
  | .quantWrite b sl e _ => b < 12 && sl < 32 && e < 8
  | .slotownWrite b sl _ => b < 12 && sl < 32
  | .slotLend b sl vf => b < 12 && sl < 32 && vf < 384
  | .slotReclaim b sl => b < 12 && sl < 32
  | .vfscopeWrite vf _ => vf < 384
  | .energyFold b sl => b < 12 && sl < 32
  | .bhrstGo b _ _ => b < 12
  | .bhrstRelease b => b < 12
  | .resetFenceDone b => b < 12
  | .resetRelockDone b => b < 12
  | .resetScrubDone b => b < 12
  | .bhctlWrite b _ => b < 12
  | .bhgateWrite b _ => b < 12
  | .wintabWrite b e w _ => b < 12 && e < 8 && w < 2
  | .bhclkWrite b _ => b < 12
  | .clockLock b => b < 12
  | .aptabWrite b a _ => b < 12 && a < 64
  | .frzctlRetry b m vf => b < 12 && masterWf m && vf < 384
  | .frzctlFail b m vf => b < 12 && masterWf m && vf < 384
  | .frzctlFreeze b m vf => b < 12 && masterWf m && vf < 384
  | .vfReset b vf => b < 12 && vf < 384
  | .dbgvalWrite b _ => b < 12
  | .attest b _ => b < 12
  | .spokeRequestReceive p _ => p < 18
  | .spokeReplyReceive p _ => p < 18
  | .doorDelivery p _ => p < 18
  | .spokeNotice p _ => p < 18
  | .spokeLinkUp p q => p < 18 && q < 65536
  | .spokeLinkDown p => p < 18
  | .thermalTrip b => b < 12
  | .registerWrite b off _ => b < 12 && off < 2 ^ 24
  | .discardedFlit p _ => p < 18
  | _ => true

/-- Well-formed instructions. -/
def Instr.wf (i : Instr) : Bool := nodeWf i && eventWf i

end Sys2Proof
end

