-- ==== Sys2Proof/Decode.lean ====
section
/-! DEFINITION. Reading a 96-bit node record (R67 to R74) into an instruction, total on all records and rejecting by name (R106), and
writing an instruction as a record. -/

namespace Sys2Proof

open Machine

/-- Bits [lo + len - 1 : lo] of a record (R67). -/
def recBits (w : BitVec 96) (lo len : Nat) : BitVec len := w.extractLsb' lo len

/-- The opcode of a record (R67). -/
def recOpcode (w : BitVec 96) : Nat := (recBits w 87 9).toNat

/-- A destination field and its frame mode: none where PORT is 3 (R68, R69). -/
def decodeDest (d : BitVec 22) (fm : BitVec 2) : Option Dest :=
  match portOfCode (d.extractLsb' 0 2).toNat with
  | none => none
  | some p => some { dx := d.extractLsb' 18 4, dy := d.extractLsb' 14 4, node := d.extractLsb' 2 12, port := p, fm := fmOfCode fm.toNat }

/-- A destination field as the record holds it: an unused one has PORT 3 and is otherwise zero (R69). -/
def encodeDest : Option Dest → BitVec 22
  | none => 3
  | some d => d.dx ++ d.dy ++ d.node ++ BitVec.ofNat 2 (portCode d.port)

/-- The frame mode field of a destination (R67, R69). -/
def encodeFm : Option Dest → BitVec 2
  | none => 0
  | some d => BitVec.ofNat 2 (fmCode d.fm)

/-- A flag bit. -/
def flagBit (b : Bool) : BitVec 1 := if b then 1 else 0

/-- The fields of a record other than its opcode (R67). Where the opcode emits nothing no destination is used (R69). -/
def decodeNode (emits : Bool) (w : BitVec 96) : Node :=
  { ty := tyOfCode (recBits w 83 4).toNat
    slot := recBits w 75 8
    d0 := if emits then decodeDest (recBits w 53 22) (recBits w 29 2) else none
    d1 := if emits then decodeDest (recBits w 31 22) (recBits w 27 2) else none
    stR := recBits w 26 1 == 1
    stCount := recBits w 20 6
    epass := recBits w 19 1 == 1
    litr := recBits w 18 1 == 1
    sense := recBits w 17 1 == 1
    pred := recBits w 16 1 == 1
    lit := recBits w 0 16 }

/-- The destination fields and frame modes that decodeNode does not read are as R69 requires. -/
def destsClear (emits : Bool) (w : BitVec 96) : Bool :=
  if emits then
    encodeDest (decodeDest (recBits w 53 22) (recBits w 29 2)) == recBits w 53 22 &&
    encodeFm (decodeDest (recBits w 53 22) (recBits w 29 2)) == recBits w 29 2 &&
    encodeDest (decodeDest (recBits w 31 22) (recBits w 27 2)) == recBits w 31 22 &&
    encodeFm (decodeDest (recBits w 31 22) (recBits w 27 2)) == recBits w 27 2
  else recBits w 31 44 == 0 && recBits w 27 4 == 0

/-- Read a record. A record that load-time validation refuses by itself is refused with the reason R106 gives it. -/
def decode (w : BitVec 96) : Except Reject Instr :=
  match opInfo (recOpcode w) with
  | none => .error .opcodeUnassigned
  | some o =>
    let emits := o.result != .nothing
    let n := decodeNode emits w
    if !destsClear emits w then .error .fieldReserved
    else
      match recordReason o n with
      | some r => .error r
      | none => .ok (o.make n)

/-- The record of opcode `code` and fields n (R67). -/
def packNode (emits : Bool) (code : Nat) (n : Node) : BitVec 96 :=
  BitVec.ofNat 9 code ++ BitVec.ofNat 4 (tyCode n.ty) ++ n.slot ++
  (if emits then encodeDest n.d0 else 0) ++ (if emits then encodeDest n.d1 else 0) ++
  (if emits then encodeFm n.d0 else 0) ++ (if emits then encodeFm n.d1 else 0) ++
  flagBit n.stR ++ n.stCount ++ flagBit n.epass ++ flagBit n.litr ++ flagBit n.sense ++ flagBit n.pred ++ n.lit

/-- The record of a node instruction; the other rows of the table have none. -/
def encode (i : Instr) : Option (BitVec 96) :=
  match instrNode i with
  | none => none
  | some (code, n) =>
    match opInfo code with
    | none => none
    | some o => some (packNode (o.result != .nothing) code n)

/-- The 12 bytes of a record, little-endian (R47). -/
def recordBytes (w : BitVec 96) : List Byte := leBytes 12 w.toNat

/-- The record that 12 bytes hold (R47). -/
def recordOfBytes (bs : List Byte) : BitVec 96 := BitVec.ofNat 96 (leNat (bs.take 12))

/-- The instruction that the decoder reads from a record whose bits are w, least significant first as R47 stores them. Bits above the
first nbits are zero. -/
def decodeTableWord (nbits w : Nat) : Option Instr :=
  match decode (recordOfBytes (leBytes 12 (w % 2 ^ nbits))) with
  | .ok i => some i
  | .error _ => none

end Sys2Proof
end

