-- ==== Sys2Proof/Config.lean ====
section
/-! DEFINITION. The values the manual leaves open, as constants with no body: a free value is one of these applied to the model's counter of
draws (log 6). Nothing can be proved of their values. -/

namespace Sys2Proof.Config

/-- A free number, by draw. -/
opaque freeNat : Nat → Nat

/-- Which of the values that R163 allows survives at a byte, by draw and physical address. -/
opaque survivor : Nat → Nat → Nat

/-- Whether firmware and its signature verify (R458). -/
opaque firmwareAccepted : Bool

/-- SHA-512 of the running firmware (R459). -/
opaque firmwareHash : BitVec 512

/-- The r and s of the signature over a report's first bytes (R459): byte k for a list of bytes. -/
opaque signatureByte : List (BitVec 8) → Nat → BitVec 8

/-- A byte of an area of a save area that the manual calls opaque (R430), by draw and offset. -/
opaque opaqueByte : Nat → Nat → BitVec 8

/-- The DEVID that firmware gives this device at bring-up (R451). -/
opaque localDevid : BitVec 16

/-- What the device itself reads where the bytes of memory are poisoned (R152), by address. -/
opaque lostByte : Nat → BitVec 8

/-- Whether the well has a block's metadata byte in its cache (R142), by draw and block. -/
opaque metaCached : Nat → Nat → Bool

/-- The set of the translation buffer that a leaf goes to (R31), by VF, level and index; and the entry of a full set that it replaces, by draw. -/
opaque tlbSet : Nat → Nat → Nat → Nat
opaque tlbVictim : Nat → Nat

/-- What happens next where a run names no schedule (log 5), by draw; none: nothing in this step. -/
opaque schedule : Nat → Option Machine.Choice

/-- Whether the host fails to answer an access of the device's own in the host window (R154, R459). -/
opaque hostFails : Nat → Bool

end Sys2Proof.Config
end

