-- ==== Sys2Proof/Machine/Sparse.lean ====
section
/-! DEFINITION. Sparse stores in one canonical form: keys strictly rising and no entry equal to what an unlisted key reads as, so that
equal stores are equal lists. Bytes of memory are such a store, with an unlisted byte reading as zero (R155, log 1). -/

namespace Sys2Proof.Machine

/-- The entry of key k, `d` when none is listed. -/
def sget {α : Type} (d : α) : SMap α → Nat → α
  | [], _ => d
  | (j, v) :: m, k => if j = k then v else sget d m k

/-- Enter (k, v) in key order, in place of an entry of the same key. -/
def sins {α : Type} : SMap α → Nat → α → SMap α
  | [], k, v => [(k, v)]
  | (j, w) :: m, k, v => if k < j then (k, v) :: (j, w) :: m else if j = k then (k, v) :: m else (j, w) :: sins m k v

/-- Take the entry of k away. -/
def sdel {α : Type} (m : SMap α) (k : Nat) : SMap α := m.filter fun e => e.1 != k

/-- Write v at k; writing what an unlisted key reads as removes the entry. -/
def sput {α : Type} [DecidableEq α] (d : α) (m : SMap α) (k : Nat) (v : α) : SMap α :=
  if v = d then sdel m k else sins m k v

/-- The entries at k, k + 1, … that differ from `d`. -/
def sfrom {α : Type} [DecidableEq α] (d : α) : Nat → List α → SMap α
  | _, [] => []
  | k, v :: vs => if v = d then sfrom d (k + 1) vs else (k, v) :: sfrom d (k + 1) vs

/-- Write a run of values from key k upward. -/
def sputs {α : Type} [DecidableEq α] (d : α) (m : SMap α) (k : Nat) (vs : List α) : SMap α :=
  (m.filter fun e => e.1 < k) ++ sfrom d k vs ++ (m.filter fun e => k + vs.length ≤ e.1)

/-- The values of n keys from k upward. -/
def sgets {α : Type} (d : α) (m : SMap α) (k n : Nat) : List α :=
  let part := m.filter fun e => decide (k ≤ e.1) && decide (e.1 < k + n)
  (List.range n).map fun i => sget d part (k + i)

/-- Take every entry with a key in [k, k + n) away. -/
def sclear {α : Type} (m : SMap α) (k n : Nat) : SMap α := m.filter fun e => decide (e.1 < k) || decide (k + n ≤ e.1)

/-- The keys are strictly rising from `lo` and no entry equals `d`. -/
def swfFrom {α : Type} [DecidableEq α] (d : α) : Nat → SMap α → Bool
  | _, [] => true
  | lo, (k, v) :: m => decide (lo ≤ k) && (v != d) && swfFrom d (k + 1) m

/-- The canonical form of a sparse store. -/
def swf {α : Type} [DecidableEq α] (d : α) (m : SMap α) : Bool := swfFrom d 0 m

/-- The canonical form of memory. -/
def Memory.wf (m : List Host.Cell) : Bool := swf (0 : Byte) m

/-- The byte of memory at physical address a: an unlisted byte reads as zero (R155, log 1). -/
def memByte (s : State) (a : Nat) : Byte := sget (0 : Byte) s.mem a

/-- n bytes of memory from physical address a. -/
def memBytes (s : State) (a n : Nat) : List Byte := sgets (0 : Byte) s.mem a n

/-- Write bytes from physical address a upward. -/
def memPut (s : State) (a : Nat) (bs : List Byte) : State := { s with mem := sputs (0 : Byte) s.mem a bs }

end Sys2Proof.Machine
end

