-- ==== Sys2Proof/Machine/Regs.lean ====
section
/-! DEFINITION. Where the state's parts are read and written: management registers with their reset values, bulkheads, PEs, slots. Every
register has one home, State.regs, keyed by b * 2^24 + offset (R403); an unlisted register holds its reset value. -/

namespace Sys2Proof.Machine

/-- Key of a management register. -/
def regKey (b off : Nat) : Nat := b * 2 ^ 24 + off

/-- The reset value of the register at a key (the Reset columns of R133, R369, R404, R410, R411; zero elsewhere). -/
def regResetAt (k : Nat) : Word :=
  let b := k / 2 ^ 24
  let off := k % 2 ^ 24
  if off = 0x20000 then word (b / 2 * 2 ^ 8 + b % 2 * 2 ^ 11 + 2 ^ 12 + 2 ^ 15)
  else if off = 0x20008 then 0x10
  else if off = 0x20010 then 0x658
  else if off = 0x11018 then 0x10400
  else if 0x12000 ≤ off ∧ off < 0x12100 ∧ off % 8 = 0 then 0x7
  else if 0x40000 ≤ off ∧ off < 0x60000 ∧ off % 32 = 16 then 0xFFFF00000000
  else 0

/-- The stored value of a register. -/
def regGet (s : State) (b off : Nat) : Word := sget (regResetAt (regKey b off)) s.regs (regKey b off)

/-- Store a register's value. -/
def regPut (s : State) (b off : Nat) (v : Word) : State :=
  { s with regs := sput (regResetAt (regKey b off)) s.regs (regKey b off) v }

/-- A field of a register. -/
def regBits (s : State) (b off lo len : Nat) : Nat := bits (regGet s b off).toNat lo len

/-- x with bits [lo + len - 1 : lo] replaced by v. -/
def setBits (x lo len v : Nat) : Nat := x - bits x lo len * 2 ^ lo + v % 2 ^ len * 2 ^ lo

/-- Write a field of a register. -/
def regSetBits (s : State) (b off lo len v : Nat) : State := regPut s b off (word (setBits (regGet s b off).toNat lo len v))

def getPE (s : State) (b pe : Nat) : PE := sget PE.empty s.pes (peKey b pe)
def setPE (s : State) (b pe : Nat) (p : PE) : State := { s with pes := sput PE.empty s.pes (peKey b pe) p }
def modPE (s : State) (b pe : Nat) (f : PE → PE) : State := setPE s b pe (f (getPE s b pe))
def getSlot (s : State) (b sl : Nat) : Slot := sget Slot.empty s.slots (b * 32 + sl)
def setSlot (s : State) (b sl : Nat) (x : Slot) : State := { s with slots := sput Slot.empty s.slots (b * 32 + sl) x }
def modSlot (s : State) (b sl : Nat) (f : Slot → Slot) : State := setSlot s b sl (f (getSlot s b sl))
def getBulk (s : State) (b : Nat) : Bulk := sget Bulk.empty s.bhs b
def setBulk (s : State) (b : Nat) (x : Bulk) : State := { s with bhs := sput Bulk.empty s.bhs b x }
def modBulk (s : State) (b : Nat) (f : Bulk → Bulk) : State := setBulk s b (f (getBulk s b))

/-- The BH cycle of a bulkhead (R8). -/
def cycleOf (s : State) (b : Nat) : Nat := (getBulk s b).cycle

/-- BHSTAT.STATE (R411). -/
def bhState (s : State) (b : Nat) : Nat := regBits s b 0x20008 0 3

/-- Whether a VF is resident in a PE's slot (R46, R392). -/
def isResident (s : State) (b pe vf : Nat) : Bool :=
  let x := getSlot s b (slotOf pe)
  x.st == .resident && x.vf == vf

/-- Whether a VF's context stands in a slot: resident, or being saved. -/
def slotStands (s : State) (b sl vf : Nat) : Bool :=
  let x := getSlot s b sl
  (x.st == .resident || x.st == .saving) && x.vf == vf

/-- Whether a VF's context stands in a PE. -/
def standsIn (s : State) (b pe vf : Nat) : Bool := slotStands s b (slotOf pe) vf

/-- Change a PE as a VF has it: the PE itself where the VF stands in it, the saved context elsewhere (R39, R417). -/
def modCtx (s : State) (b pe vf : Nat) (f : PE → PE) : State :=
  if standsIn s b pe vf then modPE s b pe f
  else
    { s with saved := s.saved.map fun x =>
        if x.vf == vf && x.bh == b && x.sl == slotOf pe then { x with pes := x.pes.map fun e => if e.1 = pe then (e.1, f e.2) else e } else x }

/-- A PE as a VF has it (R39, R417). -/
def ctxPE (s : State) (b pe vf : Nat) : PE :=
  if standsIn s b pe vf then getPE s b pe
  else
    match (s.saved.find? fun x => x.vf == vf && x.bh == b && x.sl == slotOf pe).bind fun x => x.pes.find? fun e => e.1 == pe with
    | some e => e.2
    | none => PE.empty

/-- The home bulkhead of a VF (R5, R424). -/
def homeOf (vf : Nat) : Nat := vf / 32

/-- The tenant id of a bulkhead (R404). -/
def tenantOf (s : State) (b : Nat) : Nat := regBits s b 0x20000 0 8

/-- The partition words of BHCTL (R405): TENANT, shape and ROOTVF. -/
def partitionOf (s : State) (b : Nat) : Nat := regBits s b 0x20000 0 26

/-- Whether two bulkheads belong to one partition (R405). -/
def samePartition (s : State) (a b : Nat) : Bool := partitionOf s a == partitionOf s b

/-- The bulkheads of a bulkhead's partition. -/
def partitionBhs (s : State) (b : Nat) : List Nat := (List.range 12).filter fun a => samePartition s a b

/-- The QUANT words of slot sl (R390). -/
def quantWord (s : State) (b sl e : Nat) : Nat := (regGet s b (0x18000 + 64 * sl + 8 * e)).toNat

/-- Whether the VF has an enabled entry in the slot's quantum table: it holds the slot (R391). -/
def holdsSlot (s : State) (b sl vf : Nat) : Bool :=
  (List.range 8).any fun e => bitAt (quantWord s b sl e) 9 && bits (quantWord s b sl e) 0 9 == vf

/-- Whether the VF has an enabled entry in any quantum table of bulkhead b. -/
def inTables (s : State) (b vf : Nat) : Bool :=
  s.regs.any fun e =>
    let off := e.1 % 2 ^ 24
    e.1 / 2 ^ 24 == b && 0x18000 ≤ off && off < 0x18800 && bitAt e.2.toNat 9 && bits e.2.toNat 0 9 == vf

/-- Whether the VF has an enabled entry in any quantum table of the package (R424, R425). -/
def vfActive (s : State) (vf : Nat) : Bool := (List.range 12).any fun b => inTables s b vf

/-- The free values drawn so far (log 6). -/
def drawn (s : State) : State := { s with fresh := s.fresh + 1 }

/-- A new number for a request, command, task or configuration. -/
def newId (s : State) : State := { s with nextId := s.nextId + 1 }

end Sys2Proof.Machine
end

