-- ==== Sys2Proof/Machine/Compress.lean ====
section
/-! DEFINITION. Block compression (R135 to R148, R154): memory holds what every read path returns, the decompressed content; beside it each
2 KiB block has its metadata byte. Here: the choice of an encoding, the decoder of the PLANE bitstream, and block writes. -/

namespace Sys2Proof.Machine

/-- The metadata bytes of RAW, ZERO and CONST blocks (R135). -/
def mdRaw : Byte := 0x1C
def mdZero : Byte := 0x01
def mdConst : Byte := 0x02

/-- The metadata byte of a PLANE block of n stored sectors and element size code e (R135). -/
def mdPlane (n e : Nat) : Byte := BitVec.ofNat 8 (3 + 4 * (n - 1) + 32 * e)

/-- The metadata byte of a block, ZERO after bring-up (R155). -/
def blockMeta (s : State) (blk : Nat) : Byte := sget mdZero s.bmeta blk

/-- Whether a metadata byte is one of the decoded codes of R135. -/
def metaDecoded (md : Byte) : Bool :=
  md == mdRaw || md == mdZero || md == mdConst ||
  (md.toNat % 4 == 3 && md.toNat / 4 % 8 ≤ 6 && md.toNat / 32 % 4 ≤ 2 && md.toNat < 128)

/-- The number of stored sectors that a decoded metadata byte states (R135). -/
def metaSectors (md : Byte) : Nat := md.toNat / 4 % 8 + 1

/-- Elements of e bytes of a run of bytes, little-endian. -/
def elements (e : Nat) (bs : List Byte) : List Nat := (List.range (bs.length / e)).map fun j => fieldAt bs (e * j) e

/-- Whether a delta of b bits, as two's complement, fits in w bits (R139). -/
def deltaFits (b w d : Nat) : Bool :=
  if w = 0 then d % 2 ^ b == 0
  else
    let x := sextInt b d
    decide (x < ((2 ^ (w - 1) : Nat) : Int)) && decide (-((2 ^ (w - 1) : Nat) : Int) ≤ x)

/-- minw of a line of 64 bytes for elements of e bytes (R139). -/
def minWidth (e : Nat) (line : List Byte) : Nat :=
  let els := elements e line
  let b := 8 * e
  let base := els.headD 0
  let ds := els.map fun x => (x + 2 ^ b - base) % 2 ^ b
  ((List.range b).find? fun w => ds.all fun d => deltaFits b w d).getD b

/-- Bits that a block takes in PLANE form with elements of e bytes (R139). -/
def planeBits (e : Nat) (block : List Byte) : Nat :=
  (List.range 32).foldl (fun a l => a + 6 + 8 * e + minWidth e (slice block (64 * l) 64) * (64 / e - 1)) 0

/-- The metadata byte that R139 chooses for a block of 2,048 bytes. -/
def chooseMeta (block : List Byte) : Byte :=
  if block.all (· == 0) then mdZero
  else if (List.range 256).all fun i => slice block (8 * i) 8 == slice block 0 8 then mdConst
  else
    let n0 := ceilDiv (planeBits 1 block) 2048
    let n1 := ceilDiv (planeBits 2 block) 2048
    let n2 := ceilDiv (planeBits 4 block) 2048
    if 8 ≤ n0 ∧ 8 ≤ n1 ∧ 8 ≤ n2 then mdRaw
    else if n0 ≤ n1 ∧ n0 ≤ n2 then mdPlane n0 0
    else if n1 ≤ n2 then mdPlane n1 1
    else mdPlane n2 2

/-- k bits of a bitstream from bit p, least significant first (R138). -/
def streamBits (st p k : Nat) : Nat := st / 2 ^ p % 2 ^ k

/-- The elements of one line, with the position after it; none at an invalid condition (R138). -/
def planeLine (st lim b n pos : Nat) : Option (List Nat × Nat) :=
  if lim < pos + 6 then none
  else
    let w := streamBits st pos 6
    let p1 := pos + 6
    if b < w ∨ lim < p1 + b + w * (n - 1) then none
    else
      let base := streamBits st p1 b
      let p2 := p1 + b
      let els := (List.range (n - 1)).map fun j =>
        let d := (List.range w).foldl (fun a q => a + streamBits st (p2 + q * (n - 1) + j) 1 * 2 ^ q) 0
        let x : Int := if w = 0 then 0 else sextInt w d
        wrapNat b ((base : Int) + x)
      some (base :: els, p2 + w * (n - 1))

/-- The lines of a PLANE block from `k` lines to go (R138). -/
def planeLines (st lim b n e : Nat) : Nat → Nat → Option (List Byte × Nat)
  | 0, pos => some ([], pos)
  | k + 1, pos =>
    match planeLine st lim b n pos with
    | none => none
    | some (els, p) =>
      match planeLines st lim b n e k p with
      | none => none
      | some (rest, q) => some ((els.map (leBytes e)).flatten ++ rest, q)

/-- Decode the stored sectors of a block of metadata byte md; none where R135 or R138 finds them invalid. -/
def blockDecode (md : Byte) (stored : List Byte) : Option (List Byte) :=
  if !metaDecoded md then none
  else if md == mdRaw then some (slice stored 0 2048)
  else if md == mdZero then some (List.replicate 2048 0)
  else if md == mdConst then some ((List.replicate 256 (slice stored 0 8)).flatten)
  else
    let e := 2 ^ (md.toNat / 32 % 4)
    let lim := 2048 * metaSectors md
    let st := leNat (slice stored 0 (256 * metaSectors md))
    match planeLines st lim (8 * e) (64 / e) e 32 0 with
    | none => none
    | some (bs, p) => if st / 2 ^ p = 0 then some bs else none

/-- The state of a codeword (R128, R129). -/
def eccOf (s : State) (cw : Nat) : Ecc := sget Ecc.good s.ecc cw

/-- Set the state of a codeword. -/
def eccPut (s : State) (cw : Nat) (e : Ecc) : State := { s with ecc := sput Ecc.good s.ecc cw e }

/-- Whether a codeword does not decode. -/
def cwLost (s : State) (cw : Nat) : Bool := eccOf s cw == .uncorrectable || eccOf s cw == .poisoned

/-- Whether a block reads as poisoned as a whole (R149). Codewords of sector 0 are the first eight of the block. -/
def blockLost (s : State) (blk : Nat) : Bool :=
  let md := blockMeta s blk
  let c0 := blk * 64
  (List.range 8).all (fun i => cwLost s (c0 + i)) || !metaDecoded md ||
  (md == mdConst && cwLost s c0) ||
  (md.toNat % 4 == 3 && (List.range (8 * metaSectors md)).any fun i => cwLost s (c0 + i))

/-- Every codeword of a run becomes good, as a full write of it makes it (R129, R151). -/
def eccClear (s : State) (cw n : Nat) : State := { s with ecc := sclear s.ecc cw n }

/-- Whether byte i of a run is written under a mask; an empty mask writes every byte (R146). -/
def maskAt (mask : List Bool) (i : Nat) : Bool := mask.getD i mask.isEmpty

/-- The bytes [pa, pa + n) after a run is written over them under a mask. -/
def overlay (old bs : List Byte) (mask : List Bool) : List Byte :=
  if mask.isEmpty then bs else (old.zip bs).zipIdx.map fun x => if maskAt mask x.2 then x.1.2 else x.1.1

/-- The codewords that a run [pa, pa + n) touches. -/
def runCws (pa n : Nat) : List Nat := if n = 0 then [] else (List.range ((pa + n - 1) / 32 + 1 - pa / 32)).map fun i => pa / 32 + i

/-- Whether a run under a mask writes all 32 bytes of a codeword (R129). -/
def coversCw (pa n : Nat) (mask : List Bool) (cw : Nat) : Bool :=
  decide (pa ≤ 32 * cw) && decide (32 * cw + 32 ≤ pa + n) && (mask.isEmpty || (List.range 32).all fun i => maskAt mask (32 * cw + i - pa))

/-- Whether a run under a mask writes some byte of a codeword. -/
def touchesCw (pa n : Nat) (mask : List Bool) (cw : Nat) : Bool :=
  (List.range 32).any fun i => decide (pa ≤ 32 * cw + i) && decide (32 * cw + i < pa + n) && maskAt mask (32 * cw + i - pa)

/-- Whether a run under a mask writes a whole block (R144). -/
def wholeBlock (bs : List Byte) (mask : List Bool) : Bool := bs.length == 2048 && (List.range 2048).all (maskAt mask)

/-- Whether some codeword of a block does not decode. -/
def poisonIn (s : State) (blk : Nat) : Bool := (List.range 64).any fun i => cwLost s (blk * 64 + i)

/-- Whether a write of part of a block leaves it RAW without a merge (R145, R151). -/
def staysRaw (s : State) (comp : Bool) (blk : Nat) : Bool := blockMeta s blk == mdRaw && (!comp || poisonIn s blk)

/-- Write bytes that lie in one block, at physical address pa through COMP, those that a mask selects (R144 to R146, R151). False where the block reads
as poisoned as a whole and the write covers only part of it: then nothing is written. A partial write that merges re-encodes the block. -/
def blockWrite (s : State) (comp : Bool) (pa : Nat) (bs : List Byte) (mask : List Bool) : State × Bool :=
  let blk := pa / 2048
  let put : State := memPut s pa (overlay (memBytes s pa bs.length) bs mask)
  let whole (md : Byte) : State := { eccClear put (blk * 64) 64 with bmeta := sput mdZero s.bmeta blk md }
  if wholeBlock bs mask then (whole (if comp then chooseMeta bs else mdRaw), true)
  else if blockLost s blk then (s, false)
  else if staysRaw s comp blk then
    (((runCws pa bs.length).filter (coversCw pa bs.length mask)).foldl (fun t cw => eccPut t cw .good) put, true)
  else (whole (if comp then chooseMeta (memBytes put (blk * 2048) 2048) else mdRaw), true)

/-- Write bytes block by block, with `k` blocks at most; the physical addresses of parts that were not written. -/
def hbmWriteFrom : Nat → State → Bool → Nat → List Byte → State × List Nat
  | 0, s, _, _, _ => (s, [])
  | k + 1, s, comp, pa, bs =>
    if bs.isEmpty then (s, [])
    else
      let n := 2048 - pa % 2048
      let r := blockWrite s comp pa (bs.take n) []
      let rest := hbmWriteFrom k r.1 comp (pa + n) (bs.drop n)
      (rest.1, (if r.2 then [] else [pa]) ++ rest.2)

/-- Write bytes to HBM (R144 to R147). -/
def hbmWrite (s : State) (comp : Bool) (pa : Nat) (bs : List Byte) : State × List Nat :=
  hbmWriteFrom (bs.length / 2048 + 2) s comp pa bs

/-- A write of the device's own, through COMP = 0, that looks at no codeword: the records of events. -/
def hbmPut (s : State) (pa : Nat) (bs : List Byte) : State := (hbmWrite s false pa bs).1

/-- Such a write of a number of n bytes. -/
def putLe (s : State) (pa n v : Nat) : State := hbmPut s pa (leBytes n v)

/-- Mark a block ZERO (R155, R384). -/
def blockZero (s : State) (blk : Nat) : State :=
  let s1 := { s with mem := sclear s.mem (blk * 2048) 2048 }
  { eccClear s1 (blk * 64) 64 with bmeta := sput mdZero s1.bmeta blk mdZero }

/-- The channel of a physical address (R110). -/
def channelOf (pa : Nat) : Nat := Nat.xor (bits pa 11 5) (bits pa 16 5)

/-- Whether a byte of memory can be read: its codeword and its block decode (R130, R149). -/
def readable (s : State) (pa : Nat) : Bool :=
  !blockLost s (pa / 2048) && !(blockMeta s (pa / 2048) == mdRaw && cwLost s (pa / 32))

/-- Offsets within [pa, pa + len) whose codeword cannot be read (R130, R150). -/
def lostBytes (s : State) (pa len : Nat) : List Nat := (List.range len).filter fun i => !readable s (pa + i)

/-- What the device itself reads at an address, and in a run: a poisoned byte is never returned; what stands in its place is a free value (R152). -/
def ownByte (s : State) (pa : Nat) : Byte := if readable s pa then memByte s pa else Config.lostByte pa
def ownBytes (s : State) (pa n : Nat) : List Byte := (memBytes s pa n).zipIdx.map fun x => if readable s (pa + x.2) then x.1 else Config.lostByte (pa + x.2)

/-- An 8-byte little-endian word of memory, as the device reads it. -/
def mem64 (s : State) (pa : Nat) : Nat := leNat (ownBytes s pa 8)

/-- A 4-byte little-endian word of memory, as the device reads it. -/
def mem32 (s : State) (pa : Nat) : Nat := leNat (ownBytes s pa 4)

/-- The sectors of its block that a run touches (R112, R142). -/
def touchedSectors (pa n : Nat) : List Nat :=
  if n = 0 then [] else (List.range ((pa + n - 1) / 256 + 1 - pa / 256)).map fun i => (pa / 256 + i) % 8

/-- Whether a write of part of a block writes its touched sectors only and reads nothing else (R145): any other combination is a merge. -/
def rawInPlace (s : State) (comp : Bool) (blk : Nat) : Bool := blockMeta s blk == mdRaw && !comp

/-- The sectors that the well reads from the stack for a read that touches some sectors of a block, with the metadata byte in its cache or not (R142). -/
def readSectorsIf (s : State) (blk : Nat) (touched : List Nat) (cached : Bool) : List Nat :=
  let md := blockMeta s blk
  let known (xs : List Nat) : List Nat := if xs.contains 0 || cached then xs else 0 :: xs
  if md == mdRaw then known touched
  else if md == mdZero then known []
  else if md.toNat % 4 == 3 && metaDecoded md then List.range (metaSectors md)
  else [0]

/-- The same, where whether the well has the metadata byte in its cache is a free value. -/
def readSectors (s : State) (blk : Nat) (touched : List Nat) : List Nat := readSectorsIf s blk touched (Config.metaCached s.fresh blk)

/-- The sectors that an access holds: those it touches or reads; a write that merges reads the whole block (R142, R144, R145). -/
def accessSectors (s : State) (write comp : Bool) (pa n : Nat) : List Nat :=
  let blk := pa / 2048
  let t := touchedSectors pa n
  let also (xs : List Nat) : List Nat := (List.range 8).filter fun k => t.contains k || xs.contains k
  if !write then readSectors s blk t
  else if n = 2048 then List.range 8
  else if rawInPlace s comp blk then t
  else also (readSectors s blk (List.range 8))

end Sys2Proof.Machine
end

