-- ==== Sys2Proof/Machine/Events.lean ====
section
/-! DEFINITION. Region control blocks and budgets (R365 to R368), error numbers (R79), events (R421 to R423), flag words (R424), energy
charges (R425 to R427), frozen masters and the halt of a launch (R285, R417, R418): the machine's taking of an exception. -/

namespace Sys2Proof.Machine

/-- A source of events and error tokens, packed as an event's SRC field (R421); an error payload holds it eight bits higher (R79). -/
def srcWord (eng sbh idx skind : Nat) : Nat := eng + 2 * sbh + 32 * idx + 2 ^ 14 * skind

/-- A PE as a source. -/
def peSrc (b pe : Nat) : Nat := srcWord 0 b pe 0

/-- The region sequencer as a source of reset, energy and launch events (R421). -/
def seqrSrc (b : Nat) : Nat := srcWord 1 b 0 6

/-- The well as a source (R421). -/
def wellSrc (b : Nat) : Nat := srcWord 1 b 0 3

/-- The payload of a new error token of a source, which takes the source's next number (R79). -/
def newError (s : State) (src code : Nat) : Word × State :=
  let seq := sget 0 s.errSeq src
  (word (code % 256 + src * 256 + seq * 2 ^ 32), { s with errSeq := sput 0 s.errSeq src ((seq + 1) % 2 ^ 32) })

/-- The record that the sequencer keeps of an RCB, active or not (R367). -/
def rcbRec (s : State) (addr : Nat) : Option Rcb := s.rcbs.find? fun r => r.addr == addr

/-- The activated RCB at an address (R367). -/
def rcbAt (s : State) (addr : Nat) : Option Rcb := s.rcbs.find? fun r => r.addr == addr && r.active

/-- The RCB that VFRCB names for a VF, zero where it names none (R368). -/
def vfRcbAddr (s : State) (vf : Nat) : Nat :=
  let w := (regGet s (homeOf vf) (0x12400 + 8 * (vf % 32))).toNat
  if bitAt w 0 then bits w 7 41 * 128 else 0

/-- VFRCB.EN (R368): whether the VF may be entered in quantum tables. -/
def vfEnabled (s : State) (vf : Nat) : Bool := bitAt (regGet s (homeOf vf) (0x12400 + 8 * (vf % 32))).toNat 0

/-- The effective value of an inheritable field (R367): that of the nearest RCB whose override bit is set; at tenant level every bit counts
as set. Four levels are enough (R365). -/
def rcbEff (s : State) (ovr : Nat) (rd : Nat → Nat) : Nat → Nat → Nat
  | 0, addr => rd addr
  | k + 1, addr =>
    let hdr := mem64 s addr
    if bits hdr 0 2 = 0 ∨ bitAt hdr ovr then rd addr else rcbEff s ovr rd k (mem64 s (addr + 8))

/-- A budget of an RCB: zero where its override bit is clear, so that it limits nothing there (R367). -/
def rcbBudget (s : State) (addr ovr off : Nat) : Nat :=
  let hdr := mem64 s addr
  if bits hdr 0 2 = 0 ∨ bitAt hdr ovr then mem32 s (addr + off) else 0

/-- The RCB at an address as activation fixes it (R366, R367). -/
def rcbRead (s : State) (addr : Nat) : Rcb :=
  let hdr (a : Nat) := mem64 s a
  { addr := addr
    active := true
    parent := if bits (hdr addr) 0 2 = 0 then 0 else mem64 s (addr + 8)
    vf := bits (hdr addr) 32 9
    fdom := rcbEff s 16 (fun a => bits (hdr a) 2 1) 4 addr == 1
    prio := rcbEff s 17 (fun a => bits (hdr a) 3 3) 4 addr
    cap := rcbEff s 18 (fun a => bits (hdr a) 6 3) 4 addr
    strict := rcbEff s 18 (fun a => bits (hdr a) 9 1) 4 addr == 1
    cfault := rcbEff s 19 (fun a => bits (hdr a) 10 1) 4 addr == 1
    errhalt := rcbEff s 19 (fun a => bits (hdr a) 11 1) 4 addr == 1
    ecap := rcbEff s 26 (fun a => mem64 s (a + 40) % 2 ^ 48) 4 addr
    evq := rcbEff s 27 (fun a => mem64 s (a + 56)) 4 addr
    quant := rcbEff s 28 (fun a => mem32 s (a + 64)) 4 addr
    limit := { slot := rcbBudget s addr 20 16, page := rcbBudget s addr 21 20, frame := rcbBudget s addr 22 24,
               qent := rcbBudget s addr 23 28, cist := rcbBudget s addr 24 32, task := rcbBudget s addr 25 36 }
    used := Budget.zero
    ecapPosted := false }

/-- Enter an RCB among those that the sequencer knows and, before it, its ancestors that are not there: activated, with what was charged to it before, or for
its counts alone (R367). -/
def enterRcb (active : Bool) : Nat → State → Nat → State
  | 0, s, _ => s
  | k + 1, s, addr =>
    if (!active ∧ addr = 0) ∨ (rcbAt s addr).isSome ∨ (!active ∧ (rcbRec s addr).isSome) then s
    else
      let used := match rcbRec s addr with | some r => r.used | none => Budget.zero
      let r : Rcb := { rcbRead s addr with active := active, used := used }
      let s1 := if r.parent = 0 then s else enterRcb active k s r.parent
      { s1 with rcbs := (s1.rcbs.filter fun x => x.addr != addr) ++ [r] }

/-- Activate the RCB at an address with its path (R365: four levels). -/
def rcbActivate (s : State) (addr : Nat) : State := enterRcb true 4 s addr

/-- Know the RCB at an address and its path, so that uses can be charged to them before they are activated (R367). -/
def rcbNote (s : State) (addr : Nat) : State := enterRcb false 4 s addr

/-- RCBs are no longer active (R367): those to which nothing is charged are forgotten. -/
def rcbRetire (s : State) (hit : Rcb → Bool) : State :=
  { s with rcbs := (s.rcbs.map fun r => if hit r then { r with active := false } else r).filter fun r => r.active || r.used != Budget.zero }

/-- The RCBs on the path from an address to the tenant (R367). -/
def rcbPath (s : State) : Nat → Nat → List Nat
  | 0, _ => []
  | k + 1, addr =>
    match rcbRec s addr with
    | none => []
    | some r => addr :: (if r.parent = 0 then [] else rcbPath s k r.parent)

/-- The budgets (R365). -/
inductive BudgetKind where
  | slot | page | frame | qent | cist | task
  deriving DecidableEq, Repr

/-- One budget. -/
def budgetGet (k : BudgetKind) (x : Budget) : Nat :=
  match k with
  | .slot => x.slot | .page => x.page | .frame => x.frame | .qent => x.qent | .cist => x.cist | .task => x.task

/-- A budget with one count replaced. -/
def budgetSet (k : BudgetKind) (v : Nat) (x : Budget) : Budget :=
  match k with
  | .slot => { x with slot := v } | .page => { x with page := v } | .frame => { x with frame := v }
  | .qent => { x with qent := v } | .cist => { x with cist := v } | .task => { x with task := v }

/-- A use of n more is granted: it exceeds no nonzero budget on the path (R367). -/
def budgetOk (s : State) (addr : Nat) (k : BudgetKind) (n : Nat) : Bool :=
  (rcbPath s 4 addr).all fun a =>
    match rcbRec s a with
    | none => true
    | some r => budgetGet k r.limit == 0 || budgetGet k r.used + n ≤ budgetGet k r.limit

/-- Change the count charged on the path by `up` and then down by `down` (R367). -/
def budgetMove (s : State) (addr : Nat) (k : BudgetKind) (up down : Nat) : State :=
  let path := rcbPath s 4 addr
  { s with rcbs := s.rcbs.map fun r =>
      if path.contains r.addr then { r with used := budgetSet k (budgetGet k r.used + up - down) r.used } else r }

/-- The launch of an id, while the sequencer holds it (R387). -/
def launchAt (s : State) (lid : Nat) : Option Launch := s.launches.find? fun l => l.lid == lid && l.st != .ended

/-- The task of an id (R386). -/
def taskAt (s : State) (id : Option Nat) : Option Task :=
  match id with
  | none => none
  | some i => s.tasks.find? fun t => t.id == i

/-- Replace a launch. -/
def launchPut (s : State) (l : Launch) : State :=
  { s with launches := s.launches.map fun x => if x.lid == l.lid && x.st != .ended then l else x }

/-- The RCB that a use by a task, a launch or a VF is charged from (R367). -/
def chargeAddr (s : State) (vf lid : Nat) (task : Option Nat) : Nat :=
  let tr := match taskAt s task with | some t => t.rcb | none => 0
  let lr := match launchAt s lid with | some l => l.rcb | none => 0
  if tr ≠ 0 then tr else if lr ≠ 0 then lr else vfRcbAddr s vf

/-- The RCB from which a task's table entry is charged (R367): its task group's, or its launch's. -/
def taskPayer (s : State) (t : Task) : Nat := if t.rcb ≠ 0 then t.rcb else chargeAddr s t.vf t.lid none

/-- Tasks for which a test holds are discarded with no join (R386, R402); the table's entries go back. -/
def tasksDrop (s : State) (hit : Task → Bool) : State :=
  let s1 := (s.tasks.filter hit).foldl (fun t k => budgetMove t (taskPayer s k) .task 0 1) s
  { s1 with tasks := s1.tasks.filter fun t => !hit t }

/-- The RCB whose EVQ names the queue of an event (R422); zero for none. -/
def evqRcb (s : State) (vf lid : Option Nat) : Nat :=
  match lid.bind (launchAt s), vf with
  | some l, _ => if l.rcb = 0 then vfRcbAddr s l.vf else l.rcb
  | none, some v => vfRcbAddr s v
  | none, none => 0

/-- The event queue descriptor for an event (R422); zero where the event is lost uncounted. -/
def evqFor (s : State) (b : Nat) (vf lid : Option Nat) : Nat :=
  let addr := evqRcb s vf lid
  let q :=
    match rcbAt s addr with
    | some r => r.evq
    | none => if addr = 0 then 0 else rcbEff s 27 (fun a => mem64 s (a + 56)) 4 addr
  if q = 0 then bits (regGet s b 0x20028).toNat 6 42 * 64 else q

/-- Whether a physical address lies in a stack whose bulkhead is under reset. -/
def stackFenced (s : State) (pa : Nat) : Bool := decide (pa / 2 ^ 36 < 12) && bhState s (pa / 2 ^ 36) != 0

/-- Put a 32-byte record on the queue whose descriptor is at physical address d, or count it lost (R422). While the bulkhead of a stack that holds its
descriptor or its ring is under reset, an event is lost uncounted (R446). `read` is the device's read of some bytes, `write` its write: what they meet is theirs. -/
def queueWith (read : State → Nat → Nat → State) (write : State → Nat → List Byte → State) (s : State) (d : Nat) (rec : List Byte) : State :=
  if d = 0 ∨ stackFenced s d ∨ stackFenced s (mem64 s d) then s
  else
    let s1 := read s d 28
    let base := mem64 s1 d
    let n := 2 ^ ((ownByte s1 (d + 8)).toNat)
    let head := mem32 s1 (d + 16)
    let tail := mem32 s1 (d + 20)
    let lost := mem32 s1 (d + 24)
    if (tail + 2 ^ 32 - head) % 2 ^ 32 < n then
      write (write s1 (base + 32 * (tail % n)) rec) (d + 20) (leBytes 4 (tail + 1))
    else write s1 (d + 24) (leBytes 4 (min (lost + 1) 0xFFFFFFFF))

/-- The record of an event (R421). `payload` is its 16 bytes as a number. -/
def eventRecord (s : State) (src : Nat) (vf lid : Option Nat) (code payload : Nat) : List Byte :=
  leBytes 4 src ++ leBytes 4 (sget 0 s.evSeq src) ++ leBytes 2 (match vf with | some v => v % 512 | none => 2 ^ 15) ++ leBytes 2 code ++
    leBytes 2 (lid.getD 0xFFFF) ++ leBytes 2 0 ++ leBytes 16 payload

/-- A source's event number advances, whether or not the event is lost (R421). -/
def evSeqUp (s : State) (src : Nat) : State := { s with evSeq := sput 0 s.evSeq src ((sget 0 s.evSeq src + 1) % 2 ^ 32) }

/-- Post an event about a codeword (R128, R129). The accesses to its own queue meet none in their turn (log 123). -/
def postPlain (s : State) (src b : Nat) (vf lid : Option Nat) (code payload : Nat) : State :=
  queueWith (fun t _ _ => t) hbmPut (evSeqUp s src) (evqFor s b vf lid) (eventRecord s src vf lid code payload)

/-- The next event number of a source (R418, R421). -/
def nextEventSeq (s : State) (src : Nat) : Nat := sget 0 s.evSeq src

/-- The weight of an energy class (R426). -/
def energyWeight (s : State) (b cls : Nat) : Nat := regBits s b (0x20100 + 8 * (cls / 2)) (32 * (cls % 2)) 32

/-- Charge a slot's delta with a class's weight times a count (R425, R427). -/
def charge (s : State) (b pe cls count : Nat) : State :=
  let w := energyWeight s b cls * count
  if w = 0 then s else modSlot s b (slotOf pe) fun x => { x with delta := (x.delta + w) % 2 ^ 64 }

/-- A PE frozen for a reason (R417). One already frozen keeps its reason. Its matched firings are marked for the pair link (R350). -/
def frozePE (why : FreezeReason) (p : PE) : PE :=
  if p.frozen.isSome then p else { p with frozen := some why, ready := p.ready.map fun f => { f with broken := true } }

/-- The slot whose context holds a master: that of a PE, of a pump's cluster, of a gather engine. -/
def masterSlot : MasterId → Option Nat
  | .pe i => some (slotOf i)
  | .unit 0 c => some (c / 16 * 4 + c % 8 / 2)
  | .unit 1 sl => some sl
  | .unit _ _ => none

/-- Freeze a unit for a VF (R417): in the VF's saved context where it does not stand in the unit's slot. -/
def freezeUnit (s : State) (b skind idx vf : Nat) (why : FreezeReason) : State :=
  let add (us : List FrozenUnit) : List FrozenUnit :=
    if us.any fun u => u.kind == skind && u.idx == idx then us else us ++ [{ kind := skind, idx := idx, why := why, vf := vf }]
  let here : Bool := match masterSlot (.unit skind idx) with | some sl => slotStands s b sl vf | none => true
  if here then modBulk s b fun x => { x with frozenUnits := add x.frozenUnits }
  else { s with saved := s.saved.map fun x =>
          if x.vf == vf && x.bh == b && some x.sl == masterSlot (.unit skind idx) then { x with units := add x.units } else x }

/-- Freeze a master of a VF (R417). -/
def freezeMaster (s : State) (b : Nat) (m : MasterId) (vf : Nat) (why : FreezeReason) : State :=
  match m with
  | .pe i => modCtx s b i vf (frozePE why)
  | .unit k i => freezeUnit s b k i vf why

/-- Whether a master is frozen. -/
def masterFrozen (s : State) (b : Nat) (m : MasterId) : Bool :=
  match m with
  | .pe i => (getPE s b i).frozen.isSome
  | .unit k i => (getBulk s b).frozenUnits.any fun u => u.kind == k && u.idx == i

/-- The master that an agent's work runs on (R79, R417). -/
def agentMaster : Agent → Nat × MasterId
  | .pe b i => (b, .pe i)
  | .pump b c => (b, .unit 0 c)
  | .gather b sl => (b, .unit 1 sl)
  | .stream b i => (b, .pe i)
  | .well b => (b, .unit 3 0)
  | .seqr b => (b, .unit 6 0)
  | .qctl b => (b, .unit 5 0)
  | .host => (0, .unit 7 0)
  | .spoke p => (p, .unit 7 p)

/-- An agent as a source of errors and events (R79). A stream's generator is its PE's. -/
def agentSrc : Agent → Nat
  | .pe b i => peSrc b i
  | .pump b c => srcWord 1 b c 0
  | .gather b sl => srcWord 1 b sl 1
  | .stream b i => peSrc b i
  | .well b => wellSrc b
  | .seqr b => seqrSrc b
  | .qctl b => srcWord 1 b 0 5
  | .host => srcWord 1 0 0 7
  | .spoke p => srcWord 1 0 p 7

/-- The bulkhead of an agent. -/
def agentBh (a : Agent) : Nat := (agentMaster a).1

end Sys2Proof.Machine
end

