-- ==== Sys2Proof/Machine/Ecc.lean ====
section
/-! DEFINITION. Codewords of HBM as accesses meet them (R128 to R130, R133, R142, R149 to R152), the accesses that the device itself makes to HBM, events
(R421, R422) and flag words (R424). -/

namespace Sys2Proof.Machine

/-- Count uncorrectable codewords first found, and report them (R129, R150). WECCSTAT.OVF is set by the first count that finds no room (log 124). -/
def poisonReport (s : State) (b vf : Nat) (known : Bool) (cw n : Nat) : State :=
  let off := cw * 32 % 2 ^ 36
  let ue := regBits s b 0x11008 32 16
  let s1 := if 0xFFFF < ue + n then regSetBits (regSetBits s b 0x11008 32 16 0xFFFF) b 0x11008 48 1 1 else regSetBits s b 0x11008 32 16 (ue + n)
  let s2 := regPut s1 b 0x11010 (word (off + channelOf off * 2 ^ 36 + 2 ^ 63))
  postPlain s2 (wellSrc b) b (if known then some vf else none) none 0x04 off

/-- Count a corrected codeword, and report it where CEEV asks for that (R128, R133). WECCSTAT.OVF is set by the first count that finds no room
(log 124). -/
def countCorrected (t : State) (b cw : Nat) : State :=
  let ce := regBits t b 0x11008 0 32
  let t1 := if ce = 0xFFFFFFFF then regSetBits t b 0x11008 48 1 1 else regSetBits t b 0x11008 0 32 (ce + 1)
  if regBits t1 b 0x11008 49 1 = 1 ∧ (getBulk t1 b).ceAt ≤ cycleOf t1 b then
    let t2 := postPlain t1 (wellSrc b) b none none 0x05 (cw * 32 % 2 ^ 36)
    modBulk t2 b fun x => { x with ceAt := x.cycle + 65536 }
  else t1

/-- The well reads a codeword on behalf of a VF: an uncorrectable one is poisoned and reported when first found (R129), a corrected one is counted
(R128). -/
def meetCw (b vf : Nat) (known : Bool) (s : State) (cw : Nat) : State :=
  match eccOf s cw with
  | .uncorrectable => poisonReport (eccPut s cw .poisoned) b vf known cw 1
  | .correctable => countCorrected s b cw
  | _ => s

/-- Whether a block bears the mark of R150. -/
def blockMarked (s : State) (blk : Nat) : Bool := (List.range 8).all fun i => eccOf s (blk * 64 + i) == .poisoned

/-- The codewords of some sectors of a block. -/
def sectorCws (blk : Nat) (secs : List Nat) : List Nat := (secs.map fun k => (List.range 8).map fun i => blk * 64 + 8 * k + i).flatten

/-- The well reads sectors of a block on behalf of a VF: a block that reads as poisoned as a whole is marked and reported when first found (R150); of
another each codeword is met. -/
def meetSectors (s : State) (vf : Nat) (known : Bool) (blk : Nat) (secs : List Nat) : State :=
  let b := blk / 2 ^ 25
  if blockLost s blk then
    if blockMarked s blk then s
    else poisonReport ((List.range 8).foldl (fun a i => eccPut a (blk * 64 + i) .poisoned) s) b vf known (blk * 64) 8
  else (sectorCws blk secs).foldl (meetCw b vf known) s

/-- The shares of [pa, pa + n) in each block that it touches. -/
def blockSpans (pa n : Nat) : List (Nat × Nat) :=
  if n = 0 then []
  else (List.range ((pa + n - 1) / 2048 + 1 - pa / 2048)).map fun i =>
    let lo := max pa ((pa / 2048 + i) * 2048)
    (lo, min (pa + n) ((pa / 2048 + i + 1) * 2048) - lo)

/-- What a read of bytes that lie in one block meets (R142). -/
def meetRead (s : State) (vf : Nat) (known : Bool) (pa n : Nat) : State :=
  meetSectors s vf known (pa / 2048) (readSectors s (pa / 2048) (touchedSectors pa n))

/-- What a write of bytes that lie in one block meets (R129, R145): nothing where the whole block is written; the codewords it covers in part where a RAW block is
written in place; the whole block where it merges. -/
def meetWrite (s : State) (vf : Nat) (known comp : Bool) (pa : Nat) (bs : List Byte) (mask : List Bool) : State :=
  let blk := pa / 2048
  if wholeBlock bs mask then s
  else if !blockLost s blk && rawInPlace s comp blk then
    ((runCws pa bs.length).filter fun cw => !coversCw pa bs.length mask cw && touchesCw pa bs.length mask cw).foldl (meetCw (blk / 2 ^ 25) vf known) s
  else meetSectors s vf known blk (readSectors s blk (List.range 8))

/-- The device reads bytes of HBM for itself: the codewords are met block by block, and the sector slots are held within the step (R112, R133, log 123). -/
def ownMeet (s : State) (vf : Nat) (known : Bool) (pa n : Nat) : State :=
  (blockSpans pa n).foldl (fun t x => ownPulse (meetRead t vf known x.1 x.2) (x.1 / 2 ^ 36) (accessSectors t false false x.1 x.2).length) s
where
  /-- Slots held for a moment show in WSTAT.PEAK alone (R133). -/
  ownPulse (s : State) (b k : Nat) : State :=
    if b < 12 ∧ regBits s b 0x11000 16 15 < regBits s b 0x11000 0 15 + k then regSetBits s b 0x11000 16 15 (min 16384 (regBits s b 0x11000 0 15 + k))
    else s

/-- Bytes are written to HBM through COMP = 0, block by block (R112, R145, R151), as the device does for itself and for what comes from outside; false where a
block refused its share. -/
def ownTry (s : State) (vf : Nat) (known : Bool) (pa : Nat) (bs : List Byte) : State × Bool :=
  (blockSpans pa bs.length).foldl (fun a x =>
    let part := slice bs (x.1 - pa) x.2
    let t := ownMeet.ownPulse (meetWrite a.1 vf known false x.1 part []) (x.1 / 2 ^ 36) (accessSectors a.1 true false x.1 x.2).length
    let w := blockWrite t false x.1 part []
    (w.1, a.2 && w.2)) (s, true)

/-- The device writes bytes of HBM for itself (R152). -/
def ownPut (s : State) (vf : Nat) (pa : Nat) (bs : List Byte) : State := (ownTry s vf true pa bs).1

/-- The sequencer reads the RCBs that an activation is about to fix (R128, R367). -/
def rcbMeet : Nat → State → Nat → State
  | 0, s, _ => s
  | k + 1, s, addr =>
    if addr = 0 ∨ (rcbAt s addr).isSome then s else rcbMeet k (ownMeet s 0 false addr 128) (mem64 s (addr + 8))

/-- Activate an RCB, whose codewords are met as it is read (R367). -/
def rcbUse (s : State) (addr : Nat) : State := rcbActivate (if addr = 0 then ownMeet s 0 false 0 128 else rcbMeet 4 s addr) addr

/-- The device reads an 8-byte word of HBM on behalf of a VF: the state, and the word. -/
def ownWord (s : State) (vf pa : Nat) : State × Nat := let t := ownMeet s vf true pa 8; (t, mem64 t pa)

/-- The RCB at an address is known, and its codewords are met as it is read (R128, R367). -/
def rcbKnow (s : State) (addr : Nat) : State := rcbNote (rcbMeet 4 s addr) addr

/-- The device writes bytes of HBM on behalf of no VF. -/
def ownWrite (s : State) (pa : Nat) (bs : List Byte) : State := (ownTry s 0 false pa bs).1

/-- Such a write of a number of n bytes. -/
def memPutLe (s : State) (pa n v : Nat) : State := ownWrite s pa (leBytes n v)

/-- The record of an event goes to its queue, whose codewords are met (R128 to R130, R145, R150, R422). -/
def queueEvent (s : State) (d : Nat) (rec : List Byte) : State := queueWith (fun t pa n => ownMeet t 0 false pa n) ownWrite s d rec

/-- Post an event of a source in bulkhead b (R421, R422). `payload` is its 16 bytes as a number. SEQ advances whether or not it is lost. The RCBs that name the queue
are read where they are not active. -/
def postEvent (s : State) (src b : Nat) (vf lid : Option Nat) (code payload : Nat) : State :=
  let s1 := rcbMeet 4 (evSeqUp s src) (evqRcb s vf lid)
  queueEvent s1 (evqFor s1 b vf lid) (eventRecord s src vf lid code payload)

/-- OR flags into a VF's word: VFFLAG while it is in a quantum table, its RCB's FLAGW otherwise (R424). -/
def orVfFlags (s : State) (vf : Nat) (fl : BitVec 9) : State :=
  if fl = 0 then s
  else if vfActive s vf then
    let off := 0x20600 + 8 * (vf % 32)
    regPut s (homeOf vf) off (regGet s (homeOf vf) off ||| fl.setWidth 64)
  else
    let a := vfRcbAddr s vf
    if !vfEnabled s vf then s
    else (let r := ownWord s vf (a + 48); memPutLe r.1 (a + 48) 8 (Nat.lor r.2 fl.toNat))

/-- OR flags into the words of the VF and of the launch recorded at issue (R251, R424). -/
def creditFlags (s : State) (vf lid : Nat) (fl : BitVec 9) : State :=
  let s1 := orVfFlags s vf fl
  match launchAt s1 lid with
  | none => s1
  | some l => launchPut s1 { l with flags := l.flags ||| fl }

end Sys2Proof.Machine
end

