-- ==== Sys2Proof/Machine/Stores.lean ====
section
/-! DEFINITION. The five stores of a PE (R45 to R64): frames and slot tags, tiles and their granules, accumulators, handle-table entries and
their reference counts, and the configuration that covers a node. -/

namespace Sys2Proof.Machine

/-- The slot tag's STATE codes (R50). -/
def tagEmpty : Nat := 0
def tagParkL : Nat := 1
def tagParkR : Nat := 2
def tagFilled : Nat := 3
def tagStickyL : Nat := 4
def tagStickyR : Nat := 5
def tagParkP : Nat := 6

/-- A slot tag (R50). -/
def mkTag (st kind count : Nat) : BitVec 16 := BitVec.ofNat 16 (st + 8 * kind + 32 * count)

/-- The tag of a slot, and its fields. -/
def slotTag (p : PE) (sl : Nat) : BitVec 16 := sget 0 p.tags sl
def tagState (t : BitVec 16) : Nat := bits t.toNat 0 3
def tagKind (t : BitVec 16) : Nat := bits t.toNat 3 2
def tagCount (t : BitVec 16) : Nat := bits t.toNat 5 6

/-- The value of a slot by any path: an EMPTY slot reads as zero (R51, R64). -/
def slotValue (p : PE) (sl : Nat) : Word := if tagState (slotTag p sl) = 0 then 0 else sget 0 p.frames sl

/-- Bytes of the ECC unit that begins at an offset of the store windows (R64): a record, a slot or 8 bytes of an accumulator, a handle-table entry,
or a granule. -/
def unitSize (off : Nat) : Nat := if off < 0x10000 then 12 else if off < 0x48000 then 8 else if off < 0x80000 then 128 else 16

/-- A write of all of [off, off + len): the ECC units that lie in it hold what is written, without error (R64, log 142). -/
def mended (m : SMap Bool) (off len : Nat) : SMap Bool :=
  m.filter fun e => !(decide (off ≤ e.1) && decide (e.1 + unitSize e.1 ≤ off + len))

/-- Set a slot's tag and value. -/
def slotPut (p : PE) (sl : Nat) (t : BitVec 16) (v : Word) : PE :=
  { p with tags := sput 0 p.tags sl t, frames := sput 0 p.frames sl v, spoilt := mended p.spoilt (0x10000 + 8 * sl) 8 }

/-- Set a slot's tag alone. -/
def slotTagPut (p : PE) (sl : Nat) (t : BitVec 16) : PE := { p with tags := sput 0 p.tags sl t }

/-- Whether unit fp heads a live frame (R49, R54). -/
def frameLive (p : PE) (fp : Nat) : Bool := bits (sget 0 p.fmap fp).toNat 0 2 == 3

/-- The size class of the frame at unit fp (R49). -/
def frameClass (p : PE) (fp : Nat) : Nat := bits (sget 0 p.fmap fp).toNat 2 3

/-- The frame pointer of the live frame that covers a unit (R223). -/
def frameCovering (p : PE) (unit : Nat) : Option Nat :=
  (p.finfo.find? fun e => decide (e.1 ≤ unit) && decide (unit < e.1 + 2 ^ e.2.cls)).map (·.1)

/-- What is kept beside a frame (R230). -/
def frameInfo (p : PE) (fp : Nat) : Option FrameInfo := (p.finfo.find? fun e => e.1 == fp).map (·.2)

/-- The PEs of a placed rectangle (R229, R232). -/
def rectPes (c : Placed) : List Nat :=
  (List.range (c.w * c.h)).map fun i => (c.oy + i / c.w) * 16 + (c.ox + i % c.w)

/-- Whether a PE lies in a placed rectangle. -/
def inRect (c : Placed) (pe : Nat) : Bool :=
  c.ox ≤ pe % 16 && pe % 16 < c.ox + c.w && c.oy ≤ pe / 16 && pe / 16 < c.oy + c.h

/-- The slots that a placed rectangle touches. -/
def rectSlots (c : Placed) : List Nat := (rectPes c).foldl (fun a pe => if a.contains (slotOf pe) then a else a ++ [slotOf pe]) []

/-- The valid configuration of a VF that covers a node on a PE (R47, R216). -/
def cfgCovering (s : State) (b pe vf node : Nat) : Option Placed :=
  s.cfgs.find? fun c => c.valid && c.bh == b && c.vf == vf && inRect c pe && c.nbase ≤ node && node < c.nbase + c.ncount

/-- The configuration of an id. -/
def cfgAt (s : State) (id : Nat) : Option Placed := s.cfgs.find? fun c => c.id == id

/-- Replace a configuration. -/
def cfgPut (s : State) (c : Placed) : State := { s with cfgs := s.cfgs.map fun x => if x.id == c.id then c else x }

/-- The instruction in record n of a PE's instruction store (R47), none where the record would not pass a load. -/
def nodeAt (p : PE) (n : Nat) : Option Instr :=
  match decode (recordOfBytes (sgets 0 p.instr (12 * n) 12)) with
  | .ok i => some i
  | .error _ => none

/-- The opcode row and the fields of record n (R47, R83). -/
def nodeInfo (p : PE) (n : Nat) : Option (OpInfo × Node) :=
  match (nodeAt p n).bind instrNode with
  | none => none
  | some (code, nd) => (opInfo code).map fun o => (o, nd)

/-- The policy of a PE in a configuration (R101, R216). -/
def policyAt (c : Placed) (pe : Nat) : Policy :=
  policyOf (c.pols.getD ((pe / 16 - c.oy) * c.w + (pe % 16 - c.ox)) 0)

/-- The live TID entry of a VF in a bulkhead (R102): that of a resident configuration which declares it. -/
def tidEntry (s : State) (vf tid : Nat) : Option TidEntry :=
  (s.cfgs.filter fun c => c.valid && c.vf == vf).findSome? fun c => c.tids.find? fun t => t.tid == tid

/-- The handle-table entry of an index (R60). -/
def handleAt (p : PE) (h : Nat) : HEntry := sget HEntry.empty p.handles h

/-- Set a handle-table entry. -/
def handlePut (p : PE) (h : Nat) (e : HEntry) : PE := { p with handles := sput HEntry.empty p.handles h e }

/-- The fields of a handle token's payload (R77). -/
def handleIdx (v : Word) : Nat := bits v.toNat 0 8
def handleTid (v : Word) : Nat := bits v.toNat 8 10
def handleGen (v : Word) : Nat := bits v.toNat 32 16

/-- A handle token's payload (R77). -/
def handleWord (h tid gen : Nat) : Word := word (h % 256 + tid % 1024 * 2 ^ 8 + gen % 65536 * 2 ^ 32)

/-- Whether a handle payload is valid on a PE: its entry has KIND 1 or 2 and its GEN (R61). -/
def handleValid (p : PE) (v : Word) : Bool :=
  let e := handleAt p (handleIdx v)
  e.kind != .free && e.gen == handleGen v

/-- The generation after g (R60). -/
def nextGen (g : Nat) : Nat := if g ≥ 0xFFFF then 1 else g + 1

/-- Tile pages in use on a PE. -/
def usedPages (p : PE) : List Nat := p.handles.foldl (fun a e => if e.2.kind = .tile then a ++ e.2.pages else a) []

/-- Accumulator tiles in use on a PE. -/
def usedAccs (p : PE) : List Nat := p.handles.foldl (fun a e => if e.2.kind = .acc then a ++ e.2.pages else a) []

/-- The n lowest numbers below `lim` that are not used (R55, R342). -/
def lowestFree (lim : Nat) (used : List Nat) (n : Nat) : List Nat := ((List.range lim).filter fun i => !used.contains i).take n

/-- The lowest-numbered free handle-table entry (R60). -/
def freeHandle (p : PE) : Option Nat := (List.range 256).find? fun h => (handleAt p h).kind == .free

/-- The page budget an entry is charged: one per page of a tile, three per accumulator tile (R342). -/
def entryPages (e : HEntry) : Nat := if e.kind = .acc then 3 * e.pages.length else e.pages.length

/-- Forget a freed tile among the copies that multicast consumers still hold (R206): `outs` lists (HIDX, GEN) pairs by consumer. -/
def outsForget (s : State) (b pe vf h gen : Nat) : State :=
  { s with cfgs := s.cfgs.map fun c =>
      if c.bh = b ∧ c.vf = vf then
        { c with outs := c.outs.map fun o =>
            let d := c.descs.getD o.1 0
            if bits d.toNat (32 + 28 * o.2.1) 9 = pe then (o.1, o.2.1, o.2.2.1.filter (fun x => x != (h, gen)), o.2.2.2) else o }
      else c }

/-- Free a handle-table entry (R61): KIND 0, GEN advanced, its pages or tiles returned, its other fields as left (R64). The bytes of a freed accumulator read as zero from
then on (R64). -/
def freeEntry (s : State) (b pe h : Nat) : State :=
  let p := getPE s b pe
  let e := handleAt p h
  let vf := (getSlot s b (slotOf pe)).vf
  let acc := if e.kind = .acc then e.pages.foldl (fun a t => sclear a (6144 * t) 6144) p.acc else p.acc
  let p1 := handlePut { p with acc := acc } h { e with kind := .free, gen := nextGen e.gen, accFields := e.kind == .acc, payer := 0 }
  let s1 := budgetMove (setPE s b pe p1) e.payer .page 0 (entryPages e)
  if e.kind = .tile then outsForget s1 b pe vf h e.gen else s1

/-- Lower the count of an entry whose generation still matches (R58, R61). -/
def refDown (p : PE) (h gen n : Nat) : PE :=
  let e := handleAt p h
  if e.kind = .free ∨ e.gen ≠ gen then p else handlePut p h { e with ref := e.ref - n }

/-- Drop n references of an entry: at the end of the BH cycle, after every increment of that cycle (R58). -/
def dropRef (s : State) (b pe h gen n : Nat) : State :=
  modPE s b pe fun p => { p with late := p.late ++ [({ Firing.empty with bh := b, pe := pe }, .drop h gen n)] }

/-- Whether an issued firing of a PE has still to complete as the producer of an entry (R58, R60). -/
def producing (p : PE) (h : Nat) : Bool := p.issued.any fun it => it.effects.contains (.produced h)

/-- Free the entries of a PE that no token names at the end of a BH cycle (R58). One whose producer has not completed keeps its place (R60). -/
def freeUnnamed (s : State) (b pe : Nat) : State :=
  let p := getPE s b pe
  (p.handles.filter fun e => e.2.kind != .free && !e.2.pend && e.2.ref == 0 && !producing p e.1).foldl (fun t e => freeEntry t b pe e.1) s

/-- Drop the reference of a token or operand that is discarded: only a handle holds one (R58). -/
def dropToken (s : State) (b pe : Nat) (k : Kind) (v : Word) (n : Nat) : State :=
  if k = .handle then dropRef s b pe (handleIdx v) (handleGen v) n else s

/-- Add n references; none where REF would pass 255 (R59). -/
def addRef (s : State) (b pe h n : Nat) : Option State :=
  let p := getPE s b pe
  let e := handleAt p h
  if 255 < e.ref + n then none else some (setPE s b pe (handlePut p h { e with ref := e.ref + n }))

/-- The RCB from which the tile pages of a firing are charged: every RCB from there up counts them, its VF's among them (R189, R342, R367). -/
def pageAddr (s : State) (f : Firing) : Nat := chargeAddr s f.vf f.lid f.task

/-- Allocate a tile of `rows` rows on a PE of a firing's bulkhead for it, PEND as given (R55, R57, R189); none while pages, an entry or the budget are
missing. -/
def allocTile (s : State) (f : Firing) (pe tid rows : Nat) (pend : Bool) : Option (Nat × State) :=
  let b := f.bh
  let p := getPE s b pe
  let n := ceilDiv rows 4
  let pages := lowestFree 256 (usedPages p) n
  match freeHandle p with
  | none => none
  | some h =>
    if pages.length < n ∨ !budgetOk s (pageAddr s f) .page n then none
    else
      let gen := (handleAt p h).gen
      let e : HEntry := { HEntry.empty with kind := .tile, pages := pages, pend := pend, gen := gen, tid := tid, payer := pageAddr s f }
      let full := pages.foldl (fun a g => sclear a (128 * g) 128) p.full
      let tile := pages.foldl (fun a g => sclear a (2048 * g) 2048) p.tile
      let spoilt := pages.foldl (fun a g => mended a (0x80000 + 2048 * g) 2048) (mended p.spoilt (0x48000 + 128 * h) 128)
      let p1 := handlePut { p with full := full, tile := tile, spoilt := spoilt } h e
      some (h, budgetMove (setPE s b pe p1) (pageAddr s f) .page n 0)

/-- Allocate n accumulator tiles of a firing's PE under one entry (R342). -/
def allocAcc (s : State) (f : Firing) (n : Nat) (e0 : HEntry) : Option (Nat × State) :=
  let b := f.bh
  let pe := f.pe
  let p := getPE s b pe
  let tiles := lowestFree 16 (usedAccs p) n
  match freeHandle p with
  | none => none
  | some h =>
    if tiles.length < n ∨ !budgetOk s (pageAddr s f) .page (3 * n) then none
    else
      let e := { e0 with kind := .acc, pages := tiles, gen := (handleAt p h).gen, clear := true, tid := 0, ref := 0, pend := true, payer := pageAddr s f }
      some (h, budgetMove (setPE s b pe (handlePut { p with spoilt := mended p.spoilt (0x48000 + 128 * h) 128 } h e)) (pageAddr s f) .page (3 * n) 0)

/-- The store offset of row i of a tile (R55). -/
def rowOffset (pages : List Nat) (i : Nat) : Nat := 2048 * pages.getD (i / 4) 0 + 512 * (i % 4)

/-- Row i of a tile as 512 bytes; an empty granule supplies zeros (R64). -/
def rowBytes (p : PE) (pages : List Nat) (i : Nat) : List Byte := sgets 0 p.tile (rowOffset pages i) 512

/-- Whether every granule of row i is full (R57). -/
def rowFull (p : PE) (pages : List Nat) (i : Nat) : Bool := (sgets false p.full (rowOffset pages i / 16) 32).all id

/-- The first `rows` rows of a tile as numbers of 4,096 bits, and whether some granule was empty (R64, R311). -/
def tileRows (p : PE) (e : HEntry) (rows : Nat) : List Nat × Bool :=
  ((List.range rows).map fun i => leNat (rowBytes p e.pages i), (List.range rows).any fun i => !rowFull p e.pages i)

/-- Write bytes that lie in one granule: a partial write to an empty granule merges with zeros, and the granule becomes full (R57). -/
def tileWrite (p : PE) (off : Nat) (bs : List Byte) : PE :=
  if bs.isEmpty then p
  else { p with tile := sputs 0 p.tile off bs, full := sputs false p.full (off / 16) (List.replicate ((off + bs.length - 1) / 16 + 1 - off / 16) true),
                spoilt := mended p.spoilt (0x80000 + off) bs.length }

/-- Write rows, given as numbers of 4,096 bits, to a tile from row 0, every granule full (R57). -/
def tileFill (p : PE) (pages : List Nat) (rows : List Nat) : PE :=
  (rows.zipIdx).foldl (fun q r => tileWrite q (rowOffset pages r.2) (leBytes 512 r.1)) p

/-- The links of a frame: 0 and 1 (R53). A link that is EMPTY, or of a frame that is no longer live, reads as zero with EMPTY_READ. -/
def linkRead (p : PE) (fp which : Nat) : Word × Bool :=
  if frameLive p fp && tagState (slotTag p (16 * fp + which)) != 0 then (slotValue p (16 * fp + which), false) else (0, true)

/-- Write a link slot: FILLED, KIND value (R287, R290). -/
def linkWrite (p : PE) (fp which : Nat) (v : Word) : PE := slotPut p (16 * fp + which) (mkTag tagFilled 0 0) v

/-- Units in use on any PE of a list. -/
def unitsUsed (s : State) (b : Nat) (pes : List Nat) : List (Nat × Nat) :=
  pes.foldl (fun a pe => a ++ (getPE s b pe).finfo.map fun e => (e.1, 2 ^ e.2.cls)) []

/-- The lowest fp at which 2^cls units are free in every PE of a list at once (R48, R229). -/
def frameFit (s : State) (b : Nat) (pes : List Nat) (cls : Nat) : Option Nat :=
  let used := unitsUsed s b pes
  let m := 2 ^ cls
  (List.range (1025 - m)).find? fun fp => used.all fun u => fp + m ≤ u.1 || u.1 + u.2 ≤ fp

/-- The frame map entries of a frame of class cls: HEAD in the first unit (R49). -/
def frameMap (cls : Nat) : List (BitVec 5) :=
  BitVec.ofNat 5 (3 + 4 * cls) :: List.replicate (2 ^ cls - 1) 1

/-- Allocate frame fp on one PE (R51). -/
def frameOpen (p : PE) (fp : Nat) (i : FrameInfo) : PE :=
  { p with fmap := sputs 0 p.fmap fp (frameMap i.cls), tags := sclear p.tags (16 * fp) (16 * 2 ^ i.cls), finfo := p.finfo ++ [(fp, i)] }

/-- Allocate a frame of class cls in every PE of a configuration, with the wave number the group gives (R51, R164, R229). The units are
charged once per PE (R229). None while units or the budget are missing. -/
def frameAlloc (s : State) (c : Placed) (cls : Nat) (site : Option (Nat × Nat)) (lid : Nat) (task : Option Nat) (root : Bool) :
    Option (Nat × State) :=
  let pes := rectPes c
  let addr := chargeAddr s c.vf lid task
  match frameFit s c.bh pes cls with
  | none => none
  | some fp =>
    if !budgetOk s addr .frame (2 ^ cls * pes.length) then none
    else
      let info : FrameInfo :=
        { cls := cls, wave := if root then 0 else c.waveNext, site := site, cfg := c.id, lid := lid, task := task, payer := addr }
      let s1 := pes.foldl (fun t pe => modPE t c.bh pe fun p => frameOpen p fp info) s
      let s2 := budgetMove s1 addr .frame (2 ^ cls * pes.length) 0
      some (fp, if root then s2 else cfgPut s2 { c with waveNext := c.waveNext + 1 })

/-- Drop what the slots of a frame hold on one PE (R52, R58). -/
def frameDrop (s : State) (b pe fp cls : Nat) : State :=
  let p := getPE s b pe
  let held := p.tags.filter fun e => decide (16 * fp ≤ e.1) && decide (e.1 < 16 * fp + 16 * 2 ^ cls)
  held.foldl (fun t e =>
    let st := tagState e.2
    let c := tagCount e.2
    let n := if st = tagStickyL ∨ st = tagStickyR then (if c = 63 then 1 else c) else 1
    if st ≠ tagFilled ∧ tagKind e.2 = 1 then dropToken t b pe .handle (sget 0 p.frames e.1) n else t) s

/-- Close frame fp on one PE (R51, R52). -/
def frameClose (p : PE) (fp cls : Nat) : PE :=
  { p with fmap := sclear p.fmap fp (2 ^ cls), tags := sclear p.tags (16 * fp) (16 * 2 ^ cls), finfo := p.finfo.filter fun e => e.1 != fp }

/-- Lower a site counter by one and release it at zero (R231). -/
def siteDown (p : PE) (key : Nat × Nat) : PE :=
  { p with sites := (p.sites.map fun e => if e.1 = key then (e.1, e.2 - 1) else e).filter fun e => e.2 != 0 }

/-- Free the frame at fp in every PE of its own configuration's rectangle (R52, R229, R289). -/
def frameFree (s : State) (b pe fp : Nat) : State :=
  match frameInfo (getPE s b pe) fp with
  | none => s
  | some i =>
    let pes := match cfgAt s i.cfg with | some c => rectPes c | none => [pe]
    let s1 := pes.foldl (fun t q => modPE (frameDrop t b q fp i.cls) b q fun p => frameClose p fp i.cls) s
    let s2 := match i.site with
      | none => s1
      | some (n, f) => modPE s1 b (n / 4096) fun p => siteDown p (n % 4096, f)
    budgetMove s2 i.payer .frame 0 (2 ^ i.cls * pes.length)

end Sys2Proof.Machine
end

