-- ==== Sys2Proof/Machine/Gates.lean ====
section
/-! DEFINITION. The edges between bulkheads and the judgement of what crosses them (R27, R405 to R409, R413). -/

namespace Sys2Proof.Machine

/-- A free number and the state after the draw (log 6). -/
def draw (s : State) : Nat × State := (Config.freeNat s.fresh, drawn s)

/-- The neighbour of a bulkhead across edge 0 WEST, 1 VERT or 2 EAST, none where the edge leaves the grid (R406). -/
def neighbour (b e : Nat) : Option Nat :=
  match e with
  | 0 => if b < 2 then none else some (b - 2)
  | 1 => some (if b % 2 = 0 then b + 1 else b - 1)
  | _ => if 10 ≤ b then none else some (b + 2)

/-- The edge of bulkhead z that faces its neighbour a (R406). -/
def edgeToward (z a : Nat) : Nat := if a + 2 = z then 0 else if z + 2 = a then 2 else 1

/-- The next bulkhead on the way from x to y: along the row to y's column, then vertically (R407). -/
def nextHop (x y : Nat) : Nat := if x / 2 < y / 2 then x + 2 else if y / 2 < x / 2 then x - 2 else y

/-- An edge's field and its FORCED bit in BHGATE (R406). -/
def edgeField (s : State) (z e : Nat) : Nat := regBits s z 0x20018 (2 * e) 2
def edgeForced (s : State) (z e : Nat) : Bool := regBits s z 0x20018 (6 + e) 1 == 1

/-- Whether an entry of WINTAB or SPKIN, by its range word, covers [pa, pa + len) (R408, R453). -/
def rangeCovers (w1 pa len : Nat) : Bool :=
  let base := bits w1 0 34 * 2 ^ 14
  let size := bits w1 34 30 * 2 ^ 14
  decide (base ≤ pa) && decide (pa + len ≤ base + size)

/-- Whether a WINTAB entry of z admits a request (R407, R408): kind 0 read, 1 write, 2 atomic, reduction or join. -/
def wintabAdmits (s : State) (z x vf kind pa len : Nat) : Bool :=
  (List.range 8).any fun i =>
    let w0 := (regGet s z (0x20200 + 16 * i)).toNat
    let w1 := (regGet s z (0x20208 + 16 * i)).toNat
    bitAt w0 0 && bits w0 1 4 == x && (bitAt w0 14 || bits w0 5 9 == vf) && bitAt w0 (15 + kind) && rangeCovers w1 pa len

/-- What an edge does with a request. -/
inductive Verge where
  | passes | denied | reset
  deriving DecidableEq, Repr

/-- The judgement of the edge into z from a, for traffic of bulkhead x to bulkhead y; kind 3 is a queue-controller operation (R407, R413). -/
def edgeJudge (s : State) (x y z a vf kind pa len : Nat) : Verge :=
  let e := edgeToward z a
  if edgeForced s z e then .reset
  else
    match edgeField s z e with
    | 2 => .passes
    | 1 => if kind ≠ 3 ∧ z = y ∧ wintabAdmits s z x vf kind pa len then .passes else .denied
    | _ => .denied

/-- Judge the whole way from bulkhead a on; the bulkhead whose edge stops it, and how. At most seven crossings. -/
def wayJudge (s : State) (x y vf kind pa len : Nat) : Nat → Nat → Option (Nat × Verge)
  | 0, _ => none
  | k + 1, a =>
    if a = y then none
    else
      let z := nextHop a y
      match edgeJudge s x y z a vf kind pa len with
      | .passes => wayJudge s x y vf kind pa len k z
      | v => some (z, v)

/-- The bulkhead on whose account a forced edge answers: the one under reset (R413). -/
def resetSide (s : State) (z a : Nat) : Nat := if bhState s z ≠ 0 then z else a

/-- Whether a reply from y back to x meets a forced edge; it retraces the request's path (R407). The bulkhead under reset. -/
def replyBlocked (s : State) (x y : Nat) : Nat → Nat → Option Nat
  | 0, _ => none
  | k + 1, a =>
    if a = y then none
    else
      let z := nextHop a y
      if edgeForced s z (edgeToward z a) || edgeForced s a (edgeToward a z) then some (resetSide s z a) else replyBlocked s x y k z

/-- The payload of a GATE_DENIED or BH_RESET error made at bulkhead z's gate (R409, R413). -/
def gateError (s : State) (z code : Nat) : Word × State := newError s (srcWord 1 z 0 4) code

/-- The two GATE_VIOLATION events of a refusal at z (R409). -/
def gateEvents (s : State) (z vf lid pa kind : Nat) : State :=
  let pay := pa % 2 ^ 48 + z * 2 ^ 48 + kind * 2 ^ 52
  let s1 := postEvent s (srcWord 1 z 0 4) z (some vf) (some lid) 0x12 pay
  postEvent s1 (srcWord 1 z 0 4) z none none 0x12 pay

end Sys2Proof.Machine
end

