-- ==== Sys2Proof/Machine/Translate.lean ====
section
/-! DEFINITION. Translation at the well: the three-level walk, the checks of R19 and R20, the translation buffer, and the judgement of an access
(R15 to R35). -/

namespace Sys2Proof.Machine

/-- The regions of the physical map (R25). -/
inductive Region where
  | hbm | window | host | spoke | other
  deriving DecidableEq, Repr

/-- The region of a physical address (R25). -/
def regionOf (pa : Nat) : Region :=
  if pa < 0x00C000000000 then .hbm
  else if 0x010000000000 ≤ pa ∧ pa < 0x010180000000 then .window
  else if 0x030000000000 ≤ pa ∧ pa < 0x040000000000 then .host
  else if 0x040000000000 ≤ pa ∧ pa < 0x050000000000 then .spoke
  else .other

/-- The stack of an HBM address: that of its bulkhead (R25). -/
def stackOf (pa : Nat) : Nat := pa / 2 ^ 36

/-- The bulkhead, PE and window offset of a store-window address (R25, R26). -/
def winBh (pa : Nat) : Nat := (pa - 0x010000000000) / 2 ^ 29
def winPe (pa : Nat) : Nat := (pa - 0x010000000000) / 2 ^ 20 % 512
def winOff (pa : Nat) : Nat := pa % 2 ^ 20

/-- Offset bits that a leaf of a level covers (R16). -/
def levelShift (lv : Nat) : Nat := if lv = 1 then 36 else if lv = 2 then 25 else 14

/-- Fields of a page-table entry (R18). -/
def pteOa (e : Nat) : Nat := bits e 14 34 * 2 ^ 14
def pteRd (e : Nat) : Bool := bitAt e 2
def pteWr (e : Nat) : Bool := bitAt e 3
def pteComp (e : Nat) : Bool := bitAt e 4
def pteHostc (e : Nat) : Bool := bitAt e 5
def pteWin (e : Nat) : Bool := bitAt e 6
def pteArena (e : Nat) : Bool := bitAt e 7

/-- Whether a leaf's attributes suit its target (R20). -/
def leafSuits (e lv : Nat) : Bool :=
  match regionOf (pteOa e) with
  | .hbm => !pteWin e && (!pteArena e || lv == 3)
  | .window => lv == 3 && !pteComp e && !pteHostc e && pteWin e && !pteArena e
  | .host => !pteComp e && !pteHostc e && !pteWin e && !pteArena e
  | .spoke => !pteComp e && !pteHostc e && !pteWin e && !pteArena e
  | .other => !pteWin e

/-- The reason for which the walker refuses an entry at a level, in the order of R19 and R20; `mask` is TENSTK. -/
def pteReason (mask e lv : Nat) : Option Nat :=
  let leaf := bitAt e 1
  if !bitAt e 0 then some 0x01
  else if bits e 8 6 ≠ 0 ∨ bits e 48 8 ≠ 0 then some 0x02
  else if !leaf ∧ lv = 3 then some 0x03
  else if !leaf ∧ bits e 2 6 ≠ 0 then some 0x02
  else if leaf ∧ ((lv = 1 ∧ bits e 14 22 ≠ 0) ∨ (lv = 2 ∧ bits e 14 11 ≠ 0)) then some 0x04
  else if !leaf ∧ !(regionOf (pteOa e) == .hbm && bitAt mask (stackOf (pteOa e))) then some 0x06
  else if leaf ∧ !leafSuits e lv then some 0x05
  else none

/-- What a walk finds. -/
inductive WalkRes where
  | leaf (pte level : Nat)
  | fault (reason level : Nat)
  | poison (level addr : Nat)
  deriving DecidableEq, Repr

/-- The index of a virtual address into a table of a level (R16). -/
def tableIndex (va lv : Nat) : Nat := bits va (levelShift lv) 11

/-- Walk from a table at a level, with `k` levels left to read (R17, R19, R130). -/
def walkFrom (s : State) (mask va : Nat) : Nat → Nat → Nat → WalkRes
  | 0, lv, _ => .fault 0x03 lv
  | k + 1, lv, table =>
    let addr := table + 8 * tableIndex va lv
    if cwLost s (addr / 32) || blockLost s (addr / 2048) then .poison lv addr
    else
      let e := mem64 s addr
      match pteReason mask e lv with
      | some r => .fault r lv
      | none => if bitAt e 1 then .leaf e lv else walkFrom s mask va k (lv + 1) (pteOa e)

/-- VFROOT of a VF (R17, R44). -/
def vfRoot (s : State) (vf : Nat) : Nat := (regGet s (homeOf vf) (0x10000 + 8 * (vf % 32))).toNat

/-- TENSTK of a bulkhead (R27, R44). -/
def tenstk (s : State) (b : Nat) : Nat := regBits s b 0x10200 0 12

/-- The walk of a VF's tables by the well of bulkhead b (R16 to R20). -/
def walk (s : State) (b vf va : Nat) : WalkRes :=
  let root := vfRoot s vf
  if !bitAt root 0 then .fault 0x08 0 else walkFrom s (tenstk s b) va 3 1 (bits root 14 34 * 2 ^ 14)

/-- The translation-buffer entry of bulkhead b that covers an address of a VF (R31). -/
def tlbHit (s : State) (b vf va : Nat) : Option TlbEntry :=
  (getBulk s b).tlb.find? fun t => t.vf == vf && va / 2 ^ levelShift t.level == t.vidx

/-- The set of a leaf in the translation buffer (R31): which it is, is a free value. -/
def tlbSetOf (t : TlbEntry) : Nat := Config.tlbSet t.vf t.level t.vidx % 4096

/-- Install a leaf that passed its checks (R33). A set holds 16 entries; which one of a full set is replaced is a free value (R31). -/
def tlbFill (s : State) (b vf va pte lv : Nat) : State :=
  let e : TlbEntry := { vf := vf, level := lv, vidx := va / 2 ^ levelShift lv, pte := word pte }
  let d := draw s
  modBulk d.2 b fun x =>
    let kept := x.tlb.filter fun t => !(t.vf == e.vf && t.level == e.level && t.vidx == e.vidx)
    let ways := kept.filter fun t => tlbSetOf t == tlbSetOf e
    let gone := if kept.length < 16 ∨ ways.length < 16 then none else ways[Config.tlbVictim d.1 % 16]?
    { x with tlb := (kept.filter fun t => some t != gone) ++ [e] }

/-- The physical page that a task's overlay puts in the place of a renamable page (R23): it holds the pages that are mapped away from version 0 (R384). -/
def overlayPage (s : State) (task : Option Nat) (vpn : Nat) : Option Nat :=
  (taskAt s task).bind fun t => (t.pages.find? fun p => p.vpn == vpn && p.ver.isSome).bind fun p => p.ver

/-- The row of R26 that a window offset falls in: 0 instruction store, 1 reserved, 2 frame store, 3 accumulator store, 4 handle table,
5 tile store; and where the row ends. -/
def windowRow (off : Nat) : Nat × Nat :=
  if off < 0xC000 then (0, 0xC000)
  else if off < 0x10000 then (1, 0x10000)
  else if off < 0x30000 then (2, 0x30000)
  else if off < 0x48000 then (3, 0x48000)
  else if off < 0x50000 then (4, 0x50000)
  else if off < 0x80000 then (1, 0x80000)
  else (5, 0x100000)

/-- The reason with which a row of R26 refuses an access. -/
def rowReason (row : Nat) (write atomic : Bool) : Option Nat :=
  if atomic then some 0x15
  else if row = 1 then some 0x14
  else if write && row != 2 && row != 5 then some 0x13
  else none

/-- The first refusal among the rows that [off, off + len) of a window touches, with its offset from `off` (R26). -/
def windowReason (write atomic : Bool) : Nat → Nat → Nat → Nat → Option (Nat × Nat)
  | 0, _, _, _ => none
  | k + 1, off, len, d =>
    if len = 0 then none
    else
      let row := windowRow off
      match rowReason row.1 write atomic with
      | some r => some (r, d)
      | none =>
        let n := min len (row.2 - off)
        windowReason write atomic k (off + n) (len - n) (d + n)

/-- Whether an aperture lets an access through (R452): an unbound one does not, and a door aperture takes atomics and reductions alone. -/
def apertureOpen (s : State) (b pa : Nat) (atomic : Bool) : Bool :=
  let w := (regGet s b (0x20800 + 8 * ((pa - 0x040000000000) / 2 ^ 34))).toNat
  bitAt w 0 && (!bitAt w 1 || atomic)

/-- Judge one part through a leaf (R24, R35 steps 4 to 6). TENSTK is not asked here: it is the edges that judge what leaves the bulkhead (R27), so an address in
the well's own stack whose bit of TENSTK is clear is performed like any other (log 138). An atomic through a leaf with neither RD nor WR reports NO_READ: R35 gives NO_READ and
NO_WRITE no order between them, and this one is the model's choice (log 145). -/
def judgeLeaf (s : State) (b vf : Nat) (task : Option Nat) (write atomic : Bool) (va len pte lv : Nat) : XRes :=
  let base := if pteArena pte then
      (match overlayPage s task (va / 2 ^ 14) with | some p => p * 2 ^ 14 | none => pteOa pte)
    else pteOa pte
  let pa := base + va % 2 ^ levelShift lv
  let reg := regionOf pa
  if reg = .window ∧ !holdsSlot s (winBh pa) (slotOf (winPe pa)) vf then .bad 0x07 0 va
  else if (!write ∨ atomic) ∧ !pteRd pte then .bad 0x10 lv va
  else if (write ∨ atomic) ∧ !pteWr pte then .bad 0x11 lv va
  else
    match reg with
    | .hbm => .ok pa (pteComp pte) (pteHostc pte) false
    | .window =>
      match windowReason write atomic 8 (winOff pa) len 0 with
      | some (r, d) => .bad r lv (va + d)
      | none => .ok pa false false true
    | .host => if atomic then .bad 0x12 lv va else .ok pa false false false
    | .spoke => if apertureOpen s b pa atomic then .ok pa false false false else .bad 0x12 lv va
    | .other => .bad 0x12 lv va

/-- What the well knows of a part at once: a refusal of R15 or ROOT_OFF, or a buffer hit; none where a walk is needed (R29, R32, R35). LEVEL 0 for VA_RANGE is the
model's choice, since R36 names no level for it (log 146). -/
def partNow (s : State) (b vf : Nat) (task : Option Nat) (write atomic : Bool) (va len : Nat) : Option XRes :=
  if 2 ^ 47 ≤ va then some (.bad 0x16 0 va)
  else if !bitAt (vfRoot s vf) 0 then some (.bad 0x08 0 va)
  else
    match tlbHit s b vf va with
    | some t => some (judgeLeaf s b vf task write atomic va len t.pte.toNat t.level)
    | none => none

/-- Split [va, va + len) at the 16 KiB boundaries of virtual space, wrapping modulo 2^64 (R30, R184): (va, offset, length). -/
def splitPages : Nat → Nat → Nat → Nat → List (Nat × Nat × Nat)
  | 0, _, _, _ => []
  | k + 1, va, off, len =>
    if len = 0 then []
    else
      let n := min len (2 ^ 14 - va % 2 ^ 14)
      (va, off, n) :: splitPages k ((va + n) % 2 ^ 64) (off + n) (len - n)

end Sys2Proof.Machine
end

