-- ==== Sys2Proof/Machine/Window.lean ====
section
/-! DEFINITION. Reads and writes of a PE's stores through its window (R26, R60, R63 to R66). -/

namespace Sys2Proof.Machine

/-- The code of an entry's KIND (R60). -/
def hkindCode : HKind → Nat
  | .free => 0 | .tile => 1 | .acc => 2

/-- A list of n numbers of `w` bytes each, zeros past its end. -/
def packBytes (w n : Nat) (xs : List Nat) : List Byte := ((List.range n).map fun i => leBytes w (xs.getD i 0)).flatten

/-- The 128 bytes of a handle-table entry (R60). A free entry reads as left, with KIND 0 (R64). -/
def handleBytes (e : HEntry) : List Byte :=
  let np := e.pages.length - 1
  let head := leBytes 8 (e.ref % 256 + hkindCode e.kind * 2 ^ 8 + np % 4 * 2 ^ 10 + b2n e.pend * 2 ^ 12 + e.gen * 2 ^ 16 +
    leNat (packBytes 1 4 e.pages) * 2 ^ 32) ++ leBytes 24 e.tid
  let tile := packBytes 2 16 (e.rexp.map BitVec.toNat) ++ packBytes 2 16 (e.cexp.map BitVec.toNat) ++ leBytes 4 e.rflag.toNat ++
    leBytes 4 e.cflag.toNat ++ leBytes 4 e.bound.toNat ++ leBytes 4 (e.part + e.km1 * 2 ^ 8 + e.keyType * 2 ^ 16) ++
    packBytes 1 16 e.count ++ leBytes 16 0
  let acc := leBytes 4 (e.mode + e.keyType * 2 ^ 8 + e.km1 * 2 ^ 16 + (b2n e.clear + 2 * b2n e.isSealed) * 2 ^ 24) ++
    leBytes 2 e.pruned.toNat ++ packBytes 1 16 (if e.clear then [] else e.count) ++ leBytes 74 0
  head ++ (if e.kind = .acc ∨ (e.kind = .free ∧ e.accFields) then acc else tile)

/-- The live accumulator entry that names tile a, with the tile's place in its list. -/
def accOwner (p : PE) (a : Nat) : Option (HEntry × Nat) :=
  (p.handles.find? fun x => x.2.kind == .acc && x.2.pages.contains a).map fun x => (x.2, x.2.pages.idxOf a)

/-- Byte `off` of accumulator tile a (R63, R64). -/
def accByte (p : PE) (a off : Nat) : Byte :=
  match accOwner p a with
  | none => 0
  | some (e, k) =>
    let raw := sget 0 p.acc (6144 * a + off)
    if e.mode = 2 then
      let j := off % 384 / 12 + 32 * k
      let held := if e.clear then 0 else e.count.getD (off / 384) 0
      if j < held then raw else if off % 12 < 8 then 0 else 0xFF
    else if e.clear then 0 else raw

/-- Byte `off` of a store window (R26, R64), and whether it stands in an EMPTY slot or an empty granule. -/
def windowByte (p : PE) (off : Nat) : Byte × Bool :=
  match (windowRow off).1 with
  | 0 => (sget 0 p.instr off, false)
  | 2 =>
    let o := off - 0x10000
    (BitVec.ofNat 8 ((slotValue p (o / 8)).toNat / 2 ^ (8 * (o % 8))), tagState (slotTag p (o / 8)) == 0)
  | 3 => let o := off - 0x30000; (accByte p (o / 6144) (o % 6144), false)
  | 4 => let o := off - 0x48000; ((handleBytes (handleAt p (o / 128))).getD (o % 128) 0, false)
  | 5 =>
    let o := off - 0x80000
    if sget false p.full (o / 16) then (sget 0 p.tile o, false) else (0, true)
  | _ => (0, false)

/-- A window read without blocking: the bytes, and whether any stood empty (R64). -/
def windowRead (p : PE) (off len : Nat) : List Byte × Bool :=
  let xs := (List.range len).map fun i => windowByte p (off + i)
  (xs.map (·.1), xs.any (·.2))

/-- Whether a read of a window reads the bits of an ECC unit: an EMPTY slot, an empty granule and an accumulator without entry or with CLEAR = 1 read as
zero, whatever the store holds (R64). -/
def unitRead (p : PE) (u : Nat) : Bool :=
  match (windowRow u).1 with
  | 2 => tagState (slotTag p ((u - 0x10000) / 8)) != 0
  | 3 => (match accOwner p ((u - 0x30000) / 6144) with | some (e, _) => !e.clear | none => false)
  | 5 => sget false p.full ((u - 0x80000) / 16)
  | _ => true

/-- Whether a read of [off, off + len) of a window meets an uncorrectable error (R64). -/
def spoiltIn (p : PE) (off len : Nat) : Bool :=
  p.spoilt.any fun e => decide (e.1 < off + len) && decide (off < e.1 + unitSize e.1) && unitRead p e.1

/-- The granules of the tile store that [off, off + len) of a window touches. -/
def windowGranules (off len : Nat) : List Nat :=
  if off < 0x80000 ∨ len = 0 then []
  else
    let o := off - 0x80000
    (List.range ((o + len - 1) / 16 + 1 - o / 16)).map fun i => o / 16 + i

/-- Clear granules to empty, as a .take read leaves them (R57, R179). What they held can never be read again, so it is dropped. -/
def granulesClear (p : PE) (gs : List Nat) : PE :=
  { p with full := gs.foldl (fun a g => sput false a g false) p.full, tile := gs.foldl (fun a g => sclear a (16 * g) 16) p.tile,
           spoilt := gs.foldl (fun a g => mended a (0x80000 + 16 * g) 16) p.spoilt }

/-- One frame slot's share of a window write: bytes at offset `o` of the slot; false where the slot refuses them (R65). -/
def slotWrite (p : PE) (sl o : Nat) (bs : List Byte) : PE × Bool :=
  let st := tagState (slotTag p sl)
  let alloc := bitAt (sget 0 p.fmap (sl / 16)).toNat 0
  if !alloc ∨ (st ≠ tagEmpty ∧ st ≠ tagFilled) then (p, false)
  else
    let old := leBytes 8 (slotValue p sl).toNat
    let v := leNat (old.take o ++ bs ++ old.drop (o + bs.length))
    ({ slotPut p sl (mkTag tagFilled 0 0) (word v) with spoilt := if bs.length = 8 ∨ st = tagEmpty then mended p.spoilt (0x10000 + 8 * sl) 8 else p.spoilt },
     true)

/-- Write bytes from frame-store offset o on, slot by slot; false where a slot refused its share (R65). -/
def frameWrite : Nat → PE → Nat → List Byte → PE × Bool
  | 0, p, _, _ => (p, true)
  | k + 1, p, o, bs =>
    if bs.isEmpty then (p, true)
    else
      let n := 8 - o % 8
      let r := slotWrite p (o / 8) (o % 8) (bs.take n)
      let t := frameWrite k r.1 (o + n) (bs.drop n)
      (t.1, r.2 && t.2)

/-- A window write (R65): to frame slots and tile granules; false where a slot refused its share. -/
def windowWrite (p : PE) (off : Nat) (bs : List Byte) : PE × Bool :=
  match (windowRow off).1 with
  | 2 => frameWrite (bs.length + 1) p (off - 0x10000) bs
  | 5 => (tileWrite p (off - 0x80000) bs, true)
  | _ => (p, true)

/-- Word of a VF's save directory for a slot (R428). -/
def saveWord (s : State) (vf b sl : Nat) : Nat :=
  let a := vfRcbAddr s vf
  if !vfEnabled s vf then 0 else mem64 s (mem64 s (a + 88) + 8 * (32 * b + sl))

/-- A VF's save directory is read for a slot: the codewords of the RCB's word and of the directory's are met (R128, R428). -/
def saveMeet (s : State) (vf b sl : Nat) : State :=
  let a := vfRcbAddr s vf
  if !vfEnabled s vf then s else (let r := ownWord s vf (a + 88); ownMeet r.1 vf true (r.2 + 8 * (32 * b + sl)) 8)

/-- The slot block that a save-directory word names (R428). -/
def saveBlock (w : Nat) : Nat := bits w 20 28 * 2 ^ 20

/-- The index of a PE within its slot (R429). -/
def pePlace (pe : Nat) : Nat := 4 * (pe / 16 % 4) + pe % 4

/-- The area of a PE in a slot block (R429). -/
def peArea (blk pe : Nat) : Nat := blk + 0x200000 + pePlace pe * 0x100000

end Sys2Proof.Machine
end

