-- ==== Sys2Proof/Machine/Ops.lean ====
section
/-! DEFINITION. The shared operations of a firing: tokens and their emission (R53, R58, R59, R62, R70, R228), the graph's sink (R223), the
halt of a launch (R285), taking a fault (R417, R418), the outcomes of a matched firing (R221, R222), and its issue (R226, R227). -/

namespace Sys2Proof.Machine

/-- Whether a port of a node keeps its references when it fires: a sticky port with count 63 (R58). -/
def keepsRef (n : Node) (q : Port) : Bool := n.stCount == 63 && q == (if n.stR then .r else .l)

/-- The operand of a port. -/
def operandAt (f : Firing) (q : Port) : Option Operand :=
  match q with
  | .l => f.l
  | .r => f.r
  | .p => f.p

/-- The entry and generation that the handle on a port names, where its firing drops a reference of it (R58). -/
def operandRef (n : Node) (f : Firing) (q : Port) : Option (Nat × Nat) :=
  match operandAt f q with
  | some x => if x.kind = .handle ∧ !keepsRef n q then some (handleIdx x.payload, handleGen x.payload) else none
  | none => none

/-- The reference drop of the handle on a port. -/
def operandDrop (n : Node) (f : Firing) (q : Port) : List Effect := (operandRef n f q).toList.map fun x => .drop x.1 x.2 1

/-- The reference drops of the handle operands of a firing (R58). A stale handle drops none, by its generation. -/
def operandDrops (n : Node) (f : Firing) : List Effect := operandDrop n f .l ++ operandDrop n f .r ++ operandDrop n f .p

/-- Discard ready firings of one PE; their handle operands drop the references they hold (R58, R285). -/
def readyDiscard (s : State) (b pe : Nat) (gone : Firing → Bool) : State :=
  let p := getPE s b pe
  let drops (f : Firing) : List (Firing × Effect) :=
    match nodeInfo p f.node with
    | some (_, n) => (operandDrops n f).map fun x => (f, x)
    | none => []
  setPE s b pe { p with ready := p.ready.filter (fun f => !gone f), late := p.late ++ ((p.ready.filter gone).map drops).flatten }

/-- Whether a firing must wait: it names an accumulator that an earlier-issued firing writes, and that firing has not completed (R345). -/
def accHeld (p : PE) (f : Firing) : Bool :=
  p.issued.any fun i => i.writes.any fun h =>
    (f.l.toList ++ f.r.toList ++ f.p.toList).any fun o => o.kind == .handle && handleIdx o.payload == h && handleValid p o.payload

/-- What a sink does with an error token, apart from the halt of R388: it is counted in its launch and a SINK_ERROR event is posted; with no
launch left the event goes to the VF alone (R223). -/
def sinkCount (s : State) (b vf lid : Nat) (payload : Word) : State :=
  match launchAt s lid with
  | some l =>
    let s1 := launchPut s { l with errcnt := min (l.errcnt + 1) 0xFFFFFFFF }
    postEvent s1 (seqrSrc l.bh) l.bh (some vf) (some lid) 0x0A payload.toNat
  | none => postEvent s (seqrSrc b) b (some vf) none 0x0A payload.toNat

/-- Keys of the PEs of a bulkhead that hold anything. -/
def activePes (s : State) (b : Nat) : List Nat :=
  (s.pes.filter fun e => e.1 / 512 == b).map fun e => e.1 % 512

/-- Steps 1 to 3 of a halt (R285): matched firings of the launch are discarded, its frames are freed, and the launch goes to ENDING with its
exit status. Publication and the report follow at LAUNCH_END (R387). A launch already ending is not halted again. -/
def haltLaunch (s : State) (lid : Nat) (status : Word) : State :=
  match launchAt s lid with
  | none => s
  | some l =>
    if l.st = .ending then s
    else
      let pes := activePes s l.bh
      let s1 := pes.foldl (fun t pe => readyDiscard t l.bh pe fun f => f.lid == lid) s
      let s2 := pes.foldl (fun t pe =>
        ((getPE t l.bh pe).finfo.filter fun e => e.2.lid == lid).foldl (fun u e => frameFree u l.bh pe e.1) t) s1
      let s3 := tasksDrop s2 fun t => t.lid == lid
      match launchAt s3 lid with
      | none => s3
      | some l2 => launchPut s3 { l2 with st := .ending, halted := true, exit := status }

/-- Send an error token to the graph's sink (R223). With ERRHALT the first one halts the launch with its payload as the status (R388). -/
def toSink (s : State) (b vf lid : Nat) (payload : Word) : State :=
  let first := match launchAt s lid with | some l => l.errhalt && l.errcnt == 0 | none => false
  let s1 := sinkCount s b vf lid payload
  if first then haltLaunch s1 lid payload else s1

/-- Whether the effective FDOM of the task group or launch of some work is 1 (R418). -/
def fdomOf (s : State) (lid : Nat) (task : Option Nat) : Bool :=
  let tr := match taskAt s task with | some t => rcbAt s t.rcb | none => none
  match tr with
  | some r => r.fdom
  | none => match launchAt s lid with | some l => l.fdom | none => false

/-- TAKING A FAULT: a protection fault (R35), a bad capability (R371) or a gate violation (R409). The event is posted; then the master is
frozen with its reason, or, where FDOM is 1, the launch is halted with the event's CODE and SEQ as its status (R417, R418). -/
def takeFault (s : State) (b : Nat) (m : MasterId) (src vf lid : Nat) (task : Option Nat) (why : FreezeReason) (code payload : Nat) : State :=
  let seq := nextEventSeq s src
  let s1 := postEvent s src b (some vf) (some lid) code payload
  if fdomOf s lid task then haltLaunch s1 lid (word (code * 2 ^ 56 + seq)) else freezeMaster s1 b m vf why

/-- THE RETURN FROM A FREEZE: a master's mark and reason are cleared (R417, R418); what is retried or failed stands with FRZCTL. -/
def releaseMaster (s : State) (b : Nat) (m : MasterId) : State :=
  match m with
  | .pe i => modPE s b i fun p => { p with frozen := none }
  | .unit k i => modBulk s b fun x => { x with frozenUnits := x.frozenUnits.filter fun u => !(u.kind == k && u.idx == i) }

/-- Why a master is frozen. -/
def freezeWhy (s : State) (b : Nat) (m : MasterId) : Option FreezeReason :=
  match m with
  | .pe i => (getPE s b i).frozen
  | .unit k i => ((getBulk s b).frozenUnits.find? fun u => u.kind == k && u.idx == i).map (·.why)

/-- Put a token on its way: it can be matched one cycle after its delivery, which is 1 + h cycles after `c` (R227). -/
def sendFlight (s : State) (t : Token) (srcBh srcPe vc c lid : Nat) : State :=
  let due := if t.bh = srcBh then c + 2 + hops srcPe t.pe else 0
  { s with flights := s.flights ++ [{ tok := t, src := peKey srcBh srcPe, vc := vc, due := due, lid := lid, loc := t.bh == srcBh && t.pe == srcPe }] }

/-- References that a handle delivered to a port of a node holds: the count of a sticky port, one elsewhere (R58). -/
def portRefs (n : Node) (q : Port) : Nat :=
  if n.stCount ≠ 0 ∧ q = (if n.stR then .r else .l) then (if n.stCount = 63 then 1 else n.stCount.toNat) else 1

/-- References that a handle delivered to a destination holds. -/
def refsAt (s : State) (d : RDest) : Nat :=
  match nodeInfo (getPE s d.bh d.pe) d.node with
  | none => 1
  | some (_, n) => portRefs n d.port

/-- Emit one token of a firing on PE (b, pe) at cycle c to a resolved destination. A handle off its PE becomes HANDLE_ESCAPE (R62); one whose
count would pass 255 becomes REF_OVERFLOW (R59). -/
def emitTo (s : State) (f : Firing) (c : Nat) (d : RDest) (kind : Kind) (payload : Word) (vc1 : Bool) : State :=
  let tok (k : Kind) (v : Word) : Token :=
    { payload := v, kind := k, vf := f.vf, fp := d.fp, port := d.port, node := d.node, bh := d.bh, pe := d.pe, flags := 0, prio := f.prio }
  let vc := if vc1 then 1 else 0
  if kind = .handle then
    if d.pe ≠ f.pe ∨ d.bh ≠ f.bh then
      let e := newError s (peSrc f.bh f.pe) 0x02
      sendFlight e.2 (tok .err e.1) f.bh f.pe vc c f.lid
    else
      if !handleValid (getPE s f.bh f.pe) payload then sendFlight s (tok .handle payload) f.bh f.pe vc c f.lid
      else match addRef s f.bh f.pe (handleIdx payload) (refsAt s d) with
      | some s1 => sendFlight s1 (tok .handle payload) f.bh f.pe vc c f.lid
      | none =>
        let e := newError s (peSrc f.bh f.pe) 0x06
        sendFlight e.2 (tok .err e.1) f.bh f.pe vc c f.lid
  else sendFlight s (tok kind payload) f.bh f.pe vc c f.lid

/-- The frame pointer a destination field addresses, and whether an empty link was read (R53, R70). -/
def destFrame (p : PE) (f : Firing) (fm : FrameMode) : Nat × Bool :=
  match fm with
  | .cur => (f.fp, false)
  | .nxt => let v := linkRead p f.fp 0; (v.1.toNat % 1024, v.2)
  | .par => let v := linkRead p f.fp 1; (v.1.toNat % 1024, v.2)
  | .dyn => ((match f.r with | some o => o.payload.toNat % 1024 | none => 0), false)

/-- Resolve a destination field on the firing's PE, at an offset extended by (ex, ey) PEs (R68, R70, R278). -/
def resolveDest (p : PE) (f : Firing) (d : Dest) (ex ey : Int) : RDest × Bool :=
  let x : Int := (f.pe % 16 : Nat) + d.dx.toInt + ex
  let y : Int := (f.pe / 16 : Nat) + d.dy.toInt + ey
  let fr := destFrame p f d.fm
  ({ bh := f.bh, pe := (y * 16 + x).toNat % 512, node := d.node.toNat, port := d.port, fp := fr.1 }, fr.2)

/-- Resolve a target; EMPTY_READ where an empty link was read. -/
def resolveTarget (p : PE) (f : Firing) (t : Target) : RDest × Bool :=
  match t with
  | .field d ex ey => resolveDest p f d ex ey
  | .fixed d => (d, false)

/-- The flags of resolving every target of a list of emissions (R53). -/
def emitFlags (p : PE) (f : Firing) (es : List Emit) : BitVec 9 :=
  flagIf (es.any fun e => (resolveTarget p f e.target).2) flagEmptyRead

/-- Emissions of one token to each used destination (R69). -/
def toUsed (n : Node) (kind : Kind) (payload : Word) : List Emit :=
  (usedDests n).map fun d => { target := .field d 0 0, kind := kind, payload := payload, vc1 := false }

/-- Emission to one destination field, if it is used. -/
def toDest (d : Option Dest) (kind : Kind) (payload : Word) (vc1 : Bool) : List Emit :=
  d.toList.map fun x => { target := .field x 0 0, kind := kind, payload := payload, vc1 := vc1 }

/-- An error token to each used destination, or to the graph's sink where none is used (R222). -/
def errEmits (n : Node) (payload : Word) : List Emit × List Effect :=
  if (usedDests n).isEmpty then ([], [.sinkErr payload]) else (toUsed n .err payload, [])

/-- Ports on which a null operand has a meaning of the instruction's own (R212, R213, R277, R279 to R281, R283, R284). -/
def nullMeans (code : Nat) (q : Port) : Bool :=
  match q with
  | .l => [0x001, 0x003, 0x004, 0x005, 0x008, 0x009, 0x00A, 0x010, 0x011, 0x012, 0x160, 0x161, 0x162].contains code
  | .r => code == 0x005
  | .p => false

/-- Instructions that consume errors (R221): sink, iserr, errcode. -/
def consumesErr (code : Nat) : Bool := code == 0x003 || code == 0x009 || code == 0x00A

/-- What a port takes in a firing: a predicate is a value. -/
def portKind (o : OpInfo) (n : Node) (q : Port) : PortKind :=
  match q with
  | .l => o.kl
  | .r => if n.litr then .absent else o.kr
  | .p => if n.pred then .value else o.kp

/-- Whether a port takes a handle and nothing else. -/
def takesHandle (k : PortKind) : Bool := k == .tile || k == .acc || k == .either

/-- EPASS: an error operand on a port that takes no handle stands as a value (R222, log 8). -/
def epassOperand (n : Node) (k : PortKind) (o : Option Operand) : Option Operand :=
  match o with
  | some x => if n.epass && x.kind == .err && !takesHandle k then some { x with kind := .value } else some x
  | none => none

/-- The outcome of a matched firing before the checks of its instruction (R221). -/
inductive Verdict where
  | perform
  | error (payload : Word)
  | untaken
  | code (c : Nat)
  deriving DecidableEq, Repr

/-- Whether an operand is of a kind. -/
def isKind (o : Option Operand) (k : Kind) : Bool :=
  match o with
  | some x => x.kind == k
  | none => false

/-- Step 4: a handle on a port that reads it is stale (R61); ports that take any kind read it too (log 9). -/
def isStale (p : PE) (k : PortKind) (o : Option Operand) : Bool :=
  match o with
  | some x => x.kind == .handle && (takesHandle k || k == .any) && !handleValid p x.payload
  | none => false

/-- Step 5: the kind does not suit the port, or the handle's entry has the wrong KIND (R81). -/
def wrongKind (p : PE) (k : PortKind) (o : Option Operand) : Bool :=
  match o with
  | none => false
  | some x =>
    let hk := (handleAt p (handleIdx x.payload)).kind
    match k with
    | .value => x.kind == .handle
    | .tile => x.kind == .value || (x.kind == .handle && hk != .tile)
    | .acc => x.kind == .value || (x.kind == .handle && hk != .acc)
    | .either => x.kind == .value
    | _ => false

/-- Steps 1 to 5 of R221, in order, on operands to which EPASS has been applied. -/
def judge (p : PE) (o : OpInfo) (n : Node) (f : Firing) : Verdict :=
  let errs := (f.l.toList ++ f.r.toList ++ f.p.toList).filter fun x => x.kind == .err
  let nulls := [Port.l, .r, .p].any fun q => isKind (operandAt f q) .null && !nullMeans o.code q
  let untaken := n.pred && (match f.p with
    | some x => x.kind == .null || ((x.payload != 0) == n.sense)
    | none => false)
  match (if consumesErr o.code then none else errs.head?) with
  | some e => .error e.payload
  | none =>
    if untaken then .untaken
    else if nulls then .untaken
    else if [Port.l, .r, .p].any fun q => isStale p (portKind o n q) (operandAt f q) then .code 0x03
    else if [Port.l, .r, .p].any fun q => wrongKind p (portKind o n q) (operandAt f q) then .code 0x07
    else .perform

/-- The runs of the PE's store windows that a firing reads from the accumulator of an entry (R63, R344): one entry by acc.get, the entries in use of its
lists, or all of its tile. -/
def accRuns (code : Nat) (e : HEntry) (sel : Nat) : List (Nat × Nat) :=
  let at_ (k : Nat) : Nat := 0x30000 + 6144 * e.pages.getD k 0
  if e.clear ∨ code = 0x101 ∨ code = 0x102 then []
  else if e.mode = 2 then
    if code = 0x103 then [(at_ (bits sel 4 6 / 32) + 384 * bits sel 0 4 + 12 * (bits sel 4 6 % 32), 12)]
    else (List.range 16).foldl (fun a i => a ++ (List.range e.pages.length).map fun k => (at_ k + 384 * i, 12 * (min (32 * k + 32) (e.count.getD i 0) - 32 * k))) []
  else if code = 0x103 then [(at_ 0 + 24 * bits sel 0 8, 24)]
  else [(at_ 0, 6144)]

/-- The runs that a firing reads of the tile on a port as it issues: every row of an operand of class 3 (R311), but row 0 alone of tbias's r (R319), and of
tcond's l the K elements of each row (R332); the operands of class 4 and of tst (R188). Engines read their tiles later. -/
def tileRuns (code : Nat) (ty : Ty) (q : Port) (e : HEntry) (rows : Nat) : List (Nat × Nat) :=
  if 0x0C0 ≤ code ∧ code < 0x140 ∨ code = 0x145 then
    (List.range (if code = 0x0C9 ∧ q = .r then 1 else rows)).map fun i =>
      (0x80000 + rowOffset e.pages i, if code = 0x0D3 ∧ q = .l then laneCount ty * tyWidth ty / 8 else 512)
  else []

/-- Instructions whose destinations are resolved as they issue (R116): those that hold a fetch tag or a command. -/
def resolvesAtIssue (code : Nat) : Bool :=
  [0x140, 0x142, 0x144, 0x145, 0x180, 0x182, 0x183, 0x184, 0x185, 0x189, 0x18A, 0x1C3, 0x1C4, 0x1C5, 0x1C7, 0x1C8, 0x1C9, 0x1CA].contains code ||
  (decide (0x149 ≤ code) && decide (code ≤ 0x158))

/-- The link that a destination reads (R53, R70): its place among the slots of the firing's frame. -/
def linkOf (d : Dest) : Option Nat := match d.fm with | .nxt => some 0 | .par => some 1 | _ => none

/-- The runs of its PE's store windows that a firing reads as it issues (R64): its record, a link or a combiner's slot, the links of destinations that are
resolved now, the entries of the handles that it names, and what it reads of their tiles and accumulators. -/
def readRuns (s : State) (o : OpInfo) (n : Node) (f : Firing) : List (Nat × Nat) :=
  let p := getPE s f.bh f.pe
  let named (q : Port) : List (Nat × Nat) :=
    match operandAt f q with
    | none => []
    | some x =>
      if x.kind ≠ .handle then []
      else
        let e := handleAt p (handleIdx x.payload)
        (0x48000 + 128 * handleIdx x.payload, 128) ::
          (match e.kind with
           | .free => []
           | .tile => tileRuns o.code n.ty q e (match tidEntry s f.vf e.tid with | some t => t.rows | none => 4 * e.pages.length)
           | .acc => if 0x100 ≤ o.code ∧ o.code < 0x140 then accRuns o.code e (match f.r with | some y => y.payload.toNat | none => 0) else [])
  let slot (k : Nat) : Nat × Nat := (0x10000 + 8 * (16 * f.fp + k), 8)
  let which := bits n.lit.toNat 0 2
  (12 * f.node, 12) ::
    ((if resolvesAtIssue o.code then ((usedDests n).filterMap linkOf).map slot else []) ++ (if o.code = 0x187 ∧ f.rel.isNone then [slot n.slot.toNat] else if o.code = 0x00E ∧ (which = 1 ∨ which = 2) then [slot (which - 1)] else []) ++
      named .l ++ named .r ++ named .p)

/-- Whether the link that a target reads holds an uncorrectable error: the token for it is a POISON error (R53, R64). -/
def targetSpoilt (p : PE) (f : Firing) (t : Target) : Bool :=
  match t with
  | .fixed _ => false
  | .field d _ _ =>
    match linkOf d with
    | some k => !p.spoilt.isEmpty && frameLive p f.fp && spoiltIn p (0x10000 + 8 * (16 * f.fp + k)) 8
    | none => false

/-- Whether what a firing reads as it issues meets an uncorrectable error (R64). -/
def readsSpoilt (s : State) (o : OpInfo) (n : Node) (f : Firing) : Bool :=
  let p := getPE s f.bh f.pe
  !p.spoilt.isEmpty && (readRuns s o n f).any fun x => spoiltIn p x.1 x.2

/-- The outcome of a firing as it issues: steps 1 to 5 of R221, then POISON where it would perform and reads a unit with an uncorrectable error (R64). -/
def verdict (s : State) (o : OpInfo) (n : Node) (f : Firing) : Verdict :=
  match judge (getPE s f.bh f.pe) o n f with
  | .perform => if readsSpoilt s o n f then .code 0x08 else .perform
  | v => v

/-- The firing with EPASS applied to each port (R222). -/
def applyEpass (o : OpInfo) (n : Node) (f : Firing) : Firing :=
  { f with l := epassOperand n (portKind o n .l) f.l, r := epassOperand n (portKind o n .r) f.r, p := epassOperand n (portKind o n .p) f.p }

/-- Take a firing out of its ready queue as it issues: at most one issue per cycle (R226), which also ends a STARVE wait (R237)
and the condition of a CISTERN_FULL event (R166). -/
def takeReady (s : State) (f : Firing) : State :=
  let s1 := modPE s f.bh f.pe fun p => { p with ready := p.ready.erase f, issueAt := cycleOf s f.bh + 1 }
  let other (g : Nat) : Bool := match cfgAt s g with | some c => c.vf != f.vf | none => false
  modBulk s1 f.bh fun x => { x with lastIssue := sput 0 x.lastIssue f.vf (x.cycle + 1), posted := x.posted.filter (· != f.vf),
                                    cfPosted := x.cfPosted.filter other }

/-- Enter an issued firing (R227): it takes the next number and stands behind those issued before it. -/
def pushItem (s : State) (it : Issued) : State :=
  newId (modPE s it.f.bh it.f.pe fun p => { p with issued := p.issued ++ [{ it with id := s.nextId }] })

/-- Enter an issued firing that writes accumulators: its result completes at the end of cycle t + L (R227, R345). -/
def pushWriting (s : State) (f : Firing) (n : Node) (lat : Nat) (es : List Emit) (fx : List Effect) (fl : BitVec 9) (w : Wait)
    (writes : List Nat) : State :=
  pushItem s { id := 0, f := f, node := n, due := cycleOf s f.bh + lat, emits := es, effects := fx, flags := fl, wait := w, writes := writes,
               quiet := false }

/-- Enter an outcome of steps 1 to 6 of R221: L = 1, and no flag is raised (R221, R222). -/
def pushOutcome (s : State) (f : Firing) (n : Node) (es : List Emit) (fx : List Effect) : State :=
  pushItem s { id := 0, f := f, node := n, due := cycleOf s f.bh + 1, emits := es, effects := fx, flags := 0, wait := .nothing, writes := [],
               quiet := true }

/-- Enter an issued firing that writes no accumulator (R227). -/
def pushIssued (s : State) (f : Firing) (n : Node) (lat : Nat) (es : List Emit) (fx : List Effect) (fl : BitVec 9) (w : Wait) : State :=
  pushWriting s f n lat es fx fl w []

/-- Enter the answer of a request, of an engine or of a queue operation on behalf of a firing: one token to each destination resolved at issue,
an error with none of them to the graph's sink (R119, R222). A halted launch receives nothing (R285). -/
def pushReply (s : State) (f : Firing) (n : Node) (lat : Nat) (ds : List RDest) (k : Kind) (v : Word) (fx : List Effect) (fl : BitVec 9) :
    State :=
  let gone := match launchAt s f.lid with | some l => l.halted | none => false
  let es := if gone then [] else ds.map fun d => { target := .fixed d, kind := k, payload := v, vc1 := false : Emit }
  pushIssued s f n lat es ((if k = .err ∧ ds.isEmpty ∧ !gone then [.sinkErr v] else []) ++ fx) fl .nothing

/-- Hold a unit for so many cycles (R227). -/
def holdUnit (s : State) (f : Firing) (u cycles : Nat) : State :=
  let t := cycleOf s f.bh + cycles
  modPE s f.bh f.pe fun p => { p with units := sput 0 p.units u t }

/-- Whether a unit is free for an issue now (R227). -/
def unitFree (s : State) (f : Firing) (u : Nat) : Bool := sget 0 (getPE s f.bh f.pe).units u ≤ cycleOf s f.bh

/-- The units that take one firing at a time (R227, R317, R336). -/
def unitIntDiv : Nat := 0
def unitFpDiv : Nat := 1
def unitSfu : Nat := 2
def unitVector : Nat := 3
def unitArray : Nat := 4
def unitAccPort : Nat := 5
def unitList : Nat := 6
def unitConv : Nat := 7

/-- Count a store node for its wave (R164): it fires for LSID in the wave of the firing's frame. -/
def waveMark (s : State) (f : Firing) (lsid : Nat) : State :=
  match cfgAt s f.cfg with
  | some c => if c.waveSeen.contains (f.wave, lsid) then s else cfgPut s { c with waveSeen := c.waveSeen ++ [(f.wave, lsid)] }
  | none => s

/-- The store nodes st, stt and tst count for their waves in every outcome (R164, R221). -/
def storeMark (s : State) (code : Nat) (f : Firing) (n : Node) : State :=
  if code = 0x141 ∨ code = 0x143 ∨ code = 0x145 then waveMark s f (litBits n 11 5) else s

/-- What every token of an instruction's firings has in common, whatever their outcome: relay's extension of its offsets (R278), and VC1 for what
count, bar.arrive and bar.comb emit (R228). -/
def outTarget (code : Nat) (n : Node) (d : Dest) : Target :=
  if code = 0x012 then .field d (8 * sextInt 4 (bits n.lit.toNat 0 4)) (8 * sextInt 4 (bits n.lit.toNat 4 4)) else .field d 0 0
def outVc1 (code : Nat) : Bool := code == 0x011 || code == 0x186 || code == 0x187

/-- One token of a firing of an instruction to each used destination (R69, R228, R278). -/
def outEmits (code : Nat) (n : Node) (kind : Kind) (payload : Word) : List Emit :=
  (usedDests n).map fun d => { target := outTarget code n d, kind := kind, payload := payload, vc1 := outVc1 code }

/-- An error outcome: to each used destination, or to the graph's sink where none is used (R222). -/
def outError (code : Nat) (n : Node) (payload : Word) : List Emit × List Effect :=
  if (usedDests n).isEmpty then ([], [.sinkErr payload]) else (outEmits code n .err payload, [])

/-- An outcome decided at steps 1 to 6 of R221: L = 1, no unit, energy class 0 (R221, R222, R427). -/
def finishVerdict (s : State) (code : Nat) (f : Firing) (n : Node) (v : Verdict) : State :=
  let s0 := charge s f.bh f.pe 0 1
  let err (t : State) (payload : Word) : State :=
    let e := outError code n payload
    pushOutcome t f n e.1 (operandDrops n f ++ e.2)
  match v with
  | .error payload => err (storeMark s0 code f n) payload
  | .untaken => pushOutcome (storeMark s0 code f n) f n (outEmits code n .null 0) (operandDrops n f)
  | .code c =>
    let x := newError s0 (peSrc f.bh f.pe) c
    err x.2 x.1
  | .perform => s0

/-- What a meaning computes from: the firing with its operands, the record, the policy and the cycle of issue. -/
structure Ctx where
  f    : Firing
  n    : Node
  code : Nat
  pol  : Policy
  deriving DecidableEq, Repr

/-- The policy of a firing's configuration on its PE (R216). -/
def firingPolicy (s : State) (f : Firing) : Policy :=
  match cfgAt s f.cfg with
  | some c => policyAt c f.pe
  | none => policyOf 0

/-- The flags of a completed firing: ORed into the words of its VF and launch, and a FLAG_RAISED event where its policy's EVMASK asks for one
(R251, R424). -/
def raiseFlags (s : State) (f : Firing) (fl : BitVec 9) : State :=
  let s1 := creditFlags s f.vf f.lid fl
  if fl &&& (firingPolicy s f).evmask = 0 then s1
  else postEvent s1 (peSrc f.bh f.pe) f.bh (some f.vf) (some f.lid) 0x0C (fl.toNat + f.pe * 2 ^ 9 + f.node * 2 ^ 18)

/-- The context of the firing that a step issues. -/
def ctxOf (s : State) (o : OpInfo) (n : Node) : Ctx :=
  { f := applyEpass o n s.cur, n := n, code := o.code, pol := firingPolicy s s.cur }

/-- Issue the firing State.cur of a node under an opcode row: the outcome of R221, then the operation `k`, which answers none while the firing
is not issuable (R226): the firing then keeps its place, as it does while it names an accumulator that is being written (R345). `miss` is what
else an outcome of steps 1 to 5 does. -/
def fireAs (s : State) (o : OpInfo) (n : Node) (miss : Ctx → State → State) (k : Ctx → State → Option State) : State :=
  let c := ctxOf s o n
  if accHeld (getPE s c.f.bh c.f.pe) c.f then s
  else match verdict s o n c.f with
  | .perform => (k c (takeReady s s.cur)).getD s
  | v => miss c (finishVerdict (takeReady s s.cur) o.code c.f n v)

/-- fireAs under the opcode map's row of a code (R83). -/
def fireWith (s : State) (code : Nat) (n : Node) (miss : Ctx → State → State) (k : Ctx → State → Option State) : State :=
  match opInfo code with
  | none => s
  | some o => fireAs s o n miss k

/-- fireWith with nothing else to do at steps 1 to 5. -/
def fire (s : State) (code : Nat) (n : Node) (k : Ctx → State → Option State) : State := fireWith s code n (fun _ t => t) k

/-- A check of the instruction's own fails at issue (step 6 of R221): an error token with this code. -/
def failCode (s : State) (c : Ctx) (code : Nat) : Option State := some (finishVerdict s c.code c.f c.n (.code code))

/-- The untaken outcome chosen by an instruction's own rule. -/
def failUntaken (s : State) (c : Ctx) : Option State := some (finishVerdict s c.code c.f c.n .untaken)

/-- The 64-bit payload of a port's operand, zero where there is none. -/
def payloadAt (f : Firing) (q : Port) : Word := match operandAt f q with | some o => o.payload | none => 0

/-- Lane j of a literal that stands for a value, as a pattern of the type's width (R74). -/
def litLane (t : Ty) (lit : BitVec 16) (j : Nat) : Nat :=
  let x := lit.toNat
  match t with
  | .t2 => bits x (2 * (j % 8)) 2
  | .e2m1 => bits x (4 * (j % 4)) 4
  | .e4m3 => bits x (8 * (j % 2)) 8
  | .e5m2 => bits x (8 * (j % 2)) 8
  | .bf16 => x
  | .f16 => x
  | .f32 => x * 2 ^ 16
  | .f64 => (floatToFloat64 x)
  | t => if tySigned t then wrapNat (tyWidth t) (sextInt 16 x) else x % 2 ^ tyWidth t
where
  /-- A bf16 pattern widened to f64 exactly, NaNs bit by bit (R74). -/
  floatToFloat64 (x : Nat) : Nat :=
    let s := x / 2 ^ 15 % 2
    match floatDecode .bf16 x with
    | .nan _ _ fr => s * 2 ^ 63 + 0x7FF * 2 ^ 52 + fr
    | .inf _ => s * 2 ^ 63 + 0x7FF * 2 ^ 52
    | .fin sg m e => if m = 0 then s * 2 ^ 63 else (rndScaled .f64 boundPolicy 1 0 sg m e).val

/-- The literal as a scalar operand: lane 0, extended (R74, R76). -/
def litWord (n : Node) : Word := extend n.ty (litLane n.ty n.lit 0)

/-- The payload of r: the literal's value with LITR (R275). -/
def rWord (c : Ctx) : Word := if c.n.litr then litWord c.n else payloadAt c.f .r

end Sys2Proof.Machine
end

