-- ==== Sys2Proof/Machine/Operands.lean ====
section
/-! DEFINITION. Operand forms and results of the scalar classes (R274 to R276, R291, R299): how a meaning of class 1 or 2 reads its operands,
and how its value is issued. -/

namespace Sys2Proof.Machine

/-- A scalar result and its flags. -/
structure ScalarRes where
  val   : Word
  flags : BitVec 9
  deriving DecidableEq, Repr

/-- The operands of a class 1 node as integers of its type (R274); r is the literal with LITR. -/
def lInt (c : Ctx) : Int := readInt c.n.ty (payloadAt c.f .l)
def rInt (c : Ctx) : Int := readInt c.n.ty (rWord c)

/-- The low w bits of an operand of the node's type. -/
def lBits (c : Ctx) : Nat := (payloadAt c.f .l).toNat % 2 ^ tyWidth c.n.ty
def rBits (c : Ctx) : Nat := (rWord c).toNat % 2 ^ tyWidth c.n.ty
def pBits (c : Ctx) : Nat := (payloadAt c.f .p).toNat % 2 ^ tyWidth c.n.ty

/-- An exact integer reduced modulo 2^w and extended (R76, R239). -/
def wrapRes (t : Ty) (x : Int) : ScalarRes := { val := extend t (wrapNat (tyWidth t) x), flags := 0 }

/-- An exact integer clamped to the type's range, SATURATED if it was clamped (R239). -/
def satRes (t : Ty) (x : Int) : ScalarRes :=
  let y := clampInt (tyMin t) (tyMax t) x
  { val := extend t (wrapNat (tyWidth t) y), flags := flagIf (y != x) flagSaturated }

/-- A 64-bit result with no flag. -/
def wordRes (v : Word) : ScalarRes := { val := v, flags := 0 }

/-- The n64 values 1 and 0. -/
def boolRes (b : Bool) : ScalarRes := wordRes (word (b2n b))

/-- A floating-point result in the node's type. -/
def floatRes (t : Ty) (r : FloatRes) : ScalarRes := { val := extend t r.val, flags := r.flags }

/-- A performed scalar firing: its value goes to each used destination after `lat` cycles; a unit that takes one firing at a time is held
for them, and the firing waits while an earlier one holds it (R227). `pipe` names a pipelined unit that only has to be free. -/
def scalarIssue (s : State) (c : Ctx) (lat cls : Nat) (unit pipe : Option Nat) (r : ScalarRes) : Option State :=
  let free := (unit.toList ++ pipe.toList).all fun u => unitFree s c.f u
  if !free then none
  else
    let s1 := match unit with | some u => holdUnit s c.f u lat | none => s
    some (pushIssued (charge s1 c.f.bh c.f.pe cls 1) c.f c.n lat (toUsed c.n .value r.val) (operandDrops c.n c.f) r.flags .nothing)

/-- A class 0 or 1 node with L = 1 that always has a value (R227, R291). -/
def fireSimple (s : State) (code : Nat) (n : Node) (g : Ctx → ScalarRes) : State :=
  fire s code n fun c t => scalarIssue t c 1 0 none none (g c)

/-- mul and mulh: L = 3, energy class 1 (R227, R427). -/
def fireMul (s : State) (code : Nat) (n : Node) (g : Ctx → ScalarRes) : State :=
  fire s code n fun c t => scalarIssue t c 3 1 none none (g c)

/-- div and rem: L = 18 on the integer divider (R227, R292). -/
def fireDiv (s : State) (code : Nat) (n : Node) (g : Ctx → ScalarRes) : State :=
  fire s code n fun c t => scalarIssue t c 18 1 (some unitIntDiv) none (g c)

/-- A pipelined class 2 node of latency `lat` (R227). -/
def fireFloat (s : State) (code : Nat) (n : Node) (lat : Nat) (g : Ctx → ScalarRes) : State :=
  fire s code n fun c t => scalarIssue t c lat 2 none none (g c)

/-- frcp, frsq, fsqrt and fdiv on the floating-point divider (R227, R300). -/
def fireFdiv (s : State) (code : Nat) (n : Node) (lat : Nat) (g : Ctx → ScalarRes) : State :=
  fire s code n fun c t => scalarIssue t c lat 2 (some unitFpDiv) none (g c)

/-- A scalar special function: pipelined, L = 12; it waits while tact holds the unit (R227, R307, R317). -/
def fireSpecial (s : State) (code : Nat) (n : Node) (g : Ctx → ScalarRes) : State :=
  fire s code n fun c t => scalarIssue t c 12 3 none (some unitSfu) (g c)

/-- The rounding mode of a class 2 literal; rne with LITR (R275, R299). -/
def roundMode (c : Ctx) : Nat := if c.n.litr then 0 else litBits c.n 0 3

/-- A performed firing with these emissions and effects, L = 1, energy class `cls`. -/
def issueSimple (s : State) (c : Ctx) (cls : Nat) (es : List Emit) (fx : List Effect) : Option State :=
  some (pushIssued (charge s c.f.bh c.f.pe cls 1) c.f c.n 1 es (operandDrops c.n c.f ++ fx) 0 .nothing)

/-- The operand on l, a null token where there is none. -/
def lOperand (c : Ctx) : Operand := (operandAt c.f .l).getD { kind := .null, payload := 0 }

/-- The operand on r. -/
def rOperand (c : Ctx) : Operand := (operandAt c.f .r).getD { kind := .null, payload := 0 }

/-- A token of an operand's kind and payload to each used destination. -/
def passOn (c : Ctx) (o : Operand) : List Emit := toUsed c.n o.kind o.payload

end Sys2Proof.Machine
end

