-- ==== Sys2Proof/Machine/Integer.lean ====
section
/-! DEFINITION. Class 1: integer and address instructions (R291 to R298). -/

namespace Sys2Proof.Machine

open Host

/-- The smaller and the larger of two integers (R291). -/
def intMin (a b : Int) : Int := if b < a then b else a
def intMax (a b : Int) : Int := if a < b then b else a

/-- A result given as the w low bits. -/
def bitsRes (t : Ty) (x : Nat) : ScalarRes := { val := extend t x, flags := 0 }

/-- div (R292): truncated; 0 and DIVZERO for a zero divisor under a nonzero l. -/
def divRes (t : Ty) (l r : Int) : ScalarRes :=
  if r = 0 then { val := 0, flags := flagIf (l != 0) flagDivzero } else wrapRes t (l.tdiv r)

/-- rem (R292): of the truncated quotient; l itself for a zero divisor. -/
def remRes (t : Ty) (l r : Int) : ScalarRes :=
  if r = 0 then { val := (wrapRes t l).val, flags := flagIf (l != 0) flagDivzero } else wrapRes t (l - l.tdiv r * r)

/-- sar on w bits (R293): bit w - 1 enters from the left, whatever the type's sign. -/
def sarBits (w l c : Nat) : Nat := wrapNat w (sextInt w l / ((2 ^ min c w : Nat) : Int))

/-- rotl on w bits (R293). -/
def rotlBits (w l c : Nat) : Nat := (l * 2 ^ (c % w) + l / 2 ^ (w - c % w)) % 2 ^ w

/-- Number of one bits among the w low bits (R293). -/
def popCount : Nat → Nat → Nat
  | 0, _ => 0
  | k + 1, x => x % 2 + popCount k (x / 2)

/-- Trailing zeros among w bits; w for 0 (R293). -/
def trailingZeros : Nat → Nat → Nat
  | 0, _ => 0
  | k + 1, x => if x % 2 = 1 then 0 else 1 + trailingZeros k (x / 2)

/-- Leading zeros among w bits; w for 0 (R293). -/
def leadingZeros (w x : Nat) : Nat := if x = 0 then w else w - 1 - Nat.log2 x

/-- The conditions of cmp (R294). -/
def cmpHolds (cond : Nat) (a b : Int) : Bool :=
  match cond with
  | 0 => a == b
  | 1 => a != b
  | 2 => a < b
  | 3 => a ≤ b
  | 4 => b < a
  | _ => b ≤ a

/-- The count of a shift: r as an unsigned 64-bit value (R293). -/
def shiftCount (c : Ctx) : Nat := (rWord c).toNat

/-- ext (R296): POS and LEN - 1 in the literal; extended from LEN bits by the type's sign. -/
def extRes (c : Ctx) : ScalarRes :=
  let pos := litBits c.n 0 6
  let len := litBits c.n 6 6 + 1
  let fld := bits (payloadAt c.f .l).toNat pos len
  wrapRes c.n.ty (if tySigned c.n.ty then sextInt len fld else (fld : Nat))

/-- ins (R296). -/
def insRes (c : Ctx) : ScalarRes :=
  let pos := litBits c.n 0 6
  let len := litBits c.n 6 6 + 1
  wrapRes c.n.ty (setBits (payloadAt c.f .l).toNat pos len ((payloadAt c.f .r).toNat % 2 ^ len) : Nat)

/-- cvt (R297). -/
def cvtRes (c : Ctx) : ScalarRes :=
  let v := readInt (tyOfCode (litBits c.n 0 3)) (payloadAt c.f .l)
  if litBits c.n 3 1 = 1 then satRes c.n.ty v else wrapRes c.n.ty v

/-- ADD (R291): (l + r) mod 2^w. -/
def execAdd (n : Node) (s : State) : Outcome State Fault Refusal :=
  .next (fireSimple s 0x040 n fun c => wrapRes c.n.ty (lInt c + rInt c))

/-- SUB (R291): (l - r) mod 2^w. -/
def execSub (n : Node) (s : State) : Outcome State Fault Refusal :=
  .next (fireSimple s 0x041 n fun c => wrapRes c.n.ty (lInt c - rInt c))

/-- NEG (R291): (-l) mod 2^w. -/
def execNeg (n : Node) (s : State) : Outcome State Fault Refusal :=
  .next (fireSimple s 0x042 n fun c => wrapRes c.n.ty (-lInt c))

/-- MUL (R291): (l * r) mod 2^w. -/
def execMul (n : Node) (s : State) : Outcome State Fault Refusal :=
  .next (fireMul s 0x043 n fun c => wrapRes c.n.ty (lInt c * rInt c))

/-- MULH (R291): the high half of the exact product. -/
def execMulh (n : Node) (s : State) : Outcome State Fault Refusal :=
  .next (fireMul s 0x044 n fun c => wrapRes c.n.ty (lInt c * rInt c / ((2 ^ tyWidth c.n.ty : Nat) : Int)))

/-- DIV (R292). -/
def execDiv (n : Node) (s : State) : Outcome State Fault Refusal :=
  .next (fireDiv s 0x045 n fun c => divRes c.n.ty (lInt c) (rInt c))

/-- REM (R292). -/
def execRem (n : Node) (s : State) : Outcome State Fault Refusal :=
  .next (fireDiv s 0x046 n fun c => remRes c.n.ty (lInt c) (rInt c))

/-- MIN (R291). -/
def execMin (n : Node) (s : State) : Outcome State Fault Refusal :=
  .next (fireSimple s 0x047 n fun c => wrapRes c.n.ty (intMin (lInt c) (rInt c)))

/-- MAX (R291). -/
def execMax (n : Node) (s : State) : Outcome State Fault Refusal :=
  .next (fireSimple s 0x048 n fun c => wrapRes c.n.ty (intMax (lInt c) (rInt c)))

/-- ABS (R291): the least value stays itself. -/
def execAbs (n : Node) (s : State) : Outcome State Fault Refusal :=
  .next (fireSimple s 0x049 n fun c => wrapRes c.n.ty ((lInt c).natAbs : Int))

/-- AND (R291). -/
def execAnd (n : Node) (s : State) : Outcome State Fault Refusal :=
  .next (fireSimple s 0x04A n fun c => bitsRes c.n.ty (Nat.land (lBits c) (rBits c)))

/-- OR (R291). -/
def execOr (n : Node) (s : State) : Outcome State Fault Refusal :=
  .next (fireSimple s 0x04B n fun c => bitsRes c.n.ty (Nat.lor (lBits c) (rBits c)))

/-- XOR (R291). -/
def execXor (n : Node) (s : State) : Outcome State Fault Refusal :=
  .next (fireSimple s 0x04C n fun c => bitsRes c.n.ty (Nat.xor (lBits c) (rBits c)))

/-- NOT (R291). -/
def execNot (n : Node) (s : State) : Outcome State Fault Refusal :=
  .next (fireSimple s 0x04D n fun c => bitsRes c.n.ty (2 ^ tyWidth c.n.ty - 1 - lBits c))

/-- SHL (R293). -/
def execShl (n : Node) (s : State) : Outcome State Fault Refusal :=
  .next (fireSimple s 0x04E n fun c => bitsRes c.n.ty (if shiftCount c < tyWidth c.n.ty then lBits c * 2 ^ shiftCount c else 0))

/-- SHR (R293). -/
def execShr (n : Node) (s : State) : Outcome State Fault Refusal :=
  .next (fireSimple s 0x04F n fun c => bitsRes c.n.ty (if shiftCount c < tyWidth c.n.ty then lBits c / 2 ^ shiftCount c else 0))

/-- SAR (R293). -/
def execSar (n : Node) (s : State) : Outcome State Fault Refusal :=
  .next (fireSimple s 0x050 n fun c => bitsRes c.n.ty (sarBits (tyWidth c.n.ty) (lBits c) (shiftCount c)))

/-- ROTL (R293). -/
def execRotl (n : Node) (s : State) : Outcome State Fault Refusal :=
  .next (fireSimple s 0x051 n fun c => bitsRes c.n.ty (rotlBits (tyWidth c.n.ty) (lBits c) (shiftCount c)))

/-- CLZ (R293). -/
def execClz (n : Node) (s : State) : Outcome State Fault Refusal :=
  .next (fireSimple s 0x052 n fun c => bitsRes c.n.ty (leadingZeros (tyWidth c.n.ty) (lBits c)))

/-- CTZ (R293). -/
def execCtz (n : Node) (s : State) : Outcome State Fault Refusal :=
  .next (fireSimple s 0x053 n fun c => bitsRes c.n.ty (trailingZeros (tyWidth c.n.ty) (lBits c)))

/-- POPC (R293). -/
def execPopc (n : Node) (s : State) : Outcome State Fault Refusal :=
  .next (fireSimple s 0x054 n fun c => bitsRes c.n.ty (popCount (tyWidth c.n.ty) (lBits c)))

/-- CMP (R294): the n64 value 1 or 0. -/
def execCmp (n : Node) (s : State) : Outcome State Fault Refusal :=
  .next (fireSimple s 0x055 n fun c => boolRes (cmpHolds (litBits c.n 0 3) (lInt c) (rInt c)))

/-- SEL (R295): l's payload where p's is not zero, r's otherwise, taken whole. -/
def execSel (n : Node) (s : State) : Outcome State Fault Refusal :=
  .next (fireSimple s 0x056 n fun c => wordRes (if payloadAt c.f .p != 0 then payloadAt c.f .l else payloadAt c.f .r))

/-- ADDSAT (R291). -/
def execAddsat (n : Node) (s : State) : Outcome State Fault Refusal :=
  .next (fireSimple s 0x057 n fun c => satRes c.n.ty (lInt c + rInt c))

/-- SUBSAT (R291). -/
def execSubsat (n : Node) (s : State) : Outcome State Fault Refusal :=
  .next (fireSimple s 0x058 n fun c => satRes c.n.ty (lInt c - rInt c))

/-- EXT (R296): a bit field of l. -/
def execExt (n : Node) (s : State) : Outcome State Fault Refusal :=
  .next (fireSimple s 0x059 n fun c => extRes c)

/-- INS (R296): r into a bit field of l. -/
def execIns (n : Node) (s : State) : Outcome State Fault Refusal :=
  .next (fireSimple s 0x05A n fun c => insRes c)

/-- CVT (R297): from the integer type that the literal names. -/
def execCvt (n : Node) (s : State) : Outcome State Fault Refusal :=
  .next (fireSimple s 0x05B n fun c => cvtRes c)

/-- IDX (R298): l + r * 2^SH + OFF. -/
def execIdx (n : Node) (s : State) : Outcome State Fault Refusal :=
  .next (fireSimple s 0x05C n fun c => wrapRes c.n.ty (lInt c + rInt c * ((2 ^ litBits c.n 0 6 : Nat) : Int) + sextInt 10 (litBits c.n 6 10)))

/-- BND (R298): l unchanged if its value lies in [0, r); otherwise an error token with code BOUNDS. -/
def execBnd (n : Node) (s : State) : Outcome State Fault Refusal :=
  .next (fire s 0x05D n fun c t =>
    if decide (0 ≤ lInt c) && decide (lInt c < rInt c) then scalarIssue t c 1 0 none none (wordRes (payloadAt c.f .l))
    else failCode t c 0x0C)

end Sys2Proof.Machine
end

