-- ==== Sys2Proof/Machine/ScalarFloat.lean ====
section
/-! DEFINITION. Class 2: scalar floating point (R299 to R307). -/

namespace Sys2Proof.Machine

open Host

/-- fcmp: the n64 value 1 or 0, with the flags of R303. -/
def fcmpRes (c : Ctx) : ScalarRes :=
  let r := fcmp c.n.ty c.pol (litBits c.n 0 3) (lBits c) (rBits c)
  { val := word (b2n r.1), flags := r.2 }

/-- fcvt (R304): between floating-point types, from an integer type, or to one with saturation (R249). -/
def fcvtRes (c : Ctx) : ScalarRes :=
  let src := tyOfCode (litBits c.n 3 4)
  let mode := roundMode c
  let x := (payloadAt c.f .l).toNat % 2 ^ tyWidth src
  if tyInt src then floatRes c.n.ty (intToFloat c.n.ty c.pol mode 0 (readInt src (payloadAt c.f .l)))
  else if tyInt c.n.ty then
    let r := floatToInt (tyMin c.n.ty) (tyMax c.n.ty) src c.pol mode 0 x
    { val := (wrapRes c.n.ty r.1).val, flags := r.2 }
  else floatRes c.n.ty (floatToFloat c.n.ty src c.pol mode 0 x)

/-- FADD (R300). -/
def execFadd (n : Node) (s : State) : Outcome State Fault Refusal :=
  .next (fireFloat s 0x080 n 4 fun c => floatRes c.n.ty (fadd c.n.ty c.pol (roundMode c) (lBits c) (rBits c)))

/-- FSUB (R300). -/
def execFsub (n : Node) (s : State) : Outcome State Fault Refusal :=
  .next (fireFloat s 0x081 n 4 fun c => floatRes c.n.ty (fsub c.n.ty c.pol (roundMode c) (lBits c) (rBits c)))

/-- FMUL (R300). -/
def execFmul (n : Node) (s : State) : Outcome State Fault Refusal :=
  .next (fireFloat s 0x082 n 4 fun c => floatRes c.n.ty (fmul c.n.ty c.pol (roundMode c) (lBits c) (rBits c)))

/-- FFMA (R300): l * r + p, rounded once. -/
def execFfma (n : Node) (s : State) : Outcome State Fault Refusal :=
  .next (fireFloat s 0x083 n 5 fun c => floatRes c.n.ty (ffma c.n.ty c.pol (roundMode c) (lBits c) (rBits c) (pBits c)))

/-- FMIN (R301). -/
def execFmin (n : Node) (s : State) : Outcome State Fault Refusal :=
  .next (fireFloat s 0x084 n 4 fun c => floatRes c.n.ty (fminmax c.n.ty c.pol false (lBits c) (rBits c)))

/-- FMAX (R301). -/
def execFmax (n : Node) (s : State) : Outcome State Fault Refusal :=
  .next (fireFloat s 0x085 n 4 fun c => floatRes c.n.ty (fminmax c.n.ty c.pol true (lBits c) (rBits c)))

/-- FABS (R302): the sign bit cleared. -/
def execFabs (n : Node) (s : State) : Outcome State Fault Refusal :=
  .next (fireFloat s 0x086 n 4 fun c => wordRes (extend c.n.ty (lBits c % 2 ^ (tyWidth c.n.ty - 1))))

/-- FNEG (R302): the sign bit inverted. -/
def execFneg (n : Node) (s : State) : Outcome State Fault Refusal :=
  .next (fireFloat s 0x087 n 4 fun c => wordRes (extend c.n.ty (Nat.xor (lBits c) (2 ^ (tyWidth c.n.ty - 1)))))

/-- FCMP (R303). -/
def execFcmp (n : Node) (s : State) : Outcome State Fault Refusal :=
  .next (fireFloat s 0x088 n 4 fun c => fcmpRes c)

/-- FCVT (R304). -/
def execFcvt (n : Node) (s : State) : Outcome State Fault Refusal :=
  .next (fireFloat s 0x089 n 4 fun c => fcvtRes c)

/-- FRND (R305). -/
def execFrnd (n : Node) (s : State) : Outcome State Fault Refusal :=
  .next (fireFloat s 0x08A n 4 fun c => floatRes c.n.ty (frnd c.n.ty c.pol (roundMode c) (lBits c)))

/-- FCLASS (R302). -/
def execFclass (n : Node) (s : State) : Outcome State Fault Refusal :=
  .next (fireFloat s 0x08B n 4 fun c => wordRes (word (fclass c.n.ty (lBits c))))

/-- FSCL (R306): l * 2^r with r read as i64. -/
def execFscl (n : Node) (s : State) : Outcome State Fault Refusal :=
  .next (fireFloat s 0x08C n 4 fun c => floatRes c.n.ty (fscl c.n.ty c.pol (roundMode c) (lBits c) (payloadAt c.f .r).toInt))

/-- FRCP (R300). -/
def execFrcp (n : Node) (s : State) : Outcome State Fault Refusal :=
  .next (fireFdiv s 0x08D n 10 fun c => floatRes c.n.ty (frcp c.n.ty c.pol (roundMode c) (lBits c)))

/-- FRSQ (R300). -/
def execFrsq (n : Node) (s : State) : Outcome State Fault Refusal :=
  .next (fireFdiv s 0x08E n 10 fun c => floatRes c.n.ty (frsq c.n.ty c.pol (roundMode c) (lBits c)))

/-- FSQRT (R300). -/
def execFsqrt (n : Node) (s : State) : Outcome State Fault Refusal :=
  .next (fireFdiv s 0x08F n 10 fun c => floatRes c.n.ty (fsqrt c.n.ty c.pol (roundMode c) (lBits c)))

/-- FDIV (R300). -/
def execFdiv (n : Node) (s : State) : Outcome State Fault Refusal :=
  .next (fireFdiv s 0x090 n 16 fun c => floatRes c.n.ty (fdiv c.n.ty c.pol (roundMode c) (lBits c) (rBits c)))

/-- FEXP2 (R266, R307). -/
def execFexp2 (n : Node) (s : State) : Outcome State Fault Refusal :=
  .next (fireSpecial s 0x091 n fun c => floatRes c.n.ty (fexp2 c.n.ty c.pol (lBits c)))

/-- FLOG2 (R267, R307). -/
def execFlog2 (n : Node) (s : State) : Outcome State Fault Refusal :=
  .next (fireSpecial s 0x092 n fun c => floatRes c.n.ty (flog2 c.n.ty c.pol (lBits c)))

/-- FTANH (R268, R307). -/
def execFtanh (n : Node) (s : State) : Outcome State Fault Refusal :=
  .next (fireSpecial s 0x093 n fun c => floatRes c.n.ty (ftanh c.n.ty c.pol (lBits c)))

/-- FSIGM (R269, R307). -/
def execFsigm (n : Node) (s : State) : Outcome State Fault Refusal :=
  .next (fireSpecial s 0x094 n fun c => floatRes c.n.ty (fsigm c.n.ty c.pol (lBits c)))

end Sys2Proof.Machine
end

