-- ==== Sys2Proof/Machine/TileData.lean ====
section
/-! DEFINITION. Tile contents: elements, lanes and planes (R56, R252, R253, R255), conditioning (R254, R256), the metadata of loaded tiles
(R190), the random tile generator's block function (R271) and random bits (R247). A row is a number of 4,096 bits. -/

namespace Sys2Proof.Machine

/-- Elements per row of a format in element form (R309). -/
def rowElems (t : Ty) : Nat := 4096 / tyWidth t

/-- Element j of a row (R56). -/
def elemAt (w row j : Nat) : Nat := bits row (w * j) w

/-- The first n elements of a row. -/
def rowList (w n row : Nat) : List Nat := (List.range n).map fun j => elemAt w row j

/-- A row from its elements of w bits, element 0 lowest (R56). -/
def packRow (w : Nat) (els : List Nat) : Nat := els.foldr (fun e a => e % 2 ^ w + 2 ^ w * a) 0

/-- The default plane count of a format (R255). -/
def defaultPlanes : Ty → Nat
  | .t2 => 2 | .e2m1 => 3 | .e5m2 => 4 | .e4m3 => 5 | .i8 => 8 | .n8 => 9 | .bf16 => 9 | .f16 => 12 | .i16 => 16 | .n16 => 17
  | .f32 => 25 | .i32 => 32 | .n32 => 33 | .f64 => 54 | .i64 => 64 | .n64 => 64

/-- The plane count of a TID: PLANES or the default; a floating-point TID with PLANES 1 has 2 (R255). -/
def planesOf (t : TidEntry) : Nat :=
  if t.planes = 0 then defaultPlanes t.fmt
  else if tyFloat t.fmt ∧ t.planes = 1 then 2 else t.planes

/-- The value of an integer or t2 element as the matrix array sees it (R240, R253). -/
def elemInt (t : Ty) (x : Nat) : Int := if t = .t2 then sextInt 2 x else if tySigned t then sextInt (tyWidth t) x else (x % 2 ^ tyWidth t : Nat)

/-- Lane k of a lane-form row (R56). -/
def laneAt (t : Ty) (row k : Nat) : Int := sextInt (laneWidth t) (elemAt (laneWidth t) row k)

/-- Conditioned element j of a plane-form row: bit q is bit j of plane q (R56, R253). -/
def planeElem (t : Ty) (planes row j : Nat) : Int :=
  let k := laneCount t
  sextInt planes ((List.range planes).foldl (fun a q => a + bits row (q * k + j) 1 * 2 ^ q) 0)

/-- A plane-form row from K values of `planes` bits (R56). -/
def packPlanes (planes : Nat) (els : List Int) : Nat :=
  let k := els.length
  let u := els.map fun x => wrapNat planes x
  (List.range planes).foldl (fun a q => a + packRow 1 (u.map fun x => bits x q 1) * 2 ^ (q * k)) 0

/-- A lane-form row from its K lanes (R56). -/
def packLanes (t : Ty) (els : List Int) : Nat := packRow (laneWidth t) (els.map fun x => wrapNat (laneWidth t) x)

/-- The least f32 at or above m * 2^e, infinite past the largest (R190, R256). -/
def boundF32 (m : Nat) (e : Int) : Nat := (rndScaled .f32 boundPolicy 2 0 false m e).val

/-- The least bf16 at or above m * 2^e, infinite past the largest (R190, R256). -/
def boundBf16 (m : Nat) (e : Int) : Nat := (rndScaled .bf16 boundPolicy 2 0 false m e).val

/-- +Inf in f32 and bf16. -/
def infF32 : Nat := 0x7F800000
def infBf16 : Nat := 0x7F80

/-- The RFLAG bits of a row of floating-point elements: bit 0 a NaN, bit 1 an infinity (R60). -/
def rowFlags (t : Ty) (els : List Nat) : Nat :=
  let vs := els.map fun x => floatDecode t x
  b2n (vs.any fun v => v.isNan) + 2 * b2n (vs.any fun v => match v with | .inf _ => true | _ => false)

/-- Two flag bits per row (R60). -/
def packFlags (fs : List Nat) : BitVec 32 := BitVec.ofNat 32 (packRow 2 fs)

/-- The largest of a list, 0 for none. -/
def listMax (xs : List Nat) : Nat := xs.foldl max 0

/-- BOUND of floating-point elements: magnitudes order as their patterns do, NaNs apart (R190). -/
def floatBound (t : Ty) (els : List Nat) : Nat :=
  let mags := (els.filter fun x => !(floatDecode t x).isNan).map fun x => x % 2 ^ (tyWidth t - 1)
  match floatDecode t (listMax mags) with
  | .fin _ m e => boundF32 m e
  | _ => infF32

/-- The metadata that R190 gives a tile: rows as they stand, under the TID's form and format. -/
def loadedMeta (t : TidEntry) (e : HEntry) (rows : List Nat) : HEntry :=
  let e0 : HEntry := { e with tid := t.tid, rexp := [], cexp := [], rflag := 0, cflag := 0, bound := 0, part := 0, km1 := 0, keyType := 0, count := [] }
  if t.form = 2 then
    let sums := rows.map fun r => ((List.range (laneCount t.fmt)).map fun j => (planeElem t.fmt (planesOf t) r j).natAbs).foldl (· + ·) 0
    let rb := sums.map fun x => boundBf16 x 0
    { e0 with cexp := rb.map (BitVec.ofNat 16), bound := BitVec.ofNat 32 (listMax rb * 2 ^ 16) }
  else if t.form = 1 then
    { e0 with bound := BitVec.ofNat 32 (boundF32 (listMax (rows.map fun r =>
        listMax ((List.range (laneCount t.fmt)).map fun k => (laneAt t.fmt r k).natAbs))) 0) }
  else
    let w := tyWidth t.fmt
    let els := rows.map fun r => rowList w (rowElems t.fmt) r
    if tyFloat t.fmt then
      { e0 with rflag := packFlags (els.map (rowFlags t.fmt)), bound := BitVec.ofNat 32 (floatBound t.fmt els.flatten) }
    else { e0 with bound := BitVec.ofNat 32 (boundF32 (listMax (els.map fun r => listMax (r.map fun x => (elemInt t.fmt x).natAbs))) 0) }

/-- Word n of a random tile's rows, as R247 turns it into 16 bits for element n. -/
def randomBits (rows : List Nat) (n : Nat) : Nat :=
  let i := n % 4096
  let wd := bits (rows.getD (i / 256) 0) (16 * (i % 256)) 16
  let k := n / 4096 % 16
  (wd * 2 ^ k + wd / 2 ^ (16 - k)) % 2 ^ 16

/-- The result of COND on one row or column (R254): its elements, its exponent, its flag bits and the flags raised. -/
structure CondRes where
  els   : List Int
  q     : Int
  bits  : Nat
  flags : BitVec 9
  deriving DecidableEq, Repr

/-- The elements that COND conditions: NaNs and infinities are taken as zero. -/
def condVal (v : FloatVal) : Bool × Nat × Int :=
  match v with
  | .fin s m e => (s, m, e)
  | _ => (false, 0, 0)

/-- COND of the patterns `xs` of format t into containers of c bits (R254); u gives element j's random bits. -/
def condRow (t : Ty) (pol : Policy) (c mode : Nat) (u : Nat → Nat) (xs : List Nat) : CondRes :=
  let raw := xs.map fun x => floatDecode t x
  let fb := rowFlags t xs
  let sig := flagIf (raw.any fun v => v.isSig) flagInvalid
  let vs := (xs.map fun x => floatRead pol t x).map condVal
  let nz := vs.filter fun v => v.2.1 != 0
  match nz with
  | [] => { els := vs.map fun _ => 0, q := 0, bits := fb, flags := sig }
  | v0 :: _ =>
    let lg (v : Bool × Nat × Int) : Int := (Nat.log2 v.2.1 : Int) + v.2.2
    let emax := nz.foldl (fun a v => max a (lg v)) (lg v0)
    let conv (q : Int) : List (Nat × Bool) :=
      (vs.zipIdx).map fun (v, j) =>
        let n := scaleNum v.2.1 (v.2.2 - q)
        let d := scaleDen 1 (v.2.2 - q)
        let a := roundInt n d v.1 mode (u j)
        (a, a * d != n)
    let q0 := emax - ((c : Int) - 2)
    let first := conv q0
    let ovf := first.any fun a => a.1 == 2 ^ (c - 1)
    let q := if ovf then q0 + 1 else q0
    let as := if ovf then conv q else first
    { els := (as.zip vs).map fun (a, v) => if v.1 then -(a.1 : Int) else (a.1 : Int)
      q := q, bits := fb, flags := sig ||| flagIf (as.any (·.2)) flagInexact }

/-- Metadata of a conditioned tile (R256). -/
def condMeta (t : TidEntry) (e : HEntry) (rs : List CondRes) : HEntry :=
  let e0 : HEntry := { e with tid := t.tid, rexp := [], cexp := [], rflag := 0, cflag := 0, bound := 0, part := 0, km1 := 0, keyType := 0, count := [] }
  let ex := rs.map fun r => BitVec.ofInt 16 r.q
  let fl := packFlags (rs.map fun r => r.bits)
  if t.form = 1 then
    let bs := rs.map fun r => boundF32 (listMax (r.els.map Int.natAbs)) r.q
    { e0 with cexp := ex, cflag := fl, bound := BitVec.ofNat 32 (if rs.any fun r => r.bits != 0 then infF32 else listMax bs) }
  else
    let rb := rs.map fun r => if r.bits ≠ 0 then infBf16 else boundBf16 ((r.els.map Int.natAbs).foldl (· + ·) 0) r.q
    { e0 with rexp := ex, rflag := fl, cexp := rb.map (BitVec.ofNat 16), bound := BitVec.ofNat 32 (listMax rb * 2 ^ 16) }

/-- 32-bit addition and left rotation (R271). -/
def add32 (a b : Nat) : Nat := (a + b) % 2 ^ 32
def rotl32 (x k : Nat) : Nat := (x * 2 ^ k + x / 2 ^ (32 - k)) % 2 ^ 32

/-- One round of BLOCK (R271). -/
def rngRound (kl kh j : Nat) (w : Nat × Nat × Nat × Nat) : Nat × Nat × Nat × Nat :=
  let (wa, wb, wc, wd) := w
  let rk := add32 (if j % 2 = 0 then kl else kh) (j * 0x3C6EF372)
  let wa1 := add32 wa wb
  let wd1 := rotl32 (Nat.xor wd wa1) 16
  let wc1 := add32 wc wd1
  let wb1 := rotl32 (Nat.xor wb wc1) 12
  let wa2 := add32 (add32 wa1 wb1) rk
  let wd2 := rotl32 (Nat.xor wd1 wa2) 8
  let wc2 := add32 wc1 wd2
  let wb2 := rotl32 (Nat.xor wb1 wc2) 7
  (wa2, wb2, wc2, wd2)

/-- BLOCK(c) under KEY and STREAM: four 32-bit words (R271). -/
def rngBlock (key stream c : Nat) : List Nat :=
  let kl := bits key 0 32
  let kh := bits key 32 32
  let cl := bits c 0 32
  let ch := bits c 32 32
  let w0 := (add32 cl 0x9E3779B9, add32 ch 0x7F4A7C15, Nat.xor stream kl, add32 kh 0xBB67AE85)
  let (wa, wb, wc, wd) := (List.range 6).foldl (fun w j => rngRound kl kh j w) w0
  [add32 wa cl, add32 wb kl, add32 wc stream, add32 wd kh]

/-- The 16 rows of the tile that a trng finding CTR = c receives (R272). -/
def rngTile (key stream c : Nat) : List Nat :=
  (List.range 16).map fun i =>
    packRow 128 ((List.range 32).map fun k => packRow 32 (rngBlock key stream ((c + 32 * i + k) % 2 ^ 64)))

end Sys2Proof.Machine
end

