-- ==== Sys2Proof/Machine/Tile.lean ====
section
/-! DEFINITION. Class 3: tile instructions and conversion (R309 to R334). Operand tiles are read and results written as the firing issues;
a result's handle is emitted when its latency has passed (R311, R312). -/

namespace Sys2Proof.Machine

open Host

/-- An operand tile: its index, entry, TID entry and rows, and whether an empty granule was read (R310, R311). -/
structure TileIn where
  hidx  : Nat
  e     : HEntry
  t     : TidEntry
  rows  : List Nat
  empty : Bool
  deriving DecidableEq, Repr

/-- The tile of a port; none where its TID has no live entry, which then fails R310 (log 11). -/
def tileIn (s : State) (c : Ctx) (q : Port) : Option TileIn :=
  let p := getPE s c.f.bh c.f.pe
  let v := payloadAt c.f q
  let e := handleAt p (handleIdx v)
  match tidEntry s c.f.vf e.tid with
  | none => none
  | some t =>
    let r := tileRows p e t.rows
    some { hidx := handleIdx v, e := e, t := t, rows := r.1, empty := r.2 }

/-- Whether an operand is in element form with a format (R310). -/
def isElem (x : TileIn) (t : Ty) : Bool := x.t.form == 0 && x.t.fmt == t

/-- Issue a tile result: allocated PEND, its rows written, metadata set by `mk`; the handle follows after `lat` cycles (R312). None while a
unit is held or the tile cannot be allocated. -/
def tileIssue (s : State) (c : Ctx) (tid : TidEntry) (rows : List Nat) (fl : BitVec 9) (lat unit hold cls count : Nat)
    (mk : HEntry → HEntry) : Option State :=
  if !unitFree s c.f unit then none
  else
    match allocTile s c.f c.f.pe tid.tid tid.rows true with
    | none => none
    | some (h, s1) =>
      let s2 := modPE s1 c.f.bh c.f.pe fun p =>
        let e := handleAt p h
        handlePut (tileFill p e.pages rows) h (mk e)
      let gen := (handleAt (getPE s2 c.f.bh c.f.pe) h).gen
      let s3 := charge (holdUnit s2 c.f unit hold) c.f.bh c.f.pe cls count
      some (pushIssued s3 c.f c.n lat (toUsed c.n .handle (handleWord h tid.tid gen))
        ([.produced h] ++ operandDrops c.n c.f) fl .nothing)

/-- A vector-unit result of h rows: L = extra + 8h, the unit held 8h, energy class 4 (R317, R427). -/
def vectorIssue (s : State) (c : Ctx) (tid : TidEntry) (rows : List Nat) (fl : BitVec 9) (extra : Nat) : Option State :=
  tileIssue s c tid rows fl (extra + 8 * tid.rows) unitVector (8 * tid.rows) 4 tid.rows fun e => loadedMeta tid e rows

/-- The fixed part of an element-wise firing's latency (R317). -/
def vecExtra (t : Ty) : Nat := if tyFloat t then 4 else 2

/-- Whether some granule under the first n bytes of the first `rows` rows of an operand tile is empty: a firing that reads no more of the tile
raises EMPTY_READ for no other (R311, R319, R332). -/
def emptyWithin (s : State) (f : Firing) (x : TileIn) (rows n : Nat) : Bool :=
  let p := getPE s f.bh f.pe
  (List.range rows).any fun i => !(sgets false p.full (rowOffset x.e.pages i / 16) (ceilDiv n 16)).all id

/-- EMPTY_READ where an operand supplied zeros for an empty granule (R311). -/
def emptyFlag (xs : List TileIn) : BitVec 9 := flagIf (xs.any fun x => x.empty) flagEmptyRead

/-- Rows and flags of an element function applied to every element of the container (R313): `g i j` is element (i, j). -/
def mapElems (t : Ty) (rows : Nat) (g : Nat → Nat → FloatRes) : List Nat × BitVec 9 :=
  let rs := (List.range rows).map fun i => (List.range (rowElems t)).map fun j => g i j
  (rs.map fun r => packRow (tyWidth t) (r.map (·.val)), rs.flatten.foldl (fun a r => a ||| r.flags) 0)

/-- Element (i, j) of a tile in its own format; 0 past its rows. -/
def elemOf (x : TileIn) (i j : Nat) : Nat := elemAt (tyWidth x.t.fmt) (x.rows.getD i 0) j

/-- An exact integer as an element: modulo 2^w, or clamped with SAT (R318). -/
def intElem (t : Ty) (sat : Bool) (v : Int) : FloatRes :=
  if sat then
    let y := clampInt (tyMin t) (tyMax t) v
    ⟨wrapNat (tyWidth t) y, flagIf (y != v) flagSaturated⟩
  else ⟨wrapNat (tyWidth t) v, 0⟩

/-- The element operations of R318 on patterns a, b and d (for tfma). -/
def tileOp (code : Nat) (t : Ty) (pol : Policy) (mode : Nat) (sat : Bool) (a b d : Nat) : FloatRes :=
  if tyFloat t then
    match code with
    | 0x0C0 => fadd t pol mode a b
    | 0x0C1 => fsub t pol mode a b
    | 0x0C2 => fmul t pol mode a b
    | 0x0C3 => ffma t pol mode a b d
    | 0x0C4 => fminmax t pol false a b
    | 0x0C5 => fminmax t pol true a b
    | 0x0C6 => ⟨a % 2 ^ (tyWidth t - 1), 0⟩
    | _ => ⟨Nat.xor a (2 ^ (tyWidth t - 1)), 0⟩
  else
    let x := elemInt t a
    let y := elemInt t b
    let z := elemInt t d
    match code with
    | 0x0C0 => intElem t sat (x + y)
    | 0x0C1 => intElem t sat (x - y)
    | 0x0C2 => intElem t sat (x * y)
    | 0x0C3 => intElem t sat (x * y + z)
    | 0x0C4 => intElem t false (if y < x then y else x)
    | 0x0C5 => intElem t false (if x < y then y else x)
    | 0x0C6 => intElem t sat (x.natAbs : Int)
    | _ => intElem t sat (-x)

/-- Element (i, j) of port r: of its tile, or lane j of the literal (R318). -/
def rElem (c : Ctx) (r : Option TileIn) (i j : Nat) : Nat :=
  match r with
  | some x => elemOf x i j
  | none => litLane c.n.ty c.n.lit j

/-- The tile of port r, absent with LITR. -/
def rTile (s : State) (c : Ctx) : Option TileIn := if c.n.litr then none else tileIn s c .r

/-- The SAT and RM fields of the first row of R314; zero with LITR. -/
def satField (c : Ctx) : Bool := !c.n.litr && litBits c.n 3 1 == 1
def modeField (c : Ctx) : Nat := if c.n.litr then 0 else litBits c.n 0 3

/-- Element-wise firings of one to three tiles (R318): every operand has FMT = TYPE, FORM 0 and l's ROWS. -/
def elementwise (s : State) (code : Nat) (n : Node) (useR useP bitop : Bool) : State :=
  fire s code n fun c t =>
    let ty := n.ty
    match tileIn t c .l with
    | none => failCode t c 0x0E
    | some l =>
      let r := if useR then rTile t c else none
      let p := if useP then tileIn t c .p else none
      let ok (x : Option TileIn) : Bool := match x with | some y => isElem y ty && y.t.rows == l.t.rows | none => false
      if !isElem l ty ∨ (useR ∧ !n.litr ∧ !ok r) ∨ (useP ∧ !ok p) then failCode t c 0x0E
      else
        let out := mapElems ty l.t.rows fun i j =>
          tileOp code ty c.pol (modeField c) (satField c) (elemOf l i j) (if useR then rElem c r i j else 0)
            (match p with | some y => elemOf y i j | none => 0)
        let extra := if tyFloat ty && !bitop then (if code = 0x0C3 then 5 else 4) else 2
        vectorIssue t c l.t out.1 (out.2 ||| emptyFlag ([l] ++ r.toList ++ p.toList)) extra

/-- TADD (R318). -/
def execTadd (n : Node) (s : State) : Outcome State Fault Refusal := .next (elementwise s 0x0C0 n true false false)
/-- TSUB (R318). -/
def execTsub (n : Node) (s : State) : Outcome State Fault Refusal := .next (elementwise s 0x0C1 n true false false)
/-- TMUL (R318). -/
def execTmul (n : Node) (s : State) : Outcome State Fault Refusal := .next (elementwise s 0x0C2 n true false false)
/-- TFMA (R318). -/
def execTfma (n : Node) (s : State) : Outcome State Fault Refusal := .next (elementwise s 0x0C3 n true true false)
/-- TMIN (R318). -/
def execTmin (n : Node) (s : State) : Outcome State Fault Refusal := .next (elementwise s 0x0C4 n true false false)
/-- TMAX (R318). -/
def execTmax (n : Node) (s : State) : Outcome State Fault Refusal := .next (elementwise s 0x0C5 n true false false)
/-- TABS (R318): a bit operation on floating-point types. -/
def execTabs (n : Node) (s : State) : Outcome State Fault Refusal := .next (elementwise s 0x0C6 n false false true)
/-- TNEG (R318): a bit operation on floating-point types. -/
def execTneg (n : Node) (s : State) : Outcome State Fault Refusal := .next (elementwise s 0x0C7 n false false true)

/-- TSCL (R319): row i scaled by element (0, i) of r, or by lane i of the literal. -/
def execTscl (n : Node) (s : State) : Outcome State Fault Refusal :=
  .next (fire s 0x0C8 n fun c t =>
    match tileIn t c .l with
    | none => failCode t c 0x0E
    | some l =>
      let r := rTile t c
      if !isElem l n.ty ∨ (!n.litr ∧ !(match r with | some y => isElem y n.ty | none => false)) then failCode t c 0x0E
      else
        let out := mapElems n.ty l.t.rows fun i j => fmul n.ty c.pol (modeField c) (elemOf l i j) (rElem c r 0 i)
        vectorIssue t c l.t out.1 (out.2 ||| emptyFlag ([l] ++ r.toList)) 4)

/-- TBIAS (R319): row 0 of r is added to every row. -/
def execTbias (n : Node) (s : State) : Outcome State Fault Refusal :=
  .next (fire s 0x0C9 n fun c t =>
    match tileIn t c .l, tileIn t c .r with
    | some l, some r =>
      if !isElem l n.ty ∨ !isElem r n.ty then failCode t c 0x0E
      else
        let out := mapElems n.ty l.t.rows fun i j =>
          tileOp 0x0C0 n.ty c.pol (modeField c) (satField c) (elemOf l i j) (elemOf r 0 j) 0
        vectorIssue t c l.t out.1 (out.2 ||| flagIf (l.empty || emptyWithin t c.f r 1 512) flagEmptyRead) (vecExtra n.ty)
    | _, _ => failCode t c 0x0E)

/-- One element of tclamp (R320). -/
def clampElem (t : Ty) (pol : Policy) (x lo hi : Nat) : FloatRes :=
  if tyFloat t then
    let x' := flushIn t pol x
    let lo' := flushIn t pol lo
    let hi' := flushIn t pol hi
    let a := floatDecode t x'
    let b := floatDecode t lo'
    let d := floatDecode t hi'
    let sig := flagIf (a.isSig || b.isSig || d.isSig) flagInvalid
    if a.isNan then let r := nanResult t pol [a] 0; ⟨r.val, r.flags ||| sig⟩
    else
      let y1 := if !b.isNan && fltVal a b then lo' else x'
      let y2 := if !d.isNan && fltVal d (floatDecode t y1) then hi' else y1
      let r := flushOut t pol y2
      ⟨r.val, r.flags ||| sig⟩
  else
    let a := elemInt t x
    let b := elemInt t (lo % 2 ^ tyWidth t)
    let d := elemInt t (hi % 2 ^ tyWidth t)
    let y1 := if a < b then b else a
    intElem t false (if d < y1 then d else y1)

/-- TCLAMP (R320): bounds from the values on r and p. -/
def execTclamp (n : Node) (s : State) : Outcome State Fault Refusal :=
  .next (fire s 0x0CA n fun c t =>
    match tileIn t c .l with
    | none => failCode t c 0x0E
    | some l =>
      if !isElem l n.ty then failCode t c 0x0E
      else
        let out := mapElems n.ty l.t.rows fun i j => clampElem n.ty c.pol (elemOf l i j) (rBits c) (pBits c)
        vectorIssue t c l.t out.1 (out.2 ||| emptyFlag [l]) (vecExtra n.ty))

/-- One element of tact (R323). -/
def actElem (t : Ty) (pol : Policy) (fn mode x : Nat) : FloatRes :=
  match fn with
  | 0 =>
    let xb := flushIn t pol x
    let a := floatDecode t xb
    if a.isNan then nanResult t pol [a] 0
    else if fltVal (.fin false 0 0) a then flushOut t pol xb else ⟨0, 0⟩
  | 1 => fexp2 t pol x
  | 2 => flog2 t pol x
  | 3 => ftanh t pol x
  | 4 => fsigm t pol x
  | 5 => fsilu t pol x
  | 6 => frcp t pol mode x
  | _ => frsq t pol mode x

/-- TACT (R323): an activation function; relu on the vector unit, the others on the special-function unit (R317). -/
def execTact (n : Node) (s : State) : Outcome State Fault Refusal :=
  .next (fire s 0x0CB n fun c t =>
    match tileIn t c .l with
    | none => failCode t c 0x0E
    | some l =>
      if !isElem l n.ty then failCode t c 0x0E
      else
        let fn := litBits n 0 4
        let out := mapElems n.ty l.t.rows fun i j => actElem n.ty c.pol fn (litBits n 4 3) (elemOf l i j)
        let fl := out.2 ||| emptyFlag [l]
        if fn = 0 then vectorIssue t c l.t out.1 fl 4
        else tileIssue t c l.t out.1 fl (12 + 32 * l.t.rows) unitSfu (32 * l.t.rows) 3 l.t.rows fun e => loadedMeta l.t e out.1)

/-- Floating-point reduction of patterns of format f to type t (R324). That a maximum or minimum is brought to another format in the literal's mode, with the flags of
that conversion, is the model's choice (log 151). -/
def redFloat (t f : Ty) (pol : Policy) (op mode : Nat) (xs : List Nat) : FloatRes :=
  let vs := xs.map fun x => floatRead pol f x
  let nans := vs.filter fun v => v.isNan
  match op with
  | 1 => minmaxAll true
  | 2 => minmaxAll false
  | _ =>
    let mag := op == 3
    let ws := if mag then vs.map absVal else vs
    if !nans.isEmpty then nanResult t pol nans 0
    else
      let infs := ws.filter fun v => match v with | .inf _ => true | _ => false
      match infs with
      | [] => rndSum t pol mode 0 (ws.map condVal)
      | v :: vs' => if vs'.all fun w => w.sign == v.sign then infResult t pol v.sign else nanResult t pol [] flagInvalid
where
  /-- A value with its sign cleared. -/
  absVal : FloatVal → FloatVal
    | .nan _ g f => .nan false g f
    | .inf _ => .inf false
    | .fin _ m e => .fin false m e
  /-- maximumNumber or minimumNumber over the elements in order, then to the result format. -/
  minmaxAll (isMax : Bool) : FloatRes :=
    match xs with
    | [] => ⟨0, 0⟩
    | x :: rest =>
      let keep := { pol with ftzo := false }
      let one (a : FloatRes) (y : Nat) : FloatRes := let r := fminmax f keep isMax a.val y; ⟨r.val, a.flags ||| r.flags⟩
      let first := flushIn f pol x
      let r := rest.foldl one ⟨first, 0⟩
      let out := if t = f then (let v := floatDecode f r.val; if v.isNan then nanResult t pol [v] 0 else flushOut t pol r.val)
                 else floatToFloat t f pol mode 0 r.val
      ⟨out.val, out.flags ||| r.flags⟩

/-- Integer reduction (R324). -/
def redInt (t f : Ty) (op : Nat) (xs : List Nat) : FloatRes :=
  let vs := xs.map fun x => elemInt f x
  let v : Int :=
    match op with
    | 0 => vs.foldl (· + ·) 0
    | 1 => vs.tail.foldl (fun a x => if a < x then x else a) (vs.headD 0)
    | 2 => vs.tail.foldl (fun a x => if x < a then x else a) (vs.headD 0)
    | _ => vs.foldl (fun a x => a + (x.natAbs : Int)) 0
  intElem t false v

/-- TRED (R324): rows or columns of l reduced into a tile of one row. -/
def execTred (n : Node) (s : State) : Outcome State Fault Refusal :=
  .next (fire s 0x0CC n fun c t =>
    match tileIn t c .l, tidEntry t c.f.vf (litBits n 0 10) with
    | some l, some tid =>
      if l.t.form ≠ 0 ∨ l.t.fmt = .t2 ∨ tyInt l.t.fmt ≠ tyInt n.ty then failCode t c 0x0E
      else
        let op := litBits n 10 2
        let red (xs : List Nat) : FloatRes :=
          if tyInt n.ty then redInt n.ty l.t.fmt op xs else redFloat n.ty l.t.fmt c.pol op (litBits n 13 3) xs
        let rs : List FloatRes :=
          if litBits n 12 1 = 0 then l.rows.map fun r => red (rowList (tyWidth l.t.fmt) (rowElems l.t.fmt) r)
          else (List.range (min (rowElems n.ty) (rowElems l.t.fmt))).map fun j =>
            red ((List.range l.t.rows).map fun i => elemOf l i j)
        let row := packRow (tyWidth n.ty) (rs.map (·.val))
        let fl := rs.foldl (fun a r => a ||| r.flags) (emptyFlag [l])
        tileIssue t c tid [row] fl (12 + 8 * l.t.rows) unitVector (8 + 8 * l.t.rows) 4 l.t.rows fun e => loadedMeta tid e [row]
    | _, _ => failCode t c 0x0E)

/-- A firing that moves elements of l into a tile of the literal's TID (R325, R326): no flag but EMPTY_READ. -/
def rearrange (s : State) (code : Nat) (n : Node) (lat hold : Nat → Nat) (g : TileIn → Nat → Nat → Nat) : State :=
  fire s code n fun c t =>
    match tileIn t c .l, tidEntry t c.f.vf (litBits n 0 10) with
    | some l, some tid =>
      if !isElem l n.ty then failCode t c 0x0E
      else
        let out := mapElems n.ty tid.rows fun i j => ⟨g l i j, 0⟩
        tileIssue t c tid out.1 (emptyFlag [l]) (lat tid.rows) unitVector (hold tid.rows) 4 tid.rows fun e => loadedMeta tid e out.1
    | _, _ => failCode t c 0x0E

/-- TTR (R325): each 16 x 16 block transposed. -/
def execTtr (n : Node) (s : State) : Outcome State Fault Refusal :=
  .next (rearrange s 0x0CD n (fun h => 18 + 8 * h) (fun h => 16 + 8 * h) fun l i j =>
    if j % 16 < l.t.rows then elemOf l (j % 16) (j / 16 * 16 + i) else 0)

/-- TBC (R326): a row or a column of l broadcast. -/
def execTbc (n : Node) (s : State) : Outcome State Fault Refusal :=
  .next (rearrange s 0x0CE n (fun h => 2 + 8 * h) (fun h => 8 * h) fun l i j =>
    let sel := litBits n 10 4
    if litBits n 14 1 = 0 then (if sel < l.t.rows then elemOf l sel j else 0)
    else if i < l.t.rows then elemOf l i sel else 0)

/-- TSEL (R322): l where the mask on p has any bit set, r elsewhere. -/
def execTsel (n : Node) (s : State) : Outcome State Fault Refusal :=
  .next (fire s 0x0CF n fun c t =>
    match tileIn t c .l, tileIn t c .r, tileIn t c .p with
    | some l, some r, some p =>
      if !isElem l n.ty ∨ !isElem r n.ty ∨ r.t.rows ≠ l.t.rows ∨ p.t.form ≠ 0 ∨ p.t.rows ≠ l.t.rows ∨
          tyWidth p.t.fmt ≠ tyWidth n.ty then failCode t c 0x0E
      else
        let out := mapElems n.ty l.t.rows fun i j => ⟨if elemOf p i j != 0 then elemOf l i j else elemOf r i j, 0⟩
        vectorIssue t c l.t out.1 (emptyFlag [l, r, p]) 2
    | _, _, _ => failCode t c 0x0E)

/-- TCMP (R321): 1 in TYPE where the condition holds; eq with LITR. -/
def execTcmp (n : Node) (s : State) : Outcome State Fault Refusal :=
  .next (fire s 0x0D0 n fun c t =>
    match tileIn t c .l with
    | none => failCode t c 0x0E
    | some l =>
      let r := rTile t c
      let ok : Bool := match r with | some y => isElem y n.ty && y.t.rows == l.t.rows | none => n.litr
      if !isElem l n.ty ∨ !ok then failCode t c 0x0E
      else
        let cond := modeField c
        let out := mapElems n.ty l.t.rows fun i j =>
          let a := elemOf l i j
          let b := rElem c r i j
          if tyFloat n.ty then
            let x := fcmp n.ty c.pol cond a b
            ⟨if x.1 then fone n.ty false else 0, x.2⟩
          else
            let x := elemInt n.ty a
            let y := elemInt n.ty b
            ⟨b2n (match cond with | 0 => x == y | 1 => x != y | 2 => x < y | 3 => x ≤ y | 4 => y < x | _ => y ≤ x), 0⟩
        vectorIssue t c l.t out.1 (out.2 ||| emptyFlag ([l] ++ r.toList)) (vecExtra n.ty))

/-- TCPY (R327): l in any form, its metadata unchanged. -/
def execTcpy (n : Node) (s : State) : Outcome State Fault Refusal :=
  .next (fire s 0x0D1 n fun c t =>
    match tileIn t c .l with
    | none => failCode t c 0x0E
    | some l =>
      if l.t.fmt ≠ n.ty then failCode t c 0x0E
      else
        tileIssue t c l.t l.rows (emptyFlag [l]) (2 + 8 * l.t.rows) unitVector (8 * l.t.rows) 4 l.t.rows fun e =>
          { l.e with ref := 0, pages := e.pages, pend := true, gen := e.gen, payer := e.payer })

/-- TVIEW (R328): l's bits under the literal's TID, in place when this firing is the tile's only holder. It reads l's own rows (R311). -/
def execTview (n : Node) (s : State) : Outcome State Fault Refusal :=
  .next (fire s 0x0D2 n fun c t =>
    match tileIn t c .l, tidEntry t c.f.vf (litBits n 0 10) with
    | some l, some tid =>
      let lane := l.t.form == 1 && (l.t.fmt == .i64 || l.t.fmt == .i32 || l.t.fmt == .i16 || l.t.fmt == .i8)
      if (l.t.form ≠ 0 ∧ !lane) ∨ ceilDiv tid.rows 4 ≠ l.e.pages.length then failCode t c 0x0E
      else
        let p := getPE t c.f.bh c.f.pe
        let rows := (tileRows p l.e tid.rows).1
        let fl := emptyFlag [l]
        if l.e.ref = 1 then
          if !unitFree t c.f unitVector then none
          else
            let t1 := modPE t c.f.bh c.f.pe fun q => handlePut q l.hidx (loadedMeta tid l.e rows)
            let t2 := charge (holdUnit t1 c.f unitVector (8 * tid.rows)) c.f.bh c.f.pe 4 tid.rows
            some (pushIssued t2 c.f n (2 + 8 * tid.rows) (toUsed n .handle (handleWord l.hidx tid.tid l.e.gen))
              (operandDrops n c.f) fl .nothing)
        else
          tileIssue t c tid rows fl (2 + 8 * tid.rows) unitVector (8 * tid.rows) 4 tid.rows fun e => loadedMeta tid e rows
    | _, _ => failCode t c 0x0E)

/-- The random tile of port p in mode sr: FORM 0, FMT n8, ROWS 16 (R331). `none` is a tile that fails; in other modes there is no port p. -/
def randomTile (s : State) (c : Ctx) (sr : Bool) : Option (List TileIn) :=
  if !sr then some []
  else match tileIn s c .p with
    | some r => if r.t.form = 0 ∧ r.t.fmt = .n8 ∧ r.t.rows = 16 then some [r] else none
    | none => none

/-- u of element e from a random tile, 0 without one (R247). -/
def uOf (rt : List TileIn) (e : Nat) : Nat := match rt with | r :: _ => randomBits r.rows e | [] => 0

/-- TCOND (R332): conditioning into lane or plane form. -/
def execTcond (n : Node) (s : State) : Outcome State Fault Refusal :=
  .next (fire s 0x0D3 n fun c t =>
    let mode := litBits n 10 3
    match tileIn t c .l, tidEntry t c.f.vf (litBits n 0 10), randomTile t c (mode == 5) with
    | some l, some tid, some rt =>
      if !isElem l n.ty then failCode t c 0x0E
      else
        let k := laneCount n.ty
        let w := if tid.form = 1 then laneWidth n.ty else planesOf tid
        let rs := (List.range tid.rows).map fun i =>
          condRow n.ty c.pol w mode (fun j => uOf rt (k * i + j)) (rowList (tyWidth n.ty) k (l.rows.getD i 0))
        let rows := rs.map fun r => if tid.form = 1 then packLanes n.ty r.els else packPlanes w r.els
        let fl := rs.foldl (fun a r => a ||| r.flags)
          (emptyFlag rt ||| flagIf (emptyWithin t c.f l l.t.rows (k * tyWidth n.ty / 8)) flagEmptyRead)
        let lat := 6 + 2 * tid.rows * ceilDiv k 64
        tileIssue t c tid rows fl lat unitConv (lat - 4) 5 tid.rows fun e => condMeta tid e rs
    | _, _, _ => failCode t c 0x0E)

/-- One element of tcvt (R333): from format f to type t. That a floating-point value is judged for INVALID against t2's two bits, -2 to +1, and is clamped to -1 to +1
afterwards, is the model's choice (R249, log 150). -/
def cvtElem (t f : Ty) (pol : Policy) (mode : Nat) (sat : Bool) (u x : Nat) : FloatRes :=
  let non := flagIf (f == .t2 && x % 4 == 2) flagNoncanon
  let toT2 (v : Int) (fl : BitVec 9) : FloatRes :=
    let y := clampInt (-1) 1 v
    ⟨wrapNat 2 y, fl ||| flagIf (y != v) flagSaturated⟩
  let intToT2 (v : Int) : FloatRes :=
    let r := intElem .t2 sat v
    toT2 (sextInt 2 r.val) r.flags
  let r : FloatRes :=
    if tyFloat f then
      if tyFloat t then floatToFloat t f pol mode u x
      else if t = .t2 then
        let r := floatToInt (-2) 1 f pol mode u x
        toT2 r.1 r.2
      else
        let r := floatToInt (tyMin t) (tyMax t) f pol mode u x
        ⟨wrapNat (tyWidth t) r.1, r.2⟩
    else if tyFloat t then intToFloat t pol mode u (elemInt f x)
    else if t = .t2 then intToT2 (elemInt f x)
    else intElem t sat (elemInt f x)
  ⟨r.val, r.flags ||| non⟩

/-- TCVT (R333): l, in any format, into the element format TYPE. -/
def execTcvt (n : Node) (s : State) : Outcome State Fault Refusal :=
  .next (fire s 0x0D4 n fun c t =>
    let mode := litBits n 10 3
    match tileIn t c .l, tidEntry t c.f.vf (litBits n 0 10), randomTile t c (mode == 5) with
    | some l, some tid, some rt =>
      if l.t.form ≠ 0 then failCode t c 0x0E
      else
        let ns := rowElems l.t.fmt
        let nd := rowElems n.ty
        let out := mapElems n.ty tid.rows fun i j =>
          if l.t.rows ≤ i ∨ ns ≤ j then ⟨0, 0⟩
          else cvtElem n.ty l.t.fmt c.pol mode (litBits n 13 1 == 1) (uOf rt (nd * i + j)) (elemOf l i j)
        let lat := 4 + tid.rows * ceilDiv (max ns nd) 64
        tileIssue t c tid out.1 (out.2 ||| emptyFlag ([l] ++ rt)) lat unitConv (lat - 4) 5 tid.rows fun e => loadedMeta tid e out.1
    | _, _, _ => failCode t c 0x0E)

/-- TRNG (R330): the result is allocated at issue; the firing then waits at the slot's generator, which serves it (RNG_GENERATOR_SERVE). -/
def execTrng (n : Node) (s : State) : Outcome State Fault Refusal :=
  .next (fire s 0x0D5 n fun c t =>
    match tidEntry t c.f.vf (litBits n 0 10) with
    | none => failCode t c 0x0E
    | some tid =>
      match allocTile t c.f c.f.pe tid.tid tid.rows true with
      | none => none
      | some (h, t1) =>
        let gen := (handleAt (getPE t1 c.f.bh c.f.pe) h).gen
        let id := t1.nextId
        let t2 := modSlot t1 c.f.bh (slotOf c.f.pe) fun x => { x with rngQueue := x.rngQueue ++ [(c.f.pe, id)] }
        some (pushIssued (charge t2 c.f.bh c.f.pe 5 tid.rows) c.f n 130 (toUsed n .handle (handleWord h tid.tid gen))
          ([.produced h] ++ operandDrops n c.f) 0 .rng))

/-- A tile of the literal's TID whose elements come from the value on l (R329). -/
def filled (s : State) (code : Nat) (n : Node) (g : Nat → Nat → Nat → Nat) : State :=
  fire s code n fun c t =>
    match tidEntry t c.f.vf (litBits n 0 10) with
    | none => failCode t c 0x0E
    | some tid =>
      let out := mapElems n.ty tid.rows fun i j => ⟨g (payloadAt c.f .l).toNat i j, 0⟩
      vectorIssue t c tid out.1 0 2

/-- TFILL (R329). -/
def execTfill (n : Node) (s : State) : Outcome State Fault Refusal :=
  .next (filled s 0x0D6 n fun v _ _ => v % 2 ^ tyWidth n.ty)

/-- TIOTA (R329): l + i * n + j, or l + i with ROWIDX. -/
def execTiota (n : Node) (s : State) : Outcome State Fault Refusal :=
  .next (filled s 0x0D7 n fun v i j => (if litBits n 10 1 = 1 then v + i else v + i * rowElems n.ty + j) % 2 ^ tyWidth n.ty)

end Sys2Proof.Machine
end

