-- ==== Sys2Proof/Machine/Matrix.lean ====
section
/-! DEFINITION. Class 4: matrix instructions and ranked lists (R335 to R364). A firing reads its tiles and accumulators as it issues; R345 keeps
the firings that name one accumulator in issue order. -/

namespace Sys2Proof.Machine

open Host

/-- An entry of a MODE 0 or MODE 1 accumulator: S, E and the NAN bit (R63). -/
structure AccEntry where
  sig : Int
  exp : Int
  nan : Bool
  deriving DecidableEq, Repr

/-- The 256 entries of an accumulator; while CLEAR = 1 every one reads as zero (R63). -/
def accEntries (p : PE) (e : HEntry) : List AccEntry :=
  let bs := sgets 0 p.acc (6144 * e.pages.headD 0) 6144
  (List.range 256).map fun i =>
    if e.clear then ⟨0, 0, false⟩
    else ⟨sextInt 144 (fieldAt bs (24 * i) 18), sextInt 32 (fieldAt bs (24 * i + 18) 4), fieldAt bs (24 * i + 22) 2 % 2 == 1⟩

/-- The 24 bytes of an entry (R63). -/
def accBytes (x : AccEntry) : List Byte := leBytes 18 (wrapNat 144 x.sig) ++ leBytes 4 (wrapNat 32 x.exp) ++ leBytes 2 (b2n x.nan)

/-- Write every entry of an accumulator (R63). -/
def accStore (p : PE) (e : HEntry) (xs : List AccEntry) : PE :=
  { p with acc := sputs 0 p.acc (6144 * e.pages.headD 0) (xs.map accBytes).flatten, spoilt := mended p.spoilt (0x30000 + 6144 * e.pages.headD 0) 6144 }

/-- The tile that holds position j of a list (R63). -/
def listTile (e : HEntry) (j : Nat) : Nat := e.pages.getD (j / 32) 0

/-- The 16 lists of a MODE 2 accumulator, best entry first (R63, R355). -/
def accLists (p : PE) (e : HEntry) : List (List (Nat × Nat)) :=
  (List.range 16).map fun i =>
    if e.clear then []
    else (List.range (e.count.getD i 0)).map fun j =>
      let bs := sgets 0 p.acc (6144 * listTile e j + 384 * i + 12 * (j % 32)) 12
      (fieldAt bs 0 8, fieldAt bs 8 4)

/-- Write the lists of a MODE 2 accumulator; CLEAR := 0 (R63). -/
def listsStore (p : PE) (h : Nat) (ls : List (List (Nat × Nat))) : PE :=
  let e := handleAt p h
  let one (q : PE) (i : Nat) (l : List (Nat × Nat)) : PE :=
    (l.zipIdx).foldl (fun r x =>
      { r with acc := sputs 0 r.acc (6144 * listTile e x.2 + 384 * i + 12 * (x.2 % 32)) (leBytes 8 x.1.1 ++ leBytes 4 x.1.2) }) q
  let p0 := { p with spoilt := e.pages.foldl (fun m a => mended m (0x30000 + 6144 * a) 6144) p.spoilt }
  let p1 := (ls.zipIdx).foldl (fun q x => one q x.2 x.1) p0
  handlePut p1 h { e with count := ls.map List.length, clear := false }

/-- One merge of exact terms P * 2^Ep into an entry (R259, R260, R350). -/
def accMerge (integer clear : Bool) (x : AccEntry) (terms : List (Int × Int)) : AccEntry × BitVec 9 :=
  let s0 := if clear then 0 else x.sig
  let ex := if clear then (terms.head?.map (·.2)).getD 0 else x.exp
  let e0 := terms.foldl (fun a t => min a t.2) ex
  let v := terms.foldl (fun a t => a + t.1 * ((2 ^ (t.2 - e0).toNat : Nat) : Int)) (s0 * ((2 ^ (ex - e0).toNat : Nat) : Int))
  let lim : Int := ((2 ^ 143 : Nat) : Int)
  if integer then
    let y := sextInt 144 (wrapNat 144 v)
    ({ x with sig := y, exp := e0 }, flagIf (y != v) flagOverflow)
  else if -lim ≤ v ∧ v < lim then ({ x with sig := v, exp := e0 }, 0)
  else
    let a := v.natAbs
    let h := Nat.log2 a + 1 - 143
    let m0 := roundInt a (2 ^ h) (decide (v < 0)) 0 0
    let m := if m0 = 2 ^ 143 then 2 ^ 142 else m0
    let h1 := if m0 = 2 ^ 143 then h + 1 else h
    ({ x with sig := if v < 0 then -(m : Int) else (m : Int), exp := e0 + (h1 : Int) }, flagIf (m0 * 2 ^ h != a) flagInexact)

/-- The drain of an entry to a type (R262). -/
def accConvert (t : Ty) (pol : Policy) (mode u : Nat) (sat : Bool) (x : AccEntry) : FloatRes :=
  if tyFloat t then
    if x.nan then nanResult t pol [] 0
    else if x.sig = 0 then ⟨0, 0⟩
    else rndScaled t pol mode u (decide (x.sig < 0)) x.sig.natAbs x.exp
  else if x.nan then ⟨0, flagInvalid⟩
  else
    let n := scaleNum x.sig.natAbs x.exp
    let d := scaleDen 1 x.exp
    let a := roundInt n d (decide (x.sig < 0)) mode u
    let v : Int := if x.sig < 0 then -(a : Int) else (a : Int)
    let inex := flagIf (a * d != n) flagInexact
    if sat then
      let y := clampInt (tyMin t) (tyMax t) v
      ⟨wrapNat (tyWidth t) y, inex ||| flagIf (y != v) flagSaturated⟩
    else
      let y := wrapNat (tyWidth t) v
      ⟨y, inex ||| flagIf (elemInt t y != v) flagOverflow⟩

/-- The key of a value of a key type, given as a pattern (R263). -/
def keyOf (t : Ty) (x : Nat) : Nat :=
  let w := tyWidth t
  let v := x % 2 ^ w
  if tyFloat t then
    if v = 2 ^ (w - 1) then 2 ^ (w - 1)
    else if v < 2 ^ (w - 1) then v + 2 ^ (w - 1)
    else 2 ^ w - 1 - v
  else Nat.xor v (2 ^ (w - 1))

/-- The value of a key, as a pattern (R263). -/
def valOfKey (t : Ty) (k : Nat) : Nat :=
  let w := tyWidth t
  let v := k % 2 ^ w
  if tyFloat t then (if 2 ^ (w - 1) ≤ v then v - 2 ^ (w - 1) else 2 ^ w - 1 - v) else Nat.xor v (2 ^ (w - 1))

/-- (k1, x1) ranks above (k2, x2) (R355). -/
def ranksAbove (a b : Nat × Nat) : Bool := decide (b.1 < a.1) || (a.1 == b.1 && decide (a.2 < b.2))

/-- INSERT into a list of at most k entries (R355). -/
def listInsert (k : Nat) (l : List (Nat × Nat)) (x : Nat × Nat) : List (Nat × Nat) :=
  if l.contains x then l
  else if l.length = k ∧ !(ranksAbove x (l.getLastD (0, 0))) then l
  else
    let m := if l.length = k then l.dropLast else l
    let j := (m.filter fun y => ranksAbove y x).length
    m.take j ++ [x] ++ m.drop j

/-- θ of a list of at most k entries (R355). -/
def listTheta (k : Nat) (l : List (Nat × Nat)) : Nat := if l.length = k then (l.getLastD (0, 0)).1 else 0

/-- Whether an issued firing that writes one of these accumulators has not completed: the list that a prune test reads waits for it too (R345). -/
def accBusy (p : PE) (hs : List Nat) : Bool := p.issued.any fun i => i.writes.any fun h => hs.contains h

/-- Whether the matrix array is free: no firing holds it, and no smma waits with it (R336). -/
def arrayFree (s : State) (f : Firing) : Bool :=
  unitFree s f unitArray &&
  !((getPE s f.bh f.pe).issued.any fun i => match i.wait with | .coord _ _ => true | _ => false)

/-- A failing check of R338: the FORMAT_COMBO event, then the error outcome. -/
def comboFail (s : State) (c : Ctx) (reason : Nat) (l r : Option TileIn) (amode : Nat) : State :=
  let fmtOf (x : Option TileIn) : Nat := match x with | some y => tyCode y.t.fmt | none => 0
  let formOf (x : Option TileIn) : Nat := match x with | some y => y.t.form | none => 0
  let v := fmtOf l + fmtOf r * 2 ^ 4 + formOf l * 2 ^ 8 + formOf r * 2 ^ 10 + amode * 2 ^ 12 + reason * 2 ^ 14 + c.f.pe * 2 ^ 17 + c.f.node * 2 ^ 26
  let s1 := postEvent s (peSrc c.f.bh c.f.pe) c.f.bh (some c.f.vf) (some c.f.lid) 0x0D v
  finishVerdict s1 c.code c.f c.n (.code 0x0E)

/-- The same for an accumulator or list instruction. -/
def comboOut (s : State) (c : Ctx) (reason : Nat) (l r : Option TileIn) (amode : Nat) : Option State :=
  some (comboFail s c reason l r amode)

/-- The handle-table index and entry that a port's handle names. -/
def accIn (s : State) (c : Ctx) (q : Port) : Nat × HEntry :=
  let h := handleIdx (payloadAt c.f q)
  (h, handleAt (getPE s c.f.bh c.f.pe) h)

/-- Emissions of a port's own handle to each used destination. -/
def passHandle (c : Ctx) (q : Port) : List Emit := toUsed c.n .handle (payloadAt c.f q)

/-- A class 4 firing of energy class 7 that writes the accumulators `ws` (R427). -/
def issueAcc (s : State) (c : Ctx) (lat : Nat) (es : List Emit) (fx : List Effect) (fl : BitVec 9) (ws : List Nat) : Option State :=
  some (pushWriting (charge s c.f.bh c.f.pe 7 1) c.f c.n lat es (fx ++ operandDrops c.n c.f) fl .nothing ws)

/-- The key types of R339, by KEY code. -/
def keyTypeOf (k : Nat) : Nat := match k with | 0 => 3 | 1 => 1 | 2 => 14 | _ => 15

/-- ACC_NEW (R342). KEYTYPE is stored as zero where the mode is not that of lists, the model's choice (log 153). -/
def execAccNew (n : Node) (s : State) : Outcome State Fault Refusal :=
  .next (fire s 0x100 n fun c t =>
    let mode := litBits n 0 2
    let km1 := litBits n 4 6
    let e0 : HEntry := { HEntry.empty with mode := mode, km1 := if mode = 2 then km1 else 0, keyType := if mode = 2 then keyTypeOf (litBits n 2 2) else 0 }
    match allocAcc t c.f (if mode = 2 ∧ 32 ≤ km1 then 2 else 1) e0 with
    | none => none
    | some (h, t1) =>
      let gen := (handleAt (getPE t1 c.f.bh c.f.pe) h).gen
      let pb := litBits n 11 2
      let t2 := if litBits n 10 1 = 1 then
          modPE t1 c.f.bh c.f.pe fun p => { p with prune := p.prune.filter (fun x => x.1 != pb) ++ [(pb, { hidx := h, gen := gen })] }
        else t1
      issueAcc t2 c 1 (toUsed n .handle (handleWord h 0 gen)) [.produced h] 0 [])

/-- ACC_ZERO (R343). -/
def execAccZero (n : Node) (s : State) : Outcome State Fault Refusal :=
  .next (fire s 0x101 n fun c t =>
    let (h, e) := accIn t c .l
    let t1 := modPE t c.f.bh c.f.pe fun p => handlePut p h { e with clear := true, isSealed := false, pruned := 0, count := [] }
    issueAcc t1 c 1 (passHandle c .l) [] 0 [h])

/-- ACC_FREE (R343): the entry is freed whatever its REF. -/
def execAccFree (n : Node) (s : State) : Outcome State Fault Refusal :=
  .next (fire s 0x102 n fun c t =>
    let (h, e) := accIn t c .l
    issueAcc t c 1 [] [.freeEntry h e.gen] 0 [h])

/-- ACC_GET (R344). -/
def execAccGet (n : Node) (s : State) : Outcome State Fault Refusal :=
  .next (fire s 0x103 n fun c t =>
    let p := getPE t c.f.bh c.f.pe
    let (h, e) := accIn t c .l
    let sel := (rWord c).toNat
    let idx := litBits n 8 1
    if e.mode ≠ 2 ∧ idx = 1 then comboOut t c 3 none none e.mode
    else if e.mode ≠ 2 then
      if 256 ≤ sel then failCode t c 0x0C
      else
        let ft := tyOfCode (litBits n 0 4)
        let r := accConvert ft c.pol (litBits n 4 3) 0 (litBits n 7 1 == 1) ((accEntries p e).getD sel ⟨0, 0, false⟩)
        issueAcc t c 4 (toUsed n .value (extend ft r.val)) [] r.flags []
    else
      let i := bits sel 0 4
      let j := bits sel 4 6
      if 1024 ≤ sel ∨ e.km1 < j then failCode t c 0x0C
      else
        match ((accLists p e).getD i [])[j]? with
        | none => issueAcc t c 4 (toUsed n .null 0) [] 0 []
        | some x =>
          let kt := tyOfCode e.keyType
          issueAcc t c 4 (toUsed n .value (if idx = 1 then word x.2 else extend kt (valOfKey kt x.1))) [] 0 [])

/-- The integer and the floating-point combinations of R337. -/
def comboInt (a b : Ty) : Bool :=
  [[Ty.t2, .i8], [.n8, .i16], [.n16, .i32], [.n32, .i64]].any fun g => g.contains a && g.contains b
def comboFloat (a b : Ty) : Bool :=
  [[Ty.t2, .e2m1, .e4m3, .e5m2], [.bf16, .f16], [.f32], [.f64]].any fun g => g.contains a && g.contains b

/-- The first three checks of R347, on the tiles. -/
def tileReason (l r : TileIn) : Option Nat :=
  if l.t.form ≠ 2 ∨ r.t.form ≠ 1 then some 1
  else if !comboInt l.t.fmt r.t.fmt && !comboFloat l.t.fmt r.t.fmt then some 0
  else if laneCount l.t.fmt ≠ laneCount r.t.fmt then some 2
  else none

/-- The checks of R347 with an accumulator. -/
def mmaReason (l r : TileIn) (e : HEntry) (prune : Bool) : Option Nat :=
  match tileReason l r with
  | some x => some x
  | none =>
    if e.mode ≠ 0 ∧ !(e.mode == 1 && comboInt l.t.fmt r.t.fmt) then some 3
    else if e.isSealed ∨ (prune ∧ !e.clear) then some 4
    else none

/-- The flag bits of row i of an RFLAG or CFLAG field (R60). -/
def flagPair (x : BitVec 32) (i : Nat) : Nat := bits x.toNat (2 * i) 2

/-- Whether entry (i, j) is affected (R348). -/
def affectedAt (l r : TileIn) (i j : Nat) : Bool :=
  (decide (i < l.t.rows) && flagPair l.e.rflag i != 0) || (decide (j < r.t.rows) && flagPair r.e.cflag j != 0)

/-- A shared exponent as an integer. -/
def sharedExp (xs : List (BitVec 16)) (i : Nat) : Int := (xs.getD i 0).toInt

/-- The exponent of entry (i, j) (R258). -/
def blockExp (l r : TileIn) (i j : Nat) : Int := sharedExp l.e.rexp i + l.t.scale + sharedExp r.e.cexp j + r.t.scale

/-- Exact dot product. -/
def dot (a b : List Int) : Int := (a.zip b).foldl (fun acc x => acc + x.1 * x.2) 0

/-- Row i of A as K integers, empty past its rows (R335). -/
def aRow (l : TileIn) (i : Nat) : List Int :=
  match l.rows[i]? with
  | some row => (List.range (laneCount l.t.fmt)).map fun k => planeElem l.t.fmt (planesOf l.t) row k
  | none => []

/-- Column j of B as K integers, empty past its rows (R335). -/
def bCol (r : TileIn) (j : Nat) : List Int :=
  match r.rows[j]? with
  | some row => (List.range (laneCount r.t.fmt)).map fun k => laneAt r.t.fmt row k
  | none => []

/-- The 256 triples of a firing (R258, R335, R348). -/
def blockSums (l r : TileIn) : List CellSum :=
  let as := (List.range 16).map (aRow l)
  let bs := (List.range 16).map (bCol r)
  ((as.zipIdx).map fun (a, i) => (bs.zipIdx).map fun (b, j) =>
    { p := dot a b, ep := blockExp l r i j, affected := affectedAt l r i j }).flatten

/-- Merge one or two sets of triples into an accumulator (R347, R348, R350). -/
def mergeSums (s : State) (b pe h : Nat) (sets : List (List CellSum)) : State × BitVec 9 :=
  let p := getPE s b pe
  let e := handleAt p h
  let old := accEntries p e
  let rs := (old.zipIdx).map fun (x, i) =>
    let cs : List CellSum := sets.map fun (q : List CellSum) => q.getD i { p := 0, ep := 0, affected := false }
    if cs.any fun q => q.affected then ({ x with nan := true }, flagInvalid)
    else accMerge (e.mode == 1) e.clear x (cs.map fun (q : CellSum) => (q.p, q.ep))
  let p1 := accStore p e (rs.map (·.1))
  (setPE s b pe (handlePut p1 h { e with clear := false }), rs.foldl (fun a r => a ||| r.2) 0)

/-- Steps of a firing (R335). -/
def arraySteps (l : TileIn) : Nat := ceilDiv (planesOf l.t) 2

/-- A bf16 or f32 pattern as an exact nonnegative value; none when infinite. -/
def finiteOf (t : Ty) (x : Nat) : Option (Nat × Int) :=
  match floatDecode t x with
  | .fin _ m e => some (m, e)
  | _ => none

/-- The key of b rounded upward, first to f64 and then to the key type (R362). -/
def boundKey (kt : Ty) (v : Option (Nat × Int)) : Nat :=
  let b : Nat := match v with
    | none => 0x7FF0000000000000
    | some (m, e) => (rndScaled .f64 boundPolicy 2 0 false m e).val
  match floatDecode .f64 b with
  | .fin _ m e =>
    if tyFloat kt then keyOf kt (rndScaled kt boundPolicy 2 0 false m e).val
    else keyOf kt (wrapNat (tyWidth kt) (clampInt (tyMin kt) (tyMax kt) (roundInt (scaleNum m e) (scaleDen 1 e) false 2 0 : Nat)))
  | _ => if tyFloat kt then keyOf kt ((floatFmt kt).maxMag + 1) else keyOf kt (wrapNat (tyWidth kt) (tyMax kt))

/-- The prune test against a bound list (R362). -/
def pruneTest (p : PE) (l r : TileIn) (list : HEntry) : Bool :=
  let kt := tyOfCode list.keyType
  let ls := accLists p list
  let k := list.km1 + 1
  let bb := finiteOf .f32 r.e.bound.toNat
  r.e.bound.toNat != infF32 && r.e.cflag == 0 &&
  (List.range l.t.rows).all fun i =>
    let li := ls.getD i []
    let b : Option (Nat × Int) :=
      match finiteOf .bf16 (l.e.cexp.getD i 0).toNat, bb with
      | some (m, e), some (m2, e2) => some (m * m2, e + e2 + l.t.scale + r.t.scale)
      | _, _ => none
    decide (k ≤ li.length) && decide (boundKey kt b < listTheta k li)

/-- The list that prune binding PB names, where the binding is valid (R346). -/
def boundList (p : PE) (pb : Nat) : Option (Nat × HEntry) :=
  match p.prune.find? fun x => x.1 == pb with
  | none => none
  | some (_, b) =>
    let e := handleAt p b.hidx
    if e.kind = .acc ∧ e.mode = 2 ∧ e.gen = b.gen then some (b.hidx, e) else none

/-- The operand tiles of a matrix firing, as what the array has read at the end of a cycle: their references drop then (R347). -/
def tileReads (n : Node) (f : Firing) (c : Nat) : List (Nat × Nat × Nat) :=
  ((operandRef n f .l).toList ++ (operandRef n f .r).toList).map fun x => (c, x.1, x.2)

/-- A firing holds the array for its steps, and its tiles for as long (R336, R347). -/
def holdArray (s : State) (n : Node) (f : Firing) (steps : Nat) : State :=
  modPE (holdUnit s f unitArray (8 * steps)) f.bh f.pe fun p => { p with reads := p.reads ++ tileReads n f (cycleOf s f.bh + 8 * steps) }

/-- MMA (R347). -/
def execMma (n : Node) (s : State) : Outcome State Fault Refusal :=
  .next (fire s 0x104 n fun c t =>
    let p := getPE t c.f.bh c.f.pe
    let (h, e) := accIn t c .p
    let prune := litBits n 0 1 == 1
    let bound := if prune then boundList p (litBits n 1 2) else none
    if accBusy p (bound.map (·.1)).toList then none
    else
      match tileIn t c .l, tileIn t c .r with
      | some l, some r =>
        match mmaReason l r e prune with
        | some reason => comboOut t c reason (some l) (some r) e.mode
        | none =>
          let skip := match bound with | some (_, b) => pruneTest p l r b | none => false
          if skip then
            let marks := (List.range l.t.rows).foldl (fun a i => a ||| BitVec.ofNat 16 (2 ^ i)) e.pruned
            let t1 := modPE t c.f.bh c.f.pe fun q => handlePut q h { e with pruned := marks, isSealed := true }
            some (pushWriting (charge t1 c.f.bh c.f.pe 0 1) c.f n 2 (passHandle c .p) (operandDrops n c.f) 0 .nothing [h])
          else if !arrayFree t c.f then none
          else
            let steps := arraySteps l
            let m := mergeSums t c.f.bh c.f.pe h [blockSums l r]
            let t1 := modPE m.1 c.f.bh c.f.pe fun q => if prune then handlePut q h { handleAt q h with isSealed := true } else q
            let t2 := charge (holdArray t1 n c.f steps) c.f.bh c.f.pe 6 steps
            some (pushWriting t2 c.f n (8 * steps + 6) (passHandle c .p) (operandDrop n c.f .p) (m.2 ||| emptyFlag [l, r]) .nothing [h])
      | l, r => comboOut t c 1 l r e.mode)

/-- Whether a PE is the leader of its pair (R349). -/
def pairLeader (pe : Nat) : Bool := pe % 2 == 0

/-- The other PE of a pair (R349). -/
def pairOther (pe : Nat) : Nat := if pe % 2 = 0 then pe + 1 else pe - 1

/-- The opcode row of one side of a pair: a follower takes a trigger on p (R340). -/
def pairInfo (pe : Nat) (o : OpInfo) : OpInfo := if pairLeader pe then o else { o with kp := .trigger }

/-- Whether the pair link can take another message: fewer than two are held or on their way from followers already issued (R350). That the latter count is the model's
choice (log 154). -/
def linkRoom (s : State) (b pe : Nat) : Bool :=
  let c := clusterOf pe
  let going := (slotPes (slotOf pe)).filter fun q => clusterOf q == c
  let n := going.foldl (fun a q => a + ((getPE s b q).issued.filter fun i =>
    i.effects.any fun x => match x with | .pairSend _ _ => true | _ => false).length) 0
  ((sget [] s.links (b * 128 + c)).length + n) < 2

/-- Add an effect to the firing issued last on a PE. -/
def addEffect (s : State) (b pe : Nat) (fx : Effect) : State :=
  modPE s b pe fun p =>
    match p.issued.getLast? with
    | none => p
    | some i => { p with issued := p.issued.dropLast ++ [{ i with effects := i.effects ++ [fx] }] }

/-- What a pair firing's outcome of steps 1 to 6 adds: a follower sends BROKEN, a leader consumes a message for its frame (R350). -/
def pairMiss (c : Ctx) (s : State) : State :=
  if pairLeader c.f.pe then
    modPE s c.f.bh c.f.pe fun p => { p with discards := p.discards ++ [{ node := c.f.node, fp := c.f.fp, id := s.nextId - 1 }] }
  else addEffect s c.f.bh c.f.pe (.pairSend (pairOther c.f.pe) none)

/-- One side of a pair performs (R349, R350, R351). -/
def pairPerform (c : Ctx) (t : State) : Option State :=
  let b := c.f.bh
  let pe := c.f.pe
  let p := getPE t b pe
  let lead := pairLeader pe
  let (h, e) := accIn t c .p
  if !lead ∧ !linkRoom t b pe then none
  else
    let amode := if lead then e.mode else 0
    match tileIn t c .l, tileIn t c .r with
    | some l, some r =>
      match (if lead then mmaReason l r e false else tileReason l r) with
      | some reason => some (pairMiss c (comboFail t c reason (some l) (some r) amode))
      | none =>
        if !arrayFree t c.f then none
        else
          let steps := arraySteps l
          let t1 := charge (holdUnit t c.f unitArray (8 * steps)) b pe 6 steps
          let fl := emptyFlag [l, r]
          if lead then
            let start := (getSlot t b (slotOf pe)).resCycles + 8 * steps
            some (pushWriting t1 c.f c.n (8 * steps + 6) [] (operandDrops c.n c.f) fl (.pair (blockSums l r) (litBits c.n 0 12) start) [h])
          else
            let sums := if c.f.broken then none else some (blockSums l r)
            some (pushIssued t1 c.f c.n (8 * steps + 22) (toUsed c.n .null 0)
              (operandDrops c.n c.f ++ [.pairSend (pairOther pe) sums]) fl .nothing)
    | l, r => some (pairMiss c (comboFail t c 1 l r amode))

/-- MMA_PAIR (R349 to R351). A follower firing is not issuable while the link holds two messages, whatever its outcome. -/
def execMmaPair (n : Node) (s : State) : Outcome State Fault Refusal :=
  match opInfo 0x105 with
  | none => .next s
  | some o =>
    if !pairLeader s.cur.pe ∧ !linkRoom s s.cur.bh s.cur.pe then .next s
    else .next (fireAs s (pairInfo s.cur.pe o) n pairMiss pairPerform)

/-- The fields of a coordinate token (R352). -/
def coordCol (v : Word) : Nat := bits v.toNat 0 10
def coordLevel (v : Word) : Nat := bits v.toNat 62 2
def coordBad (v : Word) : Bool := coordLevel v == 3 || bits v.toNat 10 52 != 0

/-- The running state of an smma (R353). -/
structure SparseRun where
  i    : Nat
  t    : Nat
  bad  : Nat
  nnz  : List Nat
  sums : List (List Int)
  deriving DecidableEq, Repr

/-- One coordinate token of an smma (R353): `as` and `bs` are A's rows and B's columns, K their length. -/
def sparseStep (k : Nat) (as bs : List (List Int)) (r : SparseRun) (v : Word) : SparseRun :=
  if coordBad v then { r with bad := r.bad + 1 }
  else if coordLevel v = 0 then
    let col := coordCol v
    if k ≤ col ∨ k ≤ r.t ∨ 16 ≤ r.i then { r with bad := r.bad + 1 }
    else
      let a := (as.getD r.i []).getD r.t 0
      let row := ((r.sums.getD r.i []).zip bs).map fun x => x.1 + a * x.2.getD col 0
      { r with t := r.t + 1, nnz := r.nnz.set r.i (r.t + 1), sums := r.sums.set r.i row }
  else if coordLevel v = 1 then { r with i := r.i + 1, t := 0 }
  else r

/-- The run of an smma over its tokens (R353). -/
def sparseRun (l r : TileIn) (taken : List Word) : SparseRun :=
  let as := (List.range 16).map (aRow l)
  let bs := (List.range 16).map (bCol r)
  taken.foldl (sparseStep (laneCount r.t.fmt) as bs)
    { i := 0, t := 0, bad := 0, nnz := List.replicate 16 0, sums := List.replicate 16 (List.replicate 16 0) }

/-- Complete an smma issued in cycle `start` whose tile stop has been taken (R353): BOUNDS or the merge, and the time of its result (R336). -/
def smmaFinish (s : State) (it : Issued) (taken : List Word) (start : Nat) : State :=
  let f := it.f
  let c : Ctx := { f := f, n := it.node, code := 0x106, pol := firingPolicy s f }
  let upd (t : State) (es : List Emit) (fx : List Effect) (due : Nat) (fl : BitVec 9) : State :=
    modPE t f.bh f.pe fun p =>
      { p with issued := p.issued.map fun x =>
          if x.id = it.id then { x with emits := es, effects := x.effects ++ fx, due := due, flags := x.flags ||| fl, wait := .nothing } else x
               units := sput 0 p.units unitArray (due - 6), reads := p.reads ++ tileReads it.node f (due - 6) }
  match tileIn s c .l, tileIn s c .r with
  | some l, some r =>
    let run := sparseRun l r taken
    let steps := arraySteps l
    let cc := max 1 (ceilDiv (listMax run.nnz * laneWidth r.t.fmt) 512)
    let now := cycleOf s f.bh
    let due := max (start + steps * cc) (now + 1 + steps) + 6
    if run.bad ≠ 0 then
      let x := newError s (peSrc f.bh f.pe) 0x0C
      let e := errEmits it.node x.1
      upd x.2 e.1 e.2 due 0
    else
      let sums := (run.sums.zipIdx).map fun (row, i) => (row.zipIdx).map fun (v, j) =>
        { p := v, ep := blockExp l r i j, affected := affectedAt l r i j : CellSum }
      let m := mergeSums s f.bh f.pe (handleIdx (payloadAt f .p)) [sums.flatten]
      upd m.1 (passHandle c .p) [] due m.2
  | _, _ => s

/-- Hand one queued coordinate token of (node, fp) to the earliest issued taker: an smma that waits, or one whose outcome discards (R353). A tile stop
ends both, whatever its reserved bits. -/
def coordStep (s : State) (b pe node fp : Nat) : State :=
  let p := getPE s b pe
  let mine (x : Issued) : Bool := x.f.node == node && x.f.fp == fp && (match x.wait with | .coord _ _ => true | _ => false)
  match p.coord.find? fun q => q.node == node && q.fp == fp with
  | none => s
  | some q =>
    let p1 := { p with coord := p.coord.erase q }
    let run := p.issued.find? mine
    let dis := p.discards.find? fun d => d.node == node && d.fp == fp
    let dropOne (d : Discard) : State :=
      setPE s b pe (if coordLevel q.payload = 2 then { p1 with discards := p1.discards.erase d } else p1)
    match run, dis with
    | none, none => s
    | none, some d => dropOne d
    | some it, dd =>
      match dd.filter fun d => d.id < it.id with
      | some d => dropOne d
      | none =>
        match it.wait with
        | .coord taken start =>
          let tk := taken ++ [q.payload]
          if coordLevel q.payload = 2 then smmaFinish (setPE s b pe p1) it tk start
          else setPE s b pe { p1 with issued := p1.issued.map fun x => if x.id = it.id then { x with wait := .coord tk start } else x }
        | _ => s

/-- A BH cycle of a PE's queue of coordinate tokens: of each node and frame the array, or an outcome that discards, takes the oldest (R353). -/
def coordCycle (s : State) (b pe : Nat) : State :=
  let keys := (getPE s b pe).coord.foldl (fun a q => if a.contains (q.node, q.fp) then a else a ++ [(q.node, q.fp)]) []
  keys.foldl (fun t k => coordStep t b pe k.1 k.2) s

/-- What an smma's outcome of steps 1 to 6 adds: its tokens are discarded up to the tile stop (R353). -/
def smmaMiss (c : Ctx) (s : State) : State :=
  modPE s c.f.bh c.f.pe fun p => { p with discards := p.discards ++ [{ node := c.f.node, fp := c.f.fp, id := s.nextId - 1 }] }

/-- SMMA (R352, R353). -/
def execSmma (n : Node) (s : State) : Outcome State Fault Refusal :=
  .next (fireWith s 0x106 n smmaMiss fun c t =>
    let (h, e) := accIn t c .p
    match tileIn t c .l, tileIn t c .r with
    | some l, some r =>
      match mmaReason l r e false with
      | some reason => some (smmaMiss c (comboFail t c reason (some l) (some r) e.mode))
      | none =>
        if !arrayFree t c.f then none
        else
          let t1 := charge t c.f.bh c.f.pe 6 (arraySteps l)
          some (pushWriting t1 c.f n 0 [] (operandDrop n c.f .p) (emptyFlag [l, r]) (.coord [] (cycleOf t c.f.bh)) [h])
    | l, r => some (smmaMiss c (comboFail t c 1 l r e.mode)))

/-- ACC_DRAIN (R354). -/
def execAccDrain (n : Node) (s : State) : Outcome State Fault Refusal :=
  .next (fire s 0x107 n fun c t =>
    let p := getPE t c.f.bh c.f.pe
    let (h, e) := accIn t c .l
    let mode := litBits n 0 3
    if e.mode = 2 then comboOut t c 3 none none e.mode
    else
      match tidEntry t c.f.vf (litBits n 4 10), randomTile t c (mode == 5) with
      | some tid, some rt =>
        let xs := accEntries p e
        let rs := (List.range tid.rows).map fun i => (List.range 16).map fun j =>
          accConvert n.ty c.pol mode (uOf rt (16 * i + j)) (litBits n 3 1 == 1) (xs.getD (16 * i + j) ⟨0, 0, false⟩)
        let rows := rs.map fun r => packRow (tyWidth n.ty) (r.map (·.val))
        let fl := rs.flatten.foldl (fun a r => a ||| r.flags) (emptyFlag rt)
        tileIssue t c tid rows fl 20 unitAccPort 16 7 1 fun e => loadedMeta tid e rows
      | _, _ => comboOut t c 1 none none e.mode)

/-- Insert (key, index) pairs into list i of a set of lists. -/
def insertAll (k : Nat) (ls : List (List (Nat × Nat))) (i : Nat) (xs : List (Nat × Nat)) : List (List (Nat × Nat)) :=
  ls.set i (xs.foldl (listInsert k) (ls.getD i []))

/-- A list instruction that inserts into the list accumulator on port q (R345, R356 to R358): the pairs offered to each list. -/
def insertIssue (s : State) (c : Ctx) (q : Port) (lat : Nat) (offers : List (List (Nat × Nat))) (fl : BitVec 9) : Option State :=
  if !unitFree s c.f unitList then none
  else
    let (h, e) := accIn s c q
    let ls := (offers.zipIdx).foldl (fun a x => insertAll (e.km1 + 1) a x.2 x.1) (accLists (getPE s c.f.bh c.f.pe) e)
    let s1 := modPE s c.f.bh c.f.pe fun p => listsStore p h ls
    issueAcc (holdUnit s1 c.f unitList (lat - 4)) c lat (passHandle c q) [] fl [h]

/-- ACC_RL (R356). AMODE in the error of a failing one is the mode of l's accumulator, the model's choice (R338, log 152). -/
def execAccRl (n : Node) (s : State) : Outcome State Fault Refusal :=
  .next (fire s 0x108 n fun c t =>
    let p := getPE t c.f.bh c.f.pe
    let (hl, el) := accIn t c .l
    let (hp, ep) := accIn t c .p
    let r := tileIn t c .r
    if el.mode = 2 ∨ ep.mode ≠ 2 then comboOut t c 3 none r el.mode
    else if ep.keyType ≠ tyCode n.ty then comboOut t c 5 none r el.mode
    else
      match r with
      | none => comboOut t c 1 none none el.mode
      | some b =>
        let xs := accEntries p el
        let one (i j : Nat) : Option (Nat × Nat) × BitVec 9 :=
          let x := xs.getD (16 * i + j) ⟨0, 0, false⟩
          if x.nan then (none, flagNanDropped)
          else
            let v := accConvert n.ty c.pol (litBits n 0 3) 0 true x
            (some (keyOf n.ty v.val, (b.t.ibase.toNat + j) % 2 ^ 32), v.flags)
        let rs := (List.range 16).map fun i =>
          if el.pruned.getLsbD i then [] else (List.range (min 16 b.t.rows)).map fun j => one i j
        insertIssue t c .p (6 + max 1 b.t.rows) (rs.map fun r => r.filterMap (·.1)) (rs.flatten.foldl (fun a r => a ||| r.2) 0))

/-- The conversion of an element of format f to key type t (R357). -/
def keyConvert (t f : Ty) (pol : Policy) (mode x : Nat) : FloatRes :=
  if tyFloat f then
    if tyFloat t then floatToFloat t f pol mode 0 x
    else let r := floatToInt (tyMin t) (tyMax t) f pol mode 0 x; ⟨wrapNat (tyWidth t) r.1, r.2⟩
  else if tyFloat t then intToFloat t pol mode 0 (elemInt f x)
  else intElem t true (elemInt f x)

/-- RL_INS (R357). -/
def execRlIns (n : Node) (s : State) : Outcome State Fault Refusal :=
  .next (fire s 0x109 n fun c t =>
    let (h, e) := accIn t c .r
    let ncol := litBits n 0 10 + 1
    match tileIn t c .l with
    | none => comboOut t c 1 none none e.mode
    | some l =>
      if l.t.form ≠ 0 then comboOut t c 1 (some l) none e.mode
      else if rowElems l.t.fmt < ncol then comboOut t c 2 (some l) none e.mode
      else if e.mode ≠ 2 then comboOut t c 3 (some l) none e.mode
      else if e.keyType ≠ tyCode n.ty then comboOut t c 5 (some l) none e.mode
      else
        let one (i j : Nat) : Option (Nat × Nat) × BitVec 9 :=
          let x := elemOf l i j
          if tyFloat l.t.fmt && (floatDecode l.t.fmt x).isNan then (none, flagNanDropped)
          else
            let v := keyConvert n.ty l.t.fmt c.pol (litBits n 10 3) x
            let odd := flagIf (l.t.fmt = .t2 && x % 4 == 2) flagNoncanon
            (some (keyOf n.ty v.val, (l.t.ibase.toNat + j) % 2 ^ 32), v.flags ||| odd)
        let rs := (List.range l.t.rows).map fun i => (List.range ncol).map fun j => one i j
        insertIssue t c .r (6 + ncol) (rs.map fun r => r.filterMap (·.1))
          (rs.flatten.foldl (fun a r => a ||| r.2) (emptyFlag [l])))

/-- RL_MERGE (R358). -/
def execRlMerge (n : Node) (s : State) : Outcome State Fault Refusal :=
  .next (fire s 0x10A n fun c t =>
    let (h, e) := accIn t c .r
    match tileIn t c .l with
    | none => comboOut t c 1 none none e.mode
    | some l =>
      if l.t.form ≠ 3 then comboOut t c 1 (some l) none e.mode
      else if e.mode ≠ 2 then comboOut t c 3 (some l) none e.mode
      else if l.e.keyType ≠ tyCode n.ty ∨ e.keyType ≠ tyCode n.ty then comboOut t c 5 (some l) none e.mode
      else
        let offers := (l.rows.zipIdx).map fun (row, i) =>
          (List.range (l.e.count.getD i 0)).map fun j => (bits row (64 * j) 64, bits row (2048 + 32 * j) 32)
        insertIssue t c .r (6 + max 1 (listMax l.e.count)) offers (emptyFlag [l]))

/-- RL_OUT (R359). -/
def execRlOut (n : Node) (s : State) : Outcome State Fault Refusal :=
  .next (fire s 0x10B n fun c t =>
    let p := getPE t c.f.bh c.f.pe
    let (h, e) := accIn t c .l
    let part := litBits n 10 1
    if e.mode ≠ 2 then comboOut t c 3 none none e.mode
    else if e.keyType ≠ tyCode n.ty then comboOut t c 5 none none e.mode
    else
      match tidEntry t c.f.vf (litBits n 0 10) with
      | none => comboOut t c 1 none none e.mode
      | some tid =>
        let ls := (accLists p e).map fun l => (l.drop (32 * part)).take 32
        let rows := ls.map fun l =>
          packRow 64 ((List.range 32).map fun j => (l.getD j (0, 0)).1) +
          packRow 32 ((List.range 32).map fun j => (l.getD j (0, 0xFFFFFFFF)).2) * 2 ^ 2048
        tileIssue t c tid rows 0 20 unitList 16 7 1 fun x =>
          { x with tid := tid.tid, rexp := [], cexp := [], rflag := 0, cflag := 0, bound := 0, part := part, km1 := e.km1,
                   keyType := e.keyType, count := ls.map List.length })

/-- −Inf or the least value of a key type, as a pattern (R360). -/
def leastOf (t : Ty) : Nat :=
  if tyFloat t then 2 ^ (tyWidth t - 1) + (floatFmt t).maxMag + 1 else wrapNat (tyWidth t) (tyMin t)

/-- RL_THR (R360). -/
def execRlThr (n : Node) (s : State) : Outcome State Fault Refusal :=
  .next (fire s 0x10C n fun c t =>
    let p := getPE t c.f.bh c.f.pe
    let (h, e) := accIn t c .l
    if e.mode ≠ 2 then comboOut t c 3 none none e.mode
    else if e.keyType ≠ tyCode n.ty then comboOut t c 5 none none e.mode
    else
      let k := e.km1 + 1
      let l := (accLists p e).getD (litBits n 0 4) []
      let full := l.length == k
      let v : Word :=
        if litBits n 4 1 = 1 then word (listTheta k l)
        else extend n.ty (if full then valOfKey n.ty (listTheta k l) else leastOf n.ty)
      issueAcc t c 2 (toUsed n .value v) [] 0 [])

end Sys2Proof.Machine
end

