-- ==== Sys2Proof/Machine/Requests.lean ====
section
/-! DEFINITION. Requests to the memory system (R29 to R39, R112 to R120, R126, R142, R147, R162, R167, R171 to R173, R407, R409): how they are made,
translated, parked, carried in sector requests, performed and answered. -/

namespace Sys2Proof.Machine

/-- The request of an id. -/
def reqAt (s : State) (id : Nat) : Option Req := s.reqs.find? fun r => r.id == id

/-- Replace a request. -/
def reqPut (s : State) (r : Req) : State := { s with reqs := s.reqs.map fun x => if x.id == r.id then r else x }

/-- Take a request away. -/
def reqDel (s : State) (id : Nat) : State := { s with reqs := s.reqs.filter fun x => x.id != id }

/-- The pending store of an id. -/
def storeAt (s : State) (sid : Nat) : Option PStore := s.stores.find? fun x => x.sid == sid

/-- Replace a pending store. -/
def storePut (s : State) (p : PStore) : State := { s with stores := s.stores.map fun x => if x.sid == p.sid then p else x }

/-- A request of a firing for bytes [va, va + len): the fields that do not depend on its kind. -/
def reqFor (f : Firing) (agent : Agent) (kind va len : Nat) (owner : Owner) : Req :=
  { id := 0, ord := 0, bh := f.bh, agent := agent, kind := kind, node := f.node, vf := f.vf, lid := f.lid, prio := f.prio, task := f.task, va := va % 2 ^ 64, len := len,
    write := false, data := [], mask := [], atom := none, supply := [], got := [], mode := 0, cfg := f.cfg, phase := 0, heldFor := none,
    waitFor := [], owner := owner, st := .atWell, parts := [], pieces := [], err := none, flags := 0 }

/-- Send a request to the well of its agent's bulkhead (R29): split at page boundaries (R30). -/
def sendReq (s : State) (r : Req) : State :=
  let parts := (splitPages (r.len / 2 ^ 14 + 2) r.va 0 r.len).map fun p => { va := p.1, off := p.2.1, len := p.2.2, res := none, leaf := 0 : ReqPart }
  newId { s with reqs := s.reqs ++ [{ r with id := s.nextId, ord := s.nextId, parts := parts }] }

/-- Whether a bulkhead's clock runs and it is in RUN (R410, R412). -/
def bhRuns (s : State) (b : Nat) : Bool := bhState s b == 0 && regBits s b 0x20010 10 1 == 1

/-- Whether a request writes or holds an atomic, and its gate kind (R407). -/
def reqGateKind (r : Req) : Nat := if r.atom.isSome then 2 else if r.write then 1 else 0

/-- Whether a piece's write has been accepted at its point of coherence (R171): a HOSTCACHE write then waits for the host alone. -/
def pieceAccepted (p : Piece) : Bool := p.stage == .done || p.stage == .reply || (p.stage == .host && regionOf p.pa == .hbm)

/-- Whether a piece is settled (R171). Below system scope nothing is waited for in the host or a spoke window, nor the host's answer for a HOSTCACHE page;
an atomic, a reduction or a join is settled when it is performed. -/
def pieceSettled (sys atomic : Bool) (p : Piece) : Bool :=
  match regionOf p.pa with
  | .host => p.stage == .done || !sys
  | .spoke => p.stage == .done || !sys
  | _ => p.stage == .done || p.stage == .reply || (p.stage == .host && (!sys || atomic))

/-- Whether what a release waits for is settled: the key is twice the request's id, plus one at system scope. A parked request is not on its
way (R171). -/
def waitClear (s : State) (key : Nat) : Bool :=
  match reqAt s (key / 2) with
  | none => true
  | some r =>
    match r.st with
    | .parked _ _ => true
    | .frozen => true
    | .finished => true
    | .moving => r.pieces.all (pieceSettled (key % 2 == 1) r.atom.isSome)
    | _ => false

/-- The writes that a release or an acquire at a scope waits for (R171, R173, log 12): writes already on their way, published or of one request, of its own
VF; and what others have published or completed. -/
def releaseSet (s : State) (vf scope : Nat) : List Nat :=
  let covered (r : Req) : Bool :=
    match r.owner with
    | .cmd cid _ => r.vf == vf || !(s.cmds.any fun c => c.id == cid)
    | .pub _ => true
    | .red => r.vf == vf && r.atom.isNone
    | _ => false
  let key (r : Req) : Nat := 2 * r.id + b2n (scope == 7)
  ((s.reqs.filter fun r => r.write && covered r).map key).filter fun k => !waitClear s k

/-- Whether a group's publications are complete (R160, R161): the writes, and what their release covers. -/
def published (s : State) (cfg : Nat) : Bool :=
  match cfgAt s cfg with
  | some g => g.keys.all (waitClear s)
  | none => true

/-- Whether a request may be performed: a load held back by R160 has been released, and what it waits for is settled. -/
def reqGo (s : State) (r : Req) : Bool :=
  r.waitFor.all (waitClear s) &&
  (match r.heldFor with
   | none => true
   | some (c, p) => match cfgAt s c with | some g => p < g.boundary && published s c | none => true)

/-- Whether a store counts as pending: translated, or on its way through translation and not parked or refused (R160, R167). -/
def storeLive (s : State) (p : PStore) : Bool :=
  !p.parts.isEmpty ||
  s.reqs.any fun r => r.owner == .store p.sid && (r.st == .atWell || r.st == .walking)

/-- Whether store `a` ranks above store `b` of one PE: a later phase does (R168); in one phase, by wave and LSID in mode 1, then by issue order (R163). -/
def storeAbove (mode : Nat) (a b : PStore) : Bool :=
  decide (b.phase < a.phase) || (a.phase == b.phase &&
  (if mode = 1 then
    decide (b.wave < a.wave) || (a.wave == b.wave && (decide (b.lsid < a.lsid) || (a.lsid == b.lsid && decide (b.sid < a.sid))))
  else decide (b.sid < a.sid)))

/-- The highest-ranking of a list of stores. -/
def storeBest (mode : Nat) : List PStore → Option PStore
  | [] => none
  | p :: ps => match storeBest mode ps with | none => some p | some q => if storeAbove mode p q then some p else some q

/-- The byte that a pending store holds for a virtual address. -/
def storeByteVa (p : PStore) (va : Nat) : Option Byte := p.bytes[(va + 2 ^ 64 - p.va) % 2 ^ 64]?

/-- The byte that a pending store holds for a physical address. -/
def storeBytePa (p : PStore) (pa : Nat) : Option Byte :=
  (p.parts.find? fun q => decide (q.2.1 ≤ pa) && decide (pa < q.2.1 + q.2.2.1)).bind fun q => p.bytes[q.1 + (pa - q.2.1)]?

/-- The stores of a PE that may supply one of its loads (R162): those pending in its phase, issued before it; one whose publication is on its way still counts
(R161, R165), one published early no longer (R168). A store of an earlier phase never does. -/
def supplyStores (s : State) (b pe cfg phase limit : Nat) : List PStore :=
  s.stores.filter fun p => p.bh == b && p.pe == pe && p.cfg == cfg && p.phase == phase && decide (p.sid < limit) && (!p.early || p.leaving.isSome) && storeLive s p

/-- Bytes of a load supplied by its PE's own pending stores, keyed by offset (R162): `get` reads a store's byte at an offset. -/
def supplyMap (mode : Nat) (sts : List PStore) (len : Nat) (get : PStore → Nat → Option Byte) : SMap Byte :=
  if sts.isEmpty then []
  else (List.range len).filterMap fun i => ((storeBest mode (sts.filter fun p => (get p i).isSome)).bind fun p => get p i).map fun x => (i, x)

/-- Whether a PE matches its VF's pending stores by physical address (R168 item 3). -/
def supplyPhys (s : State) (b pe vf : Nat) : Bool := (ctxPE s b pe vf).phys

/-- The survivor mode of a group (R99, R163). -/
def groupMode (s : State) (cfg : Nat) : Nat := match cfgAt s cfg with | some c => c.mode | none => 0

/-- The physical address of byte i of a request, once its part is translated. -/
def reqPa (r : Req) (i : Nat) : Option Nat :=
  (r.parts.find? fun p => decide (p.off ≤ i) && decide (i < p.off + p.len)).bind fun p =>
    match p.res with | some (.ok pa _ _ _) => some (pa + (i - p.off)) | _ => none

/-- What a node load's own PE supplies of it at this moment (R162), by virtual or by physical address (R168). -/
def supplyNow (s : State) (r : Req) (id : Nat) : SMap Byte :=
  match r.agent with
  | .pe b pe =>
    if r.kind ≠ 0 ∨ r.write ∨ r.atom.isSome then []
    else
      let sts := supplyStores s b pe r.cfg r.phase id
      let mode := groupMode s r.cfg
      if supplyPhys s b pe r.vf then supplyMap mode sts r.len fun p i => (reqPa r i).bind (storeBytePa p)
      else supplyMap mode sts r.len fun p i => storeByteVa p (r.va + i)
  | _ => []

/-- The supply of bytes [off, off + len) of a load as it is performed: stores that have become pending since it was judged count, stores that have been
published no longer do (R162). -/
def resupply (s : State) (r : Req) (off len : Nat) : Req :=
  let inside (i : Nat) : Bool := decide (off ≤ i) && decide (i < off + len)
  let fresh := (supplyNow s r r.id).filter fun e => inside e.1
  { r with supply := fresh.foldl (fun m e => sins m e.1 e.2) (r.supply.filter fun e => !inside e.1) }

/-- A park id that is not open, drawn freely (R36), with the state after the draw. -/
def newParkId (s : State) (b : Nat) : Nat × State :=
  let used := (getBulk s b).parks.map (·.1)
  let free := (List.range 4096).filter fun i => !used.contains i
  let d := draw s
  (free.getD (d.1 % max 1 free.length) 0, d.2)

/-- Park entries in use in a bulkhead: of the shared part, and of a VF's reserve (R31, R37). -/
def parkShared (s : State) (b : Nat) : Nat :=
  (s.reqs.filter fun r => r.bh == b && (match r.st with | .parked _ res => !res | _ => false)).length
def parkReserve (s : State) (b vf : Nat) : Nat :=
  (s.reqs.filter fun r => r.bh == b && r.vf == vf && (match r.st with | .parked _ res => res | _ => false)).length

/-- The VFs that appear in the quantum tables of a bulkhead. -/
def tableVfs (s : State) (b : Nat) : List Nat := (List.range 384).filter fun v => inTables s b v

/-- The payload of R36. That it holds no LSID, for which R36 has no field, is the model's choice (R164, log 148). -/
def faultPayload (r : Req) (addr level reason pid : Nat) : Nat :=
  addr % 2 ^ 47 + b2n (r.write || r.atom.isSome) * 2 ^ 47 + r.kind * 2 ^ 48 + level % 4 * 2 ^ 52 + reason * 2 ^ 56 +
  pid * 2 ^ 64 + r.bh * 2 ^ 76

/-- Park a request on a translation fault (R36), behind those already parked, or refuse it for want of an entry (R37). -/
def parkReq (s : State) (r : Req) (reason level addr : Nat) : State :=
  let vfs := (tableVfs s r.bh).length
  let sharedOk := decide (parkShared s r.bh < 4096 - 8 * vfs)
  let resOk := inTables s r.bh r.vf && decide (parkReserve s r.bh r.vf < 8)
  if !sharedOk && !resOk then reqPut s { r with st := .refused (cycleOf s r.bh + 64) }
  else
    let park (t : State) (pid : Nat) : State := newId (reqPut t { r with st := .parked pid (!sharedOk), ord := t.nextId })
    match (getBulk s r.bh).parks.find? fun p => p.2.1 == r.vf && p.2.2 == addr / 2 ^ 14 with
    | some p => park s p.1
    | none =>
      let d := newParkId s r.bh
      let s1 := modBulk d.2 r.bh fun x => { x with parks := x.parks ++ [(d.1, r.vf, addr / 2 ^ 14)] }
      postEvent (park s1 d.1) (wellSrc r.bh) r.bh (some r.vf) (some r.lid) 0x02 (faultPayload r addr level reason d.1)

/-- The fetch tag that a request belongs to: its own, or that of the tst whose row it stores. -/
def reqTag (s : State) (r : Req) : Option Nat :=
  match r.owner with
  | .tag id => some id
  | .store sid => (storeAt s sid).bind fun x => x.tag
  | _ => none

/-- A tag that awaits replies is PARKED while a request of it is parked, and ISSUED otherwise (R118). -/
def tagFollow (s : State) (r : Req) (tag : Option Nat) : State :=
  match r.agent, tag with
  | .pe b i, some id =>
    let parked := s.reqs.any fun q => (match q.st with | .parked _ _ => true | _ => false) && q.agent == r.agent && q.vf == r.vf && reqTag s q == some id
    modCtx s b i r.vf fun p => { p with fetch := p.fetch.map fun t =>
      if t.id == id && t.st != .replied then { t with st := if parked then .parked else .issued } else t }
  | _, _ => s

/-- One sector request. -/
def pieceOf (b off len pa : Nat) (comp hostc bare : Bool) : Piece :=
  { key := 0, off := off, len := len, pa := pa, comp := comp, hostc := hostc, stage := .waiting, reached := b, seq := 0, slotRes := false, inRes := false,
    bare := bare, ans := none, err := none }

/-- Cut [pa, pa + len) at multiples of a chunk: sectors (R112), or granules for an element in a store window. -/
def piecesOf (b : Nat) (chunk : Nat) (comp hostc : Bool) : Nat → Nat → Nat → Nat → List Piece
  | 0, _, _, _ => []
  | k + 1, off, pa, len =>
    if len = 0 then []
    else
      let n := min len (chunk - pa % chunk)
      pieceOf b off n pa comp hostc false :: piecesOf b chunk comp hostc k (off + n) (pa + n) (len - n)

/-- The sector requests of an access to bytes that lie in one block (R112, R142, R144, R145): those that carry its bytes, and one without bytes for every other
sector that the well reads or writes for it. What a well decodes as a whole comes with the first. -/
def blockPieces (s : State) (b : Nat) (write comp hostc : Bool) (off pa len : Nat) : List Piece :=
  let blk := pa / 2048
  let secs := accessSectors s write comp pa len
  let own := piecesOf b 256 comp hostc 9 off pa len
  let extra (k : Nat) : Piece := pieceOf b off 0 (blk * 2048 + 256 * k) comp hostc false
  if write || blockMeta s blk == mdRaw then
    ((secs.filter fun k => !(touchedSectors pa len).contains k).map extra) ++ own
  else
    match secs with
    | [] => [pieceOf b off len pa comp hostc true]
    | _ :: ks => pieceOf b off len pa comp hostc false :: ks.map extra

/-- Whether every byte of a piece is supplied (R162). -/
def pieceSupplied (r : Req) (p : Piece) : Bool := (List.range p.len).all fun i => r.supply.any fun e => e.1 == p.off + i

/-- Whether byte i of a request has been answered well. -/
def byteGot (r : Req) (i : Nat) : Bool :=
  r.pieces.any fun q => q.stage == .done && q.err.isNone && decide (q.off ≤ i) && decide (i < q.off + q.len)

/-- How an access outside HBM is cut: in sectors (R112), but in granules in a window of its own bulkhead, and for an element in any window, since each granule
accepts its share separately (R157, R186). What crosses to another bulkhead's window is cut in granules there. -/
def pieceChunk (b pa len : Nat) : Nat := if regionOf pa = .window ∧ (winBh pa = b ∨ len ≤ 8) then 16 else 256

/-- The pieces of the parts of a request (R112), block by block in address order. -/
def reqPieces (s : State) (r : Req) : List Piece :=
  let part (p : ReqPart) : List Piece :=
    match p.res with
    | some (.ok pa comp hostc _) =>
      if regionOf pa == .hbm && r.atom.isNone then
        ((blockSpans pa p.len).map fun x => blockPieces s r.bh r.write comp hostc (p.off + (x.1 - pa)) x.1 x.2).flatten
      else piecesOf r.bh (pieceChunk r.bh pa r.len) comp hostc (p.len / 16 + 2) p.off pa p.len
    | _ => []
  (r.parts.map part).flatten

/-- The requests whose access to a block is one read with that of a request (R142, R147): the rows of one pump.get. -/
def readTogether (s : State) (r : Req) : List Req :=
  match r.owner with
  | .cmd cid _ =>
    if s.cmds.any fun c => c.id == cid && c.code == 0x149 then s.reqs.filter fun q => match q.owner with | .cmd x _ => x == cid | _ => false else [r]
  | _ => [r]

/-- The pieces that a request's access to a block answers: those not answered yet. -/
def blockGroup (r : Req) (blk : Nat) : List Piece :=
  r.pieces.filter fun q => regionOf q.pa == .hbm && q.pa / 2048 == blk && q.ans.isNone && q.err.isNone && q.stage != .done

/-- A piece of a read takes no slot, or is not needed, where another row of its pump.get reads that sector, or the whole block, for it (R142). -/
def sharedPiece (s : State) (r : Req) (p : Piece) : Option Piece :=
  if regionOf p.pa ≠ .hbm ∨ r.write then some p
  else
    let others := (((readTogether s r).filter fun q => q.id != r.id && q.st == .moving).map fun q => blockGroup q (p.pa / 2048)).flatten
    if others.isEmpty then some p
    else if p.len = 0 then none
    else some { p with bare := p.bare || blockMeta s (p.pa / 2048) != mdRaw || others.any fun q => q.pa / 256 == p.pa / 256 }

/-- The pieces that a request still needs: those with a byte neither supplied nor answered, with the others of their blocks. -/
def freshPieces (s : State) (r : Req) : List Piece :=
  let ps := reqPieces s r
  let need (p : Piece) : Bool := (List.range p.len).any fun i => !(r.supply.any fun e => e.1 == p.off + i) && !byteGot r (p.off + i)
  (ps.filter fun p => need p || (p.len == 0 && ps.any fun q => need q && q.pa / 2048 == p.pa / 2048)).filterMap (sharedPiece s r)

/-- Give every piece of a list its number. -/
def numberPieces (ps : List Piece) : List Piece := ps.zipIdx.map fun x => { x.1 with key := x.2 }

/-- Where the bytes of an engine or tld request land: the PE, the tile's entry, its row; none for a request whose bytes stay with it. A gather's row is placed
as it is read (R207), a plane tile when its command completes (R191). -/
def landing (s : State) (r : Req) : Option (Nat × Nat × HEntry × Nat) :=
  let plane (e : HEntry) : Bool := match tidEntry s r.vf e.tid with | some t => t.form == 2 | none => true
  match r.owner, r.agent with
  | .tag id, .pe b i =>
    let p := ctxPE s b i r.vf
    match p.fetch.find? fun t => t.id == id with
    | some t => if t.code = 0x144 ∧ (handleAt p t.hidx).kind = .tile then some (b, i, handleAt p t.hidx, 0) else none
    | none => none
  | .cmd cid row, _ =>
    match s.cmds.find? fun c => c.id == cid with
    | some c =>
      let e := handleAt (ctxPE s c.f.bh c.f.pe c.f.vf) c.hidx
      if (c.code = 0x14D ∨ (c.code = 0x149 ∧ !plane e)) ∧ e.kind = .tile then some (c.f.bh, c.f.pe, e, row) else none
    | none => none
  | _, _ => none

/-- Write a granule of a tile into the save area of a VF that is away, with its full/empty bit (R39, R430). -/
def landAway (s : State) (b pe vf off : Nat) (bs : List Byte) : State :=
  let s0 := saveMeet s vf b (slotOf pe)
  let w := saveWord s0 vf b (slotOf pe)
  if !bitAt w 0 then s0
  else
    let a := peArea (saveBlock w) pe
    let fb := a + 0xC400 + off / 128
    let s1 := ownMeet (ownPut s0 vf (a + 0x80000 + off) bs) vf true fb 1
    ownPut s1 vf fb [BitVec.ofNat 8 (Nat.lor (ownByte s1 fb).toNat (2 ^ (off / 16 % 8)))]

/-- A byte of a read: supplied (R162), or returned. -/
def reqByte (r : Req) (i : Nat) : Byte := match r.supply.find? fun e => e.1 == i with | some e => e.2 | none => sget 0 r.got i

/-- The bytes a finished read returned: supplied ones first (R162). -/
def reqBytes (r : Req) : List Byte := (List.range r.len).map (reqByte r)

/-- Whether byte i of a read is there: supplied, or returned and not withheld (R130). -/
def byteThere (r : Req) (i : Nat) : Bool :=
  (r.supply.any fun e => e.1 == i) ||
  r.pieces.any fun q => q.stage == .done && decide (q.off ≤ i) && decide (i < q.off + q.len) &&
    (match q.ans with | some d => !d.bad.contains (i - q.off) | none => q.err.isNone)

/-- Write the granules that bytes [off, off + len) of a request complete into the tile it fills, each whole and set full (R57, R66, R119). While the VF is
switched out they go to its save area (R39). -/
def landBytes (s : State) (r : Req) (off len : Nat) : State :=
  match landing s r with
  | none => s
  | some (b, i, e, row) =>
    let gs := if len = 0 then [] else (List.range ((off + len - 1) / 16 + 1 - off / 16)).map fun k => off / 16 + k
    (gs.filter fun g => (List.range 16).all fun k => byteThere r (16 * g + k)).foldl (fun t g =>
      let bs := (List.range 16).map fun k => reqByte r (16 * g + k)
      let o := rowOffset e.pages (row + g / 32) + 16 * g % 512
      if standsIn t b i r.vf then modPE t b i fun p => tileWrite p o bs else landAway t b i r.vf o bs) s

/-- The first part that faults, in the order of the request's bytes, also where the access wraps past 2^64 (R30, R184, log 125). -/
def firstBad (r : Req) : Option (Nat × Nat × Nat) :=
  r.parts.findSome? fun p => match p.res with | some (.bad a b c) => some (a, b, c) | _ => none

/-- Cistern entries of a store of n bytes at an address (R165). -/
def cistEntries (va n : Nat) : Nat := (va % 16 + n + 15) / 16

/-- Entries that a pending store holds. -/
def storeEntries (p : PStore) : Nat := cistEntries p.va p.bytes.length

/-- Entries go back to the cistern (R165), which also ends the failing of stores under CFAULT (R166). -/
def entriesBack (s : State) (p : PStore) : State :=
  let s1 := budgetMove s p.payer .cist 0 (storeEntries p)
  modBulk s1 p.bh fun x =>
    { x with cfMode := x.cfMode.filter (fun e => e.1 != p.vf)
             cfPosted := x.cfPosted.filter fun g => match cfgAt s g with | some c => c.vf != p.vf | none => false }

/-- Remove pending stores and return their entries. -/
def dropStores (s : State) (gone : PStore → Bool) : State :=
  (s.stores.filter gone).foldl entriesBack { s with stores := s.stores.filter fun p => !gone p }

/-- A protection fault (R35): the event, the freeze or the halt; the access is not performed. -/
def protFault (s : State) (r : Req) (reason level addr : Nat) : State :=
  let fd := fdomOf s r.lid r.task
  let m := agentMaster r.agent
  let s1 := takeFault s m.1 m.2 (wellSrc r.bh) r.vf r.lid r.task (.protection r.id) 0x01 (faultPayload r addr level reason 0)
  let s2 := if fd then reqDel s1 r.id else reqPut s1 { r with st := .frozen }
  match r.owner with
  | .store sid => if fd then dropStores s2 fun p => p.sid == sid else s2
  | _ => s2

/-- Judge a request all of whose parts have been resolved (R30, R35): it parks, faults, or goes on; a node store becomes pending (R167). -/
def reqJudge (s : State) (r : Req) : State :=
  let tag := reqTag s r
  match firstBad r with
  | some (reason, level, addr) =>
    if reason < 0x10 then tagFollow (parkReq s r reason level addr) r tag else protFault s r reason level addr
  | none =>
    match r.owner with
    | .store sid =>
      let parts := r.parts.filterMap fun p => match p.res with
        | some (.ok pa comp hostc _) => some (p.off, pa, p.len, comp, hostc)
        | _ => none
      let s1 := { s with stores := s.stores.map fun p => if p.sid == sid then { p with parts := parts } else p }
      tagFollow (reqDel s1 r.id) r tag
    | _ =>
      let r1 := resupply s r 0 r.len
      let ps := numberPieces (r1.pieces ++ freshPieces s r1)
      let r2 : Req := { r1 with pieces := ps, st := if ps.all fun p => p.stage == .done then .finished else .moving }
      landBytes (drawn (tagFollow (reqPut s r2) r tag)) r2 0 (if r2.supply.isEmpty then 0 else r2.len)

/-- The level of the leaf through which a part is resolved at once, 0 for none. -/
def leafNow (s : State) (b vf va : Nat) : Nat := match tlbHit s b vf va with | some t => t.level | none => 0

/-- Whether an earlier request of the same agent that shares a page has not left translation (R32). -/
def behind (s : State) (r : Req) : Bool :=
  s.reqs.any fun q => q.ord < r.ord && q.agent == r.agent && q.bh == r.bh && (q.st == .atWell || q.st == .walking) &&
    q.parts.any fun p => r.parts.any fun x => p.va / 2 ^ 14 == x.va / 2 ^ 14

/-- The pages of a request that its well knows nothing of and does not walk for yet, as the miss-merge table names them (R31). -/
def missing (s : State) (r : Req) : List (Nat × Nat) :=
  (r.parts.filter fun p => (partNow s r.bh r.vf r.task r.write r.atom.isSome p.va p.len).isNone).foldl (fun m p =>
    let x := (r.vf, p.va / 2 ^ 14)
    if m.contains x || (getBulk s r.bh).mmt.contains x then m else m ++ [x]) []

/-- The well takes a request (R29, R31, R32): what it knows at once is resolved, its other pages join the miss-merge table. One that needs a new entry waits
while there is no room, and behind those that arrived before it. -/
def wellTake (s : State) (r : Req) : State :=
  let new := missing s r
  let waits := s.reqs.any fun q => q.bh == r.bh && q.st == .atWell && q.ord < r.ord && !behind s q && !(missing s q).isEmpty
  if behind s r then s
  else if !new.isEmpty ∧ (1024 < (getBulk s r.bh).mmt.length + new.length ∨ waits) then s
  else
    let one (p : ReqPart) : ReqPart :=
      match partNow s r.bh r.vf r.task r.write r.atom.isSome p.va p.len with
      | some x => { p with res := some x, leaf := leafNow s r.bh r.vf p.va }
      | none => { p with res := none, leaf := 0 }
    let r1 : Req := { r with parts := r.parts.map one }
    if r1.parts.all fun p => p.res.isSome then reqJudge s r1
    else reqPut (modBulk s r.bh fun x => { x with mmt := x.mmt ++ new }) { r1 with st := .walking }

/-- Present a request to the well again, behind those that wait there, to be translated afresh (R37, R38, R418). Pieces already performed stay. -/
def reqAgain (s : State) (r : Req) : State :=
  newId (reqPut s { r with
    st := .atWell, ord := s.nextId, parts := r.parts.map (fun p => { p with res := none, leaf := 0 }),
    pieces := r.pieces.filter fun p => p.stage == .done && p.err.isNone })

/-- Sector slots in use in a bulkhead, of the shared part and of a VF's reserve (R113). -/
def slotHeld (p : Piece) : Bool :=
  regionOf p.pa == .hbm && !p.bare &&
  (match p.stage with | .slotted => true | .arrived => true | .inbound => true | .queued => true | .host => true | .reply => true | _ => false)
def slotsShared (s : State) (b : Nat) : Nat :=
  s.reqs.foldl (fun a r => if r.bh = b then a + (r.pieces.filter fun p => slotHeld p && !p.slotRes).length else a) 0
def slotsReserve (s : State) (b vf : Nat) : Nat :=
  s.reqs.foldl (fun a r => if r.bh = b ∧ r.vf = vf then a + (r.pieces.filter fun p => slotHeld p && p.slotRes).length else a) 0

/-- The granules of a request that wait in a window of bulkhead b came in as one request there: the last of them stands for its inbound entry (R114, R157). -/
def windowStands (b : Nat) (r : Req) (p : Piece) : Bool :=
  p.stage == .window && !(r.pieces.any fun q => q.stage == .window && q.reached == b && q.pa / 256 == p.pa / 256 && decide (p.key < q.key))

/-- Inbound entries in use at a bulkhead's well, of the shared part and of a source's reserve (R114). -/
def inboundHeld (b : Nat) (r : Req) (p : Piece) : Bool :=
  (p.stage == .inbound || p.stage == .queued || windowStands b r p) && p.reached == b
def inboundShared (s : State) (b : Nat) : Nat :=
  s.reqs.foldl (fun a r => if r.bh ≠ b then a + (r.pieces.filter fun p => inboundHeld b r p && !p.inRes).length else a) 0
def inboundReserve (s : State) (b x : Nat) : Nat :=
  s.reqs.foldl (fun a r => if r.bh = x then a + (r.pieces.filter fun p => inboundHeld b r p && p.inRes).length else a) 0

/-- Operations waiting in the queue of a sparse-update unit (R126). -/
def unitQueue (s : State) (b ch : Nat) : List (Req × Piece) :=
  s.reqs.foldl (fun a r => a ++ ((r.pieces.filter fun p => p.stage == .queued && stackOf p.pa == b && channelOf p.pa == ch).map fun p => (r, p))) []

/-- Every sector slot in use in a bulkhead, also one of the reserve of a VF that has left the tables since (R133). -/
def slotsUsed (s : State) (b : Nat) : Nat :=
  s.reqs.foldl (fun a r => if r.bh = b then a + (r.pieces.filter slotHeld).length else a) 0

/-- WSTAT follows the slots and inbound entries (R133). -/
def wstatRefresh (s : State) (b : Nat) : State :=
  let inuse := slotsUsed s b
  let inb := inboundShared s b + ((List.range 12).map (inboundReserve s b)).foldl (· + ·) 0
  let peak := max (regBits s b 0x11000 16 15) inuse
  regPut s b 0x11000 (word (inuse % 2 ^ 15 + peak % 2 ^ 15 * 2 ^ 16 + inb % 2 ^ 12 * 2 ^ 32))

/-- Replace a piece of a request. -/
def piecePut (s : State) (r : Req) (p : Piece) : State :=
  reqPut s { r with pieces := r.pieces.map fun q => if q.key == p.key then p else q }

/-- The k-th piece of a request. -/
def pieceAt (r : Req) (k : Nat) : Option Piece := r.pieces[k]?

/-- The bulkhead that holds a physical address, for addresses of stacks and windows. -/
def targetBh (pa : Nat) : Nat := if regionOf pa = .window then winBh pa else stackOf pa

/-- A piece's answer reaches the requester: its slot is free (R112), its bytes land, and a request whose last piece this was is finished.
`bad` lists the offsets within the piece whose bytes are withheld (R130). -/
def pieceDone (s : State) (r : Req) (p : Piece) (bs : List Byte) (bad : List Nat) (err : Option Word) (fl : BitVec 9) : State :=
  let good := ((List.range bs.length).zip bs).filter fun x => !bad.contains x.1
  let ans : Option Done := if err.isSome ∧ bs.isEmpty then none else some { bytes := [], bad := bad, err := err, flags := fl }
  let r1 : Req := { r with
    pieces := (r.pieces.map fun q => if q.key == p.key then { q with stage := .done, err := err, ans := ans } else q),
    got := (good.foldl (fun a x => sput (0 : Byte) a (p.off + x.1) x.2) r.got),
    flags := (r.flags ||| fl),
    err := match r.err with | some e => some e | none => err }
  let r2 : Req := { r1 with st := if r1.pieces.all fun q => q.stage == .done then .finished else r1.st }
  landBytes (reqPut s r2) r2 p.off bs.length

/-- The POISON error of a reader (R130): the well's for a node load, the engine's own for an engine (R203). -/
def poisonSrc (r : Req) (b : Nat) : Nat :=
  match r.owner with
  | .cmd _ _ => agentSrc r.agent
  | _ => wellSrc b

/-- Whether an error of a request ends in no token (R167, R173, R204): that of a publication, and of a command that has sent its completion token. -/
def errSilent (s : State) (r : Req) : Bool :=
  match r.owner with
  | .pub _ => true
  | .cmd cid _ => !(s.cmds.any fun c => c.id == cid)
  | _ => false

/-- The error of a request made by a source: only one that a token carries takes a number (R79). -/
def newReqError (s : State) (r : Req) (src code : Nat) : Word × State := if errSilent s r then (word code, s) else newError s src code

/-- The bytes that pieces of a write hold for [lo, lo + n), and which of them are written. -/
def groupBytes (r : Req) (g : List Piece) (lo n : Nat) : List (Byte × Bool) :=
  (List.range n).map fun i =>
    match g.find? fun q => decide (q.pa ≤ lo + i) && decide (lo + i < q.pa + q.len) with
    | some q => (r.data.getD (q.off + (lo + i - q.pa)) 0, maskAt r.mask (q.off + (lo + i - q.pa)))
    | none => (0, false)

/-- A gathered write of published stores that a block known to be poisoned refuses posts one ECC_POISON event, at the block's base (R151, log 126). -/
def pubPoison (s : State) (r : Req) (blk : Nat) : State :=
  match r.owner with
  | .pub _ => postEvent s (wellSrc (blk / 2 ^ 25)) (blk / 2 ^ 25) (some r.vf) none 0x04 (blk * 2048 % 2 ^ 36)
  | _ => s

/-- The pieces of a read in a block have their answers (R130): one whose codewords are lost withholds their bytes, with an error of its request. -/
def answerRead (s : State) (r0 : Req) (blk : Nat) : State :=
  let g := blockGroup r0 blk
  let gl := g.filter fun q => 0 < q.len
  let r := gl.foldl (fun a q => resupply s a q.off q.len) r0
  let lost := gl.any fun q => !(lostBytes s q.pa q.len).isEmpty
  let e : Option Word × State := if lost then (let x := newReqError s r (poisonSrc r (blk / 2 ^ 25)) 0x08; (some x.1, x.2)) else (none, s)
  let answer (q : Piece) : Done :=
    let bad := lostBytes s q.pa q.len
    { bytes := memBytes s q.pa q.len, bad := bad, err := if bad.isEmpty then none else e.1, flags := 0 }
  reqPut e.2 { r with pieces := r.pieces.map fun q => if g.any fun x => x.key == q.key then { q with ans := some (answer q) } else q }

/-- The sectors that are read for some pieces of a block (R142): those for which they hold slots, as they were cut, and what the block's form now asks for. -/
def groupSectors (s : State) (blk : Nat) (g : List Piece) : List Nat :=
  let touched := (List.range 8).filter fun k => g.any fun q => (touchedSectors q.pa q.len).contains k
  let cached := if blockMeta s blk == mdRaw then !(g.any fun q => q.len == 0 && q.pa % 2048 < 256) else g.all fun q => q.bare
  readSectorsIf s blk touched cached

/-- Perform a request's whole access to one block of HBM (R129, R130, R144 to R147, R149 to R151), all at once: each of its pieces there has its answer; the rows of one
pump.get that lie in the block are read together. -/
def performBlock (s : State) (r0 : Req) (blk : Nat) : State :=
  let g := blockGroup r0 blk
  let gl := g.filter fun q => 0 < q.len
  let lo := gl.foldl (fun a q => min a q.pa) (2048 * blk + 2048)
  let hi := gl.foldl (fun a q => max a (q.pa + q.len)) (2048 * blk)
  let comp := gl.all fun q => q.comp
  let mine (q : Piece) : Bool := g.any fun x => x.key == q.key
  if r0.write then
    let bm := groupBytes r0 gl lo (hi - lo)
    let mask := if bm.all (·.2) then [] else bm.map (·.2)
    let bs := bm.map (·.1)
    let w := blockWrite (meetWrite s r0.vf true comp lo bs mask) comp lo bs mask
    let told := if !w.2 ∧ blockMarked s blk then pubPoison w.1 r0 blk else w.1
    let e : Option Word × State := if w.2 then (none, told) else (let x := newReqError told r0 (agentSrc r0.agent) 0x08; (some x.1, x.2))
    reqPut e.2 { r0 with pieces := r0.pieces.map fun q => if mine q then { q with ans := some { bytes := [], bad := [], err := e.1, flags := 0 } } else q }
  else
    let rs := (readTogether s r0).filter fun r => r.id == r0.id || r.st == .moving
    let s1 := meetSectors s r0.vf true blk (groupSectors s blk (rs.map fun r => blockGroup r blk).flatten)
    rs.foldl (fun t r => answerRead t r blk) s1

/-- Perform a piece in a store window (R24, R64, R65, R179, R186); its VF is resident. Bytes that pending stores of the reading PE supply are not read. -/
def performWindow (s : State) (r : Req) (p : Piece) : State × Done :=
  let b := winBh p.pa
  let pe := winPe p.pa
  let off := winOff p.pa
  if r.write then
    let w := windowWrite (getPE s b pe) off (slice r.data p.off p.len)
    let s1 := setPE s b pe w.1
    if w.2 then (s1, { bytes := [], bad := [], err := none, flags := 0 })
    else
      let e := newReqError s1 r (agentSrc r.agent) 0x0D
      (e.2, { bytes := [], bad := [], err := some e.1, flags := 0 })
  else
    let q := getPE s b pe
    let read := (List.range p.len).filter fun i => !(r.supply.any fun e => e.1 == p.off + i)
    let blocking := decide (r.mode ≤ 1) && decide (0x80000 ≤ off)
    let s1 := if r.mode = 1 then modPE s b pe fun x => granulesClear x (read.foldl (fun m i =>
      if off + i < 0x80000 ∨ m.contains ((off + i - 0x80000) / 16) then m else m ++ [(off + i - 0x80000) / 16]) []) else s
    let node := match r.owner with | .tag _ => true | _ => false
    if read.any fun i => spoiltIn q (off + i) 1 then
      let e := newReqError s1 r (agentSrc r.agent) 0x08
      (e.2, { bytes := [], bad := [], err := some e.1, flags := 0 })
    else
    (s1, { bytes := (windowRead q off p.len).1, bad := [], err := none,
           flags := flagIf ((read.any fun i => (windowByte q (off + i)).2) && node && !blocking) flagEmptyRead })

/-- The value that an atomic writes, none for a cas that fails, and its flags (R209 to R211). -/
def atomResult (a : AtomOp) (old : Nat) : Option Nat × BitVec 9 :=
  let w := tyWidth a.ty
  let r := a.operand.toNat % 2 ^ w
  let lt (x y : Nat) : Bool := if tySigned a.ty then decide (sextInt w x < sextInt w y) else decide (x < y)
  match a.op with
  | 0 => (some ((old + r) % 2 ^ w), 0)
  | 1 => let x := fadd a.ty updatePolicy 0 old r; (some x.val, x.flags)
  | 2 => (some (if lt r old then r else old), 0)
  | 3 => (some (if lt old r then r else old), 0)
  | 4 => (some (Nat.land old r), 0)
  | 5 => (some (Nat.lor old r), 0)
  | 6 => (some (Nat.xor old r), 0)
  | 7 => (some r, 0)
  | _ => (if old = r then some (a.cmp.toNat % 2 ^ w) else none, 0)

/-- What a unit reads for an operation on a word meets (R126, R148): on a RAW block through COMP = 0 the word's own codeword, otherwise the whole block, under
slots of its own. -/
def unitMeet (s : State) (vf : Nat) (comp : Bool) (pa n : Nat) : State :=
  let blk := pa / 2048
  if blockMeta s blk == mdRaw && !comp && !blockLost s blk then ownMeet.ownPulse ((runCws pa n).foldl (meetCw (blk / 2 ^ 25) vf true) s) (blk / 2 ^ 25) 1
  else
    let secs := readSectors s blk (List.range 8)
    ownMeet.ownPulse (meetSectors s vf true blk secs) (blk / 2 ^ 25) secs.length

/-- An operation with no token of its own meets poisoned bytes: its event, unless it is the first to find them (R130). -/
def unitPoison (s s1 : State) (vf pa : Nat) : State :=
  let first := eccOf s (pa / 32) == .poisoned || blockMarked s (pa / 2048)
  if first then postEvent s1 (wellSrc (stackOf pa)) (stackOf pa) (some vf) none 0x04 (pa / 32 * 32 % 2 ^ 36) else s1

/-- Perform an atomic or a reduction at its unit (R126, R130, R148, R176, R209). -/
def performAtom (s : State) (r : Req) (p : Piece) (a : AtomOp) : State × Done :=
  let s1 := unitMeet s r.vf p.comp p.pa p.len
  if !(lostBytes s1 p.pa p.len).isEmpty then
    if a.red then (unitPoison s s1 r.vf p.pa, { bytes := [], bad := [], err := none, flags := 0 })
    else
      let e := newError s1 (srcWord 1 (stackOf p.pa) (channelOf p.pa) 2) 0x08
      (e.2, { bytes := [], bad := [], err := some e.1, flags := 0 })
  else
    let old := leNat (memBytes s1 p.pa p.len)
    let n := atomResult a old
    let s2 := match n.1 with | some v => (blockWrite s1 p.comp p.pa (leBytes p.len v) []).1 | none => s1
    (s2, { bytes := leBytes p.len old, bad := [], err := none, flags := n.2 })

/-- After a piece has been performed at its target: the answer returns at once within the bulkhead; from another it sets out on its way back. A write or an
atomic to a HOSTCACHE page then waits for the host's answer to the back-invalidates (R22, R171, R407), which it sends in the same step, before it is
performed. -/
def afterPerform (s : State) (id : Nat) (p : Piece) (d : Done) : State :=
  match reqAt s id with
  | none => s
  | some r =>
    if p.hostc ∧ (r.write ∨ r.atom.isSome) ∧ 0 < p.len ∧ d.err.isNone then piecePut s r { p with stage := .host, ans := some d }
    else if targetBh p.pa = r.bh then pieceDone s r p d.bytes d.bad d.err d.flags
    else piecePut (newId s) r { p with stage := .reply, ans := some d, seq := s.nextId }

/-- Perform a piece of a read or write on HBM at its well: with its block, unless that has been done (R147). -/
def performPiece (s : State) (r : Req) (p : Piece) : State :=
  let s1 := if p.ans.isSome then s else performBlock s r (p.pa / 2048)
  match (reqAt s1 r.id).bind fun x => x.pieces.find? fun q => q.key == p.key with
  | some q => (match q.ans with | some d => afterPerform s1 r.id q d | none => s1)
  | none => s1

/-- Answer a piece with an error made at a gate (R409, R413). -/
def gateAnswer (s : State) (r : Req) (p : Piece) (z code : Nat) : State :=
  let e := newReqError s r (srcWord 1 z 0 4) code
  pieceDone e.2 r p [] [] (some e.1) 0

/-- A piece or its reply is dropped at an edge that a reset of z forces (R407, R413): its requester is answered with BH_RESET, unless it lies in a bulkhead that is
itself under reset. There no answer comes any more, and the requester is cleared with its bulkhead. -/
def resetAnswer (s : State) (r : Req) (p : Piece) (z : Nat) : State :=
  if bhState s r.bh = 0 then gateAnswer s r p z 0x0B
  else
    let ps := r.pieces.filter fun q => q.key != p.key
    if ps.all fun q => q.stage == .done then reqDel s r.id else reqPut s { r with owner := .gone, pieces := ps }

/-- A gate refuses a piece (R409): the events; the master is frozen and the piece kept for FRZCTL, or the launch is halted and the piece
answered with GATE_DENIED. A part of a publication is abandoned (R167). -/
def gateRefuse (s : State) (r : Req) (p : Piece) (z : Nat) : State :=
  let src := srcWord 1 z 0 4
  let seq := nextEventSeq s src
  let s1 := gateEvents s z r.vf r.lid p.pa r.kind
  if (match r.owner with | .pub _ => true | _ => false) then gateAnswer s1 r p z 0x0A
  else if fdomOf s r.lid r.task then
    gateAnswer (haltLaunch s1 r.lid (word (0x12 * 2 ^ 56 + seq))) r p z 0x0A
  else
    let m := agentMaster r.agent
    let e := gateError s1 z 0x0A
    let s2 := freezeMaster e.2 m.1 m.2 r.vf (.gate r.id)
    reqPut s2 { r with st := .frozen, pieces := r.pieces.map fun q => if q.key == p.key then { q with stage := .waiting, err := some e.1, reached := r.bh } else q }

/-- Outstanding tags of a spoke port (R454). -/
def spokeTags (s : State) (port : Nat) : List Nat :=
  s.reqs.foldl (fun a r => a ++ (r.pieces.filterMap fun p => match p.stage with | .spoke q t => if q = port then some t else none | _ => none)) []

/-- The request flit of a piece through an aperture (R450, R452, R453): its data follow the header. -/
def spokeFlit (r : Req) (p : Piece) (tag dev addr : Nat) (door : Bool) : Flit :=
  let n := p.len
  let ty := match r.atom with | some a => if door then 5 else if a.red then 4 else 3 | none => if r.write then 2 else 1
  let op := match r.atom with | some a => if a.op = 9 then 0x31 else if a.red then a.op + 9 else a.op | none => 0
  let data := match r.atom with
    | some a => leBytes 8 a.operand.toNat ++ leBytes 8 a.cmp.toNat
    | none => if r.write then slice r.data p.off n else []
  { ty := ty, tag := tag, srcdev := dev, vf := r.vf, prio := r.prio,
    size := if r.atom.isSome then (if n = 4 then 2 else 3) else if n ≤ 16 ∧ addr % 16 + n ≤ 16 then 15 else 0,
    op := op, code := 0, addr := addr, data := data }

/-- Send a piece out of a spoke port (R452, R454). While no tag is free it waits there, with its place in the order of arrival. -/
def spokeSend (s : State) (r : Req) (p : Piece) : State :=
  let a := (p.pa - 0x040000000000) / 2 ^ 34
  let off := (p.pa - 0x040000000000) % 2 ^ 34
  let w := (regGet s r.bh (0x20800 + 8 * a)).toNat
  let port := bits w 2 5
  let st := (regGet s r.bh (0x21080 + 8 * port)).toNat
  let door := bitAt w 1
  if !bitAt st 0 ∨ bits st 1 16 ≠ bits w 7 16 then
    let e := newReqError s r (srcWord 1 r.bh port 7) 0x0A
    pieceDone e.2 r p [] [] (some e.1) 0
  else
    let used := spokeTags s port
    match (List.range 4096).find? fun t => !used.contains t with
    | none => if p.atPort.isSome then s else piecePut (newId s) r { p with atPort := some s.nextId }
    | some t =>
      let addr := if door then off else bits w 32 14 * 2 ^ 34 + off
      let s1 := piecePut s r { p with stage := .spoke port t, atPort := none }
      { s1 with spokeOut := s1.spokeOut ++ [(port, spokeFlit r p t Config.localDevid.toNat addr door)] }

/-- The port and the remote address to which a spoke address leads from a bulkhead's apertures (R452). -/
def spokeDest (s : State) (b pa : Nat) : Nat × Nat :=
  let a := (pa - 0x040000000000) / 2 ^ 34
  let off := (pa - 0x040000000000) % 2 ^ 34
  let w := (regGet s b (0x20800 + 8 * a)).toNat
  (bits w 2 5, if bitAt w 1 then off else bits w 32 14 * 2 ^ 34 + off)

/-- Whether two byte ranges share a granule of 16 bytes. -/
def shareGranule (a n b m : Nat) : Bool := a / 16 ≤ (b + (m - 1)) / 16 && b / 16 ≤ (a + (n - 1)) / 16

/-- Whether two byte ranges share a granule at some place in a 16 KiB page: an address keeps its place through whatever page it is translated. -/
def mayShareGranule (a n b m : Nat) : Bool :=
  let span (x k : Nat) : Nat := (x + (k - 1)) / 16 - x / 16
  let dist (x y : Nat) : Nat := (y / 16 % 1024 + 1024 - x / 16 % 1024) % 1024
  decide (dist a b ≤ span a n) || decide (dist b a ≤ span b m)

/-- Whether a piece may leave its bulkhead by its port: every earlier request to a granule of it has left by that port (R454); one that is not translated yet may
be to that granule, whatever its VF and page. A load that waits for a publication (R160) and what is parked are passed. -/
def spokeTurn (s : State) (r : Req) (p : Piece) : Bool :=
  let x := spokeDest s r.bh p.pa
  let meets (q : Piece) : Bool :=
    q.stage == .waiting && regionOf q.pa == .spoke &&
      (let y := spokeDest s r.bh q.pa
       y.1 == x.1 && shareGranule x.2 p.len y.2 q.len)
  let access (q : Req) : Bool := match q.owner with | .store _ => false | _ => true
  !(s.reqs.any fun q => q.ord < r.ord && q.bh == r.bh && access q && (q.heldFor.isNone || reqGo s q) &&
    match q.st with
    | .moving => q.pieces.any meets
    | .atWell => mayShareGranule p.pa p.len q.va q.len
    | .walking => mayShareGranule p.pa p.len q.va q.len
    | _ => false)

/-- Whether another piece of its requester that may leave came to the same port before it and waits there for a tag: it goes first (R454). -/
def portBehind (s : State) (r : Req) (p : Piece) : Bool :=
  let port (x : Piece) : Nat := (spokeDest s r.bh x.pa).1
  let before (m : Nat) : Bool := match p.atPort with | some k => decide (m < k) | none => true
  s.reqs.any fun q => q.agent == r.agent && q.bh == r.bh && q.st == .moving && q.pieces.any fun x =>
    x.stage == .waiting && regionOf x.pa == .spoke && port x == port p && (match x.atPort with | some m => before m | none => false) && spokeTurn s q x

/-- Requests of an agent for one VF that stand before a request at the well input with pieces still to be admitted (R113). -/
def reqBlocked (s : State) (r : Req) : Bool :=
  s.reqs.any fun q => q.ord < r.ord && q.agent == r.agent && q.bh == r.bh && q.vf == r.vf && q.st == .moving && reqGo s q &&
    q.pieces.any fun p => p.stage == .waiting && regionOf p.pa == .hbm

/-- Whether a reduction that asks for it finds every earlier one of its PE to the same word accepted by the unit (R178, R210). One whose word is not known yet, since
it has not been translated, may be to the same word through whatever page. -/
def detTurn (s : State) (r : Req) (pa : Nat) : Bool :=
  let det (q : Req) : Bool := match q.atom with | some a => a.det && a.red | none => false
  let past (q : Req) : Bool := q.pieces.all fun p => match p.stage with | .waiting => false | .slotted => false | .arrived => false | _ => true
  let same (q : Req) : Bool :=
    match q.pieces with
    | [] => q.vf == r.vf
    | p :: _ => p.pa / 8 == pa / 8 && !past q
  !det r || !(s.reqs.any fun q => q.id < r.id && q.agent == r.agent && det q && q.st != .finished && same q)

/-- Sector requests that a request, or all requests of its engine command, hold now (R113, R121, R202). -/
def heldBy (s : State) (same : Req → Bool) : Nat :=
  s.reqs.foldl (fun a q => if same q then a + (q.pieces.filter slotHeld).length else a) 0

/-- Whether the engine's own limit of 256 leaves room (R121, R202). -/
def engineRoom (s : State) (r : Req) : Bool :=
  match r.owner with
  | .cmd cid _ => decide (heldBy s (fun q => match q.owner with | .cmd c _ => c == cid | _ => false) < 256)
  | _ => true

end Sys2Proof.Machine
end

