-- ==== Sys2Proof/Machine/Phases.lean ====
section
/-! DEFINITION. Phase groups and the cistern (R159 to R168, R171, R174, R181): the phase of a store, its entries, the survivors of a publication
and how it is written, scope caps, and what a finished request does. -/

namespace Sys2Proof.Machine

/-- Whether a PE is a member of a group (R159). -/
def isMember (c : Placed) (pe : Nat) : Bool := c.phNodes.any fun x => x.1 == pe

/-- Whether every phase node of a group has fired for phase p (R159). -/
def phaseCounted (c : Placed) (p : Nat) : Bool :=
  !c.phNodes.isEmpty && c.phNodes.all fun x => c.arrivals.any fun a => a.1 == x.1 && a.2.1 == x.2 && a.2.2.1 == p

/-- The phase of an access that a PE issues (R160). -/
def accessPhase (c : Placed) (pe : Nat) : Nat :=
  if isMember c pe then sget 0 c.pePhase pe
  else if !phaseCounted c c.boundary then c.boundary
  else if !phaseCounted c (c.boundary + 1) then c.boundary + 1
  else c.boundary + 2

/-- The boundary that a load of a member waits for, while it is not complete or its publication is still on its way (R160). -/
def loadHeld (s : State) (c : Placed) (pe : Nat) : Option (Nat × Nat) :=
  let p := sget 0 c.pePhase pe
  if isMember c pe && (decide (c.boundary < p) || (decide (0 < p) && !published s c.id)) then some (c.id, p - 1) else none

/-- Take n cistern entries for a firing (R165): how many are of the shared part; none where the store must wait. -/
def cistTake (s : State) (f : Firing) (n : Nat) : Option Nat :=
  let here := s.stores.filter fun p => p.bh == f.bh
  let cap := 262144 - 256 * (tableVfs s f.bh).length
  let used := (here.map fun p => p.shared).foldl (· + ·) 0
  let mine := ((here.filter fun p => p.vf == f.vf).map fun p => storeEntries p - p.shared).foldl (· + ·) 0
  let sh := min n (cap - used)
  let res := if inTables s f.bh f.vf then 256 - mine else 0
  if n - sh ≤ res ∧ budgetOk s (chargeAddr s f.vf f.lid f.task) .cist n then some sh else none

/-- Enter a pending store and send it to be translated (R160, R165, R167). Its wave is that of its firing's frame (R164). -/
def makeStore (s : State) (f : Firing) (va : Nat) (bytes : List Byte) (lsid shared : Nat) (tag : Option Nat) : State :=
  match cfgAt s f.cfg with
  | none => s
  | some c =>
    let p : PStore :=
      { sid := s.nextId, bh := f.bh, pe := f.pe, vf := f.vf, lid := f.lid, cfg := f.cfg, phase := accessPhase c f.pe, wave := f.wave, lsid := lsid,
        task := f.task, va := va % 2 ^ 64, bytes := bytes, parts := [], early := false, shared := shared, tag := tag, leaving := none,
        payer := chargeAddr s f.vf f.lid f.task }
    let s1 := newId { s with stores := s.stores ++ [p] }
    let s2 := budgetMove s1 p.payer .cist (storeEntries p) 0
    sendReq s2 { reqFor f (.pe f.bh f.pe) 1 va bytes.length (.store p.sid) with write := true, data := bytes }

/-- The phases below which a group's stores leave the cistern when their publication has been performed: those that a boundary has passed, and all of them once
the group is gone (R161). -/
def storePassed (s : State) (p : PStore) : Bool :=
  match cfgAt s p.cfg with
  | some c => decide (p.phase < c.boundary)
  | none => true

/-- Whether a boundary, or the final publication, is publishing a store (R161): no other publication takes it again. -/
def leavesLast (s : State) (p : PStore) : Bool := p.leaving.isSome && storePassed s p

/-- Whether a write of a publication has been performed wherever it goes (R165): in the host or a spoke window too. -/
def writePerformed (s : State) (id : Nat) : Bool :=
  match reqAt s id with
  | none => true
  | some r => r.pieces.all pieceAccepted

/-- Publications that have been performed are over (R165): the entries of what a boundary published go back; what was published early alone stays (R168). -/
def leaveSettle (s : State) : State :=
  let spent (p : PStore) : Bool := match p.leaving with | some ids => ids.all (writePerformed s) | none => false
  if !(s.stores.any spent) then s
  else
    let s1 := dropStores s fun p => spent p && storePassed s p
    { s1 with stores := s1.stores.map fun p => if spent p then { p with leaving := none } else p }

/-- What one store writes to one byte: the address, the byte, COMP and HOSTCACHE. -/
structure PubByte where
  pa    : Nat
  byte  : Byte
  comp  : Bool
  hostc : Bool
  st    : PStore
  deriving DecidableEq, Repr

/-- The bytes of a store at their physical addresses. -/
def pubBytes (p : PStore) : List PubByte :=
  (p.parts.map fun q => (List.range q.2.2.1).map fun i =>
    { pa := q.2.1 + i, byte := p.bytes.getD (q.1 + i) 0, comp := q.2.2.2.1, hostc := q.2.2.2.2, st := p : PubByte }).flatten

/-- The candidates that R163 allows to survive at a byte: each PE's highest-ranking store, in mode 1 those of the greatest key alone. -/
def candidates (mode : Nat) (xs : List PubByte) : List PubByte :=
  let tops := xs.filter fun x => xs.all fun y => !(y.st.pe == x.st.pe && storeAbove mode y.st x.st)
  if mode = 1 then
    tops.filter fun x => tops.all fun y => !(decide (x.st.wave < y.st.wave) || (x.st.wave == y.st.wave && decide (x.st.lsid < y.st.lsid)))
  else tops

/-- The survivor at an address (R163): where several may survive, a free choice among them. -/
def survivorAt (mode draw_ pa : Nat) (xs : List PubByte) : Option PubByte :=
  let cs := candidates mode (xs.filter fun x => x.pa == pa)
  cs[Config.survivor draw_ pa % max 1 cs.length]?

/-- The addresses that stores write, rising. -/
def pubAddrs (xs : List PubByte) : List Nat := (xs.foldl (fun m x => sins m x.pa ()) ([] : SMap Unit)).map (·.1)

/-- One write of a publication: the bytes from an address on and which of them it writes (R146), COMP, HOSTCACHE, and a PE that stored there. -/
structure PubRun where
  pa    : Nat
  bytes : List Byte
  mask  : List Bool
  comp  : Bool
  hostc : Bool
  pe    : Nat
  cfg   : Nat
  deriving DecidableEq, Repr

/-- Whether a byte starts a new run outside HBM: a slot of a frame-store window, a sector elsewhere (R65, R112). -/
def runBreak (pa : Nat) : Bool :=
  if regionOf pa == .window && (windowRow (winOff pa)).1 == 2 then pa % 8 == 0 else pa % 256 == 0

/-- Cut surviving bytes in rising address order into writes: what falls in one block of HBM is one write under a byte mask (R146); elsewhere bytes that follow
each other. -/
def pubRuns : List PubByte → List PubRun
  | [] => []
  | x :: xs =>
    let one : PubRun := { pa := x.pa, bytes := [x.byte], mask := [], comp := false, hostc := x.hostc, pe := x.st.pe, cfg := x.st.cfg }
    match pubRuns xs with
    | [] => [one]
    | r :: rs =>
      let gap := r.pa - (x.pa + 1)
      let joins := if regionOf x.pa == .hbm then r.pa / 2048 == x.pa / 2048 else r.pa == x.pa + 1 && !runBreak r.pa
      if joins then
        { r with
          pa := x.pa, bytes := x.byte :: (List.replicate gap 0 ++ r.bytes), hostc := x.hostc || r.hostc, pe := x.st.pe
          mask := if gap = 0 ∧ r.mask.isEmpty then []
                  else true :: (List.replicate gap false ++ (if r.mask.isEmpty then List.replicate r.bytes.length true else r.mask)) } :: rs
      else one :: r :: rs

/-- A part of a publication is lost (R167). -/
def storeLost (s : State) (b vf lid pa code : Nat) : State :=
  postEvent s (wellSrc b) b (some vf) (some lid) 0x08 (pa % 2 ^ 48 + code * 2 ^ 64)

/-- A write of a publication as a request of the well, already translated (R115): it takes sector slots, crosses edges and waits like any other. `after` are the
earlier publications of its group, which it follows. -/
def pubRequest (s : State) (b vf lid : Nat) (run : PubRun) (after : List Nat) : State :=
  let f : Firing := { Firing.empty with bh := b, vf := vf, lid := lid, cfg := run.cfg }
  let n := run.bytes.length
  let r : Req := { reqFor f (.well b) 1 0 n (.pub run.pe) with write := true, data := run.bytes, mask := run.mask, waitFor := after, st := .moving }
  let written (p : Piece) : Bool := p.len == 0 || (List.range p.len).any fun i => maskAt run.mask (p.off + i)
  let ps := if regionOf run.pa == .hbm then
      (blockPieces s b true run.comp run.hostc 0 run.pa n).filter fun p => written p || !rawInPlace s run.comp (run.pa / 2048)
    else piecesOf b (pieceChunk b run.pa n) false false (n / 16 + 2) 0 run.pa n
  newId { s with reqs := s.reqs ++ [{ r with id := s.nextId, ord := s.nextId, pieces := numberPieces ps }] }

/-- Publish stores of one phase (R146, R161, R163): the survivors' bytes, write by write, those that `keep` selects. The ids of the writes. -/
def publish (s : State) (b vf lid mode : Nat) (after : List Nat) (sts : List PStore) (keep : PubByte → Bool) : State × List Nat :=
  let xs := (sts.map pubBytes).flatten
  let d := s.fresh
  let win := ((pubAddrs xs).filterMap fun pa => survivorAt mode d pa xs).filter keep
  let compOf (pa : Nat) : Bool := (xs.filter fun x => x.pa / 2048 == pa / 2048).all fun x => x.comp
  (pubRuns win).foldl (fun acc run => (pubRequest acc.1 b vf lid { run with comp := compOf run.pa } after, acc.2 ++ [acc.1.nextId])) (drawn s, [])

/-- Publish stores phase by phase in ascending order, each phase after the one before it (R161 item 4, R168). The ids of the writes. -/
def publishPhases (s : State) (b vf lid mode : Nat) (after : List Nat) (sts : List PStore) (keep : PubByte → Bool) : State × List Nat :=
  let phases := sts.foldl (fun m p => sins m p.phase ()) ([] : SMap Unit)
  phases.foldl (fun acc e =>
    let w := publish acc.1 b vf lid mode (after ++ acc.2.map fun id => 2 * id) (sts.filter fun p => p.phase == e.1) keep
    (w.1, acc.2 ++ w.2)) (s, [])

/-- The writes of a group's publications that are still on their way. -/
def pubsMoving (s : State) (cfg : Nat) : List Nat :=
  ((s.reqs.filter fun r => r.cfg == cfg && (match r.owner with | .pub _ => true | _ => false)).map fun r => 2 * r.id).filter fun k => !waitClear s k

/-- What a release at a scope waits for of some writes. -/
def keysOf (scope : Nat) (ids : List Nat) : List Nat := ids.map fun id => 2 * id + b2n (scope == 7)

/-- Stores begin to leave the cistern with the writes of their publication (R165). -/
def leaveWith (s : State) (ids : List Nat) (hit : PStore → Bool) : State :=
  { s with stores := s.stores.map fun p => if hit p then { p with leaving := some (p.leaving.getD [] ++ ids) } else p }

/-- A group waits for further keys until its publications are complete (R160, R161). -/
def groupWaits (s : State) (cfg : Nat) (keys : List Nat) : State :=
  match cfgAt s cfg with
  | some g => cfgPut s { g with keys := (g.keys.filter fun k => !waitClear s k) ++ keys }
  | none => s

/-- The final publication of a group (R161 item 4): every pending store, those published early among them (R168), in ascending phase order, at system scope. The
keys to wait for. -/
def publishFinal (s : State) (c : Placed) : State × List Nat :=
  let sts := s.stores.filter fun p => p.cfg == c.id && !p.parts.isEmpty && !leavesLast s p
  let w := publishPhases s c.bh c.vf c.lid c.mode (pubsMoving s c.id) sts fun _ => true
  let keys := keysOf 7 w.2
  let s1 := dropStores (groupWaits w.1 c.id keys) fun p => p.cfg == c.id && p.parts.isEmpty
  let top := sts.foldl (fun m p => max m (p.phase + 1)) c.boundary
  let s2 := match cfgAt s1 c.id with | some g => cfgPut s1 { g with boundary := top } | none => s1
  (leaveSettle (leaveWith s2 w.2 fun p => p.cfg == c.id), keys)

/-- Publish early the stores that satisfy a test, each PE's own ranking deciding among all its pending stores, those published early included (R168, R385). They
stay for their boundary. What a boundary is already publishing is left to it. -/
def publishEarly (s : State) (b vf lid mode scope : Nat) (mine : PStore → Bool) : State × List Nat :=
  let due (p : PStore) : Bool := mine p && !p.parts.isEmpty && !leavesLast s p
  let sts := s.stores.filter due
  let after := sts.foldl (fun m p => m ++ (pubsMoving s p.cfg).filter fun k => !m.contains k) []
  let w := publishPhases s b vf lid mode after sts fun x => !x.st.early
  let s1 := leaveWith w.1 w.2 fun p => due p && !p.early
  ({ s1 with stores := s1.stores.map fun p => if due p then { p with early := true } else p }, keysOf scope w.2)

/-- VFSCOPE of a VF (R182). -/
def vfScope (s : State) (vf : Nat) : Nat := (regGet s (homeOf vf) (0x12000 + 8 * (vf % 32))).toNat

/-- A SCOPE field under the VF's cap (R174): the scope performed, with the state after a SCOPE_CLAMPED event; none is a SCOPE_FAULT. -/
def scopeCap (s : State) (f : Firing) (scope : Nat) : Option (Nat × State) :=
  let w := vfScope s f.vf
  let cap := bits w 0 3
  if scope ≤ cap then some (scope, s)
  else if bitAt w 3 then none
  else
    let pay := f.pe + f.node * 2 ^ 9 + scope * 2 ^ 21
    some (cap, postEvent s (peSrc f.bh f.pe) f.bh (some f.vf) (some f.lid) 0x09 pay)

/-- The lost parts of a write whose error no token carries, one for each block (R167, R204): the address and the code. -/
def lostParts (r : Req) : List (Nat × Nat) :=
  (r.pieces.filter fun p => p.err.isSome).foldl (fun m p =>
    if m.any fun x => x.1 / 2048 == p.pa / 2048 then m else m ++ [(p.pa, match p.err with | some e => bits e.toNat 0 8 | none => 0)]) []

/-- Report the lost parts of a write. -/
def partsLost (s : State) (r : Req) : State := (lostParts r).foldl (fun t x => storeLost t r.bh r.vf r.lid x.1 x.2) s

/-- The lost parts of a publication (R65, R167): a store refused by a frame slot ends at the graph's sink. -/
def pubLost (s : State) (r : Req) (pe : Nat) : State :=
  (lostParts r).foldl (fun t x =>
    if x.2 = 0x0D then (let e := newError t (peSrc r.bh pe) 0x0D; toSink e.2 r.bh r.vf r.lid e.1)
    else storeLost t r.bh r.vf r.lid x.1 x.2) s

/-- The flags of a reduction that has been performed are raised for its firing (R210, R251). -/
def redFlags (s : State) (r : Req) : State :=
  match r.agent with
  | .pe b i => raiseFlags s { Firing.empty with bh := b, pe := i, node := r.node, vf := r.vf, lid := r.lid, cfg := r.cfg } r.flags
  | _ => creditFlags s r.vf r.lid r.flags

/-- Flags and errors of an asynchronous request with no token of its own, which then goes away (R65, R130, R167, R204, R210, R380). -/
def reqSettle (s : State) (id : Nat) : State :=
  match reqAt s id with
  | none => s
  | some r =>
    if r.st ≠ .finished then (match r.owner with | .pub _ => leaveSettle s | _ => s)
    else
      match (if r.owner = .join then Owner.red else r.owner) with
      | .red =>
        let s1 := redFlags (reqDel s id) r
        (match r.err with
         | none => s1
         | some e => if bits e.toNat 0 8 = 0x0B then partsLost s1 r else toSink s1 r.bh r.vf r.lid e)
      | .pub pe => leaveSettle (pubLost (reqDel s id) r pe)
      | .cmd cid _ => if s.cmds.any fun c => c.id == cid then s else partsLost (reqDel s id) r
      | .gone => reqDel s id
      | _ => s

end Sys2Proof.Machine
end

