-- ==== Sys2Proof/Machine/MemoryNodes.lean ====
section
/-! DEFINITION. Class 5 without its engine commands: loads, stores, tile loads and stores, tile references, atomics, reductions, phases and
fences (R183 to R194, R209 to R213). -/

namespace Sys2Proof.Machine

open Host

/-- Whether a PE has a free fetch tag (R117). -/
def tagRoom (s : State) (f : Firing) : Bool := decide ((getPE s f.bh f.pe).fetch.length < 32)

/-- The tag that a firing takes: its destinations are resolved now (R116). -/
def newTag (s : State) (c : Ctx) (hidx row : Nat) : Tag :=
  let p := getPE s c.f.bh c.f.pe
  let ds := (usedDests c.n).map fun d => resolveDest p c.f d 0 0
  { id := s.nextId, st := .issued, f := c.f, code := c.code, node := c.n, dests := ds.map (·.1), hidx := hidx,
    wave := c.f.wave, row := row,
    flags := flagIf (ds.any (·.2)) flagEmptyRead, err := none }

/-- Enter a tag on its PE. -/
def tagEnter (s : State) (t : Tag) : State := newId (modPE s t.f.bh t.f.pe fun p => { p with fetch := p.fetch ++ [t] })

/-- Replace a tag on its PE. -/
def tagPut (s : State) (t : Tag) : State :=
  modPE s t.f.bh t.f.pe fun p => { p with fetch := p.fetch.map fun x => if x.id == t.id then t else x }

/-- A tag whose answer has come: its result is emitted one cycle later, and the tag is then free (R118, R119). -/
def tagReplied (s : State) (t : Tag) (k : Kind) (v : Word) (fx : List Effect) (fl : BitVec 9) : State :=
  pushReply (tagPut s { t with st := .replied }) t.f t.node 1 t.dests k v (fx ++ [.tagFree t.id]) (t.flags ||| fl)

/-- Sector requests that [va, va + len) takes (R112). -/
def sectorsOf (va len : Nat) : Nat := (va % 256 + len + 255) / 256

/-- Bytes of an element of a type (R185). -/
def tyBytes (t : Ty) : Nat := tyWidth t / 8

/-- The request of a node load of n bytes at va: its phase, the boundary it waits for, and what its PE's stores supply as it issues (R160, R162). -/
def nodeReq (s : State) (f : Firing) (va n mode : Nat) (owner : Owner) : Req :=
  let g := cfgAt s f.cfg
  let r0 : Req := { reqFor f (.pe f.bh f.pe) 0 va n owner with
    mode := mode, phase := (match g with | some x => accessPhase x f.pe | none => 0),
    heldFor := (match g with | some x => loadHeld s x f.pe | none => none) }
  { r0 with supply := supplyNow s r0 s.nextId }

/-- A node load of n bytes at va under a tag, supplied where it can be at issue (R160, R162, R185, R187). -/
def nodeLoad (s : State) (c : Ctx) (va n mode : Nat) (t : Tag) : State :=
  let f := c.f
  let s1 := charge (tagEnter s t) f.bh f.pe 8 (sectorsOf va n)
  let r := nodeReq s f va n mode (.tag t.id)
  if r.supply.length = n then
    let s2 := landBytes s1 r 0 n
    if c.code = 0x144 then sendReq s2 { r with st := .finished }
    else tagReplied s2 t .value (extend c.n.ty (leNat (reqBytes r))) [] 0
  else sendReq s1 r

/-- ld and ldt (R185, R186). -/
def loadElem (s : State) (code : Nat) (n : Node) (vaOf : Ctx → Nat) (mode : Nat) : State :=
  fire s code n fun c t => if !tagRoom t c.f then none else some (nodeLoad t c (vaOf c) (tyBytes n.ty) mode (newTag t c 0 0))

/-- The address l + r × n of the indexed forms, modulo 2^64 (R185). -/
def indexed (c : Ctx) : Nat :=
  wrapNat 64 ((payloadAt c.f .l).toNat + (rWord c).toInt * (tyBytes c.n.ty : Nat))

/-- LD (R185): a non-blocking read of one element. -/
def execLd (n : Node) (s : State) : Outcome State Fault Refusal :=
  .next (loadElem s 0x140 n (fun c => (payloadAt c.f .l).toNat) 2)

/-- LDT (R185, R186): an indexed load with a read mode. -/
def execLdt (n : Node) (s : State) : Outcome State Fault Refusal := .next (loadElem s 0x142 n indexed (litBits n 0 2))

/-- Whether stores of a group that find no entry fail at once (R166). -/
def failing (s : State) (f : Firing) : Bool := (getBulk s f.bh).cfMode.contains (f.vf, f.cfg)

/-- A store of one element (R160, R165, R166, R185). -/
def storeElem (s : State) (code : Nat) (n : Node) (vaOf : Ctx → Nat) (v : Ctx → Word) : State :=
  fire s code n fun c t =>
    let va := vaOf c
    let k := tyBytes n.ty
    let lsid := litBits n 11 5
    match if c.f.fails then none else cistTake t c.f (cistEntries va k) with
    | some sh => some (charge (makeStore (waveMark t c.f lsid) c.f va (leBytes k (v c).toNat) lsid sh none) c.f.bh c.f.pe 8 (sectorsOf va k))
    | none => if c.f.fails || failing t c.f then failCode (waveMark t c.f lsid) c 0x15 else none

/-- ST (R185). -/
def execSt (n : Node) (s : State) : Outcome State Fault Refusal :=
  .next (storeElem s 0x141 n (fun c => (payloadAt c.f .l).toNat) rWord)

/-- STT (R185). -/
def execStt (n : Node) (s : State) : Outcome State Fault Refusal :=
  .next (storeElem s 0x143 n indexed (fun c => payloadAt c.f .p))

/-- TLD (R187): a whole tile from memory. -/
def execTld (n : Node) (s : State) : Outcome State Fault Refusal :=
  .next (fire s 0x144 n fun c t =>
    match tidEntry t c.f.vf (litBits n 0 10) with
    | none => failCode t c 0x0E
    | some e =>
      if !tagRoom t c.f then none
      else
        match allocTile t c.f c.f.pe e.tid e.rows true with
        | none => none
        | some (h, t1) => some (nodeLoad t1 c (payloadAt c.f .l).toNat (512 * e.rows) 2 (newTag t1 c h 0)))

/-- The row count of a tile: that of its TID, or its pages' where no configuration declares the TID (log 13). -/
def tileHeight (s : State) (vf : Nat) (e : HEntry) : Nat :=
  match tidEntry s vf e.tid with
  | some t => t.rows
  | none => 4 * e.pages.length

/-- The reference of a tst's tile is dropped when its last row has entered, or when no further row will (R188). -/
def tstDrop (s : State) (t : Tag) : State :=
  let o := t.f.l.getD { kind := .null, payload := 0 }
  if keepsRef t.node .l then s else dropRef s t.f.bh t.f.pe (handleIdx o.payload) (handleGen o.payload) 1

/-- The rows of a tst not yet entered are not stored (R188). -/
def tstFail (s : State) (t : Tag) : State :=
  let x := newError (tstDrop s t) (peSrc t.f.bh t.f.pe) 0x15
  tagReplied x.2 t .err x.1 [] 0

/-- Enter the next rows of a tst in the cistern, with `k` rows at most (R188). The last row has entered when its translation is done; a row that
FQCTL dropped makes the result an error (R38). -/
def tstRows : Nat → State → Tag → State
  | 0, s, _ => s
  | k + 1, s, t =>
    let f := t.f
    let p := getPE s f.bh f.pe
    let o := f.l.getD { kind := .null, payload := 0 }
    let h := handleIdx o.payload
    let e := handleAt p h
    let rows := tileHeight s f.vf e
    let va := ((match f.r with | some r => r.payload.toNat | none => 0) + 512 * t.row) % 2 ^ 64
    if rows ≤ t.row then
      if s.stores.any fun x => x.tag == some t.id && x.parts.isEmpty then tagPut s t
      else
        match t.err with
        | some v => tagReplied (tstDrop s t) t .err v [] 0
        | none => tagReplied (tstDrop s t) t .value (word (512 * rows)) [] 0
    else
      match cistTake s f (cistEntries va 512) with
      | none => if failing s f then tstFail s t else tagPut s t
      | some sh =>
        let bs := rowBytes p e.pages t.row
        let s1 := makeStore s f va bs (litBits t.node 11 5) sh (some t.id)
        tstRows k s1 { t with row := t.row + 1, flags := t.flags ||| flagIf (!rowFull p e.pages t.row) flagEmptyRead }

/-- Every tst of a bulkhead with rows left tries again (R188). -/
def tstAgain (s : State) (b : Nat) : State :=
  (activePes s b).foldl (fun a pe =>
    if (getPE a b pe).frozen.isSome then a
    else ((getPE a b pe).fetch.filter fun t => t.code == 0x145 && t.st == .issued && isResident a b pe t.f.vf).foldl (fun u t => tstRows 17 u t) a) s

/-- TST (R188): a whole tile to memory, row by row through the cistern. -/
def execTst (n : Node) (s : State) : Outcome State Fault Refusal :=
  .next (fire s 0x145 n fun c t =>
    let f := c.f
    let va := (rWord c).toNat
    let lsid := litBits n 11 5
    match if f.fails then none else cistTake t f (cistEntries va 512) with
    | none => if f.fails || failing t f then failCode (waveMark t f lsid) c 0x15 else none
    | some _ =>
      if !tagRoom t f then none
      else
        let tag := newTag t c 0 0
        let rows := tileHeight t f.vf (handleAt (getPE t f.bh f.pe) (handleIdx (payloadAt f .l)))
        some (tstRows 17 (charge (tagEnter (waveMark t f lsid) tag) f.bh f.pe 8 (rows * sectorsOf va 512)) tag))

/-- TALLOC (R192): an empty tile, BOUND +Inf, PEND 0. -/
def execTalloc (n : Node) (s : State) : Outcome State Fault Refusal :=
  .next (fire s 0x146 n fun c t =>
    match tidEntry t c.f.vf (litBits n 0 10) with
    | none => failCode t c 0x0E
    | some e =>
      match allocTile t c.f c.f.pe e.tid e.rows false with
      | none => none
      | some (h, t1) =>
        let x := handleAt (getPE t1 c.f.bh c.f.pe) h
        let t2 := modPE t1 c.f.bh c.f.pe fun p => handlePut p h { x with bound := 0x7F800000#32 }
        issueSimple t2 c 10 (toUsed n .handle (handleWord h e.tid x.gen)) [.produced h])

/-- TREF (R193): n references more, and one for each used destination. -/
def execTref (n : Node) (s : State) : Outcome State Fault Refusal :=
  .next (fire s 0x147 n fun c t =>
    let v := payloadAt c.f .l
    let h := handleIdx v
    let count := if n.litr then litBits n 0 8 else (payloadAt c.f .r).toNat
    let p := getPE t c.f.bh c.f.pe
    let e := handleAt p h
    if 255 < count ∨ 255 < e.ref + count + (usedDests n).length then failCode t c 0x06
    else issueSimple (setPE t c.f.bh c.f.pe (handlePut p h { e with ref := e.ref + count })) c 10 (toUsed n .handle v) [])

/-- TREL (R194): the consumed reference and n more are dropped. -/
def execTrel (n : Node) (s : State) : Outcome State Fault Refusal :=
  .next (fire s 0x148 n fun c t =>
    let v := payloadAt c.f .l
    issueSimple t c 10 [] [.drop (handleIdx v) (handleGen v) (litBits n 0 8)])

/-- The scope of an atomic or a reduction with REL, clamped (R174): none is a SCOPE_FAULT; the writes it waits for. -/
def relOf (s : State) (c : Ctx) : Option (List Nat × State) :=
  if litBits c.n 7 1 = 0 then some ([], s)
  else (scopeCap s c.f (litBits c.n 8 3)).map fun x => (releaseSet x.2 c.f.vf x.1, x.2)

/-- The request of an atomic or a reduction (R126, R176, R209, R210). -/
def atomReq (c : Ctx) (op : Nat) (red : Bool) (waits : List Nat) (owner : Owner) : Req :=
  { reqFor c.f (.pe c.f.bh c.f.pe) 6 (payloadAt c.f .l).toNat (tyBytes c.n.ty) owner with
    waitFor := waits
    atom := some { op := op, ty := c.n.ty, operand := rWord c, cmp := payloadAt c.f .p, det := litBits c.n 6 1 == 1, red := red } }

/-- Whether an atomic's address is misaligned (R176). -/
def atomAskew (c : Ctx) : Bool := (payloadAt c.f .l).toNat % tyBytes c.n.ty != 0

/-- An atom (R209). -/
def atomNode (s : State) (code : Nat) (n : Node) : State :=
  fire s code n fun c t =>
    if atomAskew c then failCode t c 0x14
    else
      match relOf t c with
      | none => failCode t c 0x12
      | some (waits, t1) =>
        if !tagRoom t c.f then none
        else
          let tag := newTag t1 c 0 0
          some (sendReq (charge (tagEnter t1 tag) c.f.bh c.f.pe 8 1) (atomReq c (code - 0x150) false waits (.tag tag.id)))

/-- A red (R210): it takes no tag and has no result. -/
def redNode (s : State) (code : Nat) (n : Node) : State :=
  fire s code n fun c t =>
    if atomAskew c then failCode t c 0x14
    else
      match relOf t c with
      | none => failCode t c 0x12
      | some (waits, t1) => some (sendReq (charge t1 c.f.bh c.f.pe 8 1) (atomReq c (code - 0x159) true waits .red))

/-- ATOM.ADD (R209). -/
def execAtomAdd (n : Node) (s : State) : Outcome State Fault Refusal := .next (atomNode s 0x150 n)
/-- ATOM.FADD (R209, R211). -/
def execAtomFadd (n : Node) (s : State) : Outcome State Fault Refusal := .next (atomNode s 0x151 n)
/-- ATOM.MIN (R209). -/
def execAtomMin (n : Node) (s : State) : Outcome State Fault Refusal := .next (atomNode s 0x152 n)
/-- ATOM.MAX (R209). -/
def execAtomMax (n : Node) (s : State) : Outcome State Fault Refusal := .next (atomNode s 0x153 n)
/-- ATOM.AND (R209). -/
def execAtomAnd (n : Node) (s : State) : Outcome State Fault Refusal := .next (atomNode s 0x154 n)
/-- ATOM.OR (R209). -/
def execAtomOr (n : Node) (s : State) : Outcome State Fault Refusal := .next (atomNode s 0x155 n)
/-- ATOM.XOR (R209). -/
def execAtomXor (n : Node) (s : State) : Outcome State Fault Refusal := .next (atomNode s 0x156 n)
/-- ATOM.XCHG (R209). -/
def execAtomXchg (n : Node) (s : State) : Outcome State Fault Refusal := .next (atomNode s 0x157 n)
/-- ATOM.CAS (R209). -/
def execAtomCas (n : Node) (s : State) : Outcome State Fault Refusal := .next (atomNode s 0x158 n)
/-- RED.ADD (R210). -/
def execRedAdd (n : Node) (s : State) : Outcome State Fault Refusal := .next (redNode s 0x159 n)
/-- RED.FADD (R210, R211). -/
def execRedFadd (n : Node) (s : State) : Outcome State Fault Refusal := .next (redNode s 0x15A n)
/-- RED.MIN (R210). -/
def execRedMin (n : Node) (s : State) : Outcome State Fault Refusal := .next (redNode s 0x15B n)
/-- RED.MAX (R210). -/
def execRedMax (n : Node) (s : State) : Outcome State Fault Refusal := .next (redNode s 0x15C n)
/-- RED.AND (R210). -/
def execRedAnd (n : Node) (s : State) : Outcome State Fault Refusal := .next (redNode s 0x15D n)
/-- RED.OR (R210). -/
def execRedOr (n : Node) (s : State) : Outcome State Fault Refusal := .next (redNode s 0x15E n)
/-- RED.XOR (R210). -/
def execRedXor (n : Node) (s : State) : Outcome State Fault Refusal := .next (redNode s 0x15F n)

/-- The phase that the next firing of a phase node counts for (R159). -/
def nextPhase (c : Placed) (pe node : Nat) : Nat :=
  c.boundary + (c.arrivals.filter fun a => a.1 == pe && a.2.1 == node).length

/-- PHASE (R159 to R161, R212): an arrival; the token follows when its boundary is complete. -/
def execPhase (n : Node) (s : State) : Outcome State Fault Refusal :=
  .next (fire s 0x160 n fun c t =>
    let f := c.f
    match cfgAt t f.cfg with
    | none => none
    | some g =>
      let p := nextPhase g f.pe f.node
      if g.boundary + 2 ≤ p then none
      else
        match scopeCap t f (litBits n 11 3) with
        | none => failCode t c 0x12
        | some (scope, t1) =>
          let t2 := cfgPut t1 { g with arrivals := g.arrivals ++ [(f.pe, f.node, p, scope)],
                                       pePhase := sput 0 g.pePhase f.pe (max (sget 0 g.pePhase f.pe) (p + 1)) }
          some (pushIssued (charge t2 f.bh f.pe 10 1) f n 1 (toUsed n .value (word p)) (operandDrops n f) 0 (.phase f.cfg p)))

/-- FENCE (R175, R213). -/
def execFence (n : Node) (s : State) : Outcome State Fault Refusal :=
  .next (fire s 0x161 n fun c t =>
    let f := c.f
    if (lOperand c).kind = .null then issueSimple t c 10 (toUsed n .null 0) []
    else
      match scopeCap t f (litBits n 11 3) with
      | none => failCode t c 0x12
      | some (scope, t1) =>
        some (pushIssued (charge t1 f.bh f.pe 10 1) f n 1 (toUsed n .value (lOperand c).payload) (operandDrops n f) 0
          (.reqs (releaseSet t1 f.vf scope))))

/-- Publish early every pending store of a PE, group by group (R168). -/
def publishPe (s : State) (b pe vf lid scope : Nat) : State × List Nat :=
  (s.cfgs.filter fun g => g.bh == b && g.vf == vf).foldl (fun acc g =>
    let w := publishEarly acc.1 b vf lid g.mode scope fun p => p.bh == b && p.pe == pe && p.cfg == g.id
    (w.1, acc.2 ++ w.2)) (s, [])

/-- AFENCE (R168, R213). It waits in the ready queue while a store of its PE is still being translated (R167). -/
def execAfence (n : Node) (s : State) : Outcome State Fault Refusal :=
  .next (fire s 0x162 n fun c t =>
    let f := c.f
    if (lOperand c).kind = .null then issueSimple t c 10 (toUsed n .null 0) []
    else
      match scopeCap t f (litBits n 11 3) with
      | none => failCode t c 0x12
      | some (scope, t1) =>
        if t.stores.any fun p => p.bh == f.bh && p.pe == f.pe && p.vf == f.vf && storeLive t p && p.parts.isEmpty then none
        else
          let w := publishPe t1 f.bh f.pe f.vf f.lid scope
          let t2 := modPE w.1 f.bh f.pe fun p => { p with phys := true }
          some (pushIssued (charge t2 f.bh f.pe 10 1) f n 1 (toUsed n .value (lOperand c).payload) (operandDrops n f) 0
            (.reqs (w.2 ++ releaseSet t2 f.vf scope))))

end Sys2Proof.Machine
end

