-- ==== Sys2Proof/Machine/Engines.lean ====
section
/-! DEFINITION. Engine commands: the pumps, the gather engines and the affine generators (R121 to R125, R173, R195 to R208), their issue, their
start, and their steps ENGINE_COMPLETION, STREAM_ELEMENT and MCAST_LAG_EXPIRE. -/

namespace Sys2Proof.Machine

open Host

/-- The descriptor that a node names (R195). -/
def descOf (s : State) (f : Firing) (n : Node) : Nat :=
  match cfgAt s f.cfg with
  | some c => (c.descs.getD (litBits n 0 8) 0).toNat
  | none => 0

/-- ACQ and REL of an engine command (R183). -/
def cmdAcq (n : Node) : Bool := litBits n 14 1 == 1
def cmdRel (n : Node) : Bool := litBits n 15 1 == 1

/-- The scope of an engine command, clamped (R174): none is a SCOPE_FAULT. -/
def cmdScope (s : State) (c : Ctx) : Option (Nat × State) :=
  if cmdAcq c.n || cmdRel c.n then scopeCap s c.f (litBits c.n 11 3) else some (0, s)

/-- The commands of an agent, in order of arrival. Those of a VF that has been switched out are released from it (R39). -/
def agentCmds (s : State) (a : Agent) : List Cmd := s.cmds.filter fun c => c.agent == a && standsIn s c.f.bh c.f.pe c.f.vf

/-- Whether an engine can take another command: at most 16 are queued behind those it works on (R121, R202). -/
def engineFree (s : State) (a : Agent) : Bool := decide (((agentCmds s a).filter fun c => !c.started).length < 16)

/-- The command of an id. -/
def cmdAt (s : State) (id : Nat) : Option Cmd := s.cmds.find? fun c => c.id == id

/-- Replace a command. -/
def cmdPut (s : State) (c : Cmd) : State := { s with cmds := s.cmds.map fun x => if x.id == c.id then c else x }

/-- Take a command away. -/
def cmdDel (s : State) (id : Nat) : State := { s with cmds := s.cmds.filter fun x => x.id != id }

/-- The requests of a command, in row order. -/
def cmdReqs (s : State) (id : Nat) : List Req :=
  s.reqs.filter fun r => match r.owner with | .cmd c _ => c == id | _ => false

/-- A request of a command. -/
def rowReq (c : Cmd) (kind va len row : Nat) : Req := { reqFor c.f c.agent kind va len (.cmd c.id row) with mode := 2 }

/-- Whether a command may make its first read: acq holds it back until the writes of R173 have settled. -/
def acqClear (s : State) (c : Cmd) : Bool := !cmdAcq c.node || c.waitFor.all (waitClear s)

/-- Element j of an index tile's row 0 (R122, R198, R207). -/
def indexAt (ifmt : Nat) (row0 : List Byte) (j : Nat) : Int :=
  match ifmt with
  | 0 => (fieldAt row0 (4 * j) 4 : Nat)
  | 1 => sextInt 32 (fieldAt row0 (4 * j) 4)
  | _ => (fieldAt row0 (8 * j) 8 : Nat)

/-- The rows of a gather or a scatter that are in range: the row and its address, and how many are not (R122, R207). -/
def indexRows (d base : Nat) (row0 : List Byte) (limit : Nat) : List (Nat × Nat) × Nat :=
  let rows := bits d 6 5
  let lim := bits d 64 32
  let good (j : Nat) : Bool :=
    let x := indexAt (bits d 4 2) row0 j
    decide (0 ≤ x) && decide (x < lim) && decide (j < limit)
  (((List.range rows).filter good).map fun j => (j, wrapNat 64 (base + indexAt (bits d 4 2) row0 j * (bits d 32 32 : Nat))),
   ((List.range rows).filter fun j => !good j).length)

/-- Drop the handle operands of a command (R58, R207). -/
def dropOperands (s : State) (c : Cmd) : State :=
  (operandDrops c.node c.f).foldl (fun t x => match x with | .drop h g n => dropRef t c.f.bh c.f.pe h g n | _ => t) s

/-- Bytes of a source row (R191, R203). -/
def getLength (t : TidEntry) : Nat := if t.form = 2 then laneCount t.fmt * tyWidth t.fmt / 8 else 512

/-- The address of element k of an affine descriptor, dimension 0 innermost (R123, R196). -/
def affineAddr (d : Nat) (delta : Int) (k : Nat) : Nat :=
  let c (i : Nat) : Nat := max 1 (bits d (64 + 12 * i) 12)
  let st (i : Nat) : Int := sextInt 20 (bits d (112 + 20 * i) 20)
  let i0 := k % c 0
  let i1 := k / c 0 % c 1
  let i2 := k / c 0 / c 1 % c 2
  let i3 := k / c 0 / c 1 / c 2
  wrapNat 64 ((bits d 8 47 : Nat) + delta + i0 * st 0 + i1 * st 1 + i2 * st 2 + i3 * st 3)

/-- Elements of an affine descriptor (R123). -/
def affineCount (d : Nat) : Nat := (List.range 4).foldl (fun a i => a * bits d (64 + 12 * i) 12) 1

/-- The extents lo and hi of an affine descriptor (R124). -/
def affineExtent (d : Nat) : Int × Int :=
  let c (i : Nat) : Int := (bits d (64 + 12 * i) 12 : Nat)
  let st (i : Nat) : Int := sextInt 20 (bits d (112 + 20 * i) 20)
  ((List.range 4).foldl (fun a i => a + min 0 (st i) * (c i - 1)) 0,
   (List.range 4).foldl (fun a i => a + max 0 (st i) * (c i - 1)) 0 + (2 ^ bits d 4 2 : Nat))

/-- The offset ΔB of a stream firing (R208). -/
def streamDelta (d : Nat) (f : Firing) : Int := if bitAt d 6 then (payloadAt f .l).toInt else 0

/-- Ask for element k of a stream (R123, R208). -/
def streamAsk (s : State) (c : Cmd) (k : Nat) : State :=
  let d := descOf s c.f c.node
  sendReq s (rowReq c 7 (affineAddr d (streamDelta d c.f) k) (2 ^ bits d 4 2) k)

/-- The PE of a multicast consumer, and its node, port and PE fields (R199). -/
def conPe (d i : Nat) : Nat := bits d (32 + 28 * i) 9
def conNode (d i : Nat) : Nat := bits d (41 + 28 * i) 12
def conPort (d i : Nat) : Port := (portOfCode (bits d (53 + 28 * i) 2)).getD .l

/-- The resident cycles of a VF in the slot of a multicast consumer (R206). -/
def conCycles (s : State) (c : Cmd) (i : Nat) : Nat := (getSlot s c.f.bh (slotOf (conPe (descOf s c.f c.node) i))).resCycles

/-- The requests of a command's rows, in order. A row for which the engine reads a unit with an uncorrectable error sends none: its part has failed with
POISON (R64, R203, R204). -/
def rowsSend (s : State) (c : Cmd) (rs : List (Req × Bool)) : State :=
  rs.foldl (fun a x =>
    if x.2 then
      let e := newError a (agentSrc c.agent) 0x08
      newId { e.2 with reqs := e.2.reqs ++ [{ x.1 with id := a.nextId, ord := a.nextId, st := .finished, err := some e.1 }] }
    else sendReq a x.1) s

/-- The tile of which an engine reads its indexes or copies holds an uncorrectable error in its first n bytes of row i (R64). -/
def rowSpoilt (p : PE) (e : HEntry) (i n : Nat) : Bool := !p.spoilt.isEmpty && spoiltIn p (0x80000 + rowOffset e.pages i) n

/-- The address from which a gather or a scatter counts its rows (R198, R207): a gather adds r. -/
def gatherBase (s : State) (c : Cmd) : Nat :=
  let b := bits (descOf s c.f c.node) 96 47
  if c.code = 0x14D then wrapNat 64 ((b : Nat) + (payloadAt c.f .r).toInt) else b

/-- Bytes of index that a gather or a scatter reads (R198, R207). -/
def indexLength (d : Nat) : Nat := bits d 6 5 * (if bits d 4 2 = 2 then 8 else 4)

/-- What a gather or a scatter reads of its index tile (R198, R207): the rows in range with their addresses, and how many are not; none where the index
holds an uncorrectable error (R64). -/
def indexRead (s : State) (c : Cmd) : Option (List (Nat × Nat) × Nat) :=
  let f := c.f
  let p := getPE s f.bh f.pe
  let d := descOf s f c.node
  let e := handleAt p (handleIdx (payloadAt f .l))
  let ix := if c.code = 0x14D then e else handleAt p (handleIdx (payloadAt f .r))
  if rowSpoilt p ix 0 (indexLength d) then none
  else if c.code = 0x14D then some (indexRows d (gatherBase s c) (rowBytes p e.pages 0) 16)
  else some (indexRows d (gatherBase s c) (rowBytes p ix.pages 0) (tileHeight s f.vf e))

/-- The requests that a command makes for its rows, in order, as its tiles stand; marked are those for which the engine reads a unit with an uncorrectable
error (R64, R203, R204, R207). -/
def cmdRows (s : State) (c : Cmd) : List (Req × Bool) :=
  let f := c.f
  let p := getPE s f.bh f.pe
  let lv := (payloadAt f .l).toNat
  let d := descOf s f c.node
  let e := handleAt p (handleIdx (payloadAt f .l))
  match c.code with
  | 0x149 =>
    (match tidEntry s f.vf (litBits c.node 0 10) with
     | none => []
     | some t =>
       let st := (payloadAt f .r).toInt
       (List.range t.rows).map fun (i : Nat) => (rowReq c 2 (wrapNat 64 ((lv : Int) + (i : Int) * st)) (getLength t) i, false))
  | 0x14A =>
    let st := if litBits c.node 0 10 = 0 then 512 else 16 * litBits c.node 0 10
    (List.range (tileHeight s f.vf e)).map fun i =>
      ({ rowReq c 3 (((payloadAt f .r).toNat + i * st) % 2 ^ 64) 512 i with write := true, data := rowBytes p e.pages i }, rowSpoilt p e i 512)
  | 0x14D =>
    (match indexRead s c with
     | none => [(rowReq c 4 (gatherBase s c) 0 0, true)]
     | some g => g.1.map fun x => (rowReq c 4 x.2 (16 * bits d 26 6) x.1, false))
  | 0x14E =>
    let n := 16 * bits d 26 6
    (match indexRead s c with
     | none => [(rowReq c 5 (gatherBase s c) 0 0, true)]
     | some g => g.1.map fun x => ({ rowReq c 5 x.2 n x.1 with write := true, data := (rowBytes p e.pages x.1).take n }, rowSpoilt p e x.1 n))
  | _ => []

/-- From how many places each residue of an address modulo 256 is reached, after one more dimension of n steps of a stride (R123). -/
def residueStep (h : List Nat) (n : Nat) (st : Int) : List Nat :=
  (List.range 256).map fun (r : Nat) =>
    (((List.range 256).map fun (j : Nat) => (n / 256 + if j < n % 256 then 1 else 0) * h.getD (wrapNat 8 ((r : Int) - (j : Int) * st)) 0)).foldl (· + ·) 0

/-- The sector requests of a stream (R112, R123, R427): one for each element, and one more for each that crosses a sector boundary. -/
def affineSectors (d : Nat) (delta : Int) : Nat :=
  let start := wrapNat 8 ((bits d 8 47 : Nat) + delta)
  let h := (List.range 4).foldl (fun h i => residueStep h (bits d (64 + 12 * i) 12) (sextInt 20 (bits d (112 + 20 * i) 20)))
    ((List.range 256).map fun r => if r = start then 1 else 0)
  affineCount d + ((List.range 256).map fun r => if 256 < r + 2 ^ bits d 4 2 then h.getD r 0 else 0).foldl (· + ·) 0

/-- The sector requests that a firing of an engine command is charged for as it issues (R427, R477, log 144). -/
def cmdSectors (s : State) (c : Cmd) : Nat :=
  let d := descOf s c.f c.node
  if c.code = 0x14F then affineSectors d (streamDelta d c.f)
  else ((cmdRows s c).map fun x => if x.2 then 0 else sectorsOf x.1.va x.1.len).foldl (· + ·) 0

/-- Charge a command as it issues; with a weight of 0 there is nothing to count. -/
def cmdCharge (s : State) (c : Cmd) : State :=
  if energyWeight s c.f.bh 9 = 0 then s else charge s c.f.bh c.f.pe 9 (cmdSectors s c)

/-- A command reads its tiles and sends its requests, in row order (R173, R203, R204, R207). -/
def cmdBegin (s : State) (c0 : Cmd) : State :=
  let c := { c0 with begun := true, waitAt := cycleOf s c0.f.bh }
  let s1 := cmdPut s c
  match c.code with
  | 0x149 => rowsSend s1 c (cmdRows s c)
  | 0x14A => rowsSend s1 c (cmdRows s c)
  | 0x14C => cmdPut s { c with since := conCycles s c 0 }
  | 0x14D =>
    let c2 := match indexRead s c with | some g => { c with bad := g.2, mask := g.1.foldl (fun m x => m + 2 ^ x.1) 0 } | none => c
    rowsSend (dropOperands (cmdPut s c2) c2) c2 (cmdRows s c2)
  | 0x14E =>
    let c2 := match indexRead s c with | some g => { c with bad := g.2, mask := g.1.length } | none => c
    rowsSend (dropOperands (cmdPut s c2) c2) c2 (cmdRows s c2)
  | 0x14F => streamAsk s1 c 0
  | _ => s1

/-- Start a command (R121, R202): it begins at once unless acq holds it back. -/
def cmdStart (s : State) (c : Cmd) : State :=
  let s1 := cmdPut s { c with started := true }
  if acqClear s c then cmdBegin s1 { c with started := true } else s1

/-- Start commands of an engine in order while fewer than four are at work (R121, R202). A frozen engine starts none (R417). -/
def startFrom : Nat → State → Agent → State
  | 0, s, _ => s
  | k + 1, s, a =>
    let cs := agentCmds s a
    let m := agentMaster a
    match cs.find? fun c => !c.started with
    | some c => if (cs.filter fun x => x.started).length < 4 ∧ !masterFrozen s m.1 m.2 then startFrom k (cmdStart s c) a else s
    | none => s

/-- startFrom for every place that can come free at once. -/
def engineStart (s : State) (a : Agent) : State := startFrom 4 s a

/-- Enter a command at its engine (R121, R202, R208). Its destinations are resolved now. -/
def cmdEnter (s : State) (c : Ctx) (a : Agent) (hidx scope : Nat) : State :=
  let p := getPE s c.f.bh c.f.pe
  let one (d : Option Dest) : Option RDest × Bool := match d with | some x => let r := resolveDest p c.f x 0 0; (some r.1, r.2) | none => (none, false)
  let r0 := one c.n.d0
  let r1 := one c.n.d1
  let waits := if cmdAcq c.n || cmdRel c.n then releaseSet s c.f.vf scope else []
  let cmd : Cmd := { id := s.nextId, code := c.code, agent := a, f := c.f, node := c.n, dests := [r0.1, r1.1], started := false, begun := false, stage := 0,
                     aux := 0, hidx := hidx, hgen := (handleAt p hidx).gen, bad := 0, mask := 0, since := 0, scope := scope, waitFor := waits,
                     bytes := [], flags := flagIf (r0.2 || r1.2) flagEmptyRead }
  engineStart (newId { cmdCharge s cmd with cmds := s.cmds ++ [cmd] }) a

/-- Issue a command of an engine, with the tile it fills where it makes one (R189, R202). -/
def engineNode (s : State) (code : Nat) (n : Node) (agent : Firing → Agent) (tid : State → Ctx → Option (Option TidEntry)) : State :=
  fire s code n fun c t =>
    match cmdScope t c with
    | none => failCode t c 0x12
    | some (scope, t1) =>
      match tid t c with
      | none => failCode t c 0x0E
      | some want =>
        if !engineFree t (agent c.f) then none
        else
          match want with
          | none => some (cmdEnter t1 c (agent c.f) 0 scope)
          | some e =>
            match allocTile t1 c.f c.f.pe e.tid e.rows true with
            | none => none
            | some (h, t2) => some (cmdEnter t2 c (agent c.f) h scope)

/-- The pump and the gather engine of a firing (R202, R121). -/
def pumpOf (f : Firing) : Agent := .pump f.bh (clusterOf f.pe)
def gatherOf (f : Firing) : Agent := .gather f.bh (slotOf f.pe)

/-- PUMP_GET (R203). -/
def execPumpGet (n : Node) (s : State) : Outcome State Fault Refusal :=
  .next (engineNode s 0x149 n pumpOf fun t c => (tidEntry t c.f.vf (litBits n 0 10)).map some)

/-- PUMP_PUT (R204). -/
def execPumpPut (n : Node) (s : State) : Outcome State Fault Refusal := .next (engineNode s 0x14A n pumpOf fun _ _ => some none)

/-- PUMP_XFER (R205). -/
def execPumpXfer (n : Node) (s : State) : Outcome State Fault Refusal := .next (engineNode s 0x14B n pumpOf fun _ _ => some none)

/-- PUMP_MCAST (R206). -/
def execPumpMcast (n : Node) (s : State) : Outcome State Fault Refusal := .next (engineNode s 0x14C n pumpOf fun _ _ => some none)

/-- GATHER (R121, R122, R207). -/
def execGather (n : Node) (s : State) : Outcome State Fault Refusal :=
  .next (engineNode s 0x14D n gatherOf fun t c => (tidEntry t c.f.vf (bits (descOf t c.f n) 16 10)).map some)

/-- SCATTER (R121, R122, R207). -/
def execScatter (n : Node) (s : State) : Outcome State Fault Refusal := .next (engineNode s 0x14E n gatherOf fun _ _ => some none)

/-- STREAM (R123, R125, R208): l is a trigger unless the descriptor takes an offset (R196). -/
def execStream (n : Node) (s : State) : Outcome State Fault Refusal :=
  match opInfo 0x14F with
  | none => .next s
  | some o =>
    let d := descOf s s.cur n
    let o1 := if bitAt d 6 then o else { o with kl := .trigger }
    .next (fireAs s o1 n (fun _ t => t) fun c t =>
      let e := affineExtent d
      let x := streamDelta d c.f
      let lo := sextInt 32 (bits d 192 32)
      let hi := lo + (bits d 224 32 : Nat)
      if bitAt d 6 ∧ !(lo ≤ x + e.1 ∧ x + e.2 ≤ hi) then failCode t c 0x0C
      else
        match cmdScope t c with
        | none => failCode t c 0x12
        | some (scope, t1) =>
          let a : Agent := .stream c.f.bh c.f.pe
          if 4 ≤ (agentCmds t a).length then none else some (cmdEnter t1 c a 0 scope))

/-- Whether the requests of a command allow its completion (R173, R203, R204): reads done; writes settled with REL, gone from the engine
without. -/
def cmdReady (s : State) (c : Cmd) : Bool :=
  let rel := cmdRel c.node
  let write := c.code == 0x14A || c.code == 0x14E
  let left (r : Req) : Bool :=
    match r.st with
    | .finished => true
    | .moving =>
      if !write then false
      else if rel then (c.scope != 7) && waitClear s (2 * r.id) && r.pieces.all fun p => p.stage != .waiting
      else r.pieces.all fun p => p.stage != .waiting
    | _ => false
  (cmdReqs s c.id).all left && (!rel || c.waitFor.all (waitClear s))

/-- The error of the first failing part of a command (R203, R204). -/
def cmdError (s : State) (c : Cmd) : Option Word :=
  (cmdReqs s c.id).findSome? fun r => match r.pieces.findSome? fun p => p.err with | some e => some e | none => r.err

/-- Flags of a command's requests (R119). -/
def cmdFlags (s : State) (c : Cmd) : BitVec 9 := (cmdReqs s c.id).foldl (fun a r => a ||| r.flags) c.flags

/-- Take a command and its finished requests away; failures already reported are forgotten (R204). Others of its engine can start. -/
def cmdEnd (s : State) (c : Cmd) : State :=
  let mine (r : Req) : Bool := match r.owner with | .cmd x _ => x == c.id | _ => false
  let told (r : Req) (p : Piece) : Bool := r.pieces.any fun q => q.err.isSome && q.pa / 2048 == p.pa / 2048
  let clear (r : Req) : Req :=
    if mine r then { r with pieces := r.pieces.map fun p => if told r p then { p with err := none, ans := p.ans.map fun d => { d with err := none } } else p }
    else r
  let s1 := { s with reqs := (s.reqs.filter fun r => !(mine r && r.st == .finished)).map clear }
  engineStart (cmdDel s1 c.id) c.agent

/-- The completion token of a command to both its destinations (R173). R9 names completion tokens among what carries a sequence number, and R75 to R79 give
value, handle and null tokens no field for one: only an error carries SEQ (log 137). -/
def cmdReply (s : State) (c : Cmd) (k : Kind) (v : Word) (fx : List Effect) : State :=
  let fl := cmdFlags s c
  pushReply (cmdEnd s c) c.f c.node 0 (c.dests.filterMap id) k v fx fl

/-- Fill what a gather left of its rows with zeros: bytes n on of the rows it read, all of the others (R122, R207). `good` has a bit for each row it read. -/
def gatherZero (p : PE) (e : HEntry) (n rows good : Nat) : PE :=
  (List.range rows).foldl (fun q i =>
    let o := if bitAt good i then n else 0
    tileWrite q (rowOffset e.pages i + o) (List.replicate (512 - o) 0)) p

/-- The planes of a row that pump.get transposes (R191). -/
def planeRow (t : TidEntry) (bs : List Byte) : Nat :=
  packPlanes (planesOf t) ((List.range (laneCount t.fmt)).map fun j => elemInt t.fmt (bits (leNat bs) (tyWidth t.fmt * j) (tyWidth t.fmt)))

/-- Write a row in plane form (R191), granule by granule: one that holds a bit of an element whose bytes are withheld stays empty (R130, R203). -/
def planeLand (p : PE) (e : HEntry) (t : TidEntry) (row : Nat) (r : Req) : PE :=
  let k := laneCount t.fmt
  let w := tyWidth t.fmt
  let bs := leBytes 512 (planeRow t (reqBytes r))
  let there (j : Nat) : Bool := (List.range ((w * j + w - 1) / 8 + 1 - w * j / 8)).all fun i => byteThere r (w * j / 8 + i)
  (List.range 32).foldl (fun q g =>
    if (List.range 128).all fun i => there ((128 * g + i) % k) then tileWrite q (rowOffset e.pages row + 16 * g) (slice bs (16 * g) 16) else q) p

/-- The tile of a command as it stands when all its rows have answered (R122, R130, R191, R203, R207). -/
def tileFilled (s : State) (c : Cmd) (t : TidEntry) : State :=
  modPE s c.f.bh c.f.pe fun p =>
    let e := handleAt p c.hidx
    if c.code = 0x14D then gatherZero p e (16 * bits (descOf s c.f c.node) 26 6) t.rows c.mask
    else if t.form = 2 then
      (cmdReqs s c.id).foldl (fun q r => match r.owner with | .cmd _ i => planeLand q e t i r | _ => q) p
    else p

/-- A command that fills a tile completes (R203, R207): its metadata and its handle, or the tile is freed and an error takes its place. -/
def tileComplete (s : State) (c : Cmd) : State :=
  let f := c.f
  let e := handleAt (getPE s f.bh f.pe) c.hidx
  let fail (v : Word) (t : State) : State := cmdReply (if e.gen = c.hgen then freeEntry t f.bh f.pe c.hidx else t) c .err v []
  let s1 := match tidEntry s f.vf e.tid with | some t => if e.gen = c.hgen then tileFilled s c t else s | none => s
  if 0 < c.bad then (let x := newError s1 (agentSrc c.agent) 0x0C; fail x.1 x.2)
  else
    match cmdError s c, tidEntry s f.vf e.tid with
    | some v, _ => fail v s1
    | none, none => cmdReply s1 c .handle (handleWord c.hidx e.tid e.gen) [.produced c.hidx]
    | none, some t =>
      let s2 := modPE s1 f.bh f.pe fun p => handlePut p c.hidx (loadedMeta t e (tileRows p e t.rows).1)
      cmdReply s2 c .handle (handleWord c.hidx e.tid e.gen) [.produced c.hidx]

/-- Copy a tile of the firing's PE to another (R205), none while the VF does not stand there or has no pages. A save lets a copy that was started run to its
completion (R214). -/
def tileCopy (s : State) (c : Cmd) (pe : Nat) : Option (Nat × Nat × State) :=
  let f := c.f
  let src := getPE s f.bh f.pe
  let e := handleAt src (handleIdx (payloadAt f .l))
  if !standsIn s f.bh pe f.vf then none
  else
    match allocTile s f pe e.tid (4 * e.pages.length) false with
    | none => none
    | some (h, t) =>
      let x := handleAt (getPE t f.bh pe) h
      let t1 := modPE t f.bh pe fun p =>
        let q := tileFill p x.pages (tileRows src e (4 * e.pages.length)).1
        handlePut q h { e with ref := 0, pages := x.pages, pend := false, gen := x.gen, payer := x.payer }
      some (h, x.gen, t1)

/-- Deliver a copy's handle token, with the references its port holds (R58, R205). -/
def copyDeliver (s : State) (c : Cmd) (pe node : Nat) (port : Port) (h gen : Nat) : State :=
  let f := c.f
  let d : RDest := { bh := f.bh, pe := pe, node := node, port := port, fp := (payloadAt f .r).toNat % 1024 }
  let e := handleAt (getPE s f.bh pe) h
  let s1 := modPE s f.bh pe fun p => handlePut p h { e with ref := refsAt s d }
  sendFlight s1 { payload := handleWord h e.tid gen, kind := .handle, vf := f.vf, fp := d.fp, port := port, node := node, bh := f.bh, pe := pe,
                  flags := 0, prio := f.prio } f.bh f.pe 0 (cycleOf s f.bh) f.lid

/-- OUT and state of a multicast consumer (R206). -/
def outGet (g : Placed) (d i : Nat) : List (Nat × Nat) × Bool :=
  match g.outs.find? fun o => o.1 == d && o.2.1 == i with
  | some o => (o.2.2.1, o.2.2.2)
  | none => ([], false)

/-- Set OUT and the state of a multicast consumer. -/
def outSet (g : Placed) (d i : Nat) (v : List (Nat × Nat)) (off : Bool) : Placed :=
  { g with outs := (g.outs.filter fun o => !(o.1 == d && o.2.1 == i)) ++ [(d, i, v, off)] }

/-- Detach a multicast consumer (R206, R433): its state and one event. -/
def detach (s : State) (g : Placed) (d i pe src lid : Nat) : State :=
  let o := outGet g d i
  if o.2 then s
  else postEvent (cfgPut s (outSet g d i o.1 true)) src g.bh (some g.vf) (some lid) 0x06 (d + i * 2 ^ 8 + pe * 2 ^ 11)

/-- Serve one consumer of a multicast: none while the firing waits on it (R206). -/
def serveOne (s : State) (c : Cmd) : Option (State × Cmd) :=
  let f := c.f
  let d := descOf s f c.node
  let dn := litBits c.node 0 8
  let i := c.stage
  match cfgAt s f.cfg with
  | none => some (s, { c with stage := i + 1 })
  | some g =>
    let o := outGet g dn i
    if o.2 then
      let t : Token := { payload := 1, kind := .null, vf := f.vf, fp := (payloadAt f .r).toNat % 1024, port := conPort d i, node := conNode d i, bh := f.bh,
                         pe := conPe d i, flags := 0, prio := f.prio }
      some (sendFlight s t f.bh f.pe 0 (cycleOf s f.bh) f.lid, { c with stage := i + 1, since := conCycles s c (i + 1), waitAt := cycleOf s f.bh })
    else if bits d 24 4 ≤ o.1.length then none
    else
      match tileCopy s c (conPe d i) with
      | none => none
      | some (h, gen, t) =>
        let t1 := copyDeliver t c (conPe d i) (conNode d i) (conPort d i) h gen
        some (cfgPut t1 (outSet g dn i (o.1 ++ [(h, gen)]) false),
              { c with stage := i + 1, mask := c.mask + 2 ^ i, since := conCycles t1 c (i + 1), waitAt := cycleOf s f.bh })

/-- Serve consumers in ascending order, at most k of them (R206); whether all are served. -/
def serveFrom : Nat → State → Cmd → State × Cmd × Bool
  | 0, s, c => (s, c, false)
  | k + 1, s, c =>
    if bits (descOf s c.f c.node) 4 3 < c.stage then (s, c, true)
    else match serveOne s c with
      | none => (s, c, false)
      | some (s1, c1) => serveFrom k s1 c1

/-- Whether a command can go on now: the VF stands in its slot; a frozen PE's affine generators emit nothing (R417, R431). -/
def cmdAwake (s : State) (c : Cmd) : Bool :=
  (c.code != 0x14F || (getPE s c.f.bh c.f.pe).frozen.isNone) && standsIn s c.f.bh c.f.pe c.f.vf && bhRuns s c.f.bh

/-- Whether an engine may make the copies of a command: a frozen engine starts nothing (R417). -/
def engineMoves (s : State) (c : Cmd) : Bool :=
  let m := agentMaster c.agent
  (c.begun && c.code != 0x14B && c.code != 0x14C) || !masterFrozen s m.1 m.2

/-- Whether the tile that a copy reads holds an uncorrectable error: the copy fails with POISON (R64, R205). -/
def copySpoilt (s : State) (c : Cmd) : Bool :=
  let p := getPE s c.f.bh c.f.pe
  let e := handleAt p (handleIdx (payloadAt c.f .l))
  (c.code == 0x14B || c.code == 0x14C) && (List.range (4 * e.pages.length)).any fun i => rowSpoilt p e i 512

/-- ENGINE_COMPLETION (R173, R202 to R208): a command that acq held back begins; one whose work is done completes; a multicast serves the consumers it can. -/
def execEngineCompletion (cmd : Nat) (s : State) : Outcome State Fault Refusal :=
  .next (match cmdAt s cmd with
  | none => s
  | some c =>
    if !c.started ∨ !cmdAwake s c ∨ !engineMoves s c then s
    else if !c.begun then (if acqClear s c then cmdBegin s c else s)
    else if !cmdReady s c then s
    else if copySpoilt s c then
      let x := newError s (agentSrc c.agent) 0x08
      cmdReply x.2 c .err x.1 (operandDrops c.node c.f)
    else
      match c.code with
      | 0x149 => tileComplete s c
      | 0x14D => tileComplete s c
      | 0x14A =>
        let e := handleAt (getPE s c.f.bh c.f.pe) (handleIdx (payloadAt c.f .l))
        (match cmdError s c with
         | some v => cmdReply s c .err v (operandDrops c.node c.f)
         | none => cmdReply s c .value (word (512 * tileHeight s c.f.vf e)) (operandDrops c.node c.f))
      | 0x14E =>
        if 0 < c.bad then (let x := newError s (agentSrc c.agent) 0x0C; cmdReply x.2 c .err x.1 [])
        else (match cmdError s c with | some v => cmdReply s c .err v [] | none => cmdReply s c .value (word c.mask) [])
      | 0x14B =>
        let d := descOf s c.f c.node
        (match tileCopy s c (bits d 4 9) with
         | none => s
         | some (h, gen, t) =>
           cmdReply (copyDeliver t c (bits d 4 9) (bits d 13 12) ((portOfCode (bits d 25 2)).getD .l) h gen) c .value 1 (operandDrops c.node c.f))
      | 0x14C =>
        let r := serveFrom 9 s c
        if r.2.2 then cmdReply r.1 r.2.1 .value (word r.2.1.mask) (operandDrops c.node c.f) else cmdPut r.1 r.2.1
      | 0x14F =>
        let d := descOf s c.f c.node
        if c.stage < affineCount d then s
        else
          let ds := (c.dests.drop 1).filterMap id
          pushReply (cmdEnd s c) c.f c.node 0 ds .value (word (affineCount d)) (operandDrops c.node c.f) (cmdFlags s c)
      | _ => s)

/-- STREAM_ELEMENT (R208): the next element's token leaves, at most one per cycle; the generator asks for the one after it. -/
def execStreamElement (cmd : Nat) (s : State) : Outcome State Fault Refusal :=
  .next (match cmdAt s cmd with
  | none => s
  | some c =>
    match (cmdReqs s cmd).find? fun r => r.owner == .cmd cmd c.stage with
    | none => s
    | some r =>
      if c.code ≠ 0x14F ∨ r.st ≠ .finished ∨ !cmdAwake s c ∨ !isResident s c.f.bh c.f.pe c.f.vf ∨ cycleOf s c.f.bh < c.since then s
      else
        let d := descOf s c.f c.node
        let err := match r.pieces.findSome? fun p => p.err with | some e => some e | none => r.err
        let tok := match err with | some e => (Kind.err, e) | none => (Kind.value, word (leNat (reqBytes r)))
        let s1 := reqDel s r.id
        let s2 := match c.dests.head? with
          | some (some x) => emitTo s1 c.f (cycleOf s c.f.bh) x tok.1 tok.2 false
          | _ => s1
        let c2 := { c with stage := c.stage + 1, since := cycleOf s c.f.bh + 1, flags := c.flags ||| r.flags }
        let s3 := cmdPut s2 c2
        if c2.stage < affineCount d then streamAsk s3 c2 c2.stage else s3)

/-- MCAST_LAG_EXPIRE (R206, R433): the wait on a consumer has reached LAG; the consumer detaches. -/
def execMcastLagExpire (cmd : Nat) (s : State) : Outcome State Fault Refusal :=
  .next (match cmdAt s cmd with
  | none => s
  | some c =>
    let d := descOf s c.f c.node
    let lag := bits d 8 16
    let i := c.stage
    match cfgAt s c.f.cfg with
    | none => s
    | some g =>
      if c.code ≠ 0x14C ∨ !c.begun ∨ !cmdAwake s c ∨ bits d 4 3 < i ∨ lag = 0 ∨ conCycles s c i < c.since + lag ∨ (outGet g (litBits c.node 0 8) i).2 ∨
          (serveOne s c).isSome then s
      else detach s g (litBits c.node 0 8) i (conPe d i) (agentSrc c.agent) c.f.lid)

end Sys2Proof.Machine
end

