-- ==== Sys2Proof/Machine/Image.lean ====
section
/-! DEFINITION. Configuration images and their validation (R99 to R107, R124, R195 to R199, R315, R339): the first failing check, with the byte
offset that R107 reports. The placer's checks 0x04 to 0x06 stand in Machine/Placer.lean. -/

namespace Sys2Proof.Machine

/-- One step of the reflected CRC-32 (R103). -/
def crcBit (c : Nat) : Nat := if c % 2 = 1 then Nat.xor (c / 2) 0xEDB88320 else c / 2

/-- One byte through the CRC-32. -/
def crcByte (c : Nat) (b : Byte) : Nat := crcBit (crcBit (crcBit (crcBit (crcBit (crcBit (crcBit (crcBit (Nat.xor c b.toNat))))))))

/-- The CRC-32 of IEEE 802.3 (R103). -/
def crc32 (bs : List Byte) : Nat := Nat.xor (bs.foldl crcByte 0xFFFFFFFF) 0xFFFFFFFF

/-- The header of an image with its bytes (R99). -/
structure Image where
  bytes    : List Byte
  w        : Nat
  h        : Nat
  nbase    : Nat
  ncount   : Nat
  mode     : Nat
  respat   : Nat
  nentry   : Nat
  wavemask : Nat
  ntid     : Nat
  ndesc    : Nat
  size     : Nat
  crc      : Nat
  offPol   : Nat
  offTid   : Nat
  offDesc  : Nat
  offRec   : Nat
  deriving DecidableEq, Repr

/-- Read an image's header (R99). -/
def imageOf (bs : List Byte) : Image :=
  { bytes := bs, w := fieldAt bs 6 1, h := fieldAt bs 7 1, nbase := fieldAt bs 8 2, ncount := fieldAt bs 10 2, mode := fieldAt bs 12 1,
    respat := fieldAt bs 13 1, nentry := fieldAt bs 14 1, wavemask := fieldAt bs 16 4, ntid := fieldAt bs 20 2, ndesc := fieldAt bs 22 2,
    size := fieldAt bs 24 4, crc := fieldAt bs 28 4, offPol := fieldAt bs 32 4, offTid := fieldAt bs 36 4, offDesc := fieldAt bs 40 4,
    offRec := fieldAt bs 44 4 }

/-- Where and why an image is rejected (R107). `off` is the image byte offset of the failing field. -/
structure RejectAt where
  why  : Reject
  x    : Nat
  y    : Nat
  node : Nat
  off  : Nat
  deriving DecidableEq, Repr

/-- A rejection outside the records. -/
def rejectOff (why : Reject) (off : Nat) : RejectAt := { why := why, x := 0, y := 0, node := 0, off := off }

/-- The payload bytes 0 to 7 of CONFIG_REJECT (R107). -/
def rejectWord (r : RejectAt) : Nat := rejectCode r.why + r.x * 2 ^ 8 + r.y * 2 ^ 12 + r.node * 2 ^ 17 + r.off % 2 ^ 32 * 2 ^ 32

/-- Checks 0x01: MAGIC, VERSION, and every section inside SIZE at a multiple of 16 (R99, R106). -/
def checkFormat (i : Image) : Option RejectAt :=
  let secs : List (Nat × Nat × Nat) :=
    [(32, i.offPol, 4 * i.w * i.h), (36, i.offTid, 16 * i.ntid), (40, i.offDesc, 32 * i.ndesc), (44, i.offRec, 12 * i.ncount * i.w * i.h)]
  if fieldAt i.bytes 0 4 ≠ 0x0D120CF0 then some (rejectOff .imageFormat 0)
  else if fieldAt i.bytes 4 2 ≠ 1 then some (rejectOff .imageFormat 4)
  else if i.size < 64 + 4 * i.nentry then some (rejectOff .imageFormat 24)
  else (secs.find? fun x => x.2.1 % 16 != 0 || decide (i.size < x.2.1 + x.2.2)).map fun x => rejectOff .imageFormat x.1

/-- Check 0x02 (R103). -/
def checkCrc (i : Image) : Option RejectAt :=
  let b := slice i.bytes 0 i.size
  if crc32 (b.take 28 ++ [0, 0, 0, 0] ++ b.drop 32) = i.crc then none else some (rejectOff .checksum 28)

/-- Checks 0x03 (R99, R106). -/
def checkShape (i : Image) : Option RejectAt :=
  let cs : List (Nat × Bool) :=
    [(6, decide (1 ≤ i.w ∧ i.w ≤ 16)), (7, decide (1 ≤ i.h ∧ i.h ≤ 32)), (8, decide (i.nbase < 4096)),
     (10, decide (1 ≤ i.ncount ∧ i.ncount + i.nbase ≤ 4096)), (12, decide (i.mode ≤ 1)), (13, decide (i.respat < 32)),
     (14, decide (i.nentry ≤ 64)), (15, fieldAt i.bytes 15 1 == 0), (16, i.mode == 1 || i.wavemask == 0), (20, decide (i.ntid ≤ 1024)),
     (22, decide (i.ndesc ≤ 256))] ++ (List.range 16).map fun k => (48 + k, fieldAt i.bytes (48 + k) 1 == 0)
  (cs.find? fun c => !c.2).map fun c => rejectOff .shape c.1

/-- The policy words (R101). -/
def imagePols (i : Image) : List (BitVec 32) := (List.range (i.w * i.h)).map fun k => BitVec.ofNat 32 (fieldAt i.bytes (i.offPol + 4 * k) 4)

/-- Check 0x1A (R101). -/
def checkPolicy (i : Image) : Option RejectAt :=
  ((List.range (i.w * i.h)).find? fun k => fieldAt i.bytes (i.offPol + 4 * k) 4 / 2 ^ 13 != 0).map fun k => rejectOff .policy (i.offPol + 4 * k + 1)

/-- The record of node number `node` of relative PE (x, y), none outside the configuration (R103). -/
def imageRecord (i : Image) (x y : Int) (node : Nat) : Option (BitVec 96) :=
  if 0 ≤ x ∧ x < (i.w : Nat) ∧ 0 ≤ y ∧ y < (i.h : Nat) ∧ i.nbase ≤ node ∧ node < i.nbase + i.ncount then
    some (recordOfBytes (slice i.bytes (i.offRec + 12 * (i.ncount * (y.toNat * i.w + x.toNat) + (node - i.nbase))) 12))
  else none

/-- The opcode row and the fields of a record whose opcode is assigned. -/
def recordInfo (w : BitVec 96) : Option (OpInfo × Node) := (opInfo (recOpcode w)).map fun o => (o, decodeNode (o.result != .nothing) w)

/-- The operand ports of a record (R71): none where its opcode is not assigned. -/
def recordPorts (w : BitVec 96) : List Port := match recordInfo w with | some (o, n) => nodePorts o n | none => []

/-- What is wrong with a named position (0), node (1) or port (2); none where the record has the port (R100, R197). -/
def targetBad (i : Image) (x y node port : Nat) : Option Nat :=
  if i.w ≤ x ∨ i.h ≤ y then some 0
  else match imageRecord i (x : Nat) (y : Nat) node with
    | none => some 1
    | some w => match portOfCode port with
      | some q => if (recordPorts w).contains q then none else some 2
      | none => some 2

/-- The entry words (R100). -/
def imageEntries (i : Image) : List Nat := (List.range i.nentry).map fun k => fieldAt i.bytes (64 + 4 * k) 4

/-- Check 0x17 (R100). -/
def checkEntries (i : Image) : Option RejectAt :=
  (List.range i.nentry).findSome? fun k =>
    let e := fieldAt i.bytes (64 + 4 * k) 4
    match targetBad i (bits e 0 4) (bits e 4 5) (bits e 9 12) (bits e 21 2) with
    | some b => some (rejectOff .entry (64 + 4 * k + b))
    | none => if e / 2 ^ 23 = 0 then none else some (rejectOff .entry (64 + 4 * k + 2))

/-- The TID section's entries as numbers of 128 bits (R102). -/
def imageTids (i : Image) : List Nat := (List.range i.ntid).map fun k => fieldAt i.bytes (i.offTid + 16 * k) 16

/-- A TID entry (R102). -/
def tidOf (e : Nat) : TidEntry :=
  { tid := bits e 0 10, fmt := tyOfCode (bits e 10 4), form := bits e 14 2, planes := bits e 16 7, rows := bits e 23 5,
    scale := sextInt 16 (bits e 32 16), ibase := BitVec.ofNat 32 (bits e 64 32) }

/-- The entry byte of a field that TID_FORMAT rejects (R106). Of several the first in the order in which R106 lists them is named (log 127).
That PLANES of an n64 entry has no bound, for want of a lane count K of n64, is the model's choice (log 147). -/
def tidBad (e : Nat) : Option Nat :=
  let t := tidOf e
  let lane : Nat := 4096 / max 1 (laneCount t.fmt)
  if bits e 28 4 ≠ 0 then some 3
  else if bits e 48 16 ≠ 0 then some 6
  else if e / 2 ^ 96 ≠ 0 then some 12
  else if t.rows = 0 ∨ 16 < t.rows then some 2
  else if t.form = 3 ∧ !([Ty.i64, .i32, .f32, .f64].contains t.fmt) then some 1
  else if (t.form = 1 ∨ t.form = 2) ∧ t.fmt = .n64 then some 1
  else if t.fmt ≠ .n64 ∧ lane < t.planes then some 2
  else none

/-- Check 0x18 (R102). -/
def checkTids (i : Image) : Option RejectAt :=
  (imageTids i).zipIdx.findSome? fun x => (tidBad x.1).map fun b => rejectOff .tidFormat (i.offTid + 16 * x.2 + b)

/-- Check 0x19 (R102): `live` are the live entries of the VF. -/
def checkTidConflict (i : Image) (live : List TidEntry) : Option RejectAt :=
  let ts := imageTids i
  ts.zipIdx.findSome? fun x =>
    let clash := (ts.take x.2).any (fun y => bits y 0 10 == bits x.1 0 10 && y != x.1) ||
      live.any fun y => y.tid == bits x.1 0 10 && y != tidOf x.1
    if clash then some (rejectOff .tidConflict (i.offTid + 16 * x.2)) else none

/-- The TID entry of an image (R315). -/
def imageTid (i : Image) (tid : Nat) : Option TidEntry := ((imageTids i).find? fun e => bits e 0 10 == tid).map tidOf

/-- Whether tld may name a TID entry (R187). -/
def tidLoads (t : TidEntry) : Bool := t.form == 0 || (t.form == 1 && 1 ≤ tyCode t.fmt && tyCode t.fmt ≤ 8)

/-- Whether a plane form is one that can be read (R191). -/
def tidPlanes (t : TidEntry) : Bool := t.form == 2 && 1 ≤ tyCode t.fmt && tyCode t.fmt ≤ 8

/-- Whether gather may name a TID entry (R187, R191, R198). -/
def tidGathers (t : TidEntry) : Bool := tidLoads t || tidPlanes t

/-- Whether pump.get may name a TID entry (R191, R203): any lane form that R106 lets stand. -/
def tidPumps (t : TidEntry) : Bool := t.form == 0 || t.form == 1 || tidPlanes t

/-- Whether an instruction may name a TID entry (R187, R191, R192, R203, R315, R339). -/
def tidFits (code : Nat) (ty : Ty) (t : TidEntry) : Bool :=
  let fm := t.fmt == ty
  let elem := t.form == 0
  match code with
  | 0x144 => tidLoads t
  | 0x146 => !(t.form == 3) && !(t.form == 2 && (tyFloat t.fmt || t.fmt == .n64))
  | 0x149 => tidPumps t
  | 0x0CC => elem && fm && t.rows == 1
  | 0x0D2 => fm && (elem || (t.form == 1 && [Ty.i64, .i32, .i16, .i8].contains t.fmt))
  | 0x0D3 => (t.form == 1 || t.form == 2) && fm
  | 0x0D5 => elem && t.fmt == .n8 && t.rows == 16
  | 0x10B => t.form == 3 && fm && t.rows == 16
  | _ => elem && fm

/-- The descriptors of an image (R103). -/
def imageDescs (i : Image) : List (BitVec 256) := (List.range i.ndesc).map fun k => BitVec.ofNat 256 (fieldAt i.bytes (i.offDesc + 32 * k) 32)

/-- The first bits of the fields of an affine descriptor that fail (R124, R196). -/
def affineBad (d : Nat) : List Nat :=
  let e := affineExtent d
  let lo := sextInt 32 (bits d 192 32)
  let hi := lo + (bits d 224 32 : Nat)
  (if bits d 7 1 ≠ 0 then [7] else []) ++ (if bits d 55 9 ≠ 0 then [55] else []) ++
  ((List.range 4).filter fun k => bits d (64 + 12 * k) 12 == 0).map (fun k => 64 + 12 * k) ++
  (if e.1 < lo then [192] else if hi < e.2 ∨ 2 ^ 40 < hi - lo then [224] else [])

/-- The first bits of the fields of a copy descriptor that fail (R197). -/
def copyBad (i : Image) (d : Nat) : List Nat :=
  (match targetBad i (bits d 4 4) (bits d 8 5) (bits d 13 12) (bits d 25 2) with
   | some 0 => [4] | some 1 => [13] | some _ => [25] | none => []) ++ (if d / 2 ^ 27 ≠ 0 then [27] else [])

/-- Whether an index descriptor's TID suits a gather (R198). -/
def gatherTid (i : Image) (d : Nat) : Bool :=
  match imageTid i (bits d 16 10) with
  | some t => t.rows == bits d 6 5 && tidGathers t
  | none => false

/-- Whether some record of an image is of an opcode and names descriptor k. -/
def descNamed (i : Image) (code k : Nat) : Bool :=
  (List.range (i.w * i.h * i.ncount)).any fun j =>
    match recordInfo (recordOfBytes (slice i.bytes (i.offRec + 12 * j) 12)) with
    | some (o, n) => o.code == code && litBits n 0 8 == k
    | none => false

/-- Whether the TID of index descriptor k fails (R107 item 4, R198): a gather's names an entry that suits it, a scatter's is zero; of one that no record names,
a TID that is not zero is a gather's. -/
def indexTidBad (i : Image) (k d : Nat) : Bool :=
  let g := descNamed i 0x14D k
  let s := descNamed i 0x14E k
  (g && !gatherTid i d) || (s && bits d 16 10 != 0) || (!g && !s && bits d 16 10 != 0 && !gatherTid i d)

/-- The first bits of the fields of an index descriptor that fail by themselves (R198). -/
def indexBad (i : Image) (k d : Nat) : List Nat :=
  (if bits d 4 2 = 3 then [4] else []) ++ (if bits d 6 5 = 0 ∨ 16 < bits d 6 5 then [6] else []) ++ (if bits d 11 5 ≠ 0 then [11] else []) ++
  (if indexTidBad i k d then [16] else []) ++ (if bits d 26 6 = 0 ∨ 32 < bits d 26 6 then [26] else []) ++
  (if d / 2 ^ 143 ≠ 0 then [143] else [])

/-- The first bits of the fields of a multicast descriptor that fail (R199). -/
def castBad (i : Image) (d : Nat) : List Nat :=
  (if bits d 7 1 ≠ 0 then [7] else []) ++ (if bits d 24 4 = 0 then [24] else []) ++ (if bits d 28 4 ≠ 0 then [28] else []) ++
  ((List.range 8).map fun k =>
    let b := 32 + 28 * k
    let c := bits d b 28
    if bits d 4 3 < k then (if c ≠ 0 then [b] else [])
    else
      (match targetBad i (bits c 0 4) (bits c 4 5) (bits c 9 12) (bits c 21 2) with
       | some 0 => [b] | some 1 => [b + 9] | some _ => [b + 21] | none => if bits c 23 5 ≠ 0 then [b + 23] else [])).flatten

/-- Check 0x1B of a descriptor by itself (R195 to R199). -/
def descBad (i : Image) (k d : Nat) : Option Nat :=
  ((match bits d 0 4 with
    | 0 => affineBad d
    | 1 => copyBad i d
    | 2 => indexBad i k d
    | 3 => castBad i d
    | _ => [0]).min?).map fun b => b / 8

/-- Check 0x1B in descriptor order (R107 item 4). -/
def checkDescs (i : Image) : Option RejectAt :=
  (imageDescs i).zipIdx.findSome? fun x => (descBad i x.2 x.1.toNat).map fun b => rejectOff .streamBounds (i.offDesc + 32 * x.2 + b)

/-- The descriptor kind that an instruction uses (R195). -/
def descKind (code : Nat) : Option Nat :=
  match code with
  | 0x14F => some 0 | 0x14B => some 1 | 0x14D => some 2 | 0x14E => some 2 | 0x14C => some 3 | _ => none

/-- Where a node's literal names a TID, the literal bits that hold it (R183, R314, R339). -/
def litTid (code : Nat) (n : Node) : Option Nat :=
  if [0x144, 0x146, 0x149, 0x0CC, 0x0CD, 0x0CE, 0x0D2, 0x0D3, 0x0D4, 0x0D5, 0x0D6, 0x0D7, 0x10B].contains code then some (litBits n 0 10)
  else if code = 0x107 then some (litBits n 4 10)
  else none

/-- The RESPAT bit that an instruction needs (R106). -/
def respatNeeds (code : Nat) : Option Nat :=
  match code with
  | 0x0D3 => some 0 | 0x0D4 => some 0 | 0x0D5 => some 1 | 0x14D => some 2 | 0x188 => some 3 | 0x189 => some 3 | 0x105 => some 4 | _ => none

/-- The failing codes of the destinations of a node at (x, y), each with a record byte (R62, R70, R106). The field that fails is the destination as a whole: the
byte named is that of its lowest bit, 6 for DEST0 and 3 for DEST1 (log 128). -/
def destFails (i : Image) (x y : Nat) (o : OpInfo) (n : Node) : List (Reject × Nat) :=
  let ex : Int := if o.code = 0x012 then 8 * sextInt 4 (litBits n 0 4) else 0
  let ey : Int := if o.code = 0x012 then 8 * sextInt 4 (litBits n 4 4) else 0
  let one (d : Dest) (byte : Nat) : List (Reject × Nat) :=
    (if d.fm = .dyn ∧ !dynOk o n then [(Reject.frameMode, 3)] else []) ++
    (if o.result = .h ∧ !(d.dx == 0 && d.dy == 0) then [(.handleEscape, byte)] else []) ++
    (match imageRecord i ((x : Nat) + d.dx.toInt + ex) ((y : Nat) + d.dy.toInt + ey) d.node.toNat with
     | none => [(.destRange, byte)]
     | some w => if (recordPorts w).contains d.port then [] else [(.destPort, byte)])
  (match n.d0 with | some d => one d 6 | none => []) ++ (match n.d1 with | some d => one d 3 | none => [])

/-- FIELD_RESERVED by field (R69, R71, R72, log 2). -/
def reservedFails (o : OpInfo) (n : Node) (w : BitVec 96) : List (Reject × Nat) :=
  let e := o.result != .nothing
  let bad0 := if e then encodeDest n.d0 != recBits w 53 22 else recBits w 53 22 != 0
  let bad1 := if e then encodeDest n.d1 != recBits w 31 22 else recBits w 31 22 != 0
  let badF := if e then encodeFm n.d0 != recBits w 29 2 || encodeFm n.d1 != recBits w 27 2 else recBits w 27 4 != 0
  (if bad0 then [(Reject.fieldReserved, 6)] else []) ++ (if bad1 ∨ badF ∨ (n.stCount = 0 ∧ n.stR) then [(.fieldReserved, 3)] else []) ++
  (if arity o n = 1 ∧ n.slot ≠ 0 then [(.fieldReserved, 9)] else [])

/-- The literal's checks against the image: a TID with a suiting entry (R315), and a descriptor that exists (R183). -/
def litImageOk (i : Image) (o : OpInfo) (n : Node) : Bool :=
  (match litTid o.code n with
   | some t => (match imageTid i t with
     | some e => tidFits o.code n.ty e
     | none => false)
   | none => true) &&
  (match descKind o.code with | some _ => decide (litBits n 0 8 < i.ndesc) | none => true)

/-- STREAM_BOUNDS as judged with a record (R107 item 5, R195, R208). -/
def descUseFails (i : Image) (x y : Nat) (o : OpInfo) (n : Node) : List (Reject × Nat) :=
  match descKind o.code, (imageDescs i)[litBits n 0 8]? with
  | some k, some d =>
    let v := d.toNat
    if bits v 0 4 ≠ k then [(.streamBounds, 0)]
    else if o.code = 0x14F then
      (match n.d0 with
       | some e =>
         (match imageRecord i ((x : Nat) + e.dx.toInt) ((y : Nat) + e.dy.toInt) e.node.toNat with
          | some t => if (recordPorts t).length = 1 then [] else [(.streamBounds, 6)]
          | none => [])
       | none => [])
    else []
  | _, _ => []

/-- Every failing code of the record of node number `node` at (x, y), with a record byte (R104, R106). `root` tells a tenant-root VF (R91). For STICKY the field
is STCOUNT, in byte 2, also where STPORT names a port that the node lacks (log 129). -/
def recordFails (i : Image) (root : Bool) (x y node : Nat) (w : BitVec 96) : List (Reject × Nat) :=
  match recordInfo w with
  | none => [(.opcodeUnassigned, 10)]
  | some (o, n) =>
    let c := o.code
    let one (bad : Bool) (why : Reject) (byte : Nat) : List (Reject × Nat) := if bad then [(why, byte)] else []
    let pairBad := c == 0x105 && !(match imageRecord i (Nat.xor x 1 : Nat) (y : Nat) node with
      | some p => recOpcode p == c && recBits p 83 4 == recBits w 83 4
      | none => false)
    let lsidBad := i.mode == 1 && (c == 0x141 || c == 0x143 || c == 0x145) && !bitAt i.wavemask (litBits n 11 5)
    one (match respatNeeds c with | some b => !bitAt i.respat b | none => false) .pattern 10 ++
    reservedFails o n w ++
    one (!bitAt o.types (tyCode n.ty)) .typeIllegal 10 ++
    one ((c == 0x0D3 || c == 0x0D4) && !((x % 4 == 0 && y % 4 == 0) || (x % 4 == 2 && y % 4 == 2))) .kindMismatch 10 ++
    one pairBad .pairPlace 10 ++
    one ((c == 0x1C9 || c == 0x1CA) && !root) .priv 10 ++
    one (arity o n != 1 && !slotOk o n) .slotRange 9 ++
    one (!flagsOk o n) .flags 2 ++
    one (!stickyOk o n) .sticky 2 ++
    destFails i x y o n ++
    one (!(litOk o n && litImageOk i o n)) .literal 0 ++
    one (hasLsid c && n.litr) .lsid 2 ++ one lsidBad .lsid 1 ++
    descUseFails i x y o n

/-- The lowest failing code of a record, with the lowest byte of the fields that fail it (R107). -/
def lowestFail (fs : List (Reject × Nat)) : Option (Reject × Nat) :=
  fs.foldl (fun a f => match a with
    | none => some f
    | some b => if rejectCode f.1 < rejectCode b.1 ∨ (rejectCode f.1 = rejectCode b.1 ∧ f.2 < b.2) then some f else some b) none

/-- Check the record of number k in image order (R107 item 5). -/
def checkRecord (i : Image) (root : Bool) (k : Nat) : Option RejectAt :=
  let blk := k / i.ncount
  let node := i.nbase + k % i.ncount
  let off := i.offRec + 12 * k
  (lowestFail (recordFails i root (blk % i.w) (blk / i.w) node (recordOfBytes (slice i.bytes off 12)))).map fun f =>
    { why := f.1, x := blk % i.w, y := blk / i.w, node := node, off := off + f.2 }

/-- Check every record in image order. -/
def checkRecords (i : Image) (root : Bool) : Option RejectAt := (List.range (i.ncount * i.w * i.h)).findSome? (checkRecord i root)

/-- R107, items 1 to 5: the first failing check of an image. -/
def imageReject (i : Image) (root : Bool) (live : List TidEntry) : Option RejectAt :=
  checkFormat i <|> checkCrc i <|> checkShape i <|> checkPolicy i <|> checkEntries i <|> checkTids i <|> checkTidConflict i live <|>
  checkDescs i <|> checkRecords i root

end Sys2Proof.Machine
end

