-- ==== Sys2Proof/Machine/Combiner.lean ====
section
/-! DEFINITION. A barrier combiner's slot and what an arrival does to it (R398, R400, R401). -/

namespace Sys2Proof.Machine

open Host

/-- A barrier token's payload (R398). -/
def barWord (phase count bid : Nat) (rel abn : Bool) : Word :=
  word (phase % 2 ^ 32 + count % 2 ^ 16 * 2 ^ 32 + bid % 16 * 2 ^ 48 + b2n rel * 2 ^ 52 + b2n abn * 2 ^ 53)

/-- What a combiner holds (R400, R401): its slot, and for a root the counts at which the phases CUR and CUR + 1 first saw an arrival. -/
structure BarSlot where
  cur   : Nat
  c0    : Nat
  a0    : Bool
  c1    : Nat
  a1    : Bool
  since : Option Nat
  next  : Option Nat
  deriving DecidableEq, Repr

/-- The timer of a combiner in a frame. -/
def barTimer (p : PE) (node fp : Nat) : Option BarTimer := p.timers.find? fun t => t.node == node && t.fp == fp

/-- A combiner's slot and timer. -/
def barRead (p : PE) (node fp sl : Nat) : BarSlot :=
  let v := (slotValue p (16 * fp + sl)).toNat
  let t := barTimer p node fp
  { cur := bits v 0 32, c0 := bits v 32 15, a0 := bitAt v 47, c1 := bits v 48 15, a1 := bitAt v 63,
    since := t.bind fun x => x.since, next := t.bind fun x => x.next }

/-- Write a combiner back: its tag is FILLED while the slot is nonzero, EMPTY otherwise (R400). -/
def barStore (p : PE) (node fp sl : Nat) (x : BarSlot) : PE :=
  let v := word (x.cur + x.c0 * 2 ^ 32 + b2n x.a0 * 2 ^ 47 + x.c1 * 2 ^ 48 + b2n x.a1 * 2 ^ 63)
  let p1 := slotPut p (16 * fp + sl) (if v = 0 then 0 else mkTag tagFilled 0 0) v
  let rest := p1.timers.filter fun t => !(t.node == node && t.fp == fp)
  { p1 with timers := if x.since.isNone ∧ x.next.isNone then rest else rest ++ [{ node := node, fp := fp, since := x.since, next := x.next }] }

/-- The distance of a phase from CUR (R400). -/
def barDist (x : BarSlot) (q : Nat) : Nat := (q + 2 ^ 32 - x.cur) % 2 ^ 32

/-- An arrival at distance 0 or 1 is combined (R400); `at_` is the resident-cycle count at which it came. -/
def barAdd (x : BarSlot) (v at_ : Nat) : BarSlot :=
  let c := bits v 32 16
  let a := bitAt v 53
  if barDist x (bits v 0 32) = 0 then { x with c0 := min (x.c0 + c) 32767, a0 := x.a0 || a, since := some (x.since.getD at_) }
  else { x with c1 := min (x.c1 + c) 32767, a1 := x.a1 || a, next := some (x.next.getD at_) }

/-- CUR advances (R400, R401). -/
def barNext (x : BarSlot) : BarSlot :=
  { cur := (x.cur + 1) % 2 ^ 32, c0 := x.c1, a0 := x.a1, c1 := 0, a1 := false, since := x.next, next := none }

/-- The held arrivals of a combiner that are near enough now are combined, in arrival order (R400): the combiner and what stays held. -/
def barHeld (node fp : Nat) : BarSlot → List Flight → BarSlot × List Flight
  | x, [] => (x, [])
  | x, h :: hs =>
    if h.tok.node = node ∧ h.tok.fp = fp ∧ barDist x (bits h.tok.payload.toNat 0 32) < 2 then barHeld node fp (barAdd x h.tok.payload.toNat h.due) hs
    else let r := barHeld node fp x hs; (r.1, h :: r.2)

/-- Every phase whose count has reached EXPECT completes in turn (R400): the releases' payloads. -/
def barRun (n : Node) (node fp expect : Nat) : Nat → BarSlot → List Flight → BarSlot × List Flight × List Word
  | 0, x, h => (x, h, [])
  | k + 1, x, h =>
    if x.c0 < expect then (x, h, [])
    else
      let w := barWord x.cur x.c0 (litBits n 0 4) (litBits n 4 1 == 1) x.a0
      let y := barHeld node fp (barNext x) h
      let r := barRun n node fp expect k y.1 y.2
      (r.1, r.2.1, w :: r.2.2)

/-- EXPECT of a node (R377). -/
def barExpect (n : Node) : Nat := litBits n 5 11 + 1

/-- Only a root combiner counts cycles (R401). -/
def barCount (n : Node) (x : BarSlot) : BarSlot := if litBits n 4 1 = 1 then x else { x with since := none, next := none }

/-- The barrier token of a firing of a combiner (R400). -/
def barPayload (f : Firing) : Word := ((f.l.orElse fun _ => f.r).getD { kind := .value, payload := 0 }).payload

/-- An arrival is combined at once, held, or discarded (R400): the state, and the releases of the phases that it completes; none where it waits for a
place in the hold queue. -/
def combine (s : State) (f : Firing) (n : Node) : Option (State × List Word) :=
  let v := barPayload f
  let p := getPE s f.bh f.pe
  let x := barRead p f.node f.fp n.slot.toNat
  let d := barDist x (bits v.toNat 0 32)
  let here := (getSlot s f.bh (slotOf f.pe)).resCycles
  if bits v.toNat 48 4 ≠ litBits n 0 4 ∨ bitAt v.toNat 52 then
    let e := newError s (peSrc f.bh f.pe) 0x0C
    some (toSink e.2 f.bh f.vf f.lid e.1, [])
  else if 2 ^ 31 ≤ d then some (postEvent s (peSrc f.bh f.pe) f.bh (some f.vf) (some f.lid) 0x11 v.toNat, [])
  else if 2 ≤ d then
    if 32 ≤ p.hold.length then none
    else
      let tok : Token := { payload := v, kind := .value, vf := f.vf, fp := f.fp, port := if f.l.isSome then .l else .r, node := f.node, bh := f.bh, pe := f.pe,
                           flags := 0, prio := f.prio }
      let h : Flight := { tok := tok, src := peKey f.bh f.pe, vc := 1, due := here, lid := f.lid, loc := true }
      some (modPE s f.bh f.pe fun q => { q with hold := q.hold ++ [h] }, [])
  else
    let r := barRun n f.node f.fp (barExpect n) 64 (barAdd x v.toNat here) p.hold
    some (modPE s f.bh f.pe fun q => { barStore q f.node f.fp n.slot.toNat (barCount n r.1) with hold := r.2.1 }, r.2.2)

end Sys2Proof.Machine
end

