-- ==== Sys2Proof/Machine/Wells.lean ====
section
/-! DEFINITION. The steps of the wells: translation, walks, parked requests, invalidation (R29 to R44), sector requests and their way between
bulkheads (R112 to R114, R407), fetch replies (R118), the sparse-update units (R126), ECC (R128 to R131), phase boundaries and the cistern
(R161, R166), and window accesses (R24, R65). -/

namespace Sys2Proof.Machine

open Host

/-- Whether a part of a request lies in a page of a VF. -/
def partIn (p : ReqPart) (vpage : Nat) : Bool := p.va / 2 ^ 14 == vpage

/-- WELL_TRANSLATE (R29, R31, R32): the well takes a request; a miss that needs a new entry of the miss-merge table waits while it is full. -/
def execWellTranslate (req : Nat) (s : State) : Outcome State Fault Refusal :=
  .next (match reqAt s req with
  | none => s
  | some r => if r.st ≠ .atWell ∨ !bhRuns s r.bh then s else wellTake s r)

/-- Whether an invalidation covers the leaf of a level through which a page is resolved, or, with level 0, the page itself (R34, R44). -/
def invalHits (v : Inval) (vf vpage lv : Nat) : Bool :=
  let sh := levelShift (if lv = 0 then 3 else lv)
  v.kind == 2 || (v.vf == vf && (v.kind == 0 || v.vpage * 2 ^ 14 / 2 ^ sh == vpage * 2 ^ 14 / 2 ^ sh))

/-- Whether an invalidation in progress covers a page of a VF through a leaf of a level (R34). -/
def invalidating (s : State) (b vf vpage lv : Nat) : Bool := (getBulk s b).invals.any fun v => v.begun && invalHits v vf vpage lv

/-- A walker meets a poisoned codeword: NOT_VALID, and one ECC_POISON event for the walk (R130). -/
def walkPoison (s : State) (vf addr : Nat) : State :=
  unitPoison s (ownMeet s vf true addr 8) vf addr

/-- The codewords of the table entries that a walk reads (R31, R128): `k` levels from a table on. -/
def walkMeet (vf va : Nat) (mask : Nat) : Nat → Nat → Nat → State → State
  | 0, _, _, s => s
  | k + 1, lv, table, s =>
    let addr := table + 8 * tableIndex va lv
    let e := mem64 s addr
    let s1 := ownMeet s vf true addr 8
    if !readable s addr then walkPoison s vf addr
    else if (pteReason mask e lv).isSome ∨ bitAt e 1 then s1
    else walkMeet vf va mask k (lv + 1) (pteOa e) s1

/-- What a completed walk answers for one part of a page. -/
def walkAnswer (s : State) (r : Req) (w : WalkRes) (p : ReqPart) : ReqPart :=
  match w with
  | .leaf pte lv => { p with res := some (judgeLeaf s r.bh r.vf r.task r.write r.atom.isSome p.va p.len pte lv), leaf := lv }
  | .fault reason lv => { p with res := some (.bad reason lv p.va), leaf := 0 }
  | .poison lv _ => { p with res := some (.bad 0x01 lv p.va), leaf := 0 }

/-- The level of the leaf that a walk found, 0 for none. -/
def walkLevel (w : WalkRes) : Nat := match w with | .leaf _ lv => lv | _ => 0

/-- PAGE_WALK_COMPLETE (R31 to R34): one walk serves every request of its miss-merge entry. Only the first 32 entries of the table have a walker; a walk that an
invalidation in progress covers is held. -/
def execPageWalkComplete (b vf vpage : Nat) (s : State) : Outcome State Fault Refusal :=
  .next (
    let va := vpage * 2 ^ 14
    let w := walk s b vf va
    if !bhRuns s b ∨ !((getBulk s b).mmt.take 32).contains (vf, vpage) ∨ invalidating s b vf vpage (walkLevel w) then s
    else
      let root := vfRoot s vf
      let s0 := if bitAt root 0 then walkMeet vf va (tenstk s b) 3 1 (bits root 14 34 * 2 ^ 14) s else s
      let s1 := modBulk s0 b fun x => { x with mmt := x.mmt.filter fun e => e != (vf, vpage) }
      let s2 := match w with | .leaf pte lv => tlbFill s1 b vf va pte lv | _ => s1
      let here (r : Req) (p : ReqPart) : Bool := r.bh == b && r.vf == vf && r.st == .walking && p.res.isNone && p.va / 2 ^ 14 == vpage
      let ids := (s.reqs.filter fun r => r.parts.any (here r)).map fun r => r.id
      ids.foldl (fun t id =>
        match reqAt t id with
        | none => t
        | some r =>
          let r1 : Req := { r with parts := r.parts.map fun p => if here r p then walkAnswer t r w p else p }
          if r1.parts.all fun p => p.res.isSome then reqJudge t r1 else reqPut t r1) s2)

/-- PARK_REFUSED_RETRY (R37): a refused request is presented again after 64 cycles. -/
def execParkRefusedRetry (req : Nat) (s : State) : Outcome State Fault Refusal :=
  .next (match reqAt s req with
  | none => s
  | some r =>
    match r.st with
    | .refused at_ => if at_ ≤ cycleOf s r.bh ∧ bhRuns s r.bh then reqAgain s r else s
    | _ => s)

/-- XBSTAT.ERR (R44). -/
def xbErr (s : State) (b : Nat) : State := regSetBits s b 0x10210 1 1 1

/-- The requests under a park id, in park order (R38). -/
def parkedUnder (s : State) (b pid : Nat) : List Req :=
  let rs := s.reqs.filter fun r => r.bh == b && (match r.st with | .parked p _ => p == pid | _ => false)
  (rs.foldl (fun m r => sins m r.ord r) ([] : SMap Req)).map (·.2)

/-- Whether a park id is open. -/
def parkOpen (s : State) (b pid : Nat) : Bool := (getBulk s b).parks.any fun p => p.1 == pid

/-- Close a park id. -/
def parkClose (s : State) (b pid : Nat) : State := modBulk s b fun x => { x with parks := x.parks.filter fun p => p.1 != pid }

/-- FQCTL_REPLAY (R38): every request under the park id is walked again, in park order, and the id closes. The well takes them in that order, behind what waits
at its input (R31). -/
def execFqctlReplay (b parkid : Nat) (s : State) : Outcome State Fault Refusal :=
  .next (if !parkOpen s b parkid then xbErr s b
  else
    let rs := parkedUnder s b parkid
    let s1 := rs.foldl (fun t r => let u := reqAgain t r; tagFollow u r (reqTag u r)) (parkClose s b parkid)
    rs.foldl (fun t r => match reqAt t r.id with | some q => if bhRuns t b then wellTake t q else t | none => t) s1)

/-- Complete a request with an error of the device's, without performing it: a load or an engine's part carries it, a store node's goes to its
destination or the graph's sink (R38, R418). -/
def reqFail (s : State) (r : Req) (v : Word) : State :=
  match r.owner with
  | .store sid =>
    let tag := (storeAt s sid).bind fun x => x.tag
    let s1 := dropStores (tagFollow (reqDel s r.id) r tag) fun p => p.sid == sid
    (match tag with
     | some id => modCtx s1 (agentBh r.agent) (match r.agent with | .pe _ i => i | _ => 0) r.vf fun p =>
         { p with fetch := p.fetch.map fun t => if t.id == id then { t with err := some (t.err.getD v) } else t }
     | none => toSink s1 r.bh r.vf r.lid v)
  | _ => reqSettle (reqPut s { r with st := .finished, err := some (r.err.getD v) }) r.id

/-- FQCTL_DROP (R38): every request under the park id completes with XLATE_FAULT, made by the well. -/
def execFqctlDrop (b parkid : Nat) (s : State) : Outcome State Fault Refusal :=
  .next (if !parkOpen s b parkid then xbErr s b
  else
    (parkedUnder s b parkid).foldl (fun t r =>
      let x := newError t (wellSrc b) 0x09
      reqFail x.2 r x.1) (parkClose s b parkid))

/-- FQCTL_BAD_OP (R44): OP 3, or a park id that is not open. -/
def execFqctlBadOp (b op parkid : Nat) (s : State) : Outcome State Fault Refusal :=
  .next (if op % 4 = 3 ∨ (op % 4 ≠ 0 ∧ !parkOpen s b parkid) then xbErr s b else s)

/-- Whether an invalidation covers something that a request holds of translation (R34, R40). -/
def invalTouches (v : Inval) (r : Req) : Bool := r.parts.any fun p => p.res.isSome && invalHits v r.vf (p.va / 2 ^ 14) p.leaf

/-- Begin the invalidation at the head of a well's queue (R34, R40): entries go; requests still being translated that hold something of it are presented
again; those already translated through it are to be waited for. One of KIND 3 only sets XBSTAT.ERR (R44). -/
def invalBegin (s : State) (b : Nat) : State :=
  let q := (getBulk s b).invals
  let rest := q.dropWhile fun v => v.kind == 3
  let s0 := if rest.length < q.length then xbErr (modBulk s b fun x => { x with invals := rest }) b else s
  match rest with
  | [] => regSetBits s0 b 0x10210 0 1 0
  | v :: vs =>
    let waits := (s.reqs.filter fun r => r.bh == b && r.st == .moving && invalTouches v r).map fun r => r.id
    let s1 := (s.reqs.filter fun r => r.bh == b && r.st == .walking && invalTouches v r).foldl reqAgain s0
    let s2 := modBulk s1 b fun x =>
      { x with tlb := (x.tlb.filter fun t => !invalHits v t.vf (t.vidx * 2 ^ levelShift t.level / 2 ^ 14) t.level)
               invals := { v with begun := true, waitFor := waits } :: vs }
    regSetBits s2 b 0x10210 0 1 1

/-- Queue an invalidation (R44): one in progress and eight held; none while there is no place. -/
def xbinvPush (s : State) (b kind vf vpage : Nat) : Option State :=
  let q := (getBulk s b).invals
  if 9 ≤ q.length then none
  else
    let s1 := modBulk s b fun x =>
      { x with invals := x.invals ++ [{ kind := kind, vf := vf, vpage := vpage, begun := false, waitFor := [] }] }
    some (if q.isEmpty then invalBegin s1 b else s1)

/-- XBINV_VF (R44). -/
def execXbinvVf (b vf : Nat) (s : State) : Outcome State Fault Refusal := .next ((xbinvPush s b 0 vf 0).getD s)
/-- XBINV_VA (R44). -/
def execXbinvVa (b vf vpage : Nat) (s : State) : Outcome State Fault Refusal := .next ((xbinvPush s b 1 vf vpage).getD s)
/-- XBINV_ALL (R44). -/
def execXbinvAll (b : Nat) (s : State) : Outcome State Fault Refusal := .next ((xbinvPush s b 2 0 0).getD s)
/-- XBINV_BAD (R44): KIND 3, which waits its turn like any other write. -/
def execXbinvBad (b : Nat) (s : State) : Outcome State Fault Refusal := .next ((xbinvPush s b 3 0 0).getD s)

/-- Whether an invalidation no longer waits for a request (R40): performed, or holding no translation. -/
def invalClear (s : State) (id : Nat) : Bool :=
  match reqAt s id with
  | none => true
  | some r => if r.st = .moving then r.pieces.all pieceAccepted else true

/-- Count a completed invalidation (R44). -/
def invalDone (s : State) (b : Nat) : State :=
  let s1 := modBulk s b fun x => { x with invals := x.invals.drop 1 }
  regSetBits s1 b 0x10210 16 16 (regBits s1 b 0x10210 16 16 + 1)

/-- Whether no buffer entry of a well matches an invalidation (R40). -/
def tlbClearOf (s : State) (b : Nat) (v : Inval) : Bool :=
  (getBulk s b).tlb.all fun t => !invalHits v t.vf (t.vidx * 2 ^ levelShift t.level / 2 ^ 14) t.level

/-- XBINV_COMPLETE (R40): no entry matches and every request it waited for is performed; the next one queued begins. -/
def execXbinvComplete (b : Nat) (s : State) : Outcome State Fault Refusal :=
  .next (match (getBulk s b).invals with
  | v :: _ => if v.begun ∧ v.waitFor.all (invalClear s) ∧ tlbClearOf s b v ∧ bhRuns s b then invalBegin (invalDone s b) b else s
  | [] => s)

/-- VFROOT_WRITE (R44): reserved bits read as zero; the VF's entries in every well of its tenant go. -/
def execVfrootWrite (vf : Nat) (v : Word) (s : State) : Outcome State Fault Refusal :=
  .next (
    let s1 := regPut s (homeOf vf) (0x10000 + 8 * (vf % 32)) (v &&& 0x0000FFFFFFFFC001#64)
    (partitionBhs s (homeOf vf)).foldl (fun t b => modBulk t b fun x => { x with tlb := x.tlb.filter fun e => e.vf != vf }) s1)

/-- Take a sector slot for a request in its own bulkhead (R113): some true from its VF's reserve; none where there is none. -/
def slotTake (s : State) (r : Req) : Option Bool :=
  let vfs := tableVfs s r.bh
  if slotsShared s r.bh < 16384 - 64 * vfs.length then some false
  else if inTables s r.bh r.vf ∧ slotsReserve s r.bh r.vf < 64 then some true
  else none

/-- Whether a row of a pump.get must wait for others of it (R142, R147): one that has not left translation, or one that reads the block for it and still waits for its
slot. -/
def rowsBehind (s : State) (r : Req) (p : Piece) : Bool :=
  let others := (readTogether s r).filter fun q => q.id != r.id
  others.any (fun q => q.st == .atWell || q.st == .walking) ||
  (p.bare && others.any fun q => q.st == .moving && (blockGroup q (p.pa / 2048)).any fun x => !x.bare && x.stage == .waiting)

/-- SECTOR_ADMIT (R112, R113, R126): the next waiting piece of a request goes on its way: to HBM under a sector slot, to a window, to the host, or
out of a spoke port. -/
def execSectorAdmit (req piece : Nat) (s : State) : Outcome State Fault Refusal :=
  .next (match reqAt s req with
  | none => s
  | some r =>
    match pieceAt r piece with
    | none => s
    | some p =>
      let first := (r.pieces.take piece).all fun q => q.stage != .waiting
      if r.st ≠ .moving ∨ p.stage ≠ .waiting ∨ !first ∨ !bhRuns s r.bh ∨ !reqGo s r ∨ !detTurn s r p.pa then s
      else
        match regionOf p.pa with
        | .hbm =>
          if reqBlocked s r ∨ rowsBehind s r p ∨ 32 ≤ (r.pieces.filter slotHeld).length ∨ !engineRoom s r then s
          else if r.atom.isSome ∧ stackOf p.pa = r.bh ∧ 256 ≤ (unitQueue s r.bh (channelOf p.pa)).length then s
          else
            (match if p.bare then some false else slotTake s r with
             | none => s
             | some res =>
               let q := { p with stage := .slotted, reached := r.bh, slotRes := res, seq := s.nextId }
               let q1 := if r.atom.isSome ∧ stackOf p.pa = r.bh then { q with stage := .queued } else q
               wstatRefresh (piecePut (newId s) r q1) r.bh)
        | .window => piecePut (newId s) r { p with stage := if winBh p.pa = r.bh then .window else .slotted, reached := r.bh, seq := s.nextId }
        | .spoke => if spokeTurn s r p ∧ !portBehind s r p then reqSettle (spokeSend s r p) req else s
        | _ => piecePut s r { p with stage := .host })

/-- Whether an earlier request of the same agent to the same target stands at the same crossing: it crosses first (R407). -/
def crossBehind (s : State) (r : Req) (p : Piece) : Bool :=
  s.reqs.any fun q => q.agent == r.agent && q.bh == r.bh && q.st == .moving && q.pieces.any fun x =>
    x.stage == .slotted && x.reached == p.reached && targetBh x.pa == targetBh p.pa && x.reached != targetBh x.pa && decide (x.seq < p.seq)

/-- EDGE_CROSSING (R407, R409, R413): a request at the next edge on its way is admitted, refused, or dropped by a reset. A sector whose block the request has
already been performed on passes with it (R147). -/
def execEdgeCrossing (req piece : Nat) (s : State) : Outcome State Fault Refusal :=
  .next (match reqAt s req with
  | none => s
  | some r =>
    match pieceAt r piece with
    | none => s
    | some p =>
      let y := targetBh p.pa
      if p.stage ≠ .slotted ∨ p.reached = y ∨ r.st ≠ .moving ∨ crossBehind s r p then s
      else
        let z := nextHop p.reached y
        match if p.ans.isSome then .passes else edgeJudge s r.bh y z p.reached r.vf (reqGateKind r) p.pa p.len with
        | .passes => piecePut (newId s) r { p with reached := z, stage := if z = y then .arrived else .slotted, seq := s.nextId }
        | .denied => reqSettle (wstatRefresh (gateRefuse s r p z) r.bh) req
        | .reset => reqSettle (wstatRefresh (resetAnswer s r p (resetSide s z p.reached)) r.bh) req)

/-- The bulkheads whose way into y enters through an edge that is OPEN or WINDOWED (R114): the edge of y that the way crosses last is the one that counts, also for
a bulkhead several crossings away (log 143). A forced edge acts as CLOSED (R406). -/
def inboundSources (s : State) (y : Nat) : List Nat :=
  (List.range 12).filter fun x => x != y && (match (List.range 3).find? fun e => (match neighbour y e with | some a => hopsInto x y a | none => false) with
    | some e => edgeField s y e != 0 && !edgeForced s y e
    | none => false)
where
  /-- Whether the way from x into y ends by crossing from a. -/
  hopsInto (x y a : Nat) : Bool := (walkWay x y 8).contains (a, y)
  /-- The crossings of the way from x to y (R407). -/
  walkWay (x y : Nat) : Nat → List (Nat × Nat)
    | 0 => []
    | k + 1 => if x = y then [] else (x, nextHop x y) :: walkWay (nextHop x y) y k

/-- Whether a piece at its target's gate finds room in its sparse-update unit's queue (R126). -/
def unitRoom (s : State) (r : Req) (p : Piece) : Bool :=
  r.atom.isNone || decide ((unitQueue s (targetBh p.pa) (channelOf p.pa)).length < 256)

/-- The pieces that arrived at a gate before another and wait there (R114). -/
def gateBefore (s : State) (y seq : Nat) : List (Req × Piece) :=
  s.reqs.foldl (fun a q => a ++ ((q.pieces.filter fun x => x.stage == .arrived && targetBh x.pa == y && decide (x.seq < seq)).map fun x => (q, x))) []

/-- A piece accepted in another bulkhead's window is cut in granules: its last one takes its number, the others new ones (R157). -/
def windowSplit (s : State) (r : Req) (p : Piece) : State :=
  let cut := (piecesOf r.bh 16 p.comp p.hostc (p.len / 16 + 2) p.off p.pa p.len).zipIdx.map fun x =>
    { p with off := x.1.off, len := x.1.len, pa := x.1.pa, key := r.pieces.length + x.2 }
  match cut.getLast? with
  | none => piecePut s r p
  | some l => reqPut s { r with pieces := (r.pieces.map fun q => if q.key == p.key then { l with key := p.key } else q) ++ cut.dropLast }

/-- INBOUND_ACCEPT (R114, R126): a request at its target's gate takes an inbound entry, in arrival order: of the shared part before no one who waits for that, of
its source's reserve before no one of that source. One whose unit's queue is full holds back its own requester alone. -/
def execInboundAccept (req piece : Nat) (s : State) : Outcome State Fault Refusal :=
  .next (match reqAt s req with
  | none => s
  | some r =>
    match pieceAt r piece with
    | none => s
    | some p =>
      let y := targetBh p.pa
      if p.stage ≠ .arrived ∨ r.st ≠ .moving ∨ !bhRuns s y then s
      else
        let src := inboundSources s y
        let before := gateBefore s y p.seq
        let mine := before.any fun x => x.1.agent == r.agent && x.1.vf == r.vf
        let sharedOk := decide (inboundShared s y < 2048 - 128 * src.length) && !(before.any fun x => unitRoom s x.1 x.2)
        let resOk := src.contains r.bh && decide (inboundReserve s y r.bh < 128) && !(before.any fun x => x.1.bh == r.bh && unitRoom s x.1 x.2)
        if mine ∨ (!sharedOk && !resOk) ∨ !unitRoom s r p then s
        else
          let st : Stage := if regionOf p.pa = .window then .window else if r.atom.isSome then .queued else .inbound
          let q := { p with stage := st, inRes := !sharedOk, seq := s.nextId }
          wstatRefresh (if st = .window then windowSplit (newId s) r q else piecePut (newId s) r q) y)

/-- Whether the order of an engine's writes lets a piece be performed: a row's parts in ascending order (R204), and a scatter's rows in turn where
they meet (R207). -/
def writeTurn (s : State) (r : Req) (p : Piece) : Bool :=
  let with_ := if regionOf p.pa = .hbm then blockGroup r (p.pa / 2048) else [p]
  let through (x : Piece) : Bool := pieceAccepted x || x.ans.isSome
  match r.owner with
  | .cmd cid row =>
    if !r.write ∨ p.ans.isSome then true
    else
      (r.pieces.all fun q => p.off ≤ q.off || through q || with_.any fun x => x.key == q.key) &&
      (r.kind != 5 || (cmdReqs s cid).all fun q =>
        match q.owner with
        | .cmd _ i => row ≤ i || q.st == .finished ||
            (q.st == .moving && q.pieces.all fun x => through x || with_.all fun w => decide (x.pa + x.len ≤ w.pa) || decide (w.pa + w.len ≤ x.pa))
        | _ => true)
  | _ => true

/-- A reply reaches its requester's well (R112, R407): its slot is free. A forced edge on the way makes it BH_RESET (R413). -/
def replyReturn (s : State) (r : Req) (p : Piece) : State :=
  let s1 := match replyBlocked s r.bh (targetBh p.pa) 8 r.bh, p.ans with
    | some z, _ => resetAnswer s r p z
    | none, some d => pieceDone s r p d.bytes d.bad d.err d.flags
    | none, none => pieceDone s r p [] [] p.err 0
  reqSettle (wstatRefresh s1 r.bh) r.id

/-- Whether an earlier reply from the same bulkhead to the same agent is still on its way: replies keep their order (R407). -/
def replyBehind (s : State) (r : Req) (p : Piece) : Bool :=
  s.reqs.any fun q => q.agent == r.agent && q.bh == r.bh && q.pieces.any fun x => x.stage == .reply && targetBh x.pa == targetBh p.pa && decide (x.seq < p.seq)

/-- SECTOR_RETURN (R112, R147): a read or write is performed at its well and its answer returns, or an answer from another bulkhead arrives. -/
def execSectorReturn (req piece : Nat) (s : State) : Outcome State Fault Refusal :=
  .next (match reqAt s req with
  | none => s
  | some r =>
    match pieceAt r piece with
    | none => s
    | some p =>
      let y := targetBh p.pa
      let perform : State := reqSettle (wstatRefresh (wstatRefresh (performPiece s r p) r.bh) y) req
      match p.stage with
      | .slotted => if regionOf p.pa = .hbm ∧ p.reached = y ∧ r.atom.isNone ∧ bhRuns s y ∧ writeTurn s r p then perform else s
      | .inbound => if bhRuns s y ∧ writeTurn s r p then perform else s
      | .reply => if replyBehind s r p then s else replyReturn s r p
      | _ => s)

/-- The handle, metadata and tile of a tld whose bytes have all come (R187, R190). -/
def tldReply (s : State) (t : Tag) (r : Req) (err : Option Word) : State :=
  let f := t.f
  let e := handleAt (getPE s f.bh f.pe) t.hidx
  match err, tidEntry s f.vf e.tid with
  | some v, _ => tagReplied (if e.kind = .tile ∧ e.pend then freeEntry s f.bh f.pe t.hidx else s) t .err v [] r.flags
  | none, none => tagReplied s t .handle (handleWord t.hidx e.tid e.gen) [.produced t.hidx] r.flags
  | none, some x =>
    let s1 := modPE s f.bh f.pe fun p => handlePut p t.hidx (loadedMeta x e (tileRows p e x.rows).1)
    tagReplied s1 t .handle (handleWord t.hidx e.tid e.gen) [.produced t.hidx] r.flags

/-- The save area of a PE for a VF, none where its directory word names no block (R428). -/
def areaOf (s : State) (b pe vf : Nat) : Option Nat :=
  let w := saveWord s vf b (slotOf pe)
  if bitAt w 0 then some (peArea (saveBlock w) pe) else none

/-- Write a handle-table entry of a VF that is away: in its saved context, and as its save area holds it (R39, R430). -/
def handleAway (s : State) (f : Firing) (h : Nat) (e : HEntry) : State :=
  let s1 := modCtx s f.bh f.pe f.vf fun p => handlePut p h e
  match areaOf s f.bh f.pe f.vf with
  | some a => ownPut s1 f.vf (a + 0x48000 + 128 * h) (handleBytes e)
  | none => s1

/-- A tag whose answer comes while its VF is away (R39): its tokens join the VF's drained tokens, which find their way to its spill ring (R393). -/
def replyAway (s : State) (t : Tag) (k : Kind) (v : Word) (fl : BitVec 9) : State :=
  let f := t.f
  let s1 := modCtx s f.bh f.pe f.vf fun p => { p with fetch := p.fetch.filter fun x => x.id != t.id }
  t.dests.foldl (fun a d =>
    let escapes := k = .handle ∧ (d.pe ≠ f.pe ∨ d.bh ≠ f.bh)
    let e : Word × State := if escapes then newError a (peSrc f.bh f.pe) 0x02 else (v, a)
    sendFlight e.2 { payload := e.1, kind := if escapes then .err else k, vf := f.vf, fp := d.fp, port := d.port, node := d.node, bh := d.bh, pe := d.pe,
                     flags := 0, prio := f.prio } f.bh f.pe 0 (cycleOf a f.bh) f.lid) (raiseFlags s1 f (t.flags ||| fl))

/-- A tld whose bytes have all come while its VF is away (R39): the entry is completed or freed in the save area. -/
def tldAway (s0 : State) (t : Tag) (r : Req) (err : Option Word) : State :=
  let f := t.f
  let dir := saveMeet s0 f.vf f.bh (slotOf f.pe)
  let pgs := (handleAt (ctxPE dir f.bh f.pe f.vf) t.hidx).pages
  let s := match err, areaOf dir f.bh f.pe f.vf with
    | none, some a => pgs.foldl (fun u g => ownMeet u f.vf true (a + 0x80000 + 2048 * g) 2048) dir
    | _, _ => dir
  let e := handleAt (ctxPE s f.bh f.pe f.vf) t.hidx
  match err with
  | some v =>
    let s1 := handleAway s f t.hidx { e with kind := .free, gen := nextGen e.gen, accFields := false, payer := 0 }
    replyAway (budgetMove s1 e.payer .page 0 (entryPages e)) t .err v r.flags
  | none =>
    let row (a i : Nat) : Nat := leNat (ownBytes s (a + 0x80000 + rowOffset e.pages i) 512)
    let e1 := match tidEntry s f.vf e.tid, areaOf s f.bh f.pe f.vf with
      | some x, some a => loadedMeta x e ((List.range x.rows).map (row a))
      | _, _ => e
    let refs (d : RDest) : Nat := match nodeInfo (ctxPE s d.bh d.pe f.vf) d.node with | some (_, n) => portRefs n d.port | none => 1
    let here := t.dests.filter fun d => d.pe == f.pe && d.bh == f.bh
    replyAway (handleAway s f t.hidx { e1 with pend := false, ref := e.ref + (here.map refs).foldl (· + ·) 0 }) t .handle (handleWord t.hidx e.tid e.gen) r.flags

/-- FETCH_REPLY (R118, R119): every piece of a tag's request has replied; the tag is REPLIED and its result follows. -/
def execFetchReply (b pe tag : Nat) (s : State) : Outcome State Fault Refusal :=
  .next (match s.reqs.find? fun r => r.owner == .tag tag && r.agent == .pe b pe && r.st == .finished with
  | none => s
  | some r =>
    let p := ctxPE s b pe r.vf
    match p.fetch.find? fun t => t.id == tag with
    | none => s
    | some t =>
      if t.st = .replied ∨ p.frozen.isSome ∨ !bhRuns s b then s
      else
        let s1 := reqDel s r.id
        let err := match r.pieces.findSome? fun q => q.err with | some e => some e | none => r.err
        let here := standsIn s b pe r.vf
        if t.code = 0x144 then (if here then tldReply s1 t r err else tldAway s1 t r err)
        else
          let a : Kind × Word := match err with | some e => (.err, e) | none => (.value, extend t.node.ty (leNat (reqBytes r)))
          if here then tagReplied s1 t a.1 a.2 [] r.flags else replyAway s1 t a.1 a.2 r.flags)

/-- The operation that a unit takes next: the oldest in its queue (R126, R178). -/
def unitHead (s : State) (b ch : Nat) : Option (Req × Piece) :=
  (unitQueue s b ch).foldl (fun a x => match a with | none => some x | some y => if x.2.seq < y.2.seq then some x else some y) none

/-- SPARSE_UPDATE_OP (R126, R209, R210): the unit performs the atomic or reduction at the head of its queue. R127 lets it combine reductions in default mode:
it never does here (log 139). -/
def execSparseUpdateOp (b ch : Nat) (s : State) : Outcome State Fault Refusal :=
  .next (if !bhRuns s b then s
  else match unitHead s b ch with
    | none => s
    | some (r, p) =>
      match r.atom with
      | none => s
      | some a =>
        if a.op = 9 then s
        else
          let d := performAtom s r p a
          reqSettle (wstatRefresh (wstatRefresh (afterPerform d.1 r.id p d.2) r.bh) b) r.id)

/-- The sector for which a piece of a request holds its slot: its own, but sector 0 for the piece that carries what is decoded from a block that is not RAW
(R142). -/
def pieceSector (s : State) (r : Req) (p : Piece) : Nat :=
  if !r.write ∧ 0 < p.len ∧ blockMeta s (p.pa / 2048) ≠ mdRaw then p.pa / 2048 * 8 else p.pa / 256

/-- Whether a piece of a request stands at the sector of an address (R128, R131). -/
def sectorBusy (s : State) (pa : Nat) : Bool :=
  s.reqs.any fun r => r.pieces.any fun p => slotHeld p && pieceSector s r p == pa / 256 && p.stage != .reply && p.stage != .host

/-- ECC_WRITEBACK (R128): a corrected codeword is written back once its sector is idle. -/
def execEccWriteback (cw : Nat) (s : State) : Outcome State Fault Refusal :=
  .next (if eccOf s cw = .correctable ∧ !sectorBusy s (cw * 32) then eccPut s cw .good else s)

/-- Scrub one codeword (R131): repaired, or poisoned and reported. -/
def scrubCw (s : State) (b cw : Nat) : State :=
  match eccOf s cw with
  | .correctable => countCorrected (eccPut s cw .good) b cw
  | .uncorrectable => poisonReport (eccPut s cw .poisoned) b 0 false cw 1
  | _ => s

/-- The physical address of sector k of a channel, in ascending order (R110, R131). -/
def scrubSector (b ch k : Nat) : Nat :=
  let i := k / 8
  b * 2 ^ 36 + i * 2 ^ 16 + Nat.xor ch (i % 32) * 2 ^ 11 + k % 8 * 256

/-- SCRUB_STEP (R131): one sector of each channel; a sector under a request is skipped. -/
def execScrubStep (b : Nat) (s : State) : Outcome State Fault Refusal :=
  .next (
    let x := getBulk s b
    if regBits s b 0x11018 16 1 = 0 ∨ cycleOf s b < x.scrubAt ∨ !bhRuns s b then s
    else
      let s1 := modBulk s b fun y => { y with scrubOff := (y.scrubOff + 1) % 2 ^ 23, scrubAt := y.cycle + max 64 (regBits s b 0x11018 0 16) }
      (List.range 32).foldl (fun t ch =>
        let pa := scrubSector b ch x.scrubOff
        if sectorBusy t pa then t else (List.range 8).foldl (fun u i => scrubCw u b (pa / 32 + i)) t) s1)

/-- Whether a wave of a group is complete (R164). -/
def waveComplete (c : Placed) (wave : Nat) : Bool :=
  (List.range 32).all fun i => !c.wavemask.getLsbD i || c.waveSeen.contains (wave, i)

/-- Whether the lowest boundary of a group can complete now (R159, R163, R164, R167). -/
def boundaryReady (s : State) (c : Placed) : Bool :=
  let sts := s.stores.filter fun x => x.cfg == c.id && x.phase == c.boundary
  let waves := c.mode == 1 && sts.any fun x => !x.parts.isEmpty && !waveComplete c x.wave
  let moving := sts.any fun x => x.parts.isEmpty && storeLive s x
  phaseCounted c c.boundary && !waves && !moving && c.valid && bhRuns s c.bh

/-- PHASE_BOUNDARY (R159 to R161, R163, R164): the pending stores of the lowest phase are published and the boundary completes; its phase nodes'
tokens follow when the writes, and those that happen before, are settled. A store that is parked keeps its phase: it is not published here, and when it has been
replayed an afence, its task's completion or the final publication publishes it (log 26). -/
def execPhaseBoundary (cfg : Nat) (s : State) : Outcome State Fault Refusal :=
  .next (match cfgAt s cfg with
  | none => s
  | some c =>
    let p := c.boundary
    let mine (x : PStore) : Bool := x.cfg == cfg && x.phase == p && !x.parts.isEmpty
    if !boundaryReady s c then s
    else
      let scope := ((c.arrivals.filter fun a => a.2.2.1 == p).map fun a => a.2.2.2).foldl max 0
      let w := publish s c.bh c.vf c.lid c.mode (pubsMoving s cfg) (s.stores.filter mine) fun _ => true
      let keys := keysOf scope w.2 ++ releaseSet s c.vf scope
      let s1 := match cfgAt w.1 cfg with
        | some g => cfgPut w.1 { g with boundary := p + 1, arrivals := g.arrivals.filter fun a => a.2.2.1 != p }
        | none => w.1
      let s2 := leaveSettle (leaveWith (groupWaits s1 cfg keys) w.2 mine)
      (rectPes c).foldl (fun t pe => modPE t c.bh pe fun q =>
        { q with issued := q.issued.map fun i => if i.wait == .phase cfg p then { i with wait := .reqs keys } else i }) s2)

/-- The cistern entries that a store firing needs to issue (R165, R185, R188); none for another firing. -/
def storeNeed (c : Ctx) : Option Nat :=
  match c.code with
  | 0x141 => some (cistEntries (payloadAt c.f .l).toNat (tyBytes c.n.ty))
  | 0x143 => some (cistEntries (indexed c) (tyBytes c.n.ty))
  | 0x145 => some (cistEntries (rWord c).toNat 512)
  | _ => none

/-- Whether a matched firing waits for cistern entries alone (R166): it would perform, and, for a tst, has a fetch tag. -/
def storeWaits (s : State) (p : PE) (f : Firing) : Bool :=
  match nodeInfo p f.node with
  | none => false
  | some (o, n) =>
    let g := applyEpass o n f
    match storeNeed { f := g, n := n, code := o.code, pol := policyOf 0 } with
    | none => false
    | some k => verdict s o n g == .perform && (cistTake s g k).isNone && (o.code != 0x145 || tagRoom s g) && !accHeld p f

/-- Whether an issued tst waits for the entries of its next row (R166, R188). -/
def tstWaits (s : State) (p : PE) (t : Tag) : Bool :=
  let e := handleAt p (handleIdx (payloadAt t.f .l))
  t.code == 0x145 && t.st == .issued && decide (t.row < tileHeight s t.f.vf e) &&
  (cistTake s t.f (cistEntries ((match t.f.r with | some r => r.payload.toNat | none => 0) + 512 * t.row) 512)).isNone

/-- The PEs of a bulkhead where stores of a VF can wait: it is resident there, and they are not frozen. -/
def storePes (s : State) (b vf : Nat) : List Nat :=
  (activePes s b).filter fun pe => isResident s b pe vf && (getPE s b pe).frozen.isNone

/-- Firings of st, stt and tst of a VF that wait for cistern entries in a bulkhead, issued tsts among them (R166). -/
def storeWaiters (s : State) (b vf : Nat) : List Firing :=
  (storePes s b vf).foldl (fun a pe =>
    let p := getPE s b pe
    a ++ (p.ready.filter fun f => f.vf == vf && storeWaits s p f) ++ ((p.fetch.filter fun t => t.f.vf == vf && tstWaits s p t).map fun t => t.f)) []

/-- With CFAULT the stores of a group that wait at the event fail: those that stand matched when they issue, a tst that has issued at once (R166, R188). -/
def storesFail (s : State) (b vf g : Nat) : State :=
  (storePes s b vf).foldl (fun t pe =>
    let p := getPE s b pe
    let hit (f : Firing) : Bool := f.vf == vf && f.cfg == g && storeWaits s p f
    let t1 := modPE t b pe fun q => { q with ready := q.ready.map fun f => if hit f then { f with fails := true } else f }
    (p.fetch.filter fun x => x.f.vf == vf && x.f.cfg == g && tstWaits s p x).foldl tstFail t1) s

/-- CISTERN_FULL (R166): stores of a VF wait, none of its firings here is issuable and none of its publications is in progress; each waiting
group is named once. With CFAULT its stores fail until an entry is returned. -/
def execCisternFull (b vf : Nat) (s : State) : Outcome State Fault Refusal :=
  .next (
    let waiters := storeWaiters s b vf
    let groups := (waiters.foldl (fun m f => if m.contains f.cfg then m else m ++ [f.cfg]) ([] : List Nat)).filter
      fun g => !(getBulk s b).cfPosted.contains g
    let publishing := s.reqs.any fun r => r.vf == vf && r.bh == b && (match r.owner with | .pub _ => true | _ => false) && !waitClear s (2 * r.id)
    if waiters.isEmpty ∨ groups.isEmpty ∨ publishing ∨ !(getBulk s b).stuck.contains vf ∨ !bhRuns s b then s
    else
      let cf := bitAt (vfScope s vf) 4
      groups.foldl (fun t g =>
        let lid := match cfgAt t g with | some c => c.lid | none => 0xFFFF
        let t1 := postEvent t (wellSrc b) b (some vf) (some lid) 0x07 lid
        let t2 := modBulk t1 b fun x => { x with cfPosted := x.cfPosted ++ [g], cfMode := if cf then x.cfMode ++ [(vf, g)] else x.cfMode }
        if cf then storesFail t2 b vf g else t2) s)

end Sys2Proof.Machine
end

