-- ==== Sys2Proof/Machine/Match.lean ====
section
/-! DEFINITION. Arrival, matching and emission: the steps TOKEN_ARRIVAL, COORDINATE_TOKEN, RESULT_EMIT and READY_AGING (R54, R81, R217 to R228,
R352, R393), the pair link (R349 to R351) and the slot's generator (R270 to R272, R330, R441). -/

namespace Sys2Proof.Machine

open Host

/-- A token as the 128-bit flit of R75. -/
def tokenBits (t : Token) : Nat :=
  t.payload.toNat + kindCode t.kind * 2 ^ 64 + t.vf % 512 * 2 ^ 66 + t.fp % 1024 * 2 ^ 75 + portCode t.port * 2 ^ 85 + t.node % 4096 * 2 ^ 87 +
  t.pe / 16 % 32 * 2 ^ 99 + t.pe % 16 * 2 ^ 104 + t.bh % 16 * 2 ^ 108 + t.flags.toNat * 2 ^ 112 + t.prio % 8 * 2 ^ 121

/-- The token of a flit (R75). -/
def tokenOf (x : Nat) : Token :=
  { payload := word x, kind := kindOfCode (bits x 64 2), vf := bits x 66 9, fp := bits x 75 10, port := (portOfCode (bits x 85 2)).getD .l,
    node := bits x 87 12, bh := bits x 108 4, pe := bits x 99 5 * 16 + bits x 104 4, flags := BitVec.ofNat 9 (bits x 112 9), prio := bits x 121 3 }

/-- Whether a token's VF can have it spilled at a slot (R393). -/
def spillable (s : State) (vf b sl : Nat) : Bool := holdsSlot s b sl vf && bitAt (saveWord s vf b sl) 0

/-- Room in a VF's spill ring for a slot: HEAD and TAIL stand in its slot header (R393, R429). -/
def spillRoom (s : State) (vf b sl : Nat) : Bool :=
  let blk := saveBlock (saveWord s vf b sl)
  decide ((mem64 s (blk + 40) + 2 ^ 64 - mem64 s (blk + 32)) % 2 ^ 64 < 65536)

/-- Whether a VF has spilled tokens for a slot (R393). -/
def hasSpilled (s : State) (b sl vf : Nat) : Bool :=
  let w := saveWord s vf b sl
  bitAt w 0 && mem64 s (saveBlock w + 40) != mem64 s (saveBlock w + 32)

/-- Append a token to a VF's spill ring (R393). -/
def spill (s : State) (t : Token) : State :=
  let s0 := saveMeet s t.vf t.bh (slotOf t.pe)
  let blk := saveBlock (saveWord s0 t.vf t.bh (slotOf t.pe))
  let s1 := ownMeet s0 t.vf true (blk + 32) 16
  let tail := mem64 s1 (blk + 40)
  memPutLe (memPutLe s1 (blk + 0x100000 + 16 * (tail % 65536)) 16 (tokenBits t)) (blk + 40) 8 (tail + 1)

/-- The references that a token holds when it arrives (R58). -/
def tokenRefs (s : State) (t : Token) : Nat := refsAt s { bh := t.bh, pe := t.pe, node := t.node, port := t.port, fp := t.fp }

/-- Discard an arriving token with an error created at its PE, whose sink is that of the live frame covering its unit (R54, R81, R223). -/
def arrivalError (s : State) (t : Token) (code : Nat) : State :=
  let s1 := dropToken s t.bh t.pe t.kind t.payload (tokenRefs s t)
  let x := newError s1 (peSrc t.bh t.pe) code
  let p := getPE s t.bh t.pe
  let lid := match (frameCovering p t.fp).bind (frameInfo p) with | some i => i.lid | none => 0xFFFF
  toSink x.2 t.bh t.vf lid x.1

/-- What an arriving token meets, in the order of R81 and R54. -/
inductive Arrival where
  | nodeBad | frameBad
  | fits (c : Placed) (o : OpInfo) (n : Node)

/-- The checks of R81 and R54. -/
def arrivalCheck (s : State) (t : Token) : Arrival :=
  let p := getPE s t.bh t.pe
  match cfgCovering s t.bh t.pe t.vf t.node, nodeInfo p t.node with
  | some c, some (o, n) =>
    if !(nodePorts o n).contains t.port then .nodeBad
    else
      let sl := n.slot.toNat + (if arity o n = 3 ∧ t.port = .p then 1 else 0)
      if frameLive p t.fp ∧ sl < 16 * 2 ^ frameClass p t.fp then .fits c o n else .frameBad
  | _, _ => .nodeBad

/-- A token that stands in a holding slot. -/
structure HeldTok where
  slot   : Nat
  port   : Port
  sticky : Bool
  count  : Nat
  kind   : Kind
  val    : Word

/-- The port that a slot state names (R50). -/
def statePort (st : Nat) : Option Port :=
  if st = tagParkL ∨ st = tagStickyL then some .l
  else if st = tagParkR ∨ st = tagStickyR then some .r
  else if st = tagParkP then some .p
  else none

/-- The held token of a slot. -/
def heldAt (p : PE) (sl : Nat) : Option HeldTok :=
  let t := slotTag p sl
  (statePort (tagState t)).map fun q =>
    { slot := sl, port := q, sticky := tagState t == tagStickyL || tagState t == tagStickyR, count := tagCount t, kind := kindOfCode (tagKind t),
      val := slotValue p sl }

/-- The sticky port of a node (R72). -/
def stickyPort (n : Node) : Option Port := if n.stCount = 0 then none else some (if n.stR then .r else .l)

/-- The state that parks a token of a port (R218). -/
def parkState (q : Port) : Nat := match q with | .l => tagParkL | .r => tagParkR | .p => tagParkP
def stickState (q : Port) : Nat := match q with | .r => tagStickyR | _ => tagStickyL

/-- What a match does with an arriving token (R218, R219). -/
inductive MatchRes where
  | overrun
  | parked (p : PE)
  | fires (p : PE) (l r pp : Option Operand)

/-- R218 for a node of arity 2 or 3. -/
def matchToken (p : PE) (o : OpInfo) (n : Node) (t : Token) : MatchRes :=
  let ar := arity o n
  let s0 := 16 * t.fp + n.slot.toNat
  let slots := if ar = 3 then [s0, s0 + 1] else [s0]
  let held := slots.filterMap (heldAt p)
  let filled := slots.filter fun sl => tagState (slotTag p sl) == tagFilled
  let q := t.port
  let stick := stickyPort n == some q
  let arr : Operand := { kind := t.kind, payload := t.payload }
  if held.any fun h => h.port == q then .overrun
  else
    let missing := (nodePorts o n).filter fun x => x != q && !(held.any fun h => h.port == x)
    if missing.length ≤ filled.length then
      let given := missing.zip filled
      let opOf (x : Port) : Option Operand :=
        if x = q then some arr
        else match held.find? fun h => h.port == x with
          | some h => some { kind := h.kind, payload := h.val }
          | none => (given.find? fun g => g.1 == x).map fun g => { kind := .value, payload := slotValue p g.2 }
      let p1 := held.foldl (fun a h =>
        if h.sticky ∧ h.count = 63 then a
        else if h.sticky ∧ 1 < h.count then slotTagPut a h.slot (mkTag (stickState h.port) (kindCode h.kind) (h.count - 1))
        else slotTagPut a h.slot 0) p
      let p2 := given.foldl (fun a g => slotTagPut a g.2 0) p1
      let p3 := if stick ∧ 1 < n.stCount.toNat then
          (match slots.find? fun sl => tagState (slotTag p2 sl) == tagEmpty with
           | some sl => slotPut p2 sl (mkTag (stickState q) (kindCode t.kind) (if n.stCount.toNat = 63 then 63 else n.stCount.toNat - 1)) t.payload
           | none => p2)
        else p2
      .fires p3 (opOf .l) (opOf .r) (opOf .p)
    else
      let tag := if stick then mkTag (stickState q) (kindCode t.kind) n.stCount.toNat else mkTag (parkState q) (kindCode t.kind) 0
      let free (sl : Nat) : Bool := tagState (slotTag p sl) == tagEmpty
      let sl := if ar = 3 ∧ q = .p ∧ free (s0 + 1) then s0 + 1 else if free s0 then s0 else s0 + 1
      .parked (slotPut p sl tag t.payload)

/-- The slot from which a match takes a port's operand, none for the arriving token's own (R218). -/
def portSlot (p : PE) (o : OpInfo) (n : Node) (t : Token) (x : Port) : Option Nat :=
  let s0 := 16 * t.fp + n.slot.toNat
  let slots := if arity o n = 3 then [s0, s0 + 1] else [s0]
  let held := slots.filterMap (heldAt p)
  let missing := (nodePorts o n).filter fun y => y != t.port && !(held.any fun h => h.port == y)
  if x = t.port then none
  else match held.find? fun h => h.port == x with
    | some h => some h.slot
    | none => ((missing.zip (slots.filter fun sl => tagState (slotTag p sl) == tagFilled)).find? fun g => g.1 == x).map (·.2)

/-- An operand that a match takes from its slot: where the slot holds an uncorrectable error, an error token with code POISON in its place (R64). -/
def slotOperand (s : State) (o : OpInfo) (n : Node) (t : Token) (x : Port) (y : Option Operand) : Option Operand × State :=
  let p := getPE s t.bh t.pe
  if p.spoilt.isEmpty ∨ y.isNone then (y, s)
  else match portSlot p o n t x with
    | none => (y, s)
    | some sl =>
      if !spoiltIn p (0x10000 + 8 * sl) 8 then (y, s)
      else
        let e := newError s (peSrc t.bh t.pe) 0x08
        (some { kind := .err, payload := e.1 }, e.2)

/-- Instructions whose firings are urgent (R225). -/
def urgentCode (code : Nat) : Bool := [0x011, 0x013, 0x160, 0x186, 0x187, 0x1C0, 0x1C1, 0x1C2].contains code

/-- Whether a ready queue can take a firing completed on a channel (R224): 128 entries, 16 of them for VC1 alone. -/
def readyRoom (p : PE) (vc : Nat) : Bool :=
  let rsv := (p.ready.filter fun f => f.rsv).length
  decide (p.ready.length - rsv < 112) || (vc == 1 && decide (rsv < 16))

/-- The firing of a match (R216, R220, R224, R225). -/
def matchFiring (s : State) (p : PE) (c : Placed) (o : OpInfo) (t : Token) (vc : Nat) (l r pp : Option Operand) : Firing :=
  let errs := (l.toList ++ r.toList ++ pp.toList).any fun x => x.kind == .err
  let rsv := vc == 1 && decide ((p.ready.filter fun f => f.rsv).length < 16)
  { bh := t.bh, pe := t.pe, node := t.node, fp := t.fp, vf := t.vf, l := l, r := r, p := pp, prio := t.prio,
    urgent := errs || vc == 1 || urgentCode o.code, matchCycle := cycleOf s t.bh, resAt := (getSlot s t.bh (slotOf t.pe)).resCycles, cfg := c.id,
    lid := c.lid, task := (frameInfo p t.fp).bind fun i => i.task, broken := p.frozen.isSome, rsv := rsv, aged := false,
    wave := match frameInfo p t.fp with | some i => i.wave | none => 0, fails := false }

/-- Enter a match in the ready queue (R224). -/
def enterReady (s : State) (p : PE) (c : Placed) (o : OpInfo) (t : Token) (vc : Nat) (l r pp : Option Operand) : State :=
  setPE s t.bh t.pe { p with ready := p.ready ++ [matchFiring s p c o t vc l r pp] }

/-- Whether an arriving token is a coordinate token (R352). -/
def isCoord (o : OpInfo) (t : Token) : Bool := o.code == 0x106 && t.port == .p && t.kind == .value

/-- The firing that an arrival at a combiner stands for, with what EPASS makes of it (R222, R400). -/
def combFiring (s : State) (c : Placed) (o : OpInfo) (n : Node) (t : Token) (vc : Nat) : Firing :=
  let one : Option Operand := some { kind := t.kind, payload := t.payload }
  let at_ (q : Port) : Option Operand := if t.port = q then one else none
  applyEpass o n (matchFiring s (getPE s t.bh t.pe) c o t vc (at_ .l) (at_ .r) (at_ .p))

/-- Whether such an arrival must wait at the router: it needs a place in the hold queue, which is full (R400). -/
def barWaits (s : State) (c : Placed) (o : OpInfo) (n : Node) (t : Token) (vc : Nat) : Bool :=
  let f := combFiring s c o n t vc
  o.code == 0x187 && decide (verdict s o n f = .perform) && (combine s f n).isNone

/-- Place an arrival at a combiner (R400, log 49): it is combined at once. The releases of the phases that it completes, and an outcome of steps 1 to 5 of R221, issue
as an urgent firing, which needs an entry (R224, R225). -/
def placeComb (s : State) (c : Placed) (o : OpInfo) (n : Node) (t : Token) (vc : Nat) : Option State :=
  let f := combFiring s c o n t vc
  let enter (u : State) (g : Firing) : Option State :=
    if readyRoom (getPE s t.bh t.pe) vc then some (modPE u t.bh t.pe fun p => { p with ready := p.ready ++ [g] }) else none
  if verdict s o n f ≠ .perform then enter s f
  else match combine s f n with
    | none => none
    | some (s1, []) => some s1
    | some (s1, w :: ws) => enter s1 { f with rel := some (w :: ws) }

/-- Place a token that passed its checks (R217 to R220): none where it must wait, for an entry of the ready queue or at a barrier. -/
def placeToken (s : State) (c : Placed) (o : OpInfo) (n : Node) (t : Token) (vc : Nat) : Option State :=
  let p := getPE s t.bh t.pe
  let one : Option Operand := some { kind := t.kind, payload := t.payload }
  let at_ (q : Port) : Option Operand := if t.port = q then one else none
  if o.code = 0x187 then placeComb s c o n t vc
  else if arity o n = 1 then
    if !readyRoom p vc then none else some (enterReady s p c o t vc (at_ .l) (at_ .r) (at_ .p))
  else
    match matchToken p o n t with
    | .overrun =>
      let s1 := dropToken s t.bh t.pe t.kind t.payload (tokenRefs s t)
      let x := newError s1 (peSrc t.bh t.pe) 0x01
      some (toSink x.2 t.bh t.vf c.lid x.1)
    | .parked p1 => some (setPE s t.bh t.pe p1)
    | .fires p1 l r pp =>
      if !readyRoom p vc then none
      else
        let a := slotOperand s o n t .l l
        let b := slotOperand a.2 o n t .r r
        let d := slotOperand b.2 o n t .p pp
        some (enterReady d.2 p1 c o t vc a.1 b.1 d.1)

/-- Whether a PE's queue of coordinate tokens has no room (R352). -/
def coordFull (p : PE) : Bool := decide (256 ≤ p.coord.length)

/-- Whether a flight is a coordinate token that waits for queue space, or a barrier arrival that waits for a hold place: later tokens pass it
(R228). -/
def passable (s : State) (x : Flight) : Bool :=
  let p := getPE s x.tok.bh x.tok.pe
  match cfgCovering s x.tok.bh x.tok.pe x.tok.vf x.tok.node, nodeInfo p x.tok.node with
  | some c, some (o, n) => (isCoord o x.tok && coordFull p) || barWaits s c o n x.tok x.vc
  | _, _ => false

/-- Whether the barrier buffer of a PE is full, so that every VC1 arrival to it waits (R400). -/
def barBufferFull (s : State) (b pe : Nat) : Bool :=
  decide (32 ≤ (s.flights.filter fun y => y.vc == 1 && y.tok.bh == b && y.tok.pe == pe &&
    (match cfgCovering s b pe y.tok.vf y.tok.node, nodeInfo (getPE s b pe) y.tok.node with
     | some c, some (o, n) => barWaits s c o n y.tok y.vc
     | _, _ => false)).length)

/-- Whether the matching stage of its PE takes no token of a flight's side and channel now: one of VC0 is held there, or the barrier buffer is full
(R224, R400). -/
def sideShut (s : State) (x : Flight) : Bool :=
  (x.vc == 0 && (getPE s x.tok.bh x.tok.pe).held.any fun y => y.loc == x.loc) || (x.vc == 1 && barBufferFull s x.tok.bh x.tok.pe)

/-- Whether an earlier flight stands before the k-th: of the same source, destination and channel (R228), or a local one of the same PE on any channel
that is open, for local tokens are taken in the order in which they were emitted (R217). -/
def flightBehind (s : State) (k : Nat) (x : Flight) : Bool :=
  (s.flights.take k).any fun y => y.src == x.src && y.tok.bh == x.tok.bh && y.tok.pe == x.tok.pe &&
    (y.vc == x.vc || (y.loc && x.loc && !sideShut s y)) && (!passable s y || passable s x)

/-- Whether a flight has been delivered, in order, and its side of the matching stage is free, with nothing held before it (R217, R224, R227). -/
def flightFree (s : State) (k : Nat) (x : Flight) : Bool :=
  let p := getPE s x.tok.bh x.tok.pe
  let c := cycleOf s x.tok.bh
  bhRuns s x.tok.bh && decide (x.due ≤ c) && decide ((if x.loc then p.localAt else p.routerAt) ≤ c) && !flightBehind s k x && !sideShut s x

/-- A flight leaves the network through its side of the matching stage. -/
def flightTake (s : State) (k : Nat) (x : Flight) : State :=
  let c := cycleOf s x.tok.bh + 1
  modPE { s with flights := s.flights.eraseIdx k } x.tok.bh x.tok.pe fun p => if x.loc then { p with localAt := c } else { p with routerAt := c }

/-- A token for a VF that is not resident (R393, R431): spilled, or discarded with TOKEN_UNHELD, a handle's references in its VF's context with it; none while its
ring is full, which ends the resident VF's quantum. -/
def strayToken (s : State) (t : Token) : Option State × State :=
  let sl := slotOf t.pe
  if !spillable s t.vf t.bh sl then
    let refs := match nodeInfo (ctxPE s t.bh t.pe t.vf) t.node with | some (_, n) => portRefs n t.port | none => 1
    let s1 := if t.kind = .handle then
        modCtx s t.bh t.pe t.vf fun p =>
          { p with late := p.late ++ [({ Firing.empty with bh := t.bh, pe := t.pe }, .drop (handleIdx t.payload) (handleGen t.payload) refs)] }
      else s
    (some (postEvent s1 (seqrSrc t.bh) t.bh (some t.vf) none 0x1A (tokenBits t)), s)
  else if spillRoom s t.vf t.bh sl then (some (spill s t), s)
  else (none, modSlot s t.bh sl fun x => { x with endNow := true })

/-- A coordinate token enters its PE's queue (R352). -/
def coordEnter (s : State) (t : Token) : State :=
  modPE s t.bh t.pe fun p => { p with coord := p.coord ++ [{ node := t.node, fp := t.fp, payload := t.payload }] }

/-- Take a token that stands at its PE's matching stage, none where it must wait (R217 to R220, R352, R393). -/
def takeToken (s : State) (x : Flight) : Option State :=
  let t := x.tok
  if !isResident s t.bh t.pe t.vf then (strayToken s t).1
  else
    match arrivalCheck s t with
    | .nodeBad => some (arrivalError s t 0x05)
    | .frameBad => some (arrivalError s t 0x04)
    | .fits c o n =>
      if isCoord o t then (if coordFull (getPE s t.bh t.pe) then none else some (coordEnter s t))
      else placeToken s c o n t x.vc

/-- Whether the matching stage will take a flight: at once, or on VC0 into the stage itself, where it is held (R224). -/
def stageTakes (s : State) (x : Flight) : Bool := (x.vc == 0 && isResident s x.tok.bh x.tok.pe x.tok.vf) || (takeToken s x).isSome

/-- Whether a flight can be taken now. Of a cycle's two arrivals at a PE, that of its own emission goes before that of its router (R217). -/
def flightDue (s : State) (k : Nat) (x : Flight) : Bool :=
  flightFree s k x &&
  (x.loc || !(s.flights.zipIdx.any fun y => y.1.loc && y.1.tok.bh == x.tok.bh && y.1.tok.pe == x.tok.pe && flightFree s y.2 y.1 && stageTakes s y.1))

/-- The slots of its frame that a token can reach (R218). -/
def tokenSlots (p : PE) (t : Token) : List Nat :=
  match nodeInfo p t.node with
  | none => []
  | some (o, n) => (List.range (arity o n - 1)).map fun k => 16 * t.fp + n.slot.toNat + k

/-- Whether the matching stage can take in this cycle a token for a frame slot that a window write reaches: the arrival goes first (R66, R217). -/
def arrivalFirst (s : State) (b pe off len : Nat) : Bool :=
  (windowRow off).1 == 2 && s.flights.zipIdx.any fun y =>
    let x := y.1
    x.tok.bh == b && x.tok.pe == pe && flightFree s y.2 x && stageTakes s x && (tokenSlots (getPE s b pe) x.tok).any fun sl => decide ((off - 0x10000) / 8 ≤ sl) && decide (sl ≤ (off + len - 1 - 0x10000) / 8)

/-- Whether a window access can be performed: its VF is resident in the target's slot (R24), a .wait or .take read finds its granules full (R179), and a write
comes after the arrivals of its cycle (R66). Granules all of whose bytes pending stores supply are not read (R162). -/
def windowReady (s : State) (r : Req) (p : Piece) : Bool :=
  let b := winBh p.pa
  let pe := winPe p.pa
  let node := match r.owner with | .tag _ => true | _ => false
  let home : Bool := match r.agent with | .pe b0 i => isResident s b0 i r.vf | _ => true
  p.stage == .window && bhRuns s b && standsIn s b pe r.vf && writeTurn s r p && !(r.write && arrivalFirst s b pe (winOff p.pa) p.len) &&
  (r.write || !node || 1 < r.mode || pieceSupplied (resupply s r p.off p.len) p ||
   home && (windowGranules (winOff p.pa) p.len).all fun g => sget false (getPE s b pe).full g)

/-- Perform a window access (R24, R64, R65, R179); what its own PE supplies is judged now (R162). -/
def windowAct (s : State) (r0 : Req) (p : Piece) : State :=
  let r := resupply s r0 p.off p.len
  let d := performWindow (reqPut s r) r p
  reqSettle (wstatRefresh (wstatRefresh (afterPerform d.1 r.id p d.2) r.bh) (winBh p.pa)) r.id

/-- WINDOW_WRITE (R65, R66): a window write takes effect. -/
def execWindowWrite (req piece : Nat) (s : State) : Outcome State Fault Refusal :=
  .next (match reqAt s req with
  | none => s
  | some r => match pieceAt r piece with | none => s | some p => if r.write ∧ windowReady s r p then windowAct s r p else s)

/-- WINDOW_ACCESS_PERFORM (R24, R179): a window access that has waited is performed once its VF is resident in the target's slot. -/
def execWindowAccessPerform (req piece : Nat) (s : State) : Outcome State Fault Refusal :=
  .next (match reqAt s req with
  | none => s
  | some r => match pieceAt r piece with | none => s | some p => if windowReady s r p then windowAct s r p else s)

/-- TOKEN_ARRIVAL (R54, R81, R217 to R220, R393): the k-th token on its way reaches its PE. A token whose match finds no entry is held in the matching
stage (R224). -/
def execTokenArrival (k : Nat) (s : State) : Outcome State Fault Refusal :=
  .next (match s.flights[k]? with
  | none => s
  | some x =>
    let t := x.tok
    if !flightDue s k x then s
    else if !isResident s t.bh t.pe t.vf then
      (match strayToken s t with
       | (some _, _) => let u := flightTake s k x; ((strayToken u t).1).getD u
       | (none, w) => w)
    else
      match arrivalCheck s t with
      | .nodeBad => arrivalError (flightTake s k x) t 0x05
      | .frameBad => arrivalError (flightTake s k x) t 0x04
      | .fits c o n =>
        if isCoord o t ∨ barWaits s c o n t x.vc then s
        else
          let u := flightTake s k x
          match placeToken u c o n t x.vc with
          | some v => v
          | none => if x.vc = 0 then modPE u t.bh t.pe fun p => { p with held := p.held ++ [x] } else s)

/-- Tokens held in the matching stage of a PE are tried again (R224); behind one that still waits, those of its side wait too. -/
def heldRetry (s : State) (b pe : Nat) : State :=
  ((getPE s b pe).held.foldl (fun (a : State × List Bool) x =>
    if a.2.contains x.loc then a
    else match takeToken (modPE a.1 b pe fun p => { p with held := p.held.erase x }) x with
      | some v => (v, a.2)
      | none => (if isResident a.1 b pe x.tok.vf then a.1 else (strayToken a.1 x.tok).2, a.2 ++ [x.loc])) (s, [])).1

/-- COORDINATE_TOKEN (R352): a coordinate token enters its PE's queue of 256, after the checks of R81 and R54. -/
def execCoordinateToken (k : Nat) (s : State) : Outcome State Fault Refusal :=
  .next (match s.flights[k]? with
  | none => s
  | some x =>
    let t := x.tok
    if !flightDue s k x ∨ !isResident s t.bh t.pe t.vf then s
    else match arrivalCheck s t with
      | .fits _ o _ => if !isCoord o t ∨ coordFull (getPE s t.bh t.pe) then s else coordEnter (flightTake s k x) t
      | _ => s)

/-- Whether what an issued firing waits for has come. -/
def waitOver (s : State) (w : Wait) : Bool :=
  match w with
  | .nothing => true
  | .reqs ids => ids.all (waitClear s)
  | _ => false

/-- Whether a destination names the coordinate port of an smma (R352). -/
def coordDest (s : State) (d : RDest) : Bool :=
  d.port == .p && (match nodeInfo (getPE s d.bh d.pe) d.node with | some (o, _) => o.code == 0x106 | none => false)

/-- The unit of a pair link, which stands with the lowest PE of its cluster: a message holds it for 16 cycles (R336). -/
def unitLink : Nat := 8
def linkHome (pe : Nat) : Nat := pe / 32 * 32 + pe % 16 / 2 * 2

/-- Put a message on the pair link, unless the link has already answered for it (R350). -/
def pairPut (s : State) (f : Firing) (pe : Nat) (sums : Option (List CellSum)) : State :=
  let p := getPE s f.bh f.pe
  match p.discards.find? fun d => d.node == f.node && d.fp == f.fp with
  | some d => setPE s f.bh f.pe { p with discards := p.discards.erase d }
  | none =>
    let k := f.bh * 128 + clusterOf f.pe
    let s1 := modPE s f.bh (linkHome f.pe) fun q => { q with units := sput 0 q.units unitLink (cycleOf s f.bh + 16) }
    { s1 with links := sput [] s1.links k (sget [] s1.links k ++ [{ pe := pe, fp := f.fp, sums := sums }]) }

/-- Write link `which` of a frame in every PE of the rectangle of the frame's own configuration (R288, R290). -/
def linkAll (s : State) (b pe fp which : Nat) (v : Word) : State :=
  match frameInfo (getPE s b pe) fp with
  | none => s
  | some i =>
    let pes := match cfgAt s i.cfg with | some c => rectPes c | none => [pe]
    pes.foldl (fun t q => modPE t b q fun p => if frameLive p fp then linkWrite p fp which v else p) s

/-- What takes effect at the end of the BH cycle in which a result is produced: the drop of references (R58), a link written (R288), a frame
freed (R289). -/
def isLate (x : Effect) : Bool :=
  match x with
  | .drop _ _ _ => true
  | .link _ _ _ => true
  | .freeFrame _ => true
  | .countAdd _ _ _ => true
  | .countSnap _ => true
  | _ => false

/-- What any other effect does as a firing's result completes. -/
def applyEffect (s : State) (f : Firing) (x : Effect) : State :=
  match x with
  | .drop _ _ _ => s
  | .link _ _ _ => s
  | .freeFrame _ => s
  | .countAdd _ _ _ => s
  | .countSnap _ => s
  | .produced h => modPE s f.bh f.pe fun p => handlePut p h { handleAt p h with pend := false }
  | .freeEntry h g => let e := handleAt (getPE s f.bh f.pe) h; if e.kind ≠ .free ∧ e.gen = g then freeEntry s f.bh f.pe h else s
  | .sinkErr v => toSink s f.bh f.vf f.lid v
  | .pairSend pe sums => pairPut s f pe sums
  | .tagFree id => modPE s f.bh f.pe fun p => { p with fetch := p.fetch.filter fun t => t.id != id }

/-- The steps at the end of a BH cycle, in their order: the references of what the matrix array has read, links, frames, references (R58, R288,
R289, R347). -/
inductive LateStep where
  | reads | links | frees | drops
  deriving DecidableEq, Repr

/-- One of those steps on one PE, in cycle c. -/
def lateOn (s : State) (b pe c : Nat) (w : LateStep) : State :=
  let p := getPE s b pe
  match w with
  | .reads =>
    let s1 := setPE s b pe { p with reads := p.reads.filter fun r => c < r.1 }
    (p.reads.filter fun r => r.1 ≤ c).foldl (fun t r => dropRef t b pe r.2.1 r.2.2 1) s1
  | .links => p.late.foldl (fun t e => match e.2 with | .link fp which v => linkAll t b pe fp which v | _ => t) s
  | .frees => p.late.foldl (fun t e => match e.2 with
      | .freeFrame fp =>
        if frameLive (getPE t b pe) fp then frameFree t b pe fp
        else
          let x := newError t (peSrc b pe) 0x04
          toSink x.2 b e.1.vf e.1.lid x.1
      | _ => t) s
  | .drops =>
    let q := p.late.foldl (fun q e => match e.2 with | .drop h g n => refDown q h g n | _ => q) p
    freeUnnamed (setPE s b pe { q with late := [] }) b pe

/-- The end of BH cycle c of a bulkhead (R58, R288, R289). -/
def endCycle (s : State) (b c : Nat) : State :=
  let one (t : State) (w : LateStep) : State := (activePes t b).foldl (fun u pe => lateOn u b pe c w) t
  [LateStep.reads, .links, .frees, .drops].foldl one s

/-- Whether the pair link is free for the message that an issued firing sends (R336). -/
def linkIdle (s : State) (x : Issued) : Bool :=
  !(x.effects.any fun e => match e with | .pairSend _ _ => true | _ => false) ||
  decide (sget 0 (getPE s x.f.bh (linkHome x.f.pe)).units unitLink ≤ cycleOf s x.f.bh)

/-- The firing's own PE as the firing resolves its destinations: the links that it writes show their new values to it (R288). -/
def ownLinks (p : PE) (fx : List Effect) : PE :=
  fx.foldl (fun q x => match x with | .link fp which v => if frameLive q fp then linkWrite q fp which v else q | _ => q) p

/-- The result of an issued firing completes (R53, R58, R227, R251, R288): destinations are resolved, tokens emitted, flags raised; references, links and
frames follow at the end of the cycle. An outcome of steps 1 to 6 raises no flag (R221, R222). -/
def completeIssued (s : State) (it : Issued) : State :=
  let f := it.f
  let c := cycleOf s f.bh
  let s0 := modPE s f.bh f.pe fun p =>
    { p with issued := (p.issued.filter fun x => x.id != it.id).map (fun x => { x with due := if x.due ≤ c then c + 1 else x.due }),
             late := p.late ++ (it.effects.filter isLate).map fun x => (f, x) }
  let p := ownLinks (getPE s0 f.bh f.pe) it.effects
  let send := match nodeInfo p f.node with | some (o, _) => o.code == 0x010 | none => false
  let es := it.emits.map fun e => ((resolveTarget p f e.target).1, e)
  let s1 := es.foldl (fun t x =>
    let vc1 := x.2.vc1 || (!send && coordDest t x.1)
    if targetSpoilt p f x.2.target then (let e := newError t (peSrc f.bh f.pe) 0x08; emitTo e.2 f c x.1 .err e.1 vc1)
    else emitTo t f c x.1 x.2.kind x.2.payload vc1) s0
  let s2 := it.effects.foldl (fun t x => applyEffect t f x) s1
  if it.quiet then s2 else raiseFlags s2 f (it.flags ||| emitFlags p f it.emits)

/-- Whether an issued item is the reply to a request or a command: its destinations were resolved at issue (R116). -/
def isReply (p : PE) (x : Issued) : Bool :=
  (x.emits.any fun e => match e.target with | .fixed _ => true | _ => false) &&
  !(match nodeInfo p x.f.node with | some (o, _) => o.code == 0x010 | none => false)

/-- RESULT_EMIT (R227): the k-th issued firing of a PE completes: its latency has passed, nothing is awaited, and none issued before it completes in
this cycle. A frozen PE's replies are held (R417). -/
def execResultEmit (b pe k : Nat) (s : State) : Outcome State Fault Refusal :=
  .next (
    let p := getPE s b pe
    let ready (x : Issued) : Bool := decide (x.due ≤ cycleOf s b) && waitOver s x.wait && linkIdle s x && !(p.frozen.isSome && isReply p x)
    match p.issued[k]? with
    | none => s
    | some it => if ready it ∧ !(p.issued.take k).any ready ∧ bhRuns s b then completeIssued s it else s)

/-- READY_AGING (R225): a normal firing that has waited 1,024 resident cycles becomes urgent; it keeps its match cycle. -/
def execReadyAging (b pe k : Nat) (s : State) : Outcome State Fault Refusal :=
  .next (
    let p := getPE s b pe
    match p.ready[k]? with
    | none => s
    | some f =>
      if !f.urgent ∧ isResident s b pe f.vf ∧ f.resAt + 1024 ≤ (getSlot s b (slotOf pe)).resCycles then
        setPE s b pe { p with ready := p.ready.set k { f with urgent := true, aged := true } }
      else s)

/-- Set what an issued firing that waited now emits, and when. -/
def issuedSet (s : State) (it : Issued) (due : Nat) (es : List Emit) (fx : List Effect) (fl : BitVec 9) : State :=
  modPE s it.f.bh it.f.pe fun p => { p with issued := p.issued.map fun x =>
    if x.id = it.id then { x with due := due, emits := es, effects := x.effects ++ fx, flags := x.flags ||| fl, wait := .nothing } else x }

/-- A leader's firing ends with an error of its own: PAIR_BROKEN or LIMIT (R350, R351). -/
def pairFail (s : State) (it : Issued) (code : Nat) : State :=
  let x := newError s (peSrc it.f.bh it.f.pe) code
  let e := errEmits it.node x.1
  issuedSet x.2 it (max it.due (cycleOf s it.f.bh)) e.1 e.2 0

/-- The oldest message for a leader's frame on its cluster's link. -/
def pairFind (s : State) (b pe fp : Nat) : Option PairMsg :=
  (sget [] s.links (b * 128 + clusterOf pe)).find? fun m => m.pe == pe && m.fp == fp

/-- Take a message off the link. -/
def pairTake (s : State) (b pe : Nat) (m : PairMsg) : State :=
  let k := b * 128 + clusterOf pe
  { s with links := sput [] s.links k ((sget [] s.links k).erase m) }

/-- A message reaches the leader firing that waits for it (R350). -/
def pairServe (s : State) (it : Issued) (own : List CellSum) (m : Option (List CellSum)) : State :=
  match m with
  | none => pairFail s it 0x0F
  | some sums =>
    let f := it.f
    let h := handleIdx (payloadAt f .p)
    let r := mergeSums s f.bh f.pe h [own, sums]
    issuedSet r.1 it (max it.due (cycleOf s f.bh + 4)) (toUsed it.node .handle (payloadAt f .p)) [] r.2

/-- PAIR_MESSAGE (R350): the leader on a PE takes the message of its oldest firing or discard that has one; a frozen follower is answered for with
BROKEN. -/
def execPairMessage (b pe : Nat) (s : State) : Outcome State Fault Refusal :=
  .next (if !bhRuns s b ∨ !pairLeader pe then s
  else
    let p := getPE s b pe
    let waits := p.issued.filterMap fun x => match x.wait with | .pair own _ _ => some (x, own) | _ => none
    let frozen := (getPE s b (pairOther pe)).frozen.isSome
    let pairs (d : Discard) : Bool := match nodeInfo p d.node with | some (o, _) => o.code == 0x105 | none => false
    let owed := (p.discards.filter fun d => pairs d && (pairFind s b pe d.fp).isSome).map fun d => (d.id, d.fp)
    let first := (waits.map fun w => (w.1.id, w.1.f.fp)).filter fun w => (pairFind s b pe w.2).isSome
    match (first ++ owed).foldl (fun a x => match a with | none => some x | some y => if x.1 < y.1 then some x else some y) none with
    | some (id, fp) =>
      (match pairFind s b pe fp with
       | none => s
       | some m =>
         let s1 := pairTake s b pe m
         match waits.find? fun w => w.1.id == id with
         | some (it, own) => pairServe s1 it own m.sums
         | none => modPE s1 b pe fun q => { q with discards := q.discards.filter fun d => !(d.id == id && d.fp == fp) })
    | none =>
      match waits.head? with
      | some (it, own) =>
        if frozen then
          let s1 := modPE s b (pairOther pe) fun q => { q with discards := q.discards ++ [{ node := it.f.node, fp := it.f.fp, id := it.id }] }
          pairServe s1 it own none
        else s
      | none => s)

/-- PAIR_LIMIT_EXPIRE (R351): the k-th issued firing, a leader, has waited 64 × LIMIT resident cycles past its array part. -/
def execPairLimitExpire (b pe k : Nat) (s : State) : Outcome State Fault Refusal :=
  .next (
    let p := getPE s b pe
    match p.issued[k]? with
    | none => s
    | some it =>
      match it.wait with
      | .pair _ limit start =>
        if limit = 0 ∨ (getSlot s b (slotOf pe)).resCycles < start + 64 * limit ∨ (pairFind s b pe it.f.fp).isSome ∨ !bhRuns s b then s
        else
          let s1 := modPE s b pe fun q => { q with discards := q.discards ++ [{ node := it.f.node, fp := it.f.fp, id := it.id }] }
          pairFail s1 it 0x10
      | _ => s)

/-- RNG_GENERATOR_SERVE (R272, R330, R441): the slot's generator takes the firing at the head of its queue: a trng gets its tile, 512 blocks; a seed
sets the generator and emits the old CTR. -/
def execRngGeneratorServe (b sl : Nat) (s : State) : Outcome State Fault Refusal :=
  .next (
    let x := getSlot s b sl
    if cycleOf s b < x.rngAt ∨ x.st = .idle ∨ !bhRuns s b then s
    else match x.rngQueue with
      | [] => s
      | (pe, id) :: q =>
        match (getPE s b pe).issued.find? fun i => i.id == id with
        | none => setSlot s b sl { x with rngQueue := q }
        | some it =>
          let c := cycleOf s b
          let seed := match nodeInfo (getPE s b pe) it.f.node with | some (o, _) => o.code == 0x1C6 | none => false
          if seed then
            let s1 := setSlot s b sl { x with rngQueue := q, rngKey := payloadAt it.f .l, rngStream := BitVec.ofNat 32 (litBits it.node 0 16), rngCtr := 0 }
            issuedSet s1 it (c + 1) (toUsed it.node .value x.rngCtr) [] 0
          else
            let h := match it.effects.findSome? fun e => (match e with | .produced h => some h | _ => none) with | some h => h | none => 0
            let rows := rngTile x.rngKey.toNat x.rngStream.toNat x.rngCtr.toNat
            let s1 := modPE s b pe fun p =>
              let e := handleAt p h
              let p1 := tileFill p e.pages rows
              match tidEntry s it.f.vf e.tid with
              | some t => handlePut p1 h (loadedMeta t e (tileRows p1 e t.rows).1)
              | none => p1
            let s2 := setSlot s1 b sl { x with rngQueue := q, rngCtr := x.rngCtr + 512, rngAt := c + 128 }
            issuedSet s2 it (c + 130) it.emits [] 0)

end Sys2Proof.Machine
end

