-- ==== Sys2Proof/Machine/Placer.lean ====
section
/-! DEFINITION. Placement, residency and dropping of configurations (R105, R106 codes 0x04 to 0x06, R232 to R234, R391, R394, R443): what a VF holds and
can come to hold, the placer's order, and the step of R105. -/

namespace Sys2Proof.Machine

/-- Whether a slot is one of a VF's own: an enabled entry that no lending made (R391). -/
def ownsSlot (s : State) (b sl vf : Nat) : Bool :=
  (List.range 8).any fun e =>
    bitAt (quantWord s b sl e) 9 && bits (quantWord s b sl e) 0 9 == vf && !(getSlot s b sl).borrowed.contains e

/-- SLOTOWN of a slot (R390). -/
def slotown (s : State) (b sl : Nat) : Nat := (regGet s b (0x18800 + 8 * sl)).toNat

/-- Whether two VFs belong to one tenant (R5, R404). -/
def sameTenant (s : State) (v w : Nat) : Bool := samePartition s (homeOf v) (homeOf w)

/-- Whether a VF has a configuration, resident or saved, in a slot. -/
def cfgInSlot (s : State) (b sl vf : Nat) : Bool := s.cfgs.any fun c => c.bh == b && c.vf == vf && (rectSlots c).contains sl

/-- Whether a slot is LENDABLE (R394). -/
def lendable (s : State) (b sl : Nat) : Bool :=
  let w := slotown s b sl
  let owner := bits w 0 9
  bitAt w 9 && !bitAt w 10 && !cfgInSlot s b sl owner &&
  (List.range 8).all fun e => !bitAt (quantWord s b sl e) 9 || bits (quantWord s b sl e) 0 9 == owner

/-- Whether a VF can come to hold a slot: it is lendable within its tenant, or it is the VF's and now lent (R233). -/
def canBorrow (s : State) (b sl vf : Nat) : Bool :=
  let w := slotown s b sl
  (lendable s b sl && sameTenant s (bits w 0 9) vf) || (bitAt w 10 && bits w 0 9 == vf)

/-- What a placement needs of an image (R232). -/
structure Shape where
  w      : Nat
  h      : Nat
  nbase  : Nat
  ncount : Nat
  respat : Nat
  deriving DecidableEq, Repr

/-- The shape of an image. -/
def shapeOf (i : Image) : Shape := { w := i.w, h := i.h, nbase := i.nbase, ncount := i.ncount, respat := i.respat }

/-- The PEs and the slots of a shape at an offset. -/
def shapePes (x : Shape) (o : Nat × Nat) : List Nat := (List.range (x.w * x.h)).map fun i => (o.2 + i / x.w) * 16 + (o.1 + i % x.w)
def shapeSlots (x : Shape) (o : Nat × Nat) : List Nat :=
  (shapePes x o).foldl (fun a pe => if a.contains (slotOf pe) then a else a ++ [slotOf pe]) []
def shapeClusters (x : Shape) (o : Nat × Nat) : List Nat :=
  (shapePes x o).foldl (fun a pe => if a.contains (clusterOf pe) then a else a ++ [clusterOf pe]) []

/-- The offsets that meet conditions 1 and 2 of R232 and lie within the bulkhead, lowest oy and then lowest ox first. -/
def offsets (x : Shape) : List (Nat × Nat) :=
  ((List.range 512).map fun i => (i % 16, i / 16)).filter fun o =>
    o.1 % 2 == 0 && o.2 % 2 == 0 && (!bitAt x.respat 0 || o.1 % 4 == o.2 % 4) && decide (o.1 + x.w ≤ 16) && decide (o.2 + x.h ≤ 32)

/-- The offsets in the placer's order (R233): those among the VF's own slots first. -/
def placerOrder (s : State) (b vf : Nat) (x : Shape) : List (Nat × Nat) :=
  let own (o : Nat × Nat) : Bool := (shapeSlots x o).all fun sl => ownsSlot s b sl vf
  (offsets x).filter own ++ (offsets x).filter fun o => !own o

/-- The VF's configurations of a bulkhead, resident or saved. -/
def vfCfgs (s : State) (b vf : Nat) : List Placed := s.cfgs.filter fun c => c.bh == b && c.vf == vf

/-- Whether node ranges meet. -/
def rangesMeet (x : Shape) (c : Placed) : Bool := decide (x.nbase < c.nbase + c.ncount) && decide (c.nbase < x.nbase + x.ncount)

/-- A PE of the rectangle holds four configurations. -/
def pesFull (s : State) (b vf : Nat) (x : Shape) (o : Nat × Nat) : Bool :=
  (shapePes x o).any fun pe => decide (4 ≤ ((vfCfgs s b vf).filter fun c => inRect c pe).length)

/-- Conditions 5 and 6 of R232: another configuration holds a generator, a set of routing counters or a pair link that is needed. -/
def unitHeld (s : State) (b vf : Nat) (x : Shape) (o : Nat × Nat) : Bool :=
  (vfCfgs s b vf).any fun c =>
    ((bitAt x.respat 1 && bitAt c.respat 1) || (bitAt x.respat 3 && bitAt c.respat 3)) && (rectSlots c).any (fun sl => (shapeSlots x o).contains sl) ||
    (bitAt x.respat 4 && bitAt c.respat 4 && (rectPes c).any fun pe => (shapeClusters x o).contains (clusterOf pe))

/-- A resident node range meets the shape's on some PE of the rectangle. -/
def nodesMeet (s : State) (b vf : Nat) (x : Shape) (o : Nat × Nat) : Bool :=
  (vfCfgs s b vf).any fun c => rangesMeet x c && (shapePes x o).any (inRect c)

/-- Conditions 4 to 6 of R232, judged against the VF's own context (R233). -/
def placeFree (s : State) (b vf : Nat) (x : Shape) (o : Nat × Nat) : Bool :=
  !pesFull s b vf x o && !nodesMeet s b vf x o && !unitHeld s b vf x o

/-- The candidate that the placer takes now: every slot held, and the VF resident in each (R232, R233). -/
def placeNow (s : State) (b vf : Nat) (x : Shape) : Option (Nat × Nat) :=
  (placerOrder s b vf x).find? fun o =>
    ((shapeSlots x o).all fun sl => holdsSlot s b sl vf && (getSlot s b sl).st == .resident && (getSlot s b sl).vf == vf) && placeFree s b vf x o

/-- The offsets that meet conditions 1 to 3 over what the VF holds and can come to hold (R233). -/
def placeable (s : State) (b vf : Nat) (x : Shape) : List (Nat × Nat) :=
  (placerOrder s b vf x).filter fun o => (shapeSlots x o).all fun sl => holdsSlot s b sl vf || canBorrow s b sl vf

/-- The offset that a waiting load waits for, which names the slots that the placer demands (R233). -/
def placeLater (s : State) (b vf : Nat) (x : Shape) : Option (Nat × Nat) :=
  let ps := (placeable s b vf x).filter (placeFree s b vf x)
  match ps.find? fun o => (shapeSlots x o).all fun sl => holdsSlot s b sl vf with
  | some o => some o
  | none => ps.head?

/-- What the placer does with a load (R233). -/
inductive Placing where
  | put (ox oy : Nat)
  | wait
  | reject (r : Reject)
  deriving DecidableEq, Repr

/-- R233. -/
def placerDecide (s : State) (b vf : Nat) (x : Shape) : Placing :=
  match placeNow s b vf x with
  | some o => .put o.1 o.2
  | none =>
    match (placeable s b vf x).head? with
    | none => .reject .shapeFit
    | some o =>
      if (placeLater s b vf x).isSome then .wait
      else if pesFull s b vf x o ∨ unitHeld s b vf x o then .reject .residentFull
      else .reject .nodeOverlap

/-- A PE-number field of a descriptor made absolute (R200). -/
def peField (d lo ox oy : Nat) : Nat := setBits d lo 9 ((bits d lo 4 + ox) + 16 * (bits d (lo + 4) 5 + oy))

/-- A descriptor as the placer rewrites it (R200). -/
def descPlaced (d ox oy : Nat) : Nat :=
  match bits d 0 4 with
  | 1 => peField d 4 ox oy
  | 3 => (List.range (bits d 4 3 + 1)).foldl (fun a k => peField a (32 + 28 * k) ox oy) d
  | _ => d

/-- The opcodes of the nodes of relative PE number k (R103). -/
def blockNodes (i : Image) (k : Nat) : List (OpInfo × Node × Nat) :=
  (List.range i.ncount).filterMap fun n =>
    (recordInfo (recordOfBytes (slice i.bytes (i.offRec + 12 * (i.ncount * k + n)) 12))).map fun x => (x.1, x.2, i.nbase + n)

/-- The step of R105 on one PE: its records are written, the count cells that its count nodes name and the barrier cells that its bar.arrive nodes
name are cleared (R284, R398). -/
def loadPe (i : Image) (k : Nat) (p : PE) : PE :=
  let ns := blockNodes i k
  let cells := ns.foldl (fun m x => if x.1.code = 0x011 then sput 0 m (litBits x.2.1 12 4) 0 else m) p.cells
  let bars := ns.foldl (fun m x => if x.1.code = 0x186 then sput 0 m (litBits x.2.1 0 4) 0 else m) p.bars
  { p with instr := sputs 0 p.instr (12 * i.nbase) (slice i.bytes (i.offRec + 12 * i.ncount * k) (12 * i.ncount)),
           spoilt := mended p.spoilt (12 * i.nbase) (12 * i.ncount), cells := cells, bars := bars }

/-- What a placed configuration takes from its image (R99 to R102, R200): its nodes of opcode phase are those of its phase group (R159). -/
def placedImage (i : Image) (c : Placed) : Placed :=
  { c with
    w := i.w, h := i.h, nbase := i.nbase, ncount := i.ncount, mode := i.mode, respat := i.respat, wavemask := BitVec.ofNat 32 i.wavemask,
    tids := (imageTids i).map tidOf, descs := (imageDescs i).map (fun d => BitVec.ofNat 256 (descPlaced d.toNat c.ox c.oy)), pols := imagePols i,
    phNodes := (List.range (i.w * i.h)).foldl (fun a k => a ++ ((blockNodes i k).filter fun x => x.1.code == 0x160).map fun x =>
      ((c.oy + k / i.w) * 16 + (c.ox + k % i.w), x.2.2)) [] }

/-- R105: a placed configuration becomes resident. Its id, and the state. `image` is the image's virtual address (R429). -/
def cfgInstall (s : State) (i : Image) (b vf lid ox oy image : Nat) (root : Bool) : Nat × State :=
  let c : Placed := placedImage i
    { id := s.nextId, vf := vf, bh := b, ox := ox, oy := oy, w := 0, h := 0, nbase := 0, ncount := 0, mode := 0, respat := 0, wavemask := 0, lid := lid,
      root := root, image := image, tids := [], descs := [], pols := [], valid := true, boundary := 0, arrivals := [], pePhase := [], waveNext := 1,
      waveSeen := [], outs := [], keys := [], phNodes := [] }
  let s1 := (rectPes c).zipIdx.foldl (fun t x => modPE t b x.1 (loadPe i x.2)) { newId s with cfgs := s.cfgs ++ [c] }
  let s2 := if bitAt i.respat 3 then (rectSlots c).foldl (fun t sl => modSlot t b sl fun x => { x with rcnt := [] }) s1 else s1
  (c.id, s2)

/-- Free every frame of a configuration (R52, R443). -/
def cfgFrames (s : State) (c : Placed) : State :=
  let pe0 := c.oy * 16 + c.ox
  ((getPE s c.bh pe0).finfo.filter fun e => e.2.cfg == c.id).foldl (fun t e => frameFree t c.bh pe0 e.1) s

/-- Drop a configuration: publish (R161 item 4), free its frames, and clear its valid bits (R443). Nothing of it stands matched then: cfg.drop waits
for its firings, and a launch ends with none (R235, R387). -/
def cfgDropAll (s : State) (c : Placed) : State :=
  let s1 := cfgFrames (publishFinal s c).1 c
  { s1 with cfgs := s1.cfgs.filter fun x => x.id != c.id }

/-- The tokens of the entry words of an image, with the payload of each (R230, R442). -/
def entryTokens (s : State) (c : Placed) (es : List Nat) (args : List Word) (fp prio : Nat) : State :=
  es.zipIdx.foldl (fun t x =>
    let e := x.1
    let pe := (c.oy + bits e 4 5) * 16 + (c.ox + bits e 0 4)
    let tok : Token := { payload := args.getD x.2 0, kind := .value, vf := c.vf, fp := fp, port := (portOfCode (bits e 21 2)).getD .l, node := bits e 9 12,
                         bh := c.bh, pe := pe, flags := 0, prio := prio }
    sendFlight t tok c.bh pe 0 (cycleOf t c.bh) c.lid) s

end Sys2Proof.Machine
end

