-- ==== Sys2Proof/Machine/Queues.lean ====
section
/-! DEFINITION. Queues, capabilities and the queue controller (R369 to R372, R376 to R380, R449): spawn, enq, deq, steal, qlen and join, and the steps
QUEUE_CONTROLLER_OP (its queue part), JOIN_COUNTER_UPDATE, HQREC_COMMIT and the writes of the queue registers. -/

namespace Sys2Proof.Machine

open Host

/-- A register of queue q (R369). -/
def qReg (s : State) (b q off : Nat) : Nat := (regGet s b (0x40000 + 32 * q + off)).toNat

/-- Fields of the queue registers (R369). -/
def qKind (s : State) (b q : Nat) : Nat := bits (qReg s b q 0) 1 2
def qEn (s : State) (b q : Nat) : Bool := bitAt (qReg s b q 0) 0 && qKind s b q != 3
def qCapacity (s : State) (b q : Nat) : Nat := 2 ^ bits (qReg s b q 0) 3 4
def qHead (s : State) (b q : Nat) : Nat := bits (qReg s b q 8) 0 32
def qTail (s : State) (b q : Nat) : Nat := bits (qReg s b q 8) 32 32
def qOwner (s : State) (b q : Nat) : Nat := bits (qReg s b q 16) 0 9
def qGen (s : State) (b q : Nat) : Nat := bits (qReg s b q 16) 9 12
def qLaunch (s : State) (b q : Nat) : Nat := bits (qReg s b q 16) 32 16

/-- Entries in a ring. -/
def qLen (s : State) (b q : Nat) : Nat := (qTail s b q + 2 ^ 32 - qHead s b q) % 2 ^ 32

/-- The entry size of a kind (R369). -/
def qSize (kind : Nat) : Nat := if kind = 1 then 256 else if kind = 2 then 128 else 8

/-- The physical address of entry i (R369). -/
def qEntry (s : State) (b q i : Nat) : Nat :=
  bits (qReg s b q 0) 7 41 * 128 + qSize (qKind s b q) * (i % qCapacity s b q)

/-- Set HEAD and TAIL. -/
def qPtrPut (s : State) (b q head tail : Nat) : State :=
  regPut s b (0x40000 + 32 * q + 8) (word (head % 2 ^ 32 + tail % 2 ^ 32 * 2 ^ 32))

/-- Fields of a capability (R370). -/
def capBh (v : Nat) : Nat := bits v 12 4
def capQ (v : Nat) : Nat := bits v 0 12

/-- The check code of a capability's low 40 bits under a bulkhead's key (R370). -/
def capCheck (s : State) (b low : Nat) : Nat := ((rngBlock (regGet s b 0x13000).toNat 0 (low % 2 ^ 40)).headD 0) % 2 ^ 24

/-- Why a capability is bad for an operation of a VF, in the order of R371 from 0; `need` masks the rights of which one must be set. -/
def capBad (s : State) (vf cap need : Nat) : Option Nat :=
  let b := capBh cap
  let q := capQ cap
  if 12 ≤ b then some 0
  else if bits cap 40 24 ≠ capCheck s b cap then some 1
  else if !qEn s b q then some 2
  else if bits cap 28 12 ≠ qGen s b q ∨ bits cap 19 9 ≠ qOwner s b q then some 3
  else if Nat.land (bits cap 16 3) need = 0 then some 4
  else if !sameTenant s vf (bits cap 19 9) then some 5
  else none

/-- Place an entry at TAIL, charged to the queue's owner (R367); none where the ring is full or BQENT is spent. Its index. -/
def qPush (s : State) (b q : Nat) (bs : List Byte) : Option (Nat × State) :=
  let owner := vfRcbAddr s (qOwner s b q)
  let s0 := rcbKnow s owner
  if qCapacity s b q ≤ qLen s b q ∨ !budgetOk s0 owner .qent 1 then none
  else
    let t := qTail s b q
    let s1 := ownPut s0 (qOwner s b q) (qEntry s b q t) bs
    some (t, budgetMove (qPtrPut s1 b q (qHead s b q) (t + 1)) owner .qent 1 0)

/-- The controller reads entry i of a ring for its owner (R128, R130, R152): the bytes, and the state after the reading. -/
def qRead (s : State) (b q i : Nat) : List Byte × State :=
  let n := qSize (qKind s b q)
  let s1 := ownMeet s (qOwner s b q) true (qEntry s b q i) n
  (ownBytes s1 (qEntry s b q i) n, s1)

/-- Take the k-th oldest entry out: the older ones move up by one place, and HEAD advances (R372). Its bytes. -/
def qTakeAt (s : State) (b q k : Nat) : List Byte × State :=
  let h := qHead s b q
  let out := qRead s b q (h + k)
  let s1 := (List.range k).foldl (fun t i =>
    let x := qRead t b q (h + (k - i) - 1)
    ownPut x.2 (qOwner s b q) (qEntry s b q (h + (k - i))) x.1) out.2
  (out.1, budgetMove (qPtrPut s1 b q (h + 1) (qTail s b q)) (vfRcbAddr s (qOwner s b q)) .qent 0 1)

/-- Take the newest entry out (R379). -/
def qTakeTail (s : State) (b q : Nat) : List Byte × State :=
  let t := qTail s b q
  let out := qRead s b q (t + 2 ^ 32 - 1)
  (out.1, budgetMove (qPtrPut out.2 b q (qHead s b q) (t + 2 ^ 32 - 1)) (vfRcbAddr s (qOwner s b q)) .qent 0 1)

/-- Remove every entry of a queue (R402): how many there were. -/
def qClear (s : State) (b q : Nat) : Nat × State :=
  let n := qLen s b q
  if n = 0 then (0, s) else (n, budgetMove (qPtrPut s b q (qTail s b q) (qTail s b q)) (vfRcbAddr s (qOwner s b q)) .qent 0 n)

/-- Codes of the commands that no node issues: the load of a launch, a join's continuation, a host enqueue port, the end of a launch. -/
def codeLaunchLoad : Nat := 0x200
def codeContinue : Nat := 0x201
def codeHqrec : Nat := 0x202
def codeLaunchEnd : Nat := 0x203

/-- The commands that take one of a PE's 8 outstanding-command slots (R377, R434). -/
def takesCommand (code : Nat) : Bool := [0x180, 0x182, 0x183, 0x184, 0x185, 0x189, 0x1C3, 0x1C4, 0x1C5, 0x1C7, 0x1C8, 0x1C9, 0x1CA].contains code

/-- Whether a PE has a free command slot (R377). -/
def commandRoom (s : State) (b pe : Nat) : Bool :=
  decide ((s.cmds.filter fun c => c.agent == .pe b pe && takesCommand c.code).length < 8)

/-- A command of a firing's PE: its destinations are resolved now. -/
def commandFor (s : State) (c : Ctx) : Cmd :=
  let p := getPE s c.f.bh c.f.pe
  let one (d : Option Dest) : Option RDest × Bool := match d with | some x => let r := resolveDest p c.f x 0 0; (some r.1, r.2) | none => (none, false)
  let r0 := one c.n.d0
  let r1 := one c.n.d1
  { id := s.nextId, code := c.code, agent := .pe c.f.bh c.f.pe, f := c.f, node := c.n, dests := [r0.1, r1.1], started := true, begun := false, stage := 0,
    aux := 0, hidx := 0, hgen := 0, bad := 0, mask := 0, since := 0, scope := 0, waitFor := [], bytes := [],
    flags := flagIf (r0.2 || r1.2) flagEmptyRead }

/-- Enter a command. -/
def commandEnter (s : State) (c : Cmd) : State := newId { s with cmds := s.cmds ++ [c] }

/-- A command that no node issues, for a VF and launch of bulkhead b. -/
def innerCommand (s : State) (code : Nat) (a : Agent) (b vf lid prio aux : Nat) : Cmd :=
  { id := s.nextId, code := code, agent := a, f := { Firing.empty with bh := b, vf := vf, lid := lid, prio := prio, matchCycle := cycleOf s b },
    node := { ty := .n64, slot := 0, d0 := none, d1 := none, stR := false, stCount := 0, epass := false, litr := false, sense := false,
              pred := false, lit := 0 },
    dests := [], started := true, begun := false, stage := 0, aux := aux, hidx := 0, hgen := 0, bad := 0, mask := 0, since := 0, scope := 3, waitFor := [],
    bytes := [], flags := 0 }

/-- Issue a command of class 6 or 7: it waits for a command slot. -/
def commandNode (s : State) (code : Nat) (n : Node) : State :=
  fire s code n fun c t =>
    if !commandRoom t c.f.bh c.f.pe then none
    else some (commandEnter (charge t c.f.bh c.f.pe 10 1) (commandFor t c))

/-- The request of a command's own reads and writes. -/
def commandReq (c : Cmd) (kind va len row : Nat) : Req := { reqFor c.f c.agent kind va len (.cmd c.id row) with mode := 2 }

/-- The request of row `row` of a command. -/
def commandRow (s : State) (c : Cmd) (row : Nat) : Option Req := s.reqs.find? fun r => r.owner == .cmd c.id row

/-- The error of a finished request. -/
def reqError (r : Req) : Option Word := match r.pieces.findSome? fun p => p.err with | some e => some e | none => r.err

/-- SPAWN (R378): the record is read as a node load of the spawning PE, of the length that the named queue's KIND gives; the controller judges the
capability. -/
def execSpawn (n : Node) (s : State) : Outcome State Fault Refusal :=
  .next (fire s 0x180 n fun c t =>
    if !commandRoom t c.f.bh c.f.pe then none
    else
      let f := c.f
      let cap := (payloadAt f .r).toNat
      let kind := if capBh cap < 12 then qKind t (capBh cap) (capQ cap) else 0
      let cmd := commandFor t c
      let t1 := commandEnter (charge t f.bh f.pe 10 1) cmd
      if kind ≠ 1 ∧ kind ≠ 2 then some t1
      else
        let r := nodeReq t1 f (payloadAt f .l).toNat (qSize kind) 2 (.cmd cmd.id 0)
        some (sendReq t1 (if r.supply.length = r.len then { r with st := .finished } else r)))

/-- ENQ (R379). -/
def execEnq (n : Node) (s : State) : Outcome State Fault Refusal := .next (commandNode s 0x182 n)
/-- DEQ (R379). -/
def execDeq (n : Node) (s : State) : Outcome State Fault Refusal := .next (commandNode s 0x183 n)
/-- STEAL (R379). -/
def execSteal (n : Node) (s : State) : Outcome State Fault Refusal := .next (commandNode s 0x184 n)
/-- QLEN (R379). -/
def execQlen (n : Node) (s : State) : Outcome State Fault Refusal := .next (commandNode s 0x185 n)

/-- The join-counter update of a block (R156, R376, R380). -/
def joinReq (f : Firing) (a : Agent) (va : Nat) : Req :=
  { reqFor f a 8 va 8 .join with atom := some { op := 9, ty := .i64, operand := 0, cmp := 0, det := false, red := true } }

/-- JOIN (R380): it has no destinations; a misaligned counter's ALIGN goes to the graph's sink. -/
def execJoin (n : Node) (s : State) : Outcome State Fault Refusal :=
  .next (fire s 0x181 n fun c t =>
    let va := (payloadAt c.f .l).toNat
    if va % 8 ≠ 0 then failCode t c 0x14
    else some (sendReq (charge t c.f.bh c.f.pe 8 1) (joinReq c.f (.pe c.f.bh c.f.pe) va)))

/-- What a queue operation answers. -/
inductive QRes where
  | value (v : Word)
  | untaken
  | fail (code : Nat)
  deriving DecidableEq, Repr

/-- The word capability of a command: r of spawn and enq, l of the others; that of a continuation or of an enqueue port is kept in `since`. -/
def cmdCap (c : Cmd) : Nat :=
  if c.code = 0x180 ∨ c.code = 0x182 then (payloadAt c.f .r).toNat
  else if c.code = codeContinue ∨ c.code = codeHqrec then c.since
  else (payloadAt c.f .l).toNat

/-- The rights of which an operation needs one (R370, R379). -/
def cmdRight (code : Nat) : Nat := if code = 0x183 then 2 else if code = 0x184 then 4 else if code = 0x185 then 7 else 1

/-- HQSTAT of port p (R449). -/
def hqStat (s : State) (b p busy done res index : Nat) : State :=
  regPut s b (0x20A20 + 8 * p) (word (busy + 2 * done + 4 * res + index % 2 ^ 32 * 2 ^ 32))

/-- Answer a queue command: to its destinations; nowhere for a continuation (R376); in HQSTAT for a host enqueue port (R449). A reply that meets a
forced edge becomes BH_RESET (R413). -/
def qAnswer (s : State) (c : Cmd) (y : Nat) (r : QRes) : State :=
  if c.code = codeContinue then cmdDel s c.id
  else if c.code = codeHqrec then
    let t := cmdDel s c.id
    match r with
    | .value v => hqStat t c.f.bh c.aux 0 1 0 v.toNat
    | .untaken => hqStat t c.f.bh c.aux 0 1 1 0
    | .fail code => hqStat t c.f.bh c.aux 0 1 (if code = 0x0C then 3 else 1) 0
  else
    match replyBlocked s c.f.bh y 8 c.f.bh with
    | some z => let e := gateError s z 0x0B; cmdReply e.2 c .err e.1 []
    | none =>
      match r with
      | .value v => cmdReply s c .value v []
      | .untaken => cmdReply s c .null 0 []
      | .fail code => let e := newError s (srcWord 1 y 0 5) code; cmdReply e.2 c .err e.1 []

/-- A bad capability (R371, R449): CAP_FAULT; a PE that issued the operation is frozen, or its launch halted; a continuation and a host port freeze
nothing. -/
def capFault (s : State) (c : Cmd) (reason : Nat) : State :=
  let cap := cmdCap c
  let y := if capBh cap < 12 then capBh cap else c.f.bh
  let src := srcWord 1 y 0 5
  let pay := cap + reason * 2 ^ 64
  if c.code = codeContinue then cmdDel (postEvent s src c.f.bh (some c.f.vf) (some c.f.lid) 0x0E pay) c.id
  else if c.code = codeHqrec then hqStat (cmdDel (postEvent s src c.f.bh (some c.f.vf) none 0x0E pay) c.id) c.f.bh c.aux 0 1 2 0
  else
    let fd := fdomOf s c.f.lid c.f.task
    let s1 := takeFault s c.f.bh (.pe c.f.pe) src c.f.vf c.f.lid c.f.task (.capability c.id) 0x0E pay
    if fd then cmdDel s1 c.id else cmdPut s1 { c with stage := 9 }

/-- The bulkhead that a queue operation is sent from: its PE's, its unit's, its port's. -/
def cmdFrom (c : Cmd) : Nat := agentBh c.agent

/-- A gate refuses a queue operation (R407, R409): GATE_DENIED is held with the frozen PE; a continuation or a host port is dropped. -/
def capGate (s : State) (c : Cmd) (z : Nat) : State :=
  let cap := cmdCap c
  let pa := 0x020000000000 + capBh cap * 2 ^ 24 + 0x40000 + 32 * capQ cap
  let src := srcWord 1 z 0 4
  let seq := nextEventSeq s src
  let s1 := gateEvents s z c.f.vf c.f.lid pa 15
  if c.code = codeContinue then cmdDel s1 c.id
  else if c.code = codeHqrec then hqStat (cmdDel s1 c.id) c.f.bh c.aux 0 1 1 0
  else if fdomOf s c.f.lid c.f.task then cmdDel (haltLaunch s1 c.f.lid (word (0x12 * 2 ^ 56 + seq))) c.id
  else
    let e := gateError s1 z 0x0A
    cmdPut (freezeMaster e.2 c.f.bh (.pe c.f.pe) c.f.vf (.capability c.id)) { c with stage := 9 }

/-- The 8-byte word at an offset of a record. -/
def recWord (bs : List Byte) (off : Nat) : Nat := fieldAt bs off 8

/-- Whether a task record is well formed apart from its entry (R374, R378). -/
def taskFields (bs : List Byte) : Bool :=
  let w := recWord bs 0
  let npg := bits w 41 5
  bits w 46 18 == 0 && decide (bits w 23 3 ≤ 4) && decide (bits w 26 4 ≤ 8) && decide (npg ≤ 16) && bits w 21 2 != 3 &&
  ((bs.drop 88).take 40).all (· == 0) &&
  (List.range 16).all fun m => let g := recWord bs (128 + 8 * m); g / 2 ^ 35 == 0 && (decide (m < npg) || g == 0)

/-- Whether a task record's entry lies in a configuration (R378). -/
def taskEntry (bs : List Byte) (c : Placed) : Bool :=
  let w := recWord bs 0
  decide (bits w 0 4 < c.w) && decide (bits w 4 5 < c.h) && decide (c.nbase ≤ bits w 9 12) && decide (bits w 9 12 < c.nbase + c.ncount)

/-- Whether a launch record is well formed (R373, R378). -/
def launchFields (bs : List Byte) : Bool :=
  fieldAt bs 47 1 == 0 && recWord bs 120 == 0 && decide (fieldAt bs 46 1 ≤ 4) && recWord bs 32 % 2 ^ 14 == 0 && recWord bs 32 / 2 ^ 48 == 0

/-- The configuration that a launch runs on. -/
def launchCfg (s : State) (lid : Nat) : Option Placed := (launchAt s lid).bind fun l => cfgAt s l.cfg

/-- A place of a shared pool for one more use of a VF (R395), out of `total` of which `res` are kept for each VF: the shared part first (some false), then the
VF's own reserve (some true). `uses` lists the places in use, each with its VF and whether it is of that VF's reserve. -/
def poolTake (s : State) (b total res vf : Nat) (uses : List (Nat × Bool)) : Option Bool :=
  let vfs := tableVfs s b
  if (uses.filter fun u => !u.2).length < total - res * vfs.length then some false
  else if vfs.contains vf && decide ((uses.filter fun u => u.2 && u.1 == vf).length < res) then some true
  else none

/-- Whether a shared pool has a place for one more use of a VF (R395). -/
def poolRoom (s : State) (b total res vf : Nat) (uses : List (Nat × Bool)) : Bool := (poolTake s b total res vf uses).isSome

/-- The operation slots of a bulkhead's controllers that operations hold while they wait for acceptance (R395). -/
def qWaiting (s : State) (b : Nat) : List (Nat × Bool) :=
  (s.cmds.filter fun c => c.stage == 2 && capBh (cmdCap c) == b && (c.code == 0x180 || c.code == codeContinue)).map fun c => (c.f.vf, c.held)

/-- spawn and the enqueues like it, once the capability is good (R378). A task record that entered its ring waits for its table entry; its arrival at the
controller is numbered (R382). -/
def qSpawn (s : State) (c : Cmd) (b q : Nat) : State :=
  let bs := c.bytes
  match qKind s b q with
  | 1 =>
    let lid := qLaunch s b q
    let entryOk := match launchCfg s lid with | some g => taskEntry bs g | none => lid == 0xFFFF
    if !taskFields bs ∨ !entryOk then qAnswer s c b (.fail 0x0C)
    else if lid = 0xFFFF then qAnswer s c b .untaken
    else (match qPush s b q bs with
      | none => qAnswer s c b .untaken
      | some (_, t) => newId (cmdPut t { c with stage := 2, scope := lid, aux := t.nextId, held := poolTake s b 1024 8 c.f.vf (qWaiting s b) == some true }))
  | 2 =>
    if !launchFields bs then qAnswer s c b (.fail 0x0C)
    else (match qPush s b q bs with
      | none => qAnswer s c b .untaken
      | some (i, t) => qAnswer t c b (.value (word i)))
  | _ => qAnswer s c b (.fail 0x07)

/-- A queue operation at its controller, once the capability is good (R371, R378, R379). -/
def qPerform (s : State) (c : Cmd) (b q : Nat) : State :=
  if c.code = 0x180 ∨ c.code = codeContinue then qSpawn s c b q
  else if c.code = codeHqrec then (if qKind s b q = 2 then qSpawn s c b q else qAnswer s c b (.fail 0x07))
  else if qKind s b q ≠ 0 then qAnswer s c b (.fail 0x07)
  else
    match c.code with
    | 0x182 => (match qPush s b q (leBytes 8 (payloadAt c.f .l).toNat) with
      | none => qAnswer s c b .untaken
      | some (_, t) => qAnswer t c b (.value (word (qLen t b q))))
    | 0x183 => if qLen s b q = 0 then qAnswer s c b .untaken
      else let r := qTakeAt s b q 0; qAnswer r.2 c b (.value (word (leNat r.1)))
    | 0x184 => if qLen s b q = 0 then qAnswer s c b .untaken
      else let r := qTakeTail s b q; qAnswer r.2 c b (.value (word (leNat r.1)))
    | _ => qAnswer s c b (.value (word (qLen s b q)))

/-- A command's operation reaches its controller (R371, R372, R407). -/
def qArrive (s : State) (c : Cmd) : State :=
  let cap := cmdCap c
  let y := capBh cap
  if 12 ≤ y then capFault s c 0
  else
    match wayJudge s (cmdFrom c) y c.f.vf 3 0 8 8 (cmdFrom c) with
    | some (z, .denied) => capGate s c z
    | some (z, _) =>
      let e := gateError s z 0x0B
      if c.code = codeContinue ∨ c.code = codeHqrec then qAnswer s c y (.fail 0x0B) else cmdReply e.2 c .err e.1 []
    | none =>
      if !bhRuns s y ∨ !poolRoom s y 1024 8 c.f.vf (qWaiting s y) then s
      else
        match capBad s c.f.vf cap (cmdRight c.code) with
        | some r => capFault s c r
        | none => qPerform s c y (capQ cap)

/-- The commands that are taken in a PE's issue order among themselves: queue operations (R372), and register accesses (R439). -/
def cmdGroup (code : Nat) : Nat :=
  if [0x180, 0x182, 0x183, 0x184, 0x185].contains code then 1 else if code = 0x1C3 ∨ code = 0x1C4 then 2 else 0

/-- Whether an earlier command of the same PE and order has not been taken. -/
def cmdBehind (s : State) (c : Cmd) : Bool :=
  cmdGroup c.code != 0 &&
  s.cmds.any fun x => x.id < c.id && x.agent == c.agent && cmdGroup x.code == cmdGroup c.code && x.stage < 2

/-- The bytes of a spawn's record, once its read has finished: an error of the read answers the firing (R378). -/
def spawnRead (s : State) (c : Cmd) : State :=
  match commandRow s c 0 with
  | none => qArrive s c
  | some r =>
    if r.st ≠ .finished then s
    else
      let s1 := reqDel s r.id
      match reqError r with
      | some e => cmdReply s1 { c with flags := c.flags ||| r.flags } .err e []
      | none =>
        let c1 := { c with bytes := reqBytes r, flags := c.flags ||| r.flags }
        qArrive (cmdPut s1 c1) c1

/-- A join's continuation (R376): it reads the capability, then the record of the length that the queue's KIND gives, and enqueues it. A read that fails
enqueues nothing and reports to the launch's sink. -/
def continueStep (s : State) (c : Cmd) : State :=
  match commandRow s c 0, commandRow s c 1 with
  | _, some r =>
    if r.st ≠ .finished then s
    else
      let s1 := reqDel s r.id
      (match reqError r with
       | some e => toSink (cmdDel s1 c.id) c.f.bh c.f.vf c.f.lid e
       | none => let c1 := { c with bytes := reqBytes r, stage := 1 }; qArrive (cmdPut s1 c1) c1)
  | some r, none =>
    if r.st ≠ .finished then s
    else
      let s1 := reqDel s r.id
      (match reqError r with
       | some e => toSink (cmdDel s1 c.id) c.f.bh c.f.vf c.f.lid e
       | none =>
         let cap := leNat (reqBytes r)
         let c1 := { c with since := cap }
         let kind := if capBh cap < 12 then qKind s1 (capBh cap) (capQ cap) else 0
         let s2 := cmdPut s1 c1
         if kind = 1 ∨ kind = 2 then sendReq s2 (commandReq c1 8 (c.aux + 16) (qSize kind) 1) else qArrive s2 { c1 with stage := 1 })
  | none, none => qArrive s c

/-- The queue part of QUEUE_CONTROLLER_OP (R372). -/
def queueStep (s : State) (c : Cmd) : State :=
  if 2 ≤ c.stage ∨ cmdBehind s c then s
  else if c.code = 0x180 then spawnRead s c
  else if c.code = codeContinue then continueStep s c
  else qArrive s c

/-- JOIN_COUNTER_UPDATE (R126, R130, R376): the unit lowers the counter at the head of its queue; at zero the continuation begins, below it JOIN_UNDER
is posted. What the continuation reads is translated as the join's own request is: by the well of the joining firing's bulkhead, through its task's overlay
(R29). -/
def execJoinCounterUpdate (b ch : Nat) (s : State) : Outcome State Fault Refusal :=
  .next (if !bhRuns s b then s
  else match unitHead s b ch with
    | none => s
    | some (r, p) =>
      match r.atom with
      | none => s
      | some a =>
        if a.op ≠ 9 then s
        else
          let s1 := unitMeet s r.vf p.comp p.pa 8
          let lost := !(lostBytes s1 p.pa 8).isEmpty
          let c := wrapNat 64 ((leNat (memBytes s1 p.pa 8) : Int) - 1)
          let s2 := if lost then s1 else (blockWrite s1 p.comp p.pa (leBytes 8 c) []).1
          let s3 := if lost then unitPoison s s2 r.vf p.pa
            else if c = 0 then
              let cmd0 := innerCommand s2 codeContinue (.well b) r.bh r.vf r.lid r.prio r.va
              let cmd := { cmd0 with f := { cmd0.f with task := r.task } }
              sendReq (commandEnter s2 cmd) (commandReq cmd 8 (r.va + 8) 8 0)
            else if 2 ^ 63 ≤ c then postEvent s2 (srcWord 1 b ch 2) b (some r.vf) (some r.lid) 0x0F (r.va % 2 ^ 48)
            else s2
          reqSettle (wstatRefresh (wstatRefresh (afterPerform s3 r.id p { bytes := [], bad := [], err := none, flags := 0 }) r.bh) b) r.id)

/-- HQREC_COMMIT (R449): a write that covers bytes 120 to 127 commits the record, whose last word is v, and the port enqueues it for the queue's owner;
ignored while the port is busy. -/
def execHqrecCommit (b p : Nat) (v : Word) (s : State) : Outcome State Fault Refusal :=
  .next (
    if regBits s b (0x20A20 + 8 * p) 0 1 = 1 then s
    else
      let s1 := regPut s b (0x20C00 + 128 * p + 120) v
      let bs := ((List.range 16).map fun k => leBytes 8 (regGet s1 b (0x20C00 + 128 * p + 8 * k)).toNat).flatten
      let cap := (regGet s1 b (0x20A00 + 8 * p)).toNat
      let owner := bits cap 19 9
      let c := { innerCommand s1 codeHqrec (.qctl b) b owner 0xFFFF 0 p with since := cap, bytes := bs, stage := 1 }
      hqStat (commandEnter s1 c) b p 1 (regBits s1 b (0x20A20 + 8 * p) 1 1) 0 0)

/-- QUEUE_ENABLE (R369): a write to QBASE, which is ignored while the queue is enabled. EN := 1 sets HEAD := TAIL := 0, and entries left in the ring are charged
no more. -/
def execQueueEnable (b q : Nat) (v : Word) (s : State) : Outcome State Fault Refusal :=
  .next (
    if qEn s b q then s
    else
      let s1 := regPut s b (0x40000 + 32 * q) (v &&& 0x0000FFFFFFFFFFFF)
      if bitAt v.toNat 0 then qPtrPut (qClear s1 b q).2 b q 0 0 else s1)

/-- QCKEY_WRITE (R369): the key of every capability of the bulkhead. -/
def execQckeyWrite (b : Nat) (v : Word) (s : State) : Outcome State Fault Refusal := .next (regPut s b 0x13000 v)

/-- QCAP_RIGHTS_WRITE (R369): the rights of the capability that QCAP returns. -/
def execQcapRightsWrite (b q : Nat) (v : Word) (s : State) : Outcome State Fault Refusal :=
  .next (regPut s b (0x40000 + 32 * q + 24) (v &&& 0x70000))

/-- The capability that a read of QCAP returns (R369, R370). -/
def qcapRead (s : State) (b q : Nat) : Word :=
  let low := q + b * 2 ^ 12 + bits (qReg s b q 24) 16 3 * 2 ^ 16 + qOwner s b q * 2 ^ 19 + qGen s b q * 2 ^ 28
  word (low + capCheck s b low * 2 ^ 40)

end Sys2Proof.Machine
end

