-- ==== Sys2Proof/Machine/Dependence.lean ====
section
/-! DEFINITION. Tasks (R374, R375, R382 to R386): acceptance into the dependence table, versions of renamable pages, waiting, dispatch and completion:
the steps TASK_ACCEPT, DISPATCH_DECISION and TASK_COMPLETE. -/

namespace Sys2Proof.Machine

open Host

/-- The task of an id. -/
def taskOf (s : State) (id : Nat) : Option Task := s.tasks.find? fun t => t.id == id

/-- Replace a task. -/
def taskPut (s : State) (t : Task) : State := { s with tasks := s.tasks.map fun x => if x.id == t.id then t else x }

/-- The live versions of a page of a launch, beside version 0 (R384). -/
def versionsOf (s : State) (lid vpn : Nat) : List Version := s.versions.filter fun v => v.lid == lid && v.vpn == vpn

/-- The translation of a virtual page by a well, as acceptance needs it (R382): the leaf and its page, if it succeeds. -/
def pageLeaf (s : State) (b vf vpn : Nat) : Option (Nat × Nat) :=
  let va := vpn * 2 ^ 14
  match tlbHit s b vf va with
  | some t => some (t.pte.toNat, (pteOa t.pte.toNat + va % 2 ^ levelShift t.level) / 2 ^ 14)
  | none =>
    match walk s b vf va with
    | .leaf e lv => some (e, (pteOa e + va % 2 ^ levelShift lv) / 2 ^ 14)
    | _ => none

/-- Whether a page may be renamed: its leaf has ARENA = 1 (R382). -/
def pageRenamable (s : State) (b vf vpn : Nat) : Bool :=
  match pageLeaf s b vf vpn with
  | some (e, _) => pteArena e
  | none => false

/-- The well translates a page for the dependence table (R29, R31, R382): a walk meets its codewords and fills the
buffer, unless an invalidation in progress covers its leaf (R34, R40), and no fault is reported. -/
def pageTouch (s : State) (b vf vpn : Nat) : State :=
  let va := vpn * 2 ^ 14
  if (tlbHit s b vf va).isSome ∨ !bitAt (vfRoot s vf) 0 then s
  else
    let s1 := walkMeet vf va (tenstk s b) 3 1 (bits (vfRoot s vf) 14 34 * 2 ^ 14) s
    match walk s b vf va with
    | .leaf pte lv => if invalidating s b vf vpn lv then s1 else tlbFill s1 b vf va pte lv
    | _ => s1

/-- The pages a task record declares (R374). -/
def recordPages (bs : List Byte) : List TPage :=
  (List.range (bits (recWord bs 0) 41 5)).map fun m =>
    let g := recWord bs (128 + 8 * m)
    { vpn := bits g 0 33, rd := bitAt g 33, wr := bitAt g 34, ren := false, mapped := false, ver := none }

/-- The entries of a bulkhead's dependence table that tasks hold (R382, R395). -/
def tableTasks (s : State) (b : Nat) : List (Nat × Bool) := (s.tasks.filter fun t => t.bh == b).map fun t => (t.vf, t.held)

/-- Accept the task record of a spawn or of a continuation as its launch's next task (R378, R382): none while the table has no entry or BTASK is
spent on the path from its task group (R367). The reply is the task sequence number. -/
def acceptTask (s : State) (c : Cmd) : Option State :=
  match launchAt s c.scope with
  | none => some (qAnswer s c (capBh (cmdCap c)) .untaken)
  | some l =>
    let bs := c.bytes
    let t : Task :=
      { id := s.nextId, seq := l.taskSeq, lid := l.lid, bh := l.bh, vf := l.vf, st := .accepted, tw := word (recWord bs 0), join := recWord bs 8,
        rcb := recWord bs 16, args := (List.range 8).map fun m => word (recWord bs (24 + 8 * m)), pages := recordPages bs, readyAt := 0, waitFor := [],
        held := poolTake s l.bh 4096 16 l.vf (tableTasks s l.bh) == some true }
    let s0 := rcbKnow s (taskPayer s t)
    if l.st = .ending then some (qAnswer s c (capBh (cmdCap c)) .untaken)
    else if !poolRoom s l.bh 4096 16 l.vf (tableTasks s l.bh) ∨ !budgetOk s0 (taskPayer s t) .task 1 then none
    else
      let s1 := budgetMove (newId { s0 with tasks := s0.tasks ++ [t] }) (taskPayer s t) .task 1 0
      let s2 := launchPut s1 { l with taskSeq := l.taskSeq + 1 }
      some (qAnswer s2 c (capBh (cmdCap c)) (.value (word l.taskSeq)))

/-- Whether a declared page takes a version (R383): a fixed one that is only written is the page itself. -/
def TPage.takesVersion (p : TPage) : Bool := p.ren || p.rd

/-- Whether an earlier task of the launch still has to be mapped on a page: mappings are made in acceptance order (R383). -/
def mapBehind (s : State) (t : Task) (vpn : Nat) : Bool :=
  s.tasks.any fun u => u.lid == t.lid && u.bh == t.bh && u.seq < t.seq && u.pages.any fun p => p.vpn == vpn && p.takesVersion && !p.mapped

/-- The page of the version that is current for a page of a launch, none for version 0 (R384). -/
def currentVersion (s : State) (lid vpn : Nat) : Option Nat := ((versionsOf s lid vpn).find? fun v => v.current).map fun v => v.page

/-- Versions that are neither current nor mapped by a task return to their launch's pool (R384). -/
def versionsFree (s : State) : State :=
  let live (v : Version) : Bool := v.current || s.tasks.any fun t => t.lid == v.lid && t.pages.any fun p => p.vpn == v.vpn && p.ver == some v.page
  let gone := s.versions.filter fun v => !live v
  gone.foldl (fun t v => match launchAt t v.lid with | some l => launchPut t { l with poolFree := l.poolFree ++ [v.page] } | none => t)
    { s with versions := s.versions.filter live }

/-- Take a page of the arena pool as the new current version of a page for a task (R384): none at the limit of 4 or with an empty pool. -/
def versionNew (s : State) (lid vpn maker : Nat) : Option (Nat × State) :=
  match launchAt s lid with
  | none => none
  | some l =>
    match l.poolFree with
    | [] => none
    | p :: ps =>
      if 3 ≤ (versionsOf s lid vpn).length then none
      else
        let s1 := (List.range 8).foldl (fun t k => blockZero t (8 * p + k)) (launchPut s { l with poolFree := ps })
        let off (v : Version) : Version := if v.lid == lid && v.vpn == vpn then { v with current := false } else v
        some (p, { s1 with versions := s1.versions.map off ++ [{ lid := lid, vpn := vpn, page := p, maker := maker, current := true }] })

/-- Whether U is the last accepted writer of a page before T (R383): no task between them that is still in the table declares WR on it, and no version has been
made for one between them. -/
def lastWriter (s : State) (t u : Task) (vpn : Nat) : Bool :=
  let writes (x : Task) : Bool := x.pages.any fun q => q.vpn == vpn && q.wr
  writes u && !(s.tasks.any fun x => x.lid == t.lid && x.bh == t.bh && u.seq < x.seq && x.seq < t.seq && writes x) &&
  !((versionsOf s t.lid vpn).any fun v => u.seq < v.maker && v.maker < t.seq)

/-- The earlier tasks of a task's launch that are not complete (R383). -/
def earlierTasks (s : State) (t : Task) : List Task := s.tasks.filter fun u => u.lid == t.lid && u.bh == t.bh && u.seq < t.seq

/-- The version that a reader is mapped to: that of the last accepted writer while it is not complete, or the current one (R383). -/
def readVersion (s : State) (t : Task) (vpn : Nat) : Option Nat :=
  match ((earlierTasks s t).find? fun u => lastWriter s t u vpn).bind fun u => u.pages.find? fun q => q.vpn == vpn with
  | some q => q.ver
  | none => currentVersion s t.lid vpn

/-- Map one declared page of a task, where it can be mapped now (R383): a task that reads takes U's version or the current one, however its own
translation went; one that only writes takes a new version of a renamable page. -/
def mapPage (s : State) (id : Nat) (k : Nat) : State :=
  match taskOf s id with
  | none => s
  | some t =>
    match t.pages[k]? with
    | none => s
    | some p =>
      let put (u : State) (v : Option Nat) : State := taskPut u { t with pages := t.pages.set k { p with mapped := true, ver := v } }
      if !p.takesVersion ∨ p.mapped ∨ mapBehind s t p.vpn then s
      else if p.wr ∧ !p.rd then
        (match versionNew s t.lid p.vpn t.seq with
         | none => s
         | some (page, s1) => versionsFree (put s1 (some page)))
      else put s (if p.wr then currentVersion s t.lid p.vpn else readVersion s t p.vpn)

/-- Whether T waits for U, accepted before it and not complete, on a page that both declare (R383). -/
def pageWaits (s : State) (t u : Task) (p q : TPage) : Bool :=
  if p.wr && !p.rd then !p.ren
  else if p.rd && p.wr then lastWriter s t u p.vpn || (q.rd && q.ver == p.ver)
  else p.rd && lastWriter s t u p.vpn

/-- Whether a task waits for another (R383). -/
def taskWaits (s : State) (t u : Task) : Bool :=
  t.pages.any fun p => u.pages.any fun q => p.vpn == q.vpn && pageWaits s t u p q

/-- Re-examine a waiting task: map what can be mapped, and make it READY when nothing is left to wait for (R386). -/
def taskWake (s : State) (id : Nat) : State :=
  match taskOf s id with
  | none => s
  | some t =>
    if t.st ≠ .waiting then s
    else
      let s1 := (List.range t.pages.length).foldl (fun a k => mapPage a id k) s
      match taskOf s1 id with
      | none => s1
      | some x =>
        if (x.pages.any fun p => p.takesVersion && !p.mapped) || (earlierTasks s1 x).any (taskWaits s1 x) then s1
        else newId (taskPut s1 { x with st := .ready, readyAt := s1.nextId })

/-- Re-examine every waiting task of a launch, in acceptance order. -/
def tasksWake (s : State) (lid : Nat) : State :=
  (s.tasks.filter fun t => t.lid == lid).foldl (fun a t => taskWake a t.id) s

/-- TASK_ACCEPT (R378, R382, R386), in the order in which the spawns and continuations of a launch reached the controller: `task` numbers a spawn or a continuation whose record is in its ring, which is accepted; or an accepted task, whose
declared pages are translated. -/
def execTaskAccept (task : Nat) (s : State) : Outcome State Fault Refusal :=
  .next (match cmdAt s task with
  | some c =>
    let first := s.cmds.all fun x => !(x.stage == 2 && x.scope == c.scope && (x.code == 0x180 || x.code == codeContinue) && x.aux < c.aux)
    if c.stage = 2 ∧ (c.code = 0x180 ∨ c.code = codeContinue) ∧ first ∧ bhRuns s (capBh (cmdCap c)) then (acceptTask s c).getD s else s
  | none =>
    match taskOf s task with
    | none => s
    | some t =>
      let turn := s.tasks.all fun u => !(u.lid == t.lid && u.st == .accepted && u.seq < t.seq)
      if t.st ≠ .accepted ∨ !turn ∨ !bhRuns s t.bh then s
      else
        let look (p : TPage) : TPage := { p with ren := pageRenamable s t.bh t.vf p.vpn }
        let s1 := t.pages.foldl (fun a p => pageTouch a t.bh t.vf p.vpn) s
        tasksWake (taskPut s1 { t with st := .waiting, pages := t.pages.map look }) t.lid)

/-- The effective priority of a task (R367, R374). -/
def taskPrio (s : State) (t : Task) : Nat :=
  if t.rcb = 0 then (match launchAt s t.lid with | some l => l.prio | none => 0)
  else match rcbAt s t.rcb with | some r => r.prio | none => rcbEff s 17 (fun a => bits (mem64 s a) 3 3) 4 t.rcb

/-- The overlays of a bulkhead that running tasks hold (R23, R384, R395). -/
def overlaysOf (s : State) (b : Nat) : List (Nat × Bool) :=
  (s.tasks.filter fun t => t.bh == b && (t.st == .running || t.st == .draining) && t.pages.any fun p => p.ver.isSome).map fun t => (t.vf, t.ovHeld)

/-- Whether a READY task is dispatchable (R389): its VF is resident in every slot of its launch's rectangle and its root frame can be allocated. -/
def dispatchable (s : State) (t : Task) : Bool :=
  match launchAt s t.lid, launchCfg s t.lid with
  | some l, some c =>
    t.st == .ready && l.st == .running && c.valid && ((rectSlots c).all fun sl => (getSlot s c.bh sl).st == .resident && (getSlot s c.bh sl).vf == t.vf) &&
    (frameAlloc (rcbActivate s t.rcb) c (bits t.tw.toNat 23 3) none t.lid (some t.id) false).isSome &&
    ((t.pages.all fun p => p.ver.isNone) || poolRoom s t.bh 256 2 t.vf (overlaysOf s t.bh))
  | _, _ => false

/-- The head task of a VF: highest priority, then earliest READY (R389). -/
def headTask (s : State) (b vf : Nat) : Option Task :=
  (s.tasks.filter fun t => t.bh == b && t.vf == vf && dispatchable s t).foldl (fun a t => match a with
    | none => some t
    | some u => if taskPrio s u < taskPrio s t ∨ (taskPrio s u = taskPrio s t ∧ t.readyAt < u.readyAt) then some t else some u) none

/-- The VF that a dispatch decision chooses, and the round-robin pointer and count after it (R389). A decision for an aged VF counts in its run of
consecutive decisions, or ends the run of the VF under the pointer. PRIO of a VF is that of its VF RCB (R367, log 136). -/
def dispatchPick (s : State) (b : Nat) (cand : List Nat) : Option (Nat × Nat × Nat) :=
  let x := getBulk s b
  let old := cand.foldl (fun (a : Option Nat) v => if 31 ≤ sget 0 x.age v then
      (match a with | some u => if sget 0 x.age u < sget 0 x.age v then some v else some u | none => some v) else a) none
  let nextAfter (u : Nat) : Option Nat := (cand.find? fun v => decide (u < v)).or cand.head?
  let prioOf (v : Nat) : Nat := match rcbAt s (vfRcbAddr s v) with | some r => r.prio | none => 0
  match old with
  | some v => some (v, x.rrVf, if v = x.rrVf then x.rrCount + 1 else 0)
  | none =>
    if cand.contains x.rrVf ∧ x.rrCount < prioOf x.rrVf + 1 then some (x.rrVf, x.rrVf, x.rrCount + 1)
    else (nextAfter x.rrVf).map fun v => (v, v, 1)

/-- Write a task's arguments and its link into its root frame on every PE of the rectangle (R65, R375). -/
def taskFrame (s : State) (c : Placed) (t : Task) (fp : Nat) : State :=
  let w := t.tw.toNat
  let put (p : PE) : PE :=
    let p1 := (t.args.take (bits w 26 4)).zipIdx.foldl (fun a x => slotPut a (16 * fp + 2 + x.2) (mkTag tagFilled 0 0) x.1) p
    if bitAt w 30 then linkWrite p1 fp 1 (word (bits w 31 10)) else p1
  (rectPes c).foldl (fun a pe => modPE a c.bh pe put) s

/-- Take a dispatched task's record out of its ring (R367): it stands behind the records of earlier tasks that are not dispatched. -/
def taskUnqueue (s : State) (t : Task) : State :=
  match launchAt s t.lid with
  | none => s
  | some l =>
    let cap := l.tq.toNat
    let k := (s.tasks.filter fun u => u.lid == t.lid && u.seq < t.seq && (u.st == .accepted || u.st == .waiting || u.st == .ready)).length
    if k < qLen s (capBh cap) (capQ cap) then (qTakeAt s (capBh cap) (capQ cap) k).2 else s

/-- Dispatch a task (R375): its RCB is activated, its root frame allocated and filled, and its token injected. -/
def dispatchTask (s : State) (t : Task) : State :=
  match launchCfg s t.lid with
  | none => s
  | some c =>
    let s1 := rcbUse s t.rcb
    match frameAlloc s1 c (bits t.tw.toNat 23 3) none t.lid (some t.id) false with
    | none => s1
    | some (fp, s2) =>
      let s3 := taskUnqueue s2 t
      let w := t.tw.toNat
      let pe := (c.oy + bits w 4 5) * 16 + (c.ox + bits w 0 4)
      let tok : Token := { payload := word t.seq, kind := .value, vf := t.vf, fp := fp, port := (portOfCode (bits w 21 2)).getD .l, node := bits w 9 12,
                           bh := c.bh, pe := pe, flags := 0, prio := taskPrio s1 t }
      sendFlight (taskPut (taskFrame s3 c t fp) { t with st := .running, ovHeld := poolTake s t.bh 256 2 t.vf (overlaysOf s t.bh) == some true }) tok c.bh pe 0 (cycleOf s3 c.bh) t.lid

/-- DISPATCH_DECISION (R389): at most one every 2 BH cycles. -/
def execDispatchDecision (b : Nat) (s : State) : Outcome State Fault Refusal :=
  .next (
    let x := getBulk s b
    let vfs := s.tasks.foldl (fun m t => if t.bh = b then sins m t.vf () else m) ([] : SMap Unit)
    let cand := (vfs.map (·.1)).filter fun v => (headTask s b v).isSome
    if cand.isEmpty ∨ cycleOf s b < x.dispAt ∨ !bhRuns s b then s
    else match dispatchPick s b cand with
      | none => s
      | some (v, ptr, n) =>
        match headTask s b v with
        | none => s
        | some t =>
          let ages := cand.foldl (fun a u => sput 0 a u (if u = v then 0 else sget 0 x.age u + 1)) x.age
          modBulk (dispatchTask s t) b fun y => { y with age := ages, rrVf := ptr, rrCount := n, dispAt := y.cycle + 2 })

/-- The PEs of a bulkhead as a VF has them: those that hold anything, and its saved ones (R430). -/
def vfPes (s : State) (b vf : Nat) : List PE :=
  (activePes s b).map (getPE s b) ++ ((s.saved.filter fun x => x.bh == b && x.vf == vf).map fun x => x.pes.map (·.2)).flatten

/-- Whether a task has a live frame, in its VF's context or where that is saved (R385). -/
def taskFrames (s : State) (t : Task) : Bool := (vfPes s t.bh t.vf).any fun p => p.finfo.any fun e => e.2.task == some t.id

/-- Whether work of a task is under way: firings matched or issued, fetch tags, requests, commands (R385). -/
def taskBusy (s : State) (t : Task) : Bool :=
  let mine (f : Firing) : Bool := f.task == some t.id
  ((vfPes s t.bh t.vf).any fun p => p.ready.any mine || p.issued.any (fun i => mine i.f) || p.fetch.any fun g => mine g.f) ||
  s.cmds.any (fun c => mine c.f) || s.reqs.any fun r => r.task == some t.id && (match r.owner with | .pub _ => false | _ => true)

/-- TASK_COMPLETE (R385, R386): with no frame and no work left a RUNNING task's stores are published early and released at scope vf; then its join is
sent and it retires. -/
def execTaskComplete (task : Nat) (s : State) : Outcome State Fault Refusal :=
  .next (match taskOf s task with
  | none => s
  | some t =>
    if !bhRuns s t.bh ∨ taskFrames s t ∨ taskBusy s t then s
    else
      let f : Firing := { Firing.empty with bh := t.bh, vf := t.vf, lid := t.lid, prio := taskPrio s t, task := some t.id }
      match t.st with
      | .running =>
        let sc := (scopeCap s f 3).getD (bits (vfScope s t.vf) 0 3, s)
        let mode := match launchCfg s t.lid with | some c => c.mode | none => 0
        let w := publishEarly sc.2 t.bh t.vf t.lid mode sc.1 fun p => p.task == some t.id
        taskPut w.1 { t with st := .draining, waitFor := w.2 ++ releaseSet w.1 t.vf sc.1 }
      | .draining =>
        if !t.waitFor.all (waitClear s) then s
        else
          let s1 := if t.join = 0 then s else
            (if t.join % 8 ≠ 0 then (let e := newError s (seqrSrc t.bh) 0x14; toSink e.2 t.bh t.vf t.lid e.1)
             else sendReq s { joinReq f (.seqr t.bh) t.join with task := none })
          tasksWake (versionsFree (tasksDrop s1 fun u => u.id == t.id)) t.lid
      | _ => s)

end Sys2Proof.Machine
end

