-- ==== Sys2Proof/Machine/Launches.lean ====
section
/-! DEFINITION. Loads of configurations and launches (R105 to R108, R233, R373, R387, R388, R442): CFG_LD and PLACEMENT_RETRY, LAUNCH_TAKE, LAUNCH_START,
LAUNCH_QUIESCE and LAUNCH_END. -/

namespace Sys2Proof.Machine

open Host

/-- Whether a command loads a configuration. -/
def isLoad (c : Cmd) : Bool := c.code == 0x1C7 || c.code == codeLaunchLoad

/-- The virtual address of a load's image. -/
def loadImage (s : State) (c : Cmd) : Nat :=
  if c.code = 0x1C7 then (payloadAt c.f .l).toNat else match launchAt s c.f.lid with | some l => l.image | none => 0

/-- A read of an image by the region sequencer, with acq at scope vf (R442). -/
def imageReq (s : State) (c : Cmd) (va len row : Nat) : Req :=
  { reqFor c.f (.seqr c.f.bh) 9 va len (.cmd c.id row) with mode := 2, waitFor := releaseSet s c.f.vf 3 }

/-- Begin a load, from the header of the image (R105, R108). The image is read at the address as it is given, 64-byte-aligned or not (R99, log 131). -/
def loadBegin (s : State) (c : Cmd) : State :=
  sendReq (cmdPut s { c with stage := 0, bytes := [] }) (imageReq s c (loadImage s c) 64 0)

/-- CFG_LD (R442): the load begins when the firing issues. -/
def execCfgLd (n : Node) (s : State) : Outcome State Fault Refusal :=
  .next (fire s 0x1C7 n fun c t =>
    if !commandRoom t c.f.bh c.f.pe then none
    else
      let cmd := commandFor t c
      some (loadBegin (commandEnter (charge t c.f.bh c.f.pe 10 1) cmd) cmd))

/-- A launch goes to ENDING with status bits and an exit status (R387, R388). -/
def launchFail (s : State) (lid bit : Nat) (exit : Word) : State :=
  match launchAt s lid with
  | none => s
  | some l => launchPut s { l with st := .ending, status := Nat.lor l.status bit, exit := exit }

/-- A load ends with an error of its reads. -/
def loadError (s : State) (c : Cmd) (e : Word) : State :=
  if c.code = 0x1C7 then cmdReply s c .err e [] else launchFail (cmdDel s c.id) c.f.lid 4 e

/-- A load is rejected (R107): CONFIG_REJECT, to the firing's destinations or in the launch's status. -/
def loadReject (s : State) (c : Cmd) (r : RejectAt) : State :=
  let b := c.f.bh
  let s1 := postEvent s (seqrSrc b) b (some c.f.vf) (some c.f.lid) 0x03 (rejectWord r)
  if c.code = 0x1C7 then (let e := newError s1 (seqrSrc b) 0x13; cmdReply e.2 c .err e.1 [])
  else launchFail (cmdDel s1 c.id) c.f.lid 4 (word (rejectCode r.why))

/-- The tenant-root VF of a bulkhead (R404). -/
def rootVf (s : State) (b : Nat) : Nat := regBits s b 0x20000 17 9

/-- The live TID entries of a VF (R102). -/
def liveTids (s : State) (vf : Nat) : List TidEntry := ((s.cfgs.filter fun c => c.valid && c.vf == vf).map fun c => c.tids).flatten

/-- The configuration word (R442). -/
def cfgWord (c : Placed) (root : Bool) (fp : Nat) : Word :=
  word (c.bh + c.ox * 2 ^ 4 + c.oy * 2 ^ 8 + c.nbase * 2 ^ 13 + b2n root * 2 ^ 25 + fp * 2 ^ 26)

/-- Bind the queue that a launch record's TQ names (R387): none where it is no KIND 1 queue free of a binding. -/
def bindQueue (s : State) (l : Launch) : Option State :=
  let cap := l.tq.toNat
  let b := capBh cap
  let q := capQ cap
  if cap = 0 then some s
  else if (capBad s l.vf cap 7).isSome ∨ qKind s b q ≠ 1 ∨ qLaunch s b q ≠ 0xFFFF then none
  else some (regSetBits s b (0x40000 + 32 * q + 16) 32 16 l.lid)

/-- The read of a launch's arguments 8 onward (R373), by the sequencer. A fault on it has the KIND of an image read, which the table of R36 does not list for it
(log 130). -/
def argsReq (s : State) (c : Cmd) (l : Launch) (n : Nat) : State :=
  if n ≤ 8 then s else sendReq s { imageReq s c l.argptr (8 * (n - 8)) 2 with waitFor := [] }

/-- A launch's configuration has become resident (R105): it enters STARTING, where its RCB is activated and its queue bound (R387). -/
def launchPlaced (s : State) (c : Cmd) (cfg : Nat) : State :=
  let s0 := cmdPut s { c with stage := 3, mask := cfg }
  match launchAt s0 c.f.lid with
  | none => cmdDel s0 c.id
  | some l0 =>
    let s1 := rcbUse s0 l0.rcb
    let l := match rcbAt s1 l0.rcb with
      | some r => { l0 with st := .starting, cfg := cfg, prio := r.prio, errhalt := r.errhalt, fdom := r.fdom }
      | none => { l0 with st := .starting, cfg := cfg }
    match bindQueue (launchPut s1 l) l with
    | none => launchFail (cmdDel (launchPut s1 l) c.id) l.lid 8 0
    | some s2 => s2

/-- Whether the whole of a configuration stands in its slots (R46, R230, R234): it is valid, and its VF is resident in each. -/
def cfgStands (s : State) (g : Placed) : Bool :=
  g.valid && (rectSlots g).all fun sl => (getSlot s g.bh sl).st == .resident && (getSlot s g.bh sl).vf == g.vf

/-- A node's load has been placed: it emits its word; with ROOT it first allocates a frame and injects the entry tokens (R442). None while frame units
are missing, or while the configuration is switched out. -/
def nodePlaced (s : State) (c : Cmd) (g : Placed) : Option State :=
  if litBits c.node 3 1 = 0 then some (cmdReply s c .value (cfgWord g false 0) [])
  else if !cfgStands s g then none
  else
    match frameAlloc s g (litBits c.node 0 3) none c.f.lid none true with
    | none => none
    | some (fp, s1) =>
      let es := imageEntries (imageOf c.bytes)
      let s2 := entryTokens s1 g es (es.map fun _ => word c.f.fp) fp c.f.prio
      some (cmdReply s2 c .value (cfgWord g true fp) [])

/-- The placer takes up a validated load (R233). Its TID entries are judged against those that are live now (R102, R107). -/
def loadPlace (s : State) (c : Cmd) : State :=
  let i := imageOf c.bytes
  let b := c.f.bh
  let judged := imageReject i (rootVf s b == c.f.vf) (liveTids s c.f.vf)
  match placerDecide s b c.f.vf (shapeOf i) with
  | .wait => s
  | .reject r => loadReject s c (judged.getD (rejectOff r 6))
  | .put ox oy =>
    match judged with
    | some x => loadReject s c x
    | none =>
      let g := cfgInstall s i b c.f.vf c.f.lid ox oy (loadImage s c) (c.code == codeLaunchLoad)
      if c.code = codeLaunchLoad then launchPlaced g.2 c g.1
      else
        let c1 := { c with stage := 3, mask := g.1 }
        match cfgAt g.2 g.1 with
        | none => g.2
        | some p => (nodePlaced (cmdPut g.2 c1) c1 p).getD (cmdPut g.2 c1)

/-- The priority of the launch that a load belongs to (R233, R367). -/
def loadPrio (s : State) (c : Cmd) : Nat := match launchAt s c.f.lid with | some l => l.prio | none => c.f.prio

/-- Whether load x stands before load c in the queue of their bulkhead's placer: by its launch's priority, then by arrival there (R233). -/
def queuesBefore (s : State) (x c : Cmd) : Bool :=
  isLoad x && x.stage == 2 && x.f.bh == c.f.bh && x.id != c.id &&
  (decide (loadPrio s c < loadPrio s x) || (loadPrio s x == loadPrio s c && decide (x.since < c.since)))

/-- Whether a placement of a VF waits that needs a slot (R233, R392). -/
def placementWaits (s : State) (b sl vf : Nat) : Bool :=
  s.cmds.any fun c => isLoad c && c.stage == 2 && c.f.bh == b && c.f.vf == vf &&
    (match placeLater s b vf (shapeOf (imageOf c.bytes)) with | some o => (shapeSlots (shapeOf (imageOf c.bytes)) o).contains sl | none => false)

/-- The slots that must be switched with a slot for a VF: those that hold parts of one configuration with it, and so on (R392). -/
def groupSlots (s : State) (b sl vf : Nat) : List Nat :=
  (List.range 32).foldl (fun a _ =>
    (s.cfgs.filter fun c => c.bh == b && c.vf == vf && (rectSlots c).any a.contains).foldl (fun m c =>
      m ++ (rectSlots c).filter fun g => !m.contains g) a) [sl]

/-- Whether a VF that is not resident in a slot is runnable there (R392, R234): a task that waits waits for a configuration saved there; a restore needs
every slot of its saved placements. -/
def runnable (s : State) (b sl vf : Nat) : Bool :=
  (groupSlots s b sl vf).all (fun g => holdsSlot s b g vf) &&
  ((s.cfgs.any fun c => c.bh == b && c.vf == vf && (rectSlots c).contains sl) || placementWaits s b sl vf || hasSpilled s b sl vf)

/-- Whether a load may proceed: its firing's VF stands in its slot. A launch's does not need one. One that a pre-emption abandoned restarts when its VF is resumed
in the bulkhead (R108, R387), and at once where the VF has nothing there to be resumed for. -/
def loadAwake (s : State) (c : Cmd) : Bool :=
  bhRuns s c.f.bh &&
  (if c.code = codeLaunchLoad then
    let here (sl : Nat) : Bool := (getSlot s c.f.bh sl).st == .resident && (getSlot s c.f.bh sl).vf == c.f.vf
    c.stage != 8 || (List.range 32).any here || !((List.range 32).any fun sl => runnable s c.f.bh sl c.f.vf)
  else isResident s c.f.bh c.f.pe c.f.vf)

/-- Whether a load must let another go first: one before it in the placer's queue that the placer can decide on now (R233). -/
def loadBehind (s : State) (c : Cmd) : Bool :=
  s.cmds.any fun x => queuesBefore s x c && loadAwake s x && placerDecide s x.f.bh x.f.vf (shapeOf (imageOf x.bytes)) != .wait

/-- PLACEMENT_RETRY (R105, R107, R108, R233, R387): the next thing that a load can do: its header or its image has been read, the image is judged, the
placer finds a place, or a root frame can be allocated. -/
def execPlacementRetry (cmd : Nat) (s : State) : Outcome State Fault Refusal :=
  .next (match cmdAt s cmd with
  | none => s
  | some c =>
    if !isLoad c ∨ !loadAwake s c then s
    else
      match c.stage with
      | 0 =>
        (match commandRow s c 0 with
         | none => s
         | some r =>
           if r.st ≠ .finished then s
           else
             let s1 := reqDel s r.id
             match reqError r with
             | some e => loadError s1 c e
             | none =>
               let i := imageOf (reqBytes r)
               if fieldAt i.bytes 0 4 ≠ 0x0D120CF0 ∨ fieldAt i.bytes 4 2 ≠ 1 ∨ i.size < 64 then
                 (match checkFormat i with | some x => loadReject s1 c x | none => s1)
               else sendReq (cmdPut s1 { c with stage := 1 }) (imageReq s1 c (loadImage s c) i.size 1))
      | 1 =>
        (match commandRow s c 1 with
         | none => s
         | some r =>
           if r.st ≠ .finished then s
           else
             let s1 := reqDel s r.id
             match reqError r with
             | some e => loadError s1 c e
             | none =>
               let i := imageOf (reqBytes r)
               match imageReject i (rootVf s c.f.bh == c.f.vf) (liveTids s c.f.vf) with
               | some x => loadReject s1 c x
               | none => newId (cmdPut s1 { c with stage := 2, bytes := i.bytes, since := s1.nextId }))
      | 2 => if loadBehind s c then s else loadPlace s c
      | 3 =>
        if c.code = codeLaunchLoad then s
        else (match cfgAt s c.mask with | some g => (nodePlaced s c g).getD s | none => cmdDel s c.id)
      | 8 => loadBegin s c
      | _ => s)

/-- The launch of a 128-byte record (R373, R387). -/
def launchOf (bs : List Byte) (lid b vf prio : Nat) : Launch :=
  { lid := lid, bh := b, vf := vf, st := .placing, image := recWord bs 0, rcb := recWord bs 8, compl := recWord bs 16, tq := word (recWord bs 24),
    apool := recWord bs 32, apages := fieldAt bs 40 4,
    poolFree := (List.range (fieldAt bs 40 4)).map fun i => recWord bs 32 / 2 ^ 14 + i, blim := fieldAt bs 44 2, cls := fieldAt bs 46 1,
    argptr := recWord bs 48, args := (List.range 8).map fun k => word (recWord bs (56 + 8 * k)), cfg := 0, rootFp := 0, errcnt := 0, exit := 0,
    halted := false, status := 0, flags := 0, taskSeq := 0, prio := prio, errhalt := false, fdom := false }

/-- The effective priority that a launch record's RCB gives (R367, R387). -/
def recordPrio (s : State) (bs : List Byte) : Nat :=
  if recWord bs 8 = 0 then 0 else rcbEff s 17 (fun a => bits (mem64 s a) 3 3) 4 (recWord bs 8)

/-- The LID in a launch's RCB (R365, R387): it is written when it is assigned (log 132). -/
def lidPut (s : State) (l : Launch) : State := if l.rcb = 0 then s else memPutLe s (l.rcb + 104) 2 l.lid

/-- LAUNCH_TAKE (R387): of the 16 oldest records of a launch queue the one of highest priority, the oldest first; a LID is assigned and the load begins. -/
def execLaunchTake (b q : Nat) (s : State) : Outcome State Fault Refusal :=
  .next (
    if !qEn s b q ∨ qKind s b q ≠ 2 ∨ qLen s b q = 0 ∨ !bhRuns s b then s
    else
      let n := min 16 (qLen s b q)
      let rec_ (u : State) (k : Nat) : List Byte × State := qRead u b q (qHead u b q + k)
      let s0 := (List.range n).foldl (fun u k => let r := rec_ u k; rcbMeet 4 r.2 (recWord r.1 8)) s
      let prioAt (k : Nat) : Nat := recordPrio s0 (rec_ s0 k).1
      let k := (List.range n).foldl (fun a i => if prioAt a < prioAt i then i else a) 0
      let t := qTakeAt s0 b q k
      let lid := b * 2 ^ 12 + (getBulk s b).lidNext % 2 ^ 12
      let l := launchOf t.1 lid b (qOwner s b q) (prioAt k)
      let s1 := modBulk { t.2 with launches := (t.2.launches.filter fun x => x.lid != lid) ++ [l] } b fun x => { x with lidNext := x.lidNext + 1 }
      let c := innerCommand s1 codeLaunchLoad (.seqr b) b l.vf lid l.prio 0
      loadBegin (commandEnter (lidPut s1 l) c) c)

/-- The entry tokens of a launch are injected and it runs (R230, R387); `tail` are its arguments 8 onward. -/
def launchInject (s : State) (l : Launch) (c : Cmd) (g : Placed) (fp : Nat) (tail : List Word) : State :=
  let s1 := entryTokens s g (imageEntries (imageOf c.bytes)) (l.args ++ tail) fp l.prio
  launchPut (cmdDel s1 c.id) { l with st := .running, rootFp := fp }

/-- LAUNCH_START (R230, R373, R387): while the configuration stands in its slots, the root frame is allocated; then the arguments past the eighth are read, one token is injected for each entry word, and the
launch runs. -/
def execLaunchStart (lid : Nat) (s : State) : Outcome State Fault Refusal :=
  .next (match launchAt s lid, s.cmds.find? fun c => c.code == codeLaunchLoad && c.f.lid == lid && (c.stage == 3 || c.stage == 4) with
  | some l, some c =>
    if l.st ≠ .starting ∨ !bhRuns s l.bh then s
    else
      match cfgAt s l.cfg with
      | none => s
      | some g =>
        let n := (imageOf c.bytes).nentry
        if !cfgStands s g then s
        else if c.stage = 3 then
          match frameAlloc s g l.cls none lid none true with
          | none => s
          | some (fp, s1) => if n ≤ 8 then launchInject s1 l c g fp [] else argsReq (cmdPut s1 { c with stage := 4, aux := fp }) c l n
        else
          match commandRow s c 2 with
          | none => s
          | some r =>
            if r.st ≠ .finished then s
            else
              let s1 := reqDel s r.id
              match reqError r with
              | some e => launchFail (cmdDel (frameFree s1 g.bh (g.oy * 16 + g.ox) c.aux) c.id) lid 4 e
              | none => launchInject s1 l c g c.aux ((List.range (n - 8)).map fun k => word (fieldAt (reqBytes r) (8 * k) 8))
  | _, _ => s)

/-- Whether an issued firing waits for a boundary that has not completed (R161, R212). -/
def boundaryHeld (i : Issued) : Bool := match i.wait with | .phase _ _ => true | _ => false

/-- Whether work of a launch is under way, in its VF's context or where that is saved: firings matched or issued, fetch tags, requests, commands
(R387). For the end of a launch a phase node's firing that waits for its boundary is none: the final publication waits for no boundary (R161). -/
def launchBusy (s : State) (l : Launch) (matched : Bool) : Bool :=
  let mine (f : Firing) : Bool := f.lid == l.lid
  ((vfPes s l.bh l.vf).any fun p => (matched && p.ready.any mine) || p.issued.any (fun i => mine i.f && (matched || !boundaryHeld i)) || p.fetch.any fun g => mine g.f) ||
  s.cmds.any (fun c => mine c.f && c.code != codeLaunchEnd) ||
  s.reqs.any fun r => r.lid == l.lid && (match r.owner with | .pub _ => false | .cmd c _ => !(s.cmds.any fun x => x.id == c && x.code == codeLaunchEnd) | _ => true)

/-- Whether a launch is quiescent (R387): no frame, task, firing or work of it is left, and no token on its way to one. -/
def quiescent (s : State) (l : Launch) : Bool :=
  !launchBusy s l true && !(s.tasks.any fun t => t.lid == l.lid) &&
  !((vfPes s l.bh l.vf).any fun p => p.finfo.any (fun e => e.2.lid == l.lid) || p.held.any fun x => x.lid == l.lid) &&
  !(s.flights.any fun x => x.lid == l.lid) && (List.range 32).all fun sl => slotStands s l.bh sl l.vf || !hasSpilled s l.bh sl l.vf

/-- LAUNCH_QUIESCE (R387). -/
def execLaunchQuiesce (lid : Nat) (s : State) : Outcome State Fault Refusal :=
  .next (match launchAt s lid with
  | none => s
  | some l => if l.st = .running ∧ quiescent s l ∧ bhRuns s l.bh then launchPut s { l with st := .ending, exit := 0 } else s)

/-- The 16 bytes of a completion record (R388). -/
def complBytes (l : Launch) : List Byte :=
  let st := Nat.lor (b2n l.halted + 2 * b2n (0 < l.errcnt)) l.status
  leBytes 8 l.exit.toNat ++ leBytes 4 l.errcnt ++ leBytes 1 st ++ [0] ++ leBytes 2 l.lid

/-- Copy the current version of each page of a launch to version 0 (R384). -/
def copyBack (s : State) (l : Launch) : State :=
  let cur := s.versions.filter fun v => v.lid == l.lid && v.current
  let s1 := cur.foldl (fun t v =>
    match pageLeaf t l.bh l.vf v.vpn with
    | some (_, p) => let u := ownMeet t l.vf true (v.page * 2 ^ 14) (2 ^ 14); ownPut u l.vf (p * 2 ^ 14) (ownBytes u (v.page * 2 ^ 14) (2 ^ 14))
    | none => t) s
  { s1 with versions := s1.versions.filter fun v => v.lid != l.lid }

/-- Release the queue that a launch bound; records left in it go (R387). -/
def unbindQueue (s : State) (l : Launch) : State :=
  let cap := l.tq.toNat
  if cap = 0 ∨ 12 ≤ capBh cap ∨ qLaunch s (capBh cap) (capQ cap) ≠ l.lid then s
  else regSetBits (qClear s (capBh cap) (capQ cap)).2 (capBh cap) (0x40000 + 32 * capQ cap + 16) 32 16 0xFFFF

/-- Issued firings of a PE for which a test holds wait for a boundary no longer, but for some writes. -/
def boundaryOver (s : State) (b pe : Nat) (keys : List Nat) (hit : Firing → Bool) : State :=
  if !((getPE s b pe).issued.any fun i => boundaryHeld i && hit i.f) then s
  else modPE s b pe fun p => { p with issued := p.issued.map fun i => if boundaryHeld i && hit i.f then { i with wait := .reqs keys } else i }

/-- A launch's end begins (R161, R387): the stores of its configurations are published, and its phase nodes' firings complete with that. -/
def launchPublish (s : State) (l : Launch) : State :=
  let p := (s.cfgs.filter fun c => c.lid == l.lid).foldl (fun a c => let w := publishFinal a.1 c; (w.1, a.2 ++ w.2)) (s, ([] : List Nat))
  let s1 := (activePes s l.bh).foldl (fun t pe => boundaryOver t l.bh pe p.2 fun f => f.lid == l.lid) p.1
  commandEnter s1 { innerCommand p.1 codeLaunchEnd (.seqr l.bh) l.bh l.vf l.lid l.prio 0 with waitFor := p.2 }

/-- When they have been performed (R384, R387, R388): current versions are copied back, the queue is released, the configurations are dropped, and the completion
record is written, released at scope vf. -/
def launchClose (s : State) (l : Launch) (c : Cmd) : State :=
  let s1 := unbindQueue (copyBack s l) l
  let s2 := (s1.cfgs.filter fun g => g.lid == l.lid).foldl cfgDropAll s1
  let wait := releaseSet s2 l.vf 3
  let s3 := cmdPut s2 { c with stage := 1, waitFor := wait }
  if l.compl = 0 then s3
  else sendReq s3 { commandReq c 12 l.compl 16 0 with write := true, data := complBytes l, waitFor := wait }

/-- Whether some live launch other than one uses an RCB. -/
def rcbUsed (s : State) (lid addr : Nat) : Bool := s.launches.any fun l => l.lid != lid && l.st != .ended && l.rcb == addr

/-- The last half (R388, R424): EXIT, ERRCNT and FLAGW in the launch RCB, and LAUNCH_DONE. -/
def launchDone (s : State) (l : Launch) (c : Cmd) : State :=
  let s1 := match commandRow s c 0 with
    | some r => let t := reqDel s r.id
                (match reqError r with
                 | some e => storeLost t l.bh l.vf l.lid ((r.pieces.map fun p => p.pa).headD 0) (bits e.toNat 0 8)
                 | none => t)
    | none => s
  let s2 := if l.rcb = 0 then s1
    else
      let r := ownWord s1 l.vf (l.rcb + 48)
      memPutLe (memPutLe (memPutLe r.1 (l.rcb + 68) 4 l.errcnt) (l.rcb + 72) 8 l.exit.toNat) (l.rcb + 48) 8 (Nat.lor r.2 l.flags.toNat)
  let s3 := postEvent s2 (seqrSrc l.bh) l.bh (some l.vf) (some l.lid) 0x10 (leNat (complBytes l))
  let s4 := launchPut (cmdDel s3 c.id) { l with st := .ended }
  if rcbUsed s4 l.lid l.rcb then s4 else rcbRetire s4 fun r => l.rcb != 0 && (r.addr == l.rcb || r.parent == l.rcb)

/-- LAUNCH_END (R285, R387, R388): once the work of a launch in ENDING is done. -/
def execLaunchEnd (lid : Nat) (s : State) : Outcome State Fault Refusal :=
  .next (match launchAt s lid with
  | none => s
  | some l =>
    if l.st ≠ .ending ∨ !bhRuns s l.bh ∨ launchBusy s l false then s
    else
      match s.cmds.find? fun c => c.code == codeLaunchEnd && c.f.lid == lid with
      | none => launchPublish s l
      | some c =>
        if c.stage = 0 then (if c.waitFor.all (waitClear s) then launchClose s l c else s)
        else
        let written : Bool := match commandRow s c 0 with | some r => r.st == .finished || (r.st == .moving && waitClear s (2 * r.id)) | none => true
        if c.waitFor.all (waitClear s) ∧ written then launchDone s l c else s)

end Sys2Proof.Machine
end

