-- ==== Sys2Proof/Machine/Steering.lean ====
section
/-! DEFINITION. Class 0: steering and frames (R277 to R290). -/

namespace Sys2Proof.Machine

open Host

/-- NOP (R277): consumes l and emits nothing. -/
def execNop (n : Node) (s : State) : Outcome State Fault Refusal :=
  .next (fire s 0x000 n fun c t => issueSimple t c 0 [] [])

/-- MOV (R277): l, with its kind and payload unchanged. -/
def execMov (n : Node) (s : State) : Outcome State Fault Refusal :=
  .next (fire s 0x001 n fun c t => issueSimple t c 0 (passOn c (lOperand c)) [])

/-- CONST (R277): lane 0 of the literal under R74. -/
def execConst (n : Node) (s : State) : Outcome State Fault Refusal :=
  .next (fire s 0x002 n fun c t => issueSimple t c 0 (toUsed n .value (litWord n)) [])

/-- SINK (R281): an error l goes to the graph's sink unless DROP is set. -/
def execSink (n : Node) (s : State) : Outcome State Fault Refusal :=
  .next (fire s 0x003 n fun c t =>
    let o := lOperand c
    issueSimple t c 0 [] (if o.kind = .err ∧ litBits n 0 1 = 0 then [.sinkErr o.payload] else []))

/-- SWITCH (R279): l to DEST0 where r's payload is nonzero, else to DEST1; with NULLS the other used destination gets a null token. -/
def execSwitch (n : Node) (s : State) : Outcome State Fault Refusal :=
  .next (fire s 0x004 n fun c t =>
    let o := lOperand c
    let taken := payloadAt c.f .r != 0
    let null := litBits n 0 1 == 1
    let one (d : Option Dest) (take : Bool) : List Emit :=
      if take then toDest d o.kind o.payload false else if null then toDest d .null 0 false else []
    issueSimple t c 0 (one n.d0 taken ++ one n.d1 (!taken)) [])

/-- MERGE (R279): the operand that is not null; l where neither is. -/
def execMerge (n : Node) (s : State) : Outcome State Fault Refusal :=
  .next (fire s 0x005 n fun c t =>
    let l := lOperand c
    let r := rOperand c
    let es :=
      if l.kind = .null ∧ r.kind = .null then toUsed n .null 0
      else if l.kind = .null then passOn c r
      else passOn c l
    issueSimple t c 0 es [])

/-- GATE (R279): l, once r has arrived. -/
def execGate (n : Node) (s : State) : Outcome State Fault Refusal :=
  .next (fire s 0x006 n fun c t => issueSimple t c 0 (passOn c (lOperand c)) [])

/-- NULLIFY (R277): a null token with STATUS UNTAKEN. -/
def execNullify (n : Node) (s : State) : Outcome State Fault Refusal :=
  .next (fire s 0x007 n fun c t => issueSimple t c 0 (toUsed n .null 0) [])

/-- ISNULL (R280). -/
def execIsnull (n : Node) (s : State) : Outcome State Fault Refusal :=
  .next (fire s 0x008 n fun c t => issueSimple t c 0 (toUsed n .value (word (b2n ((lOperand c).kind == .null)))) [])

/-- ISERR (R280). -/
def execIserr (n : Node) (s : State) : Outcome State Fault Refusal :=
  .next (fire s 0x009 n fun c t => issueSimple t c 0 (toUsed n .value (word (b2n ((lOperand c).kind == .err)))) [])

/-- ERRCODE (R280): the payload of an error l, 0 for any other kind. -/
def execErrcode (n : Node) (s : State) : Outcome State Fault Refusal :=
  .next (fire s 0x00A n fun c t =>
    let o := lOperand c
    issueSimple t c 0 (toUsed n .value (if o.kind = .err then o.payload else 0)) [])

/-- MKERR (R280): a new error token of the firing PE with the literal's code. -/
def execMkerr (n : Node) (s : State) : Outcome State Fault Refusal :=
  .next (fire s 0x00B n fun c t =>
    let x := newError t (peSrc c.f.bh c.f.pe) (litBits n 0 8)
    let e := errEmits n x.1
    issueSimple x.2 c 0 e.1 e.2)

/-- FRAMEOF (R286). -/
def execFrameof (n : Node) (s : State) : Outcome State Fault Refusal :=
  .next (fire s 0x00C n fun c t => issueSimple t c 0 (toUsed n .value (word (c.f.fp % 1024))) [])

/-- Whether the throttle lets a falloc issue (R231). -/
def throttleOk (p : PE) (node fp throttle : Nat) : Bool :=
  throttle == 0 ||
    (match p.sites.find? fun e => e.1 == (node, fp) with
     | some e => e.2 < throttle
     | none => p.sites.length < 64)

/-- Count a frame of a loop site (R231). That a site is the node and the frame pointer, also where that pointer has been freed and taken again, is the model's choice
(log 149). -/
def siteUp (p : PE) (key : Nat × Nat) : PE :=
  if p.sites.any fun e => e.1 == key then { p with sites := p.sites.map fun e => if e.1 = key then (e.1, e.2 + 1) else e }
  else { p with sites := p.sites ++ [(key, 1)] }

/-- FALLOC (R287): a frame in every PE of the rectangle; link 1 of the new frame and, with LINK, link 0 of the firing's frame are written
when the result is produced (R288). It waits while the throttle, the units or the budget hold it back (R231). -/
def execFalloc (n : Node) (s : State) : Outcome State Fault Refusal :=
  .next (fire s 0x00D n fun c t =>
    let f := c.f
    let throttle := litBits n 4 8
    match cfgAt t f.cfg with
    | none => none
    | some cf =>
      if !throttleOk (getPE t f.bh f.pe) f.node f.fp throttle then none
      else
        let site := if throttle = 0 then none else some (f.pe * 4096 + f.node, f.fp)
        match frameAlloc t cf (litBits n 0 3) site f.lid f.task false with
        | none => none
        | some (fp, t1) =>
          let t2 := if throttle = 0 then t1 else modPE t1 f.bh f.pe fun p => siteUp p (f.node, f.fp)
          let links : List Effect := [.link fp 1 (word f.fp)] ++ (if litBits n 3 1 = 1 then [.link f.fp 0 (word fp)] else [])
          issueSimple t2 c 0 (toUsed n .value (word fp)) links)

/-- FFREE (R289): the frame that the literal names; a link is read as the firing issues (log 10). With code 3, l must be a value. -/
def execFfree (n : Node) (s : State) : Outcome State Fault Refusal :=
  .next (fire s 0x00E n fun c t =>
    let f := c.f
    let which := litBits n 0 2
    let p := getPE t f.bh f.pe
    if which = 3 then
      if (lOperand c).kind = .handle then failCode t c 0x07
      else issueSimple t c 0 [] [.freeFrame ((payloadAt f .l).toNat % 1024)]
    else if which = 0 then issueSimple t c 0 [] [.freeFrame f.fp]
    else
      let v := linkRead p f.fp (which - 1)
      some (pushIssued (charge t f.bh f.pe 0 1) f n 1 [] (operandDrops n f ++ [.freeFrame (v.1.toNat % 1024)])
        (flagIf v.2 flagEmptyRead) .nothing))

/-- FLINK (R290): l into a link of the frame r names; FRAME_BAD where that frame is not live on the firing PE. -/
def execFlink (n : Node) (s : State) : Outcome State Fault Refusal :=
  .next (fire s 0x00F n fun c t =>
    let fp := (payloadAt c.f .r).toNat % 1024
    if !frameLive (getPE t c.f.bh c.f.pe) fp then failCode t c 0x04
    else issueSimple t c 0 (passOn c (lOperand c)) [.link fp (litBits n 0 1) (payloadAt c.f .l)])

/-- The PE that a target word names, none where the word is bad (R282, R283). -/
def sendTarget (pe : Nat) (w : Nat) : Option Nat :=
  let abs := bits w 32 1 == 1
  let x : Int := if abs then (bits w 33 4 : Nat) else (pe % 16 : Nat) + sextInt 4 (bits w 10 4)
  let y : Int := if abs then (bits w 37 5 : Nat) else (pe / 16 : Nat) + sextInt 4 (bits w 14 4)
  if bits w 42 22 ≠ 0 ∨ bits w 30 2 = 3 ∨ (abs ∧ bits w 10 8 ≠ 0) ∨ x < 0 ∨ 15 < x ∨ y < 0 ∨ 31 < y then none
  else some (y * 16 + x).toNat

/-- SEND (R282, R283): l to a destination computed at run time; NODE_BAD to the graph's sink for a bad target word. -/
def execSend (n : Node) (s : State) : Outcome State Fault Refusal :=
  .next (fire s 0x010 n fun c t =>
    let w := (payloadAt c.f .r).toNat
    match sendTarget c.f.pe w, portOfCode (bits w 30 2) with
    | some pe, some q =>
      let o := lOperand c
      let d : RDest := { bh := c.f.bh, pe := pe, node := bits w 18 12, port := q, fp := bits w 0 10 }
      issueSimple t c 0 [{ target := .fixed d, kind := o.kind, payload := o.payload, vc1 := false }] []
    | _, _ =>
      let x := newError t (peSrc c.f.bh c.f.pe) 0x05
      issueSimple x.2 c 0 [] [.sinkErr x.1])

/-- COUNT (R284): l to DEST1, and N to DEST0 at every N-th arrival of its cell; a null l is passed on and not counted. -/
def execCount (n : Node) (s : State) : Outcome State Fault Refusal :=
  .next (fire s 0x011 n fun c t =>
    let o := lOperand c
    let cell := litBits n 12 4
    let lim := litBits n 0 12 + 1
    if o.kind = .null then issueSimple t c 0 (toDest n.d1 o.kind o.payload true) []
    else
      let v := sget 0 (getPE t c.f.bh c.f.pe).cells cell + 1
      let full := lim ≤ v
      let t1 := modPE t c.f.bh c.f.pe fun p => { p with cells := sput 0 p.cells cell (if full then 0 else v) }
      issueSimple t1 c 0 (toDest n.d1 o.kind o.payload true ++ (if full then toDest n.d0 .value (word lim) true else [])) [])

/-- RELAY (R277, R278): l at the extended offset. -/
def execRelay (n : Node) (s : State) : Outcome State Fault Refusal :=
  .next (fire s 0x012 n fun c t =>
    let o := lOperand c
    let ex := 8 * sextInt 4 (litBits n 0 4)
    let ey := 8 * sextInt 4 (litBits n 4 4)
    issueSimple t c 0 ((usedDests n).map fun d => { target := .field d ex ey, kind := o.kind, payload := o.payload, vc1 := false }) [])

/-- HALT (R285): the firing's launch stops with exit status l. -/
def execHalt (n : Node) (s : State) : Outcome State Fault Refusal :=
  .next (fire s 0x013 n fun c t => issueSimple (haltLaunch t c.f.lid (payloadAt c.f .l)) c 0 [] [])

end Sys2Proof.Machine
end

