-- ==== Sys2Proof/Machine/Barriers.lean ====
section
/-! DEFINITION. Routing counters, barriers, yield and STARVE (R237, R381, R392, R396 to R401): bar.arrive, bar.comb, rcnt.add, rcnt.snap and yield, and
the steps BARRIER_LIMIT_EXPIRE and STARVE. -/

namespace Sys2Proof.Machine

open Host

/-- BAR_ARRIVE (R398, R399): the PE's cell of the node's BID is emitted and advanced. -/
def execBarArrive (n : Node) (s : State) : Outcome State Fault Refusal :=
  .next (fire s 0x186 n fun c t =>
    let bid := litBits n 0 4
    let ph := (sget 0 (getPE t c.f.bh c.f.pe).bars bid).toNat
    let t1 := modPE t c.f.bh c.f.pe fun p => { p with bars := sput 0 p.bars bid (BitVec.ofNat 32 (ph + 1)) }
    issueSimple t1 c 10 (toDest n.d0 .value (barWord ph 1 bid false false) true ++ toDest n.d1 .value (barWord ph 1 bid false false) true) [])

/-- The tokens of releases. -/
def barEmits (n : Node) (ws : List Word) : List Emit :=
  (ws.map fun w => toDest n.d0 .value w true ++ toDest n.d1 .value w true).flatten

/-- BAR_COMB (R400): the releases of the arrival that its firing stands for, which was combined as it came, are emitted. -/
def execBarComb (n : Node) (s : State) : Outcome State Fault Refusal :=
  .next (fire s 0x187 n fun c t =>
    match c.f.rel with
    | some ws => issueSimple t c 10 (barEmits n ws) []
    | none =>
      match combine t c.f n with
      | none => none
      | some r => issueSimple r.1 c 10 (barEmits n r.2) [])

/-- The BLIM of a launch (R373, R401). -/
def barLimit (s : State) (lid : Nat) : Nat := match launchAt s lid with | some l => l.blim | none => 0

/-- A firing of a node that the machine makes itself, in a frame of a resident VF. -/
def innerFiring (s : State) (b pe node fp : Nat) (c : Placed) : Firing :=
  { Firing.empty with bh := b, pe := pe, node := node, fp := fp, vf := c.vf, cfg := c.id, lid := c.lid, matchCycle := cycleOf s b,
                      prio := (match launchAt s c.lid with | some l => l.prio | none => 0),
                      task := (frameInfo (getPE s b pe) fp).bind fun i => i.task }

/-- BARRIER_LIMIT_EXPIRE (R401): a root combiner has counted 64 × BLIM resident cycles of phase CUR: a LIMIT error, and CUR advances with no release. -/
def execBarrierLimitExpire (b pe node fp : Nat) (s : State) : Outcome State Fault Refusal :=
  .next (
    let p := getPE s b pe
    let sl := getSlot s b (slotOf pe)
    match (barTimer p node fp).bind (fun t => t.since), cfgCovering s b pe sl.vf node, nodeInfo p node with
    | some since, some c, some (o, n) =>
      let lim := barLimit s c.lid
      if o.code ≠ 0x187 ∨ litBits n 4 1 ≠ 1 ∨ lim = 0 ∨ sl.st ≠ .resident ∨ !bhRuns s b ∨ sl.resCycles < since + 64 * lim then s
      else
        let e := newError s (peSrc b pe) 0x10
        let y := barHeld node fp (barNext (barRead p node fp n.slot.toNat)) p.hold
        let r := barRun n node fp (barExpect n) 64 y.1 y.2
        let s1 := modPE e.2 b pe fun q => { barStore q node fp n.slot.toNat (barCount n r.1) with hold := r.2.1 }
        let es := errEmits n e.1
        pushIssued s1 (innerFiring s1 b pe node fp c) n 1 ((es.1.map fun x => { x with vc1 := true }) ++ barEmits n r.2.2) es.2 0 .nothing
    | _, _, _ => s)

/-- An operation reaches the counter unit of its slot, which serves it at the end of the BH cycle (R396, R397). -/
def toCounters (s : State) (f : Firing) (x : Effect) : State := modPE s f.bh f.pe fun p => { p with late := p.late ++ [(f, x)] }

/-- RCNT_ADD (R396): it has no destinations. -/
def execRcntAdd (n : Node) (s : State) : Outcome State Fault Refusal :=
  .next (fire s 0x188 n fun c t =>
    let i := (payloadAt c.f .l).toNat + litBits n 0 6
    if 64 ≤ i then failCode t c 0x0C
    else
      let t1 := toCounters t c.f (.countAdd t.nextId i (litBits n 6 10 + 1))
      some (pushIssued (charge t1 c.f.bh c.f.pe 10 1) c.f n 1 [] (operandDrops n c.f) 0 .nothing))

/-- RCNT_SNAP (R174, R397): a command for the counter unit, whose write will be released. -/
def execRcntSnap (n : Node) (s : State) : Outcome State Fault Refusal :=
  .next (fire s 0x189 n fun c t =>
    let va := (payloadAt c.f .l).toNat
    if va % 4 ≠ 0 then failCode t c 0x14
    else
      match scopeCap t c.f (litBits n 12 3) with
      | none => failCode t c 0x12
      | some (scope, t1) =>
        if !commandRoom t1 c.f.bh c.f.pe then none
        else
          let cmd := { commandFor t1 c with scope := scope, waitFor := releaseSet t1 c.f.vf scope }
          let t2 := charge t1 c.f.bh c.f.pe 9 (sectorsOf va (4 * (litBits n 6 6 + 1)))
          some (commandEnter (toCounters t2 c.f (.countSnap cmd.id)) cmd))

/-- The counter unit serves an rcnt.add (R396): the counter is clamped, with SATURATED for its firing. -/
def countAdd (s : State) (b pe : Nat) (x : Effect) : State :=
  match x with
  | .countAdd id i inc =>
    let sl := slotOf pe
    let v := (sget 0 (getSlot s b sl).rcnt i).toNat + inc
    let s1 := modSlot s b sl fun y => { y with rcnt := sput 0 y.rcnt i (BitVec.ofNat 32 (min v (2 ^ 32 - 1))) }
    if v < 2 ^ 32 then s1
    else modPE s1 b pe fun p => { p with issued := p.issued.map fun it => if it.id = id then { it with flags := it.flags ||| flagSaturated } else it }
  | _ => s

/-- The counter unit takes a snapshot (R397): the counters are read and cleared, and written as one engine write. -/
def countSnap (s : State) (b pe : Nat) (x : Effect) : State :=
  match x with
  | .countSnap cmd =>
    (match cmdAt s cmd with
     | none => s
     | some c =>
       let sl := slotOf pe
       let first := litBits c.node 0 6
       let count := litBits c.node 6 6 + 1
       let rc := (getSlot s b sl).rcnt
       let data := ((List.range count).map fun m => leBytes 4 (sget 0 rc (first + m)).toNat).flatten
       let s1 := modSlot s b sl fun y => { y with rcnt := sclear y.rcnt first count }
       sendReq s1 { commandReq c 11 (payloadAt c.f .l).toNat data.length 0 with write := true, data := data })
  | _ => s

/-- The operations that reached the counter units of a bulkhead in a BH cycle, in ascending PE number and in issue order within a PE: every rcnt.add before any
snapshot (R396, R397). -/
def countersEnd (s : State) (b : Nat) : State :=
  let run (g : State → Nat → Nat → Effect → State) (t : State) : State :=
    (activePes t b).foldl (fun u pe => (getPE u b pe).late.foldl (fun v e => g v b pe e.2) u) t
  run countSnap (run countAdd s)

/-- The end of a snapshot (R397): its write, and what happened before it, is released. -/
def snapStep (s : State) (c : Cmd) : State :=
  match commandRow s c 0 with
  | none => s
  | some r =>
    let settled : Bool := r.st == .finished || (r.st == .moving && c.scope != 7 && waitClear s (2 * r.id))
    if !settled ∨ !(c.waitFor.all (waitClear s)) then s
    else
      match reqError r with
      | some e => cmdReply s c .err e []
      | none => cmdReply s c .value (word (litBits c.node 6 6 + 1)) []

/-- The VFs of a slot's enabled entries in table order after a VF's own entry (R392). -/
def entriesAfter (s : State) (b sl vf : Nat) : List Nat :=
  let vfs := (List.range 8).filterMap fun e => let w := quantWord s b sl e; if bitAt w 9 then some (bits w 0 9) else none
  let k := vfs.findIdx fun v => v == vf
  (vfs.drop (k + 1) ++ vfs.take k).filter fun v => v != vf

/-- The next runnable VF of a slot after the one that stands in it (R392). -/
def nextRunnable (s : State) (b sl vf : Nat) : Option Nat := (entriesAfter s b sl vf).find? fun v => runnable s b sl v

/-- YIELD (R381): with another entry runnable the quantum ends and the answer waits; without one it is 0 after one cycle. -/
def execYield (n : Node) (s : State) : Outcome State Fault Refusal :=
  .next (fire s 0x18A n fun c t =>
    let sl := slotOf c.f.pe
    if (nextRunnable t c.f.bh sl c.f.vf).isNone then issueSimple t c 10 (toUsed n .value 0) []
    else
      let t1 := modSlot (charge t c.f.bh c.f.pe 10 1) c.f.bh sl fun x => { x with endNow := true }
      some (commandEnter t1 (commandFor t1 c)))

/-- The answer of a yield (R381): 1 once its VF is resident again (stage 1), 0 where no switch took place. A handle that triggered it drops its reference
when the firing completes (R377). -/
def yieldStep (s : State) (c : Cmd) : State :=
  let x := getSlot s c.f.bh (slotOf c.f.pe)
  if !isResident s c.f.bh c.f.pe c.f.vf then s
  else if c.stage = 1 then cmdReply s c .value 1 (operandDrops c.node c.f)
  else if !x.endNow then cmdReply s c .value 0 (operandDrops c.node c.f)
  else s

/-- The TID of the tile that a firing allocates in its own PE (R187, R192, R207, R310, R326, R354, R359); none where it allocates none. -/
def resultTid (s : State) (c : Ctx) : Option TidEntry :=
  let named (tid : Nat) : Option TidEntry := tidEntry s c.f.vf tid
  if c.code = 0x107 then named (litBits c.n 4 10)
  else if c.code = 0x14D then named (bits (descOf s c.f c.n) 16 10)
  else if c.code = 0x0D2 ∧ ((tileIn s c .l).map fun x => x.e.ref) = some 1 then none
  else if [0x0CC, 0x0CD, 0x0CE, 0x0D2, 0x0D3, 0x0D4, 0x0D5, 0x0D6, 0x0D7, 0x10B, 0x144, 0x146, 0x149].contains c.code then named (litBits c.n 0 10)
  else if 0x0C0 ≤ c.code ∧ c.code ≤ 0x0D1 then (tileIn s c .l).map fun x => x.t
  else none

/-- The allocation that a firing which would perform waits for, as STARVE codes it (R237, R342); none where it lacks none. -/
def allocLack (s : State) (c : Ctx) : Option Nat :=
  let p := getPE s c.f.bh c.f.pe
  if c.code = 0x00D then
    if !throttleOk p c.f.node c.f.fp (litBits c.n 4 8) then some 1
    else match cfgAt s c.f.cfg with
      | some g => if (frameAlloc s g (litBits c.n 0 3) none c.f.lid c.f.task false).isNone then some 0 else none
      | none => none
  else if c.code = 0x100 then
    if (allocAcc s c.f (if litBits c.n 0 2 = 2 ∧ 32 ≤ litBits c.n 4 6 then 2 else 1) HEntry.empty).isNone then some 2 else none
  else if c.code = 0x160 then some 6
  else
    match resultTid s c with
    | none => none
    | some t => if (freeHandle p).isNone then some 3 else if (allocTile s c.f c.f.pe t.tid t.rows true).isNone then some 2 else none

/-- What a matched firing waits for, as STARVE codes it (R237); none for what is no allocation. -/
def starveWait (s : State) (f : Firing) : Option Nat :=
  let p := getPE s f.bh f.pe
  match nodeInfo p f.node with
  | none => none
  | some (o, n) =>
    let g := applyEpass o n f
    if storeWaits s p f then some 4
    else if verdict s o n g ≠ .perform ∨ accHeld p f then none
    else allocLack s { f := g, n := n, code := o.code, pol := policyOf 0 }

/-- The allocation for which the copy of a pump.xfer or pump.mcast waits at its target, as STARVE codes it (R205, R206, R237): tile pages or a handle
entry. -/
def copyLack (s : State) (c : Cmd) : Option Nat :=
  let d := descOf s c.f c.node
  let pe := if c.code = 0x14B then bits d 4 9 else conPe d c.stage
  let out := match cfgAt s c.f.cfg with | some g => outGet g (litBits c.node 0 8) c.stage | none => ([], true)
  let served : Bool := c.code == 0x14C && (out.2 || decide (bits d 24 4 ≤ out.1.length) || decide (bits d 4 3 < c.stage))
  if !(c.code == 0x14B || c.code == 0x14C) ∨ !c.started ∨ !c.begun ∨ served ∨ !standsIn s c.f.bh pe c.f.vf ∨ (tileCopy s c pe).isSome then none
  else if (freeHandle (getPE s c.f.bh pe)).isNone then some 3 else some 2

/-- The waits of a VF in a bulkhead that STARVE watches: (WAIT, PE, NODE, the cycle from which it has waited). A launch's own load, which no node
issued, waits as node 0 of PE 0 (log 135). -/
def starveCases (s : State) (b vf : Nat) : List (Nat × Nat × Nat × Nat) :=
  (activePes s b).foldl (fun a pe =>
    let p := getPE s b pe
    a ++ ((p.ready.filter fun f => f.vf == vf).filterMap fun f => (starveWait s f).map fun w => (w, pe, f.node, f.matchCycle)) ++
      ((p.fetch.filter fun t => t.f.vf == vf && tstWaits s p t).map fun t => (4, pe, t.f.node, t.f.matchCycle)) ++
      (p.issued.filter fun i => i.f.vf == vf && (match i.wait with | .phase _ _ => true | _ => false)).map fun i => (6, pe, i.f.node, i.f.matchCycle)) [] ++
  ((s.cmds.filter fun c => isLoad c && c.f.bh == b && c.f.vf == vf && (c.stage == 2 || c.stage == 3)).map fun c =>
    (if c.stage = 2 then 5 else 0, c.f.pe, c.f.node, c.f.matchCycle)) ++
  ((s.cfgs.filter fun c => c.bh == b && c.vf == vf && !c.valid && !((rectSlots c).all fun sl => holdsSlot s b sl vf)).map fun c =>
    (5, c.oy * 16 + c.ox, c.nbase, c.waitAt)) ++
  (s.cmds.filter fun c => c.f.bh == b && c.f.vf == vf).filterMap fun c => (copyLack s c).map fun w => (w, c.f.pe, c.f.node, c.waitAt)

/-- STARVE (R237): a firing of a VF has waited 2^20 cycles for an allocation, in which no firing of the VF issued in the bulkhead. -/
def execStarve (b vf : Nat) (s : State) : Outcome State Fault Refusal :=
  .next (
    let x := getBulk s b
    if x.posted.contains vf ∨ x.cycle < sget 0 x.lastIssue vf + 2 ^ 20 ∨ !bhRuns s b then s
    else
      match (starveCases s b vf).find? fun w => w.2.2.2 + 2 ^ 20 ≤ x.cycle with
      | none => s
      | some w =>
        let s1 := postEvent s (seqrSrc b) b (some vf) none 0x0B (w.1 + w.2.1 * 2 ^ 8 + w.2.2.1 * 2 ^ 17)
        modBulk s1 b fun y => { y with posted := y.posted ++ [vf] })

end Sys2Proof.Machine
end

