-- ==== Sys2Proof/Machine/Energy.lean ====
section
/-! DEFINITION. Energy accounting (R425 to R427), entry into and departure from quantum tables (R182, R367, R390, R424), and what they change: VFNRG,
VFSCOPE, VFFLAG, the step ENERGY_FOLD and VFSCOPE_WRITE. -/

namespace Sys2Proof.Machine

open Host

/-- VFNRG of a VF (R425). -/
def vfNrg (s : State) (vf : Nat) : Nat := (regGet s (homeOf vf) (0x20500 + 8 * (vf % 32))).toNat

/-- The counter of a VF with its shift and SAT: in VFNRG while the VF is in a table, in its RCB otherwise (R425). -/
def nrgRead (s : State) (vf : Nat) : Nat :=
  if vfActive s vf then vfNrg s vf else if !vfEnabled s vf then 0 else mem64 s (vfRcbAddr s vf + 80) % 2 ^ 53

/-- The counter is read where it is held: in HBM its codewords are met (R128). -/
def nrgMeet (s : State) (vf : Nat) : State := if vfActive s vf ∨ !vfEnabled s vf then s else ownMeet s vf true (vfRcbAddr s vf + 80) 8

/-- Write the counter back where it is held. -/
def nrgWrite (s : State) (vf v : Nat) : State :=
  if vfActive s vf then regPut s (homeOf vf) (0x20500 + 8 * (vf % 32)) (word v)
  else if !vfEnabled s vf then s else memPutLe s (vfRcbAddr s vf + 80) 8 v

/-- C, s and SAT are written to RCB ENRG (R425), unless a reset of the home bulkhead has cleared the counter (R415). -/
def nrgKeep (s : State) (vf : Nat) : State :=
  let a := vfRcbAddr s vf
  if !vfEnabled s vf ∨ bhState s (homeOf vf) ≠ 0 then s else (let t := nrgMeet s vf; memPutLe t (a + 80) 8 (nrgRead t vf))

/-- ENERGY_CAP, once since activation (R425). -/
def nrgCap (s : State) (vf c : Nat) : State :=
  match rcbAt s (vfRcbAddr s vf) with
  | some r =>
    if r.ecap ≠ 0 ∧ r.ecap ≤ c ∧ !r.ecapPosted then
      postEvent { s with rcbs := s.rcbs.map fun x => if x.addr = r.addr then { x with ecapPosted := true } else x }
        (seqrSrc (homeOf vf)) (homeOf vf) (some vf) none 0x16 c
    else s
  | none => s

/-- Fold a charge of d units of 2^-8 pJ into a VF's counter (R425). -/
def nrgFold (s0 : State) (vf d : Nat) : State :=
  let s := nrgMeet s0 vf
  let w := nrgRead s vf
  let sh := bits w 48 4
  let t := d + sget 0 s.nrgRem vf
  let c := min (bits w 0 48 + t / 2 ^ (8 + sh)) (2 ^ 48 - 1)
  let sat := bitAt w 52 || c == 2 ^ 48 - 1
  let s1 := nrgWrite { s with nrgRem := sput 0 s.nrgRem vf (t % 2 ^ (8 + sh)) } vf (c + sh * 2 ^ 48 + b2n sat * 2 ^ 52)
  nrgCap s1 vf c

/-- Fold a slot's delta into the counter of the VF that stands in it (R425). -/
def foldSlot (s : State) (b sl : Nat) : State :=
  let x := getSlot s b sl
  let s1 := setSlot s b sl { x with delta := 0 }
  if x.st = .idle then s1 else nrgFold s1 x.vf x.delta

/-- Whether a slot in use has come to the cycle of its next fold (R425). -/
def foldOwed (s : State) (b sl : Nat) : Bool :=
  let x := getSlot s b sl
  x.st != .idle && !x.foldDue && decide (x.foldAt + 4096 ≤ cycleOf s b)

/-- ENERGY_FOLD (R425): every 4,096 cycles; the fold is made as the cycle ends, after every charge of it (R477). -/
def execEnergyFold (b sl : Nat) (s : State) : Outcome State Fault Refusal :=
  .next (
    let x := getSlot s b sl
    if cycleOf s b < x.foldAt + 4096 ∨ !bhRuns s b then s
    else setSlot s b sl { x with foldAt := cycleOf s b / 4096 * 4096, foldDue := true })

/-- The folds of a bulkhead that a BH cycle ends with (R425, R440, R477): those of ENERGY_FOLD, and those of the nrg.rd that issued in it, each of which takes the
counter. -/
def foldsEnd (s : State) (b : Nat) : State :=
  let s1 := (List.range 32).foldl (fun t sl =>
    if (getSlot t b sl).foldDue then modSlot (foldSlot t b sl) b sl fun y => { y with foldDue := false } else t) s
  (s1.cmds.filter fun c => c.code == 0x1C5 && c.stage == 0 && c.f.bh == b).foldl (fun t c =>
    let u := foldSlot t b (slotOf c.f.pe)
    cmdPut u { c with stage := 1, aux := nrgRead u c.f.vf }) s1

/-- VFSCOPE as a VF's RCB gives it (R182, R366, R367). -/
def rcbScope (s : State) (addr : Nat) : Nat :=
  match rcbAt s addr with
  | some r => r.cap + 8 * b2n r.strict + 16 * b2n r.cfault
  | none => 7

/-- A VF enters its first quantum table (R182, R367, R425): its RCB and its tenant's are activated, VFSCOPE and VFNRG are loaded. -/
def vfEnter (s : State) (vf : Nat) : State :=
  let a := vfRcbAddr s vf
  if !vfEnabled s vf then s
  else
    let s1 := rcbUse s a
    let s2 := regPut s1 (homeOf vf) (0x12000 + 8 * (vf % 32)) (word (rcbScope s1 a))
    let r := ownWord s2 vf (a + 80)
    regPut { r.1 with nrgRem := sput 0 r.1.nrgRem vf 0 } (homeOf vf) (0x20500 + 8 * (vf % 32)) (word (r.2 % 2 ^ 53))

/-- A VF has left its last quantum table (R367, R424, R425): its flag word goes to FLAGW, its counter to ENRG; its RCB is no longer active, nor is its
tenant's where no other VF uses it. `nrg` is the counter as VFNRG held it. -/
def vfLeave (s : State) (vf nrg : Nat) : State :=
  let a := vfRcbAddr s vf
  let off := 0x20600 + 8 * (vf % 32)
  if !vfEnabled s vf then s
  else
    let fl := (regGet s (homeOf vf) off).toNat
    let s0 := if bhState s (homeOf vf) = 0 then memPutLe s (a + 80) 8 (nrg % 2 ^ 53) else s
    let r := ownWord s0 vf (a + 48)
    let s1 := regPut (memPutLe r.1 (a + 48) 8 (Nat.lor r.2 (fl % 512))) (homeOf vf) off 0
    let up := match rcbAt s1 a with | some r => r.parent | none => 0
    rcbRetire s1 fun r => r.addr == a || (r.addr == up && !(s1.rcbs.any fun x => x.active && x.addr != a && x.parent == up))

/-- NVF and the entries and departures that a change of the tables from one state to the next brings about (R390). -/
def tablesChanged (s s1 : State) (b : Nat) (vfs : List Nat) : State :=
  let s2 := regSetBits s1 b 0x18900 1 7 (tableVfs s1 b).length
  vfs.foldl (fun t vf =>
    let was := vfActive s vf
    let is_ := vfActive t vf
    if was && !is_ then vfLeave t vf (vfNrg s vf) else if !was && is_ then vfEnter t vf else t) s2

/-- The VF that a QUANT word names, if the entry is in use. -/
def quantVf (w : Nat) : List Nat := if bitAt w 9 then [bits w 0 9] else []

/-- Change a quantum-table entry with all that follows from it: the VF that enters is activated before it is charged, the one that leaves is
charged off before it goes. A saved configuration that so loses a slot waits for it from now on (R237, R394). -/
def quantSet (s : State) (b sl e : Nat) (v : Word) : State :=
  let vfs := (quantVf (quantWord s b sl e) ++ (quantVf v.toNat).filter fun x => !(quantVf (quantWord s b sl e)).contains x)
  let s1 := regPut s b (0x18000 + 64 * sl + 8 * e) v
  let off := vfs.filter fun x => holdsSlot s b sl x && !holdsSlot s1 b sl x
  let on := vfs.filter fun x => !holdsSlot s b sl x && holdsSlot s1 b sl x
  let s2 := off.foldl (fun t x => budgetMove t (vfRcbAddr t x) .slot 0 1) s1
  let s3 := on.foldl (fun t x => budgetMove t (vfRcbAddr t x) .slot 1 0) (tablesChanged s s2 b vfs)
  let all (t : State) (c : Placed) : Bool := (rectSlots c).all fun y => holdsSlot t b y c.vf
  { s3 with cfgs := s3.cfgs.map fun c => if c.bh = b ∧ !c.valid ∧ all s c ∧ !all s1 c then { c with waitAt := cycleOf s b } else c }

/-- SCHSTAT.ERR (R390). -/
def schErr (s : State) (b : Nat) : State := regSetBits s b 0x18900 0 1 1

/-- QUANT_WRITE (R390, R391, R394, R428): refused for a VF with VFRCB.EN = 0 or no slot block, or where more than 64 VFs would appear. An entry that the
software writes is no longer a lent one. -/
def execQuantWrite (b sl e : Nat) (v : Word) (s : State) : Outcome State Fault Refusal :=
  .next (
    let w := v &&& 0xFFFFFFFF000003FF
    let vf := bits w.toNat 0 9
    let s1 := regPut s b (0x18000 + 64 * sl + 8 * e) w
    let bad : Bool := bitAt w.toNat 9 && (decide (384 ≤ vf) || !vfEnabled s vf || !bitAt (saveWord s vf b sl) 0 || decide (64 < (tableVfs s1 b).length))
    if bad then schErr s b
    else modSlot (quantSet s b sl e w) b sl fun x => { x with borrowed := x.borrowed.filter fun i => i != e })

/-- VFSCOPE_WRITE (R182): it applies to the firings that issue from now on. -/
def execVfscopeWrite (vf : Nat) (v : Word) (s : State) : Outcome State Fault Refusal :=
  .next (regPut s (homeOf vf) (0x12000 + 8 * (vf % 32)) (v &&& 0x1F))

end Sys2Proof.Machine
end

