-- ==== Sys2Proof/Machine/Resets.lean ====
section
/-! DEFINITION. Resets (R39, R42, R46, R108, R120, R134, R181, R214, R238, R364, R402, R411 to R415, R419, R432, R446, R456, R457): the reset of a VF, the
bulkhead reset with its steps, BHCTL_WRITE, BHCLK_WRITE, CLOCK_LOCK, THERMAL_TRIP and POWER_ON_BRINGUP. -/

namespace Sys2Proof.Machine

open Host

/-- Budgets of what a PE holds go back (R367). -/
def peBudget (s : State) (p : PE) : State :=
  let s1 := p.finfo.foldl (fun t e => budgetMove t e.2.payer .frame 0 (2 ^ e.2.cls)) s
  p.handles.foldl (fun t e => if e.2.kind = .free then t else budgetMove t e.2.payer .page 0 (entryPages e.2)) s1

/-- The clusters of a slot (R3). -/
def slotClusters (sl : Nat) : List Nat := (slotPes sl).foldl (fun a pe => if a.contains (clusterOf pe) then a else a ++ [clusterOf pe]) []

/-- A PE as a switch or a reset leaves it (R46): empty, but for the bytes of its instruction store, which only a load writes (R47), and their errors. -/
def peCleared (p : PE) : PE := { PE.empty with instr := p.instr, spoilt := p.spoilt.filter fun e => decide (e.1 < 0x10000) }

/-- Clear a slot's PEs, its pair links and its engines' marks (R46, R364, R417). The slot's own loan and fold times stay. -/
def slotClear (s : State) (b sl : Nat) : State :=
  let s1 := (slotPes sl).foldl (fun t pe => modPE t b pe peCleared) s
  let s2 := (slotClusters sl).foldl (fun t c => { t with links := sput [] t.links (b * 128 + c) [] }) s1
  let s3 := modBulk s2 b fun x => { x with frozenUnits := x.frozenUnits.filter fun u => masterSlot (.unit u.kind u.idx) != some sl }
  modSlot s3 b sl fun x => { Slot.empty with foldAt := x.foldAt, borrowed := x.borrowed, displaced := x.displaced, reclaim := x.reclaim }

/-- Mark the saved context of a VF in a slot invalid (R419, R432): V := 0, and its spill ring is emptied. -/
def savedDrop (s : State) (vf b sl : Nat) : State :=
  let s0 := saveMeet s vf b sl
  let w := saveWord s0 vf b sl
  let s1 := { s0 with saved := s0.saved.filter fun x => !(x.vf == vf && x.bh == b && x.sl == sl) }
  if !bitAt w 0 then s1
  else
    let blk := saveBlock w
    let r := ownWord s1 vf (blk + 40)
    memPutLe (memPutLe r.1 blk 8 0) (blk + 32) 8 r.2

/-- Whether a load is held back by R160 still. -/
def loadWaits (s : State) (r : Req) : Bool := r.heldFor.isSome && !reqGo s r

/-- Whether a sector request has left its requester: it is on its way, or performed (R120, R214). -/
def pieceLeft (p : Piece) : Bool := p.stage != .waiting

/-- Whether a reduction or a join has been accepted by its unit (R214). -/
def unitAccepted (p : Piece) : Bool := match p.stage with | .waiting => false | .slotted => false | .arrived => false | _ => true

/-- What a reset leaves of a request whose requester it clears (R120, R181, R214): a node's own request is still performed, and its reply is discarded; a
reduction or a join if it has been accepted; of an engine's what has been sent. A load held back by R160, a waiting ldt, a node store, and the rest of a
publication are discarded. -/
def orphan (s : State) (r : Req) : Option Req :=
  let waits (p : Piece) : Bool := p.stage == .window && r.mode < 2 && !r.write && r.kind == 0
  let o : Req := { r with owner := .gone, heldFor := none, task := none, pieces := r.pieces.filter fun p => !waits p }
  let sent (f : Piece → Bool) : Option Req :=
    let ps := o.pieces.filter f
    if ps.isEmpty ∨ r.st ≠ .moving then none else some { o with pieces := ps, waitFor := [] }
  let whole : Option Req :=
    match r.st with
    | .moving => if o.pieces.isEmpty then none else some o
    | .atWell => some o
    | .walking => some { o with st := .atWell, parts := o.parts.map fun p => { p with res := none, leaf := 0 } }
    | .refused _ => some o
    | _ => none
  match r.owner with
  | .tag _ => if loadWaits s r then none else whole
  | .gone => whole
  | .red => sent unitAccepted
  | .join => sent unitAccepted
  | .cmd _ _ => sent pieceLeft
  | .pub _ => sent fun p => pieceLeft p && pieceAccepted p
  | .store _ => none

/-- Requests for which a test holds lose their requester. -/
def reqsOrphan (s : State) (hit : Req → Bool) : State :=
  { s with reqs := s.reqs.filterMap fun r => if hit r then orphan s r else some r }

/-- Park ids under which no request stands any more close (R39). -/
def parksClose (s : State) (b : Nat) : State :=
  modBulk s b fun x => { x with parks := x.parks.filter fun p => s.reqs.any fun r => r.bh == b && (match r.st with | .parked q _ => q == p.1 | _ => false) }

/-- Launches for which a test holds end with no completion record (R402), and their versions return to the pool. Their RCBs are no longer active. -/
def launchesDrop (s : State) (hit : Launch → Bool) : State :=
  let lids := (s.launches.filter fun l => l.st != .ended && hit l).map fun l => l.lid
  let addrs := ((s.launches.filter fun l => l.st != .ended && hit l && l.rcb != 0).map fun l => l.rcb).filter fun a =>
    !(s.launches.any fun l => l.st != .ended && !hit l && l.rcb == a)
  rcbRetire { s with
           launches := s.launches.map (fun l => if hit l then { l with st := .ended } else l),
           versions := s.versions.filter (fun v => !lids.contains v.lid) } fun r => addrs.contains r.addr || addrs.contains r.parent

/-- Queues in the bulkheads of a list, by the keys of QPTR that are listed (R369): (bulkhead, queue). -/
def queuesIn (s : State) (bs : List Nat) : List (Nat × Nat) :=
  s.regs.filterMap fun e =>
    let off := e.1 % 2 ^ 24
    if bs.contains (e.1 / 2 ^ 24) && decide (0x40000 ≤ off) && decide (off < 0x60000) && off % 32 == 8 then some (e.1 / 2 ^ 24, (off - 0x40000) / 32) else none

/-- Remove the entries of the queues whose OWNER is a VF (R402): how many. -/
def vfQueuesClear (s : State) (bs : List Nat) (vf : Nat) : Nat × State :=
  ((queuesIn s bs).filter fun q => qOwner s q.1 q.2 == vf).foldl (fun a q => let r := qClear a.2 q.1 q.2; (a.1 + r.1, r.2)) (0, s)

/-- Queues bound to launches that have ended by a reset of their VF are bound no longer. -/
def unbindLids (s : State) (lids : List Nat) : State :=
  { s with regs := s.regs.filterMap fun e =>
      let off := e.1 % 2 ^ 24
      if 0x40000 ≤ off ∧ off < 0x60000 ∧ off % 32 = 16 ∧ lids.contains (bits e.2.toNat 32 16) then
        (let v := word (setBits e.2.toNat 32 16 0xFFFF); if v = regResetAt e.1 then none else some (e.1, v))
      else some e }

/-- The notice ABANDON that every port that is up sends for a VF (R456). -/
def abandonNotices (s : State) (b vf : Nat) : State :=
  let ports := (List.range 18).filter fun n => regBits s b (0x21080 + 8 * n) 0 1 == 1
  let fl : Flit := { ty := 8, tag := 0, srcdev := Config.localDevid.toNat, vf := vf, prio := 0, size := 0, op := 0, code := 0, addr := 0, data := [] }
  { s with spokeOut := s.spokeOut ++ ports.map fun n => (n, fl) }

/-- The (bulkhead, slot) pairs of a list of bulkheads. -/
def slotsOf (bs : List Nat) : List (Nat × Nat) := (bs.map fun b => (List.range 32).map fun sl => (b, sl)).flatten

/-- The trng firings that have issued and wait for their slot's generator (R272, R330). -/
def trngQueued (s : State) (b sl : Nat) : Nat :=
  ((getSlot s b sl).rngQueue.filter fun q => (getPE s b q.1).issued.any fun i =>
    i.id == q.2 && (match nodeInfo (getPE s b q.1) i.f.node with | some (o, _) => o.code != 0x1C6 | none => false)).length

/-- A slot cleared at a switch or by the reset of its VF: the random tile generator, which a bulkhead reset alone clears (R270), stands where it was. A trng that
has issued has advanced CTR (R334). -/
def slotReset (s : State) (b sl : Nat) : State :=
  let g := getSlot s b sl
  modSlot (slotClear s b sl) b sl fun x => { x with rngKey := g.rngKey, rngStream := g.rngStream, rngCtr := g.rngCtr + word (512 * trngQueued s b sl) }

/-- A VF's stores and saved contexts are given back in every slot of some bulkheads (R419 step 3). -/
def vfSlotsClear (s : State) (bs : List Nat) (vf : Nat) : State :=
  let s1 := ((slotsOf bs).filter fun x => (getSlot s x.1 x.2).st != .idle && (getSlot s x.1 x.2).vf == vf).foldl (fun t x =>
    let u := foldSlot t x.1 x.2
    slotReset ((slotPes x.2).foldl (fun a pe => peBudget a (getPE a x.1 pe)) u) x.1 x.2) s
  let s2 := (s1.saved.filter fun x => x.vf == vf && bs.contains x.bh).foldl (fun t x => x.pes.foldl (fun u e => peBudget u e.2) t) s1
  ((slotsOf bs).filter fun x => bitAt (saveWord s2 vf x.1 x.2) 0 || s2.saved.any fun y => y.vf == vf && y.bh == x.1 && y.sl == x.2).foldl
    (fun t x => savedDrop t vf x.1 x.2) s2

/-- VF_RESET_DONE (R419, R446): posted at once, or when the last of the tenant's bulkheads that are under reset has reached RUN. -/
def vfResetDone (s : State) (b vf n : Nat) (bs : List Nat) : State :=
  let wait := bs.filter fun x => bhState s x != 0
  if wait.isEmpty then postEvent s (seqrSrc b) b (some vf) none 0x18 n
  else { s with vfDone := s.vfDone ++ [{ vf := vf, bh := b, count := n, wait := wait }] }

/-- A bulkhead has reached RUN: the VF resets that waited for it alone are done (R446). -/
def vfDoneFor (s : State) (b : Nat) : State :=
  let now := s.vfDone.map fun d => { d with wait := d.wait.filter (· != b) }
  (now.filter fun d => d.wait.isEmpty).foldl (fun t d => postEvent t (seqrSrc d.bh) d.bh (some d.vf) none 0x18 d.count)
    { s with vfDone := now.filter fun d => !d.wait.isEmpty }

/-- VF RESET (R419), in every bulkhead of the VF's tenant, and in every well (R42); the event is posted by bulkhead b. The enqueue of a record that a host port has
committed is the host's, and goes on (R449). -/
def vfResetAll (s : State) (b vf : Nat) : State :=
  let bs := partitionBhs s (homeOf vf)
  let here (x : Nat) : Bool := bs.contains x
  let s1 := vfSlotsClear s bs vf
  let s2 := dropStores s1 fun p => p.vf == vf && here p.bh
  let s3 := tasksDrop s2 fun t => t.vf == vf && here t.bh
  let q := vfQueuesClear s3 bs vf
  let lids := (q.2.launches.filter fun l => l.vf == vf && l.st != .ended).map fun l => l.lid
  let s4 := unbindLids (launchesDrop q.2 fun l => l.vf == vf) lids
  let s5 := { reqsOrphan s4 (fun r => r.vf == vf && here r.bh) with
    cmds := s4.cmds.filter (fun c => c.code == codeHqrec || !(c.f.vf == vf && here c.f.bh)),
    cfgs := s4.cfgs.filter (fun c => !(c.vf == vf && here c.bh)),
    flights := s4.flights.filter (fun x => !(x.tok.vf == vf && here x.tok.bh)) }
  let s6 := (List.range 12).foldl (fun t a => wstatRefresh (parksClose (modBulk t a fun x =>
    { x with tlb := x.tlb.filter (fun e => e.vf != vf), mmt := x.mmt.filter (fun e => e.1 != vf), frz := x.frz.filter (fun e => e.2.2 != vf),
             frozenUnits := x.frozenUnits.filter (fun u => !(here a && u.vf == vf && (masterSlot (.unit u.kind u.idx)).isNone)), posted := x.posted.filter (· != vf),
             cfMode := x.cfMode.filter (fun e => e.1 != vf) }) a) a) s5
  vfResetDone (abandonNotices s6 b vf) b vf (q.1 % 2 ^ 32) bs

/-- VF_RESET (R419). -/
def execVfReset (b vf : Nat) (s : State) : Outcome State Fault Refusal := .next (vfResetAll s b vf)

/-- Set or clear a FORCED bit of edge e of bulkhead z (R406). -/
def forceEdge (s : State) (z e : Nat) (on : Bool) : State := regSetBits s z 0x20018 (6 + e) 1 (b2n on)

/-- The neighbours of a bulkhead, with the edge of b that faces each (R406). -/
def neighbours (b : Nat) : List (Nat × Nat) := (List.range 3).filterMap fun e => (neighbour b e).map fun a => (e, a)

/-- FENCE sets the FORCED bits (R412): each neighbour's for the edge toward b, and all of b's own. -/
def fenceEdges (s : State) (b : Nat) : State :=
  let s1 := (neighbours b).foldl (fun t x => forceEdge t x.2 (edgeToward x.2 b) true) s
  (List.range 3).foldl (fun t e => forceEdge t b e true) s1

/-- Whether a bulkhead is under a reset that GO began (R412). -/
def underReset (s : State) (b : Nat) : Bool := bhState s b != 0 && bitAt (getBulk s b).oldBhctl.toNat 63

/-- At RUN the bits that FENCE set are cleared (R412), but for an edge that a neighbour still under reset holds. -/
def unfenceEdges (s : State) (b : Nat) : State :=
  let s1 := (List.range 3).foldl (fun t e => forceEdge t b e false) s
  (neighbours b).foldl (fun t x =>
    if underReset t x.2 then forceEdge t b x.1 true else forceEdge t x.2 (edgeToward x.2 b) false) s1

/-- Requests of other bulkheads that b's well has accepted and not performed are answered with BH_RESET, from the well (R120, R413), as are loads for b that R160
holds back (R181); a task record's spawn that waits at b's queue controller too. -/
def fenceAnswer (s : State) (b : Nat) : State :=
  let taken (p : Piece) : Bool := (match p.stage with | .arrived => true | .inbound => true | .queued => true | .window => true | _ => false) && p.reached == b
  let onB (p : Piece) : Bool := (regionOf p.pa == .hbm || regionOf p.pa == .window) && targetBh p.pa == b
  let stuck (r : Req) (p : Piece) : Bool := taken p || (p.stage == .waiting && loadWaits s r && onB p)
  let s1 := (s.reqs.filter fun r => r.bh != b && r.pieces.any (stuck r)).foldl (fun t r =>
    let u := (r.pieces.filter (stuck r)).foldl (fun a p =>
      match reqAt a r.id with
      | none => a
      | some x => let e := newReqError a x (wellSrc b) 0x0B; pieceDone e.2 x p [] [] (some e.1) 0) t
    reqSettle (wstatRefresh u r.bh) r.id) s
  (s1.cmds.filter fun c => cmdFrom c != b && c.stage == 2 && capBh (cmdCap c) == b && (c.code == 0x180 || c.code == codeContinue || c.code == codeHqrec)).foldl
    (fun t c => if c.code = 0x180 then (let e := newError t (wellSrc b) 0x0B; cmdReply e.2 c .err e.1 [])
      else if c.code = codeHqrec then hqStat (cmdDel t c.id) c.f.bh c.aux 0 1 1 0 else cmdDel t c.id) s1

/-- A reset begins (R411 to R413): FENCE is entered, unless the bulkhead is not in RUN. -/
def resetBegin (s : State) (b : Nat) (rail hold : Bool) : State :=
  if bhState s b ≠ 0 then s
  else
    let s1 := regSetBits (fenceEdges s b) b 0x20008 0 3 1
    let s2 := modBulk s1 b fun x => { x with holdReq := hold, railReq := rail, newTenant := false, oldBhctl := regGet s b 0x20000 ||| 0x8000000000000000 }
    fenceAnswer s2 b

/-- BHRST_GO (R411 to R413): ignored outside RUN. -/
def execBhrstGo (b : Nat) (rail hold : Bool) (s : State) : Outcome State Fault Refusal := .next (resetBegin s b rail hold)

/-- The requests that a reset of b clears or cuts off (R134, R413): what has not left b, or is for b, is gone with its slots; what is outstanding elsewhere is
performed, and its reply dropped; of a publication the writes not yet accepted are discarded (R181). -/
def bhReqs (s : State) (b : Nat) : State :=
  let away (p : Piece) : Bool :=
    match p.stage with
    | .waiting => false
    | .slotted => p.reached != b && targetBh p.pa != b
    | .host => regionOf p.pa != .hbm || stackOf p.pa != b
    | .spoke _ _ => true
    | .done => false
    | _ => targetBh p.pa != b
  let cut (r : Req) : Option Req :=
    let stays (p : Piece) : Bool := away p && (match r.owner with | .pub _ => pieceAccepted p | _ => true)
    let ps := (r.pieces.filter stays).map fun p => { p with bare := true }
    if ps.isEmpty ∨ r.st ≠ .moving then none
    else some { r with owner := .gone, heldFor := none, waitFor := [], task := none, pieces := ps }
  { s with reqs := s.reqs.filterMap fun r => if r.bh == b then cut r else some r }

/-- The loan of a slot ends (R394, R415): the table's words from before it come back, LENT and BORROWER are cleared. -/
def loanEnd (s : State) (b sl : Nat) : State :=
  let x := getSlot s b sl
  let w := slotown s b sl
  if !bitAt w 10 then s
  else
    let s1 := (List.range 8).foldl (fun t e => quantSet t b sl e (x.displaced.getD e 0)) s
    modSlot (regPut s1 b (0x18800 + 8 * sl) (word (w % 2 ^ 10))) b sl fun y => { y with borrowed := [], displaced := [], reclaim := false }

/-- A register operation in progress, whose value a control register holds, is abandoned: BUSY reads 0 and ERR is set (R415). -/
def opAbandon (s : State) (b ctl stat : Nat) : State :=
  if regBits s b stat 0 1 = 1 then regSetBits (regPut s b ctl 0) b stat 0 2 2 else s

/-- The state of bulkhead b is cleared in HELD (R412, R415, R432). -/
def bhClear (s : State) (b : Nat) : State :=
  let standing := (List.range 32).filter fun sl => (getSlot s b sl).st != .idle
  let s1 := standing.foldl (fun t sl => (slotPes sl).foldl (fun a pe => peBudget a (getPE a b pe)) t) s
  let s2 := (s1.saved.filter fun x => x.bh == b).foldl (fun t x => x.pes.foldl (fun u e => peBudget u e.2) t) s1
  let s3 := tasksDrop (dropStores s2 fun p => p.bh == b) fun t => t.bh == b
  let s4 := launchesDrop s3 fun l => l.bh == b
  let vfs := (List.range 384).filter fun v => vfEnabled s4 v
  let s5 := vfs.foldl (fun t v => (List.range 32).foldl (fun u sl => if bitAt (saveWord u v b sl) 0 then savedDrop u v b sl else u) t) s4
  let s6 := (List.range 32).foldl (fun t sl => loanEnd t b sl) s5
  let s7 := { bhReqs s6 b with
    cmds := s6.cmds.filter (fun c => c.f.bh != b),
    cfgs := s6.cfgs.filter (fun c => c.bh != b),
    flights := s6.flights.filter (fun x => x.tok.bh != b),
    inject := s6.inject.filter (fun x => x.tok.bh != b),
    saved := s6.saved.filter (fun x => x.bh != b),
    pes := (s6.pes.filter fun e => e.1 / 512 == b).foldl (fun m e => sput PE.empty m e.1 (peCleared (sget PE.empty m e.1))) s6.pes,
    slots := sclear s6.slots (b * 32) 32,
    links := sclear s6.links (b * 128) 128 }
  let done := ((getBulk s b).invals.filter fun v => v.kind != 3).length
  let bad := (getBulk s b).invals.any fun v => v.kind == 3
  let s8 := modBulk s7 b fun x =>
    { Bulk.empty with cycle := x.cycle, scrubOff := x.scrubOff, scrubAt := x.scrubAt, ceAt := x.ceAt, newTenant := x.newTenant,
                      oldBhctl := x.oldBhctl, holdReq := x.holdReq, railReq := x.railReq }
  let s9 := regSetBits (regSetBits (if bad then xbErr s8 b else s8) b 0x10210 0 1 0) b 0x10210 16 16 (regBits s8 b 0x10210 16 16 + done)
  let s9 := opAbandon (opAbandon s9 b 0x11030 0x11038) b 0x21200 0x21208
  let s10 := (List.range 4).foldl (fun t p => if regBits t b (0x20A20 + 8 * p) 0 1 = 1 then hqStat t b p 0 1 3 0 else t) s9
  let s11 := (List.range 32).foldl (fun t k => { regPut (regPut t b (0x20500 + 8 * k) 0) b (0x20600 + 8 * k) 0 with nrgRem := sput 0 t.nrgRem (32 * b + k) 0 }) s10
  (List.range 12).foldl wstatRefresh (regSetBits s11 b 0x18900 1 7 (tableVfs s11 b).length)

/-- HELD is left for RELOCK (R412): the rail is on, the clock relocks. -/
def relock (s : State) (b : Nat) : State :=
  regSetBits (regSetBits (regSetBits s b 0x20008 4 1 1) b 0x20008 0 3 3) b 0x20010 10 1 0

/-- RESET_FENCE_DONE (R412): every neighbour has acknowledged; the bulkhead is HELD and cleared, and goes on at once without HOLD. -/
def execResetFenceDone (b : Nat) (s : State) : Outcome State Fault Refusal :=
  .next (if bhState s b ≠ 1 then s
  else
    let x := getBulk s b
    let s1 := regSetBits (bhClear (fenceAnswer s b) b) b 0x20008 0 3 2
    let s2 := if x.railReq then regSetBits s1 b 0x20008 4 1 0 else s1
    if x.holdReq then s2 else relock s2 b)

/-- BHRST_RELEASE (R411): ignored outside HELD. -/
def execBhrstRelease (b : Nat) (s : State) : Outcome State Fault Refusal :=
  .next (if bhState s b ≠ 2 ∨ !s.powered then s else relock s b)

/-- TENANT and the shape (R414). -/
def tenantShape (w : Nat) : Nat := bits w 0 17

/-- Gates after a reset that changed TENANT or the shape (R414). -/
def gatesClose (s : State) (b : Nat) : State :=
  let off (t : State) (z : Nat) (hit : Nat → Bool) : State :=
    (List.range 8).foldl (fun u i => if hit (regGet u z (0x20200 + 16 * i)).toNat then regSetBits u z (0x20200 + 16 * i) 0 1 0 else u) t
  let s1 := off (regSetBits s b 0x20018 0 6 0) b fun _ => true
  (neighbours b).foldl (fun t x =>
    off (regSetBits t x.2 0x20018 (2 * edgeToward x.2 b) 2 0) x.2 fun w => bits w 1 4 == b) s1

/-- The bulkhead reaches RUN (R412, R414, R415, R446): gates are restored, VFNRG reloaded, RSTCNT counted, BH_RESET_DONE posted, and what waited for it. -/
def bhRun (s : State) (b : Nat) : State :=
  let x := getBulk s b
  let go := bitAt x.oldBhctl.toNat 63
  let changed := if go then tenantShape x.oldBhctl.toNat != tenantShape (regGet s b 0x20000).toNat else x.newTenant
  let s1 := unfenceEdges (regSetBits s b 0x20008 0 3 0) b
  let s2 := if go && changed then gatesClose s1 b else s1
  let s3 := modBulk s2 b fun y => { y with newTenant := false, oldBhctl := 0, holdReq := false, railReq := false }
  let s4 := ((List.range 32).filter fun k => vfActive s3 (32 * b + k)).foldl (fun t k =>
    let a := vfRcbAddr t (32 * b + k)
    if !vfEnabled t (32 * b + k) then t else (let r := ownWord t (32 * b + k) (a + 80); regPut r.1 b (0x20500 + 8 * k) (word (r.2 % 2 ^ 53)))) s3
  let s5 := regSetBits s4 b 0x20008 16 16 (regBits s4 b 0x20008 16 16 + 1)
  vfDoneFor ((b :: (neighbours b).map (·.2)).foldl (fun t n => postEvent t (seqrSrc b) n none none 0x17 (b + b2n changed * 16)) s5) b

/-- RESET_RELOCK_DONE (R412): LOCK = 1; SCRUB follows where TENANT or the shape changed during HELD. -/
def execResetRelockDone (b : Nat) (s : State) : Outcome State Fault Refusal :=
  .next (if bhState s b ≠ 3 then s
  else
    let s1 := regSetBits s b 0x20010 10 1 1
    if (getBulk s b).newTenant then regSetBits s1 b 0x20008 0 3 4 else bhRun s1 b)

/-- Every block of a stack is written ZERO, which clears all poison (R134, R155). -/
def stackZero (s : State) (b : Nat) : State :=
  { s with mem := sclear s.mem (b * 2 ^ 36) (2 ^ 36), bmeta := sclear s.bmeta (b * 2 ^ 25) (2 ^ 25), ecc := sclear s.ecc (b * 2 ^ 31) (2 ^ 31) }

/-- RESET_SCRUB_DONE (R412, R155). -/
def execResetScrubDone (b : Nat) (s : State) : Outcome State Fault Refusal :=
  .next (if bhState s b ≠ 4 then s else bhRun (stackZero s b) b)

/-- The registers that a change of tenant returns to their reset values (R415). -/
def tenantReg (off : Nat) : Bool :=
  let in_ (lo n : Nat) : Bool := decide (lo ≤ off) && decide (off < lo + n)
  in_ 0x10000 0x208 || in_ 0x12000 0x100 || in_ 0x12400 0x100 || off == 0x13000 || in_ 0x18000 0x900 || off == 0x20028 || off == 0x20048 ||
  in_ 0x20400 0x100 || in_ 0x20800 0x200 || in_ 0x20A00 0x20 || in_ 0x21000 0x80 || in_ 0x22000 0x4000 || (in_ 0x40000 0x20000 && off % 32 < 24)

/-- A BHCTL write in HELD has changed TENANT or the shape (R415). -/
def retenant (s : State) (b : Nat) : State :=
  let was := (List.range 384).filter fun v => inTables s b v
  let s0 := (queuesIn s [b]).foldl (fun t q => (qClear t q.1 q.2).2) s
  let s1 := { s0 with regs := s0.regs.filter fun e => !(e.1 / 2 ^ 24 == b && tenantReg (e.1 % 2 ^ 24)) }
  let s2 := was.foldl (fun t v => if vfActive t v then t else vfLeave t v (vfNrg s v)) (regSetBits s1 b 0x18900 1 7 0)
  modBulk { s2 with slots := sclear s2.slots (b * 32) 32 } b fun x => { x with newTenant := true, tlb := [] }

/-- BHSTAT.ERR (R411). -/
def bhErr (s : State) (b : Nat) : State := regSetBits s b 0x20008 3 1 1

/-- Whether a BHCTL word's shape lies in the grid and contains bulkhead b (R404, R405). -/
def shapeOk (b w : Nat) : Bool :=
  let c0 := bits w 8 3
  let r0 := bits w 11 1
  let wd := bits w 12 3
  let h := bits w 15 2
  decide (1 ≤ wd) && decide (1 ≤ h) && decide (c0 + wd ≤ 6) && decide (r0 + h ≤ 2) &&
  decide (c0 ≤ b / 2) && decide (b / 2 < c0 + wd) && decide (r0 ≤ b % 2) && decide (b % 2 < r0 + h)

/-- BHCTL_WRITE (R404, R415). -/
def execBhctlWrite (b : Nat) (v : Word) (s : State) : Outcome State Fault Refusal :=
  .next (if bhState s b ≠ 2 ∨ !shapeOk b v.toNat then bhErr s b
  else
    let old := (regGet s b 0x20000).toNat
    let s1 := if tenantShape old ≠ tenantShape v.toNat then retenant s b else s
    regPut s1 b 0x20000 (v &&& 0x3FFFFFF))

/-- BHCLK_WRITE (R410): a change stops the clock until it has locked. -/
def execBhclkWrite (b : Nat) (v : Word) (s : State) : Outcome State Fault Refusal :=
  .next (
    let f := bits v.toNat 0 10
    if f < 150 ∨ 600 < f ∨ f % 25 ≠ 0 then bhErr s b
    else if f = regBits s b 0x20010 0 10 then s
    else regPut s b 0x20010 (word f))

/-- CLOCK_LOCK (R410). In RELOCK the lock is part of RESET_RELOCK_DONE. -/
def execClockLock (b : Nat) (s : State) : Outcome State Fault Refusal :=
  .next (if bhState s b = 3 then s else regSetBits s b 0x20010 10 1 1)

/-- THERMAL_TRIP (R457): the bulkhead is reset with its rail cut, and held. -/
def execThermalTrip (b : Nat) (s : State) : Outcome State Fault Refusal :=
  let st := bhState s b
  .next (if st = 0 then resetBegin s b true true
  else if st = 1 then modBulk s b fun x => { x with holdReq := true, railReq := true }
  else regSetBits (regSetBits s b 0x20008 0 3 2) b 0x20008 4 1 0)

/-- POWER_ON_BRINGUP (R457, R458): the state after step 5; where the firmware is refused the device stays off. -/
def execPowerOnBringup (s : State) : Outcome State Fault Refusal :=
  let on := { State.reset with agenda := s.agenda, fresh := s.fresh }
  .next (if Config.firmwareAccepted then on
  else (List.range 12).foldl (fun t b => regSetBits t b 0x20008 4 1 0) { on with powered := false })

end Sys2Proof.Machine
end

