-- ==== Sys2Proof/Machine/Freezing.lean ====
section
/-! DEFINITION. FRZCTL (R409, R417, R418): the steps FRZCTL_RETRY, FRZCTL_FAIL and FRZCTL_FREEZE, at once or at the VF's next restore. -/

namespace Sys2Proof.Machine

open Host

/-- Whether a master holds the VF's context now; a unit that belongs to no slot always does (R418). -/
def masterHere (s : State) (b : Nat) (m : MasterId) (vf : Nat) : Bool :=
  match masterSlot m with
  | some sl => (getSlot s b sl).st == .resident && (getSlot s b sl).vf == vf
  | none => true

/-- The frozen requests of a master for a VF. -/
def frozenReqs (s : State) (b : Nat) (m : MasterId) (vf : Nat) : List Req :=
  s.reqs.filter fun r => r.st == .frozen && r.vf == vf && agentMaster r.agent == (b, m)

/-- The frozen queue commands and register accesses of a master for a VF. -/
def frozenCmds (s : State) (b : Nat) (m : MasterId) (vf : Nat) : List Cmd :=
  s.cmds.filter fun c => c.stage == 9 && c.f.vf == vf && agentMaster c.agent == (b, m)

/-- The engine that a master is. -/
def masterAgent (b : Nat) (m : MasterId) : Agent :=
  match m with
  | .pe i => .stream b i
  | .unit 0 c => .pump b c
  | .unit _ i => .gather b i

/-- Release a master (R417): its engine can start commands again. -/
def masterGo (s : State) (b : Nat) (m : MasterId) : State := engineStart (releaseMaster s b m) (masterAgent b m)

/-- Retry (R418): what faulted is issued again, translated afresh. -/
def frzRetry (s : State) (b : Nat) (m : MasterId) (vf : Nat) : State :=
  let s1 := (frozenReqs s b m vf).foldl reqAgain s
  let s2 := (frozenCmds s b m vf).foldl (fun t c => cmdPut t { c with stage := 0 }) s1
  masterGo s2 b m

/-- A frozen request ends: what of it is not done completes with an error token's payload, in place of a reply that was held (R409, R418). -/
def reqAbandon (s : State) (r : Req) (v : Word) : State :=
  let ps := r.pieces.map fun p => if p.stage = .done then p else { p with stage := .done, err := some v }
  reqFail s { r with pieces := ps } v

/-- Failing (R418): what faulted completes with ABANDON, made by its requester. -/
def frzFail (s : State) (b : Nat) (m : MasterId) (vf : Nat) : State :=
  let s0 := releaseMaster s b m
  let s1 := (frozenReqs s b m vf).foldl (fun t r => let e := newError t (agentSrc r.agent) 0x11; reqAbandon e.2 r e.1) s0
  let s2 := (frozenCmds s b m vf).foldl (fun t c => let e := newError t (agentSrc c.agent) 0x11; cmdReply e.2 c .err e.1 []) s1
  masterGo s2 b m

/-- One FRZCTL operation (R418): 1 retry, 2 fail, 3 freeze. One for a VF that is not resident in the master's slot waits for its next restore. -/
def frzApply (s : State) (b op : Nat) (m : MasterId) (vf : Nat) : State :=
  match op with
  | 1 => frzRetry s b m vf
  | 2 => frzFail s b m vf
  | 3 => freezeMaster s b m vf .forced
  | _ => s

/-- Apply an operation now, or keep it (R418). -/
def frzWrite (s : State) (b op : Nat) (m : MasterId) (vf : Nat) : State :=
  if masterHere s b m vf then frzApply s b op m vf else modBulk s b fun x => { x with frz := x.frz ++ [(op, m, vf)] }

/-- FRZCTL_RETRY (R418). -/
def execFrzctlRetry (b : Nat) (m : MasterId) (vf : Nat) (s : State) : Outcome State Fault Refusal := .next (frzWrite s b 1 m vf)
/-- FRZCTL_FAIL (R418). -/
def execFrzctlFail (b : Nat) (m : MasterId) (vf : Nat) (s : State) : Outcome State Fault Refusal := .next (frzWrite s b 2 m vf)
/-- FRZCTL_FREEZE (R418). -/
def execFrzctlFreeze (b : Nat) (m : MasterId) (vf : Nat) (s : State) : Outcome State Fault Refusal := .next (frzWrite s b 3 m vf)

end Sys2Proof.Machine
end

