-- ==== Sys2Proof/Machine/Slots.lean ====
section
/-! DEFINITION. Slot residency, the save and the restore of a context, lending and reclaim (R39, R120, R181, R214, R234, R238, R364, R390 to R395,
R428 to R433): the steps QUANTUM_END, CONTEXT_SAVE, CONTEXT_RESTORE, SLOTOWN_WRITE, SLOT_LEND and SLOT_RECLAIM. -/

namespace Sys2Proof.Machine

open Host

/-- The quantum of a VF in a slot: that of its entry, or with zero the VF's effective QUANT (R366, R390). -/
def quantumOf (s : State) (b sl vf : Nat) : Nat :=
  let es := (List.range 8).filter fun e => bitAt (quantWord s b sl e) 9 && bits (quantWord s b sl e) 0 9 == vf
  let q := match es.head? with | some e => bits (quantWord s b sl e) 32 32 | none => 0
  let eff := match rcbAt s (vfRcbAddr s vf) with | some r => r.quant | none => 0
  max 1 (if q = 0 then eff else q)

/-- Whether a PE holds nothing of its VF. -/
def peBare (p : PE) : Bool :=
  p.ready.isEmpty && p.held.isEmpty && p.issued.isEmpty && p.fetch.isEmpty && p.finfo.isEmpty && p.handles.all fun h => h.2.kind == .free

/-- Whether a VF holds nothing in a slot (R392), or no longer holds the slot. -/
def slotBare (s : State) (b sl vf : Nat) : Bool :=
  !holdsSlot s b sl vf ||
  (!cfgInSlot s b sl vf && !placementWaits s b sl vf && (slotPes sl).all (fun pe => peBare (getPE s b pe)) &&
   !(s.cmds.any fun c => c.f.bh == b && c.f.vf == vf && (slotPes sl).contains c.f.pe && c.agent != .seqr b))

/-- Slots of a group change from RESIDENT to SAVING together (R392). -/
def switchOut (s : State) (b sl vf : Nat) : State :=
  (groupSlots s b sl vf).foldl (fun t g =>
    modSlot t b g fun x => if x.st = .resident ∧ x.vf = vf then { x with st := .saving } else x) s

/-- QUANTUM_END (R381, R392, R393): the count has reached the quantum, or the quantum ended at once, or the VF holds nothing in the slot. With no other
entry runnable the count starts again. -/
def execQuantumEnd (b sl : Nat) (s : State) : Outcome State Fault Refusal :=
  .next (
    let x := getSlot s b sl
    if x.st ≠ .resident ∨ !bhRuns s b then s
    else if x.qcount < quantumOf s b sl x.vf ∧ !x.endNow ∧ !slotBare s b sl x.vf then s
    else if (nextRunnable s b sl x.vf).isSome then switchOut s b sl x.vf
    else setSlot s b sl { x with qcount := 0, endNow := false })

/-- Whether a request stands still: it is parked, or it belongs to a frozen master (R39, R417). -/
def reqStill (r : Req) : Bool := match r.st with | .parked _ _ => true | .frozen => true | _ => false

/-- Whether a load is held back by a boundary that has not completed (R160). -/
def heldBack (s : State) (r : Req) : Bool :=
  match r.heldFor with
  | some (c, p) => (match cfgAt s c with | some g => decide (g.boundary ≤ p) | none => false)
  | none => false

/-- Whether an ldt waits at an empty granule (R179, R214). -/
def granuleWaits (r : Req) : Bool :=
  r.st == .moving && decide (r.mode ≤ 1) && !r.write && r.pieces.all fun p => p.stage == .done || p.stage == .window

/-- Whether a fetch tag is parked, as a save needs it (R39, R120, R181, R214). A frozen PE keeps replies that have come (R417). -/
def tagIdle (s : State) (p : PE) (t : Tag) : Bool :=
  let frozen := p.frozen.isSome
  if t.st = .replied then frozen
  else
    match s.reqs.find? fun r => r.owner == .tag t.id with
    | some r => reqStill r || heldBack s r || granuleWaits r || (frozen && r.st == .finished)
    | none => t.code == 0x145 && (frozen ||
        decide (t.row < tileHeight s t.f.vf (handleAt p (handleIdx (payloadAt t.f .l)))) ||
        s.stores.any fun x => x.tag == some t.id && x.parts.isEmpty)

/-- Whether an issued firing is one that a save withdraws or keeps (R181, R364). -/
def issuedIdle (p : PE) (i : Issued) : Bool :=
  match i.wait with
  | .pair _ _ _ => true
  | .coord _ _ => true
  | .phase _ _ => true
  | _ => p.frozen.isSome && isReply p i

/-- Whether a command has completed as far as a save needs it (R39, R108, R214, R402). -/
def cmdIdle (s : State) (c : Cmd) : Bool :=
  let rs := cmdReqs s c.id
  let m := agentMaster c.agent
  let quiet := rs.all fun r => r.st == .finished || reqStill r
  if c.code = 0x14F then quiet && (decide (c.stage < affineCount (descOf s c.f c.node)) || (getPE s c.f.bh c.f.pe).frozen.isSome)
  else if 0x149 ≤ c.code ∧ c.code ≤ 0x14E then
    if !c.started then masterFrozen s m.1 m.2 || decide (4 ≤ ((agentCmds s c.agent).filter fun x => x.started).length)
    else if c.code = 0x14B ∨ c.code = 0x14C then masterFrozen s m.1 m.2
    else quiet && rs.any reqStill
  else if isLoad c ∨ c.code = 0x18A ∨ c.code = 0x1C8 then true
  else c.stage == 9 || rs.any reqStill

/-- Whether the save of a PE's context can be written. -/
def peIdle (s : State) (b vf pe : Nat) : Bool :=
  let p := getPE s b pe
  p.late.isEmpty && p.reads.isEmpty && (p.held.isEmpty || (spillable s vf b (slotOf pe) && !spillRoom s vf b (slotOf pe))) && p.issued.all (issuedIdle p) && p.fetch.all (tagIdle s p)

/-- The commands of a VF's PEs. -/
def pesCmds (s : State) (b vf : Nat) (pes : List Nat) : List Cmd :=
  s.cmds.filter fun c => c.f.bh == b && c.f.vf == vf && pes.contains c.f.pe && (match c.agent with | .seqr _ => false | .host => false | _ => true)

/-- Whether a halted launch of a VF has not come to its end (R285, R308): a save waits for it. -/
def haltMoves (s : State) (b vf : Nat) : Bool := s.launches.any fun l => l.bh == b && l.vf == vf && l.halted && l.st == .ending

/-- Whether everything that a save waits for has completed or parked (R431 step 2). -/
def slotsDrained (s : State) (b vf : Nat) (g : List Nat) : Bool :=
  let pes := (g.map slotPes).flatten
  pes.all (peIdle s b vf) && (pesCmds s b vf pes).all (cmdIdle s) && !haltMoves s b vf &&
  s.reqs.all (fun r =>
    match r.agent, r.owner with
    | _, .red => true
    | _, .join => true
    | _, .gone => true
    | .pe x i, _ => !(x == b && pes.contains i && r.vf == vf) || !(r.st == .atWell || r.st == .walking || (match r.st with | .refused _ => true | _ => false))
    | _, _ => true) &&
  s.cfgs.all fun c => !(c.bh == b && c.vf == vf && (rectSlots c).any g.contains) || (published s c.id && (pubsMoving s c.id).isEmpty && !boundaryReady s c)

/-- A multicast that waits on a consumer while its VF is being saved (R214). -/
def mcastStuck (s : State) (b vf : Nat) (pes : List Nat) : Option Cmd :=
  (pesCmds s b vf pes).find? fun c =>
    c.code == 0x14C && c.started && engineMoves s c && decide (c.stage ≤ bits (descOf s c.f c.node) 4 3) && (serveOne s c).isNone

/-- Put a firing back among the matched ones, in match order (R238, R364). -/
def readyInsert (q : List Firing) (f : Firing) : List Firing :=
  q.takeWhile (fun g => g.matchCycle < f.matchCycle) ++ f :: q.dropWhile fun g => g.matchCycle < f.matchCycle

/-- Withdraw a leader that waits for its message, and an smma that waits for coordinates (R364). -/
def withdraw (p : PE) : PE :=
  p.issued.foldl (fun q i =>
    match i.wait with
    | .pair _ _ _ => { q with issued := q.issued.erase i, ready := readyInsert q.ready i.f }
    | .coord taken _ =>
      { q with issued := q.issued.erase i, ready := readyInsert q.ready i.f,
               coord := (taken.map fun w => { node := i.f.node, fp := i.f.fp, payload := w : Coord }) ++ q.coord }
    | _ => q) p

/-- A load that has not come to the step of R105 is abandoned, to restart from the beginning of its image (R108). -/
def loadAbandon (s : State) (c : Cmd) : State :=
  cmdPut { s with reqs := s.reqs.filter fun r => match r.owner with | .cmd x _ => x != c.id | _ => true } { c with stage := 8, bytes := [] }

/-- Loads of a pre-empted VF are abandoned, its launches' among them (R108, R387); a yield has seen its switch (R381). -/
def saveCmds (s : State) (b vf : Nat) (pes : List Nat) : State :=
  let s1 := (s.cmds.filter fun c => c.code == codeLaunchLoad && c.f.bh == b && c.f.vf == vf && c.stage < 3).foldl loadAbandon s
  (pesCmds s1 b vf pes).foldl (fun t c =>
    if isLoad c ∧ c.stage < 3 then loadAbandon t c else if c.code = 0x18A then cmdPut t { c with stage := 1 } else t) s1

/-- A save keeps every tag that has not been answered as a PARKED one (R120): of an ldt that waits at an empty granule and of a tst with rows left (R214), and of a
load that R160 holds back (log 87). -/
def tagsPark (p : PE) : PE := { p with fetch := p.fetch.map fun t => if t.st == .issued then { t with st := .parked } else t }

/-- Bytes of an opaque area: free values (R430). -/
def opaqueBytes (d off n : Nat) : List Byte := (List.range n).map fun i => Config.opaqueByte d (off + i)

/-- The opaque areas of a PE's area: offset and length (R430). -/
def opaqueAreas : List (Nat × Nat) := [(0x8400, 0x4000), (0xD400, 0x1000), (0x50000, 0x1000), (0x51000, 0x800), (0x52000, 0x3000)]

/-- The pages of a PE's live tiles. -/
def livePages (p : PE) : List Nat := p.handles.foldl (fun a e => if e.2.kind = .tile then a ++ e.2.pages else a) []

/-- What a save writes in a PE's area, apart from the opaque areas (R430): each list of bytes with its offset. -/
def peImage (p : PE) : List (Nat × List Byte) :=
  [(0, ((List.range 0x4000).map fun i => leBytes 2 (slotTag p i).toNat).flatten),
   (0x8000, (List.range 0x400).map fun i => BitVec.ofNat 8 (sget 0 p.fmap i).toNat),
   (0xC400, (List.range 0x1000).map fun i => BitVec.ofNat 8 ((List.range 8).foldl (fun a k => a + b2n (sget false p.full (8 * i + k)) * 2 ^ k) 0)),
   (0x10000, (windowRead p 0x10000 0x20000).1), (0x30000, (windowRead p 0x30000 0x18000).1), (0x48000, (windowRead p 0x48000 0x8000).1),
   (0x51800, (p.coord.map fun q => leBytes 8 q.payload.toNat).flatten), (0x55000, (p.hold.map fun x => leBytes 16 (tokenBits x.tok)).flatten)] ++
  (livePages p).map fun g => (0x80000 + 2048 * g, (windowRead p (0x80000 + 2048 * g) 2048).1)

/-- The opaque areas of a slot block, in rising order (R429, R430). -/
def blockOpaque (sl : Nat) : List (Nat × Nat) :=
  (0x1000, 0xFF000) :: ((slotPes sl).map fun pe => opaqueAreas.map fun a => (peArea 0 pe + a.1, a.2)).flatten

/-- Whether some configuration of a VF in a slot holds its generator (R232). -/
def generatorHeld (s : State) (b sl vf : Nat) : Bool :=
  s.cfgs.any fun c => c.bh == b && c.vf == vf && (rectSlots c).contains sl && bitAt c.respat 1

/-- A configuration entry of a slot header (R429). -/
def cfgEntry (c : Placed) : List Byte :=
  leBytes 8 c.image ++ leBytes 1 c.ox ++ leBytes 1 c.oy ++ leBytes 2 c.nbase ++ leBytes 2 c.ncount ++ leBytes 2 c.lid ++ leBytes 16 0

/-- The slot header, apart from its first word and the spill ring's pointers (R429). -/
def headerImage (s : State) (b sl vf d : Nat) : List (Nat × List Byte) :=
  let x := getSlot s b sl
  let cs := s.cfgs.filter fun c => c.bh == b && c.vf == vf && (rectSlots c).contains sl
  let crc := crc32 ((blockOpaque sl).map fun a => opaqueBytes d a.1 a.2).flatten
  (if generatorHeld s b sl vf then [(8, leBytes 8 x.rngKey.toNat ++ leBytes 8 x.rngStream.toNat ++ leBytes 8 x.rngCtr.toNat)] else []) ++
  [(48, leBytes 4 crc), (64, ((List.range 64).map fun i => leBytes 4 (sget 0 x.rcnt i).toNat).flatten),
   (1024, ((cs.map cfgEntry).flatten ++ List.replicate 2048 0).take 2048)]

/-- KiB that a save writes or a restore reads: the header, the engine area, the listed areas of 16 PEs, and 2 for each live page (R427, R430). -/
def saveKib (s : State) (b sl : Nat) : Nat :=
  6360 + 2 * ((slotPes sl).map fun pe => (livePages (getPE s b pe)).length).foldl (· + ·) 0

/-- Write a list of byte runs at offsets from an address. -/
def writeRuns (s : State) (vf base : Nat) (rs : List (Nat × List Byte)) : State := rs.foldl (fun t r => ownPut t vf (base + r.1) r.2) s

/-- Whether some master of a slot is frozen. -/
def slotFrozen (s : State) (b sl : Nat) : Bool :=
  (slotPes sl).any (fun pe => (getPE s b pe).frozen.isSome) ||
  (getBulk s b).frozenUnits.any fun u => masterSlot (.unit u.kind u.idx) == some sl

/-- Charge class 11 to the slot's VF (R427). -/
def chargeKib (s : State) (b sl n : Nat) : State := charge s b ((slotPes sl).headD 0) 11 n

/-- The areas of a slot block are written (R431 step 3): V last. A slot whose directory word has V = 0 has no block. -/
def saveWrite (s : State) (b sl vf : Nat) : State :=
  let s0 := saveMeet s vf b sl
  let w := saveWord s0 vf b sl
  if !bitAt w 0 then s0
  else
    let blk := saveBlock w
    let d := s0.fresh
    let s1 := writeRuns (drawn s0) vf blk (headerImage s0 b sl vf d)
    let s2 := writeRuns s1 vf blk ((blockOpaque sl).map fun a => (a.1, opaqueBytes d a.1 a.2))
    let s3 := (slotPes sl).foldl (fun t pe => writeRuns t vf (peArea blk pe) (peImage (getPE s0 b pe))) s2
    memPutLe s3 blk 8 (1 + 2 * b2n (slotFrozen s0 b sl))

/-- Aging restarts at zero for the firings that a save keeps (R238). -/
def agingZero (res : Nat) (p : PE) : PE :=
  { p with ready := p.ready.map fun f => { f with urgent := f.urgent && !f.aged, aged := false, resAt := res } }

/-- The record of what a slot's save keeps. -/
def savedOf (s : State) (b sl vf : Nat) : Saved :=
  let x := getSlot s b sl
  { vf := vf, bh := b, sl := sl, slot := x, pes := (slotPes sl).map fun pe => (pe, agingZero x.resCycles (getPE s b pe)),
    links := (slotClusters sl).map fun c => (c, sget [] s.links (b * 128 + c)),
    units := (getBulk s b).frozenUnits.filter fun u => masterSlot (.unit u.kind u.idx) == some sl }

/-- Save one slot of a VF (R425, R431 steps 3 and 4): it is charged before its last fold, its areas are written, its state is cleared. -/
def saveSlot (s : State) (b vf sl : Nat) : State :=
  let s0 := (slotPes sl).foldl (fun t pe => modPE t b pe fun p => tagsPark (withdraw p)) s
  let s1 := nrgKeep (foldSlot (chargeKib s0 b sl (saveKib s0 b sl)) b sl) vf
  let rec_ := savedOf s1 b sl vf
  let s2 := saveWrite s1 b sl vf
  slotReset { s2 with saved := s2.saved.filter (fun y => !(y.vf == vf && y.bh == b && y.sl == sl)) ++ [rec_] } b sl

/-- The VF that a slot restores after a save of another: the next runnable entry in table order (R392). -/
def restoreNext (s : State) (b sl vf : Nat) : Option Nat :=
  match nextRunnable s b sl vf with
  | some w => some w
  | none => if holdsSlot s b sl vf && runnable s b sl vf then some vf else none

/-- After its save a slot goes on to the next restore; a reclaimed one goes back to its owner first (R392, R394). -/
def slotNext (s : State) (b vf sl : Nat) : State :=
  let s1 := if (getSlot s b sl).reclaim then loanEnd s b sl else s
  match restoreNext s1 b sl vf with
  | some w => modSlot s1 b sl fun x => { x with st := .restoring, vf := w }
  | none => s1

/-- The save of a group of slots is complete (R431). -/
def saveGroup (s : State) (b vf : Nat) (g : List Nat) : State :=
  let s1 := g.foldl (fun t sl => saveSlot t b vf sl) (saveCmds s b vf (g.map slotPes).flatten)
  let s2 := { s1 with cfgs := s1.cfgs.map fun c => if c.bh = b ∧ c.vf = vf ∧ (rectSlots c).any g.contains then { c with valid := false, waitAt := cycleOf s b } else c }
  g.foldl (fun t sl => slotNext t b vf sl) s2

/-- CONTEXT_SAVE (R431): once everything has completed or parked, every slot that holds part of one configuration is saved. A multicast that waits on
a consumer detaches it (R214, R433). -/
def execContextSave (b sl : Nat) (s : State) : Outcome State Fault Refusal :=
  .next (
    let x := getSlot s b sl
    if x.st ≠ .saving ∨ !bhRuns s b then s
    else
      let g := (groupSlots s b sl x.vf).filter fun y => (getSlot s b y).st == .saving && (getSlot s b y).vf == x.vf
      match mcastStuck s b x.vf (g.map slotPes).flatten with
      | some c =>
        (match cfgAt s c.f.cfg with
         | some p => detach s p (litBits c.node 0 8) c.stage (conPe (descOf s c.f c.node) c.stage) (agentSrc c.agent) c.f.lid
         | none => s)
      | none => if slotsDrained s b x.vf g then saveGroup s b x.vf g else s)

/-- A handle-table entry as an area holds it (R60); what a free entry or the other kind keeps stays. -/
def handleOf (bs : List Byte) (old : HEntry) : HEntry :=
  let at_ (o n : Nat) : Nat := fieldAt bs o n
  let h := at_ 0 8
  let kind : HKind := if bits h 8 2 = 1 then .tile else if bits h 8 2 = 2 then .acc else .free
  let head := { old with ref := bits h 0 8, kind := kind, pend := bitAt h 12, gen := bits h 16 16, tid := at_ 8 2 % 1024 }
  match kind with
  | .free => head
  | .tile =>
    { head with pages := (List.range (bits h 10 2 + 1)).map fun i => at_ (4 + i) 1, rexp := (List.range 16).map (fun i => BitVec.ofNat 16 (at_ (32 + 2 * i) 2)),
                cexp := (List.range 16).map (fun i => BitVec.ofNat 16 (at_ (64 + 2 * i) 2)), rflag := BitVec.ofNat 32 (at_ 96 4),
                cflag := BitVec.ofNat 32 (at_ 100 4), bound := BitVec.ofNat 32 (at_ 104 4), part := at_ 108 1, km1 := at_ 109 1, keyType := at_ 110 1,
                count := (List.range 16).map fun i => at_ (112 + i) 1 }
  | .acc =>
    { head with pages := (List.range (bits h 10 2 + 1)).map fun i => at_ (4 + i) 1, mode := at_ 32 1, keyType := at_ 33 1, km1 := at_ 34 1,
                clear := bitAt (at_ 35 1) 0, isSealed := bitAt (at_ 35 1) 1, pruned := BitVec.ofNat 16 (at_ 36 2),
                count := (List.range 16).map fun i => at_ (38 + i) 1 }

/-- The bytes of a run of memory, entered in a sparse store from key k. -/
def bytesFrom (s : State) (pa n k : Nat) : SMap Byte := sfrom 0 k (ownBytes s pa n)

/-- A PE's context as its area holds it: the opaque areas come back as they were saved (R430, R432 step 3). -/
def peRestore (s : State) (a : Nat) (old : PE) : PE :=
  let tags := ownBytes s a 0x8000
  let frames := ownBytes s (a + 0x10000) 0x20000
  let hs := ownBytes s (a + 0x48000) 0x8000
  let full := ownBytes s (a + 0xC400) 0x1000
  let p := { old with
    tags := sfrom 0 0 ((List.range 0x4000).map fun i => BitVec.ofNat 16 (fieldAt tags (2 * i) 2)),
    fmap := sfrom 0 0 ((ownBytes s (a + 0x8000) 0x400).map fun (x : Byte) => x.setWidth 5),
    frames := sfrom 0 0 ((List.range 0x4000).map fun i => word (fieldAt frames (8 * i) 8)),
    acc := bytesFrom s (a + 0x30000) 0x18000 0,
    handles := sfrom HEntry.empty 0 ((List.range 256).map fun i => handleOf (slice hs (128 * i) 128) (handleAt old i)),
    full := sfrom false 0 ((List.range 0x8000).map fun i => bitAt (fieldAt full (i / 8) 1) (i % 8)),
    coord := old.coord.zipIdx.map fun (q : Coord × Nat) => { q.1 with payload := word (mem64 s (a + 0x51800 + 8 * q.2)) },
    hold := old.hold.zipIdx.map fun (x : Flight × Nat) => { x.1 with tok := tokenOf (leNat (ownBytes s (a + 0x55000 + 16 * x.2) 16)) } }
  { p with tile := (livePages p).foldl (fun m g => sputs 0 m (2048 * g) (ownBytes s (a + 0x80000 + 2048 * g) 2048)) [] }

/-- The slot's own state, as its header and the opaque areas hold it (R429). -/
def slotRestore (s : State) (b sl vf blk : Nat) (cur old : Slot) : Slot :=
  let x := { old with
    st := .resident, vf := vf, qcount := 0, endNow := false, delta := cur.delta, foldAt := cur.foldAt, borrowed := cur.borrowed, displaced := cur.displaced,
    reclaim := cur.reclaim, rcnt := sfrom 0 0 ((List.range 64).map fun i => BitVec.ofNat 32 (mem32 s (blk + 64 + 4 * i))) }
  if generatorHeld s b sl vf then
    { x with rngKey := word (mem64 s (blk + 8)), rngStream := BitVec.ofNat 32 (mem64 s (blk + 16)), rngCtr := word (mem64 s (blk + 24)) }
  else { x with rngKey := cur.rngKey, rngStream := cur.rngStream, rngCtr := cur.rngCtr }

/-- The saved context of a VF in a slot, while its header has V = 1 (R429). -/
def savedAt (s : State) (b sl vf : Nat) : Option Saved :=
  let w := saveWord s vf b sl
  if bitAt w 0 && bitAt (mem64 s (saveBlock w)) 0 then s.saved.find? fun x => x.vf == vf && x.bh == b && x.sl == sl else none

/-- The instruction store of a PE after a restore (R46, R47, R432 step 2): the VF's configurations are reloaded into it, and its other bytes stay. -/
def instrReload (s : State) (b pe vf : Nat) (old : SMap Byte) : SMap Byte :=
  ((s.cfgs.filter fun c => c.bh == b && c.vf == vf && inRect c pe).foldl (fun m c =>
    sputs 0 m (12 * c.nbase) (sgets 0 old (12 * c.nbase) (12 * c.ncount)))) (getPE s b pe).instr

/-- The ECC errors of a PE after a restore (R64, R432): those of records that stay, and those that the context held where it was saved (log 142). -/
def spoiltReload (s : State) (b pe vf : Nat) (old : SMap Bool) : SMap Bool :=
  ((s.cfgs.filter fun c => c.bh == b && c.vf == vf && inRect c pe).foldl (fun m c => mended m (12 * c.nbase) (12 * c.ncount))
    ((getPE s b pe).spoilt.filter fun e => decide (e.1 < 0x10000))) ++ old.filter fun e => decide (0x10000 ≤ e.1)

/-- The codewords that a restore reads (R128, R431): of a slot block's header and its engine area, of the areas of its PEs, and of their live tiles. -/
def blockMeet (s : State) (vf blk : Nat) (pes : List (Nat × PE)) : State :=
  pes.foldl (fun t e =>
    (livePages e.2).foldl (fun u g => ownMeet u vf true (peArea blk e.1 + 0x80000 + 2048 * g) 2048) (ownMeet t vf true (peArea blk e.1) 0x55200))
    (ownMeet (ownMeet s vf true blk 0xC00) vf true (blk + 0x1000) 0xFF000)

/-- A VF becomes resident in a slot with its saved context, or with an empty one (R432 step 3). -/
def slotLoad (s0 : State) (b vf sl : Nat) : State :=
  let s := saveMeet s0 vf b sl
  let cur := getSlot s b sl
  match savedAt s b sl vf with
  | none =>
    modSlot (slotReset s b sl) b sl fun x => { x with st := .resident, vf := vf, delta := cur.delta }
  | some x =>
    let blk := saveBlock (saveWord s vf b sl)
    let met := blockMeet s vf blk x.pes
    let s1 := x.pes.foldl (fun t e => setPE t b e.1 { peRestore met (peArea blk e.1) e.2 with
      instr := instrReload t b e.1 vf e.2.instr, spoilt := spoiltReload t b e.1 vf e.2.spoilt }) met
    let s2 := x.links.foldl (fun t c => { t with links := sput [] t.links (b * 128 + c.1) c.2 }) s1
    let s3 := modBulk s2 b fun y => { y with frozenUnits := y.frozenUnits ++ x.units }
    let s4 := setSlot s3 b sl (slotRestore s b sl vf blk cur x.slot)
    let s5 := memPutLe s4 blk 8 (mem64 s blk / 2 * 2)
    chargeKib { s5 with saved := s5.saved.filter fun y => !(y.vf == vf && y.bh == b && y.sl == sl) } b sl (saveKib s5 b sl)

/-- The bytes [va, va + n) of a VF's memory as the region sequencer reads them at a restore (R29, R128, R234): none where a page does not translate or may not be
read, or bytes are lost. -/
def vaRead (s : State) (b vf va n : Nat) : State × Option (List Byte) :=
  (splitPages (n / 2 ^ 14 + 2) va 0 n).foldl (fun a p =>
    match a.2 with
    | none => a
    | some bs =>
      let t := pageTouch a.1 b vf (p.1 / 2 ^ 14)
      match pageLeaf t b vf (p.1 / 2 ^ 14) with
      | none => (t, none)
      | some (e, page) =>
        let pa := page * 2 ^ 14 + p.1 % 2 ^ 14
        if !pteRd e ∨ regionOf pa ≠ .hbm then (t, none)
        else
          let u := ownMeet t vf true pa p.2.2
          (u, if (lostBytes u pa p.2.2).isEmpty then some (bs ++ memBytes u pa p.2.2) else none)) (s, some [])

/-- A configuration is loaded again from its image at its saved offset (R105, R234, R432 step 2); count cells and barrier cells are not cleared (R308). What the
memory holds now counts, where it still is an image of that shape; otherwise the configuration stands as it was saved (log 64). -/
def cfgReread (s : State) (c : Placed) : State :=
  let h := vaRead s c.bh c.vf c.image 64
  match h.2 with
  | none => h.1
  | some hb =>
    let a := vaRead h.1 c.bh c.vf c.image (imageOf hb).size
    match a.2 with
    | none => a.1
    | some bs =>
      let i := imageOf bs
      if shapeOf i ≠ { w := c.w, h := c.h, nbase := c.nbase, ncount := c.ncount, respat := c.respat } ∨
          (imageReject i (rootVf a.1 c.bh == c.vf) (liveTids a.1 c.vf)).isSome then a.1
      else (rectPes c).zipIdx.foldl (fun t x => modPE t c.bh x.1 fun p => { loadPe i x.2 p with cells := p.cells, bars := p.bars }) (cfgPut a.1 (placedImage i c))

/-- The configurations of a VF that are whole again are loaded and valid (R234, R432 step 2). -/
def cfgsReload (s : State) (b vf : Nat) : State :=
  (s.cfgs.filter fun c => !c.valid && c.bh == b && c.vf == vf && cfgStands s { c with valid := true }).foldl (fun t c =>
    let u := cfgReread t c
    match cfgAt u c.id with | some g => cfgPut u { g with valid := true } | none => u) s

/-- Whether some work belongs to a launch that was halted, or to a configuration that was dropped, while its VF was away (R285, R387). -/
def workGone (s : State) (cfg lid : Nat) : Bool :=
  (cfgAt s cfg).isNone || (match launchAt s lid with | some l => l.halted | none => false)

/-- Work of launches and configurations that have ended meanwhile goes. -/
def peClean (s : State) (b pe : Nat) : State :=
  let s1 := readyDiscard s b pe fun f => workGone s f.cfg f.lid
  let s2 := boundaryOver s1 b pe [] fun f => workGone s1 f.cfg f.lid
  ((getPE s2 b pe).finfo.filter fun e => workGone s2 e.2.cfg e.2.lid).foldl (fun t e => frameFree t b pe e.1) s2

/-- The tags of a restored PE are PARKED where a request of theirs is, and ISSUED otherwise: an ldt is presented again, a tst resumes at its next row (R39, R118,
R214). -/
def tagsBack (s : State) (b vf pe : Nat) : State :=
  (s.reqs.filter fun r => r.agent == .pe b pe && r.vf == vf).foldl (fun t r => tagFollow t r (reqTag t r))
    (modPE s b pe fun p => { p with fetch := p.fetch.map fun t => if t.st == .parked then { t with st := .issued } else t })

/-- Deliver one spilled token: in order behind those of its PE that still wait (R393). -/
def unspill (s : State) (t : Token) : State :=
  let x : Flight := { tok := t, src := peKey t.bh t.pe, vc := 0, due := 0, lid := 0xFFFF, loc := false }
  let hold (u : State) : State := modPE u t.bh t.pe fun p => { p with held := p.held ++ [x] }
  if (getPE s t.bh t.pe).held.any fun y => !y.loc then hold s
  else match takeToken s x with
    | some u => u
    | none => hold s

/-- The spill ring of a slot is delivered and emptied (R393, R432 step 4). -/
def ringDeliver (s : State) (b vf sl : Nat) : State :=
  let w := saveWord s vf b sl
  if !bitAt w 0 then s
  else
    let blk := saveBlock w
    let s0 := ownMeet s vf true (blk + 32) 16
    let head := mem64 s0 (blk + 32)
    let n := (mem64 s0 (blk + 40) + 2 ^ 64 - head) % 2 ^ 64
    let at_ (i : Nat) : Nat := blk + 0x100000 + 16 * ((head + i) % 65536)
    let s1 := (List.range (min n 65536)).foldl (fun t i => ownMeet t vf true (at_ i) 16) s0
    let toks := (List.range (min n 65536)).map fun i => tokenOf (leNat (ownBytes s1 (at_ i) 16))
    toks.foldl unspill (memPutLe s1 (blk + 32) 8 (mem64 s0 (blk + 40)))

/-- FRZCTL operations that waited for a VF's restore apply (R418). -/
def frzPending (s : State) (b vf : Nat) : State :=
  let here (t : State) (e : Nat × MasterId × Nat) : Bool := e.2.2 == vf && masterHere t b e.2.1 vf
  let todo := (getBulk s b).frz.filter (here s)
  let s1 := modBulk s b fun x => { x with frz := x.frz.filter fun e => !here s e }
  todo.foldl (fun t e => frzApply t b e.1 e.2.1 vf) s1

/-- The agents of engines that serve a slot's PEs. -/
def slotEngines (b sl : Nat) : List Agent := (slotClusters sl).map (fun c => Agent.pump b c) ++ [.gather b sl]

/-- The restore of a VF in a group of slots (R432). -/
def restoreGroup (s : State) (b vf : Nat) (g : List Nat) : State :=
  let pes := (g.map slotPes).flatten
  let s1 := cfgsReload (g.foldl (fun t sl => slotLoad t b vf sl) s) b vf
  let s2 := pes.foldl (fun t pe => tagsBack (peClean t b pe) b vf pe) s1
  let s3 := (g.map (slotEngines b)).flatten.foldl engineStart (frzPending s2 b vf)
  g.foldl (fun t sl => ringDeliver t b vf sl) s3

/-- The VF that a slot is to restore: the one it is RESTORING, or, in a slot where nobody is, the first runnable entry. -/
def restoreVf (s : State) (b sl : Nat) : Option Nat :=
  let x := getSlot s b sl
  match x.st with
  | .restoring => some x.vf
  | .idle => ((List.range 8).filterMap fun e => let w := quantWord s b sl e; if bitAt w 9 then some (bits w 0 9) else none).find? fun v => runnable s b sl v
  | _ => none

/-- Whether a slot of a group is ready for a VF's restore (R392). -/
def slotReady (s : State) (b vf sl : Nat) : Bool :=
  let x := getSlot s b sl
  holdsSlot s b sl vf && (x.st == .idle || (x.st == .restoring && x.vf == vf) || (x.st == .resident && x.vf == vf))

/-- Whether the CRC in the header of a saved context is that of its block's opaque areas (R429, R432 step 1). -/
def crcHolds (s : State) (b sl vf : Nat) : Bool :=
  match savedAt s b sl vf with
  | none => true
  | some _ =>
    let blk := saveBlock (saveWord s vf b sl)
    leNat (ownBytes s (blk + 48) 4) == crc32 ((blockOpaque sl).map fun a => ownBytes s (blk + a.1) a.2).flatten

/-- CONTEXT_RESTORE (R392, R432): `crcOk` is the outcome of the check of the opaque areas' CRC; nothing happens where it is not. On a mismatch SAVE_CORRUPT is
posted for a slot whose CRC does not hold, and the VF is reset. -/
def execContextRestore (b sl : Nat) (crcOk : Bool) (s : State) : Outcome State Fault Refusal :=
  .next (match restoreVf s b sl with
  | none => s
  | some vf =>
    let all := groupSlots s b sl vf
    let g := all.filter fun y => !(getSlot s b y).st == .resident
    if !bhRuns s b ∨ !(all.all (slotReady s b vf)) ∨ (g.all fun y => crcHolds s b y vf) != crcOk then s
    else if crcOk then restoreGroup s b vf g
    else vfResetAll (postEvent s (seqrSrc b) b (some vf) none 0x19 (32 * b + (g.find? fun y => !crcHolds s b y vf).getD sl)) b vf)

/-- SLOTOWN_WRITE (R390). -/
def execSlotownWrite (b sl : Nat) (v : Word) (s : State) : Outcome State Fault Refusal :=
  .next (regPut s b (0x18800 + 8 * sl) (word (slotown s b sl / 2 ^ 10 * 2 ^ 10 + v.toNat % 2 ^ 10)))

/-- Whether the placer uses a slot for a VF (R233, R394): a placement of the VF waits for it, or a saved configuration of it does. -/
def slotDemand (s : State) (b sl vf : Nat) : Bool := placementWaits s b sl vf || cfgInSlot s b sl vf

/-- Whether a VF's turn has come to borrow a slot: no other VF's load that wants the slot, and could have it, stands before its own in the placer's queue
(R233). -/
def lendTurn (s : State) (b sl vf : Nat) : Bool :=
  let owner := bits (slotown s b sl) 0 9
  let wants (c : Cmd) : Bool := isLoad c && c.stage == 2 && c.f.bh == b && sameTenant s owner c.f.vf && budgetOk s (vfRcbAddr s c.f.vf) .slot 1 &&
    (match placeLater s b c.f.vf (shapeOf (imageOf c.bytes)) with | some o => (shapeSlots (shapeOf (imageOf c.bytes)) o).contains sl | none => false)
  let mine := s.cmds.filter fun c => wants c && c.f.vf == vf
  mine.isEmpty || mine.any fun c => !(s.cmds.any fun x => wants x && x.f.vf != vf && queuesBefore s x c)

/-- Whether the owner of a slot needs it (R394): a placement of it waits for the slot, or tokens spilled for it there wait for its restore. -/
def ownerNeeds (s : State) (b sl : Nat) : Bool :=
  let owner := bits (slotown s b sl) 0 9
  placementWaits s b sl owner || hasSpilled s b sl owner

/-- SLOT_LEND (R394): the borrower enters the table as its only entry. A slot that its owner needs is OWNED and is not lent. -/
def execSlotLend (b sl vf : Nat) (s : State) : Outcome State Fault Refusal :=
  .next (
    let w := slotown s b sl
    let owner := bits w 0 9
    let vfs := tableVfs s b
    if !bhRuns s b ∨ !lendable s b sl ∨ ownerNeeds s b sl ∨ vf = owner ∨ !sameTenant s owner vf ∨ !slotDemand s b sl vf ∨ !lendTurn s b sl vf ∨ !budgetOk s (vfRcbAddr s vf) .slot 1 ∨
        !vfEnabled s vf ∨ (64 ≤ vfs.length ∧ !vfs.contains vf) ∨ ((getSlot s b sl).st ≠ .idle ∧ !slotBare s b sl owner) then s
    else
      let old := (List.range 8).map fun e => word (quantWord s b sl e)
      let s1 := slotReset (foldSlot s b sl) b sl
      let s2 := (List.range 8).foldl (fun t e => quantSet t b sl e (if e = 0 then word (vf + 2 ^ 9) else 0)) s1
      let s3 := regPut s2 b (0x18800 + 8 * sl) (word (w % 2 ^ 10 + 2 ^ 10 + vf * 2 ^ 11))
      modSlot s3 b sl fun x => { x with borrowed := [0], displaced := old, reclaim := false })

/-- Whether the loan of a slot is to end (R394). -/
def reclaimDue (s : State) (b sl : Nat) : Bool :=
  let w := slotown s b sl
  bitAt w 10 && (!bitAt w 9 || ownerNeeds s b sl)

/-- Waits of a borrower's copies for pages in a slot end with LIMIT (R394). -/
def xfersEnd (s : State) (b sl vf : Nat) : State :=
  (s.cmds.filter fun c => c.code == 0x14B && c.started && c.f.bh == b && c.f.vf == vf &&
    slotOf (bits (descOf s c.f c.node) 4 9) == sl && (tileCopy s c (bits (descOf s c.f c.node) 4 9)).isNone).foldl (fun t c =>
      let e := newError t (agentSrc c.agent) 0x10
      cmdReply e.2 c .err e.1 (operandDrops c.node c.f)) s

/-- The multicast consumers in a slot detach (R394, R433). -/
def consumersDetach (s : State) (b sl vf : Nat) : State :=
  (s.cfgs.filter fun c => c.bh == b && c.vf == vf).foldl (fun t g =>
    g.descs.zipIdx.foldl (fun u x =>
      let d := x.1.toNat
      if bits d 0 4 ≠ 3 then u
      else (List.range (bits d 4 3 + 1)).foldl (fun a i =>
        if slotOf (conPe d i) ≠ sl then a
        else match cfgAt a g.id with
          | some p => detach a p x.2 i (conPe d i) (agentSrc (.pump b (clusterOf (conPe d i)))) g.lid
          | none => a) u) t) s

/-- SLOT_RECLAIM (R394): the borrower is switched out of every slot of its configurations that touch this one. -/
def execSlotReclaim (b sl : Nat) (s : State) : Outcome State Fault Refusal :=
  .next (
    let x := getSlot s b sl
    let vf := bits (slotown s b sl) 11 9
    if !bhRuns s b ∨ !reclaimDue s b sl ∨ x.reclaim then s
    else
      let s1 := modSlot (consumersDetach (xfersEnd s b sl vf) b sl vf) b sl fun y => { y with reclaim := true }
      match x.st with
      | .resident => switchOut s1 b sl vf
      | .saving => s1
      | _ => loanEnd (modSlot (foldSlot s1 b sl) b sl fun y => { y with st := .idle, vf := 0 }) b sl)

end Sys2Proof.Machine
end

