-- ==== Sys2Proof/Machine/Attach.lean ====
section
/-! DEFINITION. The host attachment, the spoke ports and the debugger's tokens (R180, R445, R447 to R456, R459): HOST_MEM_ACCESS,
HOST_ACKNOWLEDGEMENT, the SPOKE_ steps, DOOR_DELIVERY, DISCARDED_FLIT, ATTEST, DBGVAL_WRITE and DEBUG_TOKEN_DELIVER. -/

namespace Sys2Proof.Machine

open Host

/-- HOST_MEM_ACCESS (R145, R180, R447): a CXL.mem access of the bytes' length, a write as through COMP = 0. An address that no HDM decoder maps is no
access the device can have. -/
def execHostMemAccess (write : Bool) (pa : Nat) (bytes : List Byte) (s : State) : Outcome State Fault Refusal :=
  if 12 * 2 ^ 36 < pa + bytes.length then .fault .hostUnmapped
  else .next (if !s.powered ∨ bytes.isEmpty then s
    else if write then (ownTry s 0 false pa bytes).1
    else ownMeet s 0 false pa bytes.length)

/-- HOST_ACKNOWLEDGEMENT (R22, R171, R448): the host answers a piece: a read with its bytes, a write with a completion; or it has answered the back-invalidates of
a device write to a HOSTCACHE page, whose own answer then goes its way. -/
def execHostAcknowledgement (req piece : Nat) (bytes : List Byte) (s : State) : Outcome State Fault Refusal :=
  .next (match reqAt s req with
  | none => s
  | some r =>
    match pieceAt r piece with
    | none => s
    | some p =>
      if p.stage ≠ .host then s
      else
        match p.ans with
        | some d =>
          let t := if targetBh p.pa = r.bh then pieceDone s r p d.bytes d.bad d.err d.flags else piecePut (newId s) r { p with stage := .reply, seq := s.nextId }
          reqSettle (wstatRefresh t r.bh) req
        | none =>
          if !r.write ∧ bytes.length ≠ p.len then s
          else reqSettle (wstatRefresh (pieceDone s r p (if r.write then [] else bytes) [] none 0) r.bh) req)

/-- SPKSTAT n, which every bulkhead mirrors (R451). -/
def spkstat (s : State) (n : Nat) : Nat := (regGet s 0 (0x21080 + 8 * n)).toNat

/-- Write SPKSTAT n in every bulkhead. -/
def spkstatPut (s : State) (n v : Nat) : State := (List.range 12).foldl (fun t b => regPut t b (0x21080 + 8 * n) (word v)) s

/-- Whether a port is up. -/
def portUp (s : State) (n : Nat) : Bool := bitAt (spkstat s n) 0

/-- SPOKE_LINK_UP (R451): the link has trained and its partner is known. -/
def execSpokeLinkUp (port partner : Nat) (s : State) : Outcome State Fault Refusal :=
  .next (if portUp s port ∨ !s.powered then s
  else spkstatPut s port (setBits (setBits (spkstat s port) 0 1 1) 1 16 partner))

/-- A spoke port as a source (R451, R453, R456). -/
def portSrc (b port : Nat) : Nat := srcWord 1 b port 7

/-- SPOKE_LINK_DOWN (R451): what is outstanding on the port is answered with ABANDON; nothing is retried. -/
def execSpokeLinkDown (port : Nat) (s : State) : Outcome State Fault Refusal :=
  .next (if !portUp s port then s
  else
    let out (p : Piece) : Bool := match p.stage with | .spoke q _ => q == port | _ => false
    (s.reqs.filter fun r => r.pieces.any out).foldl (fun t r =>
      let u := (r.pieces.filter out).foldl (fun a p =>
        match reqAt a r.id with
        | none => a
        | some x => let e := newReqError a x (portSrc r.bh port) 0x11; pieceDone e.2 x p [] [] (some e.1) 0) t
      reqSettle u r.id) (spkstatPut s port (setBits (spkstat s port) 0 1 0)))

/-- DISCARDED_FLIT (R450): counted in BADFLIT. -/
def execDiscardedFlit (port : Nat) (fl : Flit) (s : State) : Outcome State Fault Refusal :=
  .next (if fl.ty < 9 ∨ 15 < fl.ty ∨ !portUp s port then s
  else spkstatPut s port (setBits (spkstat s port) 33 16 (min (bits (spkstat s port) 33 16 + 1) 0xFFFF)))

/-- Send a reply flit to a request flit (R450). -/
def replyFlit (s : State) (port : Nat) (fl : Flit) (code : Nat) (data : List Byte) : State :=
  let r : Flit := { ty := 6, tag := fl.tag, srcdev := Config.localDevid.toNat, vf := fl.vf, prio := fl.prio, size := fl.size, op := fl.op, code := code,
                    addr := fl.addr, data := data }
  { s with spokeOut := s.spokeOut ++ [(port, r)] }

/-- The kinds of request, as R36 codes them, that a request flit can be (R423, R453): a join, an atomic, a reduction and a door have one; a read and a write
flit do not say which of the sender's requests they carry. -/
def flitKinds (fl : Flit) : List Nat :=
  if fl.ty = 1 then [0, 2, 4, 7, 8, 9, 10]
  else if fl.ty = 2 then [1, 3, 5, 11, 12]
  else if fl.ty = 4 ∧ fl.op = 0x31 then [8]
  else [6]

/-- A remote request is refused (R453): GATE_DENIED in the reply, and a GATE_VIOLATION event on the bulkhead's own queue. Where the flit leaves the request's kind
open, it is a free choice among those it can be (log 96). -/
def spokeRefuse (s : State) (b port : Nat) (fl : Flit) : State :=
  let d := draw s
  let s1 := postEvent d.2 (portSrc b port) b none none 0x12 (fl.addr % 2 ^ 48 + b * 2 ^ 48 + ((flitKinds fl)[d.1 % (flitKinds fl).length]?).getD 0 * 2 ^ 52)
  replyFlit s1 port fl 0x0A []

/-- Bytes that a request flit covers (R450; a write is as long as its data, log 141). -/
def flitLen (fl : Flit) : Nat :=
  if fl.ty = 1 ∨ fl.ty = 2 then
    let n := if fl.size = 15 then 16 - fl.addr % 16 else (fl.size + 1) * 256 - fl.addr % 256
    if fl.ty = 2 then min n fl.data.length else n
  else if fl.size = 2 then 4 else 8

/-- Whether an SPKIN entry of bulkhead b admits a request flit (R453). -/
def spkinAdmits (s : State) (b : Nat) (fl : Flit) : Bool :=
  let bit := if fl.ty = 1 then 27 else if fl.ty = 2 then 28 else 29
  (List.range 8).any fun i =>
    let w0 := (regGet s b (0x21000 + 16 * i)).toNat
    let w1 := (regGet s b (0x21008 + 16 * i)).toNat
    bitAt w0 0 && bits w0 1 16 == fl.srcdev && (bitAt w0 26 || bits w0 17 9 == fl.vf) && bitAt w0 bit && rangeCovers w1 fl.addr (flitLen fl)

/-- The operation of an atomic or reduction flit (R450): its opcode less 0x150. The flit does not say whether min and max are signed: that is a free
choice. -/
def flitAtom (draw_ : Nat) (fl : Flit) : AtomOp :=
  let red := fl.ty == 4
  let op := if fl.op = 0x31 then 9 else if red then fl.op - 9 else fl.op
  let wide := fl.size != 2
  let signed := draw_ % 2 == 1
  let ty : Ty := if op = 1 then (if wide then .f64 else .f32)
    else if (op = 2 ∨ op = 3) ∧ signed then (if wide then .i64 else .i32)
    else if wide then .n64 else .n32
  { op := op, ty := ty, operand := word (fieldAt fl.data 0 8), cmp := word (fieldAt fl.data 8 8), det := false, red := red }

/-- A remote read or write, performed by the well at once (R453), a write through COMP = 0 (R145): the reply's code and data. What a remote pump reads travels
decompressed, since no field of a flit says who reads or how a block is stored (R450; log 134). -/
def remoteAccess (s : State) (fl : Flit) (n : Nat) : Nat × List Byte × State :=
  if fl.ty = 2 then
    let w := ownTry s fl.vf true fl.addr (slice fl.data 0 n)
    (if w.2 then 0 else 0x08, [], w.1)
  else
    let s1 := ownMeet s fl.vf true fl.addr n
    if (lostBytes s1 fl.addr n).isEmpty then (0, memBytes s1 fl.addr n, s1) else (0x08, [], s1)

/-- The continuation of a join that a remote device sent (R376, R453): the capability and the record are read where they stand behind the counter, since the
flit names no virtual address (log 97). Poisoned bytes enqueue nothing. -/
def remoteContinue (s : State) (b : Nat) (fl : Flit) : State :=
  let w := ownWord s fl.vf (fl.addr + 8)
  let s1 := w.1
  let cap := w.2
  let kind := if capBh cap < 12 then qKind s1 (capBh cap) (capQ cap) else 0
  let n := if kind = 1 ∨ kind = 2 then qSize kind else 0
  let s2 := ownMeet s1 fl.vf true (fl.addr + 16) n
  if !(lostBytes s2 (fl.addr + 8) (8 + n)).isEmpty then unitPoison s s2 fl.vf fl.addr
  else
    let c := innerCommand s2 codeContinue (.well b) b fl.vf 0xFFFF fl.prio fl.addr
    commandEnter s2 { c with since := cap, bytes := memBytes s2 (fl.addr + 16) n, stage := 1 }

/-- A join-counter update that a remote device sent (R130, R376, R453). -/
def remoteJoin (s : State) (b : Nat) (fl : Flit) : State :=
  let s1 := unitMeet s fl.vf false fl.addr 8
  if !(lostBytes s1 fl.addr 8).isEmpty then unitPoison s s1 fl.vf fl.addr
  else
    let c := wrapNat 64 ((leNat (memBytes s1 fl.addr 8) : Int) - 1)
    let s2 := (blockWrite s1 false fl.addr (leBytes 8 c) []).1
    if c = 0 then remoteContinue s2 b fl
    else if 2 ^ 63 ≤ c then postEvent s2 (srcWord 1 b (channelOf fl.addr) 2) b (some fl.vf) none 0x0F (fl.addr % 2 ^ 48)
    else s2

/-- A remote atomic or reduction at its unit (R453): what performing it takes from a request. -/
def remoteAtom (s : State) (b port : Nat) (fl : Flit) (a : AtomOp) : State × Done :=
  let n := flitLen fl
  let r : Req := { reqFor { Firing.empty with bh := b, vf := fl.vf, prio := fl.prio } (.spoke port) 6 0 n .gone with atom := some a }
  performAtom s r { pieceOf b 0 n fl.addr false false true with stage := .queued } a

/-- The error code of what performing gave. -/
def doneCode (d : Done) : Nat := match d.err with | some e => bits e.toNat 0 8 | none => 0

/-- SPOKE_REQUEST_RECEIVE (R453): a remote read, write, atomic or reduction is admitted by SPKIN and performed at its well or unit, and answered. -/
def execSpokeRequestReceive (port : Nat) (fl : Flit) (s : State) : Outcome State Fault Refusal :=
  .next (
    if fl.ty < 1 ∨ 4 < fl.ty ∨ !portUp s port then s
    else
      let b := stackOf fl.addr
      let n := flitLen fl
      if regionOf fl.addr ≠ .hbm ∨ n = 0 then replyFlit s port fl 0x0A []
      else if !bhRuns s b then s
      else if !spkinAdmits s b fl then spokeRefuse s b port fl
      else if fl.ty < 3 then
        let x := remoteAccess s fl n
        replyFlit x.2.2 port fl x.1 x.2.1
      else
        let dr := draw s
        let a := flitAtom dr.1 fl
        if a.op = 9 then replyFlit (remoteJoin dr.2 b fl) port fl 0 []
        else
          let d := remoteAtom dr.2 b port fl a
          replyFlit d.1 port fl (doneCode d.2) (if a.red then [] else d.2.bytes))

/-- SPOKE_REPLY_RECEIVE (R450): the outstanding request of the tag is answered; an error code becomes an error of the port's. -/
def execSpokeReplyReceive (port : Nat) (fl : Flit) (s : State) : Outcome State Fault Refusal :=
  .next (
    let mine (p : Piece) : Bool := p.stage == .spoke port fl.tag
    match s.reqs.find? fun r => r.pieces.any mine with
    | none => s
    | some r =>
      match r.pieces.find? mine with
      | none => s
      | some p =>
        if fl.ty ≠ 6 ∨ !portUp s port then s
        else if fl.code ≠ 0 then
          (let e := newReqError s r (portSrc r.bh port) fl.code
           reqSettle (pieceDone e.2 r p [] [] (some e.1) 0) r.id)
        else
          let silent : Bool := match r.atom with | some a => a.red | none => false
          let bs := if r.write ∨ silent then [] else slice fl.data 0 p.len
          reqSettle (pieceDone s r p bs [] none 0) r.id)

/-- The two words of DOOR d (R455). -/
def doorWords (s : State) (b d : Nat) : Nat × Nat := ((regGet s b (0x22000 + 16 * d)).toNat, (regGet s b (0x22008 + 16 * d)).toNat)

/-- Whether a door stands open (R455): PORT 3 acts as EN = 0. -/
def doorOpen (w0 : Nat) : Bool := bitAt w0 0 && bits w0 22 2 != 3

/-- A token on its way from a spoke port or a debugger: its source stands for no PE. -/
def strangeFlight (s : State) (t : Token) (src : Nat) (vc1 : Bool) : Flight :=
  { tok := t, src := 12 * 512 + src, vc := if vc1 then 1 else 0, due := cycleOf s t.bh + 1, lid := 0xFFFF, loc := false }

/-- Deliver a token to a door's target (R455, R456). -/
def doorToken (s : State) (b port w0 : Nat) (kind : Kind) (v : Word) (prio : Nat) : State :=
  let t : Token := { payload := v, kind := kind, vf := bits w0 34 9, fp := bits w0 24 10, port := (portOfCode (bits w0 22 2)).getD .l, node := bits w0 10 12,
                     bh := b, pe := bits w0 1 9, flags := 0, prio := prio }
  { s with flights := s.flights ++ [strangeFlight s t port (bitAt w0 43)] }

/-- Whether a door access has a form that R455 allows. -/
def doorForm (fl : Flit) : Bool :=
  fl.size == 3 && decide (fl.op < 16) && fl.op != 8 && bits fl.addr 0 3 == 0 && bits fl.addr 13 1 == 0 && bits fl.addr 18 16 == 0 && decide (fl.addr < 2 ^ 34) &&
  decide (bits fl.addr 14 4 < 12)

/-- DOOR_DELIVERY (R455): a door access is checked and delivers its token; the DOOR entry alone admits it. -/
def execDoorDelivery (port : Nat) (fl : Flit) (s : State) : Outcome State Fault Refusal :=
  .next (
    if fl.ty ≠ 5 ∨ !portUp s port then s
    else if !doorForm fl then replyFlit s port fl 0x0C []
    else
      let b := bits fl.addr 14 4
      let w := doorWords s b (bits fl.addr 3 10)
      if !doorOpen w.1 ∨ bits w.2 0 16 ≠ fl.srcdev ∨ !(bitAt w.2 25 || bits w.2 16 9 == fl.vf) then spokeRefuse s b port fl
      else replyFlit (doorToken s b port w.1 .value (word (fieldAt fl.data 0 8)) fl.prio) port fl 0 (if fl.op < 9 then leBytes 8 0 else []))

/-- SPOKE_NOTICE (R456): ABANDON goes to the target of every door that names the sender and the VF, and not to those for any VF. -/
def execSpokeNotice (port : Nat) (fl : Flit) (s : State) : Outcome State Fault Refusal :=
  .next (
    if fl.ty ≠ 8 ∨ fl.code ≠ 0 ∨ !portUp s port then s
    else
      let hit (w : Nat × Nat) : Bool := bitAt w.1 0 && bits w.1 22 2 != 3 && bits w.2 0 16 == fl.srcdev && !bitAt w.2 25 && bits w.2 16 9 == fl.vf
      ((List.range 12).map fun b => (List.range 1024).map fun d => (b, d)).flatten.foldl (fun t x =>
        let w := doorWords s x.1 x.2
        if hit w then (let e := newError t (portSrc x.1 port) 0x11; doorToken e.2 x.1 port w.1 .err e.1 fl.prio) else t) s)

/-- ATTSTAT.ERR (R459). -/
def attErr (s : State) (b : Nat) : State := regSetBits s b 0x21208 1 1 1

/-- The report of a bulkhead over a nonce (R459). -/
def attReport (s : State) (b : Nat) (nonce : List Byte) : List Byte :=
  let head := leBytes 4 0x0D12A77E ++ leBytes 4 b ++ leBytes 8 (regGet s b 0x20000).toNat ++ leBytes 8 (regGet s b 0x20008).toNat ++
    leBytes 64 Config.firmwareHash.toNat ++ nonce
  head ++ ((List.range 132).map fun k => Config.signatureByte head k) ++ List.replicate 36 0

/-- A write of ATTCTL (R459): with GO a report begins; while one is in progress ATTSTAT.ERR is set. -/
def attWrite (s : State) (b : Nat) (v : Word) : State :=
  if !bitAt v.toNat 0 then s
  else if regBits s b 0x21208 0 1 = 1 then attErr s b
  else regSetBits (regPut s b 0x21200 v) b 0x21208 0 1 1

/-- ATTEST (R459): the report that a write of v to ATTCTL began is written after the nonce it reads. A nonce and a report in the host window lie outside the state:
the nonce is then a free value, and so is whether the host answers. -/
def execAttest (b : Nat) (v : Word) (s : State) : Outcome State Fault Refusal :=
  .next (
    if regBits s b 0x21208 0 1 = 0 ∨ regGet s b 0x21200 ≠ v then s
    else
      let s0 := regSetBits (regPut s b 0x21200 0) b 0x21208 0 1 0
      let a := bits v.toNat 6 42 * 64
      match regionOf a, regionOf (a + 383) with
      | .hbm, .hbm =>
        let s1 := ownMeet s0 0 false a 64
        if !(lostBytes s1 a 64).isEmpty then attErr s1 b
        else
          let w := ownTry s1 0 false (a + 64) (attReport s1 b (memBytes s1 a 64))
          if w.2 then w.1 else attErr w.1 b
      | .host, .host => if Config.hostFails s0.fresh then attErr (drawn s0) b else drawn s0
      | _, _ => attErr s0 b)

/-- DBGVAL_WRITE (R445): a debugger token waits for its VF; PORT 3 makes the write do nothing. -/
def execDbgvalWrite (b : Nat) (v : Word) (s : State) : Outcome State Fault Refusal :=
  .next (
    let g := (regGet s b 0x20048).toNat
    match portOfCode (bits g 21 2) with
    | none => s
    | some q =>
      let t : Token := { payload := v, kind := .value, vf := bits g 33 9, fp := bits g 23 10, port := q, node := bits g 9 12, bh := b, pe := bits g 0 9,
                         flags := 0, prio := 7 }
      { s with inject := s.inject ++ [strangeFlight s t 32 (bitAt g 42)] })

/-- DEBUG_TOKEN_DELIVER (R445): the k-th waiting debugger token is injected once its VF is resident in the target slot. -/
def execDebugTokenDeliver (k : Nat) (s : State) : Outcome State Fault Refusal :=
  .next (match s.inject[k]? with
  | none => s
  | some x =>
    if !isResident s x.tok.bh x.tok.pe x.tok.vf ∨ !bhRuns s x.tok.bh then s
    else { s with inject := s.inject.eraseIdx k, flights := s.flights ++ [{ x with due := cycleOf s x.tok.bh + 1 }] })

end Sys2Proof.Machine
end

