-- ==== Sys2Proof/Machine/Registers.lean ====
section
/-! DEFINITION. The management registers as the host and sysrd and syswr reach them (R12, R44, R133, R153, R154, R182, R368, R369, R390, R403 to R411, R415,
R418 to R420, R424 to R426, R436, R445, R449, R451 to R455, R459): their names, access columns and groups, one read and one write; the steps BHGATE_WRITE, WINTAB_WRITE,
APTAB_WRITE, BLOCK_INSTALL, BLOCK_META_READ, BCCTL_BAD_OP and REGISTER_WRITE. -/

namespace Sys2Proof.Machine

open Host

/-- The registers of a management block, with the number of an array's element and the word of an entry. -/
inductive RegName where
  | vfroot (k : Nat) | tenstk | xbinv | xbstat | fqctl
  | wstat | weccstat | weccaddr | wscrub | bcaddr | bcsrc | bcctl | bcstat
  | vfscope (k : Nat) | vfrcb (k : Nat) | qckey | quant (sl e : Nat) | slotown (sl : Nat) | schstat
  | bhctl | bhstat | bhclk | bhgate | bhrst | bhevq | frzctl | frzstat | vfrst | dbgtgt | dbgval | self
  | nrgw (i : Nat) | nrgstat | wintab (w j : Nat) | vfhnd (k : Nat) | vfnrg (k : Nat) | vfflag (k : Nat)
  | aptab (a : Nat) | hqcap (p : Nat) | hqstat (p : Nat) | hqrec (p j : Nat) | spkin (w j : Nat) | spkstat (n : Nat) | attctl | attstat
  | door (d j : Nat) | qbase (q : Nat) | qptr (q : Nat) | qown (q : Nat) | qcap (q : Nat)
  deriving DecidableEq, Repr

/-- Registers of an array of `n` elements of `size` bytes from offset `lo`. -/
def inArray (off lo size n : Nat) : Bool := decide (lo ≤ off) && decide (off < lo + size * n)

/-- The register at an offset of a management block, none where no chapter assigns one (R403). -/
def regName (off : Nat) : Option RegName :=
  if off % 8 ≠ 0 then none
  else if inArray off 0x10000 8 32 then some (.vfroot ((off - 0x10000) / 8))
  else if off = 0x10200 then some .tenstk
  else if off = 0x10208 then some .xbinv
  else if off = 0x10210 then some .xbstat
  else if off = 0x10218 then some .fqctl
  else if off = 0x11000 then some .wstat
  else if off = 0x11008 then some .weccstat
  else if off = 0x11010 then some .weccaddr
  else if off = 0x11018 then some .wscrub
  else if off = 0x11020 then some .bcaddr
  else if off = 0x11028 then some .bcsrc
  else if off = 0x11030 then some .bcctl
  else if off = 0x11038 then some .bcstat
  else if inArray off 0x12000 8 32 then some (.vfscope ((off - 0x12000) / 8))
  else if inArray off 0x12400 8 32 then some (.vfrcb ((off - 0x12400) / 8))
  else if off = 0x13000 then some .qckey
  else if inArray off 0x18000 8 256 then some (.quant ((off - 0x18000) / 64) ((off - 0x18000) / 8 % 8))
  else if inArray off 0x18800 8 32 then some (.slotown ((off - 0x18800) / 8))
  else if off = 0x18900 then some .schstat
  else if off = 0x20000 then some .bhctl
  else if off = 0x20008 then some .bhstat
  else if off = 0x20010 then some .bhclk
  else if off = 0x20018 then some .bhgate
  else if off = 0x20020 then some .bhrst
  else if off = 0x20028 then some .bhevq
  else if off = 0x20030 then some .frzctl
  else if off = 0x20038 then some .frzstat
  else if off = 0x20040 then some .vfrst
  else if off = 0x20048 then some .dbgtgt
  else if off = 0x20050 then some .dbgval
  else if off = 0x20058 then some .self
  else if inArray off 0x20100 8 6 then some (.nrgw ((off - 0x20100) / 8))
  else if off = 0x20130 then some .nrgstat
  else if inArray off 0x20200 16 8 then some (.wintab ((off - 0x20200) / 16) (off / 8 % 2))
  else if inArray off 0x20400 8 32 then some (.vfhnd ((off - 0x20400) / 8))
  else if inArray off 0x20500 8 32 then some (.vfnrg ((off - 0x20500) / 8))
  else if inArray off 0x20600 8 32 then some (.vfflag ((off - 0x20600) / 8))
  else if inArray off 0x20800 8 64 then some (.aptab ((off - 0x20800) / 8))
  else if inArray off 0x20A00 8 4 then some (.hqcap ((off - 0x20A00) / 8))
  else if inArray off 0x20A20 8 4 then some (.hqstat ((off - 0x20A20) / 8))
  else if inArray off 0x20C00 128 4 then some (.hqrec ((off - 0x20C00) / 128) (off / 8 % 16))
  else if inArray off 0x21000 16 8 then some (.spkin ((off - 0x21000) / 16) (off / 8 % 2))
  else if inArray off 0x21080 8 18 then some (.spkstat ((off - 0x21080) / 8))
  else if off = 0x21200 then some .attctl
  else if off = 0x21208 then some .attstat
  else if inArray off 0x22000 16 1024 then some (.door ((off - 0x22000) / 16) (off / 8 % 2))
  else if inArray off 0x40000 32 4096 then
    (let q := (off - 0x40000) / 32
     match off % 32 with
     | 0 => some (.qbase q)
     | 8 => some (.qptr q)
     | 16 => some (.qown q)
     | _ => some (.qcap q))
  else none

/-- The access groups of R420. Registers of the host attachment stand in the groups that their chapter names. -/
inductive RegGroup where
  | partition | tenant | own
  deriving DecidableEq, Repr

/-- The group of a register (R420). -/
def regGroup : RegName → RegGroup
  | .bhctl => .partition | .bhclk => .partition | .bhrst => .partition | .bhgate => .partition | .tenstk => .partition | .vfrcb _ => .partition
  | .qckey => .partition | .nrgw _ => .partition | .nrgstat => .partition | .wscrub => .partition | .wintab _ _ => .partition
  | .aptab _ => .partition | .spkin _ _ => .partition | .door _ _ => .partition | .hqcap _ => .partition | .hqrec _ _ => .partition
  | .attctl => .partition
  | .self => .own
  | _ => .tenant

/-- Registers that are write-only: their reads return zero (R12). -/
def regWriteOnly : RegName → Bool
  | .xbinv => true | .fqctl => true | .bcctl => true | .qckey => true | .bhrst => true | .frzctl => true | .vfrst => true | .dbgval => true
  | .attctl => true
  | _ => false

/-- The read-write bits and the write-1-to-clear bits of the registers whose write does nothing else (R12). -/
def regMasks : RegName → Word × Word
  | .tenstk => (0xFFF, 0)
  | .xbstat => (0, 0x2)
  | .wstat => (0x7FFF0000, 0)
  | .weccstat => (0x0002FFFFFFFFFFFF, 0x0001000000000000)
  | .weccaddr => (0, 0x8000000000000000)
  | .wscrub => (0x1FFFF, 0)
  | .bcaddr => (0x0000000FFFFFF800, 0)
  | .bcsrc => (0x0000FFFFFFFFFF00, 0)
  | .bcstat => (0, 0x2)
  | .vfrcb _ => (0x0000FFFFFFFFFF81, 0)
  | .schstat => (0, 0x1)
  | .bhstat => (0, 0x8)
  | .bhevq => (0x0000FFFFFFFFFFC0, 0)
  | .dbgtgt => (0x000007FFFFFFFFFF, 0)
  | .nrgw _ => (0xFFFFFFFFFFFFFFFF, 0)
  | .nrgstat => (0x00000000FFFFFFFF, 0)
  | .vfhnd _ => (0x0000003FFFFFFFFF, 0)
  | .vfnrg _ => (0x000FFFFFFFFFFFFF, 0x0010000000000000)
  | .vfflag _ => (0, 0x1FF)
  | .hqcap _ => (0xFFFFFFFFFFFFFFFF, 0)
  | .hqstat _ => (0, 0x2)
  | .attstat => (0, 0x2)
  | .door _ 0 => (0x00000FFFFFFFFFFF, 0)
  | .door _ _ => (0x03FFFFFF, 0)
  | _ => (0, 0)

/-- A register's value after a write under its access columns (R12). -/
def maskedValue (old v : Word) (m : Word × Word) : Word := (old &&& ~~~m.1 ||| v &&& m.1) &&& ~~~(v &&& m.2)

/-- Write a register under its access columns. -/
def regMasked (s : State) (b off : Nat) (v : Word) (m : Word × Word) : State := regPut s b off (maskedValue (regGet s b off) v m)

/-- Whether a BHGATE value may be written (R406). -/
def gateOk (s : State) (b v : Nat) : Bool :=
  (List.range 3).all fun e =>
    match bits v (2 * e) 2, neighbour b e with
    | 0, _ => true
    | 1, some _ => true
    | 2, some z => samePartition s b z
    | _, _ => false

/-- BHGATE_WRITE (R406): refused writes set BHSTAT.ERR; the FORCED bits stay. -/
def execBhgateWrite (b : Nat) (v : Word) (s : State) : Outcome State Fault Refusal :=
  .next (if gateOk s b v.toNat then regMasked s b 0x20018 v (0x3F, 0) else bhErr s b)

/-- Whether an enabled entry of WINTAB or SPKIN has a range in the bulkhead's own stack (R408). -/
def rangeOk (b w1 : Nat) : Bool :=
  let base := bits w1 0 34
  let npg := bits w1 34 30
  decide (npg ≠ 0) && decide (b * 2 ^ 22 ≤ base) && decide (base + npg ≤ (b + 1) * 2 ^ 22)

/-- A write of one word of a two-word entry with a range at `base` (R408, R453): ignored with BHSTAT.ERR where the entry would be enabled with a bad
range. `m` is the mask of word 0. -/
def rangeWrite (s : State) (b base w : Nat) (v m : Word) : State :=
  let w0 := if w = 0 then v &&& m else regGet s b base
  let w1 := if w = 0 then regGet s b (base + 8) else v
  if bitAt w0.toNat 0 ∧ !rangeOk b w1.toNat then bhErr s b
  else if w = 0 then regPut s b base w0 else regPut s b (base + 8) w1

/-- WINTAB_WRITE (R408). -/
def execWintabWrite (b e w : Nat) (v : Word) (s : State) : Outcome State Fault Refusal :=
  .next (rangeWrite s b (0x20200 + 16 * e) w v 0x3FFFF)

/-- APTAB_WRITE (R452): ports 18 to 31 are ignored, with BHSTAT.ERR. -/
def execAptabWrite (b a : Nat) (v : Word) (s : State) : Outcome State Fault Refusal :=
  .next (if 18 ≤ bits v.toNat 2 5 then bhErr s b else regMasked s b (0x20800 + 8 * a) v (0x00003FFF007FFFFF, 0))

/-- BCSTAT.ERR (R153, R154). -/
def bcErr (s : State) (b : Nat) : State := regSetBits s b 0x11038 1 1 1

/-- Whether the block operation in progress is that of a BCCTL value (R153): BCSTAT.BUSY is 1, and the value taken is held where BCCTL stands, which
reads as zero. -/
def bcRuns (s : State) (b v : Nat) : Bool := regBits s b 0x11038 0 1 == 1 && (regGet s b 0x11030).toNat == v

/-- A write of BCCTL while none is in progress (R153): OP 1 and OP 2 begin, OP 3 sets ERR. -/
def bcBegin (s : State) (b : Nat) (v : Word) : State :=
  match bits v.toNat 0 2 with
  | 0 => s
  | 3 => bcErr s b
  | _ => regSetBits (regPut s b 0x11030 (v &&& 0x3FF)) b 0x11038 0 1 1

/-- The operation in progress ends (R153). -/
def bcEnd (s : State) (b : Nat) : State := regSetBits (regPut s b 0x11030 0) b 0x11038 0 1 0

/-- The source sectors of an install (R154): n bytes of HBM of a stack in TENSTK, none where one is poisoned; the host window lies outside the state, so
its bytes are free values, and so is whether the host answers; none elsewhere. -/
def installSource (s : State) (b a n : Nat) : Option (List Byte) × State :=
  match regionOf a, regionOf (a + n - 1) with
  | .hbm, .hbm =>
    if !bitAt (tenstk s b) (stackOf a) ∨ !bitAt (tenstk s b) (stackOf (a + n - 1)) then (none, s)
    else
      let s1 := ownMeet s 0 false a n
      (if (lostBytes s1 a n).isEmpty then some (memBytes s1 a n) else none, s1)
  | .host, .host => (if Config.hostFails s.fresh then none else some ((List.range n).map (Config.opaqueByte s.fresh)), drawn s)
  | _, _ => (none, s)

/-- What an install of a metadata byte does (R154): the sectors that it says are stored are read, checked and decoded; the block is written whole, or
BCSTAT.ERR is set. -/
def blockInstall (s : State) (b : Nat) (md : Byte) : State :=
  let pa := b * 2 ^ 36 + bits (regGet s b 0x11020).toNat 11 25 * 2048
  if !metaDecoded md then bcErr s b
  else
    let n := if md = mdZero ∨ md = mdConst then 1 else metaSectors md
    let src := installSource s b (bits (regGet s b 0x11028).toNat 8 40 * 256) (256 * n)
    match src.1 with
    | none => bcErr src.2 b
    | some bs =>
      match blockDecode md bs with
      | none => bcErr src.2 b
      | some block =>
        let s1 := eccClear (memPut src.2 pa block) (pa / 32) 64
        { s1 with bmeta := sput mdZero s1.bmeta (pa / 2048) md }

/-- BLOCK_INSTALL (R153, R154): the install that a write of BCCTL began is performed, and BUSY falls; nothing where no such install is in progress. -/
def execBlockInstall (b : Nat) (md : Byte) (s : State) : Outcome State Fault Refusal :=
  .next (if bcRuns s b (1 + 4 * md.toNat) then blockInstall (bcEnd s b) b md else s)

/-- Whether the metadata read in progress is that of OP 2: its META has no meaning. -/
def bcReads (s : State) (b : Nat) : Bool := regBits s b 0x11038 0 1 == 1 && bits (regGet s b 0x11030).toNat 0 2 == 2

/-- BLOCK_META_READ (R153, R154): the metadata byte, zero for a block that reads as poisoned as a whole, and BUSY falls; nothing where no OP 2 is in
progress. -/
def execBlockMetaRead (b : Nat) (s : State) : Outcome State Fault Refusal :=
  .next (
    let blk := b * 2 ^ 25 + bits (regGet s b 0x11020).toNat 11 25
    if bcReads s b then regSetBits (bcEnd s b) b 0x11038 2 8 (if blockLost s blk then 0 else (blockMeta s blk).toNat) else s)

/-- A write of a block register (R153, R154): ignored with BCSTAT.ERR while an operation is in progress. -/
def blockRegWrite (s : State) (b : Nat) (t : State) : State := if regBits s b 0x11038 0 1 = 1 then bcErr s b else t

/-- BCCTL_BAD_OP (R153). -/
def execBcctlBadOp (b : Nat) (s : State) : Outcome State Fault Refusal := .next (bcErr s b)

/-- Frozen masters of resident VFs of a bulkhead (R418). -/
def frozenCount (s : State) (b : Nat) : Nat :=
  let res (sl : Nat) : Bool := (getSlot s b sl).st == .resident
  ((activePes s b).filter fun i => (getPE s b i).frozen.isSome && res (slotOf i)).length +
  ((getBulk s b).frozenUnits.filter fun u => match masterSlot (.unit u.kind u.idx) with | some sl => res sl | none => true).length

/-- SELF as a firing reads it (R436); the host reads zero. -/
def selfWord (f : Option Firing) : Word :=
  match f with
  | some f => word (f.bh + f.pe * 2 ^ 4 + f.vf * 2 ^ 13 + f.lid % 2 ^ 16 * 2 ^ 22 + f.fp * 2 ^ 38)
  | none => 0

/-- The value that a read of a management register returns, to a firing or to the host (R12, R403, R418, R436, R451). -/
def regRead (s : State) (b off : Nat) (f : Option Firing) : Word :=
  match regName off with
  | none => 0
  | some .self => selfWord f
  | some .frzstat => word (frozenCount s b)
  | some (.qcap q) => qcapRead s b q
  | some (.spkstat _) => word (setBits (regGet s b off).toNat 17 16 Config.localDevid.toNat)
  | some r => if regWriteOnly r then 0 else regGet s b off

/-- The state that a meaning answers. -/
def nextOf (o : Outcome State Fault Refusal) (s : State) : State := match o with | .next t => t | _ => s

/-- The master that a FRZCTL value names (R418). -/
def frzMaster (v : Nat) : MasterId := if bitAt v 9 then .unit (bits v 10 3) (bits v 0 9) else .pe (bits v 0 9)

/-- A write of XBINV (R44): none while its queue is full. -/
def xbinvWrite (s : State) (b v : Nat) : Option State :=
  match bits v 0 2 with
  | 0 => xbinvPush s b 0 (bits v 2 9) 0
  | 1 => xbinvPush s b 1 (bits v 2 9) (bits v 31 33)
  | 2 => xbinvPush s b 2 0 0
  | _ => xbinvPush s b 3 0 0

/-- A write of a management register, whoever makes it (R12, R403): none while it stalls its writer. -/
def regWrite (s : State) (b off : Nat) (v : Word) : Option State :=
  let x := v.toNat
  match regName off with
  | none => some s
  | some r =>
    match r with
    | .vfroot k => some (nextOf (execVfrootWrite (32 * b + k) v s) s)
    | .xbinv => xbinvWrite s b x
    | .fqctl => some (match bits x 0 2 with
      | 0 => s
      | 1 => nextOf (execFqctlReplay b (bits x 2 12) s) s
      | 2 => nextOf (execFqctlDrop b (bits x 2 12) s) s
      | _ => nextOf (execFqctlBadOp b 3 (bits x 2 12) s) s)
    | .bcctl => some (blockRegWrite s b (bcBegin s b v))
    | .bcaddr => some (blockRegWrite s b (regMasked s b off v (regMasks r)))
    | .bcsrc => some (blockRegWrite s b (regMasked s b off v (regMasks r)))
    | .bcstat => some (blockRegWrite s b (regMasked s b off v (regMasks r)))
    | .vfscope k => some (nextOf (execVfscopeWrite (32 * b + k) v s) s)
    | .qckey => some (nextOf (execQckeyWrite b v s) s)
    | .quant sl e => some (nextOf (execQuantWrite b sl e v s) s)
    | .slotown sl => some (nextOf (execSlotownWrite b sl v s) s)
    | .bhctl => some (nextOf (execBhctlWrite b v s) s)
    | .bhclk => some (nextOf (execBhclkWrite b v s) s)
    | .bhgate => some (nextOf (execBhgateWrite b v s) s)
    | .bhrst =>
      let s1 := if bitAt x 0 then nextOf (execBhrstGo b (bitAt x 1) (bitAt x 2) s) s else s
      some (if bitAt x 3 then nextOf (execBhrstRelease b s1) s1 else s1)
    | .frzctl => some (match bits x 13 2 with
      | 0 => s
      | 1 => nextOf (execFrzctlRetry b (frzMaster x) (bits x 15 9) s) s
      | 2 => nextOf (execFrzctlFail b (frzMaster x) (bits x 15 9) s) s
      | _ => nextOf (execFrzctlFreeze b (frzMaster x) (bits x 15 9) s) s)
    | .vfrst => some (if bitAt x 9 then nextOf (execVfReset b (bits x 0 9) s) s else s)
    | .dbgval => some (nextOf (execDbgvalWrite b v s) s)
    | .wintab w j => some (nextOf (execWintabWrite b w j v s) s)
    | .vfnrg k =>
      let s1 := regMasked s b off v (regMasks r)
      some { s1 with nrgRem := sput 0 s1.nrgRem (32 * b + k) 0 }
    | .aptab a => some (nextOf (execAptabWrite b a v s) s)
    | .hqrec p 15 => some (nextOf (execHqrecCommit b p v s) s)
    | .hqrec p _ => some (if regBits s b (0x20A20 + 8 * p) 0 1 = 1 then s else regPut s b off v)
    | .spkin w j => some (rangeWrite s b (0x21000 + 16 * w) j v 0x3FFFFFFF)
    | .attctl => some (attWrite s b v)
    | .qbase q => some (nextOf (execQueueEnable b q v s) s)
    | .qown q => some (if qEn s b q then s else regMasked s b off v (0x1FFFFF, 0))
    | .qcap q => some (nextOf (execQcapRightsWrite b q v s) s)
    | _ => some (regMasked s b off v (regMasks r))

/-- Whether a VF is the tenant-root VF in one of its tenant's bulkheads (R420). -/
def isRootVf (s : State) (b vf : Nat) : Bool := rootVf s b == vf && samePartition s b (homeOf vf)

/-- Whether a VF may reach a register (R420). -/
def regAllowed (s : State) (b vf : Nat) (write : Bool) (r : RegName) : Bool :=
  let mine (k : Nat) : Bool := 32 * b + k == vf
  (isRootVf s b vf && (!write || regGroup r != .partition)) ||
  (match r with
   | .self => true
   | .vfhnd k => mine k
   | .vfscope k => mine k && !write
   | .vfnrg k => mine k && !write
   | .vfflag k => mine k && !write
   | _ => false)

/-- The VF that a write of a register names, beside the register's own number (R420). -/
def namedVf (s : State) (b : Nat) (r : RegName) (x : Nat) : Option Nat :=
  match r with
  | .vfroot k => some (32 * b + k)
  | .vfscope k => some (32 * b + k)
  | .vfhnd k => some (32 * b + k)
  | .vfnrg k => some (32 * b + k)
  | .vfflag k => some (32 * b + k)
  | .quant _ _ => if bitAt x 9 then some (bits x 0 9) else none
  | .slotown _ => some (bits x 0 9)
  | .xbinv => if bits x 0 2 < 2 then some (bits x 2 9) else none
  | .frzctl => some (bits x 15 9)
  | .vfrst => some (bits x 0 9)
  | .dbgtgt => some (bits x 33 9)
  | .qown _ => some (bits x 0 9)
  | .qbase q => if qEn s b q then some (qOwner s b q) else none
  | .qcap q => some (qOwner s b q)
  | _ => none

/-- Whether a write names a VF of another tenant (R420). -/
def namesOther (s : State) (b vf : Nat) (r : RegName) (x : Nat) : Bool :=
  match namedVf s b r x with
  | some v => decide (384 ≤ v) || !sameTenant s vf v
  | none => false

/-- REGISTER_WRITE (R12, R403, R420): the host writes a register through BAR0; a write that stalls does not return until it is taken (R44). -/
def execRegisterWrite (b off : Nat) (v : Word) (s : State) : Outcome State Fault Refusal :=
  .next (if !s.powered ∨ 12 ≤ b then s else (regWrite s b off v).getD s)

end Sys2Proof.Machine
end

