-- ==== Sys2Proof/Machine/System.lean ====
section
/-! DEFINITION. Class 7 (R434 to R444): trap, brk, evt, sysrd, syswr, nrg.rd, seed, cfg.drop, win.open and win.close, and the step QUEUE_CONTROLLER_OP,
in which the commands of classes 6 and 7 are carried out. -/

namespace Sys2Proof.Machine

open Host

/-- VFHND of a VF (R435). -/
def vfHandler (s : State) (vf : Nat) : Nat := (regGet s (homeOf vf) (0x20400 + 8 * (vf % 32))).toNat

/-- The port to which a VF's handler takes its traps, where R435 finds one: EN is set, the VF is resident there, and a valid configuration covers the node. -/
def handlerPort (s : State) (vf : Nat) : Option Port :=
  let h := vfHandler s vf
  if bitAt h 0 && isResident s (bits h 1 4) (bits h 5 9) vf && (cfgCovering s (bits h 1 4) (bits h 5 9) vf (bits h 14 12)).isSome then portOfCode (bits h 26 2)
  else none

/-- A firing of class 7 with L = 1 and no result. -/
def issueSilent (s : State) (c : Ctx) : State :=
  pushIssued (charge s c.f.bh c.f.pe 10 1) c.f c.n 1 [] (operandDrops c.n c.f) 0 .nothing

/-- TRAP (R435): a token to the VF's handler, or a TRAP event. -/
def execTrap (n : Node) (s : State) : Outcome State Fault Refusal :=
  .next (fire s 0x1C0 n fun c t =>
    let f := c.f
    let v := payloadAt f .l
    let h := vfHandler t f.vf
    some (match handlerPort t f.vf with
      | some q =>
        let tok : Token := { payload := v, kind := .value, vf := f.vf, fp := bits h 28 10, port := q, node := bits h 14 12, bh := bits h 1 4,
                             pe := bits h 5 9, flags := 0, prio := 7 }
        sendFlight (issueSilent t c) tok f.bh f.pe 0 (cycleOf t f.bh + 1) f.lid
      | none => postEvent (issueSilent t c) (peSrc f.bh f.pe) f.bh (some f.vf) (some f.lid) 0x13 (v.toNat + f.pe * 2 ^ 64 + f.node * 2 ^ 73)))

/-- BRK (R437): the PE is frozen with reason BREAK, and a BREAK event is posted. -/
def execBrk (n : Node) (s : State) : Outcome State Fault Refusal :=
  .next (fire s 0x1C1 n fun c t =>
    let f := c.f
    let t1 := postEvent (issueSilent t c) (peSrc f.bh f.pe) f.bh (some f.vf) (some f.lid) 0x14
      ((payloadAt f .l).toNat + f.pe * 2 ^ 64 + f.node * 2 ^ 73)
    some (freezeMaster t1 f.bh (.pe f.pe) f.vf .brk))

/-- EVT (R438): a USER event. -/
def execEvt (n : Node) (s : State) : Outcome State Fault Refusal :=
  .next (fire s 0x1C2 n fun c t =>
    let f := c.f
    some (postEvent (issueSilent t c) (peSrc f.bh f.pe) f.bh (some f.vf) (some f.lid) 0x15
      ((payloadAt f .l).toNat + litBits n 0 8 * 2 ^ 64 + f.pe * 2 ^ 72 + f.node * 2 ^ 81)))

/-- Whether an address word is one that R439 allows. -/
def sysAddrOk (a : Nat) : Bool := a / 2 ^ 28 == 0 && a % 8 == 0 && decide (bits a 24 4 < 12)

/-- sysrd and syswr at issue (R439). -/
def sysNode (s : State) (code : Nat) (n : Node) : State :=
  fire s code n fun c t =>
    if !sysAddrOk (payloadAt c.f .l).toNat then failCode t c 0x0C
    else if !commandRoom t c.f.bh c.f.pe then none
    else some (commandEnter (charge t c.f.bh c.f.pe 10 1) (commandFor t c))

/-- SYSRD (R439). -/
def execSysrd (n : Node) (s : State) : Outcome State Fault Refusal := .next (sysNode s 0x1C3 n)
/-- SYSWR (R439). -/
def execSyswr (n : Node) (s : State) : Outcome State Fault Refusal := .next (sysNode s 0x1C4 n)

/-- A refused register access is a protection fault TARGET_REGION (R420). -/
def sysRefuse (s : State) (c : Cmd) (a : Nat) : State :=
  let f := c.f
  let pa := 0x020000000000 + bits a 24 4 * 2 ^ 24 + bits a 0 24
  let pay := pa % 2 ^ 47 + b2n (c.code == 0x1C4) * 2 ^ 47 + 13 * 2 ^ 48 + 0x12 * 2 ^ 56 + f.bh * 2 ^ 76
  let fd := fdomOf s f.lid f.task
  let s1 := takeFault s f.bh (.pe f.pe) (wellSrc f.bh) f.vf f.lid f.task (.register c.id) 0x01 pay
  if fd then cmdDel s1 c.id else cmdPut s1 { c with stage := 9 }

/-- What a firing reads back after a write (R439): zero where its VF may not read the register. -/
def sysReadBack (s : State) (c : Cmd) (b off : Nat) (r : RegName) : Word :=
  if regAllowed s b c.f.vf false r then regRead s b off (some c.f) else 0

/-- A register access is performed (R420, R439): a write that stalls waits (R44); one that ends its own command answers nothing. -/
def sysStep (s : State) (c : Cmd) : State :=
  let a := (payloadAt c.f .l).toNat
  let b := bits a 24 4
  let off := bits a 0 24
  let v := payloadAt c.f .r
  if c.stage ≠ 0 ∨ cmdBehind s c then s
  else
    match regName off with
    | none => cmdReply s c .value 0 []
    | some r =>
      if !regAllowed s b c.f.vf (c.code == 0x1C4) r then sysRefuse s c a
      else if c.code = 0x1C3 then cmdReply s c .value (regRead s b off (some c.f)) []
      else if namesOther s b c.f.vf r v.toNat then cmdReply s c .value (sysReadBack s c b off r) []
      else
        match regWrite s b off v with
        | none => s
        | some t =>
          match cmdAt t c.id with
          | none => t
          | some x => cmdReply t x .value (sysReadBack t x b off r) []

/-- NRG_RD (R440): the slot's delta is folded and the counter taken as the cycle of its issue ends (R477, log 107). -/
def execNrgRd (n : Node) (s : State) : Outcome State Fault Refusal :=
  .next (fire s 0x1C5 n fun c t =>
    if !commandRoom t c.f.bh c.f.pe then none
    else
      let t1 := charge t c.f.bh c.f.pe 10 1
      some (commandEnter t1 (commandFor t1 c)))

/-- SEED (R441): served by the slot's generator in arrival order; KIND_OP where the firing's configuration does not hold the generator. -/
def execSeed (n : Node) (s : State) : Outcome State Fault Refusal :=
  .next (fire s 0x1C6 n fun c t =>
    let held := match cfgAt t c.f.cfg with | some g => bitAt g.respat 1 | none => false
    if !held then failCode t c 0x07
    else
      let t1 := modSlot t c.f.bh (slotOf c.f.pe) fun x => { x with rngQueue := x.rngQueue ++ [(c.f.pe, t.nextId)] }
      some (pushIssued (charge t1 c.f.bh c.f.pe 10 1) c.f n 1 [] (operandDrops n c.f) 0 .rng))

/-- CFG_DROP (R443). -/
def execCfgDrop (n : Node) (s : State) : Outcome State Fault Refusal := .next (commandNode s 0x1C8 n)

/-- The configuration of a VF that a configuration word names (R442, R443), unless it is the root configuration of a live launch. -/
def cfgNamed (s : State) (vf w : Nat) : Option Placed :=
  if w / 2 ^ 36 ≠ 0 then none
  else s.cfgs.find? fun g =>
    g.vf == vf && bits (cfgWord g false 0).toNat 0 25 == bits w 0 25 && !(g.root && (launchAt s g.lid).isSome)

/-- Whether a drop must still wait (R214, R235, R443): for other commands of the configuration's nodes, a drop of the same
configuration apart, for firings of it that stand matched, since a
drop loses no operand, for its stores on their way to translation, and while it is switched out. -/
def dropWaits (s : State) (c : Cmd) (g : Placed) : Bool :=
  ((rectPes g).any fun pe => (getPE s g.bh pe).ready.any fun f => f.cfg == g.id) ||
  (s.cmds.any fun x => x.id != c.id && x.f.cfg == g.id &&
    (x.code != 0x1C8 || (cfgNamed s x.f.vf (payloadAt x.f .l).toNat).map (·.id) != some g.id) && (match x.agent with | .seqr _ => false | .well _ => false | _ => true)) ||
  (s.stores.any fun p => p.cfg == g.id && p.parts.isEmpty && storeLive s p) || !g.valid || !bhRuns s g.bh

/-- The progress of cfg.drop (R443): waits, publication, then the frames, the valid bits and the answer. -/
def dropStep (s : State) (c : Cmd) : State :=
  match cfgNamed s c.f.vf (payloadAt c.f .l).toNat with
  | none => cmdReply s c .value 0 []
  | some g =>
    if dropWaits s c g then s
    else if s.stores.any fun p => p.cfg == g.id then (let w := publishFinal s g; cmdPut w.1 { c with waitFor := c.waitFor ++ w.2 })
    else if !(c.waitFor.all (waitClear s)) then s
    else cmdReply (cfgDropAll s g) c .value 1 []

/-- WIN_OPEN (R444): the request is read as an engine read with acq at scope vf. -/
def execWinOpen (n : Node) (s : State) : Outcome State Fault Refusal :=
  .next (fire s 0x1C9 n fun c t =>
    if !commandRoom t c.f.bh c.f.pe then none
    else
      let cmd := commandFor t c
      let t1 := commandEnter (charge t c.f.bh c.f.pe 10 1) cmd
      some (sendReq t1 { commandReq cmd 10 (payloadAt c.f .l).toNat 24 0 with waitFor := releaseSet t c.f.vf 3 }))

/-- Whether a window request is one that R444 allows. -/
def winOk (s : State) (vf w e0 e1 : Nat) : Bool :=
  decide (w < 12) && samePartition s w (homeOf vf) && bitAt e0 0 && rangeOk w e1

/-- win.open once its request has been read (R444). -/
def winStep (s : State) (c : Cmd) : State :=
  match commandRow s c 0 with
  | none => s
  | some r =>
    if r.st ≠ .finished then s
    else
      match reqError r with
      | some e => cmdReply s c .err e []
      | none =>
        let bs := reqBytes r
        let w := fieldAt bs 0 8
        let e0 := fieldAt bs 8 8
        let e1 := fieldAt bs 16 8
        if !winOk s c.f.vf w e0 e1 then (let x := newError s (peSrc c.f.bh c.f.pe) 0x0C; cmdReply x.2 c .err x.1 [])
        else
          match (List.range 8).find? fun i => regBits s w (0x20200 + 16 * i) 0 1 == 0 with
          | none => cmdReply s c .null 0 []
          | some i =>
            let t := regPut (regPut s w (0x20200 + 16 * i) (word e0 &&& 0x3FFFF)) w (0x20208 + 16 * i) (word e1)
            cmdReply t c .value (word (w + 16 * i)) []

/-- WIN_CLOSE (R444). -/
def execWinClose (n : Node) (s : State) : Outcome State Fault Refusal :=
  .next (fire s 0x1CA n fun c t =>
    let v := (payloadAt c.f .l).toNat
    if 12 ≤ bits v 0 4 ∨ 8 ≤ v / 16 ∨ !samePartition t (bits v 0 4) (homeOf c.f.vf) then failCode t c 0x0C
    else if !commandRoom t c.f.bh c.f.pe then none
    else some (commandEnter (charge t c.f.bh c.f.pe 10 1) (commandFor t c)))

/-- The WINTAB entry that a win.close names (R444): its bulkhead and the offset of its first word. -/
def closeEntry (c : Cmd) : Nat × Nat := (bits (payloadAt c.f .l).toNat 0 4, 0x20200 + 16 * ((payloadAt c.f .l).toNat / 16))

/-- win.close is taken (R444): it answers 0 where its entry is disabled already; otherwise the entry is disabled at the end of the BH cycle (R446). -/
def closeStep (s : State) (c : Cmd) : State :=
  let e := closeEntry c
  if regBits s e.1 e.2 0 1 = 0 then cmdReply s c .value 0 [] else cmdPut s { c with stage := 1 }

/-- The entries of a bulkhead's WINTAB that win.close has taken are disabled as the BH cycle ends: what was judged in it met the old ones (R444, R446). -/
def windowsClose (s : State) (b : Nat) : State :=
  (s.cmds.filter fun c => c.code == 0x1CA && c.stage == 1 && (closeEntry c).1 == b).foldl (fun t c =>
    let e := closeEntry c
    cmdReply (regSetBits t b e.2 0 1 0) c .value (word (regBits t b e.2 0 1)) []) s

/-- Whether a command of classes 6 and 7 can be carried out now: its VF stands in its PE's slot, and the bulkhead runs. -/
def commandAwake (s : State) (c : Cmd) : Bool :=
  bhRuns s c.f.bh && (match c.agent with | .pe b i => standsIn s b i c.f.vf | _ => true)

/-- QUEUE_CONTROLLER_OP (R371, R372, R376, R378, R379, R381, R397, R439, R440, R443, R444): a command of class 6 or 7 takes its next step. -/
def execQueueControllerOp (cmd : Nat) (s : State) : Outcome State Fault Refusal :=
  .next (match cmdAt s cmd with
  | none => s
  | some c =>
    if !commandAwake s c then s
    else
      match c.code with
      | 0x180 => queueStep s c
      | 0x182 => queueStep s c
      | 0x183 => queueStep s c
      | 0x184 => queueStep s c
      | 0x185 => queueStep s c
      | 0x201 => queueStep s c
      | 0x202 => queueStep s c
      | 0x189 => snapStep s c
      | 0x18A => yieldStep s c
      | 0x1C3 => sysStep s c
      | 0x1C4 => sysStep s c
      | 0x1C5 => if c.stage = 1 then cmdReply s c .value (word c.aux) (operandDrops c.node c.f) else s
      | 0x1C8 => dropStep s c
      | 0x1C9 => winStep s c
      | 0x1CA => closeStep s c
      | _ => s)

end Sys2Proof.Machine
end

