-- ==== Sys2Proof/Machine/Dispatch.lean ====
section
/-! DEFINITION. The dispatch: one arm per row of the opcode table, each one call of that row's meaning. -/

namespace Sys2Proof.Machine

open Host

def exec (i : Instr) (s : State) : Host.Outcome State Fault Refusal :=
  match i with
  | .nop n => Sys2Proof.Machine.execNop n s
  | .mov n => Sys2Proof.Machine.execMov n s
  | .const n => Sys2Proof.Machine.execConst n s
  | .sink n => Sys2Proof.Machine.execSink n s
  | .switch n => Sys2Proof.Machine.execSwitch n s
  | .merge n => Sys2Proof.Machine.execMerge n s
  | .gate n => Sys2Proof.Machine.execGate n s
  | .nullify n => Sys2Proof.Machine.execNullify n s
  | .isnull n => Sys2Proof.Machine.execIsnull n s
  | .iserr n => Sys2Proof.Machine.execIserr n s
  | .errcode n => Sys2Proof.Machine.execErrcode n s
  | .mkerr n => Sys2Proof.Machine.execMkerr n s
  | .frameof n => Sys2Proof.Machine.execFrameof n s
  | .falloc n => Sys2Proof.Machine.execFalloc n s
  | .ffree n => Sys2Proof.Machine.execFfree n s
  | .flink n => Sys2Proof.Machine.execFlink n s
  | .send n => Sys2Proof.Machine.execSend n s
  | .count n => Sys2Proof.Machine.execCount n s
  | .relay n => Sys2Proof.Machine.execRelay n s
  | .halt n => Sys2Proof.Machine.execHalt n s
  | .add n => Sys2Proof.Machine.execAdd n s
  | .sub n => Sys2Proof.Machine.execSub n s
  | .neg n => Sys2Proof.Machine.execNeg n s
  | .mul n => Sys2Proof.Machine.execMul n s
  | .mulh n => Sys2Proof.Machine.execMulh n s
  | .div n => Sys2Proof.Machine.execDiv n s
  | .rem n => Sys2Proof.Machine.execRem n s
  | .min n => Sys2Proof.Machine.execMin n s
  | .max n => Sys2Proof.Machine.execMax n s
  | .abs n => Sys2Proof.Machine.execAbs n s
  | .and n => Sys2Proof.Machine.execAnd n s
  | .or n => Sys2Proof.Machine.execOr n s
  | .xor n => Sys2Proof.Machine.execXor n s
  | .not n => Sys2Proof.Machine.execNot n s
  | .shl n => Sys2Proof.Machine.execShl n s
  | .shr n => Sys2Proof.Machine.execShr n s
  | .sar n => Sys2Proof.Machine.execSar n s
  | .rotl n => Sys2Proof.Machine.execRotl n s
  | .clz n => Sys2Proof.Machine.execClz n s
  | .ctz n => Sys2Proof.Machine.execCtz n s
  | .popc n => Sys2Proof.Machine.execPopc n s
  | .cmp n => Sys2Proof.Machine.execCmp n s
  | .sel n => Sys2Proof.Machine.execSel n s
  | .addsat n => Sys2Proof.Machine.execAddsat n s
  | .subsat n => Sys2Proof.Machine.execSubsat n s
  | .ext n => Sys2Proof.Machine.execExt n s
  | .ins n => Sys2Proof.Machine.execIns n s
  | .cvt n => Sys2Proof.Machine.execCvt n s
  | .idx n => Sys2Proof.Machine.execIdx n s
  | .bnd n => Sys2Proof.Machine.execBnd n s
  | .fadd n => Sys2Proof.Machine.execFadd n s
  | .fsub n => Sys2Proof.Machine.execFsub n s
  | .fmul n => Sys2Proof.Machine.execFmul n s
  | .ffma n => Sys2Proof.Machine.execFfma n s
  | .fmin n => Sys2Proof.Machine.execFmin n s
  | .fmax n => Sys2Proof.Machine.execFmax n s
  | .fabs n => Sys2Proof.Machine.execFabs n s
  | .fneg n => Sys2Proof.Machine.execFneg n s
  | .fcmp n => Sys2Proof.Machine.execFcmp n s
  | .fcvt n => Sys2Proof.Machine.execFcvt n s
  | .frnd n => Sys2Proof.Machine.execFrnd n s
  | .fclass n => Sys2Proof.Machine.execFclass n s
  | .fscl n => Sys2Proof.Machine.execFscl n s
  | .frcp n => Sys2Proof.Machine.execFrcp n s
  | .frsq n => Sys2Proof.Machine.execFrsq n s
  | .fsqrt n => Sys2Proof.Machine.execFsqrt n s
  | .fdiv n => Sys2Proof.Machine.execFdiv n s
  | .fexp2 n => Sys2Proof.Machine.execFexp2 n s
  | .flog2 n => Sys2Proof.Machine.execFlog2 n s
  | .ftanh n => Sys2Proof.Machine.execFtanh n s
  | .fsigm n => Sys2Proof.Machine.execFsigm n s
  | .tadd n => Sys2Proof.Machine.execTadd n s
  | .tsub n => Sys2Proof.Machine.execTsub n s
  | .tmul n => Sys2Proof.Machine.execTmul n s
  | .tfma n => Sys2Proof.Machine.execTfma n s
  | .tmin n => Sys2Proof.Machine.execTmin n s
  | .tmax n => Sys2Proof.Machine.execTmax n s
  | .tabs n => Sys2Proof.Machine.execTabs n s
  | .tneg n => Sys2Proof.Machine.execTneg n s
  | .tscl n => Sys2Proof.Machine.execTscl n s
  | .tbias n => Sys2Proof.Machine.execTbias n s
  | .tclamp n => Sys2Proof.Machine.execTclamp n s
  | .tact n => Sys2Proof.Machine.execTact n s
  | .tred n => Sys2Proof.Machine.execTred n s
  | .ttr n => Sys2Proof.Machine.execTtr n s
  | .tbc n => Sys2Proof.Machine.execTbc n s
  | .tsel n => Sys2Proof.Machine.execTsel n s
  | .tcmp n => Sys2Proof.Machine.execTcmp n s
  | .tcpy n => Sys2Proof.Machine.execTcpy n s
  | .tview n => Sys2Proof.Machine.execTview n s
  | .tcond n => Sys2Proof.Machine.execTcond n s
  | .tcvt n => Sys2Proof.Machine.execTcvt n s
  | .trng n => Sys2Proof.Machine.execTrng n s
  | .tfill n => Sys2Proof.Machine.execTfill n s
  | .tiota n => Sys2Proof.Machine.execTiota n s
  | .accNew n => Sys2Proof.Machine.execAccNew n s
  | .accZero n => Sys2Proof.Machine.execAccZero n s
  | .accFree n => Sys2Proof.Machine.execAccFree n s
  | .accGet n => Sys2Proof.Machine.execAccGet n s
  | .mma n => Sys2Proof.Machine.execMma n s
  | .mmaPair n => Sys2Proof.Machine.execMmaPair n s
  | .smma n => Sys2Proof.Machine.execSmma n s
  | .accDrain n => Sys2Proof.Machine.execAccDrain n s
  | .accRl n => Sys2Proof.Machine.execAccRl n s
  | .rlIns n => Sys2Proof.Machine.execRlIns n s
  | .rlMerge n => Sys2Proof.Machine.execRlMerge n s
  | .rlOut n => Sys2Proof.Machine.execRlOut n s
  | .rlThr n => Sys2Proof.Machine.execRlThr n s
  | .ld n => Sys2Proof.Machine.execLd n s
  | .st n => Sys2Proof.Machine.execSt n s
  | .ldt n => Sys2Proof.Machine.execLdt n s
  | .stt n => Sys2Proof.Machine.execStt n s
  | .tld n => Sys2Proof.Machine.execTld n s
  | .tst n => Sys2Proof.Machine.execTst n s
  | .talloc n => Sys2Proof.Machine.execTalloc n s
  | .tref n => Sys2Proof.Machine.execTref n s
  | .trel n => Sys2Proof.Machine.execTrel n s
  | .pumpGet n => Sys2Proof.Machine.execPumpGet n s
  | .pumpPut n => Sys2Proof.Machine.execPumpPut n s
  | .pumpXfer n => Sys2Proof.Machine.execPumpXfer n s
  | .pumpMcast n => Sys2Proof.Machine.execPumpMcast n s
  | .gather n => Sys2Proof.Machine.execGather n s
  | .scatter n => Sys2Proof.Machine.execScatter n s
  | .stream n => Sys2Proof.Machine.execStream n s
  | .atomAdd n => Sys2Proof.Machine.execAtomAdd n s
  | .atomFadd n => Sys2Proof.Machine.execAtomFadd n s
  | .atomMin n => Sys2Proof.Machine.execAtomMin n s
  | .atomMax n => Sys2Proof.Machine.execAtomMax n s
  | .atomAnd n => Sys2Proof.Machine.execAtomAnd n s
  | .atomOr n => Sys2Proof.Machine.execAtomOr n s
  | .atomXor n => Sys2Proof.Machine.execAtomXor n s
  | .atomXchg n => Sys2Proof.Machine.execAtomXchg n s
  | .atomCas n => Sys2Proof.Machine.execAtomCas n s
  | .redAdd n => Sys2Proof.Machine.execRedAdd n s
  | .redFadd n => Sys2Proof.Machine.execRedFadd n s
  | .redMin n => Sys2Proof.Machine.execRedMin n s
  | .redMax n => Sys2Proof.Machine.execRedMax n s
  | .redAnd n => Sys2Proof.Machine.execRedAnd n s
  | .redOr n => Sys2Proof.Machine.execRedOr n s
  | .redXor n => Sys2Proof.Machine.execRedXor n s
  | .phase n => Sys2Proof.Machine.execPhase n s
  | .fence n => Sys2Proof.Machine.execFence n s
  | .afence n => Sys2Proof.Machine.execAfence n s
  | .spawn n => Sys2Proof.Machine.execSpawn n s
  | .join n => Sys2Proof.Machine.execJoin n s
  | .enq n => Sys2Proof.Machine.execEnq n s
  | .deq n => Sys2Proof.Machine.execDeq n s
  | .steal n => Sys2Proof.Machine.execSteal n s
  | .qlen n => Sys2Proof.Machine.execQlen n s
  | .barArrive n => Sys2Proof.Machine.execBarArrive n s
  | .barComb n => Sys2Proof.Machine.execBarComb n s
  | .rcntAdd n => Sys2Proof.Machine.execRcntAdd n s
  | .rcntSnap n => Sys2Proof.Machine.execRcntSnap n s
  | .yield n => Sys2Proof.Machine.execYield n s
  | .trap n => Sys2Proof.Machine.execTrap n s
  | .brk n => Sys2Proof.Machine.execBrk n s
  | .evt n => Sys2Proof.Machine.execEvt n s
  | .sysrd n => Sys2Proof.Machine.execSysrd n s
  | .syswr n => Sys2Proof.Machine.execSyswr n s
  | .nrgRd n => Sys2Proof.Machine.execNrgRd n s
  | .seed n => Sys2Proof.Machine.execSeed n s
  | .cfgLd n => Sys2Proof.Machine.execCfgLd n s
  | .cfgDrop n => Sys2Proof.Machine.execCfgDrop n s
  | .winOpen n => Sys2Proof.Machine.execWinOpen n s
  | .winClose n => Sys2Proof.Machine.execWinClose n s
  | .tokenArrival k => Sys2Proof.Machine.execTokenArrival k s
  | .coordinateToken k => Sys2Proof.Machine.execCoordinateToken k s
  | .resultEmit b pe k => Sys2Proof.Machine.execResultEmit b pe k s
  | .readyAging b pe k => Sys2Proof.Machine.execReadyAging b pe k s
  | .windowWrite req piece => Sys2Proof.Machine.execWindowWrite req piece s
  | .windowAccessPerform req piece => Sys2Proof.Machine.execWindowAccessPerform req piece s
  | .wellTranslate req => Sys2Proof.Machine.execWellTranslate req s
  | .pageWalkComplete b vf vpage => Sys2Proof.Machine.execPageWalkComplete b vf vpage s
  | .parkRefusedRetry req => Sys2Proof.Machine.execParkRefusedRetry req s
  | .fqctlReplay b parkid => Sys2Proof.Machine.execFqctlReplay b parkid s
  | .fqctlDrop b parkid => Sys2Proof.Machine.execFqctlDrop b parkid s
  | .fqctlBadOp b op parkid => Sys2Proof.Machine.execFqctlBadOp b op parkid s
  | .xbinvVf b vf => Sys2Proof.Machine.execXbinvVf b vf s
  | .xbinvVa b vf vpage => Sys2Proof.Machine.execXbinvVa b vf vpage s
  | .xbinvAll b => Sys2Proof.Machine.execXbinvAll b s
  | .xbinvBad b => Sys2Proof.Machine.execXbinvBad b s
  | .xbinvComplete b => Sys2Proof.Machine.execXbinvComplete b s
  | .vfrootWrite vf v => Sys2Proof.Machine.execVfrootWrite vf v s
  | .sectorAdmit req piece => Sys2Proof.Machine.execSectorAdmit req piece s
  | .sectorReturn req piece => Sys2Proof.Machine.execSectorReturn req piece s
  | .fetchReply b pe tag => Sys2Proof.Machine.execFetchReply b pe tag s
  | .inboundAccept req piece => Sys2Proof.Machine.execInboundAccept req piece s
  | .edgeCrossing req piece => Sys2Proof.Machine.execEdgeCrossing req piece s
  | .sparseUpdateOp b ch => Sys2Proof.Machine.execSparseUpdateOp b ch s
  | .joinCounterUpdate b ch => Sys2Proof.Machine.execJoinCounterUpdate b ch s
  | .eccWriteback cw => Sys2Proof.Machine.execEccWriteback cw s
  | .scrubStep b => Sys2Proof.Machine.execScrubStep b s
  | .phaseBoundary cfg => Sys2Proof.Machine.execPhaseBoundary cfg s
  | .cisternFull b vf => Sys2Proof.Machine.execCisternFull b vf s
  | .blockInstall b md => Sys2Proof.Machine.execBlockInstall b md s
  | .blockMetaRead b => Sys2Proof.Machine.execBlockMetaRead b s
  | .bcctlBadOp b => Sys2Proof.Machine.execBcctlBadOp b s
  | .engineCompletion cmd => Sys2Proof.Machine.execEngineCompletion cmd s
  | .streamElement cmd => Sys2Proof.Machine.execStreamElement cmd s
  | .mcastLagExpire cmd => Sys2Proof.Machine.execMcastLagExpire cmd s
  | .pairMessage b pe => Sys2Proof.Machine.execPairMessage b pe s
  | .pairLimitExpire b pe k => Sys2Proof.Machine.execPairLimitExpire b pe k s
  | .barrierLimitExpire b pe node fp => Sys2Proof.Machine.execBarrierLimitExpire b pe node fp s
  | .rngGeneratorServe b sl => Sys2Proof.Machine.execRngGeneratorServe b sl s
  | .starve b vf => Sys2Proof.Machine.execStarve b vf s
  | .placementRetry cmd => Sys2Proof.Machine.execPlacementRetry cmd s
  | .launchTake b q => Sys2Proof.Machine.execLaunchTake b q s
  | .launchStart lid => Sys2Proof.Machine.execLaunchStart lid s
  | .launchQuiesce lid => Sys2Proof.Machine.execLaunchQuiesce lid s
  | .launchEnd lid => Sys2Proof.Machine.execLaunchEnd lid s
  | .queueControllerOp cmd => Sys2Proof.Machine.execQueueControllerOp cmd s
  | .taskAccept task => Sys2Proof.Machine.execTaskAccept task s
  | .dispatchDecision b => Sys2Proof.Machine.execDispatchDecision b s
  | .taskComplete task => Sys2Proof.Machine.execTaskComplete task s
  | .hqrecCommit b p v => Sys2Proof.Machine.execHqrecCommit b p v s
  | .queueEnable b q v => Sys2Proof.Machine.execQueueEnable b q v s
  | .qckeyWrite b v => Sys2Proof.Machine.execQckeyWrite b v s
  | .qcapRightsWrite b q v => Sys2Proof.Machine.execQcapRightsWrite b q v s
  | .quantumEnd b sl => Sys2Proof.Machine.execQuantumEnd b sl s
  | .contextSave b sl => Sys2Proof.Machine.execContextSave b sl s
  | .contextRestore b sl crcOk => Sys2Proof.Machine.execContextRestore b sl crcOk s
  | .quantWrite b sl e v => Sys2Proof.Machine.execQuantWrite b sl e v s
  | .slotownWrite b sl v => Sys2Proof.Machine.execSlotownWrite b sl v s
  | .slotLend b sl vf => Sys2Proof.Machine.execSlotLend b sl vf s
  | .slotReclaim b sl => Sys2Proof.Machine.execSlotReclaim b sl s
  | .vfscopeWrite vf v => Sys2Proof.Machine.execVfscopeWrite vf v s
  | .energyFold b sl => Sys2Proof.Machine.execEnergyFold b sl s
  | .bhrstGo b rail hold => Sys2Proof.Machine.execBhrstGo b rail hold s
  | .bhrstRelease b => Sys2Proof.Machine.execBhrstRelease b s
  | .resetFenceDone b => Sys2Proof.Machine.execResetFenceDone b s
  | .resetRelockDone b => Sys2Proof.Machine.execResetRelockDone b s
  | .resetScrubDone b => Sys2Proof.Machine.execResetScrubDone b s
  | .bhctlWrite b v => Sys2Proof.Machine.execBhctlWrite b v s
  | .bhgateWrite b v => Sys2Proof.Machine.execBhgateWrite b v s
  | .wintabWrite b e word v => Sys2Proof.Machine.execWintabWrite b e word v s
  | .bhclkWrite b v => Sys2Proof.Machine.execBhclkWrite b v s
  | .clockLock b => Sys2Proof.Machine.execClockLock b s
  | .aptabWrite b a v => Sys2Proof.Machine.execAptabWrite b a v s
  | .frzctlRetry b m vf => Sys2Proof.Machine.execFrzctlRetry b m vf s
  | .frzctlFail b m vf => Sys2Proof.Machine.execFrzctlFail b m vf s
  | .frzctlFreeze b m vf => Sys2Proof.Machine.execFrzctlFreeze b m vf s
  | .vfReset b vf => Sys2Proof.Machine.execVfReset b vf s
  | .dbgvalWrite b v => Sys2Proof.Machine.execDbgvalWrite b v s
  | .debugTokenDeliver k => Sys2Proof.Machine.execDebugTokenDeliver k s
  | .attest b v => Sys2Proof.Machine.execAttest b v s
  | .hostMemAccess write pa bytes => Sys2Proof.Machine.execHostMemAccess write pa bytes s
  | .spokeRequestReceive port fl => Sys2Proof.Machine.execSpokeRequestReceive port fl s
  | .spokeReplyReceive port fl => Sys2Proof.Machine.execSpokeReplyReceive port fl s
  | .doorDelivery port fl => Sys2Proof.Machine.execDoorDelivery port fl s
  | .spokeNotice port fl => Sys2Proof.Machine.execSpokeNotice port fl s
  | .spokeLinkUp port partner => Sys2Proof.Machine.execSpokeLinkUp port partner s
  | .spokeLinkDown port => Sys2Proof.Machine.execSpokeLinkDown port s
  | .thermalTrip b => Sys2Proof.Machine.execThermalTrip b s
  | .powerOnBringup => Sys2Proof.Machine.execPowerOnBringup s
  | .registerWrite b off v => Sys2Proof.Machine.execRegisterWrite b off v s
  | .hostAcknowledgement req piece bytes => Sys2Proof.Machine.execHostAcknowledgement req piece bytes s
  | .discardedFlit port fl => Sys2Proof.Machine.execDiscardedFlit port fl s

end Sys2Proof.Machine
end

