-- ==== Sys2Proof/Machine/Schedule.lean ====
section
/-! DEFINITION. What one step of the machine does (R8, R224 to R227, R392, R425, R427): the issue of a firing as R226 chooses it, a happening of the
opcode table, or the passing of a BH cycle. One step is one of these; the schedule of a run says which (log 5). -/

namespace Sys2Proof.Machine

open Host

/-- The state in which a firing issues: its meaning reads it from `cur`. -/
def issuing (s : State) (f : Firing) : State := { s with cur := f }

/-- Issue a firing: its record is fetched from its PE's instruction store, decoded and performed (R47, R226). -/
def issueFiring (s : State) (f : Firing) : Outcome State Fault Refusal :=
  match nodeAt (getPE s f.bh f.pe) f.node with
  | none => .fault .badRecord
  | some i => exec i (issuing s f)

/-- Whether a firing is issuable (R226): its meaning takes it. -/
def issuable (s : State) (f : Firing) : Bool :=
  match issueFiring s f with
  | .next t => t != issuing s f
  | _ => true

/-- Whether the issue stage takes firing g before firing f (R225, R226); the numbers are their places in the queue, in match order. -/
def goesFirst (g f : Firing) (kg kf : Nat) : Bool :=
  let older := decide (g.matchCycle < f.matchCycle) || (g.matchCycle == f.matchCycle && decide (kg < kf))
  if g.urgent != f.urgent then g.urgent
  else if g.urgent then older
  else if g.prio ≠ f.prio then decide (f.prio < g.prio)
  else older

/-- Whether the quantum of a slot has run out (R392). -/
def quantumRun (s : State) (b sl : Nat) : Bool :=
  let x := getSlot s b sl
  x.st == .resident && decide (quantumOf s b sl x.vf ≤ x.qcount)

/-- Whether a slot stands at the end of its quantum, so that QUANTUM_END comes before the cycle passes (R381, R392, R478). -/
def quantumDue (s : State) (b sl : Nat) : Bool :=
  let x := getSlot s b sl
  quantumRun s b sl || (x.st == .resident && (x.endNow || slotBare s b sl x.vf) && (nextRunnable s b sl x.vf).isSome)

/-- Whether a PE's issue stage can issue in this cycle for a VF (R226, R392, R417): not once the quantum has run out. -/
def stageOpen (s : State) (b pe vf : Nat) : Bool :=
  let p := getPE s b pe
  bhRuns s b && p.frozen.isNone && isResident s b pe vf && !quantumRun s b (slotOf pe) && decide (p.issueAt ≤ cycleOf s b)

/-- Whether a firing was matched in an earlier cycle: it can issue from the next one on (R227). -/
def matchedBefore (s : State) (f : Firing) : Bool := decide (f.matchCycle < cycleOf s f.bh)

/-- Whether the k-th firing of a ready queue is the one R226 issues, if it is issuable. -/
def isCandidate (s : State) (b pe k : Nat) (f : Firing) : Bool :=
  !((getPE s b pe).ready.zipIdx.any fun x => x.2 != k && goesFirst x.1 f x.2 k && matchedBefore s x.1 && issuable s x.1)

/-- A PE's issue stage takes the k-th firing of its ready queue (R226). Nothing happens where it is not that firing's turn. -/
def issueStep (s : State) (b pe k : Nat) : Outcome State Fault Refusal :=
  match (getPE s b pe).ready[k]? with
  | none => .next s
  | some f => if stageOpen s b pe f.vf && f.bh == b && f.pe == pe && matchedBefore s f && isCandidate s b pe k f then issueFiring s f else .next s

/-- Whether some issue stage of a bulkhead has a firing to issue in this cycle and has not issued one (R226). -/
def issueOwed (s : State) (b : Nat) : Bool :=
  (activePes s b).any fun pe => (getPE s b pe).ready.any fun f =>
    stageOpen s b pe f.vf && f.bh == b && f.pe == pe && matchedBefore s f && issuable s f

/-- Whether something still has to happen before a BH cycle of a bulkhead can end: the issue of a firing (R226, R236), the end of a quantum (R392), a fold
(R425). -/
def cycleOwed (s : State) (b : Nat) : Bool :=
  issueOwed s b || bhRuns s b && (List.range 32).any fun sl => quantumDue s b sl || foldOwed s b sl

/-- Whether no firing of a VF is issuable on any PE of a bulkhead (R166). -/
def noneIssuable (s : State) (b vf : Nat) : Bool :=
  (activePes s b).all fun pe =>
    let p := getPE s b pe
    p.frozen.isSome || !isResident s b pe vf || p.ready.all fun f => f.vf != vf || !issuable s f

/-- What a happening is judged by, beside the state: CISTERN_FULL needs to know whether its VF can issue anything (R166). -/
def surveyed (s : State) (i : Instr) : State :=
  match i with
  | .cisternFull b vf => modBulk s b fun x => { x with stuck := if noneIssuable s b vf then [vf] else [] }
  | _ => s

/-- Whether a row of the table is a happening of the machine, and no node's instruction. -/
def isHappening (i : Instr) : Bool := (instrNode i).isNone && i.wf

/-- One BH cycle of a slot (R8, R392, R425, R427): resident cycles are counted, the static weight is charged to the VF that stands in it, and to none
where the slot's table has no enabled entry. -/
def slotTick (weight : Nat) (x : Slot) : Slot :=
  match x.st with
  | .idle => x
  | .resident => { x with qcount := x.qcount + 1, resCycles := x.resCycles + 1, delta := (x.delta + weight) % 2 ^ 64 }
  | _ => { x with delta := (x.delta + weight) % 2 ^ 64 }

/-- The firings of a PE that have waited 1,024 resident cycles become urgent (R225). -/
def ageAll (s : State) (b pe : Nat) : State :=
  let now := (getSlot s b (slotOf pe)).resCycles
  let old (f : Firing) : Bool := !f.urgent && isResident s b pe f.vf && decide (f.resAt + 1024 ≤ now)
  if !((getPE s b pe).ready.any old) then s
  else modPE s b pe fun p => { p with ready := p.ready.map fun f => if old f then { f with urgent := true, aged := true } else f }

/-- What a PE does as a BH cycle begins: firings age, the queue of coordinate tokens advances, held arrivals are tried again (R224, R225, R353). -/
def peCycle (s : State) (b pe : Nat) : State :=
  let s1 := coordCycle (ageAll s b pe) b pe
  if (getPE s1 b pe).held.isEmpty then s1 else heldRetry s1 b pe

/-- One BH cycle of a bulkhead whose clock runs (R8, R410): the old one ends (R58, R288, R289), counts advance, and rows of tst that wait for entries
are tried again (R188). No cycle ends while an issue stage still has a firing to issue in it (R226, R236), or a quantum or a fold is due (R392, R425). -/
def tick (s : State) (b : Nat) : State :=
  if 12 ≤ b ∨ regBits s b 0x20010 10 1 = 0 ∨ cycleOwed s b then s
  else
    let s0 := if bhRuns s b then windowsClose (endCycle (countersEnd (foldsEnd s b) b) b (cycleOf s b)) b else s
    let s1 := modBulk s0 b fun x => { x with cycle := x.cycle + 1 }
    let w := regBits s1 b 0x20130 0 32
    let held (sl : Nat) : Bool := (List.range 8).any fun e => bitAt (quantWord s b sl e) 9
    let s2 := (List.range 32).foldl (fun t sl =>
      if (getSlot t b sl).st = .idle then t else modSlot t b sl (slotTick (if held sl then w else 0))) s1
    if !bhRuns s2 b then s2 else tstAgain ((activePes s2 b).foldl (fun t pe => peCycle t b pe) s2) b

/-- What a choice does. A happening that is not of the machine, or whose numbers do not exist, is none. -/
def perform (c : Choice) (s : State) : Outcome State Fault Refusal :=
  match c with
  | .issue b pe k => issueStep s b pe k
  | .happen i => if isHappening i then exec i (surveyed s i) else .next s
  | .tick b => .next (tick s b)

/-- One step under the schedule of the run; where it names nothing, the choice is a free value (log 5). -/
def scheduled (s : State) : Outcome State Fault Refusal :=
  match s.agenda with
  | c :: rest => perform c { s with agenda := rest }
  | [] =>
    match Config.schedule s.fresh with
    | some c => perform c (drawn s)
    | none => .next (drawn s)

/-- A configuration of one PE with one record, for PE 0 of bulkhead 0 and VF 0. -/
def slotCfg : Placed :=
  { id := 0, vf := 0, bh := 0, ox := 0, oy := 0, w := 1, h := 1, nbase := 0, ncount := 1, mode := 0, respat := 2, wavemask := 0, lid := 0xFFFF, root := false,
    image := 0, tids := [], descs := [], pols := [], valid := true, boundary := 0, arrivals := [], pePhase := [], waveNext := 1, waveSeen := [], outs := [],
    keys := [], phNodes := [] }

/-- A matched firing of node 0 of PE 0, with a value token of payload zero on each port that its record uses. -/
def wordFiring (w : BitVec 96) (cycle : Nat) : Firing :=
  let one : Option Operand := some { kind := .value, payload := 0 }
  let ports := match (match decode w with | .ok i => instrNode i | .error _ => none) with
    | some (code, n) => (match opInfo code with | some o => nodePorts o n | none => [])
    | none => []
  let at_ (q : Port) : Option Operand := if ports.contains q then one else none
  { Firing.empty with l := at_ .l, r := at_ .r, p := at_ .p, matchCycle := cycle }

/-- A state in which the next step issues the record of a word: bulkhead 0 runs, VF 0 is resident in slot 0, its configuration holds the record as node 0 of
PE 0 with a frame, and the firing stands alone in the ready queue. -/
def placeWord (s : State) (w : BitVec 96) : State :=
  let s0 := modBulk s 0 fun x => { x with cycle := x.cycle + 1 }
  let s1 := regPut (regPut s0 0 0x20008 0x10) 0 0x20010 0x658
  let s2 := modSlot s1 0 0 fun x => { x with st := .resident, vf := 0 }
  let s3 := modPE s2 0 0 fun p =>
    { p with instr := sputs 0 p.instr 0 (recordBytes w), spoilt := [], fmap := sput 0 p.fmap 0 3, ready := [wordFiring w (cycleOf s 0)], issueAt := 0, frozen := none }
  { s3 with cfgs := slotCfg :: s3.cfgs.filter (fun c => !(c.bh == 0 && c.vf == 0)), agenda := [.issue 0 0 0] }

end Sys2Proof.Machine
end

