-- ==== Sys2Proof/Machine/Step.lean ====
section
/-! DEFINITION. The step of the package, and the placing of an instruction where the next step fetches it. -/

namespace Sys2Proof.Machine

/-- One step: the next thing that the schedule of the run names (R7, R8, R226). -/
def step (s : State) : Host.Outcome State Fault Refusal := scheduled s

/-- The state in which the next step fetches, decodes and issues the record whose bits are w (R47): the bits above the first nbits are zero. -/
def State.withFetchWord (s : State) (nbits w : Nat) : State := placeWord s (BitVec.ofNat 96 (w % 2 ^ nbits))

end Sys2Proof.Machine
end

