-- ==== Sys2Proof/Safety.lean ====
section
/-! DEFINITION. The terms in which claims about the D12 are made: which firings perform, what the issue of a firing leaves in the machine and what
it leaves alone, what a tile result is, and the invariants of the package. -/

namespace Sys2Proof.Machine

open Host

/-- The context in which the meaning of an opcode computes when the firing State.cur issues under record n. -/
def firingCtx (s : State) (code : Nat) (n : Node) : Ctx :=
  match opInfo code with
  | some o => ctxOf s o n
  | none => { f := s.cur, n := n, code := code, pol := firingPolicy s s.cur }

/-- The firing State.cur names an accumulator that a firing issued before it still writes: it is not issuable (R345). -/
def waitsForAcc (s : State) (code : Nat) (n : Node) : Bool := accHeld (getPE s s.cur.bh s.cur.pe) (firingCtx s code n).f

/-- Steps 1 to 5 of R221 let the firing State.cur perform: no error operand that its instruction does not consume, no untaken predicate, no null
on a port that gives it no meaning, no stale handle, no operand of a wrong kind; nothing that the firing reads holds an uncorrectable error (R64); and no accumulator that it names is being written (R345). -/
def performs (s : State) (code : Nat) (n : Node) : Bool :=
  match opInfo code with
  | some o => verdict s o n (applyEpass o n s.cur) == .perform && !waitsForAcc s code n
  | none => false

/-- The PE on which the firing State.cur of s issues, as it is in state t. -/
def firedPE (s t : State) : PE := getPE t s.cur.bh s.cur.pe

/-- A firing of record n issued at the present cycle whose result completes after `lat` cycles (R227). -/
def itemOf (s : State) (code : Nat) (n : Node) (lat : Nat) (es : List Emit) (fx : List Effect) (fl : BitVec 9) : Issued :=
  { id := s.nextId, f := (firingCtx s code n).f, node := n, due := cycleOf s s.cur.bh + lat, emits := es, effects := fx, flags := fl,
    wait := .nothing, writes := [], quiet := false }

/-- An outcome that steps 1 to 6 of R221 decide: it completes after one cycle and raises no flag (R221, R222). -/
def outcomeOf (s : State) (code : Nat) (n : Node) (es : List Emit) (fx : List Effect) : Issued :=
  { itemOf s code n 1 es fx 0 with quiet := true }

/-- The reference drops of the firing's handle operands (R58). -/
def dropsOf (s : State) (code : Nat) (n : Node) : List Effect := operandDrops n (firingCtx s code n).f

/-- The firing has left its ready queue, the issue stage is taken for this cycle, and `it` stands issued behind what already was (R226, R227). -/
structure Issues (s t : State) (it : Issued) : Prop where
  placed : (firedPE s t).issued = (firedPE s s).issued ++ [it]
  taken : (firedPE s t).ready = (firedPE s s).ready.erase s.cur
  stage : (firedPE s t).issueAt = cycleOf s s.cur.bh + 1

/-- What an issue that touches no store leaves alone: every management register, every byte of memory and its metadata, every other PE, and every table
of the package. On the firing's own PE only the ready queue, the issued firings and the units change; of its slot only the energy delta; of its
bulkhead only what records that a firing issued. -/
structure OnlyIssues (s t : State) : Prop where
  regs : t.regs = s.regs
  nrgRem : t.nrgRem = s.nrgRem
  mem : ∀ a, memByte t a = memByte s a
  bmeta : t.bmeta = s.bmeta
  ecc : t.ecc = s.ecc
  links : t.links = s.links
  cfgs : t.cfgs = s.cfgs
  launches : t.launches = s.launches
  tasks : t.tasks = s.tasks
  versions : t.versions = s.versions
  rcbs : t.rcbs = s.rcbs
  flights : t.flights = s.flights
  inject : t.inject = s.inject
  reqs : t.reqs = s.reqs
  cmds : t.cmds = s.cmds
  stores : t.stores = s.stores
  saved : t.saved = s.saved
  errSeq : t.errSeq = s.errSeq
  evSeq : t.evSeq = s.evSeq
  spokeOut : t.spokeOut = s.spokeOut
  powered : t.powered = s.powered
  own : firedPE s t = { firedPE s s with ready := (firedPE s t).ready, issued := (firedPE s t).issued, issueAt := (firedPE s t).issueAt,
                                         units := (firedPE s t).units }
  others : ∀ b pe, peKey b pe ≠ peKey s.cur.bh s.cur.pe → getPE t b pe = getPE s b pe
  slot : getSlot t s.cur.bh (slotOf s.cur.pe) =
    { getSlot s s.cur.bh (slotOf s.cur.pe) with delta := (getSlot t s.cur.bh (slotOf s.cur.pe)).delta }
  slots : ∀ b sl, b * 32 + sl ≠ s.cur.bh * 32 + slotOf s.cur.pe → getSlot t b sl = getSlot s b sl
  bulk : getBulk t s.cur.bh = { getBulk s s.cur.bh with lastIssue := (getBulk t s.cur.bh).lastIssue, posted := (getBulk t s.cur.bh).posted,
                                                         cfPosted := (getBulk t s.cur.bh).cfPosted }
  bulks : ∀ b, b ≠ s.cur.bh → getBulk t b = getBulk s b

/-- exec answers a next state in which the firing stands issued with these emissions, effects and flags, and nothing else is touched. -/
def CompletesWith (s : State) (i : Instr) (code : Nat) (n : Node) (lat : Nat) (es : List Emit) (fx : List Effect) (fl : BitVec 9) : Prop :=
  ∃ t, exec i s = .next t ∧ OnlyIssues s t ∧ Issues s t (itemOf s code n lat es fx fl)

/-- exec answers a next state in which the firing stands issued, to give a value with flags to each used destination (R69, R227). -/
def GivesValue (s : State) (i : Instr) (code : Nat) (n : Node) (lat : Nat) (v : Word) (fl : BitVec 9) : Prop :=
  CompletesWith s i code n lat (toUsed n .value v) (dropsOf s code n) fl

/-- The low bits of the operands of a class 1 node, at the width of its type (R274). -/
def lVec (t : Ty) (c : Ctx) : BitVec (tyWidth t) := (payloadAt c.f .l).setWidth (tyWidth t)
def rVec (t : Ty) (c : Ctx) : BitVec (tyWidth t) := (rWord c).setWidth (tyWidth t)

/-- A result of a type as a payload: i types are sign-extended, the others zero-extended (R76). -/
def widen (t : Ty) (x : BitVec (tyWidth t)) : Word := if tySigned t then x.signExtend 64 else x.setWidth 64

/-- The value of a finite pattern of a format, by its sign, exponent and fraction fields (R241). -/
def patternValue (t : Ty) (x : Nat) : ℚ :=
  let f := floatFmt t
  let expField := x % 2 ^ (tyWidth t - 1) / 2 ^ f.m
  (if bitAt x (tyWidth t - 1) then -1 else 1) *
    (if expField = 0 then ((x % 2 ^ f.m : Nat) : ℚ) * 2 ^ (1 - (f.bias : Int) - f.m)
     else ((2 ^ f.m + x % 2 ^ f.m : Nat) : ℚ) * 2 ^ ((expField : Int) - f.bias - f.m))

/-- A pattern of a format with infinities that is neither one of them nor a NaN: its exponent field is not all ones (R241). -/
def finitePattern (t : Ty) (x : Nat) : Prop :=
  x < 2 ^ tyWidth t ∧ x % 2 ^ (tyWidth t - 1) / 2 ^ (floatFmt t).m + 1 < 2 ^ (tyWidth t - 1 - (floatFmt t).m)

/-- v is the pattern to which a real number q rounds in a mode (R242): the nearest, a tie going to the even pattern; the nearest toward zero; the least not
below; the greatest not above; the nearest, a tie going away from zero. -/
def RoundsTo (t : Ty) (mode : Nat) (q : ℝ) (v : Nat) : Prop :=
  let val (x : Nat) : ℝ := (patternValue t x : ℝ)
  let far (x : Nat) : ℝ := |val x - q|
  finitePattern t v ∧ ∀ z, finitePattern t z →
    match mode with
    | 0 => far v < far z ∨ (far v = far z ∧ (val z = val v ∨ v % 2 = 0))
    | 1 => 0 ≤ val v * q ∧ |val v| ≤ |q| ∧ (0 ≤ val z * q → |val z| ≤ |q| → |val z| ≤ |val v|)
    | 2 => q ≤ val v ∧ (q ≤ val z → val v ≤ val z)
    | 3 => val v ≤ q ∧ (val z ≤ q → val z ≤ val v)
    | _ => far v < far z ∨ (far v = far z ∧ |val z| ≤ |val v|)

/-- A result is the real number q rounded once, where q does not pass the format's largest finite value, and INEXACT says whether it differs from q (R243). -/
def RoundedOnce (t : Ty) (mode : Nat) (q : ℝ) (r : FloatRes) : Prop :=
  (∃ z, finitePattern t z ∧ |q| ≤ |(patternValue t z : ℝ)|) →
    RoundsTo t mode q r.val ∧ (r.flags &&& flagInexact ≠ 0 ↔ (patternValue t r.val : ℝ) ≠ q)

/-- The integer that a pattern of a type stands for (R76, R239). -/
def vecInt (t : Ty) (x : BitVec (tyWidth t)) : Int := if tySigned t then x.toInt else (x.toNat : Int)

/-- The order of two patterns of a type (R294). -/
def vecLt (t : Ty) (x y : BitVec (tyWidth t)) : Bool := if tySigned t then x.slt y else x.ult y

/-- An integer clamped to a type's range, as a payload (R239). -/
def saturated (t : Ty) (x : Int) : Word := widen t (BitVec.ofInt (tyWidth t) (clampInt (tyMin t) (tyMax t) x))

/-- SATURATED where an integer lies outside a type's range (R239). -/
def saturatedFlag (t : Ty) (x : Int) : BitVec 9 := if x < tyMin t ∨ tyMax t < x then flagSaturated else 0

/-- A tile of `rows` rows can be allocated on the firing's PE, and the unit that fills it is free (R226, R227, R312). -/
def tileReady (s : State) (c : Ctx) (unit tid rows : Nat) : Bool :=
  unitFree s c.f unit && (allocTile s c.f c.f.pe tid rows true).isSome

/-- exec answers a next state with a new tile of TID entry `tid` on the firing's PE (R312): the lowest free handle-table entry names it, its rows read as
`rows`, its metadata are those `mk` gives, its handle goes to each used destination after `lat` cycles, and the unit is held for `hold`. -/
def MakesTile (s : State) (i : Instr) (code : Nat) (n : Node) (tid : TidEntry) (rows : List Nat) (fl : BitVec 9) (lat unit hold : Nat)
    (mk : HEntry → HEntry) : Prop :=
  ∃ t h e0, exec i s = .next t ∧ freeHandle (firedPE s s) = some h ∧ e0.kind = .tile ∧ e0.pend = true ∧ e0.ref = 0 ∧
    e0.gen = (handleAt (firedPE s s) h).gen ∧ handleAt (firedPE s t) h = mk e0 ∧
    (∀ k r, rows[k]? = some r → leNat (rowBytes (firedPE s t) e0.pages k) = r % 2 ^ 4096) ∧
    Issues s t (itemOf s code n lat (toUsed n .handle (handleWord h tid.tid e0.gen)) ([.produced h] ++ dropsOf s code n) fl) ∧
    sget 0 (firedPE s t).units unit = cycleOf s s.cur.bh + hold ∧ t.regs = s.regs ∧ ∀ a, memByte t a = memByte s a

/-- The bytes that the firing PE's own pending stores supply to a node load of `len` bytes at `va` as it issues, by offset (R162); once the PE has fired an
afence they are matched by physical address, when the load has been translated (R168). -/
def ownSupply (s : State) (va len : Nat) : SMap Byte :=
  let phase := match cfgAt s s.cur.cfg with | some g => accessPhase g s.cur.pe | none => 0
  let sts := if supplyPhys s s.cur.bh s.cur.pe s.cur.vf then [] else supplyStores s s.cur.bh s.cur.pe s.cur.cfg phase s.nextId
  supplyMap (groupMode s s.cur.cfg) sts len fun p i => storeByteVa p (va + i)

/-- The address l + r * n of the indexed forms (R185). -/
def indexedAddr (n : Node) (c : Ctx) : Nat := (payloadAt c.f .l + rWord c * BitVec.ofNat 64 (tyBytes n.ty)).toNat

/-- A node load has been sent: its request stands at the well with what the PE's own stores supply, or needs none where they supply it whole, and a tag waits for
it (R116, R160, R162). -/
def LoadSent (s t : State) (code : Nat) (n : Node) (va len mode : Nat) : Prop :=
  ∃ r tag, t.reqs = s.reqs ++ [r] ∧ r.va = va ∧ r.len = len ∧ r.write = false ∧ r.atom = none ∧ r.vf = s.cur.vf ∧ r.owner = .tag s.nextId ∧
    r.st = (if (ownSupply s va len).length = len then .finished else .atWell) ∧ r.mode = mode ∧ r.supply = ownSupply s va len ∧ (firedPE s t).fetch = (firedPE s s).fetch ++ [tag] ∧ tag.id = s.nextId ∧
    tag.st = .issued ∧ tag.code = code ∧ tag.node = n ∧ tag.f = (firingCtx s code n).f ∧
    (firedPE s t).ready = (firedPE s s).ready.erase s.cur ∧ (firedPE s t).issued = (firedPE s s).issued ∧ t.stores = s.stores ∧ t.regs = s.regs ∧
    ∀ a, memByte t a = memByte s a

/-- The destinations of a firing as they are resolved now (R116). -/
def resolvedDests (s : State) (code : Nat) (n : Node) : List RDest :=
  (usedDests n).map fun d => (resolveDest (firedPE s s) (firingCtx s code n).f d 0 0).1

/-- The launch of the firing has not been halted (R285). -/
def launchGoesOn (s : State) : Prop := ∀ l, launchAt s s.cur.lid = some l → l.halted = false

/-- A scope within the VF's cap, so that it stands as it is written (R174). -/
def scopeWithin (s : State) (scope : Nat) : Prop := scope ≤ bits (vfScope s s.cur.vf) 0 3

/-- The firing has left its ready queue and the issue stage is taken, with nothing issued on its PE: what answers it, if anything does, comes later. -/
structure Leaves (s t : State) : Prop where
  taken : (firedPE s t).ready = (firedPE s s).ready.erase s.cur
  issued : (firedPE s t).issued = (firedPE s s).issued
  stage : (firedPE s t).issueAt = cycleOf s s.cur.bh + 1

/-- A command has been entered by the firing: nothing else has happened but the issue (R377, R434). -/
def CommandEntered (s t : State) (code : Nat) (n : Node) : Prop :=
  OnlyIssues { s with cmds := s.cmds ++ [commandFor s (firingCtx s code n)] } t ∧ Leaves s t

/-- exec answers a next state in which the firing issued with an error token of its PE as its outcome (R79, R221, R222): to each used destination, or to
the graph's sink where there is none. The PE's error number advances, and nothing else is touched. -/
def ErrsWith (s : State) (i : Instr) (code : Nat) (n : Node) (err : Nat) : Prop :=
  let e := newError s (peSrc s.cur.bh s.cur.pe) err
  ∃ t, exec i s = .next t ∧ OnlyIssues e.2 t ∧
    Issues s t (outcomeOf s code n (toUsed n .err e.1) (dropsOf s code n ++ if usedDests n = [] then [.sinkErr e.1] else []))

/-- The answer of a command stands on its PE: one token to each destination that was resolved at issue, and the command is gone (R119, R372, R439). -/
def Answers (s t : State) (c : Cmd) (k : Kind) (v : Word) : Prop :=
  cmdAt t c.id = none ∧ ∃ it ∈ (getPE t c.f.bh c.f.pe).issued, it.f = c.f ∧ it.node = c.node ∧ it.due = cycleOf s c.f.bh ∧
    it.emits = (c.dests.filterMap id).map fun d => Emit.mk (.fixed d) k v false

/-- The launch of a command goes on, so that its answer is emitted (R285). -/
def commandLive (s : State) (c : Cmd) : Prop := ∀ l, launchAt s c.f.lid = some l → l.halted = false

/-- A command of a PE stands first in its order and its VF is resident. -/
structure CommandTurn (s : State) (id : Nat) (c : Cmd) : Prop where
  found : cmdAt s id = some c
  awake : commandAwake s c = true
  fresh : c.stage = 0
  turn : cmdBehind s c = false
  agent : c.agent = .pe c.f.bh c.f.pe

/-- A queue operation reaches the controller of bulkhead y: no gate stops it, the bulkhead runs, and its capability's order of checks can be made
(R371, R372, R407). -/
structure QueueTurn (s : State) (id : Nat) (c : Cmd) (y : Nat) : Prop extends CommandTurn s id c where
  target : y = capBh (cmdCap c)
  exists_ : y < 12
  way : wayJudge s c.f.bh y c.f.vf 3 0 8 8 c.f.bh = none
  runs : bhRuns s y = true
  room : poolRoom s y 1024 8 c.f.vf (qWaiting s y) = true

/-- The k-th token on its way can be taken now, its VF is resident, and it passes the checks of R81 and R54 as a token of a node that is neither a combiner
nor the coordinate port of an smma (R217, R352, R400). -/
structure Arrives (s : State) (k : Nat) (x : Flight) (c : Placed) (o : OpInfo) (n : Node) : Prop where
  found : s.flights[k]? = some x
  due : flightDue s k x = true
  here : isResident s x.tok.bh x.tok.pe x.tok.vf = true
  fits : arrivalCheck s x.tok = .fits c o n
  noComb : o.code ≠ 0x187
  noCoord : isCoord o x.tok = false

/-- The k-th token on its way can be taken now by a barrier combiner: its VF is resident, it passes the checks of R81 and R54, and the firing it stands for
performs (R217, R221, R400). -/
structure CombArrives (s : State) (k : Nat) (x : Flight) (c : Placed) (o : OpInfo) (n : Node) : Prop where
  found : s.flights[k]? = some x
  due : flightDue s k x = true
  here : isResident s x.tok.bh x.tok.pe x.tok.vf = true
  fits : arrivalCheck s x.tok = .fits c o n
  comb : o.code = 0x187
  performs : verdict s o n (combFiring s c o n x.tok x.vc) = .perform

/-- The match of a token completes a firing, which stands last in the ready queue with these operands (R216, R220, R225). -/
def Matches (s t : State) (x : Flight) (c : Placed) (o : OpInfo) (ops : Port → Option Operand) : Prop :=
  ∃ f, (getPE t x.tok.bh x.tok.pe).ready = (getPE s x.tok.bh x.tok.pe).ready ++ [f] ∧ f.bh = x.tok.bh ∧ f.pe = x.tok.pe ∧ f.node = x.tok.node ∧
    f.fp = x.tok.fp ∧ f.vf = x.tok.vf ∧ f.prio = x.tok.prio ∧ f.cfg = c.id ∧ f.lid = c.lid ∧ f.matchCycle = cycleOf s x.tok.bh ∧
    (∀ q, operandAt f q = ops q) ∧ f.urgent = (([f.l, f.r, f.p].any fun y => isKind y .err) || x.vc == 1 || urgentCode o.code)

/-- An issued firing that can complete now, alone in its turn (R227, R336). -/
structure Completes (s : State) (b pe k : Nat) (it : Issued) : Prop where
  found : (getPE s b pe).issued[k]? = some it
  place : it.f.bh = b ∧ it.f.pe = pe
  due : it.due ≤ cycleOf s b
  wait : it.wait = .nothing
  thawed : (getPE s b pe).frozen = none
  turn : ∀ y ∈ (getPE s b pe).issued.take k, ¬(y.due ≤ cycleOf s b ∧ waitOver s y.wait = true)
  runs : bhRuns s b = true
  link : linkIdle s it = true

/-- What a completing firing does to its PE beside its emissions, the steps at the end of the cycle left out (R58, R288, R289). -/
def effectsNow (it : Issued) : List Effect := it.effects.filter fun x => !isLate x

/-- The firing's PE as it resolves its destinations: the links that it writes show their new values to it (R288). -/
def emitPE (s : State) (it : Issued) : PE := ownLinks (getPE s it.f.bh it.f.pe) it.effects

/-- Where an emission of a completing firing goes, as its destination resolves now (R70, R288). -/
def emitDest (s : State) (it : Issued) (e : Emit) : RDest := (resolveTarget (emitPE s it) it.f e.target).1

/-- The token of an emission on its way, delivered 1 + h cycles after this one within the bulkhead (R75, R227). -/
def emitFlight (s : State) (it : Issued) (e : Emit) (kind : Kind) (payload : Word) : Flight :=
  let f := it.f
  let d := emitDest s it e
  { tok := Token.mk payload kind f.vf d.fp d.port d.node d.bh d.pe 0 f.prio, src := peKey f.bh f.pe, vc := if e.vc1 then 1 else 0,
    due := (if d.bh = f.bh then cycleOf s f.bh + 2 + hops f.pe d.pe else 0), lid := f.lid, loc := d.bh == f.bh && d.pe == f.pe }

/-- A request of one part that stands at its well, is next there, and finds room in the miss-merge table before others that wait for it (R29, R31, R32). -/
structure AtWell (s : State) (id : Nat) (r : Req) (p : ReqPart) : Prop where
  found : reqAt s id = some r
  stands : r.st = .atWell
  runs : bhRuns s r.bh = true
  first : behind s r = false
  one : r.parts = [p]
  room : (getBulk s r.bh).mmt.length < 1024
  turn : ∀ q ∈ s.reqs, q.bh = r.bh → q.st = .atWell → q.ord < r.ord → behind s q = true ∨ missing s q = []

/-- What the well knows of that part at once (R29). -/
def wellKnows (s : State) (r : Req) (p : ReqPart) : Option XRes := partNow s r.bh r.vf r.task r.write r.atom.isSome p.va p.len

/-- A piece of a moving request, with a number of its own. -/
structure PieceAt (s : State) (id k : Nat) (r : Req) (p : Piece) : Prop where
  found : reqAt s id = some r
  moving : r.st = .moving
  piece : pieceAt r k = some p
  alone : ∀ q ∈ r.pieces, q.key = p.key → q = p

/-- The same piece of the same request in a later state. -/
def pieceIn (t : State) (id k : Nat) (p : Piece) : Prop := ∃ r, reqAt t id = some r ∧ pieceAt r k = some p

/-- Bytes of HBM that no error touches (R128 to R130, R149). -/
def cleanAt (s : State) (pa len : Nat) : Prop :=
  ∀ i < len, eccOf s ((pa + i) / 32) = .good ∧ blockLost s ((pa + i) / 2048) = false

/-- Every block that a run touches is free of errors: neither a codeword of it nor its metadata byte fails (R128 to R130, R149). -/
def cleanBlocks (s : State) (pa n : Nat) : Prop :=
  ∀ blk, pa / 2048 ≤ blk → blk ≤ (pa + n - 1) / 2048 → blockLost s blk = false ∧ ∀ cw, cw / 64 = blk → eccOf s cw = .good

/-- Memory that no error touches at all: every codeword is good, and every block's metadata byte decodes (R128 to R130, R149). -/
def cleanMemory (s : State) : Prop := (∀ cw, eccOf s cw = .good) ∧ ∀ blk, metaDecoded (blockMeta s blk) = true

/-- The registers of s, the wells' WSTAT apart, whose PEAK follows the sector slots that the device's own accesses hold (R133, log 123). -/
def SameRegs (s t : State) : Prop := ∀ b off, off ≠ 0x11000 → off < 2 ^ 24 → regGet t b off = regGet s b off

/-- What every step keeps: memory stays in its canonical form, and the commands in progress bear rising numbers below the next one, so that no answer can
reach another command (R119, R372, R439). -/
def PackageInv (s : State) : Prop :=
  Memory.wf s.mem = true ∧ (s.cmds.map fun c => c.id).Pairwise (· < ·) ∧ ∀ c ∈ s.cmds, c.id < s.nextId

end Sys2Proof.Machine
end

