-- ==== Sys2Proof/Certificates/Slice0/Obligations.lean ====
section
/-! DEFINITION. The statements about the D12 that are put to the provers. Each docstring names the rules of spec/ it formalises, or says that it rests on
a choice of the model. -/

open Sys2Proof Sys2Proof.Machine Host

/-- R277, R279, R280, R286: nop emits nothing; mov and gate pass l on; const gives its literal (R74); nullify a null token; isnull, iserr, errcode and
frameof an n64 value. Each completes after one cycle and touches no store. -/
def Obligations.SteeringPassesTokens : Prop :=
  ∀ (s : State) (n : Node),
    (performs s 0x000 n = true → CompletesWith s (.nop n) 0x000 n 1 [] (dropsOf s 0x000 n) 0) ∧
    (performs s 0x001 n = true → CompletesWith s (.mov n) 0x001 n 1
      (toUsed n (lOperand (firingCtx s 0x001 n)).kind (lOperand (firingCtx s 0x001 n)).payload) (dropsOf s 0x001 n) 0) ∧
    (performs s 0x002 n = true → GivesValue s (.const n) 0x002 n 1 (litWord n) 0) ∧
    (performs s 0x006 n = true → CompletesWith s (.gate n) 0x006 n 1
      (toUsed n (lOperand (firingCtx s 0x006 n)).kind (lOperand (firingCtx s 0x006 n)).payload) (dropsOf s 0x006 n) 0) ∧
    (performs s 0x007 n = true → CompletesWith s (.nullify n) 0x007 n 1 (toUsed n .null 0) (dropsOf s 0x007 n) 0) ∧
    (performs s 0x008 n = true → GivesValue s (.isnull n) 0x008 n 1 (if (lOperand (firingCtx s 0x008 n)).kind = .null then 1 else 0) 0) ∧
    (performs s 0x009 n = true → GivesValue s (.iserr n) 0x009 n 1 (if (lOperand (firingCtx s 0x009 n)).kind = .err then 1 else 0) 0) ∧
    (performs s 0x00A n = true → GivesValue s (.errcode n) 0x00A n 1
      (if (lOperand (firingCtx s 0x00A n)).kind = .err then (lOperand (firingCtx s 0x00A n)).payload else 0) 0) ∧
    (performs s 0x00C n = true → GivesValue s (.frameof n) 0x00C n 1 (BitVec.ofNat 64 (s.cur.fp % 1024)) 0)

/-- R278, R279, R281: switch sends l to DEST0 where r is nonzero and to DEST1 otherwise, with NULLS a null token to the other; merge passes the operand
that is not null; relay adds eight times EX and EY to its offsets; sink sends an error to the graph's sink unless DROP is set. -/
def Obligations.SteeringRoutesTokens : Prop :=
  ∀ (s : State) (n : Node),
    (performs s 0x004 n = true →
      let l := lOperand (firingCtx s 0x004 n)
      let nulls := n.lit.getLsbD 0
      CompletesWith s (.switch n) 0x004 n 1
        (if payloadAt (firingCtx s 0x004 n).f .r ≠ 0 then toDest n.d0 l.kind l.payload false ++ (if nulls then toDest n.d1 .null 0 false else [])
         else (if nulls then toDest n.d0 .null 0 false else []) ++ toDest n.d1 l.kind l.payload false) (dropsOf s 0x004 n) 0) ∧
    (performs s 0x005 n = true →
      let l := lOperand (firingCtx s 0x005 n)
      let r := rOperand (firingCtx s 0x005 n)
      let o := if l.kind = .null then r else l
      CompletesWith s (.merge n) 0x005 n 1 (toUsed n o.kind (if o.kind = .null then 0 else o.payload)) (dropsOf s 0x005 n) 0) ∧
    (performs s 0x012 n = true →
      let l := lOperand (firingCtx s 0x012 n)
      CompletesWith s (.relay n) 0x012 n 1
        ((usedDests n).map fun d => { target := .field d (8 * (n.lit.extractLsb' 0 4).toInt) (8 * (n.lit.extractLsb' 4 4).toInt), kind := l.kind,
                                      payload := l.payload, vc1 := false }) (dropsOf s 0x012 n) 0) ∧
    (performs s 0x003 n = true →
      let l := lOperand (firingCtx s 0x003 n)
      CompletesWith s (.sink n) 0x003 n 1 [] (dropsOf s 0x003 n ++ (if l.kind = .err ∧ n.lit.getLsbD 0 = false then [.sinkErr l.payload] else [])) 0)

/-- R79, R222, R280, R283: mkerr creates an error token of the firing PE with the literal's code and the PE's next SEQ, and the PE's SEQ advances; with no
destination the token goes to the graph's sink. send delivers l to the PE, node, port and frame of its target word; a bad target word makes a NODE_BAD
error for the graph's sink. -/
def Obligations.MadeErrorsAndSends : Prop :=
  ∀ (s : State) (n : Node),
    let src := peSrc s.cur.bh s.cur.pe
    let bumped : State := { s with errSeq := sput 0 s.errSeq src ((sget 0 s.errSeq src + 1) % 2 ^ 32) }
    let payload (code : Nat) : Word := BitVec.ofNat 64 (code % 256 + src * 256 + sget 0 s.errSeq src * 2 ^ 32)
    (performs s 0x00B n = true → ∃ t : State, exec (.mkerr n) s = .next t ∧ OnlyIssues bumped t ∧
      Issues s t (itemOf s 0x00B n 1 (toUsed n .err (payload n.lit.toNat))
        (dropsOf s 0x00B n ++ if usedDests n = [] then [.sinkErr (payload n.lit.toNat)] else []) 0)) ∧
    (performs s 0x010 n = true →
      let c := firingCtx s 0x010 n
      let w := payloadAt c.f .r
      let abs := w.getLsbD 32
      let x : Int := if abs then ((w.extractLsb' 33 4).toNat : Int) else ((s.cur.pe % 16 : Nat) : Int) + (w.extractLsb' 10 4).toInt
      let y : Int := if abs then ((w.extractLsb' 37 5).toNat : Int) else ((s.cur.pe / 16 : Nat) : Int) + (w.extractLsb' 14 4).toInt
      let bad : Prop := w.extractLsb' 42 22 ≠ 0 ∨ w.extractLsb' 30 2 = 3 ∨ (abs = true ∧ w.extractLsb' 10 8 ≠ 0) ∨ x < 0 ∨ 15 < x ∨ y < 0 ∨ 31 < y
      (bad → ∃ t : State, exec (.send n) s = .next t ∧ OnlyIssues bumped t ∧
        Issues s t (itemOf s 0x010 n 1 [] (dropsOf s 0x010 n ++ [.sinkErr (payload 0x05)]) 0)) ∧
      (¬bad → ∃ q, portOfCode (w.extractLsb' 30 2).toNat = some q ∧
        CompletesWith s (.send n) 0x010 n 1
          [{ target := .fixed { bh := s.cur.bh, pe := (y * 16 + x).toNat, node := (w.extractLsb' 18 12).toNat, port := q, fp := (w.extractLsb' 0 10).toNat },
             kind := (lOperand c).kind, payload := (lOperand c).payload, vc1 := false }] (dropsOf s 0x010 n) 0))

/-- R284: a null l of count goes to DEST1 uncounted; any other adds one to the cell, and at N the cell is cleared and the value N follows to DEST0. Every token
travels on VC1. No other cell and no other store changes. -/
def Obligations.CountCountsArrivals : Prop :=
  ∀ (s : State) (n : Node), performs s 0x011 n = true →
    let c := firingCtx s 0x011 n
    let l := lOperand c
    let cell := (n.lit.extractLsb' 12 4).toNat
    let limit := (n.lit.extractLsb' 0 12).toNat + 1
    let seen := sget 0 (firedPE s s).cells cell + 1
    (l.kind = .null → CompletesWith s (.count n) 0x011 n 1 (toDest n.d1 .null l.payload true) (dropsOf s 0x011 n) 0) ∧
    (l.kind ≠ .null → ∃ t : State, exec (.count n) s = .next t ∧
      Issues s t (itemOf s 0x011 n 1 (toDest n.d1 l.kind l.payload true ++ if limit ≤ seen then toDest n.d0 .value (BitVec.ofNat 64 limit) true else [])
        (dropsOf s 0x011 n) 0) ∧
      sget 0 (firedPE s t).cells cell = (if limit ≤ seen then 0 else seen) ∧
      (∀ k, k ≠ cell → sget 0 (firedPE s t).cells k = sget 0 (firedPE s s).cells k) ∧
      (firedPE s t).handles = (firedPE s s).handles ∧ (firedPE s t).tags = (firedPE s s).tags ∧ t.regs = s.regs ∧ ∀ a, memByte t a = memByte s a)

/-- R48, R51, R287, R289, R290: a falloc that neither the throttle nor the budget holds back takes the lowest unit free in every PE of the rectangle: the frame is
live there with the literal's class and every one of its slots EMPTY; the frame pointer is emitted, and link 1 of the new frame, with LINK also link 0 of the
firing's, is to be written when the result completes. ffree emits nothing and frees, when its result completes, the frame of its code (its own, those of links 0 and 1, or the one its value names; with
code 3 a handle on l makes a KIND_OP error); flink passes l on and writes it to a link of the frame r names, which must be live on the firing PE, else FRAME_BAD. That ffree reads its link as it issues
is the model's choice (log 10). -/
def Obligations.FramesOpenedFreedAndLinked : Prop :=
  (∀ (s : State) (n : Node) (cf : Placed) (fp : Nat), performs s 0x00D n = true → cfgAt s s.cur.cfg = some cf → cf.bh = s.cur.bh →
    throttleOk (firedPE s s) s.cur.node s.cur.fp (n.lit.extractLsb' 4 8).toNat = true →
    frameFit s cf.bh (rectPes cf) (n.lit.extractLsb' 0 3).toNat = some fp →
    budgetOk s (chargeAddr s cf.vf s.cur.lid s.cur.task) .frame (2 ^ (n.lit.extractLsb' 0 3).toNat * (rectPes cf).length) = true →
    ∃ t : State, exec (.falloc n) s = .next t ∧
      Issues s t (itemOf s 0x00D n 1 (toUsed n .value (BitVec.ofNat 64 fp))
        (dropsOf s 0x00D n ++ [.link fp 1 (BitVec.ofNat 64 s.cur.fp)] ++ if n.lit.getLsbD 3 then [.link s.cur.fp 0 (BitVec.ofNat 64 fp)] else []) 0) ∧
      (∀ pe ∈ rectPes cf, frameLive (getPE t cf.bh pe) fp = true ∧ frameClass (getPE t cf.bh pe) fp = (n.lit.extractLsb' 0 3).toNat ∧
        ∀ k < 16 * 2 ^ (n.lit.extractLsb' 0 3).toNat, slotTag (getPE t cf.bh pe) (16 * fp + k) = 0) ∧
      t.regs = s.regs ∧ ∀ a, memByte t a = memByte s a) ∧
  (∀ (s : State) (n : Node),
    (performs s 0x00E n = true → n.lit = 0 → CompletesWith s (.ffree n) 0x00E n 1 [] (dropsOf s 0x00E n ++ [.freeFrame s.cur.fp]) 0) ∧
    (performs s 0x00E n = true → ∀ k : Fin 2, n.lit = BitVec.ofNat 16 (k.val + 1) →
      CompletesWith s (.ffree n) 0x00E n 1 [] (dropsOf s 0x00E n ++ [.freeFrame ((linkRead (firedPE s s) s.cur.fp k.val).1.toNat % 1024)])
        (if (linkRead (firedPE s s) s.cur.fp k.val).2 then flagEmptyRead else 0)) ∧
    (performs s 0x00E n = true → n.lit = 3 → (lOperand (firingCtx s 0x00E n)).kind ≠ .handle →
      CompletesWith s (.ffree n) 0x00E n 1 [] (dropsOf s 0x00E n ++ [.freeFrame ((payloadAt (firingCtx s 0x00E n).f .l).toNat % 1024)]) 0) ∧
    (performs s 0x00E n = true → n.lit = 3 → (lOperand (firingCtx s 0x00E n)).kind = .handle → ErrsWith s (.ffree n) 0x00E n 0x07) ∧
    (performs s 0x00F n = true →
      let c := firingCtx s 0x00F n
      let fp := (payloadAt c.f .r).toNat % 1024
      (frameLive (firedPE s s) fp = true →
        CompletesWith s (.flink n) 0x00F n 1 (toUsed n (lOperand c).kind (lOperand c).payload)
          (dropsOf s 0x00F n ++ [.link fp (n.lit.extractLsb' 0 1).toNat (payloadAt c.f .l)]) 0) ∧
      (frameLive (firedPE s s) fp = false → ErrsWith s (.flink n) 0x00F n 0x04)))

/-- R285: the launch of a halt that performs goes to ENDING, halted, with exit status l, and none of its tasks is left; no other launch changes. -/
def Obligations.HaltEndsLaunch : Prop :=
  ∀ (s : State) (n : Node) (l : Launch), performs s 0x013 n = true → launchAt s s.cur.lid = some l → l.st ≠ .ending →
    ∃ t l', exec (.halt n) s = .next t ∧ launchAt t s.cur.lid = some l' ∧ l'.st = .ending ∧ l'.halted = true ∧
      l'.exit = payloadAt (firingCtx s 0x013 n).f .l ∧ l'.errcnt = l.errcnt ∧ (∀ k ∈ t.tasks, k.lid ≠ s.cur.lid) ∧
      (∀ m, m ≠ s.cur.lid → launchAt t m = launchAt s m) ∧ t.regs = s.regs ∧ ∀ a, memByte t a = memByte s a

/-- R239, R291: add, sub, neg, mul, mulh, min, max and abs are taken modulo 2^w at the width of TYPE and extended; mul and mulh take three cycles, the
others one; no flag is raised. -/
def Obligations.IntegerArithmeticWraps : Prop :=
  ∀ (s : State) (n : Node),
    let lv (code : Nat) : BitVec (tyWidth n.ty) := lVec n.ty (firingCtx s code n)
    let rv (code : Nat) : BitVec (tyWidth n.ty) := rVec n.ty (firingCtx s code n)
    let wide (x : BitVec (tyWidth n.ty)) : BitVec 128 := if tySigned n.ty then x.signExtend 128 else x.setWidth 128
    (performs s 0x040 n = true → GivesValue s (.add n) 0x040 n 1 (widen n.ty (lv 0x040 + rv 0x040)) 0) ∧
    (performs s 0x041 n = true → GivesValue s (.sub n) 0x041 n 1 (widen n.ty (lv 0x041 - rv 0x041)) 0) ∧
    (performs s 0x042 n = true → GivesValue s (.neg n) 0x042 n 1 (widen n.ty (-lv 0x042)) 0) ∧
    (performs s 0x043 n = true → GivesValue s (.mul n) 0x043 n 3 (widen n.ty (lv 0x043 * rv 0x043)) 0) ∧
    (performs s 0x044 n = true → GivesValue s (.mulh n) 0x044 n 3
      (widen n.ty ((wide (lv 0x044) * wide (rv 0x044)).extractLsb' (tyWidth n.ty) (tyWidth n.ty))) 0) ∧
    (performs s 0x047 n = true → GivesValue s (.min n) 0x047 n 1 (widen n.ty (if vecLt n.ty (rv 0x047) (lv 0x047) then rv 0x047 else lv 0x047)) 0) ∧
    (performs s 0x048 n = true → GivesValue s (.max n) 0x048 n 1 (widen n.ty (if vecLt n.ty (lv 0x048) (rv 0x048) then rv 0x048 else lv 0x048)) 0) ∧
    (performs s 0x049 n = true → GivesValue s (.abs n) 0x049 n 1
      (widen n.ty (if tySigned n.ty && (lv 0x049).msb then -lv 0x049 else lv 0x049)) 0)

/-- R292: with the divider free, div truncates and rem takes the sign of l, 18 cycles later, while the divider is held; a zero divisor gives 0 and l, and
DIVZERO unless l is zero too; the least value over -1 wraps. No other store is touched. While the divider is held no div or rem issues. -/
def Obligations.IntegerDivision : Prop :=
  ∀ (s : State) (n : Node),
    let lv (code : Nat) : BitVec (tyWidth n.ty) := lVec n.ty (firingCtx s code n)
    let rv (code : Nat) : BitVec (tyWidth n.ty) := rVec n.ty (firingCtx s code n)
    let byZero (code : Nat) : BitVec 9 := if rv code = 0 ∧ lv code ≠ 0 then flagDivzero else 0
    let quot (x y : BitVec (tyWidth n.ty)) : BitVec (tyWidth n.ty) := if tySigned n.ty then x.sdiv y else x / y
    let rest (x y : BitVec (tyWidth n.ty)) : BitVec (tyWidth n.ty) := if tySigned n.ty then x.srem y else x % y
    (performs s 0x045 n = true → unitFree s s.cur unitIntDiv = true →
      GivesValue s (.div n) 0x045 n 18 (if rv 0x045 = 0 then 0 else widen n.ty (quot (lv 0x045) (rv 0x045))) (byZero 0x045)) ∧
    (performs s 0x046 n = true → unitFree s s.cur unitIntDiv = true →
      GivesValue s (.rem n) 0x046 n 18 (widen n.ty (if rv 0x046 = 0 then lv 0x046 else rest (lv 0x046) (rv 0x046))) (byZero 0x046)) ∧
    (∀ x ∈ [(Instr.div n, 0x045), (Instr.rem n, 0x046)], performs s x.2 n = true →
      (unitFree s s.cur unitIntDiv = true → ∃ t : State, exec x.1 s = .next t ∧
        sget 0 (firedPE s t).units unitIntDiv = cycleOf s s.cur.bh + 18 ∧ ∀ u, u ≠ unitIntDiv → sget 0 (firedPE s t).units u = sget 0 (firedPE s s).units u) ∧
      (unitFree s s.cur unitIntDiv = false → exec x.1 s = .next s))

/-- R291, R293: the bitwise instructions and the shifts at the width of TYPE. A count of the width or more gives 0 in shl and shr and copies of the top bit in sar;
rotl takes it modulo the width; clz and ctz of 0 are the width. -/
def Obligations.BitwiseAndShifts : Prop :=
  ∀ (s : State) (n : Node),
    let lv (code : Nat) : BitVec (tyWidth n.ty) := lVec n.ty (firingCtx s code n)
    let rv (code : Nat) : BitVec (tyWidth n.ty) := rVec n.ty (firingCtx s code n)
    let count (code : Nat) : Nat := (rWord (firingCtx s code n)).toNat
    (performs s 0x04A n = true → GivesValue s (.and n) 0x04A n 1 (widen n.ty (lv 0x04A &&& rv 0x04A)) 0) ∧
    (performs s 0x04B n = true → GivesValue s (.or n) 0x04B n 1 (widen n.ty (lv 0x04B ||| rv 0x04B)) 0) ∧
    (performs s 0x04C n = true → GivesValue s (.xor n) 0x04C n 1 (widen n.ty (lv 0x04C ^^^ rv 0x04C)) 0) ∧
    (performs s 0x04D n = true → GivesValue s (.not n) 0x04D n 1 (widen n.ty (~~~lv 0x04D)) 0) ∧
    (performs s 0x04E n = true → GivesValue s (.shl n) 0x04E n 1 (widen n.ty (lv 0x04E <<< count 0x04E)) 0) ∧
    (performs s 0x04F n = true → GivesValue s (.shr n) 0x04F n 1 (widen n.ty (lv 0x04F >>> count 0x04F)) 0) ∧
    (performs s 0x050 n = true → GivesValue s (.sar n) 0x050 n 1 (widen n.ty ((lv 0x050).sshiftRight (count 0x050))) 0) ∧
    (performs s 0x051 n = true → GivesValue s (.rotl n) 0x051 n 1 (widen n.ty ((lv 0x051).rotateLeft (count 0x051))) 0) ∧
    (performs s 0x052 n = true → GivesValue s (.clz n) 0x052 n 1 (widen n.ty (lv 0x052).clz) 0) ∧
    (performs s 0x053 n = true → GivesValue s (.ctz n) 0x053 n 1 (widen n.ty (lv 0x053).ctz) 0) ∧
    (performs s 0x054 n = true → GivesValue s (.popc n) 0x054 n 1 (widen n.ty (lv 0x054).cpop) 0)

/-- R239, R294 to R298: cmp, sel, addsat, subsat, ext, ins, cvt and idx. addsat, subsat and cvt with SAT clamp to the type's range and raise SATURATED where
they do. -/
def Obligations.IntegerSelectsAndConversions : Prop :=
  ∀ (s : State) (n : Node),
    let c (code : Nat) : Ctx := firingCtx s code n
    let lv (code : Nat) : BitVec (tyWidth n.ty) := lVec n.ty (c code)
    let rv (code : Nat) : BitVec (tyWidth n.ty) := rVec n.ty (c code)
    let pos := (n.lit.extractLsb' 0 6).toNat
    let len := (n.lit.extractLsb' 6 6).toNat + 1
    let mask : Word := (BitVec.allOnes len).setWidth 64
    let field : BitVec len := (payloadAt (c 0x059).f .l >>> pos).setWidth len
    let src := tyOfCode (n.lit.extractLsb' 0 3).toNat
    let sum (code : Nat) : Int := vecInt n.ty (lv code) + vecInt n.ty (rv code)
    let diff (code : Nat) : Int := vecInt n.ty (lv code) - vecInt n.ty (rv code)
    let x : Int := vecInt src (lVec src (c 0x05B))
    let holds : Bool := match (n.lit.extractLsb' 0 3).toNat with
      | 0 => lv 0x055 == rv 0x055
      | 1 => lv 0x055 != rv 0x055
      | 2 => vecLt n.ty (lv 0x055) (rv 0x055)
      | 3 => !vecLt n.ty (rv 0x055) (lv 0x055)
      | 4 => vecLt n.ty (rv 0x055) (lv 0x055)
      | _ => !vecLt n.ty (lv 0x055) (rv 0x055)
    (performs s 0x055 n = true → GivesValue s (.cmp n) 0x055 n 1 (if holds then 1 else 0) 0) ∧
    (performs s 0x056 n = true →
      GivesValue s (.sel n) 0x056 n 1 (if payloadAt (c 0x056).f .p ≠ 0 then payloadAt (c 0x056).f .l else payloadAt (c 0x056).f .r) 0) ∧
    (performs s 0x057 n = true → GivesValue s (.addsat n) 0x057 n 1 (saturated n.ty (sum 0x057)) (saturatedFlag n.ty (sum 0x057))) ∧
    (performs s 0x058 n = true → GivesValue s (.subsat n) 0x058 n 1 (saturated n.ty (diff 0x058)) (saturatedFlag n.ty (diff 0x058))) ∧
    (performs s 0x059 n = true → GivesValue s (.ext n) 0x059 n 1
      (widen n.ty (if tySigned n.ty then field.signExtend (tyWidth n.ty) else field.setWidth (tyWidth n.ty))) 0) ∧
    (performs s 0x05A n = true → GivesValue s (.ins n) 0x05A n 1
      (widen n.ty (((payloadAt (c 0x05A).f .l &&& ~~~(mask <<< pos)) ||| ((payloadAt (c 0x05A).f .r &&& mask) <<< pos)).setWidth (tyWidth n.ty))) 0) ∧
    (performs s 0x05B n = true → n.lit.getLsbD 3 = false → GivesValue s (.cvt n) 0x05B n 1 (widen n.ty (BitVec.ofInt (tyWidth n.ty) x)) 0) ∧
    (performs s 0x05B n = true → n.lit.getLsbD 3 = true → GivesValue s (.cvt n) 0x05B n 1 (saturated n.ty x) (saturatedFlag n.ty x)) ∧
    (performs s 0x05C n = true → GivesValue s (.idx n) 0x05C n 1
      (widen n.ty (lv 0x05C + (rv 0x05C <<< (n.lit.extractLsb' 0 6).toNat) + (n.lit.extractLsb' 6 10).signExtend (tyWidth n.ty))) 0)

/-- R221, R298: bnd passes l whole where its value lies in [0, r), and otherwise its outcome is an error token with code BOUNDS, which advances the PE's SEQ. -/
def Obligations.BoundsNodeTraps : Prop :=
  ∀ (s : State) (n : Node), performs s 0x05D n = true →
    let c := firingCtx s 0x05D n
    let x := vecInt n.ty (lVec n.ty c)
    let src := peSrc s.cur.bh s.cur.pe
    let payload : Word := BitVec.ofNat 64 (0x0C + src * 256 + sget 0 s.errSeq src * 2 ^ 32)
    (0 ≤ x ∧ x < vecInt n.ty (rVec n.ty c) → GivesValue s (.bnd n) 0x05D n 1 (payloadAt c.f .l) 0) ∧
    (¬(0 ≤ x ∧ x < vecInt n.ty (rVec n.ty c)) → ∃ t : State, exec (.bnd n) s = .next t ∧
      OnlyIssues { s with errSeq := sput 0 s.errSeq src ((sget 0 s.errSeq src + 1) % 2 ^ 32) } t ∧
      Issues s t (outcomeOf s 0x05D n (toUsed n .err payload) (dropsOf s 0x05D n ++ if usedDests n = [] then [.sinkErr payload] else [])))

/-- R227, R300 to R306: the pipelined class 2 instructions give the rounded value of the type and its flags after four cycles, ffma after five, with the
rounding mode of the literal; fabs clears and fneg inverts the sign bit, NaNs included, and like fclass they raise no flag. -/
def Obligations.PipelinedFloatResults : Prop :=
  ∀ (s : State) (n : Node),
    let c (code : Nat) : Ctx := firingCtx s code n
    let gives (i : Instr) (code lat : Nat) (r : FloatRes) : Prop := performs s code n = true → GivesValue s i code n lat (extend n.ty r.val) r.flags
    let mode (code : Nat) : Nat := roundMode (c code)
    let x (code : Nat) : Nat := lBits (c code)
    let y (code : Nat) : Nat := rBits (c code)
    let lv (code : Nat) : BitVec (tyWidth n.ty) := lVec n.ty (c code)
    gives (.fadd n) 0x080 4 (fadd n.ty (c 0x080).pol (mode 0x080) (x 0x080) (y 0x080)) ∧
    gives (.fsub n) 0x081 4 (fsub n.ty (c 0x081).pol (mode 0x081) (x 0x081) (y 0x081)) ∧
    gives (.fmul n) 0x082 4 (fmul n.ty (c 0x082).pol (mode 0x082) (x 0x082) (y 0x082)) ∧
    gives (.ffma n) 0x083 5 (ffma n.ty (c 0x083).pol (mode 0x083) (x 0x083) (y 0x083) (pBits (c 0x083))) ∧
    gives (.fmin n) 0x084 4 (fminmax n.ty (c 0x084).pol false (x 0x084) (y 0x084)) ∧
    gives (.fmax n) 0x085 4 (fminmax n.ty (c 0x085).pol true (x 0x085) (y 0x085)) ∧
    (performs s 0x086 n = true → GivesValue s (.fabs n) 0x086 n 4 (widen n.ty (lv 0x086 &&& (BitVec.allOnes (tyWidth n.ty) >>> 1))) 0) ∧
    (performs s 0x087 n = true → GivesValue s (.fneg n) 0x087 n 4 (widen n.ty (lv 0x087 ^^^ BitVec.twoPow (tyWidth n.ty) (tyWidth n.ty - 1))) 0) ∧
    (performs s 0x088 n = true → GivesValue s (.fcmp n) 0x088 n 4
      (if (fcmp n.ty (c 0x088).pol (n.lit.extractLsb' 0 3).toNat (x 0x088) (y 0x088)).1 then 1 else 0)
      (fcmp n.ty (c 0x088).pol (n.lit.extractLsb' 0 3).toNat (x 0x088) (y 0x088)).2) ∧
    (performs s 0x089 n = true → GivesValue s (.fcvt n) 0x089 n 4 (fcvtRes (c 0x089)).val (fcvtRes (c 0x089)).flags) ∧
    gives (.frnd n) 0x08A 4 (frnd n.ty (c 0x08A).pol (mode 0x08A) (x 0x08A)) ∧
    (performs s 0x08B n = true → GivesValue s (.fclass n) 0x08B n 4 (BitVec.ofNat 64 (fclass n.ty (x 0x08B))) 0) ∧
    gives (.fscl n) 0x08C 4 (fscl n.ty (c 0x08C).pol (mode 0x08C) (x 0x08C) (payloadAt (c 0x08C).f .r).toInt)

/-- R227, R264 to R269, R300, R307: with its unit free, frcp, frsq and fsqrt complete after 10 cycles and fdiv after 16, the divider held, which no other of them
then takes; fexp2, flog2, ftanh and fsigm complete after 12. -/
def Obligations.IterativeFloatResults : Prop :=
  ∀ (s : State) (n : Node),
    let c (code : Nat) : Ctx := firingCtx s code n
    let gives (i : Instr) (code unit lat : Nat) (r : FloatRes) : Prop :=
      performs s code n = true → unitFree s s.cur unit = true → GivesValue s i code n lat (extend n.ty r.val) r.flags
    gives (.frcp n) 0x08D unitFpDiv 10 (frcp n.ty (c 0x08D).pol (roundMode (c 0x08D)) (lBits (c 0x08D))) ∧
    gives (.frsq n) 0x08E unitFpDiv 10 (frsq n.ty (c 0x08E).pol (roundMode (c 0x08E)) (lBits (c 0x08E))) ∧
    gives (.fsqrt n) 0x08F unitFpDiv 10 (fsqrt n.ty (c 0x08F).pol (roundMode (c 0x08F)) (lBits (c 0x08F))) ∧
    gives (.fdiv n) 0x090 unitFpDiv 16 (fdiv n.ty (c 0x090).pol (roundMode (c 0x090)) (lBits (c 0x090)) (rBits (c 0x090))) ∧
    gives (.fexp2 n) 0x091 unitSfu 12 (fexp2 n.ty (c 0x091).pol (lBits (c 0x091))) ∧
    gives (.flog2 n) 0x092 unitSfu 12 (flog2 n.ty (c 0x092).pol (lBits (c 0x092))) ∧
    gives (.ftanh n) 0x093 unitSfu 12 (ftanh n.ty (c 0x093).pol (lBits (c 0x093))) ∧
    gives (.fsigm n) 0x094 unitSfu 12 (fsigm n.ty (c 0x094).pol (lBits (c 0x094))) ∧
    (∀ x ∈ [(Instr.frcp n, 0x08D, 10), (.frsq n, 0x08E, 10), (.fsqrt n, 0x08F, 10), (.fdiv n, 0x090, 16)], performs s x.2.1 n = true →
      (unitFree s s.cur unitFpDiv = true → ∃ t : State, exec x.1 s = .next t ∧ sget 0 (firedPE s t).units unitFpDiv = cycleOf s s.cur.bh + x.2.2) ∧
      (unitFree s s.cur unitFpDiv = false → exec x.1 s = .next s))

/-- R242, R243, R248: what ROUNDINT answers for the exact n/d: rne the nearest integer, a tie the even one; rz the one below; ru and rd the one toward their
side of the value's sign; rna the nearest, a tie upward; sr adds the fraction's 16 bits to the random ones. With NANPAY 0 an operation with a NaN operand
answers the canonical NaN of its format (R241). -/
def Obligations.RoundingAndNans : Prop :=
  (∀ (n d u : Nat) (neg : Bool), 0 < d →
    let m (mode : Nat) : Nat := roundInt n d neg mode u
    (2 * (m 0 * d) ≤ 2 * n + d ∧ 2 * n ≤ 2 * (m 0 * d) + d ∧ (2 * (m 0 * d) = 2 * n + d ∨ 2 * n = 2 * (m 0 * d) + d → m 0 % 2 = 0)) ∧
    (m 1 * d ≤ n ∧ n < (m 1 + 1) * d) ∧
    (neg = false → n ≤ m 2 * d ∧ m 2 * d < n + d) ∧ (neg = true → m 2 = m 1) ∧
    (neg = true → n ≤ m 3 * d ∧ m 3 * d < n + d) ∧ (neg = false → m 3 = m 1) ∧
    (2 * (m 4 * d) ≤ 2 * n + d ∧ 2 * n < 2 * (m 4 * d) + d) ∧
    m 5 = n / d + (if 2 ^ 16 ≤ n % d * 2 ^ 16 / d + u then 1 else 0)) ∧
  (∀ (t : Ty) (pol : Policy) (mode x y : Nat), pol.nanpay = false →
    ((floatDecode t x).isNan ∨ (floatDecode t y).isNan →
      (fadd t pol mode x y).val = (floatFmt t).canon ∧ (fsub t pol mode x y).val = (floatFmt t).canon ∧
      (fmul t pol mode x y).val = (floatFmt t).canon ∧ (fdiv t pol mode x y).val = (floatFmt t).canon) ∧
    ((floatDecode t x).isNan → (fsqrt t pol mode x).val = (floatFmt t).canon ∧ (frcp t pol mode x).val = (floatFmt t).canon ∧
      (frsq t pol mode x).val = (floatFmt t).canon))

/-- R241, R242, R243, R264, R300: with nothing flushed (FTZI and FTZO 0), fadd, fsub, fmul, ffma, fdiv, frcp, fsqrt and frsq of finite operands give the exact
sum, difference, product, product plus p, quotient, reciprocal, root or reciprocal root rounded once in the mode, wherever it does not pass the largest finite
value, and raise INEXACT exactly where the result differs from it. -/
def Obligations.FloatResultsRoundedOnce : Prop :=
  ∀ t ∈ [Ty.bf16, Ty.f16, Ty.f32, Ty.f64], ∀ (pol : Policy) (mode x y z : Nat), pol.ftzi = false → pol.ftzo = false → mode ≤ 4 →
    finitePattern t x → finitePattern t y → finitePattern t z →
    let v (a : Nat) : ℝ := (patternValue t a : ℝ)
    RoundedOnce t mode (v x + v y) (fadd t pol mode x y) ∧ RoundedOnce t mode (v x - v y) (fsub t pol mode x y) ∧
    RoundedOnce t mode (v x * v y) (fmul t pol mode x y) ∧ RoundedOnce t mode (v x * v y + v z) (ffma t pol mode x y z) ∧
    (v y ≠ 0 → RoundedOnce t mode (v x / v y) (fdiv t pol mode x y)) ∧ (v x ≠ 0 → RoundedOnce t mode (1 / v x) (frcp t pol mode x)) ∧
    (0 ≤ v x → RoundedOnce t mode (Real.sqrt (v x)) (fsqrt t pol mode x)) ∧
    (0 < v x → RoundedOnce t mode (1 / Real.sqrt (v x)) (frsq t pol mode x))

/-- R263, R355: a key orders as its value does and gives it back: i32 and i64 by their signed order, f32 and f64 by their patterns, −0 taken as +0. INSERT keeps
a list of at most k entries in strictly falling rank, and every entry of the new list was held or is the one inserted; an entry already held changes
nothing, and into a full list a pair goes exactly where it ranks above the last. -/
def Obligations.RankedKeysAndInserts : Prop :=
  (∀ x y : BitVec 32, x.slt y ↔ keyOf .i32 x.toNat < keyOf .i32 y.toNat) ∧
  (∀ x y : BitVec 64, x.slt y ↔ keyOf .i64 x.toNat < keyOf .i64 y.toNat) ∧
  (∀ t ∈ [Ty.i32, Ty.i64], ∀ x, x < 2 ^ tyWidth t → valOfKey t (keyOf t x) = x) ∧
  (∀ t ∈ [Ty.f32, Ty.f64], ∀ x, x < 2 ^ tyWidth t → valOfKey t (keyOf t x) = if x = 2 ^ (tyWidth t - 1) then 0 else x) ∧
  (∀ t ∈ [Ty.f32, Ty.f64], ∀ x y, x < 2 ^ tyWidth t → y < 2 ^ tyWidth t → (floatDecode t x).isNan = false → (floatDecode t y).isNan = false →
    (fltVal (floatDecode t x) (floatDecode t y) ↔ keyOf t x < keyOf t y)) ∧
  (∀ (k : Nat) (l : List (Nat × Nat)) (x : Nat × Nat), 0 < k → l.length ≤ k → l.Pairwise (fun a b => ranksAbove a b = true) →
    (listInsert k l x).length ≤ k ∧ (listInsert k l x).Pairwise (fun a b => ranksAbove a b = true) ∧
    (∀ y ∈ listInsert k l x, y ∈ l ∨ y = x) ∧ (x ∈ l → listInsert k l x = l) ∧
    (x ∉ l → (x ∈ listInsert k l x ↔ l.length < k ∨ ranksAbove x (l.getLastD (0, 0)) = true)) ∧
    (l.length < k → ∀ y ∈ l, y ∈ listInsert k l x))

/-- R259, R260: a merge is exact while the sum fits 144 bits: the entry then stands for its old value plus the products; an integer accumulator keeps it modulo
2^144, with OVERFLOW where it does not fit; a floating-point one is rounded to 143 bits, off by half a unit of them at most. A first merge starts from zero. -/
def Obligations.AccumulatorMergesExactly : Prop :=
  ∀ (x : AccEntry) (p ep : Int),
    let e0 := min x.exp ep
    let v := x.sig * 2 ^ (x.exp - e0).toNat + p * 2 ^ (ep - e0).toNat
    (-(2 ^ 143) ≤ v ∧ v < 2 ^ 143 → ∀ integer, accMerge integer false x [(p, ep)] = ({ x with sig := v, exp := e0 }, 0)) ∧
    ((accMerge true false x [(p, ep)]).1.sig - v) % 2 ^ 144 = 0 ∧ -(2 ^ 143) ≤ (accMerge true false x [(p, ep)]).1.sig ∧
    (accMerge true false x [(p, ep)]).1.sig < 2 ^ 143 ∧
    (accMerge true false x [(p, ep)]).1.exp = e0 ∧
    ((accMerge true false x [(p, ep)]).2 = if -(2 ^ 143) ≤ v ∧ v < 2 ^ 143 then 0 else flagOverflow) ∧
    (∀ integer, accMerge integer true x [(p, ep)] = accMerge integer false { x with sig := 0, exp := ep } [(p, ep)]) ∧
    (let w := (accMerge false false x [(p, ep)]).1
     ¬(-(2 ^ 143) ≤ v ∧ v < 2 ^ 143) → 2 ^ 142 ≤ w.sig.natAbs ∧ w.sig.natAbs < 2 ^ 143 ∧ e0 < w.exp ∧
       2 * (w.sig * 2 ^ (w.exp - e0).toNat - v).natAbs ≤ 2 ^ (w.exp - e0).toNat)

/-- R309 to R313, R317, R318: an element-wise tile instruction on tiles of its TYPE in element form, of equal height, makes a tile whose element (i, j) is the
operation on the operands' elements (i, j), a literal on r standing for lane j; the vector unit is held eight cycles a row and the handle follows two,
four or five cycles later. -/
def Obligations.ElementwiseTileResults : Prop :=
  ∀ (s : State) (n : Node) (l : TileIn),
    let ready (code : Nat) : Prop := performs s code n = true ∧ tileIn s (firingCtx s code n) .l = some l ∧ isElem l n.ty = true ∧
      tileReady s (firingCtx s code n) unitVector l.t.tid l.t.rows = true
    let suits (x : TileIn) : Prop := isElem x n.ty = true ∧ x.t.rows = l.t.rows
    let two (i : Instr) (code extra : Nat) : Prop := ready code → (n.litr = true ∨ ∃ r, tileIn s (firingCtx s code n) .r = some r ∧ suits r) →
      let c := firingCtx s code n
      let r := rTile s c
      let out := mapElems n.ty l.t.rows fun a b => tileOp code n.ty c.pol (modeField c) (satField c) (elemOf l a b) (rElem c r a b) 0
      MakesTile s i code n l.t out.1 (out.2 ||| emptyFlag ([l] ++ r.toList)) (extra + 8 * l.t.rows) unitVector (8 * l.t.rows) fun e => loadedMeta l.t e out.1
    let one (i : Instr) (code : Nat) : Prop := ready code →
      let c := firingCtx s code n
      let out := mapElems n.ty l.t.rows fun a b => tileOp code n.ty c.pol (modeField c) (satField c) (elemOf l a b) 0 0
      MakesTile s i code n l.t out.1 (out.2 ||| emptyFlag [l]) (2 + 8 * l.t.rows) unitVector (8 * l.t.rows) fun e => loadedMeta l.t e out.1
    let extra : Nat := if tyFloat n.ty then 4 else 2
    two (.tadd n) 0x0C0 extra ∧ two (.tsub n) 0x0C1 extra ∧ two (.tmul n) 0x0C2 extra ∧ two (.tmin n) 0x0C4 extra ∧ two (.tmax n) 0x0C5 extra ∧
    one (.tabs n) 0x0C6 ∧ one (.tneg n) 0x0C7 ∧
    (ready 0x0C3 → (n.litr = true ∨ ∃ r, tileIn s (firingCtx s 0x0C3 n) .r = some r ∧ suits r) →
      ∀ p, tileIn s (firingCtx s 0x0C3 n) .p = some p → suits p →
      let c := firingCtx s 0x0C3 n
      let r := rTile s c
      let out := mapElems n.ty l.t.rows fun a b => tileOp 0x0C3 n.ty c.pol (modeField c) (satField c) (elemOf l a b) (rElem c r a b) (elemOf p a b)
      MakesTile s (.tfma n) 0x0C3 n l.t out.1 (out.2 ||| emptyFlag ([l] ++ r.toList ++ [p])) ((if tyFloat n.ty then 5 else 2) + 8 * l.t.rows) unitVector
        (8 * l.t.rows) fun e => loadedMeta l.t e out.1)

/-- R319 to R323, R327: tscl scales row i by element (0, i) of r, tbias adds row 0 of r to each row, tclamp bounds each element by r and p, tact applies its
function (relu on the vector unit, the others on the special-function unit), tsel takes l where the mask on p is not zero, tcmp writes 1 where the condition
holds, and tcpy copies a tile of any form with its metadata. -/
def Obligations.TileTransformsAndSelects : Prop :=
  ∀ (s : State) (n : Node) (l : TileIn),
    let ready (code unit : Nat) : Prop := performs s code n = true ∧ tileIn s (firingCtx s code n) .l = some l ∧
      tileReady s (firingCtx s code n) unit l.t.tid l.t.rows = true
    let extra : Nat := if tyFloat n.ty then 4 else 2
    let h := l.t.rows
    let vec (i : Instr) (code extra : Nat) (out : List Nat × BitVec 9) (srcs : List TileIn) : Prop :=
      MakesTile s i code n l.t out.1 (out.2 ||| emptyFlag srcs) (extra + 8 * h) unitVector (8 * h) fun e => loadedMeta l.t e out.1
    (ready 0x0C8 unitVector → isElem l n.ty = true → (n.litr = true ∨ ∃ r, tileIn s (firingCtx s 0x0C8 n) .r = some r ∧ isElem r n.ty = true) →
      let c := firingCtx s 0x0C8 n
      vec (.tscl n) 0x0C8 4 (mapElems n.ty h fun a b => fmul n.ty c.pol (modeField c) (elemOf l a b) (rElem c (rTile s c) 0 a)) ([l] ++ (rTile s c).toList)) ∧
    (ready 0x0C9 unitVector → isElem l n.ty = true → ∀ r, tileIn s (firingCtx s 0x0C9 n) .r = some r → isElem r n.ty = true →
      let c := firingCtx s 0x0C9 n
      vec (.tbias n) 0x0C9 extra
        (let out := mapElems n.ty h fun a b => tileOp 0x0C0 n.ty c.pol (modeField c) (satField c) (elemOf l a b) (elemOf r 0 b) 0
         (out.1, out.2 ||| flagIf (l.empty || emptyWithin s c.f r 1 512) flagEmptyRead)) []) ∧
    (ready 0x0CA unitVector → isElem l n.ty = true →
      let c := firingCtx s 0x0CA n
      vec (.tclamp n) 0x0CA extra (mapElems n.ty h fun a b => clampElem n.ty c.pol (elemOf l a b) (rBits c) (pBits c)) [l]) ∧
    (ready 0x0CB unitVector → isElem l n.ty = true → n.lit.extractLsb' 0 4 = 0 →
      vec (.tact n) 0x0CB 4 (mapElems n.ty h fun a b => actElem n.ty (firingCtx s 0x0CB n).pol 0 (n.lit.extractLsb' 4 3).toNat (elemOf l a b)) [l]) ∧
    (ready 0x0CB unitSfu → isElem l n.ty = true → n.lit.extractLsb' 0 4 ≠ 0 →
      let out := mapElems n.ty h fun a b =>
        actElem n.ty (firingCtx s 0x0CB n).pol (n.lit.extractLsb' 0 4).toNat (n.lit.extractLsb' 4 3).toNat (elemOf l a b)
      MakesTile s (.tact n) 0x0CB n l.t out.1 (out.2 ||| emptyFlag [l]) (12 + 32 * h) unitSfu (32 * h) fun e => loadedMeta l.t e out.1) ∧
    (ready 0x0CF unitVector → isElem l n.ty = true → ∀ r p, tileIn s (firingCtx s 0x0CF n) .r = some r → tileIn s (firingCtx s 0x0CF n) .p = some p →
      isElem r n.ty = true → r.t.rows = h → p.t.form = 0 → p.t.rows = h → tyWidth p.t.fmt = tyWidth n.ty →
      vec (.tsel n) 0x0CF 2 (mapElems n.ty h fun a b => ⟨if elemOf p a b ≠ 0 then elemOf l a b else elemOf r a b, 0⟩) [l, r, p]) ∧
    (ready 0x0D0 unitVector → isElem l n.ty = true →
      (n.litr = true ∨ ∃ r, tileIn s (firingCtx s 0x0D0 n) .r = some r ∧ isElem r n.ty = true ∧ r.t.rows = h) →
      let c := firingCtx s 0x0D0 n
      vec (.tcmp n) 0x0D0 extra (mapElems n.ty h fun a b =>
        let x := elemOf l a b
        let y := rElem c (rTile s c) a b
        if tyFloat n.ty then ⟨if (fcmp n.ty c.pol (modeField c) x y).1 then fone n.ty false else 0, (fcmp n.ty c.pol (modeField c) x y).2⟩
        else ⟨if cmpHolds (modeField c) (elemInt n.ty x) (elemInt n.ty y) then 1 else 0, 0⟩) ([l] ++ (rTile s c).toList)) ∧
    (ready 0x0D1 unitVector → l.t.fmt = n.ty →
      MakesTile s (.tcpy n) 0x0D1 n l.t l.rows (emptyFlag [l]) (2 + 8 * h) unitVector (8 * h) fun e =>
        { l.e with ref := 0, pages := e.pages, pend := true, gen := e.gen, payer := e.payer })

/-- R324 to R326, R328 to R333: tred reduces rows or columns into one row; ttr transposes each 16 x 16 block; tbc broadcasts a row or a column; tfill and tiota
fill a tile of the literal's TID; tcond and tcvt convert on the converter; tview gives the tile another TID, in place where the firing is its only holder and
in a copy otherwise. -/
def Obligations.TileReshapesAndConversions : Prop :=
  ∀ (s : State) (n : Node) (l : TileIn) (tid : TidEntry), tidEntry s s.cur.vf (n.lit.extractLsb' 0 10).toNat = some tid →
    let h := tid.rows
    let ready (code unit : Nat) : Prop := performs s code n = true ∧ tileReady s (firingCtx s code n) unit tid.tid h = true
    let from_ (code : Nat) : Prop := tileIn s (firingCtx s code n) .l = some l
    let elems (g : Nat → Nat → Nat) : List Nat := (mapElems n.ty h fun a b => ⟨g a b, 0⟩).1
    let v (code : Nat) : Nat := (payloadAt (firingCtx s code n).f .l).toNat
    let viewable : Prop := l.t.form = 0 ∨ (l.t.form = 1 ∧ l.t.fmt ∈ [Ty.i64, .i32, .i16, .i8])
    (ready 0x0CC unitVector → from_ 0x0CC → l.t.form = 0 → l.t.fmt ≠ .t2 → tyInt l.t.fmt = tyInt n.ty →
      let c := firingCtx s 0x0CC n
      let op := (n.lit.extractLsb' 10 2).toNat
      let red (xs : List Nat) : FloatRes :=
        if tyInt n.ty then redInt n.ty l.t.fmt op xs else redFloat n.ty l.t.fmt c.pol op (n.lit.extractLsb' 13 3).toNat xs
      let rs : List FloatRes := if n.lit.getLsbD 12 = false then l.rows.map fun r => red (rowList (tyWidth l.t.fmt) (rowElems l.t.fmt) r)
        else (List.range (min (rowElems n.ty) (rowElems l.t.fmt))).map fun j => red ((List.range l.t.rows).map fun i => elemOf l i j)
      let row := packRow (tyWidth n.ty) (rs.map (·.val))
      MakesTile s (.tred n) 0x0CC n tid [row] (rs.foldl (fun a r => a ||| r.flags) (emptyFlag [l])) (12 + 8 * l.t.rows) unitVector (8 + 8 * l.t.rows)
        fun e => loadedMeta tid e [row]) ∧
    (ready 0x0CD unitVector → from_ 0x0CD → isElem l n.ty = true →
      let out := elems fun a b => if b % 16 < l.t.rows then elemOf l (b % 16) (b / 16 * 16 + a) else 0
      MakesTile s (.ttr n) 0x0CD n tid out (emptyFlag [l]) (18 + 8 * h) unitVector (16 + 8 * h) fun e => loadedMeta tid e out) ∧
    (ready 0x0CE unitVector → from_ 0x0CE → isElem l n.ty = true →
      let sel := (n.lit.extractLsb' 10 4).toNat
      let out := elems fun a b => if n.lit.getLsbD 14 then (if a < l.t.rows then elemOf l a sel else 0) else if sel < l.t.rows then elemOf l sel b else 0
      MakesTile s (.tbc n) 0x0CE n tid out (emptyFlag [l]) (2 + 8 * h) unitVector (8 * h) fun e => loadedMeta tid e out) ∧
    (ready 0x0D6 unitVector →
      MakesTile s (.tfill n) 0x0D6 n tid (elems fun _ _ => v 0x0D6 % 2 ^ tyWidth n.ty) 0 (2 + 8 * h) unitVector (8 * h)
        fun e => loadedMeta tid e (elems fun _ _ => v 0x0D6 % 2 ^ tyWidth n.ty)) ∧
    (ready 0x0D7 unitVector →
      let out := elems fun a b => (if n.lit.getLsbD 10 then v 0x0D7 + a else v 0x0D7 + a * rowElems n.ty + b) % 2 ^ tyWidth n.ty
      MakesTile s (.tiota n) 0x0D7 n tid out 0 (2 + 8 * h) unitVector (8 * h) fun e => loadedMeta tid e out) ∧
    (ready 0x0D3 unitConv → from_ 0x0D3 → isElem l n.ty = true →
      ∀ rt, randomTile s (firingCtx s 0x0D3 n) (n.lit.extractLsb' 10 3 == 5) = some rt →
      let k := laneCount n.ty
      let w := if tid.form = 1 then laneWidth n.ty else planesOf tid
      let rs := (List.range h).map fun i => condRow n.ty (firingCtx s 0x0D3 n).pol w (n.lit.extractLsb' 10 3).toNat (fun j => uOf rt (k * i + j))
        (rowList (tyWidth n.ty) k (l.rows.getD i 0))
      MakesTile s (.tcond n) 0x0D3 n tid (rs.map fun r => if tid.form = 1 then packLanes n.ty r.els else packPlanes w r.els)
        (rs.foldl (fun a r => a ||| r.flags)
          (emptyFlag rt ||| flagIf (emptyWithin s (firingCtx s 0x0D3 n).f l l.t.rows (k * tyWidth n.ty / 8)) flagEmptyRead))
        (6 + 2 * h * ceilDiv k 64) unitConv (2 + 2 * h * ceilDiv k 64)
        fun e => condMeta tid e rs) ∧
    (ready 0x0D4 unitConv → from_ 0x0D4 → l.t.form = 0 → ∀ rt, randomTile s (firingCtx s 0x0D4 n) (n.lit.extractLsb' 10 3 == 5) = some rt →
      let ns := rowElems l.t.fmt
      let nd := rowElems n.ty
      let out := mapElems n.ty h fun a b => if l.t.rows ≤ a ∨ ns ≤ b then ⟨0, 0⟩
        else cvtElem n.ty l.t.fmt (firingCtx s 0x0D4 n).pol (n.lit.extractLsb' 10 3).toNat (n.lit.getLsbD 13) (uOf rt (nd * a + b)) (elemOf l a b)
      MakesTile s (.tcvt n) 0x0D4 n tid out.1 (out.2 ||| emptyFlag ([l] ++ rt)) (4 + h * ceilDiv (max ns nd) 64) unitConv (h * ceilDiv (max ns nd) 64)
        fun e => loadedMeta tid e out.1) ∧
    (ready 0x0D2 unitVector → from_ 0x0D2 → viewable → ceilDiv h 4 = l.e.pages.length → l.e.ref ≠ 1 →
      let rows := (tileRows (firedPE s s) l.e h).1
      MakesTile s (.tview n) 0x0D2 n tid rows (emptyFlag [l]) (2 + 8 * h) unitVector (8 * h)
        fun e => loadedMeta tid e rows) ∧
    (performs s 0x0D2 n = true → unitFree s s.cur unitVector = true → from_ 0x0D2 → viewable → ceilDiv h 4 = l.e.pages.length → l.e.ref = 1 →
      let rows := (tileRows (firedPE s s) l.e h).1
      ∃ t : State, exec (.tview n) s = .next t ∧ handleAt (firedPE s t) l.hidx = loadedMeta tid l.e rows ∧ (firedPE s t).tile = (firedPE s s).tile ∧
        Issues s t (itemOf s 0x0D2 n (2 + 8 * h) (toUsed n .handle (handleWord l.hidx tid.tid l.e.gen)) (dropsOf s 0x0D2 n)
          (emptyFlag [l])) ∧ ∀ a, memByte t a = memByte s a)

/-- R262, R336, R342 to R344, R354: acc.new takes the lowest free entry, CLEAR and not sealed, of the literal's MODE; acc.zero sets CLEAR again and empties the lists; acc.free
is to free its entry whatever its REF; acc.get reads one entry of a MODE 0 or 1 accumulator in its type, and the key or the index of one place of a list; acc.drain writes, for each row of the literal's
TID and each of 16 columns, the entry converted to TYPE, into a new tile whose handle follows after 20 cycles.
That the contents and the CLEAR and SEALED bits stand changed in the state right after issue is the model's choice (log 29: R345 only orders the firings). -/
def Obligations.AccumulatorsMadeReadAndDrained : Prop :=
  (∀ (s : State) (n : Node),
    let mode := (n.lit.extractLsb' 0 2).toNat
    let km1 := (n.lit.extractLsb' 4 6).toNat
    let lAcc (code : Nat) : Nat × HEntry := accIn s (firingCtx s code n) .l
    let idle (code : Nat) : Prop := performs s code n = true ∧ accBusy (firedPE s s) [(lAcc code).1] = false
    let item (code lat : Nat) (es : List Emit) (fx : List Effect) (fl : BitVec 9) (ws : List Nat) : Issued :=
      { itemOf s code n lat es (fx ++ dropsOf s code n) fl with writes := ws }
    (performs s 0x100 n = true → (∀ e0, (allocAcc s (firingCtx s 0x100 n).f (if mode = 2 ∧ 32 ≤ km1 then 2 else 1) e0).isSome) →
      ∃ t : State, ∃ (h : Nat), exec (.accNew n) s = .next t ∧ freeHandle (firedPE s s) = some h ∧
        (let e := handleAt (firedPE s t) h
         e.kind = .acc ∧ e.mode = mode ∧ e.clear = true ∧ e.isSealed = false ∧ e.pruned = 0 ∧ e.ref = 0 ∧ e.gen = (handleAt (firedPE s s) h).gen ∧
         (mode = 2 → e.km1 = km1 ∧ e.keyType = keyTypeOf (n.lit.extractLsb' 2 2).toNat) ∧
         (n.lit.getLsbD 10 = true → ((n.lit.extractLsb' 11 2).toNat, { hidx := h, gen := e.gen : Binding }) ∈ (firedPE s t).prune) ∧
         Issues s t (item 0x100 1 (toUsed n .handle (handleWord h 0 e.gen)) [.produced h] 0 [])) ∧ ∀ a, memByte t a = memByte s a) ∧
    (idle 0x101 → ∃ t : State, exec (.accZero n) s = .next t ∧
      handleAt (firedPE s t) (lAcc 0x101).1 = { (lAcc 0x101).2 with clear := true, isSealed := false, pruned := 0, count := [] } ∧
      Issues s t (item 0x101 1 (passHandle (firingCtx s 0x101 n) .l) [] 0 [(lAcc 0x101).1]) ∧ ∀ a, memByte t a = memByte s a) ∧
    (idle 0x102 → ∃ t : State, exec (.accFree n) s = .next t ∧ OnlyIssues s t ∧
      Issues s t (item 0x102 1 [] [.freeEntry (lAcc 0x102).1 (lAcc 0x102).2.gen] 0 [(lAcc 0x102).1])) ∧
    (idle 0x103 → (lAcc 0x103).2.mode ≠ 2 → n.lit.getLsbD 8 = false → (rWord (firingCtx s 0x103 n)).toNat < 256 →
      let ft := tyOfCode (n.lit.extractLsb' 0 4).toNat
      let r := accConvert ft (firingCtx s 0x103 n).pol (n.lit.extractLsb' 4 3).toNat 0 (n.lit.getLsbD 7)
        ((accEntries (firedPE s s) (lAcc 0x103).2).getD (rWord (firingCtx s 0x103 n)).toNat ⟨0, 0, false⟩)
      ∃ t : State, exec (.accGet n) s = .next t ∧ OnlyIssues s t ∧ Issues s t (item 0x103 4 (toUsed n .value (extend ft r.val)) [] r.flags [])) ∧
    (idle 0x103 → (lAcc 0x103).2.mode = 2 → (rWord (firingCtx s 0x103 n)).toNat < 1024 →
      let sel := rWord (firingCtx s 0x103 n)
      let place := (sel.extractLsb' 4 6).toNat
      let kt := tyOfCode (lAcc 0x103).2.keyType
      place ≤ (lAcc 0x103).2.km1 →
      ∃ t : State, exec (.accGet n) s = .next t ∧ OnlyIssues s t ∧ Issues s t (item 0x103 4
        (match ((accLists (firedPE s s) (lAcc 0x103).2).getD (sel.extractLsb' 0 4).toNat [])[place]? with
         | none => toUsed n .null 0
         | some x => toUsed n .value (if n.lit.getLsbD 8 then BitVec.ofNat 64 x.2 else extend kt (valOfKey kt x.1))) [] 0 []))) ∧
  (∀ (s : State) (n : Node) (tid : TidEntry) (rt : List TileIn),
    let c := firingCtx s 0x107 n
    let e := (accIn s c .l).2
    let mode := (n.lit.extractLsb' 0 3).toNat
    performs s 0x107 n = true → accBusy (firedPE s s) [(accIn s c .l).1] = false → e.mode ≠ 2 →
    tidEntry s s.cur.vf (n.lit.extractLsb' 4 10).toNat = some tid → randomTile s c (mode == 5) = some rt →
    tileReady s c unitAccPort tid.tid tid.rows = true →
    let rs := (List.range tid.rows).map fun i => (List.range 16).map fun j => accConvert n.ty c.pol mode (uOf rt (16 * i + j)) (n.lit.getLsbD 3)
      ((accEntries (firedPE s s) e).getD (16 * i + j) ⟨0, 0, false⟩)
    let rows := rs.map fun r => packRow (tyWidth n.ty) (r.map (·.val))
    MakesTile s (.accDrain n) 0x107 n tid rows (rs.flatten.foldl (fun a r => a ||| r.flags) (emptyFlag rt)) 20 unitAccPort 16 fun x => loadedMeta tid x rows)

/-- R258, R335, R336, R346 to R348, R362: an mma whose checks pass merges, for every i and j, the dot product of row i of A and column j of B at the sum of their exponents
into entry 16i + j, which becomes NaN, and raises INVALID, where a row or column of it is flagged; the other flags are those of the merges; the array is held eight cycles a step, the references of both tiles drop when it has
read them, and the accumulator's handle follows six cycles later. Entries read back whose exponent fits 32 bits. An mma with PRUNE whose bound cannot enter any list of its binding is skipped after two cycles: no entry
changes, the rows are marked pruned and the accumulator is sealed. That the accumulator's contents and its CLEAR and SEALED bits are the new ones in the
state right after issue is the model's choice (log 29: R345 only orders the firings that name it). -/
def Obligations.MmaMergesDotProducts : Prop :=
  (∀ (s : State) (n : Node) (l r : TileIn),
    let c := firingCtx s 0x104 n
    let p := firedPE s s
    let h := (accIn s c .p).1
    let e := (accIn s c .p).2
    let prune := n.lit.getLsbD 0
    let entry (i j : Nat) : AccEntry × BitVec 9 :=
      let x := (accEntries p e).getD (16 * i + j) ⟨0, 0, false⟩
      if affectedAt l r i j then ({ x with nan := true }, flagInvalid)
      else accMerge (e.mode == 1) e.clear x [(dot (aRow l i) (bCol r j), blockExp l r i j)]
    let flags := (List.range 256).foldl (fun a k => a ||| (entry (k / 16) (k % 16)).2) 0 ||| emptyFlag [l, r]
    let bound := if prune then boundList p (n.lit.extractLsb' 1 2).toNat else none
    performs s 0x104 n = true → tileIn s c .l = some l → tileIn s c .r = some r → accBusy p (h :: (bound.map (·.1)).toList) = false →
    mmaReason l r e prune = none → (∀ b, bound = some b → pruneTest p l r b.2 = false) → arrayFree s s.cur = true →
    ∃ t : State, exec (.mma n) s = .next t ∧
      (∀ i j, i < 16 → j < 16 →
        let y := (entry i j).1
        0 ≤ y.exp + 2 ^ 31 → y.exp < 2 ^ 31 → (accEntries (firedPE s t) (handleAt (firedPE s t) h))[16 * i + j]? = some y) ∧
      (handleAt (firedPE s t) h).clear = false ∧ (handleAt (firedPE s t) h).isSealed = (prune || e.isSealed) ∧
      sget 0 (firedPE s t).units unitArray = cycleOf s s.cur.bh + 8 * arraySteps l ∧
      Issues s t { itemOf s 0x104 n (8 * arraySteps l + 6) (passHandle c .p) (operandDrop n c.f .p) flags with writes := [h] } ∧
      (firedPE s t).reads = p.reads ++ tileReads n c.f (cycleOf s s.cur.bh + 8 * arraySteps l) ∧
      t.regs = s.regs ∧ ∀ a, memByte t a = memByte s a) ∧
  (∀ (s : State) (n : Node) (l r : TileIn) (b : Nat × HEntry),
    let c := firingCtx s 0x104 n
    let p := firedPE s s
    let h := (accIn s c .p).1
    let e := (accIn s c .p).2
    performs s 0x104 n = true → tileIn s c .l = some l → tileIn s c .r = some r → n.lit.getLsbD 0 = true →
    boundList p (n.lit.extractLsb' 1 2).toNat = some b → accBusy p [h, b.1] = false → mmaReason l r e true = none → pruneTest p l r b.2 = true →
    ∃ t : State, exec (.mma n) s = .next t ∧ (firedPE s t).acc = p.acc ∧ (handleAt (firedPE s t) h).isSealed = true ∧
      (∀ i < 16, (handleAt (firedPE s t) h).pruned.getLsbD i = (e.pruned.getLsbD i || decide (i < l.t.rows))) ∧
      Issues s t { itemOf s 0x104 n 2 (passHandle c .p) (dropsOf s 0x104 n) 0 with writes := [h] } ∧ ∀ a, memByte t a = memByte s a)

/-- R272, R312, R330, R336, R349 to R351, R353: firings that issue and wait. On the leader's side mma.pair waits for its follower's message with its own sums, on the follower's side it emits a null token and
sends its sums, or BROKEN where its PE was frozen while it stood matched; smma waits for its coordinate
tokens; a trng allocates its tile as it issues and waits in arrival order at its slot's generator (what ends each wait: PairsBarriersAndGenerators).
That a class 4 firing raises EMPTY_READ for the empty granules of its operand tiles (emptyFlag) is the model's choice (log 34). -/
def Obligations.FiringsThatWait : Prop :=
  ∀ (s : State) (n : Node) (l r : TileIn),
    let c := firingCtx s 0x105 n
    let d := firingCtx s 0x106 n
    let p := firedPE s s
    let steps := arraySteps l
    (s.cur.pe % 2 = 0 → performs s 0x105 n = true → tileIn s c .l = some l → tileIn s c .r = some r → accBusy p [(accIn s c .p).1] = false →
      mmaReason l r (accIn s c .p).2 false = none → arrayFree s s.cur = true →
      ∃ t : State, exec (.mmaPair n) s = .next t ∧ (firedPE s t).acc = p.acc ∧
        Issues s t { itemOf s 0x105 n (8 * steps + 6) [] (dropsOf s 0x105 n) (emptyFlag [l, r]) with
          wait := .pair (blockSums l r) (n.lit.extractLsb' 0 12).toNat ((getSlot s s.cur.bh (slotOf s.cur.pe)).resCycles + 8 * steps),
          writes := [(accIn s c .p).1] } ∧ ∀ a, memByte t a = memByte s a) ∧
    (s.cur.pe % 2 = 1 → ∀ o, opInfo 0x105 = some o →
      let f := applyEpass { o with kp := .trigger } n s.cur
      let x : Ctx := { f := f, n := n, code := 0x105, pol := firingPolicy s s.cur }
      verdict s { o with kp := .trigger } n f = .perform → accHeld p f = false → tileIn s x .l = some l → tileIn s x .r = some r → tileReason l r = none →
      linkRoom s s.cur.bh s.cur.pe = true → arrayFree s s.cur = true →
      ∃ t : State, exec (.mmaPair n) s = .next t ∧
        Issues s t { itemOf s 0x105 n (8 * steps + 22) (toUsed n .null 0)
          (operandDrops n f ++ [.pairSend (s.cur.pe - 1) (if s.cur.broken then none else some (blockSums l r))]) (emptyFlag [l, r]) with f := f } ∧
        ∀ a, memByte t a = memByte s a) ∧
    (performs s 0x106 n = true → tileIn s d .l = some l → tileIn s d .r = some r → accBusy p [(accIn s d .p).1] = false →
      mmaReason l r (accIn s d .p).2 false = none → arrayFree s s.cur = true → (∀ q ∈ p.coord, q.node ≠ s.cur.node ∨ q.fp ≠ s.cur.fp) →
      ∃ t : State, exec (.smma n) s = .next t ∧
        Issues s t { itemOf s 0x106 n 0 [] (operandDrop n d.f .p) (emptyFlag [l, r]) with
          wait := .coord [] (cycleOf s s.cur.bh), writes := [(accIn s d .p).1] } ∧
        ∀ a, memByte t a = memByte s a) ∧
    (performs s 0x0D5 n = true → ∀ tid, tidEntry s s.cur.vf (n.lit.extractLsb' 0 10).toNat = some tid →
      (allocTile s (firingCtx s 0x0D5 n).f s.cur.pe tid.tid tid.rows true).isSome →
      ∃ t : State, ∃ (h : Nat), exec (.trng n) s = .next t ∧ freeHandle p = some h ∧ (handleAt (firedPE s t) h).pend = true ∧
        (handleAt (firedPE s t) h).tid = tid.tid ∧
        (getSlot t s.cur.bh (slotOf s.cur.pe)).rngQueue = (getSlot s s.cur.bh (slotOf s.cur.pe)).rngQueue ++ [(s.cur.pe, s.nextId)] ∧
        Issues s t { itemOf s 0x0D5 n 130 (toUsed n .handle (handleWord h tid.tid (handleAt p h).gen)) ([.produced h] ++ dropsOf s 0x0D5 n) 0 with
          wait := .rng } ∧ ∀ a, memByte t a = memByte s a)

/-- R355 to R360: acc.rl, rl.ins and rl.merge offer their values to the lists of a MODE 2 accumulator: list i becomes its entries with each pair of row i inserted in
turn, NaNs apart; the list unit is held and the handle passed on; the flags are those of the conversions, NAN_DROPPED for each NaN, NONCANON for a t2
pattern 2 and EMPTY_READ of the tile read. rl.out writes one part of the lists to a tile, and rl.thr emits a list's threshold.
That the lists stand changed in the state right after issue is the model's choice (log 29: R345 only orders the firings that name the accumulator). -/
def Obligations.RankedListInstructions : Prop :=
  ∀ (s : State) (n : Node) (b : TileIn),
    let p := firedPE s s
    let ctx (code : Nat) : Ctx := firingCtx s code n
    let inserts (i : Instr) (code : Nat) (q : Port) (lat : Nat) (offers : List (List (Nat × Nat))) (flags : List (BitVec 9)) : Prop :=
      unitFree s s.cur unitList = true →
      let h := (accIn s (ctx code) q).1
      let e := (accIn s (ctx code) q).2
      let ls := (offers.zipIdx).foldl (fun a x => insertAll (e.km1 + 1) a x.2 x.1) (accLists p e)
      ∃ t : State, exec i s = .next t ∧ (firedPE s t).acc = (listsStore p h ls).acc ∧ (handleAt (firedPE s t) h).count = ls.map List.length ∧
        (handleAt (firedPE s t) h).clear = false ∧ sget 0 (firedPE s t).units unitList = cycleOf s s.cur.bh + (lat - 4) ∧
        Issues s t { itemOf s code n lat (passHandle (ctx code) q) (dropsOf s code n) (flags.foldl (fun a b => a ||| b) 0) with writes := [h] } ∧ ∀ a, memByte t a = memByte s a
    (performs s 0x108 n = true → tileIn s (ctx 0x108) .r = some b → (accIn s (ctx 0x108) .l).2.mode ≠ 2 → (accIn s (ctx 0x108) .p).2.mode = 2 →
      (accIn s (ctx 0x108) .p).2.keyType = tyCode n.ty → accBusy p [(accIn s (ctx 0x108) .l).1, (accIn s (ctx 0x108) .p).1] = false →
      let el := (accIn s (ctx 0x108) .l).2
      let x (i j : Nat) : AccEntry := (accEntries p el).getD (16 * i + j) ⟨0, 0, false⟩
      let v (i j : Nat) : FloatRes := accConvert n.ty (ctx 0x108).pol (n.lit.extractLsb' 0 3).toNat 0 true (x i j)
      let columns := List.range (min 16 b.t.rows)
      inserts (.accRl n) 0x108 .p (6 + max 1 b.t.rows)
        ((List.range 16).map fun i => if el.pruned.getLsbD i then [] else
          columns.filterMap fun j => if (x i j).nan then none else some (keyOf n.ty (v i j).val, (b.t.ibase.toNat + j) % 2 ^ 32))
        ((List.range 16).flatMap fun i => if el.pruned.getLsbD i then [] else
          columns.map fun j => if (x i j).nan then flagNanDropped else (v i j).flags)) ∧
    (performs s 0x109 n = true → tileIn s (ctx 0x109) .l = some b → b.t.form = 0 → (n.lit.extractLsb' 0 10).toNat + 1 ≤ rowElems b.t.fmt →
      (accIn s (ctx 0x109) .r).2.mode = 2 → (accIn s (ctx 0x109) .r).2.keyType = tyCode n.ty → accBusy p [(accIn s (ctx 0x109) .r).1] = false →
      let ncol := (n.lit.extractLsb' 0 10).toNat + 1
      let isNan (i j : Nat) : Bool := tyFloat b.t.fmt && (floatDecode b.t.fmt (elemOf b i j)).isNan
      let v (i j : Nat) : FloatRes := keyConvert n.ty b.t.fmt (ctx 0x109).pol (n.lit.extractLsb' 10 3).toNat (elemOf b i j)
      let odd (i j : Nat) : BitVec 9 := if b.t.fmt = .t2 ∧ elemOf b i j % 4 = 2 then flagNoncanon else 0
      inserts (.rlIns n) 0x109 .r (6 + ncol)
        ((List.range b.t.rows).map fun i => (List.range ncol).filterMap fun j =>
          if isNan i j then none else some (keyOf n.ty (v i j).val, (b.t.ibase.toNat + j) % 2 ^ 32))
        (emptyFlag [b] :: (List.range b.t.rows).flatMap fun i => (List.range ncol).map fun j =>
          if isNan i j then flagNanDropped else (v i j).flags ||| odd i j)) ∧
    (performs s 0x10A n = true → tileIn s (ctx 0x10A) .l = some b → b.t.form = 3 → (accIn s (ctx 0x10A) .r).2.mode = 2 → b.e.keyType = tyCode n.ty →
      (accIn s (ctx 0x10A) .r).2.keyType = tyCode n.ty → accBusy p [(accIn s (ctx 0x10A) .r).1] = false →
      inserts (.rlMerge n) 0x10A .r (6 + max 1 (listMax b.e.count)) ((b.rows.zipIdx).map fun (row, i) =>
        (List.range (b.e.count.getD i 0)).map fun j => (bits row (64 * j) 64, bits row (2048 + 32 * j) 32)) [emptyFlag [b]]) ∧
    (performs s 0x10B n = true → ∀ tid, tidEntry s s.cur.vf (n.lit.extractLsb' 0 10).toNat = some tid → (accIn s (ctx 0x10B) .l).2.mode = 2 →
      (accIn s (ctx 0x10B) .l).2.keyType = tyCode n.ty → accBusy p [(accIn s (ctx 0x10B) .l).1] = false →
      tileReady s (ctx 0x10B) unitList tid.tid tid.rows = true → tid.rows = 16 →
      let e := (accIn s (ctx 0x10B) .l).2
      let part := (n.lit.extractLsb' 10 1).toNat
      let ls := (accLists p e).map fun x => (x.drop (32 * part)).take 32
      MakesTile s (.rlOut n) 0x10B n tid
        (ls.map fun x => packRow 64 ((List.range 32).map fun j => (x.getD j (0, 0)).1) +
          packRow 32 ((List.range 32).map fun j => (x.getD j (0, 0xFFFFFFFF)).2) * 2 ^ 2048) 0 20 unitList 16
        fun x => { x with tid := tid.tid, rexp := [], cexp := [], rflag := 0, cflag := 0, bound := 0, part := part, km1 := e.km1, keyType := e.keyType,
                          count := ls.map List.length }) ∧
    (performs s 0x10C n = true → (accIn s (ctx 0x10C) .l).2.mode = 2 → (accIn s (ctx 0x10C) .l).2.keyType = tyCode n.ty →
      accBusy p [(accIn s (ctx 0x10C) .l).1] = false →
      let k := (accIn s (ctx 0x10C) .l).2.km1 + 1
      let x := (accLists p (accIn s (ctx 0x10C) .l).2).getD (n.lit.extractLsb' 0 4).toNat []
      let v : Word := if n.lit.getLsbD 4 then BitVec.ofNat 64 (listTheta k x)
        else extend n.ty (if x.length = k then valOfKey n.ty (listTheta k x) else leastOf n.ty)
      ∃ t : State, exec (.rlThr n) s = .next t ∧ OnlyIssues s t ∧ Issues s t (itemOf s 0x10C n 2 (toUsed n .value v) (dropsOf s 0x10C n) 0))

/-- R76, R116 to R119, R160, R162, R185 to R187: with a free fetch tag, ld, ldt and tld complete at issue by sending a request for their bytes at l, at l + r * n, or
for 512 bytes a row; bytes that the PE's own pending stores hold come from them. A load of an element that they supply whole is answered with its little-endian
value, extended, one cycle later. tld fills a new tile; one that they supply whole asks memory for nothing. -/
def Obligations.NodeLoadsAreSent : Prop :=
  ∀ (s : State) (n : Node), tagRoom s s.cur = true →
    let elem (i : Instr) (code va mode : Nat) : Prop := performs s code n = true →
      let v := extend n.ty (leNat (sgets 0 (ownSupply s va (tyBytes n.ty)) 0 (tyBytes n.ty)))
      ((ownSupply s va (tyBytes n.ty)).length ≠ tyBytes n.ty → ∃ t : State, exec i s = .next t ∧ LoadSent s t code n va (tyBytes n.ty) mode) ∧
      ((ownSupply s va (tyBytes n.ty)).length = tyBytes n.ty → launchGoesOn s → ∃ t : State, ∃ (it : Issued), exec i s = .next t ∧ t.reqs = s.reqs ∧
        (firedPE s t).issued = (firedPE s s).issued ++ [it] ∧ it.due = cycleOf s s.cur.bh + 1 ∧
        it.emits = (resolvedDests s code n).map (fun d => Emit.mk (.fixed d) .value v false) ∧
        t.regs = s.regs ∧ ∀ a, memByte t a = memByte s a)
    elem (.ld n) 0x140 (payloadAt (firingCtx s 0x140 n).f .l).toNat 2 ∧
    elem (.ldt n) 0x142 (indexedAddr n (firingCtx s 0x142 n)) (n.lit.extractLsb' 0 2).toNat ∧
    (∀ tid, performs s 0x144 n = true → tidEntry s s.cur.vf (n.lit.extractLsb' 0 10).toNat = some tid →
      (allocTile s (firingCtx s 0x144 n).f s.cur.pe tid.tid tid.rows true).isSome →
      ∃ t : State, ∃ (h : Nat), exec (.tld n) s = .next t ∧ LoadSent s t 0x144 n (payloadAt (firingCtx s 0x144 n).f .l).toNat (512 * tid.rows) 2 ∧
        freeHandle (firedPE s s) = some h ∧ (handleAt (firedPE s t) h).kind = .tile ∧ (handleAt (firedPE s t) h).pend = true ∧
        (handleAt (firedPE s t) h).tid = tid.tid)

/-- R160, R162, R164, R165, R166, R185, R188: st, stt and tst COMPLETE at issue by becoming pending stores, which is the effect that R160 gives a node store. exec answers a next state
wherever the cistern entries can be taken: an st or stt is then one pending store of its element's little-endian bytes, and a tst one of its tile's first row, in
its group's phase, with its frame's wave and its LSID; it counts for its wave; its request to be translated stands at the well; and it is among the stores that
supply the PE's later loads of that phase. On its PE the firing has left the ready queue (a tst holds a fetch tag); no other PE, no register, no byte of memory and
no older store changes. A store that finds no entry while its group's stores fail, or that the event of R166 has failed, completes without storing: a CISTERN_FULL error
to its destination, or to the graph's sink where it has none, and it counts for its wave all the same. -/
def Obligations.NodeStoresStayPending : Prop :=
  (∀ (s : State) (n : Node) (g : Placed), cfgAt s s.cur.cfg = some g → s.cur.fails = false →
    let lsid := (n.lit.extractLsb' 11 5).toNat
    let phase := accessPhase g s.cur.pe
    let pends (t : State) (p : PStore) (va : Nat) (bytes : List Byte) : Prop :=
      p.sid = s.nextId + (if p.tag.isSome then 1 else 0) ∧ p.bh = s.cur.bh ∧ p.pe = s.cur.pe ∧ p.vf = s.cur.vf ∧ p.cfg = s.cur.cfg ∧ p.phase = phase ∧
      p.wave = s.cur.wave ∧ p.lsid = lsid ∧ p.va = va ∧ p.bytes = bytes ∧ p.parts = [] ∧ p.early = false ∧ p.leaving = none ∧
      (∀ i < bytes.length, storeByteVa p (va + i) = bytes[i]?) ∧ p ∈ supplyStores t s.cur.bh s.cur.pe s.cur.cfg phase t.nextId ∧
      (∃ r ∈ t.reqs, r.owner = .store p.sid ∧ r.va = va ∧ r.len = bytes.length ∧ r.write = true ∧ r.data = bytes ∧ r.vf = s.cur.vf ∧ r.st = .atWell) ∧
      (∃ g', cfgAt t s.cur.cfg = some g' ∧ (s.cur.wave, lsid) ∈ g'.waveSeen ∧ g'.boundary = g.boundary ∧ g'.arrivals = g.arrivals)
    let rest (t : State) : Prop := t.regs = s.regs ∧ t.cmds = s.cmds ∧ t.flights = s.flights ∧ (∀ a, memByte t a = memByte s a) ∧
      (∀ b pe, peKey b pe ≠ peKey s.cur.bh s.cur.pe → getPE t b pe = getPE s b pe)
    let pending (i : Instr) (code va : Nat) (bytes : List Byte) : Prop :=
      performs s code n = true → (cistTake s s.cur (cistEntries va bytes.length)).isSome →
      ∃ t : State, ∃ (p : PStore), exec i s = .next t ∧ t.stores = s.stores ++ [p] ∧ p.tag = none ∧ pends t p va bytes ∧ rest t ∧
        firedPE s t = { firedPE s s with ready := (firedPE s s).ready.erase s.cur, issueAt := cycleOf s s.cur.bh + 1 }
    pending (.st n) 0x141 (payloadAt (firingCtx s 0x141 n).f .l).toNat (leBytes (tyBytes n.ty) (rWord (firingCtx s 0x141 n)).toNat) ∧
    pending (.stt n) 0x143 (indexedAddr n (firingCtx s 0x143 n)) (leBytes (tyBytes n.ty) (payloadAt (firingCtx s 0x143 n).f .p).toNat) ∧
    (performs s 0x145 n = true → n.litr = false → tagRoom s s.cur = true →
      let c := firingCtx s 0x145 n
      let va := (payloadAt c.f .r).toNat
      let e := handleAt (firedPE s s) (handleIdx (payloadAt c.f .l))
      0 < tileHeight s s.cur.vf e → (cistTake s s.cur (cistEntries va 512)).isSome →
      ∃ t : State, ∃ (p : PStore) (tag : Tag), exec (.tst n) s = .next t ∧ (∃ more, t.stores = s.stores ++ p :: more) ∧ p.tag = some s.nextId ∧
        pends t p va (rowBytes (firedPE s s) e.pages 0) ∧ rest t ∧ tag.id = s.nextId ∧ tag.st = .issued ∧ tag.code = 0x145 ∧ tag.node = n ∧ 0 < tag.row ∧
        firedPE s t = { firedPE s s with ready := (firedPE s s).ready.erase s.cur, issueAt := cycleOf s s.cur.bh + 1, fetch := (firedPE s s).fetch ++ [tag] })) ∧
  (∀ (s : State) (n : Node),
    let lsid := (n.lit.extractLsb' 11 5).toNat
    let fails (va len : Nat) : Prop := s.cur.fails = true ∨ ((cistTake s s.cur (cistEntries va len)).isNone ∧ failing s s.cur = true)
    let storesNothing (i : Instr) (code va len : Nat) : Prop := performs s code n = true → fails va len →
      let e := newError (waveMark s s.cur lsid) (peSrc s.cur.bh s.cur.pe) 0x15
      e.1.toNat % 256 = 0x15 ∧ ∃ t : State, exec i s = .next t ∧ OnlyIssues e.2 t ∧
        Issues s t (outcomeOf s code n (toUsed n .err e.1) (dropsOf s code n ++ if usedDests n = [] then [.sinkErr e.1] else [])) ∧
        ∀ g, cfgAt s s.cur.cfg = some g → ∃ g', cfgAt t s.cur.cfg = some g' ∧ (s.cur.wave, lsid) ∈ g'.waveSeen
    storesNothing (.st n) 0x141 (payloadAt (firingCtx s 0x141 n).f .l).toNat (tyBytes n.ty) ∧
    storesNothing (.stt n) 0x143 (indexedAddr n (firingCtx s 0x143 n)) (tyBytes n.ty) ∧
    storesNothing (.tst n) 0x145 (rWord (firingCtx s 0x145 n)).toNat 512)

/-- R58, R59, R192 to R194: talloc makes an empty tile with BOUND +Inf and PEND 0; tref adds its count to REF and passes the handle on, or gives REF_OVERFLOW where that
passes 255; trel drops its count of references beside the one it consumed. -/
def Obligations.TileReferences : Prop :=
  ∀ (s : State) (n : Node),
    (∀ tid, performs s 0x146 n = true → tidEntry s s.cur.vf (n.lit.extractLsb' 0 10).toNat = some tid →
      (allocTile s (firingCtx s 0x146 n).f s.cur.pe tid.tid tid.rows false).isSome →
      ∃ t : State, ∃ (h : Nat), exec (.talloc n) s = .next t ∧ freeHandle (firedPE s s) = some h ∧
        (let e := handleAt (firedPE s t) h
         e.kind = .tile ∧ e.tid = tid.tid ∧ e.pend = false ∧ e.bound = 0x7F800000#32 ∧ e.rexp = [] ∧ e.cexp = [] ∧ e.rflag = 0 ∧ e.cflag = 0 ∧
         (∀ g ∈ e.pages, sgets false (firedPE s t).full (128 * g) 128 = List.replicate 128 false) ∧
         Issues s t (itemOf s 0x146 n 1 (toUsed n .handle (handleWord h tid.tid e.gen)) (dropsOf s 0x146 n ++ [.produced h]) 0)) ∧
        ∀ a, memByte t a = memByte s a) ∧
    (performs s 0x147 n = true →
      let v := payloadAt (firingCtx s 0x147 n).f .l
      let e := handleAt (firedPE s s) (handleIdx v)
      let count := if n.litr then (n.lit.extractLsb' 0 8).toNat else (payloadAt (firingCtx s 0x147 n).f .r).toNat
      (count ≤ 255 → e.ref + count + (usedDests n).length ≤ 255 →
        ∃ t : State, exec (.tref n) s = .next t ∧ handleAt (firedPE s t) (handleIdx v) = { e with ref := e.ref + count } ∧
          Issues s t (itemOf s 0x147 n 1 (toUsed n .handle v) (dropsOf s 0x147 n) 0) ∧ t.regs = s.regs ∧ ∀ a, memByte t a = memByte s a) ∧
      (255 < count ∨ 255 < e.ref + count + (usedDests n).length →
        ∃ t : State, ∃ (x : Word), exec (.tref n) s = .next t ∧ x.toNat % 256 = 0x06 ∧ handleAt (firedPE s t) (handleIdx v) = e ∧
          Issues s t (outcomeOf s 0x147 n (toUsed n .err x) (dropsOf s 0x147 n ++ if usedDests n = [] then [.sinkErr x] else [])))) ∧
    (performs s 0x148 n = true →
      let v := payloadAt (firingCtx s 0x148 n).f .l
      CompletesWith s (.trel n) 0x148 n 1 [] (dropsOf s 0x148 n ++ [.drop (handleIdx v) (handleGen v) (n.lit.extractLsb' 0 8).toNat]) 0)

/-- R126, R174, R176, R209, R210: an aligned atom.* or red.* sends one request of its width to l with its operation; with REL within the VF's cap it waits for the
writes already on their way at that scope. An atom takes a fetch tag and a red none. An unaligned address gives ALIGN before anything is sent.
That REL waits for exactly releaseSet (log 12), and that ALIGN is judged before the scope (log 37), are the model's choices. -/
def Obligations.AtomicsAreSent : Prop :=
  ∀ (s : State) (n : Node),
    let scope := (n.lit.extractLsb' 8 3).toNat
    let waits := if n.lit.getLsbD 7 then releaseSet s s.cur.vf scope else []
    let sent (t : State) (code op : Nat) (red : Bool) (owner : Owner) : Prop :=
      let c := firingCtx s code n
      ∃ (r : Req), t.reqs = s.reqs ++ [r] ∧ r.va = (payloadAt c.f .l).toNat ∧ r.len = tyBytes n.ty ∧ r.owner = owner ∧ r.waitFor = waits ∧ r.st = .atWell ∧
        r.atom = some { op := op, ty := n.ty, operand := rWord c, cmp := payloadAt c.f .p, det := n.lit.getLsbD 6, red := red } ∧
        (firedPE s t).ready = (firedPE s s).ready.erase s.cur ∧ t.regs = s.regs ∧ ∀ a, memByte t a = memByte s a
    let skew (code : Nat) : Prop := (payloadAt (firingCtx s code n).f .l).toNat % tyBytes n.ty ≠ 0
    (n.lit.getLsbD 7 = false ∨ scopeWithin s scope →
      (∀ x ∈ [(Instr.atomAdd n, 0), (Instr.atomFadd n, 1), (Instr.atomMin n, 2), (Instr.atomMax n, 3), (Instr.atomAnd n, 4), (Instr.atomOr n, 5),
              (Instr.atomXor n, 6), (Instr.atomXchg n, 7), (Instr.atomCas n, 8)],
        performs s (0x150 + x.2) n = true → ¬skew (0x150 + x.2) → tagRoom s s.cur = true →
        ∃ t : State, ∃ (tag : Tag), exec x.1 s = .next t ∧ sent t (0x150 + x.2) x.2 false (.tag s.nextId) ∧ (firedPE s t).fetch = (firedPE s s).fetch ++ [tag] ∧
          tag.id = s.nextId ∧ tag.st = .issued ∧ tag.node = n) ∧
      (∀ x ∈ [(Instr.redAdd n, 0), (Instr.redFadd n, 1), (Instr.redMin n, 2), (Instr.redMax n, 3), (Instr.redAnd n, 4), (Instr.redOr n, 5),
              (Instr.redXor n, 6)],
        performs s (0x159 + x.2) n = true → ¬skew (0x159 + x.2) →
        ∃ t : State, exec x.1 s = .next t ∧ sent t (0x159 + x.2) x.2 true .red ∧ (firedPE s t).fetch = (firedPE s s).fetch)) ∧
    (∀ x ∈ [(Instr.atomAdd n, 0x150), (Instr.atomFadd n, 0x151), (Instr.atomMin n, 0x152), (Instr.atomMax n, 0x153), (Instr.atomAnd n, 0x154),
            (Instr.atomOr n, 0x155), (Instr.atomXor n, 0x156), (Instr.atomXchg n, 0x157), (Instr.atomCas n, 0x158), (Instr.redAdd n, 0x159),
            (Instr.redFadd n, 0x15A), (Instr.redMin n, 0x15B), (Instr.redMax n, 0x15C), (Instr.redAnd n, 0x15D), (Instr.redOr n, 0x15E),
            (Instr.redXor n, 0x15F)], performs s x.2 n = true → skew x.2 →
      ∃ t : State, ∃ (v : Word), exec x.1 s = .next t ∧ v.toNat % 256 = 0x14 ∧ t.reqs = s.reqs ∧
        Issues s t (outcomeOf s x.2 n (toUsed n .err v) (dropsOf s x.2 n ++ if usedDests n = [] then [.sinkErr v] else [])))

/-- R159 to R161, R168, R174, R175, R212, R213: with a scope within the cap, a phase firing is counted as an arrival of its node and waits for its boundary, to emit its
phase number; a fence waits for the writes on their way at its scope and then passes l's payload on, an afence also for what it published of its PE. A null l of
fence or afence gives a null token at once. That a fence waits for exactly releaseSet is the model's choice (log 12). -/
def Obligations.PhasesAndFences : Prop :=
  ∀ (s : State) (n : Node),
    let scope := (n.lit.extractLsb' 11 3).toNat
    let l (code : Nat) : Operand := lOperand (firingCtx s code n)
    (∀ g, performs s 0x160 n = true → cfgAt s s.cur.cfg = some g → scopeWithin s scope → nextPhase g s.cur.pe s.cur.node < g.boundary + 2 →
      let p := nextPhase g s.cur.pe s.cur.node
      ∃ t g', exec (.phase n) s = .next t ∧ cfgAt t s.cur.cfg = some g' ∧ g'.arrivals = g.arrivals ++ [(s.cur.pe, s.cur.node, p, scope)] ∧
        g'.boundary = g.boundary ∧ p < sget 0 g'.pePhase s.cur.pe ∧
        Issues s t { itemOf s 0x160 n 1 (toUsed n .value (BitVec.ofNat 64 p)) (dropsOf s 0x160 n) 0 with wait := .phase s.cur.cfg p } ∧
        t.regs = s.regs ∧ ∀ a, memByte t a = memByte s a) ∧
    (performs s 0x161 n = true → (l 0x161).kind = .null → CompletesWith s (.fence n) 0x161 n 1 (toUsed n .null 0) (dropsOf s 0x161 n) 0) ∧
    (performs s 0x162 n = true → (l 0x162).kind = .null → CompletesWith s (.afence n) 0x162 n 1 (toUsed n .null 0) (dropsOf s 0x162 n) 0) ∧
    (performs s 0x161 n = true → (l 0x161).kind ≠ .null → scopeWithin s scope →
      ∃ t : State, exec (.fence n) s = .next t ∧ OnlyIssues s t ∧
        Issues s t { itemOf s 0x161 n 1 (toUsed n .value (l 0x161).payload) (dropsOf s 0x161 n) 0 with wait := .reqs (releaseSet s s.cur.vf scope) }) ∧
    (performs s 0x162 n = true → (l 0x162).kind ≠ .null → scopeWithin s scope →
      (∀ p ∈ s.stores, p.bh = s.cur.bh → p.pe = s.cur.pe → p.vf = s.cur.vf → storeLive s p = true → p.parts ≠ []) →
      ∃ t : State, ∃ (it : Issued) (ids : List Nat), exec (.afence n) s = .next t ∧ (firedPE s t).issued = (firedPE s s).issued ++ [it] ∧ it.due = cycleOf s s.cur.bh + 1 ∧
        it.emits = toUsed n .value (l 0x162).payload ∧ it.effects = dropsOf s 0x162 n ∧ it.flags = 0 ∧ it.wait = .reqs ids ∧
        (∀ k ∈ releaseSet s s.cur.vf scope, k ∈ ids) ∧ (firedPE s t).phys = true ∧
        (∀ p ∈ t.stores, p.bh = s.cur.bh → p.pe = s.cur.pe → p.parts ≠ [] → (∃ g ∈ s.cfgs, g.id = p.cfg ∧ g.bh = s.cur.bh ∧ g.vf = s.cur.vf) → p.early = true))

/-- R121, R173, R174, R183, R189, R195, R196, R202 to R208: the seven commands of pumps, gather engines and affine generators COMPLETE at issue by standing in their engine's order: R202
makes that the firing's whole effect, and the engine does the rest (EngineCommandsComplete). exec answers a next state wherever the engine has room and, for
pump.get and gather, the tile can be made: the command stands there with its destinations resolved, its scope and what it waits for. An engine at rest starts it
at once; with no acq to wait for it then sends its rows: get and gather reads, put and scatter writes of the tile's bytes, a stream its first element. Command
ids below the next id are an invariant (InvariantKept). That rel and acq wait for exactly releaseSet (log 12), and which bytes a command reads as it begins (log 38), are
the model's choices. -/
def Obligations.EngineCommandsEntered : Prop :=
  ∀ (s : State) (n : Node),
    let scope := (n.lit.extractLsb' 11 3).toNat
    let synced : Bool := n.lit.getLsbD 14 || n.lit.getLsbD 15
    let waits := if synced then releaseSet s s.cur.vf scope else []
    let atRest (a : Agent) : Prop := agentCmds s a = [] ∧ standsIn s s.cur.bh s.cur.pe s.cur.vf = true ∧ masterFrozen s (agentMaster a).1 (agentMaster a).2 = false
    let goes : Prop := n.lit.getLsbD 14 = false ∨ waits = []
    let entered (t : State) (f : Firing) (code : Nat) (a : Agent) : Prop :=
      (∃ k ∈ t.cmds, k.id = s.nextId ∧ k.code = code ∧ k.agent = a ∧ k.f = f ∧ k.node = n ∧ k.scope = (if synced then scope else 0) ∧ k.waitFor = waits ∧
        k.dests = [n.d0, n.d1].map (fun d => d.map fun x => (resolveDest (firedPE s s) f x 0 0).1) ∧
        (atRest a → k.started = true ∧ (goes → k.begun = true) ∧ (¬goes → k.begun = false))) ∧
      ∀ k ∈ s.cmds, ∃ k' ∈ t.cmds, k'.id = k.id ∧ k'.code = k.code ∧ k'.f = k.f
    let rest (t : State) : Prop := Leaves s t ∧ t.regs = s.regs ∧ t.flights = s.flights ∧ t.stores = s.stores ∧ ∀ a, memByte t a = memByte s a
    let row (t : State) (i va len : Nat) (data : Option (List Byte)) : Prop := ∃ r ∈ t.reqs, r.owner = .cmd s.nextId i ∧ r.va = va % 2 ^ 64 ∧ r.len = len ∧
      r.vf = s.cur.vf ∧ r.st = .atWell ∧ r.write = data.isSome ∧ r.data = data.getD []
    let at_ (code : Nat) (q : Port) : Nat := (payloadAt (firingCtx s code n).f q).toNat
    let src (code : Nat) (q : Port) : HEntry := handleAt (firedPE s s) (handleIdx (payloadAt (firingCtx s code n).f q))
    let d := descOf s s.cur n
    let made (t : State) (h : Nat) (tid : TidEntry) : Prop :=
      (handleAt (firedPE s t) h).kind = .tile ∧ (handleAt (firedPE s t) h).pend = true ∧ (handleAt (firedPE s t) h).tid = tid.tid
    PackageInv s → (synced = false ∨ scopeWithin s scope) →
    (∀ x ∈ [(Instr.pumpXfer n, 0x14B), (Instr.pumpMcast n, 0x14C)], performs s x.2 n = true → engineFree s (pumpOf s.cur) = true →
      ∃ t : State, exec x.1 s = .next t ∧ entered t (firingCtx s x.2 n).f x.2 (pumpOf s.cur) ∧ rest t) ∧
    (performs s 0x14A n = true → engineFree s (pumpOf s.cur) = true →
      ∃ t : State, exec (.pumpPut n) s = .next t ∧ entered t (firingCtx s 0x14A n).f 0x14A (pumpOf s.cur) ∧ rest t ∧
        (atRest (pumpOf s.cur) → goes → ∀ i < tileHeight s s.cur.vf (src 0x14A .l), rowSpoilt (firedPE s s) (src 0x14A .l) i 512 = false →
          row t i (at_ 0x14A .r + i * (if (n.lit.extractLsb' 0 10).toNat = 0 then 512 else 16 * (n.lit.extractLsb' 0 10).toNat)) 512
            (some (rowBytes (firedPE s s) (src 0x14A .l).pages i)))) ∧
    (performs s 0x14E n = true → engineFree s (gatherOf s.cur) = true →
      ∃ t : State, exec (.scatter n) s = .next t ∧ entered t (firingCtx s 0x14E n).f 0x14E (gatherOf s.cur) ∧ rest t ∧
        (atRest (gatherOf s.cur) → goes → rowSpoilt (firedPE s s) (src 0x14E .r) 0 (indexLength d) = false →
          let good := (indexRows d (bits d 96 47) (rowBytes (firedPE s s) (src 0x14E .r).pages 0) (tileHeight s s.cur.vf (src 0x14E .l))).1
          ∀ x ∈ good, rowSpoilt (firedPE s s) (src 0x14E .l) x.1 (16 * bits d 26 6) = false → row t x.1 x.2 (16 * bits d 26 6) (some ((rowBytes (firedPE s s) (src 0x14E .l).pages x.1).take (16 * bits d 26 6))))) ∧
    (∀ tid, performs s 0x149 n = true → engineFree s (pumpOf s.cur) = true → tidEntry s s.cur.vf (n.lit.extractLsb' 0 10).toNat = some tid →
      (allocTile s (firingCtx s 0x149 n).f s.cur.pe tid.tid tid.rows true).isSome →
      ∃ t : State, ∃ (h : Nat), exec (.pumpGet n) s = .next t ∧ entered t (firingCtx s 0x149 n).f 0x149 (pumpOf s.cur) ∧ rest t ∧
        freeHandle (firedPE s s) = some h ∧ (∀ k ∈ t.cmds, k.id = s.nextId → k.hidx = h) ∧
        (atRest (pumpOf s.cur) → made t h tid ∧ (goes → ∀ i < tid.rows,
          row t i (wrapNat 64 ((at_ 0x149 .l : Int) + (i : Int) * (payloadAt (firingCtx s 0x149 n).f .r).toInt)) (getLength tid) none))) ∧
    (∀ tid, performs s 0x14D n = true → engineFree s (gatherOf s.cur) = true → tidEntry s s.cur.vf (bits d 16 10) = some tid →
      (allocTile s (firingCtx s 0x14D n).f s.cur.pe tid.tid tid.rows true).isSome →
      ∃ t : State, ∃ (h : Nat), exec (.gather n) s = .next t ∧ entered t (firingCtx s 0x14D n).f 0x14D (gatherOf s.cur) ∧ rest t ∧
        freeHandle (firedPE s s) = some h ∧ (∀ k ∈ t.cmds, k.id = s.nextId → k.hidx = h) ∧
        (atRest (gatherOf s.cur) → made t h tid ∧ (goes → rowSpoilt (firedPE s s) (src 0x14D .l) 0 (indexLength d) = false →
          ∀ x ∈ (indexRows d (wrapNat 64 ((bits d 96 47 : Nat) + (payloadAt (firingCtx s 0x14D n).f .r).toInt))
            (rowBytes (firedPE s s) (src 0x14D .l).pages 0) 16).1, row t x.1 x.2 (16 * bits d 26 6) none))) ∧
    (∀ o, opInfo 0x14F = some o →
      let o1 := if bitAt d 6 then o else { o with kl := .trigger }
      let f := applyEpass o1 n s.cur
      let x := streamDelta d f
      let lo := sextInt 32 (bits d 192 32)
      verdict s o1 n f = .perform → accHeld (firedPE s s) f = false → (agentCmds s (.stream s.cur.bh s.cur.pe)).length < 4 →
      (bitAt d 6 = true → lo ≤ x + (affineExtent d).1 ∧ x + (affineExtent d).2 ≤ lo + (bits d 224 32 : Nat)) →
      ∃ t : State, exec (.stream n) s = .next t ∧ entered t f 0x14F (.stream s.cur.bh s.cur.pe) ∧ rest t ∧
        (atRest (.stream s.cur.bh s.cur.pe) → goes → row t 0 (affineAddr d x 0) (2 ^ bits d 4 2) none))

/-- R371, R372, R377 to R380, R434, R443: spawn, join, enq, deq, steal, qlen and cfg.drop COMPLETE at issue by sending their operation, which is all that R372 and R377 have the firing
itself do; the reply comes from the controller (QueueEntriesMove, TasksProceed). With a command slot free exec answers a next state in which the command of spawn,
enq, deq, steal, qlen or cfg.drop stands behind those issued before it, its destinations resolved; a spawn at a task or launch queue has also asked for its record
of 256 or 128 bytes, which the PE's own pending stores supply. join needs no slot: it has sent the update of its counter, or fails with ALIGN. Nothing else
changes. That the length of a spawn's record is that of its queue's KIND as it issues, before the controller judges the command, is the model's choice (log 58). -/
def Obligations.QueueNodesEnterCommands : Prop :=
  ∀ (s : State) (n : Node),
    (commandRoom s s.cur.bh s.cur.pe = true →
      (∀ x ∈ [(Instr.enq n, 0x182), (Instr.deq n, 0x183), (Instr.steal n, 0x184), (Instr.qlen n, 0x185), (Instr.cfgDrop n, 0x1C8)],
        performs s x.2 n = true → ∃ t : State, exec x.1 s = .next t ∧ CommandEntered s t x.2 n) ∧
      (performs s 0x180 n = true →
        let c := firingCtx s 0x180 n
        let cap := (payloadAt c.f .r).toNat
        let va := (payloadAt c.f .l).toNat
        let kind := if capBh cap < 12 then qKind s (capBh cap) (capQ cap) else 0
        let len := if kind = 1 then 256 else 128
        (kind ≠ 1 → kind ≠ 2 → ∃ t : State, exec (.spawn n) s = .next t ∧ CommandEntered s t 0x180 n) ∧
        (kind = 1 ∨ kind = 2 → ∃ t : State, ∃ (r : Req), exec (.spawn n) s = .next t ∧
          OnlyIssues { s with cmds := s.cmds ++ [commandFor s c], reqs := s.reqs ++ [r] } t ∧ Leaves s t ∧
          r.va = va ∧ r.len = len ∧ r.write = false ∧ r.atom = none ∧ r.owner = .cmd s.nextId 0 ∧ r.vf = s.cur.vf ∧
          r.st = (if (ownSupply (newId s) va len).length = len then .finished else .atWell) ∧ r.supply = ownSupply (newId s) va len))) ∧
    (performs s 0x181 n = true →
      let c := firingCtx s 0x181 n
      let va := (payloadAt c.f .l).toNat
      (va % 8 = 0 → ∃ t : State, ∃ (r : Req), exec (.join n) s = .next t ∧ OnlyIssues { s with reqs := s.reqs ++ [r] } t ∧ Leaves s t ∧ r.va = va ∧ r.len = 8 ∧
        r.owner = .join ∧ r.st = .atWell ∧ r.vf = s.cur.vf ∧ r.task = s.cur.task ∧
        r.atom = some { op := 9, ty := .i64, operand := 0, cmp := 0, det := false, red := true }) ∧
      (va % 8 ≠ 0 → ErrsWith s (.join n) 0x181 n 0x14))

/-- R381, R425, R434, R439 to R442, R444: sysrd, syswr, win.open, win.close, cfg.ld, nrg.rd, yield and seed COMPLETE at issue with what R434 gives their firings to do: an access, a window
or a load that their command carries out (RegisterAccesses, SystemCommandsCarriedOut) is entered, with the bytes it needs asked for. With a command slot free exec answers
a next state: sysrd and syswr enter a command where R439 allows their address word, and fail with BOUNDS otherwise; win.close does where its index exists; win.open asks for its 24 bytes once
the writes of its VF are released, cfg.ld for the 64 bytes of its header; nrg.rd enters a command, for which its slot is folded as the cycle ends; yield ends its quantum where
another VF is runnable and answers 0 where none is; seed waits at its slot's generator, or fails with KIND_OP where its configuration does not hold it.
That win.open waits for exactly releaseSet (log 12), that win.close judges its bulkhead and its index as it issues (log 99), and that nrg.rd takes the counter at the end
of its cycle of issue (log 107) are the model's choices. -/
def Obligations.SystemNodesEnterCommands : Prop :=
  ∀ (s : State) (n : Node), commandRoom s s.cur.bh s.cur.pe = true →
    let l (code : Nat) : Nat := (payloadAt (firingCtx s code n).f .l).toNat
    let sl := slotOf s.cur.pe
    (∀ x ∈ [(Instr.sysrd n, 0x1C3), (Instr.syswr n, 0x1C4)], performs s x.2 n = true →
      (l x.2 / 2 ^ 28 = 0 ∧ l x.2 % 8 = 0 ∧ bits (l x.2) 24 4 < 12 → ∃ t : State, exec x.1 s = .next t ∧ CommandEntered s t x.2 n) ∧
      (¬(l x.2 / 2 ^ 28 = 0 ∧ l x.2 % 8 = 0 ∧ bits (l x.2) 24 4 < 12) → ErrsWith s x.1 x.2 n 0x0C)) ∧
    (performs s 0x1CA n = true →
      let good : Prop := l 0x1CA % 16 < 12 ∧ l 0x1CA / 16 < 8 ∧ samePartition s (l 0x1CA % 16) (homeOf s.cur.vf) = true
      (good → ∃ t : State, exec (.winClose n) s = .next t ∧ CommandEntered s t 0x1CA n) ∧ (¬good → ErrsWith s (.winClose n) 0x1CA n 0x0C)) ∧
    (performs s 0x1C9 n = true → ∃ t : State, ∃ (r : Req), exec (.winOpen n) s = .next t ∧
      OnlyIssues { s with cmds := s.cmds ++ [commandFor s (firingCtx s 0x1C9 n)], reqs := s.reqs ++ [r] } t ∧ Leaves s t ∧ r.va = l 0x1C9 ∧ r.len = 24 ∧
      r.write = false ∧ r.owner = .cmd s.nextId 0 ∧ r.kind = 10 ∧ r.st = .atWell ∧ r.waitFor = releaseSet s s.cur.vf 3) ∧
    (performs s 0x1C7 n = true → (∀ k ∈ s.cmds, k.id < s.nextId) → ∃ t : State, ∃ (r : Req), exec (.cfgLd n) s = .next t ∧
      OnlyIssues { s with cmds := s.cmds ++ [commandFor s (firingCtx s 0x1C7 n)], reqs := s.reqs ++ [r] } t ∧ Leaves s t ∧ r.va = l 0x1C7 ∧ r.len = 64 ∧
      r.write = false ∧ r.owner = .cmd s.nextId 0 ∧ r.agent = .seqr s.cur.bh ∧ r.kind = 9 ∧ r.st = .atWell) ∧
    (performs s 0x1C5 n = true → ∃ t : State, exec (.nrgRd n) s = .next t ∧ CommandEntered s t 0x1C5 n) ∧
    (performs s 0x18A n = true →
      (nextRunnable s s.cur.bh sl s.cur.vf = none → GivesValue s (.yield n) 0x18A n 1 0 0) ∧
      (∀ v, nextRunnable s s.cur.bh sl s.cur.vf = some v → ∃ t : State, ∃ (k : Cmd), exec (.yield n) s = .next t ∧ t.cmds = s.cmds ++ [k] ∧ k.id = s.nextId ∧ k.code = 0x18A ∧
        (getSlot t s.cur.bh sl).endNow = true ∧ (getSlot t s.cur.bh sl).st = (getSlot s s.cur.bh sl).st ∧ Leaves s t ∧ t.regs = s.regs ∧
        ∀ a, memByte t a = memByte s a)) ∧
    (performs s 0x1C6 n = true →
      let held : Bool := match cfgAt s s.cur.cfg with | some g => g.respat / 2 % 2 == 1 | none => false
      (held = true → ∃ t : State, exec (.seed n) s = .next t ∧
        OnlyIssues (modSlot s s.cur.bh sl fun x => { x with rngQueue := x.rngQueue ++ [(s.cur.pe, s.nextId)] }) t ∧
        Issues s t { itemOf s 0x1C6 n 1 [] (dropsOf s 0x1C6 n) 0 with wait := .rng }) ∧
      (held = false → ErrsWith s (.seed n) 0x1C6 n 0x07))

/-- R381, R397, R425, R440, R443, R444, R446, R477: the commands of win.open, win.close, cfg.drop, yield, nrg.rd and rcnt.snap, carried out. Once its request has been read, win.open answers
what failed, BOUNDS where the request is not allowed, a null token where no entry is free, and else the index of the lowest free entry, which holds the request.
win.close answers 0 where its entry is disabled and else disables it at the end of the cycle, and answers 1. cfg.drop answers 0 where its word names no configuration,
waits, publishes what the configuration still holds, and then frees its frames, drops it and answers 1. yield answers 1 once its VF is resident again after a switch, 0
where none took place, and waits otherwise. nrg.rd answers the counter as the fold at the end of its cycle left it.
rcnt.snap answers its COUNT, or the error of its write, once that write and what it releases are settled at its scope. That win.open and win.close are judged by
R444's own conditions alone is the model's choice (log 99), as is the moment at which nrg.rd takes the counter (log 107). -/
def Obligations.SystemCommandsCarriedOut : Prop :=
  (∀ (s : State) (id : Nat) (c : Cmd), cmdAt s id = some c → commandAwake s c = true → commandLive s c →
    let does (t : State) : Prop := exec (.queueControllerOp id) s = .next t
    let l := (payloadAt c.f .l).toNat
    (c.code = 0x1C9 → ∀ r, commandRow s c 0 = some r →
      let w := fieldAt (reqBytes r) 0 8
      let e0 := fieldAt (reqBytes r) 8 8
      let e1 := fieldAt (reqBytes r) 16 8
      let good : Prop := w < 12 ∧ samePartition s w (homeOf c.f.vf) = true ∧ bitAt e0 0 = true ∧ rangeOk w e1 = true
      let held (i : Nat) : Prop := regBits s w (0x20200 + 16 * i) 0 1 = 1
      (r.st ≠ .finished → does s) ∧
      (∀ e, r.st = .finished → reqError r = some e → ∃ t, does t ∧ Answers s t c .err e ∧ t.regs = s.regs) ∧
      (r.st = .finished → reqError r = none → ¬good → ∃ t, does t ∧ Answers s t c .err (newError s (peSrc c.f.bh c.f.pe) 0x0C).1 ∧ t.regs = s.regs) ∧
      (r.st = .finished → reqError r = none → good → (∀ i < 8, held i) → ∃ t, does t ∧ Answers s t c .null 0 ∧ t.regs = s.regs) ∧
      (∀ i < 8, r.st = .finished → reqError r = none → good → ¬held i → (∀ j < i, held j) → ∃ t, does t ∧ Answers s t c .value (BitVec.ofNat 64 (w + 16 * i)) ∧
        regGet t w (0x20200 + 16 * i) = BitVec.ofNat 64 e0 &&& 0x3FFFF ∧ regGet t w (0x20208 + 16 * i) = BitVec.ofNat 64 e1 ∧
        ∀ b off, regKey b off ≠ regKey w (0x20200 + 16 * i) → regKey b off ≠ regKey w (0x20208 + 16 * i) → regGet t b off = regGet s b off)) ∧
    (c.code = 0x1CA →
      let entry := 0x20200 + 16 * (l / 16)
      (regBits s (l % 16) entry 0 1 = 0 → ∃ t, does t ∧ Answers s t c .value 0 ∧ t.regs = s.regs) ∧
      (regBits s (l % 16) entry 0 1 ≠ 0 → ∃ t, does t ∧ cmdAt t id = some { c with stage := 1 } ∧ t.regs = s.regs)) ∧
    (c.code = 0x1C8 →
      (cfgNamed s c.f.vf l = none → ∃ t, does t ∧ Answers s t c .value 0 ∧ t.regs = s.regs) ∧
      (∀ g, cfgNamed s c.f.vf l = some g →
        (dropWaits s c g = true → does s) ∧
        (dropWaits s c g = false → (∃ p ∈ s.stores, p.cfg = g.id) → ∃ t, does t ∧ ∃ k, cmdAt t id = some k ∧ k.f = c.f ∧ ∀ x ∈ c.waitFor, x ∈ k.waitFor) ∧
        (dropWaits s c g = false → (∀ p ∈ s.stores, p.cfg ≠ g.id) → (∃ x ∈ c.waitFor, waitClear s x = false) → does s) ∧
        (dropWaits s c g = false → (∀ p ∈ s.stores, p.cfg ≠ g.id) → (∀ x ∈ c.waitFor, waitClear s x = true) → ∃ t, does t ∧ Answers s t c .value 1 ∧
          cfgAt t g.id = none))) ∧
    (c.code = 0x18A →
      let here := isResident s c.f.bh c.f.pe c.f.vf
      let ends := (getSlot s c.f.bh (slotOf c.f.pe)).endNow
      (here = true → c.stage = 1 → ∃ t, does t ∧ Answers s t c .value 1 ∧ t.regs = s.regs) ∧
      (here = true → c.stage ≠ 1 → ends = false → ∃ t, does t ∧ Answers s t c .value 0 ∧ t.regs = s.regs) ∧
      (here = false ∨ (c.stage ≠ 1 ∧ ends = true) → does s)) ∧
    (c.code = 0x189 → ∀ r, commandRow s c 0 = some r →
      let written : Prop := r.st = .finished ∨ (r.st = .moving ∧ c.scope ≠ 7 ∧ waitClear s (2 * r.id) = true)
      let released : Prop := ∀ x ∈ c.waitFor, waitClear s x = true
      (¬(written ∧ released) → does s) ∧
      (∀ e, written → released → reqError r = some e → ∃ t, does t ∧ Answers s t c .err e ∧ t.regs = s.regs) ∧
      (written → released → reqError r = none → ∃ t, does t ∧
        Answers s t c .value (BitVec.ofNat 64 ((c.node.lit.extractLsb' 6 6).toNat + 1)) ∧ t.regs = s.regs)) ∧
    (c.code = 0x1C5 →
      (c.stage = 1 → ∃ t, does t ∧ Answers s t c .value (BitVec.ofNat 64 c.aux) ∧ t.regs = s.regs) ∧ (c.stage ≠ 1 → does s))) ∧
  (∀ (s : State) (b : Nat) (c : Cmd), commandLive s c → cmdAt s c.id = some c → (payloadAt c.f .l).toNat % 16 = b →
    (s.cmds.filter fun k => k.code == 0x1CA && k.stage == 1 && (payloadAt k.f .l).toNat % 16 == b) = [c] →
    let entry := 0x20200 + 16 * ((payloadAt c.f .l).toNat / 16)
    Answers s (windowsClose s b) c .value (BitVec.ofNat 64 (regBits s b entry 0 1)) ∧ regBits (windowsClose s b) b entry 0 1 = 0) ∧
  (∀ (s : State) (b : Nat) (c : Cmd), cmdAt s c.id = some c → (s.cmds.filter fun k => k.code == 0x1C5 && k.stage == 0 && k.f.bh == b) = [c] →
    (∀ sl < 32, (getSlot s b sl).foldDue = false) →
    let folded := foldSlot s b (slotOf c.f.pe)
    cmdAt (foldsEnd s b) c.id = some { c with stage := 1, aux := nrgRead folded c.f.vf } ∧ (getSlot (foldsEnd s b) b (slotOf c.f.pe)).delta = 0)

/-- R421, R422, R435, R437, R438, R446: trap delivers l on VC0 at priority 7 to the handler that VFHND names, where it stands ready for it, and posts a TRAP event with
the PE and the node otherwise; brk posts a BREAK event and freezes its PE; evt posts a USER event with its code. An event takes its source's next number and,
while its queue has room and no stack that holds it is under reset, stands at TAIL, which it advances. Memory is free of errors there: what the device's own accesses meet follows log 123. That LOG2N is not bounded is the model's choice
(log 114). -/
def Obligations.TrapsBreaksAndEvents : Prop :=
  (∀ (s : State) (n : Node),
    let l (code : Nat) : Word := payloadAt (firingCtx s code n).f .l
    let silent (code : Nat) (u : State) : Prop := OnlyIssues s u ∧ Issues s u (itemOf s code n 1 [] (dropsOf s code n) 0)
    let posted (u : State) (code payload : Nat) : State := postEvent u (peSrc s.cur.bh s.cur.pe) s.cur.bh (some s.cur.vf) (some s.cur.lid) code payload
    let h := vfHandler s s.cur.vf
    (performs s 0x1C0 n = true →
      (handlerPort s s.cur.vf = none →
        ∃ (u : State), silent 0x1C0 u ∧ exec (.trap n) s = .next (posted u 0x13 ((l 0x1C0).toNat + s.cur.pe * 2 ^ 64 + s.cur.node * 2 ^ 73))) ∧
      (∀ q, handlerPort s s.cur.vf = some q → ∃ t : State, ∃ (x : Flight), exec (.trap n) s = .next t ∧ OnlyIssues { s with flights := s.flights ++ [x] } t ∧
        Issues s t (itemOf s 0x1C0 n 1 [] (dropsOf s 0x1C0 n) 0) ∧ x.vc = 0 ∧
        x.tok = Token.mk (l 0x1C0) .value s.cur.vf (bits h 28 10) q (bits h 14 12) (bits h 1 4) (bits h 5 9) 0 7)) ∧
    (performs s 0x1C1 n = true → ∃ (u : State), silent 0x1C1 u ∧ exec (.brk n) s =
      .next (freezeMaster (posted u 0x14 ((l 0x1C1).toNat + s.cur.pe * 2 ^ 64 + s.cur.node * 2 ^ 73)) s.cur.bh (.pe s.cur.pe) s.cur.vf .brk)) ∧
    (performs s 0x1C2 n = true → ∃ (u : State), silent 0x1C2 u ∧ exec (.evt n) s =
      .next (posted u 0x15 ((l 0x1C2).toNat + (n.lit.extractLsb' 0 8).toNat * 2 ^ 64 + s.cur.pe * 2 ^ 72 + s.cur.node * 2 ^ 81)))) ∧
  (∀ (s : State) (src b : Nat) (vf lid : Option Nat) (code payload : Nat),
    let d := evqFor s b vf lid
    let size := 2 ^ (memByte s (d + 8)).toNat
    let tail := mem32 s (d + 20)
    let at_ := mem64 s d + 32 * (tail % size)
    let t := postEvent s src b vf lid code payload
    cleanMemory s →
    sget 0 t.evSeq src = (sget 0 s.evSeq src + 1) % 2 ^ 32 ∧ SameRegs s t ∧ t.cmds = s.cmds ∧
    (d ≠ 0 → d % 64 = 0 → mem64 s d % 32 = 0 → (tail + 2 ^ 32 - mem32 s (d + 16)) % 2 ^ 32 < size → stackFenced s d = false →
      stackFenced s (mem64 s d) = false → at_ + 32 ≤ d ∨ d + 32 ≤ at_ →
      memBytes t at_ 32 = leBytes 4 src ++ leBytes 4 (sget 0 s.evSeq src) ++ leBytes 2 (match vf with | some v => v % 512 | none => 2 ^ 15) ++ leBytes 2 code ++
        leBytes 2 (lid.getD 0xFFFF) ++ leBytes 2 0 ++ leBytes 16 payload ∧
      mem32 t (d + 20) = (tail + 1) % 2 ^ 32))

/-- R396 to R401: bar.arrive emits its cell's phase with COUNT 1 on VC1 and advances the cell. rcnt.add sends its addition to its slot's counter unit and rcnt.snap its
snapshot; at the end of the cycle the unit adds, saturating, or writes the counters with one write and clears them. A firing of bar.comb emits the releases of the
arrival that it stands for (CombinersCombine). That rcnt.snap waits for exactly releaseSet (log 12), that ALIGN is judged before the scope (log 37), and that an arrival
which completes a phase issues its releases as a firing (log 49) are the model's choices. -/
def Obligations.BarriersAndCounters : Prop :=
  ∀ (s : State) (n : Node),
    let b := s.cur.bh
    let pe := s.cur.pe
    let sl := slotOf pe
    let p := firedPE s s
    (performs s 0x186 n = true →
      let bid := (n.lit.extractLsb' 0 4).toNat
      let ph := sget 0 p.bars bid
      let w : Word := BitVec.ofNat 64 (ph.toNat + 2 ^ 32 + bid * 2 ^ 48)
      ∃ t : State, exec (.barArrive n) s = .next t ∧ OnlyIssues (modPE s b pe fun q => { q with bars := sput 0 q.bars bid (ph + 1) }) t ∧
        Issues s t (itemOf s 0x186 n 1 (toDest n.d0 .value w true ++ toDest n.d1 .value w true) (dropsOf s 0x186 n) 0)) ∧
    (∀ ws, performs s 0x187 n = true → (firingCtx s 0x187 n).f.rel = some ws →
      CompletesWith s (.barComb n) 0x187 n 1 (ws.map fun w => toDest n.d0 .value w true ++ toDest n.d1 .value w true).flatten (dropsOf s 0x187 n) 0) ∧
    (performs s 0x188 n = true →
      let i := (payloadAt (firingCtx s 0x188 n).f .l).toNat + (n.lit.extractLsb' 0 6).toNat
      let add : Effect := .countAdd s.nextId i ((n.lit.extractLsb' 6 10).toNat + 1)
      (i < 64 → ∃ t : State, exec (.rcntAdd n) s = .next t ∧
        OnlyIssues (modPE s b pe fun q => { q with late := q.late ++ [((firingCtx s 0x188 n).f, add)] }) t ∧
        Issues s t (itemOf s 0x188 n 1 [] (dropsOf s 0x188 n) 0)) ∧
      (64 ≤ i → ErrsWith s (.rcntAdd n) 0x188 n 0x0C)) ∧
    (performs s 0x189 n = true →
      let va := (payloadAt (firingCtx s 0x189 n).f .l).toNat
      let scope := (n.lit.extractLsb' 12 3).toNat
      let c := firingCtx s 0x189 n
      (va % 4 = 0 → scopeWithin s scope → commandRoom s b pe = true → ∃ t : State, exec (.rcntSnap n) s = .next t ∧ Leaves s t ∧
        OnlyIssues { modPE s b pe (fun q => { q with late := q.late ++ [(c.f, .countSnap s.nextId)] }) with
          cmds := s.cmds ++ [{ commandFor s c with scope := scope, waitFor := releaseSet s s.cur.vf scope }] } t) ∧
      (va % 4 ≠ 0 → ErrsWith s (.rcntSnap n) 0x189 n 0x14)) ∧
    (∀ id i inc,
      let t := countAdd s b pe (.countAdd id i inc)
      let cnt (t : State) (k : Nat) : BitVec 32 := sget 0 (getSlot t b sl).rcnt k
      let sum := (cnt s i).toNat + inc
      cnt t i = BitVec.ofNat 32 (min sum (2 ^ 32 - 1)) ∧ (∀ k, k ≠ i → cnt t k = cnt s k) ∧ t.regs = s.regs ∧ (∀ a, memByte t a = memByte s a) ∧
      ∀ it ∈ p.issued, it.id = id → { it with flags := it.flags ||| if 2 ^ 32 ≤ sum then flagSaturated else 0 } ∈ (firedPE s t).issued) ∧
    (∀ k : Cmd, cmdAt s k.id = some k →
      let t := countSnap s b pe (.countSnap k.id)
      let first := (k.node.lit.extractLsb' 0 6).toNat
      let count := (k.node.lit.extractLsb' 6 6).toNat + 1
      let cnt (t : State) (i : Nat) : BitVec 32 := sget 0 (getSlot t b sl).rcnt i
      ∃ r : Req, t.reqs = s.reqs ++ [r] ∧ r.va = (payloadAt k.f .l).toNat ∧ r.len = 4 * count ∧ r.write = true ∧ r.owner = .cmd k.id 0 ∧ r.st = .atWell ∧
        (∀ m < count, slice r.data (4 * m) 4 = leBytes 4 (cnt s (first + m)).toNat) ∧
        (∀ i, cnt t i = if first ≤ i ∧ i < first + count then 0 else cnt s i) ∧ t.regs = s.regs ∧ ∀ a, memByte t a = memByte s a)

/-- R398, R400, R401: an arrival at a bar.comb is combined at once. One of another barrier, or a release, is discarded with a BOUNDS error for the sink; one of phase CUR
adds to C0 and A0 and one of the next phase to C1 and A1, the counts saturating at 32,767; one two or more phases ahead goes to the hold queue of 32, or waits at the
router while that is full; a past one is discarded with a BARRIER_LATE event. Where C0 reaches EXPECT the release of CUR enters the ready queue, CUR advances, the next
phase's count moves to C0, and the held arrivals that are now at most one phase ahead are combined in their order. That the release issues as a firing, which
takes an entry, and that an arrival which completes no phase makes none are the model's choices (log 49); WSTAT follows log 123. -/
def Obligations.CombinersCombine : Prop :=
  ∀ (s : State) (k : Nat) (x : Flight) (c : Placed) (o : OpInfo) (n : Node), CombArrives s k x c o n →
    let b := x.tok.bh
    let pe := x.tok.pe
    let p := getPE s b pe
    let f := combFiring s c o n x.tok x.vc
    let v := barPayload f
    let sl := n.slot.toNat
    let slot := barRead p x.tok.node x.tok.fp sl
    let dist := ((v.extractLsb' 0 32).toNat + 2 ^ 32 - slot.cur) % 2 ^ 32
    let count := (v.extractLsb' 32 16).toNat
    let abn : Bool := v.getLsbD 53
    let expect := (n.lit.extractLsb' 5 11).toNat + 1
    let total := min (slot.c0 + count) 32767
    let ours : Prop := v.extractLsb' 48 4 = n.lit.extractLsb' 0 4 ∧ v.getLsbD 52 = false
    let own (t : State) : PE := getPE t b pe
    let after (t : State) : BarSlot := barRead (own t) x.tok.node x.tok.fp sl
    let taken (t : State) : Prop := t.flights = s.flights.eraseIdx k
    let still (t : State) : Prop := (own t).ready = p.ready ∧ ∀ a, memByte t a = memByte s a
    let sameSlot (t : State) : Prop := (own t).frames = p.frames ∧ (own t).tags = p.tags
    (¬ours → (∀ l, launchAt s c.lid = some l → l.errhalt = false) → ∃ t : State, exec (.tokenArrival k) s = .next t ∧ taken t ∧ sameSlot t ∧ (own t).hold = p.hold ∧
      (own t).ready = p.ready ∧ sget 0 t.errSeq (peSrc b pe) = (sget 0 s.errSeq (peSrc b pe) + 1) % 2 ^ 32 ∧
      ∀ l, launchAt s c.lid = some l → ∃ m, launchAt t c.lid = some m ∧ m.errcnt = min (l.errcnt + 1) 0xFFFFFFFF) ∧
    (ours → 2 ^ 31 ≤ dist → cleanMemory s → ∃ t : State, exec (.tokenArrival k) s = .next t ∧ taken t ∧ sameSlot t ∧ (own t).hold = p.hold ∧ (own t).ready = p.ready ∧
      sget 0 t.evSeq (peSrc b pe) = (sget 0 s.evSeq (peSrc b pe) + 1) % 2 ^ 32 ∧ SameRegs s t) ∧
    (ours → 2 ≤ dist → dist < 2 ^ 31 → p.hold.length < 32 → ∃ t : State, ∃ (h : Flight), exec (.tokenArrival k) s = .next t ∧ taken t ∧ sameSlot t ∧ still t ∧
      (own t).hold = p.hold ++ [h] ∧ h.tok.payload = v ∧ h.tok.node = x.tok.node ∧ h.tok.fp = x.tok.fp) ∧
    (ours → 2 ≤ dist → dist < 2 ^ 31 → 32 ≤ p.hold.length → exec (.tokenArrival k) s = .next s) ∧
    (ours → dist = 0 → total < expect → ∃ t : State, exec (.tokenArrival k) s = .next t ∧ taken t ∧ still t ∧ (own t).hold = p.hold ∧
      (after t).cur = slot.cur ∧ (after t).c0 = total ∧ (after t).a0 = (slot.a0 || abn) ∧ (after t).c1 = slot.c1 ∧ (after t).a1 = slot.a1) ∧
    (ours → dist = 1 → slot.c0 < expect → ∃ t : State, exec (.tokenArrival k) s = .next t ∧ taken t ∧ still t ∧ (own t).hold = p.hold ∧
      (after t).cur = slot.cur ∧ (after t).c0 = slot.c0 ∧ (after t).a0 = slot.a0 ∧ (after t).c1 = min (slot.c1 + count) 32767 ∧
      (after t).a1 = (slot.a1 || abn)) ∧
    (let next := (slot.cur + 1) % 2 ^ 32
     let ahead (h : Flight) : Nat := ((h.tok.payload.extractLsb' 0 32).toNat + 2 ^ 32 - next) % 2 ^ 32
     let near (h : Flight) : Bool := h.tok.node == x.tok.node && h.tok.fp == x.tok.fp && decide (ahead h < 2)
     let adds (d : Nat) (start : Nat) : Nat :=
       (p.hold.filter fun h => near h && ahead h == d).foldl (fun a h => min (a + (h.tok.payload.extractLsb' 32 16).toNat) 32767) start
     let abandoned (d : Nat) : Bool := (p.hold.filter fun h => near h && ahead h == d).any fun h => h.tok.payload.getLsbD 53
     ours → dist = 0 → expect ≤ total → adds 0 slot.c1 < expect → readyRoom p x.vc = true → ∃ t : State, ∃ (g : Firing), exec (.tokenArrival k) s = .next t ∧ taken t ∧
       (own t).ready = p.ready ++ [g] ∧ g = { f with rel := some [barWord slot.cur total (n.lit.extractLsb' 0 4).toNat (n.lit.getLsbD 4) (slot.a0 || abn)] } ∧
       (own t).hold = (p.hold.filter fun h => !near h) ∧ (after t).cur = next ∧ (after t).c0 = adds 0 slot.c1 ∧
       (after t).a0 = (slot.a1 || abandoned 0) ∧ (after t).c1 = adds 1 0 ∧ (after t).a1 = abandoned 1 ∧ ∀ a, memByte t a = memByte s a)

/-- R367, R369, R371, R372, R378, R379: an enq that ring and budget have room for places its word at TAIL and answers the new length; deq and steal take the oldest and newest
word; qlen answers the length; a full ring and an empty one answer a null token; a spawn whose record has been read places it in a launch queue and answers its index.
No other byte of memory changes. Memory is free of errors where an entry is read or written. -/
def Obligations.QueueEntriesMove : Prop :=
  ∀ (s : State) (id y : Nat) (c : Cmd), QueueTurn s id c y → commandLive s c → replyBlocked s c.f.bh y 8 c.f.bh = none →
    let q := capQ (cmdCap c)
    let good (need : Nat) : Prop := capBad s c.f.vf (cmdCap c) need = none
    let ends (t : State) (head tail : Nat) : Prop := qHead t y q = head % 2 ^ 32 ∧ qTail t y q = tail % 2 ^ 32
    let payer := vfRcbAddr s (qOwner s y q)
    let room : Prop := qLen s y q < qCapacity s y q ∧ budgetOk (rcbNote s payer) payer .qent 1 = true
    let kept (t : State) : Prop := t.regs = s.regs ∧ ∀ a, memByte t a = memByte s a
    let slot := qEntry s y q (qTail s y q)
    let wrote (t : State) (bs : List Byte) : Prop := memBytes t slot bs.length = bs ∧
      ∀ a, a < slot ∨ slot + bs.length ≤ a → memByte t a = memByte s a
    (c.code = 0x182 → good 1 → qKind s y q = 0 →
      (room → cleanMemory s → ∃ t : State, exec (.queueControllerOp id) s = .next t ∧ Answers s t c .value (word (qLen s y q + 1)) ∧
        ends t (qHead s y q) (qTail s y q + 1) ∧ wrote t (leBytes 8 (payloadAt c.f .l).toNat)) ∧
      (¬room → ∃ t : State, exec (.queueControllerOp id) s = .next t ∧ Answers s t c .null 0 ∧ kept t)) ∧
    (c.code = 0x183 → good 2 → qKind s y q = 0 →
      (qLen s y q ≠ 0 → cleanMemory s → ∃ t : State, exec (.queueControllerOp id) s = .next t ∧
        Answers s t c .value (word (mem64 s (qEntry s y q (qHead s y q)))) ∧
        ends t (qHead s y q + 1) (qTail s y q) ∧ ∀ a, memByte t a = memByte s a) ∧
      (qLen s y q = 0 → ∃ t : State, exec (.queueControllerOp id) s = .next t ∧ Answers s t c .null 0 ∧ kept t)) ∧
    (c.code = 0x184 → good 4 → qKind s y q = 0 →
      (qLen s y q ≠ 0 → cleanMemory s → ∃ t : State, exec (.queueControllerOp id) s = .next t ∧
        Answers s t c .value (word (mem64 s (qEntry s y q (qTail s y q + 2 ^ 32 - 1)))) ∧
        ends t (qHead s y q) (qTail s y q + 2 ^ 32 - 1) ∧ ∀ a, memByte t a = memByte s a) ∧
      (qLen s y q = 0 → ∃ t : State, exec (.queueControllerOp id) s = .next t ∧ Answers s t c .null 0 ∧ kept t)) ∧
    (c.code = 0x185 → good 7 → qKind s y q = 0 →
      ∃ t : State, exec (.queueControllerOp id) s = .next t ∧ Answers s t c .value (word (qLen s y q)) ∧ kept t) ∧
    (c.code = 0x180 → commandRow s c 0 = none → good 1 → qKind s y q = 2 → launchFields c.bytes = true → c.bytes.length = 128 → room →
      cleanMemory s → ∃ t : State, exec (.queueControllerOp id) s = .next t ∧ Answers s t c .value (word (qTail s y q)) ∧
        ends t (qHead s y q) (qTail s y q + 1) ∧ wrote t c.bytes)

/-- R371, R417, R418: a queue operation with a bad capability posts CAP_FAULT and is not performed: its PE is frozen for it, with the operation kept, or, where FDOM is
1, its launch is halted with the event's code and number as its status. -/
def Obligations.BadCapabilityTaken : Prop :=
  ∀ (s : State) (id y reason : Nat) (c : Cmd), QueueTurn s id c y → c.code ∈ [0x182, 0x183, 0x184, 0x185] →
    capBad s c.f.vf (cmdCap c) (cmdRight c.code) = some reason → cleanMemory s →
    let src := srcWord 1 y 0 5
    let numbered (t : State) : Prop := sget 0 t.evSeq src = (sget 0 s.evSeq src + 1) % 2 ^ 32
    (fdomOf s c.f.lid c.f.task = false → (getPE s c.f.bh c.f.pe).frozen = none → ∃ t : State, ∃ (k : Cmd), exec (.queueControllerOp id) s = .next t ∧
      (getPE t c.f.bh c.f.pe).frozen = some (.capability id) ∧ cmdAt t id = some k ∧ k.stage = 9 ∧ k.code = c.code ∧ k.f = c.f ∧
      (getPE t c.f.bh c.f.pe).issued = (getPE s c.f.bh c.f.pe).issued ∧ numbered t ∧ SameRegs s t) ∧
    (∀ l, fdomOf s c.f.lid c.f.task = true → launchAt s c.f.lid = some l → l.st ≠ .ending → ∃ t : State, ∃ (m : Launch), exec (.queueControllerOp id) s = .next t ∧
      launchAt t c.f.lid = some m ∧ m.st = .ending ∧ m.halted = true ∧ m.exit = word (0x0E * 2 ^ 56 + sget 0 s.evSeq src) ∧ cmdAt t id = none ∧
      sget 0 t.evSeq src = (sget 0 s.evSeq src + 1) % 2 ^ 32)

/-- R12, R418, R420, R439: sysrd and syswr reach the registers that the access columns allow their VF: a read answers the register, a write answers what is read
back, an offset that no register has answers zero. A refused access freezes its PE with a protection fault. A VF that is not tenant root writes no register but its
own trap handler; what SELF answers a write is left out (log 102). A host write to a plain register changes its read-write bits and clears the write-1-to-clear ones; one to a block register sets BCSTAT.ERR and does
nothing else while a block operation is in progress. That an unassigned offset answers zero to every VF (log 101), which VF a register names (log 104), and that no gate
judges a register access (log 106) are the model's choices. -/
def Obligations.RegisterAccesses : Prop :=
  (∀ (s : State) (id : Nat) (c : Cmd), CommandTurn s id c → commandLive s c →
    let a := (payloadAt c.f .l).toNat
    let b := bits a 24 4
    let off := bits a 0 24
    let wr : Bool := c.code == 0x1C4
    c.code = 0x1C3 ∨ c.code = 0x1C4 →
    (regName off = none → ∃ t : State, exec (.queueControllerOp id) s = .next t ∧ Answers s t c .value 0 ∧ t.regs = s.regs) ∧
    (∀ r, regName off = some r →
      (regAllowed s b c.f.vf wr r = true → wr = false → ∃ t : State, exec (.queueControllerOp id) s = .next t ∧
        Answers s t c .value (regRead s b off (some c.f)) ∧ t.regs = s.regs) ∧
      (∀ u, regAllowed s b c.f.vf wr r = true → wr = true → namesOther s b c.f.vf r (payloadAt c.f .r).toNat = false →
        regWrite s b off (payloadAt c.f .r) = some u → cmdAt u id = some c → commandLive u c → cycleOf u c.f.bh = cycleOf s c.f.bh →
        ∃ t : State, exec (.queueControllerOp id) s = .next t ∧ t.regs = u.regs ∧
          Answers s t c .value (if regAllowed u b c.f.vf false r = true then regRead u b off (some c.f) else 0)) ∧
      (regAllowed s b c.f.vf wr r = true → wr = true → namesOther s b c.f.vf r (payloadAt c.f .r).toNat = true →
        ∃ t : State, exec (.queueControllerOp id) s = .next t ∧ t.regs = s.regs) ∧
      (regAllowed s b c.f.vf wr r = false → fdomOf s c.f.lid c.f.task = false → (getPE s c.f.bh c.f.pe).frozen = none → cleanMemory s →
        ∃ t : State, ∃ (k : Cmd), exec (.queueControllerOp id) s = .next t ∧ (getPE t c.f.bh c.f.pe).frozen = some (.register id) ∧ cmdAt t id = some k ∧ k.stage = 9 ∧
          SameRegs s t))) ∧
  (∀ (s : State) (b vf : Nat) (r : RegName), isRootVf s b vf = false → r ≠ .self → (∀ k, r = .vfhnd k → 32 * b + k ≠ vf) → regAllowed s b vf true r = false) ∧
  (∀ (s : State) (b : Nat) (v : Word), s.powered = true → b < 12 →
    ∀ x ∈ [(0x10200, 0xFFF#64, 0#64), (0x10210, 0#64, 2#64), (0x11018, 0x1FFFF#64, 0#64), (0x11020, 0x0000000FFFFFF800#64, 0#64), (0x20008, 0#64, 8#64),
           (0x20028, 0x0000FFFFFFFFFFC0#64, 0#64), (0x20048, 0x000007FFFFFFFFFF#64, 0#64), (0x20100, 0xFFFFFFFFFFFFFFFF#64, 0#64),
           (0x20130, 0x00000000FFFFFFFF#64, 0#64), (0x18900, 0#64, 1#64), (0x21208, 0#64, 2#64)],
      ∃ t : State, exec (.registerWrite b x.1 v) s = .next t ∧ t = { s with regs := t.regs } ∧
        (x.1 = 0x11020 → regBits s b 0x11038 0 1 = 1 → t = bcErr s b) ∧
        (x.1 ≠ 0x11020 ∨ regBits s b 0x11038 0 1 ≠ 1 → regGet t b x.1 = (regGet s b x.1 &&& ~~~x.2.1 ||| v &&& x.2.1) &&& ~~~(v &&& x.2.2) ∧
          ∀ c off, regKey c off ≠ regKey b x.1 → regGet t c off = regGet s c off))

/-- R44, R182, R369, R390, R404, R408, R410, R428, R449, R452, R453, R455: what a write of each register that acts does, in its own step or by REGISTER_WRITE, and the
refusals, which set the error bit of their block and leave the register as it was: of a QUANT entry for a VF with VFRCB.EN = 0 or no slot block and of one that would raise NVF
above 64, of a range that leaves its stack, of a shape or a gate that does not fit. -/
def Obligations.ActingRegisterWrites : Prop :=
  ∀ (s : State) (b : Nat) (v : Word),
    let err (t : State) : Prop := t = { s with regs := t.regs } ∧ regBits t b 0x20008 3 1 = 1 ∧ ∀ off, off ≠ 0x20008 → regGet t b off = regGet s b off
    (∀ q < 4096,
      let off := 0x40000 + 32 * q
      let en : Bool := (regGet s b off).getLsbD 0 && (regGet s b off).extractLsb' 1 2 != 3
      (en = false → v.getLsbD 0 = true → ∃ t : State, exec (.queueEnable b q v) s = .next t ∧ regGet t b off = v &&& 0x0000FFFFFFFFFFFF ∧
        regGet t b (off + 8) = 0 ∧ regGet t b (off + 16) = regGet s b (off + 16) ∧ t.mem = s.mem) ∧
      (en = false → v.getLsbD 0 = false → ∃ t : State, exec (.queueEnable b q v) s = .next t ∧ regGet t b off = v &&& 0x0000FFFFFFFFFFFF ∧
        regGet t b (off + 8) = regGet s b (off + 8) ∧ t = { s with regs := t.regs }) ∧
      (en = true → exec (.queueEnable b q v) s = .next s) ∧
      (∃ t : State, exec (.qcapRightsWrite b q v) s = .next t ∧ t = { s with regs := t.regs } ∧ regGet t b (off + 24) = v &&& 0x70000)) ∧
    (∃ t : State, exec (.qckeyWrite b v) s = .next t ∧ t = { s with regs := t.regs } ∧ regGet t b 0x13000 = v ∧ regRead t b 0x13000 none = 0) ∧
    (∀ p < 4,
      let stat := 0x20A20 + 8 * p
      (regBits s b stat 0 1 = 1 → exec (.hqrecCommit b p v) s = .next s) ∧
      (regBits s b stat 0 1 ≠ 1 → ∃ t : State, ∃ (k : Cmd), exec (.hqrecCommit b p v) s = .next t ∧ t.cmds = s.cmds ++ [k] ∧ k.id = s.nextId ∧
        k.since = (regGet s b (0x20A00 + 8 * p)).toNat ∧ k.bytes.length = 128 ∧ slice k.bytes 120 8 = leBytes 8 v.toNat ∧
        (∀ j < 15, slice k.bytes (8 * j) 8 = leBytes 8 (regGet s b (0x20C00 + 128 * p + 8 * j)).toNat) ∧ regBits t b stat 0 1 = 1)) ∧
    (∀ sl < 32, ∃ t : State, exec (.slotownWrite b sl v) s = .next t ∧ t = { s with regs := t.regs } ∧
      ∀ i : Nat, i < 64 → (regGet t b (0x18800 + 8 * sl)).getLsbD i = if i < 10 then v.getLsbD i else (regGet s b (0x18800 + 8 * sl)).getLsbD i) ∧
    (∀ vf < 384, ∃ t : State, exec (.vfscopeWrite vf v) s = .next t ∧ t = { s with regs := t.regs } ∧ regGet t (vf / 32) (0x12000 + 8 * (vf % 32)) = v &&& 0x1F) ∧
    (∀ vf < 384, ∃ t : State, exec (.vfrootWrite vf v) s = .next t ∧ t = { s with regs := t.regs, bhs := t.bhs } ∧
      regGet t (vf / 32) (0x10000 + 8 * (vf % 32)) = v &&& 0x0000FFFFFFFFC001#64 ∧
      ∀ c < 12, samePartition s c (vf / 32) = true → ∀ e ∈ (getBulk t c).tlb, e.vf ≠ vf) ∧
    (bhState s b = 2 → shapeOk b v.toNat = true → tenantShape (regGet s b 0x20000).toNat = tenantShape v.toNat →
      ∃ t : State, exec (.bhctlWrite b v) s = .next t ∧ t = { s with regs := t.regs } ∧ regGet t b 0x20000 = v &&& 0x3FFFFFF) ∧
    (bhState s b ≠ 2 ∨ shapeOk b v.toNat = false → ∃ t : State, exec (.bhctlWrite b v) s = .next t ∧ err t) ∧
    (gateOk s b v.toNat = true → ∃ t : State, exec (.bhgateWrite b v) s = .next t ∧ t = { s with regs := t.regs } ∧
      regGet t b 0x20018 = regGet s b 0x20018 &&& ~~~(0x3F : Word) ||| v &&& 0x3F) ∧
    (gateOk s b v.toNat = false → ∃ t : State, exec (.bhgateWrite b v) s = .next t ∧ err t) ∧
    (∀ e < 8,
      let base := 0x20200 + 16 * e
      (v.getLsbD 0 = true → rangeOk b (regGet s b (base + 8)).toNat = false → ∃ t : State, exec (.wintabWrite b e 0 v) s = .next t ∧ err t) ∧
      (v.getLsbD 0 = false ∨ rangeOk b (regGet s b (base + 8)).toNat = true → ∃ t : State, exec (.wintabWrite b e 0 v) s = .next t ∧
        t = { s with regs := t.regs } ∧ regGet t b base = v &&& 0x3FFFF) ∧
      ((regGet s b base).getLsbD 0 = false ∨ rangeOk b v.toNat = true → ∃ t : State, exec (.wintabWrite b e 1 v) s = .next t ∧
        t = { s with regs := t.regs } ∧ regGet t b (base + 8) = v) ∧
      ((regGet s b base).getLsbD 0 = true → rangeOk b v.toNat = false → ∃ t : State, exec (.wintabWrite b e 1 v) s = .next t ∧ err t)) ∧
    (∀ e < 8, s.powered = true → b < 12 →
      let base := 0x21000 + 16 * e
      (v.getLsbD 0 = true → rangeOk b (regGet s b (base + 8)).toNat = false → ∃ t : State, exec (.registerWrite b base v) s = .next t ∧ err t) ∧
      (v.getLsbD 0 = false ∨ rangeOk b (regGet s b (base + 8)).toNat = true → ∃ t : State, exec (.registerWrite b base v) s = .next t ∧
        t = { s with regs := t.regs } ∧ regGet t b base = v &&& 0x3FFFFFFF) ∧
      ((regGet s b base).getLsbD 0 = false ∨ rangeOk b v.toNat = true → ∃ t : State, exec (.registerWrite b (base + 8) v) s = .next t ∧
        t = { s with regs := t.regs } ∧ regGet t b (base + 8) = v) ∧
      ((regGet s b base).getLsbD 0 = true → rangeOk b v.toNat = false → ∃ t : State, exec (.registerWrite b (base + 8) v) s = .next t ∧ err t)) ∧
    (s.powered = true → b < 12 →
      let plain (off : Nat) (m : Word) : Prop := ∃ t : State, exec (.registerWrite b off v) s = .next t ∧ t = { s with regs := t.regs } ∧
        regGet t b off = regGet s b off &&& ~~~m ||| v &&& m
      (∀ d < 1024, plain (0x22000 + 16 * d) 0x00000FFFFFFFFFFF ∧ plain (0x22008 + 16 * d) 0x03FFFFFF) ∧ (∀ k < 32, plain (0x20400 + 8 * k) 0x0000003FFFFFFFFF)) ∧
    (let f := (v.extractLsb' 0 10).toNat
     (150 ≤ f → f ≤ 600 → f % 25 = 0 → f ≠ regBits s b 0x20010 0 10 → ∃ t : State, exec (.bhclkWrite b v) s = .next t ∧ t = { s with regs := t.regs } ∧
       regBits t b 0x20010 0 10 = f ∧ regBits t b 0x20010 10 1 = 0) ∧
     (f < 150 ∨ 600 < f ∨ f % 25 ≠ 0 → ∃ t : State, exec (.bhclkWrite b v) s = .next t ∧ err t)) ∧
    (bhState s b ≠ 3 → ∃ t : State, exec (.clockLock b) s = .next t ∧ t = { s with regs := t.regs } ∧ regBits t b 0x20010 10 1 = 1 ∧
      regBits t b 0x20010 0 10 = regBits s b 0x20010 0 10) ∧
    (∀ a < 64,
      ((v.extractLsb' 2 5).toNat < 18 → ∃ t : State, exec (.aptabWrite b a v) s = .next t ∧ t = { s with regs := t.regs } ∧
        regGet t b (0x20800 + 8 * a) = regGet s b (0x20800 + 8 * a) &&& ~~~(0x00003FFF007FFFFF : Word) ||| v &&& 0x00003FFF007FFFFF) ∧
      (18 ≤ (v.extractLsb' 2 5).toNat → ∃ t : State, exec (.aptabWrite b a v) s = .next t ∧ err t)) ∧
    (let g := (regGet s b 0x20048).toNat
     (bits g 21 2 = 3 → exec (.dbgvalWrite b v) s = .next s) ∧
     (∀ q, portOfCode (bits g 21 2) = some q → ∃ t : State, ∃ (x : Flight), exec (.dbgvalWrite b v) s = .next t ∧ t = { s with inject := s.inject ++ [x] } ∧
       x.tok = Token.mk v .value (bits g 33 9) (bits g 23 10) q (bits g 9 12) b (bits g 0 9) 0 7 ∧ x.vc = bits g 42 1)) ∧
    (∀ sl < 32, ∀ e < 8,
      let w := v &&& 0xFFFFFFFF000003FF
      let vf := (v.extractLsb' 0 9).toNat
      let past : Prop := 64 < (tableVfs (regPut s b (0x18000 + 64 * sl + 8 * e) w) b).length
      (v.getLsbD 9 = true → 384 ≤ vf ∨ vfEnabled s vf = false ∨ bitAt (saveWord s vf b sl) 0 = false ∨ past → ∃ t : State, exec (.quantWrite b sl e v) s = .next t ∧
        t = { s with regs := t.regs } ∧ regBits t b 0x18900 0 1 = 1 ∧ quantWord t b sl e = quantWord s b sl e) ∧
      (v.getLsbD 9 = true → vf < 384 → vfEnabled s vf = true → bitAt (saveWord s vf b sl) 0 = true → ¬past → ∃ t : State, exec (.quantWrite b sl e v) s = .next t ∧
        quantWord t b sl e = w.toNat ∧ regBits t b 0x18900 1 7 = (tableVfs t b).length ∧ regBits t b 0x18900 0 1 = regBits s b 0x18900 0 1) ∧
      (v.getLsbD 9 = false → ∃ t : State, exec (.quantWrite b sl e v) s = .next t ∧ quantWord t b sl e = w.toNat))

/-- R64, R81, R217 to R220, R224, R225: a token of a node of arity 1 makes a firing at once. At a node of arity 2 it parks in an empty slot, with the sticky count on a
sticky port, and fires with the token parked or held there, or with the value of a FILLED slot, or with a POISON error in its place where its slot holds an
uncorrectable error. At a node of arity 3 it parks while one of the two slots is EMPTY, a p token in SLOT+1 where that is, and fires with what stands in both, FILLED
slots going to the missing ports in port order. A slot used is EMPTY afterwards; one that holds a sticky operand counts down, 63 standing for ever; and a sticky
arrival stays for the COUNT - 1 firings to come. A second token on its port is an OVERRUN; a token that no node or frame takes is an error at its PE. A coordinate
token enters its PE's queue; a firing that has waited 1,024 resident cycles becomes urgent; a debugger's token is injected. -/
def Obligations.TokensMatched : Prop :=
  (∀ (s : State) (k : Nat) (x : Flight) (c : Placed) (o : OpInfo) (n : Node), Arrives s k x c o n →
    let t0 := x.tok
    let p := getPE s t0.bh t0.pe
    let own (t : State) : PE := getPE t t0.bh t0.pe
    let gone (t : State) : Prop := t.flights = s.flights.eraseIdx k
    let arriving : Operand := { kind := t0.kind, payload := t0.payload }
    let sl := 16 * t0.fp + n.slot.toNat
    let tag := slotTag p sl
    let tag1 := slotTag p (sl + 1)
    let takes (y : BitVec 16) (q : Port) : Prop := statePort (tagState y) = some q ∨ tagState y = tagFilled
    let stood (j : Nat) : Operand :=
      { kind := if tagState (slotTag p j) = tagFilled then .value else kindOfCode (tagKind (slotTag p j)), payload := slotValue p j }
    let sticky (y : BitVec 16) : Prop := tagState y = tagStickyL ∨ tagState y = tagStickyR
    let after (y : BitVec 16) : BitVec 16 := if sticky y ∧ tagCount y = 63 then y
      else if sticky y ∧ 1 < tagCount y then mkTag (tagState y) (kindCode (kindOfCode (tagKind y))) (tagCount y - 1) else 0
    let parked : BitVec 16 := if stickyPort n = some t0.port then mkTag (stickState t0.port) (kindCode t0.kind) n.stCount.toNat
      else mkTag (parkState t0.port) (kindCode t0.kind) 0
    let again : Prop := stickyPort n = some t0.port ∧ 1 < n.stCount.toNat
    let kept : BitVec 16 := mkTag (stickState t0.port) (kindCode t0.kind) (if n.stCount.toNat = 63 then 63 else n.stCount.toNat - 1)
    (arity o n = 1 → readyRoom p x.vc = true → ∃ t : State, exec (.tokenArrival k) s = .next t ∧ gone t ∧
      Matches s t x c o (fun q => if q = t0.port then some arriving else none) ∧ (own t).tags = p.tags ∧ (own t).frames = p.frames) ∧
    (arity o n = 2 → tagState tag = tagEmpty → ∃ t : State, exec (.tokenArrival k) s = .next t ∧ gone t ∧ (own t).ready = p.ready ∧
      slotValue (own t) sl = t0.payload ∧ (∀ j, j ≠ sl → slotTag (own t) j = slotTag p j ∧ slotValue (own t) j = slotValue p j) ∧
      slotTag (own t) sl = parked) ∧
    (∀ q, arity o n = 2 → takes tag q → q ≠ t0.port → (nodePorts o n).contains q = true →
      readyRoom p x.vc = true → ∃ t : State, exec (.tokenArrival k) s = .next t ∧ gone t ∧
        Matches s t x c o (fun q' => if q' = t0.port then some arriving
          else if q' ≠ q then none
          else if spoiltIn p (0x10000 + 8 * sl) 8 then some { kind := .err, payload := (newError s (peSrc t0.bh t0.pe) 0x08).1 }
          else some (stood sl)) ∧
        slotTag (own t) sl = (if again ∧ tagState (after tag) = tagEmpty then kept else after tag) ∧
        (again → tagState (after tag) = tagEmpty → slotValue (own t) sl = t0.payload) ∧
        ∀ j, j ≠ sl → slotTag (own t) j = slotTag p j) ∧
    (arity o n = 3 → tagState tag = tagEmpty ∨ tagState tag1 = tagEmpty → statePort (tagState tag) ≠ some t0.port → statePort (tagState tag1) ≠ some t0.port →
      let at_ := if t0.port = .p ∧ tagState tag1 = tagEmpty then sl + 1 else if tagState tag = tagEmpty then sl else sl + 1
      ∃ t : State, exec (.tokenArrival k) s = .next t ∧ gone t ∧ (own t).ready = p.ready ∧ slotTag (own t) at_ = parked ∧ slotValue (own t) at_ = t0.payload ∧
        ∀ j, j ≠ at_ → slotTag (own t) j = slotTag p j ∧ slotValue (own t) j = slotValue p j) ∧
    (∀ q q1, arity o n = 3 → takes tag q → takes tag1 q1 → q ≠ q1 → q ≠ t0.port → q1 ≠ t0.port →
      (tagState tag = tagFilled → tagState tag1 = tagFilled → (q, q1) ∈ [(Port.l, Port.r), (Port.l, Port.p), (Port.r, Port.p)]) →
      p.spoilt = [] → readyRoom p x.vc = true → ∃ t : State, exec (.tokenArrival k) s = .next t ∧ gone t ∧
        Matches s t x c o (fun q' => if q' = t0.port then some arriving else if q' = q then some (stood sl) else some (stood (sl + 1))) ∧
        slotTag (own t) sl = (if again ∧ tagState (after tag) = tagEmpty then kept else after tag) ∧
        slotTag (own t) (sl + 1) = (if again ∧ tagState (after tag) ≠ tagEmpty ∧ tagState (after tag1) = tagEmpty then kept else after tag1) ∧
        ∀ j, j ≠ sl → j ≠ sl + 1 → slotTag (own t) j = slotTag p j) ∧
    ((arity o n = 2 ∧ statePort (tagState tag) = some t0.port) ∨
      (arity o n = 3 ∧ (statePort (tagState tag) = some t0.port ∨ statePort (tagState tag1) = some t0.port)) → ∃ t : State, exec (.tokenArrival k) s = .next t ∧ gone t ∧
      sget 0 t.errSeq (peSrc t0.bh t0.pe) = (sget 0 s.errSeq (peSrc t0.bh t0.pe) + 1) % 2 ^ 32)) ∧
  (∀ (s : State) (k : Nat) (x : Flight), s.flights[k]? = some x → flightDue s k x = true → isResident s x.tok.bh x.tok.pe x.tok.vf = true →
    arrivalCheck s x.tok = .nodeBad ∨ arrivalCheck s x.tok = .frameBad → ∃ t : State, exec (.tokenArrival k) s = .next t ∧ t.flights = s.flights.eraseIdx k ∧
      sget 0 t.errSeq (peSrc x.tok.bh x.tok.pe) = (sget 0 s.errSeq (peSrc x.tok.bh x.tok.pe) + 1) % 2 ^ 32) ∧
  (∀ (s : State) (k : Nat) (x : Flight) (c : Placed) (o : OpInfo) (n : Node), s.flights[k]? = some x → flightDue s k x = true →
    isResident s x.tok.bh x.tok.pe x.tok.vf = true → arrivalCheck s x.tok = .fits c o n → isCoord o x.tok = true →
    (getPE s x.tok.bh x.tok.pe).coord.length < 256 →
    ∃ t : State, exec (.coordinateToken k) s = .next t ∧ t.flights = s.flights.eraseIdx k ∧
      (getPE t x.tok.bh x.tok.pe).coord = (getPE s x.tok.bh x.tok.pe).coord ++ [{ node := x.tok.node, fp := x.tok.fp, payload := x.tok.payload }]) ∧
  (∀ (s : State) (b pe k : Nat) (f : Firing), (getPE s b pe).ready[k]? = some f → f.urgent = false → isResident s b pe f.vf = true →
    f.resAt + 1024 ≤ (getSlot s b (slotOf pe)).resCycles → ∃ t : State, ∃ (g : Firing), exec (.readyAging b pe k) s = .next t ∧ (getPE t b pe).ready[k]? = some g ∧
      g = { f with urgent := true, aged := true } ∧ (∀ j, j ≠ k → (getPE t b pe).ready[j]? = (getPE s b pe).ready[j]?) ∧ t = { s with pes := t.pes }) ∧
  (∀ (s : State) (k : Nat) (x : Flight), s.inject[k]? = some x → isResident s x.tok.bh x.tok.pe x.tok.vf = true → bhRuns s x.tok.bh = true →
    ∃ t : State, ∃ (y : Flight), exec (.debugTokenDeliver k) s = .next t ∧ t = { s with inject := s.inject.eraseIdx k, flights := s.flights ++ [y] } ∧ y.tok = x.tok ∧ y.vc = x.vc ∧
      y.due = cycleOf s x.tok.bh + 1)

/-- R53, R58, R61, R62, R64, R75, R223, R227, R251, R288, R289, R350: the result of an issued firing completes. One token of each emission sets out to its destination, in
order, a POISON error where the link that its destination reads holds an uncorrectable error; a handle kept on its PE adds the references of its port, a stale one
none, and one sent off its PE becomes a HANDLE_ESCAPE error; and its flags go to the launch's word (an outcome of the steps before its meaning raises none). Its links and frame
frees wait for the end of the cycle, when they are made in every PE of the frame's rectangle, its own destinations seeing the new links; its tile is produced, its
accumulator is freed, its error reaches the sink, and its pair message goes on the link. -/
def Obligations.ResultsEmitted : Prop :=
  (∀ (s : State) (b pe k : Nat) (it : Issued), Completes s b pe k it →
    let does (t : State) : Prop := exec (.resultEmit b pe k) s = .next t
    let p := getPE s b pe
    let sound (e : Emit) : Prop := targetSpoilt (emitPE s it) it.f e.target = false
    let plain (e : Emit) : Prop := coordDest s (emitDest s it e) = false
    (effectsNow it = [] → (∀ e ∈ it.emits, e.kind ≠ .handle ∧ plain e ∧ sound e) →
      ∃ t : State, does t ∧ t.flights = s.flights ++ it.emits.map (fun e => emitFlight s it e e.kind e.payload) ∧
        (∀ x ∈ (getPE t b pe).issued, x.id ≠ it.id) ∧ (getPE t b pe).late = p.late ++ it.effects.map (fun x => (it.f, x)) ∧
        (getPE t b pe).tags = p.tags ∧ (getPE t b pe).frames = p.frames ∧ (getPE t b pe).handles = p.handles ∧
        ∀ l, launchAt s it.f.lid = some l → ∃ m, launchAt t it.f.lid = some m ∧
          m.flags = l.flags ||| if it.quiet then 0 else it.flags ||| emitFlags (emitPE s it) it.f it.emits) ∧
    (∀ e, it.emits = [e] → effectsNow it = [] → plain e → ¬sound e → ∃ t : State, does t ∧
      t.flights = s.flights ++ [emitFlight s it e .err (newError s (peSrc b pe) 0x08).1]) ∧
    (∀ e, it.emits = [e] → effectsNow it = [] → e.kind = .handle → plain e → sound e →
      let d := emitDest s it e
      let h := handleIdx e.payload
      (d.bh = b → d.pe = pe → handleValid p e.payload = true → (handleAt p h).ref + refsAt s d ≤ 255 → ∃ t : State, does t ∧
        t.flights = s.flights ++ [emitFlight s it e .handle e.payload] ∧ (handleAt (getPE t b pe) h).ref = (handleAt p h).ref + refsAt s d) ∧
      (d.bh = b → d.pe = pe → handleValid p e.payload = false → ∃ t : State, does t ∧
        t.flights = s.flights ++ [emitFlight s it e .handle e.payload] ∧ (getPE t b pe).handles = p.handles) ∧
      (d.bh ≠ b ∨ d.pe ≠ pe → ∃ t : State, does t ∧ t.flights = s.flights ++ [emitFlight s it e .err (newError s (peSrc b pe) 0x02).1])) ∧
    (∀ h, effectsNow it = [.produced h] → ∃ t : State, does t ∧ (handleAt (getPE t b pe) h).pend = false) ∧
    (∀ h, effectsNow it = [.freeEntry h (handleAt p h).gen] → (handleAt p h).kind ≠ .free → ∃ t : State, does t ∧
      (handleAt (getPE t b pe) h).kind = .free ∧ (handleAt (getPE t b pe) h).gen = nextGen (handleAt p h).gen ∧
      ((handleAt p h).kind = .acc → ∀ a ∈ (handleAt p h).pages, ∀ i < 6144, sget 0 (getPE t b pe).acc (6144 * a + i) = 0)) ∧
    (∀ v, effectsNow it = [.sinkErr v] → ∀ l, launchAt s it.f.lid = some l → ∃ t : State, ∃ (m : Launch), does t ∧ launchAt t it.f.lid = some m ∧
      m.errcnt = min (l.errcnt + 1) 0xFFFFFFFF ∧ (l.errhalt = true → l.errcnt = 0 → l.st ≠ .ending → m.halted = true ∧ m.exit = v) ∧
      (l.errhalt = false ∨ l.errcnt ≠ 0 → m.halted = l.halted ∧ m.exit = l.exit)) ∧
    (∀ leader sums, effectsNow it = [.pairSend leader sums] → ∃ t : State, does t ∧
      ((∀ d ∈ p.discards, d.node = it.f.node → d.fp ≠ it.f.fp) →
        sget [] t.links (b * 128 + clusterOf pe) = sget [] s.links (b * 128 + clusterOf pe) ++ [{ pe := leader, fp := it.f.fp, sums := sums }] ∧
        sget 0 (getPE t b (linkHome pe)).units unitLink = cycleOf s b + 16) ∧
      ((∃ d ∈ p.discards, d.node = it.f.node ∧ d.fp = it.f.fp) → t.links = s.links))) ∧
  (∀ (s : State) (b pe c fp : Nat) (f : Firing) (i : FrameInfo) (g : Placed), frameInfo (getPE s b pe) fp = some i → cfgAt s i.cfg = some g →
    (∀ which v, (getPE s b pe).late = [(f, .link fp which v)] →
      let t := lateOn s b pe c .links
      (∀ q ∈ rectPes g, frameLive (getPE s b q) fp = true → slotTag (getPE t b q) (16 * fp + which) = mkTag tagFilled 0 0 ∧ slotValue (getPE t b q) (16 * fp + which) = v ∧
        ∀ j, j ≠ 16 * fp + which → slotTag (getPE t b q) j = slotTag (getPE s b q) j ∧ slotValue (getPE t b q) j = slotValue (getPE s b q) j) ∧
      ∀ b' q, (∀ q' ∈ rectPes g, peKey b' q ≠ peKey b q') → getPE t b' q = getPE s b' q) ∧
    ((getPE s b pe).late = [(f, .freeFrame fp)] → frameLive (getPE s b pe) fp = true →
      let t := lateOn s b pe c .frees
      ∀ q ∈ rectPes g, frameLive (getPE t b q) fp = false ∧ ∀ j < 16 * 2 ^ i.cls, slotTag (getPE t b q) (16 * fp + j) = 0)) ∧
  (∀ (s : State) (b pe c fp : Nat) (f : Firing), (getPE s b pe).late = [(f, .freeFrame fp)] → frameLive (getPE s b pe) fp = false →
    let t := lateOn s b pe c .frees
    sget 0 t.errSeq (peSrc b pe) = (sget 0 s.errSeq (peSrc b pe) + 1) % 2 ^ 32 ∧
    ∀ l, launchAt s f.lid = some l → ∃ m, launchAt t f.lid = some m ∧ m.errcnt = min (l.errcnt + 1) 0xFFFFFFFF)

/-- R29 to R38, R40, R44: a request whose page the well does not know joins the miss-merge table; one that its entry lets through moves in sector requests that carry
all of its bytes; one that it forbids freezes its PE with a protection fault, and one whose page is missing parks. A completed walk fills the buffer; a refused request
comes back after 64 cycles; software replays or drops what is parked. An invalidation takes its entries away and counts when it is complete.
Memory is free of errors where an event is posted (its accesses follow log 123). That the source of the events and of a drop's error is the well is the model's choice
(log 31). -/
def Obligations.TranslationServed : Prop :=
  (∀ (s : State) (id : Nat) (r : Req) (p : ReqPart), AtWell s id r p →
    (wellKnows s r p = none → ∃ t : State, ∃ (q : Req), exec (.wellTranslate id) s = .next t ∧ reqAt t id = some q ∧ q.st = .walking ∧
      (getBulk t r.bh).mmt.contains (r.vf, p.va / 2 ^ 14) = true ∧ t = { s with reqs := t.reqs, bhs := t.bhs }) ∧
    (∀ pa comp hostc win tag, wellKnows s r p = some (.ok pa comp hostc win) → r.owner = .tag tag → r.pieces = [] → r.supply = [] → 0 < p.len →
      (∀ x ∈ s.stores, x.cfg ≠ r.cfg) →
      ∃ t : State, ∃ (q : Req), exec (.wellTranslate id) s = .next t ∧ reqAt t id = some q ∧ q.st = .moving ∧ t.regs = s.regs ∧ (∀ a, memByte t a = memByte s a) ∧
        ∀ i < p.len, ∃ x ∈ q.pieces, x.stage = .waiting ∧ x.comp = comp ∧ x.hostc = hostc ∧ x.off ≤ p.off + i ∧ p.off + i < x.off + x.len ∧
          x.pa + (p.off + i - x.off) = pa + i) ∧
    (∀ b i reason lv va, wellKnows s r p = some (.bad reason lv va) → r.agent = .pe b i → 0x10 ≤ reason → standsIn s b i r.vf = true →
      (getPE s b i).frozen = none → fdomOf s r.lid r.task = false → cleanMemory s →
      ∃ t : State, ∃ (q : Req), exec (.wellTranslate id) s = .next t ∧ reqAt t id = some q ∧ q.st = .frozen ∧ (getPE t b i).frozen = some (.protection id) ∧
        sget 0 t.evSeq (wellSrc r.bh) = (sget 0 s.evSeq (wellSrc r.bh) + 1) % 2 ^ 32 ∧ SameRegs s t) ∧
    (∀ reason lv va, wellKnows s r p = some (.bad reason lv va) → reason < 0x10 → parkShared s r.bh < 4096 - 8 * (tableVfs s r.bh).length → cleanMemory s →
      ∃ t : State, ∃ (q : Req) (pid : Nat), exec (.wellTranslate id) s = .next t ∧ reqAt t id = some q ∧ q.st = .parked pid false ∧ parkOpen t r.bh pid = true ∧
        SameRegs s t)) ∧
  (∀ (s : State) (b vf vpage : Nat),
    let found := walk s b vf (vpage * 2 ^ 14)
    bhRuns s b = true → ((getBulk s b).mmt.take 32).contains (vf, vpage) = true → invalidating s b vf vpage (walkLevel found) = false →
    (∀ pte lv, found = .leaf pte lv → ∃ t : State, exec (.pageWalkComplete b vf vpage) s = .next t ∧
      (getBulk t b).mmt = (getBulk s b).mmt.filter (fun e => e != (vf, vpage)) ∧
      ∃ e ∈ (getBulk t b).tlb, e.vf = vf ∧ e.level = lv ∧ e.vidx = vpage * 2 ^ 14 / 2 ^ levelShift lv ∧ e.pte = word pte) ∧
    (∀ reason lv, found = .fault reason lv → ∃ t : State, exec (.pageWalkComplete b vf vpage) s = .next t ∧
      (getBulk t b).mmt = (getBulk s b).mmt.filter (fun e => e != (vf, vpage)) ∧ (getBulk t b).tlb = (getBulk s b).tlb)) ∧
  (∀ (s : State) (id c : Nat) (r : Req), reqAt s id = some r → r.st = .refused c → c ≤ cycleOf s r.bh → bhRuns s r.bh = true →
    ∃ t : State, ∃ (q : Req), exec (.parkRefusedRetry id) s = .next t ∧ reqAt t id = some q ∧ q.st = .atWell ∧ q.ord = s.nextId ∧ (∀ p ∈ q.parts, p.res = none) ∧
      t = { s with reqs := t.reqs, nextId := s.nextId + 1 }) ∧
  (∀ (s : State) (b pid : Nat),
    let err (t : State) : Prop := t = { s with regs := t.regs } ∧ regBits t b 0x10210 1 1 = 1
    (parkOpen s b pid = false → ∃ t : State, exec (.fqctlReplay b pid) s = .next t ∧ err t) ∧
    (parkOpen s b pid = false → ∃ t : State, exec (.fqctlDrop b pid) s = .next t ∧ err t) ∧
    (∀ op, op % 4 = 3 → ∃ t : State, exec (.fqctlBadOp b op pid) s = .next t ∧ err t) ∧
    (∀ r p, parkOpen s b pid = true → parkedUnder s b pid = [r] → reqAt s r.id = some r → r.parts = [p] → wellKnows s r p = none → bhRuns s b = true →
      (getBulk s b).mmt.length < 1024 → (∀ q ∈ s.reqs, q.bh = b → q.st ≠ .atWell ∧ q.st ≠ .walking) →
      ∃ t : State, ∃ (q : Req), exec (.fqctlReplay b pid) s = .next t ∧ parkOpen t b pid = false ∧ reqAt t r.id = some q ∧ q.st = .walking) ∧
    (∀ r tag, parkOpen s b pid = true → parkedUnder s b pid = [r] → reqAt s r.id = some r → r.owner = .tag tag → r.err = none →
      ∃ t : State, ∃ (q : Req), exec (.fqctlDrop b pid) s = .next t ∧ parkOpen t b pid = false ∧ reqAt t r.id = some q ∧ q.st = .finished ∧
        q.err = some (newError s (wellSrc b) 0x09).1)) ∧
  (∀ (s : State) (b vf vpage : Nat),
    let begun (t : State) : Prop := regBits t b 0x10210 0 1 = 1 ∧ ∃ v, (getBulk t b).invals = [v] ∧ v.begun = true
    ((getBulk s b).invals = [] →
      (∃ t : State, exec (.xbinvVf b vf) s = .next t ∧ begun t ∧ ∀ e ∈ (getBulk t b).tlb, e.vf ≠ vf) ∧
      (∃ t : State, exec (.xbinvVa b vf vpage) s = .next t ∧ begun t ∧
        ∀ e ∈ (getBulk t b).tlb, ¬(e.vf = vf ∧ e.vidx = vpage * 2 ^ 14 / 2 ^ levelShift e.level)) ∧
      (∃ t : State, exec (.xbinvAll b) s = .next t ∧ begun t ∧ (getBulk t b).tlb = []) ∧
      (∃ t : State, exec (.xbinvBad b) s = .next t ∧ (getBulk t b).invals = [] ∧ regBits t b 0x10210 1 1 = 1 ∧ (getBulk t b).tlb = (getBulk s b).tlb)) ∧
    (0 < (getBulk s b).invals.length → (getBulk s b).invals.length < 9 → ∃ t : State, exec (.xbinvVf b vf) s = .next t ∧ t.regs = s.regs ∧
      (getBulk t b).tlb = (getBulk s b).tlb ∧ ∃ v, (getBulk t b).invals = (getBulk s b).invals ++ [v] ∧ v.begun = false) ∧
    (9 ≤ (getBulk s b).invals.length →
      exec (.xbinvVf b vf) s = .next s ∧ exec (.xbinvVa b vf vpage) s = .next s ∧ exec (.xbinvAll b) s = .next s ∧ exec (.xbinvBad b) s = .next s) ∧
    (∀ v vs, (getBulk s b).invals = v :: vs → v.begun = true → v.waitFor.all (invalClear s) = true → tlbClearOf s b v = true → bhRuns s b = true →
      ∃ t : State, exec (.xbinvComplete b) s = .next t ∧ (getBulk t b).invals.length = (vs.dropWhile fun x => x.kind == 3).length ∧
        regBits t b 0x10210 16 16 = (regBits s b 0x10210 16 16 + 1) % 2 ^ 16))

/-- R22, R24, R57, R64, R65, R76, R112 to R114, R118, R119, R147, R171, R407, R409, R448: a sector request takes a slot at its well, crosses gates that admit it, takes an entry at its
target, and is performed there: a read returns the bytes of memory or of a store window, or POISON where the window's unit holds an uncorrectable error, a write stores its own and no others. A gate that refuses it freezes its PE. The
host's answer completes what it holds. When every piece has come, the tag's value follows.
That a request which a gate refuses stays with its frozen PE, its GATE_DENIED withheld, is the model's choice (log 32). -/
def Obligations.SectorsMove : Prop :=
  (∀ (s : State) (id k : Nat) (r : Req) (p : Piece), PieceAt s id k r p →
    let y := targetBh p.pa
    let live : Prop := (∃ tag, r.owner = .tag tag) ∨ ∃ c row, r.owner = .cmd c row ∧ (s.cmds.any fun x => x.id == c) = true
    let home : Prop := ∀ x, landing s r = some x → standsIn s x.1 x.2.1 r.vf = true
    let same (t : State) : Prop := ∀ a, memByte t a = memByte s a
    (∀ res, p.stage = .waiting → (∀ q ∈ r.pieces.take k, q.stage ≠ .waiting) → bhRuns s r.bh = true → reqGo s r = true → detTurn s r p.pa = true →
      regionOf p.pa = .hbm → reqBlocked s r = false → rowsBehind s r p = false → (r.pieces.filter slotHeld).length < 32 → engineRoom s r = true → r.atom = none →
      (if p.bare then some false else slotTake s r) = some res →
      ∃ t : State, ∃ (q : Piece), exec (.sectorAdmit id k) s = .next t ∧ pieceIn t id k q ∧ q.stage = .slotted ∧ q.reached = r.bh ∧ q.slotRes = res ∧ q.pa = p.pa ∧
        q.len = p.len ∧ same t) ∧
    (p.stage = .slotted → p.reached ≠ y → p.ans = none → crossBehind s r p = false →
      let z := nextHop p.reached y
      let verdict := edgeJudge s r.bh y z p.reached r.vf (reqGateKind r) p.pa p.len
      (verdict = .passes → ∃ t : State, ∃ (q : Piece), exec (.edgeCrossing id k) s = .next t ∧ pieceIn t id k q ∧ q.reached = z ∧
        q.stage = (if z = y then .arrived else .slotted) ∧ t = { s with reqs := t.reqs, nextId := s.nextId + 1 }) ∧
      (∀ b i, verdict = .denied → r.agent = .pe b i → (∀ pe, r.owner ≠ .pub pe) → standsIn s b i r.vf = true → (getPE s b i).frozen = none →
        fdomOf s r.lid r.task = false → cleanMemory s →
        ∃ t : State, ∃ (q : Req), exec (.edgeCrossing id k) s = .next t ∧ reqAt t id = some q ∧ q.st = .frozen ∧ (getPE t b i).frozen = some (.gate id) ∧
          sget 0 t.evSeq (srcWord 1 z 0 4) = (sget 0 s.evSeq (srcWord 1 z 0 4) + 2) % 2 ^ 32)) ∧
    (p.stage = .arrived → bhRuns s y = true → gateBefore s y p.seq = [] → inboundShared s y < 2048 - 128 * (inboundSources s y).length → r.atom = none →
      ∃ t : State, ∃ (q : Piece), exec (.inboundAccept id k) s = .next t ∧ pieceIn t id k q ∧ q.stage = (if regionOf p.pa = .window then .window else .inbound) ∧ same t) ∧
    (p.stage = .slotted → p.reached = y → y = r.bh → regionOf p.pa = .hbm → r.atom = none → bhRuns s y = true → writeTurn s r p = true → live → home →
      p.ans = none → blockGroup r (p.pa / 2048) = [p] → cleanAt s (p.pa / 2048 * 2048) 2048 → 0 < p.len → p.pa % 2048 + p.len ≤ 2048 →
      (r.write = false → (∀ q ∈ readTogether s r, q.id = r.id → q = r) → ∃ t : State, ∃ (q : Piece) (x : Req), exec (.sectorReturn id k) s = .next t ∧ reqAt t id = some x ∧ pieceAt x k = some q ∧ q.stage = .done ∧
        q.err = none ∧ (∀ i < p.len, sget 0 x.got (p.off + i) = memByte s (p.pa + i)) ∧ same t) ∧
      (r.write = true → r.mask = [] → p.hostc = false → ∃ t : State, ∃ (q : Piece), exec (.sectorReturn id k) s = .next t ∧ pieceIn t id k q ∧ q.stage = .done ∧
        q.err = none ∧ memBytes t p.pa p.len = slice r.data p.off p.len ∧ ∀ a, a < p.pa ∨ p.pa + p.len ≤ a → memByte t a = memByte s a)) ∧
    (regionOf p.pa = .window → y = r.bh → windowReady s r p = true → live → home → 0 < p.len →
      let o := winOff p.pa
      let w := getPE s y (winPe p.pa)
      (r.write = true → p.hostc = false → 0x80000 ≤ o → o + p.len ≤ 0x100000 → ∃ t : State, ∃ (q : Piece), exec (.windowWrite id k) s = .next t ∧ pieceIn t id k q ∧ q.stage = .done ∧
        q.err = none ∧ sgets 0 (getPE t y (winPe p.pa)).tile (o - 0x80000) p.len = slice r.data p.off p.len ∧
        (∀ g ∈ windowGranules o p.len, sget false (getPE t y (winPe p.pa)).full g = true) ∧ same t) ∧
      (r.write = false → (∀ i < p.len, spoiltIn w (o + i) 1 = false) →
        ∃ t : State, ∃ (q : Piece) (x : Req), exec (.windowAccessPerform id k) s = .next t ∧ reqAt t id = some x ∧ pieceAt x k = some q ∧ q.stage = .done ∧
        (∀ i < p.len, sget 0 x.got (p.off + i) = (windowByte w (o + i)).1) ∧ same t) ∧
      (∀ i < p.len, r.write = false → spoiltIn w (o + i) 1 = true → ((resupply s r p.off p.len).supply.any fun e => e.1 == p.off + i) = false →
        ∃ t : State, ∃ (q : Piece) (e : Word), exec (.windowAccessPerform id k) s = .next t ∧ pieceIn t id k q ∧ q.stage = .done ∧ q.err = some e ∧ e.toNat % 256 = 0x08 ∧ same t)) ∧
    (∀ bs, p.stage = .host → live → home →
      let ends (err : Option Word) : Prop := ∃ t : State, ∃ (q : Piece), exec (.hostAcknowledgement id k bs) s = .next t ∧ pieceIn t id k q ∧ q.stage = .done ∧ q.err = err ∧ same t
      (p.ans = none → (r.write = true ∨ bs.length = p.len) → ends none) ∧ (∀ d, p.ans = some d → y = r.bh → ends d.err))) ∧
  (∀ (s : State) (b pe tag : Nat) (g : Tag) (r : Req), (s.reqs.find? fun r => r.owner == .tag tag && r.agent == .pe b pe && r.st == .finished) = some r →
    ((getPE s b pe).fetch.find? fun t => t.id == tag) = some g → standsIn s b pe r.vf = true → g.st ≠ .replied → g.code ≠ 0x144 →
    (getPE s b pe).frozen = none → bhRuns s b = true → g.f.bh = b → g.f.pe = pe → (∀ l, launchAt s g.f.lid = some l → l.halted = false) →
    r.err = none → (∀ p ∈ r.pieces, p.err = none) →
    ∃ t : State, ∃ (it : Issued), exec (.fetchReply b pe tag) s = .next t ∧ (getPE t b pe).issued = (getPE s b pe).issued ++ [it] ∧ it.due = cycleOf s b + 1 ∧
      it.emits = g.dests.map (fun d => Emit.mk (.fixed d) .value (extend g.node.ty (leNat (reqBytes r))) false) ∧ it.effects = [.tagFree g.id] ∧
      it.flags = (g.flags ||| r.flags) ∧ t.regs = s.regs ∧ ∀ a, memByte t a = memByte s a)

/-- R126, R128, R131, R145, R148, R153, R154, R180, R209, R376, R447: a sparse-update unit performs the atomic at the head of its queue, and a join lowers its counter by
one, beginning a continuation at zero; a corrected codeword is written back; a scrub step repairs or poisons the sectors it meets; an install that a write of BCCTL
began decodes its source and writes the block whole; an access of the host writes what it carries and nothing else. That a host access past the
stacks faults as hostUnmapped is the model's choice (log 116). -/
def Obligations.HbmUnitsWork : Prop :=
  (∀ (s : State) (b ch : Nat) (r : Req) (p : Piece) (a : AtomOp), bhRuns s b = true → unitHead s b ch = some (r, p) → r.atom = some a → reqAt s r.id = some r →
    regionOf p.pa = .hbm → stackOf p.pa = b → r.bh = b → cleanAt s (p.pa / 2048 * 2048) 2048 → p.pa % 2048 + p.len ≤ 2048 → p.hostc = false →
    let old := leNat (memBytes s p.pa p.len)
    let apart (t : State) : Prop := ∀ x, x < p.pa ∨ p.pa + p.len ≤ x → memByte t x = memByte s x
    (∀ tag, a.op ≠ 9 → r.owner = .tag tag → landing s r = none → 0 < p.len → ∃ t : State, ∃ (q : Req), exec (.sparseUpdateOp b ch) s = .next t ∧ reqAt t r.id = some q ∧
      q.flags = r.flags ||| (atomResult a old).2 ∧ (∀ i < p.len, sget 0 q.got (p.off + i) = memByte s (p.pa + i)) ∧
      memBytes t p.pa p.len = leBytes p.len ((atomResult a old).1.getD old) ∧ apart t) ∧
    (a.op = 9 → r.owner = .join → r.pieces = [p] → r.flags = 0 → r.err = none → r.st = .moving → p.len = 8 →
      let c := (old + 2 ^ 64 - 1) % 2 ^ 64
      (c < 2 ^ 63 → ∃ t : State, exec (.joinCounterUpdate b ch) s = .next t ∧ memBytes t p.pa 8 = leBytes 8 c ∧ apart t ∧
        (c = 0 → ∃ k ∈ t.cmds, k.code = 0x201 ∧ k.aux = r.va ∧ k.f.bh = r.bh ∧ k.f.vf = r.vf ∧ k.f.task = r.task) ∧ (c ≠ 0 → t.cmds = s.cmds)) ∧
      (2 ^ 63 ≤ c → cleanMemory s → ∃ t : State, exec (.joinCounterUpdate b ch) s = .next t ∧
        sget 0 t.evSeq (srcWord 1 b ch 2) = (sget 0 s.evSeq (srcWord 1 b ch 2) + 1) % 2 ^ 32))) ∧
  (∀ (s : State) (cw : Nat), eccOf s cw = .correctable → sectorBusy s (cw * 32) = false →
    ∃ t : State, exec (.eccWriteback cw) s = .next t ∧ t = { s with ecc := t.ecc } ∧ eccOf t cw = .good ∧ ∀ c, c ≠ cw → eccOf t c = eccOf s c) ∧
  (∀ (s : State) (b : Nat), regBits s b 0x11018 16 1 = 1 → (getBulk s b).scrubAt ≤ cycleOf s b → bhRuns s b = true →
    ∃ t : State, exec (.scrubStep b) s = .next t ∧ (getBulk t b).scrubOff = ((getBulk s b).scrubOff + 1) % 2 ^ 23 ∧
      (getBulk t b).scrubAt = cycleOf s b + max 64 (regBits s b 0x11018 0 16) ∧
      ∀ ch < 32, ∀ i < 8,
        let pa := scrubSector b ch (getBulk s b).scrubOff
        sectorBusy s pa = false →
          (eccOf s (pa / 32 + i) = .correctable → eccOf t (pa / 32 + i) = .good) ∧
          (eccOf s (pa / 32 + i) = .uncorrectable → bits (regGet s b 0x20028).toNat 6 42 = 0 → eccOf t (pa / 32 + i) = .poisoned)) ∧
  (∀ (s : State) (b : Nat) (md : Byte),
    let pa := b * 2 ^ 36 + bits (regGet s b 0x11020).toNat 11 25 * 2048
    let n := if md = mdZero ∨ md = mdConst then 1 else metaSectors md
    let src := installSource (bcEnd s b) b (bits (regGet s b 0x11028).toNat 8 40 * 256) (256 * n)
    let idle (t : State) : Prop := regBits t b 0x11038 0 1 = 0
    let err (t : State) : Prop := t = { s with regs := t.regs } ∧ regBits t b 0x11038 1 1 = 1
    (bcRuns s b (1 + 4 * md.toNat) = true →
      (∀ bs block, metaDecoded md = true → src.1 = some bs → blockDecode md bs = some block → ∃ t : State, exec (.blockInstall b md) s = .next t ∧
        memBytes t pa block.length = block ∧ blockMeta t (pa / 2048) = md ∧ (∀ i < 64, eccOf t (pa / 32 + i) = .good) ∧ idle t ∧
        ∀ x, x < pa ∨ pa + block.length ≤ x → memByte t x = memByte src.2 x) ∧
      (metaDecoded md = false → ∃ t : State, exec (.blockInstall b md) s = .next t ∧ err t ∧ idle t)) ∧
    (bcRuns s b (1 + 4 * md.toNat) = false → exec (.blockInstall b md) s = .next s) ∧
    (∃ t : State, exec (.bcctlBadOp b) s = .next t ∧ err t) ∧
    (bcReads s b = true → ∃ t : State, exec (.blockMetaRead b) s = .next t ∧ t = { s with regs := t.regs } ∧ idle t ∧ regBits t b 0x11038 2 8 =
      (let blk := b * 2 ^ 25 + bits (regGet s b 0x11020).toNat 11 25; if blockLost s blk then 0 else (blockMeta s blk).toNat)) ∧
    (bcReads s b = false → exec (.blockMetaRead b) s = .next s)) ∧
  (∀ (s : State) (pa : Nat) (bs : List Byte), s.powered = true → bs ≠ [] →
    let onlyWstat (t : State) : Prop := ∀ b off, off ≠ 0x11000 → regGet t b off = regGet s b off
    (pa + bs.length ≤ 12 * 2 ^ 36 → cleanAt s (pa / 2048 * 2048) ((pa + bs.length - 1) / 2048 * 2048 + 2048 - pa / 2048 * 2048) →
      (∃ t : State, exec (.hostMemAccess true pa bs) s = .next t ∧ memBytes t pa bs.length = bs ∧ (∀ x, x < pa ∨ pa + bs.length ≤ x → memByte t x = memByte s x) ∧
        t = { s with mem := t.mem, bmeta := t.bmeta, ecc := t.ecc, regs := t.regs } ∧ onlyWstat t) ∧
      (∃ t : State, exec (.hostMemAccess false pa bs) s = .next t ∧ t = { s with regs := t.regs } ∧ onlyWstat t)) ∧
    (12 * 2 ^ 36 < pa + bs.length → ∀ w, exec (.hostMemAccess w pa bs) s = .fault .hostUnmapped))

/-- R146, R159, R161, R163, R165, R166: a boundary that can complete publishes the pending stores of its phase: every byte that some of them write stands, under a byte
mask, in a write of the publication, with the byte of a store that R163 lets survive, and no other byte does; the stores leave with those writes, and the group
goes on to the next phase. Stores that find the cistern full make one CISTERN_FULL event for their group, and with CFAULT they fail:
that the firings which wait are marked, and fail as they issue (NodeStoresStayPending), is the model's choice (log 35). -/
def Obligations.BoundariesPublish : Prop :=
  (∀ (s : State) (cfg : Nat) (c : Placed), cfgAt s cfg = some c → boundaryReady s c = true →
    let mine (x : PStore) : Bool := x.cfg == cfg && x.phase == c.boundary && !x.parts.isEmpty
    let xs := ((s.stores.filter mine).map pubBytes).flatten
    ∃ t : State, ∃ (g : Placed), exec (.phaseBoundary cfg) s = .next t ∧ cfgAt t cfg = some g ∧ g.boundary = c.boundary + 1 ∧
      g.arrivals = c.arrivals.filter (fun a => a.2.2.1 != c.boundary) ∧
      (∀ x ∈ t.stores, mine x = true → x.leaving ≠ none) ∧ (∀ x ∈ s.stores, mine x = false → x.leaving = none → x ∈ t.stores) ∧
      (∀ pe ∈ rectPes c, ∀ i ∈ (getPE t c.bh pe).issued, i.wait ≠ .phase cfg c.boundary) ∧
      (∀ a, (∃ x ∈ xs, x.pa = a) → ∃ r ∈ t.reqs, (∃ pe, r.owner = .pub pe) ∧ ∃ p ∈ r.pieces, p.pa ≤ a ∧ a < p.pa + p.len ∧ maskAt r.mask (p.off + (a - p.pa)) = true ∧
        ∃ y ∈ candidates c.mode (xs.filter fun x => x.pa == a), r.data.getD (p.off + (a - p.pa)) 0 = y.byte) ∧
      (∀ r ∈ t.reqs, r ∉ s.reqs → ∀ p ∈ r.pieces, ∀ i < p.len, maskAt r.mask (p.off + i) = true → ∃ x ∈ xs, x.pa = p.pa + i) ∧
      t.regs = s.regs ∧ ∀ a, memByte t a = memByte s a) ∧
  (∀ (s : State) (b vf g : Nat), storeWaiters s b vf ≠ [] → (∀ f ∈ storeWaiters s b vf, f.cfg = g) → (getBulk s b).cfPosted.contains g = false →
    (∀ r ∈ s.reqs, r.vf = vf → r.bh = b → (∃ pe, r.owner = .pub pe) → waitClear s (2 * r.id) = true) → (getBulk s b).stuck.contains vf = true →
    bhRuns s b = true → cleanMemory s → ∃ t : State, exec (.cisternFull b vf) s = .next t ∧ sget 0 t.evSeq (wellSrc b) = (sget 0 s.evSeq (wellSrc b) + 1) % 2 ^ 32 ∧
      (getBulk t b).cfPosted = (getBulk s b).cfPosted ++ [g] ∧
      (getBulk t b).cfMode = (getBulk s b).cfMode ++ (if bitAt (vfScope s vf) 4 then [(vf, g)] else []) ∧ SameRegs s t ∧ t.stores = s.stores ∧
      (bitAt (vfScope s vf) 4 = true → ∀ pe ∈ storePes s b vf, ∀ f ∈ (getPE s b pe).ready, f.vf = vf → f.cfg = g → storeWaits s (getPE s b pe) f = true →
        { f with fails := true } ∈ (getPE t b pe).ready))

/-- R64, R121, R173, R202 to R208, R433: an engine command that ACQ holds back begins when what it waits for is settled; one whose requests allow it completes: its answer
goes to its destinations, a count of bytes for a put, a mask for a multicast, a count of rows for a scatter, 1 for a transfer whose copy sets out as well, a handle for a
get or a gather, or the error of a part that failed; a copy of a tile that holds an uncorrectable error fails with POISON; a stream gives its elements one by one, then its count. A consumer that keeps a multicast waiting for LAG cycles
detaches. -/
def Obligations.EngineCommandsComplete : Prop :=
  (∀ (s : State) (id : Nat) (c : Cmd), cmdAt s id = some c → c.started = true → c.begun = false → cmdAwake s c = true → engineMoves s c = true →
    (acqClear s c = false → exec (.engineCompletion id) s = .next s) ∧
    (acqClear s c = true → ∃ t : State, ∃ (k : Cmd), exec (.engineCompletion id) s = .next t ∧ cmdAt t id = some k ∧ k.begun = true)) ∧
  (∀ (s : State) (id : Nat) (c : Cmd), cmdAt s id = some c → c.started = true → c.begun = true → cmdAwake s c = true → cmdReady s c = true →
    engineMoves s c = true → commandLive s c →
    let e := handleAt (getPE s c.f.bh c.f.pe) (handleIdx (payloadAt c.f .l))
    let made := handleAt (getPE s c.f.bh c.f.pe) c.hidx
    let d := descOf s c.f c.node
    let answers (k : Kind) (v : Word) : Prop := ∃ t : State, exec (.engineCompletion id) s = .next t ∧ Answers s t c k v
    let bounds := (newError s (agentSrc c.agent) 0x0C).1
    (c.code = 0x14A → match cmdError s c with | none => answers .value (word (512 * tileHeight s c.f.vf e)) | some v => answers .err v) ∧
    (c.code = 0x14E → if 0 < c.bad then answers .err bounds else match cmdError s c with | none => answers .value (word c.mask) | some v => answers .err v) ∧
    (c.code = 0x149 ∨ c.code = 0x14D → if 0 < c.bad then answers .err bounds
      else match cmdError s c with | none => answers .handle (handleWord c.hidx made.tid made.gen) | some v => answers .err v) ∧
    (copySpoilt s c = true → answers .err (newError s (agentSrc c.agent) 0x08).1) ∧
    (∀ h gen u, c.code = 0x14B → copySpoilt s c = false → tileCopy s c (bits d 4 9) = some (h, gen, u) → ∃ t : State, ∃ y, exec (.engineCompletion id) s = .next t ∧ Answers s t c .value 1 ∧
      t.flights = s.flights ++ [y] ∧ y.tok.kind = .handle ∧ y.tok.pe = bits d 4 9 ∧ y.tok.node = bits d 13 12 ∧
      y.tok.payload = handleWord h (handleAt (getPE u c.f.bh (bits d 4 9)) h).tid gen) ∧
    (∀ u k, c.code = 0x14C → copySpoilt s c = false → serveFrom 9 s c = (u, k, true) → answers .value (word k.mask)) ∧
    (c.code = 0x14F → affineCount d ≤ c.stage → ∃ t : State, exec (.engineCompletion id) s = .next t ∧ cmdAt t id = none ∧
      ∃ it ∈ (getPE t c.f.bh c.f.pe).issued, it.emits =
        ((c.dests.drop 1).filterMap (fun z => z)).map fun x => Emit.mk (.fixed x) .value (word (affineCount d)) false)) ∧
  (∀ (s : State) (id : Nat) (c : Cmd) (r : Req), cmdAt s id = some c → (cmdReqs s id).find? (fun r => r.owner == .cmd id c.stage) = some r → c.code = 0x14F →
    r.st = .finished → cmdAwake s c = true → isResident s c.f.bh c.f.pe c.f.vf = true → c.since ≤ cycleOf s c.f.bh →
    let d := descOf s c.f c.node
    ∃ t : State, ∃ (k : Cmd), exec (.streamElement id) s = .next t ∧ cmdAt t id = some k ∧ k.stage = c.stage + 1 ∧ k.since = cycleOf s c.f.bh + 1 ∧
      (∀ x xs, c.dests = some x :: xs → r.err = none → (∀ p ∈ r.pieces, p.err = none) → ∃ y, t.flights = s.flights ++ [y] ∧ y.tok.kind = .value ∧
        y.tok.payload = word (leNat (reqBytes r)) ∧ y.tok.pe = x.pe ∧ y.tok.node = x.node ∧ y.tok.port = x.port ∧ y.tok.fp = x.fp) ∧
      (c.stage + 1 < affineCount d → ∃ q ∈ t.reqs, q.owner = .cmd id (c.stage + 1) ∧ q.va = affineAddr d (streamDelta d c.f) (c.stage + 1) ∧
        q.len = 2 ^ bits d 4 2)) ∧
  (∀ (s : State) (id : Nat) (c : Cmd) (g : Placed), cmdAt s id = some c → cfgAt s c.f.cfg = some g → c.code = 0x14C → c.begun = true → cmdAwake s c = true →
    let d := descOf s c.f c.node
    let dn := bits c.node.lit.toNat 0 8
    c.stage ≤ bits d 4 3 → bits d 8 16 ≠ 0 → c.since + bits d 8 16 ≤ conCycles s c c.stage → (outGet g dn c.stage).2 = false → serveOne s c = none → cleanMemory s →
    ∃ t : State, ∃ (h : Placed), exec (.mcastLagExpire id) s = .next t ∧ cfgAt t c.f.cfg = some h ∧ outGet h dn c.stage = ((outGet g dn c.stage).1, true) ∧
      sget 0 t.evSeq (agentSrc c.agent) = (sget 0 s.evSeq (agentSrc c.agent) + 1) % 2 ^ 32 ∧ SameRegs s t ∧ t.cmds = s.cmds)

/-- R237, R270, R330, R350, R351, R364, R401, R441: a leader that waits takes its message, merges both parts and passes its handle on, or ends with PAIR_BROKEN where the
message says so; at its LIMIT it ends with LIMIT, and its message is discarded when it comes. A root combiner at its limit makes LIMIT and goes on to the next phase. The
generator serves the firing at the head of its queue. A VF that has waited 2^20 cycles for an allocation posts STARVE.
That a frozen follower breaks its leader's wait whether or not its own firing had been matched is the model's choice (log 46: R350 says 'while its firing was matched'). -/
def Obligations.PairsBarriersAndGenerators : Prop :=
  (∀ (s : State) (b pe : Nat) (it : Issued) (own : List CellSum) (limit start : Nat), (getPE s b pe).issued = [it] → it.wait = .pair own limit start → it.f.bh = b →
    it.f.pe = pe → bhRuns s b = true →
    let ends (t : State) (es : List Emit) (lo : Nat) : Prop := ∃ jt, (getPE t b pe).issued = [jt] ∧ jt.f = it.f ∧ jt.wait = .nothing ∧ jt.emits = es ∧
      jt.due = max it.due lo
    let fails (t : State) (code : Nat) : Prop := ends t (toUsed it.node .err (newError s (peSrc b pe) code).1) (cycleOf s b)
    (∀ m, pe % 2 = 0 → (getPE s b pe).discards = [] → pairFind s b pe it.f.fp = some m →
      (∀ sums, m.sums = some sums → ∃ t : State, exec (.pairMessage b pe) s = .next t ∧ t.links = (pairTake s b pe m).links ∧
        ends t (toUsed it.node .handle (payloadAt it.f .p)) (cycleOf s b + 4) ∧
        (getPE t b pe).acc = (getPE (mergeSums s b pe (handleIdx (payloadAt it.f .p)) [own, sums]).1 b pe).acc) ∧
      (m.sums = none → ∃ t : State, exec (.pairMessage b pe) s = .next t ∧ t.links = (pairTake s b pe m).links ∧ fails t 0x0F)) ∧
    (pe % 2 = 0 → (getPE s b pe).discards = [] → pairFind s b pe it.f.fp = none → (getPE s b (pairOther pe)).frozen.isSome = true →
      ∃ t : State, exec (.pairMessage b pe) s = .next t ∧ fails t 0x0F ∧ t.links = s.links) ∧
    (limit ≠ 0 → start + 64 * limit ≤ (getSlot s b (slotOf pe)).resCycles → pairFind s b pe it.f.fp = none → ∃ t : State, exec (.pairLimitExpire b pe 0) s = .next t ∧
      fails t 0x10 ∧ (getPE t b pe).discards = (getPE s b pe).discards ++ [{ node := it.f.node, fp := it.f.fp, id := it.id }])) ∧
  (∀ (s : State) (b pe node fp since : Nat) (tm : BarTimer) (c : Placed) (o : OpInfo) (n : Node), barTimer (getPE s b pe) node fp = some tm → tm.since = some since →
    cfgCovering s b pe (getSlot s b (slotOf pe)).vf node = some c → nodeInfo (getPE s b pe) node = some (o, n) → o.code = 0x187 → n.lit.getLsbD 4 = true →
    barLimit s c.lid ≠ 0 → (getSlot s b (slotOf pe)).st = .resident → bhRuns s b = true → since + 64 * barLimit s c.lid ≤ (getSlot s b (slotOf pe)).resCycles →
    (getPE s b pe).hold = [] →
    let x := barRead (getPE s b pe) node fp n.slot.toNat
    x.c1 < (n.lit.extractLsb' 5 11).toNat + 1 → ∃ t : State, ∃ (it : Issued), exec (.barrierLimitExpire b pe node fp) s = .next t ∧
      (getPE t b pe).issued = (getPE s b pe).issued ++ [it] ∧ it.f.node = node ∧ it.f.fp = fp ∧
      it.emits = (toUsed n .err (newError s (peSrc b pe) 0x10).1).map (fun e => { e with vc1 := true }) ∧
      (let y := barRead (getPE t b pe) node fp n.slot.toNat; y.cur = (x.cur + 1) % 2 ^ 32 ∧ y.c0 = x.c1 ∧ y.a0 = x.a1 ∧ y.c1 = 0 ∧ y.a1 = false)) ∧
  (∀ (s : State) (b sl pe id : Nat) (q : List (Nat × Nat)) (it : Issued), (getSlot s b sl).rngAt ≤ cycleOf s b → (getSlot s b sl).st ≠ .idle → bhRuns s b = true →
    (getSlot s b sl).rngQueue = (pe, id) :: q → ((getPE s b pe).issued.find? fun i => i.id == id) = some it → it.f.bh = b → it.f.pe = pe →
    let x := getSlot s b sl
    let set (t : State) (due : Nat) (es : List Emit) : Prop := ∃ jt ∈ (getPE t b pe).issued, jt.id = id ∧ jt.f = it.f ∧ jt.wait = .nothing ∧ jt.due = due ∧ jt.emits = es
    let kind := (nodeInfo (getPE s b pe) it.f.node).map fun y => y.1.code
    (kind = some 0x1C6 → ∃ t : State, exec (.rngGeneratorServe b sl) s = .next t ∧ set t (cycleOf s b + 1) (toUsed it.node .value x.rngCtr) ∧
      getSlot t b sl = { x with rngQueue := q, rngKey := payloadAt it.f .l, rngStream := it.node.lit.setWidth 32, rngCtr := 0 }) ∧
    (∀ h fx, kind ≠ some 0x1C6 → it.effects = .produced h :: fx → ∃ t : State, exec (.rngGeneratorServe b sl) s = .next t ∧
      set t (cycleOf s b + 130) it.emits ∧ getSlot t b sl = { x with rngQueue := q, rngCtr := x.rngCtr + 512, rngAt := cycleOf s b + 128 } ∧
      (getPE t b pe).tile = (tileFill (getPE s b pe) (handleAt (getPE s b pe) h).pages (rngTile x.rngKey.toNat x.rngStream.toNat x.rngCtr.toNat)).tile)) ∧
  (∀ (s : State) (b vf : Nat), (getBulk s b).posted.contains vf = false → sget 0 (getBulk s b).lastIssue vf + 2 ^ 20 ≤ cycleOf s b → bhRuns s b = true →
    (∃ w ∈ starveCases s b vf, w.2.2.2 + 2 ^ 20 ≤ cycleOf s b) → cleanMemory s → ∃ t : State, exec (.starve b vf) s = .next t ∧
      (getBulk t b).posted = (getBulk s b).posted ++ [vf] ∧ sget 0 t.evSeq (seqrSrc b) = (sget 0 s.evSeq (seqrSrc b) + 1) % 2 ^ 32 ∧ SameRegs s t)

/-- R105, R107, R108, R230, R365, R373, R387, R388: a load whose image is sound goes on to the placer, one that is rejected answers CONFIG_REJECT, one that was abandoned reads its image
again; a placed image of a node is valid at its place and answered with its word. The one record of a launch queue becomes a launch with a new LID, which stands in its RCB; a
launch starts with its root frame and the tokens of its entry words, for which the arguments past the eighth are read once the frame stands; a quiescent launch ends: its stores
are published, then its configurations are gone, and when its completion record is written it is over.
That a launch belongs to the OWNER of its queue (log 54), that every configuration loaded under it is dropped with it (log 63) and that the LID bytes of its RCB are
written as it is taken (log 132) are the model's choices. -/
def Obligations.LaunchesProceed : Prop :=
  (∀ (s : State) (id : Nat) (c : Cmd), cmdAt s id = some c → isLoad c = true → loadAwake s c = true →
    (∀ r, c.stage = 1 → commandRow s c 1 = some r → r.st = .finished → reqError r = none →
      let i := imageOf (reqBytes r)
      let bad := imageReject i (rootVf s c.f.bh == c.f.vf) (liveTids s c.f.vf)
      (bad = none → ∃ t : State, exec (.placementRetry id) s = .next t ∧ cmdAt t id = some { c with stage := 2, bytes := i.bytes, since := s.nextId } ∧
        t = { s with cmds := t.cmds, reqs := t.reqs, nextId := s.nextId + 1 }) ∧
      (∀ x, bad = some x → c.code = 0x1C7 → commandLive s c → cleanMemory s → ∃ t : State, exec (.placementRetry id) s = .next t ∧
        Answers s t c .err (newError s (seqrSrc c.f.bh) 0x13).1 ∧
        sget 0 t.evSeq (seqrSrc c.f.bh) = (sget 0 s.evSeq (seqrSrc c.f.bh) + 1) % 2 ^ 32)) ∧
    (∀ ox oy, c.stage = 2 → loadBehind s c = false → placerDecide s c.f.bh c.f.vf (shapeOf (imageOf c.bytes)) = .put ox oy →
      imageReject (imageOf c.bytes) (rootVf s c.f.bh == c.f.vf) (liveTids s c.f.vf) = none → c.code = 0x1C7 →
      c.node.lit.getLsbD 3 = false → commandLive s c → (∀ g ∈ s.cfgs, g.id ≠ s.nextId) → ∃ t : State, ∃ (g : Placed), exec (.placementRetry id) s = .next t ∧
        cfgAt t s.nextId = some g ∧ g.valid = true ∧ g.bh = c.f.bh ∧ g.vf = c.f.vf ∧ g.ox = ox ∧ g.oy = oy ∧ g.w = (imageOf c.bytes).w ∧ g.h = (imageOf c.bytes).h ∧
        Answers s t c .value (cfgWord g false 0)) ∧
    (c.stage = 8 → ∃ t : State, ∃ (q : Req), exec (.placementRetry id) s = .next t ∧ t.reqs = s.reqs ++ [q] ∧ q.va = loadImage s c % 2 ^ 64 ∧ q.len = 64 ∧ q.write = false ∧
      cmdAt t id = some { c with stage := 0, bytes := [] })) ∧
  (∀ (s : State) (b q : Nat), qEn s b q = true → qKind s b q = 2 → qLen s b q = 1 → bhRuns s b = true →
    let a := qEntry s b q (qHead s b q)
    let rec_ := memBytes s a 128
    let lid := b * 2 ^ 12 + (getBulk s b).lidNext % 2 ^ 12
    let rcb := recWord rec_ 8
    cleanMemory s → rcb % 128 = 0 →
    ∃ t : State, exec (.launchTake b q) s = .next t ∧ launchAt t lid = some (launchOf rec_ lid b (qOwner s b q) (recordPrio s rec_)) ∧ qLen t b q = 0 ∧
      (getBulk t b).lidNext = (getBulk s b).lidNext + 1 ∧ (rcb ≠ 0 → memBytes t (rcb + 104) 2 = leBytes 2 lid) ∧
      (∀ x, rcb = 0 ∨ x < rcb + 104 ∨ rcb + 106 ≤ x → memByte t x = memByte s x) ∧ ∃ k ∈ t.cmds, k.code = 0x200 ∧ k.f.lid = lid) ∧
  (∀ (s : State) (lid : Nat) (l : Launch), launchAt s lid = some l → bhRuns s l.bh = true →
    (∀ c g, l.st = .starting → (s.cmds.find? fun c => c.code == codeLaunchLoad && c.f.lid == lid && (c.stage == 3 || c.stage == 4)) = some c → cfgAt s l.cfg = some g →
      cfgStands s g = true →
      let n := (imageOf c.bytes).nentry
      let runs (fp : Nat) (args : List Word) : Prop := ∃ t : State, ∃ ys, exec (.launchStart lid) s = .next t ∧ launchAt t lid = some { l with st := .running, rootFp := fp } ∧
        t.flights = s.flights ++ ys ∧ ys.length = (imageEntries (imageOf c.bytes)).length ∧ cmdAt t c.id = none ∧
        ∀ k y, ys[k]? = some y → y.tok.fp = fp ∧ y.tok.kind = .value ∧ y.tok.bh = g.bh ∧ y.tok.prio = l.prio ∧ y.tok.payload = args.getD k 0
      (∀ fp u, c.stage = 3 → frameAlloc s g l.cls none lid none true = some (fp, u) →
        (n ≤ 8 → runs fp l.args) ∧
        (8 < n → ∃ t : State, ∃ r, exec (.launchStart lid) s = .next t ∧ t.reqs = s.reqs ++ [r] ∧ r.va = l.argptr % 2 ^ 64 ∧ r.len = 8 * (n - 8) ∧ r.write = false ∧
          r.owner = .cmd c.id 2 ∧ cmdAt t c.id = some { c with stage := 4, aux := fp } ∧ launchAt t lid = some l ∧ t.flights = s.flights)) ∧
      (∀ r, c.stage = 4 → commandRow s c 2 = some r → r.st = .finished → reqError r = none →
        runs c.aux (l.args ++ (List.range (n - 8)).map fun k => word (fieldAt (reqBytes r) (8 * k) 8)))) ∧
    (l.st = .running → quiescent s l = true → ∃ t : State, exec (.launchQuiesce lid) s = .next t ∧ launchAt t lid = some { l with st := .ending, exit := 0 } ∧
      t = { s with launches := t.launches }) ∧
    (l.st = .ending → launchBusy s l false = false → (s.cmds.find? fun c => c.code == codeLaunchEnd && c.f.lid == lid) = none →
      ∃ t : State, ∃ (k : Cmd), exec (.launchEnd lid) s = .next t ∧ k ∈ t.cmds ∧ k.code = 0x203 ∧ k.f.lid = lid ∧ k.stage = 0 ∧ launchAt t lid = some l ∧
        ∀ a, memByte t a = memByte s a) ∧
    (∀ c, l.st = .ending → launchBusy s l false = false → (s.cmds.find? fun c => c.code == codeLaunchEnd && c.f.lid == lid) = some c →
      c.waitFor.all (waitClear s) = true →
      (c.stage = 0 → ∃ t : State, ∃ (k : Cmd), exec (.launchEnd lid) s = .next t ∧ k ∈ t.cmds ∧ k.code = 0x203 ∧ k.f.lid = lid ∧ k.stage = 1 ∧ (∀ g ∈ t.cfgs, g.lid ≠ lid) ∧
        (l.compl ≠ 0 → ∃ r ∈ t.reqs, r.va = l.compl % 2 ^ 64 ∧ r.write = true ∧ r.data = complBytes l)) ∧
      (c.stage ≠ 0 → (∀ r, commandRow s c 0 = some r → r.st = .finished ∧ reqError r = none) → cleanMemory s → ∃ t : State, exec (.launchEnd lid) s = .next t ∧
        launchAt t lid = none ∧ cmdAt t c.id = none ∧ sget 0 t.evSeq (seqrSrc l.bh) = (sget 0 s.evSeq (seqrSrc l.bh) + 1) % 2 ^ 32)))

/-- R367, R375, R378, R382, R385, R386, R389: a task record, the first that reached the controller, is accepted as its launch's next task, charged from its task group's RCB or its launch's; an accepted task whose pages are translated waits, or is READY where it has nothing to wait
for; the dispatch decision runs the head task of a VF: its token goes to its node with its number; a task with no frame and no work left drains and then retires, and
sends its join. -/
def Obligations.TasksProceed : Prop :=
  (∀ (s : State) (id : Nat) (c : Cmd) (l : Launch), cmdAt s id = some c → c.stage = 2 → c.code = 0x180 → bhRuns s (capBh (cmdCap c)) = true →
    (∀ x ∈ s.cmds, x.stage = 2 → x.scope = c.scope → x.code = 0x180 ∨ x.code = 0x201 → c.aux ≤ x.aux) → launchAt s c.scope = some l → l.st ≠ .ending →
    let payer := if recWord c.bytes 16 ≠ 0 then recWord c.bytes 16 else chargeAddr s l.vf l.lid none
    poolRoom s l.bh 4096 16 l.vf (tableTasks s l.bh) = true → budgetOk (rcbNote s payer) payer .task 1 = true → commandLive s c → cleanMemory s →
    replyBlocked s c.f.bh (capBh (cmdCap c)) 8 c.f.bh = none →
    ∃ t : State, ∃ k m, exec (.taskAccept id) s = .next t ∧ t.tasks = s.tasks ++ [k] ∧ k.seq = l.taskSeq ∧ k.st = .accepted ∧ k.lid = l.lid ∧ k.vf = l.vf ∧
      k.tw = word (recWord c.bytes 0) ∧ k.join = recWord c.bytes 8 ∧ launchAt t c.scope = some m ∧ m.taskSeq = l.taskSeq + 1 ∧ Answers s t c .value (word l.taskSeq)) ∧
  (∀ (s : State) (id : Nat) (k : Task), cmdAt s id = none → taskOf s id = some k → k.st = .accepted → bhRuns s k.bh = true →
    (∀ u ∈ s.tasks, u.lid = k.lid → u.st = .accepted → k.seq ≤ u.seq) → ∃ t : State, ∃ (u : Task), exec (.taskAccept id) s = .next t ∧ taskOf t id = some u ∧
      (u.st = .waiting ∨ u.st = .ready) ∧ (k.pages = [] → u.st = .ready) ∧ u.seq = k.seq ∧ t.flights = s.flights) ∧
  (∀ (s : State) (b v ptr n : Nat) (k : Task),
    let vfs := s.tasks.foldl (fun m t => if t.bh = b then sins m t.vf () else m) ([] : SMap Unit)
    let cand := (vfs.map (·.1)).filter fun v => (headTask s b v).isSome
    cand ≠ [] → (getBulk s b).dispAt ≤ cycleOf s b → bhRuns s b = true → dispatchPick s b cand = some (v, ptr, n) → headTask s b v = some k →
    (k.rcb = 0 ∨ (rcbAt s k.rcb).isSome = true) →
    ∃ t : State, ∃ (u : Task) (y : Flight), exec (.dispatchDecision b) s = .next t ∧ taskOf t k.id = some u ∧ u.st = .running ∧ t.flights = s.flights ++ [y] ∧ y.tok.payload = word k.seq ∧
      y.tok.node = bits k.tw.toNat 9 12 ∧ y.tok.kind = .value ∧ (getBulk t b).rrVf = ptr ∧ (getBulk t b).rrCount = n ∧ (getBulk t b).dispAt = cycleOf s b + 2) ∧
  (∀ (s : State) (id : Nat) (k : Task), taskOf s id = some k → bhRuns s k.bh = true → taskFrames s k = false → taskBusy s k = false →
    (k.st = .running → ∃ t : State, ∃ (u : Task), exec (.taskComplete id) s = .next t ∧ taskOf t id = some u ∧ u.st = .draining) ∧
    (k.st = .draining → k.waitFor.all (waitClear s) = true → ∃ t : State, exec (.taskComplete id) s = .next t ∧ (∀ u ∈ t.tasks, u.id ≠ id) ∧
      (k.join = 0 → t.reqs = s.reqs) ∧ (k.join ≠ 0 → k.join % 8 = 0 → ∃ r, t.reqs = s.reqs ++ [r] ∧ r.va = k.join % 2 ^ 64 ∧ (∃ a, r.atom = some a ∧ a.op = 9))))

/-- R39, R390 to R395, R425, R431, R432: at the end of its quantum a VF goes to be saved where another is runnable, and keeps its slot with its count at zero where none is; a save clears
the slot and keeps its context; a restore makes its VF resident, or resets it where the
context was corrupted. A slot that its owner does not need is lent to a VF as its only entry, and reclaimed by switching the borrower out. A
fold, which is made as its cycle ends, adds the slot's delta to the VF's counter. That a quantum ends early in a slot where its VF holds nothing, also with an entry there,
and that the count then starts again (log 76), and that the owner's QUANT words are kept beside a lent slot (log 77) are the model's choices. -/
def Obligations.SlotsSwitch : Prop :=
  (∀ (s : State) (b sl : Nat), b < 12 → sl < 32 → bhRuns s b = true →
    let x := getSlot s b sl
    (x.st = .resident → quantumOf s b sl x.vf ≤ x.qcount ∨ x.endNow = true ∨ slotBare s b sl x.vf = true →
      ((nextRunnable s b sl x.vf).isSome = true → ∃ t : State, exec (.quantumEnd b sl) s = .next t ∧ t = { s with slots := t.slots } ∧ (getSlot t b sl).st = .saving ∧
        (getSlot t b sl).vf = x.vf) ∧
      (nextRunnable s b sl x.vf = none → ∃ t : State, exec (.quantumEnd b sl) s = .next t ∧ t = { s with slots := t.slots } ∧
        getSlot t b sl = { x with qcount := 0, endNow := false })) ∧
    (let g := (groupSlots s b sl x.vf).filter fun y => (getSlot s b y).st == .saving && (getSlot s b y).vf == x.vf
     x.st = .saving → mcastStuck s b x.vf (g.map slotPes).flatten = none → slotsDrained s b x.vf g = true → ∃ t : State, exec (.contextSave b sl) s = .next t ∧
      ((getSlot t b sl).st = .idle ∨ (getSlot t b sl).st = .restoring) ∧ (∀ pe ∈ slotPes sl, getPE t b pe = peCleared (getPE s b pe)) ∧
      ∃ r ∈ t.saved, r.vf = x.vf ∧ r.bh = b ∧ r.sl = sl) ∧
    (∀ vf, restoreVf s b sl = some vf → (∀ g ∈ groupSlots s b sl vf, slotReady s b vf g = true) →
      ((∀ g ∈ groupSlots s b sl vf, crcHolds s b g vf = true) → ∃ t : State, exec (.contextRestore b sl true) s = .next t ∧
        (getSlot t b sl).st = .resident ∧ (getSlot t b sl).vf = vf) ∧
      ((∃ g ∈ groupSlots s b sl vf, (getSlot s b g).st ≠ .resident ∧ crcHolds s b g vf = false) →
        exec (.contextRestore b sl true) s = .next s ∧ ∃ t : State, exec (.contextRestore b sl false) s = .next t ∧
          (∀ l ∈ t.launches, l.vf = vf → l.st = .ended) ∧ (samePartition s b (homeOf vf) = true → (∀ k ∈ t.tasks, ¬(k.vf = vf ∧ k.bh = b)) ∧
            ∀ p ∈ t.stores, ¬(p.vf = vf ∧ p.bh = b)))) ∧
    (x.foldAt + 4096 ≤ cycleOf s b → ∃ t : State, exec (.energyFold b sl) s = .next t ∧ t = { s with slots := t.slots } ∧
      getSlot t b sl = { x with foldAt := cycleOf s b / 4096 * 4096, foldDue := true }) ∧
    ((∀ y < 32, (getSlot s b y).foldDue = (y == sl)) → (∀ k ∈ s.cmds, ¬(k.code = 0x1C5 ∧ k.stage = 0 ∧ k.f.bh = b)) → x.st ≠ .idle → vfActive s x.vf = true →
      x.vf < 384 →
      let w := vfNrg s x.vf
      let sh := bits w 48 4
      let t := foldsEnd s b
      getSlot t b sl = { x with delta := 0, foldDue := false } ∧
      bits (vfNrg t x.vf) 0 48 = min (bits w 0 48 + (x.delta + sget 0 s.nrgRem x.vf) / 2 ^ (8 + sh)) (2 ^ 48 - 1) ∧
      sget 0 t.nrgRem x.vf = (x.delta + sget 0 s.nrgRem x.vf) % 2 ^ (8 + sh))) ∧
  (∀ (s : State) (b sl vf : Nat), b < 12 → sl < 32 → bhRuns s b = true → vf < 384 →
    let w := slotown s b sl
    let owner := bits w 0 9
    (lendable s b sl = true → ownerNeeds s b sl = false → vf ≠ owner → sameTenant s owner vf = true → slotDemand s b sl vf = true → lendTurn s b sl vf = true → budgetOk s (vfRcbAddr s vf) .slot 1 = true →
      vfEnabled s vf = true → (tableVfs s b).length < 64 → (getSlot s b sl).st = .idle → ∃ t : State, exec (.slotLend b sl vf) s = .next t ∧
        quantWord t b sl 0 = vf + 2 ^ 9 ∧ (∀ e, 0 < e → e < 8 → quantWord t b sl e = 0) ∧ slotown t b sl = w % 2 ^ 10 + 2 ^ 10 + vf * 2 ^ 11 ∧
        (getSlot t b sl).displaced = (List.range 8).map fun e => word (quantWord s b sl e)) ∧
    (reclaimDue s b sl = true → (getSlot s b sl).reclaim = false →
      ((getSlot s b sl).st = .resident → (getSlot s b sl).vf = bits w 11 9 → ∃ t : State, exec (.slotReclaim b sl) s = .next t ∧ (getSlot t b sl).reclaim = true ∧
        (getSlot t b sl).st = .saving) ∧
      ((getSlot s b sl).st = .idle → ∃ t : State, exec (.slotReclaim b sl) s = .next t ∧ bitAt (slotown t b sl) 10 = false)))

/-- R42, R134, R155, R334, R402, R446, R449, R404, R406, R411 to R415, R419, R457: GO fences a running bulkhead, with the edges toward it FORCED; when the fence is done the bulkhead is cleared and held,
or relocks at once; a release relocks; then it runs, with RSTCNT counted, after a scrub that zeroes its stack where its tenant changed. A thermal trip resets with
the rail cut. VF reset takes away everything of the VF, its translations in every well among it, and leaves the random tile generators where the firings that had issued have brought
them; its VF_RESET_DONE waits for the bulkheads of the tenant that are under reset, and the enqueue of a host port's record goes on. Power-on leaves the state after
bring-up. What a thermal trip does to a bulkhead that is not in RUN (log 82), that power-on keeps the schedule (log 83) and that RSTCNT counts the release of the
bring-up as well (log 69) are the model's choices. -/
def Obligations.ResetsProceed : Prop :=
  (∀ (s : State) (b : Nat), b < 12 →
    (∀ rail hold, (bhState s b = 0 → ∃ t : State, exec (.bhrstGo b rail hold) s = .next t ∧ bhState t b = 1 ∧ (∀ e < 3, edgeForced t b e = true) ∧
        (∀ x ∈ neighbours b, edgeForced t x.2 (edgeToward x.2 b) = true) ∧ (getBulk t b).railReq = rail ∧ (getBulk t b).holdReq = hold) ∧
      (bhState s b ≠ 0 → exec (.bhrstGo b rail hold) s = .next s)) ∧
    (bhState s b = 1 → ∃ t : State, exec (.resetFenceDone b) s = .next t ∧ bhState t b = (if (getBulk s b).holdReq then 2 else 3) ∧
      (∀ pe < 512, getPE t b pe = peCleared (getPE s b pe)) ∧ (∀ c ∈ t.cmds, c.f.bh ≠ b) ∧ (∀ c ∈ t.cfgs, c.bh ≠ b) ∧ (∀ k ∈ t.tasks, k.bh ≠ b) ∧ (∀ p ∈ t.stores, p.bh ≠ b) ∧
      (∀ l ∈ t.launches, l.bh = b → l.st = .ended)) ∧
    (bhState s b = 2 → s.powered = true → ∃ t : State, exec (.bhrstRelease b) s = .next t ∧ bhState t b = 3 ∧ regBits t b 0x20008 4 1 = 1 ∧
      regBits t b 0x20010 10 1 = 0 ∧ t = { s with regs := t.regs }) ∧
    (bhState s b = 3 → ((getBulk s b).newTenant = true → ∃ t : State, exec (.resetRelockDone b) s = .next t ∧ bhState t b = 4 ∧ regBits t b 0x20010 10 1 = 1 ∧
        t = { s with regs := t.regs }) ∧
      ((getBulk s b).newTenant = false → ∃ t : State, exec (.resetRelockDone b) s = .next t ∧ bhState t b = 0 ∧ regBits t b 0x20010 10 1 = 1 ∧
        regBits t b 0x20008 16 16 = (regBits s b 0x20008 16 16 + 1) % 2 ^ 16)) ∧
    (bhState s b = 4 → ∃ t : State, exec (.resetScrubDone b) s = .next t ∧ bhState t b = 0 ∧
      (cleanMemory s → s.vfDone = [] → (∀ n, bits (regGet s n 0x20028).toNat 6 42 = 0) → ∀ a, b * 2 ^ 36 ≤ a → a < (b + 1) * 2 ^ 36 → memByte t a = 0 ∧ blockMeta t (a / 2048) = mdZero ∧
        eccOf t (a / 32) = .good)) ∧
    ((bhState s b = 0 → ∃ t : State, exec (.thermalTrip b) s = .next t ∧ bhState t b = 1 ∧ (getBulk t b).railReq = true ∧ (getBulk t b).holdReq = true) ∧
     (bhState s b = 1 → ∃ t : State, exec (.thermalTrip b) s = .next t ∧ t = { s with bhs := t.bhs } ∧ (getBulk t b).railReq = true ∧ (getBulk t b).holdReq = true) ∧
     (1 < bhState s b → ∃ t : State, exec (.thermalTrip b) s = .next t ∧ t = { s with regs := t.regs } ∧ bhState t b = 2 ∧ regBits t b 0x20008 4 1 = 0))) ∧
  (∀ s : State, ∃ t : State, exec .powerOnBringup s = .next t ∧ t.agenda = s.agenda ∧ (∀ b < 12, bhState t b = 2) ∧ t.mem = [] ∧ t.pes = [] ∧ t.cfgs = [] ∧
    t.powered = Config.firmwareAccepted ∧ (Config.firmwareAccepted = true → t.regs = State.reset.regs)) ∧
  (∀ (s : State) (b vf : Nat),
    let here (x : Nat) : Prop := samePartition s x (homeOf vf) = true ∧ x < 12
    ∃ t : State, exec (.vfReset b vf) s = .next t ∧ (∀ c ∈ t.cmds, c.code ≠ 0x202 → ¬(c.f.vf = vf ∧ here c.f.bh)) ∧ (∀ c ∈ t.cfgs, ¬(c.vf = vf ∧ here c.bh)) ∧
      (∀ k ∈ t.tasks, ¬(k.vf = vf ∧ here k.bh)) ∧ (∀ p ∈ t.stores, ¬(p.vf = vf ∧ here p.bh)) ∧ (∀ l ∈ t.launches, l.vf = vf → l.st = .ended) ∧
      (∀ x sl, here x → sl < 32 → (getSlot t x sl).st = .idle ∨ (getSlot t x sl).vf ≠ vf) ∧ (∀ e ∈ s.spokeOut, e ∈ t.spokeOut) ∧
      (∀ a < 12, ∀ e ∈ (getBulk t a).tlb, e.vf ≠ vf) ∧ (∀ x sl, (getSlot s x sl).rngQueue = [] → (getSlot t x sl).rngCtr = (getSlot s x sl).rngCtr) ∧
      (∀ x sl, here x → sl < 32 → (getSlot s x sl).st ≠ .idle → (getSlot s x sl).vf = vf →
        (getSlot t x sl).rngCtr = (getSlot s x sl).rngCtr + BitVec.ofNat 64 (512 * trngQueued s x sl)) ∧
      (let wait := (partitionBhs s (homeOf vf)).filter fun x => bhState s x != 0
       (wait = [] → t.vfDone = s.vfDone) ∧ (wait ≠ [] → ∃ d, t.vfDone = s.vfDone ++ [d] ∧ d.vf = vf ∧ d.bh = b ∧ d.wait = wait)))

/-- R417, R418: FRZCTL releases a frozen PE of the VF that is resident there: a retry presents what faulted again, translated afresh; a fail completes it with ABANDON; a freeze
freezes the PE. For a VF that is not there the operation waits for its restore. -/
def Obligations.FrozenMastersReturn : Prop :=
  ∀ (s : State) (b i vf : Nat),
    (masterHere s b (.pe i) vf = true →
      (∃ t : State, exec (.frzctlRetry b (.pe i) vf) s = .next t ∧ (getPE t b i).frozen = none ∧
        ∀ id r, reqAt s id = some r → r.st = .frozen → r.vf = vf → r.agent = .pe b i → ∃ q, reqAt t id = some q ∧ q.st = .atWell ∧ ∀ p ∈ q.parts, p.res = none) ∧
      (∀ r tag, frozenReqs s b (.pe i) vf = [r] → frozenCmds s b (.pe i) vf = [] → reqAt s r.id = some r → r.owner = .tag tag → r.err = none →
        ∃ t : State, ∃ (q : Req), exec (.frzctlFail b (.pe i) vf) s = .next t ∧ (getPE t b i).frozen = none ∧ reqAt t r.id = some q ∧ q.st = .finished ∧
          q.err = some (newError s (agentSrc r.agent) 0x11).1) ∧
      (∀ c, frozenReqs s b (.pe i) vf = [] → frozenCmds s b (.pe i) vf = [c] → commandLive s c → ∃ t : State, exec (.frzctlFail b (.pe i) vf) s = .next t ∧
        (getPE t b i).frozen = none ∧ Answers s t c .err (newError s (agentSrc c.agent) 0x11).1) ∧
      (∃ t : State, exec (.frzctlFreeze b (.pe i) vf) s = .next t ∧ (getPE t b i).frozen = some ((getPE s b i).frozen.getD .forced) ∧ t = { s with pes := t.pes })) ∧
    (∀ m, masterHere s b m vf = false →
      let kept (op : Nat) (t : State) : Prop := t = { s with bhs := t.bhs } ∧ (getBulk t b).frz = (getBulk s b).frz ++ [(op, m, vf)]
      (∃ t : State, exec (.frzctlRetry b m vf) s = .next t ∧ kept 1 t) ∧ (∃ t : State, exec (.frzctlFail b m vf) s = .next t ∧ kept 2 t) ∧
      (∃ t : State, exec (.frzctlFreeze b m vf) s = .next t ∧ kept 3 t))

/-- R450 to R456, R459: an attestation writes its report after the nonce; a remote request that SPKIN admits is performed and answered, another is refused with GATE_DENIED; a reply
completes the request of its tag; a door access delivers its token; a notice sends ABANDON to the doors that name it; a link goes up and down; a flit of no use is counted.
That the device which holds the doors checks the form of a door access (log 98), and that a flit's data begin at ADDR (log 141), are the model's choices. -/
def Obligations.SpokesAndAttest : Prop :=
  (∀ (s : State) (b : Nat) (v : Word),
    let a := bits v.toNat 6 42 * 64
    let rep := attReport s b (memBytes s a 64)
    (regBits s b 0x21208 0 1 = 1 → regGet s b 0x21200 = v → regionOf a = .hbm → regionOf (a + 383) = .hbm → cleanBlocks s a 384 →
      ∃ t : State, exec (.attest b v) s = .next t ∧ memBytes t (a + 64) rep.length = rep ∧ regBits t b 0x21208 0 1 = 0 ∧
        ∀ x, x < a + 64 ∨ a + 64 + rep.length ≤ x → memByte t x = memByte s x) ∧
    ((regBits s b 0x21208 0 1 = 0 ∨ regGet s b 0x21200 ≠ v) → exec (.attest b v) s = .next s)) ∧
  (∀ (s : State) (port : Nat) (fl : Flit), portUp s port = true →
    let b := stackOf fl.addr
    let n := flitLen fl
    let answered (t : State) (code : Nat) (data : List Byte) : Prop := ∃ q, t.spokeOut = s.spokeOut ++ [(port, q)] ∧ q.ty = 6 ∧ q.tag = fl.tag ∧ q.code = code ∧
      q.data = data
    (regionOf fl.addr = .hbm → n ≠ 0 → bhRuns s b = true →
      (fl.ty = 1 → spkinAdmits s b fl = true → cleanBlocks s fl.addr n → ∃ t : State, exec (.spokeRequestReceive port fl) s = .next t ∧
        answered t 0 (memBytes s fl.addr n) ∧ t = { s with spokeOut := t.spokeOut, regs := t.regs }) ∧
      (fl.ty = 2 → spkinAdmits s b fl = true → cleanBlocks s fl.addr n → ∃ t : State, exec (.spokeRequestReceive port fl) s = .next t ∧
        answered t 0 [] ∧ memBytes t fl.addr n = slice fl.data 0 n ∧ ∀ x, x < fl.addr ∨ fl.addr + n ≤ x → memByte t x = memByte s x) ∧
      (1 ≤ fl.ty → fl.ty ≤ 4 → spkinAdmits s b fl = false → cleanMemory s → ∃ t : State, exec (.spokeRequestReceive port fl) s = .next t ∧ answered t 0x0A [] ∧
        sget 0 t.evSeq (portSrc b port) = (sget 0 s.evSeq (portSrc b port) + 1) % 2 ^ 32)) ∧
    (∀ r p tag, (s.reqs.find? fun r => r.pieces.any fun p => p.stage == .spoke port fl.tag) = some r →
      (r.pieces.find? fun p => p.stage == .spoke port fl.tag) = some p → reqAt s r.id = some r → r.owner = .tag tag → fl.ty = 6 →
      (fl.code = 0 → r.write = false → r.atom = none → ∃ t : State, ∃ (q : Req), exec (.spokeReplyReceive port fl) s = .next t ∧ reqAt t r.id = some q ∧
        (∀ x ∈ q.pieces, x.key = p.key → x.stage = .done ∧ x.err = none) ∧ ∀ k x, (slice fl.data 0 p.len)[k]? = some x → sget 0 q.got (p.off + k) = x) ∧
      (fl.code ≠ 0 → ∃ t : State, ∃ (q : Req), exec (.spokeReplyReceive port fl) s = .next t ∧ reqAt t r.id = some q ∧
        ∀ x ∈ q.pieces, x.key = p.key → x.stage = .done ∧ x.err = some (newError s (portSrc r.bh port) fl.code).1)) ∧
    (fl.ty = 5 →
      let d := bits fl.addr 14 4
      let w := doorWords s d (bits fl.addr 3 10)
      (doorForm fl = true → doorOpen w.1 = true → bits w.2 0 16 = fl.srcdev → (bitAt w.2 25 = true ∨ bits w.2 16 9 = fl.vf) →
        ∃ t : State, ∃ y, exec (.doorDelivery port fl) s = .next t ∧ t.flights = s.flights ++ [y] ∧ y.tok.kind = .value ∧ y.tok.payload = word (fieldAt fl.data 0 8) ∧
          y.tok.bh = d ∧ y.tok.pe = bits w.1 1 9 ∧ y.tok.node = bits w.1 10 12 ∧ y.tok.fp = bits w.1 24 10 ∧ y.tok.vf = bits w.1 34 9 ∧
          answered t 0 (if fl.op < 9 then leBytes 8 0 else [])) ∧
      (doorForm fl = false → ∃ t : State, exec (.doorDelivery port fl) s = .next t ∧ answered t 0x0C [] ∧ t.flights = s.flights)) ∧
    (fl.ty = 8 → fl.code = 0 → ∃ t : State, exec (.spokeNotice port fl) s = .next t ∧ t = { s with flights := t.flights, errSeq := t.errSeq } ∧
      ∀ b < 12, ∀ d < 1024,
        let w := doorWords s b d
        doorOpen w.1 = true → bits w.2 0 16 = fl.srcdev → bitAt w.2 25 = false → bits w.2 16 9 = fl.vf → ∃ y ∈ t.flights, y.tok.kind = .err ∧ y.tok.bh = b ∧
          y.tok.pe = bits w.1 1 9 ∧ y.tok.node = bits w.1 10 12 ∧ y.tok.payload.toNat % 256 = 0x11) ∧
    (9 ≤ fl.ty → fl.ty ≤ 15 → ∃ t : State, exec (.discardedFlit port fl) s = .next t ∧ t = { s with regs := t.regs } ∧
      bits (spkstat t port) 33 16 = min (bits (spkstat s port) 33 16 + 1) 0xFFFF) ∧
    (∀ r p k tag, s.reqs = [r] → r.pieces = [p] → p.stage = .spoke port k → r.owner = .tag tag → r.err = none → ∃ t : State, ∃ (q : Req), exec (.spokeLinkDown port) s = .next t ∧
      portUp t port = false ∧ reqAt t r.id = some q ∧ q.st = .finished ∧ q.err = some (newError s (portSrc r.bh port) 0x11).1)) ∧
  (∀ (s : State) (port partner : Nat), portUp s port = false → s.powered = true → ∃ t : State, exec (.spokeLinkUp port partner) s = .next t ∧ portUp t port = true ∧
    bits (spkstat t port) 1 16 = partner % 2 ^ 16 ∧ t = { s with regs := t.regs })

/-- R64, R221, R222, R228, R278, R345: where steps 1 to 5, or an uncorrectable error in what the firing reads, decide its outcome, its instruction does nothing of its own: it issues with L = 1 and sends the first error
operand, a null token, or a new error of its PE to each used destination, where and on the channel that its instruction's tokens take, an error of a node without one to the
graph's sink, and drops the references of its handle operands; no flag is raised. A firing that names an accumulator that is still being written does not issue at all. For every
opcode but mma.pair, smma and stream, whose engines do more. -/
def Obligations.ChecksBeforeMeaning : Prop :=
  ∀ (s : State) (n : Node) (o : OpInfo), o ∈ opMap → o.code ∉ [0x105, 0x106, 0x14F] →
    let p := getPE s s.cur.bh s.cur.pe
    let f := applyEpass o n s.cur
    let sent (payload : Word) : List Effect := if usedDests n = [] then [.sinkErr payload] else []
    let rest (t : State) : Prop := t.regs = s.regs ∧ t.reqs = s.reqs ∧ t.cmds = s.cmds ∧ t.stores = s.stores ∧ t.flights = s.flights ∧
      (∀ a, memByte t a = memByte s a) ∧ ∀ b pe, peKey b pe ≠ peKey s.cur.bh s.cur.pe → getPE t b pe = getPE s b pe
    (accHeld p f = true → exec (o.make n) s = .next s) ∧
    (accHeld p f = false →
      match verdict s o n f with
      | .perform => True
      | .error v => ∃ t : State, exec (o.make n) s = .next t ∧
          Issues s t (outcomeOf s o.code n (outEmits o.code n .err v) (dropsOf s o.code n ++ sent v)) ∧ t.errSeq = s.errSeq ∧ rest t
      | .untaken => ∃ t : State, exec (o.make n) s = .next t ∧ Issues s t (outcomeOf s o.code n (outEmits o.code n .null 0) (dropsOf s o.code n)) ∧
          t.errSeq = s.errSeq ∧ rest t
      | .code c =>
          let e := newError s (peSrc s.cur.bh s.cur.pe) c
          ∃ t : State, exec (o.make n) s = .next t ∧
            Issues s t (outcomeOf s o.code n (outEmits o.code n .err e.1) (dropsOf s o.code n ++ sent e.1)) ∧ t.errSeq = e.2.errSeq ∧ rest t)

/-- R67 to R73, R106: the decoder and the encoder agree: a well-formed instruction that has a record is read back from it with every field as it was, a
record that the decoder accepts is the record of the instruction it gives, which is well-formed, and every well-formed node instruction has a record. -/
def Obligations.DecodeEncode : Prop :=
  (∀ (i : Instr) (w : BitVec 96), i.wf = true → encode i = some w → decode w = .ok i) ∧
  (∀ (w : BitVec 96) (i : Instr), decode w = .ok i → encode i = some w ∧ i.wf = true) ∧
  (∀ i : Instr, (instrNode i).isSome = true → i.wf = true → (encode i).isSome = true)

/-- R47, R67, R68: the records that the manual writes out are read as the instructions it says. -/
def Obligations.DecodeWords : Prop :=
  let near (node : BitVec 12) (port : Port) (fm : FrameMode) : Option Dest := some { dx := 0, dy := 0, node := node, port := port, fm := fm }
  let far (dx dy : BitVec 4) (node : BitVec 12) (port : Port) (fm : FrameMode) : Option Dest := some { dx := dx, dy := dy, node := node, port := port, fm := fm }
  let rec_ (ty : Ty) (slot : BitVec 8) (d0 d1 : Option Dest) (lit : BitVec 16) : Node :=
    { ty := ty, slot := slot, d0 := d0, d1 := d1, stR := false, stCount := 0, epass := false, litr := false, sense := false, pred := false, lit := lit }
  let bytes (bs : List Byte) : Except Reject Instr := decode (recordOfBytes bs)
  decode 0x41F037900820004224300000 =
    .ok (.ffma { rec_ .f32 6 (far 0xF 2 0x10 .r .nxt) (near 0x21 .l .cur) 0 with stR := true, stCount := 3 }) ∧
  bytes [0x4A, 0x00, 0x00, 0xA0, 0x0E, 0x00, 0x02, 0x14, 0x00, 0x00, 0x80, 0x06] =
    .ok (.falloc (rec_ .n64 0 (near 0x28 .l .nxt) (far 1 0 7 .r .cur) 0x4A)) ∧
  bytes [0x03, 0x50, 0x00, 0x80, 0x01, 0x00, 0x00, 0x06, 0x00, 0x20, 0x80, 0xA6] = .ok (.gather (rec_ .n64 4 (near 0xC .l .cur) none 0x5003)) ∧
  bytes [0x42, 0x14, 0x00, 0x80, 0x01, 0x00, 0x00, 0x0A, 0x00, 0x60, 0x50, 0x6A] = .ok (.tcvt (rec_ .e4m3 0xC (near 0x14 .l .cur) none 0x1442)) ∧
  bytes [0x03, 0x00, 0x00, 0x80, 0x01, 0x00, 0x00, 0x0F, 0x00, 0x40, 0x00, 0x82] = .ok (.mma (rec_ .n64 8 (near 0x1E .l .cur) none 3)) ∧
  bytes [0x30, 0x00, 0x00, 0x80, 0x14, 0x00, 0xA0, 0x00, 0x00, 0x10, 0x80, 0xC3] =
    .ok (.barComb (rec_ .n64 2 (near 1 .r .cur) (near 0xA .r .cur) 0x30)) ∧
  bytes [0x00, 0x00, 0x00, 0xF8, 0x20, 0x00, 0x80, 0x07, 0x00, 0x28, 0x00, 0x03] =
    .ok (.gate (rec_ .n64 5 (near 0xF .l .dyn) (near 0x10 .r .dyn) 0)) ∧
  bytes [0x00, 0x00, 0x00, 0x40, 0x22, 0x00, 0x80, 0x01, 0x00, 0x18, 0x68, 0x61] =
    .ok (.tmul (rec_ .f16 3 (near 3 .l .par) (near 0x11 .l .cur) 0))

/-- R47, R226, R227: the issue of a firing, matched in an earlier cycle, that the issue stage may take performs the instruction that its record decodes to, on the state that names the firing and
has used up one entry of the run's schedule; a happening is performed as its row of the table; a tick lets one BH cycle pass, unless a stage still has a firing to issue in it. The schedule is the model's
own (log 5): where it is empty, what happens is a free value. -/
def Obligations.StepRunsDecoded : Prop :=
  ∀ (s : State) (rest : List Choice),
    let s' : State := { s with agenda := rest }
    (∀ b pe k f, s.agenda = .issue b pe k :: rest → (getPE s b pe).ready[k]? = some f → f.bh = b → f.pe = pe → stageOpen s' b pe f.vf = true →
      matchedBefore s' f = true → isCandidate s' b pe k f = true →
      let w := recordOfBytes (sgets 0 (getPE s b pe).instr (12 * f.node) 12)
      (∀ i, decode w = .ok i → step s = exec i { s' with cur := f }) ∧ (∀ e, decode w = .error e → step s = .fault .badRecord)) ∧
    (∀ i, s.agenda = .happen i :: rest → isHappening i = true → step s = exec i (surveyed s' i)) ∧
    (∀ b, s.agenda = .tick b :: rest → step s = .next (tick s' b)) ∧
    (s.agenda = [] → step s = match Config.schedule s.fresh with
      | none => .next { s with fresh := s.fresh + 1 }
      | some c => step { s with agenda := [c], fresh := s.fresh + 1 })

/-- R60, R62, R133, R155, R404, R410, R411, R457: what bring-up leaves: every bulkhead HELD with its rail on, its own shape, tenant 0 and 600 MHz, scrubbing every 1,024
cycles; HBM reading as ZERO blocks; every handle-table entry free with GEN 1; nothing resident. The invariants hold. -/
def Obligations.ResetState : Prop :=
  let s := State.reset
  PackageInv s ∧ s.powered = true ∧ s.launches = [] ∧ s.tasks = [] ∧ s.flights = [] ∧ s.reqs = [] ∧ s.cmds = [] ∧
  (∀ a, memByte s a = 0) ∧ (∀ blk, blockMeta s blk = mdZero) ∧
  (∀ b < 12, bhState s b = 2 ∧ regBits s b 0x20008 4 1 = 1 ∧ regBits s b 0x20008 16 16 = 0 ∧ regBits s b 0x20000 0 8 = 0 ∧
    regBits s b 0x20000 8 3 = b / 2 ∧ regBits s b 0x20000 11 1 = b % 2 ∧ regBits s b 0x20000 12 3 = 1 ∧ regBits s b 0x20000 15 2 = 1 ∧
    regBits s b 0x20010 0 10 = 600 ∧ regBits s b 0x20010 10 1 = 1 ∧ regBits s b 0x11018 0 16 = 0x400 ∧ regBits s b 0x11018 16 1 = 1) ∧
  (∀ b pe, (∀ h, handleAt (getPE s b pe) h = HEntry.empty) ∧ (∀ vf, isResident s b pe vf = false)) ∧ HEntry.empty.gen = 1 ∧ HEntry.empty.kind = .free ∧ HEntry.empty.ref = 0

/-- The model's two package invariants are kept by every step: memory stays in its canonical form (log 1), and commands in progress bear rising numbers, so
that every answer reaches the command it is for (R119, R372, R439). -/
def Obligations.InvariantKept : Prop :=
  ∀ s t : State, PackageInv s → step s = .next t → PackageInv t
end

