-- ==== Sys2Proof/Laws/Sparse.lean ====
section
/-! SUPPORT. The laws of sparse stores: what a read gives after each write, and that each write keeps the canonical form. -/

namespace Sys2Proof.Machine

variable {α : Type}

/-! Reads after writes. They hold of every store, canonical or not. -/

theorem sget_eq_default (d : α) (m : SMap α) (k : Nat) (h : ∀ e ∈ m, e.1 ≠ k) : sget d m k = d := by
  induction m with
  | nil => rfl
  | cons e m ih =>
    simp only [List.mem_cons, forall_eq_or_imp] at h
    simp [sget, h.1, ih h.2]

theorem sget_filter (d : α) (q : Nat → Bool) (m : SMap α) (k : Nat) :
    sget d (m.filter fun e => q e.1) k = if q k then sget d m k else d := by
  induction m with
  | nil => simp [sget]
  | cons e m ih =>
    by_cases hq : q e.1 = true
    · rw [List.filter_cons_of_pos (by simpa using hq)]
      by_cases hk : e.1 = k
      · subst hk; simp [sget, hq]
      · simp [sget, hk, ih]
    · rw [List.filter_cons_of_neg (by simpa using hq), ih]
      by_cases hk : e.1 = k
      · subst hk; simp [hq]
      · simp [sget, hk]

theorem sget_append_left (d : α) (a b : SMap α) (k : Nat) (h : ∀ e ∈ b, e.1 ≠ k) : sget d (a ++ b) k = sget d a k := by
  induction a with
  | nil => simpa [sget] using sget_eq_default d b k h
  | cons e a ih => by_cases hk : e.1 = k <;> simp [sget, hk, ih]

theorem sget_append_right (d : α) (a b : SMap α) (k : Nat) (h : ∀ e ∈ a, e.1 ≠ k) : sget d (a ++ b) k = sget d b k := by
  induction a with
  | nil => rfl
  | cons e a ih =>
    simp only [List.mem_cons, forall_eq_or_imp] at h
    simp [sget, h.1, ih h.2]

theorem sget_sins (d : α) (m : SMap α) (k j : Nat) (v : α) : sget d (sins m k v) j = if j = k then v else sget d m j := by
  induction m with
  | nil =>
    by_cases h : j = k
    · simp [sins, sget, h]
    · have hk : ¬k = j := fun e => h e.symm
      simp [sins, sget, h, hk]
  | cons e m ih =>
    obtain ⟨i, w⟩ := e
    by_cases hj : j = k
    · subst hj
      simp only [sins, if_true]
      split
      · simp [sget]
      · split
        · simp [sget]
        · rename_i h; simp [sget, h, ih]
    · have hk : ¬k = j := fun h => hj h.symm
      simp only [sins, hj, if_false]
      split
      · simp [sget, hk]
      · split
        · rename_i h; subst h; simp [sget, hk]
        · simp [sget, ih, hj]

theorem sget_sdel (d : α) (m : SMap α) (k j : Nat) : sget d (sdel m k) j = if j = k then d else sget d m j := by
  rw [sdel, sget_filter d (fun i => i != k)]
  by_cases h : j = k <;> simp [h]

variable [DecidableEq α]

@[simp] theorem sget_sput (d : α) (m : SMap α) (k j : Nat) (v : α) : sget d (sput d m k v) j = if j = k then v else sget d m j := by
  unfold sput
  split
  · next h => rw [sget_sdel, h]
  · rw [sget_sins]

theorem sget_sput_same (d : α) (m : SMap α) (k : Nat) (v : α) : sget d (sput d m k v) k = v := by simp

theorem sget_sput_other (d : α) (m : SMap α) (k j : Nat) (v : α) (h : j ≠ k) : sget d (sput d m k v) j = sget d m j := by simp [h]

theorem mem_sfrom (d : α) (k : Nat) (vs : List α) (e : Nat × α) (h : e ∈ sfrom d k vs) : k ≤ e.1 ∧ e.1 < k + vs.length := by
  induction vs generalizing k with
  | nil => simp [sfrom] at h
  | cons v vs ih =>
    unfold sfrom at h
    split at h
    · have := ih (k + 1) h; simp only [List.length_cons]; omega
    · rcases List.mem_cons.mp h with rfl | h
      · simp
      · have := ih (k + 1) h; simp only [List.length_cons]; omega

theorem sget_sfrom (d : α) (k : Nat) (vs : List α) (j : Nat) (h : k ≤ j) : sget d (sfrom d k vs) j = vs.getD (j - k) d := by
  induction vs generalizing k with
  | nil => simp [sfrom, sget]
  | cons v vs ih =>
    have rest : ∀ h : k + 1 ≤ j, sget d (sfrom d (k + 1) vs) j = (v :: vs).getD (j - k) d := fun h' => by
      rw [ih (k + 1) h', show j - k = j - (k + 1) + 1 by omega, List.getD_cons_succ]
    unfold sfrom
    split
    · next hv =>
      rcases Nat.eq_or_lt_of_le h with rfl | h'
      · rw [sget_eq_default _ _ _ fun e he => by have := mem_sfrom d _ _ e he; omega]; simp [hv]
      · exact rest h'
    · rcases Nat.eq_or_lt_of_le h with rfl | h'
      · simp [sget]
      · simp only [sget, show ¬k = j by omega, if_false]; exact rest h'

@[simp] theorem sget_sputs (d : α) (m : SMap α) (k : Nat) (vs : List α) (j : Nat) :
    sget d (sputs d m k vs) j = if k ≤ j ∧ j < k + vs.length then vs.getD (j - k) d else sget d m j := by
  unfold sputs
  have low := sget_filter d (fun i => decide (i < k)) m j
  have high := sget_filter d (fun i => decide (k + vs.length ≤ i)) m j
  simp only [decide_eq_true_eq] at low high
  by_cases h1 : k ≤ j
  · by_cases h2 : j < k + vs.length
    · rw [List.append_assoc, sget_append_right, sget_append_left, sget_sfrom d k vs j h1, if_pos ⟨h1, h2⟩]
      · intro e he; have := (List.mem_filter.mp he).2; simp only [decide_eq_true_eq] at this; omega
      · intro e he; have := (List.mem_filter.mp he).2; simp only [decide_eq_true_eq] at this; omega
    · rw [sget_append_right, high, if_pos (by omega), if_neg (by omega)]
      intro e he
      rcases List.mem_append.mp he with he | he
      · have := (List.mem_filter.mp he).2; simp only [decide_eq_true_eq] at this; omega
      · have := mem_sfrom d k vs e he; omega
  · rw [List.append_assoc, sget_append_left, low, if_pos (by omega), if_neg (by omega)]
    intro e he
    rcases List.mem_append.mp he with he | he
    · have := mem_sfrom d k vs e he; omega
    · have := (List.mem_filter.mp he).2; simp only [decide_eq_true_eq] at this; omega

omit [DecidableEq α] in
@[simp] theorem sget_sclear (d : α) (m : SMap α) (k n j : Nat) :
    sget d (sclear m k n) j = if k ≤ j ∧ j < k + n then d else sget d m j := by
  rw [sclear, sget_filter d (fun i => decide (i < k) || decide (k + n ≤ i))]
  by_cases h : k ≤ j ∧ j < k + n
  · rw [if_pos h, if_neg]; simp only [Bool.or_eq_true, decide_eq_true_eq]; omega
  · rw [if_neg h, if_pos]; simp only [Bool.or_eq_true, decide_eq_true_eq]; omega

omit [DecidableEq α] in
theorem sgets_eq_map (d : α) (m : SMap α) (k n : Nat) : sgets d m k n = (List.range n).map fun i => sget d m (k + i) := by
  unfold sgets
  refine List.map_congr_left fun i hi => ?_
  have hi := List.mem_range.mp hi
  rw [sget_filter d (fun j => decide (k ≤ j) && decide (j < k + n)), if_pos]
  simp only [Bool.and_eq_true, decide_eq_true_eq]
  omega

omit [DecidableEq α] in
@[simp] theorem length_sgets (d : α) (m : SMap α) (k n : Nat) : (sgets d m k n).length = n := by simp [sgets]

/-- A run that has been written reads back. -/
theorem sgets_sputs (d : α) (m : SMap α) (k : Nat) (vs : List α) : sgets d (sputs d m k vs) k vs.length = vs := by
  rw [sgets_eq_map]
  refine List.ext_getElem (by simp) fun i h1 h2 => ?_
  simp only [List.getElem_map, List.getElem_range, sget_sputs]
  rw [if_pos (by omega), Nat.add_sub_cancel_left]
  simp [List.getD_eq_getElem?_getD, h2]

/-! The canonical form. -/

omit [DecidableEq α] in
theorem swfFrom_iff [DecidableEq α] (d : α) (lo : Nat) (k : Nat) (v : α) (m : SMap α) :
    swfFrom d lo ((k, v) :: m) = true ↔ lo ≤ k ∧ v ≠ d ∧ swfFrom d (k + 1) m = true := by
  simp [swfFrom, and_assoc]

theorem swfFrom_mono (d : α) (lo lo' : Nat) (m : SMap α) (h : lo' ≤ lo) (w : swfFrom d lo m = true) : swfFrom d lo' m = true := by
  cases m with
  | nil => rfl
  | cons e m =>
    obtain ⟨k, v⟩ := e
    rw [swfFrom_iff] at w ⊢
    exact ⟨by omega, w.2⟩

theorem swfFrom_filter (d : α) (q : Nat × α → Bool) (lo : Nat) (m : SMap α) (w : swfFrom d lo m = true) : swfFrom d lo (m.filter q) = true := by
  induction m generalizing lo with
  | nil => rfl
  | cons e m ih =>
    obtain ⟨k, v⟩ := e
    rw [swfFrom_iff] at w
    rw [List.filter_cons]
    split
    · rw [swfFrom_iff]; exact ⟨w.1, w.2.1, ih _ w.2.2⟩
    · exact swfFrom_mono d (k + 1) lo _ (by omega) (ih _ w.2.2)

theorem swfFrom_raise (d : α) (lo lo' : Nat) (m : SMap α) (w : swfFrom d lo m = true) (h : ∀ e ∈ m, lo' ≤ e.1) : swfFrom d lo' m = true := by
  cases m with
  | nil => rfl
  | cons e m =>
    obtain ⟨k, v⟩ := e
    rw [swfFrom_iff] at w ⊢
    exact ⟨h (k, v) (by simp), w.2⟩

theorem swfFrom_append (d : α) (lo mid : Nat) (a b : SMap α) (wa : swfFrom d lo a = true) (wb : swfFrom d mid b = true)
    (h : ∀ e ∈ a, e.1 < mid) (hl : lo ≤ mid) : swfFrom d lo (a ++ b) = true := by
  induction a generalizing lo with
  | nil => exact swfFrom_mono d mid lo b hl wb
  | cons e a ih =>
    obtain ⟨k, v⟩ := e
    rw [swfFrom_iff] at wa
    rw [List.cons_append, swfFrom_iff]
    have hk := h (k, v) (by simp)
    exact ⟨wa.1, wa.2.1, ih (k + 1) wa.2.2 (fun e he => h e (by simp [he])) hk⟩

theorem swfFrom_sins (d : α) (lo k : Nat) (v : α) (m : SMap α) (w : swfFrom d lo m = true) (hk : lo ≤ k) (hv : v ≠ d) :
    swfFrom d lo (sins m k v) = true := by
  induction m generalizing lo with
  | nil => simp [sins, swfFrom, hk, hv]
  | cons e m ih =>
    obtain ⟨j, u⟩ := e
    rw [swfFrom_iff] at w
    simp only [sins]
    split
    · next h => rw [swfFrom_iff, swfFrom_iff]; exact ⟨hk, hv, by omega, w.2⟩
    · split
      · next h => subst h; rw [swfFrom_iff]; exact ⟨hk, hv, w.2.2⟩
      · rw [swfFrom_iff]; exact ⟨w.1, w.2.1, ih _ w.2.2 (by omega)⟩

theorem swfFrom_sfrom (d : α) (k : Nat) (vs : List α) : swfFrom d k (sfrom d k vs) = true := by
  induction vs generalizing k with
  | nil => rfl
  | cons v vs ih =>
    unfold sfrom
    split
    · exact swfFrom_mono d (k + 1) k _ (by omega) (ih _)
    · next h => rw [swfFrom_iff]; exact ⟨Nat.le_refl k, h, ih _⟩

theorem swf_sput (d : α) (m : SMap α) (k : Nat) (v : α) (w : swf d m = true) : swf d (sput d m k v) = true := by
  unfold sput
  split
  · exact swfFrom_filter d _ 0 m w
  · next h => exact swfFrom_sins d 0 k v m w (Nat.zero_le k) h

theorem swf_sclear (d : α) (m : SMap α) (k n : Nat) (w : swf d m = true) : swf d (sclear m k n) = true := swfFrom_filter d _ 0 m w

theorem swf_sputs (d : α) (m : SMap α) (k : Nat) (vs : List α) (w : swf d m = true) : swf d (sputs d m k vs) = true := by
  refine swfFrom_append d 0 (k + vs.length) _ _ (swfFrom_append d 0 k _ _ (swfFrom_filter d _ 0 m w) (swfFrom_sfrom d k vs) ?_ (Nat.zero_le k)) ?_ ?_
    (Nat.zero_le _)
  · intro e he; simpa using (List.mem_filter.mp he).2
  · refine swfFrom_raise d 0 _ _ (swfFrom_filter d _ 0 m w) ?_
    intro e he; simpa using (List.mem_filter.mp he).2
  · intro e he
    rcases List.mem_append.mp he with he | he
    · have := (List.mem_filter.mp he).2; simp only [decide_eq_true_eq] at this; omega
    · exact (mem_sfrom d k vs e he).2

end Sys2Proof.Machine
end

