-- ==== Sys2Proof/Laws/State.lean ====
section
/-! SUPPORT. What each update of the state leaves alone, one lemma per field and update, and what reads give after them. -/

namespace Sys2Proof.Machine

@[simp] theorem regPut_nrgRem (s : State) (b off : Nat) (v : Word) : (regPut s b off v).nrgRem = s.nrgRem := by unfold regPut; rfl
@[simp] theorem regPut_mem (s : State) (b off : Nat) (v : Word) : (regPut s b off v).mem = s.mem := by unfold regPut; rfl
@[simp] theorem regPut_bmeta (s : State) (b off : Nat) (v : Word) : (regPut s b off v).bmeta = s.bmeta := by unfold regPut; rfl
@[simp] theorem regPut_ecc (s : State) (b off : Nat) (v : Word) : (regPut s b off v).ecc = s.ecc := by unfold regPut; rfl
@[simp] theorem regPut_pes (s : State) (b off : Nat) (v : Word) : (regPut s b off v).pes = s.pes := by unfold regPut; rfl
@[simp] theorem regPut_slots (s : State) (b off : Nat) (v : Word) : (regPut s b off v).slots = s.slots := by unfold regPut; rfl
@[simp] theorem regPut_links (s : State) (b off : Nat) (v : Word) : (regPut s b off v).links = s.links := by unfold regPut; rfl
@[simp] theorem regPut_bhs (s : State) (b off : Nat) (v : Word) : (regPut s b off v).bhs = s.bhs := by unfold regPut; rfl
@[simp] theorem regPut_cfgs (s : State) (b off : Nat) (v : Word) : (regPut s b off v).cfgs = s.cfgs := by unfold regPut; rfl
@[simp] theorem regPut_launches (s : State) (b off : Nat) (v : Word) : (regPut s b off v).launches = s.launches := by unfold regPut; rfl
@[simp] theorem regPut_tasks (s : State) (b off : Nat) (v : Word) : (regPut s b off v).tasks = s.tasks := by unfold regPut; rfl
@[simp] theorem regPut_versions (s : State) (b off : Nat) (v : Word) : (regPut s b off v).versions = s.versions := by unfold regPut; rfl
@[simp] theorem regPut_rcbs (s : State) (b off : Nat) (v : Word) : (regPut s b off v).rcbs = s.rcbs := by unfold regPut; rfl
@[simp] theorem regPut_flights (s : State) (b off : Nat) (v : Word) : (regPut s b off v).flights = s.flights := by unfold regPut; rfl
@[simp] theorem regPut_inject (s : State) (b off : Nat) (v : Word) : (regPut s b off v).inject = s.inject := by unfold regPut; rfl
@[simp] theorem regPut_reqs (s : State) (b off : Nat) (v : Word) : (regPut s b off v).reqs = s.reqs := by unfold regPut; rfl
@[simp] theorem regPut_cmds (s : State) (b off : Nat) (v : Word) : (regPut s b off v).cmds = s.cmds := by unfold regPut; rfl
@[simp] theorem regPut_stores (s : State) (b off : Nat) (v : Word) : (regPut s b off v).stores = s.stores := by unfold regPut; rfl
@[simp] theorem regPut_saved (s : State) (b off : Nat) (v : Word) : (regPut s b off v).saved = s.saved := by unfold regPut; rfl
@[simp] theorem regPut_errSeq (s : State) (b off : Nat) (v : Word) : (regPut s b off v).errSeq = s.errSeq := by unfold regPut; rfl
@[simp] theorem regPut_evSeq (s : State) (b off : Nat) (v : Word) : (regPut s b off v).evSeq = s.evSeq := by unfold regPut; rfl
@[simp] theorem regPut_spokeOut (s : State) (b off : Nat) (v : Word) : (regPut s b off v).spokeOut = s.spokeOut := by unfold regPut; rfl
@[simp] theorem regPut_powered (s : State) (b off : Nat) (v : Word) : (regPut s b off v).powered = s.powered := by unfold regPut; rfl
@[simp] theorem regPut_vfDone (s : State) (b off : Nat) (v : Word) : (regPut s b off v).vfDone = s.vfDone := by unfold regPut; rfl
@[simp] theorem regPut_cur (s : State) (b off : Nat) (v : Word) : (regPut s b off v).cur = s.cur := by unfold regPut; rfl
@[simp] theorem regPut_agenda (s : State) (b off : Nat) (v : Word) : (regPut s b off v).agenda = s.agenda := by unfold regPut; rfl
@[simp] theorem regPut_fresh (s : State) (b off : Nat) (v : Word) : (regPut s b off v).fresh = s.fresh := by unfold regPut; rfl
@[simp] theorem regPut_nextId (s : State) (b off : Nat) (v : Word) : (regPut s b off v).nextId = s.nextId := by unfold regPut; rfl

@[simp] theorem regSetBits_nrgRem (s : State) (b off lo len v : Nat) : (regSetBits s b off lo len v).nrgRem = s.nrgRem := by simp only [regSetBits, regPut_nrgRem]
@[simp] theorem regSetBits_mem (s : State) (b off lo len v : Nat) : (regSetBits s b off lo len v).mem = s.mem := by simp only [regSetBits, regPut_mem]
@[simp] theorem regSetBits_bmeta (s : State) (b off lo len v : Nat) : (regSetBits s b off lo len v).bmeta = s.bmeta := by simp only [regSetBits, regPut_bmeta]
@[simp] theorem regSetBits_ecc (s : State) (b off lo len v : Nat) : (regSetBits s b off lo len v).ecc = s.ecc := by simp only [regSetBits, regPut_ecc]
@[simp] theorem regSetBits_pes (s : State) (b off lo len v : Nat) : (regSetBits s b off lo len v).pes = s.pes := by simp only [regSetBits, regPut_pes]
@[simp] theorem regSetBits_slots (s : State) (b off lo len v : Nat) : (regSetBits s b off lo len v).slots = s.slots := by simp only [regSetBits, regPut_slots]
@[simp] theorem regSetBits_links (s : State) (b off lo len v : Nat) : (regSetBits s b off lo len v).links = s.links := by simp only [regSetBits, regPut_links]
@[simp] theorem regSetBits_bhs (s : State) (b off lo len v : Nat) : (regSetBits s b off lo len v).bhs = s.bhs := by simp only [regSetBits, regPut_bhs]
@[simp] theorem regSetBits_cfgs (s : State) (b off lo len v : Nat) : (regSetBits s b off lo len v).cfgs = s.cfgs := by simp only [regSetBits, regPut_cfgs]
@[simp] theorem regSetBits_launches (s : State) (b off lo len v : Nat) : (regSetBits s b off lo len v).launches = s.launches := by simp only [regSetBits, regPut_launches]
@[simp] theorem regSetBits_tasks (s : State) (b off lo len v : Nat) : (regSetBits s b off lo len v).tasks = s.tasks := by simp only [regSetBits, regPut_tasks]
@[simp] theorem regSetBits_versions (s : State) (b off lo len v : Nat) : (regSetBits s b off lo len v).versions = s.versions := by simp only [regSetBits, regPut_versions]
@[simp] theorem regSetBits_rcbs (s : State) (b off lo len v : Nat) : (regSetBits s b off lo len v).rcbs = s.rcbs := by simp only [regSetBits, regPut_rcbs]
@[simp] theorem regSetBits_flights (s : State) (b off lo len v : Nat) : (regSetBits s b off lo len v).flights = s.flights := by simp only [regSetBits, regPut_flights]
@[simp] theorem regSetBits_inject (s : State) (b off lo len v : Nat) : (regSetBits s b off lo len v).inject = s.inject := by simp only [regSetBits, regPut_inject]
@[simp] theorem regSetBits_reqs (s : State) (b off lo len v : Nat) : (regSetBits s b off lo len v).reqs = s.reqs := by simp only [regSetBits, regPut_reqs]
@[simp] theorem regSetBits_cmds (s : State) (b off lo len v : Nat) : (regSetBits s b off lo len v).cmds = s.cmds := by simp only [regSetBits, regPut_cmds]
@[simp] theorem regSetBits_stores (s : State) (b off lo len v : Nat) : (regSetBits s b off lo len v).stores = s.stores := by simp only [regSetBits, regPut_stores]
@[simp] theorem regSetBits_saved (s : State) (b off lo len v : Nat) : (regSetBits s b off lo len v).saved = s.saved := by simp only [regSetBits, regPut_saved]
@[simp] theorem regSetBits_errSeq (s : State) (b off lo len v : Nat) : (regSetBits s b off lo len v).errSeq = s.errSeq := by simp only [regSetBits, regPut_errSeq]
@[simp] theorem regSetBits_evSeq (s : State) (b off lo len v : Nat) : (regSetBits s b off lo len v).evSeq = s.evSeq := by simp only [regSetBits, regPut_evSeq]
@[simp] theorem regSetBits_spokeOut (s : State) (b off lo len v : Nat) : (regSetBits s b off lo len v).spokeOut = s.spokeOut := by simp only [regSetBits, regPut_spokeOut]
@[simp] theorem regSetBits_powered (s : State) (b off lo len v : Nat) : (regSetBits s b off lo len v).powered = s.powered := by simp only [regSetBits, regPut_powered]
@[simp] theorem regSetBits_vfDone (s : State) (b off lo len v : Nat) : (regSetBits s b off lo len v).vfDone = s.vfDone := by simp only [regSetBits, regPut_vfDone]
@[simp] theorem regSetBits_cur (s : State) (b off lo len v : Nat) : (regSetBits s b off lo len v).cur = s.cur := by simp only [regSetBits, regPut_cur]
@[simp] theorem regSetBits_agenda (s : State) (b off lo len v : Nat) : (regSetBits s b off lo len v).agenda = s.agenda := by simp only [regSetBits, regPut_agenda]
@[simp] theorem regSetBits_fresh (s : State) (b off lo len v : Nat) : (regSetBits s b off lo len v).fresh = s.fresh := by simp only [regSetBits, regPut_fresh]
@[simp] theorem regSetBits_nextId (s : State) (b off lo len v : Nat) : (regSetBits s b off lo len v).nextId = s.nextId := by simp only [regSetBits, regPut_nextId]

@[simp] theorem memPut_regs (s : State) (a : Nat) (bs : List Byte) : (memPut s a bs).regs = s.regs := by unfold memPut; rfl
@[simp] theorem memPut_nrgRem (s : State) (a : Nat) (bs : List Byte) : (memPut s a bs).nrgRem = s.nrgRem := by unfold memPut; rfl
@[simp] theorem memPut_bmeta (s : State) (a : Nat) (bs : List Byte) : (memPut s a bs).bmeta = s.bmeta := by unfold memPut; rfl
@[simp] theorem memPut_ecc (s : State) (a : Nat) (bs : List Byte) : (memPut s a bs).ecc = s.ecc := by unfold memPut; rfl
@[simp] theorem memPut_pes (s : State) (a : Nat) (bs : List Byte) : (memPut s a bs).pes = s.pes := by unfold memPut; rfl
@[simp] theorem memPut_slots (s : State) (a : Nat) (bs : List Byte) : (memPut s a bs).slots = s.slots := by unfold memPut; rfl
@[simp] theorem memPut_links (s : State) (a : Nat) (bs : List Byte) : (memPut s a bs).links = s.links := by unfold memPut; rfl
@[simp] theorem memPut_bhs (s : State) (a : Nat) (bs : List Byte) : (memPut s a bs).bhs = s.bhs := by unfold memPut; rfl
@[simp] theorem memPut_cfgs (s : State) (a : Nat) (bs : List Byte) : (memPut s a bs).cfgs = s.cfgs := by unfold memPut; rfl
@[simp] theorem memPut_launches (s : State) (a : Nat) (bs : List Byte) : (memPut s a bs).launches = s.launches := by unfold memPut; rfl
@[simp] theorem memPut_tasks (s : State) (a : Nat) (bs : List Byte) : (memPut s a bs).tasks = s.tasks := by unfold memPut; rfl
@[simp] theorem memPut_versions (s : State) (a : Nat) (bs : List Byte) : (memPut s a bs).versions = s.versions := by unfold memPut; rfl
@[simp] theorem memPut_rcbs (s : State) (a : Nat) (bs : List Byte) : (memPut s a bs).rcbs = s.rcbs := by unfold memPut; rfl
@[simp] theorem memPut_flights (s : State) (a : Nat) (bs : List Byte) : (memPut s a bs).flights = s.flights := by unfold memPut; rfl
@[simp] theorem memPut_inject (s : State) (a : Nat) (bs : List Byte) : (memPut s a bs).inject = s.inject := by unfold memPut; rfl
@[simp] theorem memPut_reqs (s : State) (a : Nat) (bs : List Byte) : (memPut s a bs).reqs = s.reqs := by unfold memPut; rfl
@[simp] theorem memPut_cmds (s : State) (a : Nat) (bs : List Byte) : (memPut s a bs).cmds = s.cmds := by unfold memPut; rfl
@[simp] theorem memPut_stores (s : State) (a : Nat) (bs : List Byte) : (memPut s a bs).stores = s.stores := by unfold memPut; rfl
@[simp] theorem memPut_saved (s : State) (a : Nat) (bs : List Byte) : (memPut s a bs).saved = s.saved := by unfold memPut; rfl
@[simp] theorem memPut_errSeq (s : State) (a : Nat) (bs : List Byte) : (memPut s a bs).errSeq = s.errSeq := by unfold memPut; rfl
@[simp] theorem memPut_evSeq (s : State) (a : Nat) (bs : List Byte) : (memPut s a bs).evSeq = s.evSeq := by unfold memPut; rfl
@[simp] theorem memPut_spokeOut (s : State) (a : Nat) (bs : List Byte) : (memPut s a bs).spokeOut = s.spokeOut := by unfold memPut; rfl
@[simp] theorem memPut_powered (s : State) (a : Nat) (bs : List Byte) : (memPut s a bs).powered = s.powered := by unfold memPut; rfl
@[simp] theorem memPut_vfDone (s : State) (a : Nat) (bs : List Byte) : (memPut s a bs).vfDone = s.vfDone := by unfold memPut; rfl
@[simp] theorem memPut_cur (s : State) (a : Nat) (bs : List Byte) : (memPut s a bs).cur = s.cur := by unfold memPut; rfl
@[simp] theorem memPut_agenda (s : State) (a : Nat) (bs : List Byte) : (memPut s a bs).agenda = s.agenda := by unfold memPut; rfl
@[simp] theorem memPut_fresh (s : State) (a : Nat) (bs : List Byte) : (memPut s a bs).fresh = s.fresh := by unfold memPut; rfl
@[simp] theorem memPut_nextId (s : State) (a : Nat) (bs : List Byte) : (memPut s a bs).nextId = s.nextId := by unfold memPut; rfl

@[simp] theorem setPE_regs (s : State) (b pe : Nat) (p : PE) : (setPE s b pe p).regs = s.regs := by unfold setPE; rfl
@[simp] theorem setPE_nrgRem (s : State) (b pe : Nat) (p : PE) : (setPE s b pe p).nrgRem = s.nrgRem := by unfold setPE; rfl
@[simp] theorem setPE_mem (s : State) (b pe : Nat) (p : PE) : (setPE s b pe p).mem = s.mem := by unfold setPE; rfl
@[simp] theorem setPE_bmeta (s : State) (b pe : Nat) (p : PE) : (setPE s b pe p).bmeta = s.bmeta := by unfold setPE; rfl
@[simp] theorem setPE_ecc (s : State) (b pe : Nat) (p : PE) : (setPE s b pe p).ecc = s.ecc := by unfold setPE; rfl
@[simp] theorem setPE_slots (s : State) (b pe : Nat) (p : PE) : (setPE s b pe p).slots = s.slots := by unfold setPE; rfl
@[simp] theorem setPE_links (s : State) (b pe : Nat) (p : PE) : (setPE s b pe p).links = s.links := by unfold setPE; rfl
@[simp] theorem setPE_bhs (s : State) (b pe : Nat) (p : PE) : (setPE s b pe p).bhs = s.bhs := by unfold setPE; rfl
@[simp] theorem setPE_cfgs (s : State) (b pe : Nat) (p : PE) : (setPE s b pe p).cfgs = s.cfgs := by unfold setPE; rfl
@[simp] theorem setPE_launches (s : State) (b pe : Nat) (p : PE) : (setPE s b pe p).launches = s.launches := by unfold setPE; rfl
@[simp] theorem setPE_tasks (s : State) (b pe : Nat) (p : PE) : (setPE s b pe p).tasks = s.tasks := by unfold setPE; rfl
@[simp] theorem setPE_versions (s : State) (b pe : Nat) (p : PE) : (setPE s b pe p).versions = s.versions := by unfold setPE; rfl
@[simp] theorem setPE_rcbs (s : State) (b pe : Nat) (p : PE) : (setPE s b pe p).rcbs = s.rcbs := by unfold setPE; rfl
@[simp] theorem setPE_flights (s : State) (b pe : Nat) (p : PE) : (setPE s b pe p).flights = s.flights := by unfold setPE; rfl
@[simp] theorem setPE_inject (s : State) (b pe : Nat) (p : PE) : (setPE s b pe p).inject = s.inject := by unfold setPE; rfl
@[simp] theorem setPE_reqs (s : State) (b pe : Nat) (p : PE) : (setPE s b pe p).reqs = s.reqs := by unfold setPE; rfl
@[simp] theorem setPE_cmds (s : State) (b pe : Nat) (p : PE) : (setPE s b pe p).cmds = s.cmds := by unfold setPE; rfl
@[simp] theorem setPE_stores (s : State) (b pe : Nat) (p : PE) : (setPE s b pe p).stores = s.stores := by unfold setPE; rfl
@[simp] theorem setPE_saved (s : State) (b pe : Nat) (p : PE) : (setPE s b pe p).saved = s.saved := by unfold setPE; rfl
@[simp] theorem setPE_errSeq (s : State) (b pe : Nat) (p : PE) : (setPE s b pe p).errSeq = s.errSeq := by unfold setPE; rfl
@[simp] theorem setPE_evSeq (s : State) (b pe : Nat) (p : PE) : (setPE s b pe p).evSeq = s.evSeq := by unfold setPE; rfl
@[simp] theorem setPE_spokeOut (s : State) (b pe : Nat) (p : PE) : (setPE s b pe p).spokeOut = s.spokeOut := by unfold setPE; rfl
@[simp] theorem setPE_powered (s : State) (b pe : Nat) (p : PE) : (setPE s b pe p).powered = s.powered := by unfold setPE; rfl
@[simp] theorem setPE_vfDone (s : State) (b pe : Nat) (p : PE) : (setPE s b pe p).vfDone = s.vfDone := by unfold setPE; rfl
@[simp] theorem setPE_cur (s : State) (b pe : Nat) (p : PE) : (setPE s b pe p).cur = s.cur := by unfold setPE; rfl
@[simp] theorem setPE_agenda (s : State) (b pe : Nat) (p : PE) : (setPE s b pe p).agenda = s.agenda := by unfold setPE; rfl
@[simp] theorem setPE_fresh (s : State) (b pe : Nat) (p : PE) : (setPE s b pe p).fresh = s.fresh := by unfold setPE; rfl
@[simp] theorem setPE_nextId (s : State) (b pe : Nat) (p : PE) : (setPE s b pe p).nextId = s.nextId := by unfold setPE; rfl

@[simp] theorem modPE_regs (s : State) (b pe : Nat) (f : PE → PE) : (modPE s b pe f).regs = s.regs := by simp only [modPE, setPE_regs]
@[simp] theorem modPE_nrgRem (s : State) (b pe : Nat) (f : PE → PE) : (modPE s b pe f).nrgRem = s.nrgRem := by simp only [modPE, setPE_nrgRem]
@[simp] theorem modPE_mem (s : State) (b pe : Nat) (f : PE → PE) : (modPE s b pe f).mem = s.mem := by simp only [modPE, setPE_mem]
@[simp] theorem modPE_bmeta (s : State) (b pe : Nat) (f : PE → PE) : (modPE s b pe f).bmeta = s.bmeta := by simp only [modPE, setPE_bmeta]
@[simp] theorem modPE_ecc (s : State) (b pe : Nat) (f : PE → PE) : (modPE s b pe f).ecc = s.ecc := by simp only [modPE, setPE_ecc]
@[simp] theorem modPE_slots (s : State) (b pe : Nat) (f : PE → PE) : (modPE s b pe f).slots = s.slots := by simp only [modPE, setPE_slots]
@[simp] theorem modPE_links (s : State) (b pe : Nat) (f : PE → PE) : (modPE s b pe f).links = s.links := by simp only [modPE, setPE_links]
@[simp] theorem modPE_bhs (s : State) (b pe : Nat) (f : PE → PE) : (modPE s b pe f).bhs = s.bhs := by simp only [modPE, setPE_bhs]
@[simp] theorem modPE_cfgs (s : State) (b pe : Nat) (f : PE → PE) : (modPE s b pe f).cfgs = s.cfgs := by simp only [modPE, setPE_cfgs]
@[simp] theorem modPE_launches (s : State) (b pe : Nat) (f : PE → PE) : (modPE s b pe f).launches = s.launches := by simp only [modPE, setPE_launches]
@[simp] theorem modPE_tasks (s : State) (b pe : Nat) (f : PE → PE) : (modPE s b pe f).tasks = s.tasks := by simp only [modPE, setPE_tasks]
@[simp] theorem modPE_versions (s : State) (b pe : Nat) (f : PE → PE) : (modPE s b pe f).versions = s.versions := by simp only [modPE, setPE_versions]
@[simp] theorem modPE_rcbs (s : State) (b pe : Nat) (f : PE → PE) : (modPE s b pe f).rcbs = s.rcbs := by simp only [modPE, setPE_rcbs]
@[simp] theorem modPE_flights (s : State) (b pe : Nat) (f : PE → PE) : (modPE s b pe f).flights = s.flights := by simp only [modPE, setPE_flights]
@[simp] theorem modPE_inject (s : State) (b pe : Nat) (f : PE → PE) : (modPE s b pe f).inject = s.inject := by simp only [modPE, setPE_inject]
@[simp] theorem modPE_reqs (s : State) (b pe : Nat) (f : PE → PE) : (modPE s b pe f).reqs = s.reqs := by simp only [modPE, setPE_reqs]
@[simp] theorem modPE_cmds (s : State) (b pe : Nat) (f : PE → PE) : (modPE s b pe f).cmds = s.cmds := by simp only [modPE, setPE_cmds]
@[simp] theorem modPE_stores (s : State) (b pe : Nat) (f : PE → PE) : (modPE s b pe f).stores = s.stores := by simp only [modPE, setPE_stores]
@[simp] theorem modPE_saved (s : State) (b pe : Nat) (f : PE → PE) : (modPE s b pe f).saved = s.saved := by simp only [modPE, setPE_saved]
@[simp] theorem modPE_errSeq (s : State) (b pe : Nat) (f : PE → PE) : (modPE s b pe f).errSeq = s.errSeq := by simp only [modPE, setPE_errSeq]
@[simp] theorem modPE_evSeq (s : State) (b pe : Nat) (f : PE → PE) : (modPE s b pe f).evSeq = s.evSeq := by simp only [modPE, setPE_evSeq]
@[simp] theorem modPE_spokeOut (s : State) (b pe : Nat) (f : PE → PE) : (modPE s b pe f).spokeOut = s.spokeOut := by simp only [modPE, setPE_spokeOut]
@[simp] theorem modPE_powered (s : State) (b pe : Nat) (f : PE → PE) : (modPE s b pe f).powered = s.powered := by simp only [modPE, setPE_powered]
@[simp] theorem modPE_vfDone (s : State) (b pe : Nat) (f : PE → PE) : (modPE s b pe f).vfDone = s.vfDone := by simp only [modPE, setPE_vfDone]
@[simp] theorem modPE_cur (s : State) (b pe : Nat) (f : PE → PE) : (modPE s b pe f).cur = s.cur := by simp only [modPE, setPE_cur]
@[simp] theorem modPE_agenda (s : State) (b pe : Nat) (f : PE → PE) : (modPE s b pe f).agenda = s.agenda := by simp only [modPE, setPE_agenda]
@[simp] theorem modPE_fresh (s : State) (b pe : Nat) (f : PE → PE) : (modPE s b pe f).fresh = s.fresh := by simp only [modPE, setPE_fresh]
@[simp] theorem modPE_nextId (s : State) (b pe : Nat) (f : PE → PE) : (modPE s b pe f).nextId = s.nextId := by simp only [modPE, setPE_nextId]

@[simp] theorem setSlot_regs (s : State) (b sl : Nat) (x : Slot) : (setSlot s b sl x).regs = s.regs := by unfold setSlot; rfl
@[simp] theorem setSlot_nrgRem (s : State) (b sl : Nat) (x : Slot) : (setSlot s b sl x).nrgRem = s.nrgRem := by unfold setSlot; rfl
@[simp] theorem setSlot_mem (s : State) (b sl : Nat) (x : Slot) : (setSlot s b sl x).mem = s.mem := by unfold setSlot; rfl
@[simp] theorem setSlot_bmeta (s : State) (b sl : Nat) (x : Slot) : (setSlot s b sl x).bmeta = s.bmeta := by unfold setSlot; rfl
@[simp] theorem setSlot_ecc (s : State) (b sl : Nat) (x : Slot) : (setSlot s b sl x).ecc = s.ecc := by unfold setSlot; rfl
@[simp] theorem setSlot_pes (s : State) (b sl : Nat) (x : Slot) : (setSlot s b sl x).pes = s.pes := by unfold setSlot; rfl
@[simp] theorem setSlot_links (s : State) (b sl : Nat) (x : Slot) : (setSlot s b sl x).links = s.links := by unfold setSlot; rfl
@[simp] theorem setSlot_bhs (s : State) (b sl : Nat) (x : Slot) : (setSlot s b sl x).bhs = s.bhs := by unfold setSlot; rfl
@[simp] theorem setSlot_cfgs (s : State) (b sl : Nat) (x : Slot) : (setSlot s b sl x).cfgs = s.cfgs := by unfold setSlot; rfl
@[simp] theorem setSlot_launches (s : State) (b sl : Nat) (x : Slot) : (setSlot s b sl x).launches = s.launches := by unfold setSlot; rfl
@[simp] theorem setSlot_tasks (s : State) (b sl : Nat) (x : Slot) : (setSlot s b sl x).tasks = s.tasks := by unfold setSlot; rfl
@[simp] theorem setSlot_versions (s : State) (b sl : Nat) (x : Slot) : (setSlot s b sl x).versions = s.versions := by unfold setSlot; rfl
@[simp] theorem setSlot_rcbs (s : State) (b sl : Nat) (x : Slot) : (setSlot s b sl x).rcbs = s.rcbs := by unfold setSlot; rfl
@[simp] theorem setSlot_flights (s : State) (b sl : Nat) (x : Slot) : (setSlot s b sl x).flights = s.flights := by unfold setSlot; rfl
@[simp] theorem setSlot_inject (s : State) (b sl : Nat) (x : Slot) : (setSlot s b sl x).inject = s.inject := by unfold setSlot; rfl
@[simp] theorem setSlot_reqs (s : State) (b sl : Nat) (x : Slot) : (setSlot s b sl x).reqs = s.reqs := by unfold setSlot; rfl
@[simp] theorem setSlot_cmds (s : State) (b sl : Nat) (x : Slot) : (setSlot s b sl x).cmds = s.cmds := by unfold setSlot; rfl
@[simp] theorem setSlot_stores (s : State) (b sl : Nat) (x : Slot) : (setSlot s b sl x).stores = s.stores := by unfold setSlot; rfl
@[simp] theorem setSlot_saved (s : State) (b sl : Nat) (x : Slot) : (setSlot s b sl x).saved = s.saved := by unfold setSlot; rfl
@[simp] theorem setSlot_errSeq (s : State) (b sl : Nat) (x : Slot) : (setSlot s b sl x).errSeq = s.errSeq := by unfold setSlot; rfl
@[simp] theorem setSlot_evSeq (s : State) (b sl : Nat) (x : Slot) : (setSlot s b sl x).evSeq = s.evSeq := by unfold setSlot; rfl
@[simp] theorem setSlot_spokeOut (s : State) (b sl : Nat) (x : Slot) : (setSlot s b sl x).spokeOut = s.spokeOut := by unfold setSlot; rfl
@[simp] theorem setSlot_powered (s : State) (b sl : Nat) (x : Slot) : (setSlot s b sl x).powered = s.powered := by unfold setSlot; rfl
@[simp] theorem setSlot_vfDone (s : State) (b sl : Nat) (x : Slot) : (setSlot s b sl x).vfDone = s.vfDone := by unfold setSlot; rfl
@[simp] theorem setSlot_cur (s : State) (b sl : Nat) (x : Slot) : (setSlot s b sl x).cur = s.cur := by unfold setSlot; rfl
@[simp] theorem setSlot_agenda (s : State) (b sl : Nat) (x : Slot) : (setSlot s b sl x).agenda = s.agenda := by unfold setSlot; rfl
@[simp] theorem setSlot_fresh (s : State) (b sl : Nat) (x : Slot) : (setSlot s b sl x).fresh = s.fresh := by unfold setSlot; rfl
@[simp] theorem setSlot_nextId (s : State) (b sl : Nat) (x : Slot) : (setSlot s b sl x).nextId = s.nextId := by unfold setSlot; rfl

@[simp] theorem modSlot_regs (s : State) (b sl : Nat) (f : Slot → Slot) : (modSlot s b sl f).regs = s.regs := by simp only [modSlot, setSlot_regs]
@[simp] theorem modSlot_nrgRem (s : State) (b sl : Nat) (f : Slot → Slot) : (modSlot s b sl f).nrgRem = s.nrgRem := by simp only [modSlot, setSlot_nrgRem]
@[simp] theorem modSlot_mem (s : State) (b sl : Nat) (f : Slot → Slot) : (modSlot s b sl f).mem = s.mem := by simp only [modSlot, setSlot_mem]
@[simp] theorem modSlot_bmeta (s : State) (b sl : Nat) (f : Slot → Slot) : (modSlot s b sl f).bmeta = s.bmeta := by simp only [modSlot, setSlot_bmeta]
@[simp] theorem modSlot_ecc (s : State) (b sl : Nat) (f : Slot → Slot) : (modSlot s b sl f).ecc = s.ecc := by simp only [modSlot, setSlot_ecc]
@[simp] theorem modSlot_pes (s : State) (b sl : Nat) (f : Slot → Slot) : (modSlot s b sl f).pes = s.pes := by simp only [modSlot, setSlot_pes]
@[simp] theorem modSlot_links (s : State) (b sl : Nat) (f : Slot → Slot) : (modSlot s b sl f).links = s.links := by simp only [modSlot, setSlot_links]
@[simp] theorem modSlot_bhs (s : State) (b sl : Nat) (f : Slot → Slot) : (modSlot s b sl f).bhs = s.bhs := by simp only [modSlot, setSlot_bhs]
@[simp] theorem modSlot_cfgs (s : State) (b sl : Nat) (f : Slot → Slot) : (modSlot s b sl f).cfgs = s.cfgs := by simp only [modSlot, setSlot_cfgs]
@[simp] theorem modSlot_launches (s : State) (b sl : Nat) (f : Slot → Slot) : (modSlot s b sl f).launches = s.launches := by simp only [modSlot, setSlot_launches]
@[simp] theorem modSlot_tasks (s : State) (b sl : Nat) (f : Slot → Slot) : (modSlot s b sl f).tasks = s.tasks := by simp only [modSlot, setSlot_tasks]
@[simp] theorem modSlot_versions (s : State) (b sl : Nat) (f : Slot → Slot) : (modSlot s b sl f).versions = s.versions := by simp only [modSlot, setSlot_versions]
@[simp] theorem modSlot_rcbs (s : State) (b sl : Nat) (f : Slot → Slot) : (modSlot s b sl f).rcbs = s.rcbs := by simp only [modSlot, setSlot_rcbs]
@[simp] theorem modSlot_flights (s : State) (b sl : Nat) (f : Slot → Slot) : (modSlot s b sl f).flights = s.flights := by simp only [modSlot, setSlot_flights]
@[simp] theorem modSlot_inject (s : State) (b sl : Nat) (f : Slot → Slot) : (modSlot s b sl f).inject = s.inject := by simp only [modSlot, setSlot_inject]
@[simp] theorem modSlot_reqs (s : State) (b sl : Nat) (f : Slot → Slot) : (modSlot s b sl f).reqs = s.reqs := by simp only [modSlot, setSlot_reqs]
@[simp] theorem modSlot_cmds (s : State) (b sl : Nat) (f : Slot → Slot) : (modSlot s b sl f).cmds = s.cmds := by simp only [modSlot, setSlot_cmds]
@[simp] theorem modSlot_stores (s : State) (b sl : Nat) (f : Slot → Slot) : (modSlot s b sl f).stores = s.stores := by simp only [modSlot, setSlot_stores]
@[simp] theorem modSlot_saved (s : State) (b sl : Nat) (f : Slot → Slot) : (modSlot s b sl f).saved = s.saved := by simp only [modSlot, setSlot_saved]
@[simp] theorem modSlot_errSeq (s : State) (b sl : Nat) (f : Slot → Slot) : (modSlot s b sl f).errSeq = s.errSeq := by simp only [modSlot, setSlot_errSeq]
@[simp] theorem modSlot_evSeq (s : State) (b sl : Nat) (f : Slot → Slot) : (modSlot s b sl f).evSeq = s.evSeq := by simp only [modSlot, setSlot_evSeq]
@[simp] theorem modSlot_spokeOut (s : State) (b sl : Nat) (f : Slot → Slot) : (modSlot s b sl f).spokeOut = s.spokeOut := by simp only [modSlot, setSlot_spokeOut]
@[simp] theorem modSlot_powered (s : State) (b sl : Nat) (f : Slot → Slot) : (modSlot s b sl f).powered = s.powered := by simp only [modSlot, setSlot_powered]
@[simp] theorem modSlot_vfDone (s : State) (b sl : Nat) (f : Slot → Slot) : (modSlot s b sl f).vfDone = s.vfDone := by simp only [modSlot, setSlot_vfDone]
@[simp] theorem modSlot_cur (s : State) (b sl : Nat) (f : Slot → Slot) : (modSlot s b sl f).cur = s.cur := by simp only [modSlot, setSlot_cur]
@[simp] theorem modSlot_agenda (s : State) (b sl : Nat) (f : Slot → Slot) : (modSlot s b sl f).agenda = s.agenda := by simp only [modSlot, setSlot_agenda]
@[simp] theorem modSlot_fresh (s : State) (b sl : Nat) (f : Slot → Slot) : (modSlot s b sl f).fresh = s.fresh := by simp only [modSlot, setSlot_fresh]
@[simp] theorem modSlot_nextId (s : State) (b sl : Nat) (f : Slot → Slot) : (modSlot s b sl f).nextId = s.nextId := by simp only [modSlot, setSlot_nextId]

@[simp] theorem setBulk_regs (s : State) (b : Nat) (x : Bulk) : (setBulk s b x).regs = s.regs := by unfold setBulk; rfl
@[simp] theorem setBulk_nrgRem (s : State) (b : Nat) (x : Bulk) : (setBulk s b x).nrgRem = s.nrgRem := by unfold setBulk; rfl
@[simp] theorem setBulk_mem (s : State) (b : Nat) (x : Bulk) : (setBulk s b x).mem = s.mem := by unfold setBulk; rfl
@[simp] theorem setBulk_bmeta (s : State) (b : Nat) (x : Bulk) : (setBulk s b x).bmeta = s.bmeta := by unfold setBulk; rfl
@[simp] theorem setBulk_ecc (s : State) (b : Nat) (x : Bulk) : (setBulk s b x).ecc = s.ecc := by unfold setBulk; rfl
@[simp] theorem setBulk_pes (s : State) (b : Nat) (x : Bulk) : (setBulk s b x).pes = s.pes := by unfold setBulk; rfl
@[simp] theorem setBulk_slots (s : State) (b : Nat) (x : Bulk) : (setBulk s b x).slots = s.slots := by unfold setBulk; rfl
@[simp] theorem setBulk_links (s : State) (b : Nat) (x : Bulk) : (setBulk s b x).links = s.links := by unfold setBulk; rfl
@[simp] theorem setBulk_cfgs (s : State) (b : Nat) (x : Bulk) : (setBulk s b x).cfgs = s.cfgs := by unfold setBulk; rfl
@[simp] theorem setBulk_launches (s : State) (b : Nat) (x : Bulk) : (setBulk s b x).launches = s.launches := by unfold setBulk; rfl
@[simp] theorem setBulk_tasks (s : State) (b : Nat) (x : Bulk) : (setBulk s b x).tasks = s.tasks := by unfold setBulk; rfl
@[simp] theorem setBulk_versions (s : State) (b : Nat) (x : Bulk) : (setBulk s b x).versions = s.versions := by unfold setBulk; rfl
@[simp] theorem setBulk_rcbs (s : State) (b : Nat) (x : Bulk) : (setBulk s b x).rcbs = s.rcbs := by unfold setBulk; rfl
@[simp] theorem setBulk_flights (s : State) (b : Nat) (x : Bulk) : (setBulk s b x).flights = s.flights := by unfold setBulk; rfl
@[simp] theorem setBulk_inject (s : State) (b : Nat) (x : Bulk) : (setBulk s b x).inject = s.inject := by unfold setBulk; rfl
@[simp] theorem setBulk_reqs (s : State) (b : Nat) (x : Bulk) : (setBulk s b x).reqs = s.reqs := by unfold setBulk; rfl
@[simp] theorem setBulk_cmds (s : State) (b : Nat) (x : Bulk) : (setBulk s b x).cmds = s.cmds := by unfold setBulk; rfl
@[simp] theorem setBulk_stores (s : State) (b : Nat) (x : Bulk) : (setBulk s b x).stores = s.stores := by unfold setBulk; rfl
@[simp] theorem setBulk_saved (s : State) (b : Nat) (x : Bulk) : (setBulk s b x).saved = s.saved := by unfold setBulk; rfl
@[simp] theorem setBulk_errSeq (s : State) (b : Nat) (x : Bulk) : (setBulk s b x).errSeq = s.errSeq := by unfold setBulk; rfl
@[simp] theorem setBulk_evSeq (s : State) (b : Nat) (x : Bulk) : (setBulk s b x).evSeq = s.evSeq := by unfold setBulk; rfl
@[simp] theorem setBulk_spokeOut (s : State) (b : Nat) (x : Bulk) : (setBulk s b x).spokeOut = s.spokeOut := by unfold setBulk; rfl
@[simp] theorem setBulk_powered (s : State) (b : Nat) (x : Bulk) : (setBulk s b x).powered = s.powered := by unfold setBulk; rfl
@[simp] theorem setBulk_vfDone (s : State) (b : Nat) (x : Bulk) : (setBulk s b x).vfDone = s.vfDone := by unfold setBulk; rfl
@[simp] theorem setBulk_cur (s : State) (b : Nat) (x : Bulk) : (setBulk s b x).cur = s.cur := by unfold setBulk; rfl
@[simp] theorem setBulk_agenda (s : State) (b : Nat) (x : Bulk) : (setBulk s b x).agenda = s.agenda := by unfold setBulk; rfl
@[simp] theorem setBulk_fresh (s : State) (b : Nat) (x : Bulk) : (setBulk s b x).fresh = s.fresh := by unfold setBulk; rfl
@[simp] theorem setBulk_nextId (s : State) (b : Nat) (x : Bulk) : (setBulk s b x).nextId = s.nextId := by unfold setBulk; rfl

@[simp] theorem modBulk_regs (s : State) (b : Nat) (f : Bulk → Bulk) : (modBulk s b f).regs = s.regs := by simp only [modBulk, setBulk_regs]
@[simp] theorem modBulk_nrgRem (s : State) (b : Nat) (f : Bulk → Bulk) : (modBulk s b f).nrgRem = s.nrgRem := by simp only [modBulk, setBulk_nrgRem]
@[simp] theorem modBulk_mem (s : State) (b : Nat) (f : Bulk → Bulk) : (modBulk s b f).mem = s.mem := by simp only [modBulk, setBulk_mem]
@[simp] theorem modBulk_bmeta (s : State) (b : Nat) (f : Bulk → Bulk) : (modBulk s b f).bmeta = s.bmeta := by simp only [modBulk, setBulk_bmeta]
@[simp] theorem modBulk_ecc (s : State) (b : Nat) (f : Bulk → Bulk) : (modBulk s b f).ecc = s.ecc := by simp only [modBulk, setBulk_ecc]
@[simp] theorem modBulk_pes (s : State) (b : Nat) (f : Bulk → Bulk) : (modBulk s b f).pes = s.pes := by simp only [modBulk, setBulk_pes]
@[simp] theorem modBulk_slots (s : State) (b : Nat) (f : Bulk → Bulk) : (modBulk s b f).slots = s.slots := by simp only [modBulk, setBulk_slots]
@[simp] theorem modBulk_links (s : State) (b : Nat) (f : Bulk → Bulk) : (modBulk s b f).links = s.links := by simp only [modBulk, setBulk_links]
@[simp] theorem modBulk_cfgs (s : State) (b : Nat) (f : Bulk → Bulk) : (modBulk s b f).cfgs = s.cfgs := by simp only [modBulk, setBulk_cfgs]
@[simp] theorem modBulk_launches (s : State) (b : Nat) (f : Bulk → Bulk) : (modBulk s b f).launches = s.launches := by simp only [modBulk, setBulk_launches]
@[simp] theorem modBulk_tasks (s : State) (b : Nat) (f : Bulk → Bulk) : (modBulk s b f).tasks = s.tasks := by simp only [modBulk, setBulk_tasks]
@[simp] theorem modBulk_versions (s : State) (b : Nat) (f : Bulk → Bulk) : (modBulk s b f).versions = s.versions := by simp only [modBulk, setBulk_versions]
@[simp] theorem modBulk_rcbs (s : State) (b : Nat) (f : Bulk → Bulk) : (modBulk s b f).rcbs = s.rcbs := by simp only [modBulk, setBulk_rcbs]
@[simp] theorem modBulk_flights (s : State) (b : Nat) (f : Bulk → Bulk) : (modBulk s b f).flights = s.flights := by simp only [modBulk, setBulk_flights]
@[simp] theorem modBulk_inject (s : State) (b : Nat) (f : Bulk → Bulk) : (modBulk s b f).inject = s.inject := by simp only [modBulk, setBulk_inject]
@[simp] theorem modBulk_reqs (s : State) (b : Nat) (f : Bulk → Bulk) : (modBulk s b f).reqs = s.reqs := by simp only [modBulk, setBulk_reqs]
@[simp] theorem modBulk_cmds (s : State) (b : Nat) (f : Bulk → Bulk) : (modBulk s b f).cmds = s.cmds := by simp only [modBulk, setBulk_cmds]
@[simp] theorem modBulk_stores (s : State) (b : Nat) (f : Bulk → Bulk) : (modBulk s b f).stores = s.stores := by simp only [modBulk, setBulk_stores]
@[simp] theorem modBulk_saved (s : State) (b : Nat) (f : Bulk → Bulk) : (modBulk s b f).saved = s.saved := by simp only [modBulk, setBulk_saved]
@[simp] theorem modBulk_errSeq (s : State) (b : Nat) (f : Bulk → Bulk) : (modBulk s b f).errSeq = s.errSeq := by simp only [modBulk, setBulk_errSeq]
@[simp] theorem modBulk_evSeq (s : State) (b : Nat) (f : Bulk → Bulk) : (modBulk s b f).evSeq = s.evSeq := by simp only [modBulk, setBulk_evSeq]
@[simp] theorem modBulk_spokeOut (s : State) (b : Nat) (f : Bulk → Bulk) : (modBulk s b f).spokeOut = s.spokeOut := by simp only [modBulk, setBulk_spokeOut]
@[simp] theorem modBulk_powered (s : State) (b : Nat) (f : Bulk → Bulk) : (modBulk s b f).powered = s.powered := by simp only [modBulk, setBulk_powered]
@[simp] theorem modBulk_vfDone (s : State) (b : Nat) (f : Bulk → Bulk) : (modBulk s b f).vfDone = s.vfDone := by simp only [modBulk, setBulk_vfDone]
@[simp] theorem modBulk_cur (s : State) (b : Nat) (f : Bulk → Bulk) : (modBulk s b f).cur = s.cur := by simp only [modBulk, setBulk_cur]
@[simp] theorem modBulk_agenda (s : State) (b : Nat) (f : Bulk → Bulk) : (modBulk s b f).agenda = s.agenda := by simp only [modBulk, setBulk_agenda]
@[simp] theorem modBulk_fresh (s : State) (b : Nat) (f : Bulk → Bulk) : (modBulk s b f).fresh = s.fresh := by simp only [modBulk, setBulk_fresh]
@[simp] theorem modBulk_nextId (s : State) (b : Nat) (f : Bulk → Bulk) : (modBulk s b f).nextId = s.nextId := by simp only [modBulk, setBulk_nextId]

@[simp] theorem cfgPut_regs (s : State) (c : Placed) : (cfgPut s c).regs = s.regs := by unfold cfgPut; rfl
@[simp] theorem cfgPut_nrgRem (s : State) (c : Placed) : (cfgPut s c).nrgRem = s.nrgRem := by unfold cfgPut; rfl
@[simp] theorem cfgPut_mem (s : State) (c : Placed) : (cfgPut s c).mem = s.mem := by unfold cfgPut; rfl
@[simp] theorem cfgPut_bmeta (s : State) (c : Placed) : (cfgPut s c).bmeta = s.bmeta := by unfold cfgPut; rfl
@[simp] theorem cfgPut_ecc (s : State) (c : Placed) : (cfgPut s c).ecc = s.ecc := by unfold cfgPut; rfl
@[simp] theorem cfgPut_pes (s : State) (c : Placed) : (cfgPut s c).pes = s.pes := by unfold cfgPut; rfl
@[simp] theorem cfgPut_slots (s : State) (c : Placed) : (cfgPut s c).slots = s.slots := by unfold cfgPut; rfl
@[simp] theorem cfgPut_links (s : State) (c : Placed) : (cfgPut s c).links = s.links := by unfold cfgPut; rfl
@[simp] theorem cfgPut_bhs (s : State) (c : Placed) : (cfgPut s c).bhs = s.bhs := by unfold cfgPut; rfl
@[simp] theorem cfgPut_launches (s : State) (c : Placed) : (cfgPut s c).launches = s.launches := by unfold cfgPut; rfl
@[simp] theorem cfgPut_tasks (s : State) (c : Placed) : (cfgPut s c).tasks = s.tasks := by unfold cfgPut; rfl
@[simp] theorem cfgPut_versions (s : State) (c : Placed) : (cfgPut s c).versions = s.versions := by unfold cfgPut; rfl
@[simp] theorem cfgPut_rcbs (s : State) (c : Placed) : (cfgPut s c).rcbs = s.rcbs := by unfold cfgPut; rfl
@[simp] theorem cfgPut_flights (s : State) (c : Placed) : (cfgPut s c).flights = s.flights := by unfold cfgPut; rfl
@[simp] theorem cfgPut_inject (s : State) (c : Placed) : (cfgPut s c).inject = s.inject := by unfold cfgPut; rfl
@[simp] theorem cfgPut_reqs (s : State) (c : Placed) : (cfgPut s c).reqs = s.reqs := by unfold cfgPut; rfl
@[simp] theorem cfgPut_cmds (s : State) (c : Placed) : (cfgPut s c).cmds = s.cmds := by unfold cfgPut; rfl
@[simp] theorem cfgPut_stores (s : State) (c : Placed) : (cfgPut s c).stores = s.stores := by unfold cfgPut; rfl
@[simp] theorem cfgPut_saved (s : State) (c : Placed) : (cfgPut s c).saved = s.saved := by unfold cfgPut; rfl
@[simp] theorem cfgPut_errSeq (s : State) (c : Placed) : (cfgPut s c).errSeq = s.errSeq := by unfold cfgPut; rfl
@[simp] theorem cfgPut_evSeq (s : State) (c : Placed) : (cfgPut s c).evSeq = s.evSeq := by unfold cfgPut; rfl
@[simp] theorem cfgPut_spokeOut (s : State) (c : Placed) : (cfgPut s c).spokeOut = s.spokeOut := by unfold cfgPut; rfl
@[simp] theorem cfgPut_powered (s : State) (c : Placed) : (cfgPut s c).powered = s.powered := by unfold cfgPut; rfl
@[simp] theorem cfgPut_vfDone (s : State) (c : Placed) : (cfgPut s c).vfDone = s.vfDone := by unfold cfgPut; rfl
@[simp] theorem cfgPut_cur (s : State) (c : Placed) : (cfgPut s c).cur = s.cur := by unfold cfgPut; rfl
@[simp] theorem cfgPut_agenda (s : State) (c : Placed) : (cfgPut s c).agenda = s.agenda := by unfold cfgPut; rfl
@[simp] theorem cfgPut_fresh (s : State) (c : Placed) : (cfgPut s c).fresh = s.fresh := by unfold cfgPut; rfl
@[simp] theorem cfgPut_nextId (s : State) (c : Placed) : (cfgPut s c).nextId = s.nextId := by unfold cfgPut; rfl

@[simp] theorem launchPut_regs (s : State) (l : Launch) : (launchPut s l).regs = s.regs := by unfold launchPut; rfl
@[simp] theorem launchPut_nrgRem (s : State) (l : Launch) : (launchPut s l).nrgRem = s.nrgRem := by unfold launchPut; rfl
@[simp] theorem launchPut_mem (s : State) (l : Launch) : (launchPut s l).mem = s.mem := by unfold launchPut; rfl
@[simp] theorem launchPut_bmeta (s : State) (l : Launch) : (launchPut s l).bmeta = s.bmeta := by unfold launchPut; rfl
@[simp] theorem launchPut_ecc (s : State) (l : Launch) : (launchPut s l).ecc = s.ecc := by unfold launchPut; rfl
@[simp] theorem launchPut_pes (s : State) (l : Launch) : (launchPut s l).pes = s.pes := by unfold launchPut; rfl
@[simp] theorem launchPut_slots (s : State) (l : Launch) : (launchPut s l).slots = s.slots := by unfold launchPut; rfl
@[simp] theorem launchPut_links (s : State) (l : Launch) : (launchPut s l).links = s.links := by unfold launchPut; rfl
@[simp] theorem launchPut_bhs (s : State) (l : Launch) : (launchPut s l).bhs = s.bhs := by unfold launchPut; rfl
@[simp] theorem launchPut_cfgs (s : State) (l : Launch) : (launchPut s l).cfgs = s.cfgs := by unfold launchPut; rfl
@[simp] theorem launchPut_tasks (s : State) (l : Launch) : (launchPut s l).tasks = s.tasks := by unfold launchPut; rfl
@[simp] theorem launchPut_versions (s : State) (l : Launch) : (launchPut s l).versions = s.versions := by unfold launchPut; rfl
@[simp] theorem launchPut_rcbs (s : State) (l : Launch) : (launchPut s l).rcbs = s.rcbs := by unfold launchPut; rfl
@[simp] theorem launchPut_flights (s : State) (l : Launch) : (launchPut s l).flights = s.flights := by unfold launchPut; rfl
@[simp] theorem launchPut_inject (s : State) (l : Launch) : (launchPut s l).inject = s.inject := by unfold launchPut; rfl
@[simp] theorem launchPut_reqs (s : State) (l : Launch) : (launchPut s l).reqs = s.reqs := by unfold launchPut; rfl
@[simp] theorem launchPut_cmds (s : State) (l : Launch) : (launchPut s l).cmds = s.cmds := by unfold launchPut; rfl
@[simp] theorem launchPut_stores (s : State) (l : Launch) : (launchPut s l).stores = s.stores := by unfold launchPut; rfl
@[simp] theorem launchPut_saved (s : State) (l : Launch) : (launchPut s l).saved = s.saved := by unfold launchPut; rfl
@[simp] theorem launchPut_errSeq (s : State) (l : Launch) : (launchPut s l).errSeq = s.errSeq := by unfold launchPut; rfl
@[simp] theorem launchPut_evSeq (s : State) (l : Launch) : (launchPut s l).evSeq = s.evSeq := by unfold launchPut; rfl
@[simp] theorem launchPut_spokeOut (s : State) (l : Launch) : (launchPut s l).spokeOut = s.spokeOut := by unfold launchPut; rfl
@[simp] theorem launchPut_powered (s : State) (l : Launch) : (launchPut s l).powered = s.powered := by unfold launchPut; rfl
@[simp] theorem launchPut_vfDone (s : State) (l : Launch) : (launchPut s l).vfDone = s.vfDone := by unfold launchPut; rfl
@[simp] theorem launchPut_cur (s : State) (l : Launch) : (launchPut s l).cur = s.cur := by unfold launchPut; rfl
@[simp] theorem launchPut_agenda (s : State) (l : Launch) : (launchPut s l).agenda = s.agenda := by unfold launchPut; rfl
@[simp] theorem launchPut_fresh (s : State) (l : Launch) : (launchPut s l).fresh = s.fresh := by unfold launchPut; rfl
@[simp] theorem launchPut_nextId (s : State) (l : Launch) : (launchPut s l).nextId = s.nextId := by unfold launchPut; rfl

@[simp] theorem cmdPut_regs (s : State) (c : Cmd) : (cmdPut s c).regs = s.regs := by unfold cmdPut; rfl
@[simp] theorem cmdPut_nrgRem (s : State) (c : Cmd) : (cmdPut s c).nrgRem = s.nrgRem := by unfold cmdPut; rfl
@[simp] theorem cmdPut_mem (s : State) (c : Cmd) : (cmdPut s c).mem = s.mem := by unfold cmdPut; rfl
@[simp] theorem cmdPut_bmeta (s : State) (c : Cmd) : (cmdPut s c).bmeta = s.bmeta := by unfold cmdPut; rfl
@[simp] theorem cmdPut_ecc (s : State) (c : Cmd) : (cmdPut s c).ecc = s.ecc := by unfold cmdPut; rfl
@[simp] theorem cmdPut_pes (s : State) (c : Cmd) : (cmdPut s c).pes = s.pes := by unfold cmdPut; rfl
@[simp] theorem cmdPut_slots (s : State) (c : Cmd) : (cmdPut s c).slots = s.slots := by unfold cmdPut; rfl
@[simp] theorem cmdPut_links (s : State) (c : Cmd) : (cmdPut s c).links = s.links := by unfold cmdPut; rfl
@[simp] theorem cmdPut_bhs (s : State) (c : Cmd) : (cmdPut s c).bhs = s.bhs := by unfold cmdPut; rfl
@[simp] theorem cmdPut_cfgs (s : State) (c : Cmd) : (cmdPut s c).cfgs = s.cfgs := by unfold cmdPut; rfl
@[simp] theorem cmdPut_launches (s : State) (c : Cmd) : (cmdPut s c).launches = s.launches := by unfold cmdPut; rfl
@[simp] theorem cmdPut_tasks (s : State) (c : Cmd) : (cmdPut s c).tasks = s.tasks := by unfold cmdPut; rfl
@[simp] theorem cmdPut_versions (s : State) (c : Cmd) : (cmdPut s c).versions = s.versions := by unfold cmdPut; rfl
@[simp] theorem cmdPut_rcbs (s : State) (c : Cmd) : (cmdPut s c).rcbs = s.rcbs := by unfold cmdPut; rfl
@[simp] theorem cmdPut_flights (s : State) (c : Cmd) : (cmdPut s c).flights = s.flights := by unfold cmdPut; rfl
@[simp] theorem cmdPut_inject (s : State) (c : Cmd) : (cmdPut s c).inject = s.inject := by unfold cmdPut; rfl
@[simp] theorem cmdPut_reqs (s : State) (c : Cmd) : (cmdPut s c).reqs = s.reqs := by unfold cmdPut; rfl
@[simp] theorem cmdPut_stores (s : State) (c : Cmd) : (cmdPut s c).stores = s.stores := by unfold cmdPut; rfl
@[simp] theorem cmdPut_saved (s : State) (c : Cmd) : (cmdPut s c).saved = s.saved := by unfold cmdPut; rfl
@[simp] theorem cmdPut_errSeq (s : State) (c : Cmd) : (cmdPut s c).errSeq = s.errSeq := by unfold cmdPut; rfl
@[simp] theorem cmdPut_evSeq (s : State) (c : Cmd) : (cmdPut s c).evSeq = s.evSeq := by unfold cmdPut; rfl
@[simp] theorem cmdPut_spokeOut (s : State) (c : Cmd) : (cmdPut s c).spokeOut = s.spokeOut := by unfold cmdPut; rfl
@[simp] theorem cmdPut_powered (s : State) (c : Cmd) : (cmdPut s c).powered = s.powered := by unfold cmdPut; rfl
@[simp] theorem cmdPut_vfDone (s : State) (c : Cmd) : (cmdPut s c).vfDone = s.vfDone := by unfold cmdPut; rfl
@[simp] theorem cmdPut_cur (s : State) (c : Cmd) : (cmdPut s c).cur = s.cur := by unfold cmdPut; rfl
@[simp] theorem cmdPut_agenda (s : State) (c : Cmd) : (cmdPut s c).agenda = s.agenda := by unfold cmdPut; rfl
@[simp] theorem cmdPut_fresh (s : State) (c : Cmd) : (cmdPut s c).fresh = s.fresh := by unfold cmdPut; rfl
@[simp] theorem cmdPut_nextId (s : State) (c : Cmd) : (cmdPut s c).nextId = s.nextId := by unfold cmdPut; rfl

@[simp] theorem cmdDel_regs (s : State) (id : Nat) : (cmdDel s id).regs = s.regs := by unfold cmdDel; rfl
@[simp] theorem cmdDel_nrgRem (s : State) (id : Nat) : (cmdDel s id).nrgRem = s.nrgRem := by unfold cmdDel; rfl
@[simp] theorem cmdDel_mem (s : State) (id : Nat) : (cmdDel s id).mem = s.mem := by unfold cmdDel; rfl
@[simp] theorem cmdDel_bmeta (s : State) (id : Nat) : (cmdDel s id).bmeta = s.bmeta := by unfold cmdDel; rfl
@[simp] theorem cmdDel_ecc (s : State) (id : Nat) : (cmdDel s id).ecc = s.ecc := by unfold cmdDel; rfl
@[simp] theorem cmdDel_pes (s : State) (id : Nat) : (cmdDel s id).pes = s.pes := by unfold cmdDel; rfl
@[simp] theorem cmdDel_slots (s : State) (id : Nat) : (cmdDel s id).slots = s.slots := by unfold cmdDel; rfl
@[simp] theorem cmdDel_links (s : State) (id : Nat) : (cmdDel s id).links = s.links := by unfold cmdDel; rfl
@[simp] theorem cmdDel_bhs (s : State) (id : Nat) : (cmdDel s id).bhs = s.bhs := by unfold cmdDel; rfl
@[simp] theorem cmdDel_cfgs (s : State) (id : Nat) : (cmdDel s id).cfgs = s.cfgs := by unfold cmdDel; rfl
@[simp] theorem cmdDel_launches (s : State) (id : Nat) : (cmdDel s id).launches = s.launches := by unfold cmdDel; rfl
@[simp] theorem cmdDel_tasks (s : State) (id : Nat) : (cmdDel s id).tasks = s.tasks := by unfold cmdDel; rfl
@[simp] theorem cmdDel_versions (s : State) (id : Nat) : (cmdDel s id).versions = s.versions := by unfold cmdDel; rfl
@[simp] theorem cmdDel_rcbs (s : State) (id : Nat) : (cmdDel s id).rcbs = s.rcbs := by unfold cmdDel; rfl
@[simp] theorem cmdDel_flights (s : State) (id : Nat) : (cmdDel s id).flights = s.flights := by unfold cmdDel; rfl
@[simp] theorem cmdDel_inject (s : State) (id : Nat) : (cmdDel s id).inject = s.inject := by unfold cmdDel; rfl
@[simp] theorem cmdDel_reqs (s : State) (id : Nat) : (cmdDel s id).reqs = s.reqs := by unfold cmdDel; rfl
@[simp] theorem cmdDel_stores (s : State) (id : Nat) : (cmdDel s id).stores = s.stores := by unfold cmdDel; rfl
@[simp] theorem cmdDel_saved (s : State) (id : Nat) : (cmdDel s id).saved = s.saved := by unfold cmdDel; rfl
@[simp] theorem cmdDel_errSeq (s : State) (id : Nat) : (cmdDel s id).errSeq = s.errSeq := by unfold cmdDel; rfl
@[simp] theorem cmdDel_evSeq (s : State) (id : Nat) : (cmdDel s id).evSeq = s.evSeq := by unfold cmdDel; rfl
@[simp] theorem cmdDel_spokeOut (s : State) (id : Nat) : (cmdDel s id).spokeOut = s.spokeOut := by unfold cmdDel; rfl
@[simp] theorem cmdDel_powered (s : State) (id : Nat) : (cmdDel s id).powered = s.powered := by unfold cmdDel; rfl
@[simp] theorem cmdDel_vfDone (s : State) (id : Nat) : (cmdDel s id).vfDone = s.vfDone := by unfold cmdDel; rfl
@[simp] theorem cmdDel_cur (s : State) (id : Nat) : (cmdDel s id).cur = s.cur := by unfold cmdDel; rfl
@[simp] theorem cmdDel_agenda (s : State) (id : Nat) : (cmdDel s id).agenda = s.agenda := by unfold cmdDel; rfl
@[simp] theorem cmdDel_fresh (s : State) (id : Nat) : (cmdDel s id).fresh = s.fresh := by unfold cmdDel; rfl
@[simp] theorem cmdDel_nextId (s : State) (id : Nat) : (cmdDel s id).nextId = s.nextId := by unfold cmdDel; rfl

@[simp] theorem reqPut_regs (s : State) (r : Req) : (reqPut s r).regs = s.regs := by unfold reqPut; rfl
@[simp] theorem reqPut_nrgRem (s : State) (r : Req) : (reqPut s r).nrgRem = s.nrgRem := by unfold reqPut; rfl
@[simp] theorem reqPut_mem (s : State) (r : Req) : (reqPut s r).mem = s.mem := by unfold reqPut; rfl
@[simp] theorem reqPut_bmeta (s : State) (r : Req) : (reqPut s r).bmeta = s.bmeta := by unfold reqPut; rfl
@[simp] theorem reqPut_ecc (s : State) (r : Req) : (reqPut s r).ecc = s.ecc := by unfold reqPut; rfl
@[simp] theorem reqPut_pes (s : State) (r : Req) : (reqPut s r).pes = s.pes := by unfold reqPut; rfl
@[simp] theorem reqPut_slots (s : State) (r : Req) : (reqPut s r).slots = s.slots := by unfold reqPut; rfl
@[simp] theorem reqPut_links (s : State) (r : Req) : (reqPut s r).links = s.links := by unfold reqPut; rfl
@[simp] theorem reqPut_bhs (s : State) (r : Req) : (reqPut s r).bhs = s.bhs := by unfold reqPut; rfl
@[simp] theorem reqPut_cfgs (s : State) (r : Req) : (reqPut s r).cfgs = s.cfgs := by unfold reqPut; rfl
@[simp] theorem reqPut_launches (s : State) (r : Req) : (reqPut s r).launches = s.launches := by unfold reqPut; rfl
@[simp] theorem reqPut_tasks (s : State) (r : Req) : (reqPut s r).tasks = s.tasks := by unfold reqPut; rfl
@[simp] theorem reqPut_versions (s : State) (r : Req) : (reqPut s r).versions = s.versions := by unfold reqPut; rfl
@[simp] theorem reqPut_rcbs (s : State) (r : Req) : (reqPut s r).rcbs = s.rcbs := by unfold reqPut; rfl
@[simp] theorem reqPut_flights (s : State) (r : Req) : (reqPut s r).flights = s.flights := by unfold reqPut; rfl
@[simp] theorem reqPut_inject (s : State) (r : Req) : (reqPut s r).inject = s.inject := by unfold reqPut; rfl
@[simp] theorem reqPut_cmds (s : State) (r : Req) : (reqPut s r).cmds = s.cmds := by unfold reqPut; rfl
@[simp] theorem reqPut_stores (s : State) (r : Req) : (reqPut s r).stores = s.stores := by unfold reqPut; rfl
@[simp] theorem reqPut_saved (s : State) (r : Req) : (reqPut s r).saved = s.saved := by unfold reqPut; rfl
@[simp] theorem reqPut_errSeq (s : State) (r : Req) : (reqPut s r).errSeq = s.errSeq := by unfold reqPut; rfl
@[simp] theorem reqPut_evSeq (s : State) (r : Req) : (reqPut s r).evSeq = s.evSeq := by unfold reqPut; rfl
@[simp] theorem reqPut_spokeOut (s : State) (r : Req) : (reqPut s r).spokeOut = s.spokeOut := by unfold reqPut; rfl
@[simp] theorem reqPut_powered (s : State) (r : Req) : (reqPut s r).powered = s.powered := by unfold reqPut; rfl
@[simp] theorem reqPut_vfDone (s : State) (r : Req) : (reqPut s r).vfDone = s.vfDone := by unfold reqPut; rfl
@[simp] theorem reqPut_cur (s : State) (r : Req) : (reqPut s r).cur = s.cur := by unfold reqPut; rfl
@[simp] theorem reqPut_agenda (s : State) (r : Req) : (reqPut s r).agenda = s.agenda := by unfold reqPut; rfl
@[simp] theorem reqPut_fresh (s : State) (r : Req) : (reqPut s r).fresh = s.fresh := by unfold reqPut; rfl
@[simp] theorem reqPut_nextId (s : State) (r : Req) : (reqPut s r).nextId = s.nextId := by unfold reqPut; rfl

@[simp] theorem reqDel_regs (s : State) (id : Nat) : (reqDel s id).regs = s.regs := by unfold reqDel; rfl
@[simp] theorem reqDel_nrgRem (s : State) (id : Nat) : (reqDel s id).nrgRem = s.nrgRem := by unfold reqDel; rfl
@[simp] theorem reqDel_mem (s : State) (id : Nat) : (reqDel s id).mem = s.mem := by unfold reqDel; rfl
@[simp] theorem reqDel_bmeta (s : State) (id : Nat) : (reqDel s id).bmeta = s.bmeta := by unfold reqDel; rfl
@[simp] theorem reqDel_ecc (s : State) (id : Nat) : (reqDel s id).ecc = s.ecc := by unfold reqDel; rfl
@[simp] theorem reqDel_pes (s : State) (id : Nat) : (reqDel s id).pes = s.pes := by unfold reqDel; rfl
@[simp] theorem reqDel_slots (s : State) (id : Nat) : (reqDel s id).slots = s.slots := by unfold reqDel; rfl
@[simp] theorem reqDel_links (s : State) (id : Nat) : (reqDel s id).links = s.links := by unfold reqDel; rfl
@[simp] theorem reqDel_bhs (s : State) (id : Nat) : (reqDel s id).bhs = s.bhs := by unfold reqDel; rfl
@[simp] theorem reqDel_cfgs (s : State) (id : Nat) : (reqDel s id).cfgs = s.cfgs := by unfold reqDel; rfl
@[simp] theorem reqDel_launches (s : State) (id : Nat) : (reqDel s id).launches = s.launches := by unfold reqDel; rfl
@[simp] theorem reqDel_tasks (s : State) (id : Nat) : (reqDel s id).tasks = s.tasks := by unfold reqDel; rfl
@[simp] theorem reqDel_versions (s : State) (id : Nat) : (reqDel s id).versions = s.versions := by unfold reqDel; rfl
@[simp] theorem reqDel_rcbs (s : State) (id : Nat) : (reqDel s id).rcbs = s.rcbs := by unfold reqDel; rfl
@[simp] theorem reqDel_flights (s : State) (id : Nat) : (reqDel s id).flights = s.flights := by unfold reqDel; rfl
@[simp] theorem reqDel_inject (s : State) (id : Nat) : (reqDel s id).inject = s.inject := by unfold reqDel; rfl
@[simp] theorem reqDel_cmds (s : State) (id : Nat) : (reqDel s id).cmds = s.cmds := by unfold reqDel; rfl
@[simp] theorem reqDel_stores (s : State) (id : Nat) : (reqDel s id).stores = s.stores := by unfold reqDel; rfl
@[simp] theorem reqDel_saved (s : State) (id : Nat) : (reqDel s id).saved = s.saved := by unfold reqDel; rfl
@[simp] theorem reqDel_errSeq (s : State) (id : Nat) : (reqDel s id).errSeq = s.errSeq := by unfold reqDel; rfl
@[simp] theorem reqDel_evSeq (s : State) (id : Nat) : (reqDel s id).evSeq = s.evSeq := by unfold reqDel; rfl
@[simp] theorem reqDel_spokeOut (s : State) (id : Nat) : (reqDel s id).spokeOut = s.spokeOut := by unfold reqDel; rfl
@[simp] theorem reqDel_powered (s : State) (id : Nat) : (reqDel s id).powered = s.powered := by unfold reqDel; rfl
@[simp] theorem reqDel_vfDone (s : State) (id : Nat) : (reqDel s id).vfDone = s.vfDone := by unfold reqDel; rfl
@[simp] theorem reqDel_cur (s : State) (id : Nat) : (reqDel s id).cur = s.cur := by unfold reqDel; rfl
@[simp] theorem reqDel_agenda (s : State) (id : Nat) : (reqDel s id).agenda = s.agenda := by unfold reqDel; rfl
@[simp] theorem reqDel_fresh (s : State) (id : Nat) : (reqDel s id).fresh = s.fresh := by unfold reqDel; rfl
@[simp] theorem reqDel_nextId (s : State) (id : Nat) : (reqDel s id).nextId = s.nextId := by unfold reqDel; rfl

@[simp] theorem storePut_regs (s : State) (p : PStore) : (storePut s p).regs = s.regs := by unfold storePut; rfl
@[simp] theorem storePut_nrgRem (s : State) (p : PStore) : (storePut s p).nrgRem = s.nrgRem := by unfold storePut; rfl
@[simp] theorem storePut_mem (s : State) (p : PStore) : (storePut s p).mem = s.mem := by unfold storePut; rfl
@[simp] theorem storePut_bmeta (s : State) (p : PStore) : (storePut s p).bmeta = s.bmeta := by unfold storePut; rfl
@[simp] theorem storePut_ecc (s : State) (p : PStore) : (storePut s p).ecc = s.ecc := by unfold storePut; rfl
@[simp] theorem storePut_pes (s : State) (p : PStore) : (storePut s p).pes = s.pes := by unfold storePut; rfl
@[simp] theorem storePut_slots (s : State) (p : PStore) : (storePut s p).slots = s.slots := by unfold storePut; rfl
@[simp] theorem storePut_links (s : State) (p : PStore) : (storePut s p).links = s.links := by unfold storePut; rfl
@[simp] theorem storePut_bhs (s : State) (p : PStore) : (storePut s p).bhs = s.bhs := by unfold storePut; rfl
@[simp] theorem storePut_cfgs (s : State) (p : PStore) : (storePut s p).cfgs = s.cfgs := by unfold storePut; rfl
@[simp] theorem storePut_launches (s : State) (p : PStore) : (storePut s p).launches = s.launches := by unfold storePut; rfl
@[simp] theorem storePut_tasks (s : State) (p : PStore) : (storePut s p).tasks = s.tasks := by unfold storePut; rfl
@[simp] theorem storePut_versions (s : State) (p : PStore) : (storePut s p).versions = s.versions := by unfold storePut; rfl
@[simp] theorem storePut_rcbs (s : State) (p : PStore) : (storePut s p).rcbs = s.rcbs := by unfold storePut; rfl
@[simp] theorem storePut_flights (s : State) (p : PStore) : (storePut s p).flights = s.flights := by unfold storePut; rfl
@[simp] theorem storePut_inject (s : State) (p : PStore) : (storePut s p).inject = s.inject := by unfold storePut; rfl
@[simp] theorem storePut_reqs (s : State) (p : PStore) : (storePut s p).reqs = s.reqs := by unfold storePut; rfl
@[simp] theorem storePut_cmds (s : State) (p : PStore) : (storePut s p).cmds = s.cmds := by unfold storePut; rfl
@[simp] theorem storePut_saved (s : State) (p : PStore) : (storePut s p).saved = s.saved := by unfold storePut; rfl
@[simp] theorem storePut_errSeq (s : State) (p : PStore) : (storePut s p).errSeq = s.errSeq := by unfold storePut; rfl
@[simp] theorem storePut_evSeq (s : State) (p : PStore) : (storePut s p).evSeq = s.evSeq := by unfold storePut; rfl
@[simp] theorem storePut_spokeOut (s : State) (p : PStore) : (storePut s p).spokeOut = s.spokeOut := by unfold storePut; rfl
@[simp] theorem storePut_powered (s : State) (p : PStore) : (storePut s p).powered = s.powered := by unfold storePut; rfl
@[simp] theorem storePut_vfDone (s : State) (p : PStore) : (storePut s p).vfDone = s.vfDone := by unfold storePut; rfl
@[simp] theorem storePut_cur (s : State) (p : PStore) : (storePut s p).cur = s.cur := by unfold storePut; rfl
@[simp] theorem storePut_agenda (s : State) (p : PStore) : (storePut s p).agenda = s.agenda := by unfold storePut; rfl
@[simp] theorem storePut_fresh (s : State) (p : PStore) : (storePut s p).fresh = s.fresh := by unfold storePut; rfl
@[simp] theorem storePut_nextId (s : State) (p : PStore) : (storePut s p).nextId = s.nextId := by unfold storePut; rfl

@[simp] theorem eccClear_regs (s : State) (cw n : Nat) : (eccClear s cw n).regs = s.regs := by unfold eccClear; rfl
@[simp] theorem eccClear_nrgRem (s : State) (cw n : Nat) : (eccClear s cw n).nrgRem = s.nrgRem := by unfold eccClear; rfl
@[simp] theorem eccClear_mem (s : State) (cw n : Nat) : (eccClear s cw n).mem = s.mem := by unfold eccClear; rfl
@[simp] theorem eccClear_bmeta (s : State) (cw n : Nat) : (eccClear s cw n).bmeta = s.bmeta := by unfold eccClear; rfl
@[simp] theorem eccClear_pes (s : State) (cw n : Nat) : (eccClear s cw n).pes = s.pes := by unfold eccClear; rfl
@[simp] theorem eccClear_slots (s : State) (cw n : Nat) : (eccClear s cw n).slots = s.slots := by unfold eccClear; rfl
@[simp] theorem eccClear_links (s : State) (cw n : Nat) : (eccClear s cw n).links = s.links := by unfold eccClear; rfl
@[simp] theorem eccClear_bhs (s : State) (cw n : Nat) : (eccClear s cw n).bhs = s.bhs := by unfold eccClear; rfl
@[simp] theorem eccClear_cfgs (s : State) (cw n : Nat) : (eccClear s cw n).cfgs = s.cfgs := by unfold eccClear; rfl
@[simp] theorem eccClear_launches (s : State) (cw n : Nat) : (eccClear s cw n).launches = s.launches := by unfold eccClear; rfl
@[simp] theorem eccClear_tasks (s : State) (cw n : Nat) : (eccClear s cw n).tasks = s.tasks := by unfold eccClear; rfl
@[simp] theorem eccClear_versions (s : State) (cw n : Nat) : (eccClear s cw n).versions = s.versions := by unfold eccClear; rfl
@[simp] theorem eccClear_rcbs (s : State) (cw n : Nat) : (eccClear s cw n).rcbs = s.rcbs := by unfold eccClear; rfl
@[simp] theorem eccClear_flights (s : State) (cw n : Nat) : (eccClear s cw n).flights = s.flights := by unfold eccClear; rfl
@[simp] theorem eccClear_inject (s : State) (cw n : Nat) : (eccClear s cw n).inject = s.inject := by unfold eccClear; rfl
@[simp] theorem eccClear_reqs (s : State) (cw n : Nat) : (eccClear s cw n).reqs = s.reqs := by unfold eccClear; rfl
@[simp] theorem eccClear_cmds (s : State) (cw n : Nat) : (eccClear s cw n).cmds = s.cmds := by unfold eccClear; rfl
@[simp] theorem eccClear_stores (s : State) (cw n : Nat) : (eccClear s cw n).stores = s.stores := by unfold eccClear; rfl
@[simp] theorem eccClear_saved (s : State) (cw n : Nat) : (eccClear s cw n).saved = s.saved := by unfold eccClear; rfl
@[simp] theorem eccClear_errSeq (s : State) (cw n : Nat) : (eccClear s cw n).errSeq = s.errSeq := by unfold eccClear; rfl
@[simp] theorem eccClear_evSeq (s : State) (cw n : Nat) : (eccClear s cw n).evSeq = s.evSeq := by unfold eccClear; rfl
@[simp] theorem eccClear_spokeOut (s : State) (cw n : Nat) : (eccClear s cw n).spokeOut = s.spokeOut := by unfold eccClear; rfl
@[simp] theorem eccClear_powered (s : State) (cw n : Nat) : (eccClear s cw n).powered = s.powered := by unfold eccClear; rfl
@[simp] theorem eccClear_vfDone (s : State) (cw n : Nat) : (eccClear s cw n).vfDone = s.vfDone := by unfold eccClear; rfl
@[simp] theorem eccClear_cur (s : State) (cw n : Nat) : (eccClear s cw n).cur = s.cur := by unfold eccClear; rfl
@[simp] theorem eccClear_agenda (s : State) (cw n : Nat) : (eccClear s cw n).agenda = s.agenda := by unfold eccClear; rfl
@[simp] theorem eccClear_fresh (s : State) (cw n : Nat) : (eccClear s cw n).fresh = s.fresh := by unfold eccClear; rfl
@[simp] theorem eccClear_nextId (s : State) (cw n : Nat) : (eccClear s cw n).nextId = s.nextId := by unfold eccClear; rfl

@[simp] theorem newId_regs (s : State) : (newId s).regs = s.regs := by unfold newId; rfl
@[simp] theorem newId_nrgRem (s : State) : (newId s).nrgRem = s.nrgRem := by unfold newId; rfl
@[simp] theorem newId_mem (s : State) : (newId s).mem = s.mem := by unfold newId; rfl
@[simp] theorem newId_bmeta (s : State) : (newId s).bmeta = s.bmeta := by unfold newId; rfl
@[simp] theorem newId_ecc (s : State) : (newId s).ecc = s.ecc := by unfold newId; rfl
@[simp] theorem newId_pes (s : State) : (newId s).pes = s.pes := by unfold newId; rfl
@[simp] theorem newId_slots (s : State) : (newId s).slots = s.slots := by unfold newId; rfl
@[simp] theorem newId_links (s : State) : (newId s).links = s.links := by unfold newId; rfl
@[simp] theorem newId_bhs (s : State) : (newId s).bhs = s.bhs := by unfold newId; rfl
@[simp] theorem newId_cfgs (s : State) : (newId s).cfgs = s.cfgs := by unfold newId; rfl
@[simp] theorem newId_launches (s : State) : (newId s).launches = s.launches := by unfold newId; rfl
@[simp] theorem newId_tasks (s : State) : (newId s).tasks = s.tasks := by unfold newId; rfl
@[simp] theorem newId_versions (s : State) : (newId s).versions = s.versions := by unfold newId; rfl
@[simp] theorem newId_rcbs (s : State) : (newId s).rcbs = s.rcbs := by unfold newId; rfl
@[simp] theorem newId_flights (s : State) : (newId s).flights = s.flights := by unfold newId; rfl
@[simp] theorem newId_inject (s : State) : (newId s).inject = s.inject := by unfold newId; rfl
@[simp] theorem newId_reqs (s : State) : (newId s).reqs = s.reqs := by unfold newId; rfl
@[simp] theorem newId_cmds (s : State) : (newId s).cmds = s.cmds := by unfold newId; rfl
@[simp] theorem newId_stores (s : State) : (newId s).stores = s.stores := by unfold newId; rfl
@[simp] theorem newId_saved (s : State) : (newId s).saved = s.saved := by unfold newId; rfl
@[simp] theorem newId_errSeq (s : State) : (newId s).errSeq = s.errSeq := by unfold newId; rfl
@[simp] theorem newId_evSeq (s : State) : (newId s).evSeq = s.evSeq := by unfold newId; rfl
@[simp] theorem newId_spokeOut (s : State) : (newId s).spokeOut = s.spokeOut := by unfold newId; rfl
@[simp] theorem newId_powered (s : State) : (newId s).powered = s.powered := by unfold newId; rfl
@[simp] theorem newId_vfDone (s : State) : (newId s).vfDone = s.vfDone := by unfold newId; rfl
@[simp] theorem newId_cur (s : State) : (newId s).cur = s.cur := by unfold newId; rfl
@[simp] theorem newId_agenda (s : State) : (newId s).agenda = s.agenda := by unfold newId; rfl
@[simp] theorem newId_fresh (s : State) : (newId s).fresh = s.fresh := by unfold newId; rfl

@[simp] theorem drawn_regs (s : State) : (drawn s).regs = s.regs := by unfold drawn; rfl
@[simp] theorem drawn_nrgRem (s : State) : (drawn s).nrgRem = s.nrgRem := by unfold drawn; rfl
@[simp] theorem drawn_mem (s : State) : (drawn s).mem = s.mem := by unfold drawn; rfl
@[simp] theorem drawn_bmeta (s : State) : (drawn s).bmeta = s.bmeta := by unfold drawn; rfl
@[simp] theorem drawn_ecc (s : State) : (drawn s).ecc = s.ecc := by unfold drawn; rfl
@[simp] theorem drawn_pes (s : State) : (drawn s).pes = s.pes := by unfold drawn; rfl
@[simp] theorem drawn_slots (s : State) : (drawn s).slots = s.slots := by unfold drawn; rfl
@[simp] theorem drawn_links (s : State) : (drawn s).links = s.links := by unfold drawn; rfl
@[simp] theorem drawn_bhs (s : State) : (drawn s).bhs = s.bhs := by unfold drawn; rfl
@[simp] theorem drawn_cfgs (s : State) : (drawn s).cfgs = s.cfgs := by unfold drawn; rfl
@[simp] theorem drawn_launches (s : State) : (drawn s).launches = s.launches := by unfold drawn; rfl
@[simp] theorem drawn_tasks (s : State) : (drawn s).tasks = s.tasks := by unfold drawn; rfl
@[simp] theorem drawn_versions (s : State) : (drawn s).versions = s.versions := by unfold drawn; rfl
@[simp] theorem drawn_rcbs (s : State) : (drawn s).rcbs = s.rcbs := by unfold drawn; rfl
@[simp] theorem drawn_flights (s : State) : (drawn s).flights = s.flights := by unfold drawn; rfl
@[simp] theorem drawn_inject (s : State) : (drawn s).inject = s.inject := by unfold drawn; rfl
@[simp] theorem drawn_reqs (s : State) : (drawn s).reqs = s.reqs := by unfold drawn; rfl
@[simp] theorem drawn_cmds (s : State) : (drawn s).cmds = s.cmds := by unfold drawn; rfl
@[simp] theorem drawn_stores (s : State) : (drawn s).stores = s.stores := by unfold drawn; rfl
@[simp] theorem drawn_saved (s : State) : (drawn s).saved = s.saved := by unfold drawn; rfl
@[simp] theorem drawn_errSeq (s : State) : (drawn s).errSeq = s.errSeq := by unfold drawn; rfl
@[simp] theorem drawn_evSeq (s : State) : (drawn s).evSeq = s.evSeq := by unfold drawn; rfl
@[simp] theorem drawn_spokeOut (s : State) : (drawn s).spokeOut = s.spokeOut := by unfold drawn; rfl
@[simp] theorem drawn_powered (s : State) : (drawn s).powered = s.powered := by unfold drawn; rfl
@[simp] theorem drawn_vfDone (s : State) : (drawn s).vfDone = s.vfDone := by unfold drawn; rfl
@[simp] theorem drawn_cur (s : State) : (drawn s).cur = s.cur := by unfold drawn; rfl
@[simp] theorem drawn_agenda (s : State) : (drawn s).agenda = s.agenda := by unfold drawn; rfl
@[simp] theorem drawn_nextId (s : State) : (drawn s).nextId = s.nextId := by unfold drawn; rfl

@[simp] theorem charge_regs (s : State) (b pe cls count : Nat) : (charge s b pe cls count).regs = s.regs := by simp only [charge]; split <;> simp only [modSlot_regs]
@[simp] theorem charge_nrgRem (s : State) (b pe cls count : Nat) : (charge s b pe cls count).nrgRem = s.nrgRem := by simp only [charge]; split <;> simp only [modSlot_nrgRem]
@[simp] theorem charge_mem (s : State) (b pe cls count : Nat) : (charge s b pe cls count).mem = s.mem := by simp only [charge]; split <;> simp only [modSlot_mem]
@[simp] theorem charge_bmeta (s : State) (b pe cls count : Nat) : (charge s b pe cls count).bmeta = s.bmeta := by simp only [charge]; split <;> simp only [modSlot_bmeta]
@[simp] theorem charge_ecc (s : State) (b pe cls count : Nat) : (charge s b pe cls count).ecc = s.ecc := by simp only [charge]; split <;> simp only [modSlot_ecc]
@[simp] theorem charge_pes (s : State) (b pe cls count : Nat) : (charge s b pe cls count).pes = s.pes := by simp only [charge]; split <;> simp only [modSlot_pes]
@[simp] theorem charge_links (s : State) (b pe cls count : Nat) : (charge s b pe cls count).links = s.links := by simp only [charge]; split <;> simp only [modSlot_links]
@[simp] theorem charge_bhs (s : State) (b pe cls count : Nat) : (charge s b pe cls count).bhs = s.bhs := by simp only [charge]; split <;> simp only [modSlot_bhs]
@[simp] theorem charge_cfgs (s : State) (b pe cls count : Nat) : (charge s b pe cls count).cfgs = s.cfgs := by simp only [charge]; split <;> simp only [modSlot_cfgs]
@[simp] theorem charge_launches (s : State) (b pe cls count : Nat) : (charge s b pe cls count).launches = s.launches := by simp only [charge]; split <;> simp only [modSlot_launches]
@[simp] theorem charge_tasks (s : State) (b pe cls count : Nat) : (charge s b pe cls count).tasks = s.tasks := by simp only [charge]; split <;> simp only [modSlot_tasks]
@[simp] theorem charge_versions (s : State) (b pe cls count : Nat) : (charge s b pe cls count).versions = s.versions := by simp only [charge]; split <;> simp only [modSlot_versions]
@[simp] theorem charge_rcbs (s : State) (b pe cls count : Nat) : (charge s b pe cls count).rcbs = s.rcbs := by simp only [charge]; split <;> simp only [modSlot_rcbs]
@[simp] theorem charge_flights (s : State) (b pe cls count : Nat) : (charge s b pe cls count).flights = s.flights := by simp only [charge]; split <;> simp only [modSlot_flights]
@[simp] theorem charge_inject (s : State) (b pe cls count : Nat) : (charge s b pe cls count).inject = s.inject := by simp only [charge]; split <;> simp only [modSlot_inject]
@[simp] theorem charge_reqs (s : State) (b pe cls count : Nat) : (charge s b pe cls count).reqs = s.reqs := by simp only [charge]; split <;> simp only [modSlot_reqs]
@[simp] theorem charge_cmds (s : State) (b pe cls count : Nat) : (charge s b pe cls count).cmds = s.cmds := by simp only [charge]; split <;> simp only [modSlot_cmds]
@[simp] theorem charge_stores (s : State) (b pe cls count : Nat) : (charge s b pe cls count).stores = s.stores := by simp only [charge]; split <;> simp only [modSlot_stores]
@[simp] theorem charge_saved (s : State) (b pe cls count : Nat) : (charge s b pe cls count).saved = s.saved := by simp only [charge]; split <;> simp only [modSlot_saved]
@[simp] theorem charge_errSeq (s : State) (b pe cls count : Nat) : (charge s b pe cls count).errSeq = s.errSeq := by simp only [charge]; split <;> simp only [modSlot_errSeq]
@[simp] theorem charge_evSeq (s : State) (b pe cls count : Nat) : (charge s b pe cls count).evSeq = s.evSeq := by simp only [charge]; split <;> simp only [modSlot_evSeq]
@[simp] theorem charge_spokeOut (s : State) (b pe cls count : Nat) : (charge s b pe cls count).spokeOut = s.spokeOut := by simp only [charge]; split <;> simp only [modSlot_spokeOut]
@[simp] theorem charge_powered (s : State) (b pe cls count : Nat) : (charge s b pe cls count).powered = s.powered := by simp only [charge]; split <;> simp only [modSlot_powered]
@[simp] theorem charge_vfDone (s : State) (b pe cls count : Nat) : (charge s b pe cls count).vfDone = s.vfDone := by simp only [charge]; split <;> simp only [modSlot_vfDone]
@[simp] theorem charge_cur (s : State) (b pe cls count : Nat) : (charge s b pe cls count).cur = s.cur := by simp only [charge]; split <;> simp only [modSlot_cur]
@[simp] theorem charge_agenda (s : State) (b pe cls count : Nat) : (charge s b pe cls count).agenda = s.agenda := by simp only [charge]; split <;> simp only [modSlot_agenda]
@[simp] theorem charge_fresh (s : State) (b pe cls count : Nat) : (charge s b pe cls count).fresh = s.fresh := by simp only [charge]; split <;> simp only [modSlot_fresh]
@[simp] theorem charge_nextId (s : State) (b pe cls count : Nat) : (charge s b pe cls count).nextId = s.nextId := by simp only [charge]; split <;> simp only [modSlot_nextId]

@[simp] theorem holdUnit_regs (s : State) (f : Firing) (u cycles : Nat) : (holdUnit s f u cycles).regs = s.regs := by simp only [holdUnit, modPE_regs]
@[simp] theorem holdUnit_nrgRem (s : State) (f : Firing) (u cycles : Nat) : (holdUnit s f u cycles).nrgRem = s.nrgRem := by simp only [holdUnit, modPE_nrgRem]
@[simp] theorem holdUnit_mem (s : State) (f : Firing) (u cycles : Nat) : (holdUnit s f u cycles).mem = s.mem := by simp only [holdUnit, modPE_mem]
@[simp] theorem holdUnit_bmeta (s : State) (f : Firing) (u cycles : Nat) : (holdUnit s f u cycles).bmeta = s.bmeta := by simp only [holdUnit, modPE_bmeta]
@[simp] theorem holdUnit_ecc (s : State) (f : Firing) (u cycles : Nat) : (holdUnit s f u cycles).ecc = s.ecc := by simp only [holdUnit, modPE_ecc]
@[simp] theorem holdUnit_slots (s : State) (f : Firing) (u cycles : Nat) : (holdUnit s f u cycles).slots = s.slots := by simp only [holdUnit, modPE_slots]
@[simp] theorem holdUnit_links (s : State) (f : Firing) (u cycles : Nat) : (holdUnit s f u cycles).links = s.links := by simp only [holdUnit, modPE_links]
@[simp] theorem holdUnit_bhs (s : State) (f : Firing) (u cycles : Nat) : (holdUnit s f u cycles).bhs = s.bhs := by simp only [holdUnit, modPE_bhs]
@[simp] theorem holdUnit_cfgs (s : State) (f : Firing) (u cycles : Nat) : (holdUnit s f u cycles).cfgs = s.cfgs := by simp only [holdUnit, modPE_cfgs]
@[simp] theorem holdUnit_launches (s : State) (f : Firing) (u cycles : Nat) : (holdUnit s f u cycles).launches = s.launches := by simp only [holdUnit, modPE_launches]
@[simp] theorem holdUnit_tasks (s : State) (f : Firing) (u cycles : Nat) : (holdUnit s f u cycles).tasks = s.tasks := by simp only [holdUnit, modPE_tasks]
@[simp] theorem holdUnit_versions (s : State) (f : Firing) (u cycles : Nat) : (holdUnit s f u cycles).versions = s.versions := by simp only [holdUnit, modPE_versions]
@[simp] theorem holdUnit_rcbs (s : State) (f : Firing) (u cycles : Nat) : (holdUnit s f u cycles).rcbs = s.rcbs := by simp only [holdUnit, modPE_rcbs]
@[simp] theorem holdUnit_flights (s : State) (f : Firing) (u cycles : Nat) : (holdUnit s f u cycles).flights = s.flights := by simp only [holdUnit, modPE_flights]
@[simp] theorem holdUnit_inject (s : State) (f : Firing) (u cycles : Nat) : (holdUnit s f u cycles).inject = s.inject := by simp only [holdUnit, modPE_inject]
@[simp] theorem holdUnit_reqs (s : State) (f : Firing) (u cycles : Nat) : (holdUnit s f u cycles).reqs = s.reqs := by simp only [holdUnit, modPE_reqs]
@[simp] theorem holdUnit_cmds (s : State) (f : Firing) (u cycles : Nat) : (holdUnit s f u cycles).cmds = s.cmds := by simp only [holdUnit, modPE_cmds]
@[simp] theorem holdUnit_stores (s : State) (f : Firing) (u cycles : Nat) : (holdUnit s f u cycles).stores = s.stores := by simp only [holdUnit, modPE_stores]
@[simp] theorem holdUnit_saved (s : State) (f : Firing) (u cycles : Nat) : (holdUnit s f u cycles).saved = s.saved := by simp only [holdUnit, modPE_saved]
@[simp] theorem holdUnit_errSeq (s : State) (f : Firing) (u cycles : Nat) : (holdUnit s f u cycles).errSeq = s.errSeq := by simp only [holdUnit, modPE_errSeq]
@[simp] theorem holdUnit_evSeq (s : State) (f : Firing) (u cycles : Nat) : (holdUnit s f u cycles).evSeq = s.evSeq := by simp only [holdUnit, modPE_evSeq]
@[simp] theorem holdUnit_spokeOut (s : State) (f : Firing) (u cycles : Nat) : (holdUnit s f u cycles).spokeOut = s.spokeOut := by simp only [holdUnit, modPE_spokeOut]
@[simp] theorem holdUnit_powered (s : State) (f : Firing) (u cycles : Nat) : (holdUnit s f u cycles).powered = s.powered := by simp only [holdUnit, modPE_powered]
@[simp] theorem holdUnit_vfDone (s : State) (f : Firing) (u cycles : Nat) : (holdUnit s f u cycles).vfDone = s.vfDone := by simp only [holdUnit, modPE_vfDone]
@[simp] theorem holdUnit_cur (s : State) (f : Firing) (u cycles : Nat) : (holdUnit s f u cycles).cur = s.cur := by simp only [holdUnit, modPE_cur]
@[simp] theorem holdUnit_agenda (s : State) (f : Firing) (u cycles : Nat) : (holdUnit s f u cycles).agenda = s.agenda := by simp only [holdUnit, modPE_agenda]
@[simp] theorem holdUnit_fresh (s : State) (f : Firing) (u cycles : Nat) : (holdUnit s f u cycles).fresh = s.fresh := by simp only [holdUnit, modPE_fresh]
@[simp] theorem holdUnit_nextId (s : State) (f : Firing) (u cycles : Nat) : (holdUnit s f u cycles).nextId = s.nextId := by simp only [holdUnit, modPE_nextId]

@[simp] theorem takeReady_regs (s : State) (f : Firing) : (takeReady s f).regs = s.regs := by simp only [takeReady, modPE_regs, modBulk_regs]
@[simp] theorem takeReady_nrgRem (s : State) (f : Firing) : (takeReady s f).nrgRem = s.nrgRem := by simp only [takeReady, modPE_nrgRem, modBulk_nrgRem]
@[simp] theorem takeReady_mem (s : State) (f : Firing) : (takeReady s f).mem = s.mem := by simp only [takeReady, modPE_mem, modBulk_mem]
@[simp] theorem takeReady_bmeta (s : State) (f : Firing) : (takeReady s f).bmeta = s.bmeta := by simp only [takeReady, modPE_bmeta, modBulk_bmeta]
@[simp] theorem takeReady_ecc (s : State) (f : Firing) : (takeReady s f).ecc = s.ecc := by simp only [takeReady, modPE_ecc, modBulk_ecc]
@[simp] theorem takeReady_slots (s : State) (f : Firing) : (takeReady s f).slots = s.slots := by simp only [takeReady, modPE_slots, modBulk_slots]
@[simp] theorem takeReady_links (s : State) (f : Firing) : (takeReady s f).links = s.links := by simp only [takeReady, modPE_links, modBulk_links]
@[simp] theorem takeReady_cfgs (s : State) (f : Firing) : (takeReady s f).cfgs = s.cfgs := by simp only [takeReady, modPE_cfgs, modBulk_cfgs]
@[simp] theorem takeReady_launches (s : State) (f : Firing) : (takeReady s f).launches = s.launches := by simp only [takeReady, modPE_launches, modBulk_launches]
@[simp] theorem takeReady_tasks (s : State) (f : Firing) : (takeReady s f).tasks = s.tasks := by simp only [takeReady, modPE_tasks, modBulk_tasks]
@[simp] theorem takeReady_versions (s : State) (f : Firing) : (takeReady s f).versions = s.versions := by simp only [takeReady, modPE_versions, modBulk_versions]
@[simp] theorem takeReady_rcbs (s : State) (f : Firing) : (takeReady s f).rcbs = s.rcbs := by simp only [takeReady, modPE_rcbs, modBulk_rcbs]
@[simp] theorem takeReady_flights (s : State) (f : Firing) : (takeReady s f).flights = s.flights := by simp only [takeReady, modPE_flights, modBulk_flights]
@[simp] theorem takeReady_inject (s : State) (f : Firing) : (takeReady s f).inject = s.inject := by simp only [takeReady, modPE_inject, modBulk_inject]
@[simp] theorem takeReady_reqs (s : State) (f : Firing) : (takeReady s f).reqs = s.reqs := by simp only [takeReady, modPE_reqs, modBulk_reqs]
@[simp] theorem takeReady_cmds (s : State) (f : Firing) : (takeReady s f).cmds = s.cmds := by simp only [takeReady, modPE_cmds, modBulk_cmds]
@[simp] theorem takeReady_stores (s : State) (f : Firing) : (takeReady s f).stores = s.stores := by simp only [takeReady, modPE_stores, modBulk_stores]
@[simp] theorem takeReady_saved (s : State) (f : Firing) : (takeReady s f).saved = s.saved := by simp only [takeReady, modPE_saved, modBulk_saved]
@[simp] theorem takeReady_errSeq (s : State) (f : Firing) : (takeReady s f).errSeq = s.errSeq := by simp only [takeReady, modPE_errSeq, modBulk_errSeq]
@[simp] theorem takeReady_evSeq (s : State) (f : Firing) : (takeReady s f).evSeq = s.evSeq := by simp only [takeReady, modPE_evSeq, modBulk_evSeq]
@[simp] theorem takeReady_spokeOut (s : State) (f : Firing) : (takeReady s f).spokeOut = s.spokeOut := by simp only [takeReady, modPE_spokeOut, modBulk_spokeOut]
@[simp] theorem takeReady_powered (s : State) (f : Firing) : (takeReady s f).powered = s.powered := by simp only [takeReady, modPE_powered, modBulk_powered]
@[simp] theorem takeReady_vfDone (s : State) (f : Firing) : (takeReady s f).vfDone = s.vfDone := by simp only [takeReady, modPE_vfDone, modBulk_vfDone]
@[simp] theorem takeReady_cur (s : State) (f : Firing) : (takeReady s f).cur = s.cur := by simp only [takeReady, modPE_cur, modBulk_cur]
@[simp] theorem takeReady_agenda (s : State) (f : Firing) : (takeReady s f).agenda = s.agenda := by simp only [takeReady, modPE_agenda, modBulk_agenda]
@[simp] theorem takeReady_fresh (s : State) (f : Firing) : (takeReady s f).fresh = s.fresh := by simp only [takeReady, modPE_fresh, modBulk_fresh]
@[simp] theorem takeReady_nextId (s : State) (f : Firing) : (takeReady s f).nextId = s.nextId := by simp only [takeReady, modPE_nextId, modBulk_nextId]

@[simp] theorem pushItem_regs (s : State) (it : Issued) : (pushItem s it).regs = s.regs := by simp only [pushItem, newId_regs, modPE_regs]
@[simp] theorem pushItem_nrgRem (s : State) (it : Issued) : (pushItem s it).nrgRem = s.nrgRem := by simp only [pushItem, newId_nrgRem, modPE_nrgRem]
@[simp] theorem pushItem_mem (s : State) (it : Issued) : (pushItem s it).mem = s.mem := by simp only [pushItem, newId_mem, modPE_mem]
@[simp] theorem pushItem_bmeta (s : State) (it : Issued) : (pushItem s it).bmeta = s.bmeta := by simp only [pushItem, newId_bmeta, modPE_bmeta]
@[simp] theorem pushItem_ecc (s : State) (it : Issued) : (pushItem s it).ecc = s.ecc := by simp only [pushItem, newId_ecc, modPE_ecc]
@[simp] theorem pushItem_slots (s : State) (it : Issued) : (pushItem s it).slots = s.slots := by simp only [pushItem, newId_slots, modPE_slots]
@[simp] theorem pushItem_links (s : State) (it : Issued) : (pushItem s it).links = s.links := by simp only [pushItem, newId_links, modPE_links]
@[simp] theorem pushItem_bhs (s : State) (it : Issued) : (pushItem s it).bhs = s.bhs := by simp only [pushItem, newId_bhs, modPE_bhs]
@[simp] theorem pushItem_cfgs (s : State) (it : Issued) : (pushItem s it).cfgs = s.cfgs := by simp only [pushItem, newId_cfgs, modPE_cfgs]
@[simp] theorem pushItem_launches (s : State) (it : Issued) : (pushItem s it).launches = s.launches := by simp only [pushItem, newId_launches, modPE_launches]
@[simp] theorem pushItem_tasks (s : State) (it : Issued) : (pushItem s it).tasks = s.tasks := by simp only [pushItem, newId_tasks, modPE_tasks]
@[simp] theorem pushItem_versions (s : State) (it : Issued) : (pushItem s it).versions = s.versions := by simp only [pushItem, newId_versions, modPE_versions]
@[simp] theorem pushItem_rcbs (s : State) (it : Issued) : (pushItem s it).rcbs = s.rcbs := by simp only [pushItem, newId_rcbs, modPE_rcbs]
@[simp] theorem pushItem_flights (s : State) (it : Issued) : (pushItem s it).flights = s.flights := by simp only [pushItem, newId_flights, modPE_flights]
@[simp] theorem pushItem_inject (s : State) (it : Issued) : (pushItem s it).inject = s.inject := by simp only [pushItem, newId_inject, modPE_inject]
@[simp] theorem pushItem_reqs (s : State) (it : Issued) : (pushItem s it).reqs = s.reqs := by simp only [pushItem, newId_reqs, modPE_reqs]
@[simp] theorem pushItem_cmds (s : State) (it : Issued) : (pushItem s it).cmds = s.cmds := by simp only [pushItem, newId_cmds, modPE_cmds]
@[simp] theorem pushItem_stores (s : State) (it : Issued) : (pushItem s it).stores = s.stores := by simp only [pushItem, newId_stores, modPE_stores]
@[simp] theorem pushItem_saved (s : State) (it : Issued) : (pushItem s it).saved = s.saved := by simp only [pushItem, newId_saved, modPE_saved]
@[simp] theorem pushItem_errSeq (s : State) (it : Issued) : (pushItem s it).errSeq = s.errSeq := by simp only [pushItem, newId_errSeq, modPE_errSeq]
@[simp] theorem pushItem_evSeq (s : State) (it : Issued) : (pushItem s it).evSeq = s.evSeq := by simp only [pushItem, newId_evSeq, modPE_evSeq]
@[simp] theorem pushItem_spokeOut (s : State) (it : Issued) : (pushItem s it).spokeOut = s.spokeOut := by simp only [pushItem, newId_spokeOut, modPE_spokeOut]
@[simp] theorem pushItem_powered (s : State) (it : Issued) : (pushItem s it).powered = s.powered := by simp only [pushItem, newId_powered, modPE_powered]
@[simp] theorem pushItem_vfDone (s : State) (it : Issued) : (pushItem s it).vfDone = s.vfDone := by simp only [pushItem, newId_vfDone, modPE_vfDone]
@[simp] theorem pushItem_cur (s : State) (it : Issued) : (pushItem s it).cur = s.cur := by simp only [pushItem, newId_cur, modPE_cur]
@[simp] theorem pushItem_agenda (s : State) (it : Issued) : (pushItem s it).agenda = s.agenda := by simp only [pushItem, newId_agenda, modPE_agenda]
@[simp] theorem pushItem_fresh (s : State) (it : Issued) : (pushItem s it).fresh = s.fresh := by simp only [pushItem, newId_fresh, modPE_fresh]

@[simp] theorem pushOutcome_regs (s : State) (f : Firing) (n : Node) (es : List Emit) (fx : List Effect) : (pushOutcome s f n es fx).regs = s.regs := by simp only [pushOutcome, pushItem_regs]
@[simp] theorem pushOutcome_nrgRem (s : State) (f : Firing) (n : Node) (es : List Emit) (fx : List Effect) : (pushOutcome s f n es fx).nrgRem = s.nrgRem := by simp only [pushOutcome, pushItem_nrgRem]
@[simp] theorem pushOutcome_mem (s : State) (f : Firing) (n : Node) (es : List Emit) (fx : List Effect) : (pushOutcome s f n es fx).mem = s.mem := by simp only [pushOutcome, pushItem_mem]
@[simp] theorem pushOutcome_bmeta (s : State) (f : Firing) (n : Node) (es : List Emit) (fx : List Effect) : (pushOutcome s f n es fx).bmeta = s.bmeta := by simp only [pushOutcome, pushItem_bmeta]
@[simp] theorem pushOutcome_ecc (s : State) (f : Firing) (n : Node) (es : List Emit) (fx : List Effect) : (pushOutcome s f n es fx).ecc = s.ecc := by simp only [pushOutcome, pushItem_ecc]
@[simp] theorem pushOutcome_slots (s : State) (f : Firing) (n : Node) (es : List Emit) (fx : List Effect) : (pushOutcome s f n es fx).slots = s.slots := by simp only [pushOutcome, pushItem_slots]
@[simp] theorem pushOutcome_links (s : State) (f : Firing) (n : Node) (es : List Emit) (fx : List Effect) : (pushOutcome s f n es fx).links = s.links := by simp only [pushOutcome, pushItem_links]
@[simp] theorem pushOutcome_bhs (s : State) (f : Firing) (n : Node) (es : List Emit) (fx : List Effect) : (pushOutcome s f n es fx).bhs = s.bhs := by simp only [pushOutcome, pushItem_bhs]
@[simp] theorem pushOutcome_cfgs (s : State) (f : Firing) (n : Node) (es : List Emit) (fx : List Effect) : (pushOutcome s f n es fx).cfgs = s.cfgs := by simp only [pushOutcome, pushItem_cfgs]
@[simp] theorem pushOutcome_launches (s : State) (f : Firing) (n : Node) (es : List Emit) (fx : List Effect) : (pushOutcome s f n es fx).launches = s.launches := by simp only [pushOutcome, pushItem_launches]
@[simp] theorem pushOutcome_tasks (s : State) (f : Firing) (n : Node) (es : List Emit) (fx : List Effect) : (pushOutcome s f n es fx).tasks = s.tasks := by simp only [pushOutcome, pushItem_tasks]
@[simp] theorem pushOutcome_versions (s : State) (f : Firing) (n : Node) (es : List Emit) (fx : List Effect) : (pushOutcome s f n es fx).versions = s.versions := by simp only [pushOutcome, pushItem_versions]
@[simp] theorem pushOutcome_rcbs (s : State) (f : Firing) (n : Node) (es : List Emit) (fx : List Effect) : (pushOutcome s f n es fx).rcbs = s.rcbs := by simp only [pushOutcome, pushItem_rcbs]
@[simp] theorem pushOutcome_flights (s : State) (f : Firing) (n : Node) (es : List Emit) (fx : List Effect) : (pushOutcome s f n es fx).flights = s.flights := by simp only [pushOutcome, pushItem_flights]
@[simp] theorem pushOutcome_inject (s : State) (f : Firing) (n : Node) (es : List Emit) (fx : List Effect) : (pushOutcome s f n es fx).inject = s.inject := by simp only [pushOutcome, pushItem_inject]
@[simp] theorem pushOutcome_reqs (s : State) (f : Firing) (n : Node) (es : List Emit) (fx : List Effect) : (pushOutcome s f n es fx).reqs = s.reqs := by simp only [pushOutcome, pushItem_reqs]
@[simp] theorem pushOutcome_cmds (s : State) (f : Firing) (n : Node) (es : List Emit) (fx : List Effect) : (pushOutcome s f n es fx).cmds = s.cmds := by simp only [pushOutcome, pushItem_cmds]
@[simp] theorem pushOutcome_stores (s : State) (f : Firing) (n : Node) (es : List Emit) (fx : List Effect) : (pushOutcome s f n es fx).stores = s.stores := by simp only [pushOutcome, pushItem_stores]
@[simp] theorem pushOutcome_saved (s : State) (f : Firing) (n : Node) (es : List Emit) (fx : List Effect) : (pushOutcome s f n es fx).saved = s.saved := by simp only [pushOutcome, pushItem_saved]
@[simp] theorem pushOutcome_errSeq (s : State) (f : Firing) (n : Node) (es : List Emit) (fx : List Effect) : (pushOutcome s f n es fx).errSeq = s.errSeq := by simp only [pushOutcome, pushItem_errSeq]
@[simp] theorem pushOutcome_evSeq (s : State) (f : Firing) (n : Node) (es : List Emit) (fx : List Effect) : (pushOutcome s f n es fx).evSeq = s.evSeq := by simp only [pushOutcome, pushItem_evSeq]
@[simp] theorem pushOutcome_spokeOut (s : State) (f : Firing) (n : Node) (es : List Emit) (fx : List Effect) : (pushOutcome s f n es fx).spokeOut = s.spokeOut := by simp only [pushOutcome, pushItem_spokeOut]
@[simp] theorem pushOutcome_powered (s : State) (f : Firing) (n : Node) (es : List Emit) (fx : List Effect) : (pushOutcome s f n es fx).powered = s.powered := by simp only [pushOutcome, pushItem_powered]
@[simp] theorem pushOutcome_vfDone (s : State) (f : Firing) (n : Node) (es : List Emit) (fx : List Effect) : (pushOutcome s f n es fx).vfDone = s.vfDone := by simp only [pushOutcome, pushItem_vfDone]
@[simp] theorem pushOutcome_cur (s : State) (f : Firing) (n : Node) (es : List Emit) (fx : List Effect) : (pushOutcome s f n es fx).cur = s.cur := by simp only [pushOutcome, pushItem_cur]
@[simp] theorem pushOutcome_agenda (s : State) (f : Firing) (n : Node) (es : List Emit) (fx : List Effect) : (pushOutcome s f n es fx).agenda = s.agenda := by simp only [pushOutcome, pushItem_agenda]
@[simp] theorem pushOutcome_fresh (s : State) (f : Firing) (n : Node) (es : List Emit) (fx : List Effect) : (pushOutcome s f n es fx).fresh = s.fresh := by simp only [pushOutcome, pushItem_fresh]

@[simp] theorem dropRef_regs (s : State) (b pe h g n : Nat) : (dropRef s b pe h g n).regs = s.regs := by simp only [dropRef, modPE_regs]
@[simp] theorem dropRef_nrgRem (s : State) (b pe h g n : Nat) : (dropRef s b pe h g n).nrgRem = s.nrgRem := by simp only [dropRef, modPE_nrgRem]
@[simp] theorem dropRef_mem (s : State) (b pe h g n : Nat) : (dropRef s b pe h g n).mem = s.mem := by simp only [dropRef, modPE_mem]
@[simp] theorem dropRef_bmeta (s : State) (b pe h g n : Nat) : (dropRef s b pe h g n).bmeta = s.bmeta := by simp only [dropRef, modPE_bmeta]
@[simp] theorem dropRef_ecc (s : State) (b pe h g n : Nat) : (dropRef s b pe h g n).ecc = s.ecc := by simp only [dropRef, modPE_ecc]
@[simp] theorem dropRef_slots (s : State) (b pe h g n : Nat) : (dropRef s b pe h g n).slots = s.slots := by simp only [dropRef, modPE_slots]
@[simp] theorem dropRef_links (s : State) (b pe h g n : Nat) : (dropRef s b pe h g n).links = s.links := by simp only [dropRef, modPE_links]
@[simp] theorem dropRef_bhs (s : State) (b pe h g n : Nat) : (dropRef s b pe h g n).bhs = s.bhs := by simp only [dropRef, modPE_bhs]
@[simp] theorem dropRef_cfgs (s : State) (b pe h g n : Nat) : (dropRef s b pe h g n).cfgs = s.cfgs := by simp only [dropRef, modPE_cfgs]
@[simp] theorem dropRef_launches (s : State) (b pe h g n : Nat) : (dropRef s b pe h g n).launches = s.launches := by simp only [dropRef, modPE_launches]
@[simp] theorem dropRef_tasks (s : State) (b pe h g n : Nat) : (dropRef s b pe h g n).tasks = s.tasks := by simp only [dropRef, modPE_tasks]
@[simp] theorem dropRef_versions (s : State) (b pe h g n : Nat) : (dropRef s b pe h g n).versions = s.versions := by simp only [dropRef, modPE_versions]
@[simp] theorem dropRef_rcbs (s : State) (b pe h g n : Nat) : (dropRef s b pe h g n).rcbs = s.rcbs := by simp only [dropRef, modPE_rcbs]
@[simp] theorem dropRef_flights (s : State) (b pe h g n : Nat) : (dropRef s b pe h g n).flights = s.flights := by simp only [dropRef, modPE_flights]
@[simp] theorem dropRef_inject (s : State) (b pe h g n : Nat) : (dropRef s b pe h g n).inject = s.inject := by simp only [dropRef, modPE_inject]
@[simp] theorem dropRef_reqs (s : State) (b pe h g n : Nat) : (dropRef s b pe h g n).reqs = s.reqs := by simp only [dropRef, modPE_reqs]
@[simp] theorem dropRef_cmds (s : State) (b pe h g n : Nat) : (dropRef s b pe h g n).cmds = s.cmds := by simp only [dropRef, modPE_cmds]
@[simp] theorem dropRef_stores (s : State) (b pe h g n : Nat) : (dropRef s b pe h g n).stores = s.stores := by simp only [dropRef, modPE_stores]
@[simp] theorem dropRef_saved (s : State) (b pe h g n : Nat) : (dropRef s b pe h g n).saved = s.saved := by simp only [dropRef, modPE_saved]
@[simp] theorem dropRef_errSeq (s : State) (b pe h g n : Nat) : (dropRef s b pe h g n).errSeq = s.errSeq := by simp only [dropRef, modPE_errSeq]
@[simp] theorem dropRef_evSeq (s : State) (b pe h g n : Nat) : (dropRef s b pe h g n).evSeq = s.evSeq := by simp only [dropRef, modPE_evSeq]
@[simp] theorem dropRef_spokeOut (s : State) (b pe h g n : Nat) : (dropRef s b pe h g n).spokeOut = s.spokeOut := by simp only [dropRef, modPE_spokeOut]
@[simp] theorem dropRef_powered (s : State) (b pe h g n : Nat) : (dropRef s b pe h g n).powered = s.powered := by simp only [dropRef, modPE_powered]
@[simp] theorem dropRef_vfDone (s : State) (b pe h g n : Nat) : (dropRef s b pe h g n).vfDone = s.vfDone := by simp only [dropRef, modPE_vfDone]
@[simp] theorem dropRef_cur (s : State) (b pe h g n : Nat) : (dropRef s b pe h g n).cur = s.cur := by simp only [dropRef, modPE_cur]
@[simp] theorem dropRef_agenda (s : State) (b pe h g n : Nat) : (dropRef s b pe h g n).agenda = s.agenda := by simp only [dropRef, modPE_agenda]
@[simp] theorem dropRef_fresh (s : State) (b pe h g n : Nat) : (dropRef s b pe h g n).fresh = s.fresh := by simp only [dropRef, modPE_fresh]
@[simp] theorem dropRef_nextId (s : State) (b pe h g n : Nat) : (dropRef s b pe h g n).nextId = s.nextId := by simp only [dropRef, modPE_nextId]

@[simp] theorem pushWriting_regs (s : State) (f : Firing) (n : Node) (lat : Nat) (es : List Emit) (fx : List Effect) (fl : BitVec 9) (w : Wait) (ws : List Nat) : (pushWriting s f n lat es fx fl w ws).regs = s.regs := by simp only [pushWriting, pushItem_regs]
@[simp] theorem pushWriting_nrgRem (s : State) (f : Firing) (n : Node) (lat : Nat) (es : List Emit) (fx : List Effect) (fl : BitVec 9) (w : Wait) (ws : List Nat) : (pushWriting s f n lat es fx fl w ws).nrgRem = s.nrgRem := by simp only [pushWriting, pushItem_nrgRem]
@[simp] theorem pushWriting_mem (s : State) (f : Firing) (n : Node) (lat : Nat) (es : List Emit) (fx : List Effect) (fl : BitVec 9) (w : Wait) (ws : List Nat) : (pushWriting s f n lat es fx fl w ws).mem = s.mem := by simp only [pushWriting, pushItem_mem]
@[simp] theorem pushWriting_bmeta (s : State) (f : Firing) (n : Node) (lat : Nat) (es : List Emit) (fx : List Effect) (fl : BitVec 9) (w : Wait) (ws : List Nat) : (pushWriting s f n lat es fx fl w ws).bmeta = s.bmeta := by simp only [pushWriting, pushItem_bmeta]
@[simp] theorem pushWriting_ecc (s : State) (f : Firing) (n : Node) (lat : Nat) (es : List Emit) (fx : List Effect) (fl : BitVec 9) (w : Wait) (ws : List Nat) : (pushWriting s f n lat es fx fl w ws).ecc = s.ecc := by simp only [pushWriting, pushItem_ecc]
@[simp] theorem pushWriting_slots (s : State) (f : Firing) (n : Node) (lat : Nat) (es : List Emit) (fx : List Effect) (fl : BitVec 9) (w : Wait) (ws : List Nat) : (pushWriting s f n lat es fx fl w ws).slots = s.slots := by simp only [pushWriting, pushItem_slots]
@[simp] theorem pushWriting_links (s : State) (f : Firing) (n : Node) (lat : Nat) (es : List Emit) (fx : List Effect) (fl : BitVec 9) (w : Wait) (ws : List Nat) : (pushWriting s f n lat es fx fl w ws).links = s.links := by simp only [pushWriting, pushItem_links]
@[simp] theorem pushWriting_bhs (s : State) (f : Firing) (n : Node) (lat : Nat) (es : List Emit) (fx : List Effect) (fl : BitVec 9) (w : Wait) (ws : List Nat) : (pushWriting s f n lat es fx fl w ws).bhs = s.bhs := by simp only [pushWriting, pushItem_bhs]
@[simp] theorem pushWriting_cfgs (s : State) (f : Firing) (n : Node) (lat : Nat) (es : List Emit) (fx : List Effect) (fl : BitVec 9) (w : Wait) (ws : List Nat) : (pushWriting s f n lat es fx fl w ws).cfgs = s.cfgs := by simp only [pushWriting, pushItem_cfgs]
@[simp] theorem pushWriting_launches (s : State) (f : Firing) (n : Node) (lat : Nat) (es : List Emit) (fx : List Effect) (fl : BitVec 9) (w : Wait) (ws : List Nat) : (pushWriting s f n lat es fx fl w ws).launches = s.launches := by simp only [pushWriting, pushItem_launches]
@[simp] theorem pushWriting_tasks (s : State) (f : Firing) (n : Node) (lat : Nat) (es : List Emit) (fx : List Effect) (fl : BitVec 9) (w : Wait) (ws : List Nat) : (pushWriting s f n lat es fx fl w ws).tasks = s.tasks := by simp only [pushWriting, pushItem_tasks]
@[simp] theorem pushWriting_versions (s : State) (f : Firing) (n : Node) (lat : Nat) (es : List Emit) (fx : List Effect) (fl : BitVec 9) (w : Wait) (ws : List Nat) : (pushWriting s f n lat es fx fl w ws).versions = s.versions := by simp only [pushWriting, pushItem_versions]
@[simp] theorem pushWriting_rcbs (s : State) (f : Firing) (n : Node) (lat : Nat) (es : List Emit) (fx : List Effect) (fl : BitVec 9) (w : Wait) (ws : List Nat) : (pushWriting s f n lat es fx fl w ws).rcbs = s.rcbs := by simp only [pushWriting, pushItem_rcbs]
@[simp] theorem pushWriting_flights (s : State) (f : Firing) (n : Node) (lat : Nat) (es : List Emit) (fx : List Effect) (fl : BitVec 9) (w : Wait) (ws : List Nat) : (pushWriting s f n lat es fx fl w ws).flights = s.flights := by simp only [pushWriting, pushItem_flights]
@[simp] theorem pushWriting_inject (s : State) (f : Firing) (n : Node) (lat : Nat) (es : List Emit) (fx : List Effect) (fl : BitVec 9) (w : Wait) (ws : List Nat) : (pushWriting s f n lat es fx fl w ws).inject = s.inject := by simp only [pushWriting, pushItem_inject]
@[simp] theorem pushWriting_reqs (s : State) (f : Firing) (n : Node) (lat : Nat) (es : List Emit) (fx : List Effect) (fl : BitVec 9) (w : Wait) (ws : List Nat) : (pushWriting s f n lat es fx fl w ws).reqs = s.reqs := by simp only [pushWriting, pushItem_reqs]
@[simp] theorem pushWriting_cmds (s : State) (f : Firing) (n : Node) (lat : Nat) (es : List Emit) (fx : List Effect) (fl : BitVec 9) (w : Wait) (ws : List Nat) : (pushWriting s f n lat es fx fl w ws).cmds = s.cmds := by simp only [pushWriting, pushItem_cmds]
@[simp] theorem pushWriting_stores (s : State) (f : Firing) (n : Node) (lat : Nat) (es : List Emit) (fx : List Effect) (fl : BitVec 9) (w : Wait) (ws : List Nat) : (pushWriting s f n lat es fx fl w ws).stores = s.stores := by simp only [pushWriting, pushItem_stores]
@[simp] theorem pushWriting_saved (s : State) (f : Firing) (n : Node) (lat : Nat) (es : List Emit) (fx : List Effect) (fl : BitVec 9) (w : Wait) (ws : List Nat) : (pushWriting s f n lat es fx fl w ws).saved = s.saved := by simp only [pushWriting, pushItem_saved]
@[simp] theorem pushWriting_errSeq (s : State) (f : Firing) (n : Node) (lat : Nat) (es : List Emit) (fx : List Effect) (fl : BitVec 9) (w : Wait) (ws : List Nat) : (pushWriting s f n lat es fx fl w ws).errSeq = s.errSeq := by simp only [pushWriting, pushItem_errSeq]
@[simp] theorem pushWriting_evSeq (s : State) (f : Firing) (n : Node) (lat : Nat) (es : List Emit) (fx : List Effect) (fl : BitVec 9) (w : Wait) (ws : List Nat) : (pushWriting s f n lat es fx fl w ws).evSeq = s.evSeq := by simp only [pushWriting, pushItem_evSeq]
@[simp] theorem pushWriting_spokeOut (s : State) (f : Firing) (n : Node) (lat : Nat) (es : List Emit) (fx : List Effect) (fl : BitVec 9) (w : Wait) (ws : List Nat) : (pushWriting s f n lat es fx fl w ws).spokeOut = s.spokeOut := by simp only [pushWriting, pushItem_spokeOut]
@[simp] theorem pushWriting_powered (s : State) (f : Firing) (n : Node) (lat : Nat) (es : List Emit) (fx : List Effect) (fl : BitVec 9) (w : Wait) (ws : List Nat) : (pushWriting s f n lat es fx fl w ws).powered = s.powered := by simp only [pushWriting, pushItem_powered]
@[simp] theorem pushWriting_vfDone (s : State) (f : Firing) (n : Node) (lat : Nat) (es : List Emit) (fx : List Effect) (fl : BitVec 9) (w : Wait) (ws : List Nat) : (pushWriting s f n lat es fx fl w ws).vfDone = s.vfDone := by simp only [pushWriting, pushItem_vfDone]
@[simp] theorem pushWriting_cur (s : State) (f : Firing) (n : Node) (lat : Nat) (es : List Emit) (fx : List Effect) (fl : BitVec 9) (w : Wait) (ws : List Nat) : (pushWriting s f n lat es fx fl w ws).cur = s.cur := by simp only [pushWriting, pushItem_cur]
@[simp] theorem pushWriting_agenda (s : State) (f : Firing) (n : Node) (lat : Nat) (es : List Emit) (fx : List Effect) (fl : BitVec 9) (w : Wait) (ws : List Nat) : (pushWriting s f n lat es fx fl w ws).agenda = s.agenda := by simp only [pushWriting, pushItem_agenda]
@[simp] theorem pushWriting_fresh (s : State) (f : Firing) (n : Node) (lat : Nat) (es : List Emit) (fx : List Effect) (fl : BitVec 9) (w : Wait) (ws : List Nat) : (pushWriting s f n lat es fx fl w ws).fresh = s.fresh := by simp only [pushWriting, pushItem_fresh]

@[simp] theorem pushIssued_regs (s : State) (f : Firing) (n : Node) (lat : Nat) (es : List Emit) (fx : List Effect) (fl : BitVec 9) (w : Wait) : (pushIssued s f n lat es fx fl w).regs = s.regs := by simp only [pushIssued, pushWriting_regs]
@[simp] theorem pushIssued_nrgRem (s : State) (f : Firing) (n : Node) (lat : Nat) (es : List Emit) (fx : List Effect) (fl : BitVec 9) (w : Wait) : (pushIssued s f n lat es fx fl w).nrgRem = s.nrgRem := by simp only [pushIssued, pushWriting_nrgRem]
@[simp] theorem pushIssued_mem (s : State) (f : Firing) (n : Node) (lat : Nat) (es : List Emit) (fx : List Effect) (fl : BitVec 9) (w : Wait) : (pushIssued s f n lat es fx fl w).mem = s.mem := by simp only [pushIssued, pushWriting_mem]
@[simp] theorem pushIssued_bmeta (s : State) (f : Firing) (n : Node) (lat : Nat) (es : List Emit) (fx : List Effect) (fl : BitVec 9) (w : Wait) : (pushIssued s f n lat es fx fl w).bmeta = s.bmeta := by simp only [pushIssued, pushWriting_bmeta]
@[simp] theorem pushIssued_ecc (s : State) (f : Firing) (n : Node) (lat : Nat) (es : List Emit) (fx : List Effect) (fl : BitVec 9) (w : Wait) : (pushIssued s f n lat es fx fl w).ecc = s.ecc := by simp only [pushIssued, pushWriting_ecc]
@[simp] theorem pushIssued_slots (s : State) (f : Firing) (n : Node) (lat : Nat) (es : List Emit) (fx : List Effect) (fl : BitVec 9) (w : Wait) : (pushIssued s f n lat es fx fl w).slots = s.slots := by simp only [pushIssued, pushWriting_slots]
@[simp] theorem pushIssued_links (s : State) (f : Firing) (n : Node) (lat : Nat) (es : List Emit) (fx : List Effect) (fl : BitVec 9) (w : Wait) : (pushIssued s f n lat es fx fl w).links = s.links := by simp only [pushIssued, pushWriting_links]
@[simp] theorem pushIssued_bhs (s : State) (f : Firing) (n : Node) (lat : Nat) (es : List Emit) (fx : List Effect) (fl : BitVec 9) (w : Wait) : (pushIssued s f n lat es fx fl w).bhs = s.bhs := by simp only [pushIssued, pushWriting_bhs]
@[simp] theorem pushIssued_cfgs (s : State) (f : Firing) (n : Node) (lat : Nat) (es : List Emit) (fx : List Effect) (fl : BitVec 9) (w : Wait) : (pushIssued s f n lat es fx fl w).cfgs = s.cfgs := by simp only [pushIssued, pushWriting_cfgs]
@[simp] theorem pushIssued_launches (s : State) (f : Firing) (n : Node) (lat : Nat) (es : List Emit) (fx : List Effect) (fl : BitVec 9) (w : Wait) : (pushIssued s f n lat es fx fl w).launches = s.launches := by simp only [pushIssued, pushWriting_launches]
@[simp] theorem pushIssued_tasks (s : State) (f : Firing) (n : Node) (lat : Nat) (es : List Emit) (fx : List Effect) (fl : BitVec 9) (w : Wait) : (pushIssued s f n lat es fx fl w).tasks = s.tasks := by simp only [pushIssued, pushWriting_tasks]
@[simp] theorem pushIssued_versions (s : State) (f : Firing) (n : Node) (lat : Nat) (es : List Emit) (fx : List Effect) (fl : BitVec 9) (w : Wait) : (pushIssued s f n lat es fx fl w).versions = s.versions := by simp only [pushIssued, pushWriting_versions]
@[simp] theorem pushIssued_rcbs (s : State) (f : Firing) (n : Node) (lat : Nat) (es : List Emit) (fx : List Effect) (fl : BitVec 9) (w : Wait) : (pushIssued s f n lat es fx fl w).rcbs = s.rcbs := by simp only [pushIssued, pushWriting_rcbs]
@[simp] theorem pushIssued_flights (s : State) (f : Firing) (n : Node) (lat : Nat) (es : List Emit) (fx : List Effect) (fl : BitVec 9) (w : Wait) : (pushIssued s f n lat es fx fl w).flights = s.flights := by simp only [pushIssued, pushWriting_flights]
@[simp] theorem pushIssued_inject (s : State) (f : Firing) (n : Node) (lat : Nat) (es : List Emit) (fx : List Effect) (fl : BitVec 9) (w : Wait) : (pushIssued s f n lat es fx fl w).inject = s.inject := by simp only [pushIssued, pushWriting_inject]
@[simp] theorem pushIssued_reqs (s : State) (f : Firing) (n : Node) (lat : Nat) (es : List Emit) (fx : List Effect) (fl : BitVec 9) (w : Wait) : (pushIssued s f n lat es fx fl w).reqs = s.reqs := by simp only [pushIssued, pushWriting_reqs]
@[simp] theorem pushIssued_cmds (s : State) (f : Firing) (n : Node) (lat : Nat) (es : List Emit) (fx : List Effect) (fl : BitVec 9) (w : Wait) : (pushIssued s f n lat es fx fl w).cmds = s.cmds := by simp only [pushIssued, pushWriting_cmds]
@[simp] theorem pushIssued_stores (s : State) (f : Firing) (n : Node) (lat : Nat) (es : List Emit) (fx : List Effect) (fl : BitVec 9) (w : Wait) : (pushIssued s f n lat es fx fl w).stores = s.stores := by simp only [pushIssued, pushWriting_stores]
@[simp] theorem pushIssued_saved (s : State) (f : Firing) (n : Node) (lat : Nat) (es : List Emit) (fx : List Effect) (fl : BitVec 9) (w : Wait) : (pushIssued s f n lat es fx fl w).saved = s.saved := by simp only [pushIssued, pushWriting_saved]
@[simp] theorem pushIssued_errSeq (s : State) (f : Firing) (n : Node) (lat : Nat) (es : List Emit) (fx : List Effect) (fl : BitVec 9) (w : Wait) : (pushIssued s f n lat es fx fl w).errSeq = s.errSeq := by simp only [pushIssued, pushWriting_errSeq]
@[simp] theorem pushIssued_evSeq (s : State) (f : Firing) (n : Node) (lat : Nat) (es : List Emit) (fx : List Effect) (fl : BitVec 9) (w : Wait) : (pushIssued s f n lat es fx fl w).evSeq = s.evSeq := by simp only [pushIssued, pushWriting_evSeq]
@[simp] theorem pushIssued_spokeOut (s : State) (f : Firing) (n : Node) (lat : Nat) (es : List Emit) (fx : List Effect) (fl : BitVec 9) (w : Wait) : (pushIssued s f n lat es fx fl w).spokeOut = s.spokeOut := by simp only [pushIssued, pushWriting_spokeOut]
@[simp] theorem pushIssued_powered (s : State) (f : Firing) (n : Node) (lat : Nat) (es : List Emit) (fx : List Effect) (fl : BitVec 9) (w : Wait) : (pushIssued s f n lat es fx fl w).powered = s.powered := by simp only [pushIssued, pushWriting_powered]
@[simp] theorem pushIssued_vfDone (s : State) (f : Firing) (n : Node) (lat : Nat) (es : List Emit) (fx : List Effect) (fl : BitVec 9) (w : Wait) : (pushIssued s f n lat es fx fl w).vfDone = s.vfDone := by simp only [pushIssued, pushWriting_vfDone]
@[simp] theorem pushIssued_cur (s : State) (f : Firing) (n : Node) (lat : Nat) (es : List Emit) (fx : List Effect) (fl : BitVec 9) (w : Wait) : (pushIssued s f n lat es fx fl w).cur = s.cur := by simp only [pushIssued, pushWriting_cur]
@[simp] theorem pushIssued_agenda (s : State) (f : Firing) (n : Node) (lat : Nat) (es : List Emit) (fx : List Effect) (fl : BitVec 9) (w : Wait) : (pushIssued s f n lat es fx fl w).agenda = s.agenda := by simp only [pushIssued, pushWriting_agenda]
@[simp] theorem pushIssued_fresh (s : State) (f : Firing) (n : Node) (lat : Nat) (es : List Emit) (fx : List Effect) (fl : BitVec 9) (w : Wait) : (pushIssued s f n lat es fx fl w).fresh = s.fresh := by simp only [pushIssued, pushWriting_fresh]

/-! Reads after writes. -/

theorem regGet_regPut_same (s : State) (b off : Nat) (v : Word) : regGet (regPut s b off v) b off = v := by simp [regGet, regPut]

theorem regGet_regPut_other (s : State) (b off c k : Nat) (v : Word) (h : regKey c k ≠ regKey b off) :
    regGet (regPut s b off v) c k = regGet s c k := by
  unfold regGet regPut sput
  split
  · rw [sget_sdel, if_neg h]
  · rw [sget_sins, if_neg h]

@[simp] theorem getPE_setPE (s : State) (b pe c q : Nat) (p : PE) :
    getPE (setPE s b pe p) c q = if peKey c q = peKey b pe then p else getPE s c q := by simp [getPE, setPE]

@[simp] theorem getPE_modPE (s : State) (b pe c q : Nat) (f : PE → PE) :
    getPE (modPE s b pe f) c q = if peKey c q = peKey b pe then f (getPE s b pe) else getPE s c q := getPE_setPE s b pe c q _

@[simp] theorem getSlot_setSlot (s : State) (b sl c k : Nat) (x : Slot) :
    getSlot (setSlot s b sl x) c k = if c * 32 + k = b * 32 + sl then x else getSlot s c k := by simp [getSlot, setSlot]

@[simp] theorem getSlot_modSlot (s : State) (b sl c k : Nat) (f : Slot → Slot) :
    getSlot (modSlot s b sl f) c k = if c * 32 + k = b * 32 + sl then f (getSlot s b sl) else getSlot s c k := getSlot_setSlot s b sl c k _

@[simp] theorem getBulk_setBulk (s : State) (b c : Nat) (x : Bulk) : getBulk (setBulk s b x) c = if c = b then x else getBulk s c := by
  simp [getBulk, setBulk]

@[simp] theorem getBulk_modBulk (s : State) (b c : Nat) (f : Bulk → Bulk) :
    getBulk (modBulk s b f) c = if c = b then f (getBulk s b) else getBulk s c := getBulk_setBulk s b c _

@[simp] theorem handleAt_handlePut (p : PE) (h k : Nat) (e : HEntry) : handleAt (handlePut p h e) k = if k = h then e else handleAt p k := by
  simp [handleAt, handlePut]

@[simp] theorem memByte_memPut (s : State) (a : Nat) (bs : List Byte) (x : Nat) :
    memByte (memPut s a bs) x = if a ≤ x ∧ x < a + bs.length then bs.getD (x - a) 0 else memByte s x := by simp [memByte, memPut]

theorem memBytes_memPut (s : State) (a : Nat) (bs : List Byte) : memBytes (memPut s a bs) a bs.length = bs := sgets_sputs 0 s.mem a bs

/-- Equal memories read alike. -/
theorem memByte_congr (s t : State) (h : t.mem = s.mem) (a : Nat) : memByte t a = memByte s a := by simp [memByte, h]

/-- PEs with numbers below 512 have keys of their own (R2, R3). -/
theorem peKey_inj (b pe c q : Nat) (h1 : pe < 512) (h2 : q < 512) (h : peKey b pe = peKey c q) : b = c ∧ pe = q := by
  unfold peKey at h; omega

end Sys2Proof.Machine
end

