-- ==== Sys2Proof/Laws/Memory.lean ====
section
/-! SUPPORT. Every operation that writes memory keeps its canonical form, and what each leaves alone. -/

namespace Sys2Proof.Machine

theorem memPut_wf (s : State) (a : Nat) (bs : List Byte) (h : Memory.wf s.mem = true) : Memory.wf (memPut s a bs).mem = true :=
  swf_sputs 0 s.mem a bs h

/-- Marks of codewords are not memory. -/
theorem eccPut_fold_mem (l : List Nat) (e : Ecc) (s : State) : (l.foldl (fun t cw => eccPut t cw e) s).mem = s.mem := by
  induction l generalizing s with
  | nil => rfl
  | cons c l ih => exact ih _

/-- A masked write has the length of its bytes. -/
theorem overlay_length (old bs : List Byte) (mask : List Bool) (h : old.length = bs.length) : (overlay old bs mask).length = bs.length := by
  unfold overlay
  split
  · rfl
  · simp [h]

/-- A write inside one block is bytes of its run or, where the block is lost, nothing. -/
theorem blockWrite_mem (s : State) (comp : Bool) (pa : Nat) (bs : List Byte) (mask : List Bool) :
    (∃ x : List Byte, x.length = bs.length ∧ (blockWrite s comp pa bs mask).1.mem = (memPut s pa x).mem) ∨
    (blockWrite s comp pa bs mask).1.mem = s.mem := by
  have hl : (overlay (memBytes s pa bs.length) bs mask).length = bs.length := overlay_length _ _ _ (by simp [memBytes, sgets])
  unfold blockWrite
  dsimp only
  split
  · exact Or.inl ⟨_, hl, rfl⟩
  · split
    · exact Or.inr rfl
    · split
      · exact Or.inl ⟨_, hl, eccPut_fold_mem _ _ _⟩
      · exact Or.inl ⟨_, hl, rfl⟩

theorem blockWrite_wf (s : State) (comp : Bool) (pa : Nat) (bs : List Byte) (mask : List Bool) (h : Memory.wf s.mem = true) :
    Memory.wf (blockWrite s comp pa bs mask).1.mem = true := by
  rcases blockWrite_mem s comp pa bs mask with ⟨x, _, e⟩ | e <;> rw [e]
  · exact memPut_wf s pa x h
  · exact h

theorem hbmWriteFrom_wf (k : Nat) (s : State) (comp : Bool) (pa : Nat) (bs : List Byte) (h : Memory.wf s.mem = true) :
    Memory.wf (hbmWriteFrom k s comp pa bs).1.mem = true := by
  induction k generalizing s pa bs with
  | zero => exact h
  | succ k ih =>
    unfold hbmWriteFrom
    split
    · exact h
    · exact ih _ _ _ (blockWrite_wf s comp pa _ _ h)

theorem hbmWrite_wf (s : State) (comp : Bool) (pa : Nat) (bs : List Byte) (h : Memory.wf s.mem = true) :
    Memory.wf (hbmWrite s comp pa bs).1.mem = true := hbmWriteFrom_wf _ s comp pa bs h

theorem hbmPut_wf (s : State) (pa : Nat) (bs : List Byte) (h : Memory.wf s.mem = true) : Memory.wf (hbmPut s pa bs).mem = true :=
  hbmWrite_wf s false pa bs h

theorem putLe_wf (s : State) (pa n v : Nat) (h : Memory.wf s.mem = true) : Memory.wf (putLe s pa n v).mem = true := hbmPut_wf s pa _ h

theorem blockZero_wf (s : State) (blk : Nat) (h : Memory.wf s.mem = true) : Memory.wf (blockZero s blk).mem = true := swf_sclear 0 s.mem _ _ h

theorem stackZero_wf (s : State) (b : Nat) (h : Memory.wf s.mem = true) : Memory.wf (stackZero s b).mem = true := swf_sclear 0 s.mem _ _ h

theorem reset_wf : Memory.wf State.reset.mem = true := rfl

/-- A zeroed block reads as zero, and every other byte as before (R155). -/
theorem memByte_blockZero (s : State) (blk a : Nat) :
    memByte (blockZero s blk) a = if blk * 2048 ≤ a ∧ a < blk * 2048 + 2048 then 0 else memByte s a := sget_sclear 0 s.mem _ _ a

/-- A write inside one block changes no byte outside its run. -/
theorem blockWrite_other (s : State) (comp : Bool) (pa : Nat) (bs : List Byte) (mask : List Bool) (a : Nat) (h : a < pa ∨ pa + bs.length ≤ a) :
    memByte (blockWrite s comp pa bs mask).1 a = memByte s a := by
  rcases blockWrite_mem s comp pa bs mask with ⟨x, hx, e⟩ | e
  · rw [memByte_congr _ _ e, memByte_memPut, if_neg (by omega)]
  · exact memByte_congr _ _ e a

/-- A write to HBM changes no byte outside its run. -/
theorem hbmWriteFrom_other (k : Nat) (s : State) (comp : Bool) (pa : Nat) (bs : List Byte) (a : Nat) (h : a < pa ∨ pa + bs.length ≤ a) :
    memByte (hbmWriteFrom k s comp pa bs).1 a = memByte s a := by
  induction k generalizing s pa bs with
  | zero => rfl
  | succ k ih =>
    unfold hbmWriteFrom
    split
    · rfl
    · have hl : (bs.take (2048 - pa % 2048)).length ≤ bs.length := by simp
      have hd : (bs.drop (2048 - pa % 2048)).length = bs.length - (2048 - pa % 2048) := by simp
      by_cases hb : bs.length ≤ 2048 - pa % 2048
      · rw [ih]
        · exact blockWrite_other s comp pa _ _ a (by omega)
        · simp only [List.drop_eq_nil_of_le hb, List.length_nil]; omega
      · rw [ih]
        · exact blockWrite_other s comp pa _ _ a (by omega)
        · omega

theorem hbmWrite_other (s : State) (comp : Bool) (pa : Nat) (bs : List Byte) (a : Nat) (h : a < pa ∨ pa + bs.length ≤ a) :
    memByte (hbmWrite s comp pa bs).1 a = memByte s a := hbmWriteFrom_other _ s comp pa bs a h

/-! Events, and the accesses that the device makes for itself, keep the canonical form too. -/

/-- Whatever is true of a state after each read and write of an event's record is true after the event (R422). -/
theorem queueWith_keeps (Q : State → Prop) (read : State → Nat → Nat → State) (write : State → Nat → List Byte → State) (hr : ∀ s a n, Q s → Q (read s a n))
    (hw : ∀ s a bs, Q s → Q (write s a bs)) (s : State) (d : Nat) (rec : List Byte) (h : Q s) : Q (queueWith read write s d rec) := by
  unfold queueWith
  split
  · exact h
  · dsimp only
    split
    · exact hw _ _ _ (hw _ _ _ (hr _ _ _ h))
    · exact hw _ _ _ (hr _ _ _ h)

theorem postPlain_wf (s : State) (src b : Nat) (vf lid : Option Nat) (code payload : Nat) (h : Memory.wf s.mem = true) :
    Memory.wf (postPlain s src b vf lid code payload).mem = true :=
  queueWith_keeps (fun t => Memory.wf t.mem = true) _ _ (fun _ _ _ g => g) (fun _ _ _ g => hbmPut_wf _ _ _ g) _ _ _ h

theorem regPut_wf (s : State) (b off : Nat) (v : Word) (h : Memory.wf s.mem = true) : Memory.wf (regPut s b off v).mem = true := by rw [regPut_mem]; exact h

theorem regSetBits_wf (s : State) (b off lo len v : Nat) (h : Memory.wf s.mem = true) : Memory.wf (regSetBits s b off lo len v).mem = true := by
  rw [regSetBits_mem]; exact h

theorem poisonReport_wf (s : State) (b vf : Nat) (known : Bool) (cw n : Nat) (h : Memory.wf s.mem = true) :
    Memory.wf (poisonReport s b vf known cw n).mem = true := by
  unfold poisonReport
  refine postPlain_wf _ _ _ _ _ _ _ (regPut_wf _ _ _ _ ?_)
  split
  · exact regSetBits_wf _ _ _ _ _ _ (regSetBits_wf _ _ _ _ _ _ h)
  · exact regSetBits_wf _ _ _ _ _ _ h

theorem countCorrected_wf (s : State) (b cw : Nat) (h : Memory.wf s.mem = true) : Memory.wf (countCorrected s b cw).mem = true := by
  unfold countCorrected
  have post : ∀ u : State, Memory.wf u.mem = true → Memory.wf (if regBits u b 0x11008 49 1 = 1 ∧ (getBulk u b).ceAt ≤ cycleOf u b then
      modBulk (postPlain u (wellSrc b) b none none 0x05 (cw * 32 % 2 ^ 36)) b (fun x => { x with ceAt := x.cycle + 65536 }) else u).mem = true := by
    intro u g
    split
    · rw [modBulk_mem]; exact postPlain_wf _ _ _ _ _ _ _ g
    · exact g
  apply post
  split <;> simpa only [regSetBits_mem] using h

theorem meetCw_wf (b vf : Nat) (known : Bool) (s : State) (cw : Nat) (h : Memory.wf s.mem = true) : Memory.wf (meetCw b vf known s cw).mem = true := by
  unfold meetCw
  split
  · exact poisonReport_wf (eccPut s cw .poisoned) b vf known cw 1 h
  · exact countCorrected_wf s b cw h
  · exact h

/-- What each step of a fold keeps, the fold keeps. -/
theorem foldl_wf {α : Type} (f : State → α → State) (hf : ∀ s x, Memory.wf s.mem = true → Memory.wf (f s x).mem = true) (l : List α) (s : State)
    (h : Memory.wf s.mem = true) : Memory.wf (l.foldl f s).mem = true := by
  induction l generalizing s with
  | nil => exact h
  | cons x l ih => exact ih _ (hf s x h)

theorem foldl_fst_wf {α β : Type} (f : State × β → α → State × β) (hf : ∀ a x, Memory.wf a.1.mem = true → Memory.wf (f a x).1.mem = true) (l : List α)
    (a : State × β) (h : Memory.wf a.1.mem = true) : Memory.wf (l.foldl f a).1.mem = true := by
  induction l generalizing a with
  | nil => exact h
  | cons x l ih => exact ih _ (hf a x h)

theorem meetSectors_wf (s : State) (vf : Nat) (known : Bool) (blk : Nat) (secs : List Nat) (h : Memory.wf s.mem = true) :
    Memory.wf (meetSectors s vf known blk secs).mem = true := by
  unfold meetSectors
  dsimp only
  split
  · split
    · exact h
    · exact poisonReport_wf _ _ _ _ _ _ (foldl_wf (fun a i => eccPut a (blk * 64 + i) .poisoned) (fun _ _ g => g) _ s h)
  · exact foldl_wf _ (fun t c g => meetCw_wf _ _ _ t c g) _ s h

theorem meetWrite_wf (s : State) (vf : Nat) (known comp : Bool) (pa : Nat) (bs : List Byte) (mask : List Bool) (h : Memory.wf s.mem = true) :
    Memory.wf (meetWrite s vf known comp pa bs mask).mem = true := by
  unfold meetWrite
  dsimp only
  split
  · exact h
  · split
    · exact foldl_wf _ (fun t c g => meetCw_wf _ _ _ t c g) _ s h
    · exact meetSectors_wf s vf known _ _ h

theorem ownPulse_wf (s : State) (b k : Nat) (h : Memory.wf s.mem = true) : Memory.wf (ownMeet.ownPulse s b k).mem = true := by
  unfold ownMeet.ownPulse
  split
  · simpa only [regSetBits_mem] using h
  · exact h

theorem ownMeet_wf (s : State) (vf : Nat) (known : Bool) (pa n : Nat) (h : Memory.wf s.mem = true) : Memory.wf (ownMeet s vf known pa n).mem = true :=
  foldl_wf _ (fun t x g => ownPulse_wf _ _ _ (meetSectors_wf t vf known _ _ g)) _ s h

theorem ownTry_wf (s : State) (vf : Nat) (known : Bool) (pa : Nat) (bs : List Byte) (h : Memory.wf s.mem = true) :
    Memory.wf (ownTry s vf known pa bs).1.mem = true := by
  unfold ownTry
  exact foldl_fst_wf (fun (a : State × Bool) (x : Nat × Nat) =>
      let part := slice bs (x.1 - pa) x.2
      let t := ownMeet.ownPulse (meetWrite a.1 vf known false x.1 part []) (x.1 / 2 ^ 36) (accessSectors a.1 true false x.1 x.2).length
      let w := blockWrite t false x.1 part []
      (w.1, a.2 && w.2)) (fun a x g => blockWrite_wf _ _ _ _ _ (ownPulse_wf _ _ _ (meetWrite_wf a.1 vf known false x.1 _ [] g))) _ (s, true) h

theorem ownPut_wf (s : State) (vf pa : Nat) (bs : List Byte) (h : Memory.wf s.mem = true) : Memory.wf (ownPut s vf pa bs).mem = true :=
  ownTry_wf s vf true pa bs h

theorem ownWrite_wf (s : State) (pa : Nat) (bs : List Byte) (h : Memory.wf s.mem = true) : Memory.wf (ownWrite s pa bs).mem = true :=
  ownTry_wf s 0 false pa bs h

theorem memPutLe_wf (s : State) (pa n v : Nat) (h : Memory.wf s.mem = true) : Memory.wf (memPutLe s pa n v).mem = true := ownWrite_wf s pa _ h

theorem rcbMeet_wf (k : Nat) (s : State) (addr : Nat) (h : Memory.wf s.mem = true) : Memory.wf (rcbMeet k s addr).mem = true := by
  induction k generalizing s addr with
  | zero => exact h
  | succ k ih =>
    unfold rcbMeet
    split
    · exact h
    · exact ih _ _ (ownMeet_wf s 0 false addr 128 h)

theorem queueEvent_wf (s : State) (d : Nat) (rec : List Byte) (h : Memory.wf s.mem = true) : Memory.wf (queueEvent s d rec).mem = true :=
  queueWith_keeps (fun t => Memory.wf t.mem = true) _ _ (fun t _ _ g => ownMeet_wf t 0 false _ _ g) (fun t _ _ g => ownWrite_wf t _ _ g) s d rec h

theorem postEvent_wf (s : State) (src b : Nat) (vf lid : Option Nat) (code payload : Nat) (h : Memory.wf s.mem = true) :
    Memory.wf (postEvent s src b vf lid code payload).mem = true :=
  queueEvent_wf _ _ _ (rcbMeet_wf 4 (evSeqUp s src) _ h)

end Sys2Proof.Machine
end

