-- ==== Sys2Proof/Laws/Issue.lean ====
section
/-! SUPPORT. What the issue of a firing can do, said once: the outcome of R221, and the state after an issue that touches no store. -/

namespace Sys2Proof.Machine

open Host

@[simp] theorem firingCtx_bh (s : State) (code : Nat) (n : Node) : (firingCtx s code n).f.bh = s.cur.bh := by unfold firingCtx; split <;> rfl
@[simp] theorem firingCtx_pe (s : State) (code : Nat) (n : Node) : (firingCtx s code n).f.pe = s.cur.pe := by unfold firingCtx; split <;> rfl
@[simp] theorem firingCtx_vf (s : State) (code : Nat) (n : Node) : (firingCtx s code n).f.vf = s.cur.vf := by unfold firingCtx; split <;> rfl
@[simp] theorem firingCtx_node (s : State) (code : Nat) (n : Node) : (firingCtx s code n).n = n := by unfold firingCtx; split <;> rfl

/-- A firing that names an accumulator which is being written keeps its place (R345). -/
theorem fireAs_held (s : State) (o : OpInfo) (n : Node) (miss : Ctx → State → State) (k : Ctx → State → Option State)
    (ha : accHeld (getPE s s.cur.bh s.cur.pe) (applyEpass o n s.cur) = true) : fireAs s o n miss k = s := if_pos ha

/-- One that steps 1 to 5 of R221 let through does what its meaning says, or keeps its place (R226). -/
theorem fireAs_perform (s : State) (o : OpInfo) (n : Node) (miss : Ctx → State → State) (k : Ctx → State → Option State)
    (ha : accHeld (getPE s s.cur.bh s.cur.pe) (applyEpass o n s.cur) = false)
    (hj : verdict s o n (applyEpass o n s.cur) = .perform) :
    fireAs s o n miss k = (k (ctxOf s o n) (takeReady s s.cur)).getD s := by
  have hj' : verdict s o n (ctxOf s o n).f = .perform := hj
  have ha' : ¬accHeld (getPE s (ctxOf s o n).f.bh (ctxOf s o n).f.pe) (ctxOf s o n).f = true := by
    intro h; exact Bool.noConfusion (ha.symm.trans h)
  unfold fireAs
  refine (if_neg ha').trans ?_
  rw [hj']

/-- One whose outcome those steps decide does nothing of its own (R221, R222). -/
theorem fireAs_missed (s : State) (o : OpInfo) (n : Node) (miss : Ctx → State → State) (k : Ctx → State → Option State) (v : Verdict)
    (ha : accHeld (getPE s s.cur.bh s.cur.pe) (applyEpass o n s.cur) = false)
    (hj : verdict s o n (applyEpass o n s.cur) = v) (hv : v ≠ .perform) :
    fireAs s o n miss k = miss (ctxOf s o n) (finishVerdict (takeReady s s.cur) o.code (ctxOf s o n).f n v) := by
  have hj' : verdict s o n (ctxOf s o n).f = v := hj
  have ha' : ¬accHeld (getPE s (ctxOf s o n).f.bh (ctxOf s o n).f.pe) (ctxOf s o n).f = true := by
    intro h; exact Bool.noConfusion (ha.symm.trans h)
  unfold fireAs
  refine (if_neg ha').trans ?_
  rw [hj']
  cases v <;> first | rfl | exact absurd rfl hv

/-- Nothing meets an uncorrectable error in a PE whose stores hold none (R64). -/
theorem spoiltIn_none (p : PE) (off len : Nat) (h : p.spoilt = []) : spoiltIn p off len = false := by unfold spoiltIn; rw [h]; rfl

/-- The outcome of a firing as it issues is that of R221 on a PE whose stores hold no uncorrectable error (R64). -/
theorem verdict_clean (s : State) (o : OpInfo) (n : Node) (f : Firing) (h : (getPE s f.bh f.pe).spoilt = []) :
    verdict s o n f = judge (getPE s f.bh f.pe) o n f := by
  have r : readsSpoilt s o n f = false := by unfold readsSpoilt; simp only [h]; rfl
  unfold verdict
  rw [r]
  split
  · next hj => rw [hj]; rfl
  · rfl

/-- A firing that performs reads no uncorrectable error as it issues (R64). -/
theorem verdict_perform (s : State) (o : OpInfo) (n : Node) (f : Firing) :
    verdict s o n f = .perform ↔ judge (getPE s f.bh f.pe) o n f = .perform ∧ readsSpoilt s o n f = false := by
  unfold verdict
  split
  · next hj => rw [hj]; cases readsSpoilt s o n f <;> simp
  · next hj => exact ⟨fun h => absurd h (by intro e; exact hj e), fun h => absurd h.1 hj⟩

/-- A firing that performs names no accumulator that is being written (R345), and steps 1 to 5 of R221 let it through. -/
theorem performs_iff (s : State) (code : Nat) (n : Node) (o : OpInfo) (ho : opInfo code = some o) :
    performs s code n = true ↔
      verdict s o n (applyEpass o n s.cur) = .perform ∧ accHeld (getPE s s.cur.bh s.cur.pe) (applyEpass o n s.cur) = false := by
  unfold performs waitsForAcc firingCtx
  simp only [ho, ctxOf]
  rw [Bool.and_eq_true, beq_iff_eq, Bool.not_eq_true']

theorem fire_perform (s : State) (code : Nat) (n : Node) (k : Ctx → State → Option State) (h : performs s code n = true) :
    fire s code n k = (k (firingCtx s code n) (takeReady s s.cur)).getD s := by
  cases ho : opInfo code with
  | none => unfold performs at h; rw [ho] at h; cases h
  | some o =>
    obtain ⟨hj, ha⟩ := (performs_iff s code n o ho).1 h
    unfold fire fireWith firingCtx
    simp only [ho]
    exact fireAs_perform s o n _ k ha hj

theorem fire_missed (s : State) (o : OpInfo) (n : Node) (k : Ctx → State → Option State) (ho : opInfo o.code = some o) (v : Verdict)
    (ha : accHeld (getPE s s.cur.bh s.cur.pe) (applyEpass o n s.cur) = false)
    (h : verdict s o n (applyEpass o n s.cur) = v) (hv : v ≠ .perform) :
    fire s o.code n k = finishVerdict (takeReady s s.cur) o.code (firingCtx s o.code n).f n v := by
  unfold fire fireWith firingCtx
  simp only [ho]
  exact fireAs_missed s o n _ k v ha h hv

theorem fire_held (s : State) (o : OpInfo) (n : Node) (k : Ctx → State → Option State) (ho : opInfo o.code = some o)
    (ha : accHeld (getPE s s.cur.bh s.cur.pe) (applyEpass o n s.cur) = true) : fire s o.code n k = s := by
  unfold fire fireWith
  simp only [ho]
  exact fireAs_held s o n _ k ha

/-- The state after a firing has left its queue, been charged and been entered. -/
def issuedState (s : State) (c : Ctx) (cls count : Nat) (n : Node) (lat : Nat) (es : List Emit) (fx : List Effect) (fl : BitVec 9) : State :=
  pushIssued (charge (takeReady s s.cur) c.f.bh c.f.pe cls count) c.f n lat es fx fl .nothing

theorem getPE_charge (s : State) (b pe cls count c q : Nat) : getPE (charge s b pe cls count) c q = getPE s c q := by
  unfold getPE; rw [charge_pes]

theorem getBulk_charge (s : State) (b pe cls count c : Nat) : getBulk (charge s b pe cls count) c = getBulk s c := by
  unfold getBulk; rw [charge_bhs]

theorem getSlot_charge_other (s : State) (b pe cls count c k : Nat) (h : c * 32 + k ≠ b * 32 + slotOf pe) :
    getSlot (charge s b pe cls count) c k = getSlot s c k := by
  unfold charge; dsimp only; split
  · rfl
  · rw [getSlot_modSlot, if_neg h]

theorem getSlot_charge (s : State) (b pe cls count : Nat) :
    getSlot (charge s b pe cls count) b (slotOf pe) =
      { getSlot s b (slotOf pe) with delta := (getSlot (charge s b pe cls count) b (slotOf pe)).delta } := by
  unfold charge; dsimp only; split
  · rfl
  · rw [getSlot_modSlot, if_pos rfl]

theorem cycleOf_charge (s : State) (b pe cls count c : Nat) : cycleOf (charge s b pe cls count) c = cycleOf s c := by
  unfold cycleOf; rw [getBulk_charge]

theorem cycleOf_takeReady (s : State) (f : Firing) (c : Nat) : cycleOf (takeReady s f) c = cycleOf s c := by
  unfold cycleOf takeReady
  simp only [getBulk_modBulk]
  split
  · next h => subst h; simp only [getBulk, modPE_bhs]
  · simp only [getBulk, modPE_bhs]

theorem getPE_takeReady (s : State) (f : Firing) (c q : Nat) :
    getPE (takeReady s f) c q =
      if peKey c q = peKey f.bh f.pe then { getPE s f.bh f.pe with ready := (getPE s f.bh f.pe).ready.erase f, issueAt := cycleOf s f.bh + 1 }
      else getPE s c q := by
  unfold takeReady getPE
  simp only [modBulk_pes]
  exact getPE_modPE s f.bh f.pe c q _

/-- An item enters behind those issued before it, under the next number (R227). -/
theorem getPE_pushItem (s : State) (it : Issued) (c q : Nat) :
    getPE (pushItem s it) c q =
      if peKey c q = peKey it.f.bh it.f.pe then
        { getPE s it.f.bh it.f.pe with issued := (getPE s it.f.bh it.f.pe).issued ++ [{ it with id := s.nextId }] }
      else getPE s c q := by
  unfold pushItem getPE
  simp only [newId_pes]
  exact getPE_modPE s it.f.bh it.f.pe c q _

theorem getPE_pushWriting (s : State) (f : Firing) (n : Node) (lat : Nat) (es : List Emit) (fx : List Effect) (fl : BitVec 9) (w : Wait)
    (ws : List Nat) (c q : Nat) :
    getPE (pushWriting s f n lat es fx fl w ws) c q =
      if peKey c q = peKey f.bh f.pe then
        { getPE s f.bh f.pe with issued := (getPE s f.bh f.pe).issued ++ [{ id := s.nextId, f := f, node := n, due := cycleOf s f.bh + lat, emits := es,
                                                                             effects := fx, flags := fl, wait := w, writes := ws, quiet := false }] }
      else getPE s c q := getPE_pushItem _ _ _ _

theorem getPE_pushOutcome (s : State) (f : Firing) (n : Node) (es : List Emit) (fx : List Effect) (c q : Nat) :
    getPE (pushOutcome s f n es fx) c q =
      if peKey c q = peKey f.bh f.pe then
        { getPE s f.bh f.pe with issued := (getPE s f.bh f.pe).issued ++ [{ id := s.nextId, f := f, node := n, due := cycleOf s f.bh + 1, emits := es,
                                                                             effects := fx, flags := 0, wait := .nothing, writes := [], quiet := true }] }
      else getPE s c q := getPE_pushItem _ _ _ _

theorem issuedState_issues (s : State) (code : Nat) (cls count : Nat) (n : Node) (lat : Nat) (es : List Emit) (fx : List Effect) (fl : BitVec 9) :
    Issues s (issuedState s (firingCtx s code n) cls count n lat es fx fl) (itemOf s code n lat es fx fl) := by
  have h : firedPE s (issuedState s (firingCtx s code n) cls count n lat es fx fl) =
      { firedPE s s with ready := (firedPE s s).ready.erase s.cur, issueAt := cycleOf s s.cur.bh + 1,
                         issued := (firedPE s s).issued ++ [itemOf s code n lat es fx fl] } := by
    unfold firedPE issuedState pushIssued
    rw [getPE_pushWriting, firingCtx_bh, firingCtx_pe, if_pos rfl, getPE_charge, getPE_takeReady, if_pos rfl, cycleOf_charge, cycleOf_takeReady,
      charge_nextId, takeReady_nextId]
    simp only [itemOf, firingCtx_bh]
  constructor <;> rw [h]

theorem memByte_issuedState (s : State) (c : Ctx) (cls count : Nat) (n : Node) (lat : Nat) (es : List Emit) (fx : List Effect) (fl : BitVec 9) (a : Nat) :
    memByte (issuedState s c cls count n lat es fx fl) a = memByte s a := by
  refine memByte_congr s _ ?_ a
  unfold issuedState
  simp only [pushIssued_mem, charge_mem, takeReady_mem]

theorem issuedState_only (s : State) (code : Nat) (cls count : Nat) (n : Node) (lat : Nat) (es : List Emit) (fx : List Effect) (fl : BitVec 9) :
    OnlyIssues s (issuedState s (firingCtx s code n) cls count n lat es fx fl) where
  regs := by unfold issuedState; simp only [pushIssued_regs, charge_regs, takeReady_regs]
  nrgRem := by unfold issuedState; simp only [pushIssued_nrgRem, charge_nrgRem, takeReady_nrgRem]
  mem := memByte_issuedState s _ cls count n lat es fx fl
  bmeta := by unfold issuedState; simp only [pushIssued_bmeta, charge_bmeta, takeReady_bmeta]
  ecc := by unfold issuedState; simp only [pushIssued_ecc, charge_ecc, takeReady_ecc]
  links := by unfold issuedState; simp only [pushIssued_links, charge_links, takeReady_links]
  cfgs := by unfold issuedState; simp only [pushIssued_cfgs, charge_cfgs, takeReady_cfgs]
  launches := by unfold issuedState; simp only [pushIssued_launches, charge_launches, takeReady_launches]
  tasks := by unfold issuedState; simp only [pushIssued_tasks, charge_tasks, takeReady_tasks]
  versions := by unfold issuedState; simp only [pushIssued_versions, charge_versions, takeReady_versions]
  rcbs := by unfold issuedState; simp only [pushIssued_rcbs, charge_rcbs, takeReady_rcbs]
  flights := by unfold issuedState; simp only [pushIssued_flights, charge_flights, takeReady_flights]
  inject := by unfold issuedState; simp only [pushIssued_inject, charge_inject, takeReady_inject]
  reqs := by unfold issuedState; simp only [pushIssued_reqs, charge_reqs, takeReady_reqs]
  cmds := by unfold issuedState; simp only [pushIssued_cmds, charge_cmds, takeReady_cmds]
  stores := by unfold issuedState; simp only [pushIssued_stores, charge_stores, takeReady_stores]
  saved := by unfold issuedState; simp only [pushIssued_saved, charge_saved, takeReady_saved]
  errSeq := by unfold issuedState; simp only [pushIssued_errSeq, charge_errSeq, takeReady_errSeq]
  evSeq := by unfold issuedState; simp only [pushIssued_evSeq, charge_evSeq, takeReady_evSeq]
  spokeOut := by unfold issuedState; simp only [pushIssued_spokeOut, charge_spokeOut, takeReady_spokeOut]
  powered := by unfold issuedState; simp only [pushIssued_powered, charge_powered, takeReady_powered]
  own := by
    unfold firedPE issuedState pushIssued
    rw [getPE_pushWriting, firingCtx_bh, firingCtx_pe, if_pos rfl, getPE_charge, getPE_takeReady, if_pos rfl]
  others := by
    intro b pe h
    unfold issuedState pushIssued
    rw [getPE_pushWriting, firingCtx_bh, firingCtx_pe, if_neg h, getPE_charge, getPE_takeReady, if_neg h]
  slot := by
    have e : ∀ b k, getSlot (issuedState s (firingCtx s code n) cls count n lat es fx fl) b k =
        getSlot (charge (takeReady s s.cur) s.cur.bh s.cur.pe cls count) b k := by
      intro b k; unfold issuedState getSlot; rw [pushIssued_slots, firingCtx_bh, firingCtx_pe]
    have r : getSlot (takeReady s s.cur) s.cur.bh (slotOf s.cur.pe) = getSlot s s.cur.bh (slotOf s.cur.pe) := by
      unfold getSlot; rw [takeReady_slots]
    rw [e, ← r]
    exact getSlot_charge _ _ _ _ _
  slots := by
    intro b sl h
    unfold issuedState
    rw [firingCtx_bh, firingCtx_pe]
    have e : getSlot (pushIssued (charge (takeReady s s.cur) s.cur.bh s.cur.pe cls count) (firingCtx s code n).f n lat es fx fl .nothing) b sl =
        getSlot (charge (takeReady s s.cur) s.cur.bh s.cur.pe cls count) b sl := by unfold getSlot; rw [pushIssued_slots]
    rw [e, getSlot_charge_other _ _ _ _ _ _ _ h]
    unfold getSlot; rw [takeReady_slots]
  bulk := by
    have e : getBulk (issuedState s (firingCtx s code n) cls count n lat es fx fl) s.cur.bh = getBulk (takeReady s s.cur) s.cur.bh := by
      unfold issuedState getBulk; rw [pushIssued_bhs, charge_bhs]
    have r : getBulk (modPE s s.cur.bh s.cur.pe fun p => { p with ready := p.ready.erase s.cur, issueAt := cycleOf s s.cur.bh + 1 }) s.cur.bh =
        getBulk s s.cur.bh := by unfold getBulk; rw [modPE_bhs]
    rw [e]
    unfold takeReady
    rw [getBulk_modBulk, if_pos rfl, r]
  bulks := by
    intro b h
    have e : getBulk (issuedState s (firingCtx s code n) cls count n lat es fx fl) b = getBulk (takeReady s s.cur) b := by
      unfold issuedState getBulk; rw [pushIssued_bhs, charge_bhs]
    rw [e]
    unfold takeReady
    rw [getBulk_modBulk, if_neg h]
    unfold getBulk; rw [modPE_bhs]

/-- A meaning that enters its firing and does nothing else completes with what it entered. -/
theorem completesWith_of_fire (s : State) (i : Instr) (code : Nat) (n : Node) (cls count lat : Nat) (es : List Emit) (fx : List Effect) (fl : BitVec 9)
    (k : Ctx → State → Option State) (hi : exec i s = .next (fire s code n k)) (h : performs s code n = true)
    (hk : k (firingCtx s code n) (takeReady s s.cur) = some (issuedState s (firingCtx s code n) cls count n lat es fx fl)) :
    CompletesWith s i code n lat es fx fl :=
  ⟨_, by rw [hi, fire_perform s code n k h, hk]; rfl, issuedState_only s code cls count n lat es fx fl, issuedState_issues s code cls count n lat es fx fl⟩

end Sys2Proof.Machine
end

