-- ==== Sys2Proof/Laws/Operations.lean ====
section
/-! SUPPORT. For each shared operation, the one lemma that says which parts of the state it can change; what it writes there is its definition. -/

namespace Sys2Proof.Machine

/-- t differs from s in memory, its metadata and its codewords at most. -/
def OnlyMemory (s t : State) : Prop := ∃ m b e, t = { s with mem := m, bmeta := b, ecc := e }

theorem OnlyMemory.refl (s : State) : OnlyMemory s s := ⟨_, _, _, rfl⟩

theorem OnlyMemory.trans {s t u : State} (h : OnlyMemory s t) (g : OnlyMemory t u) : OnlyMemory s u := by
  obtain ⟨_, _, _, rfl⟩ := h
  obtain ⟨_, _, _, rfl⟩ := g
  exact ⟨_, _, _, rfl⟩

theorem eccPut_fold_only (l : List Nat) (x : Ecc) (s : State) : OnlyMemory s (l.foldl (fun t cw => eccPut t cw x) s) := by
  induction l generalizing s with
  | nil => exact OnlyMemory.refl s
  | cons c l ih => exact OnlyMemory.trans ⟨_, _, _, rfl⟩ (ih (eccPut s c x))

theorem blockWrite_only (s : State) (comp : Bool) (pa : Nat) (bs : List Byte) (mask : List Bool) : OnlyMemory s (blockWrite s comp pa bs mask).1 := by
  unfold blockWrite
  dsimp only
  split
  · exact ⟨_, _, _, rfl⟩
  · split
    · exact OnlyMemory.refl s
    · split
      · exact OnlyMemory.trans ⟨_, _, _, rfl⟩ (eccPut_fold_only _ _ _)
      · exact ⟨_, _, _, rfl⟩

theorem hbmWriteFrom_only (k : Nat) (s : State) (comp : Bool) (pa : Nat) (bs : List Byte) : OnlyMemory s (hbmWriteFrom k s comp pa bs).1 := by
  induction k generalizing s pa bs with
  | zero => exact OnlyMemory.refl s
  | succ k ih =>
    unfold hbmWriteFrom
    split
    · exact OnlyMemory.refl s
    · exact (blockWrite_only s comp pa _ _).trans (ih _ _ _)

theorem hbmPut_only (s : State) (pa : Nat) (bs : List Byte) : OnlyMemory s (hbmPut s pa bs) := hbmWriteFrom_only _ s false pa bs

theorem putLe_only (s : State) (pa n v : Nat) : OnlyMemory s (putLe s pa n v) := hbmPut_only s pa _

/-- An event about a codeword is numbered, and stands in memory or is counted lost there: nothing else changes (R128, R129, R421, R422). -/
theorem postPlain_only (s : State) (src b : Nat) (vf lid : Option Nat) (code payload : Nat) :
    OnlyMemory (evSeqUp s src) (postPlain s src b vf lid code payload) :=
  queueWith_keeps (OnlyMemory (evSeqUp s src)) _ _ (fun _ _ _ g => g) (fun _ _ _ g => g.trans (hbmPut_only _ _ _)) _ _ _ (OnlyMemory.refl _)

/-- A new error token takes its source's number and advances it (R79). -/
theorem newError_state (s : State) (src code : Nat) :
    (newError s src code).2 = { s with errSeq := sput 0 s.errSeq src ((sget 0 s.errSeq src + 1) % 2 ^ 32) } := rfl

/-- t differs from s at most in what an access of the device to HBM can touch: memory, its metadata and codewords, registers (the counts of R133), event
numbers, and the clock counts of its bulkhead's reports (R128 to R133). -/
def OnlyAccess (s t : State) : Prop := ∃ m b e r v h, t = { s with mem := m, bmeta := b, ecc := e, regs := r, evSeq := v, bhs := h }

theorem OnlyAccess.refl (s : State) : OnlyAccess s s := ⟨_, _, _, _, _, _, rfl⟩

theorem OnlyAccess.trans {s t u : State} (h : OnlyAccess s t) (g : OnlyAccess t u) : OnlyAccess s u := by
  obtain ⟨_, _, _, _, _, _, rfl⟩ := h
  obtain ⟨_, _, _, _, _, _, rfl⟩ := g
  exact ⟨_, _, _, _, _, _, rfl⟩

theorem OnlyMemory.access {s t : State} (h : OnlyMemory s t) : OnlyAccess s t := by
  obtain ⟨_, _, _, rfl⟩ := h
  exact ⟨_, _, _, _, _, _, rfl⟩

theorem regSetBits_access (s : State) (b off lo len v : Nat) : OnlyAccess s (regSetBits s b off lo len v) := by
  unfold regSetBits regPut; exact ⟨_, _, _, _, _, _, rfl⟩

theorem postPlain_access (s : State) (src b : Nat) (vf lid : Option Nat) (code payload : Nat) : OnlyAccess s (postPlain s src b vf lid code payload) := by
  obtain ⟨_, _, _, e⟩ := postPlain_only s src b vf lid code payload
  rw [e]
  exact ⟨_, _, _, _, _, _, rfl⟩

theorem poisonReport_access (s : State) (b vf : Nat) (known : Bool) (cw n : Nat) : OnlyAccess s (poisonReport s b vf known cw n) := by
  unfold poisonReport
  refine OnlyAccess.trans (OnlyAccess.trans ?_ ⟨_, _, _, _, _, _, rfl⟩) (postPlain_access _ _ _ _ _ _ _)
  split
  · exact (regSetBits_access _ _ _ _ _ _).trans (regSetBits_access _ _ _ _ _ _)
  · exact regSetBits_access _ _ _ _ _ _

theorem countCorrected_access (s : State) (b cw : Nat) : OnlyAccess s (countCorrected s b cw) := by
  have post : ∀ u : State, OnlyAccess u (if regBits u b 0x11008 49 1 = 1 ∧ (getBulk u b).ceAt ≤ cycleOf u b then
      modBulk (postPlain u (wellSrc b) b none none 0x05 (cw * 32 % 2 ^ 36)) b (fun x => { x with ceAt := x.cycle + 65536 }) else u) := by
    intro u
    split
    · exact (postPlain_access _ _ _ _ _ _ _).trans (by unfold modBulk setBulk; exact ⟨_, _, _, _, _, _, rfl⟩)
    · exact OnlyAccess.refl u
  unfold countCorrected
  refine OnlyAccess.trans ?_ (post _)
  split <;> exact regSetBits_access _ _ _ _ _ _

theorem meetCw_access (b vf : Nat) (known : Bool) (s : State) (cw : Nat) : OnlyAccess s (meetCw b vf known s cw) := by
  unfold meetCw
  split
  · exact OnlyAccess.trans ⟨_, _, _, _, _, _, rfl⟩ (poisonReport_access (eccPut s cw .poisoned) b vf known cw 1)
  · exact countCorrected_access s b cw
  · exact OnlyAccess.refl s

theorem foldl_access {α : Type} (f : State → α → State) (hf : ∀ s x, OnlyAccess s (f s x)) (l : List α) (s : State) : OnlyAccess s (l.foldl f s) := by
  induction l generalizing s with
  | nil => exact OnlyAccess.refl s
  | cons x l ih => exact (hf s x).trans (ih _)

theorem foldl_fst_access {α β : Type} (f : State × β → α → State × β) (hf : ∀ a x, OnlyAccess a.1 (f a x).1) (l : List α) (a : State × β) :
    OnlyAccess a.1 (l.foldl f a).1 := by
  induction l generalizing a with
  | nil => exact OnlyAccess.refl a.1
  | cons x l ih => exact (hf a x).trans (ih _)

theorem meetSectors_access (s : State) (vf : Nat) (known : Bool) (blk : Nat) (secs : List Nat) : OnlyAccess s (meetSectors s vf known blk secs) := by
  unfold meetSectors
  dsimp only
  split
  · split
    · exact OnlyAccess.refl s
    · exact (eccPut_fold_only_map s blk).access.trans (poisonReport_access _ _ _ _ _ _)
  · exact foldl_access _ (fun t c => meetCw_access _ _ _ t c) _ s
where
  /-- Marking the first eight codewords of a block (R150). -/
  eccPut_fold_only_map (s : State) (blk : Nat) : OnlyMemory s ((List.range 8).foldl (fun a i => eccPut a (blk * 64 + i) .poisoned) s) := by
    generalize List.range 8 = l
    induction l generalizing s with
    | nil => exact OnlyMemory.refl s
    | cons c l ih => exact OnlyMemory.trans ⟨_, _, _, rfl⟩ (ih (eccPut s (blk * 64 + c) .poisoned))

theorem meetWrite_access (s : State) (vf : Nat) (known comp : Bool) (pa : Nat) (bs : List Byte) (mask : List Bool) :
    OnlyAccess s (meetWrite s vf known comp pa bs mask) := by
  unfold meetWrite
  dsimp only
  split
  · exact OnlyAccess.refl s
  · split
    · exact foldl_access _ (fun t c => meetCw_access _ _ _ t c) _ s
    · exact meetSectors_access s vf known _ _

theorem ownPulse_access (s : State) (b k : Nat) : OnlyAccess s (ownMeet.ownPulse s b k) := by
  unfold ownMeet.ownPulse
  split
  · exact regSetBits_access _ _ _ _ _ _
  · exact OnlyAccess.refl s

/-- A read of the device's own touches that alone. -/
theorem ownMeet_access (s : State) (vf : Nat) (known : Bool) (pa n : Nat) : OnlyAccess s (ownMeet s vf known pa n) :=
  foldl_access _ (fun t _ => (meetSectors_access t vf known _ _).trans (ownPulse_access _ _ _)) _ s

theorem ownTry_access (s : State) (vf : Nat) (known : Bool) (pa : Nat) (bs : List Byte) : OnlyAccess s (ownTry s vf known pa bs).1 := by
  unfold ownTry
  exact foldl_fst_access (fun (a : State × Bool) (x : Nat × Nat) =>
      let part := slice bs (x.1 - pa) x.2
      let t := ownMeet.ownPulse (meetWrite a.1 vf known false x.1 part []) (x.1 / 2 ^ 36) (accessSectors a.1 true false x.1 x.2).length
      let w := blockWrite t false x.1 part []
      (w.1, a.2 && w.2))
    (fun a _ => (meetWrite_access a.1 vf known false _ _ _).trans ((ownPulse_access _ _ _).trans (blockWrite_only _ _ _ _ _).access)) _ (s, true)

/-- A write of the device's own touches that alone. -/
theorem ownPut_access (s : State) (vf pa : Nat) (bs : List Byte) : OnlyAccess s (ownPut s vf pa bs) := ownTry_access s vf true pa bs

theorem ownWrite_access (s : State) (pa : Nat) (bs : List Byte) : OnlyAccess s (ownWrite s pa bs) := ownTry_access s 0 false pa bs

theorem memPutLe_access (s : State) (pa n v : Nat) : OnlyAccess s (memPutLe s pa n v) := ownWrite_access s pa _

theorem rcbMeet_access (k : Nat) (s : State) (addr : Nat) : OnlyAccess s (rcbMeet k s addr) := by
  induction k generalizing s addr with
  | zero => exact OnlyAccess.refl s
  | succ k ih =>
    unfold rcbMeet
    split
    · exact OnlyAccess.refl s
    · exact (ownMeet_access s 0 false addr 128).trans (ih _ _)

theorem queueEvent_access (s : State) (d : Nat) (rec : List Byte) : OnlyAccess s (queueEvent s d rec) :=
  queueWith_keeps (OnlyAccess s) _ _ (fun t _ _ g => g.trans (ownMeet_access t 0 false _ _)) (fun t _ _ g => g.trans (ownWrite_access t _ _)) s d rec (OnlyAccess.refl s)

/-- An event is numbered and stands in memory or is counted lost there, and what its queue's codewords meet is counted: nothing else changes (R128 to R130,
R421, R422). -/
theorem postEvent_access (s : State) (src b : Nat) (vf lid : Option Nat) (code payload : Nat) : OnlyAccess s (postEvent s src b vf lid code payload) :=
  OnlyAccess.trans ⟨_, _, _, _, _, _, rfl⟩ ((rcbMeet_access 4 (evSeqUp s src) _).trans (queueEvent_access _ _ _))

/-- Dropping references notes them on the PE, until the end of the cycle (R58). -/
theorem dropRef_only (s : State) (b pe h gen n : Nat) : ∃ ps, dropRef s b pe h gen n = { s with pes := ps } := by
  unfold dropRef modPE setPE
  exact ⟨_, rfl⟩

/-- Freeing an entry changes its PE, what is charged for pages, and what multicast consumers remember of a freed tile (R61, R206). -/
theorem freeEntry_only (s : State) (b pe h : Nat) : ∃ ps rs cs, freeEntry s b pe h = { s with pes := ps, rcbs := rs, cfgs := cs } := by
  unfold freeEntry outsForget budgetMove setPE
  dsimp only
  split <;> exact ⟨_, _, _, rfl⟩

/-- Freezing a master touches its mark alone: on its PE, among its bulkhead's units, or in a saved context (R417). -/
theorem freezeMaster_only (s : State) (b : Nat) (m : MasterId) (vf : Nat) (why : FreezeReason) :
    ∃ ps bs sv, freezeMaster s b m vf why = { s with pes := ps, bhs := bs, saved := sv } := by
  cases m
  · unfold freezeMaster modCtx modPE setPE; dsimp only; split <;> exact ⟨_, _, _, rfl⟩
  · unfold freezeMaster freezeUnit modBulk setBulk; dsimp only; repeat' split
    all_goals exact ⟨_, _, _, rfl⟩

/-- An emission adds one token to those on their way; it can add references on its PE or number an error (R59, R62). -/
theorem emitTo_only (s : State) (f : Firing) (c : Nat) (d : RDest) (kind : Kind) (payload : Word) (vc1 : Bool) :
    ∃ x es ps, emitTo s f c d kind payload vc1 = { s with flights := s.flights ++ [x], errSeq := es, pes := ps } := by
  unfold emitTo sendFlight newError
  dsimp only
  split
  · split
    · exact ⟨_, _, _, rfl⟩
    · split
      · exact ⟨_, _, _, rfl⟩
      · split
        · next t h =>
          unfold addRef at h
          dsimp only at h
          by_cases hr : 255 < (handleAt (getPE s f.bh f.pe) (handleIdx payload)).ref + refsAt s d
          · rw [if_pos hr] at h; cases h
          · rw [if_neg hr] at h; injection h with h; subst h; unfold setPE; exact ⟨_, _, _, rfl⟩
        · exact ⟨_, _, _, rfl⟩
  · exact ⟨_, _, _, rfl⟩

/-- A command stands behind the others under the next number (R377, R434). -/
theorem commandEnter_state (s : State) (c : Cmd) : commandEnter s c = { s with cmds := s.cmds ++ [c], nextId := s.nextId + 1 } := rfl

/-- An untaken outcome issues with L = 1 and sends null tokens (R221). -/
theorem finishVerdict_untaken (s : State) (code : Nat) (f : Firing) (n : Node) :
    finishVerdict s code f n .untaken =
      pushOutcome (storeMark (charge s f.bh f.pe 0 1) code f n) f n (outEmits code n .null 0) (operandDrops n f) := rfl

/-- An error outcome sends the first error operand's payload (R222). -/
theorem finishVerdict_error (s : State) (code : Nat) (f : Firing) (n : Node) (v : Word) :
    finishVerdict s code f n (.error v) =
      pushOutcome (storeMark (charge s f.bh f.pe 0 1) code f n) f n (outError code n v).1 (operandDrops n f ++ (outError code n v).2) := rfl

end Sys2Proof.Machine
end

