-- ==== Sys2Proof/Laws/Ecc.lean ====
section
/-! SUPPORT. What the device meets where no error touches memory: nothing, so that an access there changes what it writes and the count of held
slots alone (R128, R129, R133). -/

namespace Sys2Proof.Machine

/-- Where no error is listed, every run is clean. -/
theorem clean_fresh (s : State) (he : s.ecc = []) (hm : s.bmeta = []) (pa n : Nat) : cleanAt s pa n ∧ cleanBlocks s pa n := by
  have e (cw : Nat) : eccOf s cw = .good := by simp [eccOf, he, sget]
  have c (cw : Nat) : cwLost s cw = false := by simp [cwLost, e]
  have b (blk : Nat) : blockLost s blk = false := by
    simp only [blockLost, blockMeta, hm, sget, metaDecoded, c]; decide
  exact ⟨fun i _ => ⟨e _, b _⟩, fun blk _ _ => ⟨b _, fun cw _ => e cw⟩⟩

/-- No byte of a clean run is withheld (R130, R150). -/
theorem lostBytes_clean (s : State) (pa n : Nat) (h : cleanAt s pa n) : lostBytes s pa n = [] := by
  refine List.filter_eq_nil_iff.mpr fun i hi => ?_
  obtain ⟨e, b⟩ := h i (List.mem_range.mp hi)
  simp [readable, cwLost, e, b]

/-- A codeword without an error is read as it is (R128). -/
theorem meetCw_good (b vf : Nat) (known : Bool) (s : State) (cw : Nat) (h : eccOf s cw = .good) : meetCw b vf known s cw = s := by
  simp [meetCw, h]

theorem touchedSectors_lt (pa n : Nat) : ∀ k ∈ touchedSectors pa n, k < 8 := by
  intro k hk
  unfold touchedSectors at hk
  split at hk
  · cases hk
  · obtain ⟨i, -, rfl⟩ := List.mem_map.mp hk
    omega

theorem readSectors_lt (s : State) (blk : Nat) (touched : List Nat) (h : ∀ k ∈ touched, k < 8) : ∀ k ∈ readSectors s blk touched, k < 8 := by
  intro k hk
  unfold readSectors readSectorsIf at hk
  dsimp only at hk
  split_ifs at hk
  all_goals first
    | exact h k hk
    | exact (List.mem_cons.mp hk).elim (fun e => by omega) (fun e => h k e)
    | (simp [metaSectors] at hk; first | done | omega)

/-- The sectors of a clean block are read as they are. -/
theorem meetSectors_clean (s : State) (vf : Nat) (known : Bool) (blk : Nat) (secs : List Nat) (hb : blockLost s blk = false)
    (hc : ∀ cw, cw / 64 = blk → eccOf s cw = .good) (hs : ∀ k ∈ secs, k < 8) : meetSectors s vf known blk secs = s := by
  have fold (b : Nat) (cws : List Nat) (h : ∀ cw ∈ cws, cw / 64 = blk) : cws.foldl (meetCw b vf known) s = s := by
    induction cws with
    | nil => rfl
    | cons c cs ih =>
      rw [List.foldl_cons, meetCw_good _ _ _ _ _ (hc c (h c (by simp)))]
      exact ih fun cw hcw => h cw (by simp [hcw])
  unfold meetSectors
  simp only [hb, Bool.false_eq_true, if_false]
  refine fold _ _ fun cw hcw => ?_
  obtain ⟨l, hl, hcw⟩ := List.mem_flatten.mp hcw
  obtain ⟨k, hk, rfl⟩ := List.mem_map.mp hl
  obtain ⟨i, hi, rfl⟩ := List.mem_map.mp hcw
  have := hs k hk
  have := List.mem_range.mp hi
  omega

/-- A read within a clean block finds nothing to count (R142). -/
theorem meetRead_clean (s : State) (vf : Nat) (known : Bool) (pa n : Nat) (hb : blockLost s (pa / 2048) = false)
    (hc : ∀ cw, cw / 64 = pa / 2048 → eccOf s cw = .good) : meetRead s vf known pa n = s :=
  meetSectors_clean s vf known _ _ hb hc (readSectors_lt s _ _ (touchedSectors_lt pa n))

/-- A read of the device's own from clean blocks changes nothing but WSTAT (R133). -/
theorem ownMeet_clean (s : State) (vf : Nat) (known : Bool) (pa n : Nat) (h : cleanBlocks s pa n) : ∃ r, ownMeet s vf known pa n = { s with regs := r } := by
  have pulse (t : State) (b k : Nat) : ∃ r, ownMeet.ownPulse t b k = { t with regs := r } := by
    unfold ownMeet.ownPulse
    split
    · exact ⟨_, rfl⟩
    · exact ⟨t.regs, rfl⟩
  have fold (l : List (Nat × Nat)) (hl : ∀ x ∈ l, pa / 2048 ≤ x.1 / 2048 ∧ x.1 / 2048 ≤ (pa + n - 1) / 2048) (r : SMap Word) :
      ∃ r', l.foldl (fun t x => ownMeet.ownPulse (meetRead t vf known x.1 x.2) (x.1 / 2 ^ 36) (accessSectors t false false x.1 x.2).length)
        { s with regs := r } = { s with regs := r' } := by
    induction l generalizing r with
    | nil => exact ⟨r, rfl⟩
    | cons x l ih =>
      obtain ⟨lo, hi⟩ := hl x (by simp)
      obtain ⟨b, c⟩ := h _ lo hi
      rw [List.foldl_cons, meetRead_clean { s with regs := r } vf known x.1 x.2 b c]
      obtain ⟨r1, e⟩ := pulse { s with regs := r } (x.1 / 2 ^ 36) (accessSectors { s with regs := r } false false x.1 x.2).length
      rw [e]
      exact ih (fun y hy => hl y (by simp [hy])) r1
  refine fold _ (fun x hx => ?_) s.regs
  unfold blockSpans at hx
  split at hx
  · cases hx
  · obtain ⟨i, hi, rfl⟩ := List.mem_map.mp hx
    have := List.mem_range.mp hi
    simp only
    omega

/-! Where no error touches memory at all, the device's own accesses and events change what they write and WSTAT alone. -/

theorem cleanMemory_congr (s t : State) (he : t.ecc = s.ecc) (hm : t.bmeta = s.bmeta) (h : cleanMemory s) : cleanMemory t := by
  unfold cleanMemory eccOf blockMeta at *
  rwa [he, hm]

theorem cleanMemory_fresh (s : State) (he : s.ecc = []) (hm : s.bmeta = []) : cleanMemory s := by
  refine ⟨fun cw => by simp [eccOf, he, sget], fun blk => ?_⟩
  simp only [blockMeta, hm, sget]; decide

theorem cleanMemory_lost (s : State) (h : cleanMemory s) (blk : Nat) : blockLost s blk = false := by
  have c (cw : Nat) : cwLost s cw = false := by simp [cwLost, h.1 cw]
  simp only [blockLost, c, h.2 blk]
  simp [List.all_eq, List.any_eq]
  exact ⟨0, by decide⟩

theorem SameRegs.refl (s : State) : SameRegs s s := fun _ _ _ _ => rfl

theorem SameRegs.trans {s t u : State} (h : SameRegs s t) (g : SameRegs t u) : SameRegs s u := fun b off hb ho => (g b off hb ho).trans (h b off hb ho)

/-- t is s after accesses of the device's own, in memory that stays clean. -/
def Quiet (s t : State) : Prop := (∃ m b e r, t = { s with mem := m, bmeta := b, ecc := e, regs := r }) ∧ SameRegs s t ∧ cleanMemory t

theorem Quiet.refl (s : State) (h : cleanMemory s) : Quiet s s := ⟨⟨_, _, _, _, rfl⟩, SameRegs.refl s, h⟩

theorem Quiet.trans {s t u : State} (h : Quiet s t) (g : Quiet t u) : Quiet s u := by
  obtain ⟨⟨_, _, _, _, rfl⟩, hr, _⟩ := h
  obtain ⟨⟨_, _, _, _, rfl⟩, gr, gc⟩ := g
  exact ⟨⟨_, _, _, _, rfl⟩, hr.trans gr, gc⟩

theorem regKey_ne (b c off k : Nat) (ho : off < 16777216) (hk : k < 16777216) (h : k ≠ off) : regKey c k ≠ regKey b off := by
  have ne : c * 16777216 + k ≠ b * 16777216 + off := by omega
  exact ne

/-- A write of a WSTAT. -/
theorem wstatPut_quiet (s : State) (b off : Nat) (v : Word) (ho : off < 16777216) (hw : ∀ k : Nat, k ≠ 0x11000 → k ≠ off) (h : cleanMemory s) :
    Quiet s (regPut s b off v) :=
  ⟨⟨s.mem, s.bmeta, s.ecc, _, by unfold regPut; rfl⟩, fun c k hb hk => regGet_regPut_other s b off c k v (regKey_ne b c off k ho hk (hw k hb)), cleanMemory_congr s _ (regPut_ecc s b off v) (regPut_bmeta s b off v) h⟩

theorem ownPulse_quiet (s : State) (b k : Nat) (h : cleanMemory s) : Quiet s (ownMeet.ownPulse s b k) := by
  unfold ownMeet.ownPulse
  split
  · exact wstatPut_quiet s b 0x11000 _ (by decide) (fun _ g => g) h
  · exact Quiet.refl s h

theorem meetRead_cleanMemory (s : State) (vf : Nat) (known : Bool) (pa n : Nat) (h : cleanMemory s) : meetRead s vf known pa n = s :=
  meetRead_clean s vf known pa n (cleanMemory_lost s h _) fun cw _ => h.1 cw

theorem ownMeet_quiet (s : State) (vf : Nat) (known : Bool) (pa n : Nat) (h : cleanMemory s) : Quiet s (ownMeet s vf known pa n) := by
  unfold ownMeet
  generalize blockSpans pa n = l
  suffices H : ∀ t, Quiet s t → Quiet s (l.foldl (fun t x => ownMeet.ownPulse (meetRead t vf known x.1 x.2) (x.1 / 2 ^ 36)
      (accessSectors t false false x.1 x.2).length) t) from H s (Quiet.refl s h)
  induction l with
  | nil => exact fun t g => g
  | cons x l ih =>
    intro t g
    rw [List.foldl_cons, meetRead_cleanMemory t vf known x.1 x.2 g.2.2]
    exact ih _ (g.trans (ownPulse_quiet t _ _ g.2.2))

theorem meetWrite_cleanMemory (s : State) (vf : Nat) (known comp : Bool) (pa : Nat) (bs : List Byte) (mask : List Bool) (h : cleanMemory s) :
    meetWrite s vf known comp pa bs mask = s := by
  have fold (b : Nat) (cws : List Nat) : cws.foldl (meetCw b vf known) s = s := by
    induction cws with
    | nil => rfl
    | cons c cs ih => rw [List.foldl_cons, meetCw_good _ _ _ _ _ (h.1 c)]; exact ih
  unfold meetWrite
  dsimp only
  split
  · rfl
  · split
    · exact fold _ _
    · exact meetSectors_clean s vf known _ _ (cleanMemory_lost s h _) (fun cw _ => h.1 cw) (readSectors_lt s _ _ fun k hk => List.mem_range.mp hk)

theorem eccPut_good_clean (l : List Nat) (s : State) (h : cleanMemory s) : cleanMemory (l.foldl (fun t cw => eccPut t cw .good) s) := by
  induction l generalizing s with
  | nil => exact h
  | cons c l ih =>
    refine ih _ ⟨fun cw => ?_, h.2⟩
    have := h.1 cw
    simp only [eccOf, eccPut, sget_sput] at *
    split <;> simp_all

/-- A write through COMP = 0 to clean memory leaves it clean (R145, R151). -/
theorem blockWrite_quiet (s : State) (pa : Nat) (bs : List Byte) (h : cleanMemory s) : Quiet s (blockWrite s false pa bs []).1 := by
  obtain ⟨m, b, e, hs⟩ := blockWrite_only s false pa bs []
  refine ⟨⟨m, b, e, s.regs, hs⟩, by rw [hs]; exact fun _ _ _ _ => rfl, ?_⟩
  have whole (t : State) (blk : Nat) (he : t.ecc = s.ecc) :
      cleanMemory { eccClear t (blk * 64) 64 with bmeta := sput mdZero s.bmeta blk mdRaw } := by
    refine ⟨fun cw => ?_, fun k => ?_⟩
    · have := h.1 cw
      simp only [eccOf, eccClear, sget_sclear, he] at *
      split <;> simp_all
    · have := h.2 k
      simp only [blockMeta, sget_sput] at *
      split
      · decide
      · exact this
  unfold blockWrite
  dsimp only
  split
  · exact whole _ _ rfl
  · split
    · exact h
    · split
      · exact eccPut_good_clean _ _ (cleanMemory_congr s _ rfl rfl h)
      · exact whole _ _ rfl

theorem ownWrite_quiet (s : State) (pa : Nat) (bs : List Byte) (h : cleanMemory s) : Quiet s (ownWrite s pa bs) := by
  unfold ownWrite ownTry
  generalize blockSpans pa bs.length = l
  suffices H : ∀ a : State × Bool, Quiet s a.1 → Quiet s (l.foldl (fun (a : State × Bool) (x : Nat × Nat) =>
      let part := slice bs (x.1 - pa) x.2
      let t := ownMeet.ownPulse (meetWrite a.1 0 false false x.1 part []) (x.1 / 2 ^ 36) (accessSectors a.1 true false x.1 x.2).length
      let w := blockWrite t false x.1 part []
      (w.1, a.2 && w.2)) a).1 from H (s, true) (Quiet.refl s h)
  induction l with
  | nil => exact fun a g => g
  | cons x l ih =>
    intro a g
    rw [List.foldl_cons]
    refine ih _ ?_
    dsimp only
    rw [meetWrite_cleanMemory a.1 0 false false x.1 _ [] g.2.2]
    have p := ownPulse_quiet a.1 (x.1 / 2 ^ 36) (accessSectors a.1 true false x.1 x.2).length g.2.2
    exact g.trans (p.trans (blockWrite_quiet _ _ _ p.2.2))

theorem rcbMeet_quiet (k : Nat) (s : State) (addr : Nat) (h : cleanMemory s) : Quiet s (rcbMeet k s addr) := by
  induction k generalizing s addr with
  | zero => exact Quiet.refl s h
  | succ k ih =>
    unfold rcbMeet
    split
    · exact Quiet.refl s h
    · have g := ownMeet_quiet s 0 false addr 128 h
      exact g.trans (ih _ _ g.2.2)

/-- In clean memory an event takes one number of its source, stands in its queue or is counted lost there, and changes nothing else but WSTAT (R421, R422). -/
theorem postEvent_quiet (s : State) (src b : Nat) (vf lid : Option Nat) (code payload : Nat) (h : cleanMemory s) :
    Quiet (evSeqUp s src) (postEvent s src b vf lid code payload) := by
  have h1 : cleanMemory (evSeqUp s src) := cleanMemory_congr s _ rfl rfl h
  unfold postEvent queueEvent
  exact queueWith_keeps (Quiet (evSeqUp s src)) _ _ (fun t _ _ g => g.trans (ownMeet_quiet t 0 false _ _ g.2.2))
    (fun t _ _ g => g.trans (ownWrite_quiet t _ _ g.2.2)) _ _ _ (rcbMeet_quiet 4 _ _ h1)

end Sys2Proof.Machine
end

