-- ==== Sys2Proof/Laws/PerInstr.lean ====
section
/-! SUPPORT. One lemma per instruction of the opcode table: a node instruction is the one that its opcode's row of the opcode map makes from its fields (R67, R83),
and a machine step has no record. -/

namespace Sys2Proof.Laws

open Sys2Proof.Machine

/-- A node instruction's opcode fits its nine bits and its row of the opcode map makes the instruction from its fields; every other row has no record. -/
def Coding.Statement (i : Instr) : Prop :=
  match instrNode i with
  | some (code, n) => code < 2 ^ 9 ∧ (opInfo code).map (fun o => o.make n) = some i
  | none => encode i = none ∧ nodeWf i = true


theorem Coding.nop (n : Node) : Coding.Statement (.nop n) := ⟨by decide, rfl⟩
theorem Coding.mov (n : Node) : Coding.Statement (.mov n) := ⟨by decide, rfl⟩
theorem Coding.const (n : Node) : Coding.Statement (.const n) := ⟨by decide, rfl⟩
theorem Coding.sink (n : Node) : Coding.Statement (.sink n) := ⟨by decide, rfl⟩
theorem Coding.switch (n : Node) : Coding.Statement (.switch n) := ⟨by decide, rfl⟩
theorem Coding.merge (n : Node) : Coding.Statement (.merge n) := ⟨by decide, rfl⟩
theorem Coding.gate (n : Node) : Coding.Statement (.gate n) := ⟨by decide, rfl⟩
theorem Coding.nullify (n : Node) : Coding.Statement (.nullify n) := ⟨by decide, rfl⟩
theorem Coding.isnull (n : Node) : Coding.Statement (.isnull n) := ⟨by decide, rfl⟩
theorem Coding.iserr (n : Node) : Coding.Statement (.iserr n) := ⟨by decide, rfl⟩
theorem Coding.errcode (n : Node) : Coding.Statement (.errcode n) := ⟨by decide, rfl⟩
theorem Coding.mkerr (n : Node) : Coding.Statement (.mkerr n) := ⟨by decide, rfl⟩
theorem Coding.frameof (n : Node) : Coding.Statement (.frameof n) := ⟨by decide, rfl⟩
theorem Coding.falloc (n : Node) : Coding.Statement (.falloc n) := ⟨by decide, rfl⟩
theorem Coding.ffree (n : Node) : Coding.Statement (.ffree n) := ⟨by decide, rfl⟩
theorem Coding.flink (n : Node) : Coding.Statement (.flink n) := ⟨by decide, rfl⟩
theorem Coding.send (n : Node) : Coding.Statement (.send n) := ⟨by decide, rfl⟩
theorem Coding.count (n : Node) : Coding.Statement (.count n) := ⟨by decide, rfl⟩
theorem Coding.relay (n : Node) : Coding.Statement (.relay n) := ⟨by decide, rfl⟩
theorem Coding.halt (n : Node) : Coding.Statement (.halt n) := ⟨by decide, rfl⟩
theorem Coding.add (n : Node) : Coding.Statement (.add n) := ⟨by decide, rfl⟩
theorem Coding.sub (n : Node) : Coding.Statement (.sub n) := ⟨by decide, rfl⟩
theorem Coding.neg (n : Node) : Coding.Statement (.neg n) := ⟨by decide, rfl⟩
theorem Coding.mul (n : Node) : Coding.Statement (.mul n) := ⟨by decide, rfl⟩
theorem Coding.mulh (n : Node) : Coding.Statement (.mulh n) := ⟨by decide, rfl⟩
theorem Coding.div (n : Node) : Coding.Statement (.div n) := ⟨by decide, rfl⟩
theorem Coding.rem (n : Node) : Coding.Statement (.rem n) := ⟨by decide, rfl⟩
theorem Coding.min (n : Node) : Coding.Statement (.min n) := ⟨by decide, rfl⟩
theorem Coding.max (n : Node) : Coding.Statement (.max n) := ⟨by decide, rfl⟩
theorem Coding.abs (n : Node) : Coding.Statement (.abs n) := ⟨by decide, rfl⟩
theorem Coding.and (n : Node) : Coding.Statement (.and n) := ⟨by decide, rfl⟩
theorem Coding.or (n : Node) : Coding.Statement (.or n) := ⟨by decide, rfl⟩
theorem Coding.xor (n : Node) : Coding.Statement (.xor n) := ⟨by decide, rfl⟩
theorem Coding.not (n : Node) : Coding.Statement (.not n) := ⟨by decide, rfl⟩
theorem Coding.shl (n : Node) : Coding.Statement (.shl n) := ⟨by decide, rfl⟩
theorem Coding.shr (n : Node) : Coding.Statement (.shr n) := ⟨by decide, rfl⟩
theorem Coding.sar (n : Node) : Coding.Statement (.sar n) := ⟨by decide, rfl⟩
theorem Coding.rotl (n : Node) : Coding.Statement (.rotl n) := ⟨by decide, rfl⟩
theorem Coding.clz (n : Node) : Coding.Statement (.clz n) := ⟨by decide, rfl⟩
theorem Coding.ctz (n : Node) : Coding.Statement (.ctz n) := ⟨by decide, rfl⟩
theorem Coding.popc (n : Node) : Coding.Statement (.popc n) := ⟨by decide, rfl⟩
theorem Coding.cmp (n : Node) : Coding.Statement (.cmp n) := ⟨by decide, rfl⟩
theorem Coding.sel (n : Node) : Coding.Statement (.sel n) := ⟨by decide, rfl⟩
theorem Coding.addsat (n : Node) : Coding.Statement (.addsat n) := ⟨by decide, rfl⟩
theorem Coding.subsat (n : Node) : Coding.Statement (.subsat n) := ⟨by decide, rfl⟩
theorem Coding.ext (n : Node) : Coding.Statement (.ext n) := ⟨by decide, rfl⟩
theorem Coding.ins (n : Node) : Coding.Statement (.ins n) := ⟨by decide, rfl⟩
theorem Coding.cvt (n : Node) : Coding.Statement (.cvt n) := ⟨by decide, rfl⟩
theorem Coding.idx (n : Node) : Coding.Statement (.idx n) := ⟨by decide, rfl⟩
theorem Coding.bnd (n : Node) : Coding.Statement (.bnd n) := ⟨by decide, rfl⟩
theorem Coding.fadd (n : Node) : Coding.Statement (.fadd n) := ⟨by decide, rfl⟩
theorem Coding.fsub (n : Node) : Coding.Statement (.fsub n) := ⟨by decide, rfl⟩
theorem Coding.fmul (n : Node) : Coding.Statement (.fmul n) := ⟨by decide, rfl⟩
theorem Coding.ffma (n : Node) : Coding.Statement (.ffma n) := ⟨by decide, rfl⟩
theorem Coding.fmin (n : Node) : Coding.Statement (.fmin n) := ⟨by decide, rfl⟩
theorem Coding.fmax (n : Node) : Coding.Statement (.fmax n) := ⟨by decide, rfl⟩
theorem Coding.fabs (n : Node) : Coding.Statement (.fabs n) := ⟨by decide, rfl⟩
theorem Coding.fneg (n : Node) : Coding.Statement (.fneg n) := ⟨by decide, rfl⟩
theorem Coding.fcmp (n : Node) : Coding.Statement (.fcmp n) := ⟨by decide, rfl⟩
theorem Coding.fcvt (n : Node) : Coding.Statement (.fcvt n) := ⟨by decide, rfl⟩
theorem Coding.frnd (n : Node) : Coding.Statement (.frnd n) := ⟨by decide, rfl⟩
theorem Coding.fclass (n : Node) : Coding.Statement (.fclass n) := ⟨by decide, rfl⟩
theorem Coding.fscl (n : Node) : Coding.Statement (.fscl n) := ⟨by decide, rfl⟩
theorem Coding.frcp (n : Node) : Coding.Statement (.frcp n) := ⟨by decide, rfl⟩
theorem Coding.frsq (n : Node) : Coding.Statement (.frsq n) := ⟨by decide, rfl⟩
theorem Coding.fsqrt (n : Node) : Coding.Statement (.fsqrt n) := ⟨by decide, rfl⟩
theorem Coding.fdiv (n : Node) : Coding.Statement (.fdiv n) := ⟨by decide, rfl⟩
theorem Coding.fexp2 (n : Node) : Coding.Statement (.fexp2 n) := ⟨by decide, rfl⟩
theorem Coding.flog2 (n : Node) : Coding.Statement (.flog2 n) := ⟨by decide, rfl⟩
theorem Coding.ftanh (n : Node) : Coding.Statement (.ftanh n) := ⟨by decide, rfl⟩
theorem Coding.fsigm (n : Node) : Coding.Statement (.fsigm n) := ⟨by decide, rfl⟩
theorem Coding.tadd (n : Node) : Coding.Statement (.tadd n) := ⟨by decide, rfl⟩
theorem Coding.tsub (n : Node) : Coding.Statement (.tsub n) := ⟨by decide, rfl⟩
theorem Coding.tmul (n : Node) : Coding.Statement (.tmul n) := ⟨by decide, rfl⟩
theorem Coding.tfma (n : Node) : Coding.Statement (.tfma n) := ⟨by decide, rfl⟩
theorem Coding.tmin (n : Node) : Coding.Statement (.tmin n) := ⟨by decide, rfl⟩
theorem Coding.tmax (n : Node) : Coding.Statement (.tmax n) := ⟨by decide, rfl⟩
theorem Coding.tabs (n : Node) : Coding.Statement (.tabs n) := ⟨by decide, rfl⟩
theorem Coding.tneg (n : Node) : Coding.Statement (.tneg n) := ⟨by decide, rfl⟩
theorem Coding.tscl (n : Node) : Coding.Statement (.tscl n) := ⟨by decide, rfl⟩
theorem Coding.tbias (n : Node) : Coding.Statement (.tbias n) := ⟨by decide, rfl⟩
theorem Coding.tclamp (n : Node) : Coding.Statement (.tclamp n) := ⟨by decide, rfl⟩
theorem Coding.tact (n : Node) : Coding.Statement (.tact n) := ⟨by decide, rfl⟩
theorem Coding.tred (n : Node) : Coding.Statement (.tred n) := ⟨by decide, rfl⟩
theorem Coding.ttr (n : Node) : Coding.Statement (.ttr n) := ⟨by decide, rfl⟩
theorem Coding.tbc (n : Node) : Coding.Statement (.tbc n) := ⟨by decide, rfl⟩
theorem Coding.tsel (n : Node) : Coding.Statement (.tsel n) := ⟨by decide, rfl⟩
theorem Coding.tcmp (n : Node) : Coding.Statement (.tcmp n) := ⟨by decide, rfl⟩
theorem Coding.tcpy (n : Node) : Coding.Statement (.tcpy n) := ⟨by decide, rfl⟩
theorem Coding.tview (n : Node) : Coding.Statement (.tview n) := ⟨by decide, rfl⟩
theorem Coding.tcond (n : Node) : Coding.Statement (.tcond n) := ⟨by decide, rfl⟩
theorem Coding.tcvt (n : Node) : Coding.Statement (.tcvt n) := ⟨by decide, rfl⟩
theorem Coding.trng (n : Node) : Coding.Statement (.trng n) := ⟨by decide, rfl⟩
theorem Coding.tfill (n : Node) : Coding.Statement (.tfill n) := ⟨by decide, rfl⟩
theorem Coding.tiota (n : Node) : Coding.Statement (.tiota n) := ⟨by decide, rfl⟩
theorem Coding.accNew (n : Node) : Coding.Statement (.accNew n) := ⟨by decide, rfl⟩
theorem Coding.accZero (n : Node) : Coding.Statement (.accZero n) := ⟨by decide, rfl⟩
theorem Coding.accFree (n : Node) : Coding.Statement (.accFree n) := ⟨by decide, rfl⟩
theorem Coding.accGet (n : Node) : Coding.Statement (.accGet n) := ⟨by decide, rfl⟩
theorem Coding.mma (n : Node) : Coding.Statement (.mma n) := ⟨by decide, rfl⟩
theorem Coding.mmaPair (n : Node) : Coding.Statement (.mmaPair n) := ⟨by decide, rfl⟩
theorem Coding.smma (n : Node) : Coding.Statement (.smma n) := ⟨by decide, rfl⟩
theorem Coding.accDrain (n : Node) : Coding.Statement (.accDrain n) := ⟨by decide, rfl⟩
theorem Coding.accRl (n : Node) : Coding.Statement (.accRl n) := ⟨by decide, rfl⟩
theorem Coding.rlIns (n : Node) : Coding.Statement (.rlIns n) := ⟨by decide, rfl⟩
theorem Coding.rlMerge (n : Node) : Coding.Statement (.rlMerge n) := ⟨by decide, rfl⟩
theorem Coding.rlOut (n : Node) : Coding.Statement (.rlOut n) := ⟨by decide, rfl⟩
theorem Coding.rlThr (n : Node) : Coding.Statement (.rlThr n) := ⟨by decide, rfl⟩
theorem Coding.ld (n : Node) : Coding.Statement (.ld n) := ⟨by decide, rfl⟩
theorem Coding.st (n : Node) : Coding.Statement (.st n) := ⟨by decide, rfl⟩
theorem Coding.ldt (n : Node) : Coding.Statement (.ldt n) := ⟨by decide, rfl⟩
theorem Coding.stt (n : Node) : Coding.Statement (.stt n) := ⟨by decide, rfl⟩
theorem Coding.tld (n : Node) : Coding.Statement (.tld n) := ⟨by decide, rfl⟩
theorem Coding.tst (n : Node) : Coding.Statement (.tst n) := ⟨by decide, rfl⟩
theorem Coding.talloc (n : Node) : Coding.Statement (.talloc n) := ⟨by decide, rfl⟩
theorem Coding.tref (n : Node) : Coding.Statement (.tref n) := ⟨by decide, rfl⟩
theorem Coding.trel (n : Node) : Coding.Statement (.trel n) := ⟨by decide, rfl⟩
theorem Coding.pumpGet (n : Node) : Coding.Statement (.pumpGet n) := ⟨by decide, rfl⟩
theorem Coding.pumpPut (n : Node) : Coding.Statement (.pumpPut n) := ⟨by decide, rfl⟩
theorem Coding.pumpXfer (n : Node) : Coding.Statement (.pumpXfer n) := ⟨by decide, rfl⟩
theorem Coding.pumpMcast (n : Node) : Coding.Statement (.pumpMcast n) := ⟨by decide, rfl⟩
theorem Coding.gather (n : Node) : Coding.Statement (.gather n) := ⟨by decide, rfl⟩
theorem Coding.scatter (n : Node) : Coding.Statement (.scatter n) := ⟨by decide, rfl⟩
theorem Coding.stream (n : Node) : Coding.Statement (.stream n) := ⟨by decide, rfl⟩
theorem Coding.atomAdd (n : Node) : Coding.Statement (.atomAdd n) := ⟨by decide, rfl⟩
theorem Coding.atomFadd (n : Node) : Coding.Statement (.atomFadd n) := ⟨by decide, rfl⟩
theorem Coding.atomMin (n : Node) : Coding.Statement (.atomMin n) := ⟨by decide, rfl⟩
theorem Coding.atomMax (n : Node) : Coding.Statement (.atomMax n) := ⟨by decide, rfl⟩
theorem Coding.atomAnd (n : Node) : Coding.Statement (.atomAnd n) := ⟨by decide, rfl⟩
theorem Coding.atomOr (n : Node) : Coding.Statement (.atomOr n) := ⟨by decide, rfl⟩
theorem Coding.atomXor (n : Node) : Coding.Statement (.atomXor n) := ⟨by decide, rfl⟩
theorem Coding.atomXchg (n : Node) : Coding.Statement (.atomXchg n) := ⟨by decide, rfl⟩
theorem Coding.atomCas (n : Node) : Coding.Statement (.atomCas n) := ⟨by decide, rfl⟩
theorem Coding.redAdd (n : Node) : Coding.Statement (.redAdd n) := ⟨by decide, rfl⟩
theorem Coding.redFadd (n : Node) : Coding.Statement (.redFadd n) := ⟨by decide, rfl⟩
theorem Coding.redMin (n : Node) : Coding.Statement (.redMin n) := ⟨by decide, rfl⟩
theorem Coding.redMax (n : Node) : Coding.Statement (.redMax n) := ⟨by decide, rfl⟩
theorem Coding.redAnd (n : Node) : Coding.Statement (.redAnd n) := ⟨by decide, rfl⟩
theorem Coding.redOr (n : Node) : Coding.Statement (.redOr n) := ⟨by decide, rfl⟩
theorem Coding.redXor (n : Node) : Coding.Statement (.redXor n) := ⟨by decide, rfl⟩
theorem Coding.phase (n : Node) : Coding.Statement (.phase n) := ⟨by decide, rfl⟩
theorem Coding.fence (n : Node) : Coding.Statement (.fence n) := ⟨by decide, rfl⟩
theorem Coding.afence (n : Node) : Coding.Statement (.afence n) := ⟨by decide, rfl⟩
theorem Coding.spawn (n : Node) : Coding.Statement (.spawn n) := ⟨by decide, rfl⟩
theorem Coding.join (n : Node) : Coding.Statement (.join n) := ⟨by decide, rfl⟩
theorem Coding.enq (n : Node) : Coding.Statement (.enq n) := ⟨by decide, rfl⟩
theorem Coding.deq (n : Node) : Coding.Statement (.deq n) := ⟨by decide, rfl⟩
theorem Coding.steal (n : Node) : Coding.Statement (.steal n) := ⟨by decide, rfl⟩
theorem Coding.qlen (n : Node) : Coding.Statement (.qlen n) := ⟨by decide, rfl⟩
theorem Coding.barArrive (n : Node) : Coding.Statement (.barArrive n) := ⟨by decide, rfl⟩
theorem Coding.barComb (n : Node) : Coding.Statement (.barComb n) := ⟨by decide, rfl⟩
theorem Coding.rcntAdd (n : Node) : Coding.Statement (.rcntAdd n) := ⟨by decide, rfl⟩
theorem Coding.rcntSnap (n : Node) : Coding.Statement (.rcntSnap n) := ⟨by decide, rfl⟩
theorem Coding.yield (n : Node) : Coding.Statement (.yield n) := ⟨by decide, rfl⟩
theorem Coding.trap (n : Node) : Coding.Statement (.trap n) := ⟨by decide, rfl⟩
theorem Coding.brk (n : Node) : Coding.Statement (.brk n) := ⟨by decide, rfl⟩
theorem Coding.evt (n : Node) : Coding.Statement (.evt n) := ⟨by decide, rfl⟩
theorem Coding.sysrd (n : Node) : Coding.Statement (.sysrd n) := ⟨by decide, rfl⟩
theorem Coding.syswr (n : Node) : Coding.Statement (.syswr n) := ⟨by decide, rfl⟩
theorem Coding.nrgRd (n : Node) : Coding.Statement (.nrgRd n) := ⟨by decide, rfl⟩
theorem Coding.seed (n : Node) : Coding.Statement (.seed n) := ⟨by decide, rfl⟩
theorem Coding.cfgLd (n : Node) : Coding.Statement (.cfgLd n) := ⟨by decide, rfl⟩
theorem Coding.cfgDrop (n : Node) : Coding.Statement (.cfgDrop n) := ⟨by decide, rfl⟩
theorem Coding.winOpen (n : Node) : Coding.Statement (.winOpen n) := ⟨by decide, rfl⟩
theorem Coding.winClose (n : Node) : Coding.Statement (.winClose n) := ⟨by decide, rfl⟩
theorem Coding.tokenArrival (k : Nat) : Coding.Statement (.tokenArrival k) := ⟨rfl, rfl⟩
theorem Coding.coordinateToken (k : Nat) : Coding.Statement (.coordinateToken k) := ⟨rfl, rfl⟩
theorem Coding.resultEmit (b pe k : Nat) : Coding.Statement (.resultEmit b pe k) := ⟨rfl, rfl⟩
theorem Coding.readyAging (b pe k : Nat) : Coding.Statement (.readyAging b pe k) := ⟨rfl, rfl⟩
theorem Coding.windowWrite (req piece : Nat) : Coding.Statement (.windowWrite req piece) := ⟨rfl, rfl⟩
theorem Coding.windowAccessPerform (req piece : Nat) : Coding.Statement (.windowAccessPerform req piece) := ⟨rfl, rfl⟩
theorem Coding.wellTranslate (req : Nat) : Coding.Statement (.wellTranslate req) := ⟨rfl, rfl⟩
theorem Coding.pageWalkComplete (b vf vpage : Nat) : Coding.Statement (.pageWalkComplete b vf vpage) := ⟨rfl, rfl⟩
theorem Coding.parkRefusedRetry (req : Nat) : Coding.Statement (.parkRefusedRetry req) := ⟨rfl, rfl⟩
theorem Coding.fqctlReplay (b parkid : Nat) : Coding.Statement (.fqctlReplay b parkid) := ⟨rfl, rfl⟩
theorem Coding.fqctlDrop (b parkid : Nat) : Coding.Statement (.fqctlDrop b parkid) := ⟨rfl, rfl⟩
theorem Coding.fqctlBadOp (b op parkid : Nat) : Coding.Statement (.fqctlBadOp b op parkid) := ⟨rfl, rfl⟩
theorem Coding.xbinvVf (b vf : Nat) : Coding.Statement (.xbinvVf b vf) := ⟨rfl, rfl⟩
theorem Coding.xbinvVa (b vf vpage : Nat) : Coding.Statement (.xbinvVa b vf vpage) := ⟨rfl, rfl⟩
theorem Coding.xbinvAll (b : Nat) : Coding.Statement (.xbinvAll b) := ⟨rfl, rfl⟩
theorem Coding.xbinvBad (b : Nat) : Coding.Statement (.xbinvBad b) := ⟨rfl, rfl⟩
theorem Coding.xbinvComplete (b : Nat) : Coding.Statement (.xbinvComplete b) := ⟨rfl, rfl⟩
theorem Coding.vfrootWrite (vf : Nat) (v : Word) : Coding.Statement (.vfrootWrite vf v) := ⟨rfl, rfl⟩
theorem Coding.sectorAdmit (req piece : Nat) : Coding.Statement (.sectorAdmit req piece) := ⟨rfl, rfl⟩
theorem Coding.sectorReturn (req piece : Nat) : Coding.Statement (.sectorReturn req piece) := ⟨rfl, rfl⟩
theorem Coding.fetchReply (b pe tag : Nat) : Coding.Statement (.fetchReply b pe tag) := ⟨rfl, rfl⟩
theorem Coding.inboundAccept (req piece : Nat) : Coding.Statement (.inboundAccept req piece) := ⟨rfl, rfl⟩
theorem Coding.edgeCrossing (req piece : Nat) : Coding.Statement (.edgeCrossing req piece) := ⟨rfl, rfl⟩
theorem Coding.sparseUpdateOp (b ch : Nat) : Coding.Statement (.sparseUpdateOp b ch) := ⟨rfl, rfl⟩
theorem Coding.joinCounterUpdate (b ch : Nat) : Coding.Statement (.joinCounterUpdate b ch) := ⟨rfl, rfl⟩
theorem Coding.eccWriteback (cw : Nat) : Coding.Statement (.eccWriteback cw) := ⟨rfl, rfl⟩
theorem Coding.scrubStep (b : Nat) : Coding.Statement (.scrubStep b) := ⟨rfl, rfl⟩
theorem Coding.phaseBoundary (cfg : Nat) : Coding.Statement (.phaseBoundary cfg) := ⟨rfl, rfl⟩
theorem Coding.cisternFull (b vf : Nat) : Coding.Statement (.cisternFull b vf) := ⟨rfl, rfl⟩
theorem Coding.blockInstall (b : Nat) (md : Byte) : Coding.Statement (.blockInstall b md) := ⟨rfl, rfl⟩
theorem Coding.blockMetaRead (b : Nat) : Coding.Statement (.blockMetaRead b) := ⟨rfl, rfl⟩
theorem Coding.bcctlBadOp (b : Nat) : Coding.Statement (.bcctlBadOp b) := ⟨rfl, rfl⟩
theorem Coding.engineCompletion (cmd : Nat) : Coding.Statement (.engineCompletion cmd) := ⟨rfl, rfl⟩
theorem Coding.streamElement (cmd : Nat) : Coding.Statement (.streamElement cmd) := ⟨rfl, rfl⟩
theorem Coding.mcastLagExpire (cmd : Nat) : Coding.Statement (.mcastLagExpire cmd) := ⟨rfl, rfl⟩
theorem Coding.pairMessage (b pe : Nat) : Coding.Statement (.pairMessage b pe) := ⟨rfl, rfl⟩
theorem Coding.pairLimitExpire (b pe k : Nat) : Coding.Statement (.pairLimitExpire b pe k) := ⟨rfl, rfl⟩
theorem Coding.barrierLimitExpire (b pe node fp : Nat) : Coding.Statement (.barrierLimitExpire b pe node fp) := ⟨rfl, rfl⟩
theorem Coding.rngGeneratorServe (b sl : Nat) : Coding.Statement (.rngGeneratorServe b sl) := ⟨rfl, rfl⟩
theorem Coding.starve (b vf : Nat) : Coding.Statement (.starve b vf) := ⟨rfl, rfl⟩
theorem Coding.placementRetry (cmd : Nat) : Coding.Statement (.placementRetry cmd) := ⟨rfl, rfl⟩
theorem Coding.launchTake (b q : Nat) : Coding.Statement (.launchTake b q) := ⟨rfl, rfl⟩
theorem Coding.launchStart (lid : Nat) : Coding.Statement (.launchStart lid) := ⟨rfl, rfl⟩
theorem Coding.launchQuiesce (lid : Nat) : Coding.Statement (.launchQuiesce lid) := ⟨rfl, rfl⟩
theorem Coding.launchEnd (lid : Nat) : Coding.Statement (.launchEnd lid) := ⟨rfl, rfl⟩
theorem Coding.queueControllerOp (cmd : Nat) : Coding.Statement (.queueControllerOp cmd) := ⟨rfl, rfl⟩
theorem Coding.taskAccept (task : Nat) : Coding.Statement (.taskAccept task) := ⟨rfl, rfl⟩
theorem Coding.dispatchDecision (b : Nat) : Coding.Statement (.dispatchDecision b) := ⟨rfl, rfl⟩
theorem Coding.taskComplete (task : Nat) : Coding.Statement (.taskComplete task) := ⟨rfl, rfl⟩
theorem Coding.hqrecCommit (b p : Nat) (v : Word) : Coding.Statement (.hqrecCommit b p v) := ⟨rfl, rfl⟩
theorem Coding.queueEnable (b q : Nat) (v : Word) : Coding.Statement (.queueEnable b q v) := ⟨rfl, rfl⟩
theorem Coding.qckeyWrite (b : Nat) (v : Word) : Coding.Statement (.qckeyWrite b v) := ⟨rfl, rfl⟩
theorem Coding.qcapRightsWrite (b q : Nat) (v : Word) : Coding.Statement (.qcapRightsWrite b q v) := ⟨rfl, rfl⟩
theorem Coding.quantumEnd (b sl : Nat) : Coding.Statement (.quantumEnd b sl) := ⟨rfl, rfl⟩
theorem Coding.contextSave (b sl : Nat) : Coding.Statement (.contextSave b sl) := ⟨rfl, rfl⟩
theorem Coding.contextRestore (b sl : Nat) (crcOk : Bool) : Coding.Statement (.contextRestore b sl crcOk) := ⟨rfl, rfl⟩
theorem Coding.quantWrite (b sl e : Nat) (v : Word) : Coding.Statement (.quantWrite b sl e v) := ⟨rfl, rfl⟩
theorem Coding.slotownWrite (b sl : Nat) (v : Word) : Coding.Statement (.slotownWrite b sl v) := ⟨rfl, rfl⟩
theorem Coding.slotLend (b sl vf : Nat) : Coding.Statement (.slotLend b sl vf) := ⟨rfl, rfl⟩
theorem Coding.slotReclaim (b sl : Nat) : Coding.Statement (.slotReclaim b sl) := ⟨rfl, rfl⟩
theorem Coding.vfscopeWrite (vf : Nat) (v : Word) : Coding.Statement (.vfscopeWrite vf v) := ⟨rfl, rfl⟩
theorem Coding.energyFold (b sl : Nat) : Coding.Statement (.energyFold b sl) := ⟨rfl, rfl⟩
theorem Coding.bhrstGo (b : Nat) (rail hold : Bool) : Coding.Statement (.bhrstGo b rail hold) := ⟨rfl, rfl⟩
theorem Coding.bhrstRelease (b : Nat) : Coding.Statement (.bhrstRelease b) := ⟨rfl, rfl⟩
theorem Coding.resetFenceDone (b : Nat) : Coding.Statement (.resetFenceDone b) := ⟨rfl, rfl⟩
theorem Coding.resetRelockDone (b : Nat) : Coding.Statement (.resetRelockDone b) := ⟨rfl, rfl⟩
theorem Coding.resetScrubDone (b : Nat) : Coding.Statement (.resetScrubDone b) := ⟨rfl, rfl⟩
theorem Coding.bhctlWrite (b : Nat) (v : Word) : Coding.Statement (.bhctlWrite b v) := ⟨rfl, rfl⟩
theorem Coding.bhgateWrite (b : Nat) (v : Word) : Coding.Statement (.bhgateWrite b v) := ⟨rfl, rfl⟩
theorem Coding.wintabWrite (b e word : Nat) (v : Word) : Coding.Statement (.wintabWrite b e word v) := ⟨rfl, rfl⟩
theorem Coding.bhclkWrite (b : Nat) (v : Word) : Coding.Statement (.bhclkWrite b v) := ⟨rfl, rfl⟩
theorem Coding.clockLock (b : Nat) : Coding.Statement (.clockLock b) := ⟨rfl, rfl⟩
theorem Coding.aptabWrite (b a : Nat) (v : Word) : Coding.Statement (.aptabWrite b a v) := ⟨rfl, rfl⟩
theorem Coding.frzctlRetry (b : Nat) (m : MasterId) (vf : Nat) : Coding.Statement (.frzctlRetry b m vf) := ⟨rfl, rfl⟩
theorem Coding.frzctlFail (b : Nat) (m : MasterId) (vf : Nat) : Coding.Statement (.frzctlFail b m vf) := ⟨rfl, rfl⟩
theorem Coding.frzctlFreeze (b : Nat) (m : MasterId) (vf : Nat) : Coding.Statement (.frzctlFreeze b m vf) := ⟨rfl, rfl⟩
theorem Coding.vfReset (b vf : Nat) : Coding.Statement (.vfReset b vf) := ⟨rfl, rfl⟩
theorem Coding.dbgvalWrite (b : Nat) (v : Word) : Coding.Statement (.dbgvalWrite b v) := ⟨rfl, rfl⟩
theorem Coding.debugTokenDeliver (k : Nat) : Coding.Statement (.debugTokenDeliver k) := ⟨rfl, rfl⟩
theorem Coding.attest (b : Nat) (v : Word) : Coding.Statement (.attest b v) := ⟨rfl, rfl⟩
theorem Coding.hostMemAccess (write : Bool) (pa : Nat) (bytes : List Byte) : Coding.Statement (.hostMemAccess write pa bytes) := ⟨rfl, rfl⟩
theorem Coding.spokeRequestReceive (port : Nat) (fl : Flit) : Coding.Statement (.spokeRequestReceive port fl) := ⟨rfl, rfl⟩
theorem Coding.spokeReplyReceive (port : Nat) (fl : Flit) : Coding.Statement (.spokeReplyReceive port fl) := ⟨rfl, rfl⟩
theorem Coding.doorDelivery (port : Nat) (fl : Flit) : Coding.Statement (.doorDelivery port fl) := ⟨rfl, rfl⟩
theorem Coding.spokeNotice (port : Nat) (fl : Flit) : Coding.Statement (.spokeNotice port fl) := ⟨rfl, rfl⟩
theorem Coding.spokeLinkUp (port partner : Nat) : Coding.Statement (.spokeLinkUp port partner) := ⟨rfl, rfl⟩
theorem Coding.spokeLinkDown (port : Nat) : Coding.Statement (.spokeLinkDown port) := ⟨rfl, rfl⟩
theorem Coding.thermalTrip (b : Nat) : Coding.Statement (.thermalTrip b) := ⟨rfl, rfl⟩
theorem Coding.powerOnBringup  : Coding.Statement (.powerOnBringup) := ⟨rfl, rfl⟩
theorem Coding.registerWrite (b off : Nat) (v : Word) : Coding.Statement (.registerWrite b off v) := ⟨rfl, rfl⟩
theorem Coding.hostAcknowledgement (req piece : Nat) (bytes : List Byte) : Coding.Statement (.hostAcknowledgement req piece bytes) := ⟨rfl, rfl⟩
theorem Coding.discardedFlit (port : Nat) (fl : Flit) : Coding.Statement (.discardedFlit port fl) := ⟨rfl, rfl⟩

end Sys2Proof.Laws
end

