-- ==== Sys2Proof/Laws/Tile.lean ====
section
/-! SUPPORT. What the allocation and the issue of a tile do, said once: the new entry, the rows it reads as, and the state around it. -/

namespace Sys2Proof.Machine

open Host

theorem leNat_leBytes (n x : Nat) : leNat (leBytes n x) = x % 256 ^ n := by
  induction n generalizing x with
  | zero => simp [leBytes, leNat, Nat.mod_one]
  | succ n ih =>
    rw [leBytes, leNat, ih, pow_succ, Nat.mul_comm (256 ^ n) 256, Nat.mod_mul]
    simp

@[simp] theorem length_leBytes (n x : Nat) : (leBytes n x).length = n := by
  induction n generalizing x with
  | zero => rfl
  | succ n ih => simp [leBytes, ih]

/-- Writing rows at offsets 512 bytes apart: each row reads back, and other offsets as before. -/
theorem fill_read (o : Nat → Nat) (N : Nat)
    (hd : ∀ i j, i < N → j < N → i ≠ j → o i + 512 ≤ o j ∨ o j + 512 ≤ o i) (rows : List Nat) (i0 : Nat) (p : PE) (hl : i0 + rows.length ≤ N)
    (k : Nat) (hk : k < N) :
    sgets 0 ((rows.zipIdx i0).foldl (fun q r => tileWrite q (o r.2) (leBytes 512 r.1)) p).tile (o k) 512 =
      if i0 ≤ k ∧ k < i0 + rows.length then leBytes 512 (rows.getD (k - i0) 0) else sgets 0 p.tile (o k) 512 := by
  induction rows generalizing i0 p with
  | nil => simp
  | cons r rows ih =>
    simp only [List.length_cons] at hl
    rw [List.zipIdx_cons, List.foldl_cons, ih (i0 + 1) _ (by omega)]
    have hne : (leBytes 512 r).isEmpty = false := by
      cases h : leBytes 512 r with
      | nil => have := congrArg List.length h; simp at this
      | cons => rfl
    have hw : (tileWrite p (o i0) (leBytes 512 r)).tile = sputs 0 p.tile (o i0) (leBytes 512 r) := by
      unfold tileWrite; rw [hne]; rfl
    by_cases h1 : i0 = k
    · subst h1
      rw [if_neg (by omega), if_pos (by simp), hw, Nat.sub_self, List.getD_cons_zero]
      have := sgets_sputs (0 : Byte) p.tile (o i0) (leBytes 512 r)
      rwa [length_leBytes] at this
    · have keep : sgets 0 (tileWrite p (o i0) (leBytes 512 r)).tile (o k) 512 = sgets 0 p.tile (o k) 512 := by
        rw [hw, sgets_eq_map, sgets_eq_map]
        refine List.map_congr_left fun j hj => ?_
        have hj := List.mem_range.mp hj
        rw [sget_sputs, length_leBytes, if_neg]
        rcases hd i0 k (by omega) hk h1 with h | h <;> omega
      rw [keep]
      by_cases h2 : i0 + 1 ≤ k ∧ k < i0 + 1 + rows.length
      · rw [if_pos h2, if_pos (by simp only [List.length_cons]; omega), show k - i0 = k - (i0 + 1) + 1 by omega, List.getD_cons_succ]
      · rw [if_neg h2, if_neg (by simp only [List.length_cons]; omega)]

theorem rowOffset_apart (pages : List Nat) (hn : pages.Nodup) (i j : Nat) (hi : i < 4 * pages.length) (hj : j < 4 * pages.length) (h : i ≠ j) :
    rowOffset pages i + 512 ≤ rowOffset pages j ∨ rowOffset pages j + 512 ≤ rowOffset pages i := by
  unfold rowOffset
  by_cases hp : i / 4 = j / 4
  · rw [hp]; omega
  · have h1 : i / 4 < pages.length := by omega
    have h2 : j / 4 < pages.length := by omega
    have hne : pages.getD (i / 4) 0 ≠ pages.getD (j / 4) 0 := by
      simp only [List.getD_eq_getElem?_getD, List.getElem?_eq_getElem h1, List.getElem?_eq_getElem h2, Option.getD_some]
      intro e; exact hp ((List.Nodup.getElem_inj_iff hn).mp e)
    omega

/-- The rows that fill a tile read back from its pages (R55, R57). -/
theorem tileFill_rows (p : PE) (pages : List Nat) (rows : List Nat) (hn : pages.Nodup) (hl : rows.length ≤ 4 * pages.length) (k r : Nat)
    (hk : rows[k]? = some r) : leNat (rowBytes (tileFill p pages rows) pages k) = r % 2 ^ 4096 := by
  have hlt : k < rows.length := (List.getElem?_eq_some_iff.mp hk).1
  have h := fill_read (rowOffset pages) (4 * pages.length) (fun i j hi hj hne => rowOffset_apart pages hn i j hi hj hne) rows 0 p (by omega) k (by omega)
  unfold rowBytes tileFill
  rw [h, if_pos (by omega), leNat_leBytes, Nat.sub_zero, List.getD_eq_getElem?_getD, hk, Option.getD_some]
  rw [show (256 : Nat) = 2 ^ 8 from rfl, ← pow_mul]

theorem tileWrite_handles (p : PE) (off : Nat) (bs : List Byte) : (tileWrite p off bs).handles = p.handles := by unfold tileWrite; split <;> rfl

theorem tileFill_handles (p : PE) (pages : List Nat) (rows : List Nat) : (tileFill p pages rows).handles = p.handles := by
  unfold tileFill
  generalize rows.zipIdx = l
  induction l generalizing p with
  | nil => rfl
  | cons x l ih => rw [List.foldl_cons, ih, tileWrite_handles]

theorem tileWrite_rest (p : PE) (off : Nat) (bs : List Byte) :
    (tileWrite p off bs).issued = p.issued ∧ (tileWrite p off bs).ready = p.ready ∧ (tileWrite p off bs).issueAt = p.issueAt ∧
      (tileWrite p off bs).units = p.units := by unfold tileWrite; split <;> exact ⟨rfl, rfl, rfl, rfl⟩

theorem tileFill_rest (p : PE) (pages : List Nat) (rows : List Nat) :
    (tileFill p pages rows).issued = p.issued ∧ (tileFill p pages rows).ready = p.ready ∧ (tileFill p pages rows).issueAt = p.issueAt ∧
      (tileFill p pages rows).units = p.units := by
  unfold tileFill
  generalize rows.zipIdx = l
  induction l generalizing p with
  | nil => exact ⟨rfl, rfl, rfl, rfl⟩
  | cons x l ih =>
    have a := tileWrite_rest p (rowOffset pages x.2) (leBytes 512 x.1)
    have b := ih (tileWrite p (rowOffset pages x.2) (leBytes 512 x.1))
    rw [List.foldl_cons]
    exact ⟨b.1.trans a.1, b.2.1.trans a.2.1, b.2.2.1.trans a.2.2.1, b.2.2.2.trans a.2.2.2⟩

theorem lowestFree_nodup (lim : Nat) (used : List Nat) (n : Nat) : (lowestFree lim used n).Nodup :=
  ((List.nodup_range.filter _).sublist (List.take_sublist _ _))

/-- What a budget allows depends on the activated RCBs alone (R367). -/
theorem rcbPath_congr (s t : State) (h : t.rcbs = s.rcbs) (k addr : Nat) : rcbPath t k addr = rcbPath s k addr := by
  induction k generalizing addr with
  | zero => rfl
  | succ k ih =>
    have e : rcbRec t addr = rcbRec s addr := by unfold rcbRec; rw [h]
    unfold rcbPath
    rw [e]
    cases rcbRec s addr with
    | none => rfl
    | some r => simp only [ih]

theorem budgetOk_congr (s t : State) (h : t.rcbs = s.rcbs) (addr : Nat) (k : BudgetKind) (n : Nat) : budgetOk t addr k n = budgetOk s addr k n := by
  unfold budgetOk
  rw [rcbPath_congr s t h]
  have e : rcbRec t = rcbRec s := by funext a; unfold rcbRec; rw [h]
  rw [e]

/-- An allocated tile (R55, R57, R189): the lowest free entry names it with the lowest free pages, its granules are empty, its generation is the entry's. Nothing else
of its PE changes, and nothing else but what is charged. -/
structure TileMade (s : State) (f : Firing) (pe tid rows : Nat) (pend : Bool) (h : Nat) (t : State) : Prop where
  free : freeHandle (getPE s f.bh pe) = some h
  entry : handleAt (getPE t f.bh pe) h =
    { HEntry.empty with kind := .tile, pages := lowestFree 256 (usedPages (getPE s f.bh pe)) (ceilDiv rows 4), pend := pend,
                        gen := (handleAt (getPE s f.bh pe) h).gen, tid := tid, payer := pageAddr s f }
  full : (lowestFree 256 (usedPages (getPE s f.bh pe)) (ceilDiv rows 4)).length = ceilDiv rows 4
  own : getPE t f.bh pe =
    { getPE s f.bh pe with handles := (getPE t f.bh pe).handles, tile := (getPE t f.bh pe).tile, full := (getPE t f.bh pe).full, spoilt := (getPE t f.bh pe).spoilt }
  rest : ∃ ps rs, t = { s with pes := ps, rcbs := rs }
  others : ∀ c q, peKey c q ≠ peKey f.bh pe → getPE t c q = getPE s c q

/-- The RCB that pages are charged from depends on the tasks, the launches and the registers alone (R367). -/
theorem pageAddr_congr (s t : State) (h1 : t.tasks = s.tasks) (h2 : t.launches = s.launches) (h3 : t.regs = s.regs) (f : Firing) :
    pageAddr t f = pageAddr s f := by
  unfold pageAddr chargeAddr taskAt launchAt vfRcbAddr regGet
  rw [h1, h2, h3]

theorem allocTile_made (s : State) (f : Firing) (pe tid rows : Nat) (pend : Bool) (h : Nat) (t : State) (ha : allocTile s f pe tid rows pend = some (h, t)) :
    TileMade s f pe tid rows pend h t := by
  unfold allocTile at ha
  dsimp only at ha
  split at ha
  · cases ha
  · next h' hf =>
    split at ha
    · cases ha
    · next hc =>
      simp only [Option.some.injEq, Prod.mk.injEq] at ha
      obtain ⟨rfl, rfl⟩ := ha
      have hp : ∀ c q x, getPE (budgetMove (setPE s f.bh pe x) (pageAddr s f) .page (ceilDiv rows 4) 0) c q =
          if peKey c q = peKey f.bh pe then x else getPE s c q := fun c q x => getPE_setPE s f.bh pe c q x
      constructor
      · exact hf
      · rw [hp, if_pos rfl, handleAt_handlePut, if_pos rfl]
      · have hle : (lowestFree 256 (usedPages (getPE s f.bh pe)) (ceilDiv rows 4)).length ≤ ceilDiv rows 4 := by unfold lowestFree; simp
        have := not_or.mp hc
        omega
      · rw [hp, if_pos rfl]; rfl
      · unfold budgetMove setPE; exact ⟨_, _, rfl⟩
      · intro c q hne; rw [hp, if_neg hne]

/-- A tile result of rows that fit its TID makes the tile they give (R312). -/
theorem makesTile_of_fire (s : State) (i : Instr) (code : Nat) (n : Node) (tid : TidEntry) (rows : List Nat) (fl : BitVec 9) (lat unit hold cls count : Nat)
    (mk : HEntry → HEntry) (hmk : ∀ e, (mk e).gen = e.gen) (k : Ctx → State → Option State) (hi : exec i s = .next (fire s code n k)) (h : performs s code n = true)
    (hr : tileReady s (firingCtx s code n) unit tid.tid tid.rows = true) (hl : rows.length ≤ 4 * ceilDiv tid.rows 4)
    (hk : k (firingCtx s code n) (takeReady s s.cur) =
      tileIssue (takeReady s s.cur) (firingCtx s code n) tid rows fl lat unit hold cls count mk) :
    MakesTile s i code n tid rows fl lat unit hold mk := by
  have own : getPE (takeReady s s.cur) s.cur.bh s.cur.pe =
      { getPE s s.cur.bh s.cur.pe with ready := (getPE s s.cur.bh s.cur.pe).ready.erase s.cur, issueAt := cycleOf s s.cur.bh + 1 } := by
    rw [getPE_takeReady, if_pos rfl]
  unfold tileReady at hr
  rw [Bool.and_eq_true] at hr
  obtain ⟨hu, ha⟩ := hr
  rw [firingCtx_pe] at ha
  -- the allocation succeeds on the state the firing has left, too
  have ha' : (allocTile (takeReady s s.cur) (firingCtx s code n).f s.cur.pe tid.tid tid.rows true).isSome = true := by
    unfold allocTile at ha ⊢
    have hb : ∀ x m, budgetOk (takeReady s s.cur) x .page m = budgetOk s x .page m := fun x m => budgetOk_congr s _ (takeReady_rcbs s s.cur) x .page m
    have hv : pageAddr (takeReady s s.cur) (firingCtx s code n).f = pageAddr s (firingCtx s code n).f :=
      pageAddr_congr _ _ (takeReady_tasks _ _) (takeReady_launches _ _) (takeReady_regs _ _) _
    have hf : freeHandle (getPE (takeReady s s.cur) s.cur.bh s.cur.pe) = freeHandle (getPE s s.cur.bh s.cur.pe) := by rw [own]; rfl
    have hg : usedPages (getPE (takeReady s s.cur) s.cur.bh s.cur.pe) = usedPages (getPE s s.cur.bh s.cur.pe) := by rw [own]; rfl
    dsimp only at ha ⊢
    rw [firingCtx_bh] at ha ⊢
    rw [hf, hg, hv]
    cases hfh : freeHandle (getPE s s.cur.bh s.cur.pe) with
    | none => rw [hfh] at ha; cases ha
    | some h0 =>
      rw [hfh] at ha
      dsimp only at ha ⊢
      rw [hb]
      split at ha
      · cases ha
      · next hc => rw [if_neg hc]; rfl
  obtain ⟨⟨h0, t0⟩, hat⟩ := Option.isSome_iff_exists.mp ha'
  have made := allocTile_made _ _ _ _ _ _ _ _ hat
  have mfree := made.free
  have mentry := made.entry
  have mown := made.own
  rw [firingCtx_bh] at mfree mentry mown
  have hu' : unitFree (takeReady s s.cur) (firingCtx s code n).f unit = true := by
    unfold unitFree at hu ⊢
    rw [firingCtx_bh, firingCtx_pe] at hu ⊢
    rw [cycleOf_takeReady, own]
    exact hu
  have hcyc : ∀ c, cycleOf t0 c = cycleOf s c := by
    intro c
    obtain ⟨ps, rs, e⟩ := made.rest
    rw [← cycleOf_takeReady s s.cur c, e]; rfl
  have hgen : ∀ x, handleAt (handlePut (tileFill (getPE t0 s.cur.bh s.cur.pe) x rows) h0 (mk (handleAt (getPE t0 s.cur.bh s.cur.pe) h0))) h0 =
      mk (handleAt (getPE t0 s.cur.bh s.cur.pe) h0) := fun x => by rw [handleAt_handlePut, if_pos rfl]
  have hpe : ∀ u : State, u = pushIssued (charge (holdUnit (modPE t0 s.cur.bh s.cur.pe fun p =>
        handlePut (tileFill p (handleAt p h0).pages rows) h0 (mk (handleAt p h0))) (firingCtx s code n).f unit hold) s.cur.bh s.cur.pe cls count)
      (firingCtx s code n).f n lat (toUsed n .handle (handleWord h0 tid.tid (mk (handleAt (getPE t0 s.cur.bh s.cur.pe) h0)).gen))
        ([.produced h0] ++ operandDrops n (firingCtx s code n).f) fl .nothing →
      firedPE s u = { handlePut (tileFill (getPE t0 s.cur.bh s.cur.pe) (handleAt (getPE t0 s.cur.bh s.cur.pe) h0).pages rows) h0
                        (mk (handleAt (getPE t0 s.cur.bh s.cur.pe) h0)) with
          units := sput 0 (getPE t0 s.cur.bh s.cur.pe).units unit (cycleOf s s.cur.bh + hold),
          issued := (getPE t0 s.cur.bh s.cur.pe).issued ++ [itemOf s code n lat
            (toUsed n .handle (handleWord h0 tid.tid (mk (handleAt (getPE t0 s.cur.bh s.cur.pe) h0)).gen)) ([.produced h0] ++ dropsOf s code n) fl] } := by
    rintro u rfl
    have cyc1 : ∀ f c, cycleOf (modPE t0 s.cur.bh s.cur.pe f) c = cycleOf s c := by
      intro f c; rw [← hcyc c]; unfold cycleOf getBulk; rw [modPE_bhs]
    have cyc2 : ∀ x f c, cycleOf (holdUnit (modPE t0 s.cur.bh s.cur.pe f) x unit hold) c = cycleOf s c := by
      intro x f c; rw [← cyc1 f c]; unfold cycleOf getBulk; rw [holdUnit_bhs]
    have hid : t0.nextId = s.nextId := by
      obtain ⟨ps, rs, e⟩ := made.rest
      rw [← takeReady_nextId s s.cur, e]
    have hh : ∀ f, getPE (holdUnit (modPE t0 s.cur.bh s.cur.pe f) (firingCtx s code n).f unit hold) s.cur.bh s.cur.pe =
        { f (getPE t0 s.cur.bh s.cur.pe) with units := sput 0 (f (getPE t0 s.cur.bh s.cur.pe)).units unit (cycleOf s s.cur.bh + hold) } := by
      intro f
      unfold holdUnit
      simp only [firingCtx_bh, firingCtx_pe, getPE_modPE, if_true, cyc1]
    unfold firedPE pushIssued
    rw [getPE_pushWriting, firingCtx_bh, firingCtx_pe, if_pos rfl, getPE_charge, hh, cycleOf_charge, cyc2, charge_nextId, holdUnit_nextId, modPE_nextId, hid]
    have r := tileFill_rest (getPE t0 s.cur.bh s.cur.pe) (handleAt (getPE t0 s.cur.bh s.cur.pe) h0).pages rows
    simp only [itemOf, firingCtx_bh, dropsOf, handlePut, r.1, r.2.2.2]
  have hst : exec i s = .next (pushIssued (charge (holdUnit (modPE t0 s.cur.bh s.cur.pe fun p =>
        handlePut (tileFill p (handleAt p h0).pages rows) h0 (mk (handleAt p h0))) (firingCtx s code n).f unit hold) s.cur.bh s.cur.pe cls count)
      (firingCtx s code n).f n lat (toUsed n .handle (handleWord h0 tid.tid (mk (handleAt (getPE t0 s.cur.bh s.cur.pe) h0)).gen))
        ([.produced h0] ++ operandDrops n (firingCtx s code n).f) fl .nothing) := by
    rw [hi, fire_perform s code n k h, hk]
    unfold tileIssue
    rw [hu', firingCtx_bh, firingCtx_pe, hat, firingCtx_node]
    simp only [Bool.not_true, Bool.false_eq_true, if_false, Option.getD_some, getPE_modPE, if_true, hgen]
  refine ⟨_, h0, handleAt (getPE t0 s.cur.bh s.cur.pe) h0, hst, ?_, ?_, ?_, ?_, ?_, ?_, ?_, ?_, ?_, ?_, ?_⟩
  · rw [own] at mfree; exact mfree
  · rw [mentry]
  · rw [mentry]
  · rw [mentry]; rfl
  · rw [mentry, own]; rfl
  · rw [hpe _ rfl]; exact hgen _
  · intro j r hj
    rw [hpe _ rfl]
    have hp : (handleAt (getPE t0 s.cur.bh s.cur.pe) h0).pages = lowestFree 256 (usedPages (getPE (takeReady s s.cur) s.cur.bh s.cur.pe)) (ceilDiv tid.rows 4) := by
      rw [mentry]
    refine tileFill_rows (getPE t0 s.cur.bh s.cur.pe) (handleAt (getPE t0 s.cur.bh s.cur.pe) h0).pages rows ?_ ?_ j r hj
    · rw [hp]; exact lowestFree_nodup _ _ _
    · have mfull := made.full; rw [firingCtx_bh] at mfull; rw [hp, mfull]; exact hl
  · have r := tileFill_rest (getPE t0 s.cur.bh s.cur.pe) (handleAt (getPE t0 s.cur.bh s.cur.pe) h0).pages rows
    have o := mown
    have i1 : (getPE t0 s.cur.bh s.cur.pe).issued = (firedPE s s).issued := by rw [o, own]; rfl
    have i2 : (getPE t0 s.cur.bh s.cur.pe).ready = (firedPE s s).ready.erase s.cur := by rw [o, own]; rfl
    have i3 : (getPE t0 s.cur.bh s.cur.pe).issueAt = cycleOf s s.cur.bh + 1 := by rw [o, own]
    constructor
    · rw [hpe _ rfl]; simp only [i1, hmk]
    · rw [hpe _ rfl]; simp only [handlePut, r.2.1, i2]
    · rw [hpe _ rfl]; simp only [handlePut, r.2.2.1, i3]
  · rw [hpe _ rfl]; simp
  · obtain ⟨ps, rs, e⟩ := made.rest
    simp only [pushIssued_regs, charge_regs, holdUnit_regs, modPE_regs]
    rw [← takeReady_regs s s.cur, e]
  · intro a
    refine memByte_congr s _ ?_ a
    obtain ⟨ps, rs, e⟩ := made.rest
    simp only [pushIssued_mem, charge_mem, holdUnit_mem, modPE_mem]
    rw [← takeReady_mem s s.cur, e]

end Sys2Proof.Machine
end

