-- ==== Sys2Proof/Tests/Slice0.lean ====
section
/-! SUPPORT. Tests: what well-formedness refuses, one record of every opcode, single steps with results worked out by hand from the rules, and for each statement a
state that meets its hypotheses. -/

namespace Sys2Proof.Tests

open Sys2Proof Sys2Proof.Machine Host

set_option Elab.async false

/-- A used destination. -/
def dst (dx dy : BitVec 4) (node : BitVec 12) (q : Port) (fm : FrameMode) : Option Dest := some ⟨dx, dy, node, q, fm⟩

/-- A record with one destination on its own PE: type, literal. -/
def nd (ty : Ty) (lit : BitVec 16) : Node := ⟨ty, 2, dst 0 0 1 .l .cur, none, false, 0, false, false, false, false, lit⟩

/-- The same with LITR. -/
def ndLit (ty : Ty) (lit : BitVec 16) : Node := { nd ty lit with litr := true }

/-- The same with no destination. -/
def ndNone (ty : Ty) (lit : BitVec 16) : Node := { nd ty lit with d0 := none }

/-- Operands: a value, a null, an error and the handle of entry h, which names TID h. -/
def val (x : Nat) : Option Operand := some { kind := .value, payload := word x }
def nul : Option Operand := some { kind := .null, payload := 0 }
def erro : Option Operand := some { kind := .err, payload := 0x05 }
def hnd (h : Nat) : Option Operand := some { kind := .handle, payload := handleWord h h 1 }

def tidOf (k : Nat) (fmt : Ty) (form planes rows : Nat) : TidEntry := { tid := k, fmt := fmt, form := form, planes := planes, rows := rows, scale := 0, ibase := 0 }

/-- TIDs: 0 f32, 1 i32, 2 planes of i8, 3 lanes of i8, 4 random bytes, 5 a partial list of i32, 6 bf16, 7 f16 with 16 rows. -/
def tids : List TidEntry :=
  [tidOf 0 .f32 0 0 4, tidOf 1 .i32 0 0 4, tidOf 2 .i8 2 0 4, tidOf 3 .i8 1 0 4, tidOf 4 .n8 0 0 16, tidOf 5 .i32 3 0 16, tidOf 6 .bf16 0 0 4, tidOf 7 .f16 0 0 16]

def tileEnt (k : Nat) (pages : List Nat) : HEntry := { HEntry.empty with ref := 2, kind := .tile, pages := pages, tid := k, keyType := if k = 5 then 3 else 0 }
def accEnt (mode tile : Nat) : HEntry := { HEntry.empty with ref := 2, kind := .acc, pages := [tile], mode := mode, clear := true, keyType := if mode = 2 then 3 else 0 }

/-- PE 0: entries 0 to 7 are tiles of the TIDs, 8 is an accumulator of sums, 9 one of lists, 10 one of lists whose every list holds a high key. -/
def pe0 : PE :=
  listsStore { PE.empty with
    handles := [(0, tileEnt 0 [0]), (1, tileEnt 1 [1]), (2, tileEnt 2 [2]), (3, tileEnt 3 [3]), (4, tileEnt 4 [4, 5, 6, 7]), (5, tileEnt 5 [8, 9, 10, 11]),
                (6, tileEnt 6 [12]), (7, tileEnt 7 [13, 14, 15, 16]), (8, accEnt 0 0), (9, accEnt 2 1), (10, accEnt 2 2)]
    fmap := [(0, 3)], finfo := [(0, { cls := 0, wave := 0, site := none, cfg := 0, lid := 7, task := none, payer := 0 })], prune := [(1, { hidx := 10, gen := 1 })] }
    10 (List.replicate 16 [(2 ^ 64 - 1, 0)])

/-- Descriptors: 0 an affine one of four words of 8 bytes, 1 a gather of TID 0. -/
def descs : List (BitVec 256) := [BitVec.ofNat 256 (3 * 2 ^ 4 + 4 * 2 ^ 64 + 2 ^ 76 + 2 ^ 88 + 2 ^ 100 + 8 * 2 ^ 112 + 0 * 2 ^ 192 + 4096 * 2 ^ 224), 0]

def launch7 : Launch :=
  { lid := 7, bh := 0, vf := 0, st := .running, image := 0, rcb := 0, compl := 0x1000, tq := 0, apool := 0, apages := 0, poolFree := [], blim := 1, cls := 0, argptr := 0,
    args := [], cfg := 0, rootFp := 0, errcnt := 0, exit := 0, halted := false, status := 0, flags := 0, taskSeq := 0, prio := 0, errhalt := false, fdom := false }

/-- Bulkhead 0 runs; VF 0 is resident in slot 0, with one configuration over PE 0, and launch 7 runs. -/
def base : State :=
  { regPut State.reset 0 0x20008 0x10 with
    pes := [(0, pe0)], slots := [(0, { Slot.empty with st := .resident })],
    cfgs := [{ slotCfg with tids := tids, descs := descs, lid := 7 }], launches := [launch7] }

/-- The firing of node 0 of PE 0 with these operands stands ready and issues. -/
def on (s : State) (l r p : Option Operand) : State :=
  let f : Firing := { Firing.empty with l := l, r := r, p := p, lid := 7 }
  { modPE s 0 0 (fun x => { x with ready := [f] }) with cur := f }

/-- Operands and record of a firing on `base` that performs. -/
def does (code : Nat) (n : Node) (l r p : Option Operand) : Bool := performs (on base l r p) code n

/-! Well-formedness: each check of a record refuses a record that breaks it (R69 to R74, R106). -/

/-- Whether a record is refused with a reason, and its instruction is not well-formed. -/
def refuses (w : BitVec 96) (r : Reject) : Bool := match decode w with | .error e => e == r | .ok _ => false

theorem test_wf_opcode : refuses (0x014 * 2 ^ 87) .opcodeUnassigned = true := by decide +kernel
/-- add with an unused DEST1 that is not clear; st with a destination; mov with a SLOT; add with STPORT and no STCOUNT. -/
theorem test_wf_reserved :
    refuses (0x040 * 2 ^ 87 + 2 * 2 ^ 75 + 7 * 2 ^ 31) .fieldReserved = true ∧ refuses (0x141 * 2 ^ 87 + 2 * 2 ^ 75 + 3 * 2 ^ 53) .fieldReserved = true ∧
    refuses (0x001 * 2 ^ 87 + 2 * 2 ^ 75) .fieldReserved = true ∧ refuses (0x040 * 2 ^ 87 + 2 * 2 ^ 75 + 2 ^ 26) .fieldReserved = true := by decide +kernel
theorem test_wf_type : refuses (0x040 * 2 ^ 87 + 14 * 2 ^ 83 + 2 * 2 ^ 75) .typeIllegal = true ∧ (Instr.add (nd .f32 0)).wf = false := by decide +kernel
theorem test_wf_slot : refuses (0x040 * 2 ^ 87 + 1 * 2 ^ 75) .slotRange = true ∧ (Instr.sel { nd .n64 0 with slot := 255 }).wf = false := by decide +kernel
theorem test_wf_flags : refuses (0x056 * 2 ^ 87 + 2 * 2 ^ 75 + 2 ^ 16) .flags = true ∧ (Instr.mov { nd .n64 0 with slot := 0, litr := true }).wf = false := by decide +kernel
theorem test_wf_sticky : refuses (0x001 * 2 ^ 87 + 2 ^ 20) .sticky = true ∧ (Instr.add { ndLit .n64 0 with slot := 0, stCount := 1 }).wf = false := by decide +kernel
theorem test_wf_frameMode : refuses (0x001 * 2 ^ 87 + 3 * 2 ^ 29) .frameMode = true ∧ (Instr.add { nd .n64 0 with d0 := dst 0 0 0 .l .dyn }).wf = true := by decide +kernel
theorem test_wf_handle : refuses (0x146 * 2 ^ 87 + 2 ^ 71) .handleEscape = true ∧ (Instr.talloc { nd .n64 0 with slot := 0, d0 := dst 0 15 0 .l .cur }).wf = false := by decide +kernel
theorem test_wf_literal : refuses (0x055 * 2 ^ 87 + 2 * 2 ^ 75 + 6) .literal = true ∧ (Instr.const { nd .i8 0x80 with slot := 0 }).wf = false := by decide +kernel

/-- One happening with each number that does not exist. -/
theorem test_wf_numbers : (([.resultEmit 12 0 0, .readyAging 0 512 0, .pageWalkComplete 0 384 0, .pageWalkComplete 0 0 (2 ^ 33), .fqctlReplay 0 4096, .fqctlDrop 12 0, .fqctlBadOp 12 0 0, .xbinvVf 0 384,
   .xbinvVa 0 0 (2 ^ 33), .xbinvAll 12, .xbinvBad 12, .xbinvComplete 12, .vfrootWrite 384 0, .fetchReply 0 512 0, .sparseUpdateOp 0 32, .joinCounterUpdate 0 32, .scrubStep 12,
   .cisternFull 0 384, .blockInstall 12 0, .blockMetaRead 12, .bcctlBadOp 12, .pairMessage 0 512, .pairLimitExpire 12 0 0, .barrierLimitExpire 0 0 4096 0,
   .barrierLimitExpire 0 0 0 1024, .rngGeneratorServe 0 32, .starve 0 384, .launchTake 0 4096] : List Instr).all fun i => !i.wf) = true := by decide +kernel

theorem test_wf_registerNumbers : (([.dispatchDecision 12, .hqrecCommit 0 4 0, .queueEnable 0 4096 0, .qckeyWrite 12 0, .qcapRightsWrite 0 4096 0, .quantumEnd 0 32, .contextSave 0 32, .contextRestore 0 32 true,
   .quantWrite 0 0 8 0, .slotownWrite 0 32 0, .slotLend 0 0 384, .slotReclaim 0 32, .vfscopeWrite 384 0, .energyFold 0 32, .bhrstGo 12 false false, .bhrstRelease 12,
   .resetFenceDone 12, .resetRelockDone 12, .resetScrubDone 12, .bhctlWrite 12 0, .bhgateWrite 12 0, .wintabWrite 0 8 0 0, .wintabWrite 0 0 2 0, .bhclkWrite 12 0, .clockLock 12,
   .aptabWrite 0 64 0, .frzctlRetry 0 (.pe 512) 0, .frzctlFail 0 (.unit 8 0) 0, .frzctlFreeze 0 (.unit 0 512) 0, .vfReset 0 384, .dbgvalWrite 12 0, .attest 12 0, .spokeLinkUp 18 0,
   .spokeLinkUp 0 65536, .spokeLinkDown 18, .thermalTrip 12, .registerWrite 0 (2 ^ 24) 0] : List Instr).all fun i => !i.wf) = true := by decide +kernel

theorem test_wf_ports :
    (let fl : Flit := { ty := 1, tag := 0, srcdev := 0, vf := 0, prio := 0, size := 0, op := 0, code := 0, addr := 0, data := [] }
     [Instr.spokeRequestReceive 18 fl, .spokeReplyReceive 18 fl, .doorDelivery 18 fl, .spokeNotice 18 fl, .discardedFlit 18 fl].all fun i => !i.wf) = true := by decide +kernel

/-- The highest numbers exist. -/
theorem test_wf_highest : ([Instr.resultEmit 11 511 0, .fqctlReplay 11 4095, .xbinvVa 11 383 (2 ^ 33 - 1), .quantWrite 11 31 7 0, .aptabWrite 11 63 0, .frzctlRetry 11 (.unit 7 511) 383,
    .spokeLinkUp 17 65535, .registerWrite 11 (2 ^ 24 - 1) 0].all fun i => i.wf) = true := by decide +kernel

/-! Decoding: the records that the manual writes out (R47), and one record of every opcode. -/

/-- Whether the decoder reads a record as an instruction. -/
def reads (x : BitVec 96 × Instr) : Bool := match decode x.1 with | .ok i => i == x.2 | .error _ => false

/-- The worked record of the manual (R67): ffma, and gate and ffma as they stand in its program listings. -/
theorem test_decode_worked :
    reads (0x41F037900820004224300000, .ffma ⟨.f32, 6, dst 0xF 2 0x10 .r .nxt, dst 0 0 0x21 .l .cur, true, 3, false, false, false, false, 0⟩) = true ∧
    reads (recordOfBytes [0x00, 0x00, 0x30, 0xE0, 0x01, 0x00, 0xA0, 0x07, 0x00, 0x30, 0x00, 0x03], .gate ⟨.n64, 6, dst 0 0 0xF .r .dyn, none, false, 3, false, false, false, false, 0⟩) = true ∧
    reads (recordOfBytes [0x00, 0x00, 0x00, 0x20, 0x3A, 0x20, 0x20, 0x00, 0x00, 0x10, 0xF0, 0x41],
      .ffma ⟨.f32, 2, dst 0 0 0 .r .nxt, dst 0 1 0x1D .l .cur, false, 0, false, false, false, false, 0⟩) = true := by decide +kernel

/-- Records of the steering nodes (R84), written out from R67 and R68. -/
def words0 : List (BitVec 96 × Instr) :=
  ([
    (0x001000000000000000080000, .nop ⟨.n32, 0, none, none, false, 0, true, false, false, false, 0x0⟩),
    (0x00B7156EFC1D2C98D00B0000, .mov ⟨.n8, 226, (dst 0xA 0xD 0xDF8 .l .par), (dst 0xE 0x9 0x64C .r .par), false, 0, true, false, true, true, 0x0⟩),
    (0x011005687C5D3698C008005A, .const ⟨.n32, 0, (dst 0xA 0xD 0xF8 .p .par), (dst 0xE 0x9 0xB4C .r .cur), false, 0, true, false, false, false, 0x5A⟩),
    (0x01BCA8000000000000610001, .sink ⟨.i8, 149, none, none, false, 6, false, false, false, true, 0x1⟩),
    (0x0272F30ACA04BC40B00B0001, .switch ⟨.f32, 94, (dst 0x6 0x1 0x594 .l .nxt), (dst 0x2 0x5 0xE20 .r .par), false, 0, true, false, true, true, 0x1⟩),
    (0x02B106D05FD3D61748C80000, .merge ⟨.n8, 32, (dst 0xD 0xA 0xBF .p .par), (dst 0x9 0xE 0xB0B .p .nxt), false, 12, true, false, false, false, 0x0⟩),
    (0x0339A293EB82D8C700000000, .gate ⟨.i8, 52, (dst 0x5 0x2 0x7D7 .l .cur), (dst 0x1 0x6 0xC63 .p .cur), false, 0, false, false, false, false, 0x0⟩),
    (0x03E889A4F0AE04AB10010000, .nullify ⟨.f16, 17, (dst 0x3 0x4 0x9E1 .r .cur), (dst 0x7 0x0 0x255 .p .par), false, 0, false, false, false, true, 0x0⟩),
    (0x040000B5F9800001C0000000, .isnull ⟨.n64, 0, (dst 0x1 0x6 0xBF3 .l .par), none, false, 0, false, false, false, false, 0x0⟩),
    (0x0481212C902C2529200B0000, .iserr ⟨.n64, 36, (dst 0x2 0x5 0x920 .r .nxt), (dst 0x6 0x1 0x294 .p .cur), false, 0, true, false, true, true, 0x0⟩),
    (0x050007488655B57048000000, .errcode ⟨.n64, 0, (dst 0xE 0x9 0x10C .p .par), (dst 0xA 0xD 0xAB8 .l .nxt), false, 0, false, false, false, false, 0x0⟩),
    (0x058005E70C9F0B5A0000009C, .mkerr ⟨.n64, 0, (dst 0xB 0xC 0xE19 .l .cur), (dst 0xF 0x8 0x5AD .l .cur), false, 0, false, false, false, false, 0x9C⟩),
    (0x0607C2970BA2CB4750010000, .frameof ⟨.n64, 248, (dst 0x5 0x2 0xE17 .r .par), (dst 0x1 0x6 0x5A3 .p .par), false, 0, false, false, false, true, 0x0⟩),
    (0x0680065E5F400001C00000F4, .falloc ⟨.n64, 0, (dst 0xC 0xB 0xCBE .p .par), none, false, 0, false, false, false, false, 0xF4⟩),
    (0x070000000000000000000002, .ffree ⟨.n64, 0, none, none, false, 0, false, false, false, false, 0x2⟩),
    (0x07876ED0F7A00001C0000001, .flink ⟨.n64, 237, (dst 0xD 0xA 0x1EF .r .par), none, false, 0, false, false, false, false, 0x1⟩),
    (0x082ED8000000000000000000, .send ⟨.i16, 219, none, none, false, 0, false, false, false, false, 0x0⟩),
    (0x0880D0B2C9AA5C4F08013005, .count ⟨.n64, 26, (dst 0x1 0x6 0x593 .r .cur), (dst 0x5 0x2 0xE27 .p .nxt), false, 0, false, false, false, true, 0x3005⟩),
    (0x097004F2F5BB5CBEC808007F, .relay ⟨.f32, 0, (dst 0x9 0xE 0x5EB .r .par), (dst 0xD 0xA 0xE5F .r .nxt), false, 0, true, false, false, false, 0x7F⟩),
    (0x098768000000000002010000, .halt ⟨.n64, 237, none, none, false, 32, false, false, false, true, 0x0⟩)] : List (BitVec 96 × Instr))

theorem test_decode_class0 : words0.all reads = true := by decide +kernel

/-- Records of the integer nodes (R85), written out from R67 and R68. -/
def words1 : List (BitVec 96 × Instr) :=
  ([
    (0x2018029683C2CD6750040032, .add ⟨.i32, 0, (dst 0x5 0x2 0xD07 .p .par), (dst 0x1 0x6 0x6B3 .p .par), false, 0, false, true, false, false, 0x32⟩),
    (0x2098021AA3000001A004001D, .sub ⟨.i32, 0, (dst 0x4 0x3 0x546 .l .nxt), none, false, 0, false, true, false, false, 0x1D⟩),
    (0x213007492E55B3D108080000, .neg ⟨.n8, 0, (dst 0xE 0x9 0x25C .p .cur), (dst 0xA 0xD 0x9E8 .p .nxt), false, 0, true, false, false, false, 0x0⟩),
    (0x2190347A15000001C1280000, .mul ⟨.n32, 6, (dst 0x8 0xF 0x42A .l .par), none, false, 18, true, false, false, false, 0x0⟩),
    (0x220803838286996200040038, .mulh ⟨.i64, 0, (dst 0x7 0x0 0x705 .l .cur), (dst 0x3 0x4 0xCB1 .l .cur), false, 0, false, true, false, false, 0x38⟩),
    (0x22B6E12978000001C0080000, .div ⟨.n8, 220, (dst 0x2 0x5 0x2F0 .l .par), none, false, 0, true, false, false, false, 0x0⟩),
    (0x230265E2FC800001A0080000, .rem ⟨.n64, 76, (dst 0xB 0xC 0x5F9 .l .nxt), none, false, 0, true, false, false, false, 0x0⟩),
    (0x2394A21ECB20EC44080B0000, .min ⟨.n32, 148, (dst 0x4 0x3 0xD96 .r .cur), (dst 0x0 0x7 0x622 .l .nxt), false, 0, true, false, true, true, 0x0⟩),
    (0x2432692AF00C3CA820080000, .max ⟨.n8, 77, (dst 0x2 0x5 0x5E0 .l .nxt), (dst 0x6 0x1 0xE54 .l .cur), false, 0, true, false, false, false, 0x0⟩),
    (0x24B916D4D780000181810000, .abs ⟨.i8, 34, (dst 0xD 0xA 0x9AF .l .cur), none, false, 24, false, false, false, true, 0x0⟩),
    (0x252C021AB300FDA4A0050036, .and ⟨.i16, 128, (dst 0x4 0x3 0x566 .l .nxt), (dst 0x0 0x7 0xED2 .r .cur), false, 0, false, true, false, true, 0x36⟩),
    (0x25B47D6A9C3D3D182CE80000, .or ⟨.n8, 143, (dst 0xA 0xD 0x538 .r .nxt), (dst 0xE 0x9 0xE8C .l .nxt), true, 14, true, false, false, false, 0x0⟩),
    (0x260018B5D9AA400F40080000, .xor ⟨.n64, 3, (dst 0x1 0x6 0xBB3 .r .par), (dst 0x5 0x2 0x7 .p .cur), false, 0, true, false, false, false, 0x0⟩),
    (0x268002947BA2C68748080000, .not ⟨.n64, 0, (dst 0x5 0x2 0x8F7 .r .par), (dst 0x1 0x6 0x343 .p .nxt), false, 0, true, false, false, false, 0x0⟩),
    (0x27380039294873CD28040022, .shl ⟨.i8, 0, (dst 0x0 0x7 0x252 .p .nxt), (dst 0x4 0x3 0x9E6 .p .nxt), false, 0, false, true, false, false, 0x22⟩),
    (0x27B616D6CFB3CC56480B0000, .shr ⟨.n8, 194, (dst 0xD 0xA 0xD9F .r .par), (dst 0x9 0xE 0x62B .l .nxt), false, 0, true, false, true, true, 0x0⟩),
    (0x2828065B8711F9742004003C, .sar ⟨.i16, 0, (dst 0xC 0xB 0x70E .l .nxt), (dst 0x8 0xF 0xCBA .l .cur), false, 0, false, true, false, false, 0x3C⟩),
    (0x28B028B3F1800001C0080000, .rotl ⟨.n8, 5, (dst 0x1 0x6 0x7E3 .l .par), none, false, 0, true, false, false, false, 0x0⟩),
    (0x2939BED0BFC00001C0010000, .clz ⟨.i8, 55, (dst 0xD 0xA 0x17F .p .par), none, false, 0, false, false, false, true, 0x0⟩),
    (0x29B007C53EC00001A0080000, .ctz ⟨.n8, 0, (dst 0xF 0x8 0xA7D .p .nxt), none, false, 0, true, false, false, false, 0x0⟩)] : List (BitVec 96 × Instr)) ++
  ([
    (0x2A3802967BA2CE86D0000000, .popc ⟨.i8, 0, (dst 0x5 0x2 0xCF7 .r .par), (dst 0x1 0x6 0x743 .r .par), false, 0, false, false, false, false, 0x0⟩),
    (0x2AA7CB0ACA400001A5EB0004, .cmp ⟨.n16, 249, (dst 0x6 0x1 0x594 .p .nxt), none, true, 30, true, false, true, true, 0x4⟩),
    (0x2B03AF49DE15B010B0080000, .sel ⟨.n64, 117, (dst 0xE 0x9 0x3BC .l .nxt), (dst 0xA 0xD 0x808 .r .par), false, 0, true, false, false, false, 0x0⟩),
    (0x2BB806D2E7D3DCF68004001F, .addsat ⟨.i8, 0, (dst 0xD 0xA 0x5CF .p .cur), (dst 0x9 0xE 0xE7B .r .cur), false, 0, false, true, false, false, 0x1F⟩),
    (0x2C3420B091800001A0580000, .subsat ⟨.n8, 132, (dst 0x1 0x6 0x123 .l .nxt), none, false, 5, true, false, false, false, 0x0⟩),
    (0x2CB8029193C2D12720000243, .ext ⟨.i8, 0, (dst 0x5 0x2 0x327 .p .nxt), (dst 0x1 0x6 0x893 .p .cur), false, 0, false, false, false, false, 0x243⟩),
    (0x2D1818B3A1AA59EF15F000C7, .ins ⟨.i32, 3, (dst 0x1 0x6 0x743 .r .cur), (dst 0x5 0x2 0xCF7 .p .par), true, 31, false, false, false, false, 0xC7⟩),
    (0x2D92930FF224A8A1500B000B, .cvt ⟨.n32, 82, (dst 0x6 0x1 0xFE4 .r .par), (dst 0x2 0x5 0x450 .p .par), false, 0, true, false, true, true, 0xB⟩),
    (0x2E1BBA1C330000018000FF83, .idx ⟨.i32, 119, (dst 0x4 0x3 0x866 .l .cur), none, false, 0, false, false, false, false, 0xFF83⟩),
    (0x2EB16D6CD45D2438900B0000, .bnd ⟨.n8, 45, (dst 0xA 0xD 0x9A8 .p .cur), (dst 0xE 0x9 0x21C .r .par), false, 0, true, false, true, true, 0x0⟩)] : List (BitVec 96 × Instr))

theorem test_decode_class1 : words1.all reads = true := by decide +kernel

/-- Records of the floating-point nodes (R86), written out from R67 and R68. -/
def words2 : List (BitVec 96 × Instr) :=
  ([
    (0x406067C24EA00001800B0001, .fadd ⟨.bf16, 12, (dst 0xF 0x8 0x49D .r .cur), none, false, 0, true, false, true, true, 0x1⟩),
    (0x40E0274E6E35AED0900B0002, .fsub ⟨.bf16, 4, (dst 0xE 0x9 0xCDC .r .cur), (dst 0xA 0xD 0x768 .r .par), false, 0, true, false, true, true, 0x2⟩),
    (0x4168C92ED82C2C08A005002D, .fmul ⟨.f16, 25, (dst 0x2 0x5 0xDB0 .r .nxt), (dst 0x6 0x1 0x604 .r .cur), false, 0, false, true, false, true, 0x2D⟩),
    (0x41F7C21A0B20FF4540080004, .ffma ⟨.f32, 248, (dst 0x4 0x3 0x416 .r .par), (dst 0x0 0x7 0xFA2 .p .cur), false, 0, true, false, false, false, 0x4⟩),
    (0x426B3F4A0655BF714005001C, .fmin ⟨.f16, 103, (dst 0xE 0x9 0x40C .p .par), (dst 0xA 0xD 0xFB8 .p .cur), false, 0, false, true, false, true, 0x1C⟩),
    (0x42E8047E3D00000180040036, .fmax ⟨.f16, 0, (dst 0x8 0xF 0xC7A .l .cur), none, false, 0, false, true, false, false, 0x36⟩),
    (0x43676B801AA00001800B0000, .fabs ⟨.bf16, 237, (dst 0x7 0x0 0x35 .r .cur), none, false, 0, true, false, true, true, 0x0⟩),
    (0x43E8021DE3000001C0000000, .fneg ⟨.f16, 0, (dst 0x4 0x3 0xBC6 .l .par), none, false, 0, false, false, false, false, 0x0⟩),
    (0x447A765E0711EF7440500006, .fcmp ⟨.f64, 78, (dst 0xC 0xB 0xC0E .l .par), (dst 0x8 0xF 0x7BA .l .cur), false, 5, false, false, false, false, 0x6⟩),
    (0x4491FE5B3F11FB9408010072, .fcvt ⟨.n32, 63, (dst 0xC 0xB 0x67E .l .cur), (dst 0x8 0xF 0xDCA .l .nxt), false, 0, false, false, false, true, 0x72⟩),
    (0x456AAD6B745D3AB908010001, .frnd ⟨.f16, 85, (dst 0xA 0xD 0x6E8 .p .cur), (dst 0xE 0x9 0xD5C .p .nxt), false, 0, false, false, false, true, 0x1⟩),
    (0x45F71294F3A2C4A6A80B0000, .fclass ⟨.f32, 226, (dst 0x5 0x2 0x9E7 .r .nxt), (dst 0x1 0x6 0x253 .r .nxt), false, 0, true, false, true, true, 0x0⟩),
    (0x46696A1FE340E8E4CD200002, .fscl ⟨.f16, 45, (dst 0x4 0x3 0xFC6 .p .par), (dst 0x0 0x7 0x472 .r .nxt), true, 18, false, false, false, false, 0x2⟩),
    (0x46F8B6D027D3D7F648010003, .frcp ⟨.f64, 22, (dst 0xD 0xA 0x4F .p .par), (dst 0x9 0xE 0xBFB .l .nxt), false, 0, false, false, false, true, 0x3⟩),
    (0x476038B139CA538E325B0004, .frsq ⟨.bf16, 7, (dst 0x1 0x6 0x273 .p .nxt), (dst 0x5 0x2 0x9C7 .l .par), false, 37, true, false, true, true, 0x4⟩),
    (0x47E0003E59400001A0080001, .fsqrt ⟨.bf16, 0, (dst 0x0 0x7 0xCB2 .p .nxt), none, false, 0, true, false, false, false, 0x1⟩),
    (0x4868047DB51961BD10040011, .fdiv ⟨.f16, 0, (dst 0x8 0xF 0xB6A .l .cur), (dst 0xC 0xB 0xDE .p .par), false, 0, false, true, false, false, 0x11⟩),
    (0x48F348B659AA4E0F400B0001, .fexp2 ⟨.f32, 105, (dst 0x1 0x6 0xCB3 .r .par), (dst 0x5 0x2 0x707 .p .cur), false, 0, true, false, true, true, 0x1⟩),
    (0x4977083B81400001800B0002, .flog2 ⟨.f32, 225, (dst 0x0 0x7 0x702 .p .cur), none, false, 0, true, false, true, true, 0x2⟩),
    (0x49F28DE36C9F1ADAD00B0003, .ftanh ⟨.f32, 81, (dst 0xB 0xC 0x6D9 .l .par), (dst 0xF 0x8 0xD6D .r .par), false, 0, true, false, true, true, 0x3⟩)] : List (BitVec 96 × Instr)) ++
  ([
    (0x4A700294D3C0000180080004, .fsigm ⟨.f32, 0, (dst 0x5 0x2 0x9A7 .p .cur), none, false, 0, true, false, false, false, 0x4⟩)] : List (BitVec 96 × Instr))

theorem test_decode_class2 : words2.all reads = true := by decide +kernel

/-- Records of the tile nodes (R87), written out from R67 and R68. -/
def words3 : List (BitVec 96 × Instr) :=
  ([
    (0x603ED8062E20000186880008, .tadd ⟨.i8, 219, (dst 0x0 0x0 0xC5C .r .cur), none, true, 40, true, false, false, false, 0x8⟩),
    (0x60D678020EA01F5328080004, .tsub ⟨.e4m3, 207, (dst 0x0 0x0 0x41D .r .nxt), (dst 0x0 0x0 0xFA9 .p .nxt), false, 0, true, false, false, false, 0x4⟩),
    (0x61276002B8C01D8A2805003C, .tmul ⟨.n16, 236, (dst 0x0 0x0 0x571 .p .nxt), (dst 0x0 0x0 0xEC5 .l .nxt), false, 0, false, true, false, true, 0x3C⟩),
    (0x61D088066BA0000180080001, .tfma ⟨.e4m3, 17, (dst 0x0 0x0 0xCD7 .r .cur), none, false, 0, true, false, false, false, 0x1⟩),
    (0x6258000666800001A004000D, .tmin ⟨.e5m2, 0, (dst 0x0 0x0 0xCCD .l .nxt), none, false, 0, false, true, false, false, 0xD⟩),
    (0x62FFD8025D801E1E88050027, .tmax ⟨.f64, 251, (dst 0x0 0x0 0x4BB .l .cur), (dst 0x0 0x0 0xF0F .r .nxt), false, 0, false, true, false, true, 0x27⟩),
    (0x636000047A400680B0080002, .tabs ⟨.bf16, 0, (dst 0x0 0x0 0x8F4 .p .nxt), (dst 0x0 0x0 0x340 .r .par), false, 0, true, false, false, false, 0x2⟩),
    (0x63ECC00183A0116693E10004, .tneg ⟨.f16, 152, (dst 0x0 0x0 0x307 .r .cur), (dst 0x0 0x0 0x8B3 .r .par), false, 62, false, false, false, true, 0x4⟩),
    (0x6468000383A0000180040016, .tscl ⟨.f16, 0, (dst 0x0 0x0 0x707 .r .cur), none, false, 0, false, true, false, false, 0x16⟩),
    (0x64B18000274017F548000008, .tbias ⟨.n8, 48, (dst 0x0 0x0 0x4E .p .par), (dst 0x0 0x0 0xBFA .p .nxt), false, 0, false, false, false, false, 0x8⟩),
    (0x657A48057CA00001C0000000, .tclamp ⟨.f64, 73, (dst 0x0 0x0 0xAF9 .r .par), none, false, 0, false, false, false, false, 0x0⟩),
    (0x65E000008C40155828080031, .tact ⟨.bf16, 0, (dst 0x0 0x0 0x118 .p .nxt), (dst 0x0 0x0 0xAAC .l .nxt), false, 0, true, false, false, false, 0x31⟩),
    (0x6638000513A0000180083C05, .tred ⟨.i8, 0, (dst 0x0 0x0 0xA27 .r .cur), none, false, 0, true, false, false, false, 0x3C05⟩),
    (0x66900005DD40001C880803FF, .ttr ⟨.n32, 0, (dst 0x0 0x0 0xBBA .p .cur), (dst 0x0 0x0 0xE .r .nxt), false, 0, true, false, false, false, 0x3FF⟩),
    (0x6766F00456800633000B6402, .tbc ⟨.bf16, 222, (dst 0x0 0x0 0x8AD .l .cur), (dst 0x0 0x0 0x319 .p .cur), false, 0, true, false, true, true, 0x6402⟩),
    (0x678EE80173A0000186B00000, .tsel ⟨.i64, 221, (dst 0x0 0x0 0x2E7 .r .cur), none, true, 43, false, false, false, false, 0x0⟩),
    (0x684D880267C00001A005000A, .tcmp ⟨.e2m1, 177, (dst 0x0 0x0 0x4CF .p .nxt), none, false, 0, false, true, false, true, 0xA⟩),
    (0x68C000032C401BD8C8080000, .tcpy ⟨.t2, 0, (dst 0x0 0x0 0x658 .p .par), (dst 0x0 0x0 0xDEC .r .nxt), false, 0, true, false, false, false, 0x0⟩),
    (0x69700005E22000E080080155, .tview ⟨.f32, 0, (dst 0x0 0x0 0xBC4 .r .cur), (dst 0x0 0x0 0x70 .r .cur), false, 0, true, false, false, false, 0x155⟩),
    (0x69D9B8006E20000180001403, .tcond ⟨.e5m2, 55, (dst 0x0 0x0 0xDC .r .cur), none, false, 0, false, false, false, false, 0x1403⟩)] : List (BitVec 96 × Instr)) ++
  ([
    (0x6A4800075FA00A1710000C21, .tcvt ⟨.e2m1, 0, (dst 0x0 0x0 0xEBF .r .cur), (dst 0x0 0x0 0x50B .p .par), false, 0, false, false, false, false, 0xC21⟩),
    (0x6AB000041400000180080011, .trng ⟨.n8, 0, (dst 0x0 0x0 0x828 .l .cur), none, false, 0, true, false, false, false, 0x11⟩),
    (0x6B1800075B400A0548000022, .tfill ⟨.i32, 0, (dst 0x0 0x0 0xEB6 .p .par), (dst 0x0 0x0 0x502 .p .nxt), false, 0, false, false, false, false, 0x22⟩),
    (0x6B900001CC40105910080433, .tiota ⟨.n32, 0, (dst 0x0 0x0 0x398 .p .cur), (dst 0x0 0x0 0x82C .p .par), false, 0, true, false, false, false, 0x433⟩)] : List (BitVec 96 × Instr))

theorem test_decode_class3 : words3.all reads = true := by decide +kernel

/-- Records of the matrix and list nodes (R88), written out from R67 and R68. -/
def words4 : List (BitVec 96 × Instr) :=
  ([
    (0x800000011080132A80001906, .accNew ⟨.n64, 0, (dst 0x0 0x0 0x221 .l .cur), (dst 0x0 0x0 0x995 .r .cur), false, 0, false, false, false, false, 0x1906⟩),
    (0x808000079F80091708080000, .accZero ⟨.n64, 0, (dst 0x0 0x0 0xF3F .l .cur), (dst 0x0 0x0 0x48B .p .nxt), false, 0, true, false, false, false, 0x0⟩),
    (0x810000000000000000000000, .accFree ⟨.n64, 0, none, none, false, 0, false, false, false, false, 0x0⟩),
    (0x8185956F64000001C008004B, .accGet ⟨.n64, 178, (dst 0xA 0xD 0xEC8 .l .par), none, false, 0, true, false, false, false, 0x4B⟩),
    (0x8206D80117C013362E580005, .mma ⟨.n64, 219, (dst 0x0 0x0 0x22F .p .nxt), (dst 0x0 0x0 0x99B .l .nxt), true, 37, true, false, false, false, 0x5⟩),
    (0x82864005F980008F40000ABC, .mmaPair ⟨.n64, 200, (dst 0x0 0x0 0xBF3 .l .par), (dst 0x0 0x0 0x47 .p .cur), false, 0, false, false, false, false, 0xABC⟩),
    (0x8307B004DA400001C3680000, .smma ⟨.n64, 246, (dst 0x0 0x0 0x9B4 .p .par), none, false, 54, true, false, false, false, 0x0⟩),
    (0x83D80000AA00000180001234, .accDrain ⟨.e5m2, 0, (dst 0x0 0x0 0x154 .l .cur), none, false, 0, false, false, false, false, 0x1234⟩),
    (0x841C0006CC000C58B0000003, .accRl ⟨.i32, 128, (dst 0x0 0x0 0xD98 .l .nxt), (dst 0x0 0x0 0x62C .r .par), false, 0, false, false, false, false, 0x3⟩),
    (0x84F8600220001FE92BB00C81, .rlIns ⟨.f64, 12, (dst 0x0 0x0 0x440 .l .nxt), (dst 0x0 0x0 0xFF4 .p .nxt), false, 59, false, false, false, false, 0xC81⟩),
    (0x857B080123800001C6700000, .rlMerge ⟨.f64, 97, (dst 0x0 0x0 0x247 .l .par), none, true, 39, false, false, false, false, 0x0⟩),
    (0x859BA803F6000001C0010402, .rlOut ⟨.i32, 117, (dst 0x0 0x0 0x7EC .l .par), none, false, 0, false, false, false, true, 0x402⟩),
    (0x8678030C6244A6E080000015, .rlThr ⟨.f64, 0, (dst 0x6 0x1 0x8C4 .p .cur), (dst 0x2 0x5 0x370 .r .cur), false, 0, false, false, false, false, 0x15⟩)] : List (BitVec 96 × Instr))

theorem test_decode_class4 : words4.all reads = true := by decide +kernel

/-- Records of the memory nodes (R89), written out from R67 and R68. -/
def words5 : List (BitVec 96 × Instr) :=
  ([
    (0xA058012CA02C25E848004800, .ld ⟨.e5m2, 0, (dst 0x2 0x5 0x940 .r .par), (dst 0x6 0x1 0x2F4 .l .nxt), false, 0, false, false, false, false, 0x4800⟩),
    (0xA0E27800000000000428F800, .st ⟨.bf16, 79, none, none, true, 2, true, false, false, false, 0xF800⟩),
    (0xA137B83CD948640C0DAB1001, .ldt ⟨.n8, 247, (dst 0x0 0x7 0x9B2 .p .cur), (dst 0x4 0x3 0x206 .l .nxt), true, 26, true, false, true, true, 0x1001⟩),
    (0xA1A380000000000003582800, .stt ⟨.n16, 112, none, none, false, 53, true, false, false, false, 0x2800⟩),
    (0xA200000718200001A0007BFF, .tld ⟨.n64, 0, (dst 0x0 0x0 0xE30 .r .nxt), none, false, 0, false, false, false, false, 0x7BFF⟩),
    (0xA284B21C3B20E784A80B0800, .tst ⟨.n64, 150, (dst 0x4 0x3 0x876 .r .nxt), (dst 0x0 0x7 0x3C2 .r .nxt), false, 0, true, false, true, true, 0x800⟩),
    (0xA306C003A1A019EF500B0201, .talloc ⟨.n64, 216, (dst 0x0 0x0 0x743 .r .par), (dst 0x0 0x0 0xCF7 .p .par), false, 0, true, false, true, true, 0x201⟩),
    (0xA3800001F32010A4A0040033, .tref ⟨.n64, 0, (dst 0x0 0x0 0x3E6 .r .nxt), (dst 0x0 0x0 0x852 .r .cur), false, 0, false, true, false, false, 0x33⟩),
    (0xA40000000000000000000083, .trel ⟨.n64, 0, none, none, false, 0, false, false, false, false, 0x83⟩),
    (0xA4822003B72019B450004002, .pumpGet ⟨.n64, 68, (dst 0x0 0x0 0x76E .r .par), (dst 0x0 0x0 0xCDA .l .par), false, 0, false, false, false, false, 0x4002⟩),
    (0xA505C12D084C234900018803, .pumpPut ⟨.n64, 184, (dst 0x2 0x5 0xA10 .p .cur), (dst 0x6 0x1 0x1A4 .p .cur), false, 0, false, false, false, true, 0x8803⟩),
    (0xA5869A96F3C00001A00B7005, .pumpXfer ⟨.n64, 211, (dst 0x5 0x2 0xDE7 .p .nxt), none, false, 0, true, false, true, true, 0x7005⟩),
    (0xA60197C326D79BF3280000FE, .pumpMcast ⟨.n64, 50, (dst 0xF 0x8 0x64D .p .nxt), (dst 0xB 0xC 0xDF9 .p .nxt), false, 0, false, false, false, false, 0xFE⟩),
    (0xA686200344A00001A0004810, .gather ⟨.n64, 196, (dst 0x0 0x0 0x689 .r .nxt), none, false, 0, false, false, false, false, 0x4810⟩),
    (0xA700E03BD908780D0808C020, .scatter ⟨.n64, 28, (dst 0x0 0x7 0x7B2 .l .cur), (dst 0x4 0x3 0xC06 .p .nxt), false, 0, true, false, false, false, 0xC020⟩),
    (0xA7847E5AF731FCB450010011, .stream ⟨.n64, 143, (dst 0xC 0xB 0x5EE .r .par), (dst 0x8 0xF 0xE5A .l .par), false, 0, false, false, false, true, 0x11⟩),
    (0xA81757C4C6B78473200B1B80, .atomAdd ⟨.n32, 234, (dst 0xF 0x8 0x98D .r .nxt), (dst 0xB 0xC 0x239 .p .cur), false, 0, true, false, true, true, 0x1B80⟩),
    (0xA8FE62908380000180001B80, .atomFadd ⟨.f64, 204, (dst 0x5 0x2 0x107 .l .cur), none, false, 0, false, false, false, false, 0x1B80⟩),
    (0xA9195F4C8E55A55127F11B80, .atomMin ⟨.i32, 43, (dst 0xE 0x9 0x91C .p .nxt), (dst 0xA 0xD 0x2A8 .p .cur), true, 63, false, false, false, true, 0x1B80⟩),
    (0xA9997478B51975BCC0001B80, .atomMax ⟨.i32, 46, (dst 0x8 0xF 0x16A .l .par), (dst 0xC 0xB 0xADE .r .cur), false, 0, false, false, false, false, 0x1B80⟩)] : List (BitVec 96 × Instr)) ++
  ([
    (0xAA013F48F6200001A4EB1B80, .atomAnd ⟨.n64, 39, (dst 0xE 0x9 0x1EC .r .nxt), none, true, 14, true, false, true, true, 0x1B80⟩),
    (0xAA94E74D4615A270280B1B80, .atomOr ⟨.n32, 156, (dst 0xE 0x9 0xA8C .l .nxt), (dst 0xA 0xD 0x138 .l .nxt), false, 0, true, false, true, true, 0x1B80⟩),
    (0xAB0E25E79CA00001C0001B80, .atomXor ⟨.i64, 196, (dst 0xB 0xC 0xF39 .r .par), none, false, 0, false, false, false, false, 0x1B80⟩),
    (0xAB94A12B100C3B2828081B80, .atomXchg ⟨.n32, 148, (dst 0x2 0x5 0x620 .l .nxt), (dst 0x6 0x1 0xD94 .l .nxt), false, 0, true, false, false, false, 0x1B80⟩),
    (0xAC15BE5D4F31E254B7981B80, .atomCas ⟨.n32, 183, (dst 0xC 0xB 0xA9E .r .nxt), (dst 0x8 0xF 0x12A .r .par), true, 57, true, false, false, false, 0x1B80⟩),
    (0xAC97200000000000000822C0, .redAdd ⟨.n32, 228, none, none, false, 0, true, false, false, false, 0x22C0⟩),
    (0xAD7E080000000000000022C0, .redFadd ⟨.f64, 193, none, none, false, 0, false, false, false, false, 0x22C0⟩),
    (0xAD9FD80000000000000022C0, .redMin ⟨.i32, 251, none, none, false, 0, false, false, false, false, 0x22C0⟩),
    (0xAE1FC00000000000000022C0, .redMax ⟨.i32, 248, none, none, false, 0, false, false, false, false, 0x22C0⟩),
    (0xAE83680000000000057822C0, .redAnd ⟨.n64, 109, none, none, true, 23, true, false, false, false, 0x22C0⟩),
    (0xAF09100000000000000122C0, .redOr ⟨.i64, 34, none, none, false, 0, false, false, false, true, 0x22C0⟩),
    (0xAF8F100000000000000122C0, .redXor ⟨.i64, 226, none, none, false, 0, false, false, false, true, 0x22C0⟩),
    (0xB0000128984C350850001800, .phase ⟨.n64, 0, (dst 0x2 0x5 0x130 .p .par), (dst 0x6 0x1 0xA84 .l .par), false, 0, false, false, false, false, 0x1800⟩),
    (0xB08006D10F93D35690083800, .fence ⟨.n64, 0, (dst 0xD 0xA 0x21F .l .cur), (dst 0x9 0xE 0x9AB .r .par), false, 0, true, false, false, false, 0x3800⟩),
    (0xB100DD6B0C5D3B5911710800, .afence ⟨.n64, 27, (dst 0xA 0xD 0x618 .p .cur), (dst 0xE 0x9 0xDAC .p .par), false, 23, false, false, false, true, 0x800⟩)] : List (BitVec 96 × Instr))

theorem test_decode_class5 : words5.all reads = true := by decide +kernel

/-- Records of the task nodes (R90), written out from R67 and R68. -/
def words6 : List (BitVec 96 × Instr) :=
  ([
    (0xC0004D6A94200001C4B10000, .spawn ⟨.n64, 9, (dst 0xA 0xD 0x528 .r .par), none, true, 11, false, false, false, true, 0x0⟩),
    (0xC08178000000000000210000, .join ⟨.n64, 47, none, none, false, 2, false, false, false, true, 0x0⟩),
    (0xC10115E3BCA00001C0080000, .enq ⟨.n64, 34, (dst 0xB 0xC 0x779 .r .par), none, false, 0, true, false, false, false, 0x0⟩),
    (0xC180003D7908628C08000000, .deq ⟨.n64, 0, (dst 0x0 0x7 0xAF2 .l .cur), (dst 0x4 0x3 0x146 .l .nxt), false, 0, false, false, false, false, 0x0⟩),
    (0xC2000568BC200001A0000000, .steal ⟨.n64, 0, (dst 0xA 0xD 0x178 .r .nxt), none, false, 0, false, false, false, false, 0x0⟩),
    (0xC280030B5244BA20C8000000, .qlen ⟨.n64, 0, (dst 0x6 0x1 0x6A4 .p .par), (dst 0x2 0x5 0xD10 .r .nxt), false, 0, false, false, false, false, 0x0⟩),
    (0xC30007C70E978B5210000009, .barArrive ⟨.n64, 0, (dst 0xF 0x8 0xE1D .l .cur), (dst 0xB 0xC 0x5A9 .l .par), false, 0, false, false, false, false, 0x9⟩),
    (0xC387B3838AA6994340000133, .barComb ⟨.n64, 246, (dst 0x7 0x0 0x715 .r .par), (dst 0x3 0x4 0xCA1 .p .cur), false, 0, false, false, false, false, 0x133⟩),
    (0xC40000000000000000080445, .rcntAdd ⟨.n64, 0, none, none, false, 0, true, false, false, false, 0x445⟩),
    (0xC480021B5B400001A0081A03, .rcntSnap ⟨.n64, 0, (dst 0x4 0x3 0x6B6 .p .nxt), none, false, 0, true, false, false, false, 0x1A03⟩),
    (0xC50000387948768C88080000, .yield ⟨.n64, 0, (dst 0x0 0x7 0xF2 .p .cur), (dst 0x4 0x3 0xB46 .r .nxt), false, 0, true, false, false, false, 0x0⟩)] : List (BitVec 96 × Instr))

theorem test_decode_class6 : words6.all reads = true := by decide +kernel

/-- Records of the system nodes (R91), written out from R67 and R68. -/
def words7 : List (BitVec 96 × Instr) :=
  ([
    (0xE00000000000000000000000, .trap ⟨.n64, 0, none, none, false, 0, false, false, false, false, 0x0⟩),
    (0xE08000000000000000000000, .brk ⟨.n64, 0, none, none, false, 0, false, false, false, false, 0x0⟩),
    (0xE10048000000000002210077, .evt ⟨.n64, 9, none, none, false, 34, false, false, false, true, 0x77⟩),
    (0xE18007C336B79BB308080000, .sysrd ⟨.n64, 0, (dst 0xF 0x8 0x66D .r .cur), (dst 0xB 0xC 0xDD9 .p .nxt), false, 0, true, false, false, false, 0x0⟩),
    (0xE200EB87FAA0000180000000, .syswr ⟨.n64, 29, (dst 0x7 0x0 0xFF5 .r .cur), none, false, 0, false, false, false, false, 0x0⟩),
    (0xE28024F02DBB57DE400B0000, .nrgRd ⟨.n64, 4, (dst 0x9 0xE 0x5B .r .par), (dst 0xD 0xA 0xBEF .l .cur), false, 0, true, false, true, true, 0x0⟩),
    (0xE303538032C697A2400BBEEF, .seed ⟨.n64, 106, (dst 0x7 0x0 0x65 .p .par), (dst 0x3 0x4 0xBD1 .l .cur), false, 0, true, false, true, true, 0xBEEF⟩),
    (0xE387474B6615BAF1480B000C, .cfgLd ⟨.n64, 232, (dst 0xE 0x9 0x6CC .l .par), (dst 0xA 0xD 0xD78 .p .nxt), false, 0, true, false, true, true, 0xC⟩),
    (0xE4000218E3200001C0000000, .cfgDrop ⟨.n64, 0, (dst 0x4 0x3 0x1C6 .r .par), none, false, 0, false, false, false, false, 0x0⟩),
    (0xE48005E76CA00001C0000000, .winOpen ⟨.n64, 0, (dst 0xB 0xC 0xED9 .r .par), none, false, 0, false, false, false, false, 0x0⟩),
    (0xE502F6D7A7B3C9F7300B0000, .winClose ⟨.n64, 94, (dst 0xD 0xA 0xF4F .r .nxt), (dst 0x9 0xE 0x4FB .p .par), false, 0, true, false, true, true, 0x0⟩)] : List (BitVec 96 × Instr))

theorem test_decode_class7 : words7.all reads = true := by decide +kernel

/-! Witnesses: for each statement a state and operands that meet its hypotheses. -/

theorem wit_SteeringPassesTokens :
    does 0x000 (ndNone .n64 0) (val 1) none none = true ∧ does 0x001 (nd .n64 0) (hnd 0) none none = true ∧ does 0x002 (nd .n8 0xFF) (val 1) none none = true ∧
    does 0x006 (nd .n64 0) (hnd 0) (val 0) none = true ∧ does 0x007 (nd .n64 0) (val 1) none none = true ∧ does 0x008 (nd .n64 0) nul none none = true ∧
    does 0x009 (nd .n64 0) erro none none = true ∧ does 0x00A (nd .n64 0) erro none none = true ∧ does 0x00C (nd .n64 0) (val 1) none none = true := by
  decide +kernel

theorem wit_SteeringRoutesTokens :
    does 0x004 (nd .n64 1) (val 1) (val 0) none = true ∧ does 0x004 (nd .n64 1) nul (val 1) none = true ∧ does 0x005 (nd .n64 0) nul (val 1) none = true ∧
    does 0x005 (nd .n64 0) nul nul none = true ∧ does 0x012 (nd .n64 0x8F) (val 1) none none = true ∧ does 0x003 (ndNone .n64 0) erro none none = true := by
  decide +kernel

theorem wit_MadeErrorsAndSends :
    does 0x00B (nd .n64 0xFF) (val 1) none none = true ∧ does 0x00B (ndNone .n64 0x80) (val 1) none none = true ∧
    -- the target word (R283) names no PE: DX -1 from column 0; it names PE 0 by its offsets; it names PE (15, 31) absolutely
    does 0x010 (ndNone .n64 0) (val 1) (val (15 * 2 ^ 10)) none = true ∧ does 0x010 (ndNone .n64 0) (val 1) (val (2 * 2 ^ 18)) none = true ∧
    does 0x010 (ndNone .n64 0) (val 1) (val (2 ^ 32 + 15 * 2 ^ 33 + 31 * 2 ^ 37)) none = true := by decide +kernel

theorem wit_CountCountsArrivals :
    does 0x011 (nd .n64 0) nul none none = true ∧ does 0x011 (nd .n64 0xF000) (val 3) none none = true ∧ does 0x011 (nd .n64 0xFFFF) (val 3) none none = true := by
  decide +kernel

theorem wit_FramesOpenedFreedAndLinked_falloc : ∀ lit ∈ [0x000, 0x01C], does 0x00D (nd .n64 (BitVec.ofNat 16 lit)) (val 1) none none = true ∧
    (let s := on base (val 1) none none
     let g := base.cfgs.headD slotCfg
     cfgAt s s.cur.cfg = some g ∧ g.bh = s.cur.bh ∧ throttleOk (firedPE s s) s.cur.node s.cur.fp (lit / 16) = true ∧
       (frameFit s g.bh (rectPes g) (lit % 8)).isSome = true ∧
       budgetOk s (chargeAddr s g.vf s.cur.lid s.cur.task) .frame (2 ^ (lit % 8) * (rectPes g).length) = true) := by decide +kernel

theorem wit_FramesOpenedFreedAndLinked : (∀ lit ∈ [0, 1, 2, 3], does 0x00E (ndNone .n64 (BitVec.ofNat 16 lit)) (val 1) none none = true) ∧ does 0x00E (ndNone .n64 3) (hnd 0) none none = true ∧
    does 0x00F (nd .n64 1) (val 5) (val 0) none = true ∧ frameLive (firedPE base base) 0 = true ∧
    does 0x00F (nd .n64 0) (val 5) (val 1023) none = true ∧ frameLive (firedPE base base) 1023 = false := by decide +kernel

theorem wit_HaltEndsLaunch : does 0x013 (ndNone .n64 0) (val 9) none none = true ∧ launchAt (on base (val 9) none none) 7 = some launch7 ∧ launch7.st ≠ .ending := by
  decide +kernel

theorem wit_IntegerArithmeticWraps :
    (∀ c ∈ [0x040, 0x041, 0x043, 0x044, 0x047, 0x048], does c (nd .i8 0) (val 0x80) (val 0xFF) none = true ∧ does c (ndLit .n64 0xFFFF) (val 5) none none = true) ∧
    does 0x042 (nd .i64 0) (val (2 ^ 63)) none none = true ∧ does 0x049 (nd .i8 0) (val 0x80) none none = true := by decide +kernel

/-- A state whose divider is held for another 5 cycles. -/
def heldUnit (s : State) (u : Nat) : State := modPE s 0 0 fun p => { p with units := sput 0 p.units u 5 }

theorem wit_IntegerDivision : ∀ c ∈ [0x045, 0x046],
    does c (nd .i8 0) (val 0x80) (val 0xFF) none = true ∧ does c (nd .n64 0) (val 7) (val 0) none = true ∧ unitFree base base.cur unitIntDiv = true ∧
    performs (on (heldUnit base unitIntDiv) (val 7) (val 2) none) c (nd .n64 0) = true ∧ unitFree (heldUnit base unitIntDiv) base.cur unitIntDiv = false := by decide +kernel

theorem wit_BitwiseAndShifts :
    (∀ c ∈ [0x04A, 0x04B, 0x04C, 0x04E, 0x04F, 0x050, 0x051], does c (nd .i16 0) (val 0x8001) (val 16) none = true) ∧
    ∀ c ∈ [0x04D, 0x052, 0x053, 0x054], does c (nd .n32 0) (val 0) none none = true := by decide +kernel

theorem wit_IntegerSelectsAndConversions :
    (∀ m ∈ [0, 1, 2, 3, 4, 5], does 0x055 (nd .i32 (BitVec.ofNat 16 m)) (val 1) (val 2) none = true) ∧ does 0x056 (nd .n64 0) (val 1) (val 2) (val 0) = true ∧
    does 0x057 (nd .i8 0) (val 127) (val 1) none = true ∧ does 0x058 (nd .n8 0) (val 0) (val 1) none = true ∧ does 0x059 (nd .i8 0x0FC0) (val 1) none none = true ∧
    does 0x05A (nd .n64 0x0FC0) (val 1) (val 2) none = true ∧ does 0x05B (nd .i8 0) (val 128) none none = true ∧ does 0x05B (nd .i8 8) (val 128) none none = true ∧
    does 0x05C (nd .n64 0xFFFF) (val 1) (val 2) none = true := by decide +kernel

theorem wit_BoundsNodeTraps : does 0x05D (nd .i64 0) (val 3) (val 4) none = true ∧ does 0x05D (nd .i64 0) (val 4) (val 4) none = true ∧
    (let c := firingCtx (on base (val 3) (val 4) none) 0x05D (nd .i64 0); 0 ≤ vecInt .i64 (lVec .i64 c) ∧ vecInt .i64 (lVec .i64 c) < vecInt .i64 (rVec .i64 c)) ∧
    (let c := firingCtx (on base (val 4) (val 4) none) 0x05D (nd .i64 0); ¬(vecInt .i64 (lVec .i64 c) < vecInt .i64 (rVec .i64 c))) := by decide +kernel

theorem wit_PipelinedFloatResults :
    (∀ c ∈ [0x080, 0x081, 0x082, 0x084, 0x085, 0x088, 0x08C], does c (nd .f32 0) (val 0x7F800000) (val 1) none = true) ∧
    does 0x083 (nd .f64 4) (val 1) (val 2) (val 3) = true ∧ ∀ c ∈ [0x086, 0x087, 0x089, 0x08A, 0x08B], does c (nd .f16 0) (val 0xFFFF) none none = true := by
  decide +kernel

theorem wit_IterativeFloatResults :
    (∀ c ∈ [0x08D, 0x08E, 0x08F, 0x091, 0x092, 0x093, 0x094], does c (nd .f32 0) (val 0) none none = true) ∧ does 0x090 (nd .f32 0) (val 1) (val 0) none = true ∧
    unitFree base base.cur unitFpDiv = true ∧ unitFree base base.cur unitSfu = true ∧ performs (on (heldUnit base unitFpDiv) (val 7) (val 2) none) 0x090 (nd .f32 0) = true ∧
    unitFree (heldUnit base unitFpDiv) base.cur unitFpDiv = false := by decide +kernel

theorem wit_RoundingAndNans : (0 < 2) ∧ (({ ftzi := false, ftzo := false, nanpay := false, ovfinf := true, evmask := 0 } : Policy).nanpay = false) ∧
    (floatDecode .f16 0x7E01).isNan = true := by decide +kernel

/-- With every operand 1, every exact result is at most 2, which f32 holds. -/
theorem wit_FloatResultsRoundedOnce : finitePattern .f32 0x3F800000 ∧ finitePattern .f32 0x40000000 ∧
    (let v : ℝ := (patternValue .f32 0x3F800000 : ℝ)
     v ≠ 0 ∧ 0 < v ∧ ∀ q ∈ [v + v, v - v, v * v, v * v + v, v / v, 1 / v, Real.sqrt v, 1 / Real.sqrt v], |q| ≤ |(patternValue .f32 0x40000000 : ℝ)|) := by
  have one : patternValue .f32 0x3F800000 = 1 := by norm_num [patternValue, floatFmt, tyWidth, bitAt]
  have two : patternValue .f32 0x40000000 = 2 := by norm_num [patternValue, floatFmt, tyWidth, bitAt]
  refine ⟨by unfold finitePattern; decide +kernel, by unfold finitePattern; decide +kernel, ?_⟩
  rw [one, two]
  norm_num

theorem wit_RankedKeysAndInserts : (floatDecode .f32 0x80000000).isNan = false ∧ [(5, 0), (4, 1)].Pairwise (fun a b : Nat × Nat => ranksAbove a b = true) := by
  decide +kernel

/-- A tile instruction's checks hold on the tiles of `base` with one more condition on l's tile. -/
def tileDoes (code unit : Nat) (n : Node) (l r p : Option Operand) (ok : State → Ctx → TileIn → Bool) : Bool :=
  let s := on base l r p
  let c := firingCtx s code n
  performs s code n && (tileIn s c .l).any fun x => tileReady s c unit x.t.tid x.t.rows && ok s c x

theorem wit_ElementwiseTileResults :
    (∀ c ∈ [0x0C0, 0x0C1, 0x0C2, 0x0C4, 0x0C5], tileDoes c unitVector (nd .f32 0) (hnd 0) (hnd 0) none (fun s c l =>
      isElem l .f32 && (tileIn s c .r).any fun r => isElem r .f32 && r.t.rows == l.t.rows) = true) ∧
    tileDoes 0x0C0 unitVector (ndLit .i32 3) (hnd 1) none none (fun _ _ l => isElem l .i32) = true ∧
    (∀ c ∈ [0x0C6, 0x0C7], tileDoes c unitVector (nd .f32 0) (hnd 0) none none (fun _ _ l => isElem l .f32) = true) ∧
    tileDoes 0x0C3 unitVector (ndLit .f32 0x3F80) (hnd 0) none (hnd 0) (fun s c l => isElem l .f32 && (tileIn s c .p).any fun p => isElem p .f32 && p.t.rows == l.t.rows) = true := by
  decide +kernel

theorem wit_TileTransformsAndSelects :
    tileDoes 0x0C8 unitVector (nd .bf16 0) (hnd 6) (hnd 6) none (fun s c l => isElem l .bf16 && (tileIn s c .r).any fun r => isElem r .bf16) = true ∧
    tileDoes 0x0C9 unitVector (nd .i32 0) (hnd 1) (hnd 1) none (fun s c l => isElem l .i32 && (tileIn s c .r).any fun r => isElem r .i32) = true ∧
    tileDoes 0x0CA unitVector (nd .f32 0) (hnd 0) (val 0) (val 1) (fun _ _ l => isElem l .f32) = true ∧
    tileDoes 0x0CB unitVector (nd .f32 0) (hnd 0) none none (fun _ _ l => isElem l .f32) = true ∧
    tileDoes 0x0CB unitSfu (nd .f32 7) (hnd 0) none none (fun _ _ l => isElem l .f32) = true ∧
    tileDoes 0x0CF unitVector (nd .f32 0) (hnd 0) (hnd 0) (hnd 1) (fun s c l => isElem l .f32 && ((tileIn s c .r).any fun r => isElem r .f32 && r.t.rows == l.t.rows) &&
      (tileIn s c .p).any fun p => p.t.form == 0 && p.t.rows == l.t.rows && tyWidth p.t.fmt == 32) = true ∧
    tileDoes 0x0D0 unitVector (nd .i32 5) (hnd 1) (hnd 1) none (fun s c l => isElem l .i32 && (tileIn s c .r).any fun r => isElem r .i32 && r.t.rows == l.t.rows) = true ∧
    tileDoes 0x0D1 unitVector (nd .i8 0) (hnd 2) none none (fun _ _ l => decide (l.t.fmt = .i8)) = true := by decide +kernel

/-- The same for an instruction whose literal names the result's TID. -/
def tidDoes (code unit : Nat) (n : Node) (l p : Option Operand) (ok : State → Ctx → TidEntry → Bool) : Bool :=
  let s := on base l none p
  let c := firingCtx s code n
  performs s code n && (tidEntry s s.cur.vf (n.lit.extractLsb' 0 10).toNat).any fun t => tileReady s c unit t.tid t.rows && ok s c t

theorem wit_TileReshapesAndConversions :
    tidDoes 0x0CC unitVector (nd .f32 0x3000) (hnd 6) none (fun s c _ => (tileIn s c .l).any fun l => l.t.form == 0 && l.t.fmt != .t2 && !tyInt l.t.fmt) = true ∧
    tidDoes 0x0CC unitVector (nd .i32 1) (hnd 1) none (fun s c _ => (tileIn s c .l).any fun l => l.t.form == 0 && tyInt l.t.fmt) = true ∧
    tidDoes 0x0CD unitVector (nd .f32 0) (hnd 0) none (fun s c _ => (tileIn s c .l).any fun l => isElem l .f32) = true ∧
    tidDoes 0x0CE unitVector (nd .f32 0x4000) (hnd 0) none (fun s c _ => (tileIn s c .l).any fun l => isElem l .f32) = true ∧
    tidDoes 0x0D6 unitVector (nd .i32 1) (val 7) none (fun _ _ _ => true) = true ∧ tidDoes 0x0D7 unitVector (nd .i32 0x401) (val 7) none (fun _ _ _ => true) = true ∧
    tidDoes 0x0D3 unitConv (nd .bf16 3) (hnd 6) none (fun s c _ => (randomTile s c false).isSome && (tileIn s c .l).any fun l => isElem l .bf16) = true ∧
    tidDoes 0x0D3 unitConv (nd .bf16 0x1402) (hnd 6) (hnd 4) (fun s c _ => (randomTile s c true).isSome && (tileIn s c .l).any fun l => isElem l .bf16) = true ∧
    tidDoes 0x0D4 unitConv (nd .bf16 6) (hnd 0) none (fun s c _ => (randomTile s c false).isSome && (tileIn s c .l).any fun l => l.t.form == 0) = true ∧
    tidDoes 0x0D2 unitVector (nd .n64 1) (hnd 0) none (fun s c t => (tileIn s c .l).any fun l => l.t.form == 0 && ceilDiv t.rows 4 == l.e.pages.length && l.e.ref != 1) = true ∧
    (let s := on (modPE base 0 0 fun p => handlePut p 0 { tileEnt 0 [0] with ref := 1 }) (hnd 0) none none
     performs s 0x0D2 (nd .n64 1) = true ∧ unitFree s s.cur unitVector = true ∧
       (tileIn s (firingCtx s 0x0D2 (nd .n64 1)) .l).any (fun l => l.t.form == 0 && l.e.pages.length == 1 && l.e.ref == 1) = true) := by decide +kernel

theorem wit_FiringsThatWait_trng : tidDoes 0x0D5 unitVector (nd .n8 4) (val 1) none (fun s c t => (allocTile s c.f s.cur.pe t.tid t.rows true).isSome) = true := by decide +kernel

theorem wit_AccumulatorsMadeReadAndDrained_new (e0 : HEntry) : does 0x100 (nd .n64 0x1FFA) (val 1) none none = true ∧ does 0x100 (nd .n64 0) (val 1) none none = true ∧
    (allocAcc (on base (val 1) none none) (firingCtx (on base (val 1) none none) 0x100 (nd .n64 0x1FFA)).f 2 e0).isSome = true ∧
    (allocAcc (on base (val 1) none none) (firingCtx (on base (val 1) none none) 0x100 (nd .n64 0)).f 1 e0).isSome = true := by
  refine ⟨by decide +kernel, by decide +kernel, ?_, ?_⟩ <;> rfl

theorem wit_AccumulatorsMadeReadAndDrained :
    does 0x101 (nd .n64 0) (hnd 8) none none = true ∧ does 0x102 (ndNone .n64 0) (hnd 8) none none = true ∧ does 0x103 (nd .n64 0xE) (hnd 8) (val 255) none = true ∧
    does 0x103 (nd .n64 0x10E) (hnd 10) (val 15) none = true ∧ accBusy (firedPE base base) [8] = false ∧ accBusy (firedPE base base) [10] = false ∧
    (let c := firingCtx (on base (hnd 10) (val 15) none) 0x103 (nd .n64 0x10E); (accIn (on base (hnd 10) (val 15) none) c .l).2.mode = 2 ∧ (rWord c).toNat < 1024) := by
  decide +kernel

/-- The operand tiles of a matrix firing on l and r, and its accumulator on p, meet a condition. -/
def mmaDoes (s : State) (code : Nat) (n : Node) (ok : Ctx → TileIn → TileIn → HEntry → Bool) : Bool :=
  let c := firingCtx s code n
  performs s code n && arrayFree s s.cur && (tileIn s c .l).any fun l => (tileIn s c .r).any fun r => !accBusy (firedPE s s) [(accIn s c .p).1] && ok c l r (accIn s c .p).2

theorem wit_MmaMergesDotProducts :
    mmaDoes (on base (hnd 2) (hnd 3) (hnd 8)) 0x104 (nd .n64 0) (fun _ l r e => (mmaReason l r e false).isNone) = true ∧
    mmaDoes (on base (hnd 2) (hnd 3) (hnd 8)) 0x104 (nd .n64 1) (fun _ l r e => (mmaReason l r e true).isNone && (boundList (firedPE base base) 0).isNone) = true ∧
    mmaDoes (on base (hnd 2) (hnd 3) (hnd 8)) 0x104 (nd .n64 3) (fun _ l r e => (mmaReason l r e true).isNone && (boundList (firedPE base base) 1).any fun b =>
      !accBusy (firedPE base base) [8, b.1] && pruneTest (firedPE base base) l r b.2) = true := by decide +kernel

theorem wit_FiringsThatWait :
    mmaDoes (on base (hnd 2) (hnd 3) (hnd 8)) 0x105 (nd .n64 5) (fun _ l r e => (mmaReason l r e false).isNone) = true ∧
    mmaDoes (on base (hnd 2) (hnd 3) (hnd 8)) 0x106 (nd .n64 0) (fun _ l r e => (mmaReason l r e false).isNone) = true ∧ (firedPE base base).coord = [] ∧
    (let s := modPE base 0 1 (fun _ => pe0)
     let t : State := { s with cur := { Firing.empty with pe := 1, l := hnd 2, r := hnd 3, p := val 0 } }
     let n := nd .n64 5
     ∃ o ∈ opMap, o.code = 0x105 ∧ verdict t { o with kp := .trigger } n (applyEpass { o with kp := .trigger } n t.cur) = .perform ∧
       linkRoom t 0 1 = true ∧ arrayFree t t.cur = true ∧ (let c := firingCtx t 0x105 n
         (tileIn t c .l).any (fun l => (tileIn t c .r).any fun r => (tileReason l r).isNone) = true)) := by decide +kernel

theorem wit_AccumulatorsMadeReadAndDrained_drain : (let s := on base (hnd 8) none (hnd 4)
    let n := nd .f32 (5 + 16 * 0)
    let c := firingCtx s 0x107 n
    performs s 0x107 n = true ∧ accBusy (firedPE s s) [(accIn s c .l).1] = false ∧ (accIn s c .l).2.mode ≠ 2 ∧ (tidEntry s 0 0).isSome = true ∧
      (randomTile s c true).isSome = true ∧ tileReady s c unitAccPort 0 4 = true) := by decide +kernel

theorem wit_RankedListInstructions : unitFree base base.cur unitList = true ∧
    (let s := on base (hnd 8) (hnd 3) (hnd 9)
     let c := firingCtx s 0x108 (nd .i32 0)
     performs s 0x108 (nd .i32 0) = true ∧ (tileIn s c .r).isSome = true ∧ (accIn s c .l).2.mode ≠ 2 ∧ (accIn s c .p).2.mode = 2 ∧ (accIn s c .p).2.keyType = tyCode .i32 ∧
       accBusy (firedPE s s) [8, 9] = false) ∧
    (let s := on base (hnd 1) (hnd 9) none
     let c := firingCtx s 0x109 (nd .i32 127)
     performs s 0x109 (nd .i32 127) = true ∧ (accIn s c .r).2.mode = 2 ∧ (accIn s c .r).2.keyType = tyCode .i32 ∧
       (tileIn s c .l).any (fun b => b.t.form == 0 && decide (127 + 1 ≤ rowElems b.t.fmt)) = true) ∧
    (let s := on base (hnd 5) (hnd 9) none
     let c := firingCtx s 0x10A (nd .i32 0)
     performs s 0x10A (nd .i32 0) = true ∧ (tileIn s c .l).any (fun b => b.t.form == 3 && b.e.keyType == tyCode .i32) = true) ∧
    (let s := on base (hnd 10) none none
     let c := firingCtx s 0x10B (nd .i32 5)
     performs s 0x10B (nd .i32 5) = true ∧ (tidEntry s 0 5).any (fun t => t.rows == 16 && tileReady s c unitList t.tid t.rows) = true ∧ (accIn s c .l).2.mode = 2 ∧
       (accIn s c .l).2.keyType = tyCode .i32 ∧ performs s 0x10C (nd .i32 0x1F) = true) := by decide +kernel

/-- A pending store of PE 0 at address 64: eight bytes of 5. -/
def store5 : PStore :=
  { sid := 0, bh := 0, pe := 0, vf := 0, lid := 7, cfg := 0, phase := 0, wave := 0, lsid := 0, task := none, va := 64, bytes := List.replicate 8 5, parts := [(0, 64, 8, false, false)], early := false,
    shared := 1, tag := none, leaving := none, payer := 0 }

theorem wit_NodeLoadsAreSent : tagRoom base base.cur = true ∧ does 0x140 (nd .i64 0) (val 64) none none = true ∧ does 0x142 (nd .i64 2) (val 56) (val 1) none = true ∧
    (ownSupply (on base (val 64) none none) 64 8).length ≠ 8 ∧
    (let s := on { base with stores := [store5] } (val 64) none none; performs s 0x140 (nd .i64 0) = true ∧ (ownSupply s 64 8).length = 8) ∧
    (let s := on base (val 64) none none; launchAt s s.cur.lid = some launch7 ∧ launch7.halted = false) ∧
    tidDoes 0x144 unitVector (nd .n64 0) (val 4096) none (fun s c t => (allocTile s c.f s.cur.pe t.tid t.rows true).isSome && (ownSupply s 4096 (512 * t.rows)).length != 512 * t.rows) = true := by
  decide +kernel

theorem wit_NodeStoresStayPending : (cfgAt base base.cur.cfg).isSome = true ∧ base.cur.fails = false ∧ does 0x141 (ndNone .i64 0) (val 65) (val 1) none = true ∧
    does 0x143 (ndNone .i16 0) (val 64) (val 1) (val 2) = true ∧ (cistTake base base.cur (cistEntries 65 8)).isSome = true ∧
    (let s := on base (hnd 0) (val 4096) none
     let c := firingCtx s 0x145 (nd .n64 0)
     performs s 0x145 (nd .n64 0) = true ∧ tagRoom s s.cur = true ∧ 0 < tileHeight s s.cur.vf (handleAt (firedPE s s) (handleIdx (payloadAt c.f .l))) ∧
       (cistTake s s.cur (cistEntries (rWord c).toNat 512)).isSome = true ∧ c.f.r = some { kind := .value, payload := rWord c }) := by decide +kernel

/-- A store that the event of R166 has failed, and one whose group fails at once because the cistern is full. -/
theorem wit_NodeStoresStayPending_fails : ∀ x ∈ [(0x141, val 64, val 1, none), (0x143, val 64, val 1, val 2), (0x145, hnd 0, val 4096, none)],
    (let s := on base x.2.1 x.2.2.1 x.2.2.2
     performs { s with cur := { s.cur with fails := true } } x.1 (ndNone .i64 0) = true) ∧
    (let s := on (modBulk { base with stores := [{ store5 with shared := 262144 }] } 0 fun y => { y with cfMode := [(0, 0)] }) x.2.1 x.2.2.1 x.2.2.2
     performs s x.1 (nd .i64 0) = true ∧ (cistTake s s.cur (cistEntries 64 8)).isNone = true ∧ (cistTake s s.cur (cistEntries 4096 512)).isNone = true ∧
       failing s s.cur = true) := by decide +kernel

theorem wit_TileReferences : tidDoes 0x146 unitVector (nd .n64 0) (val 1) none (fun s c t => (allocTile s c.f s.cur.pe t.tid t.rows false).isSome) = true ∧
    does 0x147 (nd .n64 0) (hnd 0) (val 252) none = true ∧ does 0x147 (ndLit .n64 0xFF) (hnd 0) none none = true ∧ does 0x148 (ndNone .n64 1) (hnd 0) none none = true ∧
    (handleAt (firedPE base base) 0).ref + 252 + (usedDests (nd .n64 0)).length ≤ 255 ∧ 255 < (handleAt (firedPE base base) 0).ref + 255 + (usedDests (nd .n64 0)).length := by
  decide +kernel

theorem wit_AtomicsAreSent :
    (∀ c ∈ [0x150, 0x152, 0x153, 0x154, 0x155, 0x156, 0x157], does c (nd .i64 0x87C0) (val 64) (val 1) none = true ∧ does c (nd .i32 0) (val 62) (val 1) none = true) ∧
    does 0x151 (nd .f32 0) (val 64) (val 1) none = true ∧ does 0x151 (nd .f64 0) (val 68) (val 1) none = true ∧ does 0x158 (nd .i64 0) (val 64) (val 1) (val 2) = true ∧
    does 0x158 (nd .i64 0) (val 71) (val 1) (val 2) = true ∧
    (∀ c ∈ [0x159, 0x15B, 0x15C, 0x15D, 0x15E, 0x15F], does c (ndNone .i64 0) (val 64) (val 1) none = true ∧ does c (ndNone .i64 0) (val 65) (val 1) none = true) ∧
    does 0x15A (ndNone .f32 0) (val 64) (val 1) none = true ∧ does 0x15A (ndNone .f32 0) (val 66) (val 1) none = true ∧
    (7 : Nat) ≤ bits (vfScope base base.cur.vf) 0 3 := by decide +kernel

theorem wit_PhasesAndFences : (∀ c ∈ [0x160, 0x161, 0x162], does c (nd .n64 0x3800) (val 5) none none = true ∧ does c (nd .n64 0) nul none none = true) ∧
    (let g := base.cfgs.headD slotCfg; nextPhase g 0 0 < g.boundary + 2) ∧ (7 : Nat) ≤ bits (vfScope base base.cur.vf) 0 3 ∧ base.stores = [] := by decide +kernel

theorem wit_EngineCommandsEntered : Memory.wf base.mem = true ∧ base.cmds = [] ∧ (getPE base 0 0).spoilt = [] ∧
    (∀ a ∈ [pumpOf base.cur, gatherOf base.cur, .stream 0 0], agentCmds base a = [] ∧ standsIn base 0 0 0 = true ∧ masterFrozen base (agentMaster a).1 (agentMaster a).2 = false) ∧
    (∀ x ∈ [(0x14A, hnd 0, val 4096), (0x14B, hnd 0, val 0), (0x14C, hnd 0, val 0), (0x14E, hnd 0, hnd 1)],
      does x.1 (nd .n64 0x8000) x.2.1 x.2.2 none = true ∧ engineFree base (pumpOf base.cur) = true ∧ engineFree base (gatherOf base.cur) = true) ∧
    does 0x149 (nd .n64 0) (val 4096) (val 4) none = true ∧ does 0x14D (nd .n64 1) (hnd 1) (val 4096) none = true ∧
    (tidEntry base 0 (bits (descOf base base.cur (nd .n64 1)) 16 10)).any (fun t => (allocTile base base.cur 0 t.tid t.rows true).isSome) = true ∧ base.cmds = [] ∧
    (∃ o ∈ opMap, o.code = 0x14F ∧
      let s := on base (val 0) none none
      let n := nd .n64 0
      let d := descOf s s.cur n
      let f := applyEpass { o with kl := .trigger } n s.cur
      bitAt d 6 = false ∧ verdict s { o with kl := .trigger } n f = .perform ∧ accHeld (firedPE s s) f = false ∧ (agentCmds s (.stream 0 0)).length < 4) ∧
    (∃ o ∈ opMap, o.code = 0x14F ∧
      let d := (descs.headD 0).toNat + 2 ^ 6
      let s := on { base with cfgs := [{ slotCfg with descs := [BitVec.ofNat 256 d] }] } (val 4064) none none
      let n := nd .n64 0
      let f := applyEpass o n s.cur
      descOf s s.cur n = d ∧ verdict s o n f = .perform ∧ accHeld (firedPE s s) f = false ∧ sextInt 32 (bits d 192 32) ≤ streamDelta d f + (affineExtent d).1 ∧
        streamDelta d f + (affineExtent d).2 ≤ sextInt 32 (bits d 192 32) + (bits d 224 32 : Nat)) := by decide +kernel

theorem wit_QueueNodesEnterCommands : commandRoom base 0 0 = true ∧ does 0x182 (nd .n64 0) (val 5) (val 0) none = true ∧
    (∀ c ∈ [0x183, 0x184, 0x185, 0x1C8], does c (nd .n64 0) (val 0) none none = true) ∧ does 0x180 (nd .n64 0) (val 64) (val 0) none = true ∧
    does 0x181 (ndNone .n64 0) (val 64) none none = true ∧ does 0x181 (ndNone .n64 0) (val 65) none none = true := by decide +kernel

theorem wit_SystemNodesEnterCommands : commandRoom base 0 0 = true ∧
    (∀ a ∈ [0x20008, 0x0BFFFFF8, 0x20004, 0x0C000000], does 0x1C3 (nd .n64 0) (val a) none none = true ∧ does 0x1C4 (nd .n64 0) (val a) (val 1) none = true) ∧
    (∀ a ∈ [0x71, 0x70, 0x80, 0x0C], does 0x1CA (nd .n64 0) (val a) none none = true) ∧ samePartition base 0 (homeOf 0) = true ∧ samePartition base 1 (homeOf 0) = false ∧
    (∀ c ∈ [0x1C9, 0x1C7, 0x1C5, 0x18A, 0x1C6], does c (nd .n64 0) (val 64) none none = true) ∧ nextRunnable base 0 0 0 = none ∧ base.cmds = [] ∧
    (cfgAt base 0).any (fun g => g.respat / 2 % 2 == 1) = true ∧
    (let s := on { base with cfgs := [{ slotCfg with respat := 0 }] } (val 1) none none; performs s 0x1C6 (nd .n64 0) = true) ∧
    (let s := on (regPut { base with cfgs := base.cfgs ++ [{ slotCfg with id := 3, vf := 1 }] } 0 0x18008 (word (1 + 2 ^ 9))) (val 1) none none
     performs s 0x18A (nd .n64 0) = true ∧ nextRunnable s 0 0 0 = some 1) := by decide +kernel

/-- VFHND of VF 0 names node 0 of PE 0 of bulkhead 0, port l, frame 0. -/
def handled : State := regPut base 0 0x20400 1

theorem wit_TrapsBreaksAndEvents : (∀ c ∈ [0x1C0, 0x1C1, 0x1C2], does c (ndNone .n64 0) (val 5) none none = true) ∧ handlerPort base 0 = none ∧
    performs (on handled (val 5) none none) 0x1C0 (ndNone .n64 0) = true ∧ handlerPort handled 0 = some .l ∧
    (let s := on (regPut { base with mem := [(0x41, 1), (0x48, 1)] } 0 0x20028 0x40) none none none
     let d := evqFor s 0 none (some 7)
     let at_ := mem64 s d + 32 * (mem32 s (d + 20) % 2 ^ (memByte s (d + 8)).toNat)
     d = 0x40 ∧ mem64 s d % 32 = 0 ∧ (mem32 s (d + 20) + 2 ^ 32 - mem32 s (d + 16)) % 2 ^ 32 < 2 ^ (memByte s (d + 8)).toNat ∧ s.ecc = [] ∧ s.bmeta = [] ∧
       stackFenced s d = false ∧ stackFenced s (mem64 s d) = false ∧ d + 32 ≤ at_) := by
  decide +kernel

/-- A combiner's frame slot: CUR, C0, A0, C1, A1. -/
def combiner (cur c0 c1 : Nat) : State := modPE base 0 0 fun p => { p with frames := [(2, word (cur + c0 * 2 ^ 32 + c1 * 2 ^ 48))], tags := [(2, mkTag tagFilled 0 0)] }

theorem wit_BarriersAndCounters : does 0x186 (nd .n64 15) (val 1) none none = true ∧
    (∀ ws ∈ [[], [word (2 * 2 ^ 32)], [word (2 * 2 ^ 32), word (1 + 2 * 2 ^ 32)]],
      let s := on (combiner 0 0 0) (val (2 ^ 32)) none none
      let t : State := { s with cur := { s.cur with rel := some ws } }
      performs t 0x187 (nd .n64 0x0020) = true ∧ (firingCtx t 0x187 (nd .n64 0x0020)).f.rel = some ws) ∧
    does 0x188 (ndNone .n64 1) (val 62) none none = true ∧ does 0x188 (ndNone .n64 1) (val 63) none none = true ∧
    does 0x189 (nd .n64 0x3FC0) (val 64) none none = true ∧ does 0x189 (nd .n64 0) (val 66) none none = true ∧ commandRoom base 0 0 = true := by decide +kernel

/-- Queue 0 of bulkhead 0, of one kind and one entry of room, a ring of two at 0x10000 that holds `len` entries. -/
def withQueue (s : State) (kind len : Nat) : State :=
  regPut (regPut s 0 0x40000 (word (0x10000 + 8 + 2 * kind + 1))) 0 0x40008 (word (len * 2 ^ 32))

/-- A capability for that queue with all rights. -/
def cap0 : Nat := 7 * 2 ^ 16 + capCheck base 0 (7 * 2 ^ 16) * 2 ^ 40

/-- A command of node 0 of PE 0. -/
def command (code : Nat) (l r : Option Operand) : Cmd :=
  { commandFor base { f := { Firing.empty with l := l, r := r, lid := 7 }, n := nd .n64 0, code := code, pol := firingPolicy base base.cur } with id := 0 }

theorem wit_BarriersAndCounters_unit :
    (let k := command 0x189 (val 64) none; cmdAt { base with cmds := [k] } k.id = some k) ∧
    (let s := modPE base 0 0 fun p => { p with issued := [{ id := 9, f := Firing.empty, node := nd .n64 0, due := 0, emits := [], effects := [], flags := 0, wait := .nothing, writes := [], quiet := false }] }
     ∃ it ∈ (firedPE s s).issued, it.id = 9) := by decide +kernel

/-- A queue command stands alone. -/
def queued (kind len : Nat) (c : Cmd) : State := { withQueue base kind len with cmds := [c] }

/-- It meets what a queue operation at bulkhead 0 needs, and its capability is good. -/
def queueTurn (s : State) (c : Cmd) : Bool :=
  cmdAt s 0 == some c && commandAwake s c && c.stage == 0 && !cmdBehind s c && c.agent == .pe c.f.bh c.f.pe && capBh (cmdCap c) == 0 &&
  (wayJudge s c.f.bh 0 c.f.vf 3 0 8 8 c.f.bh).isNone && bhRuns s 0 && poolRoom s 0 1024 8 c.f.vf (qWaiting s 0) && (replyBlocked s c.f.bh 0 8 c.f.bh).isNone &&
  (launchAt s c.f.lid).all fun l => !l.halted

theorem wit_QueueNodesEnterCommands_records : (∀ k ∈ [1, 2], performs (on (withQueue base k 0) (val 64) (val cap0) none) 0x180 (nd .n64 0) = true ∧
    qKind (withQueue base k 0) 0 0 = k) ∧ capBh cap0 = 0 ∧ capQ cap0 = 0 := by decide +kernel

theorem wit_QueueEntriesMove :
    (∀ x ∈ [(0x182, 0, 1), (0x182, 2, 1), (0x183, 0, 2), (0x183, 1, 2), (0x184, 0, 4), (0x184, 2, 4), (0x185, 2, 7)],
      let c := command x.1 (if x.1 = 0x182 then val 5 else val cap0) (val cap0)
      let s := queued 0 x.2.1 c
      queueTurn s c = true ∧ capBad s 0 (cmdCap c) x.2.2 = none ∧ qKind s 0 0 = 0 ∧ qLen s 0 0 = x.2.1 ∧ qCapacity s 0 0 = 2 ∧
        (let payer := vfRcbAddr s (qOwner s 0 0); budgetOk (rcbNote s payer) payer .qent 1 = true) ∧ s.ecc = [] ∧ s.bmeta = []) ∧
    (let c := { command 0x180 (val 64) (val cap0) with bytes := List.replicate 128 0 }
     let s := queued 2 0 c
     queueTurn s c = true ∧ capBad s 0 (cmdCap c) 1 = none ∧ qKind s 0 0 = 2 ∧ qLen s 0 0 < qCapacity s 0 0 ∧ launchFields c.bytes = true ∧ commandRow s c 0 = none ∧
       (let payer := vfRcbAddr s (qOwner s 0 0); budgetOk (rcbNote s payer) payer .qent 1 = true) ∧ s.ecc = [] ∧ s.bmeta = []) := by
  decide +kernel

theorem wit_BadCapabilityTaken : ∀ x ∈ [0x182, 0x183, 0x184, 0x185],
    let c := command x (val 0) (val 0)
    let s := queued 0 0 c
    queueTurn s c = true ∧ (capBad s 0 (cmdCap c) (cmdRight x)).isSome = true ∧ fdomOf s c.f.lid c.f.task = false ∧ (getPE s 0 0).frozen = none ∧
      fdomOf { s with launches := [{ launch7 with fdom := true }] } c.f.lid c.f.task = true := by decide +kernel

theorem wit_RegisterAccesses :
    (∀ x ∈ [(0x1C3, 0x20004), (0x1C3, 0x20600), (0x1C3, 0x20000), (0x1C4, 0x20400), (0x1C4, 0x12000), (0x1C3, 0x01020000)],
      let c := command x.1 (val x.2) (val 1)
      let s := { base with cmds := [c] }
      cmdAt s 0 = some c ∧ commandAwake s c = true ∧ c.stage = 0 ∧ cmdBehind s c = false ∧ c.agent = .pe 0 0 ∧ (launchAt s c.f.lid).all (fun l => !l.halted) = true) ∧
    (let c := command 0x1C4 (val 0x20400) (val 1)
     (regWrite { base with cmds := [c] } 0 0x20400 1).any fun u => cmdAt u 0 == some c && (launchAt u c.f.lid).all (fun l => !l.halted) && cycleOf u 0 == 0) = true ∧
    regName 0x20004 = none ∧ regName 0x20000 = some .bhctl ∧ regAllowed base 0 0 false .bhctl = true ∧ regAllowed base 1 0 false .bhctl = false ∧
    regAllowed base 0 0 true .bhctl = false ∧ regAllowed base 0 0 true (.vfhnd 0) = true ∧ namesOther base 0 0 (.vfhnd 0) 1 = false ∧
    regAllowed base 0 0 true (.vfscope 0) = true ∧ regAllowed base 0 0 true (.quant 0 0) = true ∧ namesOther base 0 0 (.quant 0 0) (32 + 2 ^ 9) = true ∧
    fdomOf base 7 none = false ∧ (getPE base 0 0).frozen = none ∧ isRootVf base 0 1 = false ∧ base.powered = true ∧ regBits base 0 0x11038 0 1 ≠ 1 ∧
    regBits (regPut base 0 0x11038 1) 0 0x11038 0 1 = 1 := by decide +kernel

theorem wit_ActingRegisterWrites :
    qEn (withQueue base 0 0) 0 0 = true ∧ ((regGet base 0 0x40000).getLsbD 0 = false) ∧ ((regGet (withQueue base 0 0) 0 0x40000).getLsbD 0 = true) ∧ ((regGet (withQueue base 0 0) 0 0x40000).extractLsb' 1 2 ≠ 3) ∧
    regBits base 0 0x20A20 0 1 ≠ 1 ∧ regBits (regPut base 0 0x20A20 1) 0 0x20A20 0 1 = 1 ∧ bhState State.reset 0 = 2 ∧ bhState base 0 ≠ 2 ∧
    shapeOk 0 (0x9000 + 5) = true ∧ tenantShape (regGet State.reset 0 0x20000).toNat = tenantShape (0x9000 + 2 ^ 17) ∧ shapeOk 0 0 = false ∧
    gateOk base 0 0x14 = true ∧ gateOk base 0 8 = false ∧ rangeOk 0 (2 ^ 34) = true ∧ rangeOk 0 0 = false ∧ (150 ≠ regBits base 0 0x20010 0 10) ∧
    portOfCode (bits (regGet base 0 0x20048).toNat 21 2) = some .l ∧ bits (regGet (regPut base 0 0x20048 0x600000) 0 0x20048).toNat 21 2 = 3 ∧
    vfEnabled base 1 = false ∧ base.powered = true ∧ ((regGet base 0 0x20200).getLsbD 0 = false) ∧ ((regGet (regPut base 0 0x20200 1) 0 0x20200).getLsbD 0 = true) ∧
    ((regGet base 0 0x21000).getLsbD 0 = false) ∧ ((regGet (regPut base 0 0x21000 1) 0 0x21000).getLsbD 0 = true) ∧
    (let s := { regPut base 0 0x12400 0x200001 with mem := [(0x400, (1 : Byte)), (0x402, 0x30), (0x200059, 4)] }
     vfEnabled s 0 = true ∧ bitAt (saveWord s 0 0 0) 0 = true ∧ (tableVfs (regPut s 0 0x18000 (word (2 ^ 9))) 0).length ≤ 64) := by decide +kernel

/-- A token for node 0 of PE 0, whose record is `w`, on its way alone. -/
def flying (w : BitVec 96) (port : Port) (kind : Kind) : State :=
  { modPE base 0 0 (fun p => { p with instr := sputs 0 p.instr 0 (recordBytes w) }) with
    flights := [{ tok := Token.mk 9 kind 0 0 port 0 0 0 0 0, src := 0, vc := 0, due := 0, lid := 7, loc := false }] }

/-- The token fits its node, whose arity is `a`. -/
def arrives (s : State) (a : Nat) (coord : Bool) : Bool :=
  (s.flights[0]?).any fun x => flightDue s 0 x && isResident s 0 0 0 &&
    (match arrivalCheck s x.tok with | .fits _ o n => o.code != 0x187 && isCoord o x.tok == coord && arity o n == a | _ => false)

/-- A barrier token at a combiner of barrier 0 (EXPECT 2) whose slot and hold queue are given. -/
def combining (cur c0 c1 : Nat) (hold : List Flight) (w : Nat) : State :=
  let s := flying (0x187 * 2 ^ 87 + 2 * 2 ^ 75 + 3 * 2 ^ 53 + 3 * 2 ^ 31 + 0x20) .l .value
  { modPE s 0 0 (fun p => { p with frames := [(2, word (cur + c0 * 2 ^ 32 + c1 * 2 ^ 48))], tags := [(2, mkTag tagFilled 0 0)], hold := hold }) with
    flights := s.flights.map fun x => { x with tok := { x.tok with payload := word w } } }

/-- It can be combined, `d` phases from CUR, while `held` arrivals are held. -/
def combines (s : State) (d held : Nat) : Bool :=
  (s.flights[0]?).any fun x => flightDue s 0 x && isResident s 0 0 0 && decide ((getPE s 0 0).hold.length = held) && readyRoom (getPE s 0 0) x.vc &&
    (match arrivalCheck s x.tok with
     | .fits c o n => o.code == 0x187 && verdict s o n (combFiring s c o n x.tok x.vc) == .perform && decide (n.lit = 0x20) &&
        barPayload (combFiring s c o n x.tok x.vc) == x.tok.payload && barDist (barRead (getPE s 0 0) 0 0 2) (bits x.tok.payload.toNat 0 32) == d
     | _ => false)

/-- Of another barrier, and a release; a past phase, both ends; the next phase, with room and with none; the phase CUR, and the one after, short of EXPECT; the second
arrival of a phase, with nothing held and with an arrival of phase 7 held. -/
theorem wit_CombinersCombine :
    combines (combining 5 0 0 [] (5 + 2 ^ 32 + 2 ^ 48)) 0 0 = true ∧ combines (combining 5 0 0 [] (5 + 2 ^ 32 + 2 ^ 52)) 0 0 = true ∧
    combines (combining 5 0 0 [] 4) (2 ^ 32 - 1) 0 = true ∧ combines (combining 0 0 0 [] (2 ^ 31)) (2 ^ 31) 0 = true ∧ combines (combining 0 0 0 [] (2 ^ 31 - 1)) (2 ^ 31 - 1) 0 = true ∧
    combines (combining 5 0 0 [] 7) 2 0 = true ∧
    (let h := (combining 5 0 0 [] 7).flights
     combines (combining 5 0 0 (h.map fun y => List.replicate 32 y).flatten 7) 2 32 = true ∧ combines (combining 5 1 0 h (5 + 2 ^ 32)) 0 1 = true) ∧
    combines (combining 5 0 1 [] (5 + 2 ^ 32)) 0 0 = true ∧ combines (combining 5 1 0 [] (6 + 2 ^ 32)) 1 0 = true ∧ combines (combining 5 1 1 [] (5 + 2 ^ 32)) 0 0 = true ∧
    (barRead (getPE (combining 5 1 1 [] 5) 0 0) 0 0 2).c0 + 1 = 2 ∧ (barRead (getPE (combining 5 1 1 [] 5) 0 0) 0 0 2).c1 < 2 ∧ launch7.errhalt = false ∧
    launchAt (combining 5 0 0 [] 4) 7 = some launch7 ∧ (combining 5 0 0 [] 4).ecc = [] ∧ (combining 5 0 0 [] 4).bmeta = [] := by decide +kernel

/-- Slot 2 of frame 0 holds what a port left there. -/
def parked (s : State) (st : Nat) : State := modPE s 0 0 fun p => slotPut p 2 (mkTag st 0 0) 5

theorem wit_TokensMatched :
    arrives (flying (2 ^ 87 + 3 * 2 ^ 31) .l .value) 1 false = true ∧        -- mov, DEST1 none
    arrives (flying (0x040 * 2 ^ 87 + 2 * 2 ^ 75 + 3 * 2 ^ 31) .r .value) 2 false = true ∧  -- add, SLOT 2
    (let s := flying (0x040 * 2 ^ 87 + 2 * 2 ^ 75 + 3 * 2 ^ 31) .r .value
     tagState (slotTag (getPE s 0 0) 2) = tagEmpty ∧ readyRoom (getPE s 0 0) 0 = true ∧
       statePort (tagState (slotTag (getPE (parked s (parkState .l)) 0 0) 2)) = some .l ∧ arrives (parked s (parkState .l)) 2 false = true ∧
       statePort (tagState (slotTag (getPE (parked s (parkState .r)) 0 0) 2)) = some .r ∧ arrives (parked s (parkState .r)) 2 false = true ∧
       spoiltIn (getPE (parked s (parkState .l)) 0 0) 0x10010 8 = false ∧
       (let t := modPE (parked s (parkState .l)) 0 0 fun p => { p with spoilt := [(0x10010, true)] }
        arrives t 2 false = true ∧ spoiltIn (getPE t 0 0) 0x10010 8 = true)) ∧
    -- a FILLED slot, a sticky operand that counts down, and a sticky arrival that stays (STCOUNT 5 on r)
    (let s := flying (0x040 * 2 ^ 87 + 2 * 2 ^ 75 + 3 * 2 ^ 31 + 2 ^ 26 + 5 * 2 ^ 20) .r .value
     arrives (parked s tagFilled) 2 false = true ∧ tagState (slotTag (getPE (parked s tagFilled) 0 0) 2) = tagFilled ∧
       (∀ k ∈ [1, 2, 63], let t := modPE s 0 0 fun p => slotPut p 2 (mkTag tagStickyL 0 k) 5
        arrives t 2 false = true ∧ statePort (tagState (slotTag (getPE t 0 0) 2)) = some .l ∧ tagCount (slotTag (getPE t 0 0) 2) = k)) ∧
    -- sel, of arity 3
    (let s := flying (0x056 * 2 ^ 87 + 3 * 2 ^ 83 + 2 * 2 ^ 75 + 3 * 2 ^ 31) .p .value
     let two (a b : Nat) : State := modPE s 0 0 fun p => slotPut (slotPut p 2 (mkTag a 0 0) 5) 3 (mkTag b 0 0) 6
     ∀ x ∈ [(0, 0), (tagParkL, 0), (tagFilled, 0), (0, tagParkR), (tagParkL, tagParkR), (tagParkR, tagFilled), (tagFilled, tagFilled), (tagParkP, 0)],
       arrives (two x.1 x.2) 3 false = true ∧ tagState (slotTag (getPE (two x.1 x.2) 0 0) 2) = x.1 ∧ tagState (slotTag (getPE (two x.1 x.2) 0 0) 3) = x.2 ∧
         (getPE (two x.1 x.2) 0 0).spoilt = []) ∧
    (let s := flying 0 .r .value; (s.flights[0]?).any (fun x => flightDue s 0 x && (match arrivalCheck s x.tok with | .nodeBad => true | _ => false)) = true) ∧
    arrives (flying (0x106 * 2 ^ 87 + 2 * 2 ^ 75 + 3 * 2 ^ 53 + 3 * 2 ^ 31) .p .value) 3 true = true ∧ (getPE base 0 0).issued = [] ∧
    (let s := modSlot (on base none none none) 0 0 fun x => { x with resCycles := 1024 }
     (getPE s 0 0).ready[0]?.any (fun f => !f.urgent && decide (f.resAt + 1024 ≤ (getSlot s 0 0).resCycles)) = true ∧ isResident s 0 0 0 = true ∧ bhRuns s 0 = true) := by
  decide +kernel

/-- A request of firing f with one part, standing at the well. -/
def reqOf (id va len : Nat) (write : Bool) (owner : Owner) : Req :=
  { reqFor { Firing.empty with lid := 7 } (.pe 0 0) 0 va len owner with id := id, write := write, data := List.replicate len 3, parts := [{ va := va, off := 0, len := len, res := none, leaf := 0 }] }

/-- A piece at an address. -/
def pieceOf (pa len : Nat) (stage : Stage) (reached : Nat) : Piece :=
  { key := 0, off := 0, len := len, pa := pa, comp := false, hostc := false, stage := stage, reached := reached, seq := 0, slotRes := false, inRes := false, bare := false,
    ans := none, err := none }

/-- A moving request of one piece. -/
def moving (r : Req) (p : Piece) : Req := { r with st := .moving, pieces := [p] }

/-- An issued firing of PE 0. -/
def itemAt (es : List Emit) (fx : List Effect) : Issued :=
  { id := 9, f := { Firing.empty with lid := 7 }, node := nd .n64 0, due := 0, emits := es, effects := fx, flags := 4, wait := .nothing, writes := [], quiet := false }

/-- PE 0 holds these issued firings. -/
def issuedIs (s : State) (xs : List Issued) : State := modPE s 0 0 fun p => { p with issued := xs }

/-- The first issued firing of PE 0 can complete now, alone in its turn. -/
def completes (s : State) (it : Issued) : Bool :=
  (getPE s 0 0).issued[0]? == some it && decide (it.due ≤ cycleOf s 0) && it.wait == .nothing && it.f.bh == 0 && it.f.pe == 0 && (getPE s 0 0).frozen == none && bhRuns s 0 &&
  linkIdle s it

theorem wit_ResultsEmitted :
    (let e : Emit := { target := .field ((dst 0 0 1 .l .cur).getD ⟨0, 0, 0, .l, .cur⟩) 0 0, kind := .value, payload := 3, vc1 := false }
     let it := itemAt [e, e] [.drop 0 1 1, .link 0 1 7]
     completes (issuedIs base [it]) it = true ∧ effectsNow it = [] ∧ coordDest (issuedIs base [it]) (emitDest (issuedIs base [it]) it e) = false ∧
       targetSpoilt (emitPE (issuedIs base [it]) it) it.f e.target = false) ∧
    -- link 0 of its frame holds an uncorrectable error
    (let e : Emit := { target := .field ⟨0, 0, 1, .l, .nxt⟩ 0 0, kind := .value, payload := 3, vc1 := false }
     let it := itemAt [e] []
     let s := modPE (issuedIs base [it]) 0 0 fun p => { p with tags := [(0, mkTag tagFilled 0 0)], spoilt := [(0x10000, true)] }
     completes s it = true ∧ targetSpoilt (emitPE s it) it.f e.target = true ∧ coordDest s (emitDest s it e) = false) ∧
    (∀ dx ∈ [(0 : BitVec 4), 1],
      let e : Emit := { target := .field ⟨dx, 0, 1, .l, .cur⟩ 0 0, kind := .handle, payload := handleWord 0 0 1, vc1 := false }
      let it := itemAt [e] []
      let s := issuedIs base [it]
      let d := emitDest s it e
      completes s it = true ∧ coordDest s d = false ∧ targetSpoilt (emitPE s it) it.f e.target = false ∧ d.bh = 0 ∧ d.pe = dx.toNat ∧ handleValid (getPE s 0 0) e.payload = true ∧
        handleValid (getPE s 0 0) (handleWord 0 0 2) = false ∧ (handleAt (getPE s 0 0) 0).ref + refsAt s d ≤ 255) ∧
    (∀ x ∈ [Effect.produced 0, .freeEntry 8 1, .sinkErr 5, .pairSend 0 none], let it := itemAt [] [x, .drop 0 1 1]; completes (issuedIs base [it]) it = true ∧ effectsNow it = [x]) ∧
    (handleAt (getPE base 0 0) 8).gen = 1 ∧ (handleAt (getPE base 0 0) 8).kind ≠ .free ∧ launchAt base 7 = some launch7 ∧
    launchAt { base with launches := [{ launch7 with errhalt := true }] } 7 = some { launch7 with errhalt := true } ∧ (getPE base 0 0).discards = [] ∧
    (let s := modPE base 0 0 fun p => { p with discards := [{ node := 0, fp := 0, id := 4 }] }; ∃ d ∈ (getPE s 0 0).discards, d.node = 0 ∧ d.fp = 0) ∧
    (∀ x ∈ [Effect.link 0 1 7, .freeFrame 0],
      let s := modPE base 0 0 fun p => { p with late := [({ Firing.empty with lid := 7 }, x)] }
      (getPE s 0 0).late.map (·.2) = [x] ∧ (frameInfo (getPE s 0 0) 0).any (fun i => (cfgAt s i.cfg).any fun g => rectPes g == [0]) = true ∧ frameLive (getPE s 0 0) 0 = true) ∧
    frameLive (getPE base 0 0) 9 = false := by decide +kernel

/-- No error touches the memory of `base`, nor of a state that changes neither its codewords nor its metadata. -/
theorem wit_cleanMemory : cleanMemory base ∧ ∀ s : State, s.ecc = [] → s.bmeta = [] → cleanMemory s := ⟨cleanMemory_fresh base rfl rfl, cleanMemory_fresh⟩

/-- VF 0's root is enabled, with its tables at 0x100000. -/
def rooted (s : State) : State := regPut s 0 0x10000 (word (0x100000 + 1))

/-- The buffer knows page 0 of VF 0: a level 3 leaf with these permission bits. -/
def knowing (s : State) (pte : Nat) : State := modBulk (rooted s) 0 fun x => { x with tlb := [{ vf := 0, level := 3, vidx := 0, pte := word pte }] }

/-- A page's part of a request as it reaches the well. -/
def part0 : ReqPart := { va := 64, off := 0, len := 8, res := none, leaf := 0 }

theorem wit_TranslationServed :
    (let r := reqOf 5 64 8 false (.tag 2)
     let s := { rooted base with reqs := [r] }
     reqAt s 5 = some r ∧ r.st = .atWell ∧ r.parts = [part0] ∧ bhRuns s 0 = true ∧ behind s r = false ∧ (getBulk s 0).mmt.length < 1024 ∧
       (s.reqs.all fun q => !(decide (q.ord < r.ord))) = true ∧ wellKnows s r part0 = none) ∧
    (let r := reqOf 5 64 8 false (.tag 2)
     let s := { base with reqs := [r] }
     (match wellKnows (knowing s 0xF) r part0 with | some (.ok _ _ _ _) => true | _ => false) = true ∧ r.pieces = [] ∧ r.supply = [] ∧ s.stores = [] ∧
       (match wellKnows (knowing s 1) r part0 with | some (.bad reason _ _) => decide (0x10 ≤ reason) | _ => false) = true ∧ standsIn s 0 0 0 = true ∧ (getPE s 0 0).frozen = none ∧
       fdomOf s r.lid r.task = false ∧ (match wellKnows s r part0 with | some (.bad reason _ _) => decide (reason < 0x10) | _ => false) = true ∧
       parkShared s 0 < 4096 - 8 * (tableVfs s 0).length) ∧
    (let s := modBulk { rooted base with reqs := [{ reqOf 5 64 8 false (.tag 2) with st := .walking }] } 0 fun x => { x with mmt := [(0, 0)] }
     ((getBulk s 0).mmt.take 32).contains (0, 0) = true ∧ invalidating s 0 0 0 (walkLevel (walk s 0 0 0)) = false ∧ (match walk s 0 0 0 with | .fault _ _ => true | _ => false) = true) ∧
    (let s := modBulk { rooted base with mem := [(0x100000, 0xF)], reqs := [{ reqOf 5 64 8 false (.tag 2) with st := .walking }] } 0 fun x => { x with mmt := [(0, 0)] }
     ((getBulk s 0).mmt.take 32).contains (0, 0) = true ∧ walk s 0 0 0 = .leaf 0xF 1 ∧ invalidating s 0 0 0 1 = false) ∧
    (let s := { base with reqs := [{ reqOf 5 64 8 false (.tag 2) with st := .refused 0 }] }; (reqAt s 5).any (fun r => r.st == .refused 0 && decide (0 ≤ cycleOf s 0)) = true) ∧
    (let r := { reqOf 5 64 8 false (.tag 2) with st := .parked 3 false }
     let s := modBulk { rooted base with reqs := [r] } 0 fun x => { x with parks := [(3, 0, 0)] }
     parkOpen s 0 3 = true ∧ parkedUnder s 0 3 = [r] ∧ parkOpen s 0 4 = false ∧ reqAt s r.id = some r ∧ r.parts = [part0] ∧ wellKnows s r part0 = none ∧ r.err = none ∧
       (getBulk s 0).mmt.length < 1024 ∧ (s.reqs.all fun q => q.st != .atWell && q.st != .walking) = true) ∧
    (getBulk base 0).invals = [] ∧
    (let v : Inval := { kind := 0, vf := 0, vpage := 0, begun := true, waitFor := [] }
     let s := modBulk base 0 fun x => { x with invals := [v] }
     0 < (getBulk s 0).invals.length ∧ (getBulk s 0).invals.length < 9 ∧ v.waitFor.all (invalClear s) = true ∧ tlbClearOf s 0 v = true ∧ bhRuns s 0 = true ∧
       9 ≤ (getBulk (modBulk base 0 fun x => { x with invals := List.replicate 9 v }) 0).invals.length) := by decide +kernel

theorem wit_SectorsMove :
    (let r := moving (reqOf 5 64 8 false (.tag 2)) (pieceOf 0x4000 8 .waiting 0)
     let s := { base with reqs := [r] }
     rowsBehind s r (pieceOf 0x4000 8 .waiting 0) = false ∧ reqGo s r = true ∧ detTurn s r 0x4000 = true ∧ regionOf 0x4000 = .hbm ∧ reqBlocked s r = false ∧ engineRoom s r = true ∧ slotTake s r = some false ∧ r.atom = none ∧
       pieceAt r 0 = some (pieceOf 0x4000 8 .waiting 0)) ∧
    (let s := base
     let t := regPut base 2 0x20018 (word (2 * 4 ^ edgeToward 2 0))
     edgeJudge s 0 2 (nextHop 0 2) 0 0 0 (2 * 2 ^ 36) 8 = .denied ∧ edgeJudge t 0 2 (nextHop 0 2) 0 0 0 (2 * 2 ^ 36) 8 = .passes ∧ targetBh (2 * 2 ^ 36) = 2 ∧ standsIn s 0 0 0 = true) ∧
    (let r := moving (reqOf 5 64 8 false (.tag 2)) (pieceOf 0x4000 8 .arrived 0)
     let s := { base with reqs := [r] }
     bhRuns s 0 = true ∧ gateBefore s 0 0 = [] ∧ inboundShared s 0 < 2048 - 128 * (inboundSources s 0).length) ∧
    (∀ w ∈ [true, false],
      let p := pieceOf 0x4000 8 .slotted 0
      let r := moving (reqOf 5 64 8 w (.tag 2)) p
      let s := { base with reqs := [r] }
      writeTurn s r p = true ∧ (readTogether s r).all (fun q => q.id != r.id || q == r) = true ∧ targetBh 0x4000 = 0 ∧ blockGroup r (p.pa / 2048) = [p] ∧ (landing s r).all (fun x => standsIn s x.1 x.2.1 0) = true ∧ r.mask = [] ∧ p.ans = none ∧
        s.ecc = [] ∧ s.bmeta = [] ∧ p.pa % 2048 + p.len ≤ 2048) ∧
    (let p := pieceOf (0x010000000000 + 0x80000) 16 .window 0
     let r := moving (reqOf 5 64 16 true (.tag 2)) p
     let q := moving (reqOf 6 64 16 false (.tag 2)) p
     let s := { base with reqs := [r] }
     windowReady s r p = true ∧ windowReady (modPE { base with reqs := [q] } 0 0 fun x => { x with full := [(0, true)] }) q p = true ∧ regionOf p.pa = .window ∧ targetBh p.pa = 0 ∧
       winOff p.pa + 16 ≤ 0x100000 ∧ (landing s r).all (fun x => standsIn s x.1 x.2.1 0) = true ∧ (landing s q).all (fun x => standsIn s x.1 x.2.1 0) = true) ∧
    (let d : Done := { bytes := List.replicate 8 1, bad := [], err := none, flags := 0 }
     let r := moving (reqOf 5 64 8 false (.tag 2)) (pieceOf (2 ^ 45) 8 .host 0)
     let q := moving (reqOf 5 64 8 true (.tag 2)) { pieceOf 0x4000 8 .host 0 with hostc := true, ans := some d }
     pieceAt r 0 = some (pieceOf (2 ^ 45) 8 .host 0) ∧ (landing base r).all (fun x => standsIn base x.1 x.2.1 0) = true ∧
       (pieceAt q 0).any (fun p => p.ans == some d && targetBh p.pa == 0) = true ∧ (landing base q).all (fun x => standsIn base x.1 x.2.1 0) = true) ∧
    (let g : Tag := { id := 2, st := .issued, f := { Firing.empty with lid := 0xFFFF }, code := 0x140, node := nd .n64 0, dests := [], hidx := 0, wave := 0, row := 0, flags := 0, err := none }
     let r := { reqOf 5 64 8 false (.tag 2) with st := .finished }
     let s := modPE { base with reqs := [r] } 0 0 fun p => { p with fetch := [g] }
     ((getPE s 0 0).fetch.find? fun t => t.id == 2) = some g ∧ (s.reqs.find? fun r => r.owner == .tag 2 && r.agent == .pe 0 0 && r.st == .finished) = some r ∧ launchAt s 0xFFFF = none ∧
       standsIn s 0 0 0 = true ∧ (getPE s 0 0).frozen = none ∧ r.err = none ∧ r.pieces = []) := by
  decide +kernel

theorem wit_SectorsMove_crossing :
    (let p := pieceOf (2 * 2 ^ 36) 8 .slotted 0
     let r := moving (reqOf 5 64 8 false (.tag 2)) p
     let s := { base with reqs := [r] }
     crossBehind s r p = false ∧ p.ans = none ∧ s.ecc = [] ∧ s.bmeta = []) := by decide +kernel

theorem wit_SectorsMove_spoilt :
    let p := pieceOf (0x010000000000 + 0x80000) 16 .window 0
    let q := moving (reqOf 6 64 16 false (.tag 2)) p
    let t := modPE { base with reqs := [q] } 0 0 fun x => { x with full := [(0, true)], spoilt := [(0x80000, true)] }
    windowReady t q p = true ∧ spoiltIn (getPE t 0 0) 0x80003 1 = true ∧ ((resupply t q p.off p.len).supply.any fun e => e.1 == p.off + 3) = false ∧
      (List.range 16).all (fun i => !spoiltIn (getPE base 0 0) (0x80000 + i) 1) = true ∧ (landing t q).all (fun x => standsIn t x.1 x.2.1 0) = true := by
  decide +kernel

theorem wit_HbmUnitsWork :
    (let a : AtomOp := { op := 0, ty := .i64, operand := 1, cmp := 0, det := false, red := false }
     let p := { pieceOf 0x4000 8 .queued 0 with seq := 1 }
     let r := { moving (reqOf 5 64 8 true (.tag 2)) p with atom := some a }
     let s := { base with reqs := [r] }
     unitHead s 0 (channelOf 0x4000) = some (r, p) ∧ reqAt s 5 = some r ∧ stackOf 0x4000 = 0 ∧ s.ecc = [] ∧ s.bmeta = [] ∧ landing s r = none) ∧
    (let a : AtomOp := { op := 9, ty := .i64, operand := 0, cmp := 0, det := false, red := true }
     let p := { pieceOf 0x4000 8 .queued 0 with seq := 1 }
     let r := { moving (reqOf 5 64 8 true .join) p with atom := some a, flags := 0 }
     let s := { base with reqs := [r] }
     unitHead s 0 (channelOf 0x4000) = some (r, p) ∧ leNat (memBytes s 0x4000 8) = 0 ∧ leNat (memBytes { s with mem := [(0x4000, 1)] } 0x4000 8) = 1 ∧
       leNat (memBytes { s with mem := [(0x4000, 2)] } 0x4000 8) = 2) ∧
    (eccOf { base with ecc := [(7, .correctable)] } 7 = .correctable ∧ sectorBusy base (7 * 32) = false) ∧
    (regBits base 0 0x11018 16 1 = 1 ∧ (getBulk base 0).scrubAt ≤ cycleOf base 0 ∧ scrubSector 0 0 0 = 0 ∧ bits (regGet base 0 0x20028).toNat 6 42 = 0 ∧ bhRuns base 0 = true) ∧
    bcRuns base 0 (1 + 4 * mdConst.toNat) = false ∧
    (let s := regPut (regPut base 0 0x11038 1) 0 0x11030 (word (1 + 4 * 0xFF)); bcRuns s 0 (1 + 4 * 0xFF) = true ∧ metaDecoded 0xFF = false) ∧
    (bcReads (regPut (regPut base 0 0x11038 1) 0 0x11030 2) 0 = true ∧ bcReads base 0 = false) ∧
    (base.powered = true ∧ 12 * 2 ^ 36 - 1 + [(0 : Byte)].length ≤ 12 * 2 ^ 36 ∧ 12 * 2 ^ 36 < 12 * 2 ^ 36 + [(0 : Byte)].length ∧ base.ecc = [] ∧ base.bmeta = []) := by
  decide +kernel

theorem wit_HbmUnitsWork_install :
    let s := regPut (regPut (regPut base 0 0x10200 1) 0 0x11038 1) 0 0x11030 (word (1 + 4 * mdConst.toNat))
    bcRuns s 0 (1 + 4 * mdConst.toNat) = true ∧ metaDecoded mdConst = true ∧
      ∃ bs block, (installSource (bcEnd s 0) 0 0 256).1 = some bs ∧ blockDecode mdConst bs = some block := by
  have src (s : State) (he : s.ecc = []) (hm : s.bmeta = []) (hs : s.mem = []) (ht : bitAt (tenstk s 0) 0 = true) :
      (installSource s 0 0 256).1 = some (sgets 0 [] 0 256) := by
    obtain ⟨r, e⟩ := ownMeet_clean s 0 false 0 256 (clean_fresh s he hm 0 256).2
    have lost := lostBytes_clean { s with regs := r } 0 256 (clean_fresh { s with regs := r } he hm 0 256).1
    have st : ∀ a ∈ [0, 0 + 256 - 1], bitAt (tenstk s 0) (stackOf a) = true := by simpa [stackOf] using ht
    unfold installSource
    rw [show regionOf 0 = Region.hbm from rfl, show regionOf (0 + 256 - 1) = Region.hbm from rfl]
    dsimp only
    rw [st 0 (by simp), st (0 + 256 - 1) (by simp), e, lost]
    show some (sgets 0 s.mem 0 256) = _
    rw [hs]
  obtain ⟨block, h⟩ := Option.isSome_iff_exists.mp (show (blockDecode mdConst (sgets 0 [] 0 256)).isSome = true by decide +kernel)
  exact ⟨by decide +kernel, by decide +kernel, _, block, src _ (by decide +kernel) (by decide +kernel) (by decide +kernel) (by decide +kernel), h⟩

theorem wit_BoundariesPublish :
    (let g := { slotCfg with phNodes := [(0, 5)], arrivals := [(0, 5, 0, 3)] }
     let s := { base with cfgs := [g], stores := [store5, { store5 with sid := 1, pe := 1, bytes := List.replicate 8 6 }] }
     cfgAt s 0 = some g ∧ boundaryReady s g = true) ∧
    (let f : Firing := { Firing.empty with l := val 64, r := val 1, lid := 7 }
     let p := sputs 0 (getPE base 0 0).instr 0 (recordBytes (0x141 * 2 ^ 87 + 2 * 2 ^ 75))
     let s := modBulk (modPE { base with stores := [{ store5 with shared := 262144 }] } 0 0 fun x => { x with instr := p, ready := [f] }) 0 fun x => { x with stuck := [0] }
     storeWaiters s 0 0 = [f] ∧ (getBulk s 0).cfPosted.contains 0 = false ∧ (getBulk s 0).stuck.contains 0 = true ∧ bhRuns s 0 = true ∧ s.reqs = [] ∧
       bitAt (vfScope (regPut s 0 0x12000 0x1F) 0) 4 = true) := by decide +kernel

/-- A started engine command of PE 0 stands alone. -/
def engineAt (s : State) (code : Nat) (lit : BitVec 16) (l r : Option Operand) : State × Cmd :=
  let c := { command code l r with node := nd .n64 lit, begun := true, agent := if code = 0x14F then .stream 0 0 else if code < 0x14D then .pump 0 0 else .gather 0 0 }
  ({ s with cmds := [c] }, c)

/-- Descriptor 2: a multicast to node 1 of PE 0, one consumer, LAG 1, LIMIT of held copies 1. -/
def mcDesc : BitVec 256 := BitVec.ofNat 256 (2 ^ 8 + 2 ^ 24 + 2 ^ 41)

theorem wit_EngineCommandsComplete :
    (∀ ws ∈ [[], [10]],
      let c := { command 0x14A (hnd 0) (val 4096) with node := nd .n64 0x4000, agent := .pump 0 0, waitFor := ws }
      let s := { base with cmds := [c], reqs := [{ reqOf 5 64 8 true .red with st := .walking }] }
      cmdAt s 0 = some c ∧ c.started = true ∧ c.begun = false ∧ cmdAwake s c = true ∧ engineMoves s c = true ∧ acqClear s c = ws.isEmpty) ∧
    (∀ x ∈ [0x14A, 0x14E, 0x149, 0x14D, 0x14B, 0x14F],
      let e := engineAt base x 0 (hnd 0) (val 4096)
      cmdAt e.1 0 = some e.2 ∧ e.2.started = true ∧ e.2.begun = true ∧ (launchAt e.1 e.2.f.lid).all (fun l => !l.halted) = true ∧ cmdAwake e.1 e.2 = true ∧ cmdReady e.1 e.2 = true ∧ engineMoves e.1 e.2 = true ∧ cmdError e.1 e.2 = none) ∧
    (let e := engineAt base 0x14B 0 (hnd 0) (val 0); (tileCopy e.1 e.2 (bits (descOf e.1 e.2.f e.2.node) 4 9)).isSome = true ∧ copySpoilt e.1 e.2 = false) ∧
    (let o := rowOffset (handleAt (getPE base 0 0) 0).pages 0
     let e := engineAt (modPE base 0 0 fun p => { p with full := [(o / 16, true)], spoilt := [(0x80000 + o, true)] }) 0x14B 0 (hnd 0) (val 0)
     copySpoilt e.1 e.2 = true ∧ cmdAt e.1 0 = some e.2 ∧ cmdAwake e.1 e.2 = true ∧ cmdReady e.1 e.2 = true ∧ engineMoves e.1 e.2 = true) ∧
    (let e := engineAt base 0x14F 0 (val 0) none; affineCount (descOf e.1 e.2.f e.2.node) ≤ { e.2 with stage := 4 }.stage) ∧
    (let e := engineAt { base with cfgs := [{ slotCfg with descs := [mcDesc], tids := tids }] } 0x14C 0 (hnd 0) (val 0)
     cmdReady e.1 e.2 = true ∧ copySpoilt e.1 e.2 = false ∧ (serveFrom 9 e.1 e.2).2.2 = true) ∧
    (let c := { command 0x14F (val 0) none with agent := .stream 0 0, dests := [some ⟨0, 0, 1, .l, 0⟩, none] }
     let r := { reqOf 5 0 8 false (.cmd 0 0) with st := .finished }
     let s := { base with cmds := [c], reqs := [r] }
     (cmdReqs s 0).find? (fun r => r.owner == .cmd 0 c.stage) = some r ∧ cmdAwake s c = true ∧ isResident s 0 0 0 = true ∧ c.since ≤ cycleOf s 0 ∧
       c.stage + 1 < affineCount (descOf s c.f c.node)) ∧
    (let g := { slotCfg with descs := [mcDesc], outs := [(0, 0, [(0, 1)], false)] }
     let c := { command 0x14C (hnd 0) (val 0) with agent := .pump 0 0, begun := true }
     let s := modSlot { base with cmds := [c], cfgs := [g] } 0 0 fun x => { x with resCycles := 1 }
     let d := descOf s c.f c.node
     cmdAt s 0 = some c ∧ cfgAt s 0 = some g ∧ cmdAwake s c = true ∧ c.stage ≤ bits d 4 3 ∧ bits d 8 16 ≠ 0 ∧ c.since + bits d 8 16 ≤ conCycles s c c.stage ∧ (outGet g 0 c.stage).2 = false ∧ serveOne s c = none) := by
  decide +kernel

/-- The generator of slot 0 can serve a firing of the node whose record is `w`. -/
def atGenerator (w : BitVec 96) (code : Nat) : Bool :=
  let it : Issued := { itemAt [] [.produced 4] with wait := .rng }
  let s := modSlot (issuedIs (modPE base 0 0 fun p => { p with instr := sputs 0 p.instr 0 (recordBytes w) }) [it]) 0 0 fun x => { x with rngQueue := [(0, 9)] }
  decide ((getSlot s 0 0).rngAt ≤ cycleOf s 0) && (getSlot s 0 0).st != .idle && ((getPE s 0 0).issued.find? fun i => i.id == 9) == some it &&
    (nodeInfo (getPE s 0 0) 0).any (fun y => y.1.code == code)

theorem wit_PairsBarriersAndGenerators :
    (let it : Issued := { itemAt [] [] with f := { Firing.empty with p := hnd 8 }, wait := .pair [] 1 0 }
     let m : PairMsg := { pe := 0, fp := 0, sums := some [] }
     let s := modSlot (issuedIs base [it]) 0 0 fun x => { x with resCycles := 64 }
     (getPE s 0 0).issued = [it] ∧ bhRuns s 0 = true ∧ (getPE s 0 0).discards = [] ∧ pairFind s 0 0 0 = none ∧
       pairFind { s with links := [(clusterOf 0, [m])] } 0 0 0 = some m ∧ (getPE (modPE s 0 1 fun p => { p with frozen := some .brk }) 0 (pairOther 0)).frozen.isSome = true ∧
       0 + 64 * 1 ≤ (getSlot s 0 (slotOf 0)).resCycles) ∧
    (let tm : BarTimer := { node := 0, fp := 0, since := some 0, next := none }
     let s := modSlot (modPE base 0 0 fun p =>
       { p with instr := sputs 0 p.instr 0 (recordBytes (0x187 * 2 ^ 87 + 2 * 2 ^ 75 + 3 * 2 ^ 53 + 3 * 2 ^ 31 + 0x30)), timers := [tm] }) 0 0 fun x => { x with resCycles := 64 }
     barTimer (getPE s 0 0) 0 0 = some tm ∧ (cfgCovering s 0 0 0 0).any (fun c => barLimit s c.lid != 0 && decide (0 + 64 * barLimit s c.lid ≤ (getSlot s 0 0).resCycles)) = true ∧
       (nodeInfo (getPE s 0 0) 0).any (fun x => x.1.code == 0x187 && x.2.lit.getLsbD 4 && decide ((barRead (getPE s 0 0) 0 0 x.2.slot.toNat).c1 < (x.2.lit.extractLsb' 5 11).toNat + 1)) = true ∧
       (getSlot s 0 0).st = .resident ∧ (getPE s 0 0).hold = []) ∧
    atGenerator (0x1C6 * 2 ^ 87 + 3 * 2 ^ 53 + 3 * 2 ^ 31) 0x1C6 = true ∧ atGenerator (0x0D5 * 2 ^ 87 + 6 * 2 ^ 83 + 3 * 2 ^ 53 + 3 * 2 ^ 31 + 4) 0x0D5 = true ∧
    (let f : Firing := { Firing.empty with l := val 1, matchCycle := 0 }
     let s := modBulk (modPE base 0 0 fun p => { p with
       instr := sputs 0 p.instr 0 (recordBytes (0x00D * 2 ^ 87 + 3 * 2 ^ 53 + 3 * 2 ^ 31 + 0x10)), ready := [f], sites := [((0, 0), 1)] }) 0 fun x => { x with cycle := 2 ^ 20 }
     (getBulk s 0).posted.contains 0 = false ∧ sget 0 (getBulk s 0).lastIssue 0 + 2 ^ 20 ≤ cycleOf s 0 ∧ ∃ w ∈ starveCases s 0 0, w.2.2.2 + 2 ^ 20 ≤ cycleOf s 0) := by decide +kernel

/-- A configuration image (R99) of one PE and one nop, with one entry. -/
def image : List Byte :=
  let b := leBytes 4 0x0D120CF0 ++ leBytes 2 1 ++ [1, 1] ++ leBytes 2 0 ++ leBytes 2 1 ++ [0, 0, 1, 0] ++ leBytes 4 0 ++ leBytes 2 0 ++ leBytes 2 0 ++ leBytes 4 112 ++
    leBytes 4 0 ++ leBytes 4 80 ++ leBytes 4 96 ++ leBytes 4 96 ++ leBytes 4 96 ++ List.replicate 64 0
  b.take 28 ++ leBytes 4 (crc32 b) ++ b.drop 32

/-- A finished request of a command's row. -/
def rowDone (c : Cmd) (row : Nat) (bs : List Byte) : Req :=
  { reqOf 5 4096 bs.length false (.cmd c.id row) with st := .finished, got := (bs.zipIdx.filter fun x => x.1 != 0).map fun x => (x.2, x.1) }

theorem wit_LaunchesProceed_loads :
    (∀ bs ∈ [image, List.replicate 112 0],
      let c := { command 0x1C7 (val 4096) none with stage := 1 }
      let s := { base with cmds := [c], reqs := [rowDone c 1 bs] }
      cmdAt s 0 = some c ∧ isLoad c = true ∧ loadAwake s c = true ∧ commandRow s c 1 = some (rowDone c 1 bs) ∧ reqError (rowDone c 1 bs) = none ∧ reqBytes (rowDone c 1 bs) = bs ∧
        (launchAt s 7).all (fun l => !l.halted) = true ∧
        (imageReject (imageOf bs) (rootVf s 0 == 0) (liveTids s 0)).isNone = (bs == image)) ∧
    (let c := { command 0x1C7 (val 4096) none with stage := 2, bytes := image }
     let s := regPut { base with cmds := [c], cfgs := [], nextId := 5 } 0 0x18000 (word (2 ^ 9))
     cmdAt s 0 = some c ∧ loadAwake s c = true ∧ loadBehind s c = false ∧ (match placerDecide s 0 0 (shapeOf (imageOf image)) with | .put _ _ => true | _ => false) = true ∧
       imageReject (imageOf image) (rootVf s 0 == 0) (liveTids s 0) = none ∧ c.node.lit.getLsbD 3 = false ∧ (launchAt s 7).all (fun l => !l.halted) = true) ∧
    (let c := { command 0x1C7 (val 4096) none with stage := 8 }; loadAwake { base with cmds := [c] } c = true) := by decide +kernel

theorem wit_LaunchesProceed :
    (∀ m ∈ [[], [(0x10009, (1 : Byte))]],
      let s := { withQueue base 2 1 with mem := m }
      qEn s 0 0 = true ∧ qKind s 0 0 = 2 ∧ qLen s 0 0 = 1 ∧ bhRuns s 0 = true ∧ s.ecc = [] ∧ s.bmeta = [] ∧ qEntry s 0 0 (qHead s 0 0) = 0x10000 ∧
        recWord (memBytes s 0x10000 128) 8 = if m = [] then 0 else 0x100) ∧
    (∀ n ∈ [1, 9],
      let c := { command codeLaunchLoad none none with stage := 3, bytes := image.set 14 n, agent := .seqr 0 }
      let l := { launch7 with st := .starting }
      let s := { base with launches := [l], cmds := [c] }
      launchAt s 7 = some l ∧ (s.cmds.find? fun c => c.code == codeLaunchLoad && c.f.lid == 7 && (c.stage == 3 || c.stage == 4)) = some c ∧ (imageOf c.bytes).nentry = n.toNat ∧
        (cfgAt s l.cfg).any (fun g => cfgStands s g && (frameAlloc s g l.cls none 7 none true).isSome) = true) ∧
    (let c := { command codeLaunchLoad none none with stage := 4, bytes := image.set 14 9, agent := .seqr 0 }
     let l := { launch7 with st := .starting }
     let r := rowDone c 2 (leBytes 8 5)
     let s := { base with launches := [l], cmds := [c], reqs := [r] }
     (s.cmds.find? fun c => c.code == codeLaunchLoad && c.f.lid == 7 && (c.stage == 3 || c.stage == 4)) = some c ∧ commandRow s c 2 = some r ∧ r.st = .finished ∧ reqError r = none) ∧
    (let s := modPE base 0 0 fun p => { p with finfo := [] }; quiescent s launch7 = true) ∧
    (let l := { launch7 with st := .ending }
     let s := { base with launches := [l] }
     let c := { command codeLaunchEnd none none with agent := .seqr 0 }
     let d := { c with stage := 1 }
     launchBusy s l false = false ∧ (s.cmds.find? fun c => c.code == codeLaunchEnd && c.f.lid == 7) = none ∧ l.compl ≠ 0 ∧
       ({ s with cmds := [c] }.cmds.find? fun c => c.code == codeLaunchEnd && c.f.lid == 7) = some c ∧ c.waitFor.all (waitClear s) = true ∧
       commandRow { s with cmds := [d], reqs := [rowDone d 0 []] } d 0 = some (rowDone d 0 []) ∧ launchBusy { s with cmds := [d], reqs := [rowDone d 0 []] } l false = false ∧
       reqError (rowDone d 0 []) = none) := by
  decide +kernel

/-- The command stands alone with its row 0 finished. -/
def read0 (c : Cmd) (bs : List Byte) : State := { base with cmds := [c], reqs := [rowDone c 0 bs] }

/-- WINTAB entry i of bulkhead 0 is enabled, for each i below n. -/
def windows (n : Nat) (s : State) : State := (List.range n).foldl (fun t i => regPut t 0 (0x20200 + 16 * i) 1) s

theorem wit_SystemCommandsCarriedOut :
    -- win.open: a window of bulkhead 0, of its page 0; of a bulkhead 12; a request not finished, one that failed
    (let bs (w : Nat) : List Byte := leBytes 8 w ++ leBytes 8 1 ++ leBytes 8 (2 ^ 34)
     let c := command 0x1C9 (val 64) none
     ∀ w ∈ [0, 12], let s := read0 c (bs w)
      cmdAt s 0 = some c ∧ commandAwake s c = true ∧ launchAt s 7 = some launch7 ∧ commandRow s c 0 = some (rowDone c 0 (bs w)) ∧ reqError (rowDone c 0 (bs w)) = none ∧
        reqError { rowDone c 0 (bs w) with err := some 9 } = some 9 ∧ fieldAt (reqBytes (rowDone c 0 (bs w))) 0 8 = w ∧
        rangeOk 0 (fieldAt (reqBytes (rowDone c 0 (bs w))) 16 8) = true ∧ samePartition s 0 (homeOf 0) = true ∧
        (∀ n ∈ [0, 1, 7, 8], ∀ i < 8, regBits (windows n s) 0 (0x20200 + 16 * i) 0 1 = if i < n then 1 else 0)) ∧
    -- win.close of entry 2
    (let c := command 0x1CA (val 0x20) none
     let s := { windows 3 base with cmds := [c] }
     let d := { c with stage := 1 }
     cmdAt s 0 = some c ∧ commandAwake s c = true ∧ regBits s 0 0x20220 0 1 = 1 ∧ regBits base 0 0x20220 0 1 = 0 ∧
       ({ s with cmds := [d] }.cmds.filter fun k => k.code == 0x1CA && k.stage == 1 && (payloadAt k.f .l).toNat % 16 == 0) = [d]) ∧
    -- cfg.drop
    (let g := base.cfgs.headD slotCfg
     let w := bits (cfgWord g false 0).toNat 0 25
     let c := { command 0x1C8 (val w) none with f := { Firing.empty with l := val w, lid := 7, cfg := 5 } }
     let s := { base with cmds := [c] }
     cmdAt s 0 = some c ∧ commandAwake s c = true ∧ cfgNamed s 0 w = some g ∧ cfgNamed s 0 (w + 2 ^ 36) = none ∧ dropWaits s c g = false ∧ s.stores = [] ∧
       dropWaits { s with stores := [store5] } c g = false ∧ store5.cfg = g.id ∧ dropWaits { s with cfgs := [{ g with valid := false }] } c { g with valid := false } = true ∧
       waitClear { s with reqs := [{ reqOf 5 64 8 true .red with st := .walking }] } 10 = false) ∧
    -- yield, rcnt.snap, nrg.rd
    (let c := command 0x18A (val 1) none
     let s := { base with cmds := [c] }
     commandAwake s c = true ∧ isResident s 0 0 0 = true ∧ (getSlot s 0 0).endNow = false ∧ (getSlot (modSlot s 0 0 fun x => { x with endNow := true }) 0 0).endNow = true) ∧
    (let c := command 0x189 (val 64) none
     let s := read0 c []
     commandAwake s c = true ∧ commandRow s c 0 = some (rowDone c 0 []) ∧ c.waitFor = [] ∧ (rowDone c 0 []).st = .finished ∧ reqError (rowDone c 0 []) = none) ∧
    (let c := command 0x1C5 (val 1) none
     let s := { base with cmds := [c] }
     commandAwake s c = true ∧ (s.cmds.filter fun k => k.code == 0x1C5 && k.stage == 0 && k.f.bh == 0) = [c] ∧ (∀ sl < 32, (getSlot s 0 sl).foldDue = false)) := by decide +kernel

/-- A task of launch 7 in a state. -/
def taskIn (st : TaskState) (join : Nat) : Task :=
  { id := 3, seq := 0, lid := 7, bh := 0, vf := 0, st := st, tw := 0, join := join, rcb := 0, args := [], pages := [], readyAt := 0, waitFor := [] }

theorem wit_TasksProceed :
    (let c := { command 0x180 (val 64) (val cap0) with stage := 2, scope := 7, bytes := List.replicate 256 0 }
     let s := { withQueue base 1 0 with cmds := [c] }
     cmdAt s 0 = some c ∧ bhRuns s (capBh (cmdCap c)) = true ∧ launchAt s c.scope = some launch7 ∧ poolRoom s 0 4096 16 0 (tableTasks s 0) = true ∧
       (s.cmds.all fun x => decide (c.aux ≤ x.aux)) = true ∧ launch7.st ≠ .ending ∧ recWord c.bytes 16 = 0 ∧ launch7.halted = false ∧
       (let payer := chargeAddr s 0 7 none; budgetOk (rcbNote s payer) payer .task 1 = true) ∧ replyBlocked s 0 (capBh (cmdCap c)) 8 0 = none) ∧
    (let s := { base with tasks := [taskIn .accepted 0] }; cmdAt s 3 = none ∧ taskOf s 3 = some (taskIn .accepted 0)) ∧
    (let s := { base with tasks := [taskIn .ready 0] }
     let vfs := s.tasks.foldl (fun m t => if t.bh = 0 then sins m t.vf () else m) ([] : SMap Unit)
     let cand := (vfs.map (·.1)).filter fun v => (headTask s 0 v).isSome
     cand = [0] ∧ (getBulk s 0).dispAt ≤ cycleOf s 0 ∧ (dispatchPick s 0 cand).any (fun x => x.1 == 0) = true ∧ headTask s 0 0 = some (taskIn .ready 0) ∧ (taskIn .ready 0).rcb = 0) ∧
    (∀ st ∈ [TaskState.running, .draining], ∀ j ∈ [0, 8],
      let k := taskIn st j
      let s := { base with tasks := [k] }
      taskOf s 3 = some k ∧ taskFrames s k = false ∧ taskBusy s k = false ∧ k.waitFor.all (waitClear s) = true) := by decide +kernel

/-- A saved context of VF 0 in slot 0 whose block bears v as the first byte of its CRC. -/
def savedCrc (v : Byte) : State :=
  { regPut (regPut (modSlot base 0 0 fun x => { x with st := .restoring }) 0 0x18000 (word (2 ^ 9))) 0 0x12400 0x200001 with
    mem := [(0x400, 1), (0x402, 0x30), (0x200059, 4), (0x300000, 1), (0x300030, v)]
    saved := [{ vf := 0, bh := 0, sl := 0, slot := Slot.empty, pes := [], links := [], units := [] }] }

/-- The device reads the same bytes in two memories that hold none there. -/
theorem ownBytes_unlisted (s : State) (m : SMap Byte) (pa n : Nat) (hs : s.mem.filter (fun e => decide (pa ≤ e.1) && decide (e.1 < pa + n)) = [])
    (hm : m.filter (fun e => decide (pa ≤ e.1) && decide (e.1 < pa + n)) = []) : ownBytes { s with mem := m } pa n = ownBytes s pa n := by
  have h : memBytes { s with mem := m } pa n = memBytes s pa n := by simp only [memBytes, sgets, hs, hm]
  unfold ownBytes
  rw [h]
  rfl

/-- Of two blocks that differ in that byte alone one at least is corrupt. -/
theorem crc_mismatch : ∃ v ∈ [(1 : Byte), 2], crcHolds (savedCrc v) 0 0 0 = false := by
  have same : ∀ a ∈ blockOpaque 0, ownBytes (savedCrc 2) (0x300000 + a.1) a.2 = ownBytes (savedCrc 1) (0x300000 + a.1) a.2 := by
    have h : ∀ a ∈ blockOpaque 0, ∀ v ∈ [(1 : Byte), 2],
        (savedCrc v).mem.filter (fun e => decide (0x300000 + a.1 ≤ e.1) && decide (e.1 < 0x300000 + a.1 + a.2)) = [] := by decide +kernel
    intro a ha
    exact ownBytes_unlisted (savedCrc 1) (savedCrc 2).mem _ _ (h a ha 1 (by decide)) (h a ha 2 (by decide))
  have sav : ∀ v ∈ [(1 : Byte), 2], (savedAt (savedCrc v) 0 0 0).isSome = true ∧ saveBlock (saveWord (savedCrc v) 0 0 0) = 0x300000 := by decide +kernel
  have crc : ∀ v ∈ [(1 : Byte), 2], crcHolds (savedCrc v) 0 0 0 =
      (leNat (ownBytes (savedCrc v) (0x300000 + 48) 4) == crc32 ((blockOpaque 0).map fun a => ownBytes (savedCrc v) (0x300000 + a.1) a.2).flatten) := by
    intro v hv
    obtain ⟨h1, h2⟩ := sav v hv
    obtain ⟨r, hr⟩ := Option.isSome_iff_exists.mp h1
    simp only [crcHolds, hr, h2]
  have n1 : leNat (ownBytes (savedCrc 1) (0x300000 + 48) 4) = 1 := by decide +kernel
  have n2 : leNat (ownBytes (savedCrc 2) (0x300000 + 48) 4) = 2 := by decide +kernel
  by_cases h : crcHolds (savedCrc 1) 0 0 0 = false
  · exact ⟨1, by decide, h⟩
  · refine ⟨2, by decide, ?_⟩
    rw [crc 1 (by decide), n1] at h
    rw [crc 2 (by decide), n2, List.map_congr_left same]
    simp only [Bool.not_eq_false, beq_iff_eq] at h
    rw [← h]
    rfl

theorem wit_SlotsSwitch :
    (let s := modSlot base 0 0 fun x => { x with endNow := true }; (getSlot s 0 0).endNow = true ∧ nextRunnable s 0 0 0 = none ∧ bhRuns s 0 = true) ∧
    (let s := regPut { base with cfgs := base.cfgs ++ [{ slotCfg with id := 3, vf := 1 }] } 0 0x18008 (word (1 + 2 ^ 9))
     quantumOf s 0 0 0 ≤ (getSlot (modSlot s 0 0 fun x => { x with qcount := quantumOf s 0 0 0 }) 0 0).qcount ∧ (nextRunnable s 0 0 0).isSome = true) ∧
    (let s := modSlot base 0 0 fun x => { x with st := .saving }
     let g := (groupSlots s 0 0 0).filter fun y => (getSlot s 0 y).st == .saving && (getSlot s 0 y).vf == 0
     g = [0] ∧ mcastStuck s 0 0 (g.map slotPes).flatten = none ∧ slotsDrained s 0 0 g = true) ∧
    (let s := regPut (modSlot base 0 0 fun x => { x with st := .restoring }) 0 0x18000 (word (2 ^ 9))
     restoreVf s 0 0 = some 0 ∧ (∀ g ∈ groupSlots s 0 0 0, slotReady s 0 0 g = true ∧ crcHolds s 0 g 0 = true) ∧
       (∀ v ∈ [(1 : Byte), 2], let t := savedCrc v
        restoreVf t 0 0 = some 0 ∧ (∀ g ∈ groupSlots t 0 0 0, slotReady t 0 0 g = true) ∧ 0 ∈ groupSlots t 0 0 0 ∧ (getSlot t 0 0).st ≠ .resident) ∧
       samePartition s 0 (homeOf 0) = true) ∧
    (let s := modBulk (regPut base 0 0x18000 (word (2 ^ 9))) 0 fun x => { x with cycle := 4096 }
     cycleOf s 0 ≥ (getSlot s 0 0).foldAt + 4096 ∧ (getSlot s 0 0).st ≠ .idle ∧ vfActive s 0 = true ∧
       (let t := modSlot s 0 0 fun x => { x with foldDue := true }; (List.range 32).all (fun y => (getSlot t 0 y).foldDue == (y == 0)) = true ∧ t.cmds = [])) ∧
    (let s := regPut (regPut { base with cfgs := [{ slotCfg with vf := 1, valid := false }], slots := [] } 0 0x18800 (word (2 ^ 9))) 0 0x12408 (word 0x200001)
     lendable s 0 0 = true ∧ ownerNeeds s 0 0 = false ∧ vfEnabled s 1 = true ∧ sameTenant s 0 1 = true ∧ slotDemand s 0 0 1 = true ∧ lendTurn s 0 0 1 = true ∧ budgetOk s (vfRcbAddr s 1) .slot 1 = true ∧ vfRcbAddr s 1 ≠ 0 ∧ (tableVfs s 0).length < 64 ∧
       (getSlot s 0 0).st = .idle) ∧
    (let s := regPut base 0 0x18800 (word (2 ^ 10))
     reclaimDue s 0 0 = true ∧ (getSlot s 0 0).reclaim = false ∧ (getSlot s 0 0).st = .resident ∧ (getSlot s 0 0).vf = bits (slotown s 0 0) 11 9 ∧
       (getSlot { s with slots := [] } 0 0).st = .idle) := by decide +kernel

theorem wit_ResetsProceed (n : Nat) :
    (bhState base 0 = 0 ∧ (∀ st ∈ [1, 2, 3, 4], bhState (regPut base 0 0x20008 (word st)) 0 = st) ∧ base.powered = true ∧ (getBulk base 0).newTenant = false ∧
      (getBulk (modBulk base 0 fun x => { x with newTenant := true }) 0).newTenant = true ∧ base.vfDone = [] ∧ base.ecc = [] ∧ base.bmeta = [] ∧
      (getSlot base 0 0).rngQueue = [] ∧ ((partitionBhs base (homeOf 0)).filter fun x => bhState base x != 0) = [] ∧
      ((partitionBhs (regPut base 0 0x20008 1) (homeOf 0)).filter fun x => bhState (regPut base 0 0x20008 1) x != 0) = [0] ∧ samePartition base 0 (homeOf 0) = true) ∧
    (n < 12 → bits (regGet (regPut base 0 0x20008 4) n 0x20028).toNat 6 42 = 0) := by
  refine ⟨by decide +kernel, fun h => ?_⟩
  have all : ∀ n < 12, bits (regGet (regPut base 0 0x20008 4) n 0x20028).toNat 6 42 = 0 := by decide +kernel
  exact all n h

theorem wit_FrozenMastersReturn :
    (let r := { reqOf 5 64 8 false (.tag 2) with st := .frozen }
     let s := { modPE base 0 0 (fun p => { p with frozen := some (.protection 5) }) with reqs := [r] }
     masterHere s 0 (.pe 0) 0 = true ∧ frozenReqs s 0 (.pe 0) 0 = [r] ∧ frozenCmds s 0 (.pe 0) 0 = [] ∧ reqAt s 5 = some r ∧ r.err = none) ∧
    (let c := { command 0x182 (val 0) (val 0) with stage := 9 }
     let s := { base with cmds := [c] }
     frozenReqs s 0 (.pe 0) 0 = [] ∧ frozenCmds s 0 (.pe 0) 0 = [c]) ∧
    masterHere base 0 (.pe 0) 1 = false := by decide +kernel

/-- A spoke flit. -/
def flitOf (ty code op addr : Nat) (data : List Byte) : Flit :=
  { ty := ty, tag := 3, srcdev := 7, vf := 0, prio := 0, size := if ty = 5 then 3 else 15, op := op, code := code, addr := addr, data := data }

/-- Port 0 is up. -/
def linked : State := regPut base 0 0x21080 1

/-- SPKIN entry 0 of bulkhead 0 admits reads and writes of device 7 to its first pages; door 0 is open to it. -/
def admitting : State :=
  regPut (regPut (regPut (regPut linked 0 0x21000 (word (1 + 7 * 2 + 2 ^ 26 + 2 ^ 27 + 2 ^ 28))) 0 0x21008 (word (4 * 2 ^ 34))) 0 0x22000 1) 0 0x22008 (word (7 + 2 ^ 25))

theorem wit_SpokesAndAttest :
    (let v : Word := 0x4001
     let a := bits v.toNat 6 42 * 64
     let s := regPut (regPut base 0 0x21200 v) 0 0x21208 1
     regBits s 0 0x21208 0 1 = 1 ∧ regGet s 0 0x21200 = v ∧ regionOf a = .hbm ∧ regionOf (a + 383) = .hbm ∧ s.ecc = [] ∧ s.bmeta = [] ∧ regBits base 0 0x21208 0 1 = 0) ∧
    portUp linked 0 = true ∧ portUp base 0 = false ∧
    (∀ ty ∈ [1, 2], let fl := flitOf ty 0 0 0x1000 (List.replicate 16 9)
      regionOf fl.addr = .hbm ∧ flitLen fl ≠ 0 ∧ spkinAdmits admitting 0 fl = true ∧ spkinAdmits linked 0 fl = false) ∧ admitting.ecc = [] ∧ admitting.bmeta = [] ∧ portUp admitting 0 = true ∧
    (let p := pieceOf (2 ^ 45) 8 (.spoke 0 3) 0
     let r := moving (reqOf 5 64 8 false (.tag 2)) p
     let s := { linked with reqs := [r] }
     (s.reqs.find? fun r => r.pieces.any fun p => p.stage == .spoke 0 3) = some r ∧ (r.pieces.find? fun p => p.stage == .spoke 0 3) = some p ∧ reqAt s 5 = some r ∧ r.write = false ∧ r.atom = none ∧ r.err = none ∧ portUp s 0 = true) ∧
    (let fl := flitOf 5 0 9 0 (List.replicate 8 1)
     let w := doorWords admitting 0 0
     doorForm fl = true ∧ doorOpen w.1 = true ∧ bits w.2 0 16 = fl.srcdev ∧ bitAt w.2 25 = true ∧ doorForm { fl with op := 8 } = false) ∧
    (let s := regPut admitting 0 0x22008 7
     let w := doorWords s 0 0
     doorOpen w.1 = true ∧ bits w.2 0 16 = 7 ∧ bitAt w.2 25 = false ∧ bits w.2 16 9 = 0) := by decide +kernel

theorem wit_ChecksBeforeMeaning :
    (∃ o ∈ opMap, o.code = 0x040 ∧
      let out (l : Option Operand) : Verdict := let s := on base l (val 1) none; verdict s o (nd .i64 0) (applyEpass o (nd .i64 0) s.cur)
      out erro = .error 5 ∧ out nul = .untaken ∧ out (hnd 0) = .code 0x07 ∧
        (let s := modPE (on base (val 1) (val 1) none) 0 0 fun p => { p with spoilt := [(0, true)] }
         verdict s o (nd .i64 0) (applyEpass o (nd .i64 0) s.cur) = .code 0x08 ∧ accHeld (firedPE s s) (applyEpass o (nd .i64 0) s.cur) = false) ∧
        ∀ l ∈ [erro, nul, hnd 0], let s := on base l (val 1) none; accHeld (firedPE s s) (applyEpass o (nd .i64 0) s.cur) = false) ∧
    (let s := modPE (on base (hnd 8) none none) 0 0 fun p => { p with issued := [{ id := 9, f := Firing.empty, node := nd .n64 0, due := 0, emits := [], effects := [], flags := 0, wait := .nothing, writes := [8], quiet := false }] }
     ∃ o ∈ opMap, o.code = 0x101 ∧ accHeld (firedPE s s) (applyEpass o (nd .n64 0) s.cur) = true) ∧
    (∃ o ∈ opMap, o.code = 0x001 ∧
      let out (l : Option Operand) : Verdict := let s := on base l none none; verdict s o (nd .n64 0) (applyEpass o (nd .n64 0) s.cur)
      out (some { kind := .handle, payload := handleWord 0 0 2 }) = .code 0x03) := by decide +kernel

theorem wit_DecodeEncode : (∀ x ∈ words5, x.2.wf = true ∧ encode x.2 = some x.1) ∧ (words5.length = 35) := by decide +kernel

theorem wit_StepRunsDecoded :
    (let s := State.reset.withFetchWord 96 0x00800000000000018000000
     let s' : State := { s with agenda := [] }
     s.agenda = [.issue 0 0 0] ∧ ((getPE s 0 0).ready[0]?).any (fun f => f.bh == 0 && f.pe == 0 && stageOpen s' 0 0 f.vf && matchedBefore s' f && isCandidate s' 0 0 0 f) = true) ∧
    isHappening (.starve 0 0) = true ∧ State.reset.agenda = [] := by decide +kernel

theorem wit_InvariantKept : PackageInv State.reset ∧ PackageInv { base with cmds := [command 0x182 (val 0) (val 0), { command 0x185 none none with id := 4 }], nextId := 5 } := by
  unfold PackageInv; decide +kernel

/-- With no schedule named, and with one step named. -/
theorem wit_InvariantKept_step : (match step { base with agenda := [.tick 0] } with | .next t => decide (cycleOf t 0 = 1) | _ => false) = true := by decide +kernel

/-! Single steps and operations, with the results that the manual's worked examples give, or worked out by hand from its rules. -/

/-- What the firing just issued emits first: its kind, payload and flags, and when it completes. -/
def outcome (o : Outcome State Fault Refusal) : Option (Kind × Word × BitVec 9 × Nat) :=
  match o with
  | .next t => ((getPE t 0 0).issued.getLast?).bind fun i => (i.emits.head?).map fun e => (e.kind, e.payload, i.flags, i.due)
  | _ => none

/-- The value, flags and latency that an instruction gives on two operands. -/
def gives (i : Node → Instr) (n : Node) (l r : Option Operand) (v : Nat) (fl : BitVec 9) (lat : Nat) : Bool :=
  outcome (exec (i n) (on base l r none)) == some (.value, word v, fl, lat)

/-- R3, the worked example of the scope: PE (5, 9, 22) is PE 361, in cluster 92 and slot 22. -/
theorem test_pe_numbers : clusterOf 361 = 92 ∧ slotOf 361 = 22 := by decide +kernel

/-- The worked example of address translation: VF 70 of BH2, a load in BH3 of 0x123456789ABC. -/
def walked (l2 l3 : Nat) : State :=
  let put (s : State) (a v : Nat) : State := memPut s a (leBytes 8 v)
  let s := regPut (regPut (regPut State.reset 2 0x10030 0x2000004001) 3 0x10200 0x00C) 2 0x10200 0x00C
  put (put (put s 0x002000004918 0x2000008001) 0x002000009158 l2) 0x00200000CF10 l3

theorem test_walk_level3 : walk (walked 0x200000C001 0x301234C01F) 3 70 0x123456789ABC = .leaf 0x301234C01F 3 ∧
    (match judgeLeaf State.reset 3 70 none false false 0x123456789ABC 8 0x301234C01F 3 with | .ok pa comp _ _ => pa == 0x30_1234_DABC && comp | _ => false) = true := by
  decide +kernel
theorem test_walk_level2 : walk (walked 0x301200000F 0) 3 70 0x123456789ABC = .leaf 0x301200000F 2 ∧
    (match judgeLeaf State.reset 3 70 none false false 0x123456789ABC 8 0x301200000F 2 with | .ok pa _ _ _ => pa == 0x30_1278_9ABC | _ => false) = true := by decide +kernel
theorem test_walk_faults : walk (walked 0x200000C001 0) 3 70 0x123456789ABC = .fault 0x01 3 ∧
    (match judgeLeaf State.reset 3 70 none false false 0x123456789ABC 8 0x301234C00B 3 with | .bad r _ _ => r == 0x10 | _ => false) = true := by decide +kernel

/-- R126, the worked example of HBM: the channel of 0x301234DABC. -/
theorem test_channel : channelOf 0x30_1234_DABC = 15 ∧ stackOf 0x30_1234_DABC = 3 := by decide +kernel

/-- R60, R77, the worked examples of the handle table and of handle tokens. -/
theorem test_handle_words :
    (let p := handlePut PE.empty 5 { HEntry.empty with kind := .tile, pages := [12, 13, 40, 41], gen := 0x31 }
     leNat ((List.range 8).map fun i => (windowByte p (0x48280 + i)).1) = 0x29280D0C00310D00) ∧ handleWord 5 0x012 0x31 = 0x0000003100001205 ∧
    rowOffset [12, 13, 40, 41] 7 + 6 = 0x6E06 := by decide +kernel

/-- R79, the worked example of gathers: the eighteenth error of gather engine 22 of BH4. -/
theorem test_error_payload :
    (newError { State.reset with errSeq := [(agentSrc (.gather 4 22), 17)] } (agentSrc (.gather 4 22)) 0x0C).1 = 0x000000110042C90C := by decide +kernel

/-- R163, the worked example of consistency: the greatest (wave, LSID) survives; in mode 0 either PE's last store may. -/
theorem test_survivors :
    (let st (sid pe wave lsid : Nat) : PStore := { store5 with sid := sid, pe := pe, wave := wave, lsid := lsid }
     let xs : List PubByte := [(st 0 0 7 3, 0x11), (st 1 1 9 2, 0x22), (st 2 0 8 2, 0x33)].map fun x =>
       { pa := 0x3000000100, byte := x.2, comp := false, hostc := false, st := x.1 }
     (candidates 1 xs).map (·.byte) = [0x22] ∧ (candidates 0 xs).map (·.byte) = [0x22, 0x33]) := by decide +kernel

/-- R259, R262, the worked example of number formats. -/
def entry2 : AccEntry := (accMerge false false (accMerge false true ⟨0, 0, false⟩ [(0x390000, -20)]).1 [(1, -150)]).1
def pol0 : Policy := { ftzi := false, ftzo := false, nanpay := false, ovfinf := false, evmask := 0 }
theorem test_acc_merge : accMerge false false ⟨0x390000, -20, false⟩ [(1, -150)] = (⟨0x39 * 2 ^ 137, -141, false⟩, 0x010) := by decide +kernel
theorem test_acc_drain : accConvert .bf16 pol0 0 0 false entry2 = ⟨0x4064, 0⟩ ∧ accConvert .e4m3 pol0 0 0 false entry2 = ⟨0x46, 0x010⟩ ∧
    accConvert .e4m3 pol0 5 0xC000 false entry2 = ⟨0x47, 0x010⟩ ∧ accConvert .e4m3 pol0 5 0xBFFF false entry2 = ⟨0x46, 0x010⟩ ∧
    accConvert .e2m1 pol0 0 0 false entry2 = ⟨0x6, 0x010⟩ := by decide +kernel
theorem test_condition : (let r := condRow .bf16 pol0 9 0 (fun _ => 0) [0x4040, 0xBEC0, 0, 0]; r.els = [192, -24, 0, 0] ∧ r.q = -6) := by decide +kernel

/-- R304, R303, the worked example of scalar floating point. -/
theorem test_fcvt : gives .fcvt (nd .e4m3 0x71) (val 0x43F00000) none 0x7E 0x014 4 = true ∧ gives .fcvt (nd .e4m3 0x71) (val 0x7F800000) none 0x7E 0x080 4 = true := by
  decide +kernel
theorem test_fcmp : gives .fcmp (nd .f32 2) (val 0x7E) (val 0x3F800000) 1 0 4 = true := by decide +kernel

/-- R333, the worked example of tcvt in mode sr. -/
theorem test_tcvt_elements :
    [(0xC000, 0x40640000), (0x1234, 0xC47A0000), (0xFFFF, 0x3A800000), (0, 0x7FC00000)].map (fun x => cvtElem .e4m3 .f32 pol0 5 false x.1 x.2) =
      [⟨0x47, 0x010⟩, ⟨0xFE, 0x094⟩, ⟨0x01, 0x018⟩, ⟨0x7F, 0⟩] := by decide +kernel

/-- R263, R355, R362, the worked example of ranked lists. -/
theorem test_lists :
    (let k (x : Nat) : Nat := keyOf .f32 x
     k 0x40000000 = 0xC0000000 ∧ k 0x40600000 = 0xC0600000 ∧
     ([(k 0x40000000, 100), (k 0x40600000, 101), (k 0x40000000, 102)].foldl (listInsert 2) []) = [(0xC0600000, 101), (0xC0000000, 100)]) ∧
    boundKey .f32 (some (3, -1)) = 0xBFC00000 ∧ boundKey .f32 (some (4, -1)) = 0xC0000000 := by decide +kernel

/-- R139, R135, the worked example of compression. -/
theorem test_widths :
    (let line (l : Nat) : List Byte := (List.range 64).map fun j => BitVec.ofInt 8 ((((j + l) % 3 : Nat) : Int) - 1)
     minWidth 1 (line 0) = 3 ∧ minWidth 1 (line 1) = 2 ∧ minWidth 1 (line 2) = 2 ∧ minWidth 1 ((line 0).set 0 0x7F) = 8 ∧ 10 ≤ minWidth 2 (line 1)) := by decide +kernel

/-- R400, the worked example of barriers: EXPECT 2, arrivals A0, A1, A2, B0. -/
theorem test_barrier :
    (let n := nd .n64 0x0030
     let go (x : State × List (List Word)) (w : Nat) : State × List (List Word) :=
       match combine x.1 { Firing.empty with l := val (w + 2 ^ 32), lid := 7 } n with | some r => (r.1, x.2 ++ [r.2]) | none => x
     let s := [0, 1, 2, 0].foldl go (combiner 0 0 0, [])
     let x := barRead (getPE s.1 0 0) 0 0 2
     x.cur = 1 ∧ x.c0 = 1 ∧ x.c1 = 1 ∧ (getPE s.1 0 0).hold = [] ∧ s.2 = [[], [], [], [word (2 ^ 33 + 2 ^ 52)]]) := by decide +kernel

/-- R291 to R298, by hand. -/
theorem test_add_wraps : gives .add (nd .i8 0) (val 0x7F) (val 1) 0xFFFFFFFFFFFFFF80 0 1 = true := by decide +kernel
theorem test_mulh : gives .mulh (nd .n64 0) (val (2 ^ 63)) (val 6) 3 0 3 = true ∧ gives .mulh (nd .i64 0) (val (2 ^ 64 - 1)) (val 6) (2 ^ 64 - 1) 0 3 = true := by decide +kernel
theorem test_div : gives .div (nd .i8 0) (val 0x80) (val 0xFF) 0xFFFFFFFFFFFFFF80 0 18 = true ∧ gives .div (nd .i32 0) (val (2 ^ 32 - 7)) (val 2) (2 ^ 64 - 3) 0 18 = true := by
  decide +kernel
theorem test_rem_zero : gives .rem (nd .n64 0) (val 7) (val 0) 7 0x002 18 = true ∧ gives .rem (nd .n64 0) (val 0) (val 0) 0 0 18 = true := by decide +kernel
theorem test_shifts : gives .sar (nd .i16 0) (val 0x8000) (val 20) (2 ^ 64 - 1) 0 1 = true ∧ gives .shl (nd .n32 0) (val 1) (val 32) 0 0 1 = true ∧
    gives .rotl (nd .n8 0) (val 0x81) (val 9) 3 0 1 = true := by decide +kernel
theorem test_clz : gives .clz (nd .n32 0) (val 0) none 32 0 1 = true ∧ gives .popc (nd .n16 0) (val 0xF0F0F) none 8 0 1 = true := by decide +kernel
theorem test_addsat : gives .addsat (nd .i8 0) (val 127) (val 1) 127 0x080 1 = true ∧ gives .subsat (nd .n8 0) (val 0) (val 1) 0 0x080 1 = true := by decide +kernel
theorem test_ext : gives .ext (nd .n64 0x00C4) (val 0xA5) none 0xA 0 1 = true ∧
    gives .ext (nd .i64 0x00C4) (val 0xA5) none (2 ^ 64 - 6) 0 1 = true := by decide +kernel
theorem test_idx : gives .idx (nd .n64 0xFFC3) (val 0x100) (val 5) 0x127 0 1 = true := by decide +kernel

/-- R300 to R302, R264: sums and roots at a boundary of rounding. -/
theorem test_fadd : gives .fadd (nd .f32 0) (val 0x3F800000) (val 0x33800000) 0x3F800000 0x010 4 = true ∧
    gives .fadd (nd .f32 2) (val 0x3F800000) (val 0x33800000) 0x3F800001 0x010 4 = true ∧ gives .fsub (nd .f64 0) (val 0x3FF0000000000000) (val 0x3FF0000000000000) 0 0 4 = true := by
  decide +kernel
theorem test_fsqrt : gives .fsqrt (nd .f32 0) (val 0x40800000) none 0x40000000 0 10 = true ∧ gives .fsqrt (nd .f32 0) (val 0xBF800000) none 0x7FC00000 0x001 10 = true := by
  decide +kernel
theorem test_fdiv_zero : gives .fdiv (nd .f16 0) (val 0x3C00) (val 0x8000) 0xFC00 0x002 16 = true := by
  decide +kernel

/-- R277 to R287: steering and frames. -/
theorem test_const : gives .const (nd .i8 0xFFFF) (val 1) none (2 ^ 64 - 1) 0 1 = true := by decide +kernel
theorem test_falloc : gives .falloc (nd .n64 0x10) (val 1) none 1 0 1 = true := by decide +kernel
theorem test_switch : (match exec (.switch { nd .n64 1 with d1 := dst 0 0 2 .l .cur }) (on base (val 5) (val 0) none) with
    | .next t => ((getPE t 0 0).issued.getLast?).any fun i => i.emits.map (fun e => (e.kind, e.payload)) == [(Kind.null, 0), (.value, 5)]
    | _ => false) = true := by decide +kernel
theorem test_halt : (match exec (.halt (ndNone .n64 0)) (on base (val 9) none none) with
    | .next t => (launchAt t 7).any fun l => l.exit == 9 && l.halted && l.st == .ending | _ => false) = true := by decide +kernel

/-- R162: a load takes what its PE's own store holds. -/
theorem test_ld_own : outcome (exec (.ld (nd .i32 0)) (on { base with stores := [store5] } (val 64) none none)) = some (.value, 0x05050505, 0, 1) := by decide +kernel

/-- R396, R399: barrier cells and routing counters. -/
theorem test_barArrive : gives .barArrive (nd .n64 3) (val 1) none (2 ^ 32 + 3 * 2 ^ 48) 0 1 = true := by decide +kernel
theorem test_rcntAdd : (match exec (.rcntAdd (ndNone .n64 0x0042)) (on base (val 4) none none) with
    | .next t => (getPE t 0 0).late.map (fun x => x.2) == [.countAdd (on base (val 4) none none).nextId 6 2] &&
        sget 0 (getSlot (countAdd t 0 0 (.countAdd 9 6 2)) 0 0).rcnt 6 == 2
    | _ => false) = true := by decide +kernel

/-- R411, R412: a release relocks; the relock runs and counts a reset. -/
theorem test_release : (match exec (.bhrstRelease 0) State.reset with
    | .next t => bhState t 0 == 3 && (match exec (.resetRelockDone 0) t with | .next u => bhState u 0 == 0 && regBits u 0 0x20008 16 16 == 1 | _ => false)
    | _ => false) = true := by decide +kernel

/-- R447: the host writes and reads HBM, and stops past its end. -/
theorem test_host : (match exec (.hostMemAccess true 0x4000 (List.replicate 2048 7)) base with | .next t => memBytes t 0x47FE 3 == [7, 7, 0] | _ => false) = true ∧
    (match exec (.hostMemAccess false (12 * 2 ^ 36) [0]) base with | .fault f => f == .hostUnmapped | _ => false) = true := by decide +kernel
end Sys2Proof.Tests
end

section
/-! SUPPORT. What the answer of a command changes (R119, R372, R439): the command goes, its PE holds one more issued firing, and an engine that has a place
free can start another command, which reads its tiles and sends its requests. -/

namespace Sys2Proof.Machine

/-- t differs from s at most in what the start of an engine's commands touches: the commands themselves, whose numbers stay, requests, references on PEs,
error numbers and the next number. -/
def OnlyStarts (s t : State) : Prop :=
  ∃ ps rs cs es n, t = { s with pes := ps, reqs := rs, cmds := cs, errSeq := es, nextId := n } ∧ cs.map (·.id) = s.cmds.map (·.id)

theorem OnlyStarts.refl (s : State) : OnlyStarts s s := ⟨_, _, _, _, _, rfl, rfl⟩

theorem OnlyStarts.trans {s t u : State} (h : OnlyStarts s t) (g : OnlyStarts t u) : OnlyStarts s u := by
  obtain ⟨_, _, _, _, _, rfl, hid⟩ := h
  obtain ⟨_, _, _, _, _, rfl, gid⟩ := g
  exact ⟨_, _, _, _, _, rfl, gid.trans hid⟩

theorem foldl_starts {α : Type} (f : State → α → State) (hf : ∀ s x, OnlyStarts s (f s x)) (l : List α) (s : State) : OnlyStarts s (l.foldl f s) := by
  induction l generalizing s with
  | nil => exact OnlyStarts.refl s
  | cons x l ih => exact (hf s x).trans (ih _)

theorem cmdPut_starts (s : State) (c : Cmd) : OnlyStarts s (cmdPut s c) := by
  refine ⟨_, _, _, _, _, rfl, ?_⟩
  rw [List.map_map]
  refine List.map_congr_left fun x _ => ?_
  by_cases h : x.id = c.id <;> simp [h]

theorem sendReq_starts (s : State) (r : Req) : OnlyStarts s (sendReq s r) := ⟨_, _, _, _, _, rfl, rfl⟩

theorem rowsSend_starts (s : State) (c : Cmd) (rs : List (Req × Bool)) : OnlyStarts s (rowsSend s c rs) := by
  refine foldl_starts _ (fun t x => ?_) rs s
  dsimp only
  split
  · exact ⟨_, _, _, _, _, rfl, rfl⟩
  · exact sendReq_starts t x.1

theorem dropOperands_starts (s : State) (c : Cmd) : OnlyStarts s (dropOperands s c) := by
  refine foldl_starts _ (fun t x => ?_) _ s
  split
  · exact ⟨_, _, _, _, _, rfl, rfl⟩
  · exact OnlyStarts.refl t

theorem cmdBegin_starts (s : State) (c : Cmd) : OnlyStarts s (cmdBegin s c) := by
  unfold cmdBegin
  dsimp only
  split
  · exact (cmdPut_starts s _).trans (rowsSend_starts _ _ _)
  · exact (cmdPut_starts s _).trans (rowsSend_starts _ _ _)
  · exact cmdPut_starts s _
  · exact ((cmdPut_starts s _).trans (dropOperands_starts _ _)).trans (rowsSend_starts _ _ _)
  · exact ((cmdPut_starts s _).trans (dropOperands_starts _ _)).trans (rowsSend_starts _ _ _)
  · exact (cmdPut_starts s _).trans (sendReq_starts _ _)
  · exact cmdPut_starts s _

theorem cmdStart_starts (s : State) (c : Cmd) : OnlyStarts s (cmdStart s c) := by
  unfold cmdStart
  dsimp only
  split
  · exact (cmdPut_starts s _).trans (cmdBegin_starts _ _)
  · exact cmdPut_starts s _

theorem startFrom_starts (k : Nat) (s : State) (a : Agent) : OnlyStarts s (startFrom k s a) := by
  induction k generalizing s with
  | zero => exact OnlyStarts.refl s
  | succ k ih =>
    unfold startFrom
    dsimp only
    split
    · split
      · exact (cmdStart_starts s _).trans (ih _)
      · exact OnlyStarts.refl s
    · exact OnlyStarts.refl s

/-- No command bears a number exactly where that number is not among those of the commands. -/
theorem cmdAt_none_iff (s : State) (id : Nat) : cmdAt s id = none ↔ id ∉ s.cmds.map (·.id) := by
  simp only [cmdAt, List.find?_eq_none, beq_iff_eq, List.mem_map, not_exists, not_and]

theorem cmdAt_id {s : State} {id : Nat} {c : Cmd} (h : cmdAt s id = some c) : c.id = id := by simpa using List.find?_some h

/-- A command that has been replaced is found under its number. -/
theorem cmdAt_cmdPut {s : State} {c : Cmd} (d : Cmd) (h : cmdAt s d.id = some c) : cmdAt (cmdPut s d) d.id = some d := by
  have key : ((fun x : Cmd => x.id == d.id) ∘ fun x => if x.id == d.id then d else x) = fun x => x.id == d.id := by
    funext x
    by_cases hx : x.id = d.id <;> simp [hx]
  unfold cmdAt at h
  unfold cmdAt cmdPut
  rw [List.find?_map, key, h]
  simp [cmdAt_id h]

/-- The end of a command takes it away, with requests that have finished; no other part of the state changes but by the start of others (R121, R204). -/
theorem cmdEnd_only (s : State) (c : Cmd) :
    ∃ ps rs cs es n, cmdEnd s c = { s with pes := ps, reqs := rs, cmds := cs, errSeq := es, nextId := n } ∧ c.id ∉ cs.map (·.id) := by
  unfold cmdEnd engineStart
  dsimp only
  obtain ⟨_, _, _, _, _, h, hid⟩ := startFrom_starts 4 _ c.agent
  refine ⟨_, _, _, _, _, h, ?_⟩
  rw [hid]
  simp [cmdDel]

@[simp] theorem cmdEnd_regs (s : State) (c : Cmd) : (cmdEnd s c).regs = s.regs := by
  obtain ⟨_, _, _, _, _, h, -⟩ := cmdEnd_only s c
  rw [h]

@[simp] theorem cmdEnd_launches (s : State) (c : Cmd) : (cmdEnd s c).launches = s.launches := by
  obtain ⟨_, _, _, _, _, h, -⟩ := cmdEnd_only s c
  rw [h]

@[simp] theorem cmdEnd_bhs (s : State) (c : Cmd) : (cmdEnd s c).bhs = s.bhs := by
  obtain ⟨_, _, _, _, _, h, -⟩ := cmdEnd_only s c
  rw [h]

theorem cmdAt_cmdEnd (s : State) (c : Cmd) : cmdAt (cmdEnd s c) c.id = none := by
  obtain ⟨_, _, _, _, _, h, hid⟩ := cmdEnd_only s c
  rw [cmdAt_none_iff, h]
  exact hid

/-- A reply to a firing of a launch that goes on is one more issued firing of its PE, with one token for each destination (R119, R222). -/
theorem pushReply_live (s : State) (f : Firing) (n : Node) (lat : Nat) (ds : List RDest) (k : Kind) (v : Word) (fx : List Effect) (fl : BitVec 9)
    (h : ∀ l, launchAt s f.lid = some l → l.halted = false) :
    ∃ gx, pushReply s f n lat ds k v fx fl = pushIssued s f n lat (ds.map fun d => Emit.mk (.fixed d) k v false) gx fl .nothing := by
  unfold pushReply
  dsimp only
  split
  · next l hl => exact ⟨_, by simp only [h l hl]; rfl⟩
  · exact ⟨_, rfl⟩

@[simp] theorem cmdReply_regs (s : State) (c : Cmd) (k : Kind) (v : Word) (fx : List Effect) : (cmdReply s c k v fx).regs = s.regs := by
  unfold cmdReply pushReply
  simp only [pushIssued_regs, cmdEnd_regs]

/-- The answer of a command whose launch goes on stands on its PE (R119, R372, R439). -/
theorem cmdReply_answers (s : State) (c : Cmd) (k : Kind) (v : Word) (fx : List Effect) (h : commandLive s c) : Answers s (cmdReply s c k v fx) c k v := by
  have live : ∀ l, launchAt (cmdEnd s c) c.f.lid = some l → l.halted = false := by
    unfold launchAt
    rw [cmdEnd_launches]
    exact h
  have clock : cycleOf (cmdEnd s c) c.f.bh = cycleOf s c.f.bh := by
    unfold cycleOf getBulk
    rw [cmdEnd_bhs]
  unfold cmdReply
  obtain ⟨gx, e⟩ := pushReply_live (cmdEnd s c) c.f c.node 0 (c.dests.filterMap id) k v fx (cmdFlags s c) live
  rw [e]
  unfold pushIssued
  refine ⟨?_, ?_⟩
  · have kept := pushIssued_cmds (cmdEnd s c) c.f c.node 0 ((c.dests.filterMap id).map fun d => Emit.mk (.fixed d) k v false) gx (cmdFlags s c) .nothing
    exact (congrArg (List.find? _) kept).trans (cmdAt_cmdEnd s c)
  · rw [getPE_pushWriting, if_pos rfl]
    exact ⟨_, List.mem_append_right _ (List.mem_singleton_self _), rfl, rfl, clock, rfl⟩

/-- An answer is due in the cycle in which it is made, whichever earlier state of that cycle it is counted from. -/
theorem Answers.of_cycle {s u t : State} {c : Cmd} {k : Kind} {v : Word} (hc : cycleOf u c.f.bh = cycleOf s c.f.bh) (h : Answers u t c k v) :
    Answers s t c k v := by
  unfold Answers at *
  rwa [hc] at h

end Sys2Proof.Machine
end

section
/-! SUPPORT. The accesses of sysrd and syswr (R439): what the command does, one lemma for each of its outcomes. -/

namespace Sys2Proof.Machine

/-- The bulkhead and the offset that the address word of an access names (R439). -/
abbrev accessBh (c : Cmd) : Nat := bits (payloadAt c.f .l).toNat 24 4
abbrev accessOff (c : Cmd) : Nat := bits (payloadAt c.f .l).toNat 0 24

variable {s : State} {id : Nat} {c : Cmd}

/-- A register access whose turn has come is performed by sysStep (R439). -/
theorem exec_sysStep (h : CommandTurn s id c) (code : c.code = 0x1C3 ∨ c.code = 0x1C4) : exec (.queueControllerOp id) s = .next (sysStep s c) := by
  have e : exec (.queueControllerOp id) s = execQueueControllerOp id s := rfl
  rw [e]
  unfold execQueueControllerOp
  obtain code | code := code <;> simp [h.found, h.awake, code]

/-- The VF of a PE's command whose turn has come stands in its slot (R39). -/
theorem CommandTurn.standsIn (h : CommandTurn s id c) : Machine.standsIn s c.f.bh c.f.pe c.f.vf = true := by
  have awake := h.awake
  unfold commandAwake at awake
  rw [h.agent, Bool.and_eq_true] at awake
  exact awake.2

/-- An offset that no register has answers zero (R403, R439, log 101). -/
theorem sysStep_unassigned (h : CommandTurn s id c) (hr : regName (accessOff c) = none) : sysStep s c = cmdReply s c .value 0 [] := by
  unfold sysStep
  simp [h.fresh, h.turn, hr]

section
variable {r : RegName} (h : CommandTurn s id c) (hr : regName (accessOff c) = some r)
include h hr

/-- An access that R420 does not allow is refused. -/
theorem sysStep_refused (no : regAllowed s (accessBh c) c.f.vf (c.code == 0x1C4) r = false) :
    sysStep s c = sysRefuse s c (payloadAt c.f .l).toNat := by
  unfold sysStep
  simp [h.fresh, h.turn, hr, no]

/-- An allowed read answers the register (R439). -/
theorem sysStep_read (code : c.code = 0x1C3) (ok : regAllowed s (accessBh c) c.f.vf false r = true) :
    sysStep s c = cmdReply s c .value (regRead s (accessBh c) (accessOff c) (some c.f)) [] := by
  unfold sysStep
  simp [h.fresh, h.turn, hr, code, ok]

/-- A write that names another tenant's VF writes nothing, and answers what is read back (R420, log 104). -/
theorem sysStep_namesOther (code : c.code = 0x1C4) (ok : regAllowed s (accessBh c) c.f.vf true r = true)
    (other : namesOther s (accessBh c) c.f.vf r (payloadAt c.f .r).toNat = true) :
    sysStep s c = cmdReply s c .value (sysReadBack s c (accessBh c) (accessOff c) r) [] := by
  unfold sysStep
  simp [h.fresh, h.turn, hr, code, ok, other]

/-- An allowed write that does not stall, and leaves its command there, answers what is read back from the state it leaves (R439). -/
theorem sysStep_write {u : State} (code : c.code = 0x1C4) (ok : regAllowed s (accessBh c) c.f.vf true r = true)
    (own : namesOther s (accessBh c) c.f.vf r (payloadAt c.f .r).toNat = false)
    (hu : regWrite s (accessBh c) (accessOff c) (payloadAt c.f .r) = some u)
    (there : cmdAt u id = some c) :
    sysStep s c = cmdReply u c .value (sysReadBack u c (accessBh c) (accessOff c) r) [] := by
  unfold sysStep
  simp [h.fresh, h.turn, hr, code, ok, own, hu, cmdAt_id h.found, there]

end

/-- Freezing a PE that is not frozen, for a VF that stands there, gives it the reason (R417). -/
theorem freezeMaster_frozen (s : State) (b pe vf : Nat) (why : FreezeReason) (here : standsIn s b pe vf = true) (thawed : (getPE s b pe).frozen = none) :
    (getPE (freezeMaster s b (.pe pe) vf why) b pe).frozen = some why := by
  unfold freezeMaster
  dsimp only
  unfold modCtx
  rw [if_pos here, getPE_modPE, if_pos rfl]
  simp [frozePE, thawed]

/-- A fault where FDOM is 0 posts its event and freezes its master (R417, R418). -/
theorem takeFault_freezes (s : State) (b : Nat) (m : MasterId) (src vf lid : Nat) (task : Option Nat) (why : FreezeReason) (code payload : Nat)
    (h : fdomOf s lid task = false) :
    takeFault s b m src vf lid task why code payload = freezeMaster (postEvent s src b (some vf) (some lid) code payload) b m vf why := by
  simp [takeFault, h]

/-- A refused access where FDOM is 0 freezes its PE, keeps its command as refused, and changes no register but WSTAT (R418, R420). -/
theorem sysRefuse_freezes (s : State) (c : Cmd) (a : Nat) (found : cmdAt s c.id = some c) (here : standsIn s c.f.bh c.f.pe c.f.vf = true)
    (fd : fdomOf s c.f.lid c.f.task = false) (thawed : (getPE s c.f.bh c.f.pe).frozen = none) (clean : cleanMemory s) :
    (getPE (sysRefuse s c a) c.f.bh c.f.pe).frozen = some (.register c.id) ∧ cmdAt (sysRefuse s c a) c.id = some { c with stage := 9 } ∧
      SameRegs s (sysRefuse s c a) := by
  unfold sysRefuse
  simp only [fd, Bool.false_eq_true, if_false]
  rw [takeFault_freezes _ _ _ _ _ _ _ _ _ _ fd]
  generalize 0x020000000000 + bits a 24 4 * 2 ^ 24 + bits a 0 24 = pa
  generalize pa % 2 ^ 47 + b2n (c.code == 0x1C4) * 2 ^ 47 + 13 * 2 ^ 48 + 0x12 * 2 ^ 56 + c.f.bh * 2 ^ 76 = pay
  obtain ⟨⟨_, _, _, _, posted⟩, same, -⟩ := postEvent_quiet s (wellSrc c.f.bh) c.f.bh (some c.f.vf) (some c.f.lid) 0x01 pay clean
  generalize postEvent s (wellSrc c.f.bh) c.f.bh (some c.f.vf) (some c.f.lid) 0x01 pay = t at posted same ⊢
  have here' : standsIn t c.f.bh c.f.pe c.f.vf = true := by rw [posted]; exact here
  have thawed' : (getPE t c.f.bh c.f.pe).frozen = none := by rw [posted]; exact thawed
  obtain ⟨_, _, _, only⟩ := freezeMaster_only t c.f.bh (.pe c.f.pe) c.f.vf (.register c.id)
  refine ⟨freezeMaster_frozen t _ _ _ _ here' thawed', cmdAt_cmdPut { c with stage := 9 } (c := c) ?_, ?_⟩
  · rw [only, posted]
    exact found
  · intro b off hb ho
    have := same b off hb ho
    rw [only]
    exact this

end Sys2Proof.Machine
end

section
/-! SUPPORT. Writes of the registers that only hold bits (R12), and the VFs that may write a register (R420). -/

namespace Sys2Proof.Machine

/-- A VF that is not tenant root writes no register but its own trap handler, SELF left out (R420, log 102). -/
theorem regAllowed_write_stranger (s : State) (b vf : Nat) (r : RegName) (root : isRootVf s b vf = false) (self : r ≠ .self)
    (handler : ∀ k, r = .vfhnd k → 32 * b + k ≠ vf) : regAllowed s b vf true r = false := by
  unfold regAllowed
  rw [root]
  cases r with
  | self => exact absurd rfl self
  | vfhnd k => simpa using handler k rfl
  | _ => simp

/-- A host write to a bulkhead that is there does what a write of the register does (R12, R44). -/
theorem exec_registerWrite {s t : State} {b off : Nat} {v : Word} (power : s.powered = true) (hb : b < 12) (h : regWrite s b off v = some t) :
    exec (.registerWrite b off v) s = .next t := by
  have e : exec (.registerWrite b off v) s = execRegisterWrite b off v s := rfl
  rw [e]
  simp [execRegisterWrite, power, hb, h]

theorem regPut_only (s : State) (b off : Nat) (v : Word) : regPut s b off v = { s with regs := (regPut s b off v).regs } := rfl

/-- A write under access columns changes its register alone, and gives it the masked value (R12). -/
theorem regMasked_effect (s : State) (b off : Nat) (v : Word) (m : Word × Word) :
    let t := regMasked s b off v m
    t = { s with regs := t.regs } ∧ regGet t b off = maskedValue (regGet s b off) v m ∧
      ∀ c k, regKey c k ≠ regKey b off → regGet t c k = regGet s c k :=
  ⟨regPut_only s b off _, regGet_regPut_same s b off _, fun c k h => regGet_regPut_other s b off c k _ h⟩

theorem regName_bcaddr : regName 0x11020 = some .bcaddr := by decide

/-- A write of BCADDR while no block operation is in progress is one under its access columns (R153). -/
theorem regWrite_bcaddr_idle (s : State) (b : Nat) (v : Word) (idle : regBits s b 0x11038 0 1 ≠ 1) :
    regWrite s b 0x11020 v = some (regMasked s b 0x11020 v (regMasks .bcaddr)) := by
  simp [regWrite, regName_bcaddr, blockRegWrite, idle]

/-- A write of BCADDR while a block operation is in progress sets BCSTAT.ERR and does nothing else (R153). -/
theorem regWrite_bcaddr_busy (s : State) (b : Nat) (v : Word) (busy : regBits s b 0x11038 0 1 = 1) : regWrite s b 0x11020 v = some (bcErr s b) := by
  simp [regWrite, regName_bcaddr, blockRegWrite, busy]

/-- What a host write of a register is that only holds bits, with a read-write mask and a write-1-to-clear mask (R12). -/
def HoldsBits (s : State) (b : Nat) (v : Word) (x : Nat × Word × Word) : Prop :=
  ∃ t : State, exec (.registerWrite b x.1 v) s = .next t ∧ t = { s with regs := t.regs } ∧
    (x.1 = 0x11020 → regBits s b 0x11038 0 1 = 1 → t = bcErr s b) ∧
    (x.1 ≠ 0x11020 ∨ regBits s b 0x11038 0 1 ≠ 1 → regGet t b x.1 = (regGet s b x.1 &&& ~~~x.2.1 ||| v &&& x.2.1) &&& ~~~(v &&& x.2.2) ∧
      ∀ c off, regKey c off ≠ regKey b x.1 → regGet t c off = regGet s c off)

theorem holdsBits_of_masked {s : State} {b off : Nat} {v : Word} {m : Word × Word} (power : s.powered = true) (hb : b < 12)
    (plain : off ≠ 0x11020 ∨ regBits s b 0x11038 0 1 ≠ 1) (h : regWrite s b off v = some (regMasked s b off v m)) : HoldsBits s b v (off, m) := by
  obtain ⟨only, same, other⟩ := regMasked_effect s b off v m
  refine ⟨_, exec_registerWrite power hb h, only, fun block busy => ?_, fun _ => ⟨same, other⟩⟩
  exact (plain.elim (· block) (· busy)).elim

theorem bcErr_only (s : State) (b : Nat) : bcErr s b = { s with regs := (bcErr s b).regs } := by
  unfold bcErr regSetBits
  exact regPut_only s b _ _

/-- BCADDR holds bits, but for the time of a block operation (R153). -/
theorem holdsBits_bcaddr {s : State} {b : Nat} {v : Word} (power : s.powered = true) (hb : b < 12) :
    HoldsBits s b v (0x11020, regMasks .bcaddr) := by
  by_cases busy : regBits s b 0x11038 0 1 = 1
  · exact ⟨bcErr s b, exec_registerWrite power hb (regWrite_bcaddr_busy s b v busy), bcErr_only s b, fun _ _ => rfl,
      fun free => (free.elim (· rfl) (· busy)).elim⟩
  · exact holdsBits_of_masked power hb (.inr busy) (regWrite_bcaddr_idle s b v busy)

/-- The registers whose write does nothing but change their bits, the block registers left out, which a block operation holds (R12, R153). -/
def onlyHoldsBits : RegName → Bool
  | .tenstk | .xbstat | .wstat | .weccstat | .weccaddr | .wscrub | .vfrcb _ | .schstat | .bhstat | .bhevq | .frzstat | .dbgtgt | .self | .nrgw _ | .nrgstat
  | .vfhnd _ | .vfflag _ | .hqcap _ | .hqstat _ | .spkstat _ | .attstat | .door _ _ | .qptr _ => true
  | _ => false

/-- A write of such a register, whoever makes it, is one under its access columns (R12, R403). -/
theorem regWrite_onlyHoldsBits {r : RegName} {off : Nat} (s : State) (b : Nat) (v : Word) (hr : regName off = some r) (plain : onlyHoldsBits r = true) :
    regWrite s b off v = some (regMasked s b off v (regMasks r)) := by
  unfold regWrite
  rw [hr]
  cases r <;> simp [onlyHoldsBits] at plain ⊢

theorem holdsBits_of_onlyHoldsBits {s : State} {b off : Nat} {v : Word} {r : RegName} (power : s.powered = true) (hb : b < 12)
    (hr : regName off = some r) (plain : onlyHoldsBits r = true) : HoldsBits s b v (off, regMasks r) := by
  have block : off ≠ 0x11020 := by
    rintro rfl
    rw [regName_bcaddr] at hr
    injection hr with hr
    subst hr
    cases plain
  exact holdsBits_of_masked power hb (.inl block) (regWrite_onlyHoldsBits s b v hr plain)

end Sys2Proof.Machine
end

section
/-! SUPPORT. The statement about register accesses (R12, R418, R420, R439). -/

namespace Sys2Proof.Machine

/-- Settles O39: each outcome of an access is one of sysStep's, each answer one of cmdReply's, and the listed registers hold bits. -/
theorem registerAccesses : Obligations.RegisterAccesses := by
  unfold Obligations.RegisterAccesses
  refine ⟨fun s id c turn live => ?_, regAllowed_write_stranger, fun s b v power hb => ?_⟩
  · intro a b off wr code
    have run := exec_sysStep turn code
    refine ⟨fun hr => ?_, fun r hr =>
      ⟨fun ok read => ?_, fun u ok write own hu there liveU clock => ?_, fun ok write other => ?_, fun no fd thawed clean => ?_⟩⟩
    · refine ⟨_, run, ?_⟩
      rw [sysStep_unassigned turn hr]
      exact ⟨cmdReply_answers s c _ _ _ live, cmdReply_regs s c _ _ _⟩
    · have isRead : c.code = 0x1C3 := code.resolve_right (beq_eq_false_iff_ne.mp read)
      rw [read] at ok
      refine ⟨_, run, ?_⟩
      rw [sysStep_read turn hr isRead ok]
      exact ⟨cmdReply_answers s c _ _ _ live, cmdReply_regs s c _ _ _⟩
    · rw [write] at ok
      refine ⟨_, run, ?_⟩
      rw [sysStep_write turn hr (beq_iff_eq.mp write) ok own hu there]
      exact ⟨cmdReply_regs u c _ _ _, (cmdReply_answers u c _ _ _ liveU).of_cycle clock⟩
    · rw [write] at ok
      refine ⟨_, run, ?_⟩
      rw [sysStep_namesOther turn hr (beq_iff_eq.mp write) ok other]
      exact cmdReply_regs s c _ _ _
    · have number := cmdAt_id turn.found
      subst number
      obtain ⟨frozen, kept, same⟩ := sysRefuse_freezes s c a turn.found turn.standsIn fd thawed clean
      refine ⟨_, { c with stage := 9 }, run, ?_⟩
      rw [sysStep_refused turn hr no]
      exact ⟨frozen, kept, rfl, same⟩
  · change ∀ x ∈ _, HoldsBits s b v x
    have plain {off : Nat} {r : RegName} (hr : regName off = some r) (h : onlyHoldsBits r = true) : HoldsBits s b v (off, regMasks r) :=
      holdsBits_of_onlyHoldsBits power hb hr h
    simp only [List.forall_mem_cons]
    exact ⟨plain (r := .tenstk) rfl rfl, plain (r := .xbstat) rfl rfl, plain (r := .wscrub) rfl rfl, holdsBits_bcaddr power hb, plain (r := .bhstat) rfl rfl,
      plain (r := .bhevq) rfl rfl, plain (r := .dbgtgt) rfl rfl, plain (r := .nrgw 0) rfl rfl, plain (r := .nrgstat) rfl rfl, plain (r := .schstat) rfl rfl,
      plain (r := .attstat) rfl rfl, fun _ h => by cases h⟩

end Sys2Proof.Machine
end

section
/-! SUPPORT. Fields of words and of registers: what a field reads as after a field has been written (R11, R12). -/

namespace Sys2Proof.Machine

theorem bitAt_eq_testBit (x i : Nat) : bitAt x i = x.testBit i := by
  rw [Nat.testBit_eq_decide_div_mod_eq]
  rfl

theorem testBit_bits (x lo len i : Nat) : (bits x lo len).testBit i = (decide (i < len) && x.testBit (lo + i)) := by
  simp [bits, Nat.testBit_mod_two_pow, Nat.testBit_div_two_pow, Nat.add_comm]

theorem testBit_word (x i : Nat) : (word x).toNat.testBit i = (decide (i < 64) && x.testBit i) := by
  rw [word, BitVec.toNat_ofNat, Nat.testBit_mod_two_pow]

theorem bitAt_toNat (v : Word) (i : Nat) : bitAt v.toNat i = v.getLsbD i := bitAt_eq_testBit _ i

theorem bits_toNat (v : Word) (lo len : Nat) : bits v.toNat lo len = (v.extractLsb' lo len).toNat := by
  rw [BitVec.extractLsb'_toNat, Nat.shiftRight_eq_div_pow]
  rfl

/-- The value with a field replaced, as the sum of what stands below, in and above the field. -/
theorem setBits_eq (x lo len v : Nat) : setBits x lo len v = x % 2 ^ lo + 2 ^ lo * (v % 2 ^ len + 2 ^ len * (x / 2 ^ lo / 2 ^ len)) := by
  have low := Nat.mod_add_div x (2 ^ lo)
  have high := Nat.mod_add_div (x / 2 ^ lo) (2 ^ len)
  have parts : x = x % 2 ^ lo + (x / 2 ^ lo % 2 ^ len * 2 ^ lo + 2 ^ lo * (2 ^ len * (x / 2 ^ lo / 2 ^ len))) := by
    rw [Nat.mul_comm _ (2 ^ lo), ← Nat.mul_add, high, low]
  unfold setBits bits
  rw [Nat.mul_add, Nat.mul_comm (2 ^ lo) (v % 2 ^ len)]
  generalize 2 ^ lo * (2 ^ len * (x / 2 ^ lo / 2 ^ len)) = top at *
  generalize x / 2 ^ lo % 2 ^ len * 2 ^ lo = field at *
  omega

theorem testBit_setBits (x lo len v i : Nat) :
    (setBits x lo len v).testBit i = if lo ≤ i ∧ i < lo + len then v.testBit (i - lo) else x.testBit i := by
  rw [setBits_eq, Nat.add_comm, Nat.testBit_two_pow_mul_add _ (Nat.mod_lt _ (by positivity)), Nat.add_comm (v % 2 ^ len),
    Nat.testBit_two_pow_mul_add _ (Nat.mod_lt _ (by positivity))]
  by_cases low : i < lo
  · simp [low, Nat.testBit_mod_two_pow, show ¬ lo ≤ i by omega]
  · by_cases mid : i - lo < len
    · simp [low, mid, Nat.testBit_mod_two_pow, show lo ≤ i ∧ i < lo + len by omega]
    · have : ¬ (lo ≤ i ∧ i < lo + len) := by omega
      simp only [low, mid, this, if_false, Nat.testBit_div_two_pow]
      congr 1
      omega

/-- A field of a word reads as it was written. -/
theorem bits_setBits_same (x lo len v : Nat) (h : lo + len ≤ 64) : bits (word (setBits x lo len v)).toNat lo len = v % 2 ^ len := by
  refine Nat.eq_of_testBit_eq fun i => ?_
  rw [testBit_bits, testBit_word, testBit_setBits, Nat.testBit_mod_two_pow]
  by_cases hi : i < len
  · simp [hi, show lo + i < 64 by omega]
  · simp [hi]

/-- A field of a word reads as before where another one was written. -/
theorem bits_setBits_apart (x : Word) (lo len v a n : Nat) (h : a + n ≤ lo ∨ lo + len ≤ a) :
    bits (word (setBits x.toNat lo len v)).toNat a n = bits x.toNat a n := by
  refine Nat.eq_of_testBit_eq fun i => ?_
  rw [testBit_bits, testBit_bits, testBit_word, testBit_setBits]
  by_cases hi : i < n
  · rw [if_neg (by omega)]
    by_cases top : a + i < 64
    · simp [top]
    · have : x.toNat.testBit (a + i) = false := Nat.testBit_lt_two_pow (x.isLt.trans_le (Nat.pow_le_pow_right (by decide) (by omega)))
      simp [this]
  · simp [hi]

/-- Registers read alike in states that hold the same registers. -/
theorem regGet_congr {s t : State} (h : t.regs = s.regs) (b off : Nat) : regGet t b off = regGet s b off := by
  unfold regGet
  rw [h]

/-- Registers of one bulkhead at different offsets are apart, whatever the offsets. -/
theorem regGet_regPut_offset (s : State) (b off k : Nat) (v : Word) (h : k ≠ off) : regGet (regPut s b off v) b k = regGet s b k :=
  regGet_regPut_other s b off b k v fun e => h (Nat.add_left_cancel e)

theorem regBits_regSetBits_same (s : State) (b off lo len v : Nat) (h : lo + len ≤ 64) : regBits (regSetBits s b off lo len v) b off lo len = v % 2 ^ len := by
  unfold regBits regSetBits
  rw [regGet_regPut_same]
  exact bits_setBits_same _ lo len v h

/-- A field of any register reads as before where an other field of one register was written. -/
theorem regBits_regSetBits_field (s : State) (b off lo len v c a n : Nat) (h : a + n ≤ lo ∨ lo + len ≤ a) :
    regBits (regSetBits s b off lo len v) c off a n = regBits s c off a n := by
  by_cases hk : regKey c off = regKey b off
  · have : c = b := Nat.eq_of_mul_eq_mul_right (by decide : 0 < 2 ^ 24) (Nat.add_right_cancel hk)
    subst this
    unfold regBits regSetBits
    rw [regGet_regPut_same]
    exact bits_setBits_apart _ lo len v a n h
  · unfold regBits regSetBits
    rw [regGet_regPut_other _ _ _ _ _ _ hk]

theorem regGet_regSetBits_offset (s : State) (b off lo len v k : Nat) (h : k ≠ off) : regGet (regSetBits s b off lo len v) b k = regGet s b k :=
  regGet_regPut_offset s b off k _ h

theorem regPut_state (s : State) (b off : Nat) (v : Word) : ∃ r, regPut s b off v = { s with regs := r } := ⟨_, rfl⟩

theorem regSetBits_only (s : State) (b off lo len v : Nat) : regSetBits s b off lo len v = { s with regs := (regSetBits s b off lo len v).regs } := rfl

end Sys2Proof.Machine
end

section
/-! SUPPORT. Which registers an operation writes: those of some offsets alone, in whichever bulkheads (R403). The accesses that the device makes for itself write the well's counts
(R128, R129, R133). -/

namespace Sys2Proof.Machine

/-- The offset of a register's key (R403). -/
def keyOff (k : Nat) : Nat := k % 2 ^ 24

/-- t holds every register of s but those at offsets of P. -/
def RegsApart (P : Nat → Bool) (s t : State) : Prop := (t.regs.filter fun e => !P (keyOff e.1)) = s.regs.filter fun e => !P (keyOff e.1)

section
variable {P Q : Nat → Bool} {s t u : State}

theorem RegsApart.of_regs (h : t.regs = s.regs) : RegsApart P s t := by rw [RegsApart, h]

theorem RegsApart.refl (s : State) : RegsApart P s s := rfl

theorem RegsApart.trans (h : RegsApart P s t) (g : RegsApart P t u) : RegsApart P s u := Eq.trans g h

theorem RegsApart.mono (h : RegsApart P s t) (le : ∀ off, P off = true → Q off = true) : RegsApart Q s t := by
  have both (m : SMap Word) : (m.filter fun e => !Q (keyOff e.1)) = (m.filter fun e => !P (keyOff e.1)).filter fun e => !Q (keyOff e.1) := by
    rw [List.filter_filter]
    refine List.filter_congr fun e _ => ?_
    cases hp : P (keyOff e.1)
    · simp
    · simp [le _ hp]
  unfold RegsApart
  rw [both, both s.regs, h]

theorem RegsApart.foldl {α : Type} {f : State → α → State} (hf : ∀ s x, RegsApart P s (f s x)) (l : List α) (s : State) : RegsApart P s (l.foldl f s) := by
  induction l generalizing s with
  | nil => exact .refl s
  | cons x l ih => exact (hf s x).trans (ih _)

theorem regKey_offset {b off : Nat} (h : off < 16777216) : keyOff (regKey b off) = off := by
  unfold keyOff regKey
  omega

/-- A register at another offset reads as before. -/
theorem RegsApart.regGet (h : RegsApart P s t) (b : Nat) {off : Nat} (small : off < 16777216) (apart : P off = false) : regGet t b off = regGet s b off := by
  have key := sget_filter (regResetAt (regKey b off)) (fun k => !P (keyOff k))
  unfold Machine.regGet
  have ht := key t.regs (regKey b off)
  have hs := key s.regs (regKey b off)
  rw [regKey_offset small, apart, Bool.not_false, if_pos rfl] at ht hs
  rw [← ht, ← hs, h]

theorem RegsApart.regBits (h : RegsApart P s t) (b : Nat) {off : Nat} (lo len : Nat) (small : off < 16777216) (apart : P off = false) :
    regBits t b off lo len = regBits s b off lo len := by
  unfold Machine.regBits
  rw [h.regGet b small apart]

theorem RegsApart.bhState (h : RegsApart P s t) (b : Nat) (apart : P 0x20008 = false) : bhState t b = bhState s b :=
  h.regBits b 0 3 (by decide) apart

/-- The quantum tables name the same VFs (R390). -/
theorem RegsApart.inTables (h : RegsApart P s t) (apart : ∀ off, 0x18000 ≤ off → off < 0x18800 → P off = false) (b vf : Nat) : inTables t b vf = inTables s b vf := by
  have only (m : SMap Word) (q : Nat × Word → Bool) (hq : ∀ e, q e = true → P (keyOff e.1) = false) : m.any q = (m.filter fun e => !P (keyOff e.1)).any q := by
    rw [List.any_filter]
    refine congrArg (List.any m) (funext fun e => ?_)
    cases he : q e
    · simp
    · simp [hq e he]
  unfold Machine.inTables
  dsimp only
  have within : ∀ e : Nat × Word, (e.1 / 2 ^ 24 == b && decide (0x18000 ≤ e.1 % 2 ^ 24) && decide (e.1 % 2 ^ 24 < 0x18800) && bitAt e.2.toNat 9 && bits e.2.toNat 0 9 == vf) = true →
      P (keyOff e.1) = false := by
    intro e he
    simp only [Bool.and_eq_true, decide_eq_true_eq] at he
    obtain ⟨⟨⟨⟨-, lo⟩, hi⟩, -⟩, -⟩ := he
    exact apart _ lo hi
  rw [only t.regs _ within, only s.regs _ within, h]

theorem RegsApart.tableVfs (h : RegsApart P s t) (apart : ∀ off, 0x18000 ≤ off → off < 0x18800 → P off = false) (b : Nat) : tableVfs t b = tableVfs s b :=
  List.filter_congr fun v _ => h.inTables apart b v

theorem regPut_apart (s : State) (b : Nat) {off : Nat} (v : Word) (small : off < 16777216) (hit : P off = true) : RegsApart P s (regPut s b off v) := by
  have key : P (keyOff (regKey b off)) = true := by rw [regKey_offset small]; exact hit
  have ins (m : SMap Word) (k : Nat) (w : Word) (hk : P (keyOff k) = true) :
      ((sins m k w).filter fun e => !P (keyOff e.1)) = m.filter fun e => !P (keyOff e.1) := by
    induction m with
    | nil => simp [sins, hk]
    | cons e m ih =>
      obtain ⟨j, x⟩ := e
      unfold sins
      split
      · simp [hk]
      · split
        · next same => subst same; simp [hk]
        · simp only [List.filter_cons, ih]
  have del (m : SMap Word) (k : Nat) (hk : P (keyOff k) = true) :
      ((sdel m k).filter fun e => !P (keyOff e.1)) = m.filter fun e => !P (keyOff e.1) := by
    unfold sdel
    rw [List.filter_filter]
    refine List.filter_congr fun e _ => ?_
    by_cases same : e.1 = k
    · simp [same, hk]
    · simp [same]
  unfold RegsApart regPut sput
  dsimp only
  split
  · exact del _ _ key
  · exact ins _ _ _ key

theorem regSetBits_apart (s : State) (b : Nat) {off : Nat} (lo len v : Nat) (small : off < 16777216) (hit : P off = true) :
    RegsApart P s (regSetBits s b off lo len v) := regPut_apart s b _ small hit

end

theorem OnlyMemory.regs {s t : State} (h : OnlyMemory s t) : t.regs = s.regs := by
  obtain ⟨_, _, _, rfl⟩ := h
  rfl

/-- The offsets of WSTAT, WECCSTAT and WECCADDR (R133). -/
def wellOff (off : Nat) : Bool := off == 0x11000 || off == 0x11008 || off == 0x11010

theorem postPlain_apart (s : State) (src b : Nat) (vf lid : Option Nat) (code payload : Nat) : RegsApart wellOff s (postPlain s src b vf lid code payload) :=
  .of_regs (postPlain_only s src b vf lid code payload).regs

theorem weccstat_apart (s : State) (b lo len v : Nat) : RegsApart wellOff s (regSetBits s b 0x11008 lo len v) := regSetBits_apart s b lo len v (by decide) rfl

theorem poisonReport_apart (s : State) (b vf : Nat) (known : Bool) (cw n : Nat) : RegsApart wellOff s (poisonReport s b vf known cw n) := by
  unfold poisonReport
  refine RegsApart.trans (RegsApart.trans ?_ (regPut_apart _ b _ (by decide) rfl)) (postPlain_apart _ _ _ _ _ _ _)
  split
  · exact (weccstat_apart _ _ _ _ _).trans (weccstat_apart _ _ _ _ _)
  · exact weccstat_apart _ _ _ _ _

theorem countCorrected_apart (s : State) (b cw : Nat) : RegsApart wellOff s (countCorrected s b cw) := by
  have post (u : State) : RegsApart wellOff u (if regBits u b 0x11008 49 1 = 1 ∧ (getBulk u b).ceAt ≤ cycleOf u b then
      modBulk (postPlain u (wellSrc b) b none none 0x05 (cw * 32 % 2 ^ 36)) b (fun x => { x with ceAt := x.cycle + 65536 }) else u) := by
    split
    · exact postPlain_apart _ _ _ _ _ _ _
    · exact .refl u
  unfold countCorrected
  refine RegsApart.trans ?_ (post _)
  split
  · exact weccstat_apart _ _ _ _ _
  · exact weccstat_apart _ _ _ _ _

theorem meetCw_apart (b vf : Nat) (known : Bool) (s : State) (cw : Nat) : RegsApart wellOff s (meetCw b vf known s cw) := by
  unfold meetCw
  split
  · exact poisonReport_apart (eccPut s cw .poisoned) b vf known cw 1
  · exact countCorrected_apart s b cw
  · exact .refl s

theorem meetSectors_apart (s : State) (vf : Nat) (known : Bool) (blk : Nat) (secs : List Nat) : RegsApart wellOff s (meetSectors s vf known blk secs) := by
  unfold meetSectors
  dsimp only
  split
  · split
    · exact .refl s
    · exact (RegsApart.of_regs (meetSectors_access.eccPut_fold_only_map s blk).regs).trans (poisonReport_apart _ _ _ _ _ _)
  · exact RegsApart.foldl (meetCw_apart _ _ _) _ s

theorem meetWrite_apart (s : State) (vf : Nat) (known comp : Bool) (pa : Nat) (bs : List Byte) (mask : List Bool) :
    RegsApart wellOff s (meetWrite s vf known comp pa bs mask) := by
  unfold meetWrite
  dsimp only
  split
  · exact .refl s
  · split
    · exact RegsApart.foldl (meetCw_apart _ _ _) _ s
    · exact meetSectors_apart s vf known _ _

theorem ownPulse_apart (s : State) (b k : Nat) : RegsApart wellOff s (ownMeet.ownPulse s b k) := by
  unfold ownMeet.ownPulse
  split
  · exact regSetBits_apart s b _ _ _ (by decide) rfl
  · exact .refl s

theorem ownMeet_apart (s : State) (vf : Nat) (known : Bool) (pa n : Nat) : RegsApart wellOff s (ownMeet s vf known pa n) :=
  RegsApart.foldl (fun t _ => (meetSectors_apart t vf known _ _).trans (ownPulse_apart _ _ _)) _ s

theorem ownTry_apart (s : State) (vf : Nat) (known : Bool) (pa : Nat) (bs : List Byte) : RegsApart wellOff s (ownTry s vf known pa bs).1 := by
  unfold ownTry
  generalize blockSpans pa bs.length = l
  suffices ∀ a : State × Bool, RegsApart wellOff a.1 (l.foldl _ a).1 from this (s, true)
  induction l with
  | nil => exact fun a => .refl a.1
  | cons x l ih =>
    exact fun a => RegsApart.trans ((meetWrite_apart a.1 vf known false x.1 _ []).trans ((ownPulse_apart _ _ _).trans (.of_regs (blockWrite_only _ _ _ _ _).regs))) (ih _)

theorem memPutLe_apart (s : State) (pa n v : Nat) : RegsApart wellOff s (memPutLe s pa n v) := ownTry_apart s 0 false pa _

theorem ownWord_apart (s : State) (vf pa : Nat) : RegsApart wellOff s (ownWord s vf pa).1 := ownMeet_apart s vf true pa 8

theorem rcbMeet_apart (k : Nat) (s : State) (addr : Nat) : RegsApart wellOff s (rcbMeet k s addr) := by
  induction k generalizing s addr with
  | zero => exact .refl s
  | succ k ih =>
    unfold rcbMeet
    split
    · exact .refl s
    · exact (ownMeet_apart s 0 false addr 128).trans (ih _ _)

theorem queueEvent_apart (s : State) (d : Nat) (rec : List Byte) : RegsApart wellOff s (queueEvent s d rec) :=
  queueWith_keeps (RegsApart wellOff s) _ _ (fun t _ _ g => g.trans (ownMeet_apart t 0 false _ _)) (fun t _ _ g => g.trans (ownTry_apart t 0 false _ _)) s d rec
    (.refl s)

/-- An event writes no register but the well's counts (R133, R422). -/
theorem postEvent_apart (s : State) (src b : Nat) (vf lid : Option Nat) (code payload : Nat) : RegsApart wellOff s (postEvent s src b vf lid code payload) :=
  RegsApart.trans (.of_regs rfl) ((rcbMeet_apart 4 (evSeqUp s src) _).trans (queueEvent_apart _ _ _))

end Sys2Proof.Machine
end

section
/-! SUPPORT. What a write of each acting register does (R44, R182, R369, R390, R404, R406, R408, R410, R445, R449, R452, R453). -/

namespace Sys2Proof.Machine

open Host

/-- A refused write: BHSTAT.ERR is set, and every other register of the bulkhead stays (R404, R406, R408, R410, R452, R453). -/
def RefusedWrite (s : State) (b : Nat) (t : State) : Prop :=
  t = { s with regs := t.regs } ∧ regBits t b 0x20008 3 1 = 1 ∧ ∀ off, off ≠ 0x20008 → regGet t b off = regGet s b off

theorem bhErr_refuses (s : State) (b : Nat) : RefusedWrite s b (bhErr s b) :=
  ⟨regSetBits_only s b _ _ _ _, regBits_regSetBits_same s b 0x20008 3 1 1 (by decide), fun off h => regGet_regSetBits_offset s b _ _ _ _ off h⟩

/-- A write under a mask alone keeps the other bits (R12). -/
theorem maskedValue_rw (old v m : Word) : maskedValue old v (m, 0) = old &&& ~~~m ||| v &&& m := by
  have all : ~~~(v &&& 0) = BitVec.allOnes 64 := by
    change ~~~(v &&& 0#64) = _
    rw [BitVec.and_zero]
    rfl
  rw [maskedValue, all, BitVec.and_allOnes]

/-! The queue registers (R369). -/

theorem qEn_eq (s : State) (b q : Nat) : qEn s b q = ((regGet s b (0x40000 + 32 * q)).getLsbD 0 && (regGet s b (0x40000 + 32 * q)).extractLsb' 1 2 != 3) := by
  unfold qEn qKind qReg
  rw [bitAt_toNat, bits_toNat, Nat.add_zero]
  congr 1
  generalize BitVec.extractLsb' 1 2 (regGet s b (0x40000 + 32 * q)) = k
  revert k
  decide

theorem budgetMove_regs_mem {s : State} {addr : Nat} {k : BudgetKind} {up down : Nat} :
    (budgetMove s addr k up down).regs = s.regs ∧ (budgetMove s addr k up down).mem = s.mem := by
  unfold budgetMove
  exact ⟨rfl, rfl⟩

theorem qPtrPut_mem (s : State) (b q head tail : Nat) : (qPtrPut s b q head tail).mem = s.mem := regPut_mem _ _ _ _

theorem regGet_qPtrPut (s : State) (b q head tail : Nat) {off : Nat} (h : off ≠ 0x40000 + 32 * q + 8) : regGet (qPtrPut s b q head tail) b off = regGet s b off :=
  regGet_regPut_offset s b _ off _ h

theorem qClear_eq (s : State) (b q : Nat) : qClear s b q = if qLen s b q = 0 then (0, s) else
    (qLen s b q, budgetMove (qPtrPut s b q (qTail s b q) (qTail s b q)) (vfRcbAddr s (qOwner s b q)) .qent 0 (qLen s b q)) := rfl

/-- Emptying a queue writes its pointers and what is charged for its entries, and nothing else (R402). -/
theorem qClear_effect (s : State) (b q : Nat) :
    (qClear s b q).2.mem = s.mem ∧ ∀ off, off ≠ 0x40000 + 32 * q + 8 → regGet (qClear s b q).2 b off = regGet s b off := by
  rw [qClear_eq]
  split
  · exact ⟨rfl, fun _ _ => rfl⟩
  · refine ⟨?_, fun off h => ?_⟩
    · rw [budgetMove_regs_mem.2, qPtrPut_mem]
    · rw [regGet_congr budgetMove_regs_mem.1, regGet_qPtrPut _ _ _ _ _ h]

theorem queueEnable_enabled {s : State} {b q : Nat} (v : Word) (h : qEn s b q = true) : exec (.queueEnable b q v) s = .next s := by
  have e : exec (.queueEnable b q v) s = execQueueEnable b q v s := rfl
  rw [e]
  simp [execQueueEnable, h]

/-- A write of QBASE that enables no queue changes QBASE alone (R369). -/
theorem queueEnable_off {s : State} {b q : Nat} {v : Word} (h : qEn s b q = false) (hv : v.getLsbD 0 = false) :
    exec (.queueEnable b q v) s = .next (regPut s b (0x40000 + 32 * q) (v &&& 0x0000FFFFFFFFFFFF)) := by
  have e : exec (.queueEnable b q v) s = execQueueEnable b q v s := rfl
  rw [e]
  unfold execQueueEnable
  simp only [h, Bool.false_eq_true, if_false, bitAt_toNat, hv]

/-- A write of QBASE that enables a queue empties it: HEAD and TAIL are zero (R369). -/
theorem queueEnable_on {s : State} {b q : Nat} {v : Word} (h : qEn s b q = false) (hv : v.getLsbD 0 = true) :
    ∃ t : State, exec (.queueEnable b q v) s = .next t ∧ regGet t b (0x40000 + 32 * q) = v &&& 0x0000FFFFFFFFFFFF ∧
      regGet t b (0x40000 + 32 * q + 8) = 0 ∧ regGet t b (0x40000 + 32 * q + 16) = regGet s b (0x40000 + 32 * q + 16) ∧ t.mem = s.mem := by
  have e : exec (.queueEnable b q v) s = execQueueEnable b q v s := rfl
  obtain ⟨mem, kept⟩ := qClear_effect (regPut s b (0x40000 + 32 * q) (v &&& 0x0000FFFFFFFFFFFF)) b q
  have run : exec (.queueEnable b q v) s = .next (qPtrPut (qClear (regPut s b (0x40000 + 32 * q) (v &&& 0x0000FFFFFFFFFFFF)) b q).2 b q 0 0) := by
    rw [e]
    unfold execQueueEnable
    simp only [h, Bool.false_eq_true, if_false, bitAt_toNat, hv, if_true]
  refine ⟨_, run, ?_, ?_, ?_, ?_⟩
  · rw [regGet_qPtrPut _ _ _ _ _ (by omega), kept _ (by omega), regGet_regPut_same]
  · unfold qPtrPut
    rw [regGet_regPut_same]
    decide
  · rw [regGet_qPtrPut _ _ _ _ _ (by omega), kept _ (by omega), regGet_regPut_offset _ _ _ _ _ (by omega)]
  · rw [qPtrPut_mem, mem, regPut_mem]

/-! A host port's record (R449). -/

/-- One of the runs of equal length that a list is joined from. -/
theorem slice_flatten_map {α : Type} (n : Nat) (f : α → List Byte) (hf : ∀ x, (f x).length = n) (l : List α) (j : Nat) (h : j < l.length) :
    slice (l.map f).flatten (n * j) n = f l[j] := by
  induction l generalizing j with
  | nil => cases h
  | cons x l ih =>
    cases j with
    | zero =>
      have part : ((f x) ++ (l.map f).flatten).take n = f x := by rw [List.take_append_of_le_length (hf x).ge, List.take_of_length_le (hf x).le]
      simp [slice, part, hf x]
    | succ j =>
      have rest := ih j (Nat.lt_of_succ_lt_succ h)
      unfold slice at rest ⊢
      have cut : ((x :: l).map f).flatten.drop (n * (j + 1)) = (l.map f).flatten.drop (n * j) := by
        rw [List.map_cons, List.flatten_cons, List.drop_append, List.drop_of_length_le (by rw [hf x]; exact Nat.le_mul_of_pos_right n (by omega)), hf x,
          Nat.mul_succ, Nat.add_sub_cancel, List.nil_append]
      rw [cut]
      exact rest

/-- HQSTAT with BUSY set reads as busy. -/
theorem hqStat_busy (s : State) (b p done res index : Nat) : regBits (hqStat s b p 1 done res index) b (0x20A20 + 8 * p) 0 1 = 1 := by
  unfold hqStat regBits bits
  rw [regGet_regPut_same, word, BitVec.toNat_ofNat]
  omega

theorem hqrecCommit_busy {s : State} {b p : Nat} (v : Word) (h : regBits s b (0x20A20 + 8 * p) 0 1 = 1) : exec (.hqrecCommit b p v) s = .next s := by
  have e : exec (.hqrecCommit b p v) s = execHqrecCommit b p v s := rfl
  rw [e]
  simp [execHqrecCommit, h]

/-- The sixteen words of a port's record. -/
def hqrecBytes (s : State) (b p : Nat) : List Byte := ((List.range 16).map fun k => leBytes 8 (regGet s b (0x20C00 + 128 * p + 8 * k)).toNat).flatten

theorem slice_hqrecBytes (s : State) (b p j : Nat) (hj : j < 16) :
    slice (hqrecBytes s b p) (8 * j) 8 = leBytes 8 (regGet s b (0x20C00 + 128 * p + 8 * j)).toNat := by
  unfold hqrecBytes
  rw [slice_flatten_map 8 _ (fun _ => length_leBytes 8 _) _ j (by simpa using hj), List.getElem_range]

/-- The command of a committed record. -/
def hqrecCmd (s : State) (b p : Nat) : Cmd :=
  { innerCommand s codeHqrec (.qctl b) b (bits (regGet s b (0x20A00 + 8 * p)).toNat 19 9) 0xFFFF 0 p with
    since := (regGet s b (0x20A00 + 8 * p)).toNat, bytes := hqrecBytes s b p, stage := 1 }

theorem hqrecCommit_free {s : State} {b p : Nat} (v : Word) (h : regBits s b (0x20A20 + 8 * p) 0 1 ≠ 1) :
    let s1 := regPut s b (0x20C00 + 128 * p + 120) v
    exec (.hqrecCommit b p v) s = .next (hqStat (commandEnter s1 (hqrecCmd s1 b p)) b p 1 (regBits s1 b (0x20A20 + 8 * p) 1 1) 0 0) := by
  have e : exec (.hqrecCommit b p v) s = execHqrecCommit b p v s := rfl
  intro s1
  rw [e]
  unfold execHqrecCommit
  rw [if_neg h]
  rfl

/-- A commit at a free port enters the record's command, with the sixteen words of HQREC as its bytes (R449). -/
theorem hqrecCommit_enters {s : State} {b p : Nat} (v : Word) (hp : p < 4) (h : regBits s b (0x20A20 + 8 * p) 0 1 ≠ 1) :
    ∃ t : State, ∃ (k : Cmd), exec (.hqrecCommit b p v) s = .next t ∧ t.cmds = s.cmds ++ [k] ∧ k.id = s.nextId ∧
      k.since = (regGet s b (0x20A00 + 8 * p)).toNat ∧ k.bytes.length = 128 ∧ slice k.bytes 120 8 = leBytes 8 v.toNat ∧
      (∀ j < 15, slice k.bytes (8 * j) 8 = leBytes 8 (regGet s b (0x20C00 + 128 * p + 8 * j)).toNat) ∧ regBits t b (0x20A20 + 8 * p) 0 1 = 1 := by
  refine ⟨_, hqrecCmd (regPut s b (0x20C00 + 128 * p + 120) v) b p, hqrecCommit_free v h, ?_, ?_, ?_, ?_, ?_, fun j hj => ?_, hqStat_busy _ _ _ _ _ _⟩
  · unfold hqStat commandEnter
    rw [regPut_cmds, newId_cmds, regPut_cmds]
  · change (regPut s b (0x20C00 + 128 * p + 120) v).nextId = s.nextId
    rw [regPut_nextId]
  · change (regGet _ _ _).toNat = _
    rw [regGet_regPut_offset _ _ _ _ _ (by omega)]
  · have each : (List.length ∘ fun k => leBytes 8 (regGet (regPut s b (0x20C00 + 128 * p + 120) v) b (0x20C00 + 128 * p + 8 * k)).toNat) = fun _ => 8 :=
      funext fun _ => length_leBytes 8 _
    simp only [hqrecCmd, hqrecBytes, List.length_flatten, List.map_map, each]
    rfl
  · change slice (hqrecBytes _ _ _) (8 * 15) 8 = _
    rw [slice_hqrecBytes _ _ _ _ (by decide), regGet_regPut_same]
  · change slice (hqrecBytes _ _ _) (8 * j) 8 = _
    rw [slice_hqrecBytes _ _ _ _ (by omega), regGet_regPut_offset _ _ _ _ _ (by omega)]

/-! SLOTOWN, VFROOT, BHCTL and BHGATE (R44, R390, R404, R406). -/

/-- A write of SLOTOWN sets the owner and OWNED alone (R390). -/
theorem slotownWrite_bits (s : State) (b sl : Nat) (v : Word) :
    ∃ t : State, exec (.slotownWrite b sl v) s = .next t ∧ t = { s with regs := t.regs } ∧
      ∀ i : Nat, i < 64 → (regGet t b (0x18800 + 8 * sl)).getLsbD i = if i < 10 then v.getLsbD i else (regGet s b (0x18800 + 8 * sl)).getLsbD i := by
  refine ⟨_, rfl, regPut_only _ _ _ _, fun i hi => ?_⟩
  have value (x : Nat) : x / 2 ^ 10 * 2 ^ 10 + v.toNat % 2 ^ 10 = 2 ^ 10 * (x / 2 ^ 10) + v.toNat % 2 ^ 10 := by rw [Nat.mul_comm]
  rw [regGet_regPut_same, ← bitAt_toNat, bitAt_eq_testBit, testBit_word, value, Nat.testBit_two_pow_mul_add _ (Nat.mod_lt _ (by decide))]
  unfold slotown
  rw [← bitAt_toNat, ← bitAt_toNat, bitAt_eq_testBit, bitAt_eq_testBit]
  by_cases low : i < 10
  · simp only [low, hi, if_true, decide_true, Bool.true_and, Nat.testBit_mod_two_pow]
  · simp only [low, hi, if_false, decide_true, Bool.true_and, Nat.testBit_div_two_pow]
    congr 1
    omega

/-- Buffer entries of a VF go from the wells of a list of bulkheads (R44). -/
theorem tlbFlush_fold (l : List Nat) (vf : Nat) (s : State) :
    let t := l.foldl (fun t b => modBulk t b fun x => { x with tlb := x.tlb.filter fun e => e.vf != vf }) s
    t.regs = s.regs ∧ (∃ h, t = { s with bhs := h }) ∧ ∀ c, (∀ e ∈ (getBulk t c).tlb, e ∈ (getBulk s c).tlb) ∧ (c ∈ l → ∀ e ∈ (getBulk t c).tlb, e.vf ≠ vf) := by
  induction l generalizing s with
  | nil => exact ⟨rfl, ⟨_, rfl⟩, fun c => ⟨fun e he => he, fun h => by cases h⟩⟩
  | cons a l ih =>
    obtain ⟨regs, only, less⟩ := ih (modBulk s a fun x => { x with tlb := x.tlb.filter fun e => e.vf != vf })
    refine ⟨regs, only, fun c => ?_⟩
    obtain ⟨sub, gone⟩ := less c
    have here (e : TlbEntry) (he : e ∈ (getBulk (modBulk s a fun x => { x with tlb := x.tlb.filter fun e => e.vf != vf }) c).tlb) :
        e ∈ (getBulk s c).tlb ∧ (c = a → e.vf ≠ vf) := by
      rw [getBulk_modBulk] at he
      split at he
      · next same => subst same; simpa using he
      · next other => exact ⟨he, fun same => absurd same other⟩
    refine ⟨fun e he => (here e (sub e he)).1, fun hc e he => ?_⟩
    rcases List.mem_cons.mp hc with same | rest
    · exact (here e (sub e he)).2 same
    · exact gone rest e he

theorem vfrootWrite_effect (s : State) (vf : Nat) (v : Word) :
    ∃ t : State, exec (.vfrootWrite vf v) s = .next t ∧ t = { s with regs := t.regs, bhs := t.bhs } ∧
      regGet t (vf / 32) (0x10000 + 8 * (vf % 32)) = v &&& 0x0000FFFFFFFFC001#64 ∧
      ∀ c < 12, samePartition s c (vf / 32) = true → ∀ e ∈ (getBulk t c).tlb, e.vf ≠ vf := by
  obtain ⟨regs, only, less⟩ := tlbFlush_fold (partitionBhs s (homeOf vf)) vf (regPut s (homeOf vf) (0x10000 + 8 * (vf % 32)) (v &&& 0x0000FFFFFFFFC001#64))
  have run : exec (.vfrootWrite vf v) s = .next ((partitionBhs s (homeOf vf)).foldl (fun t b => modBulk t b fun x => { x with tlb := x.tlb.filter fun e => e.vf != vf })
    (regPut s (homeOf vf) (0x10000 + 8 * (vf % 32)) (v &&& 0x0000FFFFFFFFC001#64))) := rfl
  generalize List.foldl _ _ _ = t at run regs only less
  refine ⟨t, run, ?_, ?_, fun c hc same => (less c).2 (List.mem_filter.mpr ⟨List.mem_range.mpr hc, same⟩)⟩
  · obtain ⟨h, only⟩ := only
    obtain ⟨r, put⟩ := regPut_state s (homeOf vf) (0x10000 + 8 * (vf % 32)) (v &&& 0x0000FFFFFFFFC001#64)
    rw [only, put]
  · rw [show vf / 32 = homeOf vf from rfl, regGet_congr regs]
    exact regGet_regPut_same s (homeOf vf) _ _

theorem bhctlWrite_refused {s : State} {b : Nat} {v : Word} (h : bhState s b ≠ 2 ∨ shapeOk b v.toNat = false) :
    exec (.bhctlWrite b v) s = .next (bhErr s b) := by
  have e : exec (.bhctlWrite b v) s = execBhctlWrite b v s := rfl
  rw [e]
  unfold execBhctlWrite
  rw [if_pos (by simpa using h)]

/-- In HELD a write that keeps TENANT and the shape writes BHCTL alone (R404, R415). -/
theorem bhctlWrite_same {s : State} {b : Nat} {v : Word} (held : bhState s b = 2) (ok : shapeOk b v.toNat = true)
    (same : tenantShape (regGet s b 0x20000).toNat = tenantShape v.toNat) : exec (.bhctlWrite b v) s = .next (regPut s b 0x20000 (v &&& 0x3FFFFFF)) := by
  have e : exec (.bhctlWrite b v) s = execBhctlWrite b v s := rfl
  rw [e]
  simp [execBhctlWrite, held, ok, same]

theorem regMasked_rw (s : State) (b off : Nat) (v m : Word) :
    regMasked s b off v (m, 0) = { s with regs := (regMasked s b off v (m, 0)).regs } ∧
      regGet (regMasked s b off v (m, 0)) b off = regGet s b off &&& ~~~m ||| v &&& m := by
  refine ⟨regPut_only s b off _, ?_⟩
  unfold regMasked
  rw [regGet_regPut_same, maskedValue_rw]

theorem bhgateWrite_taken {s : State} {b : Nat} {v : Word} (ok : gateOk s b v.toNat = true) :
    exec (.bhgateWrite b v) s = .next (regMasked s b 0x20018 v (0x3F, 0)) := by
  have e : exec (.bhgateWrite b v) s = execBhgateWrite b v s := rfl
  rw [e, execBhgateWrite, if_pos ok]

theorem bhgateWrite_refused {s : State} {b : Nat} {v : Word} (bad : gateOk s b v.toNat = false) : exec (.bhgateWrite b v) s = .next (bhErr s b) := by
  have e : exec (.bhgateWrite b v) s = execBhgateWrite b v s := rfl
  rw [e, execBhgateWrite, bad, if_neg Bool.false_ne_true]

/-! APTAB (R452). -/

theorem aptabWrite_taken {s : State} {b a : Nat} {v : Word} (fits : (v.extractLsb' 2 5).toNat < 18) :
    exec (.aptabWrite b a v) s = .next (regMasked s b (0x20800 + 8 * a) v (0x00003FFF007FFFFF, 0)) := by
  have e : exec (.aptabWrite b a v) s = execAptabWrite b a v s := rfl
  rw [e, execAptabWrite, bits_toNat, if_neg (Nat.not_le.mpr fits)]

theorem aptabWrite_refused {s : State} {b a : Nat} {v : Word} (high : 18 ≤ (v.extractLsb' 2 5).toNat) : exec (.aptabWrite b a v) s = .next (bhErr s b) := by
  have e : exec (.aptabWrite b a v) s = execAptabWrite b a v s := rfl
  rw [e, execAptabWrite, bits_toNat, if_pos high]

/-! Entries with a range: WINTAB and SPKIN (R408, R453, log 109). -/

section
variable {s : State} {b base : Nat} {v m : Word}

/-- A write of word 0 that would enable an entry with a bad range is refused. -/
theorem rangeWrite_enable_refused (hm : m.getLsbD 0 = true) (hv : v.getLsbD 0 = true) (bad : rangeOk b (regGet s b (base + 8)).toNat = false) :
    rangeWrite s b base 0 v m = bhErr s b := by
  have on : bitAt (v &&& m).toNat 0 = true := by rw [bitAt_toNat, BitVec.getLsbD_and, hv, hm]; rfl
  simp only [rangeWrite, if_true, on, bad, Bool.not_false, and_self]

/-- Any other write of word 0 is taken. -/
theorem rangeWrite_word0 (h : v.getLsbD 0 = false ∨ rangeOk b (regGet s b (base + 8)).toNat = true) : rangeWrite s b base 0 v m = regPut s b base (v &&& m) := by
  have fine : ¬ (bitAt (v &&& m).toNat 0 = true ∧ (!rangeOk b (regGet s b (base + 8)).toNat) = true) := by
    rw [bitAt_toNat, BitVec.getLsbD_and]
    rcases h with h | h
    · rw [h]; simp
    · rw [h]; simp
  simp only [rangeWrite, if_true, if_neg fine]

/-- A write of word 1 that leaves an entry disabled or gives it a good range is taken. -/
theorem rangeWrite_word1 (h : (regGet s b base).getLsbD 0 = false ∨ rangeOk b v.toNat = true) : rangeWrite s b base 1 v m = regPut s b (base + 8) v := by
  have fine : ¬ (bitAt (regGet s b base).toNat 0 = true ∧ (!rangeOk b v.toNat) = true) := by
    rw [bitAt_toNat]
    rcases h with h | h
    · rw [h]; simp
    · rw [h]; simp
  simp only [rangeWrite, Nat.one_ne_zero, if_false, if_neg fine]

/-- A write of word 1 that gives an enabled entry a bad range is refused (log 109). -/
theorem rangeWrite_range_refused (on : (regGet s b base).getLsbD 0 = true) (bad : rangeOk b v.toNat = false) : rangeWrite s b base 1 v m = bhErr s b := by
  simp only [rangeWrite, Nat.one_ne_zero, if_false, bitAt_toNat, on, bad, Bool.not_false, and_self, if_true]

end

theorem wintabWrite_eq (s : State) (b e w : Nat) (v : Word) : exec (.wintabWrite b e w v) s = .next (rangeWrite s b (0x20200 + 16 * e) w v 0x3FFFF) := rfl

/-! The clock (R410). -/

theorem bhclkWrite_refused {s : State} {b : Nat} {v : Word} (h : (v.extractLsb' 0 10).toNat < 150 ∨ 600 < (v.extractLsb' 0 10).toNat ∨ (v.extractLsb' 0 10).toNat % 25 ≠ 0) :
    exec (.bhclkWrite b v) s = .next (bhErr s b) := by
  have e : exec (.bhclkWrite b v) s = execBhclkWrite b v s := rfl
  rw [e]
  unfold execBhclkWrite
  rw [bits_toNat]
  simp only [if_pos h]

/-- A change of the clock takes effect with LOCK at zero. -/
theorem bhclkWrite_change {s : State} {b : Nat} {v : Word} (lo : 150 ≤ (v.extractLsb' 0 10).toNat) (hi : (v.extractLsb' 0 10).toNat ≤ 600)
    (step : (v.extractLsb' 0 10).toNat % 25 = 0) (new : (v.extractLsb' 0 10).toNat ≠ regBits s b 0x20010 0 10) :
    ∃ t : State, exec (.bhclkWrite b v) s = .next t ∧ t = { s with regs := t.regs } ∧
      regBits t b 0x20010 0 10 = (v.extractLsb' 0 10).toNat ∧ regBits t b 0x20010 10 1 = 0 := by
  have e : exec (.bhclkWrite b v) s = execBhclkWrite b v s := rfl
  refine ⟨regPut s b 0x20010 (word (v.extractLsb' 0 10).toNat), ?_, regPut_only _ _ _ _, ?_, ?_⟩
  · rw [e]
    unfold execBhclkWrite
    rw [bits_toNat]
    simp only [if_neg (show ¬ ((v.extractLsb' 0 10).toNat < 150 ∨ 600 < (v.extractLsb' 0 10).toNat ∨ (v.extractLsb' 0 10).toNat % 25 ≠ 0) by omega), if_neg new]
  · unfold regBits bits
    rw [regGet_regPut_same, word, BitVec.toNat_ofNat]
    omega
  · unfold regBits bits
    rw [regGet_regPut_same, word, BitVec.toNat_ofNat]
    generalize (BitVec.extractLsb' 0 10 v).toNat = f at hi
    omega

theorem clockLock_locks {s : State} {b : Nat} (h : bhState s b ≠ 3) :
    ∃ t : State, exec (.clockLock b) s = .next t ∧ t = { s with regs := t.regs } ∧ regBits t b 0x20010 10 1 = 1 ∧
      regBits t b 0x20010 0 10 = regBits s b 0x20010 0 10 := by
  have e : exec (.clockLock b) s = execClockLock b s := rfl
  refine ⟨regSetBits s b 0x20010 10 1 1, by rw [e, execClockLock, if_neg h], regSetBits_only _ _ _ _ _ _, ?_, ?_⟩
  · exact regBits_regSetBits_same s b 0x20010 10 1 1 (by decide)
  · exact regBits_regSetBits_field s b 0x20010 10 1 1 b 0 10 (.inl (by decide))

/-! Debugger tokens (R445). -/

theorem dbgvalWrite_none {s : State} {b : Nat} (v : Word) (h : bits (regGet s b 0x20048).toNat 21 2 = 3) : exec (.dbgvalWrite b v) s = .next s := by
  have e : exec (.dbgvalWrite b v) s = execDbgvalWrite b v s := rfl
  rw [e]
  simp [execDbgvalWrite, h, portOfCode]

theorem dbgvalWrite_waits {s : State} {b : Nat} (v : Word) {q : Port} (h : portOfCode (bits (regGet s b 0x20048).toNat 21 2) = some q) :
    let g := (regGet s b 0x20048).toNat
    ∃ t : State, ∃ (x : Flight), exec (.dbgvalWrite b v) s = .next t ∧ t = { s with inject := s.inject ++ [x] } ∧
      x.tok = Token.mk v .value (bits g 33 9) (bits g 23 10) q (bits g 9 12) b (bits g 0 9) 0 7 ∧ x.vc = bits g 42 1 := by
  intro g
  have e : exec (.dbgvalWrite b v) s = execDbgvalWrite b v s := rfl
  refine ⟨_, _, by rw [e]; unfold execDbgvalWrite; simp only [h]; rfl, rfl, rfl, ?_⟩
  change (if (g / 2 ^ 42 % 2 == 1) = true then 1 else 0) = g / 2 ^ 42 % 2
  have two : g / 2 ^ 42 % 2 = 0 ∨ g / 2 ^ 42 % 2 = 1 := by omega
  rcases two with low | high
  · rw [low]; rfl
  · rw [high]; rfl

end Sys2Proof.Machine
end

section
/-! SUPPORT. Changes of the quantum tables (R182, R367, R390, R391, R425): which registers they write, and what the tables then hold. -/

namespace Sys2Proof.Machine

open Host

/-- The registers that a VF's entry into the quantum tables or its departure writes: VFSCOPE, VFNRG, VFFLAG and the well's counts (R182, R424, R425). -/
def vfOff (off : Nat) : Bool := wellOff off || inArray off 0x12000 8 32 || inArray off 0x20500 8 32 || inArray off 0x20600 8 32

theorem wellOff_vfOff (off : Nat) (h : wellOff off = true) : vfOff off = true := by simp [vfOff, h]

/-- No such register stands among those of the scheduler (R390). -/
theorem vfOff_tables (off : Nat) (lo : 0x18000 ≤ off) (hi : off ≤ 0x18900) : vfOff off = false := by
  simp only [vfOff, wellOff, inArray, Bool.or_eq_false_iff, Bool.and_eq_false_iff, beq_eq_false_iff_ne, decide_eq_false_iff_not]
  omega

theorem enterRcb_zero (active : Bool) (s : State) (addr : Nat) : enterRcb active 0 s addr = s := rfl
theorem enterRcb_succ (active : Bool) (k : Nat) (s : State) (addr : Nat) :
    enterRcb active (k + 1) s addr =
      if (!active ∧ addr = 0) ∨ (rcbAt s addr).isSome ∨ (!active ∧ (rcbRec s addr).isSome) then s
      else
        let used := match rcbRec s addr with | some r => r.used | none => Budget.zero
        let r : Rcb := { rcbRead s addr with active := active, used := used }
        let s1 := if r.parent = 0 then s else enterRcb active k s r.parent
        { s1 with rcbs := (s1.rcbs.filter fun x => x.addr != addr) ++ [r] } := rfl

theorem enterRcb_rcbs (active : Bool) (k : Nat) (s : State) (addr : Nat) : ∃ r, enterRcb active k s addr = { s with rcbs := r } := by
  induction k generalizing s addr with
  | zero => exact ⟨s.rcbs, enterRcb_zero active s addr⟩
  | succ k ih =>
    rw [enterRcb_succ]
    split
    · exact ⟨s.rcbs, rfl⟩
    · dsimp only
      split
      · exact ⟨_, rfl⟩
      · obtain ⟨r, e⟩ := ih s (rcbRead s addr).parent
        rw [e]
        exact ⟨_, rfl⟩

theorem enterRcb_regs (active : Bool) (k : Nat) (s : State) (addr : Nat) : (enterRcb active k s addr).regs = s.regs := by
  obtain ⟨r, e⟩ := enterRcb_rcbs active k s addr
  rw [e]

theorem rcbUse_apart (s : State) (addr : Nat) : RegsApart wellOff s (rcbUse s addr) := by
  unfold rcbUse rcbActivate
  refine RegsApart.trans ?_ (.of_regs (enterRcb_regs true 4 _ addr))
  split
  · exact ownMeet_apart s 0 false 0 128
  · exact rcbMeet_apart 4 s addr

theorem nrgRem_apart {P : Nat → Bool} (s : State) (m : SMap Nat) : RegsApart P s { s with nrgRem := m } := .of_regs rfl

theorem rcbRetire_apart {P : Nat → Bool} (s : State) (hit : Rcb → Bool) : RegsApart P s (rcbRetire s hit) := by
  unfold rcbRetire
  exact .of_regs rfl

theorem vfReg_apart (s : State) (vf base : Nat) (v : Word) (small : base + 256 < 16777216) (hit : ∀ k < 32, vfOff (base + 8 * k) = true) :
    RegsApart vfOff s (regPut s (homeOf vf) (base + 8 * (vf % 32)) v) :=
  regPut_apart s _ v (by have := Nat.mod_lt vf (show 0 < 32 by decide); omega) (hit _ (Nat.mod_lt vf (by decide)))

theorem vfEnter_apart (s : State) (vf : Nat) : RegsApart vfOff s (vfEnter s vf) := by
  unfold vfEnter
  dsimp only
  split
  · exact .refl s
  · refine RegsApart.trans ?_ (vfReg_apart _ vf 0x20500 _ (by decide) (by decide))
    refine RegsApart.trans ?_ (nrgRem_apart _ _)
    refine RegsApart.trans ?_ ((ownWord_apart _ vf _).mono wellOff_vfOff)
    exact ((rcbUse_apart s _).mono wellOff_vfOff).trans (vfReg_apart _ vf 0x12000 _ (by decide) (by decide))

theorem vfLeave_apart (s : State) (vf nrg : Nat) : RegsApart vfOff s (vfLeave s vf nrg) := by
  have put (t : State) (pa n v : Nat) : RegsApart vfOff t (memPutLe t pa n v) := (memPutLe_apart t pa n v).mono wellOff_vfOff
  unfold vfLeave
  dsimp only
  split
  · exact .refl s
  · refine RegsApart.trans ?_ (rcbRetire_apart _ _)
    refine RegsApart.trans ?_ (vfReg_apart _ vf 0x20600 _ (by decide) (by decide))
    refine RegsApart.trans ?_ (put _ _ _ _)
    refine RegsApart.trans ?_ ((ownWord_apart _ vf _).mono wellOff_vfOff)
    split
    · exact put _ _ _ _
    · exact .refl s

/-- SCHSTAT.NVF is set, and otherwise only the registers of VFs that enter or leave change (R390). -/
theorem tablesChanged_apart (s s1 : State) (b : Nat) (vfs : List Nat) :
    RegsApart vfOff (regSetBits s1 b 0x18900 1 7 (tableVfs s1 b).length) (tablesChanged s s1 b vfs) := by
  unfold tablesChanged
  dsimp only
  refine RegsApart.foldl (fun t vf => ?_) vfs _
  split
  · exact vfLeave_apart t vf _
  · split
    · exact vfEnter_apart t vf
    · exact .refl t

theorem budgetMove_fold_regs (f : State → Nat → Nat) (k : BudgetKind) (up down : Nat) (l : List Nat) (s : State) :
    (l.foldl (fun t x => budgetMove t (f t x) k up down) s).regs = s.regs := by
  induction l generalizing s with
  | nil => rfl
  | cons x l ih => exact (ih _).trans budgetMove_regs_mem.1

/-- A change of an entry writes the entry and NVF, and otherwise only registers of VFs that enter or leave (R390, R391). -/
theorem quantSet_apart (s : State) (b sl e : Nat) (v : Word) :
    let s1 := regPut s b (0x18000 + 64 * sl + 8 * e) v
    RegsApart vfOff (regSetBits s1 b 0x18900 1 7 (tableVfs s1 b).length) (quantSet s b sl e v) := by
  intro s1
  unfold quantSet
  dsimp only
  generalize (quantVf (quantWord s b sl e) ++ _) = vfs
  generalize hoff : List.filter (fun x => holdsSlot s b sl x && !holdsSlot (regPut s b (0x18000 + 64 * sl + 8 * e) v) b sl x) vfs = off
  have regs := budgetMove_fold_regs (fun t x => vfRcbAddr t x) .slot 0 1 off s1
  have same : ∀ c, tableVfs (off.foldl (fun t x => budgetMove t (vfRcbAddr t x) .slot 0 1) s1) c = tableVfs s1 c :=
    fun c => (RegsApart.of_regs (P := vfOff) regs).tableVfs (fun o lo hi => vfOff_tables o lo (by omega)) c
  refine RegsApart.trans (t := tablesChanged s (off.foldl (fun t x => budgetMove t (vfRcbAddr t x) .slot 0 1) s1) b vfs) ?_
    (.of_regs (budgetMove_fold_regs (fun t x => vfRcbAddr t x) .slot 1 0 _ _))
  have changed := tablesChanged_apart s (off.foldl (fun t x => budgetMove t (vfRcbAddr t x) .slot 0 1) s1) b vfs
  refine RegsApart.trans (.of_regs ?_) changed
  rw [same]
  unfold regSetBits regPut
  dsimp only
  rw [regGet_congr regs, regs]

section
variable (s : State) (b sl e : Nat) (v : Word)

/-- The entry reads as it was written (R390). -/
theorem quantSet_word (hsl : sl < 32) (he : e < 8) : quantWord (quantSet s b sl e v) b sl e = v.toNat := by
  have h := (quantSet_apart s b sl e v).regGet b (off := 0x18000 + 64 * sl + 8 * e) (by omega) (vfOff_tables _ (by omega) (by omega))
  unfold quantWord
  rw [h, regGet_regSetBits_offset _ _ _ _ _ _ _ (by omega), regGet_regPut_same]

/-- The other entries of a slot's table stay. -/
theorem quantSet_word_other (hsl : sl < 32) (i : Nat) (hi : i < 8) (ne : i ≠ e) : quantWord (quantSet s b sl e v) b sl i = quantWord s b sl i := by
  have h := (quantSet_apart s b sl e v).regGet b (off := 0x18000 + 64 * sl + 8 * i) (by omega) (vfOff_tables _ (by omega) (by omega))
  unfold quantWord
  rw [h, regGet_regSetBits_offset _ _ _ _ _ _ _ (by omega), regGet_regPut_offset _ _ _ _ _ (by omega)]

/-- The VFs of the tables are those that stand there once the entry is written. -/
theorem quantSet_tableVfs : tableVfs (quantSet s b sl e v) b = tableVfs (regPut s b (0x18000 + 64 * sl + 8 * e) v) b := by
  have tables : ∀ off, 0x18000 ≤ off → off < 0x18800 → (vfOff off || off == 0x18900) = false := by
    intro off lo hi
    rw [vfOff_tables off lo (by omega)]
    simp only [Bool.false_or, beq_eq_false_iff_ne]
    omega
  have set : RegsApart (fun off => vfOff off || off == 0x18900) (regPut s b (0x18000 + 64 * sl + 8 * e) v) (quantSet s b sl e v) :=
    (regSetBits_apart _ b 1 7 _ (by decide) (by decide)).trans ((quantSet_apart s b sl e v).mono fun off h => by simp [h])
  exact set.tableVfs tables b

theorem quantSet_schstat (lo len : Nat) :
    regBits (quantSet s b sl e v) b 0x18900 lo len =
      regBits (regSetBits (regPut s b (0x18000 + 64 * sl + 8 * e) v) b 0x18900 1 7 (tableVfs (regPut s b (0x18000 + 64 * sl + 8 * e) v) b).length) b 0x18900 lo len :=
  (quantSet_apart s b sl e v).regBits b lo len (by decide) (by decide)

/-- SCHSTAT.ERR stays. -/
theorem quantSet_err (hsl : sl < 32) (he : e < 8) : regBits (quantSet s b sl e v) b 0x18900 0 1 = regBits s b 0x18900 0 1 := by
  rw [quantSet_schstat s b sl e v, regBits_regSetBits_field _ _ _ _ _ _ _ _ _ (.inl (by decide))]
  unfold regBits
  rw [regGet_regPut_offset _ _ _ _ _ (by omega)]

/-- NVF counts the VFs of the tables (R390). -/
theorem quantSet_nvf (fits : (tableVfs (regPut s b (0x18000 + 64 * sl + 8 * e) v) b).length ≤ 64) :
    regBits (quantSet s b sl e v) b 0x18900 1 7 = (tableVfs (quantSet s b sl e v) b).length := by
  rw [quantSet_schstat s b sl e v, regBits_regSetBits_same _ _ _ _ _ _ (by decide), quantSet_tableVfs s b sl e v]
  omega

end

/-! QUANT_WRITE (R390, R391, R428). -/

/-- The bits of a QUANT word that a write takes. -/
abbrev quantMask (v : Word) : Word := v &&& 0xFFFFFFFF000003FF

theorem quantMask_low (v : Word) (i : Nat) (h : i < 10) : (quantMask v).getLsbD i = v.getLsbD i := by
  have mask : (0xFFFFFFFF000003FF : Word).getLsbD i = true := by
    revert h
    revert i
    decide
  rw [BitVec.getLsbD_and, mask, Bool.and_true]

theorem quantMask_vf (v : Word) : bits (quantMask v).toNat 0 9 = (v.extractLsb' 0 9).toNat := by
  rw [bits_toNat]
  refine congrArg BitVec.toNat (BitVec.eq_of_getLsbD_eq fun i hi => ?_)
  rw [BitVec.getLsbD_extractLsb', BitVec.getLsbD_extractLsb', quantMask_low v _ (by omega)]

/-- What stands against a write of a QUANT entry that enables it (R390, R428). -/
def QuantBars (s : State) (b sl e : Nat) (v : Word) : Prop :=
  384 ≤ (v.extractLsb' 0 9).toNat ∨ vfEnabled s (v.extractLsb' 0 9).toNat = false ∨ bitAt (saveWord s (v.extractLsb' 0 9).toNat b sl) 0 = false ∨
    64 < (tableVfs (regPut s b (0x18000 + 64 * sl + 8 * e) (quantMask v)) b).length

/-- A refused write sets SCHSTAT.ERR alone. -/
theorem quantWrite_refused {s : State} {b sl e : Nat} {v : Word} (on : v.getLsbD 9 = true) (bars : QuantBars s b sl e v) :
    exec (.quantWrite b sl e v) s = .next (schErr s b) := by
  have run : exec (.quantWrite b sl e v) s = execQuantWrite b sl e v s := rfl
  rw [run]
  unfold execQuantWrite
  dsimp only
  rw [quantMask_vf, bitAt_toNat, quantMask_low v 9 (by decide), on, if_pos]
  simpa [QuantBars, quantMask, or_assoc] using bars

/-- A write that nothing stands against sets the entry. -/
theorem quantWrite_taken {s : State} {b sl e : Nat} {v : Word} (ok : v.getLsbD 9 = true → ¬ QuantBars s b sl e v) :
    exec (.quantWrite b sl e v) s = .next (modSlot (quantSet s b sl e (quantMask v)) b sl fun x => { x with borrowed := x.borrowed.filter fun i => i != e }) := by
  have run : exec (.quantWrite b sl e v) s = execQuantWrite b sl e v s := rfl
  rw [run]
  unfold execQuantWrite
  dsimp only
  rw [quantMask_vf, bitAt_toNat, quantMask_low v 9 (by decide), if_neg]
  cases on : v.getLsbD 9
  · simp
  · simpa [QuantBars, quantMask, and_assoc] using ok on

theorem schErr_effect (s : State) (b sl e : Nat) (hsl : sl < 32) (he : e < 8) :
    schErr s b = { s with regs := (schErr s b).regs } ∧ regBits (schErr s b) b 0x18900 0 1 = 1 ∧ quantWord (schErr s b) b sl e = quantWord s b sl e := by
  refine ⟨regSetBits_only _ _ _ _ _ _, regBits_regSetBits_same s b 0x18900 0 1 1 (by decide), ?_⟩
  unfold quantWord schErr
  rw [regGet_regSetBits_offset _ _ _ _ _ _ _ (by omega)]

/-! SPKIN, the doors and the trap handlers, which a host writes by REGISTER_WRITE (R403, R435, R453, R455). -/

theorem regName_spkin : ∀ e < 8, regName (0x21000 + 16 * e) = some (.spkin e 0) ∧ regName (0x21000 + 16 * e + 8) = some (.spkin e 1) := by decide

theorem regName_vfhnd : ∀ k < 32, regName (0x20400 + 8 * k) = some (.vfhnd k) := by decide

theorem regName_door {d : Nat} (h : d < 1024) : regName (0x22000 + 16 * d) = some (.door d 0) ∧ regName (0x22008 + 16 * d) = some (.door d 1) := by
  have name (off j : Nat) (lo : 0x22000 ≤ off) (hi : off < 0x26000) (al : off % 8 = 0) : regName off = some (.door ((off - 0x22000) / 16) (off / 8 % 2)) := by
    have past (a size n : Nat) (top : a + size * n ≤ 0x22000) : inArray off a size n = false := by
      simp only [inArray, Bool.and_eq_false_iff, decide_eq_false_iff_not]
      omega
    have ne (a : Nat) (top : a < 0x22000) : off ≠ a := by omega
    unfold regName
    have here : inArray off 0x22000 16 1024 = true := by
      simp only [inArray, Bool.and_eq_true, decide_eq_true_eq]
      omega
    simp [al, past, ne, here]
  have word0 := name (0x22000 + 16 * d) 0 (by omega) (by omega) (by omega)
  have word1 := name (0x22008 + 16 * d) 1 (by omega) (by omega) (by omega)
  rw [show (0x22000 + 16 * d - 0x22000) / 16 = d by omega, show (0x22000 + 16 * d) / 8 % 2 = 0 by omega] at word0
  rw [show (0x22008 + 16 * d - 0x22000) / 16 = d by omega, show (0x22008 + 16 * d) / 8 % 2 = 1 by omega] at word1
  exact ⟨word0, word1⟩

/-- A write of a plain register under a mask changes its bits under the mask and nothing else (R12). -/
theorem registerWrite_plain {s : State} {b off : Nat} {v m : Word} {r : RegName} (power : s.powered = true) (hb : b < 12) (hr : regName off = some r)
    (plain : onlyHoldsBits r = true) (hm : regMasks r = (m, 0)) :
    ∃ t : State, exec (.registerWrite b off v) s = .next t ∧ t = { s with regs := t.regs } ∧ regGet t b off = regGet s b off &&& ~~~m ||| v &&& m := by
  obtain ⟨only, value⟩ := regMasked_rw s b off v m
  refine ⟨_, exec_registerWrite power hb (regWrite_onlyHoldsBits s b v hr plain), ?_, ?_⟩
  · rw [hm]
    exact only
  · rw [hm]
    exact value

theorem registerWrite_spkin {s : State} {b e j : Nat} {v : Word} {off : Nat} (power : s.powered = true) (hb : b < 12) (hr : regName off = some (.spkin e j)) :
    exec (.registerWrite b off v) s = .next (rangeWrite s b (0x21000 + 16 * e) j v 0x3FFFFFFF) := by
  refine exec_registerWrite power hb ?_
  unfold regWrite
  rw [hr]

end Sys2Proof.Machine
end

section
/-! SUPPORT. The statement about writes of acting registers (R44, R182, R369, R390, R404, R408, R410, R428, R449, R452, R453, R455). -/

namespace Sys2Proof.Machine

open Host

/-- Settles O40: each write is one of the effects above, each refusal sets the error bit of its block alone. -/
theorem actingRegisterWrites : Obligations.ActingRegisterWrites := by
  unfold Obligations.ActingRegisterWrites
  intro s b v err
  have refused : err (bhErr s b) := bhErr_refuses s b
  refine ⟨fun q _ => ⟨fun off on => ?_, fun off clear => ?_, fun on => ?_, ?_⟩, ?_, fun p hp => ⟨hqrecCommit_busy v, hqrecCommit_enters v hp⟩,
    fun sl _ => slotownWrite_bits s b sl v, fun vf _ => ⟨_, rfl, regPut_only _ _ _ _, regGet_regPut_same _ _ _ _⟩, fun vf _ => vfrootWrite_effect s vf v,
    fun held ok same => ⟨_, bhctlWrite_same held ok same, regPut_only _ _ _ _, regGet_regPut_same _ _ _ _⟩, fun h => ⟨_, bhctlWrite_refused h, refused⟩,
    fun ok => ?_, fun bad => ?_, fun e _ => ⟨fun on bad => ?_, fun h => ?_, fun h => ?_, fun on bad => ?_⟩,
    fun e he power hb => ⟨fun on bad => ?_, fun h => ?_, fun h => ?_, fun on bad => ?_⟩, fun power hb => ⟨fun d hd => ⟨?_, ?_⟩, fun k hk => ?_⟩,
    ⟨bhclkWrite_change, fun h => ⟨_, bhclkWrite_refused h, refused⟩⟩, clockLock_locks, fun a _ => ⟨fun fits => ?_, fun high => ?_⟩,
    ⟨dbgvalWrite_none v, fun q => dbgvalWrite_waits v⟩, fun sl hsl e he => ⟨fun on bars => ?_, fun on below enabled block fits => ?_, fun clear => ?_⟩⟩
  · rw [← qEn_eq] at off
    exact queueEnable_on off on
  · rw [← qEn_eq] at off
    exact ⟨_, queueEnable_off off clear, regGet_regPut_same _ _ _ _, regGet_regPut_offset _ _ _ _ _ (by omega), regPut_only _ _ _ _⟩
  · rw [← qEn_eq] at on
    exact queueEnable_enabled v on
  · exact ⟨_, rfl, regPut_only _ _ _ _, regGet_regPut_same _ _ _ _⟩
  · exact ⟨_, rfl, regPut_only _ _ _ _, regGet_regPut_same _ _ _ _, rfl⟩
  · exact ⟨_, bhgateWrite_taken ok, regMasked_rw s b 0x20018 v 0x3F⟩
  · exact ⟨_, bhgateWrite_refused bad, refused⟩
  · exact ⟨_, (wintabWrite_eq s b e 0 v).trans (congrArg _ (rangeWrite_enable_refused (by decide) on bad)), refused⟩
  · exact ⟨_, (wintabWrite_eq s b e 0 v).trans (congrArg _ (rangeWrite_word0 h)), regPut_only _ _ _ _, regGet_regPut_same _ _ _ _⟩
  · exact ⟨_, (wintabWrite_eq s b e 1 v).trans (congrArg _ (rangeWrite_word1 h)), regPut_only _ _ _ _, regGet_regPut_same _ _ _ _⟩
  · exact ⟨_, (wintabWrite_eq s b e 1 v).trans (congrArg _ (rangeWrite_range_refused on bad)), refused⟩
  · exact ⟨_, (registerWrite_spkin power hb (regName_spkin e he).1).trans (congrArg _ (rangeWrite_enable_refused (by decide) on bad)), refused⟩
  · exact ⟨_, (registerWrite_spkin power hb (regName_spkin e he).1).trans (congrArg _ (rangeWrite_word0 h)), regPut_only _ _ _ _, regGet_regPut_same _ _ _ _⟩
  · exact ⟨_, (registerWrite_spkin power hb (regName_spkin e he).2).trans (congrArg _ (rangeWrite_word1 h)), regPut_only _ _ _ _, regGet_regPut_same _ _ _ _⟩
  · exact ⟨_, (registerWrite_spkin power hb (regName_spkin e he).2).trans (congrArg _ (rangeWrite_range_refused on bad)), refused⟩
  · exact registerWrite_plain power hb (regName_door hd).1 rfl rfl
  · exact registerWrite_plain power hb (regName_door hd).2 rfl rfl
  · exact registerWrite_plain power hb (regName_vfhnd k hk) rfl rfl
  · exact ⟨_, aptabWrite_taken fits, regMasked_rw s b (0x20800 + 8 * a) v 0x00003FFF007FFFFF⟩
  · exact ⟨_, aptabWrite_refused high, refused⟩
  · exact ⟨_, quantWrite_refused on bars, schErr_effect s b sl e hsl he⟩
  · have free : ¬ QuantBars s b sl e v := by
      rintro (h | h | h | h)
      · omega
      · rw [enabled] at h; cases h
      · rw [block] at h; cases h
      · exact fits h
    have few : (tableVfs (regPut s b (0x18000 + 64 * sl + 8 * e) (quantMask v)) b).length ≤ 64 := not_lt.mp fits
    refine ⟨_, quantWrite_taken fun _ => free, quantSet_word s b sl e (quantMask v) hsl he, ?_, quantSet_err s b sl e (quantMask v) hsl he⟩
    exact quantSet_nvf s b sl e (quantMask v) few
  · have free : v.getLsbD 9 = true → ¬ QuantBars s b sl e v := fun on => absurd on (by rw [clear]; exact Bool.false_ne_true)
    exact ⟨_, quantWrite_taken free, quantSet_word s b sl e (quantMask v) hsl he⟩

end Sys2Proof.Machine
end

section
/-! SUPPORT. Blocks that the device writes for itself in clean memory stay RAW (R145, R151): what an event leaves behind in the block of its queue's descriptor (R422). -/

namespace Sys2Proof.Machine

open Host

theorem blockMeta_congr {s t : State} (h : t.bmeta = s.bmeta) (blk : Nat) : blockMeta t blk = blockMeta s blk := by
  unfold blockMeta
  rw [h]

theorem eccPut_fold_bmeta (l : List Nat) (x : Ecc) (s : State) : (l.foldl (fun t cw => eccPut t cw x) s).bmeta = s.bmeta := by
  induction l generalizing s with
  | nil => rfl
  | cons c l ih => exact ih _

/-- After a write through COMP = 0 a block's metadata is as before or says RAW; that of the written block says RAW, unless the block is lost. -/
theorem blockWrite_meta (s : State) (pa : Nat) (bs : List Byte) (blk : Nat) :
    (blockMeta (blockWrite s false pa bs []).1 blk = mdRaw ∨ blockMeta (blockWrite s false pa bs []).1 blk = blockMeta s blk) ∧
      (blockLost s (pa / 2048) = false → blockMeta (blockWrite s false pa bs []).1 (pa / 2048) = mdRaw) := by
  have whole (t : State) : (blockMeta { eccClear t (pa / 2048 * 64) 64 with bmeta := sput mdZero s.bmeta (pa / 2048) mdRaw } blk = mdRaw ∨
      blockMeta { eccClear t (pa / 2048 * 64) 64 with bmeta := sput mdZero s.bmeta (pa / 2048) mdRaw } blk = blockMeta s blk) ∧
      blockMeta { eccClear t (pa / 2048 * 64) 64 with bmeta := sput mdZero s.bmeta (pa / 2048) mdRaw } (pa / 2048) = mdRaw := by
    unfold blockMeta
    simp only [sget_sput, if_true, and_true]
    split
    · exact .inl rfl
    · exact .inr rfl
  unfold blockWrite
  dsimp only
  split
  · exact ⟨(whole _).1, fun _ => (whole _).2⟩
  · split
    · next lost => exact ⟨.inr rfl, fun h => by rw [lost] at h; cases h⟩
    · split
      · next raw =>
        have same : ∀ k, blockMeta (List.foldl (fun t cw => eccPut t cw .good) (memPut s pa (overlay (memBytes s pa bs.length) bs []))
            ((runCws pa bs.length).filter (coversCw pa bs.length []))) k = blockMeta s k := fun k => blockMeta_congr (eccPut_fold_bmeta _ _ _) k
        refine ⟨.inr (same blk), fun _ => (same _).trans ?_⟩
        unfold staysRaw at raw
        exact beq_iff_eq.mp (Bool.and_eq_true_iff.mp raw).1
      · exact ⟨(whole _).1, fun _ => (whole _).2⟩

/-- A read of the device's own in clean memory changes registers alone (R133). -/
theorem ownMeet_cleanMemory (s : State) (vf : Nat) (known : Bool) (pa n : Nat) (h : cleanMemory s) : ∃ r, ownMeet s vf known pa n = { s with regs := r } :=
  ownMeet_clean s vf known pa n fun blk _ _ => ⟨cleanMemory_lost s h blk, fun cw _ => h.1 cw⟩

theorem ownPulse_state (s : State) (b k : Nat) : ∃ r, ownMeet.ownPulse s b k = { s with regs := r } := by
  unfold ownMeet.ownPulse
  split
  · exact ⟨_, rfl⟩
  · exact ⟨s.regs, rfl⟩

/-- Clean memory in which a block is RAW. -/
def RawBlock (blk : Nat) (s : State) : Prop := cleanMemory s ∧ blockMeta s blk = mdRaw

theorem RawBlock.regs {blk : Nat} {s : State} (h : RawBlock blk s) (r : SMap Word) : RawBlock blk { s with regs := r } := h

/-- One block's share of a write of the device's own, in clean memory. -/
theorem ownTry_share (s : State) (vf : Nat) (known : Bool) (pa : Nat) (bs : List Byte) (b k : Nat) (clean : cleanMemory s) :
    let t := (blockWrite (ownMeet.ownPulse (meetWrite s vf known false pa bs []) b k) false pa bs []).1
    cleanMemory t ∧ (∀ blk, blockMeta s blk = mdRaw → blockMeta t blk = mdRaw) ∧ blockMeta t (pa / 2048) = mdRaw := by
  intro t
  obtain ⟨r, e⟩ := ownPulse_state s b k
  have ht : t = (blockWrite { s with regs := r } false pa bs []).1 := by
    change (blockWrite (ownMeet.ownPulse (meetWrite s vf known false pa bs []) b k) false pa bs []).1 = _
    rw [meetWrite_cleanMemory s vf known false pa bs [] clean, e]
  have clean' : cleanMemory { s with regs := r } := clean
  obtain ⟨-, -, stays⟩ := blockWrite_quiet _ pa bs clean'
  rw [ht]
  refine ⟨stays, fun blk raw => ?_, (blockWrite_meta _ pa bs 0).2 (cleanMemory_lost _ clean' _)⟩
  rcases (blockWrite_meta { s with regs := r } pa bs blk).1 with made | same
  · exact made
  · exact same.trans raw

/-- A write of the device's own keeps RAW blocks RAW, and makes the first block that it touches RAW. -/
theorem ownWrite_raw (s : State) (pa : Nat) (bs : List Byte) (blk : Nat) (clean : cleanMemory s) (h : blockMeta s blk = mdRaw ∨ (bs ≠ [] ∧ blk = pa / 2048)) :
    RawBlock blk (ownWrite s pa bs) := by
  have fold (l : List (Nat × Nat)) : ∀ a : State × Bool, cleanMemory a.1 → (blockMeta a.1 blk = mdRaw ∨ ∃ x ∈ l, blk = x.1 / 2048) →
      RawBlock blk (l.foldl (fun (a : State × Bool) (x : Nat × Nat) =>
        let part := slice bs (x.1 - pa) x.2
        let t := ownMeet.ownPulse (meetWrite a.1 0 false false x.1 part []) (x.1 / 2 ^ 36) (accessSectors a.1 true false x.1 x.2).length
        let w := blockWrite t false x.1 part []
        (w.1, a.2 && w.2)) a).1 := by
    induction l with
    | nil => exact fun a c g => ⟨c, g.resolve_right fun ⟨x, hx, _⟩ => by cases hx⟩
    | cons x l ih =>
      intro a c g
      obtain ⟨clean', keeps, makes⟩ := ownTry_share a.1 0 false x.1 (slice bs (x.1 - pa) x.2) (x.1 / 2 ^ 36) (accessSectors a.1 true false x.1 x.2).length c
      refine ih _ clean' ?_
      rcases g with raw | ⟨y, hy, e⟩
      · exact .inl (keeps blk raw)
      · rcases List.mem_cons.mp hy with first | later
        · exact .inl (by rw [e, first]; exact makes)
        · exact .inr ⟨y, later, e⟩
  unfold ownWrite ownTry
  refine fold _ (s, true) clean (h.imp_right fun ⟨full, e⟩ => ?_)
  have len : bs.length ≠ 0 := fun z => full (List.length_eq_zero_iff.mp z)
  refine ⟨(pa, min (pa + bs.length) ((pa / 2048 + 1) * 2048) - pa), ?_, e⟩
  unfold blockSpans
  rw [if_neg len]
  refine List.mem_map.mpr ⟨0, List.mem_range.mpr (by omega), ?_⟩
  have low : max pa (pa / 2048 * 2048) = pa := by omega
  simp only [Nat.add_zero, low]

/-- An event on a queue whose descriptor and ring are within reach makes the descriptor's block RAW, and keeps RAW blocks RAW (R422). -/
theorem queueEvent_raw (s : State) (d : Nat) (rec : List Byte) (blk : Nat) (clean : cleanMemory s)
    (h : blockMeta s blk = mdRaw ∨ (¬ (d = 0 ∨ stackFenced s d = true ∨ stackFenced s (mem64 s d) = true) ∧ blk = (d + 20) / 2048 ∧ blk = (d + 24) / 2048)) :
    RawBlock blk (queueEvent s d rec) := by
  obtain ⟨r, read⟩ := ownMeet_cleanMemory s 0 false d 28 clean
  unfold queueEvent queueWith
  split
  · next lost => exact ⟨clean, h.resolve_right fun g => g.1 lost⟩
  · dsimp only
    rw [read]
    generalize hu : ({ s with regs := r } : State) = u
    have cleanU : cleanMemory u := by rw [← hu]; exact clean
    have rawU : blockMeta s blk = mdRaw → blockMeta u blk = mdRaw := by rw [← hu]; exact id
    split
    · have base := ownWrite_quiet u (mem64 u d + 32 * (mem32 u (d + 20) % 2 ^ (ownByte u (d + 8)).toNat)) rec cleanU
      refine ownWrite_raw _ _ _ blk base.2.2 (h.elim (fun raw => .inl ?_) fun g => .inr ⟨List.cons_ne_nil _ _, g.2.1⟩)
      exact (ownWrite_raw u _ rec blk cleanU (.inl (rawU raw))).2
    · exact ownWrite_raw u _ _ blk cleanU (h.imp rawU fun g => ⟨List.cons_ne_nil _ _, g.2.2⟩)

/-- An event of no VF and no launch names no RCB, and so takes the queue that goes with address 0 (R422). -/
theorem postEvent_plain (s : State) (src b code payload : Nat) :
    postEvent s src b none none code payload = queueEvent (evSeqUp s src) (evqFor (evSeqUp s src) b none none) (eventRecord s src none none code payload) := rfl

end Sys2Proof.Machine
end

section
/-! SUPPORT. The statement about resets. An event that names no RCB takes the queue of an RCB at address 0 where one is active (R422): so the BH_RESET_DONE posted at
the end of SCRUB can stand in the stack that has just been zeroed, whose block is then RAW. -/

namespace Sys2Proof.Machine

open Host

/-- Bulkhead 0 is in SCRUB, no error touches memory, no BHEVQ names a queue, and an RCB at address 0 is active whose EVQ lies in stack 0. -/
def scrubWithQueue : State :=
  { State.reset with
    regs := sput 0 State.reset.regs 0x20008 0x14
    rcbs := [{ rcbRead State.reset 0 with evq := 64 }] }

/-- No BHEVQ is written there: each reads as its reset value. -/
theorem scrubWithQueue_bhevq (n : Nat) : bits (regGet scrubWithQueue n 0x20028).toNat 6 42 = 0 := by
  have key : keyOff (regKey n 0x20028) = 0x20028 := regKey_offset (by decide)
  have reset : regResetAt (regKey n 0x20028) = 0 := by
    unfold keyOff at key
    unfold regResetAt
    rw [key]
    rfl
  have unlisted : ∀ e ∈ scrubWithQueue.regs, keyOff e.1 ≠ 0x20028 := by decide
  have value : regGet scrubWithQueue n 0x20028 = 0 := by
    unfold regGet
    rw [reset]
    exact sget_eq_default _ _ _ fun e he same => unlisted e he (by rw [same]; exact key)
  rw [value]
  decide

/-- Bulkhead 0 has reached RUN, its stack zeroed, and posts BH_RESET_DONE from here. -/
def scrubRun : State :=
  let s := stackZero scrubWithQueue 0
  let s3 := modBulk (unfenceEdges (regSetBits s 0 0x20008 0 3 0) 0) 0 fun y => { y with newTenant := false, oldBhctl := 0, holdReq := false, railReq := false }
  regSetBits s3 0 0x20008 16 16 (regBits s3 0 0x20008 16 16 + 1)

/-- The events of the reset, to bulkheads 0, 2 and 1. -/
theorem bhRun_scrub :
    bhRun (stackZero scrubWithQueue 0) 0 =
      vfDoneFor ((0 :: (neighbours 0).map (·.2)).foldl (fun t n => postEvent t (seqrSrc 0) n none none 0x17 0) scrubRun) 0 := by
  have idle : ((List.range 32).filter fun k => vfActive (modBulk (unfenceEdges (regSetBits (stackZero scrubWithQueue 0) 0 0x20008 0 3 0) 0) 0
      fun y => { y with newTenant := false, oldBhctl := 0, holdReq := false, railReq := false }) (32 * 0 + k)) = [] := by decide +kernel
  have kept : bitAt (getBulk (stackZero scrubWithQueue 0) 0).oldBhctl.toNat 63 = false := by decide +kernel
  have same : (getBulk (stackZero scrubWithQueue 0) 0).newTenant = false := by decide +kernel
  unfold bhRun
  dsimp only
  rw [kept, same]
  simp only [Bool.false_and, Bool.false_eq_true, if_false]
  rw [idle]
  rfl

theorem ownBytes_clean (s : State) (pa n : Nat) (clean : cleanMemory s) : ownBytes s pa n = memBytes s pa n := by
  have seen : ∀ a, readable s a = true := fun a => by
    unfold readable
    rw [cleanMemory_lost s clean]
    unfold cwLost
    rw [clean.1]
    simp
  unfold ownBytes
  simp only [seen, if_true]
  simp

/-- The queue's descriptor is all zeros in the stack that has been zeroed, and no bulkhead concerned is fenced. -/
theorem scrubRun_queue (src n : Nat) : evqFor (evSeqUp scrubRun src) n none none = 64 := by
  have found : rcbAt scrubRun 0 = some { rcbRead State.reset 0 with evq := 64 } := by decide +kernel
  unfold evqFor
  change (let addr := 0; let q := match rcbAt scrubRun addr with
    | some r => r.evq
    | none => if addr = 0 then 0 else rcbEff scrubRun 27 (fun a => mem64 scrubRun (a + 56)) 4 addr; if q = 0 then _ else q) = 64
  dsimp only
  rw [found]
  rfl

theorem scrubRun_open : ¬ (64 = 0 ∨ stackFenced scrubRun 64 = true ∨ stackFenced scrubRun (mem64 scrubRun 64) = true) := by
  have clean : cleanMemory scrubRun := cleanMemory_fresh _ (by decide +kernel) (by decide +kernel)
  have zero : mem64 scrubRun 64 = 0 := by
    unfold mem64
    rw [ownBytes_clean _ _ _ clean]
    decide +kernel
  rw [zero]
  decide +kernel

theorem postEvent_raw (s : State) (src b code payload blk : Nat) (h : RawBlock blk s) : RawBlock blk (postEvent s src b none none code payload) := by
  rw [postEvent_plain]
  exact queueEvent_raw _ _ _ _ h.1 (.inl h.2)

/-- The first event of the reset leaves block 0 RAW. -/
theorem scrubRun_event_raw : RawBlock 0 (postEvent scrubRun (seqrSrc 0) 0 none none 0x17 0) := by
  have clean : cleanMemory scrubRun := cleanMemory_fresh _ (by decide +kernel) (by decide +kernel)
  rw [postEvent_plain, scrubRun_queue]
  exact queueEvent_raw _ _ _ _ clean (.inr ⟨scrubRun_open, by decide, by decide⟩)

theorem vfDoneFor_bmeta (s : State) (b : Nat) (h : s.vfDone = []) : (vfDoneFor s b).bmeta = s.bmeta := by
  unfold vfDoneFor
  dsimp only
  rw [h]
  rfl

theorem postEvent_vfDone (s : State) (src b : Nat) (vf lid : Option Nat) (code payload : Nat) : (postEvent s src b vf lid code payload).vfDone = s.vfDone := by
  obtain ⟨_, _, _, _, _, _, e⟩ := postEvent_access s src b vf lid code payload
  rw [e]

/-- Refutes O52: where an RCB at address 0 is active and its EVQ lies in the stack of the bulkhead, the BH_RESET_DONE at the end of SCRUB, which names no VF, goes to that
queue (R422), and the zeroed block that holds the descriptor is RAW again, though no BHEVQ names a queue. -/
theorem not_resetsProceed : ¬ Obligations.ResetsProceed := by
  unfold Obligations.ResetsProceed
  rintro ⟨proceed, -, -⟩
  obtain ⟨-, -, -, -, scrub, -⟩ := proceed scrubWithQueue 0 (by decide)
  have inScrub : bhState scrubWithQueue 0 = 4 := by decide +kernel
  obtain ⟨t, run, -, zeroed⟩ := scrub inScrub
  have zero : blockMeta t 0 = mdZero := (zeroed (cleanMemory_fresh _ rfl rfl) rfl scrubWithQueue_bhevq 0 (by decide) (by decide)).2.1
  have ended : t = bhRun (stackZero scrubWithQueue 0) 0 := by
    have step : exec (.resetScrubDone 0) scrubWithQueue = .next (bhRun (stackZero scrubWithQueue 0) 0) := by
      change execResetScrubDone 0 scrubWithQueue = _
      unfold execResetScrubDone
      rw [if_neg (not_not.mpr inScrub)]
    exact Outcome.next.inj (run.symm.trans step)
  have events : ∀ (l : List Nat) (s : State), RawBlock 0 s → s.vfDone = [] →
      RawBlock 0 (l.foldl (fun t n => postEvent t (seqrSrc 0) n none none 0x17 0) s) ∧ (l.foldl (fun t n => postEvent t (seqrSrc 0) n none none 0x17 0) s).vfDone = [] := by
    intro l
    induction l with
    | nil => exact fun _ h none => ⟨h, none⟩
    | cons n l ih => exact fun s h none => ih _ (postEvent_raw s _ _ _ _ 0 h) ((postEvent_vfDone s _ _ _ _ _ _).trans none)
  have start : scrubRun.vfDone = [] := by decide +kernel
  obtain ⟨raw, done⟩ := events ((neighbours 0).map (·.2)) _ scrubRun_event_raw ((postEvent_vfDone _ _ _ _ _ _ _).trans start)
  rw [ended, bhRun_scrub, List.foldl_cons, blockMeta_congr (vfDoneFor_bmeta _ _ done)] at zero
  have both : mdRaw = mdZero := raw.2.symm.trans zero
  exact absurd both (by decide)

end Sys2Proof.Machine
end

section
/-! SUPPORT. The statement about sector requests. An atomic in a store window of a page with HOSTCACHE waits for the host's answer like any other (R22, R407): it is not done
when its window has been accessed. -/

namespace Sys2Proof.Machine

open Host

/-- Its one piece. -/
def windowAtomicPiece : Piece := { pieceOf 0 0 1 0x010000000000 false true false with stage := .window }

/-- An atomic to a byte of the store window of PE 0 in its own bulkhead, whose page is marked HOSTCACHE, waits at the window. -/
def windowAtomic : Req :=
  { id := 0, ord := 0, bh := 0, agent := .pe 0 0, kind := 0, node := 0, vf := 1, lid := 0, prio := 0, task := none, va := 0, len := 1,
    write := false, data := [], mask := [], atom := some { op := 0, ty := .n64, operand := 0, cmp := 0, det := false, red := false }, supply := [], got := [], mode := 2,
    cfg := 0, phase := 0, heldFor := none, waitFor := [], owner := .tag 0, st := .moving, parts := [],
    pieces := [windowAtomicPiece], err := none, flags := 0 }

/-- It stands alone in a running bulkhead, its VF resident in slot 0. -/
def windowAtomicState : State :=
  { State.reset with
    regs := sput 0 (sput 0 State.reset.regs 0x20008 0x10) 0x20010 0x400
    slots := [(0, { Slot.empty with st := .resident, vf := 1 })]
    reqs := [windowAtomic] }

theorem windowAtomic_at : PieceAt windowAtomicState 0 0 windowAtomic windowAtomicPiece where
  found := rfl
  moving := rfl
  piece := rfl
  alone := fun _ h _ => List.mem_singleton.mp h

/-- No tag waits for it, so that its bytes land in no tile. -/
theorem windowAtomic_landing : landing windowAtomicState windowAtomic = none := by decide +kernel

/-- The stage of a request's piece after a step. -/
def stageAfter (o : Outcome State Fault Refusal) (id k : Nat) : Option Stage :=
  match o with
  | .next t => (reqAt t id).bind fun x => (pieceAt x k).map (·.stage)
  | _ => none

theorem windowAtomic_waits : stageAfter (exec (.windowAccessPerform 0 0) windowAtomicState) 0 0 = some .host := by decide +kernel

/-- Refutes O44: an atomic is no write, and in the store window of a page with HOSTCACHE its access is followed by the wait for the host's answer, where the statement says
of every request that does not write that its piece is done. -/
theorem not_sectorsMove : ¬ Obligations.SectorsMove := by
  unfold Obligations.SectorsMove
  rintro ⟨pieces, -⟩
  obtain ⟨-, -, -, -, window, -⟩ := pieces windowAtomicState 0 0 windowAtomic windowAtomicPiece windowAtomic_at
  have home : ∀ x, landing windowAtomicState windowAtomic = some x → standsIn windowAtomicState x.1 x.2.1 windowAtomic.vf = true := fun x h => by
    rw [windowAtomic_landing] at h
    cases h
  obtain ⟨-, read, -⟩ := window (by decide) (by decide) (by decide +kernel) (.inl ⟨0, rfl⟩) home (by decide)
  obtain ⟨t, q, x, step, found, piece, done, -⟩ := read rfl (by decide +kernel)
  have waits := windowAtomic_waits
  rw [step] at waits
  unfold stageAfter at waits
  dsimp only at waits
  rw [found, Option.bind_some, piece, Option.map_some, done] at waits
  cases waits

end Sys2Proof.Machine
end

section
/-! SUPPORT. What the device's own accesses, a fault and the end of a launch leave of the slots and of what the wells know: the state of a slot changes in a switch, a
restore, a loan or a reset alone (R391, R392), the translations and the misses of a well in its own steps (R31, R40). -/

namespace Sys2Proof.Machine

open Host

/-- The slots stay, and every well keeps its translations and its misses. -/
def Steady (s t : State) : Prop := t.slots = s.slots ∧ ∀ b, (getBulk t b).tlb = (getBulk s b).tlb ∧ (getBulk t b).mmt = (getBulk s b).mmt

theorem Steady.of_same {s t : State} (slots : t.slots = s.slots) (bhs : t.bhs = s.bhs) : Steady s t := by
  refine ⟨slots, fun b => ?_⟩
  unfold getBulk
  rw [bhs]
  exact ⟨rfl, rfl⟩

theorem Steady.refl (s : State) : Steady s s := .of_same rfl rfl

theorem Steady.trans {s t u : State} (h : Steady s t) (g : Steady t u) : Steady s u :=
  ⟨g.1.trans h.1, fun b => ⟨(g.2 b).1.trans (h.2 b).1, (g.2 b).2.trans (h.2 b).2⟩⟩

theorem Steady.foldl {α : Type} {f : State → α → State} (step : ∀ s x, Steady s (f s x)) (l : List α) (s : State) : Steady s (l.foldl f s) := by
  induction l generalizing s with
  | nil => exact .refl s
  | cons x l ih => exact (step s x).trans (ih _)

/-- A change of a bulkhead that leaves its well's translations and misses. -/
theorem modBulk_steady (s : State) (b : Nat) (f : Bulk → Bulk) (tlb : (f (getBulk s b)).tlb = (getBulk s b).tlb) (mmt : (f (getBulk s b)).mmt = (getBulk s b).mmt) :
    Steady s (modBulk s b f) := by
  refine ⟨modBulk_slots s b f, fun c => ?_⟩
  rw [getBulk_modBulk]
  split
  · next same => rw [same]; exact ⟨tlb, mmt⟩
  · exact ⟨rfl, rfl⟩

theorem OnlyMemory.steady {s t : State} (h : OnlyMemory s t) : Steady s t := by
  obtain ⟨_, _, _, rfl⟩ := h
  exact .of_same rfl rfl

theorem regPut_steady (s : State) (b off : Nat) (v : Word) : Steady s (regPut s b off v) := .of_same (regPut_slots s b off v) (regPut_bhs s b off v)

theorem regSetBits_steady (s : State) (b off lo len v : Nat) : Steady s (regSetBits s b off lo len v) := regPut_steady s b off _

theorem postPlain_steady (s : State) (src b : Nat) (vf lid : Option Nat) (code payload : Nat) : Steady s (postPlain s src b vf lid code payload) :=
  Steady.trans (.of_same rfl rfl) (postPlain_only s src b vf lid code payload).steady

theorem poisonReport_steady (s : State) (b vf : Nat) (known : Bool) (cw n : Nat) : Steady s (poisonReport s b vf known cw n) := by
  unfold poisonReport
  refine Steady.trans (Steady.trans ?_ (regPut_steady _ b _ _)) (postPlain_steady _ _ _ _ _ _ _)
  split
  · exact (regSetBits_steady _ _ _ _ _ _).trans (regSetBits_steady _ _ _ _ _ _)
  · exact regSetBits_steady _ _ _ _ _ _

theorem countCorrected_steady (s : State) (b cw : Nat) : Steady s (countCorrected s b cw) := by
  have post (u : State) : Steady u (if regBits u b 0x11008 49 1 = 1 ∧ (getBulk u b).ceAt ≤ cycleOf u b then
      modBulk (postPlain u (wellSrc b) b none none 0x05 (cw * 32 % 2 ^ 36)) b (fun x => { x with ceAt := x.cycle + 65536 }) else u) := by
    split
    · exact (postPlain_steady _ _ _ _ _ _ _).trans (modBulk_steady _ _ _ rfl rfl)
    · exact .refl u
  unfold countCorrected
  refine Steady.trans ?_ (post _)
  split
  · exact regSetBits_steady _ _ _ _ _ _
  · exact regSetBits_steady _ _ _ _ _ _

theorem meetCw_steady (b vf : Nat) (known : Bool) (s : State) (cw : Nat) : Steady s (meetCw b vf known s cw) := by
  unfold meetCw
  split
  · exact Steady.trans (.of_same rfl rfl) (poisonReport_steady (eccPut s cw .poisoned) b vf known cw 1)
  · exact countCorrected_steady s b cw
  · exact .refl s

theorem meetSectors_steady (s : State) (vf : Nat) (known : Bool) (blk : Nat) (secs : List Nat) : Steady s (meetSectors s vf known blk secs) := by
  unfold meetSectors
  dsimp only
  split
  · split
    · exact .refl s
    · exact ((meetSectors_access.eccPut_fold_only_map s blk).steady).trans (poisonReport_steady _ _ _ _ _ _)
  · exact Steady.foldl (meetCw_steady _ _ _) _ s

theorem meetWrite_steady (s : State) (vf : Nat) (known comp : Bool) (pa : Nat) (bs : List Byte) (mask : List Bool) :
    Steady s (meetWrite s vf known comp pa bs mask) := by
  unfold meetWrite
  dsimp only
  split
  · exact .refl s
  · split
    · exact Steady.foldl (meetCw_steady _ _ _) _ s
    · exact meetSectors_steady s vf known _ _

theorem ownPulse_steady (s : State) (b k : Nat) : Steady s (ownMeet.ownPulse s b k) := by
  unfold ownMeet.ownPulse
  split
  · exact regSetBits_steady s b _ _ _ _
  · exact .refl s

theorem ownMeet_steady (s : State) (vf : Nat) (known : Bool) (pa n : Nat) : Steady s (ownMeet s vf known pa n) :=
  Steady.foldl (fun t _ => (meetSectors_steady t vf known _ _).trans (ownPulse_steady _ _ _)) _ s

theorem ownTry_steady (s : State) (vf : Nat) (known : Bool) (pa : Nat) (bs : List Byte) : Steady s (ownTry s vf known pa bs).1 := by
  unfold ownTry
  generalize blockSpans pa bs.length = l
  suffices ∀ a : State × Bool, Steady a.1 (l.foldl _ a).1 from this (s, true)
  induction l with
  | nil => exact fun a => .refl a.1
  | cons x l ih =>
    exact fun a => Steady.trans ((meetWrite_steady a.1 vf known false x.1 _ []).trans ((ownPulse_steady _ _ _).trans (blockWrite_only _ _ _ _ _).steady)) (ih _)

theorem ownPut_steady (s : State) (vf pa : Nat) (bs : List Byte) : Steady s (ownPut s vf pa bs) := ownTry_steady s vf true pa bs

theorem memPutLe_steady (s : State) (pa n v : Nat) : Steady s (memPutLe s pa n v) := ownTry_steady s 0 false pa _

theorem rcbMeet_steady (k : Nat) (s : State) (addr : Nat) : Steady s (rcbMeet k s addr) := by
  induction k generalizing s addr with
  | zero => exact .refl s
  | succ k ih =>
    unfold rcbMeet
    split
    · exact .refl s
    · exact (ownMeet_steady s 0 false addr 128).trans (ih _ _)

theorem queueEvent_steady (s : State) (d : Nat) (rec : List Byte) : Steady s (queueEvent s d rec) :=
  queueWith_keeps (Steady s) _ _ (fun t _ _ g => g.trans (ownMeet_steady t 0 false _ _)) (fun t _ _ g => g.trans (ownTry_steady t 0 false _ _)) s d rec (.refl s)

theorem postEvent_steady (s : State) (src b : Nat) (vf lid : Option Nat) (code payload : Nat) : Steady s (postEvent s src b vf lid code payload) :=
  Steady.trans (.of_same rfl rfl) ((rcbMeet_steady 4 (evSeqUp s src) _).trans (queueEvent_steady _ _ _))

theorem saveMeet_steady (s : State) (vf b sl : Nat) : Steady s (saveMeet s vf b sl) := by
  unfold saveMeet
  dsimp only
  split
  · exact .refl s
  · exact (ownMeet_steady s vf true _ 8).trans (ownMeet_steady _ vf true _ 8)

theorem modPE_steady (s : State) (b pe : Nat) (f : PE → PE) : Steady s (modPE s b pe f) := .of_same rfl rfl

theorem modCtx_steady (s : State) (b pe vf : Nat) (f : PE → PE) : Steady s (modCtx s b pe vf f) := by
  unfold modCtx
  split
  · exact modPE_steady s b pe f
  · exact .of_same rfl rfl

theorem freezeMaster_steady (s : State) (b : Nat) (m : MasterId) (vf : Nat) (why : FreezeReason) : Steady s (freezeMaster s b m vf why) := by
  unfold freezeMaster
  cases m with
  | pe i => exact modCtx_steady s b i vf _
  | unit k i =>
    dsimp only
    unfold freezeUnit
    dsimp only
    cases masterSlot (.unit k i) with
    | none =>
      dsimp only
      rw [if_pos rfl]
      exact modBulk_steady _ _ _ rfl rfl
    | some sl =>
      dsimp only
      split
      · exact modBulk_steady _ _ _ rfl rfl
      · exact .of_same rfl rfl

theorem readyDiscard_steady (s : State) (b pe : Nat) (gone : Firing → Bool) : Steady s (readyDiscard s b pe gone) := .of_same rfl rfl

theorem budgetMove_steady (s : State) (addr : Nat) (kind : BudgetKind) (up down : Nat) : Steady s (budgetMove s addr kind up down) := .of_same rfl rfl

theorem dropToken_steady (s : State) (b pe : Nat) (kind : Kind) (v : Word) (n : Nat) : Steady s (dropToken s b pe kind v n) := by
  unfold dropToken
  split
  · exact modPE_steady s b pe _
  · exact .refl s

theorem frameDrop_steady (s : State) (b pe fp cls : Nat) : Steady s (frameDrop s b pe fp cls) := by
  unfold frameDrop
  dsimp only
  refine Steady.foldl (fun t e => ?_) _ s
  generalize (if tagState e.2 = tagStickyL ∨ tagState e.2 = tagStickyR then (if tagCount e.2 = 63 then 1 else tagCount e.2) else 1) = n
  split
  · exact dropToken_steady t b pe .handle _ n
  · exact .refl t

theorem frameFree_steady (s : State) (b pe fp : Nat) : Steady s (frameFree s b pe fp) := by
  unfold frameFree
  split
  · exact .refl s
  · next i _ =>
    dsimp only
    have closed (pes : List Nat) : Steady s (pes.foldl (fun t q => modPE (frameDrop t b q fp i.cls) b q fun p => frameClose p fp i.cls) s) :=
      Steady.foldl (fun t q => (frameDrop_steady t b q fp i.cls).trans (modPE_steady _ b q _)) pes s
    refine Steady.trans ?_ (budgetMove_steady _ _ _ _ _)
    split
    · exact closed _
    · exact (closed _).trans (modPE_steady _ _ _ _)

theorem tasksDrop_steady (s : State) (hit : Task → Bool) : Steady s (tasksDrop s hit) :=
  Steady.trans (Steady.foldl (fun t _ => budgetMove_steady t _ _ _ _) _ s) (.of_same rfl rfl)

/-- A launch that is halted gives up its firings, frames and tasks (R285). -/
theorem haltLaunch_steady (s : State) (lid : Nat) (status : Word) : Steady s (haltLaunch s lid status) := by
  unfold haltLaunch
  split
  · exact .refl s
  · next l _ =>
    split
    · exact .refl s
    · dsimp only
      have s1 := Steady.foldl (fun (t : State) pe => readyDiscard_steady t l.bh pe fun f => f.lid == lid) (activePes s l.bh) s
      have s2 := s1.trans (Steady.foldl (fun (t : State) pe => Steady.foldl (fun u (e : Nat × FrameInfo) => frameFree_steady u l.bh pe e.1)
        ((getPE t l.bh pe).finfo.filter fun e => e.2.lid == lid) t) (activePes s l.bh) _)
      have s3 := s2.trans (tasksDrop_steady _ fun t => t.lid == lid)
      split
      · exact s3
      · exact s3.trans (.of_same rfl rfl)

theorem takeFault_steady (s : State) (b : Nat) (m : MasterId) (src vf lid : Nat) (task : Option Nat) (why : FreezeReason) (code payload : Nat) :
    Steady s (takeFault s b m src vf lid task why code payload) := by
  unfold takeFault
  dsimp only
  split
  · exact (postEvent_steady _ _ _ _ _ _ _).trans (haltLaunch_steady _ _ _)
  · exact (postEvent_steady _ _ _ _ _ _ _).trans (freezeMaster_steady _ _ _ _ _)

theorem entriesBack_steady (s : State) (p : PStore) : Steady s (entriesBack s p) :=
  (budgetMove_steady s _ _ _ _).trans (modBulk_steady _ _ _ rfl rfl)

theorem dropStores_steady (s : State) (gone : PStore → Bool) : Steady s (dropStores s gone) :=
  Steady.trans (.of_same rfl rfl) (Steady.foldl entriesBack_steady _ { s with stores := s.stores.filter fun p => !gone p })

theorem tagFollow_steady (s : State) (r : Req) (tag : Option Nat) : Steady s (tagFollow s r tag) := by
  unfold tagFollow
  split
  · exact modCtx_steady s _ _ _ _
  · exact .refl s

theorem reqPut_steady (s : State) (r : Req) : Steady s (reqPut s r) := .of_same rfl rfl

theorem reqDel_steady (s : State) (id : Nat) : Steady s (reqDel s id) := .of_same rfl rfl

theorem landAway_steady (s : State) (b pe vf off : Nat) (bs : List Byte) : Steady s (landAway s b pe vf off bs) := by
  unfold landAway
  dsimp only
  split
  · exact saveMeet_steady s vf b _
  · exact (saveMeet_steady s vf b _).trans ((ownPut_steady _ vf _ bs).trans ((ownMeet_steady _ vf true _ 1).trans (ownPut_steady _ vf _ _)))

theorem landBytes_steady (s : State) (r : Req) (off len : Nat) : Steady s (landBytes s r off len) := by
  unfold landBytes
  split
  · exact .refl s
  · dsimp only
    refine Steady.foldl (fun t g => ?_) _ s
    split
    · exact modPE_steady t _ _ _
    · exact landAway_steady t _ _ _ _ _

theorem parkReq_steady (s : State) (r : Req) (reason level addr : Nat) : Steady s (parkReq s r reason level addr) := by
  unfold parkReq
  dsimp only
  split
  · exact reqPut_steady s _
  · split
    · exact .of_same rfl rfl
    · have drawn : Steady s (newParkId s r.bh).2 := .of_same rfl rfl
      generalize newParkId s r.bh = d at drawn ⊢
      have opened := drawn.trans (modBulk_steady d.2 r.bh (fun x => { x with parks := x.parks ++ [(d.1, r.vf, addr / 2 ^ 14)] }) rfl rfl)
      generalize modBulk d.2 r.bh (fun x => { x with parks := x.parks ++ [(d.1, r.vf, addr / 2 ^ 14)] }) = u at opened ⊢
      refine opened.trans (Steady.trans ?_ (postEvent_steady _ _ _ _ _ _ _))
      exact .of_same rfl rfl

theorem protFault_steady (s : State) (r : Req) (reason level addr : Nat) : Steady s (protFault s r reason level addr) := by
  have faulted := takeFault_steady s (agentMaster r.agent).1 (agentMaster r.agent).2 (wellSrc r.bh) r.vf r.lid r.task (.protection r.id) 0x01 (faultPayload r addr level reason 0)
  unfold protFault
  dsimp only
  generalize takeFault s (agentMaster r.agent).1 (agentMaster r.agent).2 (wellSrc r.bh) r.vf r.lid r.task (.protection r.id) 0x01
    (faultPayload r addr level reason 0) = u at faulted ⊢
  cases fdomOf s r.lid r.task with
  | false =>
    have kept := faulted.trans (reqPut_steady u { r with st := .frozen })
    split
    · exact kept
    · exact kept
  | true =>
    have gone := faulted.trans (reqDel_steady u r.id)
    split
    · exact gone.trans (dropStores_steady _ _)
    · exact gone

theorem reqJudge_steady (s : State) (r : Req) : Steady s (reqJudge s r) := by
  unfold reqJudge
  dsimp only
  split
  · split
    · exact (parkReq_steady _ _ _ _ _).trans (tagFollow_steady _ _ _)
    · exact protFault_steady _ _ _ _ _
  · split
    · refine Steady.trans (t := reqDel _ r.id) ?_ (tagFollow_steady _ _ _)
      exact .of_same rfl rfl
    · refine Steady.trans ?_ (landBytes_steady _ _ _ _)
      exact ((reqPut_steady s _).trans (tagFollow_steady _ _ _)).trans (.of_same rfl rfl)

end Sys2Proof.Machine
end

section
/-! SUPPORT. Requests are found under their ids, and a request of one part that stands first at its well is taken at once (R29, R31, R32). -/

namespace Sys2Proof.Machine

open Host

theorem reqAt_id {s : State} {id : Nat} {r : Req} (h : reqAt s id = some r) : r.id = id := by simpa using List.find?_some h

theorem reqAt_congr {s t : State} (h : t.reqs = s.reqs) (id : Nat) : reqAt t id = reqAt s id := by
  unfold reqAt
  rw [h]

/-- A request that has been replaced is found under its id. -/
theorem reqAt_reqPut {s : State} {id : Nat} {r : Req} (q : Req) (h : reqAt s id = some r) (same : q.id = id) : reqAt (reqPut s q) id = some q := by
  have key : ((fun x : Req => x.id == id) ∘ fun x => if x.id == q.id then q else x) = fun x => x.id == id := by
    funext x
    by_cases hx : x.id = id <;> simp [hx, same]
  unfold reqAt at h
  unfold reqAt reqPut
  rw [List.find?_map, key, h]
  simp [reqAt_id h, same]

section

variable {s : State} {id : Nat} {r : Req} {p : ReqPart} (h : AtWell s id r p)

include h

theorem AtWell.numbered : r.id = id := reqAt_id h.found

theorem AtWell.exec_eq : exec (.wellTranslate id) s = .next (wellTake s r) := by
  change execWellTranslate id s = _
  unfold execWellTranslate
  rw [h.found]
  dsimp only
  rw [if_neg]
  simp [h.stands, h.runs]

/-- A request all of which its well knows is judged at once (R29). -/
theorem AtWell.takes_known {x : XRes} (known : wellKnows s r p = some x) :
    wellTake s r = reqJudge s { r with parts := [{ p with res := some x, leaf := leafNow s r.bh r.vf p.va }] } := by
  unfold wellKnows at known
  have none_missing : missing s r = [] := by
    unfold missing
    rw [h.one]
    simp [known]
  unfold wellTake
  dsimp only
  rw [none_missing, h.first, h.one]
  simp [known]

/-- A request whose page its well does not know joins the miss-merge table (R31). -/
theorem AtWell.takes_unknown (unknown : wellKnows s r p = none) :
    wellTake s r = reqPut (modBulk s r.bh fun x => { x with mmt := x.mmt ++ missing s r }) { r with parts := [{ p with res := none, leaf := 0 }], st := .walking } ∧
      ((getBulk s r.bh).mmt ++ missing s r).contains (r.vf, p.va / 2 ^ 14) = true := by
  unfold wellKnows at unknown
  have wanted : missing s r = if (getBulk s r.bh).mmt.contains (r.vf, p.va / 2 ^ 14) then [] else [(r.vf, p.va / 2 ^ 14)] := by
    unfold missing
    rw [h.one]
    simp [unknown]
  have short : (missing s r).length ≤ 1 := by
    rw [wanted]
    split <;> simp
  have nobody : (s.reqs.any fun q => q.bh == r.bh && q.st == .atWell && decide (q.ord < r.ord) && !behind s q && !(missing s q).isEmpty) = false := by
    refine List.any_eq_false.mpr fun q mem => ?_
    have turn := h.turn q mem
    simp only [Bool.and_eq_true, beq_iff_eq, decide_eq_true_eq, Bool.not_eq_true', List.isEmpty_eq_false_iff]
    rintro ⟨⟨⟨⟨here, stands⟩, before⟩, free⟩, wants⟩
    rcases turn here stands before with held | nothing
    · rw [held] at free
      cases free
    · exact wants nothing
  have room := h.room
  constructor
  · unfold wellTake
    dsimp only
    rw [nobody, h.first, if_neg (by simp), if_neg (by simp; omega)]
    simp [h.one, unknown]
  · rw [wanted]
    split
    · next there => simpa using there
    · simp

end

end Sys2Proof.Machine
end

section
/-! SUPPORT. A request that its page forbids freezes its PE, and one whose page is missing parks (R35, R36). -/

namespace Sys2Proof.Machine

open Host

theorem SameRegs.of_regs {s t : State} (h : t.regs = s.regs) : SameRegs s t := fun b off _ _ => regGet_congr h b off

theorem modCtx_only (s : State) (b pe vf : Nat) (f : PE → PE) : ∃ ps sv, modCtx s b pe vf f = { s with pes := ps, saved := sv } := by
  unfold modCtx
  split
  · exact ⟨_, _, rfl⟩
  · exact ⟨_, _, rfl⟩

/-- What becomes of a tag is noted on its PE, or in the context of a VF that is away (R118). -/
theorem tagFollow_only (s : State) (r : Req) (tag : Option Nat) : ∃ ps sv, tagFollow s r tag = { s with pes := ps, saved := sv } := by
  unfold tagFollow
  split
  · exact modCtx_only s _ _ _ _
  · exact ⟨_, _, rfl⟩

/-- A protection fault where FDOM is 0 posts its event, freezes its PE and keeps its request (R35, R417). -/
theorem reqJudge_forbidden (s : State) (r : Req) {b i reason lv va : Nat} (bad : firstBad r = some (reason, lv, va)) (hard : 0x10 ≤ reason) (agent : r.agent = .pe b i)
    (whole : fdomOf s r.lid r.task = false) :
    reqJudge s r = reqPut (freezeMaster (postEvent s (wellSrc r.bh) b (some r.vf) (some r.lid) 0x01 (faultPayload r va lv reason 0)) b (.pe i) r.vf (.protection r.id))
      { r with st := .frozen } := by
  unfold reqJudge
  dsimp only
  rw [bad]
  dsimp only
  rw [if_neg (by omega)]
  unfold protFault
  dsimp only
  rw [whole, takeFault_freezes _ _ _ _ _ _ _ _ _ _ whole, agent]
  unfold agentMaster
  dsimp only
  simp only [Bool.false_eq_true, if_false]
  split <;> rfl

/-- What parks with room in the shared part stands under a park id that is open (R36). -/
theorem parkReq_parks (s : State) (r r0 : Req) (reason lv va : Nat) (found : reqAt s r.id = some r0) (room : parkShared s r.bh < 4096 - 8 * (tableVfs s r.bh).length)
    (clean : cleanMemory s) :
    ∃ pid, ∃ (q : Req), reqAt (parkReq s r reason lv va) r.id = some q ∧ q.st = .parked pid false ∧ parkOpen (parkReq s r reason lv va) r.bh pid = true ∧
      SameRegs s (parkReq s r reason lv va) := by
  unfold parkReq
  dsimp only
  rw [decide_eq_true room]
  simp only [Bool.not_true, Bool.false_and, Bool.false_eq_true, if_false]
  split
  · next e there =>
    refine ⟨e.1, _, (reqAt_congr rfl _).trans (reqAt_reqPut _ found rfl), rfl, ?_, .of_regs rfl⟩
    unfold parkOpen
    exact List.any_eq_true.mpr ⟨e, List.mem_of_find?_eq_some there, beq_self_eq_true e.1⟩
  · have drawn : (newParkId s r.bh).2 = { s with fresh := s.fresh + 1 } := rfl
    generalize newParkId s r.bh = d at drawn ⊢
    obtain ⟨pid, w⟩ := d
    dsimp only at drawn ⊢
    subst drawn
    generalize hu : newId (reqPut (modBulk { s with fresh := s.fresh + 1 } r.bh fun x => { x with parks := x.parks ++ [(pid, r.vf, va / 2 ^ 14)] }) { r with
      st := .parked pid false, ord := (modBulk { s with fresh := s.fresh + 1 } r.bh fun x => { x with parks := x.parks ++ [(pid, r.vf, va / 2 ^ 14)] }).nextId }) = u
    have clean' : cleanMemory u := by rw [← hu]; exact clean
    obtain ⟨⟨_, _, _, _, posted⟩, same, -⟩ := postEvent_quiet u (wellSrc r.bh) r.bh (some r.vf) (some r.lid) 0x02 (faultPayload r va lv reason pid) clean'
    have regs : u.regs = s.regs := by rw [← hu]; rfl
    have parked : ∃ q : Req, reqAt u r.id = some q ∧ q.st = .parked pid false := by
      rw [← hu]
      exact ⟨_, (reqAt_congr rfl _).trans (reqAt_reqPut _ ((reqAt_congr rfl _).trans found) rfl), rfl⟩
    obtain ⟨q, stands, st⟩ := parked
    refine ⟨pid, q, ?_, st, ?_, SameRegs.trans (t := u) (.of_regs regs) (SameRegs.trans (.of_regs rfl) same)⟩
    · rw [posted]
      exact stands
    · rw [posted]
      have opened : parkOpen u r.bh pid = true := by
        rw [← hu]
        change (getBulk (modBulk { s with fresh := s.fresh + 1 } r.bh fun x => { x with parks := x.parks ++ [(pid, r.vf, va / 2 ^ 14)] }) r.bh).parks.any _ = true
        rw [getBulk_modBulk, if_pos rfl]
        simp
      exact opened

section

variable {s : State} {id : Nat} {r : Req} {p : ReqPart} (h : AtWell s id r p)

include h

theorem AtWell.freezes {b i reason lv va : Nat} (known : wellKnows s r p = some (.bad reason lv va)) (agent : r.agent = .pe b i) (hard : 0x10 ≤ reason)
    (here : standsIn s b i r.vf = true) (thawed : (getPE s b i).frozen = none) (whole : fdomOf s r.lid r.task = false) (clean : cleanMemory s) :
    ∃ t : State, ∃ (q : Req), exec (.wellTranslate id) s = .next t ∧ reqAt t id = some q ∧ q.st = .frozen ∧ (getPE t b i).frozen = some (.protection id) ∧
      sget 0 t.evSeq (wellSrc r.bh) = (sget 0 s.evSeq (wellSrc r.bh) + 1) % 2 ^ 32 ∧ SameRegs s t := by
  let r1 : Req := { r with parts := [{ p with res := some (.bad reason lv va), leaf := leafNow s r.bh r.vf p.va }] }
  have judged := reqJudge_forbidden s r1 (b := b) (i := i) (reason := reason) (lv := lv) (va := va) rfl hard agent whole
  rw [h.exec_eq, h.takes_known known, judged]
  obtain ⟨⟨_, _, _, _, posted⟩, same, -⟩ := postEvent_quiet s (wellSrc r.bh) b (some r.vf) (some r.lid) 0x01 (faultPayload r1 va lv reason 0) clean
  change ∃ t : State, ∃ (q : Req), Outcome.next (reqPut (freezeMaster (postEvent s (wellSrc r.bh) b (some r.vf) (some r.lid) 0x01 (faultPayload r1 va lv reason 0))
    b (.pe i) r.vf (.protection r.id)) { r1 with st := .frozen }) = .next t ∧ _
  generalize postEvent s (wellSrc r.bh) b (some r.vf) (some r.lid) 0x01 (faultPayload r1 va lv reason 0) = u at posted same ⊢
  have here' : standsIn u b i r.vf = true := by rw [posted]; exact here
  have thawed' : (getPE u b i).frozen = none := by rw [posted]; exact thawed
  have frozen := freezeMaster_frozen u b i r.vf (.protection r.id) here' thawed'
  obtain ⟨_, _, _, only⟩ := freezeMaster_only u b (.pe i) r.vf (.protection r.id)
  have found : reqAt (freezeMaster u b (.pe i) r.vf (.protection r.id)) id = some r := by
    rw [only, posted]
    exact h.found
  refine ⟨_, _, rfl, reqAt_reqPut _ found h.numbered, rfl, ?_, ?_, ?_⟩
  · rw [← h.numbered]
    exact frozen
  · rw [reqPut_evSeq, only, posted]
    exact (sget_sput 0 s.evSeq (wellSrc r.bh) _ _).trans (if_pos rfl)
  · refine SameRegs.trans (t := u) (SameRegs.trans (.of_regs rfl) same) (.of_regs ?_)
    rw [reqPut_regs, only]

theorem AtWell.parks {reason lv va : Nat} (known : wellKnows s r p = some (.bad reason lv va)) (soft : reason < 0x10)
    (room : parkShared s r.bh < 4096 - 8 * (tableVfs s r.bh).length) (clean : cleanMemory s) :
    ∃ t : State, ∃ (q : Req) (pid : Nat), exec (.wellTranslate id) s = .next t ∧ reqAt t id = some q ∧ q.st = .parked pid false ∧ parkOpen t r.bh pid = true ∧
      SameRegs s t := by
  let r1 : Req := { r with parts := [{ p with res := some (.bad reason lv va), leaf := leafNow s r.bh r.vf p.va }] }
  have judged : reqJudge s r1 = tagFollow (parkReq s r1 reason lv va) r1 (reqTag s r1) := by
    unfold reqJudge
    dsimp only
    rw [show firstBad r1 = some (reason, lv, va) from rfl]
    exact if_pos soft
  rw [h.exec_eq, h.takes_known known, judged]
  have found : reqAt s r1.id = some r := (congrArg (reqAt s) h.numbered).trans h.found
  obtain ⟨pid, q, stands, st, opened, same⟩ := parkReq_parks s r1 r reason lv va found room clean
  generalize parkReq s r1 reason lv va = u at stands opened same ⊢
  obtain ⟨_, _, only⟩ := tagFollow_only u r1 (reqTag s r1)
  refine ⟨_, q, pid, rfl, ?_, st, ?_, ?_⟩
  · rw [only, ← h.numbered]
    exact stands
  · rw [only]
    exact opened
  · rw [only]
    exact same

end

end Sys2Proof.Machine
end

section
/-! SUPPORT. The sector requests of an access carry all of its bytes (R112). -/

namespace Sys2Proof.Machine

open Host

/-- A sector request on its way that carries byte j of its request, at physical address a. -/
def CarriesByte (comp hostc : Bool) (j a : Nat) (x : Piece) : Prop :=
  x.stage = .waiting ∧ x.comp = comp ∧ x.hostc = hostc ∧ x.off ≤ j ∧ j < x.off + x.len ∧ x.pa + (j - x.off) = a

theorem CarriesByte.numbered {comp hostc : Bool} {j a : Nat} {x : Piece} (h : CarriesByte comp hostc j a x) (k : Nat) : CarriesByte comp hostc j a { x with key := k } := h

theorem pieceOf_carries (b off len pa : Nat) (comp hostc bare : Bool) {j : Nat} (low : off ≤ j) (high : j < off + len) :
    CarriesByte comp hostc j (pa + (j - off)) (pieceOf b off len pa comp hostc bare) := ⟨rfl, rfl, rfl, low, high, rfl⟩

/-- What is cut at multiples of a chunk carries every byte. -/
theorem piecesOf_carries (b chunk : Nat) (comp hostc : Bool) (pos : 0 < chunk) : ∀ k off pa len, pa % chunk + len ≤ k * chunk → ∀ j, off ≤ j → j < off + len →
    ∃ x ∈ piecesOf b chunk comp hostc k off pa len, CarriesByte comp hostc j (pa + (j - off)) x := by
  intro k
  induction k with
  | zero => exact fun off pa len fits j low high => by omega
  | succ k ih =>
    intro off pa len fits j low high
    have some_left : len ≠ 0 := by omega
    have inside := Nat.mod_lt pa pos
    unfold piecesOf
    rw [if_neg some_left]
    dsimp only
    by_cases first : j < off + min len (chunk - pa % chunk)
    · exact ⟨_, List.mem_cons_self, pieceOf_carries b off _ pa comp hostc false low first⟩
    · have cut : min len (chunk - pa % chunk) = chunk - pa % chunk := by omega
      rw [cut] at first ⊢
      have aligned : (pa + (chunk - pa % chunk)) % chunk = 0 := by
        have whole : pa + (chunk - pa % chunk) = chunk * (pa / chunk + 1) := by
          have := Nat.div_add_mod pa chunk
          rw [Nat.mul_add]
          omega
        rw [whole, Nat.mul_mod_right]
      rw [Nat.succ_mul] at fits
      obtain ⟨x, mem, carries⟩ := ih (off + (chunk - pa % chunk)) (pa + (chunk - pa % chunk)) (len - (chunk - pa % chunk)) (by rw [aligned]; omega) j (by omega) (by omega)
      refine ⟨x, List.mem_cons_of_mem _ mem, ?_⟩
      have place : pa + (chunk - pa % chunk) + (j - (off + (chunk - pa % chunk))) = pa + (j - off) := by omega
      rw [← place]
      exact carries

/-- The sector requests of an access to one block carry its bytes (R142). -/
theorem blockPieces_carries (s : State) (b : Nat) (write comp hostc : Bool) (off pa len : Nat) (small : len ≤ 2048) {j : Nat} (low : off ≤ j) (high : j < off + len) :
    ∃ x ∈ blockPieces s b write comp hostc off pa len, CarriesByte comp hostc j (pa + (j - off)) x := by
  unfold blockPieces
  dsimp only
  split
  · obtain ⟨x, mem, carries⟩ := piecesOf_carries b 256 comp hostc (by omega) 9 off pa len (by omega) j low high
    exact ⟨x, List.mem_append_right _ mem, carries⟩
  · split
    · exact ⟨_, List.mem_cons_self, pieceOf_carries b off len pa comp hostc true low high⟩
    · exact ⟨_, List.mem_cons_self, pieceOf_carries b off len pa comp hostc false low high⟩

/-- Every byte of an access lies in its share of some block. -/
theorem blockSpans_covers (pa n a : Nat) (low : pa ≤ a) (high : a < pa + n) : ∃ x ∈ blockSpans pa n, pa ≤ x.1 ∧ x.1 ≤ a ∧ a < x.1 + x.2 ∧ x.2 ≤ 2048 := by
  unfold blockSpans
  rw [if_neg (by omega)]
  refine ⟨_, List.mem_map.mpr ⟨a / 2048 - pa / 2048, List.mem_range.mpr (by omega), rfl⟩, ?_⟩
  dsimp only
  omega

/-- The sector requests of a request of one translated part carry all of its bytes (R112). -/
theorem reqPieces_carries (s : State) (r : Req) (p : ReqPart) {pa : Nat} {comp hostc win : Bool} (one : r.parts = [p]) (res : p.res = some (.ok pa comp hostc win))
    {i : Nat} (inside : i < p.len) : ∃ x ∈ reqPieces s r, CarriesByte comp hostc (p.off + i) (pa + i) x := by
  unfold reqPieces
  rw [one]
  dsimp only
  rw [List.map_cons, List.map_nil, List.flatten_cons, List.flatten_nil, List.append_nil]
  rw [res]
  dsimp only
  split
  · obtain ⟨x, mem, above, low, high, small⟩ := blockSpans_covers pa p.len (pa + i) (by omega) (by omega)
    obtain ⟨y, mem', carries⟩ := blockPieces_carries s r.bh r.write comp hostc (p.off + (x.1 - pa)) x.1 x.2 small (j := p.off + i) (by omega) (by omega)
    refine ⟨y, List.mem_flatten.mpr ⟨_, List.mem_map.mpr ⟨x, mem, rfl⟩, mem'⟩, ?_⟩
    have place : x.1 + (p.off + i - (p.off + (x.1 - pa))) = pa + i := by omega
    rw [← place]
    exact carries
  · have cut : pieceChunk r.bh pa r.len = 16 ∨ pieceChunk r.bh pa r.len = 256 := by
      unfold pieceChunk
      split
      · exact .inl rfl
      · exact .inr rfl
    have fits : 0 < pieceChunk r.bh pa r.len ∧ pa % pieceChunk r.bh pa r.len + p.len ≤ (p.len / 16 + 2) * pieceChunk r.bh pa r.len := by
      rcases cut with h | h
      · rw [h]
        omega
      · rw [h]
        omega
    obtain ⟨x, mem, carries⟩ := piecesOf_carries r.bh _ comp hostc fits.1 _ p.off pa p.len fits.2 (p.off + i) (by omega) (by omega)
    refine ⟨x, mem, ?_⟩
    rw [Nat.add_sub_cancel_left] at carries
    exact carries

/-- Rows of a pump.get apart, a request reads for itself (R142). -/
theorem sharedPiece_alone (s : State) (r : Req) (p : Piece) {tag : Nat} (owner : r.owner = .tag tag) : sharedPiece s r p = some p := by
  have alone : readTogether s r = [r] := by
    unfold readTogether
    rw [owner]
  unfold sharedPiece
  rw [alone]
  simp

/-- Where no store of its group is pending, nothing is supplied to a load (R162). -/
theorem supplyNow_none (s : State) (r : Req) (id : Nat) (apart : ∀ x ∈ s.stores, x.cfg ≠ r.cfg) : supplyNow s r id = [] := by
  have nothing (b pe phase limit : Nat) : supplyStores s b pe r.cfg phase limit = [] := by
    unfold supplyStores
    refine List.filter_eq_nil_iff.mpr fun x mem => ?_
    have := apart x mem
    simp [this]
  unfold supplyNow supplyMap
  simp only [nothing]
  split
  · split
    · rfl
    · simp
  · rfl

theorem resupply_none (s : State) (r : Req) (off len : Nat) (apart : ∀ x ∈ s.stores, x.cfg ≠ r.cfg) (empty : r.supply = []) : resupply s r off len = r := by
  unfold resupply
  rw [supplyNow_none s r r.id apart, empty]
  dsimp only [List.filter_nil, List.foldl_nil]
  rw [← empty]

/-- A request of which nothing has been supplied or answered still needs every byte. -/
theorem freshPieces_carries (s : State) (r : Req) {tag : Nat} (owner : r.owner = .tag tag) (unsupplied : r.supply = []) (unanswered : r.pieces = []) {comp hostc : Bool}
    {j a : Nat} {x : Piece} (mem : x ∈ reqPieces s r) (carries : CarriesByte comp hostc j a x) : x ∈ freshPieces s r := by
  obtain ⟨-, -, -, low, high, -⟩ := carries
  unfold freshPieces
  refine List.mem_filterMap.mpr ⟨x, List.mem_filter.mpr ⟨mem, ?_⟩, sharedPiece_alone s r x owner⟩
  refine Bool.or_eq_true_iff.mpr (.inl (List.any_eq_true.mpr ⟨0, List.mem_range.mpr (by omega), ?_⟩))
  rw [unsupplied]
  unfold byteGot
  rw [unanswered]
  rfl

theorem numberPieces_mem {ps : List Piece} {x : Piece} (mem : x ∈ ps) : ∃ k, { x with key := k } ∈ numberPieces ps := by
  obtain ⟨k, here, at_k⟩ := List.mem_iff_getElem.mp mem
  refine ⟨k, List.mem_map.mpr ⟨(x, k), ?_, rfl⟩⟩
  rw [List.mem_zipIdx_iff_getElem?, List.getElem?_eq_getElem here, at_k]

theorem landBytes_nothing (s : State) (r : Req) (off : Nat) : landBytes s r off 0 = s := by
  unfold landBytes
  split
  · rfl
  · rfl

/-- A load that its page lets through moves in sector requests that carry all of its bytes (R112). -/
theorem reqJudge_moves (s : State) (r r0 : Req) (p : ReqPart) {pa tag : Nat} {comp hostc win : Bool} (one : r.parts = [p]) (res : p.res = some (.ok pa comp hostc win))
    (owner : r.owner = .tag tag) (unanswered : r.pieces = []) (unsupplied : r.supply = []) (some_bytes : 0 < p.len) (apart : ∀ x ∈ s.stores, x.cfg ≠ r.cfg)
    (found : reqAt s r.id = some r0) :
    ∃ q : Req, reqAt (reqJudge s r) r.id = some q ∧ q.st = .moving ∧ (reqJudge s r).regs = s.regs ∧ (∀ a, memByte (reqJudge s r) a = memByte s a) ∧
      ∀ i < p.len, ∃ x ∈ q.pieces, CarriesByte comp hostc (p.off + i) (pa + i) x := by
  have clear : firstBad r = none := by
    unfold firstBad
    rw [one]
    simp [res]
  have carried (i : Nat) (inside : i < p.len) : ∃ x ∈ numberPieces (freshPieces s r), CarriesByte comp hostc (p.off + i) (pa + i) x := by
    obtain ⟨x, mem, carries⟩ := reqPieces_carries s r p one res inside
    obtain ⟨k, there⟩ := numberPieces_mem (freshPieces_carries s r owner unsupplied unanswered mem carries)
    exact ⟨_, there, carries.numbered k⟩
  have waits : ((numberPieces (freshPieces s r)).all fun p => p.stage == .done) = false := by
    obtain ⟨x, mem, stage, -⟩ := carried 0 some_bytes
    refine List.all_eq_false.mpr ⟨x, mem, ?_⟩
    rw [stage]
    decide
  let q : Req := { r with pieces := numberPieces (freshPieces s r), st := .moving }
  have judged : reqJudge s r = drawn (tagFollow (reqPut s q) r (reqTag s r)) := by
    unfold reqJudge
    dsimp only
    rw [clear]
    dsimp only
    rw [owner]
    dsimp only
    rw [resupply_none s r 0 r.len apart unsupplied]
    simp only [unanswered, List.nil_append, waits, unsupplied, List.isEmpty_nil, if_true, Bool.false_eq_true, if_false, landBytes_nothing, q, owner]
  obtain ⟨_, _, only⟩ := tagFollow_only (reqPut s q) r (reqTag s r)
  rw [judged, only]
  exact ⟨q, (reqAt_congr rfl _).trans (reqAt_reqPut q found rfl), rfl, rfl, fun a => rfl, carried⟩

theorem AtWell.moves {s : State} {id : Nat} {r : Req} {p : ReqPart} (h : AtWell s id r p) {pa tag : Nat} {comp hostc win : Bool}
    (known : wellKnows s r p = some (.ok pa comp hostc win)) (owner : r.owner = .tag tag) (unanswered : r.pieces = []) (unsupplied : r.supply = []) (some_bytes : 0 < p.len)
    (apart : ∀ x ∈ s.stores, x.cfg ≠ r.cfg) :
    ∃ t : State, ∃ (q : Req), exec (.wellTranslate id) s = .next t ∧ reqAt t id = some q ∧ q.st = .moving ∧ t.regs = s.regs ∧ (∀ a, memByte t a = memByte s a) ∧
      ∀ i < p.len, ∃ x ∈ q.pieces, x.stage = .waiting ∧ x.comp = comp ∧ x.hostc = hostc ∧ x.off ≤ p.off + i ∧ p.off + i < x.off + x.len ∧
        x.pa + (p.off + i - x.off) = pa + i := by
  let r1 : Req := { r with parts := [{ p with res := some (.ok pa comp hostc win), leaf := leafNow s r.bh r.vf p.va }] }
  have found : reqAt s r1.id = some r := (congrArg (reqAt s) h.numbered).trans h.found
  obtain ⟨q, there, st, regs, mem, carried⟩ := reqJudge_moves s r1 r _ rfl rfl owner unanswered unsupplied some_bytes apart found
  rw [h.exec_eq, h.takes_known known]
  refine ⟨_, q, rfl, ?_, st, regs, mem, carried⟩
  rw [← h.numbered]
  exact there

end Sys2Proof.Machine
end

section
/-! SUPPORT. A completed walk fills the buffer of its well (R31 to R34), and what is refused or parked comes back, or is given up (R36 to R38). -/

namespace Sys2Proof.Machine

open Host

theorem unitPoison_steady {s t : State} (u : State) (vf pa : Nat) (h : Steady s t) : Steady s (unitPoison u t vf pa) := by
  unfold unitPoison
  dsimp only
  split
  · exact h.trans (postEvent_steady _ _ _ _ _ _ _)
  · exact h

theorem walkMeet_steady (vf va mask : Nat) (k lv table : Nat) (s : State) : Steady s (walkMeet vf va mask k lv table s) := by
  induction k generalizing lv table s with
  | zero => exact .refl s
  | succ k ih =>
    have met := ownMeet_steady s vf true (table + 8 * tableIndex va lv) 8
    unfold walkMeet
    dsimp only
    split
    · exact unitPoison_steady s vf _ met
    · split
      · exact met
      · exact met.trans (ih _ _ _)

/-- What a completed walk does before the requests that wait for it are answered: it reads its tables, takes its entry of the miss-merge table away, and enters the
leaf that it has found. -/
def walkDone (s : State) (b vf vpage : Nat) : State :=
  let va := vpage * 2 ^ 14
  let root := vfRoot s vf
  let s0 := if bitAt root 0 then walkMeet vf va (tenstk s b) 3 1 (bits root 14 34 * 2 ^ 14) s else s
  let s1 := modBulk s0 b fun x => { x with mmt := x.mmt.filter fun e => e != (vf, vpage) }
  match walk s b vf va with | .leaf pte lv => tlbFill s1 b vf va pte lv | _ => s1

/-- The answers to requests leave the well's entries. -/
theorem pageWalkComplete_steady (s : State) (b vf vpage : Nat) (runs : bhRuns s b = true) (walks : ((getBulk s b).mmt.take 32).contains (vf, vpage) = true)
    (free : invalidating s b vf vpage (walkLevel (walk s b vf (vpage * 2 ^ 14))) = false) :
    ∃ t, exec (.pageWalkComplete b vf vpage) s = .next t ∧ Steady (walkDone s b vf vpage) t := by
  change ∃ t, execPageWalkComplete b vf vpage s = .next t ∧ _
  unfold execPageWalkComplete
  dsimp only
  rw [if_neg (by rw [runs, walks, free]; decide)]
  refine ⟨_, rfl, Steady.foldl (fun t id => ?_) _ (walkDone s b vf vpage)⟩
  split
  · exact .refl t
  · split
    · exact reqJudge_steady t _
    · exact reqPut_steady t _

theorem walkRead_steady (s : State) (b vf vpage : Nat) :
    Steady s (if bitAt (vfRoot s vf) 0 then walkMeet vf (vpage * 2 ^ 14) (tenstk s b) 3 1 (bits (vfRoot s vf) 14 34 * 2 ^ 14) s else s) := by
  split
  · exact walkMeet_steady _ _ _ _ _ _ s
  · exact .refl s

theorem walkDone_leaf (s : State) (b vf vpage : Nat) {pte lv : Nat} (found : walk s b vf (vpage * 2 ^ 14) = .leaf pte lv) :
    (getBulk (walkDone s b vf vpage) b).mmt = (getBulk s b).mmt.filter (fun e => e != (vf, vpage)) ∧
      ∃ e ∈ (getBulk (walkDone s b vf vpage) b).tlb, e.vf = vf ∧ e.level = lv ∧ e.vidx = vpage * 2 ^ 14 / 2 ^ levelShift lv ∧ e.pte = word pte := by
  obtain ⟨-, kept⟩ := walkRead_steady s b vf vpage
  unfold walkDone
  dsimp only
  rw [found]
  dsimp only
  generalize (if bitAt (vfRoot s vf) 0 then walkMeet vf (vpage * 2 ^ 14) (tenstk s b) 3 1 (bits (vfRoot s vf) 14 34 * 2 ^ 14) s else s) = u at kept ⊢
  unfold tlbFill
  dsimp only
  rw [getBulk_modBulk, if_pos rfl]
  have drawn_same (v : State) : getBulk (draw v).2 b = getBulk v b := rfl
  rw [drawn_same, getBulk_modBulk, if_pos rfl]
  exact ⟨congrArg (List.filter _) (kept b).2, _, List.mem_append_right _ (List.mem_singleton.mpr rfl), rfl, rfl, rfl, rfl⟩

theorem walkDone_fault (s : State) (b vf vpage : Nat) {reason lv : Nat} (found : walk s b vf (vpage * 2 ^ 14) = .fault reason lv) :
    (getBulk (walkDone s b vf vpage) b).mmt = (getBulk s b).mmt.filter (fun e => e != (vf, vpage)) ∧ (getBulk (walkDone s b vf vpage) b).tlb = (getBulk s b).tlb := by
  obtain ⟨-, kept⟩ := walkRead_steady s b vf vpage
  unfold walkDone
  dsimp only
  rw [found]
  dsimp only
  rw [getBulk_modBulk, if_pos rfl]
  exact ⟨congrArg (List.filter _) (kept b).2, (kept b).1⟩

theorem pageWalkComplete_fills (s : State) (b vf vpage : Nat) (runs : bhRuns s b = true) (walks : ((getBulk s b).mmt.take 32).contains (vf, vpage) = true)
    (free : invalidating s b vf vpage (walkLevel (walk s b vf (vpage * 2 ^ 14))) = false) {pte lv : Nat} (found : walk s b vf (vpage * 2 ^ 14) = .leaf pte lv) :
    ∃ t : State, exec (.pageWalkComplete b vf vpage) s = .next t ∧ (getBulk t b).mmt = (getBulk s b).mmt.filter (fun e => e != (vf, vpage)) ∧
      ∃ e ∈ (getBulk t b).tlb, e.vf = vf ∧ e.level = lv ∧ e.vidx = vpage * 2 ^ 14 / 2 ^ levelShift lv ∧ e.pte = word pte := by
  obtain ⟨t, step, -, kept⟩ := pageWalkComplete_steady s b vf vpage runs walks free
  obtain ⟨tlb, mmt⟩ := kept b
  refine ⟨t, step, ?_⟩
  rw [tlb, mmt]
  exact walkDone_leaf s b vf vpage found

theorem pageWalkComplete_faults (s : State) (b vf vpage : Nat) (runs : bhRuns s b = true) (walks : ((getBulk s b).mmt.take 32).contains (vf, vpage) = true)
    (free : invalidating s b vf vpage (walkLevel (walk s b vf (vpage * 2 ^ 14))) = false) {reason lv : Nat} (found : walk s b vf (vpage * 2 ^ 14) = .fault reason lv) :
    ∃ t : State, exec (.pageWalkComplete b vf vpage) s = .next t ∧ (getBulk t b).mmt = (getBulk s b).mmt.filter (fun e => e != (vf, vpage)) ∧
      (getBulk t b).tlb = (getBulk s b).tlb := by
  obtain ⟨t, step, -, kept⟩ := pageWalkComplete_steady s b vf vpage runs walks free
  obtain ⟨tlb, mmt⟩ := kept b
  refine ⟨t, step, ?_⟩
  rw [tlb, mmt]
  exact walkDone_fault s b vf vpage found

/-- A request as it is presented again (R37, R38, R418). -/
def presented (s : State) (r : Req) : Req :=
  { r with st := .atWell, ord := s.nextId, parts := r.parts.map (fun p => { p with res := none, leaf := 0 }),
           pieces := r.pieces.filter fun p => p.stage == .done && p.err.isNone }

theorem reqAt_reqAgain {s : State} {id : Nat} {r r0 : Req} (found : reqAt s id = some r0) (same : r.id = id) : reqAt (reqAgain s r) id = some (presented s r) :=
  (reqAt_congr rfl id).trans (reqAt_reqPut (presented s r) found same)

/-- A refused request comes back to its well behind those that wait there (R37). -/
theorem parkRefusedRetry_again (s : State) {id c : Nat} {r : Req} (found : reqAt s id = some r) (refused : r.st = .refused c) (due : c ≤ cycleOf s r.bh)
    (runs : bhRuns s r.bh = true) :
    ∃ t : State, ∃ (q : Req), exec (.parkRefusedRetry id) s = .next t ∧ reqAt t id = some q ∧ q.st = .atWell ∧ q.ord = s.nextId ∧ (∀ p ∈ q.parts, p.res = none) ∧
      t = { s with reqs := t.reqs, nextId := s.nextId + 1 } := by
  have step : exec (.parkRefusedRetry id) s = .next (reqAgain s r) := by
    change execParkRefusedRetry id s = _
    unfold execParkRefusedRetry
    rw [found]
    dsimp only
    rw [refused]
    dsimp only
    rw [if_pos ⟨due, runs⟩]
  refine ⟨_, _, step, reqAt_reqAgain found (reqAt_id found), rfl, rfl, fun p mem => ?_, rfl⟩
  obtain ⟨_, -, rfl⟩ := List.mem_map.mp mem
  rfl

/-- The well's error bit is set, and no other part of the state changes (R44). -/
def XbErrSet (s : State) (b : Nat) (t : State) : Prop := t = { s with regs := t.regs } ∧ regBits t b 0x10210 1 1 = 1

theorem xbErr_sets (s : State) (b : Nat) : XbErrSet s b (xbErr s b) :=
  ⟨regSetBits_only s b 0x10210 1 1 1, regBits_regSetBits_same s b 0x10210 1 1 1 (by omega)⟩

theorem fqctlReplay_closed (s : State) (b pid : Nat) (closed : parkOpen s b pid = false) : exec (.fqctlReplay b pid) s = .next (xbErr s b) := by
  change execFqctlReplay b pid s = _
  unfold execFqctlReplay
  rw [closed]
  rfl

theorem fqctlDrop_closed (s : State) (b pid : Nat) (closed : parkOpen s b pid = false) : exec (.fqctlDrop b pid) s = .next (xbErr s b) := by
  change execFqctlDrop b pid s = _
  unfold execFqctlDrop
  rw [closed]
  rfl

theorem fqctlBadOp_three (s : State) (b op pid : Nat) (three : op % 4 = 3) : exec (.fqctlBadOp b op pid) s = .next (xbErr s b) := by
  change execFqctlBadOp b op pid s = _
  unfold execFqctlBadOp
  rw [if_pos (.inl three)]

theorem parkClose_closes (s : State) (b pid : Nat) : parkOpen (parkClose s b pid) b pid = false := by
  unfold parkOpen parkClose
  rw [getBulk_modBulk, if_pos rfl]
  simp

/-- The well knows nothing of a part at once where its address is one, its VF has tables, and no entry of the buffer covers it (R29). -/
theorem partNow_none_iff (s : State) (b vf : Nat) (task : Option Nat) (write atomic : Bool) (va len : Nat) :
    partNow s b vf task write atomic va len = none ↔ va < 2 ^ 47 ∧ bitAt (vfRoot s vf) 0 = true ∧ tlbHit s b vf va = none := by
  unfold partNow
  split
  · simp
    omega
  · split
    · simp_all
    · split
      · simp_all
      · simp_all

theorem mem_sins {α : Type} (m : SMap α) (k : Nat) (v : α) {e : Nat × α} (h : e ∈ sins m k v) : e = (k, v) ∨ e ∈ m := by
  induction m with
  | nil => exact .inl (List.mem_singleton.mp h)
  | cons x m ih =>
    unfold sins at h
    split at h
    · exact List.mem_cons.mp h
    · split at h
      · exact (List.mem_cons.mp h).imp_right (List.mem_cons_of_mem x)
      · rcases List.mem_cons.mp h with here | later
        · exact .inr (List.mem_cons.mpr (.inl here))
        · exact (ih later).imp_right (List.mem_cons_of_mem x)

/-- What stands under a park id stands in its bulkhead, parked there. -/
theorem parkedUnder_mem (s : State) (b pid : Nat) {r : Req} (h : r ∈ parkedUnder s b pid) : r ∈ s.reqs ∧ r.bh = b := by
  have entered (rs : List Req) : ∀ m : SMap Req, ∀ e ∈ rs.foldl (fun m r => sins m r.ord r) m, e ∈ m ∨ e.2 ∈ rs := by
    induction rs with
    | nil => exact fun m e h => .inl h
    | cons x rs ih =>
      intro m e h
      rcases ih _ e h with old | new
      · rcases mem_sins m x.ord x old with rfl | there
        · exact .inr List.mem_cons_self
        · exact .inl there
      · exact .inr (List.mem_cons_of_mem _ new)
  unfold parkedUnder at h
  obtain ⟨e, mem, rfl⟩ := List.mem_map.mp h
  rcases entered _ [] e mem with none | there
  · cases none
  · obtain ⟨there, stands⟩ := List.mem_filter.mp there
    exact ⟨there, beq_iff_eq.mp (Bool.and_eq_true_iff.mp stands).1⟩

end Sys2Proof.Machine
end

section
/-! SUPPORT. Software replays or drops what is parked (R38), and an invalidation takes its entries away and counts (R34, R40, R44). -/

namespace Sys2Proof.Machine

open Host

/-- A request alone under a park id is walked for again where its page is unknown still (R38). -/
theorem fqctlReplay_walks (s : State) (b pid : Nat) {r : Req} {p : ReqPart} (opened : parkOpen s b pid = true) (alone : parkedUnder s b pid = [r])
    (found : reqAt s r.id = some r) (one : r.parts = [p]) (unknown : wellKnows s r p = none) (runs : bhRuns s b = true) (room : (getBulk s b).mmt.length < 1024)
    (others : ∀ q ∈ s.reqs, q.bh = b → q.st ≠ .atWell ∧ q.st ≠ .walking) :
    ∃ t : State, ∃ (q : Req), exec (.fqctlReplay b pid) s = .next t ∧ parkOpen t b pid = false ∧ reqAt t r.id = some q ∧ q.st = .walking := by
  have here : r.bh = b := (parkedUnder_mem s b pid (by rw [alone]; exact List.mem_singleton.mpr rfl)).2
  have bulk := getBulk_modBulk s b b fun x => { x with parks := x.parks.filter fun p => p.1 != pid }
  rw [if_pos rfl] at bulk
  have closed := parkClose_closes s b pid
  let u := reqAgain (parkClose s b pid) r
  let v := tagFollow u r (reqTag u r)
  let q := presented (parkClose s b pid) r
  obtain ⟨_, _, only⟩ := tagFollow_only u r (reqTag u r)
  have reqs : v.reqs = s.reqs.map fun x => if x.id == q.id then q else x := by
    change (tagFollow u r (reqTag u r)).reqs = _
    rw [only]
    rfl
  have regs : v.regs = s.regs := by
    change (tagFollow u r (reqTag u r)).regs = _
    rw [only]
    rfl
  have well : getBulk v b = getBulk (parkClose s b pid) b := by
    change getBulk (tagFollow u r (reqTag u r)) b = _
    rw [only]
    rfl
  have stands : reqAt v r.id = some q := by
    have again : reqAt u r.id = some q := reqAt_reqAgain ((reqAt_congr rfl r.id).trans found) rfl
    change reqAt (tagFollow u r (reqTag u r)) r.id = _
    rw [only]
    exact again
  have nobody (x : Req) (mem : x ∈ v.reqs) (at_b : x.bh = b) (waits : x.st = .atWell ∨ x.st = .walking) : x = q := by
    rw [reqs] at mem
    obtain ⟨y, old, e⟩ := List.mem_map.mp mem
    split at e
    · exact e.symm
    · subst e
      obtain ⟨a, w⟩ := others y old at_b
      exact absurd waits (by simp [a, w])
  have at_well : AtWell v r.id q { p with res := none, leaf := 0 } :=
    { found := stands
      stands := rfl
      runs := by
        change bhRuns v r.bh = true
        rw [here, ← runs]
        unfold bhRuns bhState regBits
        rw [regGet_congr regs b 0x20008, regGet_congr regs b 0x20010]
      first := by
        unfold behind
        refine List.any_eq_false.mpr fun x mem => ?_
        simp only [Bool.and_eq_true, decide_eq_true_eq, beq_iff_eq, Bool.or_eq_true]
        rintro ⟨⟨⟨⟨before, -⟩, at_b⟩, waits⟩, -⟩
        have same := nobody x mem (at_b.trans here) waits
        rw [same] at before
        exact Nat.lt_irrefl _ before
      one := by
        change r.parts.map _ = _
        rw [one]
        rfl
      room := by
        change (getBulk v r.bh).mmt.length < 1024
        rw [here, well]
        unfold parkClose
        rw [bulk]
        exact room
      turn := fun x mem at_b waits before => by
        have same := nobody x mem (at_b.trans here) (.inl waits)
        rw [same] at before
        exact absurd before (Nat.lt_irrefl _) }
  have still : wellKnows v q { p with res := none, leaf := 0 } = none := by
    obtain ⟨small, tables, missed⟩ := (partNow_none_iff s r.bh r.vf r.task r.write r.atom.isSome p.va p.len).mp unknown
    refine (partNow_none_iff v r.bh r.vf r.task r.write r.atom.isSome p.va p.len).mpr ⟨small, ?_, ?_⟩
    · unfold vfRoot at tables ⊢
      rw [regGet_congr regs]
      exact tables
    · unfold tlbHit at missed ⊢
      rw [here] at missed ⊢
      rw [well]
      unfold parkClose
      rw [bulk]
      exact missed
  obtain ⟨taken, -⟩ := at_well.takes_unknown still
  have step : exec (.fqctlReplay b pid) s = .next (wellTake v q) := by
    change execFqctlReplay b pid s = _
    unfold execFqctlReplay
    rw [opened, alone]
    simp only [Bool.not_true, Bool.false_eq_true, if_false, List.foldl_cons, List.foldl_nil]
    change Outcome.next (match reqAt v r.id with | some q => if bhRuns v b then wellTake v q else v | none => v) = _
    rw [stands]
    have runs' := at_well.runs
    rw [show q.bh = b from here] at runs'
    dsimp only
    rw [runs']
    rfl
  refine ⟨_, { q with parts := [{ p with res := none, leaf := 0 }], st := .walking }, step, ?_, ?_, rfl⟩
  · rw [taken]
    change (getBulk (modBulk v r.bh fun x => { x with mmt := x.mmt ++ missing v q }) b).parks.any _ = false
    rw [here, getBulk_modBulk, if_pos rfl]
    change (getBulk v b).parks.any _ = false
    rw [well]
    exact closed
  · rw [taken]
    exact reqAt_reqPut _ ((reqAt_congr (modBulk_reqs _ _ _) r.id).trans stands) rfl

/-- A load alone under a park id completes with XLATE_FAULT (R38). -/
theorem fqctlDrop_fails (s : State) (b pid : Nat) {r : Req} {tag : Nat} (opened : parkOpen s b pid = true) (alone : parkedUnder s b pid = [r])
    (found : reqAt s r.id = some r) (owner : r.owner = .tag tag) (unhurt : r.err = none) :
    ∃ t : State, ∃ (q : Req), exec (.fqctlDrop b pid) s = .next t ∧ parkOpen t b pid = false ∧ reqAt t r.id = some q ∧ q.st = .finished ∧
      q.err = some (newError s (wellSrc b) 0x09).1 := by
  let x := newError (parkClose s b pid) (wellSrc b) 0x09
  let q : Req := { r with owner := .tag tag, st := .finished, err := some x.1 }
  have stands : reqAt (reqPut x.2 q) r.id = some q := reqAt_reqPut q ((reqAt_congr rfl r.id).trans found) rfl
  have failed : reqFail x.2 r x.1 = reqPut x.2 q := by
    unfold reqFail
    rw [owner]
    dsimp only
    rw [unhurt]
    change reqSettle (reqPut x.2 q) r.id = _
    unfold reqSettle
    rw [stands]
    dsimp only
    rw [if_neg (by simp [q])]
    rfl
  have step : exec (.fqctlDrop b pid) s = .next (reqPut x.2 q) := by
    change execFqctlDrop b pid s = _
    unfold execFqctlDrop
    rw [opened, alone]
    simp only [Bool.not_true, Bool.false_eq_true, if_false, List.foldl_cons, List.foldl_nil]
    exact congrArg Outcome.next failed
  exact ⟨_, q, step, parkClose_closes s b pid, stands, rfl, rfl⟩

end Sys2Proof.Machine
end

section
/-! SUPPORT. An invalidation takes its entries away and counts when it is complete (R34, R40, R44); the statement about translation. -/

namespace Sys2Proof.Machine

open Host

theorem reqAgain_fold_only (l : List Req) (s : State) : ∃ rs n, l.foldl reqAgain s = { s with reqs := rs, nextId := n } := by
  induction l generalizing s with
  | nil => exact ⟨_, _, rfl⟩
  | cons r l ih =>
    obtain ⟨rs, n, e⟩ := ih (reqAgain s r)
    exact ⟨rs, n, e⟩

/-- The queue of invalidations without those at its head that only set the error bit (R44). -/
def realInvals (s : State) (b : Nat) : List Inval := (getBulk s b).invals.dropWhile fun v => v.kind == 3

/-- What the well has set aside when it turns to the next invalidation. -/
def invalSkip (s : State) (b : Nat) : State :=
  if (realInvals s b).length < (getBulk s b).invals.length then xbErr (modBulk s b fun x => { x with invals := realInvals s b }) b else s

theorem invalSkip_bulk (s : State) (b : Nat) : getBulk (invalSkip s b) b = { getBulk s b with invals := realInvals s b } := by
  unfold invalSkip
  split
  · have same (u : State) : getBulk (xbErr u b) b = getBulk u b := by
      unfold getBulk xbErr regSetBits
      rw [regPut_bhs]
    rw [same, getBulk_modBulk, if_pos rfl]
  · next whole =>
    have all : realInvals s b = (getBulk s b).invals :=
      (List.dropWhile_suffix _).eq_of_length_le (Nat.le_of_not_lt whole)
    rw [all]

theorem invalSkip_count (s : State) (b : Nat) : regBits (invalSkip s b) b 0x10210 16 16 = regBits s b 0x10210 16 16 := by
  unfold invalSkip
  split
  · exact regBits_regSetBits_field _ b 0x10210 1 1 1 b 16 16 (by omega)
  · rfl

/-- The next invalidation begins: the entries that it covers go, and XBSTAT shows it (R34, R40). -/
theorem invalBegin_begins (s : State) (b : Nat) {v : Inval} {vs : List Inval} (next : realInvals s b = v :: vs) :
    ∃ waits, (getBulk (invalBegin s b) b).invals = { v with begun := true, waitFor := waits } :: vs ∧
      (getBulk (invalBegin s b) b).tlb = ((getBulk s b).tlb.filter fun t => !invalHits v t.vf (t.vidx * 2 ^ levelShift t.level / 2 ^ 14) t.level) ∧
      regBits (invalBegin s b) b 0x10210 0 1 = 1 ∧ regBits (invalBegin s b) b 0x10210 16 16 = regBits s b 0x10210 16 16 := by
  let waits := (s.reqs.filter fun r => r.bh == b && r.st == .moving && invalTouches v r).map fun r => r.id
  let s1 := (s.reqs.filter fun r => r.bh == b && r.st == .walking && invalTouches v r).foldl reqAgain (invalSkip s b)
  let f (x : Bulk) : Bulk := { x with
    tlb := (x.tlb.filter fun t => !invalHits v t.vf (t.vidx * 2 ^ levelShift t.level / 2 ^ 14) t.level), invals := { v with begun := true, waitFor := waits } :: vs }
  have begun : invalBegin s b = regSetBits (modBulk s1 b f) b 0x10210 0 1 1 := by
    unfold invalBegin
    change (match realInvals s b with | [] => _ | v :: vs => _) = _
    rw [next]
    rfl
  obtain ⟨_, _, only⟩ := reqAgain_fold_only (s.reqs.filter fun r => r.bh == b && r.st == .walking && invalTouches v r) (invalSkip s b)
  have bulk : getBulk (invalBegin s b) b = f (getBulk (invalSkip s b) b) := by
    have kept : getBulk s1 b = getBulk (invalSkip s b) b := by
      change getBulk (List.foldl reqAgain (invalSkip s b) _) b = _
      rw [only]
      rfl
    have outside (u : State) : getBulk (regSetBits u b 0x10210 0 1 1) b = getBulk u b := by
      unfold getBulk regSetBits
      rw [regPut_bhs]
    rw [begun, outside, getBulk_modBulk, if_pos rfl, kept]
  have regs : (modBulk s1 b f).regs = (invalSkip s b).regs := by
    rw [modBulk_regs]
    change (List.foldl reqAgain (invalSkip s b) _).regs = _
    rw [only]
  refine ⟨waits, ?_, ?_, ?_, ?_⟩
  · rw [bulk]
  · rw [bulk, invalSkip_bulk]
  · rw [begun, regBits_regSetBits_same _ b 0x10210 0 1 1 (by omega)]
    rfl
  · rw [begun, regBits_regSetBits_field _ b 0x10210 0 1 1 b 16 16 (by omega), ← invalSkip_count s b]
    unfold regBits
    rw [regGet_congr regs]

/-- None is left: XBSTAT shows none (R44). -/
theorem invalBegin_idle (s : State) (b : Nat) (none : realInvals s b = []) :
    (getBulk (invalBegin s b) b).invals = [] ∧ (getBulk (invalBegin s b) b).tlb = (getBulk s b).tlb ∧
      ((getBulk s b).invals ≠ [] → regBits (invalBegin s b) b 0x10210 1 1 = 1) ∧ regBits (invalBegin s b) b 0x10210 16 16 = regBits s b 0x10210 16 16 := by
  have begun : invalBegin s b = regSetBits (invalSkip s b) b 0x10210 0 1 0 := by
    unfold invalBegin
    change (match realInvals s b with | [] => regSetBits (invalSkip s b) b 0x10210 0 1 0 | v :: vs => _) = _
    rw [none]
  have bulk : getBulk (invalBegin s b) b = getBulk (invalSkip s b) b := by
    rw [begun]
    unfold getBulk regSetBits
    rw [regPut_bhs]
  rw [bulk, invalSkip_bulk, none, begun]
  refine ⟨rfl, rfl, fun full => ?_, (regBits_regSetBits_field _ b 0x10210 0 1 0 b 16 16 (by omega)).trans (invalSkip_count s b)⟩
  rw [regBits_regSetBits_field _ b 0x10210 0 1 0 b 1 1 (by omega)]
  unfold invalSkip
  rw [none, if_pos (show ([] : List Inval).length < _ from List.length_pos_iff.mpr full)]
  exact (xbErr_sets _ b).2

/-- What an invalidation that arrives first does is begin at once (R44). -/
theorem xbinvPush_first (s : State) (b kind vf vpage : Nat) (idle : (getBulk s b).invals = []) :
    xbinvPush s b kind vf vpage = some (invalBegin (modBulk s b fun x =>
      { x with invals := x.invals ++ [{ kind := kind, vf := vf, vpage := vpage, begun := false, waitFor := [] }] }) b) := by
  unfold xbinvPush
  dsimp only
  rw [idle]
  rfl

/-- An invalidation that arrives first is in progress, and has taken its entries away. -/
theorem xbinvPush_begins (s : State) (b kind vf vpage : Nat) (idle : (getBulk s b).invals = []) (real : kind ≠ 3) :
    ∃ t, xbinvPush s b kind vf vpage = some t ∧ (regBits t b 0x10210 0 1 = 1 ∧ ∃ v, (getBulk t b).invals = [v] ∧ v.begun = true) ∧
      ∀ e ∈ (getBulk t b).tlb, invalHits { kind := kind, vf := vf, vpage := vpage, begun := false, waitFor := [] } e.vf (e.vidx * 2 ^ levelShift e.level / 2 ^ 14) e.level = false := by
  let v : Inval := { kind := kind, vf := vf, vpage := vpage, begun := false, waitFor := [] }
  let u := modBulk s b fun x => { x with invals := x.invals ++ [v] }
  have queued : (getBulk u b).invals = [v] := by
    change (getBulk (modBulk s b fun x => { x with invals := x.invals ++ [v] }) b).invals = _
    rw [getBulk_modBulk, if_pos rfl, idle]
    rfl
  have next : realInvals u b = [v] := by
    unfold realInvals
    rw [queued]
    simp [v, real]
  obtain ⟨waits, invals, tlb, busy, -⟩ := invalBegin_begins u b next
  refine ⟨_, xbinvPush_first s b kind vf vpage idle, ⟨busy, _, invals, rfl⟩, fun e mem => ?_⟩
  change e ∈ (getBulk (invalBegin u b) b).tlb at mem
  rw [tlb] at mem
  simpa using (List.mem_filter.mp mem).2

/-- An invalidation that finds others before it waits (R44). -/
theorem xbinvPush_waits (s : State) (b kind vf vpage : Nat) (busy : 0 < (getBulk s b).invals.length) (room : (getBulk s b).invals.length < 9) :
    xbinvPush s b kind vf vpage = some (modBulk s b fun x =>
      { x with invals := x.invals ++ [{ kind := kind, vf := vf, vpage := vpage, begun := false, waitFor := [] }] }) := by
  have full : (getBulk s b).invals.isEmpty = false := List.isEmpty_eq_false_iff.mpr (List.length_pos_iff.mp busy)
  unfold xbinvPush
  dsimp only
  rw [if_neg (by omega), full]
  rfl

theorem xbinvPush_full (s : State) (b kind vf vpage : Nat) (full : 9 ≤ (getBulk s b).invals.length) : xbinvPush s b kind vf vpage = none := by
  unfold xbinvPush
  exact if_pos full

/-- A leaf's own virtual index is that of every page of it. -/
theorem levelShift_page (vidx lv : Nat) : vidx * 2 ^ levelShift lv / 2 ^ 14 * 2 ^ 14 / 2 ^ levelShift (if lv = 0 then 3 else lv) = vidx := by
  unfold levelShift
  by_cases h1 : lv = 1
  · subst h1
    simp
    omega
  · by_cases h2 : lv = 2
    · subst h2
      simp
      omega
    · by_cases h0 : lv = 0
      · subst h0
        simp
      · simp [h0, h1, h2]

theorem levelShift_zero (lv : Nat) : levelShift (if lv = 0 then 3 else lv) = levelShift lv := by
  split
  · next h => rw [h]; rfl
  · rfl

/-- A completed invalidation is counted, and the next one that is real begins (R40, R44). -/
theorem invalDone_counts (s : State) (b : Nat) {v : Inval} {vs : List Inval} (head : (getBulk s b).invals = v :: vs) :
    (getBulk (invalBegin (invalDone s b) b) b).invals.length = (vs.dropWhile fun x => x.kind == 3).length ∧
      regBits (invalBegin (invalDone s b) b) b 0x10210 16 16 = (regBits s b 0x10210 16 16 + 1) % 2 ^ 16 := by
  have rest : (getBulk (invalDone s b) b).invals = vs := by
    unfold invalDone
    dsimp only
    have outside (u : State) (n : Nat) : getBulk (regSetBits u b 0x10210 16 16 n) b = getBulk u b := by
      unfold getBulk regSetBits
      rw [regPut_bhs]
    rw [outside, getBulk_modBulk, if_pos rfl, head]
    rfl
  have counted : regBits (invalDone s b) b 0x10210 16 16 = (regBits s b 0x10210 16 16 + 1) % 2 ^ 16 := by
    unfold invalDone
    dsimp only
    rw [regBits_regSetBits_same _ b 0x10210 16 16 _ (by omega)]
    unfold regBits
    rw [regGet_congr (modBulk_regs s b _)]
  have real : realInvals (invalDone s b) b = vs.dropWhile fun x => x.kind == 3 := by
    unfold realInvals
    rw [rest]
  cases next : vs.dropWhile fun x => x.kind == 3 with
  | nil =>
    obtain ⟨invals, -, -, count⟩ := invalBegin_idle (invalDone s b) b (real.trans next)
    rw [invals, count]
    exact ⟨rfl, counted⟩
  | cons w ws =>
    obtain ⟨_, invals, -, -, count⟩ := invalBegin_begins (invalDone s b) b (real.trans next)
    rw [invals, count]
    exact ⟨rfl, counted⟩

end Sys2Proof.Machine
end

section
/-! SUPPORT. The statement about translation, from what each step of the well does. -/

namespace Sys2Proof.Machine

open Host

/-- An invalidation that finds a place goes into the queue, whatever its KIND (R44). -/
theorem xbinvPush_next {s t : State} {b kind vf vpage : Nat} (push : xbinvPush s b kind vf vpage = some t) :
    (Outcome.next ((xbinvPush s b kind vf vpage).getD s) : Outcome State Fault Refusal) = .next t := by
  rw [push]
  rfl

/-- The clauses about KIND 0 to 3 of an invalidation that arrives first. -/
theorem xbinv_first (s : State) (b vf vpage : Nat) (idle : (getBulk s b).invals = []) :
    let begun (t : State) : Prop := regBits t b 0x10210 0 1 = 1 ∧ ∃ v, (getBulk t b).invals = [v] ∧ v.begun = true
    (∃ t : State, exec (.xbinvVf b vf) s = .next t ∧ begun t ∧ ∀ e ∈ (getBulk t b).tlb, e.vf ≠ vf) ∧
      (∃ t : State, exec (.xbinvVa b vf vpage) s = .next t ∧ begun t ∧ ∀ e ∈ (getBulk t b).tlb, ¬(e.vf = vf ∧ e.vidx = vpage * 2 ^ 14 / 2 ^ levelShift e.level)) ∧
      (∃ t : State, exec (.xbinvAll b) s = .next t ∧ begun t ∧ (getBulk t b).tlb = []) ∧
      (∃ t : State, exec (.xbinvBad b) s = .next t ∧ (getBulk t b).invals = [] ∧ regBits t b 0x10210 1 1 = 1 ∧ (getBulk t b).tlb = (getBulk s b).tlb) := by
  refine ⟨?_, ?_, ?_, ?_⟩
  · obtain ⟨t, push, begun, gone⟩ := xbinvPush_begins s b 0 vf 0 idle (by decide)
    refine ⟨t, xbinvPush_next push, begun, fun e mem same => ?_⟩
    have := gone e mem
    simp [invalHits, same] at this
  · obtain ⟨t, push, begun, gone⟩ := xbinvPush_begins s b 1 vf vpage idle (by decide)
    refine ⟨t, xbinvPush_next push, begun, fun e mem same => ?_⟩
    have covered := gone e mem
    unfold invalHits at covered
    dsimp only at covered
    rw [levelShift_page e.vidx e.level, levelShift_zero, same.1, ← same.2] at covered
    simp at covered
  · obtain ⟨t, push, begun, gone⟩ := xbinvPush_begins s b 2 0 0 idle (by decide)
    refine ⟨t, xbinvPush_next push, begun, List.eq_nil_iff_forall_not_mem.mpr fun e mem => ?_⟩
    have := gone e mem
    simp [invalHits] at this
  · have push := xbinvPush_first s b 3 0 0 idle
    let u := modBulk s b fun x => { x with invals := x.invals ++ [{ kind := 3, vf := 0, vpage := 0, begun := false, waitFor := [] }] }
    have queued : getBulk u b = { getBulk s b with invals := [{ kind := 3, vf := 0, vpage := 0, begun := false, waitFor := [] }] } := by
      change getBulk (modBulk s b _) b = _
      rw [getBulk_modBulk, if_pos rfl, idle]
      rfl
    have none : realInvals u b = [] := by
      unfold realInvals
      rw [queued]
      rfl
    obtain ⟨invals, tlb, error, -⟩ := invalBegin_idle u b none
    refine ⟨invalBegin u b, xbinvPush_next push, invals, error ?_, ?_⟩
    · rw [queued]
      exact List.cons_ne_nil _ _
    · rw [tlb, queued]

/-- Settles O43: each step of the well is followed through the lemma that says what it does. -/
theorem translationServed : Obligations.TranslationServed := by
  unfold Obligations.TranslationServed
  refine ⟨fun s id r p h => ⟨fun unknown => ?_, ?_, ?_, ?_⟩, fun s b vf vpage runs walks free => ⟨?_, ?_⟩, ?_, fun s b pid => ⟨?_, ?_, ?_, ?_, ?_⟩,
    fun s b vf vpage => ⟨?_, ?_, ?_, ?_⟩⟩
  · obtain ⟨taken, joined⟩ := h.takes_unknown unknown
    refine ⟨_, { r with parts := [{ p with res := none, leaf := 0 }], st := .walking }, h.exec_eq, ?_, rfl, ?_, ?_⟩
    · rw [taken]
      exact reqAt_reqPut _ ((reqAt_congr (modBulk_reqs _ _ _) id).trans h.found) h.numbered
    · rw [taken]
      have bulk := getBulk_modBulk s r.bh r.bh fun x => { x with mmt := x.mmt ++ missing s r }
      rw [if_pos rfl] at bulk
      change (getBulk (modBulk s r.bh fun x => { x with mmt := x.mmt ++ missing s r }) r.bh).mmt.contains _ = true
      rw [bulk]
      exact joined
    · rw [taken]
      rfl
  · exact fun pa comp hostc win tag known owner unanswered unsupplied some_bytes apart => h.moves known owner unanswered unsupplied some_bytes apart
  · exact fun b i reason lv va known agent hard here thawed whole clean => h.freezes known agent hard here thawed whole clean
  · exact fun reason lv va known soft room clean => h.parks known soft room clean
  · exact fun pte lv leaf => pageWalkComplete_fills s b vf vpage runs walks free leaf
  · exact fun reason lv fault => pageWalkComplete_faults s b vf vpage runs walks free fault
  · exact fun s id c r found refused due runs => parkRefusedRetry_again s found refused due runs
  · exact fun closed => ⟨_, fqctlReplay_closed s b pid closed, xbErr_sets s b⟩
  · exact fun closed => ⟨_, fqctlDrop_closed s b pid closed, xbErr_sets s b⟩
  · exact fun op three => ⟨_, fqctlBadOp_three s b op pid three, xbErr_sets s b⟩
  · exact fun r p opened alone found one unknown runs room others => fqctlReplay_walks s b pid opened alone found one unknown runs room others
  · exact fun r tag opened alone found owner unhurt => fqctlDrop_fails s b pid opened alone found owner unhurt
  · exact fun idle => xbinv_first s b vf vpage idle
  · intro busy room
    have push := xbinvPush_waits s b 0 vf 0 busy room
    refine ⟨_, xbinvPush_next push, modBulk_regs _ _ _, ?_, ?_⟩
    · rw [getBulk_modBulk, if_pos rfl]
    · rw [getBulk_modBulk, if_pos rfl]
      exact ⟨_, rfl, rfl⟩
  · intro full
    have ignored (kind v p : Nat) : Outcome.next ((xbinvPush s b kind v p).getD s) = (Outcome.next s : Outcome State Fault Refusal) := by
      rw [xbinvPush_full s b kind v p full]
      rfl
    exact ⟨ignored 0 vf 0, ignored 1 vf vpage, ignored 2 0 0, ignored 3 0 0⟩
  · intro v vs head begins waits clear runs
    refine ⟨invalBegin (invalDone s b) b, ?_, invalDone_counts s b head⟩
    change execXbinvComplete b s = _
    unfold execXbinvComplete
    rw [head]
    dsimp only
    rw [if_pos ⟨begins, waits, clear, runs⟩]

end Sys2Proof.Machine
end

section
/-! SUPPORT. Accounts: what an entry into or a departure from a quantum table, a budget and the fold of an energy delta change (R367, R390, R425). -/

namespace Sys2Proof.Machine

open Host

/-- t differs from s at most in memory, registers, event numbers, bulkheads, RCBs, the remainders of energy, and the marks of configurations. -/
def OnlyAccounts (s t : State) : Prop :=
  ∃ m b e r v h rc n c, t = { s with mem := m, bmeta := b, ecc := e, regs := r, evSeq := v, bhs := h, rcbs := rc, nrgRem := n, cfgs := c }

theorem OnlyAccounts.refl (s : State) : OnlyAccounts s s := ⟨_, _, _, _, _, _, _, _, _, rfl⟩

theorem OnlyAccounts.trans {s t u : State} (h : OnlyAccounts s t) (g : OnlyAccounts t u) : OnlyAccounts s u := by
  obtain ⟨_, _, _, _, _, _, _, _, _, rfl⟩ := h
  obtain ⟨_, _, _, _, _, _, _, _, _, rfl⟩ := g
  exact ⟨_, _, _, _, _, _, _, _, _, rfl⟩

theorem OnlyAccess.accounts {s t : State} (h : OnlyAccess s t) : OnlyAccounts s t := by
  obtain ⟨_, _, _, _, _, _, rfl⟩ := h
  exact ⟨_, _, _, _, _, _, _, _, _, rfl⟩

theorem OnlyAccounts.foldl {α : Type} {f : State → α → State} (step : ∀ s x, OnlyAccounts s (f s x)) (l : List α) (s : State) : OnlyAccounts s (l.foldl f s) := by
  induction l generalizing s with
  | nil => exact .refl s
  | cons x l ih => exact (step s x).trans (ih _)

theorem OnlyAccounts.slots {s t : State} (h : OnlyAccounts s t) : t.slots = s.slots := by
  obtain ⟨_, _, _, _, _, _, _, _, _, rfl⟩ := h
  rfl

theorem OnlyAccounts.pes {s t : State} (h : OnlyAccounts s t) : t.pes = s.pes := by
  obtain ⟨_, _, _, _, _, _, _, _, _, rfl⟩ := h
  rfl

theorem OnlyAccounts.saved {s t : State} (h : OnlyAccounts s t) : t.saved = s.saved := by
  obtain ⟨_, _, _, _, _, _, _, _, _, rfl⟩ := h
  rfl

theorem regPut_accounts (s : State) (b off : Nat) (v : Word) : OnlyAccounts s (regPut s b off v) := by
  obtain ⟨r, e⟩ := regPut_state s b off v
  rw [e]
  exact ⟨_, _, _, _, _, _, _, _, _, rfl⟩

theorem budgetMove_accounts (s : State) (addr : Nat) (kind : BudgetKind) (up down : Nat) : OnlyAccounts s (budgetMove s addr kind up down) :=
  ⟨_, _, _, _, _, _, _, _, _, rfl⟩

theorem nrgRem_accounts (s : State) (n : SMap Nat) : OnlyAccounts s { s with nrgRem := n } := ⟨_, _, _, _, _, _, _, _, _, rfl⟩

theorem rcbRetire_accounts (s : State) (hit : Rcb → Bool) : OnlyAccounts s (rcbRetire s hit) := ⟨_, _, _, _, _, _, _, _, _, rfl⟩

theorem rcbUse_accounts (s : State) (addr : Nat) : OnlyAccounts s (rcbUse s addr) := by
  unfold rcbUse rcbActivate
  have entered (u : State) : OnlyAccounts u (enterRcb true 4 u addr) := by
    obtain ⟨r, e⟩ := enterRcb_rcbs true 4 u addr
    rw [e]
    exact ⟨_, _, _, _, _, _, _, _, _, rfl⟩
  refine OnlyAccounts.trans ?_ (entered _)
  split
  · exact (ownMeet_access s 0 false 0 128).accounts
  · exact (rcbMeet_access 4 s addr).accounts

theorem ownWord_accounts (s : State) (vf pa : Nat) : OnlyAccounts s (ownWord s vf pa).1 := (ownMeet_access s vf true pa 8).accounts

theorem memPutLe_accounts (s : State) (pa n v : Nat) : OnlyAccounts s (memPutLe s pa n v) := (memPutLe_access s pa n v).accounts

theorem vfEnter_accounts (s : State) (vf : Nat) : OnlyAccounts s (vfEnter s vf) := by
  unfold vfEnter
  dsimp only
  split
  · exact .refl s
  · refine OnlyAccounts.trans ?_ (regPut_accounts _ _ _ _)
    refine OnlyAccounts.trans ?_ (nrgRem_accounts _ _)
    refine OnlyAccounts.trans ?_ (ownWord_accounts _ vf _)
    exact (rcbUse_accounts s _).trans (regPut_accounts _ _ _ _)

theorem vfLeave_accounts (s : State) (vf nrg : Nat) : OnlyAccounts s (vfLeave s vf nrg) := by
  unfold vfLeave
  dsimp only
  split
  · exact .refl s
  · refine OnlyAccounts.trans ?_ (rcbRetire_accounts _ _)
    refine OnlyAccounts.trans ?_ (regPut_accounts _ _ _ _)
    refine OnlyAccounts.trans ?_ (memPutLe_accounts _ _ _ _)
    refine OnlyAccounts.trans ?_ (ownWord_accounts _ vf _)
    split
    · exact memPutLe_accounts _ _ _ _
    · exact .refl s

theorem tablesChanged_accounts (s s1 : State) (b : Nat) (vfs : List Nat) : OnlyAccounts s1 (tablesChanged s s1 b vfs) := by
  unfold tablesChanged
  dsimp only
  refine OnlyAccounts.trans (regPut_accounts _ _ _ _) (OnlyAccounts.foldl (fun t vf => ?_) vfs _)
  split
  · exact vfLeave_accounts t vf _
  · split
    · exact vfEnter_accounts t vf
    · exact .refl t

/-- A change of an entry of a quantum table touches accounts alone (R390, R391). -/
theorem quantSet_accounts (s : State) (b sl e : Nat) (v : Word) : OnlyAccounts s (quantSet s b sl e v) := by
  unfold quantSet
  dsimp only
  generalize (quantVf (quantWord s b sl e) ++ _) = vfs
  generalize List.filter (fun x => holdsSlot s b sl x && !holdsSlot (regPut s b (0x18000 + 64 * sl + 8 * e) v) b sl x) vfs = off
  generalize List.filter (fun x => !holdsSlot s b sl x && holdsSlot (regPut s b (0x18000 + 64 * sl + 8 * e) v) b sl x) vfs = on
  have moves (up down : Nat) (l : List Nat) (t : State) : OnlyAccounts t (l.foldl (fun t x => budgetMove t (vfRcbAddr t x) .slot up down) t) :=
    OnlyAccounts.foldl (fun t x => budgetMove_accounts t _ .slot up down) l t
  have s3 := (((regPut_accounts s b (0x18000 + 64 * sl + 8 * e) v).trans (moves 0 1 off _)).trans (tablesChanged_accounts s _ b vfs)).trans (moves 1 0 on _)
  exact s3.trans ⟨_, _, _, _, _, _, _, _, _, rfl⟩

theorem nrgMeet_accounts (s : State) (vf : Nat) : OnlyAccounts s (nrgMeet s vf) := by
  unfold nrgMeet
  split
  · exact .refl s
  · exact (ownMeet_access s vf true _ 8).accounts

theorem nrgWrite_accounts (s : State) (vf v : Nat) : OnlyAccounts s (nrgWrite s vf v) := by
  unfold nrgWrite
  split
  · exact regPut_accounts _ _ _ _
  · split
    · exact .refl s
    · exact memPutLe_accounts _ _ _ _

theorem nrgKeep_accounts (s : State) (vf : Nat) : OnlyAccounts s (nrgKeep s vf) := by
  unfold nrgKeep
  dsimp only
  split
  · exact .refl s
  · exact (nrgMeet_accounts s vf).trans (memPutLe_accounts _ _ _ _)

theorem nrgCap_accounts (s : State) (vf c : Nat) : OnlyAccounts s (nrgCap s vf c) := by
  unfold nrgCap
  split
  · split
    · refine OnlyAccounts.trans ?_ (postEvent_access _ _ _ _ _ _ _).accounts
      exact ⟨_, _, _, _, _, _, _, _, _, rfl⟩
    · exact .refl s
  · exact .refl s

theorem nrgFold_accounts (s : State) (vf d : Nat) : OnlyAccounts s (nrgFold s vf d) := by
  unfold nrgFold
  dsimp only
  refine OnlyAccounts.trans ?_ (nrgCap_accounts _ _ _)
  refine OnlyAccounts.trans ?_ (nrgWrite_accounts _ _ _)
  exact (nrgMeet_accounts s vf).trans (nrgRem_accounts _ _)

/-- What the fold of a slot's delta leaves of the slot (R425). -/
theorem foldSlot_accounts (s : State) (b sl : Nat) : OnlyAccounts (setSlot s b sl { getSlot s b sl with delta := 0 }) (foldSlot s b sl) := by
  unfold foldSlot
  dsimp only
  split
  · exact .refl _
  · exact nrgFold_accounts _ _ _

theorem getSlot_congr {s t : State} (h : t.slots = s.slots) (b sl : Nat) : getSlot t b sl = getSlot s b sl := by
  unfold getSlot
  rw [h]

theorem getPE_congr {s t : State} (h : t.pes = s.pes) (b pe : Nat) : getPE t b pe = getPE s b pe := by
  unfold getPE
  rw [h]

theorem getSlot_foldSlot (s : State) (b sl c k : Nat) :
    getSlot (foldSlot s b sl) c k = if c * 32 + k = b * 32 + sl then { getSlot s b sl with delta := 0 } else getSlot s c k :=
  (getSlot_congr (foldSlot_accounts s b sl).slots c k).trans (getSlot_setSlot s b sl c k _)

end Sys2Proof.Machine
end

section
/-! SUPPORT. The save of a slot (R431): its context is kept, and its PEs and the slot itself are cleared. -/

namespace Sys2Proof.Machine

open Host

/-- The PEs, the saved contexts and the slots stay. -/
def KeepsContexts (s t : State) : Prop := t.pes = s.pes ∧ t.saved = s.saved ∧ t.slots = s.slots

theorem KeepsContexts.refl (s : State) : KeepsContexts s s := ⟨rfl, rfl, rfl⟩

theorem KeepsContexts.trans {s t u : State} (h : KeepsContexts s t) (g : KeepsContexts t u) : KeepsContexts s u :=
  ⟨g.1.trans h.1, g.2.1.trans h.2.1, g.2.2.trans h.2.2⟩

theorem KeepsContexts.foldl {α : Type} {f : State → α → State} (step : ∀ s x, KeepsContexts s (f s x)) (l : List α) (s : State) : KeepsContexts s (l.foldl f s) := by
  induction l generalizing s with
  | nil => exact .refl s
  | cons x l ih => exact (step s x).trans (ih _)

theorem OnlyAccounts.contexts {s t : State} (h : OnlyAccounts s t) : KeepsContexts s t := ⟨h.pes, h.saved, h.slots⟩

theorem OnlyAccess.contexts {s t : State} (h : OnlyAccess s t) : KeepsContexts s t := h.accounts.contexts

theorem saveMeet_access (s : State) (vf b sl : Nat) : OnlyAccess s (saveMeet s vf b sl) := by
  unfold saveMeet
  dsimp only
  split
  · exact .refl s
  · exact (ownMeet_access s vf true _ 8).trans (ownMeet_access _ vf true _ 8)

theorem writeRuns_access (s : State) (vf base : Nat) (rs : List (Nat × List Byte)) : OnlyAccess s (writeRuns s vf base rs) := by
  induction rs generalizing s with
  | nil => exact .refl s
  | cons r rs ih => exact (ownPut_access s vf (base + r.1) r.2).trans (ih _)

/-- The areas of a slot block are memory (R431). -/
theorem saveWrite_contexts (s : State) (b sl vf : Nat) : KeepsContexts s (saveWrite s b sl vf) := by
  unfold saveWrite
  dsimp only
  split
  · exact (saveMeet_access s vf b sl).contexts
  · refine KeepsContexts.trans ?_ (memPutLe_access _ _ _ _).contexts
    refine KeepsContexts.trans ?_ (KeepsContexts.foldl (fun t pe => (writeRuns_access t vf _ _).contexts) _ _)
    refine KeepsContexts.trans ?_ (writeRuns_access _ vf _ _).contexts
    refine KeepsContexts.trans ?_ (writeRuns_access _ vf _ _).contexts
    exact KeepsContexts.trans (saveMeet_access s vf b sl).contexts ⟨rfl, rfl, rfl⟩

theorem peKey_same (b pe q : Nat) : peKey b pe = peKey b q ↔ pe = q := by
  unfold peKey
  omega

/-- A change of some PEs of a bulkhead leaves the others. -/
theorem getPE_modPE_fold_other (b : Nat) (f : PE → PE) (l : List Nat) (s : State) {q : Nat} (h : q ∉ l) :
    getPE (l.foldl (fun t pe => modPE t b pe f) s) b q = getPE s b q := by
  induction l generalizing s with
  | nil => rfl
  | cons x l ih =>
    obtain ⟨ne, out⟩ := not_or.mp (fun e => h (List.mem_cons.mpr e))
    rw [List.foldl_cons, ih _ out, getPE_modPE, if_neg (fun e => ne ((peKey_same b q x).mp e))]

theorem peCleared_idem (p : PE) : peCleared (peCleared p) = peCleared p := by simp [peCleared, List.filter_filter]

/-- A change that leaves the instruction stores leaves what a PE is cleared to. -/
theorem getPE_modPE_fold_cleared (b : Nat) (f : PE → PE) (kept : ∀ p, peCleared (f p) = peCleared p) (l : List Nat) (s : State) (q : Nat) :
    peCleared (getPE (l.foldl (fun t pe => modPE t b pe f) s) b q) = peCleared (getPE s b q) := by
  induction l generalizing s with
  | nil => rfl
  | cons x l ih =>
    rw [List.foldl_cons, ih, getPE_modPE]
    split
    · next same => rw [kept, (peKey_same b q x).mp same]
    · rfl

theorem getPE_clear_fold (b : Nat) (l : List Nat) (s : State) {q : Nat} (h : q ∈ l) :
    getPE (l.foldl (fun t pe => modPE t b pe peCleared) s) b q = peCleared (getPE s b q) := by
  induction l generalizing s with
  | nil => cases h
  | cons x l ih =>
    rw [List.foldl_cons]
    by_cases later : q ∈ l
    · rw [ih _ later, getPE_modPE]
      split
      · next same => rw [peCleared_idem, (peKey_same b q x).mp same]
      · rfl
    · have first : q = x := (List.mem_cons.mp h).resolve_right later
      rw [getPE_modPE_fold_other b peCleared l _ later, getPE_modPE, first, if_pos rfl]

theorem modPE_fold_saved (b : Nat) (f : PE → PE) (l : List Nat) (s : State) :
    (l.foldl (fun t pe => modPE t b pe f) s).saved = s.saved ∧ (l.foldl (fun t pe => modPE t b pe f) s).slots = s.slots := by
  induction l generalizing s with
  | nil => exact ⟨rfl, rfl⟩
  | cons x l ih => exact ih _

theorem links_fold_contexts (b : Nat) (l : List Nat) (s : State) :
    KeepsContexts s (l.foldl (fun t c => { t with links := sput [] t.links (b * 128 + c) [] }) s) :=
  KeepsContexts.foldl (f := fun t c => { t with links := sput [] t.links (b * 128 + c) [] }) (fun _ _ => ⟨rfl, rfl, rfl⟩) l s

/-- What the reset of a slot leaves of a PE of its bulkhead. -/
theorem getPE_slotReset (s : State) (b sl q : Nat) : getPE (slotReset s b sl) b q = if q ∈ slotPes sl then peCleared (getPE s b q) else getPE s b q := by
  have pes : (slotReset s b sl).pes = ((slotPes sl).foldl (fun t pe => modPE t b pe peCleared) s).pes := by
    unfold slotReset slotClear
    dsimp only
    rw [modSlot_pes, modSlot_pes, modBulk_pes, (links_fold_contexts b (slotClusters sl) _).1]
  rw [getPE_congr pes]
  split
  · next mem => exact getPE_clear_fold b _ s mem
  · next out => exact getPE_modPE_fold_other b peCleared _ s out

theorem slotReset_saved (s : State) (b sl : Nat) : (slotReset s b sl).saved = s.saved := by
  unfold slotReset slotClear
  dsimp only
  rw [modSlot_saved, modSlot_saved, modBulk_saved, (links_fold_contexts b (slotClusters sl) _).2.1, (modPE_fold_saved b peCleared _ s).1]

theorem slotReset_st (s : State) (b sl k : Nat) : (getSlot (slotReset s b sl) b k).st = if k = sl then .idle else (getSlot s b k).st := by
  unfold slotReset slotClear
  dsimp only
  rw [getSlot_modSlot, getSlot_modSlot, getSlot_modSlot]
  by_cases h : k = sl
  · subst h
    simp only [if_true]
    rfl
  · have apart : ¬ b * 32 + k = b * 32 + sl := by omega
    rw [if_neg apart, if_neg apart, if_neg h]
    refine congrArg Slot.st (getSlot_congr ?_ b k)
    rw [modBulk_slots, (links_fold_contexts b (slotClusters sl) _).2.2, (modPE_fold_saved b peCleared _ s).2]

theorem withdraw_cleared (p : PE) : peCleared (withdraw p) = peCleared p := by
  unfold withdraw
  generalize p.issued = l
  induction l generalizing p with
  | nil => rfl
  | cons i l ih =>
    rw [List.foldl_cons, ih]
    split
    · rfl
    · rfl
    · rfl

theorem tagsPark_withdraw_cleared (p : PE) : peCleared (tagsPark (withdraw p)) = peCleared p := withdraw_cleared p

theorem charge_contexts (s : State) (b pe cls count : Nat) :
    (charge s b pe cls count).pes = s.pes ∧ (charge s b pe cls count).saved = s.saved ∧ ∀ c k, (getSlot (charge s b pe cls count) c k).st = (getSlot s c k).st := by
  unfold charge
  dsimp only
  split
  · exact ⟨rfl, rfl, fun _ _ => rfl⟩
  · refine ⟨modSlot_pes _ _ _ _, modSlot_saved _ _ _ _, fun c k => ?_⟩
    rw [getSlot_modSlot]
    split
    · next same =>
      unfold getSlot
      rw [same]
    · rfl

section

variable (s : State) (b vf sl : Nat)

/-- What stands before the areas of a slot are written: what is parked, charged and folded. -/
def saveReady : State :=
  nrgKeep (foldSlot (chargeKib ((slotPes sl).foldl (fun t pe => modPE t b pe fun p => tagsPark (withdraw p)) s) b sl
    (saveKib ((slotPes sl).foldl (fun t pe => modPE t b pe fun p => tagsPark (withdraw p)) s) b sl)) b sl) vf

theorem saveReady_pes : (saveReady s b vf sl).pes = ((slotPes sl).foldl (fun t pe => modPE t b pe fun p => tagsPark (withdraw p)) s).pes := by
  unfold saveReady chargeKib
  rw [(nrgKeep_accounts _ _).pes, (foldSlot_accounts _ _ _).pes, setSlot_pes, (charge_contexts _ _ _ _ _).1]

theorem saveReady_saved : (saveReady s b vf sl).saved = s.saved := by
  unfold saveReady chargeKib
  rw [(nrgKeep_accounts _ _).saved, (foldSlot_accounts _ _ _).saved, setSlot_saved, (charge_contexts _ _ _ _ _).2.1, (modPE_fold_saved b _ _ s).1]

theorem saveReady_st (k : Nat) : (getSlot (saveReady s b vf sl) b k).st = (getSlot s b k).st := by
  have kept := fun j => congrArg Slot.st (getSlot_congr (modPE_fold_saved b (fun p => tagsPark (withdraw p)) (slotPes sl) s).2 b j)
  unfold saveReady chargeKib
  generalize (slotPes sl).foldl (fun t pe => modPE t b pe fun p => tagsPark (withdraw p)) s = u at kept ⊢
  generalize saveKib u b sl = n
  have charged := (charge_contexts u b ((slotPes sl).headD 0) 11 n).2.2 b
  generalize charge u b ((slotPes sl).headD 0) 11 n = v at charged ⊢
  rw [getSlot_congr (nrgKeep_accounts _ _).slots, getSlot_foldSlot]
  split
  · next same =>
    have : k = sl := by omega
    rw [this]
    exact (charged sl).trans (kept sl)
  · exact (charged k).trans (kept k)

theorem saveSlot_eq : ∃ r : Saved, r.vf = vf ∧ r.bh = b ∧ r.sl = sl ∧
    saveSlot s b vf sl = slotReset { saveWrite (saveReady s b vf sl) b sl vf with
      saved := (saveWrite (saveReady s b vf sl) b sl vf).saved.filter (fun y => !(y.vf == vf && y.bh == b && y.sl == sl)) ++ [r] } b sl :=
  ⟨savedOf (saveReady s b vf sl) b sl vf, rfl, rfl, rfl, rfl⟩

/-- The PEs of a saved slot are cleared, and no others of the bulkhead. -/
theorem saveSlot_pe (q : Nat) : getPE (saveSlot s b vf sl) b q = if q ∈ slotPes sl then peCleared (getPE s b q) else getPE s b q := by
  obtain ⟨r, -, -, -, e⟩ := saveSlot_eq s b vf sl
  have before : getPE { saveWrite (saveReady s b vf sl) b sl vf with
      saved := (saveWrite (saveReady s b vf sl) b sl vf).saved.filter (fun y => !(y.vf == vf && y.bh == b && y.sl == sl)) ++ [r] } b q =
      getPE ((slotPes sl).foldl (fun t pe => modPE t b pe fun p => tagsPark (withdraw p)) s) b q :=
    getPE_congr ((saveWrite_contexts _ b sl vf).1.trans (saveReady_pes s b vf sl)) b q
  rw [e, getPE_slotReset, before]
  split
  · exact getPE_modPE_fold_cleared b _ tagsPark_withdraw_cleared _ s q
  · next out => exact getPE_modPE_fold_other b _ _ s out

theorem saveSlot_st (k : Nat) : (getSlot (saveSlot s b vf sl) b k).st = if k = sl then .idle else (getSlot s b k).st := by
  obtain ⟨r, -, -, -, e⟩ := saveSlot_eq s b vf sl
  rw [e, slotReset_st]
  split
  · rfl
  · exact (congrArg Slot.st (getSlot_congr (saveWrite_contexts (saveReady s b vf sl) b sl vf).2.2 b k)).trans (saveReady_st s b vf sl k)

theorem saveSlot_saved : ∃ r : Saved, r.vf = vf ∧ r.bh = b ∧ r.sl = sl ∧
    (saveSlot s b vf sl).saved = s.saved.filter (fun y => !(y.vf == vf && y.bh == b && y.sl == sl)) ++ [r] := by
  obtain ⟨r, hv, hb, hs, e⟩ := saveSlot_eq s b vf sl
  refine ⟨r, hv, hb, hs, ?_⟩
  rw [e, slotReset_saved]
  change (saveWrite (saveReady s b vf sl) b sl vf).saved.filter _ ++ [r] = _
  rw [(saveWrite_contexts _ b sl vf).2.1, saveReady_saved]

end

end Sys2Proof.Machine
end

section
/-! SUPPORT. The save of a group of slots (R425, R431), after which each goes on to the next restore (R392, R394). -/

namespace Sys2Proof.Machine

open Host

theorem loadAbandon_contexts (s : State) (c : Cmd) : KeepsContexts s (loadAbandon s c) := ⟨rfl, rfl, rfl⟩

theorem saveCmds_contexts (s : State) (b vf : Nat) (pes : List Nat) : KeepsContexts s (saveCmds s b vf pes) := by
  unfold saveCmds
  dsimp only
  refine (KeepsContexts.foldl loadAbandon_contexts _ s).trans (KeepsContexts.foldl (fun t c => ?_) _ _)
  split
  · exact loadAbandon_contexts t c
  · split
    · exact ⟨rfl, rfl, rfl⟩
    · exact .refl t

/-- The end of a loan leaves PEs, saved contexts and what stands in the slots (R394). -/
theorem loanEnd_stands (s : State) (b sl : Nat) :
    (loanEnd s b sl).pes = s.pes ∧ (loanEnd s b sl).saved = s.saved ∧ ∀ c k, (getSlot (loanEnd s b sl) c k).st = (getSlot s c k).st := by
  unfold loanEnd
  dsimp only
  split
  · exact ⟨rfl, rfl, fun _ _ => rfl⟩
  · have tables := (OnlyAccounts.foldl (fun t e => quantSet_accounts t b sl e ((getSlot s b sl).displaced.getD e 0)) (List.range 8) s).trans
      (regPut_accounts _ b (0x18800 + 8 * sl) (word (slotown s b sl % 2 ^ 10)))
    refine ⟨(modSlot_pes _ _ _ _).trans tables.pes, (modSlot_saved _ _ _ _).trans tables.saved, fun c k => ?_⟩
    rw [getSlot_modSlot]
    split
    · next same =>
      rw [show getSlot s c k = getSlot s b sl by unfold getSlot; rw [same]]
      have same_st := congrArg Slot.st (getSlot_congr tables.slots b sl)
      exact same_st
    · exact congrArg Slot.st (getSlot_congr tables.slots c k)

/-- After its save a slot stands idle or restores its next VF; other slots stay as they stand. -/
theorem slotNext_stands (s : State) (b vf sl : Nat) :
    (slotNext s b vf sl).pes = s.pes ∧ (slotNext s b vf sl).saved = s.saved ∧
      ∀ k, (getSlot (slotNext s b vf sl) b k).st = (getSlot s b k).st ∨ (getSlot (slotNext s b vf sl) b k).st = .restoring := by
  have back : ∀ u : State, (u = loanEnd s b sl ∨ u = s) → u.pes = s.pes ∧ u.saved = s.saved ∧ ∀ c k, (getSlot u c k).st = (getSlot s c k).st := by
    rintro u (rfl | rfl)
    · exact loanEnd_stands s b sl
    · exact ⟨rfl, rfl, fun _ _ => rfl⟩
  have first : (if (getSlot s b sl).reclaim then loanEnd s b sl else s) = loanEnd s b sl ∨ (if (getSlot s b sl).reclaim then loanEnd s b sl else s) = s := by
    split
    · exact .inl rfl
    · exact .inr rfl
  unfold slotNext
  dsimp only
  generalize (if (getSlot s b sl).reclaim then loanEnd s b sl else s) = u at first ⊢
  obtain ⟨pes, saved, st⟩ := back u first
  split
  · refine ⟨(modSlot_pes _ _ _ _).trans pes, (modSlot_saved _ _ _ _).trans saved, fun k => ?_⟩
    rw [getSlot_modSlot]
    split
    · exact .inr rfl
    · exact .inl (st b k)
  · exact ⟨pes, saved, fun k => .inl (st b k)⟩

section

variable (s0 : State) (b vf sl : Nat)

/-- Whether the PEs of a slot are still to be cleared to what they are in s0. -/
def SavePending (t : State) : Prop := ∀ pe ∈ slotPes sl, peCleared (getPE t b pe) = peCleared (getPE s0 b pe)

/-- Whether a slot has been saved: it is free for a VF, its PEs are cleared, and a context of the VF is kept. -/
def SaveDone (t : State) : Prop :=
  ((getSlot t b sl).st = .idle ∨ (getSlot t b sl).st = .restoring) ∧ (∀ pe ∈ slotPes sl, getPE t b pe = peCleared (getPE s0 b pe)) ∧
    ∃ r ∈ t.saved, r.vf = vf ∧ r.bh = b ∧ r.sl = sl

variable {s0 b vf sl}

theorem SavePending.saveSlot {t : State} (h : SavePending s0 b sl t) (y : Nat) : SavePending s0 b sl (saveSlot t b vf y) := by
  intro pe mem
  rw [saveSlot_pe]
  split
  · rw [peCleared_idem, h pe mem]
  · exact h pe mem

theorem SavePending.done {t : State} (h : SavePending s0 b sl t) : SaveDone s0 b vf sl (Machine.saveSlot t b vf sl) := by
  obtain ⟨r, hv, hb, hs, saved⟩ := saveSlot_saved t b vf sl
  refine ⟨.inl (by rw [saveSlot_st, if_pos rfl]), fun pe mem => ?_, r, ?_, hv, hb, hs⟩
  · rw [saveSlot_pe, if_pos mem, h pe mem]
  · rw [saved]
    exact List.mem_append_right _ (List.mem_singleton.mpr rfl)

theorem SaveDone.saveSlot {t : State} (h : SaveDone s0 b vf sl t) (y : Nat) : SaveDone s0 b vf sl (Machine.saveSlot t b vf y) := by
  obtain ⟨st, pes, r, mem, hv, hb, hs⟩ := h
  by_cases again : y = sl
  · subst again
    exact SavePending.done fun pe here => by rw [pes pe here, peCleared_idem]
  · obtain ⟨x, -, -, -, saved⟩ := saveSlot_saved t b vf y
    refine ⟨?_, fun pe here => ?_, r, ?_, hv, hb, hs⟩
    · rw [saveSlot_st, if_neg (Ne.symm again)]
      exact st
    · rw [saveSlot_pe]
      split
      · rw [pes pe here, peCleared_idem]
      · exact pes pe here
    · rw [saved]
      refine List.mem_append_left _ (List.mem_filter.mpr ⟨mem, ?_⟩)
      simp [hs, Ne.symm again]

theorem SaveDone.foldl (l : List Nat) {t : State} (h : SaveDone s0 b vf sl t) : SaveDone s0 b vf sl (l.foldl (fun t y => Machine.saveSlot t b vf y) t) := by
  induction l generalizing t with
  | nil => exact h
  | cons y l ih =>
    rw [List.foldl_cons]
    exact ih (h.saveSlot y)

theorem SavePending.foldl (l : List Nat) {t : State} (h : SavePending s0 b sl t) (mem : sl ∈ l) :
    SaveDone s0 b vf sl (l.foldl (fun t y => Machine.saveSlot t b vf y) t) := by
  induction l generalizing t with
  | nil => cases mem
  | cons y l ih =>
    rw [List.foldl_cons]
    rcases List.mem_cons.mp mem with rfl | later
    · exact h.done.foldl l
    · exact ih (h.saveSlot y) later

theorem SaveDone.slotNext {t : State} (h : SaveDone s0 b vf sl t) (y : Nat) : SaveDone s0 b vf sl (Machine.slotNext t b vf y) := by
  obtain ⟨st, pes, r, mem, names⟩ := h
  obtain ⟨same_pes, same_saved, stands⟩ := slotNext_stands t b vf y
  refine ⟨?_, fun pe here => (getPE_congr same_pes b pe).trans (pes pe here), r, ?_, names⟩
  · rcases stands sl with same | restoring
    · rw [same]
      exact st
    · exact .inr restoring
  · rw [same_saved]
    exact mem

theorem SaveDone.slotNexts (l : List Nat) {t : State} (h : SaveDone s0 b vf sl t) : SaveDone s0 b vf sl (l.foldl (fun t y => Machine.slotNext t b vf y) t) := by
  induction l generalizing t with
  | nil => exact h
  | cons y l ih =>
    rw [List.foldl_cons]
    exact ih (h.slotNext y)

end

theorem saveGroup_done (s : State) (b vf sl : Nat) (g : List Nat) (mem : sl ∈ g) : SaveDone s b vf sl (saveGroup s b vf g) := by
  have pending : SavePending s b sl (saveCmds s b vf (g.map slotPes).flatten) := fun pe _ =>
    congrArg peCleared (getPE_congr (saveCmds_contexts s b vf _).1 b pe)
  have done : SaveDone s b vf sl _ := pending.foldl (vf := vf) g mem
  unfold saveGroup
  dsimp only
  refine SaveDone.slotNexts g ?_
  exact done

/-- A slot is of its own group (R392). -/
theorem groupSlots_self (s : State) (b sl vf : Nat) : sl ∈ groupSlots s b sl vf := by
  have grows (cs : List Placed) : ∀ m : List Nat, sl ∈ m → sl ∈ cs.foldl (fun m c => m ++ (rectSlots c).filter fun g => !m.contains g) m := by
    induction cs with
    | nil => exact fun m h => h
    | cons c cs ih => exact fun m h => ih _ (List.mem_append_left _ h)
  have rounds (l : List Nat) : ∀ a : List Nat, sl ∈ a → sl ∈ l.foldl (fun a _ =>
      (s.cfgs.filter fun c => c.bh == b && c.vf == vf && (rectSlots c).any a.contains).foldl (fun m c => m ++ (rectSlots c).filter fun g => !m.contains g) a) a := by
    induction l with
    | nil => exact fun a h => h
    | cons _ l ih => exact fun a h => ih _ (grows _ a h)
  exact rounds _ _ (List.mem_singleton.mpr rfl)

/-- The clause about CONTEXT_SAVE. -/
theorem contextSave_saves (s : State) (b sl : Nat) (runs : bhRuns s b = true) :
    let x := getSlot s b sl
    let g := (groupSlots s b sl x.vf).filter fun y => (getSlot s b y).st == .saving && (getSlot s b y).vf == x.vf
    x.st = .saving → mcastStuck s b x.vf (g.map slotPes).flatten = none → slotsDrained s b x.vf g = true → ∃ t : State, exec (.contextSave b sl) s = .next t ∧
      ((getSlot t b sl).st = .idle ∨ (getSlot t b sl).st = .restoring) ∧ (∀ pe ∈ slotPes sl, getPE t b pe = peCleared (getPE s b pe)) ∧
      ∃ r ∈ t.saved, r.vf = x.vf ∧ r.bh = b ∧ r.sl = sl := by
  intro x g saving stuck drained
  have mem : sl ∈ g := List.mem_filter.mpr ⟨groupSlots_self s b sl x.vf, by
    change ((getSlot s b sl).st == .saving && (getSlot s b sl).vf == (getSlot s b sl).vf) = true
    rw [show (getSlot s b sl).st = .saving from saving]
    simp⟩
  refine ⟨saveGroup s b x.vf g, ?_, saveGroup_done s b x.vf sl g mem⟩
  change execContextSave b sl s = _
  unfold execContextSave
  dsimp only
  rw [if_neg (by simp [runs]; exact saving)]
  change Outcome.next (match mcastStuck s b x.vf (g.map slotPes).flatten with | some c => _ | none => if slotsDrained s b x.vf g then saveGroup s b x.vf g else s) = _
  rw [stuck]
  dsimp only
  rw [drained]
  rfl

end Sys2Proof.Machine
end

section
/-! SUPPORT. The end of a quantum (R392, R393), and the fold of a slot's energy delta (R425). -/

namespace Sys2Proof.Machine

open Host

/-- A slot whose VF goes to be saved (R392). -/
def goesToSave (vf : Nat) (x : Slot) : Slot := if x.st = .resident ∧ x.vf = vf then { x with st := .saving } else x

theorem goesToSave_idem (vf : Nat) (x : Slot) : goesToSave vf (goesToSave vf x) = goesToSave vf x := by
  unfold goesToSave
  by_cases h : x.st = .resident ∧ x.vf = vf
  · rw [if_pos h, if_neg (by simp)]
  · rw [if_neg h, if_neg h]

theorem switchOut_fold (b vf : Nat) (l : List Nat) (s : State) :
    (∃ x, l.foldl (fun t g => modSlot t b g (goesToSave vf)) s = { s with slots := x }) ∧
      ∀ k, getSlot (l.foldl (fun t g => modSlot t b g (goesToSave vf)) s) b k = if k ∈ l then goesToSave vf (getSlot s b k) else getSlot s b k := by
  induction l generalizing s with
  | nil => exact ⟨⟨_, rfl⟩, fun k => by simp⟩
  | cons g l ih =>
    obtain ⟨⟨x, only⟩, there⟩ := ih (modSlot s b g (goesToSave vf))
    refine ⟨⟨x, only.trans rfl⟩, fun k => ?_⟩
    rw [List.foldl_cons, there k, getSlot_modSlot]
    by_cases first : k = g
    · subst first
      simp [goesToSave_idem]
    · have apart : ¬ b * 32 + k = b * 32 + g := by omega
      simp [first]

theorem switchOut_eq (s : State) (b sl vf : Nat) : switchOut s b sl vf = (groupSlots s b sl vf).foldl (fun t g => modSlot t b g (goesToSave vf)) s := rfl

/-- The slot itself goes to be saved, and nothing but slots changes. -/
theorem switchOut_saves (s : State) (b sl vf : Nat) (resident : (getSlot s b sl).st = .resident) (same : (getSlot s b sl).vf = vf) :
    (∃ x, switchOut s b sl vf = { s with slots := x }) ∧ getSlot (switchOut s b sl vf) b sl = { getSlot s b sl with st := .saving } := by
  obtain ⟨only, there⟩ := switchOut_fold b vf (groupSlots s b sl vf) s
  refine ⟨only, ?_⟩
  rw [switchOut_eq, there sl, if_pos (groupSlots_self s b sl vf)]
  unfold goesToSave
  rw [if_pos ⟨resident, same⟩]

/-- The clause about QUANTUM_END. -/
theorem quantumEnd_ends (s : State) (b sl : Nat) (runs : bhRuns s b = true) :
    let x := getSlot s b sl
    x.st = .resident → quantumOf s b sl x.vf ≤ x.qcount ∨ x.endNow = true ∨ slotBare s b sl x.vf = true →
      ((nextRunnable s b sl x.vf).isSome = true → ∃ t : State, exec (.quantumEnd b sl) s = .next t ∧ t = { s with slots := t.slots } ∧ (getSlot t b sl).st = .saving ∧
        (getSlot t b sl).vf = x.vf) ∧
      (nextRunnable s b sl x.vf = none → ∃ t : State, exec (.quantumEnd b sl) s = .next t ∧ t = { s with slots := t.slots } ∧
        getSlot t b sl = { x with qcount := 0, endNow := false }) := by
  intro x resident ended
  have ends : ¬ (x.qcount < quantumOf s b sl x.vf ∧ (!x.endNow) = true ∧ (!slotBare s b sl x.vf) = true) := by
    rintro ⟨early, going, busy⟩
    rcases ended with reached | now | bare
    · omega
    · rw [now] at going
      cases going
    · rw [bare] at busy
      cases busy
  have step : exec (.quantumEnd b sl) s = .next (if (nextRunnable s b sl x.vf).isSome then switchOut s b sl x.vf else setSlot s b sl { x with qcount := 0, endNow := false }) := by
    change execQuantumEnd b sl s = _
    unfold execQuantumEnd
    dsimp only
    rw [if_neg (by simp [runs]; exact resident), if_neg ends]
  rw [step]
  constructor
  · intro next
    rw [if_pos next]
    obtain ⟨⟨_, only⟩, there⟩ := switchOut_saves s b sl x.vf resident rfl
    refine ⟨_, rfl, by rw [only], ?_, ?_⟩
    · rw [there]
    · rw [there]
  · intro none
    rw [none]
    exact ⟨_, rfl, rfl, (getSlot_setSlot s b sl b sl _).trans (if_pos rfl)⟩

/-- The clause about ENERGY_FOLD. -/
theorem energyFold_marks (s : State) (b sl : Nat) (runs : bhRuns s b = true) (due : (getSlot s b sl).foldAt + 4096 ≤ cycleOf s b) :
    ∃ t : State, exec (.energyFold b sl) s = .next t ∧ t = { s with slots := t.slots } ∧
      getSlot t b sl = { getSlot s b sl with foldAt := cycleOf s b / 4096 * 4096, foldDue := true } := by
  refine ⟨_, ?_, rfl, (getSlot_setSlot s b sl b sl _).trans (if_pos rfl)⟩
  change execEnergyFold b sl s = _
  unfold execEnergyFold
  dsimp only
  rw [if_neg (by simp [runs]; omega)]

/-- The fold of a slot, made as its cycle ends. -/
def foldDone (s : State) (b sl : Nat) : State := modSlot (foldSlot s b sl) b sl fun y => { y with foldDue := false }

theorem getSlot_foldDone (s : State) (b sl k : Nat) :
    getSlot (foldDone s b sl) b k = if k = sl then { getSlot s b sl with delta := 0, foldDue := false } else getSlot s b k := by
  unfold foldDone
  rw [getSlot_modSlot, getSlot_foldSlot, getSlot_foldSlot]
  by_cases h : k = sl
  · subst h
    simp
  · simp [h]

/-- One slot after the other makes the fold that it owes. -/
def foldStep (b : Nat) (t : State) (sl : Nat) : State := if (getSlot t b sl).foldDue then foldDone t b sl else t

theorem foldStep_none (b : Nat) (l : List Nat) (s : State) (none : ∀ y ∈ l, (getSlot s b y).foldDue = false) : l.foldl (foldStep b) s = s := by
  induction l with
  | nil => rfl
  | cons y l ih =>
    have skip : foldStep b s y = s := by
      unfold foldStep
      rw [none y List.mem_cons_self]
      rfl
    rw [List.foldl_cons, skip]
    exact ih fun z mem => none z (List.mem_cons_of_mem _ mem)

/-- Where one slot alone owes a fold, its fold alone is made. -/
theorem foldStep_one (b sl : Nat) (l : List Nat) (s : State) (once : l.Nodup) (mem : sl ∈ l) (due : ∀ y ∈ l, (getSlot s b y).foldDue = (y == sl)) :
    l.foldl (foldStep b) s = foldDone s b sl := by
  induction l with
  | nil => cases mem
  | cons y l ih =>
    obtain ⟨fresh, once'⟩ := List.nodup_cons.mp once
    rw [List.foldl_cons]
    by_cases here : y = sl
    · subst here
      have made : foldStep b s y = foldDone s b y := by
        unfold foldStep
        rw [due y List.mem_cons_self, beq_self_eq_true]
        rfl
      rw [made]
      refine foldStep_none b l _ fun z later => ?_
      have apart : z ≠ y := fun e => fresh (e ▸ later)
      rw [getSlot_foldDone, if_neg apart, due z (List.mem_cons_of_mem _ later)]
      exact beq_eq_false_iff_ne.mpr apart
    · have skip : foldStep b s y = s := by
        unfold foldStep
        rw [due y List.mem_cons_self, beq_eq_false_iff_ne.mpr here]
        rfl
      rw [skip]
      exact ih once' ((List.mem_cons.mp mem).resolve_left fun e => here e.symm) fun z later => due z (List.mem_cons_of_mem _ later)

theorem OnlyAccounts.cmds {s t : State} (h : OnlyAccounts s t) : t.cmds = s.cmds := by
  obtain ⟨_, _, _, _, _, _, _, _, _, rfl⟩ := h
  rfl

theorem foldDone_cmds (s : State) (b sl : Nat) : (foldDone s b sl).cmds = s.cmds := by
  unfold foldDone
  rw [modSlot_cmds, (foldSlot_accounts s b sl).cmds, setSlot_cmds]

/-- With one fold owed and no nrg.rd at its well, the cycle ends with that fold. -/
theorem foldsEnd_one (s : State) (b sl : Nat) (hsl : sl < 32) (due : ∀ y < 32, (getSlot s b y).foldDue = (y == sl))
    (quiet : ∀ k ∈ s.cmds, ¬(k.code = 0x1C5 ∧ k.stage = 0 ∧ k.f.bh = b)) : foldsEnd s b = foldDone s b sl := by
  have folded : (List.range 32).foldl (foldStep b) s = foldDone s b sl :=
    foldStep_one b sl _ s List.nodup_range (List.mem_range.mpr hsl) fun y mem => due y (List.mem_range.mp mem)
  unfold foldsEnd
  dsimp only
  change (((List.range 32).foldl (foldStep b) s).cmds.filter _).foldl _ ((List.range 32).foldl (foldStep b) s) = _
  rw [folded, foldDone_cmds]
  have none : (s.cmds.filter fun c => c.code == 0x1C5 && c.stage == 0 && c.f.bh == b) = [] := by
    refine List.filter_eq_nil_iff.mpr fun k mem => ?_
    have := quiet k mem
    simp only [Bool.and_eq_true, beq_iff_eq]
    exact fun ⟨⟨code, stage⟩, here⟩ => this ⟨code, stage, here⟩
  rw [none]
  rfl

/-- ENERGY_CAP leaves counters and remainders (R425). -/
theorem nrgCap_leaves (s : State) (vf c : Nat) : RegsApart wellOff s (nrgCap s vf c) ∧ (nrgCap s vf c).nrgRem = s.nrgRem := by
  unfold nrgCap
  split
  · split
    · refine ⟨RegsApart.trans (.of_regs rfl) (postEvent_apart _ _ _ _ _ _ _), ?_⟩
      obtain ⟨_, _, _, _, _, _, e⟩ := postEvent_access { s with rcbs := s.rcbs.map fun x => if x.addr = _ then { x with ecapPosted := true } else x }
        (seqrSrc (homeOf vf)) (homeOf vf) (some vf) none 0x16 c
      rw [e]
    · exact ⟨.refl s, rfl⟩
  · exact ⟨.refl s, rfl⟩

/-- The fold into the counter of a VF that stands in a table (R425). -/
theorem nrgFold_counts (s : State) (vf d : Nat) (active : vfActive s vf = true) :
    let w := vfNrg s vf
    let sh := bits w 48 4
    bits (vfNrg (nrgFold s vf d) vf) 0 48 = min (bits w 0 48 + (d + sget 0 s.nrgRem vf) / 2 ^ (8 + sh)) (2 ^ 48 - 1) ∧
      sget 0 (nrgFold s vf d).nrgRem vf = (d + sget 0 s.nrgRem vf) % 2 ^ (8 + sh) := by
  intro w sh
  let rest := (d + sget 0 s.nrgRem vf) % 2 ^ (8 + sh)
  let c := min (bits w 0 48 + (d + sget 0 s.nrgRem vf) / 2 ^ (8 + sh)) (2 ^ 48 - 1)
  let sat := bitAt w 52 || c == 2 ^ 48 - 1
  let v := c + sh * 2 ^ 48 + b2n sat * 2 ^ 52
  let u := regPut { s with nrgRem := sput 0 s.nrgRem vf rest } (homeOf vf) (0x20500 + 8 * (vf % 32)) (word v)
  have met : nrgMeet s vf = s := by
    unfold nrgMeet
    rw [if_pos (.inl active)]
  have read : nrgRead s vf = w := by
    unfold nrgRead
    rw [if_pos active]
  have folded : nrgFold s vf d = nrgCap u vf c := by
    unfold nrgFold
    dsimp only
    rw [met, read]
    change nrgCap (nrgWrite { s with nrgRem := sput 0 s.nrgRem vf rest } vf v) vf c = _
    have written : nrgWrite { s with nrgRem := sput 0 s.nrgRem vf rest } vf v = u := by
      unfold nrgWrite
      exact if_pos active
    rw [written]
  obtain ⟨apart, rem⟩ := nrgCap_leaves u vf c
  have low := Nat.mod_lt vf (show 0 < 32 by decide)
  have value : vfNrg (nrgFold s vf d) vf = (word v).toNat := by
    unfold vfNrg
    have outside : wellOff (0x20500 + 8 * (vf % 32)) = false := by
      unfold wellOff
      simp only [Bool.or_eq_false_iff, beq_eq_false_iff_ne]
      omega
    rw [folded, apart.regGet (homeOf vf) (off := 0x20500 + 8 * (vf % 32)) (by omega) outside]
    exact congrArg BitVec.toNat (regGet_regPut_same _ _ _ _)
  constructor
  · have hc : c < 2 ^ 48 := by omega
    have hsh : sh < 16 := Nat.mod_lt _ (by decide)
    have hsat : b2n sat ≤ 1 := by
      cases sat
      · exact Nat.zero_le 1
      · exact Nat.le_refl 1
    rw [value]
    change bits (word v).toNat 0 48 = c
    unfold bits word
    rw [BitVec.toNat_ofNat]
    change (c + sh * 2 ^ 48 + b2n sat * 2 ^ 52) % 2 ^ 64 / 2 ^ 0 % 2 ^ 48 = c
    generalize b2n sat = k at hsat ⊢
    clear_value c sh
    omega
  · rw [folded, rem]
    change sget 0 (regPut { s with nrgRem := sput 0 s.nrgRem vf rest } _ _ _).nrgRem vf = rest
    rw [regPut_nrgRem]
    exact (sget_sput 0 s.nrgRem vf vf rest).trans (if_pos rfl)

/-- The clause about the folds that a cycle ends with. -/
theorem foldsEnd_counts (s : State) (b sl : Nat) (hsl : sl < 32) (due : ∀ y < 32, (getSlot s b y).foldDue = (y == sl))
    (quiet : ∀ k ∈ s.cmds, ¬(k.code = 0x1C5 ∧ k.stage = 0 ∧ k.f.bh = b)) (used : (getSlot s b sl).st ≠ .idle) (active : vfActive s (getSlot s b sl).vf = true) :
    let x := getSlot s b sl
    let w := vfNrg s x.vf
    let sh := bits w 48 4
    let t := foldsEnd s b
    getSlot t b sl = { x with delta := 0, foldDue := false } ∧
      bits (vfNrg t x.vf) 0 48 = min (bits w 0 48 + (x.delta + sget 0 s.nrgRem x.vf) / 2 ^ (8 + sh)) (2 ^ 48 - 1) ∧
      sget 0 t.nrgRem x.vf = (x.delta + sget 0 s.nrgRem x.vf) % 2 ^ (8 + sh) := by
  intro x w sh t
  have done : t = foldDone s b sl := foldsEnd_one s b sl hsl due quiet
  rw [done]
  refine ⟨(getSlot_foldDone s b sl sl).trans (if_pos rfl), ?_⟩
  have folded : foldSlot s b sl = nrgFold (setSlot s b sl { x with delta := 0 }) x.vf x.delta := by
    unfold foldSlot
    exact if_neg used
  obtain ⟨count, rem⟩ := nrgFold_counts (setSlot s b sl { x with delta := 0 }) x.vf x.delta active
  unfold foldDone
  rw [modSlot_nrgRem, folded]
  exact ⟨count, rem⟩

end Sys2Proof.Machine
end

section
/-! SUPPORT. The loan of a slot and its end (R394). -/

namespace Sys2Proof.Machine

open Host

theorem modPE_fold_regs (b : Nat) (f : PE → PE) (l : List Nat) (s : State) : (l.foldl (fun t pe => modPE t b pe f) s).regs = s.regs := by
  induction l generalizing s with
  | nil => rfl
  | cons x l ih => exact (ih _).trans (modPE_regs s b x f)

theorem links_fold_regs (b : Nat) (l : List Nat) (s : State) : (l.foldl (fun t c => { t with links := sput [] t.links (b * 128 + c) [] }) s).regs = s.regs := by
  induction l generalizing s with
  | nil => rfl
  | cons x l ih => exact ih _

/-- The entries of a slot's table, written one after the other, read as they were written. -/
theorem quantSet_fold (b sl : Nat) (hsl : sl < 32) (f : Nat → Word) (n : Nat) (hn : n ≤ 8) (s : State) : ∀ i < 8,
    quantWord ((List.range n).foldl (fun t e => quantSet t b sl e (f e)) s) b sl i = if i < n then (f i).toNat else quantWord s b sl i := by
  induction n with
  | zero => exact fun i _ => rfl
  | succ n ih =>
    intro i hi
    have before := ih (by omega) i hi
    rw [List.range_succ, List.foldl_append, List.foldl_cons, List.foldl_nil]
    by_cases here : i = n
    · rw [here, quantSet_word _ b sl n (f n) hsl (by omega), if_pos (by omega)]
    · rw [quantSet_word_other _ b sl n (f n) hsl i hi here, before]
      by_cases below : i < n
      · rw [if_pos below, if_pos (by omega)]
      · rw [if_neg below, if_neg (by omega)]

theorem slotown_regPut (s : State) (b sl v : Nat) (small : v < 2 ^ 64) : slotown (regPut s b (0x18800 + 8 * sl) (word v)) b sl = v := by
  unfold slotown
  rw [regGet_regPut_same]
  unfold word
  rw [BitVec.toNat_ofNat]
  exact Nat.mod_eq_of_lt small

theorem quantWord_slotown (s : State) (b sl e : Nat) (v : Word) (hsl : sl < 32) (he : e < 8) : quantWord (regPut s b (0x18800 + 8 * sl) v) b sl e = quantWord s b sl e := by
  unfold quantWord
  rw [regGet_regPut_offset _ _ _ _ _ (by omega)]

/-- The table's one entry of a lent slot. -/
def lentEntry (vf e : Nat) : Word := if e = 0 then word (vf + 2 ^ 9) else 0

theorem lentEntry_toNat (vf e : Nat) (hvf : vf < 384) : (lentEntry vf e).toNat = if e = 0 then vf + 2 ^ 9 else 0 := by
  unfold lentEntry
  split
  · unfold word
    rw [BitVec.toNat_ofNat]
    omega
  · rfl

/-- The clause about SLOT_LEND. -/
theorem slotLend_lends (s : State) (b sl vf : Nat) (hsl : sl < 32) (runs : bhRuns s b = true) (hvf : vf < 384) :
    let w := slotown s b sl
    let owner := bits w 0 9
    lendable s b sl = true → ownerNeeds s b sl = false → vf ≠ owner → sameTenant s owner vf = true → slotDemand s b sl vf = true → lendTurn s b sl vf = true →
      budgetOk s (vfRcbAddr s vf) .slot 1 = true → vfEnabled s vf = true → (tableVfs s b).length < 64 → (getSlot s b sl).st = .idle →
      ∃ t : State, exec (.slotLend b sl vf) s = .next t ∧
        quantWord t b sl 0 = vf + 2 ^ 9 ∧ (∀ e, 0 < e → e < 8 → quantWord t b sl e = 0) ∧ slotown t b sl = w % 2 ^ 10 + 2 ^ 10 + vf * 2 ^ 11 ∧
        (getSlot t b sl).displaced = (List.range 8).map fun e => word (quantWord s b sl e) := by
  intro w owner lend free other tenant demand turn budget enabled few idle
  let s2 := (List.range 8).foldl (fun t e => quantSet t b sl e (lentEntry vf e)) (slotReset (foldSlot s b sl) b sl)
  let s3 := regPut s2 b (0x18800 + 8 * sl) (word (w % 2 ^ 10 + 2 ^ 10 + vf * 2 ^ 11))
  let t := modSlot s3 b sl fun x => { x with borrowed := [0], displaced := (List.range 8).map fun e => word (quantWord s b sl e), reclaim := false }
  have step : exec (.slotLend b sl vf) s = .next t := by
    change execSlotLend b sl vf s = _
    unfold execSlotLend
    dsimp only
    rw [if_neg]
    · rfl
    · rw [runs, lend, free, demand, turn, budget, enabled, show sameTenant s (bits (slotown s b sl) 0 9) vf = true from tenant]
      rintro (h | h | h | h | h | h | h | h | h | h | h)
      · cases h
      · cases h
      · cases h
      · exact other h
      · cases h
      · cases h
      · cases h
      · cases h
      · cases h
      · omega
      · exact h.1 idle
  have words (e : Nat) (he : e < 8) : quantWord t b sl e = if e = 0 then vf + 2 ^ 9 else 0 := by
    have written := quantSet_fold b sl hsl (lentEntry vf) 8 (by omega) (slotReset (foldSlot s b sl) b sl) e he
    rw [if_pos he, lentEntry_toNat vf e hvf] at written
    rw [← written, ← quantWord_slotown s2 b sl e (word (w % 2 ^ 10 + 2 ^ 10 + vf * 2 ^ 11)) hsl he]
    exact congrArg BitVec.toNat (regGet_congr (modSlot_regs _ _ _ _) _ _)
  refine ⟨t, step, words 0 (by omega), fun e pos he => ?_, ?_, ?_⟩
  · rw [words e he, if_neg (by omega)]
  · have same : slotown t b sl = slotown s3 b sl := congrArg BitVec.toNat (regGet_congr (modSlot_regs _ _ _ _) _ _)
    rw [same]
    exact slotown_regPut s2 b sl _ (by omega)
  · change (getSlot (modSlot s3 b sl _) b sl).displaced = _
    rw [getSlot_modSlot, if_pos rfl]

end Sys2Proof.Machine
end

section
/-! SUPPORT. What the answers of requests and commands, the operations of FRZCTL and the arrival of tokens leave of the slots (R385, R393, R417, R418). -/

namespace Sys2Proof.Machine

open Host

theorem newError_steady (s : State) (src code : Nat) : Steady s (newError s src code).2 := .of_same rfl rfl

theorem cmdReply_steady (s : State) (c : Cmd) (k : Kind) (v : Word) (fx : List Effect) : Steady s (cmdReply s c k v fx) := by
  obtain ⟨_, _, _, _, _, ended, -⟩ := cmdEnd_only s c
  unfold cmdReply pushReply
  dsimp only
  refine Steady.trans (t := cmdEnd s c) ?_ (.of_same (pushIssued_slots _ _ _ _ _ _ _ _) (pushIssued_bhs _ _ _ _ _ _ _ _))
  rw [ended]
  exact .of_same rfl rfl

theorem detach_steady (s : State) (g : Placed) (d i pe src lid : Nat) : Steady s (detach s g d i pe src lid) := by
  unfold detach
  dsimp only
  split
  · exact .refl s
  · refine Steady.trans ?_ (postEvent_steady _ _ _ _ _ _ _)
    exact .of_same rfl rfl

theorem sinkCount_steady (s : State) (b vf lid : Nat) (payload : Word) : Steady s (sinkCount s b vf lid payload) := by
  unfold sinkCount
  split
  · refine Steady.trans ?_ (postEvent_steady _ _ _ _ _ _ _)
    exact .of_same rfl rfl
  · exact postEvent_steady _ _ _ _ _ _ _

theorem toSink_steady (s : State) (b vf lid : Nat) (payload : Word) : Steady s (toSink s b vf lid payload) := by
  unfold toSink
  dsimp only
  split
  · split
    · exact (sinkCount_steady _ _ _ _ _).trans (haltLaunch_steady _ _ _)
    · exact sinkCount_steady _ _ _ _ _
  · exact sinkCount_steady _ _ _ _ _

theorem orVfFlags_steady (s : State) (vf : Nat) (fl : BitVec 9) : Steady s (orVfFlags s vf fl) := by
  unfold orVfFlags
  split
  · exact .refl s
  · split
    · exact regPut_steady _ _ _ _
    · dsimp only
      split
      · exact .refl s
      · exact (ownMeet_steady s vf true _ 8).trans (memPutLe_steady _ _ _ _)

theorem creditFlags_steady (s : State) (vf lid : Nat) (fl : BitVec 9) : Steady s (creditFlags s vf lid fl) := by
  unfold creditFlags
  dsimp only
  split
  · exact orVfFlags_steady s vf fl
  · exact (orVfFlags_steady s vf fl).trans (.of_same rfl rfl)

theorem raiseFlags_steady (s : State) (f : Firing) (fl : BitVec 9) : Steady s (raiseFlags s f fl) := by
  unfold raiseFlags
  dsimp only
  split
  · exact creditFlags_steady _ _ _ _
  · exact (creditFlags_steady _ _ _ _).trans (postEvent_steady _ _ _ _ _ _ _)

theorem leaveSettle_steady (s : State) : Steady s (leaveSettle s) := by
  unfold leaveSettle
  dsimp only
  split
  · exact .refl s
  · exact (dropStores_steady s _).trans (.of_same rfl rfl)

theorem storeLost_steady (s : State) (b vf lid pa code : Nat) : Steady s (storeLost s b vf lid pa code) := postEvent_steady _ _ _ _ _ _ _

theorem partsLost_steady (s : State) (r : Req) : Steady s (partsLost s r) := Steady.foldl (fun t _ => storeLost_steady t _ _ _ _ _) _ s

theorem pubLost_steady (s : State) (r : Req) (pe : Nat) : Steady s (pubLost s r pe) := by
  unfold pubLost
  refine Steady.foldl (fun t x => ?_) _ s
  split
  · exact (newError_steady t _ _).trans (toSink_steady _ _ _ _ _)
  · exact storeLost_steady _ _ _ _ _ _

theorem redFlags_steady (s : State) (r : Req) : Steady s (redFlags s r) := by
  unfold redFlags
  split
  · exact raiseFlags_steady _ _ _
  · exact creditFlags_steady _ _ _ _

/-- The outcome of a request that has finished reaches whoever is told of it (R167, R173). -/
theorem reqSettle_steady (s : State) (id : Nat) : Steady s (reqSettle s id) := by
  unfold reqSettle
  split
  · exact .refl s
  · next r _ =>
    split
    · split
      · exact leaveSettle_steady s
      · exact .refl s
    · have done := reqDel_steady s id
      split
      · dsimp only
        have credited := done.trans (redFlags_steady _ r)
        split
        · exact credited
        · split
          · exact credited.trans (partsLost_steady _ _)
          · exact credited.trans (toSink_steady _ _ _ _ _)
      · exact (done.trans (pubLost_steady _ _ _)).trans (leaveSettle_steady _)
      · split
        · exact .refl s
        · exact done.trans (partsLost_steady _ _)
      · exact done
      · exact .refl s

theorem reqFail_steady (s : State) (r : Req) (v : Word) : Steady s (reqFail s r v) := by
  unfold reqFail
  split
  · dsimp only
    have gone (tag : Option Nat) (f : PStore → Bool) : Steady s (dropStores (tagFollow (reqDel s r.id) r tag) f) :=
      ((reqDel_steady s r.id).trans (tagFollow_steady _ _ _)).trans (dropStores_steady _ _)
    split
    · exact (gone _ _).trans (modCtx_steady _ _ _ _ _)
    · exact (gone _ _).trans (toSink_steady _ _ _ _ _)
  · exact (reqPut_steady s _).trans (reqSettle_steady _ _)

theorem OnlyStarts.steady {s t : State} (h : OnlyStarts s t) : Steady s t := by
  obtain ⟨_, _, _, _, _, rfl, -⟩ := h
  exact .of_same rfl rfl

theorem engineStart_steady (s : State) (a : Agent) : Steady s (engineStart s a) := (startFrom_starts 4 s a).steady

theorem releaseMaster_steady (s : State) (b : Nat) (m : MasterId) : Steady s (releaseMaster s b m) := by
  unfold releaseMaster
  split
  · exact modPE_steady _ _ _ _
  · exact modBulk_steady _ _ _ rfl rfl

theorem masterGo_steady (s : State) (b : Nat) (m : MasterId) : Steady s (masterGo s b m) := (releaseMaster_steady s b m).trans (engineStart_steady _ _)

/-- The operations of FRZCTL (R418). -/
theorem frzApply_steady (s : State) (b op : Nat) (m : MasterId) (vf : Nat) : Steady s (frzApply s b op m vf) := by
  unfold frzApply
  split
  · unfold frzRetry
    dsimp only
    refine Steady.trans (Steady.trans (Steady.foldl (fun t r => ?_) _ s) (Steady.foldl (fun t c => ?_) _ _)) (masterGo_steady _ _ _)
    · exact .of_same rfl rfl
    · exact .of_same rfl rfl
  · unfold frzFail
    dsimp only
    refine Steady.trans (Steady.trans (Steady.trans (releaseMaster_steady s b m) (Steady.foldl (fun t r => ?_) _ _)) (Steady.foldl (fun t c => ?_) _ _)) (masterGo_steady _ _ _)
    · exact (newError_steady t _ _).trans (reqFail_steady _ _ _)
    · exact (newError_steady t _ _).trans (cmdReply_steady _ _ _ _ _)
  · exact freezeMaster_steady _ _ _ _ _
  · exact .refl s

theorem spill_steady (s : State) (t : Token) : Steady s (spill s t) := by
  unfold spill
  dsimp only
  refine Steady.trans ?_ (memPutLe_steady _ _ _ _)
  refine Steady.trans ?_ (memPutLe_steady _ _ _ _)
  exact (saveMeet_steady _ _ _ _).trans (ownMeet_steady _ _ _ _ _)

theorem arrivalError_steady (s : State) (t : Token) (code : Nat) : Steady s (arrivalError s t code) := by
  unfold arrivalError
  dsimp only
  exact ((dropToken_steady s _ _ _ _ _).trans (newError_steady _ _ _)).trans (toSink_steady _ _ _ _ _)

theorem slotOperand_steady (s : State) (o : OpInfo) (n : Node) (t : Token) (x : Port) (y : Option Operand) : Steady s (slotOperand s o n t x y).2 := by
  unfold slotOperand
  dsimp only
  split
  · exact .refl s
  · split
    · exact .refl s
    · split
      · exact .refl s
      · exact .of_same rfl rfl

/-- A token of a VF that does not stand at its PE goes to its spill ring, or is counted lost (R393). -/
theorem strayToken_steady {s u : State} {t : Token} (h : (strayToken s t).1 = some u) : Steady s u := by
  unfold strayToken at h
  dsimp only at h
  split at h
  · cases h
    refine Steady.trans ?_ (postEvent_steady _ _ _ _ _ _ _)
    split
    · exact modCtx_steady _ _ _ _ _
    · exact .refl s
  · split at h
    · cases h
      exact spill_steady s t
    · cases h

/-- A comb.ar takes a token, keeps it for later, or refuses it (R398, R399). -/
theorem combine_steady {s : State} {f : Firing} {n : Node} {x : State × List Word} (h : combine s f n = some x) : Steady s x.1 := by
  unfold combine at h
  dsimp only at h
  split at h
  · cases h
    exact (newError_steady s _ _).trans (toSink_steady _ _ _ _ _)
  · split at h
    · cases h
      exact postEvent_steady _ _ _ _ _ _ _
    · split at h
      · split at h
        · cases h
        · cases h
          exact modPE_steady _ _ _ _
      · cases h
        exact modPE_steady _ _ _ _

theorem placeComb_steady {s u : State} {c : Placed} {o : OpInfo} {n : Node} {t : Token} {vc : Nat} (h : placeComb s c o n t vc = some u) : Steady s u := by
  have enters {v w : State} {g : Firing} (hv : Steady s v)
      (e : (if readyRoom (getPE s t.bh t.pe) vc then some (modPE v t.bh t.pe fun p => { p with ready := p.ready ++ [g] }) else none) = some w) : Steady s w := by
    split at e
    · cases e
      exact hv.trans (modPE_steady _ _ _ _)
    · cases e
  unfold placeComb at h
  dsimp only at h
  split at h
  · exact enters (.refl s) h
  · split at h
    · cases h
    · next made =>
      cases h
      exact combine_steady made
    · next made => exact enters (combine_steady made) h

theorem placeToken_steady {s u : State} {c : Placed} {o : OpInfo} {n : Node} {t : Token} {vc : Nat} (h : placeToken s c o n t vc = some u) : Steady s u := by
  have ready (v : State) (p : PE) (l r pp : Option Operand) : Steady v (enterReady v p c o t vc l r pp) := .of_same rfl rfl
  unfold placeToken at h
  dsimp only at h
  split at h
  · exact placeComb_steady h
  · split at h
    · split at h
      · cases h
      · cases h
        exact ready _ _ _ _ _
    · split at h
      · cases h
        exact ((dropToken_steady _ _ _ _ _ _).trans (newError_steady _ _ _)).trans (toSink_steady _ _ _ _ _)
      · cases h
        exact .of_same rfl rfl
      · split at h
        · cases h
        · cases h
          exact (((slotOperand_steady s _ _ _ _ _).trans (slotOperand_steady _ _ _ _ _ _)).trans (slotOperand_steady _ _ _ _ _ _)).trans (ready _ _ _ _ _)

theorem takeToken_steady {s u : State} {x : Flight} (h : takeToken s x = some u) : Steady s u := by
  unfold takeToken at h
  dsimp only at h
  split at h
  · exact strayToken_steady h
  · split at h
    · cases h
      exact arrivalError_steady _ _ _
    · cases h
      exact arrivalError_steady _ _ _
    · split at h
      · split at h
        · cases h
        · cases h
          exact modPE_steady _ _ _ _
      · exact placeToken_steady h

theorem unspill_steady (s : State) (t : Token) : Steady s (unspill s t) := by
  unfold unspill
  dsimp only
  split
  · exact modPE_steady _ _ _ _
  · split
    · next taken => exact takeToken_steady taken
    · exact modPE_steady _ _ _ _

/-- A slot's spill ring is delivered (R393, R432). -/
theorem ringDeliver_steady (s : State) (b vf sl : Nat) : Steady s (ringDeliver s b vf sl) := by
  unfold ringDeliver
  dsimp only
  split
  · exact .refl s
  · refine Steady.trans ?_ (Steady.foldl unspill_steady _ _)
    refine Steady.trans ?_ (memPutLe_steady _ _ _ _)
    exact (ownMeet_steady s vf true _ 16).trans (Steady.foldl (fun t _ => ownMeet_steady t vf true _ 16) _ _)

end Sys2Proof.Machine
end

section
/-! SUPPORT. The reclaim of a lent slot (R394), and the restore of a context (R432). -/

namespace Sys2Proof.Machine

open Host

theorem Steady.getSlot {s t : State} (h : Steady s t) (b sl : Nat) : getSlot t b sl = Machine.getSlot s b sl := getSlot_congr h.1 b sl

theorem xfersEnd_steady (s : State) (b sl vf : Nat) : Steady s (xfersEnd s b sl vf) :=
  Steady.foldl (fun t _ => (newError_steady t _ _).trans (cmdReply_steady _ _ _ _ _)) _ s

theorem consumersDetach_steady (s : State) (b sl vf : Nat) : Steady s (consumersDetach s b sl vf) := by
  unfold consumersDetach
  refine Steady.foldl (fun t g => Steady.foldl (fun u x => ?_) _ t) _ s
  dsimp only
  split
  · exact .refl u
  · refine Steady.foldl (fun a i => ?_) _ u
    split
    · exact .refl a
    · split
      · exact detach_steady _ _ _ _ _ _ _
      · exact .refl a

/-- A slot whose loan has ended is lent no longer. -/
theorem loanEnd_returns (s : State) (b sl : Nat) : bitAt (slotown (loanEnd s b sl) b sl) 10 = false := by
  unfold loanEnd
  dsimp only
  split
  · next h => simpa using h
  · generalize (List.range 8).foldl (fun t e => quantSet t b sl e ((getSlot s b sl).displaced.getD e 0)) s = u
    have kept : slotown (modSlot (regPut u b (0x18800 + 8 * sl) (word (slotown s b sl % 2 ^ 10))) b sl fun y => { y with borrowed := [], displaced := [], reclaim := false })
        b sl = slotown s b sl % 2 ^ 10 :=
      (congrArg BitVec.toNat (regGet_congr (modSlot_regs _ _ _ _) _ _)).trans (slotown_regPut u b sl _ (by omega))
    rw [kept]
    unfold bitAt
    rw [beq_eq_false_iff_ne]
    omega

/-- The clause about SLOT_RECLAIM. -/
theorem slotReclaim_ends (s : State) (b sl : Nat) (runs : bhRuns s b = true) (due : reclaimDue s b sl = true) (fresh : (getSlot s b sl).reclaim = false) :
    ((getSlot s b sl).st = .resident → (getSlot s b sl).vf = bits (slotown s b sl) 11 9 → ∃ t : State, exec (.slotReclaim b sl) s = .next t ∧
        (getSlot t b sl).reclaim = true ∧ (getSlot t b sl).st = .saving) ∧
      ((getSlot s b sl).st = .idle → ∃ t : State, exec (.slotReclaim b sl) s = .next t ∧ bitAt (slotown t b sl) 10 = false) := by
  let vf := bits (slotown s b sl) 11 9
  let s1 := modSlot (consumersDetach (xfersEnd s b sl vf) b sl vf) b sl fun y => { y with reclaim := true }
  have step : exec (.slotReclaim b sl) s = .next (match (getSlot s b sl).st with
      | .resident => switchOut s1 b sl vf
      | .saving => s1
      | _ => loanEnd (modSlot (foldSlot s1 b sl) b sl fun y => { y with st := .idle, vf := 0 }) b sl) := by
    change execSlotReclaim b sl s = _
    unfold execSlotReclaim
    dsimp only
    exact congrArg Outcome.next (if_neg (by simp [runs, due, fresh]))
  have slot : getSlot s1 b sl = { getSlot s b sl with reclaim := true } := by
    change getSlot (modSlot _ b sl _) b sl = _
    rw [getSlot_modSlot, if_pos rfl, ((xfersEnd_steady s b sl vf).trans (consumersDetach_steady _ b sl vf)).getSlot]
  rw [step]
  constructor
  · intro resident here
    rw [resident]
    obtain ⟨-, there⟩ := switchOut_saves s1 b sl vf (by rw [slot]; exact resident) (by rw [slot]; exact here)
    refine ⟨_, rfl, ?_, ?_⟩
    · rw [there, slot]
    · rw [there]
  · intro idle
    rw [idle]
    exact ⟨_, rfl, loanEnd_returns _ b sl⟩

/-- What stands in a slot. -/
def standing (s : State) (b k : Nat) : SlotState × Nat := ((getSlot s b k).st, (getSlot s b k).vf)

theorem standing_congr {s t : State} (h : t.slots = s.slots) (b k : Nat) : standing t b k = standing s b k := by
  unfold standing
  rw [getSlot_congr h]

theorem standing_saved (s : State) (l : List Saved) (b k : Nat) : standing { s with saved := l } b k = standing s b k := rfl

theorem charge_standing (s : State) (b pe cls count k : Nat) : standing (charge s b pe cls count) b k = standing s b k := by
  unfold charge
  dsimp only
  split
  · rfl
  · unfold standing
    rw [getSlot_modSlot]
    split
    · next same =>
      have : k = slotOf pe := by omega
      rw [this]
    · rfl

theorem slotReset_other (s : State) (b sl k : Nat) (apart : k ≠ sl) : getSlot (slotReset s b sl) b k = getSlot s b k := by
  have keys : ¬ b * 32 + k = b * 32 + sl := by omega
  unfold slotReset slotClear
  dsimp only
  rw [getSlot_modSlot, if_neg keys, getSlot_modSlot, if_neg keys]
  refine getSlot_congr ?_ b k
  rw [modBulk_slots, (links_fold_contexts b (slotClusters sl) _).2.2, (modPE_fold_saved b peCleared _ s).2]

theorem blockMeet_steady (s : State) (vf blk : Nat) (pes : List (Nat × PE)) : Steady s (blockMeet s vf blk pes) := by
  unfold blockMeet
  refine Steady.trans ((ownMeet_steady s vf true blk _).trans (ownMeet_steady _ vf true _ _)) (Steady.foldl (fun t e => ?_) _ _)
  exact (ownMeet_steady t vf true _ _).trans (Steady.foldl (fun u _ => ownMeet_steady u vf true _ _) _ _)

theorem slots_foldl {α : Type} {f : State → α → State} (step : ∀ t e, (f t e).slots = t.slots) (l : List α) (s : State) : (l.foldl f s).slots = s.slots := by
  induction l generalizing s with
  | nil => rfl
  | cons e l ih => exact (ih _).trans (step s e)

theorem slotRestore_standing (s : State) (b sl vf blk : Nat) (cur old : Slot) :
    ((slotRestore s b sl vf blk cur old).st, (slotRestore s b sl vf blk cur old).vf) = (.resident, vf) := by
  unfold slotRestore
  dsimp only
  split
  · rfl
  · rfl

/-- A VF that is loaded into a slot stands there, and other slots stay as they stand. -/
theorem slotLoad_standing (s : State) (b vf sl k : Nat) : standing (slotLoad s b vf sl) b k = if k = sl then (.resident, vf) else standing s b k := by
  have met := saveMeet_steady s vf b sl
  unfold slotLoad
  dsimp only
  generalize saveMeet s vf b sl = u at met ⊢
  rw [← standing_congr met.1 b k]
  split
  · unfold standing
    rw [getSlot_modSlot]
    by_cases here : k = sl
    · subst here
      simp
    · have keys : ¬ b * 32 + k = b * 32 + sl := by omega
      rw [if_neg keys, if_neg here, slotReset_other u b sl k here]
  · next x _ =>
    have block := (blockMeet_steady u vf (saveBlock (saveWord u vf b sl)) x.pes).1
    generalize blockMeet u vf (saveBlock (saveWord u vf b sl)) x.pes = m at block ⊢
    have placed := (slots_foldl (f := fun t (e : Nat × PE) => setPE t b e.1 { peRestore m (peArea (saveBlock (saveWord u vf b sl)) e.1) e.2 with
      instr := instrReload t b e.1 vf e.2.instr, spoilt := spoiltReload t b e.1 vf e.2.spoilt }) (fun t e => setPE_slots t b e.1 _) x.pes m).trans block
    generalize x.pes.foldl (fun t (e : Nat × PE) => setPE t b e.1 { peRestore m (peArea (saveBlock (saveWord u vf b sl)) e.1) e.2 with
      instr := instrReload t b e.1 vf e.2.instr, spoilt := spoiltReload t b e.1 vf e.2.spoilt }) m = v at placed ⊢
    have linked := (slots_foldl (f := fun t (c : Nat × List PairMsg) => { t with links := sput [] t.links (b * 128 + c.1) c.2 }) (fun _ _ => rfl) x.links v).trans placed
    generalize x.links.foldl (fun t (c : Nat × List PairMsg) => { t with links := sput [] t.links (b * 128 + c.1) c.2 }) v = w at linked ⊢
    generalize hz : modBulk w b (fun y => { y with frozenUnits := y.frozenUnits ++ x.units }) = z
    have bulk : z.slots = u.slots := by
      rw [← hz, modBulk_slots]
      exact linked
    generalize hr : slotRestore u b sl vf (saveBlock (saveWord u vf b sl)) (getSlot u b sl) x.slot = back
    have stands : (back.st, back.vf) = (SlotState.resident, vf) := by
      rw [← hr]
      exact slotRestore_standing _ _ _ _ _ _ _
    generalize mem64 u (saveBlock (saveWord u vf b sl)) / 2 * 2 = v1
    have put := (memPutLe_steady (setSlot z b sl back) (saveBlock (saveWord u vf b sl)) 8 v1).1
    generalize memPutLe (setSlot z b sl back) (saveBlock (saveWord u vf b sl)) 8 v1 = s5 at put ⊢
    unfold chargeKib
    rw [charge_standing]
    rw [standing_saved, standing_congr put]
    unfold standing
    rw [getSlot_setSlot]
    by_cases here : k = sl
    · rw [if_pos (by omega), if_pos here]
      exact stands
    · rw [if_neg (by omega), if_neg here, getSlot_congr bulk]

end Sys2Proof.Machine
end

section
/-! SUPPORT. A restore makes its VF resident, whatever the context that comes back brings about (R432). -/

namespace Sys2Proof.Machine

open Host

theorem fst_slots_foldl {α β : Type} {f : State × β → α → State × β} (step : ∀ a x, (f a x).1.slots = a.1.slots) (l : List α) (a : State × β) :
    (l.foldl f a).1.slots = a.1.slots := by
  induction l generalizing a with
  | nil => rfl
  | cons x l ih => exact (ih _).trans (step a x)

theorem pageTouch_slots (s : State) (b vf vpn : Nat) : (pageTouch s b vf vpn).slots = s.slots := by
  have read := (walkMeet_steady vf (vpn * 2 ^ 14) (tenstk s b) 3 1 (bits (vfRoot s vf) 14 34 * 2 ^ 14) s).1
  unfold pageTouch
  dsimp only
  split
  · rfl
  · split
    · split
      · exact read
      · exact (modBulk_slots _ b _).trans read
    · exact read

/-- What the region sequencer reads at a restore leaves the slots (R432). -/
theorem vaRead_slots (s : State) (b vf va n : Nat) : (vaRead s b vf va n).1.slots = s.slots := by
  unfold vaRead
  refine fst_slots_foldl (fun a p => ?_) _ _
  obtain ⟨u, bs⟩ := a
  cases bs with
  | none => rfl
  | some bs =>
    dsimp only
    have touched := pageTouch_slots u b vf (p.1 / 2 ^ 14)
    split
    · exact touched
    · split
      · exact touched
      · exact (ownMeet_steady _ vf true _ _).1.trans touched

theorem cfgReread_slots (s : State) (c : Placed) : (cfgReread s c).slots = s.slots := by
  have head := vaRead_slots s c.bh c.vf c.image 64
  unfold cfgReread
  dsimp only
  split
  · exact head
  · next hb _ =>
    have image := (vaRead_slots (vaRead s c.bh c.vf c.image 64).1 c.bh c.vf c.image (imageOf hb).size).trans head
    split
    · exact image
    · split
      · exact image
      · exact (slots_foldl (fun t x => modPE_slots t c.bh _ _) _ _).trans image

theorem cfgsReload_slots (s : State) (b vf : Nat) : (cfgsReload s b vf).slots = s.slots := by
  unfold cfgsReload
  refine slots_foldl (fun t c => ?_) _ s
  dsimp only
  split
  · exact cfgReread_slots t c
  · exact cfgReread_slots t c

theorem boundaryOver_steady (s : State) (b pe : Nat) (keys : List Nat) (hit : Firing → Bool) : Steady s (boundaryOver s b pe keys hit) := by
  unfold boundaryOver
  split
  · exact .refl s
  · exact modPE_steady _ _ _ _

theorem peClean_steady (s : State) (b pe : Nat) : Steady s (peClean s b pe) := by
  unfold peClean
  dsimp only
  refine Steady.trans ?_ (Steady.foldl (fun t _ => frameFree_steady t b pe _) _ _)
  exact (readyDiscard_steady s b pe _).trans (boundaryOver_steady _ b pe _ _)

theorem tagsBack_steady (s : State) (b vf pe : Nat) : Steady s (tagsBack s b vf pe) := by
  unfold tagsBack
  exact Steady.trans (modPE_steady s b pe _) (Steady.foldl (fun t r => tagFollow_steady t r _) _ _)

theorem frzPending_steady (s : State) (b vf : Nat) : Steady s (frzPending s b vf) := by
  unfold frzPending
  dsimp only
  refine Steady.trans ?_ (Steady.foldl (fun t e => frzApply_steady t b _ _ _) _ _)
  exact modBulk_steady _ _ _ rfl rfl

theorem slotLoads_standing (b vf sl : Nat) (l : List Nat) (s : State) (h : sl ∈ l ∨ standing s b sl = (.resident, vf)) :
    standing (l.foldl (fun t y => slotLoad t b vf y) s) b sl = (.resident, vf) := by
  induction l generalizing s with
  | nil => exact h.resolve_left (List.not_mem_nil)
  | cons y l ih =>
    rw [List.foldl_cons]
    refine ih _ ?_
    rw [slotLoad_standing]
    by_cases here : sl = y
    · exact .inr (if_pos here)
    · rw [if_neg here]
      exact h.imp_left fun mem => (List.mem_cons.mp mem).resolve_left here

/-- After the restore of a group its VF is resident in every slot of it. -/
theorem restoreGroup_standing (s : State) (b vf sl : Nat) (g : List Nat) (mem : sl ∈ g) : standing (restoreGroup s b vf g) b sl = (.resident, vf) := by
  have loaded := slotLoads_standing b vf sl g s (.inl mem)
  unfold restoreGroup
  dsimp only
  generalize g.foldl (fun t sl => slotLoad t b vf sl) s = u at loaded ⊢
  have reloaded := cfgsReload_slots u b vf
  generalize cfgsReload u b vf = v at reloaded ⊢
  have cleaned : Steady v ((g.map slotPes).flatten.foldl (fun t pe => tagsBack (peClean t b pe) b vf pe) v) :=
    Steady.foldl (fun t pe => (peClean_steady t b pe).trans (tagsBack_steady _ b vf pe)) _ v
  have rest := ((cleaned.trans (frzPending_steady _ b vf)).trans (Steady.foldl engineStart_steady (g.map (slotEngines b)).flatten _)).trans
    (Steady.foldl (fun t sl => ringDeliver_steady t b vf sl) g _)
  exact (standing_congr (rest.1.trans reloaded) b sl).trans loaded

theorem restoreVf_waits {s : State} {b sl vf : Nat} (h : restoreVf s b sl = some vf) : (getSlot s b sl).st ≠ .resident := by
  intro resident
  unfold restoreVf at h
  dsimp only at h
  rw [resident] at h
  cases h

end Sys2Proof.Machine
end

section
/-! SUPPORT. The reset of a VF takes its launches, its tasks and its stores away (R419); the statement about slots. -/

namespace Sys2Proof.Machine

open Host

/-- Launches, tasks and pending stores stay. -/
def WorkSame (s t : State) : Prop := t.launches = s.launches ∧ t.tasks = s.tasks ∧ t.stores = s.stores

theorem WorkSame.refl (s : State) : WorkSame s s := ⟨rfl, rfl, rfl⟩

theorem WorkSame.trans {s t u : State} (h : WorkSame s t) (g : WorkSame t u) : WorkSame s u :=
  ⟨g.1.trans h.1, g.2.1.trans h.2.1, g.2.2.trans h.2.2⟩

theorem WorkSame.foldl {α : Type} {f : State → α → State} (step : ∀ s x, WorkSame s (f s x)) (l : List α) (s : State) : WorkSame s (l.foldl f s) := by
  induction l generalizing s with
  | nil => exact .refl s
  | cons x l ih => exact (step s x).trans (ih _)

theorem OnlyAccounts.work {s t : State} (h : OnlyAccounts s t) : WorkSame s t := by
  obtain ⟨_, _, _, _, _, _, _, _, _, rfl⟩ := h
  exact .refl s

theorem modPE_work (s : State) (b pe : Nat) (f : PE → PE) : WorkSame s (modPE s b pe f) := ⟨rfl, rfl, rfl⟩
theorem modSlot_work (s : State) (b sl : Nat) (f : Slot → Slot) : WorkSame s (modSlot s b sl f) := ⟨rfl, rfl, rfl⟩
theorem modBulk_work (s : State) (b : Nat) (f : Bulk → Bulk) : WorkSame s (modBulk s b f) := ⟨rfl, rfl, rfl⟩

theorem slotReset_work (s : State) (b sl : Nat) : WorkSame s (slotReset s b sl) := by
  unfold slotReset slotClear
  dsimp only
  refine WorkSame.trans ?_ (modSlot_work _ _ _ _)
  refine WorkSame.trans ?_ (modSlot_work _ _ _ _)
  refine WorkSame.trans ?_ (modBulk_work _ _ _)
  refine WorkSame.trans ?_ (WorkSame.foldl (f := fun t c => { t with links := sput [] t.links (b * 128 + c) [] }) (fun _ _ => ⟨rfl, rfl, rfl⟩) _ _)
  exact WorkSame.foldl (fun t pe => modPE_work t b pe _) _ s

theorem foldSlot_work (s : State) (b sl : Nat) : WorkSame s (foldSlot s b sl) :=
  WorkSame.trans ⟨rfl, rfl, rfl⟩ (foldSlot_accounts s b sl).work

theorem peBudget_accounts (s : State) (p : PE) : OnlyAccounts s (peBudget s p) := by
  unfold peBudget
  dsimp only
  refine OnlyAccounts.trans (OnlyAccounts.foldl (fun t e => budgetMove_accounts t _ .frame _ _) _ s) (OnlyAccounts.foldl (fun t e => ?_) _ _)
  split
  · exact .refl t
  · exact budgetMove_accounts t _ .page _ _

theorem savedDrop_work (s : State) (vf b sl : Nat) : WorkSame s (savedDrop s vf b sl) := by
  have met := (saveMeet_access s vf b sl).accounts.work
  unfold savedDrop
  dsimp only
  split
  · exact met.trans ⟨rfl, rfl, rfl⟩
  · refine WorkSame.trans ?_ (memPutLe_accounts _ _ _ _).work
    refine WorkSame.trans ?_ (memPutLe_accounts _ _ _ _).work
    refine WorkSame.trans ?_ (ownWord_accounts _ vf _).work
    exact met.trans ⟨rfl, rfl, rfl⟩

theorem vfSlotsClear_work (s : State) (bs : List Nat) (vf : Nat) : WorkSame s (vfSlotsClear s bs vf) := by
  unfold vfSlotsClear
  dsimp only
  refine WorkSame.trans (WorkSame.trans (WorkSame.foldl (fun t x => ?_) _ s) (WorkSame.foldl (fun t x => ?_) _ _)) (WorkSame.foldl (fun t x => savedDrop_work t vf _ _) _ _)
  · refine WorkSame.trans ?_ (slotReset_work _ _ _)
    exact (foldSlot_work t _ _).trans (WorkSame.foldl (fun a pe => (peBudget_accounts a _).work) _ _)
  · exact WorkSame.foldl (fun u (e : Nat × PE) => (peBudget_accounts u e.2).work) _ t

theorem entriesBack_work (s : State) (p : PStore) : WorkSame s (entriesBack s p) := ⟨rfl, rfl, rfl⟩

/-- Stores that are dropped go, and no other work. -/
theorem dropStores_work (s : State) (gone : PStore → Bool) :
    (dropStores s gone).launches = s.launches ∧ (dropStores s gone).tasks = s.tasks ∧ (dropStores s gone).stores = s.stores.filter fun p => !gone p :=
  WorkSame.foldl entriesBack_work (s.stores.filter gone) { s with stores := s.stores.filter fun p => !gone p }

theorem tasksDrop_work (s : State) (hit : Task → Bool) :
    (tasksDrop s hit).launches = s.launches ∧ (tasksDrop s hit).tasks = s.tasks.filter (fun t => !hit t) ∧ (tasksDrop s hit).stores = s.stores := by
  obtain ⟨launches, tasks, stores⟩ := (OnlyAccounts.foldl (fun t k => budgetMove_accounts t (taskPayer s k) .task 0 1) (s.tasks.filter hit) s).work
  exact ⟨launches, congrArg (List.filter _) tasks, stores⟩

theorem qClear_work (s : State) (b q : Nat) : WorkSame s (qClear s b q).2 := by
  rw [qClear_eq]
  split
  · exact .refl s
  · exact ((regPut_accounts _ _ _ _).trans (budgetMove_accounts _ _ _ _ _)).work

/-- One more queue cleared, its entries counted. -/
theorem counted_work {s : State} (n : Nat) (r : Nat × State) (h : WorkSame s r.2) : WorkSame s (n + r.1, r.2).2 := h

theorem counted_foldl_work {α : Type} {f : Nat × State → α → Nat × State} (step : ∀ a x, WorkSame a.2 (f a x).2) (l : List α) (a : Nat × State) :
    WorkSame a.2 (l.foldl f a).2 := by
  induction l generalizing a with
  | nil => exact .refl a.2
  | cons x l ih => exact (step a x).trans (ih _)

theorem vfQueuesClear_work (s : State) (bs : List Nat) (vf : Nat) : WorkSame s (vfQueuesClear s bs vf).2 := by
  unfold vfQueuesClear
  refine counted_foldl_work (fun a q => ?_) _ (0, s)
  have cleared := qClear_work a.2 q.1 q.2
  generalize qClear a.2 q.1 q.2 = r at cleared ⊢
  exact counted_work a.1 r cleared

theorem wstatRefresh_accounts (s : State) (b : Nat) : OnlyAccounts s (wstatRefresh s b) := regPut_accounts _ _ _ _

theorem vfResetDone_work (s : State) (b vf n : Nat) (bs : List Nat) : WorkSame s (vfResetDone s b vf n bs) := by
  unfold vfResetDone
  dsimp only
  split
  · exact (postEvent_access _ _ _ _ _ _ _).accounts.work
  · exact ⟨rfl, rfl, rfl⟩

/-- A VF's slots, stores, tasks and queues have been taken away in some bulkheads (R419). -/
def vfTaken (s : State) (bs : List Nat) (vf : Nat) : Nat × State :=
  vfQueuesClear (tasksDrop (dropStores (vfSlotsClear s bs vf) fun p => p.vf == vf && bs.contains p.bh) fun t => t.vf == vf && bs.contains t.bh) bs vf

/-- Its launches end, and its requests, commands, configurations and tokens go. -/
def vfEnded (s : State) (bs : List Nat) (vf : Nat) : State :=
  let s4 := unbindLids (launchesDrop s fun l => l.vf == vf) ((s.launches.filter fun l => l.vf == vf && l.st != .ended).map fun l => l.lid)
  { reqsOrphan s4 (fun r => r.vf == vf && bs.contains r.bh) with
    cmds := s4.cmds.filter (fun c => c.code == codeHqrec || !(c.f.vf == vf && bs.contains c.f.bh)),
    cfgs := s4.cfgs.filter (fun c => !(c.vf == vf && bs.contains c.bh)),
    flights := s4.flights.filter (fun x => !(x.tok.vf == vf && bs.contains x.tok.bh)) }

/-- A bulkhead keeps nothing of it (R42, R419). -/
def vfUnknown (bs : List Nat) (vf : Nat) (t : State) (a : Nat) : State :=
  wstatRefresh (parksClose (modBulk t a fun x =>
    { x with tlb := x.tlb.filter (fun e => e.vf != vf), mmt := x.mmt.filter (fun e => e.1 != vf), frz := x.frz.filter (fun e => e.2.2 != vf),
             frozenUnits := x.frozenUnits.filter (fun u => !(bs.contains a && u.vf == vf && (masterSlot (.unit u.kind u.idx)).isNone)), posted := x.posted.filter (· != vf),
             cfMode := x.cfMode.filter (fun e => e.1 != vf) }) a) a

theorem vfResetAll_eq (s : State) (b vf : Nat) :
    let bs := partitionBhs s (homeOf vf)
    let q := vfTaken s bs vf
    vfResetAll s b vf = vfResetDone (abandonNotices ((List.range 12).foldl (vfUnknown bs vf) (vfEnded q.2 bs vf)) b vf) b vf (q.1 % 2 ^ 32) bs := by
  unfold vfResetAll vfTaken vfEnded vfUnknown
  dsimp only

theorem vfTaken_work (s : State) (bs : List Nat) (vf : Nat) :
    (vfTaken s bs vf).2.launches = s.launches ∧ (vfTaken s bs vf).2.tasks = s.tasks.filter (fun t => !(t.vf == vf && bs.contains t.bh)) ∧
      (vfTaken s bs vf).2.stores = s.stores.filter (fun p => !(p.vf == vf && bs.contains p.bh)) := by
  unfold vfTaken
  have cleared := vfSlotsClear_work s bs vf
  generalize vfSlotsClear s bs vf = s1 at cleared ⊢
  have dropped := dropStores_work s1 fun p => p.vf == vf && bs.contains p.bh
  generalize dropStores s1 (fun p => p.vf == vf && bs.contains p.bh) = s2 at dropped ⊢
  have ended := tasksDrop_work s2 fun t => t.vf == vf && bs.contains t.bh
  generalize tasksDrop s2 (fun t => t.vf == vf && bs.contains t.bh) = s3 at ended ⊢
  obtain ⟨launches, tasks, stores⟩ := vfQueuesClear_work s3 bs vf
  exact ⟨by rw [launches, ended.1, dropped.1, cleared.1], by rw [tasks, ended.2.1, dropped.2.1, cleared.2.1], by rw [stores, ended.2.2, dropped.2.2, cleared.2.2]⟩

theorem vfUnknown_work (bs : List Nat) (vf : Nat) (t : State) (a : Nat) : WorkSame t (vfUnknown bs vf t a) := by
  unfold vfUnknown parksClose
  exact ((modBulk_work t a _).trans (modBulk_work _ a _)).trans (wstatRefresh_accounts _ a).work

theorem launchesDrop_launches (s : State) (hit : Launch → Bool) :
    (launchesDrop s hit).launches = s.launches.map (fun l => if hit l then { l with st := .ended } else l) ∧ (launchesDrop s hit).tasks = s.tasks ∧
      (launchesDrop s hit).stores = s.stores := ⟨rfl, rfl, rfl⟩

theorem vfEnded_work (s : State) (bs : List Nat) (vf : Nat) :
    (vfEnded s bs vf).launches = s.launches.map (fun l => if l.vf == vf then { l with st := .ended } else l) ∧ (vfEnded s bs vf).tasks = s.tasks ∧
      (vfEnded s bs vf).stores = s.stores := by
  unfold vfEnded
  have dropped := launchesDrop_launches s fun l => l.vf == vf
  generalize launchesDrop s (fun l => l.vf == vf) = d at dropped ⊢
  generalize (s.launches.filter fun l => l.vf == vf && l.st != .ended).map (fun l => l.lid) = lids
  exact dropped

theorem abandonNotices_work (s : State) (b vf : Nat) : WorkSame s (abandonNotices s b vf) := ⟨rfl, rfl, rfl⟩

/-- What follows the end of a VF's launches leaves launches, tasks and stores. -/
theorem vfForgotten_work (s : State) (bs : List Nat) (b vf n : Nat) :
    WorkSame s (vfResetDone (abandonNotices ((List.range 12).foldl (vfUnknown bs vf) s) b vf) b vf n bs) := by
  have unknown := WorkSame.foldl (vfUnknown_work bs vf) (List.range 12) s
  generalize (List.range 12).foldl (vfUnknown bs vf) s = t at unknown ⊢
  exact (unknown.trans (abandonNotices_work t b vf)).trans (vfResetDone_work _ b vf n bs)

/-- After the reset of a VF its launches have ended, and neither tasks nor stores of it are left in the bulkheads of its tenant (R419). -/
theorem vfResetAll_work (s : State) (b vf : Nat) :
    (vfResetAll s b vf).launches = s.launches.map (fun l => if l.vf == vf then { l with st := .ended } else l) ∧
      (vfResetAll s b vf).tasks = s.tasks.filter (fun t => !(t.vf == vf && (partitionBhs s (homeOf vf)).contains t.bh)) ∧
      (vfResetAll s b vf).stores = s.stores.filter (fun p => !(p.vf == vf && (partitionBhs s (homeOf vf)).contains p.bh)) := by
  have parts := vfResetAll_eq s b vf
  dsimp only at parts
  rw [parts]
  clear parts
  generalize partitionBhs s (homeOf vf) = bs
  obtain ⟨launches, tasks, stores⟩ := vfTaken_work s bs vf
  generalize vfTaken s bs vf = q at launches tasks stores ⊢
  obtain ⟨n, t⟩ := q
  have ended := vfEnded_work t bs vf
  dsimp only at launches tasks stores ⊢
  generalize vfEnded t bs vf = u at ended ⊢
  obtain ⟨l, k, p⟩ := vfForgotten_work u bs b vf (n % 2 ^ 32)
  exact ⟨by rw [l, ended.1, launches], by rw [k, ended.2.1, tasks], by rw [p, ended.2.2, stores]⟩

end Sys2Proof.Machine
end

section
/-! SUPPORT. The restore of a slot (R392, R432), and O51. -/

namespace Sys2Proof.Machine

open Host

/-- The slots of a group that a restore loads: those where nobody stands yet. -/
def restoredSlots (s : State) (b sl vf : Nat) : List Nat := (groupSlots s b sl vf).filter fun y => !(getSlot s b y).st == .resident

theorem mem_restoredSlots {s : State} {b sl vf y : Nat} : y ∈ restoredSlots s b sl vf ↔ y ∈ groupSlots s b sl vf ∧ (getSlot s b y).st ≠ .resident := by
  unfold restoredSlots
  simp

theorem contextRestore_eq {s : State} {b sl vf : Nat} (here : restoreVf s b sl = some vf) (runs : bhRuns s b = true)
    (ready : ∀ g ∈ groupSlots s b sl vf, slotReady s b vf g = true) (ok : Bool) :
    ∃ culprit : Nat, exec (.contextRestore b sl ok) s =
      .next (if ((restoredSlots s b sl vf).all fun y => crcHolds s b y vf) != ok then s
        else if ok then restoreGroup s b vf (restoredSlots s b sl vf)
        else vfResetAll (postEvent s (seqrSrc b) b (some vf) none 0x19 culprit) b vf) := by
  have all : (groupSlots s b sl vf).all (slotReady s b vf) = true := List.all_eq_true.mpr ready
  refine ⟨32 * b + ((restoredSlots s b sl vf).find? fun y => !crcHolds s b y vf).getD sl, ?_⟩
  change execContextRestore b sl ok s = _
  unfold execContextRestore restoredSlots
  rw [here]
  simp only [runs, all, Bool.not_true, Bool.false_eq_true, false_or]

/-- The restore of a VF whose saved contexts are sound. -/
theorem contextRestore_resident {s : State} {b sl vf : Nat} (here : restoreVf s b sl = some vf) (runs : bhRuns s b = true)
    (ready : ∀ g ∈ groupSlots s b sl vf, slotReady s b vf g = true) (sound : ∀ g ∈ groupSlots s b sl vf, crcHolds s b g vf = true) :
    ∃ t : State, exec (.contextRestore b sl true) s = .next t ∧ (getSlot t b sl).st = .resident ∧ (getSlot t b sl).vf = vf := by
  obtain ⟨_, step⟩ := contextRestore_eq here runs ready true
  have holds : ((restoredSlots s b sl vf).all fun y => crcHolds s b y vf) = true :=
    List.all_eq_true.mpr fun y hy => sound y (mem_restoredSlots.mp hy).1
  rw [holds, if_neg (by decide), if_pos rfl] at step
  have stands := restoreGroup_standing s b vf sl _ (mem_restoredSlots.mpr ⟨groupSlots_self s b sl vf, restoreVf_waits here⟩)
  exact ⟨_, step, congrArg Prod.fst stands, congrArg Prod.snd stands⟩

theorem postEvent_partition (s : State) (src b : Nat) (vf lid : Option Nat) (code payload a c : Nat) :
    samePartition (postEvent s src b vf lid code payload) a c = samePartition s a c := by
  have same (n : Nat) : partitionOf (postEvent s src b vf lid code payload) n = partitionOf s n :=
    (postEvent_apart s src b vf lid code payload).regBits n 0 26 (by decide) (by decide)
  unfold samePartition
  rw [same, same]

/-- The restore of a VF one of whose saved contexts is corrupted. -/
theorem contextRestore_corrupt {s : State} {b sl vf : Nat} (hb : b < 12) (here : restoreVf s b sl = some vf) (runs : bhRuns s b = true)
    (ready : ∀ g ∈ groupSlots s b sl vf, slotReady s b vf g = true)
    (corrupt : ∃ g ∈ groupSlots s b sl vf, (getSlot s b g).st ≠ .resident ∧ crcHolds s b g vf = false) :
    exec (.contextRestore b sl true) s = .next s ∧ ∃ t : State, exec (.contextRestore b sl false) s = .next t ∧
      (∀ l ∈ t.launches, l.vf = vf → l.st = .ended) ∧ (samePartition s b (homeOf vf) = true → (∀ k ∈ t.tasks, ¬(k.vf = vf ∧ k.bh = b)) ∧
        ∀ p ∈ t.stores, ¬(p.vf = vf ∧ p.bh = b)) := by
  obtain ⟨g, hg, waits, bad⟩ := corrupt
  have fails : ((restoredSlots s b sl vf).all fun y => crcHolds s b y vf) = false :=
    List.all_eq_false.mpr ⟨g, mem_restoredSlots.mpr ⟨hg, waits⟩, by rw [bad]; decide⟩
  obtain ⟨_, kept⟩ := contextRestore_eq here runs ready true
  obtain ⟨culprit, reset⟩ := contextRestore_eq here runs ready false
  rw [fails, if_pos (by decide)] at kept
  rw [fails, if_neg (by decide), if_neg (by decide)] at reset
  refine ⟨kept, _, reset, ?_⟩
  have partition := postEvent_partition s (seqrSrc b) b (some vf) none 0x19 culprit b (homeOf vf)
  generalize postEvent s (seqrSrc b) b (some vf) none 0x19 culprit = u at partition ⊢
  obtain ⟨launches, tasks, stores⟩ := vfResetAll_work u b vf
  refine ⟨fun l hl own => ?_, fun tenant => ?_⟩
  · rw [launches] at hl
    obtain ⟨m, _, rfl⟩ := List.mem_map.mp hl
    by_cases same : (m.vf == vf) = true
    · rw [if_pos same]
    · rw [if_neg same] at own
      exact absurd (beq_iff_eq.mpr own) same
  · have mem : (partitionBhs u (homeOf vf)).contains b = true :=
      List.contains_iff_mem.mpr (List.mem_filter.mpr ⟨List.mem_range.mpr hb, partition.trans tenant⟩)
    rw [tasks, stores]
    refine ⟨fun k hk own => ?_, fun p hp own => ?_⟩
    · have gone := (List.mem_filter.mp hk).2
      rw [own.1, own.2, mem] at gone
      simp at gone
    · have gone := (List.mem_filter.mp hp).2
      rw [own.1, own.2, mem] at gone
      simp at gone

/-- Settles O51: a slot's quantum ends, is saved, restored, lent, reclaimed and folded as the clauses say, one lemma for each. -/
theorem slotsSwitch : Obligations.SlotsSwitch := by
  unfold Obligations.SlotsSwitch
  refine ⟨fun s b sl hb hsl runs => ⟨quantumEnd_ends s b sl runs, contextSave_saves s b sl runs, fun vf here ready => ?_, energyFold_marks s b sl runs,
    fun due quiet used active _ => foldsEnd_counts s b sl hsl due quiet used active⟩, fun s b sl vf hb hsl runs hvf => ⟨?_, ?_⟩⟩
  · exact ⟨contextRestore_resident here runs ready, contextRestore_corrupt hb here runs ready⟩
  · exact slotLend_lends s b sl vf hsl runs hvf
  · exact slotReclaim_ends s b sl runs

end Sys2Proof.Machine
end

section
/-! SUPPORT. A step follows the schedule (R226, log 5): the statements about steps, about the manual's own records and about reset. -/

namespace Sys2Proof.Machine

open Host

theorem nodeAt_ok {p : PE} {n : Nat} {i : Instr} (h : decode (recordOfBytes (sgets 0 p.instr (12 * n) 12)) = .ok i) : nodeAt p n = some i := by
  unfold nodeAt; rw [h]

theorem nodeAt_error {p : PE} {n : Nat} {e : Reject} (h : decode (recordOfBytes (sgets 0 p.instr (12 * n) 12)) = .error e) : nodeAt p n = none := by
  unfold nodeAt; rw [h]

/-- The issue stage issues the firing whose turn it is (R226, R227). -/
theorem issueStep_issues {s : State} {b pe k : Nat} {f : Firing} (found : (getPE s b pe).ready[k]? = some f) (hb : f.bh = b) (hpe : f.pe = pe)
    (stage : stageOpen s b pe f.vf = true) (early : matchedBefore s f = true) (first : isCandidate s b pe k f = true) :
    issueStep s b pe k = issueFiring s f := by
  unfold issueStep
  rw [found]
  dsimp only
  rw [stage, early, first, hb, hpe]
  simp

/-- A step does what the schedule names next. -/
theorem step_named {s : State} {c : Choice} {rest : List Choice} (named : s.agenda = c :: rest) : step s = perform c { s with agenda := rest } := by
  unfold step scheduled; rw [named]

/-- Where the schedule is empty, a step does what the next free value names (log 5). -/
theorem step_idle {s : State} (idle : s.agenda = []) :
    step s = match Config.schedule s.fresh with | none => .next (drawn s) | some c => perform c (drawn s) := by
  unfold step scheduled; rw [idle]; cases Config.schedule s.fresh <;> rfl

/-- Settles O58: each choice is followed into what it performs; an empty schedule draws one. -/
theorem stepRunsDecoded : Obligations.StepRunsDecoded := by
  unfold Obligations.StepRunsDecoded
  intro s rest s'
  refine ⟨fun b pe k f named found hb hpe stage early first => ?_, fun i named happens => ?_, fun b named => step_named named, fun idle => ?_⟩
  · have issues : step s = issueFiring s' f := (step_named named).trans (issueStep_issues (s := s') found hb hpe stage early first)
    have here : getPE s' f.bh f.pe = getPE s b pe := by rw [hb, hpe]; rfl
    refine ⟨fun i read => ?_, fun e bad => ?_⟩
    · rw [issues, issueFiring, here, nodeAt_ok read]; rfl
    · rw [issues, issueFiring, here, nodeAt_error bad]
  · exact (step_named named).trans (if_pos happens)
  · rw [step_idle idle]
    cases Config.schedule s.fresh with
    | none => rfl
    | some c =>
      have same : drawn s = { s with agenda := [], fresh := s.fresh + 1 } := by rw [← idle]; rfl
      exact (congrArg (perform c) same).trans (step_named (s := { s with agenda := [c], fresh := s.fresh + 1 }) rfl).symm

/-- Settles O57: each record is decoded. -/
theorem decodeWords : Obligations.DecodeWords := by
  unfold Obligations.DecodeWords
  decide +kernel

/-- Settles O59: an empty store reads as its default everywhere, and the registers are read bulkhead by bulkhead. -/
theorem resetState : Obligations.ResetState := by
  unfold Obligations.ResetState
  have invariant : PackageInv State.reset := by unfold PackageInv; decide +kernel
  refine ⟨invariant, rfl, rfl, rfl, rfl, rfl, rfl, fun _ => rfl, fun _ => rfl, ?_, fun _ _ => ⟨fun _ => rfl, fun _ => rfl⟩, rfl, rfl, rfl⟩
  decide +kernel

end Sys2Proof.Machine
end

section
/-! SUPPORT. The outcomes of steps 1 to 6 of R221: what an issue that is decided there leaves in the machine, and what it leaves alone (R221, R222). -/

namespace Sys2Proof.Machine

open Host

/-- The entry of an issued firing is among what an issue may touch (R227). -/
theorem pushItem_only {s u : State} {it : Issued} (hb : it.f.bh = s.cur.bh) (hpe : it.f.pe = s.cur.pe) :
    OnlyIssues s (pushItem u it) ↔ OnlyIssues s u := by
  have own : firedPE s (pushItem u it) = { firedPE s u with issued := (firedPE s u).issued ++ [{ it with id := u.nextId }] } := by
    unfold firedPE; rw [getPE_pushItem, hb, hpe, if_pos rfl]
  have others : ∀ b pe, peKey b pe ≠ peKey s.cur.bh s.cur.pe → getPE (pushItem u it) b pe = getPE u b pe := fun b pe h => by
    rw [getPE_pushItem, hb, hpe, if_neg h]
  refine ⟨fun h => ?_, fun h => ?_⟩
  · exact { h with own := congrArg (fun p : PE => { p with issued := (firedPE s u).issued }) (own ▸ h.own)
                   others := fun b pe far => (others b pe far).symm.trans (h.others b pe far) }
  · exact { h with own := by
                     rw [own]
                     exact congrArg (fun p : PE => { p with issued := (firedPE s u).issued ++ [{ it with id := u.nextId }] }) h.own
                   others := fun b pe far => (others b pe far).trans (h.others b pe far) }

/-- The state in which the firing that issues has left its queue and has been charged, and nothing has been entered yet (R226, R427). -/
def chargedState (s : State) (cls count : Nat) : State := charge (takeReady s s.cur) s.cur.bh s.cur.pe cls count

theorem getPE_chargedState (s : State) (cls count c q : Nat) :
    getPE (chargedState s cls count) c q =
      if peKey c q = peKey s.cur.bh s.cur.pe then
        { getPE s s.cur.bh s.cur.pe with ready := (getPE s s.cur.bh s.cur.pe).ready.erase s.cur, issueAt := cycleOf s s.cur.bh + 1 }
      else getPE s c q := (getPE_charge _ _ _ _ _ _ _).trans (getPE_takeReady _ _ _ _)

theorem cycleOf_chargedState (s : State) (cls count c : Nat) : cycleOf (chargedState s cls count) c = cycleOf s c :=
  (cycleOf_charge _ _ _ _ _ _).trans (cycleOf_takeReady _ _ _)

theorem chargedState_nextId (s : State) (cls count : Nat) : (chargedState s cls count).nextId = s.nextId :=
  (charge_nextId _ _ _ _ _).trans (takeReady_nextId _ _)

/-- A firing that has been charged has touched nothing that an issue may not. -/
theorem chargedState_only (s : State) (cls count : Nat) (n : Node) : OnlyIssues s (chargedState s cls count) := by
  have h := issuedState_only s 0 cls count n 1 [] [] 0
  unfold issuedState pushIssued pushWriting at h
  rw [pushItem_only (firingCtx_bh s 0 n) (firingCtx_pe s 0 n), firingCtx_bh, firingCtx_pe] at h
  exact h

/-- The firing that issues has been charged, and an outcome of R221 is entered; what its wave has counted and the error number of its PE may have moved
before (R79, R164, R222). -/
def outcomeState (s : State) (code : Nat) (n : Node) (cs : List Placed) (qs : SMap Nat) (es : List Emit) (fx : List Effect) : State :=
  pushOutcome { chargedState s 0 1 with cfgs := cs, errSeq := qs } (firingCtx s code n).f n es fx

theorem outcomeState_only (s : State) (code : Nat) (n : Node) (cs : List Placed) (qs : SMap Nat) (es : List Emit) (fx : List Effect) :
    OnlyIssues { s with cfgs := cs, errSeq := qs } (outcomeState s code n cs qs es fx) :=
  (pushItem_only (s := { s with cfgs := cs, errSeq := qs }) (firingCtx_bh s code n) (firingCtx_pe s code n)).mpr
    { chargedState_only s 0 1 n with cfgs := rfl, errSeq := rfl }

theorem outcomeState_issues (s : State) (code : Nat) (n : Node) (cs : List Placed) (qs : SMap Nat) (es : List Emit) (fx : List Effect) :
    Issues s (outcomeState s code n cs qs es fx) (outcomeOf s code n es fx) := by
  have own : firedPE s (outcomeState s code n cs qs es fx) =
      { firedPE s s with ready := (firedPE s s).ready.erase s.cur, issueAt := cycleOf s s.cur.bh + 1,
                         issued := (firedPE s s).issued ++ [outcomeOf s code n es fx] } := by
    have left : getPE { chargedState s 0 1 with cfgs := cs, errSeq := qs } s.cur.bh s.cur.pe = _ :=
      (getPE_chargedState s 0 1 s.cur.bh s.cur.pe).trans (if_pos rfl)
    have cycle : cycleOf { chargedState s 0 1 with cfgs := cs, errSeq := qs } s.cur.bh = cycleOf s s.cur.bh := cycleOf_chargedState s 0 1 s.cur.bh
    unfold firedPE outcomeState
    rw [getPE_pushOutcome, firingCtx_bh, firingCtx_pe, if_pos rfl, left, cycle, chargedState_nextId]
    rfl
  constructor <;> rw [own]


theorem chargedState_errSeq (s : State) (cls count : Nat) : (chargedState s cls count).errSeq = s.errSeq :=
  (charge_errSeq _ _ _ _ _).trans (takeReady_errSeq _ _)

/-- What a store node's outcome counts for its wave stands with its configuration (R164). -/
theorem storeMark_state (s : State) (code : Nat) (f : Firing) (n : Node) : ∃ cs, storeMark s code f n = { s with cfgs := cs } := by
  unfold storeMark waveMark
  split
  · split
    · split
      · exact ⟨_, rfl⟩
      · exact ⟨_, rfl⟩
    · exact ⟨_, rfl⟩
  · exact ⟨_, rfl⟩

/-- An error outcome goes to each used destination, or to the graph's sink (R222). -/
theorem outError_eq (code : Nat) (n : Node) (v : Word) : outError code n v = (outEmits code n .err v, if usedDests n = [] then [.sinkErr v] else []) := by
  unfold outError outEmits
  cases usedDests n <;> rfl

/-- An untaken outcome (R221). -/
theorem finishVerdict_untaken_state (s : State) (code : Nat) (n : Node) :
    ∃ cs, finishVerdict (takeReady s s.cur) code (firingCtx s code n).f n .untaken =
      outcomeState s code n cs s.errSeq (outEmits code n .null 0) (dropsOf s code n) := by
  obtain ⟨cs, marked⟩ := storeMark_state (chargedState s 0 1) code (firingCtx s code n).f n
  refine ⟨cs, ?_⟩
  rw [finishVerdict_untaken, firingCtx_bh, firingCtx_pe, ← chargedState_errSeq s 0 1]
  exact congrArg (fun u => pushOutcome u (firingCtx s code n).f n _ _) marked

/-- An outcome that passes an error operand on (R222). -/
theorem finishVerdict_error_state (s : State) (code : Nat) (n : Node) (v : Word) :
    ∃ cs, finishVerdict (takeReady s s.cur) code (firingCtx s code n).f n (.error v) =
      outcomeState s code n cs s.errSeq (outEmits code n .err v) (dropsOf s code n ++ if usedDests n = [] then [.sinkErr v] else []) := by
  obtain ⟨cs, marked⟩ := storeMark_state (chargedState s 0 1) code (firingCtx s code n).f n
  refine ⟨cs, ?_⟩
  rw [finishVerdict_error, outError_eq, firingCtx_bh, firingCtx_pe, ← chargedState_errSeq s 0 1]
  exact congrArg (fun u => pushOutcome u (firingCtx s code n).f n _ _) marked

theorem finishVerdict_code (s : State) (code : Nat) (f : Firing) (n : Node) (x : Nat) :
    finishVerdict s code f n (.code x) =
      pushOutcome (newError (charge s f.bh f.pe 0 1) (peSrc f.bh f.pe) x).2 f n (outError code n (newError (charge s f.bh f.pe 0 1) (peSrc f.bh f.pe) x).1).1
        (operandDrops n f ++ (outError code n (newError (charge s f.bh f.pe 0 1) (peSrc f.bh f.pe) x).1).2) := rfl

/-- The CODE field of a new error token (R79). -/
theorem newError_code (s : State) (src code : Nat) (h : code < 256) : (newError s src code).1.toNat % 256 = code := by
  unfold newError word
  rw [BitVec.toNat_ofNat]
  omega

/-- The error numbers of a charged firing are those before it (R79). -/
theorem newError_chargedState (s : State) (src x : Nat) :
    newError (chargedState s 0 1) src x = ((newError s src x).1, { chargedState s 0 1 with errSeq := (newError s src x).2.errSeq }) := by
  unfold newError; rw [chargedState_errSeq]

/-- An outcome that is a new error of the firing's PE (R79, R222). -/
theorem finishVerdict_code_state (s : State) (code : Nat) (n : Node) (x : Nat) :
    let e := newError s (peSrc s.cur.bh s.cur.pe) x
    finishVerdict (takeReady s s.cur) code (firingCtx s code n).f n (.code x) =
      outcomeState s code n (chargedState s 0 1).cfgs e.2.errSeq (outEmits code n .err e.1)
        (dropsOf s code n ++ if usedDests n = [] then [.sinkErr e.1] else []) := by
  rw [finishVerdict_code, outError_eq, firingCtx_bh, firingCtx_pe]
  have made := newError_chargedState s (peSrc s.cur.bh s.cur.pe) x
  unfold chargedState at made
  rw [made]
  rfl

/-- Where none of R278 and R228 applies, an outcome's tokens go as the literal destinations say, on VC0. -/
theorem outEmits_plain {code : Nat} (h : code ∉ [0x011, 0x012, 0x186, 0x187]) (n : Node) (k : Kind) (v : Word) : outEmits code n k v = toUsed n k v := by
  simp only [List.mem_cons, List.not_mem_nil, or_false, not_or] at h
  obtain ⟨h1, h2, h3, h4⟩ := h
  unfold outEmits toUsed outTarget outVc1
  simp [h1, h2, h3, h4]

/-- The context of a firing bears the code under which it fires. -/
@[simp] theorem firingCtx_code (s : State) (code : Nat) (n : Node) : (firingCtx s code n).code = code := by
  unfold firingCtx
  split
  · next o found =>
      have same : (o.code == code) = true := List.find?_some (p := fun x : OpInfo => x.code == code) found
      exact beq_iff_eq.mp same
  · rfl

theorem failCode_firingCtx (s t : State) (code : Nat) (n : Node) (err : Nat) :
    failCode t (firingCtx s code n) err = some (finishVerdict t code (firingCtx s code n).f n (.code err)) := by
  unfold failCode; rw [firingCtx_code, firingCtx_node]

/-- A check of the instruction's own that fails ends its firing with an error of its PE (R221 step 6, R222). -/
theorem errsWith_of_fire {s : State} {i : Instr} {code : Nat} {n : Node} {k : Ctx → State → Option State} (err : Nat) (hi : exec i s = .next (fire s code n k))
    (h : performs s code n = true) (plain : code ∉ [0x011, 0x012, 0x186, 0x187])
    (hk : k (firingCtx s code n) (takeReady s s.cur) = failCode (takeReady s s.cur) (firingCtx s code n) err) : ErrsWith s i code n err := by
  have run : exec i s = .next (finishVerdict (takeReady s s.cur) code (firingCtx s code n).f n (.code err)) := by
    rw [hi, fire_perform s code n k h, hk, failCode_firingCtx]; rfl
  rw [finishVerdict_code_state, outEmits_plain plain] at run
  have cfgs : (chargedState s 0 1).cfgs = s.cfgs := (charge_cfgs _ _ _ _ _).trans (takeReady_cfgs _ _)
  have only := outcomeState_only s code n (chargedState s 0 1).cfgs
  rw [cfgs] at run only
  exact ⟨_, run, only _ _ _, outcomeState_issues s code n _ _ _ _⟩

end Sys2Proof.Machine
end

section
/-! SUPPORT. The statement about the checks before the meaning (R64, R221, R222): every instruction fires through the same checks. -/

namespace Sys2Proof.Machine

open Host
/-- A row whose instruction does nothing of its own at steps 1 to 5 of R221 (R83). -/
def Fires (o : OpInfo) : Prop := ∀ s n, ∃ k, exec (o.make n) s = .next (fire s o.code n k)

theorem opClass0_fires : ∀ o ∈ opClass0, Fires o := by intro o h; fin_cases h <;> exact fun s n => ⟨_, rfl⟩
theorem opClass1_fires : ∀ o ∈ opClass1, Fires o := by intro o h; fin_cases h <;> exact fun s n => ⟨_, rfl⟩
theorem opClass2_fires : ∀ o ∈ opClass2, Fires o := by intro o h; fin_cases h <;> exact fun s n => ⟨_, rfl⟩
theorem opClass3_fires : ∀ o ∈ opClass3, Fires o := by intro o h; fin_cases h <;> exact fun s n => ⟨_, rfl⟩
theorem opClass4_fires : ∀ o ∈ opClass4, o.code ∉ [0x105, 0x106, 0x14F] → Fires o := by
  intro o h own
  fin_cases h
  on_goal 6 => exact absurd (by decide) own
  on_goal 6 => exact absurd (by decide) own
  all_goals exact fun s n => ⟨_, rfl⟩
theorem opClass5_fires : ∀ o ∈ opClass5, o.code ∉ [0x105, 0x106, 0x14F] → Fires o := by
  intro o h own
  fin_cases h
  on_goal 16 => exact absurd (by decide) own
  all_goals exact fun s n => ⟨_, rfl⟩
theorem opClass6_fires : ∀ o ∈ opClass6, Fires o := by intro o h; fin_cases h <;> exact fun s n => ⟨_, rfl⟩
theorem opClass7_fires : ∀ o ∈ opClass7, Fires o := by intro o h; fin_cases h <;> exact fun s n => ⟨_, rfl⟩

/-- Every instruction but those of the engines that do more (R349, R353, R208) fires and does nothing else. -/
theorem opMap_fires {o : OpInfo} (h : o ∈ opMap) (own : o.code ∉ [0x105, 0x106, 0x14F]) : Fires o := by
  simp only [opMap, List.mem_append] at h
  obtain ((((((h | h) | h) | h) | h) | h) | h) | h := h
  · exact opClass0_fires o h
  · exact opClass1_fires o h
  · exact opClass2_fires o h
  · exact opClass3_fires o h
  · exact opClass4_fires o h own
  · exact opClass5_fires o h own
  · exact opClass6_fires o h
  · exact opClass7_fires o h

/-- No two rows of the opcode map have one code (R83). -/
theorem opMap_codes : (opMap.map OpInfo.code).Nodup := by decide +kernel

theorem opInfo_of_mem {o : OpInfo} (h : o ∈ opMap) : opInfo o.code = some o := by
  obtain ⟨b, found⟩ := Option.isSome_iff_exists.mp (List.find?_isSome (p := fun x : OpInfo => x.code == o.code).mpr ⟨o, h, beq_self_eq_true o.code⟩)
  have same : b.code = o.code := beq_iff_eq.mp (List.find?_some (p := fun x : OpInfo => x.code == o.code) found)
  rw [opInfo, found, List.inj_on_of_nodup_map opMap_codes (List.mem_of_find?_eq_some found) h same]

/-- What an outcome of steps 1 to 5 leaves alone (R221, R222). -/
theorem outcomeState_rest (s : State) (code : Nat) (n : Node) (cs : List Placed) (qs : SMap Nat) (es : List Emit) (fx : List Effect) :
    let t := outcomeState s code n cs qs es fx
    t.regs = s.regs ∧ t.reqs = s.reqs ∧ t.cmds = s.cmds ∧ t.stores = s.stores ∧ t.flights = s.flights ∧
      (∀ a, memByte t a = memByte s a) ∧ ∀ b pe, peKey b pe ≠ peKey s.cur.bh s.cur.pe → getPE t b pe = getPE s b pe := by
  have h := outcomeState_only s code n cs qs es fx
  exact ⟨h.regs, h.reqs, h.cmds, h.stores, h.flights, h.mem, h.others⟩

/-- Settles O55: the row fires, and each outcome is entered as the one lemma about it says. -/
theorem checksBeforeMeaning : Obligations.ChecksBeforeMeaning := by
  unfold Obligations.ChecksBeforeMeaning
  intro s n o row plain p f sent rest
  obtain ⟨k, run⟩ := opMap_fires row plain s n
  have info := opInfo_of_mem row
  refine ⟨fun held => by rw [run, fire_held s o n k info held], fun free => ?_⟩
  have missed : ∀ {v : Verdict}, verdict s o n f = v → v ≠ .perform → ∀ {t : State}, finishVerdict (takeReady s s.cur) o.code (firingCtx s o.code n).f n v = t →
      exec (o.make n) s = .next t := fun judged decided t state => by rw [run, fire_missed s o n k info _ free judged decided, state]
  cases judged : verdict s o n f with
  | perform => trivial
  | error v =>
    obtain ⟨cs, state⟩ := finishVerdict_error_state s o.code n v
    exact ⟨_, missed judged nofun state, outcomeState_issues s o.code n _ _ _ _, rfl, outcomeState_rest s o.code n _ _ _ _⟩
  | untaken =>
    obtain ⟨cs, state⟩ := finishVerdict_untaken_state s o.code n
    exact ⟨_, missed judged nofun state, outcomeState_issues s o.code n _ _ _ _, rfl, outcomeState_rest s o.code n _ _ _ _⟩
  | code c =>
    exact ⟨_, missed judged nofun (finishVerdict_code_state s o.code n c), outcomeState_issues s o.code n _ _ _ _, rfl, outcomeState_rest s o.code n _ _ _ _⟩

end Sys2Proof.Machine
end

section
/-! SUPPORT. Meanings that touch a store and then enter their firing: what stands issued in the end (R227), what a change made in every PE of a rectangle leaves
in each of them, and the fields of a literal. -/

namespace Sys2Proof.Machine

open Host

/-- A field of the literal, as its bits. -/
theorem litBits_eq (n : Node) (lo len : Nat) : litBits n lo len = (n.lit.extractLsb' lo len).toNat := by
  simp [litBits, bits, BitVec.extractLsb'_toNat, Nat.shiftRight_eq_div_pow]

theorem litBits_one (n : Node) (i : Nat) : litBits n i 1 = 1 ↔ n.lit.getLsbD i = true := by
  rw [BitVec.getLsbD, Nat.testBit_eq_decide_div_mod_eq, decide_eq_true_iff]; rfl

/-- A meaning that enters its firing at once, with L = 1 (R227). -/
theorem issueSimple_takeReady (s : State) (code : Nat) (n : Node) (cls : Nat) (es : List Emit) (fx : List Effect) :
    issueSimple (takeReady s s.cur) (firingCtx s code n) cls es fx = some (issuedState s (firingCtx s code n) cls 1 n 1 es (dropsOf s code n ++ fx) 0) := by
  unfold issueSimple issuedState
  rw [firingCtx_node]
  rfl

/-- A state in which the firing that issues has left its queue, whatever else its meaning has done: no firing has been entered yet. -/
structure Departed (s u : State) : Prop where
  leaves : Leaves s u
  number : u.nextId = s.nextId
  cycle : cycleOf u s.cur.bh = cycleOf s s.cur.bh

theorem takeReady_departed (s : State) : Departed s (takeReady s s.cur) := by
  have own : firedPE s (takeReady s s.cur) = _ := (getPE_takeReady s s.cur s.cur.bh s.cur.pe).trans (if_pos rfl)
  exact ⟨⟨by rw [own]; rfl, by rw [own]; rfl, by rw [own]⟩, takeReady_nextId s s.cur, cycleOf_takeReady s s.cur _⟩

/-- The queues of the firing's PE, the clock and the numbers stay as the meaning moves something else. -/
theorem Departed.of_same {s u v : State} (h : Departed s u) (own : (firedPE s v).ready = (firedPE s u).ready ∧ (firedPE s v).issued = (firedPE s u).issued ∧
    (firedPE s v).issueAt = (firedPE s u).issueAt) (number : v.nextId = u.nextId) (bhs : v.bhs = u.bhs) : Departed s v := by
  obtain ⟨ready, issued, stage⟩ := own
  exact ⟨⟨ready.trans h.leaves.taken, issued.trans h.leaves.issued, stage.trans h.leaves.stage⟩, number.trans h.number,
    (congrArg (fun x => (sget Bulk.empty x s.cur.bh).cycle) bhs).trans h.cycle⟩

/-- What is entered stands issued behind what already was (R227). -/
theorem Departed.issues {s u : State} (h : Departed s u) (code cls count : Nat) (n : Node) (lat : Nat) (es : List Emit) (fx : List Effect) (fl : BitVec 9) :
    Issues s (pushIssued (charge u s.cur.bh s.cur.pe cls count) (firingCtx s code n).f n lat es fx fl .nothing) (itemOf s code n lat es fx fl) := by
  have own : firedPE s (pushIssued (charge u s.cur.bh s.cur.pe cls count) (firingCtx s code n).f n lat es fx fl .nothing) =
      { firedPE s u with issued := (firedPE s u).issued ++ [itemOf s code n lat es fx fl] } := by
    unfold firedPE pushIssued
    rw [getPE_pushWriting, firingCtx_bh, firingCtx_pe, if_pos rfl, getPE_charge, cycleOf_charge, charge_nextId, h.number, h.cycle]
    rfl
  exact ⟨by rw [own, h.leaves.issued], by rw [own]; exact h.leaves.taken, by rw [own]; exact h.leaves.stage⟩

/-- A change made in every PE of a list reaches a PE as often as it is listed. -/
theorem getPE_foldl_modPE (b : Nat) (f : PE → PE) (l : List Nat) (s : State) (c q : Nat) :
    ∃ k, getPE (l.foldl (fun t pe => modPE t b pe f) s) c q = f^[k] (getPE s c q) ∧ (k = 0 ↔ ∀ pe ∈ l, peKey c q ≠ peKey b pe) := by
  induction l generalizing s with
  | nil => exact ⟨0, rfl, by simp⟩
  | cons x l ih =>
    obtain ⟨k, reads, hit⟩ := ih (modPE s b x f)
    by_cases same : peKey c q = peKey b x
    · refine ⟨k + 1, ?_, by simp [same]⟩
      have here : getPE s b x = getPE s c q := by unfold getPE; rw [same]
      rw [List.foldl_cons, reads, getPE_modPE, if_pos same, here, Function.iterate_succ_apply]
    · exact ⟨k, by rw [List.foldl_cons, reads, getPE_modPE, if_neg same], by simp [hit, same]⟩

/-- A PE that the list names shows the change, and what the change keeps. -/
theorem getPE_foldl_modPE_mem {b : Nat} {f : PE → PE} {l : List Nat} {q : Nat} (s : State) (h : q ∈ l) :
    ∃ p, getPE (l.foldl (fun t pe => modPE t b pe f) s) b q = f p := by
  obtain ⟨k, reads, hit⟩ := getPE_foldl_modPE b f l s b q
  cases k with
  | zero => exact absurd rfl (hit.mp rfl q h)
  | succ k => exact ⟨_, reads.trans (Function.iterate_succ_apply' f k _)⟩

/-- What the change keeps of a PE stays the same in every PE. -/
theorem getPE_foldl_modPE_keeps {α : Type} (g : PE → α) {b : Nat} {f : PE → PE} (keeps : ∀ p, g (f p) = g p) (l : List Nat) (s : State) (c q : Nat) :
    g (getPE (l.foldl (fun t pe => modPE t b pe f) s) c q) = g (getPE s c q) := by
  obtain ⟨k, reads, -⟩ := getPE_foldl_modPE b f l s c q
  rw [reads]
  clear reads
  induction k with
  | zero => rfl
  | succ k ih => rw [Function.iterate_succ_apply', keeps, ih]

theorem foldl_modPE_state (b : Nat) (f : PE → PE) (l : List Nat) (s : State) : ∃ ps, l.foldl (fun t pe => modPE t b pe f) s = { s with pes := ps } := by
  induction l generalizing s with
  | nil => exact ⟨_, rfl⟩
  | cons x l ih => exact ih (modPE s b x f)

end Sys2Proof.Machine
end

section
/-! SUPPORT. The statement about frames (R48, R51, R287 to R290). -/

namespace Sys2Proof.Machine

open Host

/-- A frame that has been opened is live, of its class, with every slot EMPTY (R49, R51). -/
theorem frameOpen_live (p : PE) (fp : Nat) (i : FrameInfo) (h : i.cls < 8) :
    frameLive (frameOpen p fp i) fp = true ∧ frameClass (frameOpen p fp i) fp = i.cls ∧
      ∀ k < 16 * 2 ^ i.cls, slotTag (frameOpen p fp i) (16 * fp + k) = 0 := by
  have head : sget 0 (frameOpen p fp i).fmap fp = BitVec.ofNat 5 (3 + 4 * i.cls) := by
    unfold frameOpen frameMap
    rw [sget_sputs, if_pos ⟨Nat.le_refl fp, by simp⟩, Nat.sub_self]
    rfl
  have fields : ∀ c < 8, bits (BitVec.ofNat 5 (3 + 4 * c)).toNat 0 2 = 3 ∧ bits (BitVec.ofNat 5 (3 + 4 * c)).toNat 2 3 = c := by decide
  obtain ⟨live, cls⟩ := fields i.cls h
  refine ⟨?_, ?_, fun k hk => ?_⟩
  · unfold frameLive; rw [head, live]; rfl
  · unfold frameClass; rw [head, cls]
  · unfold slotTag frameOpen
    rw [sget_sclear, if_pos ⟨Nat.le_add_right _ _, Nat.add_lt_add_left hk _⟩]

/-- The lowest free unit depends on the frames of the rectangle's PEs alone (R48, R229). -/
theorem frameFit_congr {s t : State} {b : Nat} (pes : List Nat) (cls : Nat) (h : ∀ q, (getPE t b q).finfo = (getPE s b q).finfo) :
    frameFit t b pes cls = frameFit s b pes cls := by
  unfold frameFit unitsUsed; simp only [h]

/-- The RCB that a firing's work is charged to depends on the tasks, the launches and the registers alone (R367). -/
theorem chargeAddr_congr {s t : State} (tasks : t.tasks = s.tasks) (launches : t.launches = s.launches) (regs : t.regs = s.regs) (vf lid : Nat) (task : Option Nat) :
    chargeAddr t vf lid task = chargeAddr s vf lid task := by
  unfold chargeAddr taskAt launchAt vfRcbAddr regGet; rw [tasks, launches, regs]

/-- Leaving its queue, a firing changes nothing else of any PE but the issue stage (R226). -/
theorem getPE_takeReady_keeps {α : Type} (g : PE → α) (keeps : ∀ p ready stage, g { p with ready := ready, issueAt := stage } = g p) (s : State) (f : Firing) (c q : Nat) :
    g (getPE (takeReady s f) c q) = g (getPE s c q) := by
  rw [getPE_takeReady]
  split
  · next same => unfold getPE; rw [same]; exact keeps _ _ _
  · rfl

/-- A frame for which there is room is opened in every PE of the rectangle, and charged (R51, R229). -/
theorem frameAlloc_opens {s : State} {c : Placed} {cls fp : Nat} (site : Option (Nat × Nat)) {lid : Nat} {task : Option Nat}
    (fit : frameFit s c.bh (rectPes c) cls = some fp) (budget : budgetOk s (chargeAddr s c.vf lid task) .frame (2 ^ cls * (rectPes c).length) = true) :
    ∃ i rs cs, i.cls = cls ∧ frameAlloc s c cls site lid task false =
      some (fp, { (rectPes c).foldl (fun t pe => modPE t c.bh pe fun p => frameOpen p fp i) s with rcbs := rs, cfgs := cs }) := by
  unfold frameAlloc
  simp only [fit, budget]
  exact ⟨_, _, _, rfl, rfl⟩

/-- What a falloc that can go on makes of the state that its firing has left (R51, R231, R287). -/
def fallocState (s : State) (c : Placed) (fp throttle : Nat) (i : FrameInfo) (rs : List Rcb) (cs : List Placed) : State :=
  let t : State := { (rectPes c).foldl (fun t pe => modPE t c.bh pe fun p => frameOpen p fp i) (takeReady s s.cur) with rcbs := rs, cfgs := cs }
  if throttle = 0 then t else modPE t s.cur.bh s.cur.pe fun p => siteUp p (s.cur.node, s.cur.fp)

theorem siteUp_sites (p : PE) (key : Nat × Nat) : ∃ ss, siteUp p key = { p with sites := ss } := by
  unfold siteUp; split <;> exact ⟨_, rfl⟩

/-- The count of the loop site touches no other part of a PE (R231). -/
theorem getPE_fallocState (s : State) (c : Placed) (fp throttle : Nat) (i : FrameInfo) (rs : List Rcb) (cs : List Placed) (b q : Nat) :
    ∃ ss, getPE (fallocState s c fp throttle i rs cs) b q =
      { getPE ((rectPes c).foldl (fun t pe => modPE t c.bh pe fun p => frameOpen p fp i) (takeReady s s.cur)) b q with sites := ss } := by
  unfold fallocState
  split
  · exact ⟨_, rfl⟩
  · rw [getPE_modPE]
    split
    · next same =>
      obtain ⟨ss, counted⟩ := siteUp_sites (getPE { (rectPes c).foldl (fun t pe => modPE t c.bh pe fun p => frameOpen p fp i) (takeReady s s.cur) with
        rcbs := rs, cfgs := cs } s.cur.bh s.cur.pe) (s.cur.node, s.cur.fp)
      refine ⟨ss, counted.trans ?_⟩
      unfold getPE
      rw [same]
    · exact ⟨_, rfl⟩

theorem fallocState_rest (s : State) (c : Placed) (fp throttle : Nat) (i : FrameInfo) (rs : List Rcb) (cs : List Placed) :
    ∃ ps, fallocState s c fp throttle i rs cs = { takeReady s s.cur with pes := ps, rcbs := rs, cfgs := cs } := by
  obtain ⟨ps, opened⟩ := foldl_modPE_state c.bh (fun p => frameOpen p fp i) (rectPes c) (takeReady s s.cur)
  unfold fallocState
  rw [opened]
  split <;> exact ⟨_, rfl⟩

theorem fallocState_departed (s : State) (c : Placed) (fp throttle : Nat) (i : FrameInfo) (rs : List Rcb) (cs : List Placed) :
    Departed s (fallocState s c fp throttle i rs cs) := by
  obtain ⟨ps, rest⟩ := fallocState_rest s c fp throttle i rs cs
  refine (takeReady_departed s).of_same ?_ (by rw [rest]) (by rw [rest])
  obtain ⟨ss, own⟩ := getPE_fallocState s c fp throttle i rs cs s.cur.bh s.cur.pe
  unfold firedPE
  rw [own]
  have keeps {α : Type} (g : PE → α) (h : ∀ p, g (frameOpen p fp i) = g p) := getPE_foldl_modPE_keeps g (b := c.bh) h (rectPes c) (takeReady s s.cur) s.cur.bh s.cur.pe
  exact ⟨keeps (·.ready) fun _ => rfl, keeps (·.issued) fun _ => rfl, keeps (·.issueAt) fun _ => rfl⟩

@[simp] theorem firingCtx_cfg (s : State) (code : Nat) (n : Node) : (firingCtx s code n).f.cfg = s.cur.cfg := by unfold firingCtx; split <;> rfl
@[simp] theorem firingCtx_fp (s : State) (code : Nat) (n : Node) : (firingCtx s code n).f.fp = s.cur.fp := by unfold firingCtx; split <;> rfl
@[simp] theorem firingCtx_lid (s : State) (code : Nat) (n : Node) : (firingCtx s code n).f.lid = s.cur.lid := by unfold firingCtx; split <;> rfl
@[simp] theorem firingCtx_task (s : State) (code : Nat) (n : Node) : (firingCtx s code n).f.task = s.cur.task := by unfold firingCtx; split <;> rfl
@[simp] theorem firingCtx_number (s : State) (code : Nat) (n : Node) : (firingCtx s code n).f.node = s.cur.node := by unfold firingCtx; split <;> rfl

/-- A falloc that neither the throttle nor the budget holds back opens its frame and enters its firing (R231, R287). -/
theorem execFalloc_opens {s : State} {n : Node} {cf : Placed} {fp : Nat} (h : performs s 0x00D n = true) (placed : cfgAt s s.cur.cfg = some cf)
    (throttle : throttleOk (firedPE s s) s.cur.node s.cur.fp (litBits n 4 8) = true)
    (fit : frameFit s cf.bh (rectPes cf) (litBits n 0 3) = some fp)
    (budget : budgetOk s (chargeAddr s cf.vf s.cur.lid s.cur.task) .frame (2 ^ litBits n 0 3 * (rectPes cf).length) = true) :
    ∃ i rs cs, i.cls = litBits n 0 3 ∧ exec (.falloc n) s = .next (pushIssued (charge (fallocState s cf fp (litBits n 4 8) i rs cs) s.cur.bh s.cur.pe 0 1)
      (firingCtx s 0x00D n).f n 1 (toUsed n .value (word fp))
      (dropsOf s 0x00D n ++ ([.link fp 1 (word s.cur.fp)] ++ if litBits n 3 1 = 1 then [.link s.cur.fp 0 (word fp)] else [])) 0 .nothing) := by
  have placed' : cfgAt (takeReady s s.cur) s.cur.cfg = some cf := by unfold cfgAt; rw [takeReady_cfgs]; exact placed
  have frames : ∀ q, (getPE (takeReady s s.cur) cf.bh q).finfo = (getPE s cf.bh q).finfo := getPE_takeReady_keeps (·.finfo) (fun _ _ _ => rfl) s s.cur cf.bh
  have throttle' : throttleOk (getPE (takeReady s s.cur) s.cur.bh s.cur.pe) s.cur.node s.cur.fp (litBits n 4 8) = true := by
    rw [getPE_takeReady, if_pos rfl]; exact throttle
  have fit' : frameFit (takeReady s s.cur) cf.bh (rectPes cf) (litBits n 0 3) = some fp := (frameFit_congr _ _ frames).trans fit
  have budget' : budgetOk (takeReady s s.cur) (chargeAddr (takeReady s s.cur) cf.vf s.cur.lid s.cur.task) .frame (2 ^ litBits n 0 3 * (rectPes cf).length) = true := by
    rw [chargeAddr_congr (takeReady_tasks s s.cur) (takeReady_launches s s.cur) (takeReady_regs s s.cur), budgetOk_congr _ _ (takeReady_rcbs s s.cur)]
    exact budget
  obtain ⟨i, rs, cs, cls, opens⟩ := frameAlloc_opens (if litBits n 4 8 = 0 then none else some (s.cur.pe * 4096 + s.cur.node, s.cur.fp)) fit' budget'
  refine ⟨i, rs, cs, cls, ?_⟩
  show Outcome.next (fire s 0x00D n _) = _
  rw [fire_perform s 0x00D n _ h]
  simp only [firingCtx_cfg, firingCtx_fp, firingCtx_lid, firingCtx_task, firingCtx_number, firingCtx_bh, firingCtx_pe, placed', throttle', opens]
  unfold issueSimple
  rw [firingCtx_bh, firingCtx_pe, firingCtx_node]
  rfl

/-- A frame stands open in every PE of the rectangle, whatever else the falloc counts (R51). -/
theorem fallocState_live (s : State) (c : Placed) (fp throttle : Nat) (i : FrameInfo) (rs : List Rcb) (cs : List Placed) (hc : i.cls < 8) {q : Nat}
    (h : q ∈ rectPes c) :
    let p := getPE (fallocState s c fp throttle i rs cs) c.bh q
    frameLive p fp = true ∧ frameClass p fp = i.cls ∧ ∀ k < 16 * 2 ^ i.cls, slotTag p (16 * fp + k) = 0 := by
  obtain ⟨ss, own⟩ := getPE_fallocState s c fp throttle i rs cs c.bh q
  obtain ⟨p, opened⟩ := getPE_foldl_modPE_mem (b := c.bh) (f := fun p => frameOpen p fp i) (takeReady s s.cur) h
  rw [own, opened]
  exact frameOpen_live p fp i hc

/-- What is entered behind a firing leaves every slot and every frame of its PE as it is (R227). -/
theorem getPE_pushIssued_keeps {α : Type} (g : PE → α) (keeps : ∀ p issued, g { p with issued := issued } = g p) (s : State) (f : Firing) (n : Node) (lat : Nat)
    (es : List Emit) (fx : List Effect) (fl : BitVec 9) (w : Wait) (c q : Nat) : g (getPE (pushIssued s f n lat es fx fl w) c q) = g (getPE s c q) := by
  unfold pushIssued
  rw [getPE_pushWriting]
  split
  · next same => unfold getPE; rw [same]; exact keeps _ _
  · rfl

/-- A falloc (R287). -/
theorem falloc_opens {s : State} {n : Node} {cf : Placed} {fp : Nat} (h : performs s 0x00D n = true) (placed : cfgAt s s.cur.cfg = some cf)
    (throttle : throttleOk (firedPE s s) s.cur.node s.cur.fp (n.lit.extractLsb' 4 8).toNat = true)
    (fit : frameFit s cf.bh (rectPes cf) (n.lit.extractLsb' 0 3).toNat = some fp)
    (budget : budgetOk s (chargeAddr s cf.vf s.cur.lid s.cur.task) .frame (2 ^ (n.lit.extractLsb' 0 3).toNat * (rectPes cf).length) = true) :
    ∃ t : State, exec (.falloc n) s = .next t ∧
      Issues s t (itemOf s 0x00D n 1 (toUsed n .value (BitVec.ofNat 64 fp))
        (dropsOf s 0x00D n ++ [.link fp 1 (BitVec.ofNat 64 s.cur.fp)] ++ if n.lit.getLsbD 3 then [.link s.cur.fp 0 (BitVec.ofNat 64 fp)] else []) 0) ∧
      (∀ pe ∈ rectPes cf, frameLive (getPE t cf.bh pe) fp = true ∧ frameClass (getPE t cf.bh pe) fp = (n.lit.extractLsb' 0 3).toNat ∧
        ∀ k < 16 * 2 ^ (n.lit.extractLsb' 0 3).toNat, slotTag (getPE t cf.bh pe) (16 * fp + k) = 0) ∧
      t.regs = s.regs ∧ ∀ a, memByte t a = memByte s a := by
  simp only [← litBits_eq] at throttle fit budget ⊢
  obtain ⟨i, rs, cs, cls, run⟩ := execFalloc_opens h placed throttle fit budget
  obtain ⟨ps, rest⟩ := fallocState_rest s cf fp (litBits n 4 8) i rs cs
  have small : i.cls < 8 := cls ▸ Nat.mod_lt _ (by decide)
  refine ⟨_, run, ?_, fun q hq => ?_, ?_, fun a => memByte_congr s _ ?_ a⟩
  · simp only [litBits_one, ← List.append_assoc]
    exact (fallocState_departed s cf fp (litBits n 4 8) i rs cs).issues 0x00D 0 1 n 1 _ _ 0
  · have live := fallocState_live s cf fp (litBits n 4 8) i rs cs small hq
    rw [← getPE_charge _ s.cur.bh s.cur.pe 0 1, cls] at live
    obtain ⟨head, same, slots⟩ := live
    refine ⟨?_, ?_, fun k hk => ?_⟩
    · exact (getPE_pushIssued_keeps (frameLive · fp) (fun _ _ => rfl) _ _ _ _ _ _ _ _ _ _).trans head
    · exact (getPE_pushIssued_keeps (frameClass · fp) (fun _ _ => rfl) _ _ _ _ _ _ _ _ _ _).trans same
    · exact (getPE_pushIssued_keeps (slotTag · (16 * fp + k)) (fun _ _ => rfl) _ _ _ _ _ _ _ _ _ _).trans (slots k hk)
  · rw [pushIssued_regs, charge_regs, rest]; exact takeReady_regs s s.cur
  · rw [pushIssued_mem, charge_mem, rest]; exact takeReady_mem s s.cur

/-- An ffree whose literal names its own frame, or the one its value names (R289). -/
theorem ffree_frees {s : State} {n : Node} (h : performs s 0x00E n = true) {fp : Nat}
    (meaning : (litBits n 0 2 = 0 ∧ fp = s.cur.fp) ∨
      (litBits n 0 2 = 3 ∧ (lOperand (firingCtx s 0x00E n)).kind ≠ .handle ∧ fp = (payloadAt (firingCtx s 0x00E n).f .l).toNat % 1024)) :
    CompletesWith s (.ffree n) 0x00E n 1 [] (dropsOf s 0x00E n ++ [.freeFrame fp]) 0 := by
  refine completesWith_of_fire s _ 0x00E n 0 1 1 _ _ _ _ rfl h ?_
  obtain ⟨code, rfl⟩ | ⟨code, value, rfl⟩ := meaning
  · simp only [code, ↓reduceIte, OfNat.zero_ne_ofNat, issueSimple_takeReady, firingCtx_fp]
  · simp only [code, ↓reduceIte, value, issueSimple_takeReady]

/-- An ffree whose literal names a link of its frame reads it as it issues (R289, log 10). -/
theorem ffree_link {s : State} {n : Node} (h : performs s 0x00E n = true) {which : Nat} (code : litBits n 0 2 = which + 1) (small : which < 2) :
    CompletesWith s (.ffree n) 0x00E n 1 [] (dropsOf s 0x00E n ++ [.freeFrame ((linkRead (firedPE s s) s.cur.fp which).1.toNat % 1024)])
      (if (linkRead (firedPE s s) s.cur.fp which).2 then flagEmptyRead else 0) := by
  refine completesWith_of_fire s _ 0x00E n 0 1 1 _ _ _ _ rfl h ?_
  have reads : linkRead (getPE (takeReady s s.cur) s.cur.bh s.cur.pe) s.cur.fp which = linkRead (firedPE s s) s.cur.fp which :=
    getPE_takeReady_keeps (linkRead · s.cur.fp which) (fun _ _ _ => rfl) s s.cur _ _
  simp only [code, Nat.add_sub_cancel, firingCtx_bh, firingCtx_pe, firingCtx_fp, reads]
  rw [if_neg (by omega), if_neg (by omega)]
  rfl

/-- Settles O5: a falloc opens its frame; ffree by its code; flink by whether the frame that r names is live. -/
theorem framesOpenedFreedAndLinked : Obligations.FramesOpenedFreedAndLinked := by
  unfold Obligations.FramesOpenedFreedAndLinked
  have reads : ∀ (s : State) (fp : Nat), frameLive (getPE (takeReady s s.cur) s.cur.bh s.cur.pe) fp = frameLive (firedPE s s) fp := fun s fp =>
    getPE_takeReady_keeps (frameLive · fp) (fun _ _ _ => rfl) s s.cur _ _
  refine ⟨fun s n cf fp h placed _ throttle fit budget => falloc_opens h placed throttle fit budget, fun s n => ⟨fun h code => ?_, fun h k code => ?_, fun h code value => ?_,
    fun h code handle => ?_, fun h => ⟨fun live => ?_, fun gone => ?_⟩⟩⟩
  · exact ffree_frees h (.inl ⟨by rw [litBits_eq, code]; rfl, rfl⟩)
  · refine ffree_link h ?_ k.isLt
    rw [litBits_eq, code]
    match k with
    | 0 => rfl
    | 1 => rfl
  · exact ffree_frees h (.inr ⟨by rw [litBits_eq, code]; rfl, value, rfl⟩)
  · have which : litBits n 0 2 = 3 := by rw [litBits_eq, code]; rfl
    refine errsWith_of_fire 0x07 rfl h (by decide) ?_
    simp only [which, ↓reduceIte, handle]
  · refine completesWith_of_fire s _ 0x00F n 0 1 1 _ _ _ _ rfl h ?_
    simp only [firingCtx_bh, firingCtx_pe, reads, live, Bool.not_true, Bool.false_eq_true, ↓reduceIte, issueSimple_takeReady, litBits_eq]
    unfold passOn
    rw [firingCtx_node]
  · refine errsWith_of_fire 0x04 rfl h (by decide) ?_
    simp only [firingCtx_bh, firingCtx_pe, reads, gone, Bool.not_false, ↓reduceIte]

end Sys2Proof.Machine
end

section
/-! SUPPORT. The statement about tile references (R58, R59, R192 to R194). -/

namespace Sys2Proof.Machine

open Host

/-- A tile can be allocated where an entry, pages and the budget are free (R55, R60, R189). -/
theorem allocTile_isSome {s : State} {f : Firing} {pe tid rows : Nat} {pend : Bool} :
    (allocTile s f pe tid rows pend).isSome = true ↔ (freeHandle (getPE s f.bh pe)).isSome = true ∧
      ¬((lowestFree 256 (usedPages (getPE s f.bh pe)) (ceilDiv rows 4)).length < ceilDiv rows 4 ∨ (!budgetOk s (pageAddr s f) .page (ceilDiv rows 4)) = true) := by
  unfold allocTile
  dsimp only
  split
  · next none => simp [none]
  · next h found =>
    split
    · next full => exact ⟨nofun, fun free => absurd full free.2⟩
    · next free => exact ⟨fun _ => ⟨by rw [found]; rfl, free⟩, fun _ => rfl⟩

/-- A firing that has left its queue leaves what an allocation looks at (R226). -/
theorem allocTile_takeReady {s : State} {f g : Firing} {pe tid rows : Nat} {pend : Bool} (h : (allocTile s f pe tid rows pend).isSome = true) :
    (allocTile (takeReady s g) f pe tid rows pend).isSome = true := by
  rw [allocTile_isSome] at h ⊢
  rw [getPE_takeReady_keeps freeHandle (fun _ _ _ => rfl), getPE_takeReady_keeps usedPages (fun _ _ _ => rfl),
    pageAddr_congr _ _ (takeReady_tasks s g) (takeReady_launches s g) (takeReady_regs s g), budgetOk_congr _ _ (takeReady_rcbs s g)]
  exact h

/-- Runs of one length that have been cleared one after another read as the default (R57). -/
theorem sget_foldl_sclear {α : Type} (d : α) (n : Nat) (l : List Nat) (m : SMap α) {g j : Nat} (h : g ∈ l ∨ sget d m (n * g + j) = d) (hj : j < n) :
    sget d (l.foldl (fun a x => sclear a (n * x) n) m) (n * g + j) = d := by
  induction l generalizing m with
  | nil => exact h.resolve_left List.not_mem_nil
  | cons x l ih =>
    refine ih _ ?_
    rw [sget_sclear]
    by_cases same : g = x
    · rw [same]
      exact .inr (if_pos ⟨Nat.le_add_right _ _, Nat.add_lt_add_left hj _⟩)
    · refine h.imp (fun mem => (List.mem_cons.mp mem).resolve_left same) fun clear => ?_
      rw [clear, ite_self]

/-- The granules of an allocated tile's pages are empty (R57). -/
theorem allocTile_full {s t : State} {f : Firing} {pe tid rows h : Nat} {pend : Bool} (made : allocTile s f pe tid rows pend = some (h, t)) :
    ∀ g ∈ (handleAt (getPE t f.bh pe) h).pages, sgets false (getPE t f.bh pe).full (128 * g) 128 = List.replicate 128 false := by
  have entry := (allocTile_made s f pe tid rows pend h t made).entry
  have full : (getPE t f.bh pe).full =
      (lowestFree 256 (usedPages (getPE s f.bh pe)) (ceilDiv rows 4)).foldl (fun a g => sclear a (128 * g) 128) (getPE s f.bh pe).full := by
    unfold allocTile at made
    dsimp only at made
    split at made
    · cases made
    · split at made
      · cases made
      · simp only [Option.some.injEq, Prod.mk.injEq] at made
        obtain ⟨rfl, rfl⟩ := made
        exact congrArg PE.full ((getPE_setPE s f.bh pe f.bh pe _).trans (if_pos rfl))
  intro g hg
  rw [entry] at hg
  rw [sgets_eq_map, full]
  refine List.eq_replicate_iff.mpr ⟨by simp, fun x hx => ?_⟩
  obtain ⟨j, hj, rfl⟩ := List.mem_map.mp hx
  exact sget_foldl_sclear false 128 _ _ (.inl hg) (List.mem_range.mp hj)

/-- What a talloc makes of the state in which its tile has been allocated under entry h: BOUND is +Inf (R192). -/
def tallocState (s u : State) (h : Nat) : State :=
  modPE u s.cur.bh s.cur.pe fun p => handlePut p h { handleAt (getPE u s.cur.bh s.cur.pe) h with bound := 0x7F800000#32 }

theorem getPE_tallocState (s u : State) (h : Nat) : getPE (tallocState s u h) s.cur.bh s.cur.pe =
    handlePut (getPE u s.cur.bh s.cur.pe) h { handleAt (getPE u s.cur.bh s.cur.pe) h with bound := 0x7F800000#32 } :=
  (getPE_modPE _ _ _ _ _ _).trans (if_pos rfl)

/-- A talloc makes an empty tile and enters its firing (R192). -/
theorem talloc_makes {s : State} {n : Node} {tid : TidEntry} (h : performs s 0x146 n = true)
    (declared : tidEntry s s.cur.vf (n.lit.extractLsb' 0 10).toNat = some tid)
    (room : (allocTile s (firingCtx s 0x146 n).f s.cur.pe tid.tid tid.rows false).isSome = true) :
    ∃ t : State, ∃ (h : Nat), exec (.talloc n) s = .next t ∧ freeHandle (firedPE s s) = some h ∧
      (let e := handleAt (firedPE s t) h
       e.kind = .tile ∧ e.tid = tid.tid ∧ e.pend = false ∧ e.bound = 0x7F800000#32 ∧ e.rexp = [] ∧ e.cexp = [] ∧ e.rflag = 0 ∧ e.cflag = 0 ∧
       (∀ g ∈ e.pages, sgets false (firedPE s t).full (128 * g) 128 = List.replicate 128 false) ∧
       Issues s t (itemOf s 0x146 n 1 (toUsed n .handle (handleWord h tid.tid e.gen)) (dropsOf s 0x146 n ++ [.produced h]) 0)) ∧
      ∀ a, memByte t a = memByte s a := by
  obtain ⟨⟨x, u⟩, alloc⟩ := Option.isSome_iff_exists.mp (allocTile_takeReady (g := s.cur) room)
  obtain ⟨free, entry, -, own, ⟨ps, rs, rest⟩, -⟩ := allocTile_made _ _ _ _ _ _ _ _ alloc
  have granules := allocTile_full alloc
  rw [firingCtx_bh] at free entry own granules
  have run : exec (.talloc n) s = .next (pushIssued (charge (tallocState s u x) s.cur.bh s.cur.pe 10 1) (firingCtx s 0x146 n).f n 1
      (toUsed n .handle (handleWord x tid.tid (handleAt (getPE u s.cur.bh s.cur.pe) x).gen)) (dropsOf s 0x146 n ++ [.produced x]) 0 .nothing) := by
    have declared' : tidEntry (takeReady s s.cur) s.cur.vf (litBits n 0 10) = some tid := by
      rw [litBits_eq]; unfold tidEntry; rw [takeReady_cfgs]; exact declared
    show Outcome.next (fire s 0x146 n _) = _
    rw [fire_perform s 0x146 n _ h]
    simp only [firingCtx_vf, firingCtx_pe, declared', alloc, firingCtx_bh]
    unfold issueSimple
    rw [firingCtx_bh, firingCtx_pe, firingCtx_node]
    rfl
  have departed : Departed s (tallocState s u x) := by
    refine (takeReady_departed s).of_same ?_ (by unfold tallocState; rw [rest]; rfl) (by unfold tallocState; rw [rest]; rfl)
    unfold firedPE
    rw [getPE_tallocState, own]
    exact ⟨rfl, rfl, rfl⟩
  have keeps {α : Type} (g : PE → α) (same : ∀ p issued, g { p with issued := issued } = g p) (es : List Emit) (fx : List Effect) :
      g (firedPE s (pushIssued (charge (tallocState s u x) s.cur.bh s.cur.pe 10 1) (firingCtx s 0x146 n).f n 1 es fx 0 .nothing)) =
        g (handlePut (getPE u s.cur.bh s.cur.pe) x { handleAt (getPE u s.cur.bh s.cur.pe) x with bound := 0x7F800000#32 }) := by
    unfold firedPE
    rw [getPE_pushIssued_keeps g same, getPE_charge, getPE_tallocState]
  refine ⟨_, x, run, ?_, ?_, fun a => memByte_congr s _ ?_ a⟩
  · rw [← free]; exact (getPE_takeReady_keeps freeHandle (fun _ _ _ => rfl) s s.cur _ _).symm
  · dsimp only
    rw [keeps (handleAt · x) (fun _ _ => rfl), keeps (·.full) (fun _ _ => rfl), handleAt_handlePut, if_pos rfl]
    refine ⟨by rw [entry], by rw [entry], by rw [entry], rfl, by rw [entry]; rfl, by rw [entry]; rfl, by rw [entry]; rfl, by rw [entry]; rfl, granules,
      departed.issues 0x146 10 1 n 1 _ _ 0⟩
  · rw [pushIssued_mem, charge_mem]; unfold tallocState; rw [modPE_mem, rest]; exact takeReady_mem s s.cur

/-- A tref within the bounds of REF adds to it and enters its firing (R193). -/
theorem tref_counts {s : State} {n : Node} (h : performs s 0x147 n = true) {v : Word} (hv : payloadAt (firingCtx s 0x147 n).f .l = v) {e : HEntry}
    (he : handleAt (firedPE s s) (handleIdx v) = e) {count : Nat}
    (hc : (if n.litr then litBits n 0 8 else (payloadAt (firingCtx s 0x147 n).f .r).toNat) = count) (fits : ¬(255 < count ∨ 255 < e.ref + count + (usedDests n).length)) :
    ∃ t : State, exec (.tref n) s = .next t ∧ handleAt (firedPE s t) (handleIdx v) = { e with ref := e.ref + count } ∧
      Issues s t (itemOf s 0x147 n 1 (toUsed n .handle v) (dropsOf s 0x147 n) 0) ∧ t.regs = s.regs ∧ ∀ a, memByte t a = memByte s a := by
  have here : getPE (takeReady s s.cur) s.cur.bh s.cur.pe = _ := (getPE_takeReady s s.cur s.cur.bh s.cur.pe).trans (if_pos rfl)
  have entry : handleAt (getPE (takeReady s s.cur) s.cur.bh s.cur.pe) (handleIdx v) = e := (congrArg (handleAt · (handleIdx v)) here).trans he
  have run : exec (.tref n) s = .next (pushIssued (charge (setPE (takeReady s s.cur) s.cur.bh s.cur.pe (handlePut (getPE (takeReady s s.cur) s.cur.bh s.cur.pe)
      (handleIdx v) { e with ref := e.ref + count })) s.cur.bh s.cur.pe 10 1) (firingCtx s 0x147 n).f n 1 (toUsed n .handle v) (dropsOf s 0x147 n) 0 .nothing) := by
    show Outcome.next (fire s 0x147 n _) = _
    rw [fire_perform s 0x147 n _ h]
    simp only [firingCtx_bh, firingCtx_pe, hv, hc, entry, if_neg fits]
    unfold issueSimple
    rw [firingCtx_bh, firingCtx_pe, firingCtx_node, List.append_nil]
    rfl
  have departed : Departed s (setPE (takeReady s s.cur) s.cur.bh s.cur.pe (handlePut (getPE (takeReady s s.cur) s.cur.bh s.cur.pe) (handleIdx v)
      { e with ref := e.ref + count })) := by
    refine (takeReady_departed s).of_same ?_ rfl rfl
    unfold firedPE
    rw [getPE_setPE, if_pos rfl]
    exact ⟨rfl, rfl, rfl⟩
  refine ⟨_, run, ?_, departed.issues 0x147 10 1 n 1 _ _ 0, ?_, fun a => memByte_congr s _ ?_ a⟩
  · unfold firedPE
    rw [getPE_pushIssued_keeps (handleAt · (handleIdx v)) (fun _ _ => rfl), getPE_charge, getPE_setPE, if_pos rfl, handleAt_handlePut, if_pos rfl]
  · rw [pushIssued_regs, charge_regs, setPE_regs, takeReady_regs]
  · rw [pushIssued_mem, charge_mem, setPE_mem, takeReady_mem]

/-- A tref beyond the bounds of REF ends with REF_OVERFLOW and leaves the entry as it is (R59, R193). -/
theorem tref_overflows {s : State} {n : Node} (h : performs s 0x147 n = true) {v : Word} (hv : payloadAt (firingCtx s 0x147 n).f .l = v) {e : HEntry}
    (he : handleAt (firedPE s s) (handleIdx v) = e) {count : Nat}
    (hc : (if n.litr then litBits n 0 8 else (payloadAt (firingCtx s 0x147 n).f .r).toNat) = count) (past : 255 < count ∨ 255 < e.ref + count + (usedDests n).length) :
    ∃ t : State, ∃ (x : Word), exec (.tref n) s = .next t ∧ x.toNat % 256 = 0x06 ∧ handleAt (firedPE s t) (handleIdx v) = e ∧
      Issues s t (outcomeOf s 0x147 n (toUsed n .err x) (dropsOf s 0x147 n ++ if usedDests n = [] then [.sinkErr x] else [])) := by
  have entry : handleAt (getPE (takeReady s s.cur) s.cur.bh s.cur.pe) (handleIdx v) = e :=
    (getPE_takeReady_keeps (handleAt · (handleIdx v)) (fun _ _ _ => rfl) s s.cur _ _).trans he
  have errs : ErrsWith s (.tref n) 0x147 n 0x06 := errsWith_of_fire 0x06 rfl h (by decide) (by
    simp only [firingCtx_bh, firingCtx_pe, hv, hc, entry, if_pos past])
  obtain ⟨t, run, only, issues⟩ := errs
  refine ⟨t, _, run, newError_code s _ 0x06 (by decide), ?_, issues⟩
  have own := only.own
  exact (congrArg (handleAt · (handleIdx v)) own).trans he

/-- Settles O27: talloc allocates; tref by its bounds; trel enters a drop. -/
theorem tileReferences : Obligations.TileReferences := by
  unfold Obligations.TileReferences
  refine fun s n => ⟨fun tid h declared room => talloc_makes h declared room, fun h => ⟨fun small fits => ?_, fun past => ?_⟩, fun h => ?_⟩
  · exact tref_counts h rfl rfl (by rw [litBits_eq]) (by omega)
  · exact tref_overflows h rfl rfl (by rw [litBits_eq]) past
  · refine completesWith_of_fire s _ 0x148 n 10 1 1 _ _ _ _ rfl h ?_
    simp only [issueSimple_takeReady, litBits_eq]

end Sys2Proof.Machine
end

section
/-! SUPPORT. What a sink and a halt touch (R223, R285), and what leaves the network with a token (R217). -/

namespace Sys2Proof.Machine

open Host

/-- t differs from s at most in what the discarding of firings, frames and tasks touches: PEs, tasks and what is charged (R52, R285). -/
def OnlyDiscards (s t : State) : Prop := ∃ ps ts rs, t = { s with pes := ps, tasks := ts, rcbs := rs }

theorem OnlyDiscards.refl (s : State) : OnlyDiscards s s := ⟨_, _, _, rfl⟩

theorem OnlyDiscards.trans {s t u : State} (h : OnlyDiscards s t) (g : OnlyDiscards t u) : OnlyDiscards s u := by
  obtain ⟨_, _, _, rfl⟩ := h
  obtain ⟨_, _, _, rfl⟩ := g
  exact ⟨_, _, _, rfl⟩

theorem OnlyDiscards.foldl {α : Type} {f : State → α → State} (step : ∀ s x, OnlyDiscards s (f s x)) (l : List α) (s : State) : OnlyDiscards s (l.foldl f s) := by
  induction l generalizing s with
  | nil => exact .refl s
  | cons x l ih => exact (step s x).trans (ih _)

theorem dropToken_discards (s : State) (b pe : Nat) (kind : Kind) (v : Word) (n : Nat) : OnlyDiscards s (dropToken s b pe kind v n) := by
  unfold dropToken
  split
  · exact ⟨_, _, _, rfl⟩
  · exact .refl s

theorem frameDrop_discards (s : State) (b pe fp cls : Nat) : OnlyDiscards s (frameDrop s b pe fp cls) := by
  unfold frameDrop
  dsimp only
  refine OnlyDiscards.foldl (fun t e => ?_) _ s
  generalize (if tagState e.2 = tagStickyL ∨ tagState e.2 = tagStickyR then (if tagCount e.2 = 63 then 1 else tagCount e.2) else 1) = n
  split
  · exact dropToken_discards t b pe .handle _ n
  · exact .refl t

theorem frameFree_discards (s : State) (b pe fp : Nat) : OnlyDiscards s (frameFree s b pe fp) := by
  unfold frameFree
  split
  · exact .refl s
  · next i _ =>
    dsimp only
    have closed (pes : List Nat) : OnlyDiscards s (pes.foldl (fun t q => modPE (frameDrop t b q fp i.cls) b q fun p => frameClose p fp i.cls) s) :=
      OnlyDiscards.foldl (fun t q => (frameDrop_discards t b q fp i.cls).trans ⟨_, _, _, rfl⟩) pes s
    refine OnlyDiscards.trans ?_ ⟨_, _, _, rfl⟩
    split
    · exact closed _
    · exact (closed _).trans ⟨_, _, _, rfl⟩

theorem tasksDrop_discards (s : State) (hit : Task → Bool) : OnlyDiscards s (tasksDrop s hit) :=
  OnlyDiscards.trans (OnlyDiscards.foldl (fun _ _ => ⟨_, _, _, rfl⟩) _ s) ⟨_, _, _, rfl⟩

/-- What a halt discards before its launch goes to ENDING (R285). -/
def haltDiscards (s : State) (l : Launch) (lid : Nat) : State :=
  let pes := activePes s l.bh
  let s1 := pes.foldl (fun t pe => readyDiscard t l.bh pe fun f => f.lid == lid) s
  let s2 := pes.foldl (fun t pe => ((getPE t l.bh pe).finfo.filter fun e => e.2.lid == lid).foldl (fun u e => frameFree u l.bh pe e.1) t) s1
  tasksDrop s2 fun t => t.lid == lid

theorem haltDiscards_only (s : State) (l : Launch) (lid : Nat) : OnlyDiscards s (haltDiscards s l lid) := by
  unfold haltDiscards
  refine OnlyDiscards.trans (OnlyDiscards.trans (OnlyDiscards.foldl (fun t pe => ⟨_, _, _, rfl⟩) _ s) (OnlyDiscards.foldl (fun t pe => ?_) _ _)) (tasksDrop_discards _ _)
  exact OnlyDiscards.foldl (fun u (e : Nat × FrameInfo) => frameFree_discards u l.bh pe e.1) _ t

/-- A halt takes its launch's work away, and the launch goes to ENDING with its exit status (R285). -/
theorem haltLaunch_eq {s : State} {lid : Nat} {l : Launch} (status : Word) (found : launchAt s lid = some l) (going : l.st ≠ .ending) :
    haltLaunch s lid status = launchPut (haltDiscards s l lid) { l with st := .ending, halted := true, exit := status } := by
  obtain ⟨_, _, _, discards⟩ := haltDiscards_only s l lid
  have still : launchAt (haltDiscards s l lid) lid = some l := by rw [discards]; exact found
  unfold haltLaunch
  rw [found]
  dsimp only
  rw [if_neg going]
  unfold haltDiscards at still ⊢
  dsimp only at still ⊢
  rw [still]

theorem haltLaunch_rest {s : State} {lid : Nat} (status : Word) (h : ∀ l, launchAt s lid = some l → l.st = .ending) : haltLaunch s lid status = s := by
  unfold haltLaunch
  cases found : launchAt s lid with
  | none => rfl
  | some l => exact if_pos (h l found)

/-- t differs from s at most in what a sink touches: what a halt discards, the launches, and what an event's record writes (R223, R285, R422). -/
def OnlySinks (s t : State) : Prop :=
  ∃ ps ts rs ls m b e r v h, t = { s with pes := ps, tasks := ts, rcbs := rs, launches := ls, mem := m, bmeta := b, ecc := e, regs := r, evSeq := v, bhs := h }

theorem OnlySinks.trans {s t u : State} (h : OnlySinks s t) (g : OnlySinks t u) : OnlySinks s u := by
  obtain ⟨_, _, _, _, _, _, _, _, _, _, rfl⟩ := h
  obtain ⟨_, _, _, _, _, _, _, _, _, _, rfl⟩ := g
  exact ⟨_, _, _, _, _, _, _, _, _, _, rfl⟩

theorem OnlySinks.refl (s : State) : OnlySinks s s := ⟨_, _, _, _, _, _, _, _, _, _, rfl⟩

theorem OnlyDiscards.sinks {s t : State} (h : OnlyDiscards s t) : OnlySinks s t := by
  obtain ⟨_, _, _, rfl⟩ := h
  exact ⟨_, _, _, _, _, _, _, _, _, _, rfl⟩

theorem OnlyAccess.sinks {s t : State} (h : OnlyAccess s t) : OnlySinks s t := by
  obtain ⟨_, _, _, _, _, _, rfl⟩ := h
  exact ⟨_, _, _, _, _, _, _, _, _, _, rfl⟩

theorem haltLaunch_sinks (s : State) (lid : Nat) (status : Word) : OnlySinks s (haltLaunch s lid status) := by
  by_cases h : ∀ l, launchAt s lid = some l → l.st = .ending
  · rw [haltLaunch_rest status h]; exact .refl s
  · obtain ⟨l, found, going⟩ : ∃ l, launchAt s lid = some l ∧ l.st ≠ .ending := by simpa using h
    rw [haltLaunch_eq status found going]
    exact (haltDiscards_only s l lid).sinks.trans ⟨_, _, _, _, _, _, _, _, _, _, rfl⟩

theorem sinkCount_sinks (s : State) (b vf lid : Nat) (payload : Word) : OnlySinks s (sinkCount s b vf lid payload) := by
  unfold sinkCount
  split
  · exact OnlySinks.trans ⟨_, _, _, _, _, _, _, _, _, _, rfl⟩ (postEvent_access _ _ _ _ _ _ _).sinks
  · exact (postEvent_access _ _ _ _ _ _ _).sinks

theorem toSink_sinks (s : State) (b vf lid : Nat) (payload : Word) : OnlySinks s (toSink s b vf lid payload) := by
  unfold toSink
  dsimp only
  split
  · split
    · exact (sinkCount_sinks _ _ _ _ _).trans (haltLaunch_sinks _ _ _)
    · exact sinkCount_sinks _ _ _ _ _
  · exact sinkCount_sinks _ _ _ _ _

/-- What leaves the network with a token: the token, and the cycle's place of its side of the matching stage (R217). -/
theorem getPE_flightTake_keeps {α : Type} (g : PE → α) (keeps : ∀ p i j, g { p with localAt := i, routerAt := j } = g p) (s : State) (k : Nat) (x : Flight) (c q : Nat) :
    g (getPE (flightTake s k x) c q) = g (getPE s c q) := by
  unfold flightTake
  rw [getPE_modPE]
  split
  · next same =>
    have here : getPE { s with flights := s.flights.eraseIdx k } x.tok.bh x.tok.pe = getPE s c q := by unfold getPE; rw [same]
    rw [here]
    split
    · exact keeps (getPE s c q) _ (getPE s c q).routerAt
    · exact keeps (getPE s c q) (getPE s c q).localAt _
  · rfl

theorem flightTake_state (s : State) (k : Nat) (x : Flight) : ∃ ps, flightTake s k x = { s with flights := s.flights.eraseIdx k, pes := ps } := ⟨_, rfl⟩

/-- A token discarded with a new error of its PE has left the network, and the PE's error number advances (R54, R79, R81, R223). -/
theorem discarded_numbers (s : State) (k : Nat) (x : Flight) (b pe : Nat) (kind : Kind) (v : Word) (n src code c vf lid : Nat) (w : Word) :
    let s1 := dropToken (flightTake s k x) b pe kind v n
    let t := toSink (newError s1 src code).2 c vf lid w
    t.flights = s.flights.eraseIdx k ∧ sget 0 t.errSeq src = (sget 0 s.errSeq src + 1) % 2 ^ 32 := by
  obtain ⟨_, taken⟩ := flightTake_state s k x
  obtain ⟨_, _, _, dropped⟩ := dropToken_discards (flightTake s k x) b pe kind v n
  obtain ⟨_, _, _, _, _, _, _, _, _, _, sunk⟩ := toSink_sinks (newError (dropToken (flightTake s k x) b pe kind v n) src code).2 c vf lid w
  dsimp only
  rw [sunk, newError_state, dropped, taken]
  exact ⟨rfl, sget_sput_same _ _ _ _⟩

end Sys2Proof.Machine
end

section
/-! SUPPORT. The match of a token (R217 to R220): the parts of `matchToken`, each with what it is at a node of arity 2 or 3, and what the slots then hold. -/

namespace Sys2Proof.Machine

open Host

/-! Slots and their tags (R50). -/

theorem tagState_mkTag (st kind count : Nat) (h : st < 8) : tagState (mkTag st kind count) = st := by
  unfold tagState mkTag bits
  rw [BitVec.toNat_ofNat]
  omega

@[simp] theorem slotTag_slotTagPut (p : PE) (sl j : Nat) (y : BitVec 16) : slotTag (slotTagPut p sl y) j = if j = sl then y else slotTag p j := by
  unfold slotTag slotTagPut; exact sget_sput _ _ _ _ _

@[simp] theorem slotTag_slotPut (p : PE) (sl j : Nat) (y : BitVec 16) (v : Word) : slotTag (slotPut p sl y v) j = if j = sl then y else slotTag p j := by
  unfold slotTag slotPut; exact sget_sput _ _ _ _ _

/-- A slot that is not left EMPTY holds what has been put there (R51). -/
theorem slotValue_slotPut_same (p : PE) (sl : Nat) (y : BitVec 16) (v : Word) (h : tagState y ≠ 0) : slotValue (slotPut p sl y v) sl = v := by
  unfold slotValue
  rw [slotTag_slotPut, if_pos rfl, if_neg h]
  exact sget_sput_same _ _ _ _

theorem slotValue_slotPut_other (p : PE) {sl j : Nat} (y : BitVec 16) (v : Word) (h : j ≠ sl) : slotValue (slotPut p sl y v) j = slotValue p j := by
  unfold slotValue
  rw [slotTag_slotPut, if_neg h]
  unfold slotPut
  rw [sget_sput_other _ _ _ _ _ h]

/-- The state of a parked token names its port, and is not EMPTY. -/
theorem parkState_pos (q : Port) : parkState q ≠ 0 ∧ parkState q < 8 := by cases q <;> decide

theorem stickState_pos (q : Port) : stickState q ≠ 0 ∧ stickState q < 8 := by cases q <;> decide

/-- The tag that parks a token (R218, R219). -/
def parkTag (n : Node) (t : Token) : BitVec 16 :=
  if stickyPort n = some t.port then mkTag (stickState t.port) (kindCode t.kind) n.stCount.toNat else mkTag (parkState t.port) (kindCode t.kind) 0

/-- The tag of a sticky operand that stays for the firings to come (R219). -/
def keepTag (n : Node) (t : Token) : BitVec 16 :=
  mkTag (stickState t.port) (kindCode t.kind) (if n.stCount.toNat = 63 then 63 else n.stCount.toNat - 1)

theorem parkTag_state (n : Node) (t : Token) : tagState (parkTag n t) ≠ 0 := by
  unfold parkTag
  split
  · rw [tagState_mkTag _ _ _ (stickState_pos _).2]; exact (stickState_pos _).1
  · rw [tagState_mkTag _ _ _ (parkState_pos _).2]; exact (parkState_pos _).1

theorem keepTag_state (n : Node) (t : Token) : tagState (keepTag n t) ≠ 0 := by
  unfold keepTag; rw [tagState_mkTag _ _ _ (stickState_pos _).2]; exact (stickState_pos _).1

/-- A slot's tag after a match has used what stands there: a sticky operand counts down, 63 standing for ever; any other leaves its slot EMPTY (R219). -/
def tagAfter (y : BitVec 16) : BitVec 16 :=
  if (tagState y = tagStickyL ∨ tagState y = tagStickyR) ∧ tagCount y = 63 then y
  else if (tagState y = tagStickyL ∨ tagState y = tagStickyR) ∧ 1 < tagCount y then mkTag (tagState y) (kindCode (kindOfCode (tagKind y))) (tagCount y - 1) else 0

/-- What a slot supplies to a match: the value of a FILLED slot, or the operand that is parked or held there (R218). -/
def stoodAt (p : PE) (j : Nat) : Operand :=
  { kind := if tagState (slotTag p j) = tagFilled then .value else kindOfCode (tagKind (slotTag p j)), payload := slotValue p j }

/-- The token that a port has left in a slot. -/
def heldTok (p : PE) (j : Nat) (q : Port) : HeldTok :=
  { slot := j, port := q, sticky := tagState (slotTag p j) == tagStickyL || tagState (slotTag p j) == tagStickyR, count := tagCount (slotTag p j),
    kind := kindOfCode (tagKind (slotTag p j)), val := slotValue p j }

theorem heldAt_eq (p : PE) (j : Nat) : heldAt p j = (statePort (tagState (slotTag p j))).map (heldTok p j) := rfl

/-- A state that names a port is neither EMPTY nor FILLED (R50). -/
theorem statePort_some {st : Nat} {q : Port} (h : statePort st = some q) : st ≠ tagEmpty ∧ st ≠ tagFilled := by
  refine ⟨?_, ?_⟩ <;> rintro rfl <;> cases h

/-- A sticky state is that of its port. -/
theorem statePort_sticky {st : Nat} {q : Port} (h : statePort st = some q) (sticky : st = tagStickyL ∨ st = tagStickyR) : stickState q = st := by
  obtain rfl | rfl := sticky <;> cases h <;> rfl

/-! The parts of a match. -/

/-- The slots that a token's match looks at (R218). -/
def matchSlots (o : OpInfo) (n : Node) (t : Token) : List Nat :=
  if arity o n = 3 then [16 * t.fp + n.slot.toNat, 16 * t.fp + n.slot.toNat + 1] else [16 * t.fp + n.slot.toNat]
def matchHeld (p : PE) (o : OpInfo) (n : Node) (t : Token) : List HeldTok := (matchSlots o n t).filterMap (heldAt p)
def matchFilled (p : PE) (o : OpInfo) (n : Node) (t : Token) : List Nat := (matchSlots o n t).filter fun sl => tagState (slotTag p sl) == tagFilled
def matchMissing (p : PE) (o : OpInfo) (n : Node) (t : Token) : List Port :=
  (nodePorts o n).filter fun x => x != t.port && !((matchHeld p o n t).any fun h => h.port == x)
def matchGiven (p : PE) (o : OpInfo) (n : Node) (t : Token) : List (Port × Nat) := (matchMissing p o n t).zip (matchFilled p o n t)

/-- The operand that a match finds for a port (R218). -/
def matchOperand (p : PE) (o : OpInfo) (n : Node) (t : Token) (x : Port) : Option Operand :=
  if x = t.port then some { kind := t.kind, payload := t.payload }
  else match (matchHeld p o n t).find? fun h => h.port == x with
    | some h => some { kind := h.kind, payload := h.val }
    | none => ((matchGiven p o n t).find? fun g => g.1 == x).map fun g => { kind := .value, payload := slotValue p g.2 }

/-- What a match makes of a slot from which it takes a held operand (R219). -/
def useHeld (a : PE) (h : HeldTok) : PE :=
  if h.sticky ∧ h.count = 63 then a
  else if h.sticky ∧ 1 < h.count then slotTagPut a h.slot (mkTag (stickState h.port) (kindCode h.kind) (h.count - 1))
  else slotTagPut a h.slot 0

/-- The PE once the operands that stood in its slots have been taken. -/
def matchUsed (p : PE) (o : OpInfo) (n : Node) (t : Token) : PE :=
  (matchGiven p o n t).foldl (fun a g => slotTagPut a g.2 0) ((matchHeld p o n t).foldl useHeld p)

/-- The PE once a sticky arrival has found its slot, too (R219). -/
def matchKept (p : PE) (o : OpInfo) (n : Node) (t : Token) : PE :=
  if stickyPort n == some t.port ∧ 1 < n.stCount.toNat then
    (match (matchSlots o n t).find? fun sl => tagState (slotTag (matchUsed p o n t) sl) == tagEmpty with
     | some sl => slotPut (matchUsed p o n t) sl (keepTag n t) t.payload
     | none => matchUsed p o n t)
  else matchUsed p o n t

/-- The slot in which a token parks (R218). -/
def parkSlot (p : PE) (o : OpInfo) (n : Node) (t : Token) : Nat :=
  let free (sl : Nat) : Bool := tagState (slotTag p sl) == tagEmpty
  let s0 := 16 * t.fp + n.slot.toNat
  if arity o n = 3 ∧ t.port = .p ∧ free (s0 + 1) then s0 + 1 else if free s0 then s0 else s0 + 1

theorem matchToken_eq (p : PE) (o : OpInfo) (n : Node) (t : Token) :
    matchToken p o n t =
      if (matchHeld p o n t).any fun h => h.port == t.port then .overrun
      else if (matchMissing p o n t).length ≤ (matchFilled p o n t).length then
        .fires (matchKept p o n t) (matchOperand p o n t .l) (matchOperand p o n t .r) (matchOperand p o n t .p)
      else .parked (slotPut p (parkSlot p o n t) (if stickyPort n == some t.port then mkTag (stickState t.port) (kindCode t.kind) n.stCount.toNat
        else mkTag (parkState t.port) (kindCode t.kind) 0) t.payload) := rfl

theorem portSlot_eq (p : PE) (o : OpInfo) (n : Node) (t : Token) (x : Port) :
    portSlot p o n t x =
      if x = t.port then none
      else match (matchHeld p o n t).find? fun h => h.port == x with
        | some h => some h.slot
        | none => ((matchGiven p o n t).find? fun g => g.1 == x).map (·.2) := rfl

/-! Ports (R71). -/

theorem nodePorts_others_length {o : OpInfo} {n : Node} {a : Port} (ha : a ∈ nodePorts o n) : ((nodePorts o n).filter (· != a)).length + 1 = arity o n := by
  unfold arity
  unfold nodePorts at ha ⊢
  revert ha
  cases hasL o <;> cases hasR o n <;> cases hasP o n <;> cases a <;> decide

theorem nodePorts_other {o : OpInfo} {n : Node} {a q : Port} (two : arity o n = 2) (ha : a ∈ nodePorts o n) (hq : q ∈ nodePorts o n) (ne : q ≠ a) :
    (nodePorts o n).filter (· != a) = [q] := by
  have one : ((nodePorts o n).filter (· != a)).length = 1 := by have := nodePorts_others_length ha; omega
  obtain ⟨b, only⟩ := List.length_eq_one_iff.mp one
  have mem : q ∈ (nodePorts o n).filter (· != a) := List.mem_filter.mpr ⟨hq, bne_iff_ne.mpr ne⟩
  rw [only] at mem ⊢
  rw [List.mem_singleton.mp mem]

theorem nodePorts_three {o : OpInfo} {n : Node} (three : arity o n = 3) : nodePorts o n = [.l, .r, .p] := by
  unfold arity at three
  unfold nodePorts at three ⊢
  revert three
  cases hasL o <;> cases hasR o n <;> cases hasP o n <;> decide

/-- The two ports of a node of arity 3 beside the arriving one, in port order. -/
theorem nodePorts_both {o : OpInfo} {n : Node} {a q q1 : Port} (three : arity o n = 3) (ne : q ≠ q1) (h : q ≠ a) (h1 : q1 ≠ a) :
    (nodePorts o n).filter (· != a) = if (q, q1) ∈ [(Port.l, Port.r), (Port.l, Port.p), (Port.r, Port.p)] then [q, q1] else [q1, q] := by
  rw [nodePorts_three three]
  revert ne h h1
  cases a <;> cases q <;> cases q1 <;> decide

theorem matchMissing_eq (p : PE) (o : OpInfo) (n : Node) (t : Token) :
    matchMissing p o n t = ((nodePorts o n).filter (· != t.port)).filter fun x => !((matchHeld p o n t).any fun h => h.port == x) := by
  unfold matchMissing
  rw [List.filter_filter]
  exact List.filter_congr fun x _ => Bool.and_comm _ _

end Sys2Proof.Machine
end

section
/-! SUPPORT. Where a match parks and where it fires (R218, R219): the operands it finds, and the tags it leaves. -/

namespace Sys2Proof.Machine

open Host

/-! What a match leaves in the slots. -/

/-- p' is p with other tags, which are these. -/
def TagsAs (p p' : PE) (f : Nat → BitVec 16) : Prop := (∃ ts, p' = { p with tags := ts }) ∧ ∀ j, slotTag p' j = f j

theorem TagsAs.refl (p : PE) : TagsAs p p (slotTag p) := ⟨⟨_, rfl⟩, fun _ => rfl⟩

theorem TagsAs.put {p a : PE} {f : Nat → BitVec 16} (h : TagsAs p a f) (j : Nat) (y : BitVec 16) : TagsAs p (slotTagPut a j y) (Function.update f j y) := by
  obtain ⟨⟨ts, rfl⟩, tags⟩ := h
  refine ⟨⟨_, rfl⟩, fun i => ?_⟩
  rw [slotTag_slotTagPut, tags, Function.update_apply]

theorem useHeld_heldTok (p a : PE) (j : Nat) (q : Port) :
    useHeld a (heldTok p j q) =
      if (tagState (slotTag p j) = tagStickyL ∨ tagState (slotTag p j) = tagStickyR) ∧ tagCount (slotTag p j) = 63 then a
      else if (tagState (slotTag p j) = tagStickyL ∨ tagState (slotTag p j) = tagStickyR) ∧ 1 < tagCount (slotTag p j) then
        slotTagPut a j (mkTag (stickState q) (kindCode (kindOfCode (tagKind (slotTag p j)))) (tagCount (slotTag p j) - 1))
      else slotTagPut a j 0 := by
  unfold useHeld heldTok
  simp only [Bool.or_eq_true, beq_iff_eq]

/-- A slot from which a held operand is taken counts down, or is EMPTY (R219). -/
theorem TagsAs.use {p a : PE} {f : Nat → BitVec 16} (h : TagsAs p a f) {j : Nat} {q : Port} (stands : statePort (tagState (slotTag p j)) = some q)
    (same : f j = slotTag p j) : TagsAs p (useHeld a (heldTok p j q)) (Function.update f j (tagAfter (slotTag p j))) := by
  rw [useHeld_heldTok]
  unfold tagAfter
  split
  · rw [← same, Function.update_eq_self]; exact h
  · split
    · next _ counts => rw [statePort_sticky stands counts.1]; exact h.put j _
    · exact h.put j 0

/-- A FILLED slot is EMPTY once its value has been taken (R218). -/
theorem tagAfter_filled {y : BitVec 16} (h : tagState y = tagFilled) : tagAfter y = 0 := by
  unfold tagAfter; rw [h, if_neg (fun c => absurd c.1 (by decide)), if_neg (fun c => absurd c.1 (by decide))]

/-! What stands in a slot, for a match. -/

theorem heldAt_port {p : PE} {j : Nat} {q : Port} (stands : statePort (tagState (slotTag p j)) = some q) : heldAt p j = some (heldTok p j q) := by
  rw [heldAt_eq, stands]; rfl

theorem heldAt_none {p : PE} {j : Nat} (free : statePort (tagState (slotTag p j)) = none) : heldAt p j = none := by rw [heldAt_eq, free]; rfl

theorem statePort_filled {st : Nat} (h : st = tagFilled) : statePort st = none := by rw [h]; rfl

theorem statePort_empty {st : Nat} (h : st = tagEmpty) : statePort st = none := by rw [h]; rfl

/-- An operand that is parked or held. -/
theorem stoodAt_held {p : PE} {j : Nat} {q : Port} (stands : statePort (tagState (slotTag p j)) = some q) :
    (some { kind := (heldTok p j q).kind, payload := (heldTok p j q).val } : Option Operand) = some (stoodAt p j) := by
  unfold stoodAt; rw [if_neg (statePort_some stands).2]; rfl

/-- The value of a FILLED slot. -/
theorem stoodAt_filled {p : PE} {j : Nat} (filled : tagState (slotTag p j) = tagFilled) :
    (some { kind := .value, payload := slotValue p j } : Option Operand) = some (stoodAt p j) := by unfold stoodAt; rw [if_pos filled]

/-! A node of arity 2. -/

section
variable {p : PE} {o : OpInfo} {n : Node} {t : Token} {q : Port} {sl : Nat} (two : arity o n = 2) (place : sl = 16 * t.fp + n.slot.toNat)
include two place

theorem matchSlots_two : matchSlots o n t = [sl] := by unfold matchSlots; rw [two, place]; rfl

theorem matchHeld_two (stands : statePort (tagState (slotTag p sl)) = some q) : matchHeld p o n t = [heldTok p sl q] := by
  unfold matchHeld; rw [matchSlots_two two place, List.filterMap_cons, heldAt_port stands]; rfl

theorem matchHeld_two_none (free : statePort (tagState (slotTag p sl)) = none) : matchHeld p o n t = [] := by
  unfold matchHeld; rw [matchSlots_two two place, List.filterMap_cons, heldAt_none free]; rfl

theorem matchFilled_two : matchFilled p o n t = if tagState (slotTag p sl) = tagFilled then [sl] else [] := by
  unfold matchFilled; rw [matchSlots_two two place, List.filter_singleton]; simp

/-- A token that finds its slot EMPTY parks there (R218). -/
theorem matchToken_two_parks (here : t.port ∈ nodePorts o n) (free : tagState (slotTag p sl) = tagEmpty) :
    matchToken p o n t = .parked (slotPut p sl (parkTag n t) t.payload) := by
  have held := matchHeld_two_none two place (statePort_empty free)
  have missing : (matchMissing p o n t).length = 1 := by
    have others := nodePorts_others_length here
    have all : matchMissing p o n t = (nodePorts o n).filter (· != t.port) := by rw [matchMissing_eq, held]; exact List.filter_true _
    rw [all]
    omega
  have filled : matchFilled p o n t = [] := by rw [matchFilled_two two place, if_neg (by rw [free]; decide)]
  have slot : parkSlot p o n t = sl := by unfold parkSlot; simp [two, ← place, free]
  rw [matchToken_eq, held, missing, filled, slot]
  simp [parkTag]

/-- The other port's operand is what stands in the slot (R218). -/
structure FiresTwo (p : PE) (o : OpInfo) (n : Node) (t : Token) (q : Port) (sl : Nat) : Prop where
  fires : matchToken p o n t = .fires (matchKept p o n t) (matchOperand p o n t .l) (matchOperand p o n t .r) (matchOperand p o n t .p)
  operand : ∀ x, matchOperand p o n t x = if x = t.port then some { kind := t.kind, payload := t.payload } else if x ≠ q then none else some (stoodAt p sl)
  slot : ∀ x, portSlot p o n t x = if x = q then some sl else none
  used : TagsAs p (matchUsed p o n t) (Function.update (slotTag p) sl (tagAfter (slotTag p sl)))

theorem matchToken_two_fires (here : t.port ∈ nodePorts o n) (there : q ∈ nodePorts o n) (ne : q ≠ t.port)
    (takes : statePort (tagState (slotTag p sl)) = some q ∨ tagState (slotTag p sl) = tagFilled) : FiresTwo p o n t q sl := by
  have others := nodePorts_other two here there ne
  obtain stands | filled := takes
  · have held := matchHeld_two two place stands
    have missing : matchMissing p o n t = [] := by rw [matchMissing_eq, others, held]; simp [heldTok]
    refine ⟨?_, fun x => ?_, fun x => ?_, ?_⟩
    · rw [matchToken_eq, held, missing]; simp [heldTok, ne]
    · unfold matchOperand matchGiven
      rw [held, missing, ← stoodAt_held stands]
      obtain rfl | other := eq_or_ne x q <;> simp [heldTok, *, Ne.symm]
    · rw [portSlot_eq, matchGiven, held, missing]
      obtain rfl | other := eq_or_ne x q <;> simp [heldTok, *, Ne.symm]
    · unfold matchUsed matchGiven
      rw [held, missing]
      exact (TagsAs.refl p).use stands rfl
  · have held := matchHeld_two_none two place (statePort_filled filled)
    have missing : matchMissing p o n t = [q] := by rw [matchMissing_eq, others, held]; rfl
    have slots : matchFilled p o n t = [sl] := by rw [matchFilled_two two place, if_pos filled]
    refine ⟨?_, fun x => ?_, fun x => ?_, ?_⟩
    · rw [matchToken_eq, held, missing, slots]; rfl
    · unfold matchOperand matchGiven
      rw [held, missing, slots, ← stoodAt_filled filled]
      obtain rfl | other := eq_or_ne x q <;> simp [*, Ne.symm]
    · rw [portSlot_eq, matchGiven, held, missing, slots]
      obtain rfl | other := eq_or_ne x q <;> simp [*, Ne.symm]
    · unfold matchUsed matchGiven
      rw [held, missing, slots, tagAfter_filled filled]
      exact (TagsAs.refl p).put sl 0

end

/-! A node of arity 3. -/

section
variable {p : PE} {o : OpInfo} {n : Node} {t : Token} {sl : Nat} (three : arity o n = 3) (place : sl = 16 * t.fp + n.slot.toNat)
include three place

theorem matchSlots_three : matchSlots o n t = [sl, sl + 1] := by unfold matchSlots; rw [three, place]; rfl

theorem matchHeld_three : matchHeld p o n t = (heldAt p sl).toList ++ (heldAt p (sl + 1)).toList := by
  unfold matchHeld; rw [matchSlots_three three place, List.filterMap_cons, List.filterMap_cons, List.filterMap_nil]
  cases heldAt p sl <;> cases heldAt p (sl + 1) <;> rfl

theorem matchFilled_three :
    matchFilled p o n t = (if tagState (slotTag p sl) = tagFilled then [sl] else []) ++ if tagState (slotTag p (sl + 1)) = tagFilled then [sl + 1] else [] := by
  unfold matchFilled; rw [matchSlots_three three place]
  by_cases h : tagState (slotTag p sl) = tagFilled <;> by_cases h1 : tagState (slotTag p (sl + 1)) = tagFilled <;> simp [h, h1]

omit place in
/-- With one slot that supplies anything, an operand is missing (R218). -/
theorem matchToken_lone {j : Nat} (held : matchHeld p o n t = (heldAt p j).toList) (filled : matchFilled p o n t = if tagState (slotTag p j) = tagFilled then [j] else [])
    (other : statePort (tagState (slotTag p j)) ≠ some t.port) :
    ((matchHeld p o n t).any fun h => h.port == t.port) = false ∧ ¬(matchMissing p o n t).length ≤ (matchFilled p o n t).length := by
  rw [matchMissing_eq, filled, held, nodePorts_three three]
  cases stands : statePort (tagState (slotTag p j)) with
  | none =>
    rw [heldAt_none stands]
    have few : (if tagState (slotTag p j) = tagFilled then [j] else []).length ≤ 1 := by split <;> simp
    have both : ((([Port.l, .r, .p].filter (· != t.port))).filter fun x => !(Option.toList (none : Option HeldTok)).any fun h => h.port == x).length = 2 := by
      cases t.port <;> rfl
    exact ⟨rfl, by omega⟩
  | some q =>
    rw [heldAt_port stands, if_neg (statePort_some stands).2]
    have ne : q ≠ t.port := fun same => other (by rw [stands, same])
    simp only [Option.toList_some, List.any_cons, List.any_nil, Bool.or_false, heldTok]
    revert ne
    cases t.port <;> cases q <;> decide

/-- Where one of the two slots is EMPTY and neither holds its port's token, a token parks (R218). -/
theorem matchToken_three_parks (free : tagState (slotTag p sl) = tagEmpty ∨ tagState (slotTag p (sl + 1)) = tagEmpty)
    (h0 : statePort (tagState (slotTag p sl)) ≠ some t.port) (h1 : statePort (tagState (slotTag p (sl + 1))) ≠ some t.port) :
    matchToken p o n t = .parked (slotPut p (if t.port = .p ∧ tagState (slotTag p (sl + 1)) = tagEmpty then sl + 1 else if tagState (slotTag p sl) = tagEmpty then sl
      else sl + 1) (parkTag n t) t.payload) := by
  have held := matchHeld_three three place (p := p)
  have filled := matchFilled_three three place (p := p)
  have room : ((matchHeld p o n t).any fun h => h.port == t.port) = false ∧ ¬(matchMissing p o n t).length ≤ (matchFilled p o n t).length := by
    obtain free | free := free
    · rw [heldAt_none (statePort_empty free)] at held
      rw [if_neg (by rw [free]; decide)] at filled
      exact matchToken_lone three held filled h1
    · rw [heldAt_none (statePort_empty free), Option.toList_none, List.append_nil] at held
      rw [if_neg (c := tagState (slotTag p (sl + 1)) = tagFilled) (by rw [free]; decide), List.append_nil] at filled
      exact matchToken_lone three held filled h0
  have slot : parkSlot p o n t = if t.port = .p ∧ tagState (slotTag p (sl + 1)) = tagEmpty then sl + 1 else if tagState (slotTag p sl) = tagEmpty then sl else sl + 1 := by
    unfold parkSlot; simp only [three, ← place, true_and, beq_iff_eq]
  rw [matchToken_eq, room.1, if_neg (by decide), if_neg room.2, slot]
  simp [parkTag]

/-- The other ports' operands are what stands in the two slots (R218). -/
structure FiresThree (p : PE) (o : OpInfo) (n : Node) (t : Token) (q q1 : Port) (sl : Nat) : Prop where
  fires : matchToken p o n t = .fires (matchKept p o n t) (matchOperand p o n t .l) (matchOperand p o n t .r) (matchOperand p o n t .p)
  operand : ∀ x, matchOperand p o n t x =
    if x = t.port then some { kind := t.kind, payload := t.payload } else if x = q then some (stoodAt p sl) else some (stoodAt p (sl + 1))
  used : TagsAs p (matchUsed p o n t) (Function.update (Function.update (slotTag p) sl (tagAfter (slotTag p sl))) (sl + 1) (tagAfter (slotTag p (sl + 1))))

omit three place in
theorem port_third {a q q1 x : Port} (ne : q ≠ q1) (h : q ≠ a) (h1 : q1 ≠ a) (hx : x ≠ a) (hq : x ≠ q) : x = q1 := by
  revert ne h h1 hx hq; cases a <;> cases q <;> cases q1 <;> cases x <;> decide

omit three place in
/-- The operand of a port whose token stands in a slot. -/
theorem matchOperand_held {j : Nat} {x : Port} (ne : x ≠ t.port) (stands : statePort (tagState (slotTag p j)) = some x)
    (found : ((matchHeld p o n t).find? fun h => h.port == x) = some (heldTok p j x)) : matchOperand p o n t x = some (stoodAt p j) := by
  unfold matchOperand; rw [if_neg ne, found]; exact stoodAt_held stands

omit three place in
/-- The operand of a port that takes the value of a FILLED slot. -/
theorem matchOperand_given {j : Nat} {x : Port} (ne : x ≠ t.port) (full : tagState (slotTag p j) = tagFilled)
    (none_ : ((matchHeld p o n t).find? fun h => h.port == x) = none) (found : ((matchGiven p o n t).find? fun g => g.1 == x) = some (x, j)) :
    matchOperand p o n t x = some (stoodAt p j) := by
  unfold matchOperand; rw [if_neg ne, none_, found]; exact stoodAt_filled full

omit three place in
/-- The operands of the three ports. -/
theorem matchOperand_three {q q1 : Port} (ne : q ≠ q1) (h : q ≠ t.port) (h1 : q1 ≠ t.port) (op : matchOperand p o n t q = some (stoodAt p sl))
    (op1 : matchOperand p o n t q1 = some (stoodAt p (sl + 1))) (x : Port) : matchOperand p o n t x =
      if x = t.port then some { kind := t.kind, payload := t.payload } else if x = q then some (stoodAt p sl) else some (stoodAt p (sl + 1)) := by
  split
  · next own => unfold matchOperand; rw [if_pos own]
  · next other =>
    split
    case isTrue same => rw [same, op]
    case isFalse third => rw [port_third ne h h1 other third, op1]

theorem matchToken_three_fires {q q1 : Port} (ne : q ≠ q1) (h : q ≠ t.port) (h1 : q1 ≠ t.port)
    (takes : statePort (tagState (slotTag p sl)) = some q ∨ tagState (slotTag p sl) = tagFilled)
    (takes1 : statePort (tagState (slotTag p (sl + 1))) = some q1 ∨ tagState (slotTag p (sl + 1)) = tagFilled)
    (order : tagState (slotTag p sl) = tagFilled → tagState (slotTag p (sl + 1)) = tagFilled → (q, q1) ∈ [(Port.l, Port.r), (Port.l, Port.p), (Port.r, Port.p)]) :
    FiresThree p o n t q q1 sl := by
  have others := nodePorts_both three ne h h1
  have held := matchHeld_three three place (p := p)
  have filled := matchFilled_three three place (p := p)
  have used := TagsAs.refl p
  have next (y : BitVec 16) : Function.update (slotTag p) sl y (sl + 1) = slotTag p (sl + 1) := Function.update_of_ne (by omega) _ _
  obtain stands | full := takes <;> obtain stands1 | full1 := takes1
  · rw [heldAt_port stands, heldAt_port stands1] at held
    have missing : matchMissing p o n t = [] := by rw [matchMissing_eq, others, held]; split <;> simp [heldTok]
    refine ⟨?_, matchOperand_three ne h h1 (matchOperand_held h stands ?_) (matchOperand_held h1 stands1 ?_), ?_⟩
    · rw [matchToken_eq, held, missing]; simp [heldTok, h, h1]
    · rw [held]; simp [heldTok]
    · rw [held]; simp [heldTok, ne]
    · unfold matchUsed matchGiven
      rw [held, missing]
      exact (used.use stands rfl).use stands1 (next _)
  · rw [heldAt_port stands, heldAt_none (statePort_filled full1)] at held
    rw [if_neg (statePort_some stands).2, if_pos full1] at filled
    have missing : matchMissing p o n t = [q1] := by rw [matchMissing_eq, others, held]; split <;> simp [heldTok, ne]
    have given : matchGiven p o n t = [(q1, sl + 1)] := by unfold matchGiven; rw [missing, filled]; rfl
    refine ⟨?_, matchOperand_three ne h h1 (matchOperand_held h stands ?_) (matchOperand_given h1 full1 ?_ ?_), ?_⟩
    · rw [matchToken_eq, held, missing, filled]; simp [heldTok, h]
    · rw [held]; simp [heldTok]
    · rw [held]; simp [heldTok, ne]
    · rw [given]; simp
    · unfold matchUsed
      rw [held, given, tagAfter_filled full1]
      exact (used.use stands rfl).put (sl + 1) 0
  · rw [heldAt_none (statePort_filled full), heldAt_port stands1] at held
    rw [if_pos full, if_neg (c := tagState (slotTag p (sl + 1)) = tagFilled) (statePort_some stands1).2] at filled
    have missing : matchMissing p o n t = [q] := by rw [matchMissing_eq, others, held]; split <;> simp [heldTok, ne.symm]
    have given : matchGiven p o n t = [(q, sl)] := by unfold matchGiven; rw [missing, filled]; rfl
    refine ⟨?_, matchOperand_three ne h h1 (matchOperand_given h full ?_ ?_) (matchOperand_held h1 stands1 ?_), ?_⟩
    · rw [matchToken_eq, held, missing, filled]; simp [heldTok, h1]
    · rw [held]; simp [heldTok, ne.symm]
    · rw [given]; simp
    · rw [held]; simp [heldTok]
    · unfold matchUsed
      rw [held, given, tagAfter_filled full, Function.update_comm (by omega)]
      exact (used.use stands1 rfl).put sl 0
  · rw [heldAt_none (statePort_filled full), heldAt_none (statePort_filled full1)] at held
    rw [if_pos full, if_pos full1] at filled
    have missing : matchMissing p o n t = [q, q1] := by
      rw [matchMissing_eq, others, held, if_pos (order full full1)]; rfl
    have given : matchGiven p o n t = [(q, sl), (q1, sl + 1)] := by unfold matchGiven; rw [missing, filled]; rfl
    refine ⟨?_, matchOperand_three ne h h1 (matchOperand_given h full ?_ ?_) (matchOperand_given h1 full1 ?_ ?_), ?_⟩
    · rw [matchToken_eq, held, missing, filled]; rfl
    · rw [held]; rfl
    · rw [given]; simp
    · rw [held]; rfl
    · rw [given]; simp [ne]
    · unfold matchUsed
      rw [held, given, tagAfter_filled full, tagAfter_filled full1]
      exact (used.put sl 0).put (sl + 1) 0

end

/-! Where a sticky arrival stays (R219). -/

section
variable {p : PE} {o : OpInfo} {n : Node} {t : Token} {f : Nat → BitVec 16} (used : TagsAs p (matchUsed p o n t) f)
include used

theorem matchKept_ready : (matchKept p o n t).ready = p.ready := by
  obtain ⟨⟨ts, eq⟩, _⟩ := used
  unfold matchKept
  rw [eq]
  split
  · split <;> rfl
  · rfl

/-- A sticky arrival that stays takes the first EMPTY slot. -/
theorem matchKept_stays {j : Nat} (again : stickyPort n = some t.port ∧ 1 < n.stCount.toNat)
    (first : ((matchSlots o n t).find? fun i => tagState (f i) == tagEmpty) = some j) :
    (∀ i, slotTag (matchKept p o n t) i = if i = j then keepTag n t else f i) ∧ slotValue (matchKept p o n t) j = t.payload := by
  have kept : matchKept p o n t = slotPut (matchUsed p o n t) j (keepTag n t) t.payload := by
    unfold matchKept
    rw [if_pos ⟨beq_iff_eq.mpr again.1, again.2⟩, funext used.2, first]
  rw [kept]
  exact ⟨fun i => by rw [slotTag_slotPut, used.2], slotValue_slotPut_same _ _ _ _ (keepTag_state n t)⟩

/-- One that does not stay, or finds no EMPTY slot, changes nothing more. -/
theorem matchKept_passes
    (passes : ¬(stickyPort n = some t.port ∧ 1 < n.stCount.toNat) ∨ ((matchSlots o n t).find? fun i => tagState (f i) == tagEmpty) = none) (i : Nat) :
    slotTag (matchKept p o n t) i = f i := by
  have kept : matchKept p o n t = matchUsed p o n t := by
    unfold matchKept
    rw [funext used.2]
    obtain passes | full := passes
    · rw [if_neg (by rwa [beq_iff_eq])]
    · rw [full]; exact ite_self _
  rw [kept, used.2]

/-- With one slot to look at. -/
theorem matchKept_one {sl : Nat} (slots : matchSlots o n t = [sl]) :
    slotTag (matchKept p o n t) sl = (if (stickyPort n = some t.port ∧ 1 < n.stCount.toNat) ∧ tagState (f sl) = tagEmpty then keepTag n t else f sl) ∧
      ((stickyPort n = some t.port ∧ 1 < n.stCount.toNat) → tagState (f sl) = tagEmpty → slotValue (matchKept p o n t) sl = t.payload) ∧
      ∀ j, j ≠ sl → slotTag (matchKept p o n t) j = f j := by
  by_cases stays : (stickyPort n = some t.port ∧ 1 < n.stCount.toNat) ∧ tagState (f sl) = tagEmpty
  · obtain ⟨tags, value⟩ := matchKept_stays used stays.1 (j := sl) (by rw [slots]; simp [stays.2])
    exact ⟨by rw [tags, if_pos rfl, if_pos stays], fun _ _ => value, fun j other => by rw [tags, if_neg other]⟩
  · have tags := matchKept_passes used (by
      refine (not_and_or.mp stays).imp_right fun full => ?_
      rw [slots]; simp [full])
    exact ⟨by rw [tags, if_neg stays], fun a e => absurd ⟨a, e⟩ stays, fun j _ => tags j⟩

/-- With two. -/
theorem matchKept_two {sl : Nat} (slots : matchSlots o n t = [sl, sl + 1]) :
    slotTag (matchKept p o n t) sl = (if (stickyPort n = some t.port ∧ 1 < n.stCount.toNat) ∧ tagState (f sl) = tagEmpty then keepTag n t else f sl) ∧
      slotTag (matchKept p o n t) (sl + 1) =
        (if (stickyPort n = some t.port ∧ 1 < n.stCount.toNat) ∧ tagState (f sl) ≠ tagEmpty ∧ tagState (f (sl + 1)) = tagEmpty then keepTag n t else f (sl + 1)) ∧
      ∀ j, j ≠ sl → j ≠ sl + 1 → slotTag (matchKept p o n t) j = f j := by
  by_cases again : stickyPort n = some t.port ∧ 1 < n.stCount.toNat
  · by_cases free : tagState (f sl) = tagEmpty
    · obtain ⟨tags, -⟩ := matchKept_stays used again (j := sl) (by rw [slots]; simp [free])
      exact ⟨by rw [tags, if_pos rfl, if_pos ⟨again, free⟩], by rw [tags, if_neg (by omega), if_neg (fun c => c.2.1 free)], fun j other _ => by rw [tags, if_neg other]⟩
    · by_cases free1 : tagState (f (sl + 1)) = tagEmpty
      · obtain ⟨tags, -⟩ := matchKept_stays used again (j := sl + 1) (by rw [slots]; simp [free, free1])
        exact ⟨by rw [tags, if_neg (by omega), if_neg (fun c => free c.2)], by rw [tags, if_pos rfl, if_pos ⟨again, free, free1⟩],
          fun j _ other => by rw [tags, if_neg other]⟩
      · have tags := matchKept_passes used (.inr (by rw [slots]; simp [free, free1]))
        exact ⟨by rw [tags, if_neg (fun c => free c.2)], by rw [tags, if_neg (fun c => free1 c.2.2)], fun j _ _ => tags j⟩
  · have tags := matchKept_passes used (.inl again)
    exact ⟨by rw [tags, if_neg (fun c => again c.1)], by rw [tags, if_neg (fun c => again c.1)], fun j _ _ => tags j⟩

end

end Sys2Proof.Machine
end

section
/-! Settles O41: a token on arrival fires, parks, overruns, or is an error; aging, and the tokens of a debugger. -/

namespace Sys2Proof.Machine

open Host

/-! A token that is taken and placed. -/

section
variable {s : State} {k : Nat} {x : Flight} {c : Placed} {o : OpInfo} {n : Node} (arrives : Arrives s k x c o n)
include arrives

/-- A token that can be placed is (R217). -/
theorem tokenArrival_places {v : State} (placed : placeToken (flightTake s k x) c o n x.tok x.vc = some v) : exec (.tokenArrival k) s = .next v := by
  obtain ⟨found, due, here, fits, noComb, noCoord⟩ := arrives
  have open_ : barWaits s c o n x.tok x.vc = false := by
    unfold barWaits; dsimp only; rw [beq_eq_false_iff_ne.mpr noComb]; rfl
  show execTokenArrival k s = _
  unfold execTokenArrival
  rw [found]
  dsimp only
  rw [due, here, fits]
  dsimp only
  rw [noCoord, open_, placed]
  rfl

theorem arrives_port : x.tok.port ∈ nodePorts o n := by
  have fits := arrives.fits
  unfold arrivalCheck at fits
  dsimp only at fits
  split at fits
  · split at fits
    · cases fits
    · next has =>
      obtain ⟨_, same⟩ | ⟨_, same⟩ := ite_eq_iff.mp fits <;> cases same
      simpa using has
  · cases fits

/-! The PE that a token meets once it has left the network. -/

omit arrives in
/-- What is entered in the ready queue is the match's firing, behind what stood there (R216, R224, R225). -/
theorem enterReady_matches {w : State} {p1 : PE} {l r pp : Option Operand} {ops : Port → Option Operand} (ready : p1.ready = (getPE s x.tok.bh x.tok.pe).ready)
    (cycle : cycleOf w x.tok.bh = cycleOf s x.tok.bh) (hl : l = ops .l) (hr : r = ops .r) (hp : pp = ops .p) :
    Matches s (enterReady w p1 c o x.tok x.vc l r pp) x c o ops := by
  subst hl hr hp
  refine ⟨matchFiring w p1 c o x.tok x.vc (ops .l) (ops .r) (ops .p), ?_, rfl, rfl, rfl, rfl, rfl, rfl, rfl, rfl, cycle, fun q => by cases q <;> rfl, ?_⟩
  · unfold enterReady
    rw [getPE_setPE, if_pos rfl, ready]
  · unfold matchFiring
    dsimp only
    cases ops .l <;> cases ops .r <;> cases ops .p <;> simp [isKind]

end

/-- A PE with these next cycles of its two sides of the matching stage (R217). -/
def atStage (p : PE) (i j : Nat) : PE := { p with localAt := i, routerAt := j }

/-- The places of the matching stage alone change as a token leaves the network (R217). -/
theorem getPE_taken (s : State) (k : Nat) (x : Flight) :
    ∃ i j, getPE (flightTake s k x) x.tok.bh x.tok.pe = atStage (getPE s x.tok.bh x.tok.pe) i j := by
  unfold flightTake
  rw [getPE_modPE, if_pos rfl]
  split
  · exact ⟨_, (getPE s x.tok.bh x.tok.pe).routerAt, rfl⟩
  · exact ⟨(getPE s x.tok.bh x.tok.pe).localAt, _, rfl⟩

theorem getPE_enterReady_keeps {α : Type} (g : PE → α) (keeps : ∀ p fs, g { p with ready := fs } = g p) (w : State) (p1 : PE) (c : Placed) (o : OpInfo) (t : Token)
    (vc : Nat) (l r pp : Option Operand) : g (getPE (enterReady w p1 c o t vc l r pp) t.bh t.pe) = g p1 := by
  unfold enterReady; rw [getPE_setPE, if_pos rfl]; exact keeps _ _

/-! What becomes of a token that stands at its PE (R217 to R220). -/

section
variable {u : State} {c : Placed} {o : OpInfo} {n : Node} {t : Token} {vc : Nat} (noComb : o.code ≠ 0x187)
include noComb

theorem placeToken_single (one : arity o n = 1) (room : readyRoom (getPE u t.bh t.pe) vc = true) : placeToken u c o n t vc =
    let at_ (q : Port) : Option Operand := if t.port = q then some { kind := t.kind, payload := t.payload } else none
    some (enterReady u (getPE u t.bh t.pe) c o t vc (at_ .l) (at_ .r) (at_ .p)) := by
  unfold placeToken; rw [if_neg noComb, if_pos one, room]; rfl

theorem placeToken_parks {p1 : PE} (many : arity o n ≠ 1) (parks : matchToken (getPE u t.bh t.pe) o n t = .parked p1) :
    placeToken u c o n t vc = some (setPE u t.bh t.pe p1) := by
  unfold placeToken; rw [if_neg noComb, if_neg many, parks]

theorem placeToken_overruns (many : arity o n ≠ 1) (overruns : matchToken (getPE u t.bh t.pe) o n t = .overrun) :
    placeToken u c o n t vc =
      let x := newError (dropToken u t.bh t.pe t.kind t.payload (tokenRefs u t)) (peSrc t.bh t.pe) 0x01
      some (toSink x.2 t.bh t.vf c.lid x.1) := by
  unfold placeToken; rw [if_neg noComb, if_neg many, overruns]

theorem placeToken_fires {p1 : PE} {ops fin : Port → Option Operand} {u1 u2 u3 : State} (many : arity o n ≠ 1)
    (fires : matchToken (getPE u t.bh t.pe) o n t = .fires p1 (ops .l) (ops .r) (ops .p)) (room : readyRoom (getPE u t.bh t.pe) vc = true)
    (hl : slotOperand u o n t .l (ops .l) = (fin .l, u1)) (hr : slotOperand u1 o n t .r (ops .r) = (fin .r, u2))
    (hp : slotOperand u2 o n t .p (ops .p) = (fin .p, u3)) : placeToken u c o n t vc = some (enterReady u3 p1 c o t vc (fin .l) (fin .r) (fin .p)) := by
  unfold placeToken; rw [if_neg noComb, if_neg many, fires, room]
  dsimp only
  rw [hl, hr, hp]
  rfl

end

/-! The operands of a match, where slots hold uncorrectable errors (R64). -/

theorem slotOperand_clean {u : State} {o : OpInfo} {n : Node} {t : Token} {x : Port} {y : Option Operand} (clean : (getPE u t.bh t.pe).spoilt = []) :
    slotOperand u o n t x y = (y, u) := by
  unfold slotOperand; dsimp only; rw [clean]; exact if_pos (.inl rfl)

theorem slotOperand_own {u : State} {o : OpInfo} {n : Node} {t : Token} {x : Port} {y : Option Operand} (own : portSlot (getPE u t.bh t.pe) o n t x = none) :
    slotOperand u o n t x y = (y, u) := by
  unfold slotOperand; dsimp only; rw [own]; exact ite_self _

theorem slotOperand_slot {u : State} {o : OpInfo} {n : Node} {t : Token} {x : Port} {y : Operand} {sl : Nat}
    (from_ : portSlot (getPE u t.bh t.pe) o n t x = some sl) : slotOperand u o n t x (some y) =
      if spoiltIn (getPE u t.bh t.pe) (0x10000 + 8 * sl) 8 then
        (some { kind := .err, payload := (newError u (peSrc t.bh t.pe) 0x08).1 }, (newError u (peSrc t.bh t.pe) 0x08).2)
      else (some y, u) := by
  unfold slotOperand
  dsimp only
  rw [from_]
  cases none_ : (getPE u t.bh t.pe).spoilt with
  | nil => rw [if_pos (.inl rfl)]; unfold spoiltIn; rw [none_]; rfl
  | cons e es =>
    rw [if_neg (by simp)]
    cases marked : spoiltIn (getPE u t.bh t.pe) (0x10000 + 8 * sl) 8 <;> simp [marked]

/-- At a node of arity 2 the one operand that comes from a slot may turn out a POISON error (R64, R218). -/
def poisoned (u : State) (t : Token) (q : Port) (sl : Nat) (ops : Port → Option Operand) (x : Port) : Option Operand :=
  if x = q ∧ spoiltIn (getPE u t.bh t.pe) (0x10000 + 8 * sl) 8 then some { kind := .err, payload := (newError u (peSrc t.bh t.pe) 0x08).1 } else ops x

section
variable {u : State} {o : OpInfo} {n : Node} {t : Token} {q : Port} {sl : Nat} {ops : Port → Option Operand}
  (slot : ∀ x, portSlot (getPE u t.bh t.pe) o n t x = if x = q then some sl else none)
include slot

theorem slotOperand_poisoned {y : Operand} (op : ops q = some y) :
    ∃ es, slotOperand u o n t q (ops q) = (poisoned u t q sl ops q, { u with errSeq := es }) := by
  rw [op, slotOperand_slot ((slot q).trans (if_pos rfl))]
  unfold poisoned
  cases spoiltIn (getPE u t.bh t.pe) (0x10000 + 8 * sl) 8 with
  | false => exact ⟨u.errSeq, by simp [op]⟩
  | true => exact ⟨_, by simp [newError_state]; rfl⟩

theorem slotOperand_kept {w : State} {es : SMap Nat} (eq : w = { u with errSeq := es }) {x : Port} (other : x ≠ q) :
    slotOperand w o n t x (ops x) = (poisoned u t q sl ops x, w) := by
  subst eq
  rw [slotOperand_own (by rw [← if_neg (c := x = q) (t := some sl) (e := none) other]; exact slot x)]
  unfold poisoned
  rw [if_neg (fun c => other c.1)]

theorem slotOperand_two {y : Operand} (op : ops q = some y) :
    ∃ u1 u2 u3, slotOperand u o n t .l (ops .l) = (poisoned u t q sl ops .l, u1) ∧ slotOperand u1 o n t .r (ops .r) = (poisoned u t q sl ops .r, u2) ∧
      slotOperand u2 o n t .p (ops .p) = (poisoned u t q sl ops .p, u3) ∧ ∃ es, u3 = { u with errSeq := es } := by
  obtain ⟨es, own⟩ := slotOperand_poisoned slot op
  cases q with
  | l => exact ⟨_, _, _, own, slotOperand_kept slot rfl (by decide), slotOperand_kept slot rfl (by decide), es, rfl⟩
  | r => exact ⟨u, _, _, slotOperand_kept slot (es := u.errSeq) rfl (by decide), own, slotOperand_kept slot rfl (by decide), es, rfl⟩
  | p => exact ⟨u, u, _, slotOperand_kept slot (es := u.errSeq) rfl (by decide), slotOperand_kept slot (es := u.errSeq) rfl (by decide), own, es, rfl⟩

end

/-! The clauses of the statement. -/

section
variable {s : State} {k : Nat} {x : Flight} {c : Placed} {o : OpInfo} {n : Node} {sl : Nat} (arrives : Arrives s k x c o n)
include arrives

theorem tokenArrival_single (one : arity o n = 1) (room : readyRoom (getPE s x.tok.bh x.tok.pe) x.vc = true) :
    ∃ t : State, exec (.tokenArrival k) s = .next t ∧ t.flights = s.flights.eraseIdx k ∧
      Matches s t x c o (fun q => if q = x.tok.port then some { kind := x.tok.kind, payload := x.tok.payload } else none) ∧
      (getPE t x.tok.bh x.tok.pe).tags = (getPE s x.tok.bh x.tok.pe).tags ∧ (getPE t x.tok.bh x.tok.pe).frames = (getPE s x.tok.bh x.tok.pe).frames := by
  obtain ⟨i, j, own⟩ := getPE_taken s k x
  have placed := placeToken_single (c := c) (vc := x.vc) arrives.noComb one (u := flightTake s k x) (t := x.tok) (by rw [own]; exact room)
  refine ⟨_, tokenArrival_places arrives placed, setPE_flights _ _ _ _, ?_, ?_, ?_⟩
  · exact enterReady_matches (by rw [own]; rfl) rfl (by simp only [eq_comm]) (by simp only [eq_comm]) (by simp only [eq_comm])
  · rw [getPE_enterReady_keeps PE.tags (fun _ _ => rfl), own]; rfl
  · rw [getPE_enterReady_keeps PE.frames (fun _ _ => rfl), own]; rfl

/-- A token that parks (R218, R219). -/
theorem tokenArrival_parks {y : BitVec 16} (many : arity o n ≠ 1) (tag : tagState y ≠ 0)
    (parks : ∀ p, (∃ i j, p = atStage (getPE s x.tok.bh x.tok.pe) i j) → matchToken p o n x.tok = .parked (slotPut p sl y x.tok.payload)) :
    ∃ t : State, exec (.tokenArrival k) s = .next t ∧ t.flights = s.flights.eraseIdx k ∧ (getPE t x.tok.bh x.tok.pe).ready = (getPE s x.tok.bh x.tok.pe).ready ∧
      slotTag (getPE t x.tok.bh x.tok.pe) sl = y ∧ slotValue (getPE t x.tok.bh x.tok.pe) sl = x.tok.payload ∧
      ∀ j, j ≠ sl → slotTag (getPE t x.tok.bh x.tok.pe) j = slotTag (getPE s x.tok.bh x.tok.pe) j ∧
        slotValue (getPE t x.tok.bh x.tok.pe) j = slotValue (getPE s x.tok.bh x.tok.pe) j := by
  obtain ⟨i, j, own⟩ := getPE_taken s k x
  have placed := placeToken_parks (c := c) (vc := x.vc) arrives.noComb many (parks (getPE (flightTake s k x) x.tok.bh x.tok.pe) ⟨i, j, own⟩)
  refine ⟨_, tokenArrival_places arrives placed, setPE_flights _ _ _ _, ?_⟩
  rw [getPE_setPE, if_pos rfl]
  refine ⟨by rw [own]; rfl, by rw [slotTag_slotPut, if_pos rfl], slotValue_slotPut_same _ _ _ _ tag, fun j other => ?_⟩
  rw [slotTag_slotPut, if_neg other, slotValue_slotPut_other _ _ _ other, own]
  exact ⟨rfl, rfl⟩

/-- A token whose port's operand stands already is discarded with an OVERRUN error (R218). -/
theorem tokenArrival_overruns (many : arity o n ≠ 1)
    (stands : ∃ j ∈ matchSlots o n x.tok, statePort (tagState (slotTag (getPE s x.tok.bh x.tok.pe) j)) = some x.tok.port) :
    ∃ t : State, exec (.tokenArrival k) s = .next t ∧ t.flights = s.flights.eraseIdx k ∧
      sget 0 t.errSeq (peSrc x.tok.bh x.tok.pe) = (sget 0 s.errSeq (peSrc x.tok.bh x.tok.pe) + 1) % 2 ^ 32 := by
  obtain ⟨i, j, own⟩ := getPE_taken s k x
  obtain ⟨sl, reached, stands⟩ := stands
  have overruns : matchToken (getPE (flightTake s k x) x.tok.bh x.tok.pe) o n x.tok = .overrun := by
    rw [matchToken_eq, if_pos]
    have held : heldTok (getPE (flightTake s k x) x.tok.bh x.tok.pe) sl x.tok.port ∈ matchHeld (getPE (flightTake s k x) x.tok.bh x.tok.pe) o n x.tok :=
      List.mem_filterMap.mpr ⟨sl, reached, heldAt_port (by rw [own]; exact stands)⟩
    exact List.any_eq_true.mpr ⟨_, held, by simp [heldTok]⟩
  exact ⟨_, tokenArrival_places arrives (placeToken_overruns arrives.noComb many overruns), discarded_numbers _ _ _ _ _ _ _ _ _ _ _ _ _ _⟩

/-- A token that completes a match at a node of more than one port (R218, R219). -/
theorem tokenArrival_fires {ops fin : Port → Option Operand} {p' : PE} {u1 u2 : State} {es : SMap Nat} (many : arity o n ≠ 1)
    (room : readyRoom (getPE s x.tok.bh x.tok.pe) x.vc = true) (ready : p'.ready = (getPE s x.tok.bh x.tok.pe).ready)
    (fires : matchToken (getPE (flightTake s k x) x.tok.bh x.tok.pe) o n x.tok = .fires p' (ops .l) (ops .r) (ops .p))
    (hl : slotOperand (flightTake s k x) o n x.tok .l (ops .l) = (fin .l, u1)) (hr : slotOperand u1 o n x.tok .r (ops .r) = (fin .r, u2))
    (hp : slotOperand u2 o n x.tok .p (ops .p) = (fin .p, { flightTake s k x with errSeq := es })) :
    ∃ t : State, exec (.tokenArrival k) s = .next t ∧ t.flights = s.flights.eraseIdx k ∧ Matches s t x c o fin ∧
      (∀ j, slotTag (getPE t x.tok.bh x.tok.pe) j = slotTag p' j) ∧ ∀ j, slotValue (getPE t x.tok.bh x.tok.pe) j = slotValue p' j := by
  obtain ⟨i, j, own⟩ := getPE_taken s k x
  have placed := placeToken_fires (c := c) (vc := x.vc) arrives.noComb many fires (by rw [own]; exact room) hl hr hp
  refine ⟨_, tokenArrival_places arrives placed, setPE_flights _ _ _ _, enterReady_matches ready rfl rfl rfl rfl, fun j => ?_, fun j => ?_⟩
  · exact getPE_enterReady_keeps (fun p => slotTag p j) (fun _ _ => rfl) _ _ _ _ _ _ _ _ _
  · exact getPE_enterReady_keeps (fun p => slotValue p j) (fun _ _ => rfl) _ _ _ _ _ _ _ _ _

theorem tokenArrival_two {q : Port} (two : arity o n = 2) (place : sl = 16 * x.tok.fp + n.slot.toNat)
    (takes : statePort (tagState (slotTag (getPE s x.tok.bh x.tok.pe) sl)) = some q ∨ tagState (slotTag (getPE s x.tok.bh x.tok.pe) sl) = tagFilled)
    (ne : q ≠ x.tok.port) (there : q ∈ nodePorts o n) (room : readyRoom (getPE s x.tok.bh x.tok.pe) x.vc = true) :
    let p := getPE s x.tok.bh x.tok.pe
    let again : Prop := stickyPort n = some x.tok.port ∧ 1 < n.stCount.toNat
    ∃ t : State, exec (.tokenArrival k) s = .next t ∧ t.flights = s.flights.eraseIdx k ∧
      Matches s t x c o (fun q' => if q' = x.tok.port then some { kind := x.tok.kind, payload := x.tok.payload }
        else if q' ≠ q then none
        else if spoiltIn p (0x10000 + 8 * sl) 8 then some { kind := .err, payload := (newError s (peSrc x.tok.bh x.tok.pe) 0x08).1 }
        else some (stoodAt p sl)) ∧
      slotTag (getPE t x.tok.bh x.tok.pe) sl = (if again ∧ tagState (tagAfter (slotTag p sl)) = tagEmpty then keepTag n x.tok else tagAfter (slotTag p sl)) ∧
      (again → tagState (tagAfter (slotTag p sl)) = tagEmpty → slotValue (getPE t x.tok.bh x.tok.pe) sl = x.tok.payload) ∧
      ∀ j, j ≠ sl → slotTag (getPE t x.tok.bh x.tok.pe) j = slotTag p j := by
  intro p again
  obtain ⟨i, j, own⟩ := getPE_taken s k x
  obtain ⟨fires, operand, slot, used⟩ := matchToken_two_fires (p := getPE (flightTake s k x) x.tok.bh x.tok.pe) two place (arrives_port arrives) there ne
    (by rw [own]; exact takes)
  have op := operand q
  rw [if_neg ne, if_neg (not_not.mpr rfl)] at op
  obtain ⟨u1, u2, _, hl, hr, hp, es, rfl⟩ := slotOperand_two slot op
  obtain ⟨t, does, gone, matches_, tags, values⟩ := tokenArrival_fires arrives (by omega) room (by rw [matchKept_ready used, own]; rfl) fires hl hr hp
  obtain ⟨tag, value, rest⟩ := matchKept_one used (matchSlots_two two place)
  have same : slotTag (getPE (flightTake s k x) x.tok.bh x.tok.pe) = slotTag p := by rw [own]; rfl
  rw [Function.update_self, same] at tag value
  have ops : poisoned (flightTake s k x) x.tok q sl (matchOperand (getPE (flightTake s k x) x.tok.bh x.tok.pe) o n x.tok) =
      fun q' => if q' = x.tok.port then some { kind := x.tok.kind, payload := x.tok.payload }
        else if q' ≠ q then none
        else if spoiltIn p (0x10000 + 8 * sl) 8 then some { kind := .err, payload := (newError s (peSrc x.tok.bh x.tok.pe) 0x08).1 }
        else some (stoodAt p sl) := by
    funext q'
    unfold poisoned
    rw [operand, own]
    obtain rfl | other := eq_or_ne q' q
    · simp only [ne, true_and, ne_eq, not_true, if_false]; rfl
    · rw [if_neg (fun c => other c.1), if_pos other, if_pos other]
  refine ⟨t, does, gone, ops ▸ matches_, by rw [tags, tag], fun a e => by rw [values, value a e], fun j other => ?_⟩
  rw [tags, rest j other, Function.update_of_ne other, same]

theorem tokenArrival_three {q q1 : Port} (three : arity o n = 3) (place : sl = 16 * x.tok.fp + n.slot.toNat)
    (takes : statePort (tagState (slotTag (getPE s x.tok.bh x.tok.pe) sl)) = some q ∨ tagState (slotTag (getPE s x.tok.bh x.tok.pe) sl) = tagFilled)
    (takes1 : statePort (tagState (slotTag (getPE s x.tok.bh x.tok.pe) (sl + 1))) = some q1 ∨ tagState (slotTag (getPE s x.tok.bh x.tok.pe) (sl + 1)) = tagFilled)
    (ne : q ≠ q1) (h : q ≠ x.tok.port) (h1 : q1 ≠ x.tok.port)
    (order : tagState (slotTag (getPE s x.tok.bh x.tok.pe) sl) = tagFilled → tagState (slotTag (getPE s x.tok.bh x.tok.pe) (sl + 1)) = tagFilled →
      (q, q1) ∈ [(Port.l, Port.r), (Port.l, Port.p), (Port.r, Port.p)])
    (clean : (getPE s x.tok.bh x.tok.pe).spoilt = []) (room : readyRoom (getPE s x.tok.bh x.tok.pe) x.vc = true) :
    let p := getPE s x.tok.bh x.tok.pe
    let again : Prop := stickyPort n = some x.tok.port ∧ 1 < n.stCount.toNat
    let after := tagAfter (slotTag p sl)
    let after1 := tagAfter (slotTag p (sl + 1))
    ∃ t : State, exec (.tokenArrival k) s = .next t ∧ t.flights = s.flights.eraseIdx k ∧
      Matches s t x c o (fun q' => if q' = x.tok.port then some { kind := x.tok.kind, payload := x.tok.payload }
        else if q' = q then some (stoodAt p sl) else some (stoodAt p (sl + 1))) ∧
      slotTag (getPE t x.tok.bh x.tok.pe) sl = (if again ∧ tagState after = tagEmpty then keepTag n x.tok else after) ∧
      slotTag (getPE t x.tok.bh x.tok.pe) (sl + 1) = (if again ∧ tagState after ≠ tagEmpty ∧ tagState after1 = tagEmpty then keepTag n x.tok else after1) ∧
      ∀ j, j ≠ sl → j ≠ sl + 1 → slotTag (getPE t x.tok.bh x.tok.pe) j = slotTag p j := by
  intro p again after after1
  obtain ⟨i, j, own⟩ := getPE_taken s k x
  obtain ⟨fires, operand, used⟩ := matchToken_three_fires (p := getPE (flightTake s k x) x.tok.bh x.tok.pe) three place ne h h1
    (by rw [own]; exact takes) (by rw [own]; exact takes1) (by rw [own]; exact order)
  have unspoilt : (getPE (flightTake s k x) x.tok.bh x.tok.pe).spoilt = [] := by rw [own]; exact clean
  obtain ⟨t, does, gone, matches_, tags, -⟩ := tokenArrival_fires arrives (by omega) room (by rw [matchKept_ready used, own]; rfl) fires
    (slotOperand_clean unspoilt) (slotOperand_clean unspoilt) (slotOperand_clean unspoilt)
  obtain ⟨tag, tag1, rest⟩ := matchKept_two used (matchSlots_three three place)
  have same : slotTag (getPE (flightTake s k x) x.tok.bh x.tok.pe) = slotTag p := by rw [own]; rfl
  rw [Function.update_self] at tag1
  rw [Function.update_of_ne (by omega), Function.update_self, same] at tag tag1
  have ops : matchOperand (getPE (flightTake s k x) x.tok.bh x.tok.pe) o n x.tok =
      fun q' => if q' = x.tok.port then some { kind := x.tok.kind, payload := x.tok.payload }
        else if q' = q then some (stoodAt p sl) else some (stoodAt p (sl + 1)) := by
    funext q'
    rw [operand, own]; rfl
  refine ⟨t, does, gone, ops ▸ matches_, by rw [tags, tag], by rw [tags, tag1], fun j other other1 => ?_⟩
  rw [tags, rest j other other1, Function.update_of_ne other1, Function.update_of_ne other, same]

end

/-- A token that no node or live frame takes is discarded with an error of its PE (R54, R81). -/
theorem tokenArrival_bad {s : State} {k : Nat} {x : Flight} (found : s.flights[k]? = some x) (due : flightDue s k x = true)
    (here : isResident s x.tok.bh x.tok.pe x.tok.vf = true) (bad : arrivalCheck s x.tok = .nodeBad ∨ arrivalCheck s x.tok = .frameBad) :
    ∃ t : State, exec (.tokenArrival k) s = .next t ∧ t.flights = s.flights.eraseIdx k ∧
      sget 0 t.errSeq (peSrc x.tok.bh x.tok.pe) = (sget 0 s.errSeq (peSrc x.tok.bh x.tok.pe) + 1) % 2 ^ 32 := by
  obtain ⟨code, does⟩ : ∃ code, exec (.tokenArrival k) s = .next (arrivalError (flightTake s k x) x.tok code) := by
    show ∃ code, execTokenArrival k s = _
    unfold execTokenArrival
    rw [found]
    dsimp only
    rw [due, here]
    obtain bad | bad := bad
    · rw [bad]; exact ⟨0x05, rfl⟩
    · rw [bad]; exact ⟨0x04, rfl⟩
  exact ⟨_, does, discarded_numbers _ _ _ _ _ _ _ _ _ _ _ _ _ _⟩

/-- A coordinate token enters its PE's queue (R352). -/
theorem coordinateToken_enters {s : State} {k : Nat} {x : Flight} {c : Placed} {o : OpInfo} {n : Node} (found : s.flights[k]? = some x)
    (due : flightDue s k x = true) (here : isResident s x.tok.bh x.tok.pe x.tok.vf = true) (fits : arrivalCheck s x.tok = .fits c o n)
    (coord : isCoord o x.tok = true) (room : (getPE s x.tok.bh x.tok.pe).coord.length < 256) :
    ∃ t : State, exec (.coordinateToken k) s = .next t ∧ t.flights = s.flights.eraseIdx k ∧
      (getPE t x.tok.bh x.tok.pe).coord = (getPE s x.tok.bh x.tok.pe).coord ++ [{ node := x.tok.node, fp := x.tok.fp, payload := x.tok.payload }] := by
  have space : coordFull (getPE s x.tok.bh x.tok.pe) = false := decide_eq_false (by omega)
  have does : exec (.coordinateToken k) s = .next (coordEnter (flightTake s k x) x.tok) := by
    show execCoordinateToken k s = _
    unfold execCoordinateToken
    rw [found]
    dsimp only
    rw [due, here, fits]
    dsimp only
    rw [coord, space]
    rfl
  refine ⟨_, does, ?_, ?_⟩
  · unfold coordEnter; rw [modPE_flights]; rfl
  · unfold coordEnter
    rw [getPE_modPE, if_pos rfl]
    dsimp only
    rw [getPE_flightTake_keeps PE.coord (fun _ _ _ => rfl)]

/-- A firing that has waited 1,024 resident cycles becomes urgent (R225). -/
theorem readyAging_urges {s : State} {b pe k : Nat} {f : Firing} (found : (getPE s b pe).ready[k]? = some f) (calm : f.urgent = false)
    (here : isResident s b pe f.vf = true) (waited : f.resAt + 1024 ≤ (getSlot s b (slotOf pe)).resCycles) :
    ∃ t : State, ∃ g : Firing, exec (.readyAging b pe k) s = .next t ∧ (getPE t b pe).ready[k]? = some g ∧ g = { f with urgent := true, aged := true } ∧
      (∀ j, j ≠ k → (getPE t b pe).ready[j]? = (getPE s b pe).ready[j]?) ∧ t = { s with pes := t.pes } := by
  have does : exec (.readyAging b pe k) s =
      .next (setPE s b pe { getPE s b pe with ready := (getPE s b pe).ready.set k { f with urgent := true, aged := true } }) := by
    show execReadyAging b pe k s = _
    unfold execReadyAging
    dsimp only
    rw [found]
    dsimp only
    rw [if_pos ⟨by rw [calm]; rfl, here, waited⟩]
  refine ⟨_, _, does, ?_, rfl, fun j other => ?_, rfl⟩
  · rw [getPE_setPE, if_pos rfl]
    exact List.getElem?_set_self (List.getElem?_eq_some_iff.mp found).1
  · rw [getPE_setPE, if_pos rfl]
    exact List.getElem?_set_ne (Ne.symm other)

/-- Settles O41: a token that is placed has left the network, and what its PE then holds is that of its match's case. -/
theorem tokensMatched : Obligations.TokensMatched := by
  unfold Obligations.TokensMatched
  refine ⟨fun s k x c o n arrives => ?_, fun s k x found due here bad => tokenArrival_bad found due here bad,
    fun s k x c o n found due here fits coord room => coordinateToken_enters found due here fits coord room,
    fun s b pe k f found calm here waited => readyAging_urges found calm here waited, fun s k x found here runs => ?_⟩
  · have port := arrives_port arrives
    refine ⟨fun one room => tokenArrival_single arrives one room, fun two free => ?_, fun q two takes ne there room => ?_, fun three free h0 h1 => ?_,
      fun q q1 three takes takes1 ne h h1 order clean room => tokenArrival_three arrives three rfl takes takes1 ne h h1 order clean room, fun stands => ?_⟩
    · obtain ⟨t, does, gone, ready, tag, value, rest⟩ := tokenArrival_parks arrives (by omega) (parkTag_state n x.tok)
        (by rintro _ ⟨i, j, rfl⟩; exact matchToken_two_parks two rfl port free)
      exact ⟨t, does, gone, ready, value, rest, tag⟩
    · exact tokenArrival_two arrives two rfl takes ne (by simpa using there) room
    · exact tokenArrival_parks arrives (by omega) (parkTag_state n x.tok) (by rintro _ ⟨i, j, rfl⟩; exact matchToken_three_parks three rfl free h0 h1)
    · obtain ⟨two, stands⟩ | ⟨three, stands | stands⟩ := stands
      · exact tokenArrival_overruns arrives (by omega) ⟨_, by rw [matchSlots_two two rfl]; exact List.mem_singleton.mpr rfl, stands⟩
      · exact tokenArrival_overruns arrives (by omega) ⟨_, by rw [matchSlots_three three rfl]; exact .head _, stands⟩
      · exact tokenArrival_overruns arrives (by omega) ⟨_, by rw [matchSlots_three three rfl]; exact .tail _ (.head _), stands⟩
  · have does : exec (.debugTokenDeliver k) s =
        .next { s with inject := s.inject.eraseIdx k, flights := s.flights ++ [{ x with due := cycleOf s x.tok.bh + 1 }] } := by
      show execDebugTokenDeliver k s = _
      unfold execDebugTokenDeliver
      rw [found]
      dsimp only
      rw [here, runs]
      rfl
    exact ⟨_, _, does, rfl, rfl, rfl, rfl⟩

end Sys2Proof.Machine
end

section
/-! SUPPORT. The completion of an issued firing (R227) by its parts: what leaves the issue list, what is emitted, what takes effect, and what is raised. -/

namespace Sys2Proof.Machine

open Host

/-! The launches' flags (R251). -/

/-- A launch that has been replaced is found as it now is (R387). -/
theorem launchAt_launchPut {s : State} {lid : Nat} {l m : Launch} (found : launchAt s lid = some l) (named : m.lid = lid) (going : m.st ≠ .ended) :
    launchAt (launchPut s m) lid = some m := by
  subst named
  have hit := List.find?_some (p := fun x : Launch => x.lid == m.lid && x.st != .ended) found
  have same : ((fun x : Launch => x.lid == m.lid && x.st != .ended) ∘ fun x => if x.lid == m.lid && x.st != .ended then m else x) =
      fun x => x.lid == m.lid && x.st != .ended := by
    funext x
    dsimp only [Function.comp]
    split
    · next at_ => rw [at_]; simp [going]
    · rfl
  unfold launchAt at found
  unfold launchAt launchPut
  dsimp only
  rw [List.find?_map, same, found, Option.map_some, if_pos hit]

/-- What a launch that is found is called, and that it has not ended. -/
theorem launchAt_found {s : State} {lid : Nat} {l : Launch} (found : launchAt s lid = some l) : l.lid = lid ∧ l.st ≠ .ended := by
  have hit := List.find?_some (p := fun x : Launch => x.lid == lid && x.st != .ended) found
  simpa using hit

theorem OnlyAccess.launchAt {s t : State} (h : OnlyAccess s t) (lid : Nat) : Sys2Proof.Machine.launchAt t lid = Sys2Proof.Machine.launchAt s lid := by
  obtain ⟨_, _, _, _, _, _, rfl⟩ := h
  rfl

theorem orVfFlags_access (s : State) (vf : Nat) (fl : BitVec 9) : OnlyAccess s (orVfFlags s vf fl) := by
  unfold orVfFlags
  split
  · exact .refl s
  · split
    · unfold regPut; exact ⟨_, _, _, _, _, _, rfl⟩
    · dsimp only
      split
      · exact .refl s
      · exact (ownMeet_access s vf true _ 8).trans (memPutLe_access _ _ _ _)

/-- t differs from s at most in what flags and events touch: the launches, and what an access to HBM does (R251, R422, R424). -/
def OnlyRaises (s t : State) : Prop := ∃ ls, OnlyAccess { s with launches := ls } t

theorem OnlyRaises.refl (s : State) : OnlyRaises s s := ⟨s.launches, .refl s⟩

theorem creditFlags_raises (s : State) (vf lid : Nat) (fl : BitVec 9) : OnlyRaises s (creditFlags s vf lid fl) := by
  obtain ⟨_, _, _, _, _, _, only⟩ := orVfFlags_access s vf fl
  unfold creditFlags
  dsimp only
  rw [only]
  split
  · exact ⟨s.launches, _, _, _, _, _, _, rfl⟩
  · exact ⟨_, _, _, _, _, _, _, rfl⟩

theorem raiseFlags_raises (s : State) (f : Firing) (fl : BitVec 9) : OnlyRaises s (raiseFlags s f fl) := by
  obtain ⟨ls, credited⟩ := creditFlags_raises s f.vf f.lid fl
  unfold raiseFlags
  dsimp only
  split
  · exact ⟨ls, credited⟩
  · exact ⟨ls, credited.trans (postEvent_access _ _ _ _ _ _ _)⟩

/-- The launch's word takes the flags; nothing else of the launch changes (R251). -/
theorem launchAt_raiseFlags {s : State} {f : Firing} {l : Launch} (fl : BitVec 9) (found : launchAt s f.lid = some l) :
    launchAt (raiseFlags s f fl) f.lid = some { l with flags := l.flags ||| fl } := by
  obtain ⟨named, going⟩ := launchAt_found found
  have credited : launchAt (creditFlags s f.vf f.lid fl) f.lid = some { l with flags := l.flags ||| fl } := by
    have still : launchAt (orVfFlags s f.vf fl) f.lid = some l := (orVfFlags_access s f.vf fl).launchAt f.lid ▸ found
    unfold creditFlags
    dsimp only
    rw [still]
    exact launchAt_launchPut still named going
  unfold raiseFlags
  dsimp only
  split
  · exact credited
  · rw [(postEvent_access _ _ _ _ _ _ _).launchAt, credited]

/-! The parts of a completion. -/

/-- The state once the firing has left the issue list, what is due waiting for the next cycle, and its late steps stand noted (R227, R288). -/
def completeTaken (s : State) (it : Issued) : State :=
  modPE s it.f.bh it.f.pe fun p =>
    { p with issued := (p.issued.filter fun x => x.id != it.id).map (fun x => { x with due := if x.due ≤ cycleOf s it.f.bh then cycleOf s it.f.bh + 1 else x.due }),
             late := p.late ++ (it.effects.filter isLate).map fun x => (it.f, x) }

/-- Whether the firing is a send (R278). -/
def isSend (s : State) (it : Issued) : Bool := match nodeInfo (emitPE s it) it.f.node with | some (o, _) => o.code == 0x010 | none => false

/-- One emission of the firing (R62, R64, R228). -/
def sendEmit (s : State) (it : Issued) (t : State) (e : Emit) : State :=
  if targetSpoilt (emitPE s it) it.f e.target then
    emitTo (newError t (peSrc it.f.bh it.f.pe) 0x08).2 it.f (cycleOf s it.f.bh) (emitDest s it e) .err (newError t (peSrc it.f.bh it.f.pe) 0x08).1
      (e.vc1 || (!isSend s it && coordDest t (emitDest s it e)))
  else emitTo t it.f (cycleOf s it.f.bh) (emitDest s it e) e.kind e.payload (e.vc1 || (!isSend s it && coordDest t (emitDest s it e)))

/-- The state once the tokens have set out. -/
def completeSent (s : State) (it : Issued) : State := it.emits.foldl (sendEmit s it) (completeTaken s it)

/-- The state once what takes effect at once has. -/
def completeDone (s : State) (it : Issued) : State := (effectsNow it).foldl (fun t x => applyEffect t it.f x) (completeSent s it)

/-- What a firing writes in its own links does not depend on what is issued and what is late. -/
theorem ownLinks_pending (fx : List Effect) (p : PE) (is : List Issued) (ls : List (Firing × Effect)) :
    ownLinks { p with issued := is, late := ls } fx = { ownLinks p fx with issued := is, late := ls } := by
  unfold ownLinks
  induction fx generalizing p with
  | nil => rfl
  | cons x fx ih =>
    rw [List.foldl_cons, List.foldl_cons, ← ih]
    congr 1
    cases x with
    | link fp which v =>
      show (if frameLive p fp then linkWrite _ fp which v else _) = _
      cases live : frameLive p fp <;> simp only [live] <;> rfl
    | _ => rfl

theorem applyEffect_late {x : Effect} (late : isLate x = true) (s : State) (f : Firing) : applyEffect s f x = s := by
  cases x with
  | drop | link | freeFrame | countAdd | countSnap => rfl
  | _ => cases late

/-- The late steps take no effect yet (R288, R289). -/
theorem applyEffects_now (fx : List Effect) (s : State) (f : Firing) :
    fx.foldl (fun t x => applyEffect t f x) s = (fx.filter fun x => !isLate x).foldl (fun t x => applyEffect t f x) s := by
  induction fx generalizing s with
  | nil => rfl
  | cons x fx ih =>
    rw [List.foldl_cons, ih]
    cases late : isLate x with
    | true => rw [applyEffect_late late, List.filter_cons_of_neg (by simp [late])]
    | false => rw [List.filter_cons_of_pos (by simp [late]), List.foldl_cons]

theorem getPE_completeTaken (s : State) (it : Issued) : ∃ is ls, getPE (completeTaken s it) it.f.bh it.f.pe = { getPE s it.f.bh it.f.pe with issued := is, late := ls } := by
  unfold completeTaken; rw [getPE_modPE, if_pos rfl]; exact ⟨_, _, rfl⟩

theorem completeIssued_eq (s : State) (it : Issued) : completeIssued s it =
    if it.quiet then completeDone s it else raiseFlags (completeDone s it) it.f (it.flags ||| emitFlags (emitPE s it) it.f it.emits) := by
  obtain ⟨is, ls, own⟩ := getPE_completeTaken s it
  have links : ownLinks (getPE (completeTaken s it) it.f.bh it.f.pe) it.effects = { emitPE s it with issued := is, late := ls } := by
    rw [own, ownLinks_pending]; rfl
  unfold completeIssued
  dsimp only
  rw [applyEffects_now, List.foldl_map]
  unfold completeTaken at links
  rw [links]
  rfl

/-- What a completing firing raises comes last (R251). -/
theorem completeIssued_raises (s : State) (it : Issued) : OnlyRaises (completeDone s it) (completeIssued s it) := by
  rw [completeIssued_eq]
  split
  · exact .refl _
  · exact raiseFlags_raises _ _ _

theorem launchAt_completeIssued {s : State} {it : Issued} {l : Launch} (found : launchAt (completeDone s it) it.f.lid = some l) :
    launchAt (completeIssued s it) it.f.lid =
      some { l with flags := l.flags ||| if it.quiet then 0 else it.flags ||| emitFlags (emitPE s it) it.f it.emits } := by
  rw [completeIssued_eq]
  split
  · rw [found]; simp
  · exact launchAt_raiseFlags _ found

/-- A firing that can complete does (R227). -/
theorem resultEmit_completes {s : State} {b pe k : Nat} {it : Issued} (h : Completes s b pe k it) : exec (.resultEmit b pe k) s = .next (completeIssued s it) := by
  obtain ⟨found, -, due, wait, thawed, turn, runs, link⟩ := h
  have first : ((getPE s b pe).issued.take k).any (fun x => decide (x.due ≤ cycleOf s b) && waitOver s x.wait && linkIdle s x &&
      !((getPE s b pe).frozen.isSome && isReply (getPE s b pe) x)) = false := by
    rw [List.any_eq_false]
    intro y before now
    simp only [Bool.and_eq_true, decide_eq_true_eq] at now
    exact turn y before now.1.1
  show execResultEmit b pe k s = _
  unfold execResultEmit
  dsimp only
  rw [found, first, runs]
  dsimp only
  rw [if_pos ⟨by simp [wait, link, thawed, due, waitOver], rfl, rfl⟩]

/-! The tokens of a completion (R62, R75, R227). -/

/-- The PE's state but for what is issued and what is late stays as the firing leaves the issue list. -/
theorem getPE_completeTaken_keeps {α : Type} (g : PE → α) (keeps : ∀ p is ls, g { p with issued := is, late := ls } = g p) (s : State) (it : Issued) (c q : Nat) :
    g (getPE (completeTaken s it) c q) = g (getPE s c q) := by
  unfold completeTaken
  rw [getPE_modPE]
  split
  · next same =>
    have here : getPE s it.f.bh it.f.pe = getPE s c q := by unfold getPE; rw [same]
    rw [here]
    exact keeps _ _ _
  · rfl

/-- p' is p with other reference counts (R58). -/
def RefsAs (p p' : PE) : Prop := ∃ hs, p' = { p with handles := hs } ∧ ∀ h, ∃ r, handleAt p' h = { handleAt p h with ref := r }

theorem RefsAs.refl (p : PE) : RefsAs p p := ⟨p.handles, rfl, fun h => ⟨(handleAt p h).ref, rfl⟩⟩

theorem RefsAs.trans {p q r : PE} (h : RefsAs p q) (g : RefsAs q r) : RefsAs p r := by
  obtain ⟨_, rfl, hh⟩ := h
  obtain ⟨_, rfl, gg⟩ := g
  refine ⟨_, rfl, fun i => ?_⟩
  obtain ⟨r, eq⟩ := gg i
  obtain ⟨r', eq'⟩ := hh i
  exact ⟨r, by rw [eq, eq']⟩

/-- t differs from s at most in what emissions touch: the tokens on their way, error numbers, and the reference counts of PEs (R59, R62, R227). -/
structure OnlySends (s t : State) : Prop where
  only : ∃ fs es ps, t = { s with flights := fs, errSeq := es, pes := ps }
  refs : ∀ c q, RefsAs (getPE s c q) (getPE t c q)

theorem OnlySends.refl (s : State) : OnlySends s s := ⟨⟨_, _, _, rfl⟩, fun _ _ => .refl _⟩

theorem OnlySends.trans {s t u : State} (h : OnlySends s t) (g : OnlySends t u) : OnlySends s u := by
  refine ⟨?_, fun c q => (h.refs c q).trans (g.refs c q)⟩
  obtain ⟨_, _, _, rfl⟩ := h.only
  obtain ⟨_, _, _, rfl⟩ := g.only
  exact ⟨_, _, _, rfl⟩

theorem addRef_sends {s t : State} {b pe h n : Nat} (added : addRef s b pe h n = some t) : OnlySends s t := by
  unfold addRef at added
  dsimp only at added
  split at added
  · cases added
  · cases added
    refine ⟨⟨_, _, _, rfl⟩, fun c q => ?_⟩
    rw [getPE_setPE]
    split
    · next same =>
      have here : getPE s b pe = getPE s c q := by unfold getPE; rw [same]
      rw [here]
      refine ⟨_, rfl, fun i => ?_⟩
      by_cases own : i = h
      · exact ⟨(handleAt (getPE s c q) h).ref + n, by rw [own, handleAt_handlePut, if_pos rfl]⟩
      · exact ⟨(handleAt (getPE s c q) i).ref, by rw [handleAt_handlePut, if_neg own]⟩
    · exact .refl _

theorem newError_sends (s : State) (src code : Nat) : OnlySends s (newError s src code).2 := ⟨⟨_, _, _, rfl⟩, fun _ _ => .refl _⟩

theorem emitTo_sends (s : State) (f : Firing) (c : Nat) (d : RDest) (kind : Kind) (payload : Word) (vc1 : Bool) : OnlySends s (emitTo s f c d kind payload vc1) := by
  have flies (u : State) (t : Token) (b pe vc c lid : Nat) : OnlySends u (sendFlight u t b pe vc c lid) := ⟨⟨_, _, _, rfl⟩, fun _ _ => .refl _⟩
  unfold emitTo
  dsimp only
  split
  · split
    · exact (newError_sends s _ _).trans (flies _ _ _ _ _ _ _)
    · split
      · exact flies _ _ _ _ _ _ _
      · split
        · next added => exact (addRef_sends added).trans (flies _ _ _ _ _ _ _)
        · exact (newError_sends s _ _).trans (flies _ _ _ _ _ _ _)
  · exact flies _ _ _ _ _ _ _

theorem sendEmit_sends (s : State) (it : Issued) (t : State) (e : Emit) : OnlySends t (sendEmit s it t e) := by
  unfold sendEmit
  split
  · exact (newError_sends t _ _).trans (emitTo_sends _ _ _ _ _ _ _)
  · exact emitTo_sends _ _ _ _ _ _ _

theorem completeSent_sends (s : State) (it : Issued) : OnlySends (completeTaken s it) (completeSent s it) := by
  unfold completeSent
  generalize it.emits = es
  generalize completeTaken s it = u
  induction es generalizing u with
  | nil => exact .refl u
  | cons e es ih => exact (sendEmit_sends s it u e).trans (ih _)

/-- Whether a destination is a coordinate port depends on what the instruction stores hold (R352). -/
theorem coordDest_congr {s t : State} (d : RDest) (h : ∀ c q, (getPE t c q).instr = (getPE s c q).instr) : coordDest t d = coordDest s d := by
  unfold coordDest nodeInfo nodeAt; rw [h]

theorem coordDest_completeTaken (s : State) (it : Issued) (d : RDest) : coordDest (completeTaken s it) d = coordDest s d :=
  coordDest_congr d fun c q => getPE_completeTaken_keeps PE.instr (fun _ _ _ => rfl) s it c q

theorem OnlySends.coordDest {s t : State} (h : OnlySends s t) (d : RDest) : Sys2Proof.Machine.coordDest t d = Sys2Proof.Machine.coordDest s d :=
  coordDest_congr d fun c q => by obtain ⟨_, eq, -⟩ := h.refs c q; exact (congrArg PE.instr eq :)

section
variable {s t : State} {it : Issued} {e : Emit} (plain : coordDest t (emitDest s it e) = false)
include plain

/-- The token of an emission sets out (R75, R227). -/
theorem sendEmit_sound (value : e.kind ≠ .handle) (sound : targetSpoilt (emitPE s it) it.f e.target = false) :
    sendEmit s it t e = { t with flights := t.flights ++ [emitFlight s it e e.kind e.payload] } := by
  unfold sendEmit
  rw [sound, if_neg (by decide), plain, Bool.and_false, Bool.or_false]
  unfold emitTo
  dsimp only
  rw [if_neg value]
  rfl

/-- A POISON error in its place (R53, R64). -/
theorem sendEmit_spoilt (spoilt : targetSpoilt (emitPE s it) it.f e.target = true) :
    sendEmit s it t e = { (newError t (peSrc it.f.bh it.f.pe) 0x08).2 with
      flights := t.flights ++ [emitFlight s it e .err (newError t (peSrc it.f.bh it.f.pe) 0x08).1] } := by
  unfold sendEmit
  rw [spoilt, if_pos rfl, plain, Bool.and_false, Bool.or_false]
  rfl

variable (handle : e.kind = .handle) (sound : targetSpoilt (emitPE s it) it.f e.target = false)
include handle sound

/-- A handle that would leave its PE becomes a HANDLE_ESCAPE error (R62). -/
theorem sendEmit_escapes (off : (emitDest s it e).pe ≠ it.f.pe ∨ (emitDest s it e).bh ≠ it.f.bh) :
    sendEmit s it t e = { (newError t (peSrc it.f.bh it.f.pe) 0x02).2 with
      flights := t.flights ++ [emitFlight s it e .err (newError t (peSrc it.f.bh it.f.pe) 0x02).1] } := by
  unfold sendEmit
  rw [sound, if_neg (by decide), plain, Bool.and_false, Bool.or_false]
  unfold emitTo
  dsimp only
  rw [if_pos handle, if_pos off]
  rfl

variable (own : (emitDest s it e).pe = it.f.pe) (home : (emitDest s it e).bh = it.f.bh)
include own home

/-- A stale one adds no reference (R61). -/
theorem sendEmit_stale (stale : handleValid (getPE t it.f.bh it.f.pe) e.payload = false) :
    sendEmit s it t e = { t with flights := t.flights ++ [emitFlight s it e .handle e.payload] } := by
  unfold sendEmit
  rw [sound, if_neg (by decide), plain, Bool.and_false, Bool.or_false]
  unfold emitTo
  dsimp only
  rw [if_pos handle, if_neg (by rintro (h | h); exacts [h own, h home]), stale]
  rfl

/-- One that stays on its PE adds the references of its port (R58). -/
theorem sendEmit_refers (valid : handleValid (getPE t it.f.bh it.f.pe) e.payload = true)
    (room : (handleAt (getPE t it.f.bh it.f.pe) (handleIdx e.payload)).ref + refsAt t (emitDest s it e) ≤ 255) :
    sendEmit s it t e = { setPE t it.f.bh it.f.pe (handlePut (getPE t it.f.bh it.f.pe) (handleIdx e.payload)
        { handleAt (getPE t it.f.bh it.f.pe) (handleIdx e.payload) with
          ref := (handleAt (getPE t it.f.bh it.f.pe) (handleIdx e.payload)).ref + refsAt t (emitDest s it e) }) with
      flights := t.flights ++ [emitFlight s it e .handle e.payload] } := by
  unfold sendEmit
  rw [sound, if_neg (by decide), plain, Bool.and_false, Bool.or_false]
  unfold emitTo addRef
  dsimp only
  rw [if_pos handle, if_neg (by rintro (h | h); exacts [h own, h home]), valid, if_neg (by decide), if_neg (by omega)]
  rfl

end

end Sys2Proof.Machine
end

section
/-! Settles O42: what a completing result sends, adds and raises, and what waits for the end of the cycle. -/

namespace Sys2Proof.Machine

open Host

/-! What the completion of a firing keeps. -/

theorem OnlyRaises.flights {s t : State} (h : OnlyRaises s t) : t.flights = s.flights := by obtain ⟨_, _, _, _, _, _, _, rfl⟩ := h; rfl
theorem OnlyRaises.links {s t : State} (h : OnlyRaises s t) : t.links = s.links := by obtain ⟨_, _, _, _, _, _, _, rfl⟩ := h; rfl
theorem OnlyRaises.getPE {s t : State} (h : OnlyRaises s t) (c q : Nat) : Sys2Proof.Machine.getPE t c q = Sys2Proof.Machine.getPE s c q := by
  obtain ⟨_, _, _, _, _, _, _, rfl⟩ := h; rfl

theorem completeTaken_state (s : State) (it : Issued) : ∃ ps, completeTaken s it = { s with pes := ps } := ⟨_, rfl⟩

theorem OnlySends.launchAt {s t : State} (h : OnlySends s t) (lid : Nat) : Sys2Proof.Machine.launchAt t lid = Sys2Proof.Machine.launchAt s lid := by
  obtain ⟨_, _, _, rfl⟩ := h.only; rfl

theorem completeSent_launchAt (s : State) (it : Issued) (lid : Nat) : launchAt (completeSent s it) lid = launchAt s lid := by
  rw [(completeSent_sends s it).launchAt]
  obtain ⟨_, taken⟩ := completeTaken_state s it
  rw [taken]; rfl

theorem completeSent_state (s : State) (it : Issued) : ∃ fs es ps, completeSent s it = { s with flights := fs, errSeq := es, pes := ps } := by
  obtain ⟨_, _, _, only⟩ := (completeSent_sends s it).only
  obtain ⟨_, taken⟩ := completeTaken_state s it
  rw [only, taken]
  exact ⟨_, _, _, rfl⟩

theorem getPE_completeSent_keeps {α : Type} (g : PE → α) (keeps : ∀ p hs is ls, g { p with handles := hs, issued := is, late := ls } = g p) (s : State) (it : Issued)
    (c q : Nat) : g (getPE (completeSent s it) c q) = g (getPE s c q) := by
  obtain ⟨hs, eq, -⟩ := (completeSent_sends s it).refs c q
  rw [eq, ← getPE_completeTaken_keeps g (fun p is ls => keeps p p.handles is ls) s it c q]
  generalize getPE (completeTaken s it) c q = p
  exact keeps p hs p.issued p.late

theorem completeDone_nothing {s : State} {it : Issued} (calm : effectsNow it = []) : completeDone s it = completeSent s it := by
  unfold completeDone; rw [calm]; rfl

theorem completeDone_one {s : State} {it : Issued} {x : Effect} (one : effectsNow it = [x]) : completeDone s it = applyEffect (completeSent s it) it.f x := by
  unfold completeDone; rw [one]; rfl

theorem completeSent_one {s : State} {it : Issued} {e : Emit} (one : it.emits = [e]) : completeSent s it = sendEmit s it (completeTaken s it) e := by
  unfold completeSent; rw [one]; rfl

/-- Each value sets out to its destination, in order (R227). -/
theorem completeSent_values {s : State} {it : Issued}
    (values : ∀ e ∈ it.emits, e.kind ≠ .handle ∧ coordDest s (emitDest s it e) = false ∧ targetSpoilt (emitPE s it) it.f e.target = false) :
    completeSent s it = { completeTaken s it with flights := s.flights ++ it.emits.map fun e => emitFlight s it e e.kind e.payload } := by
  have step (es : List Emit) (sub : ∀ e ∈ es, e ∈ it.emits) (fs : List Flight) :
      es.foldl (sendEmit s it) { completeTaken s it with flights := fs } =
        { completeTaken s it with flights := fs ++ es.map fun e => emitFlight s it e e.kind e.payload } := by
    induction es generalizing fs with
    | nil => rw [List.map_nil, List.append_nil]; rfl
    | cons e es ih =>
      obtain ⟨value, plain, sound⟩ := values e (sub e (.head _))
      have here : coordDest { completeTaken s it with flights := fs } (emitDest s it e) = false := (coordDest_completeTaken s it _).trans plain
      rw [List.foldl_cons, sendEmit_sound here value sound]
      exact (ih (fun y mem => sub y (.tail _ mem)) _).trans (by rw [List.append_assoc]; rfl)
  exact step it.emits (fun _ mem => mem) s.flights

theorem refsAt_congr {s t : State} (d : RDest) (h : ∀ c q, (getPE t c q).instr = (getPE s c q).instr) : refsAt t d = refsAt s d := by
  unfold refsAt nodeInfo nodeAt; rw [h]

/-- Freeing an entry touches its own PE (R61). -/
theorem getPE_freeEntry (s : State) (b pe h c q : Nat) :
    getPE (freeEntry s b pe h) c q = if peKey c q = peKey b pe then
      handlePut { getPE s b pe with acc := if (handleAt (getPE s b pe) h).kind = .acc then (handleAt (getPE s b pe) h).pages.foldl (fun a t => sclear a (6144 * t) 6144) (getPE s b pe).acc else (getPE s b pe).acc } h
        { handleAt (getPE s b pe) h with kind := .free, gen := nextGen (handleAt (getPE s b pe) h).gen, accFields := (handleAt (getPE s b pe) h).kind == .acc, payer := 0 }
      else getPE s c q := by
  rw [← getPE_setPE]
  unfold freeEntry
  dsimp only
  split <;> rfl

/-- What a sink makes of a launch (R223, R388). -/
theorem launchAt_toSink {s : State} {lid : Nat} {l : Launch} (b vf : Nat) (v : Word) (found : launchAt s lid = some l) :
    ∃ m, launchAt (toSink s b vf lid v) lid = some m ∧ m.errcnt = min (l.errcnt + 1) 0xFFFFFFFF ∧
      (l.errhalt = true → l.errcnt = 0 → l.st ≠ .ending → m.halted = true ∧ m.exit = v) ∧
      (l.errhalt = false ∨ l.errcnt ≠ 0 → m.halted = l.halted ∧ m.exit = l.exit) := by
  obtain ⟨named, live⟩ := launchAt_found found
  have counted : launchAt (sinkCount s b vf lid v) lid = some { l with errcnt := min (l.errcnt + 1) 0xFFFFFFFF } := by
    unfold sinkCount
    rw [found]
    dsimp only
    rw [(postEvent_access _ _ _ _ _ _ _).launchAt]
    exact launchAt_launchPut found named live
  unfold toSink
  rw [found]
  dsimp only
  split
  · next first =>
    obtain ⟨errhalt, fresh⟩ : l.errhalt = true ∧ l.errcnt = 0 := by simpa using first
    have stays : l.errhalt = false ∨ l.errcnt ≠ 0 → False := by rintro (h | h); exacts [Bool.false_ne_true (h.symm.trans errhalt), h fresh]
    by_cases ending : l.st = .ending
    · rw [haltLaunch_rest v (fun m h => by rw [counted] at h; cases h; exact ending)]
      exact ⟨_, counted, rfl, fun _ _ h => absurd ending h, fun h => (stays h).elim⟩
    · rw [haltLaunch_eq v counted ending]
      refine ⟨_, launchAt_launchPut (l := { l with errcnt := min (l.errcnt + 1) 0xFFFFFFFF }) ?_ named (fun h => by cases h), rfl, fun _ _ _ => ⟨rfl, rfl⟩,
        fun h => (stays h).elim⟩
      obtain ⟨_, _, _, discards⟩ := haltDiscards_only (sinkCount s b vf lid v) { l with errcnt := min (l.errcnt + 1) 0xFFFFFFFF } lid
      rw [discards]
      exact counted
  · next later =>
    exact ⟨_, counted, rfl, fun h fresh => absurd (by simp [h, fresh]) later, fun _ => ⟨rfl, rfl⟩⟩

/-- The state once a message has taken its link for 16 cycles (R336). -/
def linkTaken (s : State) (f : Firing) : State := modPE s f.bh (linkHome f.pe) fun q => { q with units := sput 0 q.units unitLink (cycleOf s f.bh + 16) }

/-- A message for which the link has not answered goes on it, and holds it for 16 cycles (R336). -/
theorem pairPut_sends {s : State} {f : Firing} {pe : Nat} {sums : Option (List CellSum)}
    (unanswered : (getPE s f.bh f.pe).discards.find? (fun d => d.node == f.node && d.fp == f.fp) = none) :
    (pairPut s f pe sums).links =
        sput [] s.links (f.bh * 128 + clusterOf f.pe) (sget [] s.links (f.bh * 128 + clusterOf f.pe) ++ [{ pe := pe, fp := f.fp, sums := sums }]) ∧
      sget 0 (getPE (pairPut s f pe sums) f.bh (linkHome f.pe)).units unitLink = cycleOf s f.bh + 16 := by
  have sent : pairPut s f pe sums = { linkTaken s f with
      links := sput [] s.links (f.bh * 128 + clusterOf f.pe) (sget [] s.links (f.bh * 128 + clusterOf f.pe) ++ [{ pe := pe, fp := f.fp, sums := sums }]) } := by
    unfold pairPut; dsimp only; rw [unanswered]; rfl
  have home : getPE (pairPut s f pe sums) f.bh (linkHome f.pe) = getPE (linkTaken s f) f.bh (linkHome f.pe) := by rw [sent]; rfl
  refine ⟨by rw [sent], ?_⟩
  rw [home]
  unfold linkTaken
  rw [getPE_modPE, if_pos rfl]
  dsimp only
  rw [sget_sput_same]

section
variable {s : State} {b pe k : Nat} {it : Issued} (completes : Completes s b pe k it)
include completes

theorem resultEmit_values (calm : effectsNow it = [])
    (values : ∀ e ∈ it.emits, e.kind ≠ .handle ∧ coordDest s (emitDest s it e) = false ∧ targetSpoilt (emitPE s it) it.f e.target = false) :
    ∃ t : State, exec (.resultEmit b pe k) s = .next t ∧ t.flights = s.flights ++ it.emits.map (fun e => emitFlight s it e e.kind e.payload) ∧
      (∀ x ∈ (getPE t b pe).issued, x.id ≠ it.id) ∧ (getPE t b pe).late = (getPE s b pe).late ++ it.effects.map (fun x => (it.f, x)) ∧
      (getPE t b pe).tags = (getPE s b pe).tags ∧ (getPE t b pe).frames = (getPE s b pe).frames ∧ (getPE t b pe).handles = (getPE s b pe).handles ∧
      ∀ l, launchAt s it.f.lid = some l → ∃ m, launchAt t it.f.lid = some m ∧
        m.flags = l.flags ||| if it.quiet then 0 else it.flags ||| emitFlags (emitPE s it) it.f it.emits := by
  have does := resultEmit_completes completes
  obtain ⟨rfl, rfl⟩ := completes.place
  have raises := completeIssued_raises s it
  have done : completeDone s it = { completeTaken s it with flights := s.flights ++ it.emits.map fun e => emitFlight s it e e.kind e.payload } :=
    (completeDone_nothing calm).trans (completeSent_values values)
  have pe_ : getPE (completeIssued s it) it.f.bh it.f.pe = getPE (completeTaken s it) it.f.bh it.f.pe := by rw [raises.getPE, done]; rfl
  have late : it.effects.filter isLate = it.effects := List.filter_eq_self.mpr fun x mem => by
    by_contra now
    exact absurd (List.mem_filter.mpr ⟨mem, by simpa using now⟩) (calm ▸ List.not_mem_nil)
  refine ⟨_, does, by rw [raises.flights, done], fun x mem => ?_, ?_, ?_, ?_, ?_, fun l found => ⟨_, launchAt_completeIssued (l := l) ?_, rfl⟩⟩
  · rw [pe_] at mem
    unfold completeTaken at mem
    rw [getPE_modPE, if_pos rfl] at mem
    obtain ⟨y, left, rfl⟩ := List.mem_map.mp mem
    simpa using (List.mem_filter.mp left).2
  · rw [pe_]
    unfold completeTaken
    rw [getPE_modPE, if_pos rfl, late]
  · rw [pe_]; exact getPE_completeTaken_keeps PE.tags (fun _ _ _ => rfl) s it _ _
  · rw [pe_]; exact getPE_completeTaken_keeps PE.frames (fun _ _ _ => rfl) s it _ _
  · rw [pe_]; exact getPE_completeTaken_keeps PE.handles (fun _ _ _ => rfl) s it _ _
  · rw [completeDone_nothing calm, completeSent_launchAt, found]

theorem resultEmit_spoilt {e : Emit} (one : it.emits = [e]) (calm : effectsNow it = []) (plain : coordDest s (emitDest s it e) = false)
    (spoilt : targetSpoilt (emitPE s it) it.f e.target = true) :
    ∃ t : State, exec (.resultEmit b pe k) s = .next t ∧ t.flights = s.flights ++ [emitFlight s it e .err (newError s (peSrc b pe) 0x08).1] := by
  have does := resultEmit_completes completes
  obtain ⟨rfl, rfl⟩ := completes.place
  have sent := sendEmit_spoilt ((coordDest_completeTaken s it _).trans plain) spoilt
  exact ⟨_, does, by rw [(completeIssued_raises s it).flights, completeDone_nothing calm, completeSent_one one, sent]; rfl⟩

section
variable {e : Emit} (one : it.emits = [e]) (calm : effectsNow it = []) (handle : e.kind = .handle) (plain : coordDest s (emitDest s it e) = false)
  (sound : targetSpoilt (emitPE s it) it.f e.target = false)
include one calm handle plain sound

theorem resultEmit_escapes (off : (emitDest s it e).bh ≠ b ∨ (emitDest s it e).pe ≠ pe) :
    ∃ t : State, exec (.resultEmit b pe k) s = .next t ∧ t.flights = s.flights ++ [emitFlight s it e .err (newError s (peSrc b pe) 0x02).1] := by
  have does := resultEmit_completes completes
  obtain ⟨rfl, rfl⟩ := completes.place
  have sent := sendEmit_escapes ((coordDest_completeTaken s it _).trans plain) handle sound off.symm
  exact ⟨_, does, by rw [(completeIssued_raises s it).flights, completeDone_nothing calm, completeSent_one one, sent]; rfl⟩

theorem resultEmit_stale (home : (emitDest s it e).bh = b) (own : (emitDest s it e).pe = pe) (stale : handleValid (getPE s b pe) e.payload = false) :
    ∃ t : State, exec (.resultEmit b pe k) s = .next t ∧ t.flights = s.flights ++ [emitFlight s it e .handle e.payload] ∧
      (getPE t b pe).handles = (getPE s b pe).handles := by
  have does := resultEmit_completes completes
  obtain ⟨rfl, rfl⟩ := completes.place
  have raises := completeIssued_raises s it
  have sent := sendEmit_stale ((coordDest_completeTaken s it _).trans plain) handle sound own home
    ((getPE_completeTaken_keeps (fun p => handleValid p e.payload) (fun _ _ _ => rfl) s it _ _).trans stale)
  refine ⟨_, does, by rw [raises.flights, completeDone_nothing calm, completeSent_one one, sent]; rfl, ?_⟩
  rw [raises.getPE, completeDone_nothing calm, completeSent_one one, sent]
  exact getPE_completeTaken_keeps PE.handles (fun _ _ _ => rfl) s it _ _

theorem resultEmit_refers (home : (emitDest s it e).bh = b) (own : (emitDest s it e).pe = pe) (valid : handleValid (getPE s b pe) e.payload = true)
    (room : (handleAt (getPE s b pe) (handleIdx e.payload)).ref + refsAt s (emitDest s it e) ≤ 255) :
    ∃ t : State, exec (.resultEmit b pe k) s = .next t ∧ t.flights = s.flights ++ [emitFlight s it e .handle e.payload] ∧
      (handleAt (getPE t b pe) (handleIdx e.payload)).ref = (handleAt (getPE s b pe) (handleIdx e.payload)).ref + refsAt s (emitDest s it e) := by
  have does := resultEmit_completes completes
  obtain ⟨rfl, rfl⟩ := completes.place
  have raises := completeIssued_raises s it
  have entry (h : Nat) : handleAt (getPE (completeTaken s it) it.f.bh it.f.pe) h = handleAt (getPE s it.f.bh it.f.pe) h :=
    getPE_completeTaken_keeps (fun p => handleAt p h) (fun _ _ _ => rfl) s it _ _
  have refs : refsAt (completeTaken s it) (emitDest s it e) = refsAt s (emitDest s it e) :=
    refsAt_congr _ fun c q => getPE_completeTaken_keeps PE.instr (fun _ _ _ => rfl) s it c q
  have sent := sendEmit_refers ((coordDest_completeTaken s it _).trans plain) handle sound own home
    ((getPE_completeTaken_keeps (fun p => handleValid p e.payload) (fun _ _ _ => rfl) s it _ _).trans valid) (by rw [entry, refs]; exact room)
  refine ⟨_, does, by rw [raises.flights, completeDone_nothing calm, completeSent_one one, sent]; rfl, ?_⟩
  rw [raises.getPE, completeDone_nothing calm, completeSent_one one, sent]
  show (handleAt (getPE (setPE _ _ _ _) _ _) _).ref = _
  rw [getPE_setPE, if_pos rfl, handleAt_handlePut, if_pos rfl, entry, refs]

end

/-- The entry of a tile that a result fills is produced (R58). -/
theorem resultEmit_produces {h : Nat} (one : effectsNow it = [.produced h]) :
    ∃ t : State, exec (.resultEmit b pe k) s = .next t ∧ (handleAt (getPE t b pe) h).pend = false := by
  have does := resultEmit_completes completes
  obtain ⟨rfl, rfl⟩ := completes.place
  refine ⟨_, does, ?_⟩
  rw [(completeIssued_raises s it).getPE, completeDone_one one]
  unfold applyEffect
  dsimp only
  rw [getPE_modPE, if_pos rfl, handleAt_handlePut, if_pos rfl]

/-- An accumulator that is drained is freed, and its bytes read as zero (R61, R64). -/
theorem resultEmit_frees {h : Nat} (one : effectsNow it = [.freeEntry h (handleAt (getPE s b pe) h).gen]) (kept : (handleAt (getPE s b pe) h).kind ≠ .free) :
    ∃ t : State, exec (.resultEmit b pe k) s = .next t ∧ (handleAt (getPE t b pe) h).kind = .free ∧
      (handleAt (getPE t b pe) h).gen = nextGen (handleAt (getPE s b pe) h).gen ∧
      ((handleAt (getPE s b pe) h).kind = .acc → ∀ a ∈ (handleAt (getPE s b pe) h).pages, ∀ i < 6144, sget 0 (getPE t b pe).acc (6144 * a + i) = 0) := by
  have does := resultEmit_completes completes
  obtain ⟨rfl, rfl⟩ := completes.place
  obtain ⟨_, eq, refs⟩ := (completeSent_sends s it).refs it.f.bh it.f.pe
  obtain ⟨r, entry⟩ := refs h
  rw [getPE_completeTaken_keeps (fun p => handleAt p h) (fun _ _ _ => rfl) s it] at entry
  refine ⟨_, does, ?_⟩
  rw [(completeIssued_raises s it).getPE, completeDone_one one]
  unfold applyEffect
  dsimp only
  rw [if_pos ⟨by rw [entry]; exact kept, by rw [entry]⟩, getPE_freeEntry, if_pos rfl, handleAt_handlePut, if_pos rfl, entry]
  refine ⟨rfl, rfl, fun acc a mem i hi => ?_⟩
  unfold handlePut
  dsimp only
  rw [if_pos acc]
  exact sget_foldl_sclear 0 6144 _ _ (.inl mem) hi

/-- An error without a destination reaches the graph's sink (R223, R388). -/
theorem resultEmit_sinks {v : Word} (one : effectsNow it = [.sinkErr v]) {l : Launch} (found : launchAt s it.f.lid = some l) :
    ∃ t : State, ∃ m : Launch, exec (.resultEmit b pe k) s = .next t ∧ launchAt t it.f.lid = some m ∧ m.errcnt = min (l.errcnt + 1) 0xFFFFFFFF ∧
      (l.errhalt = true → l.errcnt = 0 → l.st ≠ .ending → m.halted = true ∧ m.exit = v) ∧
      (l.errhalt = false ∨ l.errcnt ≠ 0 → m.halted = l.halted ∧ m.exit = l.exit) := by
  have does := resultEmit_completes completes
  have sunk := launchAt_toSink it.f.bh it.f.vf v ((completeSent_launchAt s it it.f.lid).trans found)
  obtain ⟨m, found', errcnt, halts, goes⟩ := sunk
  refine ⟨_, _, does, launchAt_completeIssued (by rw [completeDone_one one]; exact found'), errcnt, halts, goes⟩

/-- A pair message goes on the link, unless the link has answered for it already (R336, R350). -/
theorem resultEmit_pairs {leader : Nat} {sums : Option (List CellSum)} (one : effectsNow it = [.pairSend leader sums]) :
    ∃ t : State, exec (.resultEmit b pe k) s = .next t ∧
      ((∀ d ∈ (getPE s b pe).discards, d.node = it.f.node → d.fp ≠ it.f.fp) →
        sget [] t.links (b * 128 + clusterOf pe) = sget [] s.links (b * 128 + clusterOf pe) ++ [{ pe := leader, fp := it.f.fp, sums := sums }] ∧
        sget 0 (getPE t b (linkHome pe)).units unitLink = cycleOf s b + 16) ∧
      ((∃ d ∈ (getPE s b pe).discards, d.node = it.f.node ∧ d.fp = it.f.fp) → t.links = s.links) := by
  have does := resultEmit_completes completes
  obtain ⟨rfl, rfl⟩ := completes.place
  have raises := completeIssued_raises s it
  have done : completeDone s it = pairPut (completeSent s it) it.f leader sums := completeDone_one one
  have discards := getPE_completeSent_keeps PE.discards (fun _ _ _ _ => rfl) s it it.f.bh it.f.pe
  have links : (completeSent s it).links = s.links := by
    obtain ⟨_, _, _, sent⟩ := completeSent_state s it
    rw [sent]
  have cycle : cycleOf (completeSent s it) it.f.bh = cycleOf s it.f.bh := by
    obtain ⟨_, _, _, sent⟩ := completeSent_state s it
    rw [sent]; rfl
  refine ⟨_, does, fun unanswered => ?_, fun answered => ?_⟩
  · have none_ : (getPE (completeSent s it) it.f.bh it.f.pe).discards.find? (fun d => d.node == it.f.node && d.fp == it.f.fp) = none := by
      rw [discards, List.find?_eq_none]
      exact fun d mem => by simpa using unanswered d mem
    obtain ⟨sent, held⟩ := pairPut_sends (pe := leader) (sums := sums) none_
    rw [raises.links, raises.getPE, done, sent, held, links, cycle, sget_sput_same]
    exact ⟨rfl, rfl⟩
  · rw [raises.links, done]
    obtain ⟨d, mem, node, fp⟩ := answered
    have some_ : ((getPE s it.f.bh it.f.pe).discards.find? fun d => d.node == it.f.node && d.fp == it.f.fp).isSome = true :=
      List.find?_isSome.mpr ⟨d, mem, by simp [node, fp]⟩
    obtain ⟨x, found⟩ := Option.isSome_iff_exists.mp some_
    unfold pairPut
    dsimp only
    rw [discards, found]
    exact links

end

/-! The steps at the end of the cycle (R288, R289). -/

/-- A link written where the frame is live (R288). -/
def linkLive (fp which : Nat) (v : Word) (p : PE) : PE := if frameLive p fp then linkWrite p fp which v else p

/-- q is p, but for the value of one slot, which is FILLED where the frame is live. -/
structure Linked (p : PE) (fp which : Nat) (v : Word) (q : PE) : Prop where
  live : frameLive q fp = frameLive p fp
  rest : ∀ j, j ≠ 16 * fp + which → slotTag q j = slotTag p j ∧ slotValue q j = slotValue p j

theorem Linked.refl (p : PE) (fp which : Nat) (v : Word) : Linked p fp which v p := ⟨rfl, fun _ _ => ⟨rfl, rfl⟩⟩

theorem Linked.again {p q : PE} {fp which : Nat} {v : Word} (h : Linked p fp which v q) : Linked p fp which v (linkLive fp which v q) := by
  unfold linkLive
  split
  · refine ⟨h.live, fun j other => ?_⟩
    unfold linkWrite
    rw [slotTag_slotPut, if_neg other, slotValue_slotPut_other _ _ _ other]
    exact h.rest j other
  · exact h

theorem linkLive_fills {q : PE} {fp which : Nat} {v : Word} (live : frameLive q fp = true) :
    slotTag (linkLive fp which v q) (16 * fp + which) = mkTag tagFilled 0 0 ∧ slotValue (linkLive fp which v q) (16 * fp + which) = v := by
  unfold linkLive linkWrite
  rw [if_pos live]
  exact ⟨by rw [slotTag_slotPut, if_pos rfl], slotValue_slotPut_same _ _ _ _ (by decide)⟩

theorem Linked.iterate (p : PE) (fp which : Nat) (v : Word) (k : Nat) : Linked p fp which v ((linkLive fp which v)^[k] p) := by
  induction k with
  | zero => exact .refl p fp which v
  | succ k ih => rw [Function.iterate_succ_apply']; exact ih.again

/-- What a PE drops as a frame is freed is noted, until the end of the cycle (R52, R58). -/
theorem getPE_frameDrop_keeps {α : Type} (g : PE → α) (keeps : ∀ p ls, g { p with late := ls } = g p) (s : State) (b pe fp cls c q : Nat) :
    g (getPE (frameDrop s b pe fp cls) c q) = g (getPE s c q) := by
  have step (t : State) (kind : Kind) (v : Word) (n : Nat) : g (getPE (dropToken t b pe kind v n) c q) = g (getPE t c q) := by
    unfold dropToken
    split
    · unfold dropRef
      rw [getPE_modPE]
      split
      · next same =>
        have here : getPE t b pe = getPE t c q := by unfold getPE; rw [same]
        rw [here]
        exact keeps _ _
      · rfl
    · rfl
  unfold frameDrop
  dsimp only
  generalize (getPE s b pe).tags.filter _ = es
  generalize getPE s b pe = p0
  induction es generalizing s with
  | nil => rfl
  | cons e es ih =>
    rw [List.foldl_cons, ih]
    generalize (if tagState e.2 = tagStickyL ∨ tagState e.2 = tagStickyR then (if tagCount e.2 = 63 then 1 else tagCount e.2) else 1) = n
    split
    · exact step _ _ _ _
    · rfl

/-- A frame that is not live on a PE, all of its slots EMPTY (R51, R52). -/
def FrameClosed (fp cls : Nat) (p : PE) : Prop := frameLive p fp = false ∧ ∀ j < 16 * 2 ^ cls, slotTag p (16 * fp + j) = 0

theorem frameClose_closes (p : PE) (fp cls : Nat) : FrameClosed fp cls (frameClose p fp cls) := by
  refine ⟨?_, fun j inside => ?_⟩
  · unfold frameLive frameClose
    rw [sget_sclear, if_pos ⟨le_refl fp, Nat.lt_add_of_pos_right (Nat.two_pow_pos cls)⟩]
    rfl
  · unfold slotTag frameClose
    rw [sget_sclear, if_pos ⟨Nat.le_add_right _ _, Nat.add_lt_add_left inside _⟩]

/-- A frame is closed in every PE of a list (R52). -/
theorem getPE_closeFold (b fp cls : Nat) (l : List Nat) (s : State) (q : Nat) (h : FrameClosed fp cls (getPE s b q) ∨ q ∈ l) :
    FrameClosed fp cls (getPE (l.foldl (fun t q => modPE (frameDrop t b q fp cls) b q fun p => frameClose p fp cls) s) b q) := by
  induction l generalizing s with
  | nil => exact h.resolve_right List.not_mem_nil
  | cons x l ih =>
    refine ih _ ?_
    rw [getPE_modPE]
    split
    · exact .inl (frameClose_closes _ _ _)
    · next other =>
      refine h.imp (fun closed => ?_) fun mem => (List.mem_cons.mp mem).resolve_left fun same => other (by rw [same])
      rw [getPE_frameDrop_keeps (FrameClosed fp cls) fun _ _ => rfl]
      exact closed

section
variable {s : State} {b pe fp : Nat} {f : Firing} {i : FrameInfo} {g : Placed} (info : frameInfo (getPE s b pe) fp = some i) (cfg : cfgAt s i.cfg = some g)
include info cfg

theorem lateLinks_eq {which : Nat} {v : Word} (c : Nat) (late : (getPE s b pe).late = [(f, .link fp which v)]) :
    lateOn s b pe c .links = (rectPes g).foldl (fun t q => modPE t b q (linkLive fp which v)) s := by
  unfold lateOn
  dsimp only
  rw [late]
  show linkAll s b pe fp which v = _
  unfold linkAll
  rw [info]
  dsimp only
  rw [cfg]
  rfl

theorem lateFrees_closes (c : Nat) (late : (getPE s b pe).late = [(f, .freeFrame fp)]) (live : frameLive (getPE s b pe) fp = true) :
    ∀ q ∈ rectPes g, FrameClosed fp i.cls (getPE (lateOn s b pe c .frees) b q) := by
  have frees : lateOn s b pe c .frees = frameFree s b pe fp := by
    unfold lateOn
    dsimp only
    rw [late]
    exact if_pos live
  rw [frees]
  unfold frameFree
  rw [info]
  dsimp only
  rw [cfg]
  intro q there
  have closed := getPE_closeFold b fp i.cls (rectPes g) s q (.inr there)
  show FrameClosed fp i.cls (getPE (match i.site with | none => _ | some (n, f) => _) b q)
  cases i.site with
  | none => exact closed
  | some x =>
    dsimp only
    rw [getPE_modPE]
    split
    · next same =>
      unfold getPE at closed ⊢
      rw [← same]
      exact closed
    · exact closed

end

/-- Settles O42: the completion is its parts in order, and of what it sends only reference counts and error numbers reach what takes effect. -/
theorem resultsEmitted : Obligations.ResultsEmitted := by
  unfold Obligations.ResultsEmitted
  refine ⟨fun s b pe k it completes => ?_, fun s b pe c fp f i g info cfg => ⟨fun which v late => ?_, fun late live => lateFrees_closes info cfg c late live⟩,
    fun s b pe c fp f late dead => ?_⟩
  · refine ⟨fun calm values => resultEmit_values completes calm values, fun e one calm plain spoilt => resultEmit_spoilt completes one calm plain (by simpa using spoilt),
      fun e one calm handle plain sound => ⟨fun home own valid room => resultEmit_refers completes one calm handle plain sound home own valid room,
        fun home own stale => resultEmit_stale completes one calm handle plain sound home own stale, fun off => resultEmit_escapes completes one calm handle plain sound off⟩,
      fun h one => resultEmit_produces completes one, fun h one kept => resultEmit_frees completes one kept, fun v one l found => resultEmit_sinks completes one found,
      fun leader sums one => resultEmit_pairs completes one⟩
  · dsimp only
    rw [lateLinks_eq info cfg c late]
    refine ⟨fun q there live => ?_, fun b' q away => ?_⟩
    · obtain ⟨k, reads, hit⟩ := getPE_foldl_modPE b (linkLive fp which v) (rectPes g) s b q
      cases k with
      | zero => exact absurd rfl (hit.mp rfl q there)
      | succ k =>
        rw [reads, Function.iterate_succ_apply']
        have before := Linked.iterate (getPE s b q) fp which v k
        obtain ⟨tag, value⟩ := linkLive_fills (which := which) (v := v) (before.live.trans live)
        exact ⟨tag, value, before.again.rest⟩
    · obtain ⟨k, reads, hit⟩ := getPE_foldl_modPE b (linkLive fp which v) (rectPes g) s b' q
      rw [reads, hit.mpr away]; rfl
  · have frees : lateOn s b pe c .frees = toSink (newError s (peSrc b pe) 0x04).2 b f.vf f.lid (newError s (peSrc b pe) 0x04).1 := by
      unfold lateOn
      dsimp only
      rw [late]
      exact if_neg (by rw [dead]; decide)
    dsimp only
    rw [frees]
    refine ⟨?_, fun l found => ?_⟩
    · obtain ⟨_, _, _, _, _, _, _, _, _, _, sunk⟩ := toSink_sinks (newError s (peSrc b pe) 0x04).2 b f.vf f.lid (newError s (peSrc b pe) 0x04).1
      rw [sunk]
      exact sget_sput_same _ _ _ _
    · obtain ⟨m, found', errcnt, -⟩ := launchAt_toSink (s := (newError s (peSrc b pe) 0x04).2) b f.vf (newError s (peSrc b pe) 0x04).1 found
      exact ⟨m, found', errcnt⟩

end Sys2Proof.Machine
end

section
/-! Settles O47: engine commands begin, answer, stream and detach. -/

namespace Sys2Proof.Machine

open Host

/-! What the completion of a command touches before its answer (R58, R203, R205, R206). -/

/-- t differs from s at most in PEs, charges, configurations, tokens on their way and error numbers. -/
def OnlyServes (s t : State) : Prop := ∃ ps rs cs fs es, t = { s with pes := ps, rcbs := rs, cfgs := cs, flights := fs, errSeq := es }

theorem OnlyServes.refl (s : State) : OnlyServes s s := ⟨_, _, _, _, _, rfl⟩

theorem OnlyServes.trans {s t u : State} (h : OnlyServes s t) (g : OnlyServes t u) : OnlyServes s u := by
  obtain ⟨_, _, _, _, _, rfl⟩ := h
  obtain ⟨_, _, _, _, _, rfl⟩ := g
  exact ⟨_, _, _, _, _, rfl⟩

theorem OnlyServes.live {s t : State} (h : OnlyServes s t) {c : Cmd} (live : commandLive s c) : commandLive t c := by
  obtain ⟨_, _, _, _, _, rfl⟩ := h
  exact live

theorem OnlyServes.cycle {s t : State} (h : OnlyServes s t) (b : Nat) : cycleOf t b = cycleOf s b := by
  obtain ⟨_, _, _, _, _, rfl⟩ := h
  rfl

/-- The answer of a command whose launch goes on, made of a state that its completion has reached (R119). -/
theorem OnlyServes.answers {s u : State} (h : OnlyServes s u) {c : Cmd} (live : commandLive s c) (k : Kind) (v : Word) (fx : List Effect) :
    Answers s (cmdReply u c k v fx) c k v := Answers.of_cycle (h.cycle _) (cmdReply_answers u c k v fx (h.live live))

theorem newError_serves (s : State) (src code : Nat) : OnlyServes s (newError s src code).2 := ⟨_, _, _, _, _, rfl⟩
theorem modPE_serves (s : State) (b pe : Nat) (f : PE → PE) : OnlyServes s (modPE s b pe f) := ⟨_, _, _, _, _, rfl⟩
theorem sendFlight_serves (s : State) (t : Token) (b pe vc c lid : Nat) : OnlyServes s (sendFlight s t b pe vc c lid) := ⟨_, _, _, _, _, rfl⟩

theorem freeEntry_serves (s : State) (b pe h : Nat) : OnlyServes s (freeEntry s b pe h) := by
  obtain ⟨_, _, _, only⟩ := freeEntry_only s b pe h
  exact ⟨_, _, _, _, _, only⟩

theorem tileCopy_state {s t : State} {c : Cmd} {pe h gen : Nat} (copied : tileCopy s c pe = some (h, gen, t)) : ∃ ps rs, t = { s with pes := ps, rcbs := rs } := by
  unfold tileCopy at copied
  dsimp only at copied
  split at copied
  · cases copied
  · split at copied
    · cases copied
    · next x u made =>
      obtain ⟨-, -, -, -, ⟨_, _, rest⟩, -⟩ := allocTile_made _ _ _ _ _ _ _ _ made
      cases copied
      rw [rest]
      exact ⟨_, _, rfl⟩

/-! The start of a command keeps the others (R121). -/

theorem foldl_cmds {α : Type} (f : State → α → State) (keeps : ∀ s x, (f s x).cmds = s.cmds) (l : List α) (s : State) : (l.foldl f s).cmds = s.cmds := by
  induction l generalizing s with
  | nil => rfl
  | cons x l ih => exact (ih _).trans (keeps s x)

theorem rowsSend_cmds (s : State) (c : Cmd) (rs : List (Req × Bool)) : (rowsSend s c rs).cmds = s.cmds :=
  foldl_cmds _ (fun t x => by dsimp only; split <;> rfl) rs s

theorem dropOperands_cmds (s : State) (c : Cmd) : (dropOperands s c).cmds = s.cmds :=
  foldl_cmds _ (fun t x => by split <;> rfl) _ s

theorem cmdAt_congr {s t : State} (h : t.cmds = s.cmds) (id : Nat) : cmdAt t id = cmdAt s id := by unfold cmdAt; rw [h]

/-- A command that begins stands as begun (R173). -/
theorem cmdBegin_begins {s : State} {id : Nat} {c : Cmd} (found : cmdAt s id = some c) : ∃ k, cmdAt (cmdBegin s c) id = some k ∧ k.begun = true := by
  have named := cmdAt_id found
  subst named
  have put (d : Cmd) (same : d.id = c.id) : cmdAt (cmdPut s d) c.id = some d := by
    rw [← same]; exact cmdAt_cmdPut d (same ▸ found)
  unfold cmdBegin
  dsimp only
  split
  · exact ⟨_, (cmdAt_congr (rowsSend_cmds _ _ _) _).trans (put _ rfl), rfl⟩
  · exact ⟨_, (cmdAt_congr (rowsSend_cmds _ _ _) _).trans (put _ rfl), rfl⟩
  · exact ⟨_, put _ rfl, rfl⟩
  · refine ⟨_, (cmdAt_congr ((rowsSend_cmds _ _ _).trans (dropOperands_cmds _ _)) _).trans (put _ ?_), ?_⟩ <;> split <;> rfl
  · refine ⟨_, (cmdAt_congr ((rowsSend_cmds _ _ _).trans (dropOperands_cmds _ _)) _).trans (put _ ?_), ?_⟩ <;> split <;> rfl
  · exact ⟨_, put _ rfl, rfl⟩
  · exact ⟨_, put _ rfl, rfl⟩

/-! The step. -/

section
variable {s : State} {id : Nat} {c : Cmd} (found : cmdAt s id = some c) (started : c.started = true) (awake : cmdAwake s c = true) (moves : engineMoves s c = true)
include found started awake moves

theorem engineCompletion_waits (fresh : c.begun = false) (held : acqClear s c = false) : exec (.engineCompletion id) s = .next s := by
  show execEngineCompletion id s = _
  unfold execEngineCompletion
  rw [found]
  dsimp only
  rw [started, awake, moves, fresh, held]
  rfl

theorem engineCompletion_begins (fresh : c.begun = false) (clear : acqClear s c = true) : exec (.engineCompletion id) s = .next (cmdBegin s c) := by
  show execEngineCompletion id s = _
  unfold execEngineCompletion
  rw [found]
  dsimp only
  rw [started, awake, moves, fresh, clear]
  rfl

variable (begun : c.begun = true) (ready : cmdReady s c = true)
include begun ready

theorem engineCompletion_poisons (spoilt : copySpoilt s c = true) : exec (.engineCompletion id) s =
    .next (cmdReply (newError s (agentSrc c.agent) 0x08).2 c .err (newError s (agentSrc c.agent) 0x08).1 (operandDrops c.node c.f)) := by
  show execEngineCompletion id s = _
  unfold execEngineCompletion
  rw [found]
  dsimp only
  rw [started, awake, moves, begun, ready, spoilt]
  rfl

/-- A command whose tiles are sound ends as its code says (R202 to R208). -/
theorem engineCompletion_completes (clean : copySpoilt s c = false) :
    (c.code = 0x149 ∨ c.code = 0x14D → exec (.engineCompletion id) s = .next (tileComplete s c)) ∧
    (c.code = 0x14A → exec (.engineCompletion id) s = .next (match cmdError s c with
      | some v => cmdReply s c .err v (operandDrops c.node c.f)
      | none => cmdReply s c .value (word (512 * tileHeight s c.f.vf (handleAt (getPE s c.f.bh c.f.pe) (handleIdx (payloadAt c.f .l))))) (operandDrops c.node c.f))) ∧
    (c.code = 0x14E → exec (.engineCompletion id) s = .next (
      if 0 < c.bad then cmdReply (newError s (agentSrc c.agent) 0x0C).2 c .err (newError s (agentSrc c.agent) 0x0C).1 []
      else match cmdError s c with | some v => cmdReply s c .err v [] | none => cmdReply s c .value (word c.mask) [])) ∧
    (∀ h gen u, c.code = 0x14B → tileCopy s c (bits (descOf s c.f c.node) 4 9) = some (h, gen, u) → exec (.engineCompletion id) s = .next (
      cmdReply (copyDeliver u c (bits (descOf s c.f c.node) 4 9) (bits (descOf s c.f c.node) 13 12) ((portOfCode (bits (descOf s c.f c.node) 25 2)).getD .l) h gen) c
        .value 1 (operandDrops c.node c.f))) ∧
    (∀ u k, c.code = 0x14C → serveFrom 9 s c = (u, k, true) → exec (.engineCompletion id) s = .next (cmdReply u k .value (word k.mask) (operandDrops c.node c.f))) ∧
    (c.code = 0x14F → affineCount (descOf s c.f c.node) ≤ c.stage → exec (.engineCompletion id) s = .next (
      pushReply (cmdEnd s c) c.f c.node 0 ((c.dests.drop 1).filterMap fun z => z) .value (word (affineCount (descOf s c.f c.node))) (operandDrops c.node c.f)
        (cmdFlags s c))) := by
  have step : exec (.engineCompletion id) s = execEngineCompletion id s := rfl
  rw [step]
  unfold execEngineCompletion
  rw [found]
  dsimp only
  rw [started, awake, moves, begun, ready, clean]
  refine ⟨?_, fun code => ?_, fun code => ?_, fun h gen u code copied => ?_, fun u k code served => ?_, fun code all => ?_⟩
  · rintro (code | code) <;> rw [code] <;> rfl
  · rw [code]; rfl
  · rw [code]; rfl
  · rw [code, copied]; rfl
  · rw [code, served]; rfl
  · rw [code, if_neg (Nat.not_lt.mpr all)]; rfl

end

/-! The answers. -/

/-- Only copies read a tile as their command completes (R205, R206). -/
theorem copySpoilt_copies {s : State} {c : Cmd} (other : c.code ≠ 0x14B ∧ c.code ≠ 0x14C) : copySpoilt s c = false := by
  unfold copySpoilt
  simp [other.1, other.2]

section
variable (s : State) (c : Cmd)

/-- The entry of the tile that a command fills. -/
def tileEntry : HEntry := handleAt (getPE s c.f.bh c.f.pe) c.hidx

/-- The state once all the rows of a command's tile stand (R191, R207). -/
def tileLanded : State :=
  match tidEntry s c.f.vf (tileEntry s c).tid with
  | some t => if (tileEntry s c).gen = c.hgen then tileFilled s c t else s
  | none => s

/-- The state once its metadata does, too (R203). -/
def tileSealed : State :=
  match tidEntry s c.f.vf (tileEntry s c).tid with
  | some t => modPE (tileLanded s c) c.f.bh c.f.pe fun p => handlePut p c.hidx (loadedMeta t (tileEntry s c) (tileRows p (tileEntry s c) t.rows).1)
  | none => tileLanded s c

/-- What a command that fails makes of a state: its tile is freed (R203). -/
def tileFreed (u : State) : State := if (tileEntry s c).gen = c.hgen then freeEntry u c.f.bh c.f.pe c.hidx else u

theorem tileComplete_eq : tileComplete s c =
    if 0 < c.bad then
      cmdReply (tileFreed s c (newError (tileLanded s c) (agentSrc c.agent) 0x0C).2) c .err (newError (tileLanded s c) (agentSrc c.agent) 0x0C).1 []
    else match cmdError s c with
      | some v => cmdReply (tileFreed s c (tileLanded s c)) c .err v []
      | none => cmdReply (tileSealed s c) c .handle (handleWord c.hidx (tileEntry s c).tid (tileEntry s c).gen) [.produced c.hidx] := by
  unfold tileComplete tileFreed tileSealed tileLanded tileEntry
  dsimp only
  cases tidEntry s c.f.vf (handleAt (getPE s c.f.bh c.f.pe) c.hidx).tid <;> cases cmdError s c <;> rfl

theorem tileLanded_pes : ∃ ps, tileLanded s c = { s with pes := ps } := by
  unfold tileLanded
  split
  · split
    · exact ⟨_, rfl⟩
    · exact ⟨_, rfl⟩
  · exact ⟨_, rfl⟩

theorem tileLanded_serves : OnlyServes s (tileLanded s c) := by
  obtain ⟨_, eq⟩ := tileLanded_pes s c
  exact ⟨_, _, _, _, _, eq⟩

theorem tileSealed_serves : OnlyServes s (tileSealed s c) := by
  unfold tileSealed
  split
  · exact (tileLanded_serves s c).trans (modPE_serves _ _ _ _)
  · exact tileLanded_serves s c

variable {s c}

theorem tileFreed_serves {u : State} (h : OnlyServes s u) : OnlyServes s (tileFreed s c u) := by
  unfold tileFreed
  split
  · exact h.trans (freeEntry_serves _ _ _ _)
  · exact h

/-- A command that fills a tile answers with its handle, or with the error of a part that failed (R203, R207). -/
theorem tileComplete_answers (live : commandLive s c) :
    if 0 < c.bad then Answers s (tileComplete s c) c .err (newError s (agentSrc c.agent) 0x0C).1
    else match cmdError s c with
      | none => Answers s (tileComplete s c) c .handle (handleWord c.hidx (tileEntry s c).tid (tileEntry s c).gen)
      | some v => Answers s (tileComplete s c) c .err v := by
  rw [tileComplete_eq]
  split
  · have same : (newError (tileLanded s c) (agentSrc c.agent) 0x0C).1 = (newError s (agentSrc c.agent) 0x0C).1 := by
      obtain ⟨_, eq⟩ := tileLanded_pes s c
      rw [eq]; rfl
    rw [same]
    exact (tileFreed_serves ((tileLanded_serves s c).trans (newError_serves _ _ _))).answers live _ _ _
  · cases cmdError s c with
    | some v => exact (tileFreed_serves (tileLanded_serves s c)).answers live _ _ _
    | none => exact (tileSealed_serves s c).answers live _ _ _

end

/-- Serving a consumer leaves a command its number, firing, node and destinations (R206). -/
theorem serveOne_serves {s u : State} {c k : Cmd} (served : serveOne s c = some (u, k)) :
    OnlyServes s u ∧ k.id = c.id ∧ k.f = c.f ∧ k.node = c.node ∧ k.dests = c.dests := by
  unfold serveOne at served
  dsimp only at served
  split at served
  · cases served; exact ⟨.refl s, rfl, rfl, rfl, rfl⟩
  · split at served
    · cases served; exact ⟨sendFlight_serves _ _ _ _ _ _ _, rfl, rfl, rfl, rfl⟩
    · split at served
      · cases served
      · split at served
        · cases served
        · next copied =>
          cases served
          obtain ⟨_, _, rfl⟩ := tileCopy_state copied
          exact ⟨⟨_, _, _, _, _, rfl⟩, rfl, rfl, rfl, rfl⟩

theorem serveFrom_serves (n : Nat) (s : State) (c : Cmd) :
    OnlyServes s (serveFrom n s c).1 ∧ (serveFrom n s c).2.1.id = c.id ∧ (serveFrom n s c).2.1.f = c.f ∧ (serveFrom n s c).2.1.node = c.node ∧
      (serveFrom n s c).2.1.dests = c.dests := by
  induction n generalizing s c with
  | zero => exact ⟨.refl s, rfl, rfl, rfl, rfl⟩
  | succ n ih =>
    unfold serveFrom
    split
    · exact ⟨.refl s, rfl, rfl, rfl, rfl⟩
    · split
      · exact ⟨.refl s, rfl, rfl, rfl, rfl⟩
      · next u k served =>
        obtain ⟨one, id, f, node, dests⟩ := serveOne_serves served
        obtain ⟨more, id', f', node', dests'⟩ := ih u k
        exact ⟨one.trans more, id'.trans id, f'.trans f, node'.trans node, dests'.trans dests⟩

/-- An answer for a command is that of one with the same number, firing, node and destinations. -/
theorem Answers.of_fields {s t : State} {c k : Cmd} {kind : Kind} {v : Word} (h : Answers s t k kind v) (id : k.id = c.id) (f : k.f = c.f) (node : k.node = c.node)
    (dests : k.dests = c.dests) : Answers s t c kind v := by
  unfold Answers at *
  rwa [← id, ← f, ← node, ← dests]

theorem cmdReply_flights (s : State) (c : Cmd) (k : Kind) (v : Word) (fx : List Effect) : (cmdReply s c k v fx).flights = s.flights := by
  obtain ⟨_, _, _, _, _, ended, -⟩ := cmdEnd_only s c
  unfold cmdReply pushReply
  dsimp only
  rw [pushIssued_flights, ended]

/-- A copy's handle sets out with what its port refers to (R58, R205). -/
theorem copyDeliver_delivers {s u : State} {c : Cmd} {pe h gen : Nat} (copied : tileCopy s c pe = some (h, gen, u)) (node : Nat) (port : Port) :
    OnlyServes s (copyDeliver u c pe node port h gen) ∧ ∃ y, (copyDeliver u c pe node port h gen).flights = s.flights ++ [y] ∧ y.tok.kind = .handle ∧ y.tok.pe = pe ∧
      y.tok.node = node ∧ y.tok.payload = handleWord h (handleAt (getPE u c.f.bh pe) h).tid gen := by
  obtain ⟨_, _, only⟩ := tileCopy_state copied
  have flights : u.flights = s.flights := by rw [only]
  refine ⟨OnlyServes.trans ⟨_, _, _, _, _, only⟩ ((modPE_serves _ _ _ _).trans (sendFlight_serves _ _ _ _ _ _ _)), ?_⟩
  rw [← flights]
  exact ⟨_, rfl, rfl, rfl, rfl, rfl⟩

/-- The last answer of a stream (R208). -/
theorem streamReply_answers {s : State} {c : Cmd} (live : commandLive s c) (ds : List RDest) (v : Word) (fx : List Effect) (fl : BitVec 9) :
    cmdAt (pushReply (cmdEnd s c) c.f c.node 0 ds .value v fx fl) c.id = none ∧
      ∃ it ∈ (getPE (pushReply (cmdEnd s c) c.f c.node 0 ds .value v fx fl) c.f.bh c.f.pe).issued, it.emits = ds.map fun x => Emit.mk (.fixed x) .value v false := by
  obtain ⟨gx, reply⟩ := pushReply_live (cmdEnd s c) c.f c.node 0 ds .value v fx fl (by unfold launchAt; rw [cmdEnd_launches]; exact live)
  rw [reply]
  refine ⟨(cmdAt_congr (pushIssued_cmds _ _ _ _ _ _ _ _) _).trans (cmdAt_cmdEnd s c), ?_⟩
  unfold pushIssued
  rw [getPE_pushWriting, if_pos rfl]
  exact ⟨_, List.mem_append_right _ (List.mem_singleton_self _), rfl⟩

/-! A stream (R208). -/

section
variable (s : State) (c : Cmd) (r : Req)

/-- What the answer to an element's request gives: its value, or the first error of its pieces or its own. -/
def streamTok : Kind × Word :=
  match (match r.pieces.findSome? fun p => p.err with | some e => some e | none => r.err) with
  | some e => (.err, e)
  | none => (.value, word (leNat (reqBytes r)))

/-- The state once an element's token has left. -/
def streamSent : State :=
  match c.dests.head? with
  | some (some x) => emitTo (reqDel s r.id) c.f (cycleOf s c.f.bh) x (streamTok r).1 (streamTok r).2 false
  | _ => reqDel s r.id

/-- The command as it goes on to its next element. -/
def streamNext : Cmd := { c with stage := c.stage + 1, since := cycleOf s c.f.bh + 1, flags := c.flags ||| r.flags }

/-- The state once it has asked for that element, where there is one. -/
def streamStep : State :=
  if c.stage + 1 < affineCount (descOf s c.f c.node) then streamAsk (cmdPut (streamSent s c r) (streamNext s c r)) (streamNext s c r) (c.stage + 1)
  else cmdPut (streamSent s c r) (streamNext s c r)

theorem streamSent_only : (streamSent s c r).cmds = s.cmds ∧ (streamSent s c r).cfgs = s.cfgs := by
  unfold streamSent
  split
  · obtain ⟨_, _, _, sent⟩ := emitTo_only (reqDel s r.id) c.f (cycleOf s c.f.bh) ‹RDest› (streamTok r).1 (streamTok r).2 false
    rw [sent]
    exact ⟨rfl, rfl⟩
  · exact ⟨rfl, rfl⟩

theorem streamStep_flights : (streamStep s c r).flights = (streamSent s c r).flights := by unfold streamStep; split <;> rfl

variable {s c r}

/-- The value of an element without an error sets out to the first destination (R208). -/
theorem streamSent_value {x : RDest} {xs : List (Option RDest)} (dests : c.dests = some x :: xs) (sound : r.err = none) (pieces : ∀ p ∈ r.pieces, p.err = none) :
    ∃ y, (streamSent s c r).flights = s.flights ++ [y] ∧ y.tok.kind = .value ∧ y.tok.payload = word (leNat (reqBytes r)) ∧ y.tok.pe = x.pe ∧
      y.tok.node = x.node ∧ y.tok.port = x.port ∧ y.tok.fp = x.fp := by
  have tok : streamTok r = (.value, word (leNat (reqBytes r))) := by
    unfold streamTok
    rw [List.findSome?_eq_none_iff.mpr pieces, sound]
  unfold streamSent
  rw [dests, tok]
  exact ⟨_, rfl, rfl, rfl, rfl, rfl, rfl, rfl⟩

theorem cmdAt_streamStep (found : cmdAt s c.id = some c) : cmdAt (streamStep s c r) c.id = some (streamNext s c r) := by
  have put : cmdAt (cmdPut (streamSent s c r) (streamNext s c r)) c.id = some (streamNext s c r) :=
    cmdAt_cmdPut (streamNext s c r) ((cmdAt_congr (streamSent_only s c r).1 c.id).trans found)
  unfold streamStep
  split
  · exact put
  · exact put

theorem wrapNat_lt (x : Int) : wrapNat 64 x % 2 ^ 64 = wrapNat 64 x := by
  unfold wrapNat; omega

/-- The generator asks for the next element (R123). -/
theorem streamStep_asks (more : c.stage + 1 < affineCount (descOf s c.f c.node)) : ∃ q ∈ (streamStep s c r).reqs, q.owner = .cmd c.id (c.stage + 1) ∧
    q.va = affineAddr (descOf s c.f c.node) (streamDelta (descOf s c.f c.node) c.f) (c.stage + 1) ∧ q.len = 2 ^ bits (descOf s c.f c.node) 4 2 := by
  have desc : descOf (cmdPut (streamSent s c r) (streamNext s c r)) c.f c.node = descOf s c.f c.node := by
    unfold descOf cfgAt; rw [cmdPut_cfgs, (streamSent_only s c r).2]
  unfold streamStep
  rw [if_pos more]
  unfold streamAsk sendReq
  refine ⟨_, List.mem_append_right _ (List.mem_singleton_self _), rfl, ?_, ?_⟩
  · show affineAddr (descOf (cmdPut (streamSent s c r) (streamNext s c r)) c.f c.node) _ _ % 2 ^ 64 = _
    unfold streamNext at desc ⊢
    rw [desc]
    exact wrapNat_lt _
  · show 2 ^ bits (descOf (cmdPut (streamSent s c r) (streamNext s c r)) c.f c.node) 4 2 = _
    rw [desc]

theorem streamElement_steps {id : Nat} (found : cmdAt s id = some c) (answer : (cmdReqs s id).find? (fun r => r.owner == .cmd id c.stage) = some r)
    (code : c.code = 0x14F) (done : r.st = .finished) (awake : cmdAwake s c = true) (here : isResident s c.f.bh c.f.pe c.f.vf = true)
    (now : c.since ≤ cycleOf s c.f.bh) : exec (.streamElement id) s = .next (streamStep s c r) := by
  show execStreamElement id s = _
  unfold execStreamElement
  rw [found]
  dsimp only
  rw [answer]
  dsimp only
  rw [if_neg (by simp [code, done, awake, here, now])]
  rfl

end

/-! A multicast whose consumer lags (R206, R433). -/

theorem cfgAt_cfgPut {s : State} {id : Nat} {g h : Placed} (found : cfgAt s id = some g) (named : h.id = id) : cfgAt (cfgPut s h) id = some h := by
  subst named
  have hit := List.find?_some (p := fun x : Placed => x.id == h.id) found
  have same : ((fun x : Placed => x.id == h.id) ∘ fun x => if x.id == h.id then h else x) = fun x => x.id == h.id := by
    funext x
    dsimp only [Function.comp]
    split
    · next at_ => rw [at_]; simp
    · rfl
  unfold cfgAt at found
  unfold cfgAt cfgPut
  dsimp only
  rw [List.find?_map, same, found, Option.map_some, if_pos hit]

/-- A consumer's state is what has been set (R206). -/
theorem outGet_outSet (g : Placed) (d i : Nat) (v : List (Nat × Nat)) (off : Bool) : outGet (outSet g d i v off) d i = (v, off) := by
  have none_ : (g.outs.filter fun o => !(o.1 == d && o.2.1 == i)).find? (fun o => o.1 == d && o.2.1 == i) = none := by
    rw [List.find?_eq_none]
    intro o mem at_
    have other := (List.mem_filter.mp mem).2
    rw [at_] at other
    cases other
  unfold outGet outSet
  dsimp only
  rw [List.find?_append, none_]
  simp

/-- In clean memory an event advances its source's number (R421). -/
theorem postEvent_counts {s : State} (src b : Nat) (vf lid : Option Nat) (code payload : Nat) (clean : cleanMemory s) :
    sget 0 (postEvent s src b vf lid code payload).evSeq src = (sget 0 s.evSeq src + 1) % 2 ^ 32 ∧ SameRegs s (postEvent s src b vf lid code payload) ∧
      (postEvent s src b vf lid code payload).cmds = s.cmds ∧ (postEvent s src b vf lid code payload).cfgs = s.cfgs := by
  obtain ⟨⟨_, _, _, _, only⟩, same, -⟩ := postEvent_quiet s src b vf lid code payload clean
  generalize postEvent s src b vf lid code payload = t at *
  subst only
  unfold evSeqUp
  dsimp only
  rw [sget_sput_same]
  exact ⟨rfl, same, rfl, rfl⟩

/-- The consumer detaches, with one event (R206, R433). -/
theorem detach_detaches {s : State} {g : Placed} {id : Nat} (d i pe src lid : Nat) (found : cfgAt s id = some g) (attached : (outGet g d i).2 = false)
    (clean : cleanMemory s) :
    ∃ h : Placed, cfgAt (detach s g d i pe src lid) id = some h ∧ outGet h d i = ((outGet g d i).1, true) ∧
      sget 0 (detach s g d i pe src lid).evSeq src = (sget 0 s.evSeq src + 1) % 2 ^ 32 ∧ SameRegs s (detach s g d i pe src lid) ∧
      (detach s g d i pe src lid).cmds = s.cmds := by
  have named : g.id = id := by simpa using List.find?_some (p := fun x : Placed => x.id == id) found
  have put := cfgAt_cfgPut (h := outSet g d i (outGet g d i).1 true) found named
  have cleanPut : cleanMemory (cfgPut s (outSet g d i (outGet g d i).1 true)) := cleanMemory_congr s _ rfl rfl clean
  have regs : SameRegs s (cfgPut s (outSet g d i (outGet g d i).1 true)) := .of_regs rfl
  have numbers : (cfgPut s (outSet g d i (outGet g d i).1 true)).evSeq = s.evSeq := rfl
  have cmds : (cfgPut s (outSet g d i (outGet g d i).1 true)).cmds = s.cmds := rfl
  unfold detach
  dsimp only
  rw [attached, if_neg (by decide)]
  generalize cfgPut s (outSet g d i (outGet g d i).1 true) = u at *
  obtain ⟨number, same, kept, cfgs⟩ := postEvent_counts src g.bh (some g.vf) (some lid) 0x06 (d + i * 2 ^ 8 + pe * 2 ^ 11) cleanPut
  refine ⟨outSet g d i (outGet g d i).1 true, ?_, outGet_outSet _ _ _ _ _, by rw [number, numbers], regs.trans same, kept.trans cmds⟩
  unfold cfgAt at put ⊢
  rw [cfgs, put]

theorem mcastLagExpire_detaches {s : State} {id : Nat} {c : Cmd} {g : Placed} (found : cmdAt s id = some c) (cfg : cfgAt s c.f.cfg = some g) (code : c.code = 0x14C)
    (begun : c.begun = true) (awake : cmdAwake s c = true) (within : c.stage ≤ bits (descOf s c.f c.node) 4 3) (limited : bits (descOf s c.f c.node) 8 16 ≠ 0)
    (over_ : c.since + bits (descOf s c.f c.node) 8 16 ≤ conCycles s c c.stage) (attached : (outGet g (bits c.node.lit.toNat 0 8) c.stage).2 = false)
    (waits : serveOne s c = none) : exec (.mcastLagExpire id) s =
      .next (detach s g (bits c.node.lit.toNat 0 8) c.stage (conPe (descOf s c.f c.node) c.stage) (agentSrc c.agent) c.f.lid) := by
  show execMcastLagExpire id s = _
  unfold execMcastLagExpire
  rw [found]
  dsimp only
  rw [cfg]
  dsimp only
  rw [if_neg (by simp [code, begun, awake, within, limited, over_, attached, waits, litBits])]
  rfl

/-- Settles O47: a command that begins stands as begun; what completes it changes neither its launch nor the clock, so its answer is due now. -/
theorem engineCommandsComplete : Obligations.EngineCommandsComplete := by
  unfold Obligations.EngineCommandsComplete
  refine ⟨fun s id c found started fresh awake moves => ⟨fun held => engineCompletion_waits found started awake moves fresh held, fun clear => ?_⟩,
    fun s id c found started begun awake ready moves live => ?_, fun s id c r found answer code done awake here now => ?_,
    fun s id c g found cfg code begun awake => ?_⟩
  · obtain ⟨k, stands, set⟩ := cmdBegin_begins found
    exact ⟨_, k, engineCompletion_begins found started awake moves fresh clear, stands, set⟩
  · intro e made d answers bounds
    have ends (clean : copySpoilt s c = false) := engineCompletion_completes found started awake moves begun ready clean
    have other (h : c.code ≠ 0x14B ∧ c.code ≠ 0x14C) := ends (copySpoilt_copies h)
    refine ⟨fun code => ?_, fun code => ?_, fun code => ?_, fun spoilt => ?_, fun h gen u code clean copied => ?_, fun u k code clean served => ?_, fun code all => ?_⟩
    · obtain ⟨-, put, -⟩ := other (by rw [code]; decide)
      have does := put code
      cases err : cmdError s c with
      | none => exact ⟨_, by rw [does, err], (OnlyServes.refl s).answers live _ _ _⟩
      | some v => exact ⟨_, by rw [does, err], (OnlyServes.refl s).answers live _ _ _⟩
    · obtain ⟨-, -, scatter, -⟩ := other (by rw [code]; decide)
      have does := scatter code
      split
      · next bad => exact ⟨_, by rw [does, if_pos bad], (newError_serves _ _ _).answers live _ _ _⟩
      · next good =>
        rw [if_neg good] at does
        cases err : cmdError s c with
        | none => exact ⟨_, by rw [does, err], (OnlyServes.refl s).answers live _ _ _⟩
        | some v => exact ⟨_, by rw [does, err], (OnlyServes.refl s).answers live _ _ _⟩
    · obtain ⟨fills, -⟩ := other (by rcases code with code | code <;> rw [code] <;> decide)
      have does := fills code
      have answer := tileComplete_answers live
      split
      · next bad => exact ⟨_, does, by rwa [if_pos bad] at answer⟩
      · next good =>
        rw [if_neg good] at answer
        cases err : cmdError s c with
        | none => exact ⟨_, does, by rwa [err] at answer⟩
        | some v => exact ⟨_, does, by rwa [err] at answer⟩
    · exact ⟨_, engineCompletion_poisons found started awake moves begun ready spoilt, (newError_serves _ _ _).answers live _ _ _⟩
    · obtain ⟨-, -, -, xfer, -⟩ := ends clean
      obtain ⟨serves, y, flights, kind, pe, node, payload⟩ := copyDeliver_delivers copied (bits d 13 12) ((portOfCode (bits d 25 2)).getD .l)
      exact ⟨_, y, xfer h gen u code copied, serves.answers live _ _ _, (cmdReply_flights _ _ _ _ _).trans flights, kind, pe, node, payload⟩
    · obtain ⟨-, -, -, -, mcast, -⟩ := ends clean
      obtain ⟨serves, id', f, node, dests⟩ := serveFrom_serves 9 s c
      rw [served] at serves id' f node dests
      have liveK : commandLive s k := by unfold commandLive; rw [f]; exact live
      exact ⟨_, mcast u k code served, (serves.answers liveK _ _ _).of_fields id' f node dests⟩
    · obtain ⟨-, -, -, -, -, stream⟩ := other (by rw [code]; decide)
      obtain ⟨gone, it, issued, emits⟩ := streamReply_answers live ((c.dests.drop 1).filterMap fun z => z) (word (affineCount d)) (operandDrops c.node c.f) (cmdFlags s c)
      exact ⟨_, stream code all, cmdAt_id found ▸ gone, it, issued, emits⟩
  · have named := cmdAt_id found
    refine ⟨_, _, streamElement_steps found answer code done awake here now, named ▸ cmdAt_streamStep (named ▸ found), rfl, rfl, fun x xs dests sound pieces => ?_,
      fun more => named ▸ streamStep_asks more⟩
    rw [streamStep_flights]
    exact streamSent_value dests sound pieces
  · intro d dn within limited over_ attached waits clean
    obtain ⟨h, stands, out, number, same, cmds⟩ := detach_detaches (bits c.node.lit.toNat 0 8) c.stage (conPe (descOf s c.f c.node) c.stage) (agentSrc c.agent) c.f.lid
      cfg attached clean
    exact ⟨_, h, mcastLagExpire_detaches found cfg code begun awake within limited over_ attached waits, stands, out, number, same, cmds⟩

end Sys2Proof.Machine
end

section
/-! SUPPORT. The fields of a packed node record read back, and a record is its fields put together (R67 to R70). -/

namespace Sys2Proof.Machine

/-! The codes of types, ports, frame modes and flags (R67, R68, R70, R82). -/

@[simp] theorem tyOfCode_tyCode (t : Ty) : tyOfCode (tyCode t) = t := by cases t <;> rfl

theorem tyCode_lt (t : Ty) : tyCode t < 2 ^ 4 := by cases t <;> decide

theorem tyCode_tyOfCode (x : BitVec 4) : BitVec.ofNat 4 (tyCode (tyOfCode x.toNat)) = x := by revert x; decide

@[simp] theorem portOfCode_portCode (q : Port) : portOfCode (portCode q) = some q := by cases q <;> rfl

theorem portCode_lt (q : Port) : portCode q < 2 ^ 2 := by cases q <;> decide

@[simp] theorem fmOfCode_fmCode (m : FrameMode) : fmOfCode (fmCode m) = m := by cases m <;> rfl

theorem fmCode_lt (m : FrameMode) : fmCode m < 2 ^ 2 := by cases m <;> decide

@[simp] theorem flagBit_beq_one (b : Bool) : (flagBit b == 1) = b := by cases b <;> rfl

@[simp] theorem flagBit_of_bit (x : BitVec 1) : flagBit (x == 1) = x := by revert x; decide

/-! Fields of a word that is put together from parts, and a word put together from its fields. -/

theorem extractLsb'_append_above {v w lo len : Nat} {x : BitVec v} {y : BitVec w} {z : BitVec len} (h : x.extractLsb' lo len = z) :
    (x ++ y).extractLsb' (lo + w) len = z := by
  rw [BitVec.extractLsb'_append_eq_of_le (Nat.le_add_left w lo), Nat.add_sub_cancel, h]

theorem append_extractLsb' {w m lo len : Nat} {x : BitVec m} {y : BitVec w} (h : x = y.extractLsb' (lo + len) m) :
    x ++ y.extractLsb' lo len = y.extractLsb' lo (m + len) := by
  rw [h, BitVec.extractLsb'_append_extractLsb'_eq_extractLsb' rfl]

/-! Destinations (R68 to R70). -/

theorem decodeDest_encodeDest (d : Option Dest) : decodeDest (encodeDest d) (encodeFm d) = d := by
  match d with
  | none => rfl
  | some d =>
    let x := encodeDest (some d)
    have dx : x.extractLsb' 18 4 = d.dx := by
      iterate 3 apply extractLsb'_append_above
      exact BitVec.extractLsb'_eq_self
    have dy : x.extractLsb' 14 4 = d.dy := by
      iterate 2 apply extractLsb'_append_above
      exact BitVec.extractLsb'_append_eq_right
    have node : x.extractLsb' 2 12 = d.node := extractLsb'_append_above BitVec.extractLsb'_append_eq_right
    have port : x.extractLsb' 0 2 = BitVec.ofNat 2 (portCode d.port) := BitVec.extractLsb'_append_eq_right
    have code : (BitVec.ofNat 2 (portCode d.port)).toNat = portCode d.port := Nat.mod_eq_of_lt (portCode_lt d.port)
    have mode : (encodeFm (some d)).toNat = fmCode d.fm := Nat.mod_eq_of_lt (fmCode_lt d.fm)
    rw [decodeDest, port, code, portOfCode_portCode, dx, dy, node, mode, fmOfCode_fmCode]

/-! Records (R67). -/

theorem recBits_split (w : BitVec 96) (lo m len : Nat) : recBits w lo (m + len) = recBits w (lo + len) m ++ recBits w lo len :=
  (append_extractLsb' rfl).symm

section
variable (emits : Bool) (code : Nat) (n : Node)

theorem recBits_packNode :
    let w := packNode emits code n
    recBits w 87 9 = BitVec.ofNat 9 code ∧ recBits w 83 4 = BitVec.ofNat 4 (tyCode n.ty) ∧ recBits w 75 8 = n.slot ∧
    recBits w 53 22 = (if emits then encodeDest n.d0 else 0) ∧ recBits w 31 22 = (if emits then encodeDest n.d1 else 0) ∧
    recBits w 29 2 = (if emits then encodeFm n.d0 else 0) ∧ recBits w 27 2 = (if emits then encodeFm n.d1 else 0) ∧
    recBits w 26 1 = flagBit n.stR ∧ recBits w 20 6 = n.stCount ∧ recBits w 19 1 = flagBit n.epass ∧ recBits w 18 1 = flagBit n.litr ∧
    recBits w 17 1 = flagBit n.sense ∧ recBits w 16 1 = flagBit n.pred ∧ recBits w 0 16 = n.lit := by
  refine ⟨?opcode, ?_, ?_, ?_, ?_, ?_, ?_, ?_, ?_, ?_, ?_, ?_, ?_, ?_⟩
  case opcode =>
    iterate 13 apply extractLsb'_append_above
    exact BitVec.extractLsb'_eq_self
  all_goals
    repeat apply extractLsb'_append_above
    exact BitVec.extractLsb'_append_eq_right

theorem recOpcode_packNode {code : Nat} (h : code < 2 ^ 9) : recOpcode (packNode emits code n) = code := by
  rw [recOpcode, (recBits_packNode emits code n).1, BitVec.toNat_ofNat, Nat.mod_eq_of_lt h]

theorem decodeNode_packNode (h : emits = true ∨ n.d0 = none ∧ n.d1 = none) : decodeNode emits (packNode emits code n) = n := by
  obtain ⟨-, ty, slot, d0, d1, fm0, fm1, stR, stCount, epass, litr, sense, pred, lit⟩ := recBits_packNode emits code n
  have type : (BitVec.ofNat 4 (tyCode n.ty)).toNat = tyCode n.ty := Nat.mod_eq_of_lt (tyCode_lt n.ty)
  have dests : (if emits then n.d0 else none) = n.d0 ∧ (if emits then n.d1 else none) = n.d1 := by
    obtain rfl | ⟨e0, e1⟩ := h
    · exact ⟨rfl, rfl⟩
    · simp only [e0, e1, ite_self, and_self]
  have d0 : (if emits then decodeDest (recBits (packNode emits code n) 53 22) (recBits (packNode emits code n) 29 2) else none) = n.d0 := by
    cases emits with
    | true => simpa only [d0, fm0, if_true] using decodeDest_encodeDest n.d0
    | false => exact dests.1
  have d1 : (if emits then decodeDest (recBits (packNode emits code n) 31 22) (recBits (packNode emits code n) 27 2) else none) = n.d1 := by
    cases emits with
    | true => simpa only [d1, fm1, if_true] using decodeDest_encodeDest n.d1
    | false => exact dests.2
  simp only [decodeNode, d0, d1, ty, type, tyOfCode_tyCode, slot, stR, stCount, epass, litr, sense, pred, lit, flagBit_beq_one]

theorem destsClear_packNode : destsClear emits (packNode emits code n) = true := by
  obtain ⟨-, -, -, d0, d1, fm0, fm1, -⟩ := recBits_packNode emits code n
  cases emits with
  | true => simp [destsClear, d0, d1, fm0, fm1, decodeDest_encodeDest]
  | false =>
    have dests := recBits_split (packNode false code n) 31 22 22
    have modes := recBits_split (packNode false code n) 27 2 2
    rw [d0, d1] at dests
    rw [fm0, fm1] at modes
    simp [destsClear, dests, modes]
end

theorem append_recBits (w : BitVec 96) :
    recBits w 87 9 ++ recBits w 83 4 ++ recBits w 75 8 ++ recBits w 53 22 ++ recBits w 31 22 ++ recBits w 29 2 ++ recBits w 27 2 ++
      recBits w 26 1 ++ recBits w 20 6 ++ recBits w 19 1 ++ recBits w 18 1 ++ recBits w 17 1 ++ recBits w 16 1 ++ recBits w 0 16 = w := by
  refine Eq.trans ?_ (BitVec.extractLsb'_eq_self (w := 96))
  iterate 13 apply append_extractLsb'
  rfl

theorem recBits_zero {w : BitVec 96} {lo m len : Nat} (h : recBits w lo (m + len) = 0) : recBits w (lo + len) m = 0 ∧ recBits w lo len = 0 := by
  rw [recBits_split] at h
  exact ⟨by simpa [BitVec.extractLsb'_append_eq_left] using congrArg (BitVec.extractLsb' len m) h,
    by simpa [BitVec.extractLsb'_append_eq_right] using congrArg (BitVec.extractLsb' 0 len) h⟩

theorem packNode_decodeNode {emits : Bool} {w : BitVec 96} (h : destsClear emits w = true) :
    packNode emits (recOpcode w) (decodeNode emits w) = w := by
  refine Eq.trans ?_ (append_recBits w)
  have op : BitVec.ofNat 9 (recOpcode w) = recBits w 87 9 := by
    rw [recOpcode, BitVec.ofNat_toNat, BitVec.setWidth_eq]
  cases emits with
  | true =>
    simp only [destsClear, if_true, Bool.and_eq_true, beq_iff_eq] at h
    obtain ⟨⟨⟨d0, fm0⟩, d1⟩, fm1⟩ := h
    simp only [packNode, decodeNode, if_true, op, d0, fm0, d1, fm1, tyCode_tyOfCode, flagBit_of_bit]
  | false =>
    simp only [destsClear, Bool.false_eq_true, if_false, Bool.and_eq_true, beq_iff_eq] at h
    obtain ⟨d0, d1⟩ := recBits_zero (m := 22) (len := 22) h.1
    obtain ⟨fm0, fm1⟩ := recBits_zero (m := 2) (len := 2) h.2
    simp only [packNode, decodeNode, Bool.false_eq_true, if_false, op, d0, fm0, d1, fm1, tyCode_tyOfCode, flagBit_of_bit]

end Sys2Proof.Machine
end

section
/-! SUPPORT. The statement about the decoder and the encoder (R67 to R73, R106): one row of the opcode map for each node instruction. -/

namespace Sys2Proof.Machine

open Laws

theorem coding (i : Instr) : Coding.Statement i :=
  match i with
  | .nop n => Coding.nop n | .mov n => Coding.mov n | .const n => Coding.const n | .sink n => Coding.sink n | .switch n => Coding.switch n
  | .merge n => Coding.merge n | .gate n => Coding.gate n | .nullify n => Coding.nullify n | .isnull n => Coding.isnull n
  | .iserr n => Coding.iserr n | .errcode n => Coding.errcode n | .mkerr n => Coding.mkerr n | .frameof n => Coding.frameof n
  | .falloc n => Coding.falloc n | .ffree n => Coding.ffree n | .flink n => Coding.flink n | .send n => Coding.send n | .count n => Coding.count n
  | .relay n => Coding.relay n | .halt n => Coding.halt n | .add n => Coding.add n | .sub n => Coding.sub n | .neg n => Coding.neg n
  | .mul n => Coding.mul n | .mulh n => Coding.mulh n | .div n => Coding.div n | .rem n => Coding.rem n | .min n => Coding.min n
  | .max n => Coding.max n | .abs n => Coding.abs n | .and n => Coding.and n | .or n => Coding.or n | .xor n => Coding.xor n | .not n => Coding.not n
  | .shl n => Coding.shl n | .shr n => Coding.shr n | .sar n => Coding.sar n | .rotl n => Coding.rotl n | .clz n => Coding.clz n
  | .ctz n => Coding.ctz n | .popc n => Coding.popc n | .cmp n => Coding.cmp n | .sel n => Coding.sel n | .addsat n => Coding.addsat n
  | .subsat n => Coding.subsat n | .ext n => Coding.ext n | .ins n => Coding.ins n | .cvt n => Coding.cvt n | .idx n => Coding.idx n
  | .bnd n => Coding.bnd n | .fadd n => Coding.fadd n | .fsub n => Coding.fsub n | .fmul n => Coding.fmul n | .ffma n => Coding.ffma n
  | .fmin n => Coding.fmin n | .fmax n => Coding.fmax n | .fabs n => Coding.fabs n | .fneg n => Coding.fneg n | .fcmp n => Coding.fcmp n
  | .fcvt n => Coding.fcvt n | .frnd n => Coding.frnd n | .fclass n => Coding.fclass n | .fscl n => Coding.fscl n | .frcp n => Coding.frcp n
  | .frsq n => Coding.frsq n | .fsqrt n => Coding.fsqrt n | .fdiv n => Coding.fdiv n | .fexp2 n => Coding.fexp2 n | .flog2 n => Coding.flog2 n
  | .ftanh n => Coding.ftanh n | .fsigm n => Coding.fsigm n | .tadd n => Coding.tadd n | .tsub n => Coding.tsub n | .tmul n => Coding.tmul n
  | .tfma n => Coding.tfma n | .tmin n => Coding.tmin n | .tmax n => Coding.tmax n | .tabs n => Coding.tabs n | .tneg n => Coding.tneg n
  | .tscl n => Coding.tscl n | .tbias n => Coding.tbias n | .tclamp n => Coding.tclamp n | .tact n => Coding.tact n | .tred n => Coding.tred n
  | .ttr n => Coding.ttr n | .tbc n => Coding.tbc n | .tsel n => Coding.tsel n | .tcmp n => Coding.tcmp n | .tcpy n => Coding.tcpy n
  | .tview n => Coding.tview n | .tcond n => Coding.tcond n | .tcvt n => Coding.tcvt n | .trng n => Coding.trng n | .tfill n => Coding.tfill n
  | .tiota n => Coding.tiota n | .accNew n => Coding.accNew n | .accZero n => Coding.accZero n | .accFree n => Coding.accFree n
  | .accGet n => Coding.accGet n | .mma n => Coding.mma n | .mmaPair n => Coding.mmaPair n | .smma n => Coding.smma n
  | .accDrain n => Coding.accDrain n | .accRl n => Coding.accRl n | .rlIns n => Coding.rlIns n | .rlMerge n => Coding.rlMerge n
  | .rlOut n => Coding.rlOut n | .rlThr n => Coding.rlThr n | .ld n => Coding.ld n | .st n => Coding.st n | .ldt n => Coding.ldt n
  | .stt n => Coding.stt n | .tld n => Coding.tld n | .tst n => Coding.tst n | .talloc n => Coding.talloc n | .tref n => Coding.tref n
  | .trel n => Coding.trel n | .pumpGet n => Coding.pumpGet n | .pumpPut n => Coding.pumpPut n | .pumpXfer n => Coding.pumpXfer n
  | .pumpMcast n => Coding.pumpMcast n | .gather n => Coding.gather n | .scatter n => Coding.scatter n | .stream n => Coding.stream n
  | .atomAdd n => Coding.atomAdd n | .atomFadd n => Coding.atomFadd n | .atomMin n => Coding.atomMin n | .atomMax n => Coding.atomMax n
  | .atomAnd n => Coding.atomAnd n | .atomOr n => Coding.atomOr n | .atomXor n => Coding.atomXor n | .atomXchg n => Coding.atomXchg n
  | .atomCas n => Coding.atomCas n | .redAdd n => Coding.redAdd n | .redFadd n => Coding.redFadd n | .redMin n => Coding.redMin n
  | .redMax n => Coding.redMax n | .redAnd n => Coding.redAnd n | .redOr n => Coding.redOr n | .redXor n => Coding.redXor n
  | .phase n => Coding.phase n | .fence n => Coding.fence n | .afence n => Coding.afence n | .spawn n => Coding.spawn n | .join n => Coding.join n
  | .enq n => Coding.enq n | .deq n => Coding.deq n | .steal n => Coding.steal n | .qlen n => Coding.qlen n | .barArrive n => Coding.barArrive n
  | .barComb n => Coding.barComb n | .rcntAdd n => Coding.rcntAdd n | .rcntSnap n => Coding.rcntSnap n | .yield n => Coding.yield n
  | .trap n => Coding.trap n | .brk n => Coding.brk n | .evt n => Coding.evt n | .sysrd n => Coding.sysrd n | .syswr n => Coding.syswr n
  | .nrgRd n => Coding.nrgRd n | .seed n => Coding.seed n | .cfgLd n => Coding.cfgLd n | .cfgDrop n => Coding.cfgDrop n
  | .winOpen n => Coding.winOpen n | .winClose n => Coding.winClose n | .tokenArrival k => Coding.tokenArrival k
  | .coordinateToken k => Coding.coordinateToken k | .resultEmit b pe k => Coding.resultEmit b pe k | .readyAging b pe k => Coding.readyAging b pe k
  | .windowWrite req piece => Coding.windowWrite req piece | .windowAccessPerform req piece => Coding.windowAccessPerform req piece
  | .wellTranslate req => Coding.wellTranslate req | .pageWalkComplete b vf vpage => Coding.pageWalkComplete b vf vpage
  | .parkRefusedRetry req => Coding.parkRefusedRetry req | .fqctlReplay b parkid => Coding.fqctlReplay b parkid
  | .fqctlDrop b parkid => Coding.fqctlDrop b parkid | .fqctlBadOp b op parkid => Coding.fqctlBadOp b op parkid
  | .xbinvVf b vf => Coding.xbinvVf b vf | .xbinvVa b vf vpage => Coding.xbinvVa b vf vpage | .xbinvAll b => Coding.xbinvAll b
  | .xbinvBad b => Coding.xbinvBad b | .xbinvComplete b => Coding.xbinvComplete b | .vfrootWrite vf v => Coding.vfrootWrite vf v
  | .sectorAdmit req piece => Coding.sectorAdmit req piece | .sectorReturn req piece => Coding.sectorReturn req piece
  | .fetchReply b pe tag => Coding.fetchReply b pe tag | .inboundAccept req piece => Coding.inboundAccept req piece
  | .edgeCrossing req piece => Coding.edgeCrossing req piece | .sparseUpdateOp b ch => Coding.sparseUpdateOp b ch
  | .joinCounterUpdate b ch => Coding.joinCounterUpdate b ch | .eccWriteback cw => Coding.eccWriteback cw | .scrubStep b => Coding.scrubStep b
  | .phaseBoundary cfg => Coding.phaseBoundary cfg | .cisternFull b vf => Coding.cisternFull b vf | .blockInstall b md => Coding.blockInstall b md
  | .blockMetaRead b => Coding.blockMetaRead b | .bcctlBadOp b => Coding.bcctlBadOp b | .engineCompletion cmd => Coding.engineCompletion cmd
  | .streamElement cmd => Coding.streamElement cmd | .mcastLagExpire cmd => Coding.mcastLagExpire cmd | .pairMessage b pe => Coding.pairMessage b pe
  | .pairLimitExpire b pe k => Coding.pairLimitExpire b pe k | .barrierLimitExpire b pe node fp => Coding.barrierLimitExpire b pe node fp
  | .rngGeneratorServe b sl => Coding.rngGeneratorServe b sl | .starve b vf => Coding.starve b vf | .placementRetry cmd => Coding.placementRetry cmd
  | .launchTake b q => Coding.launchTake b q | .launchStart lid => Coding.launchStart lid | .launchQuiesce lid => Coding.launchQuiesce lid
  | .launchEnd lid => Coding.launchEnd lid | .queueControllerOp cmd => Coding.queueControllerOp cmd | .taskAccept task => Coding.taskAccept task
  | .dispatchDecision b => Coding.dispatchDecision b | .taskComplete task => Coding.taskComplete task
  | .hqrecCommit b p v => Coding.hqrecCommit b p v | .queueEnable b q v => Coding.queueEnable b q v | .qckeyWrite b v => Coding.qckeyWrite b v
  | .qcapRightsWrite b q v => Coding.qcapRightsWrite b q v | .quantumEnd b sl => Coding.quantumEnd b sl
  | .contextSave b sl => Coding.contextSave b sl | .contextRestore b sl crcOk => Coding.contextRestore b sl crcOk
  | .quantWrite b sl e v => Coding.quantWrite b sl e v | .slotownWrite b sl v => Coding.slotownWrite b sl v
  | .slotLend b sl vf => Coding.slotLend b sl vf | .slotReclaim b sl => Coding.slotReclaim b sl | .vfscopeWrite vf v => Coding.vfscopeWrite vf v
  | .energyFold b sl => Coding.energyFold b sl | .bhrstGo b rail hold => Coding.bhrstGo b rail hold | .bhrstRelease b => Coding.bhrstRelease b
  | .resetFenceDone b => Coding.resetFenceDone b | .resetRelockDone b => Coding.resetRelockDone b | .resetScrubDone b => Coding.resetScrubDone b
  | .bhctlWrite b v => Coding.bhctlWrite b v | .bhgateWrite b v => Coding.bhgateWrite b v | .wintabWrite b e word v => Coding.wintabWrite b e word v
  | .bhclkWrite b v => Coding.bhclkWrite b v | .clockLock b => Coding.clockLock b | .aptabWrite b a v => Coding.aptabWrite b a v
  | .frzctlRetry b m vf => Coding.frzctlRetry b m vf | .frzctlFail b m vf => Coding.frzctlFail b m vf
  | .frzctlFreeze b m vf => Coding.frzctlFreeze b m vf | .vfReset b vf => Coding.vfReset b vf | .dbgvalWrite b v => Coding.dbgvalWrite b v
  | .debugTokenDeliver k => Coding.debugTokenDeliver k | .attest b v => Coding.attest b v
  | .hostMemAccess write pa bytes => Coding.hostMemAccess write pa bytes | .spokeRequestReceive port fl => Coding.spokeRequestReceive port fl
  | .spokeReplyReceive port fl => Coding.spokeReplyReceive port fl | .doorDelivery port fl => Coding.doorDelivery port fl
  | .spokeNotice port fl => Coding.spokeNotice port fl | .spokeLinkUp port partner => Coding.spokeLinkUp port partner
  | .spokeLinkDown port => Coding.spokeLinkDown port | .thermalTrip b => Coding.thermalTrip b | .powerOnBringup => Coding.powerOnBringup
  | .registerWrite b off v => Coding.registerWrite b off v | .hostAcknowledgement req piece bytes => Coding.hostAcknowledgement req piece bytes
  | .discardedFlit port fl => Coding.discardedFlit port fl

/-- The opcode and the fields of a node instruction give it back by the opcode's row (R83). -/
theorem opInfo_of_instrNode {i : Instr} {code : Nat} {n : Node} (h : instrNode i = some (code, n)) :
    code < 2 ^ 9 ∧ ∃ o, opInfo code = some o ∧ o.make n = i := by
  have known := coding i
  simp only [Coding.Statement, h, Option.map_eq_some_iff] at known
  exact known

/-- The instruction that a row makes has the row's opcode and its fields, and no numbers of a machine step. -/
theorem opMap_make {o : OpInfo} (h : o ∈ opMap) (n : Node) : instrNode (o.make n) = some (o.code, n) ∧ eventWf (o.make n) = true := by
  simp only [opMap, List.mem_append] at h
  obtain ((((((h | h) | h) | h) | h) | h) | h) | h := h <;> fin_cases h <;> exact ⟨rfl, rfl⟩

theorem mem_of_opInfo {code : Nat} {o : OpInfo} (h : opInfo code = some o) : o ∈ opMap ∧ o.code = code :=
  ⟨List.mem_of_find?_eq_some h, beq_iff_eq.mp (List.find?_some (p := fun x : OpInfo => x.code == code) h)⟩

theorem wf_make {code : Nat} {o : OpInfo} (h : opInfo code = some o) (n : Node) : (o.make n).wf = (recordReason o n).isNone := by
  obtain ⟨mem, rfl⟩ := mem_of_opInfo h
  obtain ⟨node, event⟩ := opMap_make mem n
  simp only [Instr.wf, nodeWf, node, h, event, Bool.and_true]

theorem encode_make {code : Nat} {o : OpInfo} (h : opInfo code = some o) (n : Node) :
    encode (o.make n) = some (packNode (o.result != .nothing) code n) := by
  obtain ⟨mem, rfl⟩ := mem_of_opInfo h
  simp only [encode, (opMap_make mem n).1, h]

/-- Every instruction with a record is made by the row of an opcode of nine bits. -/
theorem made_of_encode {i : Instr} {w : BitVec 96} (h : encode i = some w) :
    ∃ code o n, code < 2 ^ 9 ∧ opInfo code = some o ∧ o.make n = i ∧ w = packNode (o.result != .nothing) code n := by
  cases node : instrNode i with
  | none => simp [encode, node] at h
  | some x =>
    obtain ⟨small, o, info, made⟩ := opInfo_of_instrNode node
    refine ⟨x.1, o, x.2, small, info, made, ?_⟩
    rw [← made, encode_make info] at h
    exact (Option.some.inj h).symm

/-- An accepted record of an opcode that emits nothing has no destination (R69). -/
theorem dests_of_accepted {o : OpInfo} {n : Node} (h : recordReason o n = none) : (o.result != .nothing) = true ∨ n.d0 = none ∧ n.d1 = none := by
  have clear : unusedClear o n = true := by
    by_contra bad
    rw [recordReason, if_pos (by simpa using bad)] at h
    exact Option.some_ne_none _ h
  simp only [unusedClear, Bool.and_eq_true, Bool.or_eq_true, Option.isNone_iff_eq_none] at clear
  exact clear.1.1

theorem decode_eq_ok_iff {w : BitVec 96} {i : Instr} : decode w = .ok i ↔ ∃ o, opInfo (recOpcode w) = some o ∧
    destsClear (o.result != .nothing) w = true ∧ recordReason o (decodeNode (o.result != .nothing) w) = none ∧
    o.make (decodeNode (o.result != .nothing) w) = i := by
  cases info : opInfo (recOpcode w) with
  | none => simp [decode, info]
  | some o =>
    cases clear : destsClear (o.result != .nothing) w with
    | false => simp [decode, info, clear]
    | true => cases reason : recordReason o (decodeNode (o.result != .nothing) w) <;> simp [decode, info, clear, reason]

theorem decode_encode {i : Instr} {w : BitVec 96} (wf : i.wf = true) (h : encode i = some w) : decode w = .ok i := by
  obtain ⟨code, o, n, small, info, rfl, rfl⟩ := made_of_encode h
  have accepted : recordReason o n = none := by rwa [wf_make info, Option.isNone_iff_eq_none] at wf
  have fields := decodeNode_packNode (o.result != .nothing) code n (dests_of_accepted accepted)
  rw [decode_eq_ok_iff, recOpcode_packNode _ n small]
  refine ⟨o, info, destsClear_packNode _ code n, ?_⟩
  rw [fields]
  exact ⟨accepted, rfl⟩

theorem encode_decode {w : BitVec 96} {i : Instr} (h : decode w = .ok i) : encode i = some w ∧ i.wf = true := by
  obtain ⟨o, info, clear, accepted, rfl⟩ := decode_eq_ok_iff.mp h
  rw [encode_make info, packNode_decodeNode clear, wf_make info, accepted]
  exact ⟨rfl, rfl⟩

/-- Settles O56: a node instruction is made from its fields by the one row of its opcode, and packing and reading the fields undo each other. -/
theorem decodeEncode : Obligations.DecodeEncode := by
  refine ⟨fun i w => decode_encode, fun w i => encode_decode, fun i node _ => ?_⟩
  obtain ⟨x, some_⟩ := Option.isSome_iff_exists.mp node
  obtain ⟨-, o, info, made⟩ := opInfo_of_instrNode some_
  rw [← made, encode_make info]
  rfl

end Sys2Proof.Machine
end

section
/-! SUPPORT. The statement about mkerr and send (R79, R222, R280, R282, R283): what a meaning that makes an error token enters, and what a target word names. -/

namespace Sys2Proof.Machine

open Host

/-! Errors that a meaning makes (R79). -/

/-- The error numbers of a firing that has left its queue are those before it (R79). -/
theorem newError_takeReady (s : State) (src code : Nat) :
    newError (takeReady s s.cur) src code = ((newError s src code).1, { takeReady s s.cur with errSeq := (newError s src code).2.errSeq }) := by
  unfold newError; rw [takeReady_errSeq]

/-- Error numbers play no part in the context of a firing. -/
theorem firingCtx_newError (s : State) (src x code : Nat) (n : Node) : firingCtx (newError s src x).2 code n = firingCtx s code n := rfl

/-- A meaning that numbers an error of its PE and enters its firing completes with what it entered, from the state with that number used (R79, R227). -/
theorem completes_of_newError {s : State} {i : Instr} {code : Nat} {n : Node} {k : Ctx → State → Option State} {x cls : Nat} {es : List Emit} {fx : List Effect}
    (hi : exec i s = .next (fire s code n k)) (h : performs s code n = true)
    (hk : k (firingCtx s code n) (takeReady s s.cur) =
      issueSimple (newError (takeReady s s.cur) (peSrc s.cur.bh s.cur.pe) x).2 (firingCtx s code n) cls es fx) :
    ∃ t, exec i s = .next t ∧ OnlyIssues (newError s (peSrc s.cur.bh s.cur.pe) x).2 t ∧ Issues s t (itemOf s code n 1 es (dropsOf s code n ++ fx) 0) := by
  have entered := issueSimple_takeReady (newError s (peSrc s.cur.bh s.cur.pe) x).2 code n cls es fx
  obtain ⟨placed, taken, stage⟩ := issuedState_issues (newError s (peSrc s.cur.bh s.cur.pe) x).2 code cls 1 n 1 es (dropsOf s code n ++ fx) 0
  refine ⟨_, ?_, issuedState_only _ code cls 1 n 1 es (dropsOf s code n ++ fx) 0, ⟨placed, taken, stage⟩⟩
  rw [hi, fire_perform s code n k h, hk, newError_takeReady]
  exact congrArg (fun u => Outcome.next (u.getD s)) entered

theorem errEmits_eq (n : Node) (v : Word) : errEmits n v = (toUsed n .err v, if usedDests n = [] then [.sinkErr v] else []) := by
  unfold errEmits toUsed
  cases usedDests n <;> rfl

/-! Target words (R282, R283). -/

theorem sextInt_toNat {w : Nat} (x : BitVec (w + 1)) : sextInt (w + 1) x.toNat = x.toInt := by
  have small : x.toNat % 2 ^ (w + 1) = x.toNat := Nat.mod_eq_of_lt x.isLt
  have half : x.toNat < 2 ^ (w + 1 - 1) ↔ 2 * x.toNat < 2 ^ (w + 1) := by rw [Nat.add_sub_cancel, Nat.pow_succ]; omega
  simp only [sextInt, small, half, BitVec.toInt_eq_toNat_cond]

theorem bits_one_toNat (v : Word) (i : Nat) : (bits v.toNat i 1 == 1) = v.getLsbD i := by
  rw [BitVec.getLsbD, Nat.testBit_eq_decide_div_mod_eq]; rfl

theorem bits_eq_iff (v : Word) (lo len : Nat) (x : BitVec len) : bits v.toNat lo len = x.toNat ↔ v.extractLsb' lo len = x := by
  rw [bits_toNat, BitVec.toNat_inj]

/-- The PE that a target word names, from the fields of R282; a bad word names none (R283). -/
theorem sendTarget_word (pe : Nat) (w : Word) : sendTarget pe w.toNat =
    let abs := w.getLsbD 32
    let x : Int := if abs then ((w.extractLsb' 33 4).toNat : Int) else ((pe % 16 : Nat) : Int) + (w.extractLsb' 10 4).toInt
    let y : Int := if abs then ((w.extractLsb' 37 5).toNat : Int) else ((pe / 16 : Nat) : Int) + (w.extractLsb' 14 4).toInt
    if w.extractLsb' 42 22 ≠ 0 ∨ w.extractLsb' 30 2 = 3 ∨ (abs = true ∧ w.extractLsb' 10 8 ≠ 0) ∨ x < 0 ∨ 15 < x ∨ y < 0 ∨ 31 < y then none
    else some (y * 16 + x).toNat := by
  have reserved : bits w.toNat 42 22 ≠ 0 ↔ w.extractLsb' 42 22 ≠ 0 := not_congr (bits_eq_iff w 42 22 0)
  have port : bits w.toNat 30 2 = 3 ↔ w.extractLsb' 30 2 = 3 := bits_eq_iff w 30 2 3
  have offsets : bits w.toNat 10 8 ≠ 0 ↔ w.extractLsb' 10 8 ≠ 0 := not_congr (bits_eq_iff w 10 8 0)
  simp only [sendTarget, reserved, port, offsets, bits_one_toNat]
  simp only [bits_toNat, sextInt_toNat]

/-- Every port code but 3 names a port (R68). -/
theorem portOfCode_isSome (x : BitVec 2) : x = 3 ∨ (portOfCode x.toNat).isSome = true := by revert x; decide

/-- A literal's low byte as the code of an error (R79, R280). -/
theorem newError_litBits (s : State) (src : Nat) (n : Node) : newError s src (litBits n 0 8) = newError s src n.lit.toNat := by
  have low : litBits n 0 8 % 256 = n.lit.toNat % 256 := by simp [litBits, bits]
  unfold newError
  rw [low]

/-- Settles O3: the error is numbered before the firing is entered, and the word's checks are those of its fields. -/
theorem madeErrorsAndSends : Obligations.MadeErrorsAndSends := by
  intro s n src bumped payload
  refine ⟨fun h => ?mkerr, ?send⟩
  case mkerr =>
    refine completes_of_newError (i := .mkerr n) (x := n.lit.toNat) (cls := 0) rfl h ?_
    simp only [errEmits_eq, firingCtx_bh, firingCtx_pe, newError_litBits, newError_takeReady]
    rfl
  case send =>
    intro h c w abs x y bad
    have target : sendTarget s.cur.pe w.toNat = if bad then none else some (y * 16 + x).toNat := sendTarget_word s.cur.pe w
    simp only [w, c] at target
    refine ⟨fun isBad => ?_, fun sound => ?_⟩
    · rw [if_pos isBad] at target
      refine completes_of_newError (i := .send n) (x := 0x05) (cls := 0) rfl h ?_
      simp only [firingCtx_bh, firingCtx_pe, target, newError_takeReady]
      rfl
    · rw [if_neg sound] at target
      obtain ⟨q, port⟩ := Option.isSome_iff_exists.mp ((portOfCode_isSome (w.extractLsb' 30 2)).resolve_left fun e => sound (.inr (.inl e)))
      refine ⟨q, port, completesWith_of_fire s _ 0x010 n 0 1 1 _ _ _ _ rfl h ?_⟩
      simp only [firingCtx_bh, firingCtx_pe, target, bits_toNat, port, issueSimple_takeReady, List.append_nil, w, c]

end Sys2Proof.Machine
end

section
/-! SUPPORT. The statement about node loads. Where a VF's context has been saved, what lands in a tile of it goes to its save area in memory (R39, R428), and the accesses of the
device show in WSTAT (R133): so does a tile load that its PE's stores supply whole, if the saved context holds a tile load's tag of the same number. -/

namespace Sys2Proof.Machine

open Host

/-! What lands (R57, R162). -/

/-- A store that holds every byte supplies all of them (R162). -/
theorem supplyMap_whole {mode len : Nat} {p : PStore} {get : PStore → Nat → Option Byte} {x : Byte} (holds : ∀ i < len, get p i = some x) :
    supplyMap mode [p] len get = (List.range len).map fun i => (i, x) := by
  rw [← List.filterMap_eq_map]
  refine List.filterMap_congr fun i h => ?_
  have held := holds i (List.mem_range.mp h)
  simp only [List.filter_cons, List.filter_nil, held, Option.isSome_some, if_true, storeBest, Option.bind_some, Option.map_some, Function.comp_apply]

/-- A byte that is supplied is there. -/
theorem byteThere_supplied {r : Req} {len : Nat} {x : Byte} (supply : r.supply = (List.range len).map fun i => (i, x)) {i : Nat} (h : i < len) :
    byteThere r i = true := by
  have supplied : (r.supply.any fun e => e.1 == i) = true := by
    rw [supply]
    exact List.any_eq_true.mpr ⟨(i, x), List.mem_map.mpr ⟨i, List.mem_range.mpr h, rfl⟩, beq_self_eq_true i⟩
  rw [byteThere, supplied, Bool.true_or]

/-- Where the save directory names no block, what lands there reads the directory and stores nothing (R428). -/
theorem landAway_closed {s : State} {b pe vf : Nat} (closed : bitAt (saveWord (saveMeet s vf b (slotOf pe)) vf b (slotOf pe)) 0 = false) (off : Nat) (bs : List Byte) :
    landAway s b pe vf off bs = saveMeet s vf b (slotOf pe) := by
  unfold landAway
  simp only [closed, Bool.not_false, if_true]

/-- A fold of steps each of which leads to one state, and keeps it. -/
theorem foldl_to {α β : Type} {f : α → β → α} {a c : α} (first : ∀ x, f a x = c) (next : ∀ x, f c x = c) {l : List β} (h : l ≠ []) : l.foldl f a = c := by
  obtain ⟨x, xs, rfl⟩ := List.exists_cons_of_ne_nil h
  rw [List.foldl_cons, first]
  exact List.foldl_fixed' next xs

/-- Bytes that are all there land in the granules that they fill (R57). -/
theorem landBytes_eq {s : State} {r : Req} {b i row n : Nat} {e : HEntry} (place : landing s r = some (b, i, e, row))
    (there : ∀ k < 16 * n, byteThere r k = true) (pos : 0 < n) :
    landBytes s r 0 (16 * n) = (List.range n).foldl (fun t g =>
      let bs := (List.range 16).map fun k => reqByte r (16 * g + k)
      let o := rowOffset e.pages (row + g / 32) + 16 * g % 512
      if standsIn t b i r.vf then modPE t b i fun p => tileWrite p o bs else landAway t b i r.vf o bs) s := by
  have last : (0 + 16 * n - 1) / 16 + 1 - 0 / 16 = n := by omega
  have all : ((List.range n).map fun k => 0 / 16 + k).filter (fun g => (List.range 16).all fun k => byteThere r (16 * g + k)) = List.range n := by
    rw [show ((List.range n).map fun k => 0 / 16 + k) = List.range n by simp]
    refine List.filter_eq_self.mpr fun g hg => List.all_eq_true.mpr fun k hk => there _ ?_
    have := List.mem_range.mp hg
    have := List.mem_range.mp hk
    omega
  have nonzero : ¬16 * n = 0 := by omega
  simp only [landBytes, place, nonzero, if_false, last, all]

/-- Away from its VF, each of them lands where the VF's context was saved (R39). -/
theorem landBytes_away {s c : State} {r : Req} {b i row n : Nat} {e : HEntry} (place : landing s r = some (b, i, e, row)) (there : ∀ k < 16 * n, byteThere r k = true)
    (pos : 0 < n) (away : standsIn s b i r.vf = false ∧ standsIn c b i r.vf = false)
    (closed : ∀ off bs, landAway s b i r.vf off bs = c ∧ landAway c b i r.vf off bs = c) : landBytes s r 0 (16 * n) = c := by
  rw [landBytes_eq place there pos]
  refine foldl_to (fun g => ?_) (fun g => ?_) (List.ne_nil_of_length_pos (by rwa [List.length_range]))
  · simp only [away.1, Bool.false_eq_true, if_false, (closed _ _).1]
  · simp only [away.2, Bool.false_eq_true, if_false, (closed _ _).2]
/-- A tile load that is supplied whole as it issues lands, and asks memory for nothing (R160, R187). -/
theorem nodeLoad_tile {s : State} {c : Ctx} {va n mode : Nat} {t : Tag} (whole : (nodeReq s c.f va n mode (.tag t.id)).supply.length = n) (code : c.code = 0x144) :
    nodeLoad s c va n mode t = sendReq (landBytes (charge (tagEnter s t) c.f.bh c.f.pe 8 (sectorsOf va n)) (nodeReq s c.f va n mode (.tag t.id)) 0 n)
      { nodeReq s c.f va n mode (.tag t.id) with st := .finished } := by
  unfold nodeLoad
  dsimp only
  rw [if_pos whole, if_pos code]

/-- A tld that performs, with a tag and a tile free, issues its load (R187). -/
theorem tld_issues {s u : State} {n : Node} {e : TidEntry} {h : Nat} (fires : performs s 0x144 n = true)
    (tid : tidEntry (takeReady s s.cur) (firingCtx s 0x144 n).f.vf (litBits n 0 10) = some e) (room : tagRoom (takeReady s s.cur) (firingCtx s 0x144 n).f = true)
    (alloc : allocTile (takeReady s s.cur) (firingCtx s 0x144 n).f (firingCtx s 0x144 n).f.pe e.tid e.rows true = some (h, u)) :
    exec (.tld n) s = .next (nodeLoad u (firingCtx s 0x144 n) (payloadAt (firingCtx s 0x144 n).f .l).toNat (512 * e.rows) 2
      (newTag u (firingCtx s 0x144 n) h 0)) := by
  have run : exec (.tld n) s = .next (fire s 0x144 n _) := rfl
  rw [run, fire_perform s 0x144 n _ fires]
  simp only [tid, room, alloc, Bool.not_true, Bool.false_eq_true, if_false, Option.getD_some]

theorem LoadSent.regs {s t : State} {code : Nat} {n : Node} {va len mode : Nat} (h : LoadSent s t code n va len mode) : t.regs = s.regs := by
  obtain ⟨_, _, -, -, -, -, -, -, -, -, -, -, -, -, -, -, -, -, -, -, -, regs, -⟩ := h
  exact regs

theorem sendReq_regs (s : State) (r : Req) : (sendReq s r).regs = s.regs := rfl

/-! The state. -/

/-- A pending store of PE 0, of 512 bytes of 5 at address 4096. -/
def awayStore : PStore :=
  { sid := 0, bh := 0, pe := 0, vf := 0, lid := 0, cfg := 0, phase := 0, wave := 0, lsid := 0, task := none, va := 4096, bytes := List.replicate 512 5,
    parts := [(0, 4096, 512, false, false)], early := false, shared := 33, tag := none, leaving := none, payer := 0 }

/-- A record of tld for a tile of TID 0, with one destination. -/
def awayNode : Node := ⟨.n64, 0, some ⟨0, 0, 1, .l, .cur⟩, none, false, 0, false, false, false, false, 0⟩

/-- TID 0: tiles of one row. -/
def awayTid : TidEntry := { tid := 0, fmt := .f32, form := 0, planes := 0, rows := 1, scale := 0, ibase := 0 }

/-- Its firing, with address 4096. -/
def awayFiring : Firing := { Firing.empty with l := some { kind := .value, payload := 4096 } }

/-- The saved context of VF 0: on PE 0 a tile load's tag of number 1 and its tile. -/
def awaySaved : Saved :=
  { vf := 0, bh := 0, sl := 0, slot := Slot.empty, links := [], units := []
    pes := [(0, { PE.empty with
      handles := [(0, { HEntry.empty with kind := .tile, pages := [0] })]
      fetch := [{ id := 1, st := .issued, f := awayFiring, code := 0x144, node := awayNode, dests := [], hidx := 0, wave := 0, row := 0, flags := 0, err := none }] })] }

/-- The configuration of its firing, over PE 0. -/
def awayCfg : Placed :=
  { id := 0, vf := 0, bh := 0, ox := 0, oy := 0, w := 1, h := 1, nbase := 0, ncount := 1, mode := 0, respat := 2, wavemask := 0, lid := 0, root := false, image := 0,
    tids := [awayTid], descs := [], pols := [], valid := true, boundary := 0, arrivals := [], pePhase := [], waveNext := 1, waveSeen := [], outs := [], keys := [],
    phNodes := [] }

/-- The firing stands on PE 0 while the slot holds no VF. VF 0 has its RCB at address 0, and its save directory names no block; block 0 of memory is RAW. -/
def awayState : State :=
  { State.reset with
    regs := [(regKey 0 0x12400, 1)], bmeta := [(0, mdRaw)], pes := [(0, { PE.empty with ready := [awayFiring] })], cfgs := [awayCfg], stores := [awayStore],
    saved := [awaySaved], cur := awayFiring }

/-- The load as it issues: the context, the state with the new tile, its tag, its request, the state in which its bytes land, and that state after one access to the save directory. -/
def awayCtx : Ctx := firingCtx awayState 0x144 awayNode
def awayTile : State := ((allocTile (takeReady awayState awayState.cur) awayCtx.f awayCtx.f.pe 0 1 true).map (·.2)).getD awayState
def awayTag : Tag := newTag awayTile awayCtx 0 0
def awayReq : Req := nodeReq awayTile awayCtx.f (payloadAt awayCtx.f .l).toNat 512 2 (.tag awayTag.id)
def awaySent : State := charge (tagEnter awayTile awayTag) awayCtx.f.bh awayCtx.f.pe 8 (sectorsOf (payloadAt awayCtx.f .l).toNat 512)
def awayMet : State := saveMeet awaySent 0 0 (slotOf 0)

theorem awayReq_supply : awayReq.supply = (List.range 512).map fun i => (i, 5) := by
  have stores : supplyStores awayTile 0 0 0 0 awayTile.nextId = [awayStore] := by decide +kernel
  have byVa : supplyPhys awayTile 0 0 0 = false := by decide +kernel
  have whose : awayCtx.f.bh = 0 ∧ awayCtx.f.pe = 0 ∧ awayCtx.f.vf = 0 ∧ awayCtx.f.cfg = 0 := by decide +kernel
  have address : (payloadAt awayCtx.f .l).toNat = 4096 := by decide +kernel
  have config : cfgAt awayTile 0 = some awayCfg := by decide +kernel
  have phase : accessPhase awayCfg 0 = 0 := by decide +kernel
  obtain ⟨bh, pe, vf, cfg⟩ := whose
  unfold awayReq nodeReq supplyNow reqFor
  simp only [bh, pe, vf, cfg, address, config, phase, byVa, stores, ne_eq, not_true_eq_false, Option.isSome_none, Bool.false_eq_true, or_self, if_false]
  refine supplyMap_whole fun i h => ?_
  have offset : (4096 % 2 ^ 64 + i + 2 ^ 64 - awayStore.va) % 2 ^ 64 = i := by
    have : awayStore.va = 4096 := rfl
    omega
  rw [storeByteVa, offset]
  exact List.getElem?_replicate.trans (if_pos h)

/-- The bytes of the load land, and the access to the directory is counted (R133). -/
theorem away_lands : landBytes awaySent awayReq 0 512 = awayMet := by
  refine landBytes_away (b := 0) (i := 0) (row := 0) (n := 32) (e := { HEntry.empty with kind := .tile, pages := [0] }) (by decide +kernel)
    (fun k h => byteThere_supplied awayReq_supply h) (by decide) ⟨by decide +kernel, by decide +kernel⟩ fun off bs => ⟨?_, ?_⟩
  · exact landAway_closed (by decide +kernel) off bs
  · exact (landAway_closed (by decide +kernel) off bs).trans (by decide +kernel)

/-- The tld issues, and its bytes land. -/
theorem away_issues : exec (.tld awayNode) awayState = .next (sendReq awayMet { awayReq with st := .finished }) := by
  have tid : (tidEntry (takeReady awayState awayState.cur) awayCtx.f.vf (litBits awayNode 0 10)) = some awayTid := by decide +kernel
  have room : tagRoom (takeReady awayState awayState.cur) awayCtx.f = true := by decide +kernel
  have alloc : allocTile (takeReady awayState awayState.cur) awayCtx.f awayCtx.f.pe awayTid.tid awayTid.rows true = some (0, awayTile) := by decide +kernel
  have whole : awayReq.supply.length = 512 := by rw [awayReq_supply, List.length_map, List.length_range]
  rw [tld_issues (by decide +kernel) tid room alloc, ← away_lands]
  exact congrArg Outcome.next (nodeLoad_tile whole (firingCtx_code _ _ _))

/-- Refutes O25: VF 0 is away, and its saved context holds a tile load's tag with the number that the new one takes; the bytes of the new one, supplied whole, land there, and
WSTAT counts the access to the save directory, where the statement says that no register changes. -/
theorem not_nodeLoadsAreSent : ¬ Obligations.NodeLoadsAreSent := by
  intro all
  obtain ⟨-, -, tld⟩ := all awayState awayNode (by decide +kernel)
  obtain ⟨t, h, step, sent, -⟩ := tld awayTid (by decide +kernel) (by decide +kernel) (by decide +kernel)
  have regs := sent.regs
  have same : t = sendReq awayMet { awayReq with st := .finished } := Outcome.next.inj (step.symm.trans away_issues)
  have counted : awayMet.regs ≠ awayState.regs := by decide +kernel
  rw [same, sendReq_regs] at regs
  exact counted regs

end Sys2Proof.Machine
end

section
/-! SUPPORT. The statement about launches. A launch queue with a number of no queue (R369 has 4096 of them) has its registers among those of the next bulkhead: where they are the
count of that bulkhead's sector slots (R133), the access that reads the queue's record moves the ring. -/

namespace Sys2Proof.Machine

open Host

/-- The number under which a queue of bulkhead 0 has its registers at WSTAT of bulkhead 1. -/
def strayQueue : Nat := 518272

/-- Bulkhead 0 runs. WSTAT of bulkhead 1 reads as the first register of an enabled launch queue with one place, whose ring stands at the start of stack 1; the register behind it
says that the ring holds one record. Memory, RAW where it is read, holds a record of zeros there, and one of the image at address 1 where the ring stands once WSTAT.PEAK has risen. -/
def strayState : State :=
  { State.reset with
    regs := [(regKey 0 0x20008, 0x10), (regKey 0 0x20010, 0x400), (regKey 1 0x11000, 0x1000000005), (regKey 1 0x11008, 0x100000000)]
    mem := [(2 ^ 36 + 6 * 2 ^ 16, 1)]
    bmeta := [(2 ^ 25, mdRaw), (2 ^ 25 + 6 * 2 ^ 5, mdRaw)] }

/-- The image of a launch after a step. -/
def imageAfter (o : Outcome State Fault Refusal) (lid : Nat) : Option Nat :=
  match o with
  | .next t => (launchAt t lid).map (·.image)
  | _ => none

/-- No codeword of the state is in error, and each of its blocks is RAW or ZERO. -/
theorem strayState_clean : cleanMemory strayState := by
  refine ⟨fun _ => rfl, fun blk => ?_⟩
  unfold blockMeta strayState
  simp only [sget]
  split
  · decide
  · split <;> decide

theorem stray_takes : imageAfter (exec (.launchTake 0 strayQueue) strayState) 0 = some 1 := by decide +kernel

/-- Refutes O49: a queue number beyond the 4096 queues of a bulkhead names registers of another, WSTAT among them. The record that the statement speaks of is read first, for its
RCB; that access raises WSTAT.PEAK, and with it the address of the ring, so that the launch is made of another record. -/
theorem not_launchesProceed : ¬ Obligations.LaunchesProceed := by
  unfold Obligations.LaunchesProceed
  rintro ⟨-, take, -⟩
  obtain ⟨t, step, found, -⟩ := take strayState 0 strayQueue (by decide +kernel) (by decide +kernel) (by decide +kernel) (by decide +kernel)
    strayState_clean (by decide +kernel)
  have image : recWord (memBytes strayState (qEntry strayState 0 strayQueue (qHead strayState 0 strayQueue)) 128) 0 = 0 := by decide +kernel
  have lid : 0 * 2 ^ 12 + (getBulk strayState 0).lidNext % 2 ^ 12 = 0 := by decide +kernel
  rw [lid] at found
  have given : (launchAt t 0).map (·.image) = some 0 := by
    rw [found, ← image]
    rfl
  have made : (launchAt t 0).map (·.image) = some 1 := by
    rw [← stray_takes, step]
    rfl
  exact absurd (given.symm.trans made) (by decide)

end Sys2Proof.Machine
end

section
/-! SUPPORT. What a step keeps (PackageInv): the forms in which a new state is made, and commands, which come, go and change under rising
numbers (R119, R372, R439). -/

namespace Sys2Proof.Machine

/-- What an optional result holds, at `p` of it, keeps the invariants. -/
def OptInv {α : Type} (p : α → State) (o : Option α) : Prop := ∀ x, o = some x → PackageInv (p x)

/-- The next state that an outcome answers, where it answers one, keeps the invariants. -/
def OutInv (o : Host.Outcome State Fault Refusal) : Prop := ∀ t, o = .next t → PackageInv t

theorem ite_inv {c : Prop} [Decidable c] {s t : State} (hs : PackageInv s) (ht : PackageInv t) : PackageInv (if c then s else t) := by
  split <;> assumption

theorem ite_fst_inv {β : Type} {c : Prop} [Decidable c] {s t : State × β} (hs : PackageInv s.1) (ht : PackageInv t.1) :
    PackageInv (if c then s else t).1 := by
  split <;> assumption

theorem ite_snd_inv {β : Type} {c : Prop} [Decidable c] {s t : β × State} (hs : PackageInv s.2) (ht : PackageInv t.2) :
    PackageInv (if c then s else t).2 := by
  split <;> assumption

theorem ite_snd_snd_inv {β γ : Type} {c : Prop} [Decidable c] {s t : β × γ × State} (hs : PackageInv s.2.2) (ht : PackageInv t.2.2) :
    PackageInv (if c then s else t).2.2 := by
  split <;> assumption

section
variable {α : Type} {p : α → State}

theorem optInv_none : OptInv p none := fun _ e => nomatch e

theorem optInv_some {x : α} (h : PackageInv (p x)) : OptInv p (some x) := fun _ e => Option.some.inj e ▸ h

theorem optInv_ite {c : Prop} [Decidable c] {a b : Option α} (ha : OptInv p a) (hb : OptInv p b) : OptInv p (if c then a else b) := by
  split <;> assumption

end

theorem getD_inv {o : Option State} {s : State} (ho : OptInv id o) (h : PackageInv s) : PackageInv (o.getD s) := by
  cases o with
  | none => exact h
  | some t => exact ho t rfl

theorem outInv_next {s : State} (h : PackageInv s) : OutInv (.next s) := fun _ e => Host.Outcome.next.inj e ▸ h

theorem outInv_fault {x : Fault} : OutInv (.fault x) := fun _ e => nomatch e

theorem outInv_ite {c : Prop} [Decidable c] {a b : Host.Outcome State Fault Refusal} (ha : OutInv a) (hb : OutInv b) : OutInv (if c then a else b) := by
  split <;> assumption

theorem foldl_inv {α : Type} {f : State → α → State} {l : List α} {s : State} (hf : ∀ t x, PackageInv t → PackageInv (f t x)) (h : PackageInv s) :
    PackageInv (l.foldl f s) := by
  induction l generalizing s with
  | nil => exact h
  | cons x l ih => exact ih (hf s x h)

theorem foldl_fst_inv {α β : Type} {f : State × β → α → State × β} {l : List α} {a : State × β}
    (hf : ∀ a x, PackageInv a.1 → PackageInv (f a x).1) (h : PackageInv a.1) : PackageInv (l.foldl f a).1 := by
  induction l generalizing a with
  | nil => exact h
  | cons x l ih => exact ih (hf a x h)

theorem foldl_snd_inv {α β : Type} {f : β × State → α → β × State} {l : List α} {a : β × State}
    (hf : ∀ a x, PackageInv a.2 → PackageInv (f a x).2) (h : PackageInv a.2) : PackageInv (l.foldl f a).2 := by
  induction l generalizing a with
  | nil => exact h
  | cons x l ih => exact ih (hf a x h)

/-- A change of any other part of the state keeps the invariants. -/
theorem frame_inv {s : State} {r nr bm ec ps sl li bh cf la ta ve rc fl ij rq st sa es ev so vd pw cu ag fr} (h : PackageInv s) :
    PackageInv ⟨r, nr, s.mem, bm, ec, ps, sl, li, bh, cf, la, ta, ve, rc, fl, ij, rq, s.cmds, st, sa, es, ev, so, vd, pw, cu, ag, fr, s.nextId⟩ := h

/-- Commands may be replaced under their ids or go, and the next number may rise. -/
theorem sublist_inv {s t : State} (h : PackageInv s) (hm : Memory.wf t.mem = true)
    (hc : (t.cmds.map fun c => c.id).Sublist (s.cmds.map fun c => c.id)) (hn : s.nextId ≤ t.nextId) : PackageInv t := by
  obtain ⟨_, rising, below⟩ := h
  refine ⟨hm, rising.sublist hc, fun c hin => ?_⟩
  obtain ⟨c', hin', e⟩ := List.mem_map.mp (hc.subset (List.mem_map_of_mem hin))
  exact e ▸ Nat.lt_of_lt_of_le (below c' hin') hn

/-- An access of the device's own touches no command. -/
theorem access_inv {s t : State} (a : OnlyAccess s t) (hm : Memory.wf t.mem = true) (h : PackageInv s) : PackageInv t := by
  obtain ⟨_, _, _, _, _, _, rfl⟩ := a
  exact ⟨hm, h.2⟩

/-- Commands may go while anything but memory and the next number changes. -/
theorem filter_inv {s : State} {q : Cmd → Bool} {r nr bm ec ps sl li bh cf la ta ve rc fl ij rq st sa es ev so vd pw cu ag fr} (h : PackageInv s) :
    PackageInv ⟨r, nr, s.mem, bm, ec, ps, sl, li, bh, cf, la, ta, ve, rc, fl, ij, rq, s.cmds.filter q, st, sa, es, ev, so, vd, pw, cu, ag, fr,
      s.nextId⟩ :=
  sublist_inv h h.1 (List.filter_sublist.map _) (Nat.le_refl _)

theorem foldl_nextId {α : Type} {f : State → α → State} (hf : ∀ t x, (f t x).nextId = t.nextId) (l : List α) (s : State) :
    (l.foldl f s).nextId = s.nextId := by
  induction l generalizing s with
  | nil => rfl
  | cons x l ih => exact (ih _).trans (hf s x)

/-- A command takes the next number, and stands behind those that have smaller ones. -/
theorem entered_inv {s t : State} {c : Cmd} (h : PackageInv s) (hm : t.mem = s.mem) (hc : t.cmds = s.cmds ++ [c]) (e : c.id = s.nextId)
    (hn : t.nextId = s.nextId + 1) : PackageInv t := by
  obtain ⟨wf, rising, below⟩ := h
  refine ⟨hm ▸ wf, ?_, fun x hin => ?_⟩
  · rw [hc, List.map_append, List.pairwise_append]
    refine ⟨rising, List.pairwise_singleton _ _, fun a ha b hb => ?_⟩
    obtain ⟨x, hx, rfl⟩ := List.mem_map.mp ha
    obtain rfl : b = c.id := List.mem_singleton.mp hb
    exact e ▸ below x hx
  · rw [hn]
    rcases List.mem_append.mp (hc ▸ hin) with old | new
    · exact Nat.lt_succ_of_lt (below x old)
    · rw [List.mem_singleton.mp new, e]
      exact Nat.lt_succ_self _

theorem mk_snd_inv {α : Type} {x : α} {s : State} (h : PackageInv s) : PackageInv (x, s).2 := h

end Sys2Proof.Machine
end

section
/-! SUPPORT. The stores of the package keep the invariants: registers, HBM and what the device meets there, events, budgets, the stores of a
PE, the translation buffer. -/

namespace Sys2Proof.Machine

theorem memPut_inv {s : State} {a bs} (h : PackageInv s) : PackageInv (memPut s a bs) := ⟨memPut_wf s a bs h.1, h.2⟩
theorem regPut_inv {s : State} {b off v} (h : PackageInv s) : PackageInv (regPut s b off v) := frame_inv h
theorem regSetBits_inv {s : State} {b off lo len v} (h : PackageInv s) : PackageInv (regSetBits s b off lo len v) := regPut_inv h
theorem setPE_inv {s : State} {b pe p} (h : PackageInv s) : PackageInv (setPE s b pe p) := h
theorem modPE_inv {s : State} {b pe f} (h : PackageInv s) : PackageInv (modPE s b pe f) := h
theorem setSlot_inv {s : State} {b sl x} (h : PackageInv s) : PackageInv (setSlot s b sl x) := h
theorem modSlot_inv {s : State} {b sl f} (h : PackageInv s) : PackageInv (modSlot s b sl f) := h
theorem modBulk_inv {s : State} {b f} (h : PackageInv s) : PackageInv (modBulk s b f) := h
theorem modCtx_inv {s : State} {b pe vf f} (h : PackageInv s) : PackageInv (modCtx s b pe vf f) := ite_inv (modPE_inv h) (frame_inv h)
theorem drawn_inv {s : State} (h : PackageInv s) : PackageInv (drawn s) := h
theorem newId_inv {s : State} (h : PackageInv s) : PackageInv (newId s) := sublist_inv h h.1 (.refl _) (Nat.le_succ _)
theorem eccPut_inv {s : State} {cw en} (h : PackageInv s) : PackageInv (eccPut s cw en) := h
theorem eccClear_inv {s : State} {cw n} (h : PackageInv s) : PackageInv (eccClear s cw n) := h

theorem blockWrite_inv {s : State} {comp pa bs mask} (h : PackageInv s) : PackageInv (blockWrite s comp pa bs mask).1 :=
  access_inv (blockWrite_only s comp pa bs mask).access (blockWrite_wf s comp pa bs mask h.1) h

theorem blockZero_inv {s : State} {blk} (h : PackageInv s) : PackageInv (blockZero s blk) := ⟨blockZero_wf s blk h.1, h.2⟩
theorem newError_inv {s : State} {src code} (h : PackageInv s) : PackageInv (newError s src code).2 := h

theorem enterRcb_inv {active k} {s : State} {addr} (h : PackageInv s) : PackageInv (enterRcb active k s addr) := by
  induction k generalizing s addr with
  | zero => exact h
  | succ k ih => exact ite_inv h (frame_inv (ite_inv h (ih h)))

theorem rcbActivate_inv {s : State} {addr} (h : PackageInv s) : PackageInv (rcbActivate s addr) := enterRcb_inv h
theorem rcbNote_inv {s : State} {addr} (h : PackageInv s) : PackageInv (rcbNote s addr) := enterRcb_inv h
theorem rcbRetire_inv {s : State} {hit} (h : PackageInv s) : PackageInv (rcbRetire s hit) := h
theorem budgetMove_inv {s : State} {addr k up down} (h : PackageInv s) : PackageInv (budgetMove s addr k up down) := h
theorem launchPut_inv {s : State} {l} (h : PackageInv s) : PackageInv (launchPut s l) := h
theorem tasksDrop_inv {s : State} {hit} (h : PackageInv s) : PackageInv (tasksDrop s hit) := frame_inv (foldl_inv (fun _ _ g => budgetMove_inv g) h)
theorem charge_inv {s : State} {b pe cls count} (h : PackageInv s) : PackageInv (charge s b pe cls count) := ite_inv h (modSlot_inv h)

theorem freezeUnit_inv {s : State} {b skind idx vf why} (h : PackageInv s) : PackageInv (freezeUnit s b skind idx vf why) :=
  ite_inv (modBulk_inv h) (frame_inv h)

theorem freezeMaster_inv {s : State} {b m vf why} (h : PackageInv s) : PackageInv (freezeMaster s b m vf why) := by
  unfold freezeMaster
  split
  · exact modCtx_inv h
  · exact freezeUnit_inv h

theorem poisonReport_inv {s : State} {b vf known cw n} (h : PackageInv s) : PackageInv (poisonReport s b vf known cw n) :=
  access_inv (poisonReport_access s b vf known cw n) (poisonReport_wf s b vf known cw n h.1) h

theorem countCorrected_inv {s : State} {b cw} (h : PackageInv s) : PackageInv (countCorrected s b cw) :=
  access_inv (countCorrected_access s b cw) (countCorrected_wf s b cw h.1) h

theorem meetCw_inv {b vf known} {s : State} {cw} (h : PackageInv s) : PackageInv (meetCw b vf known s cw) :=
  access_inv (meetCw_access b vf known s cw) (meetCw_wf b vf known s cw h.1) h

theorem meetSectors_inv {s : State} {vf known blk secs} (h : PackageInv s) : PackageInv (meetSectors s vf known blk secs) :=
  access_inv (meetSectors_access s vf known blk secs) (meetSectors_wf s vf known blk secs h.1) h

theorem meetWrite_inv {s : State} {vf known comp pa bs mask} (h : PackageInv s) : PackageInv (meetWrite s vf known comp pa bs mask) :=
  access_inv (meetWrite_access s vf known comp pa bs mask) (meetWrite_wf s vf known comp pa bs mask h.1) h

theorem ownMeet_inv {s : State} {vf known pa n} (h : PackageInv s) : PackageInv (ownMeet s vf known pa n) :=
  access_inv (ownMeet_access s vf known pa n) (ownMeet_wf s vf known pa n h.1) h

theorem ownPulse_inv {s : State} {b k} (h : PackageInv s) : PackageInv (ownMeet.ownPulse s b k) :=
  access_inv (ownPulse_access s b k) (ownPulse_wf s b k h.1) h

theorem ownTry_inv {s : State} {vf known pa bs} (h : PackageInv s) : PackageInv (ownTry s vf known pa bs).1 :=
  access_inv (ownTry_access s vf known pa bs) (ownTry_wf s vf known pa bs h.1) h

theorem ownPut_inv {s : State} {vf pa bs} (h : PackageInv s) : PackageInv (ownPut s vf pa bs) := ownTry_inv h

theorem rcbMeet_inv {k} {s : State} {addr} (h : PackageInv s) : PackageInv (rcbMeet k s addr) :=
  access_inv (rcbMeet_access k s addr) (rcbMeet_wf k s addr h.1) h

theorem rcbUse_inv {s : State} {addr} (h : PackageInv s) : PackageInv (rcbUse s addr) := rcbActivate_inv (ite_inv (ownMeet_inv h) (rcbMeet_inv h))
theorem ownWord_inv {s : State} {vf pa} (h : PackageInv s) : PackageInv (ownWord s vf pa).1 := ownMeet_inv h
theorem rcbKnow_inv {s : State} {addr} (h : PackageInv s) : PackageInv (rcbKnow s addr) := rcbNote_inv (rcbMeet_inv h)
theorem ownWrite_inv {s : State} {pa bs} (h : PackageInv s) : PackageInv (ownWrite s pa bs) := ownTry_inv h
theorem memPutLe_inv {s : State} {pa n v} (h : PackageInv s) : PackageInv (memPutLe s pa n v) := ownWrite_inv h

theorem postEvent_inv {s : State} {src b vf lid code payload} (h : PackageInv s) : PackageInv (postEvent s src b vf lid code payload) :=
  access_inv (postEvent_access s src b vf lid code payload) (postEvent_wf s src b vf lid code payload h.1) h

theorem orVfFlags_inv {s : State} {vf fl} (h : PackageInv s) : PackageInv (orVfFlags s vf fl) :=
  ite_inv h (ite_inv (regPut_inv h) (ite_inv h (memPutLe_inv (ownWord_inv h))))

theorem creditFlags_inv {s : State} {vf lid fl} (h : PackageInv s) : PackageInv (creditFlags s vf lid fl) := by
  unfold creditFlags
  dsimp only
  split
  · exact orVfFlags_inv h
  · exact launchPut_inv (orVfFlags_inv h)

theorem cfgPut_inv {s : State} {c} (h : PackageInv s) : PackageInv (cfgPut s c) := h
theorem outsForget_inv {s : State} {b pe vf hd gen} (h : PackageInv s) : PackageInv (outsForget s b pe vf hd gen) := h

theorem freeEntry_inv {s : State} {b pe hd} (h : PackageInv s) : PackageInv (freeEntry s b pe hd) :=
  ite_inv (outsForget_inv (budgetMove_inv (setPE_inv h))) (budgetMove_inv (setPE_inv h))

theorem dropRef_inv {s : State} {b pe hd gen n} (h : PackageInv s) : PackageInv (dropRef s b pe hd gen n) := h
theorem freeUnnamed_inv {s : State} {b pe} (h : PackageInv s) : PackageInv (freeUnnamed s b pe) := foldl_inv (fun _ _ g => freeEntry_inv g) h
theorem dropToken_inv {s : State} {b pe k v n} (h : PackageInv s) : PackageInv (dropToken s b pe k v n) := ite_inv (dropRef_inv h) h
theorem addRef_inv {s : State} {b pe hd n} (h : PackageInv s) : OptInv id (addRef s b pe hd n) := optInv_ite optInv_none (optInv_some (setPE_inv h))

theorem allocTile_inv {s : State} {f pe tid rows pend} (h : PackageInv s) : OptInv Prod.snd (allocTile s f pe tid rows pend) := by
  unfold allocTile
  dsimp only
  split
  · exact optInv_none
  · exact optInv_ite optInv_none (optInv_some (budgetMove_inv (setPE_inv h)))

theorem allocAcc_inv {s : State} {f n e0} (h : PackageInv s) : OptInv Prod.snd (allocAcc s f n e0) := by
  unfold allocAcc
  dsimp only
  split
  · exact optInv_none
  · exact optInv_ite optInv_none (optInv_some (budgetMove_inv (setPE_inv h)))

theorem frameAlloc_inv {s : State} {c cls site lid task root} (h : PackageInv s) : OptInv Prod.snd (frameAlloc s c cls site lid task root) := by
  unfold frameAlloc
  dsimp only
  split
  · exact optInv_none
  · exact optInv_ite optInv_none (optInv_some (ite_inv (budgetMove_inv (foldl_inv (fun _ _ g => modPE_inv g) h))
      (cfgPut_inv (budgetMove_inv (foldl_inv (fun _ _ g => modPE_inv g) h)))))

theorem frameDrop_inv {s : State} {b pe fp cls} (h : PackageInv s) : PackageInv (frameDrop s b pe fp cls) :=
  foldl_inv (fun _ _ g => ite_inv (dropToken_inv g) g) h

theorem frameFree_inv {s : State} {b pe fp} (h : PackageInv s) : PackageInv (frameFree s b pe fp) := by
  unfold frameFree
  split
  · exact h
  · refine budgetMove_inv ?_
    split
    · exact foldl_inv (fun _ _ g => modPE_inv (frameDrop_inv g)) h
    · exact modPE_inv (foldl_inv (fun _ _ g => modPE_inv (frameDrop_inv g)) h)

theorem draw_inv {s : State} (h : PackageInv s) : PackageInv (draw s).2 := h
theorem gateError_inv {s : State} {z code} (h : PackageInv s) : PackageInv (gateError s z code).2 := h

theorem gateEvents_inv {s : State} {z vf lid pa kind} (h : PackageInv s) : PackageInv (gateEvents s z vf lid pa kind) :=
  postEvent_inv (postEvent_inv h)

theorem tlbFill_inv {s : State} {b vf va pte lv} (h : PackageInv s) : PackageInv (tlbFill s b vf va pte lv) := h
theorem saveMeet_inv {s : State} {vf b sl} (h : PackageInv s) : PackageInv (saveMeet s vf b sl) := ite_inv h (ownMeet_inv (ownWord_inv h))

end Sys2Proof.Machine
end

section
/-! SUPPORT. The issue of a firing, and the meanings of classes 1 to 4, keep the invariants (R221 to R227). -/

namespace Sys2Proof.Machine

theorem readyDiscard_inv {s : State} {b pe gone} (h : PackageInv s) : PackageInv (readyDiscard s b pe gone) := h

theorem sinkCount_inv {s : State} {b vf lid payload} (h : PackageInv s) : PackageInv (sinkCount s b vf lid payload) := by
  unfold sinkCount
  split
  · exact postEvent_inv (launchPut_inv h)
  · exact postEvent_inv h

theorem haltLaunch_inv {s : State} {lid status} (h : PackageInv s) : PackageInv (haltLaunch s lid status) := by
  unfold haltLaunch
  split
  · exact h
  · refine ite_inv h ?_
    dsimp only
    split
    · exact tasksDrop_inv (foldl_inv (fun _ _ g => foldl_inv (fun _ _ k => frameFree_inv k) g) (foldl_inv (fun _ _ g => readyDiscard_inv g) h))
    · exact launchPut_inv (tasksDrop_inv (foldl_inv (fun _ _ g => foldl_inv (fun _ _ k => frameFree_inv k) g)
        (foldl_inv (fun _ _ g => readyDiscard_inv g) h)))

theorem toSink_inv {s : State} {b vf lid payload} (h : PackageInv s) : PackageInv (toSink s b vf lid payload) :=
  ite_inv (haltLaunch_inv (sinkCount_inv h)) (sinkCount_inv h)

theorem takeFault_inv {s : State} {b m src vf lid task why code payload} (h : PackageInv s) :
    PackageInv (takeFault s b m src vf lid task why code payload) :=
  ite_inv (haltLaunch_inv (postEvent_inv h)) (freezeMaster_inv (postEvent_inv h))

theorem releaseMaster_inv {s : State} {b m} (h : PackageInv s) : PackageInv (releaseMaster s b m) := by
  unfold releaseMaster
  split
  · exact modPE_inv h
  · exact modBulk_inv h

theorem sendFlight_inv {s : State} {t srcBh srcPe vc c lid} (h : PackageInv s) : PackageInv (sendFlight s t srcBh srcPe vc c lid) := h

theorem emitTo_inv {s : State} {f c d kind payload vc1} (h : PackageInv s) : PackageInv (emitTo s f c d kind payload vc1) := by
  unfold emitTo
  refine ite_inv (ite_inv (sendFlight_inv (newError_inv h)) (ite_inv (sendFlight_inv h) ?_)) (sendFlight_inv h)
  split
  · next e =>
    exact sendFlight_inv (addRef_inv h _ e)
  · exact sendFlight_inv (newError_inv h)

theorem takeReady_inv {s : State} {f} (h : PackageInv s) : PackageInv (takeReady s f) := h
theorem pushItem_inv {s : State} {it} (h : PackageInv s) : PackageInv (pushItem s it) := newId_inv (modPE_inv h)

theorem pushWriting_inv {s : State} {f n lat es fx fl w writes} (h : PackageInv s) : PackageInv (pushWriting s f n lat es fx fl w writes) :=
  pushItem_inv h

theorem pushOutcome_inv {s : State} {f n es fx} (h : PackageInv s) : PackageInv (pushOutcome s f n es fx) := pushItem_inv h
theorem pushIssued_inv {s : State} {f n lat es fx fl w} (h : PackageInv s) : PackageInv (pushIssued s f n lat es fx fl w) := pushWriting_inv h
theorem pushReply_inv {s : State} {f n lat ds k v fx fl} (h : PackageInv s) : PackageInv (pushReply s f n lat ds k v fx fl) := pushIssued_inv h
theorem holdUnit_inv {s : State} {f u cycles} (h : PackageInv s) : PackageInv (holdUnit s f u cycles) := h

theorem waveMark_inv {s : State} {f lsid} (h : PackageInv s) : PackageInv (waveMark s f lsid) := by
  unfold waveMark
  split
  · exact ite_inv h (cfgPut_inv h)
  · exact h

theorem storeMark_inv {s : State} {code f n} (h : PackageInv s) : PackageInv (storeMark s code f n) := ite_inv (waveMark_inv h) h

theorem finishVerdict_inv {s : State} {code f n v} (h : PackageInv s) : PackageInv (finishVerdict s code f n v) := by
  unfold finishVerdict
  dsimp only
  split
  · exact pushOutcome_inv (storeMark_inv (charge_inv h))
  · exact pushOutcome_inv (storeMark_inv (charge_inv h))
  · exact pushOutcome_inv (newError_inv (charge_inv h))
  · exact charge_inv h

theorem raiseFlags_inv {s : State} {f fl} (h : PackageInv s) : PackageInv (raiseFlags s f fl) :=
  ite_inv (creditFlags_inv h) (postEvent_inv (creditFlags_inv h))

/-- The issue of a firing: its meaning, or what its outcome of steps 1 to 5 does. -/
theorem fireAs_inv {s : State} {o n miss k} (h : PackageInv s) (hm : ∀ c t, PackageInv t → PackageInv (miss c t))
    (hk : ∀ c t, PackageInv t → OptInv id (k c t)) : PackageInv (fireAs s o n miss k) := by
  refine ite_inv h ?_
  split
  · exact getD_inv (hk _ _ (takeReady_inv h)) h
  · exact hm _ _ (finishVerdict_inv (takeReady_inv h))

theorem fireWith_inv {s : State} {code n miss k} (h : PackageInv s) (hm : ∀ c t, PackageInv t → PackageInv (miss c t))
    (hk : ∀ c t, PackageInv t → OptInv id (k c t)) : PackageInv (fireWith s code n miss k) := by
  unfold fireWith
  split
  · exact h
  · exact fireAs_inv h hm hk

theorem fire_inv {s : State} {code n k} (h : PackageInv s) (hk : ∀ c t, PackageInv t → OptInv id (k c t)) : PackageInv (fire s code n k) :=
  fireWith_inv h (fun _ _ g => g) hk

theorem failCode_inv {s : State} {c code} (h : PackageInv s) : OptInv id (failCode s c code) := optInv_some (finishVerdict_inv h)

theorem scalarIssue_inv {s : State} {c lat cls unit pipe r} (h : PackageInv s) : OptInv id (scalarIssue s c lat cls unit pipe r) := by
  unfold scalarIssue
  refine optInv_ite optInv_none (optInv_some (pushIssued_inv (charge_inv ?_)))
  split
  · exact holdUnit_inv h
  · exact h

theorem fireSimple_inv {s : State} {code n g} (h : PackageInv s) : PackageInv (fireSimple s code n g) := fire_inv h (fun _ _ g => scalarIssue_inv g)
theorem fireMul_inv {s : State} {code n g} (h : PackageInv s) : PackageInv (fireMul s code n g) := fire_inv h (fun _ _ g => scalarIssue_inv g)
theorem fireDiv_inv {s : State} {code n g} (h : PackageInv s) : PackageInv (fireDiv s code n g) := fire_inv h (fun _ _ g => scalarIssue_inv g)

theorem fireFloat_inv {s : State} {code n lat g} (h : PackageInv s) : PackageInv (fireFloat s code n lat g) :=
  fire_inv h (fun _ _ g => scalarIssue_inv g)

theorem fireFdiv_inv {s : State} {code n lat g} (h : PackageInv s) : PackageInv (fireFdiv s code n lat g) :=
  fire_inv h (fun _ _ g => scalarIssue_inv g)

theorem fireSpecial_inv {s : State} {code n g} (h : PackageInv s) : PackageInv (fireSpecial s code n g) :=
  fire_inv h (fun _ _ g => scalarIssue_inv g)

theorem issueSimple_inv {s : State} {c cls es fx} (h : PackageInv s) : OptInv id (issueSimple s c cls es fx) :=
  optInv_some (pushIssued_inv (charge_inv h))

theorem tileIssue_inv {s : State} {c tid rows fl lat unit hold cls count mk} (h : PackageInv s) :
    OptInv id (tileIssue s c tid rows fl lat unit hold cls count mk) := by
  unfold tileIssue
  refine optInv_ite optInv_none ?_
  split
  · exact optInv_none
  · next e =>
    exact optInv_some (pushIssued_inv (charge_inv (holdUnit_inv (modPE_inv (allocTile_inv h _ e)))))

theorem vectorIssue_inv {s : State} {c tid rows fl extra} (h : PackageInv s) : OptInv id (vectorIssue s c tid rows fl extra) := tileIssue_inv h

theorem elementwise_inv {s : State} {code n useR useP bitop} (h : PackageInv s) : PackageInv (elementwise s code n useR useP bitop) := by
  unfold elementwise
  refine fire_inv h (fun _ _ g => ?_)
  dsimp only
  split
  · exact failCode_inv g
  · exact optInv_ite (failCode_inv g) (vectorIssue_inv g)

theorem execTscl_inv {s : State} {n} (h : PackageInv s) : OutInv (execTscl n s) := by
  unfold execTscl
  refine outInv_next (fire_inv h (fun _ _ g => ?_))
  split
  · exact failCode_inv g
  · exact optInv_ite (failCode_inv g) (vectorIssue_inv g)

theorem execTbias_inv {s : State} {n} (h : PackageInv s) : OutInv (execTbias n s) := by
  unfold execTbias
  refine outInv_next (fire_inv h (fun _ _ g => ?_))
  split
  · exact optInv_ite (failCode_inv g) (vectorIssue_inv g)
  · exact failCode_inv g

theorem execTclamp_inv {s : State} {n} (h : PackageInv s) : OutInv (execTclamp n s) := by
  unfold execTclamp
  refine outInv_next (fire_inv h (fun _ _ g => ?_))
  split
  · exact failCode_inv g
  · exact optInv_ite (failCode_inv g) (vectorIssue_inv g)

theorem execTact_inv {s : State} {n} (h : PackageInv s) : OutInv (execTact n s) := by
  unfold execTact
  refine outInv_next (fire_inv h (fun _ _ g => ?_))
  split
  · exact failCode_inv g
  · exact optInv_ite (failCode_inv g) (optInv_ite (vectorIssue_inv g) (tileIssue_inv g))

theorem execTred_inv {s : State} {n} (h : PackageInv s) : OutInv (execTred n s) := by
  unfold execTred
  refine outInv_next (fire_inv h (fun _ _ g => ?_))
  split
  · exact optInv_ite (failCode_inv g) (tileIssue_inv g)
  · exact failCode_inv g

theorem rearrange_inv {s : State} {code n lat hold g} (h : PackageInv s) : PackageInv (rearrange s code n lat hold g) := by
  unfold rearrange
  refine fire_inv h (fun _ _ g => ?_)
  split
  · exact optInv_ite (failCode_inv g) (tileIssue_inv g)
  · exact failCode_inv g

theorem execTsel_inv {s : State} {n} (h : PackageInv s) : OutInv (execTsel n s) := by
  unfold execTsel
  refine outInv_next (fire_inv h (fun _ _ g => ?_))
  split
  · exact optInv_ite (failCode_inv g) (vectorIssue_inv g)
  · exact failCode_inv g

theorem execTcmp_inv {s : State} {n} (h : PackageInv s) : OutInv (execTcmp n s) := by
  unfold execTcmp
  refine outInv_next (fire_inv h (fun _ _ g => ?_))
  split
  · exact failCode_inv g
  · exact optInv_ite (failCode_inv g) (vectorIssue_inv g)

theorem execTcpy_inv {s : State} {n} (h : PackageInv s) : OutInv (execTcpy n s) := by
  unfold execTcpy
  refine outInv_next (fire_inv h (fun _ _ g => ?_))
  split
  · exact failCode_inv g
  · exact optInv_ite (failCode_inv g) (tileIssue_inv g)

theorem execTview_inv {s : State} {n} (h : PackageInv s) : OutInv (execTview n s) := by
  unfold execTview
  refine outInv_next (fire_inv h (fun _ _ g => ?_))
  split
  · exact optInv_ite (failCode_inv g) (optInv_ite (optInv_ite optInv_none (optInv_some (pushIssued_inv (charge_inv (holdUnit_inv (modPE_inv g))))))
      (tileIssue_inv g))
  · exact failCode_inv g

theorem execTcond_inv {s : State} {n} (h : PackageInv s) : OutInv (execTcond n s) := by
  unfold execTcond
  refine outInv_next (fire_inv h (fun _ _ g => ?_))
  dsimp only
  split
  · exact optInv_ite (failCode_inv g) (tileIssue_inv g)
  · exact failCode_inv g

theorem execTcvt_inv {s : State} {n} (h : PackageInv s) : OutInv (execTcvt n s) := by
  unfold execTcvt
  refine outInv_next (fire_inv h (fun _ _ g => ?_))
  dsimp only
  split
  · exact optInv_ite (failCode_inv g) (tileIssue_inv g)
  · exact failCode_inv g

theorem execTrng_inv {s : State} {n} (h : PackageInv s) : OutInv (execTrng n s) := by
  unfold execTrng
  refine outInv_next (fire_inv h (fun _ _ g => ?_))
  split
  · exact failCode_inv g
  · split
    · exact optInv_none
    · next e2 =>
      exact optInv_some (pushIssued_inv (charge_inv (modSlot_inv (allocTile_inv g _ e2))))

theorem filled_inv {s : State} {code n g} (h : PackageInv s) : PackageInv (filled s code n g) := by
  unfold filled
  refine fire_inv h (fun _ _ g => ?_)
  split
  · exact failCode_inv g
  · exact vectorIssue_inv g

theorem comboFail_inv {s : State} {c reason l r amode} (h : PackageInv s) : PackageInv (comboFail s c reason l r amode) :=
  finishVerdict_inv (postEvent_inv h)

theorem comboOut_inv {s : State} {c reason l r amode} (h : PackageInv s) : OptInv id (comboOut s c reason l r amode) :=
  optInv_some (comboFail_inv h)

theorem issueAcc_inv {s : State} {c lat es fx fl ws} (h : PackageInv s) : OptInv id (issueAcc s c lat es fx fl ws) :=
  optInv_some (pushWriting_inv (charge_inv h))

theorem execAccNew_inv {s : State} {n} (h : PackageInv s) : OutInv (execAccNew n s) := by
  unfold execAccNew
  refine outInv_next (fire_inv h (fun _ _ g => ?_))
  dsimp only
  split
  · exact optInv_none
  · next e1 =>
    exact issueAcc_inv (ite_inv (modPE_inv (allocAcc_inv g _ e1)) (allocAcc_inv g _ e1))

theorem execAccGet_inv {s : State} {n} (h : PackageInv s) : OutInv (execAccGet n s) := by
  unfold execAccGet
  refine outInv_next (fire_inv h (fun _ _ g => ?_))
  refine optInv_ite (comboOut_inv g) (optInv_ite (optInv_ite (failCode_inv g) (issueAcc_inv g)) (optInv_ite (failCode_inv g) ?_))
  split <;> exact issueAcc_inv g

theorem mergeSums_inv {s : State} {b pe hd sets} (h : PackageInv s) : PackageInv (mergeSums s b pe hd sets).1 := h
theorem holdArray_inv {s : State} {n f steps} (h : PackageInv s) : PackageInv (holdArray s n f steps) := h

theorem execMma_inv {s : State} {n} (h : PackageInv s) : OutInv (execMma n s) := by
  unfold execMma
  refine outInv_next (fire_inv h (fun _ _ g => ?_))
  refine optInv_ite optInv_none ?_
  split
  · split
    · exact comboOut_inv g
    · exact optInv_ite (optInv_some (pushWriting_inv (charge_inv (modPE_inv g))))
        (optInv_ite optInv_none (optInv_some (pushWriting_inv (charge_inv (holdArray_inv (modPE_inv (mergeSums_inv g)))))))
  · exact comboOut_inv g

theorem addEffect_inv {s : State} {b pe fx} (h : PackageInv s) : PackageInv (addEffect s b pe fx) := h
theorem pairMiss_inv {s : State} {c} (h : PackageInv s) : PackageInv (pairMiss c s) := ite_inv (modPE_inv h) (addEffect_inv h)

theorem pairPerform_inv {c} {t : State} (h : PackageInv t) : OptInv id (pairPerform c t) := by
  unfold pairPerform
  dsimp only
  split
  · exact optInv_none
  · split
    · split
      · exact optInv_some (pairMiss_inv (comboFail_inv h))
      · exact optInv_ite optInv_none (optInv_ite (optInv_some (pushWriting_inv (charge_inv (holdUnit_inv h))))
          (optInv_some (pushIssued_inv (charge_inv (holdUnit_inv h)))))
    · exact optInv_some (pairMiss_inv (comboFail_inv h))

theorem execMmaPair_inv {s : State} {n} (h : PackageInv s) : OutInv (execMmaPair n s) := by
  unfold execMmaPair
  split
  · exact outInv_next h
  · exact outInv_ite (outInv_next h) (outInv_next (fireAs_inv h (fun _ _ g => pairMiss_inv g) (fun _ _ g => pairPerform_inv g)))

theorem smmaFinish_inv {s : State} {it taken start} (h : PackageInv s) : PackageInv (smmaFinish s it taken start) := by
  unfold smmaFinish
  dsimp only
  split
  · exact ite_inv (modPE_inv (newError_inv h)) (modPE_inv (mergeSums_inv h))
  · exact h

theorem coordStep_inv {s : State} {b pe node fp} (h : PackageInv s) : PackageInv (coordStep s b pe node fp) := by
  unfold coordStep
  dsimp only
  split
  · exact h
  · split
    · exact h
    · exact setPE_inv h
    · split
      · exact setPE_inv h
      · split
        · exact ite_inv (smmaFinish_inv (setPE_inv h)) (setPE_inv h)
        · exact h

theorem coordCycle_inv {s : State} {b pe} (h : PackageInv s) : PackageInv (coordCycle s b pe) := foldl_inv (fun _ _ g => coordStep_inv g) h
theorem smmaMiss_inv {s : State} {c} (h : PackageInv s) : PackageInv (smmaMiss c s) := h

theorem execSmma_inv {s : State} {n} (h : PackageInv s) : OutInv (execSmma n s) := by
  unfold execSmma
  refine outInv_next (fireWith_inv h (fun _ _ g => smmaMiss_inv g) (fun _ _ g => ?_))
  dsimp only
  split
  · split
    · exact optInv_some (smmaMiss_inv (comboFail_inv g))
    · exact optInv_ite optInv_none (optInv_some (pushWriting_inv (charge_inv g)))
  · exact optInv_some (smmaMiss_inv (comboFail_inv g))

theorem execAccDrain_inv {s : State} {n} (h : PackageInv s) : OutInv (execAccDrain n s) := by
  unfold execAccDrain
  refine outInv_next (fire_inv h (fun _ _ g => ?_))
  refine optInv_ite (comboOut_inv g) ?_
  split
  · exact tileIssue_inv g
  · exact comboOut_inv g

theorem insertIssue_inv {s : State} {c q lat offers fl} (h : PackageInv s) : OptInv id (insertIssue s c q lat offers fl) :=
  optInv_ite optInv_none (issueAcc_inv (holdUnit_inv (modPE_inv h)))

theorem execAccRl_inv {s : State} {n} (h : PackageInv s) : OutInv (execAccRl n s) := by
  unfold execAccRl
  refine outInv_next (fire_inv h (fun _ _ g => ?_))
  refine optInv_ite (comboOut_inv g) (optInv_ite (comboOut_inv g) ?_)
  split
  · exact comboOut_inv g
  · exact insertIssue_inv g

theorem execRlIns_inv {s : State} {n} (h : PackageInv s) : OutInv (execRlIns n s) := by
  unfold execRlIns
  refine outInv_next (fire_inv h (fun _ _ g => ?_))
  dsimp only
  split
  · exact comboOut_inv g
  · exact optInv_ite (comboOut_inv g) (optInv_ite (comboOut_inv g) (optInv_ite (comboOut_inv g) (optInv_ite (comboOut_inv g) (insertIssue_inv g))))

theorem execRlMerge_inv {s : State} {n} (h : PackageInv s) : OutInv (execRlMerge n s) := by
  unfold execRlMerge
  refine outInv_next (fire_inv h (fun _ _ g => ?_))
  dsimp only
  split
  · exact comboOut_inv g
  · exact optInv_ite (comboOut_inv g) (optInv_ite (comboOut_inv g) (optInv_ite (comboOut_inv g) (insertIssue_inv g)))

theorem execRlOut_inv {s : State} {n} (h : PackageInv s) : OutInv (execRlOut n s) := by
  unfold execRlOut
  refine outInv_next (fire_inv h (fun _ _ g => ?_))
  refine optInv_ite (comboOut_inv g) (optInv_ite (comboOut_inv g) ?_)
  split
  · exact comboOut_inv g
  · exact tileIssue_inv g

end Sys2Proof.Machine
end

section
/-! SUPPORT. Requests, stores and the meanings of class 5 keep the invariants (R112 to R120, R159 to R213). -/

namespace Sys2Proof.Machine

theorem reqPut_inv {s : State} {r} (h : PackageInv s) : PackageInv (reqPut s r) := h
theorem reqDel_inv {s : State} {id} (h : PackageInv s) : PackageInv (reqDel s id) := h
theorem sendReq_inv {s : State} {r} (h : PackageInv s) : PackageInv (sendReq s r) := newId_inv (frame_inv h)
theorem newParkId_inv {s : State} {b} (h : PackageInv s) : PackageInv (newParkId s b).2 := h

theorem parkReq_inv {s : State} {r reason level addr} (h : PackageInv s) : PackageInv (parkReq s r reason level addr) := by
  unfold parkReq
  refine ite_inv (reqPut_inv h) ?_
  dsimp only
  split
  · exact newId_inv (reqPut_inv h)
  · exact postEvent_inv (newId_inv (reqPut_inv (modBulk_inv (newParkId_inv h))))

theorem tagFollow_inv {s : State} {r tag} (h : PackageInv s) : PackageInv (tagFollow s r tag) := by
  unfold tagFollow
  split
  · exact modCtx_inv h
  · exact h

theorem landAway_inv {s : State} {b pe vf off bs} (h : PackageInv s) : PackageInv (landAway s b pe vf off bs) :=
  ite_inv (saveMeet_inv h) (ownPut_inv (ownMeet_inv (ownPut_inv (saveMeet_inv h))))

theorem landBytes_inv {s : State} {r off len} (h : PackageInv s) : PackageInv (landBytes s r off len) := by
  unfold landBytes
  split
  · exact h
  · exact foldl_inv (fun _ _ g => ite_inv (modPE_inv g) (landAway_inv g)) h

theorem entriesBack_inv {s : State} {p} (h : PackageInv s) : PackageInv (entriesBack s p) := h

theorem dropStores_inv {s : State} {gone} (h : PackageInv s) : PackageInv (dropStores s gone) :=
  foldl_inv (fun _ _ g => entriesBack_inv g) (frame_inv h)

theorem protFault_inv {s : State} {r reason level addr} (h : PackageInv s) : PackageInv (protFault s r reason level addr) := by
  unfold protFault
  dsimp only
  split
  · exact ite_inv (dropStores_inv (ite_inv (reqDel_inv (takeFault_inv h)) (reqPut_inv (takeFault_inv h))))
      (ite_inv (reqDel_inv (takeFault_inv h)) (reqPut_inv (takeFault_inv h)))
  · exact ite_inv (reqDel_inv (takeFault_inv h)) (reqPut_inv (takeFault_inv h))

theorem reqJudge_inv {s : State} {r} (h : PackageInv s) : PackageInv (reqJudge s r) := by
  unfold reqJudge
  dsimp only
  split
  · exact ite_inv (tagFollow_inv (parkReq_inv h)) (protFault_inv h)
  · split
    · exact tagFollow_inv (reqDel_inv (frame_inv h))
    · exact landBytes_inv (drawn_inv (tagFollow_inv (reqPut_inv h)))

theorem wellTake_inv {s : State} {r} (h : PackageInv s) : PackageInv (wellTake s r) :=
  ite_inv h (ite_inv h (ite_inv (reqJudge_inv h) (reqPut_inv (modBulk_inv h))))

theorem reqAgain_inv {s : State} {r} (h : PackageInv s) : PackageInv (reqAgain s r) := newId_inv (reqPut_inv h)
theorem wstatRefresh_inv {s : State} {b} (h : PackageInv s) : PackageInv (wstatRefresh s b) := regPut_inv h
theorem piecePut_inv {s : State} {r p} (h : PackageInv s) : PackageInv (piecePut s r p) := h

theorem pieceDone_inv {s : State} {r p bs bad err fl} (h : PackageInv s) : PackageInv (pieceDone s r p bs bad err fl) :=
  landBytes_inv (reqPut_inv h)

theorem newReqError_inv {s : State} {r src code} (h : PackageInv s) : PackageInv (newReqError s r src code).2 := ite_snd_inv h (newError_inv h)

theorem pubPoison_inv {s : State} {r blk} (h : PackageInv s) : PackageInv (pubPoison s r blk) := by
  unfold pubPoison
  split
  · exact postEvent_inv h
  · exact h

theorem answerRead_inv {s : State} {r0 blk} (h : PackageInv s) : PackageInv (answerRead s r0 blk) := reqPut_inv (ite_snd_inv (newReqError_inv h) h)

theorem performBlock_inv {s : State} {r0 blk} (h : PackageInv s) : PackageInv (performBlock s r0 blk) :=
  ite_inv (reqPut_inv (ite_snd_inv (ite_inv (pubPoison_inv (blockWrite_inv (meetWrite_inv h))) (blockWrite_inv (meetWrite_inv h)))
      (newReqError_inv (ite_inv (pubPoison_inv (blockWrite_inv (meetWrite_inv h))) (blockWrite_inv (meetWrite_inv h))))))
      (foldl_inv (fun _ _ g => answerRead_inv g) (meetSectors_inv h))

theorem performWindow_inv {s : State} {r p} (h : PackageInv s) : PackageInv (performWindow s r p).1 :=
  ite_fst_inv (ite_fst_inv (setPE_inv h) (newReqError_inv (setPE_inv h)))
      (ite_fst_inv (newReqError_inv (ite_inv (modPE_inv h) h)) (ite_inv (modPE_inv h) h))

theorem unitMeet_inv {s : State} {vf comp pa n} (h : PackageInv s) : PackageInv (unitMeet s vf comp pa n) :=
  ite_inv (ownPulse_inv (foldl_inv (fun _ _ g => meetCw_inv g) h)) (ownPulse_inv (meetSectors_inv h))

theorem unitPoison_inv {s s1 : State} {vf pa} (h : PackageInv s1) : PackageInv (unitPoison s s1 vf pa) := ite_inv (postEvent_inv h) h

theorem performAtom_inv {s : State} {r p a} (h : PackageInv s) : PackageInv (performAtom s r p a).1 := by
  have met : PackageInv (unitMeet s r.vf p.comp p.pa p.len) := unitMeet_inv h
  unfold performAtom
  dsimp only
  split
  · exact ite_fst_inv (unitPoison_inv met) met
  · dsimp only
    split
    · exact blockWrite_inv met
    · exact met

theorem afterPerform_inv {s : State} {id p d} (h : PackageInv s) : PackageInv (afterPerform s id p d) := by
  unfold afterPerform
  split
  · exact h
  · exact ite_inv (piecePut_inv h) (ite_inv (pieceDone_inv h) (piecePut_inv (newId_inv h)))

theorem performPiece_inv {s : State} {r p} (h : PackageInv s) : PackageInv (performPiece s r p) := by
  unfold performPiece
  dsimp only
  split
  · split
    · exact afterPerform_inv (ite_inv h (performBlock_inv h))
    · exact ite_inv h (performBlock_inv h)
  · exact ite_inv h (performBlock_inv h)

theorem gateAnswer_inv {s : State} {r p z code} (h : PackageInv s) : PackageInv (gateAnswer s r p z code) := pieceDone_inv (newReqError_inv h)

theorem resetAnswer_inv {s : State} {r p z} (h : PackageInv s) : PackageInv (resetAnswer s r p z) :=
  ite_inv (gateAnswer_inv h) (ite_inv (reqDel_inv h) (reqPut_inv h))

theorem gateRefuse_inv {s : State} {r p z} (h : PackageInv s) : PackageInv (gateRefuse s r p z) :=
  ite_inv (gateAnswer_inv (gateEvents_inv h)) (ite_inv (gateAnswer_inv (haltLaunch_inv (gateEvents_inv h)))
      (reqPut_inv (freezeMaster_inv (gateError_inv (gateEvents_inv h)))))

theorem spokeSend_inv {s : State} {r p} (h : PackageInv s) : PackageInv (spokeSend s r p) := by
  unfold spokeSend
  refine ite_inv (pieceDone_inv (newReqError_inv h)) ?_
  dsimp only
  split
  · exact ite_inv h (piecePut_inv (newId_inv h))
  · exact frame_inv (piecePut_inv h)

theorem makeStore_inv {s : State} {f va bytes lsid shared tag} (h : PackageInv s) : PackageInv (makeStore s f va bytes lsid shared tag) := by
  unfold makeStore
  split
  · exact h
  · exact sendReq_inv (budgetMove_inv (newId_inv (frame_inv h)))

theorem leaveSettle_inv {s : State} (h : PackageInv s) : PackageInv (leaveSettle s) := ite_inv h (frame_inv (dropStores_inv h))
theorem storeLost_inv {s : State} {b vf lid pa code} (h : PackageInv s) : PackageInv (storeLost s b vf lid pa code) := postEvent_inv h
theorem pubRequest_inv {s : State} {b vf lid run after} (h : PackageInv s) : PackageInv (pubRequest s b vf lid run after) := newId_inv (frame_inv h)

theorem publish_inv {s : State} {b vf lid mode after sts keep} (h : PackageInv s) : PackageInv (publish s b vf lid mode after sts keep).1 :=
  foldl_fst_inv (fun _ _ g => pubRequest_inv g) (drawn_inv h)

theorem publishPhases_inv {s : State} {b vf lid mode after sts keep} (h : PackageInv s) :
    PackageInv (publishPhases s b vf lid mode after sts keep).1 :=
  foldl_fst_inv (fun _ _ g => publish_inv g) h

theorem leaveWith_inv {s : State} {ids hit} (h : PackageInv s) : PackageInv (leaveWith s ids hit) := h

theorem groupWaits_inv {s : State} {cfg keys} (h : PackageInv s) : PackageInv (groupWaits s cfg keys) := by
  unfold groupWaits
  split
  · exact cfgPut_inv h
  · exact h

theorem publishFinal_inv {s : State} {c} (h : PackageInv s) : PackageInv (publishFinal s c).1 := by
  unfold publishFinal
  refine leaveSettle_inv (leaveWith_inv ?_)
  split
  · exact cfgPut_inv (dropStores_inv (groupWaits_inv (publishPhases_inv h)))
  · exact dropStores_inv (groupWaits_inv (publishPhases_inv h))

theorem publishEarly_inv {s : State} {b vf lid mode scope mine} (h : PackageInv s) : PackageInv (publishEarly s b vf lid mode scope mine).1 :=
  frame_inv (leaveWith_inv (publishPhases_inv h))

theorem scopeCap_inv {s : State} {f scope} (h : PackageInv s) : OptInv Prod.snd (scopeCap s f scope) :=
  optInv_ite (optInv_some h) (optInv_ite optInv_none (optInv_some (postEvent_inv h)))

theorem partsLost_inv {s : State} {r} (h : PackageInv s) : PackageInv (partsLost s r) := foldl_inv (fun _ _ g => storeLost_inv g) h

theorem pubLost_inv {s : State} {r pe} (h : PackageInv s) : PackageInv (pubLost s r pe) :=
  foldl_inv (fun _ _ g => ite_inv (toSink_inv (newError_inv g)) (storeLost_inv g)) h

theorem redFlags_inv {s : State} {r} (h : PackageInv s) : PackageInv (redFlags s r) := by
  unfold redFlags
  split
  · exact raiseFlags_inv h
  · exact creditFlags_inv h

theorem reqSettle_inv {s : State} {id} (h : PackageInv s) : PackageInv (reqSettle s id) := by
  unfold reqSettle
  split
  · exact h
  · refine ite_inv ?_ ?_
    · split
      · exact leaveSettle_inv h
      · exact h
    · split
      · dsimp only
        split
        · exact redFlags_inv (reqDel_inv h)
        · exact ite_inv (partsLost_inv (redFlags_inv (reqDel_inv h))) (toSink_inv (redFlags_inv (reqDel_inv h)))
      · exact leaveSettle_inv (pubLost_inv (reqDel_inv h))
      · exact ite_inv h (partsLost_inv (reqDel_inv h))
      · exact reqDel_inv h
      · exact h

theorem tagEnter_inv {s : State} {t} (h : PackageInv s) : PackageInv (tagEnter s t) := newId_inv (modPE_inv h)
theorem tagPut_inv {s : State} {t} (h : PackageInv s) : PackageInv (tagPut s t) := h
theorem tagReplied_inv {s : State} {t k v fx fl} (h : PackageInv s) : PackageInv (tagReplied s t k v fx fl) := pushReply_inv (tagPut_inv h)

theorem nodeLoad_inv {s : State} {c va n mode t} (h : PackageInv s) : PackageInv (nodeLoad s c va n mode t) :=
  ite_inv (ite_inv (sendReq_inv (landBytes_inv (charge_inv (tagEnter_inv h)))) (tagReplied_inv (landBytes_inv (charge_inv (tagEnter_inv h)))))
      (sendReq_inv (charge_inv (tagEnter_inv h)))

theorem loadElem_inv {s : State} {code n vaOf mode} (h : PackageInv s) : PackageInv (loadElem s code n vaOf mode) :=
  fire_inv h (fun _ _ g => optInv_ite optInv_none (optInv_some (nodeLoad_inv g)))

theorem storeElem_inv {s : State} {code n vaOf v} (h : PackageInv s) : PackageInv (storeElem s code n vaOf v) := by
  unfold storeElem
  refine fire_inv h (fun _ _ g => ?_)
  dsimp only
  split
  · exact optInv_some (charge_inv (makeStore_inv (waveMark_inv g)))
  · exact optInv_ite (failCode_inv (waveMark_inv g)) optInv_none

theorem execTld_inv {s : State} {n} (h : PackageInv s) : OutInv (execTld n s) := by
  unfold execTld
  refine outInv_next (fire_inv h (fun _ _ g => ?_))
  split
  · exact failCode_inv g
  · refine optInv_ite optInv_none ?_
    split
    · exact optInv_none
    · next e2 =>
      exact optInv_some (nodeLoad_inv (allocTile_inv g _ e2))

theorem tstDrop_inv {s : State} {t} (h : PackageInv s) : PackageInv (tstDrop s t) := ite_inv h (dropRef_inv h)
theorem tstFail_inv {s : State} {t} (h : PackageInv s) : PackageInv (tstFail s t) := tagReplied_inv (newError_inv (tstDrop_inv h))

theorem tstRows_inv {k} {s : State} {t} (h : PackageInv s) : PackageInv (tstRows k s t) := by
  induction k generalizing s t with
  | zero => exact h
  | succ k ih =>
    refine ite_inv (ite_inv (tagPut_inv h) ?_) ?_
    · split
      · exact tagReplied_inv (tstDrop_inv h)
      · exact tagReplied_inv (tstDrop_inv h)
    · split
      · exact ite_inv (tstFail_inv h) (tagPut_inv h)
      · exact ih (makeStore_inv h)

theorem tstAgain_inv {s : State} {b} (h : PackageInv s) : PackageInv (tstAgain s b) :=
  foldl_inv (fun _ _ g => ite_inv g (foldl_inv (fun _ _ k => tstRows_inv k) g)) h

theorem execTst_inv {s : State} {n} (h : PackageInv s) : OutInv (execTst n s) := by
  unfold execTst
  refine outInv_next (fire_inv h (fun _ _ g => ?_))
  dsimp only
  split
  · exact optInv_ite (failCode_inv (waveMark_inv g)) optInv_none
  · exact optInv_ite optInv_none (optInv_some (tstRows_inv (charge_inv (tagEnter_inv (waveMark_inv g)))))

theorem execTalloc_inv {s : State} {n} (h : PackageInv s) : OutInv (execTalloc n s) := by
  unfold execTalloc
  refine outInv_next (fire_inv h (fun _ _ g => ?_))
  split
  · exact failCode_inv g
  · split
    · exact optInv_none
    · next e2 =>
      exact issueSimple_inv (modPE_inv (allocTile_inv g _ e2))

theorem relOf_inv {s : State} {c} (h : PackageInv s) : OptInv Prod.snd (relOf s c) := by
  refine optInv_ite (optInv_some h) fun x e => ?_
  obtain ⟨y, hy, rfl⟩ := Option.map_eq_some_iff.mp e
  exact scopeCap_inv h y hy

theorem atomNode_inv {s : State} {code n} (h : PackageInv s) : PackageInv (atomNode s code n) := by
  unfold atomNode
  refine fire_inv h (fun _ _ g => ?_)
  refine optInv_ite (failCode_inv g) ?_
  split
  · exact failCode_inv g
  · next e1 =>
    exact optInv_ite optInv_none (optInv_some (sendReq_inv (charge_inv (tagEnter_inv (relOf_inv g _ e1)))))

theorem redNode_inv {s : State} {code n} (h : PackageInv s) : PackageInv (redNode s code n) := by
  unfold redNode
  refine fire_inv h (fun _ _ g => ?_)
  refine optInv_ite (failCode_inv g) ?_
  split
  · exact failCode_inv g
  · next e1 =>
    exact optInv_some (sendReq_inv (charge_inv (relOf_inv g _ e1)))

theorem execPhase_inv {s : State} {n} (h : PackageInv s) : OutInv (execPhase n s) := by
  unfold execPhase
  refine outInv_next (fire_inv h (fun _ _ g => ?_))
  dsimp only
  split
  · exact optInv_none
  · refine optInv_ite optInv_none ?_
    split
    · exact failCode_inv g
    · next e2 =>
      exact optInv_some (pushIssued_inv (charge_inv (cfgPut_inv (scopeCap_inv g _ e2))))

theorem execFence_inv {s : State} {n} (h : PackageInv s) : OutInv (execFence n s) := by
  unfold execFence
  refine outInv_next (fire_inv h (fun _ _ g => ?_))
  refine optInv_ite (issueSimple_inv g) ?_
  split
  · exact failCode_inv g
  · next e1 =>
    exact optInv_some (pushIssued_inv (charge_inv (scopeCap_inv g _ e1)))

theorem publishPe_inv {s : State} {b pe vf lid scope} (h : PackageInv s) : PackageInv (publishPe s b pe vf lid scope).1 := by
  unfold publishPe
  exact foldl_fst_inv (fun _ _ ha => publishEarly_inv (scope := scope) ha) h

theorem execAfence_inv {s : State} {n} (h : PackageInv s) : OutInv (execAfence n s) := by
  unfold execAfence
  refine outInv_next (fire_inv h (fun _ _ g => ?_))
  refine optInv_ite (issueSimple_inv g) ?_
  split
  · exact failCode_inv g
  · next e1 =>
    exact optInv_ite optInv_none (optInv_some (pushIssued_inv (charge_inv (modPE_inv (publishPe_inv (scopeCap_inv g _ e1))))))

end Sys2Proof.Machine
end

section
/-! SUPPORT. Engine commands keep the invariants: one is entered under the next number, and an engine changes it under its own (R202 to R208). -/

namespace Sys2Proof.Machine

theorem cmdScope_inv {s : State} {c} (h : PackageInv s) : OptInv Prod.snd (cmdScope s c) := optInv_ite (scopeCap_inv h) (optInv_some h)

/-- A command is replaced under its own id. -/
theorem cmdPut_inv {s : State} {c} (h : PackageInv s) : PackageInv (cmdPut s c) := by
  have same : (cmdPut s c).cmds.map (fun x => x.id) = s.cmds.map fun x => x.id := by
    rw [cmdPut, List.map_map]
    refine List.map_congr_left fun x _ => ?_
    by_cases e : x.id = c.id <;> simp [e]
  exact sublist_inv h h.1 (same ▸ List.Sublist.refl _) (Nat.le_refl _)

theorem commandEnter_inv {s : State} {c : Cmd} (h : PackageInv s) (e : c.id = s.nextId) : PackageInv (commandEnter s c) := entered_inv h rfl rfl e rfl
theorem cmdDel_inv {s : State} {id} (h : PackageInv s) : PackageInv (cmdDel s id) := filter_inv h

theorem dropOperands_inv {s : State} {c} (h : PackageInv s) : PackageInv (dropOperands s c) := by
  unfold dropOperands
  refine foldl_inv (fun _ _ g => ?_) h
  split
  · exact dropRef_inv g
  · exact g

theorem streamAsk_inv {s : State} {c k} (h : PackageInv s) : PackageInv (streamAsk s c k) := sendReq_inv h

theorem rowsSend_inv {s : State} {c rs} (h : PackageInv s) : PackageInv (rowsSend s c rs) :=
  foldl_inv (fun _ _ g => ite_inv (newId_inv (frame_inv (newError_inv g))) (sendReq_inv g)) h

theorem cmdCharge_nextId (s : State) (c : Cmd) : (cmdCharge s c).nextId = s.nextId := by
  unfold cmdCharge
  split
  · rfl
  · exact charge_nextId _ _ _ _ _

theorem cmdCharge_mem (s : State) (c : Cmd) : (cmdCharge s c).mem = s.mem := by
  unfold cmdCharge
  split
  · rfl
  · exact charge_mem _ _ _ _ _

theorem cmdBegin_inv {s : State} {c0} (h : PackageInv s) : PackageInv (cmdBegin s c0) := by
  unfold cmdBegin
  dsimp only
  split
  · exact rowsSend_inv (cmdPut_inv h)
  · exact rowsSend_inv (cmdPut_inv h)
  · exact cmdPut_inv h
  · exact rowsSend_inv (dropOperands_inv (cmdPut_inv h))
  · exact rowsSend_inv (dropOperands_inv (cmdPut_inv h))
  · exact streamAsk_inv (cmdPut_inv h)
  · exact cmdPut_inv h

theorem cmdStart_inv {s : State} {c} (h : PackageInv s) : PackageInv (cmdStart s c) := ite_inv (cmdBegin_inv (cmdPut_inv h)) (cmdPut_inv h)

theorem startFrom_inv {k} {s : State} {a} (h : PackageInv s) : PackageInv (startFrom k s a) := by
  induction k generalizing s with
  | zero => exact h
  | succ k ih =>
    unfold startFrom
    dsimp only
    split
    · exact ite_inv (ih (cmdStart_inv h)) h
    · exact h

theorem engineStart_inv {s : State} {a} (h : PackageInv s) : PackageInv (engineStart s a) := startFrom_inv h

theorem cmdEnter_inv {s : State} {c a hidx scope} (h : PackageInv s) : PackageInv (cmdEnter s c a hidx scope) :=
  engineStart_inv (entered_inv h (cmdCharge_mem _ _) rfl rfl (congrArg (· + 1) (cmdCharge_nextId _ _)))

theorem engineNode_inv {s : State} {code n agent tid} (h : PackageInv s) : PackageInv (engineNode s code n agent tid) := by
  unfold engineNode
  refine fire_inv h (fun _ _ g => ?_)
  split
  · exact failCode_inv g
  · next e1 =>
    split
    · exact failCode_inv g
    · refine optInv_ite optInv_none ?_
      split
      · exact optInv_some (cmdEnter_inv (cmdScope_inv g _ e1))
      · split
        · exact optInv_none
        · next e4 =>
          exact optInv_some (cmdEnter_inv (allocTile_inv (cmdScope_inv g _ e1) _ e4))

theorem execStream_inv {s : State} {n} (h : PackageInv s) : OutInv (execStream n s) := by
  unfold execStream
  split
  · exact outInv_next h
  · refine outInv_next (fireAs_inv h (fun _ _ g => g) (fun _ _ g => ?_))
    refine optInv_ite (failCode_inv g) ?_
    split
    · exact failCode_inv g
    · next e2 =>
      exact optInv_ite optInv_none (optInv_some (cmdEnter_inv (cmdScope_inv g _ e2)))

theorem cmdEnd_inv {s : State} {c} (h : PackageInv s) : PackageInv (cmdEnd s c) := engineStart_inv (cmdDel_inv (frame_inv h))
theorem cmdReply_inv {s : State} {c k v fx} (h : PackageInv s) : PackageInv (cmdReply s c k v fx) := pushReply_inv (cmdEnd_inv h)
theorem tileFilled_inv {s : State} {c t} (h : PackageInv s) : PackageInv (tileFilled s c t) := h

theorem tileComplete_inv {s : State} {c} (h : PackageInv s) : PackageInv (tileComplete s c) := by
  unfold tileComplete
  extract_lets f e fail s1
  have filled : PackageInv s1 := by
    unfold s1
    split
    · exact ite_inv (tileFilled_inv h) h
    · exact h
  have failed {v t} (g : PackageInv t) : PackageInv (fail v t) := cmdReply_inv (ite_inv (freeEntry_inv g) g)
  refine ite_inv (failed (newError_inv filled)) ?_
  split
  · exact failed filled
  · exact cmdReply_inv filled
  · exact cmdReply_inv (modPE_inv filled)

theorem tileCopy_inv {s : State} {c pe} (h : PackageInv s) : OptInv (fun x => x.2.2) (tileCopy s c pe) := by
  unfold tileCopy
  refine optInv_ite optInv_none ?_
  split
  · exact optInv_none
  · next e =>
    exact optInv_some (modPE_inv (allocTile_inv h _ e))

theorem copyDeliver_inv {s : State} {c pe node port hd gen} (h : PackageInv s) : PackageInv (copyDeliver s c pe node port hd gen) := h

theorem detach_inv {s : State} {g d i pe src lid} (h : PackageInv s) : PackageInv (detach s g d i pe src lid) :=
  ite_inv h (postEvent_inv (cfgPut_inv h))

theorem serveOne_inv {s : State} {c} (h : PackageInv s) : OptInv Prod.fst (serveOne s c) := by
  unfold serveOne
  dsimp only
  split
  · exact optInv_some h
  · refine optInv_ite (optInv_some (sendFlight_inv h)) (optInv_ite optInv_none ?_)
    split
    · exact optInv_none
    · next e1 =>
      exact optInv_some (cfgPut_inv (copyDeliver_inv (tileCopy_inv h _ e1)))

theorem serveFrom_inv {k} {s : State} {c} (h : PackageInv s) : PackageInv (serveFrom k s c).1 := by
  induction k generalizing s c with
  | zero => exact h
  | succ k ih =>
    refine ite_fst_inv h ?_
    split
    · exact h
    · next e => exact ih (serveOne_inv h _ e)

theorem execEngineCompletion_inv {s : State} {cmd} (h : PackageInv s) : OutInv (execEngineCompletion cmd s) := by
  unfold execEngineCompletion
  refine outInv_next ?_
  split
  · exact h
  · refine ite_inv h (ite_inv (ite_inv (cmdBegin_inv h) h) (ite_inv h (ite_inv (cmdReply_inv (newError_inv h)) ?_)))
    split
    · exact tileComplete_inv h
    · exact tileComplete_inv h
    · dsimp only
      split <;> exact cmdReply_inv h
    · refine ite_inv (cmdReply_inv (newError_inv h)) ?_
      split <;> exact cmdReply_inv h
    · dsimp only
      split
      · exact h
      · next e2 =>
        exact cmdReply_inv (copyDeliver_inv (tileCopy_inv h _ e2))
    · exact ite_inv (cmdReply_inv (serveFrom_inv h)) (cmdPut_inv (serveFrom_inv h))
    · exact ite_inv h (pushReply_inv (cmdEnd_inv h))
    · exact h

theorem execStreamElement_inv {s : State} {cmd} (h : PackageInv s) : OutInv (execStreamElement cmd s) := by
  unfold execStreamElement
  refine outInv_next ?_
  split
  · exact h
  · split
    · exact h
    · refine ite_inv h (ite_inv (streamAsk_inv (cmdPut_inv ?_)) (cmdPut_inv ?_))
      all_goals
        split
        · exact emitTo_inv (reqDel_inv h)
        · exact reqDel_inv h

theorem execMcastLagExpire_inv {s : State} {cmd} (h : PackageInv s) : OutInv (execMcastLagExpire cmd s) := by
  unfold execMcastLagExpire
  refine outInv_next ?_
  split
  · exact h
  · dsimp only
    split
    · exact h
    · exact ite_inv h (detach_inv h)

end Sys2Proof.Machine
end

section
/-! SUPPORT. The wells, HBM and the arrival of tokens keep the invariants (R29 to R44, R112 to R154, R217 to R228, R400). -/

namespace Sys2Proof.Machine

theorem combine_inv {s : State} {f n} (h : PackageInv s) : OptInv Prod.fst (combine s f n) :=
  optInv_ite (optInv_some (toSink_inv (newError_inv h))) (optInv_ite (optInv_some (postEvent_inv h))
      (optInv_ite (optInv_ite optInv_none (optInv_some (modPE_inv h))) (optInv_some (modPE_inv h))))

theorem execWellTranslate_inv {s : State} {req} (h : PackageInv s) : OutInv (execWellTranslate req s) := by
  unfold execWellTranslate
  refine outInv_next ?_
  split
  · exact h
  · exact ite_inv h (wellTake_inv h)

theorem walkPoison_inv {s : State} {vf addr} (h : PackageInv s) : PackageInv (walkPoison s vf addr) := unitPoison_inv (ownMeet_inv h)

theorem walkMeet_inv {vf va mask k lv table} {s : State} (h : PackageInv s) : PackageInv (walkMeet vf va mask k lv table s) := by
  induction k generalizing s lv table with
  | zero => exact h
  | succ k ih => exact ite_inv (walkPoison_inv h) (ite_inv (ownMeet_inv h) (ih (ownMeet_inv h)))

theorem execPageWalkComplete_inv {s : State} {b vf vpage} (h : PackageInv s) : OutInv (execPageWalkComplete b vf vpage s) := by
  unfold execPageWalkComplete
  refine outInv_next (ite_inv h (foldl_inv (fun _ _ g => ?_) ?_))
  · split
    · exact g
    · exact ite_inv (reqJudge_inv g) (reqPut_inv g)
  · split
    · exact tlbFill_inv (modBulk_inv (ite_inv (walkMeet_inv h) h))
    · exact modBulk_inv (ite_inv (walkMeet_inv h) h)

theorem execParkRefusedRetry_inv {s : State} {req} (h : PackageInv s) : OutInv (execParkRefusedRetry req s) := by
  unfold execParkRefusedRetry
  refine outInv_next ?_
  split
  · exact h
  · split
    · exact ite_inv (reqAgain_inv h) h
    · exact h

theorem xbErr_inv {s : State} {b} (h : PackageInv s) : PackageInv (xbErr s b) := regSetBits_inv h
theorem parkClose_inv {s : State} {b pid} (h : PackageInv s) : PackageInv (parkClose s b pid) := h

theorem execFqctlReplay_inv {s : State} {b parkid} (h : PackageInv s) : OutInv (execFqctlReplay b parkid s) := by
  unfold execFqctlReplay
  refine outInv_next (ite_inv (xbErr_inv h) (foldl_inv (fun _ _ g => ?_)
    (foldl_inv (fun _ _ g => tagFollow_inv (reqAgain_inv g)) (parkClose_inv h))))
  split
  · exact ite_inv (wellTake_inv g) g
  · exact g

theorem reqFail_inv {s : State} {r v} (h : PackageInv s) : PackageInv (reqFail s r v) := by
  unfold reqFail
  split
  · dsimp only
    split
    · exact modCtx_inv (dropStores_inv (tagFollow_inv (reqDel_inv h)))
    · exact toSink_inv (dropStores_inv (tagFollow_inv (reqDel_inv h)))
  · exact reqSettle_inv (reqPut_inv h)

theorem execFqctlDrop_inv {s : State} {b parkid} (h : PackageInv s) : OutInv (execFqctlDrop b parkid s) :=
  outInv_next (ite_inv (xbErr_inv h) (foldl_inv (fun _ _ g => reqFail_inv (newError_inv g)) (parkClose_inv h)))

theorem execFqctlBadOp_inv {s : State} {b op parkid} (h : PackageInv s) : OutInv (execFqctlBadOp b op parkid s) :=
  outInv_next (ite_inv (xbErr_inv h) h)

theorem invalBegin_inv {s : State} {b} (h : PackageInv s) : PackageInv (invalBegin s b) := by
  unfold invalBegin
  dsimp only
  split
  · exact regSetBits_inv (ite_inv (xbErr_inv (modBulk_inv h)) h)
  · exact regSetBits_inv (modBulk_inv (foldl_inv (fun _ _ g => reqAgain_inv g) (ite_inv (xbErr_inv (modBulk_inv h)) h)))

theorem xbinvPush_inv {s : State} {b kind vf vpage} (h : PackageInv s) : OptInv id (xbinvPush s b kind vf vpage) :=
  optInv_ite optInv_none (optInv_some (ite_inv (invalBegin_inv (modBulk_inv h)) (modBulk_inv h)))

theorem invalDone_inv {s : State} {b} (h : PackageInv s) : PackageInv (invalDone s b) := regSetBits_inv (modBulk_inv h)

theorem execXbinvComplete_inv {s : State} {b} (h : PackageInv s) : OutInv (execXbinvComplete b s) := by
  unfold execXbinvComplete
  refine outInv_next ?_
  split
  · exact ite_inv (invalBegin_inv (invalDone_inv h)) h
  · exact h

theorem execVfrootWrite_inv {s : State} {vf v} (h : PackageInv s) : OutInv (execVfrootWrite vf v s) :=
  outInv_next (foldl_inv (fun _ _ g => modBulk_inv g) (regPut_inv h))

theorem execSectorAdmit_inv {s : State} {req piece} (h : PackageInv s) : OutInv (execSectorAdmit req piece s) := by
  unfold execSectorAdmit
  refine outInv_next ?_
  split
  · exact h
  · split
    · exact h
    · refine ite_inv h ?_
      split
      · refine ite_inv h (ite_inv h ?_)
        split
        · exact h
        · exact wstatRefresh_inv (piecePut_inv (newId_inv h))
      · exact piecePut_inv (newId_inv h)
      · exact ite_inv (reqSettle_inv (spokeSend_inv h)) h
      · exact piecePut_inv h

theorem execEdgeCrossing_inv {s : State} {req piece} (h : PackageInv s) : OutInv (execEdgeCrossing req piece s) := by
  unfold execEdgeCrossing
  refine outInv_next ?_
  split
  · exact h
  · split
    · exact h
    · refine ite_inv h ?_
      dsimp only
      split
      · exact piecePut_inv (newId_inv h)
      · exact reqSettle_inv (wstatRefresh_inv (gateRefuse_inv h))
      · exact reqSettle_inv (wstatRefresh_inv (resetAnswer_inv h))

theorem windowSplit_inv {s : State} {r p} (h : PackageInv s) : PackageInv (windowSplit s r p) := by
  unfold windowSplit
  dsimp only
  split
  · exact piecePut_inv h
  · exact reqPut_inv h

theorem execInboundAccept_inv {s : State} {req piece} (h : PackageInv s) : OutInv (execInboundAccept req piece s) := by
  unfold execInboundAccept
  refine outInv_next ?_
  split
  · exact h
  · split
    · exact h
    · exact ite_inv h (ite_inv h (wstatRefresh_inv (ite_inv (windowSplit_inv (newId_inv h)) (piecePut_inv (newId_inv h)))))

theorem replyReturn_inv {s : State} {r p} (h : PackageInv s) : PackageInv (replyReturn s r p) := by
  unfold replyReturn
  refine reqSettle_inv (wstatRefresh_inv ?_)
  split
  · exact resetAnswer_inv h
  · exact pieceDone_inv h
  · exact pieceDone_inv h

theorem execSectorReturn_inv {s : State} {req piece} (h : PackageInv s) : OutInv (execSectorReturn req piece s) := by
  unfold execSectorReturn
  refine outInv_next ?_
  split
  · exact h
  · split
    · exact h
    · dsimp only
      split
      · exact ite_inv (reqSettle_inv (wstatRefresh_inv (wstatRefresh_inv (performPiece_inv h)))) h
      · exact ite_inv (reqSettle_inv (wstatRefresh_inv (wstatRefresh_inv (performPiece_inv h)))) h
      · exact ite_inv h (replyReturn_inv h)
      · exact h

theorem tldReply_inv {s : State} {t r err} (h : PackageInv s) : PackageInv (tldReply s t r err) := by
  unfold tldReply
  dsimp only
  split
  · exact tagReplied_inv (ite_inv (freeEntry_inv h) h)
  · exact tagReplied_inv h
  · exact tagReplied_inv (modPE_inv h)

theorem handleAway_inv {s : State} {f hd en} (h : PackageInv s) : PackageInv (handleAway s f hd en) := by
  unfold handleAway
  dsimp only
  split
  · exact ownPut_inv (modCtx_inv h)
  · exact modCtx_inv h

theorem replyAway_inv {s : State} {t k v fl} (h : PackageInv s) : PackageInv (replyAway s t k v fl) :=
  foldl_inv (fun _ _ g => sendFlight_inv (ite_snd_inv (newError_inv g) g)) (raiseFlags_inv (modCtx_inv h))

theorem tldAway_inv {s0 : State} {t r err} (h : PackageInv s0) : PackageInv (tldAway s0 t r err) := by
  unfold tldAway
  dsimp only
  split
  · refine replyAway_inv (budgetMove_inv (handleAway_inv ?_))
    split
    · exact foldl_inv (fun _ _ g => ownMeet_inv g) (saveMeet_inv h)
    · exact saveMeet_inv h
  · refine replyAway_inv (handleAway_inv ?_)
    split
    · exact foldl_inv (fun _ _ g => ownMeet_inv g) (saveMeet_inv h)
    · exact saveMeet_inv h

theorem execFetchReply_inv {s : State} {b pe tag} (h : PackageInv s) : OutInv (execFetchReply b pe tag s) := by
  unfold execFetchReply
  refine outInv_next ?_
  split
  · exact h
  · dsimp only
    split
    · exact h
    · exact ite_inv h (ite_inv (ite_inv (tldReply_inv (reqDel_inv h)) (tldAway_inv (reqDel_inv h)))
        (ite_inv (tagReplied_inv (reqDel_inv h)) (replyAway_inv (reqDel_inv h))))

theorem execSparseUpdateOp_inv {s : State} {b ch} (h : PackageInv s) : OutInv (execSparseUpdateOp b ch s) := by
  unfold execSparseUpdateOp
  refine outInv_next (ite_inv h ?_)
  split
  · exact h
  · split
    · exact h
    · exact ite_inv h (reqSettle_inv (wstatRefresh_inv (wstatRefresh_inv (afterPerform_inv (performAtom_inv h)))))

theorem scrubCw_inv {s : State} {b cw} (h : PackageInv s) : PackageInv (scrubCw s b cw) := by
  unfold scrubCw
  split
  · exact countCorrected_inv (eccPut_inv h)
  · exact poisonReport_inv (eccPut_inv h)
  · exact h

theorem execPhaseBoundary_inv {s : State} {cfg} (h : PackageInv s) : OutInv (execPhaseBoundary cfg s) := by
  unfold execPhaseBoundary
  refine outInv_next ?_
  split
  · exact h
  · refine ite_inv h (foldl_inv (fun _ _ g => modPE_inv g) (leaveSettle_inv (leaveWith_inv (groupWaits_inv ?_))))
    split
    · exact cfgPut_inv (publish_inv h)
    · exact publish_inv h

theorem storesFail_inv {s : State} {b vf g} (h : PackageInv s) : PackageInv (storesFail s b vf g) :=
  foldl_inv (fun _ _ g => foldl_inv (fun _ _ k => tstFail_inv k) (modPE_inv g)) h

theorem execCisternFull_inv {s : State} {b vf} (h : PackageInv s) : OutInv (execCisternFull b vf s) :=
  outInv_next (ite_inv h (foldl_inv (fun _ _ g => ite_inv (storesFail_inv (modBulk_inv (postEvent_inv g))) (modBulk_inv (postEvent_inv g))) h))

theorem spill_inv {s : State} {t} (h : PackageInv s) : PackageInv (spill s t) := memPutLe_inv (memPutLe_inv (ownMeet_inv (saveMeet_inv h)))
theorem arrivalError_inv {s : State} {t code} (h : PackageInv s) : PackageInv (arrivalError s t code) := toSink_inv (newError_inv (dropToken_inv h))

theorem slotOperand_inv {s : State} {o n t x y} (h : PackageInv s) : PackageInv (slotOperand s o n t x y).2 := by
  refine ite_snd_inv h ?_
  split
  · exact h
  · exact ite_snd_inv h (newError_inv (code := 0x08) h)

theorem enterReady_inv {s : State} {p c o t vc l r pp} (h : PackageInv s) : PackageInv (enterReady s p c o t vc l r pp) := h

theorem placeComb_inv {s : State} {c o n t vc} (h : PackageInv s) : OptInv id (placeComb s c o n t vc) := by
  unfold placeComb
  refine optInv_ite (optInv_ite (optInv_some (modPE_inv h)) optInv_none) ?_
  split
  · exact optInv_none
  · next e =>
    exact optInv_some (combine_inv h _ e)
  · next e =>
    exact optInv_ite (optInv_some (modPE_inv (combine_inv h _ e))) optInv_none

theorem placeToken_inv {s : State} {c o n t vc} (h : PackageInv s) : OptInv id (placeToken s c o n t vc) := by
  unfold placeToken
  refine optInv_ite (placeComb_inv h) (optInv_ite (optInv_ite optInv_none (optInv_some (enterReady_inv h))) ?_)
  split
  · exact optInv_some (toSink_inv (newError_inv (dropToken_inv h)))
  · exact optInv_some (setPE_inv h)
  · exact optInv_ite optInv_none (optInv_some (enterReady_inv (slotOperand_inv (slotOperand_inv (slotOperand_inv h)))))

theorem flightTake_inv {s : State} {k x} (h : PackageInv s) : PackageInv (flightTake s k x) := h

theorem strayToken_cases {s : State} {t} (h : PackageInv s) :
    (∃ u, PackageInv u ∧ strayToken s t = (some u, s)) ∨ ∃ u, PackageInv u ∧ strayToken s t = (none, u) := by
  unfold strayToken
  dsimp only
  split
  · exact .inl ⟨_, postEvent_inv (ite_inv (modCtx_inv h) h), rfl⟩
  · split
    · exact .inl ⟨_, spill_inv h, rfl⟩
    · exact .inr ⟨_, modSlot_inv h, rfl⟩

theorem strayToken_inv {s : State} {t} (h : PackageInv s) : OptInv id (strayToken s t).1 ∧ PackageInv (strayToken s t).2 := by
  rcases strayToken_cases h with ⟨u, hu, e⟩ | ⟨u, hu, e⟩ <;> rw [e]
  · exact ⟨optInv_some hu, h⟩
  · exact ⟨optInv_none, hu⟩

theorem coordEnter_inv {s : State} {t} (h : PackageInv s) : PackageInv (coordEnter s t) := h

theorem takeToken_inv {s : State} {x} (h : PackageInv s) : OptInv id (takeToken s x) := by
  refine optInv_ite (strayToken_inv h).1 ?_
  split
  · exact optInv_some (arrivalError_inv h)
  · exact optInv_some (arrivalError_inv h)
  · exact optInv_ite (optInv_ite optInv_none (optInv_some (coordEnter_inv h))) (placeToken_inv h)

theorem windowAct_inv {s : State} {r0 p} (h : PackageInv s) : PackageInv (windowAct s r0 p) :=
  reqSettle_inv (wstatRefresh_inv (wstatRefresh_inv (afterPerform_inv (performWindow_inv (reqPut_inv h)))))

theorem execWindowWrite_inv {s : State} {req piece} (h : PackageInv s) : OutInv (execWindowWrite req piece s) := by
  unfold execWindowWrite
  refine outInv_next ?_
  split
  · exact h
  · split
    · exact h
    · exact ite_inv (windowAct_inv h) h

theorem execWindowAccessPerform_inv {s : State} {req piece} (h : PackageInv s) : OutInv (execWindowAccessPerform req piece s) := by
  unfold execWindowAccessPerform
  refine outInv_next ?_
  split
  · exact h
  · split
    · exact h
    · exact ite_inv (windowAct_inv h) h

theorem execTokenArrival_inv {k} {s : State} (h : PackageInv s) : OutInv (execTokenArrival k s) := by
  unfold execTokenArrival
  refine outInv_next ?_
  split
  · exact h
  · have taken {x} : PackageInv (flightTake s k x) := flightTake_inv h
    refine ite_inv h (ite_inv ?_ ?_)
    · split
      · exact getD_inv (strayToken_inv taken).1 taken
      · next w e =>
        obtain rfl : (strayToken _ _).2 = w := congrArg Prod.snd e
        exact (strayToken_inv h).2
    · split
      · exact arrivalError_inv taken
      · exact arrivalError_inv taken
      · refine ite_inv h ?_
        dsimp only
        split
        · next e => exact placeToken_inv taken _ e
        · exact ite_inv (modPE_inv taken) h

theorem heldRetry_inv {s : State} {b pe} (h : PackageInv s) : PackageInv (heldRetry s b pe) := by
  unfold heldRetry
  refine foldl_fst_inv (fun _ _ g => ite_fst_inv g ?_) h
  split
  · next e => exact takeToken_inv (modPE_inv g) _ e
  · exact ite_inv g (strayToken_inv g).2

theorem execCoordinateToken_inv {s : State} {k} (h : PackageInv s) : OutInv (execCoordinateToken k s) := by
  unfold execCoordinateToken
  refine outInv_next ?_
  split
  · exact h
  · refine ite_inv h ?_
    split
    · exact ite_inv h (coordEnter_inv (flightTake_inv h))
    · exact h

theorem pairPut_inv {s : State} {f pe sums} (h : PackageInv s) : PackageInv (pairPut s f pe sums) := by
  unfold pairPut
  dsimp only
  split
  · exact setPE_inv h
  · exact frame_inv (modPE_inv h)

theorem linkAll_inv {s : State} {b pe fp which v} (h : PackageInv s) : PackageInv (linkAll s b pe fp which v) := by
  unfold linkAll
  split
  · exact h
  · exact foldl_inv (fun _ _ g => modPE_inv g) h

theorem applyEffect_inv {s : State} {f x} (h : PackageInv s) : PackageInv (applyEffect s f x) := by
  unfold applyEffect
  split
  · exact h
  · exact h
  · exact h
  · exact h
  · exact h
  · exact modPE_inv h
  · exact ite_inv (freeEntry_inv h) h
  · exact toSink_inv h
  · exact pairPut_inv h
  · exact modPE_inv h

theorem lateOn_inv {s : State} {b pe c w} (h : PackageInv s) : PackageInv (lateOn s b pe c w) := by
  unfold lateOn
  dsimp only
  split
  · exact foldl_inv (fun _ _ g => dropRef_inv g) (setPE_inv h)
  · refine foldl_inv (fun _ _ g => ?_) h
    split
    · exact linkAll_inv g
    · exact g
  · refine foldl_inv (fun _ _ g => ?_) h
    split
    · exact ite_inv (frameFree_inv g) (toSink_inv (newError_inv g))
    · exact g
  · exact freeUnnamed_inv (setPE_inv h)

theorem endCycle_inv {s : State} {b c} (h : PackageInv s) : PackageInv (endCycle s b c) :=
  foldl_inv (fun _ _ g => foldl_inv (fun _ _ k => lateOn_inv k) g) h

theorem completeIssued_inv {s : State} {it} (h : PackageInv s) : PackageInv (completeIssued s it) :=
  ite_inv (foldl_inv (fun _ _ g => applyEffect_inv g) (foldl_inv (fun _ _ g => ite_inv (emitTo_inv (newError_inv g)) (emitTo_inv g))
      (modPE_inv h))) (raiseFlags_inv (foldl_inv (fun _ _ g => applyEffect_inv g)
      (foldl_inv (fun _ _ g => ite_inv (emitTo_inv (newError_inv g)) (emitTo_inv g)) (modPE_inv h))))

theorem execResultEmit_inv {s : State} {b pe k} (h : PackageInv s) : OutInv (execResultEmit b pe k s) := by
  unfold execResultEmit
  refine outInv_next ?_
  dsimp only
  split
  · exact h
  · exact ite_inv (completeIssued_inv h) h

theorem execReadyAging_inv {s : State} {b pe k} (h : PackageInv s) : OutInv (execReadyAging b pe k s) := by
  unfold execReadyAging
  refine outInv_next ?_
  dsimp only
  split
  · exact h
  · exact ite_inv (setPE_inv h) h

theorem issuedSet_inv {s : State} {it due es fx fl} (h : PackageInv s) : PackageInv (issuedSet s it due es fx fl) := h
theorem pairFail_inv {s : State} {it code} (h : PackageInv s) : PackageInv (pairFail s it code) := h
theorem pairTake_inv {s : State} {b pe m} (h : PackageInv s) : PackageInv (pairTake s b pe m) := h

theorem pairServe_inv {s : State} {it own m} (h : PackageInv s) : PackageInv (pairServe s it own m) := by
  unfold pairServe
  split
  · exact pairFail_inv h
  · exact issuedSet_inv (mergeSums_inv h)

theorem execPairMessage_inv {s : State} {b pe} (h : PackageInv s) : OutInv (execPairMessage b pe s) := by
  unfold execPairMessage
  refine outInv_next (ite_inv h ?_)
  dsimp only
  split
  · split
    · exact h
    · split
      · exact pairServe_inv (pairTake_inv h)
      · exact modPE_inv (pairTake_inv h)
  · split
    · exact ite_inv (pairServe_inv (modPE_inv h)) h
    · exact h

theorem execPairLimitExpire_inv {s : State} {b pe k} (h : PackageInv s) : OutInv (execPairLimitExpire b pe k s) := by
  unfold execPairLimitExpire
  refine outInv_next ?_
  dsimp only
  split
  · exact h
  · split
    · exact ite_inv h (pairFail_inv (modPE_inv h))
    · exact h

theorem execRngGeneratorServe_inv {s : State} {b sl} (h : PackageInv s) : OutInv (execRngGeneratorServe b sl s) := by
  unfold execRngGeneratorServe
  refine outInv_next (ite_inv h ?_)
  split
  · exact h
  · split
    · exact setSlot_inv h
    · exact ite_inv (issuedSet_inv (setSlot_inv h)) (issuedSet_inv (setSlot_inv (modPE_inv h)))

end Sys2Proof.Machine
end

section
/-! SUPPORT. Placement, queues, tasks and launches keep the invariants (R105, R232, R369 to R389, R442). -/

namespace Sys2Proof.Machine

theorem cfgInstall_inv {s : State} {i b vf lid ox oy image root} (h : PackageInv s) : PackageInv (cfgInstall s i b vf lid ox oy image root).2 :=
  ite_inv (foldl_inv (fun _ _ g => modSlot_inv g) (foldl_inv (fun _ _ g => modPE_inv g) (frame_inv (newId_inv h))))
      (foldl_inv (fun _ _ g => modPE_inv g) (frame_inv (newId_inv h)))

theorem cfgFrames_inv {s : State} {c} (h : PackageInv s) : PackageInv (cfgFrames s c) := foldl_inv (fun _ _ g => frameFree_inv g) h
theorem cfgDropAll_inv {s : State} {c} (h : PackageInv s) : PackageInv (cfgDropAll s c) := frame_inv (cfgFrames_inv (publishFinal_inv h))

theorem entryTokens_inv {s : State} {c es args fp prio} (h : PackageInv s) : PackageInv (entryTokens s c es args fp prio) :=
  foldl_inv (fun _ _ g => sendFlight_inv g) h

theorem qPtrPut_inv {s : State} {b q head tail} (h : PackageInv s) : PackageInv (qPtrPut s b q head tail) := regPut_inv h

theorem qPush_inv {s : State} {b q bs} (h : PackageInv s) : OptInv Prod.snd (qPush s b q bs) :=
  optInv_ite optInv_none (optInv_some (budgetMove_inv (qPtrPut_inv (ownPut_inv (rcbKnow_inv h)))))

theorem qRead_inv {s : State} {b q i} (h : PackageInv s) : PackageInv (qRead s b q i).2 := ownMeet_inv h

theorem qTakeAt_inv {s : State} {b q k} (h : PackageInv s) : PackageInv (qTakeAt s b q k).2 :=
  budgetMove_inv (qPtrPut_inv (foldl_inv (fun _ _ g => ownPut_inv (qRead_inv g)) (qRead_inv h)))

theorem qTakeTail_inv {s : State} {b q} (h : PackageInv s) : PackageInv (qTakeTail s b q).2 := budgetMove_inv (qPtrPut_inv (qRead_inv h))
theorem qClear_inv {s : State} {b q} (h : PackageInv s) : PackageInv (qClear s b q).2 := ite_snd_inv h (budgetMove_inv (qPtrPut_inv h))

theorem commandNode_inv {s : State} {code n} (h : PackageInv s) : PackageInv (commandNode s code n) :=
  fire_inv h (fun _ _ g => optInv_ite optInv_none (optInv_some (commandEnter_inv (charge_inv g) ((charge_nextId _ _ _ _ _).symm))))

theorem execSpawn_inv {s : State} {n} (h : PackageInv s) : OutInv (execSpawn n s) :=
  outInv_next (fire_inv h (fun _ _ g => optInv_ite optInv_none
      (optInv_ite (optInv_some (commandEnter_inv (charge_inv g) ((charge_nextId _ _ _ _ _).symm)))
      (optInv_some (sendReq_inv (commandEnter_inv (charge_inv g) ((charge_nextId _ _ _ _ _).symm)))))))

theorem hqStat_inv {s : State} {b p busy done res index} (h : PackageInv s) : PackageInv (hqStat s b p busy done res index) := regPut_inv h

theorem qAnswer_inv {s : State} {c y r} (h : PackageInv s) : PackageInv (qAnswer s c y r) := by
  unfold qAnswer
  refine ite_inv (cmdDel_inv h) (ite_inv ?_ ?_)
  · dsimp only
    split <;> exact hqStat_inv (cmdDel_inv h)
  · split
    · exact cmdReply_inv (gateError_inv h)
    · split
      · exact cmdReply_inv h
      · exact cmdReply_inv h
      · exact cmdReply_inv (newError_inv h)

theorem capFault_inv {s : State} {c reason} (h : PackageInv s) : PackageInv (capFault s c reason) :=
  ite_inv (cmdDel_inv (postEvent_inv h)) (ite_inv (hqStat_inv (cmdDel_inv (postEvent_inv h)))
      (ite_inv (cmdDel_inv (takeFault_inv h)) (cmdPut_inv (takeFault_inv h))))

theorem capGate_inv {s : State} {c z} (h : PackageInv s) : PackageInv (capGate s c z) :=
  ite_inv (cmdDel_inv (gateEvents_inv h)) (ite_inv (hqStat_inv (cmdDel_inv (gateEvents_inv h)))
      (ite_inv (cmdDel_inv (haltLaunch_inv (gateEvents_inv h))) (cmdPut_inv (freezeMaster_inv (gateError_inv (gateEvents_inv h))))))

theorem qSpawn_inv {s : State} {c b q} (h : PackageInv s) : PackageInv (qSpawn s c b q) := by
  unfold qSpawn
  dsimp only
  split
  · refine ite_inv (qAnswer_inv h) (ite_inv (qAnswer_inv h) ?_)
    split
    · exact qAnswer_inv h
    · next e1 =>
      exact newId_inv (cmdPut_inv (qPush_inv h _ e1))
  · refine ite_inv (qAnswer_inv h) ?_
    split
    · exact qAnswer_inv h
    · next e1 =>
      exact qAnswer_inv (qPush_inv h _ e1)
  · exact qAnswer_inv h

theorem qPerform_inv {s : State} {c b q} (h : PackageInv s) : PackageInv (qPerform s c b q) := by
  unfold qPerform
  refine ite_inv (qSpawn_inv h) (ite_inv (ite_inv (qSpawn_inv h) (qAnswer_inv h)) (ite_inv (qAnswer_inv h) ?_))
  split
  · split
    · exact qAnswer_inv h
    · next e1 =>
      exact qAnswer_inv (qPush_inv h _ e1)
  · exact ite_inv (qAnswer_inv h) (qAnswer_inv (qTakeAt_inv h))
  · exact ite_inv (qAnswer_inv h) (qAnswer_inv (qTakeTail_inv h))
  · exact qAnswer_inv h

theorem qArrive_inv {s : State} {c} (h : PackageInv s) : PackageInv (qArrive s c) := by
  unfold qArrive
  refine ite_inv (capFault_inv h) ?_
  split
  · exact capGate_inv h
  · exact ite_inv (qAnswer_inv h) (cmdReply_inv (gateError_inv h))
  · refine ite_inv h ?_
    split
    · exact capFault_inv h
    · exact qPerform_inv h

theorem spawnRead_inv {s : State} {c} (h : PackageInv s) : PackageInv (spawnRead s c) := by
  unfold spawnRead
  split
  · exact qArrive_inv h
  · refine ite_inv h ?_
    dsimp only
    split
    · exact cmdReply_inv (reqDel_inv h)
    · exact qArrive_inv (cmdPut_inv (reqDel_inv h))

theorem continueStep_inv {s : State} {c} (h : PackageInv s) : PackageInv (continueStep s c) := by
  unfold continueStep
  split
  · refine ite_inv h ?_
    dsimp only
    split
    · exact toSink_inv (cmdDel_inv (reqDel_inv h))
    · exact qArrive_inv (cmdPut_inv (reqDel_inv h))
  · refine ite_inv h ?_
    dsimp only
    split
    · exact toSink_inv (cmdDel_inv (reqDel_inv h))
    · exact ite_inv (sendReq_inv (cmdPut_inv (reqDel_inv h))) (qArrive_inv (cmdPut_inv (reqDel_inv h)))
  · exact qArrive_inv h

theorem queueStep_inv {s : State} {c} (h : PackageInv s) : PackageInv (queueStep s c) :=
  ite_inv h (ite_inv (spawnRead_inv h) (ite_inv (continueStep_inv h) (qArrive_inv h)))

theorem execJoinCounterUpdate_inv {b ch} {s : State} (h : PackageInv s) : OutInv (execJoinCounterUpdate b ch s) := by
  unfold execJoinCounterUpdate
  refine outInv_next (ite_inv h ?_)
  split
  · exact h
  · split
    · exact h
    · refine ite_inv h (reqSettle_inv (wstatRefresh_inv (wstatRefresh_inv (afterPerform_inv ?_))))
      refine ite_inv (unitPoison_inv ?_) (ite_inv (sendReq_inv (commandEnter_inv ?_ rfl)) (ite_inv (postEvent_inv ?_) ?_))
      all_goals exact ite_inv (unitMeet_inv h) (blockWrite_inv (unitMeet_inv h))

theorem execHqrecCommit_inv {s : State} {b p v} (h : PackageInv s) : OutInv (execHqrecCommit b p v s) :=
  outInv_next (ite_inv h (hqStat_inv (commandEnter_inv (regPut_inv h) rfl)))

theorem execQueueEnable_inv {s : State} {b q v} (h : PackageInv s) : OutInv (execQueueEnable b q v s) :=
  outInv_next (ite_inv h (ite_inv (qPtrPut_inv (qClear_inv (regPut_inv h))) (regPut_inv h)))

theorem execQckeyWrite_inv {s : State} {b v} (h : PackageInv s) : OutInv (execQckeyWrite b v s) := outInv_next (regPut_inv h)
theorem execQcapRightsWrite_inv {s : State} {b q v} (h : PackageInv s) : OutInv (execQcapRightsWrite b q v s) := outInv_next (regPut_inv h)
theorem taskPut_inv {s : State} {t} (h : PackageInv s) : PackageInv (taskPut s t) := h

theorem pageTouch_inv {s : State} {b vf vpn} (h : PackageInv s) : PackageInv (pageTouch s b vf vpn) := by
  unfold pageTouch
  refine ite_inv h ?_
  dsimp only
  split
  · exact ite_inv (walkMeet_inv h) (tlbFill_inv (walkMeet_inv h))
  · exact walkMeet_inv h

theorem acceptTask_inv {s : State} {c} (h : PackageInv s) : OptInv id (acceptTask s c) := by
  unfold acceptTask
  split
  · exact optInv_some (qAnswer_inv h)
  · exact optInv_ite (optInv_some (qAnswer_inv h)) (optInv_ite optInv_none
      (optInv_some (qAnswer_inv (launchPut_inv (budgetMove_inv (newId_inv (frame_inv (rcbKnow_inv h))))))))

theorem versionsFree_inv {s : State} (h : PackageInv s) : PackageInv (versionsFree s) := by
  unfold versionsFree
  refine foldl_inv (fun _ _ g => ?_) (frame_inv h)
  split
  · exact launchPut_inv g
  · exact g

theorem versionNew_inv {s : State} {lid vpn maker} (h : PackageInv s) : OptInv Prod.snd (versionNew s lid vpn maker) := by
  unfold versionNew
  split
  · exact optInv_none
  · split
    · exact optInv_none
    · exact optInv_ite optInv_none (optInv_some (frame_inv (foldl_inv (fun _ _ g => blockZero_inv g) (launchPut_inv h))))

theorem mapPage_inv {s : State} {id k} (h : PackageInv s) : PackageInv (mapPage s id k) := by
  unfold mapPage
  split
  · exact h
  · split
    · exact h
    · refine ite_inv h (ite_inv ?_ (taskPut_inv h))
      split
      · exact h
      · next e2 =>
        exact versionsFree_inv (taskPut_inv (versionNew_inv h _ e2))

theorem taskWake_inv {s : State} {id} (h : PackageInv s) : PackageInv (taskWake s id) := by
  unfold taskWake
  split
  · exact h
  · refine ite_inv h ?_
    dsimp only
    split
    · exact foldl_inv (fun _ _ g => mapPage_inv g) h
    · exact ite_inv (foldl_inv (fun _ _ g => mapPage_inv g) h) (newId_inv (taskPut_inv (foldl_inv (fun _ _ g => mapPage_inv g) h)))

theorem tasksWake_inv {s : State} {lid} (h : PackageInv s) : PackageInv (tasksWake s lid) := foldl_inv (fun _ _ g => taskWake_inv g) h

theorem execTaskAccept_inv {s : State} {task} (h : PackageInv s) : OutInv (execTaskAccept task s) := by
  unfold execTaskAccept
  refine outInv_next ?_
  split
  · exact ite_inv (getD_inv (acceptTask_inv h) h) h
  · split
    · exact h
    · exact ite_inv h (tasksWake_inv (taskPut_inv (foldl_inv (fun _ _ g => pageTouch_inv g) h)))

theorem taskFrame_inv {s : State} {c t fp} (h : PackageInv s) : PackageInv (taskFrame s c t fp) := foldl_inv (fun _ _ g => modPE_inv g) h

theorem taskUnqueue_inv {s : State} {t} (h : PackageInv s) : PackageInv (taskUnqueue s t) := by
  unfold taskUnqueue
  split
  · exact h
  · exact ite_inv (qTakeAt_inv h) h

theorem dispatchTask_inv {s : State} {t} (h : PackageInv s) : PackageInv (dispatchTask s t) := by
  unfold dispatchTask
  split
  · exact h
  · dsimp only
    split
    · exact rcbUse_inv h
    · next e1 =>
      exact sendFlight_inv (taskPut_inv (taskFrame_inv (taskUnqueue_inv (frameAlloc_inv (rcbUse_inv h) _ e1))))

theorem execDispatchDecision_inv {s : State} {b} (h : PackageInv s) : OutInv (execDispatchDecision b s) := by
  unfold execDispatchDecision
  refine outInv_next (ite_inv h ?_)
  split
  · exact h
  · split
    · exact h
    · exact modBulk_inv (dispatchTask_inv h)

theorem execTaskComplete_inv {task} {s : State} (h : PackageInv s) : OutInv (execTaskComplete task s) := by
  unfold execTaskComplete
  refine outInv_next ?_
  split
  · exact h
  · refine ite_inv h ?_
    dsimp only
    split
    · refine taskPut_inv (publishEarly_inv ?_)
      cases e : scopeCap s _ 3 with
      | none => exact h
      | some x => exact scopeCap_inv h x e
    · exact ite_inv h (tasksWake_inv (versionsFree_inv (tasksDrop_inv (ite_inv h (ite_inv (toSink_inv (newError_inv h)) (sendReq_inv h))))))
    · exact h

theorem loadBegin_inv {s : State} {c} (h : PackageInv s) : PackageInv (loadBegin s c) := sendReq_inv (cmdPut_inv h)

theorem execCfgLd_inv {s : State} {n} (h : PackageInv s) : OutInv (execCfgLd n s) :=
  outInv_next (fire_inv h (fun _ _ g => optInv_ite optInv_none
      (optInv_some (loadBegin_inv (commandEnter_inv (charge_inv g) ((charge_nextId _ _ _ _ _).symm))))))

theorem launchFail_inv {s : State} {lid bit exit} (h : PackageInv s) : PackageInv (launchFail s lid bit exit) := by
  unfold launchFail
  split
  · exact h
  · exact launchPut_inv h

theorem loadError_inv {s : State} {c en} (h : PackageInv s) : PackageInv (loadError s c en) :=
  ite_inv (cmdReply_inv h) (launchFail_inv (cmdDel_inv h))

theorem loadReject_inv {s : State} {c r} (h : PackageInv s) : PackageInv (loadReject s c r) :=
  ite_inv (cmdReply_inv (newError_inv (postEvent_inv h))) (launchFail_inv (cmdDel_inv (postEvent_inv h)))

theorem bindQueue_inv {s : State} {l} (h : PackageInv s) : OptInv id (bindQueue s l) :=
  optInv_ite (optInv_some h) (optInv_ite optInv_none (optInv_some (regSetBits_inv h)))

theorem argsReq_inv {s : State} {c l n} (h : PackageInv s) : PackageInv (argsReq s c l n) := ite_inv h (sendReq_inv h)

theorem launchPlaced_inv {s : State} {c cfg} (h : PackageInv s) : PackageInv (launchPlaced s c cfg) := by
  unfold launchPlaced
  dsimp only
  split
  · exact cmdDel_inv (cmdPut_inv h)
  · split
    · exact launchFail_inv (cmdDel_inv (launchPut_inv (rcbUse_inv (cmdPut_inv h))))
    · next e1 =>
      exact bindQueue_inv (launchPut_inv (rcbUse_inv (cmdPut_inv h))) _ e1

theorem nodePlaced_inv {s : State} {c g} (h : PackageInv s) : OptInv id (nodePlaced s c g) := by
  unfold nodePlaced
  refine optInv_ite (optInv_some (cmdReply_inv h)) (optInv_ite optInv_none ?_)
  split
  · exact optInv_none
  · next e =>
    exact optInv_some (cmdReply_inv (entryTokens_inv (frameAlloc_inv h _ e)))

theorem loadPlace_inv {s : State} {c} (h : PackageInv s) : PackageInv (loadPlace s c) := by
  unfold loadPlace
  dsimp only
  split
  · exact h
  · exact loadReject_inv h
  · split
    · exact loadReject_inv h
    · refine ite_inv (launchPlaced_inv (cfgInstall_inv h)) ?_
      split
      · exact cfgInstall_inv h
      · exact getD_inv (nodePlaced_inv (cmdPut_inv (cfgInstall_inv h))) (cmdPut_inv (cfgInstall_inv h))

theorem execPlacementRetry_inv {s : State} {cmd} (h : PackageInv s) : OutInv (execPlacementRetry cmd s) := by
  unfold execPlacementRetry
  refine outInv_next ?_
  split
  · exact h
  · refine ite_inv h ?_
    split
    · split
      · exact h
      · refine ite_inv h ?_
        dsimp only
        split
        · exact loadError_inv (reqDel_inv h)
        · refine ite_inv ?_ (sendReq_inv (cmdPut_inv (reqDel_inv h)))
          split
          · exact loadReject_inv (reqDel_inv h)
          · exact reqDel_inv h
    · split
      · exact h
      · refine ite_inv h ?_
        dsimp only
        split
        · exact loadError_inv (reqDel_inv h)
        · split
          · exact loadReject_inv (reqDel_inv h)
          · exact newId_inv (cmdPut_inv (reqDel_inv h))
    · exact ite_inv h (loadPlace_inv h)
    · refine ite_inv h ?_
      split
      · exact getD_inv (nodePlaced_inv h) h
      · exact cmdDel_inv h
    · exact loadBegin_inv h
    · exact h

theorem lidPut_nextId (s : State) (l : Launch) : (lidPut s l).nextId = s.nextId := by
  unfold lidPut
  split
  · rfl
  · obtain ⟨_, _, _, _, _, _, e⟩ := memPutLe_access s (l.rcb + 104) 2 l.lid
    rw [e]

theorem lidPut_inv {s : State} {l} (h : PackageInv s) : PackageInv (lidPut s l) := ite_inv h (memPutLe_inv h)

theorem lidPut_enter_inv {s : State} {l code a b vf lid prio aux} (h : PackageInv s) :
    PackageInv (commandEnter (lidPut s l) (innerCommand s code a b vf lid prio aux)) := commandEnter_inv (lidPut_inv h) (lidPut_nextId _ _).symm

theorem execLaunchTake_inv {b q} {s : State} (h : PackageInv s) : OutInv (execLaunchTake b q s) := by
  unfold execLaunchTake
  exact outInv_next (ite_inv h (loadBegin_inv (lidPut_enter_inv (modBulk_inv (frame_inv (qTakeAt_inv
    (foldl_inv (fun _ _ g => rcbMeet_inv (qRead_inv g)) h)))))))

theorem launchInject_inv {s : State} {l c g fp tail} (h : PackageInv s) : PackageInv (launchInject s l c g fp tail) :=
  launchPut_inv (cmdDel_inv (entryTokens_inv h))

theorem execLaunchStart_inv {s : State} {lid} (h : PackageInv s) : OutInv (execLaunchStart lid s) := by
  unfold execLaunchStart
  refine outInv_next ?_
  split
  · refine ite_inv h ?_
    split
    · exact h
    · refine ite_inv h (ite_inv ?_ ?_)
      · split
        · exact h
        · next e2 =>
          exact ite_inv (launchInject_inv (frameAlloc_inv h _ e2)) (argsReq_inv (cmdPut_inv (frameAlloc_inv h _ e2)))
      · split
        · exact h
        · refine ite_inv h ?_
          dsimp only
          split
          · exact launchFail_inv (cmdDel_inv (frameFree_inv (reqDel_inv h)))
          · exact launchInject_inv (reqDel_inv h)
  · exact h

theorem execLaunchQuiesce_inv {s : State} {lid} (h : PackageInv s) : OutInv (execLaunchQuiesce lid s) := by
  unfold execLaunchQuiesce
  refine outInv_next ?_
  split
  · exact h
  · exact ite_inv (launchPut_inv h) h

theorem copyBack_inv {s : State} {l} (h : PackageInv s) : PackageInv (copyBack s l) := by
  unfold copyBack
  refine frame_inv (foldl_inv (fun _ _ g => ?_) h)
  split
  · exact ownPut_inv (ownMeet_inv g)
  · exact g

theorem unbindQueue_inv {s : State} {l} (h : PackageInv s) : PackageInv (unbindQueue s l) := ite_inv h (regSetBits_inv (qClear_inv h))

theorem boundaryOver_nextId (s : State) (b pe : Nat) (keys : List Nat) (hit : Firing → Bool) : (boundaryOver s b pe keys hit).nextId = s.nextId := by
  unfold boundaryOver
  split
  · rfl
  · exact modPE_nextId _ _ _ _

theorem boundaryOver_inv {s : State} {b pe keys hit} (h : PackageInv s) : PackageInv (boundaryOver s b pe keys hit) := ite_inv h (modPE_inv h)

theorem launchPublish_inv {s : State} {l} (h : PackageInv s) : PackageInv (launchPublish s l) := by
  refine commandEnter_inv (foldl_inv (fun _ _ g => boundaryOver_inv g) (foldl_fst_inv (fun _ _ ha => publishFinal_inv ha) h)) ?_
  exact (foldl_nextId (fun t pe => boundaryOver_nextId t _ _ _ _) _ _).symm

theorem launchClose_inv {s : State} {l c} (h : PackageInv s) : PackageInv (launchClose s l c) :=
  ite_inv (cmdPut_inv (foldl_inv (fun _ _ g => cfgDropAll_inv g) (unbindQueue_inv (copyBack_inv h))))
      (sendReq_inv (cmdPut_inv (foldl_inv (fun _ _ g => cfgDropAll_inv g) (unbindQueue_inv (copyBack_inv h)))))

theorem launchDone_inv {s : State} {l c} (h : PackageInv s) : PackageInv (launchDone s l c) := by
  unfold launchDone
  refine ite_inv (launchPut_inv (cmdDel_inv (postEvent_inv (ite_inv ?_ (memPutLe_inv (memPutLe_inv (memPutLe_inv (ownWord_inv ?_))))))))
    (rcbRetire_inv (launchPut_inv (cmdDel_inv (postEvent_inv (ite_inv ?_ (memPutLe_inv (memPutLe_inv (memPutLe_inv (ownWord_inv ?_)))))))))
  all_goals
    split
    · dsimp only
      split
      · exact storeLost_inv (reqDel_inv h)
      · exact reqDel_inv h
    · exact h

theorem execLaunchEnd_inv {s : State} {lid} (h : PackageInv s) : OutInv (execLaunchEnd lid s) := by
  unfold execLaunchEnd
  refine outInv_next ?_
  split
  · exact h
  · refine ite_inv h ?_
    split
    · exact launchPublish_inv h
    · exact ite_inv (ite_inv (launchClose_inv h) h) (ite_inv (launchDone_inv h) h)

end Sys2Proof.Machine
end

section
/-! SUPPORT. Class 0, barriers, energy and resets keep the invariants (R277 to R290, R381, R390 to R402, R411 to R428, R457). -/

namespace Sys2Proof.Machine

theorem execFalloc_inv {s : State} {n} (h : PackageInv s) : OutInv (execFalloc n s) := by
  unfold execFalloc
  refine outInv_next (fire_inv h (fun _ _ g => ?_))
  dsimp only
  split
  · exact optInv_none
  · refine optInv_ite optInv_none ?_
    split
    · exact optInv_none
    · next e2 =>
      exact issueSimple_inv (ite_inv (frameAlloc_inv g _ e2) (modPE_inv (frameAlloc_inv g _ e2)))

theorem execFfree_inv {s : State} {n} (h : PackageInv s) : OutInv (execFfree n s) :=
  outInv_next (fire_inv h (fun _ _ g => optInv_ite (optInv_ite (failCode_inv g) (issueSimple_inv g))
      (optInv_ite (issueSimple_inv g) (optInv_some (pushIssued_inv (charge_inv g))))))

theorem execSend_inv {s : State} {n} (h : PackageInv s) : OutInv (execSend n s) := by
  unfold execSend
  refine outInv_next (fire_inv h (fun _ _ g => ?_))
  dsimp only
  split
  · exact issueSimple_inv g
  · exact issueSimple_inv (newError_inv g)

theorem execBarComb_inv {s : State} {n} (h : PackageInv s) : OutInv (execBarComb n s) := by
  unfold execBarComb
  refine outInv_next (fire_inv h (fun _ _ g => ?_))
  split
  · exact issueSimple_inv g
  · split
    · exact optInv_none
    · next e2 =>
      exact issueSimple_inv (combine_inv g _ e2)

theorem execBarrierLimitExpire_inv {s : State} {b pe node fp} (h : PackageInv s) : OutInv (execBarrierLimitExpire b pe node fp s) := by
  unfold execBarrierLimitExpire
  refine outInv_next ?_
  dsimp only
  split
  · exact ite_inv h (pushIssued_inv (modPE_inv (newError_inv h)))
  · exact h

theorem toCounters_inv {s : State} {f x} (h : PackageInv s) : PackageInv (toCounters s f x) := h

theorem execRcntAdd_inv {s : State} {n} (h : PackageInv s) : OutInv (execRcntAdd n s) :=
  outInv_next (fire_inv h (fun _ _ g => optInv_ite (failCode_inv g) (optInv_some (pushIssued_inv (charge_inv (toCounters_inv g))))))

theorem execRcntSnap_inv {s : State} {n} (h : PackageInv s) : OutInv (execRcntSnap n s) := by
  unfold execRcntSnap
  refine outInv_next (fire_inv h (fun _ _ g => optInv_ite (failCode_inv g) ?_))
  split
  · exact failCode_inv g
  · next e =>
    exact optInv_ite optInv_none (optInv_some (commandEnter_inv (toCounters_inv (charge_inv (scopeCap_inv g _ e))) (charge_nextId _ _ _ _ _).symm))

theorem countAdd_inv {s : State} {b pe x} (h : PackageInv s) : PackageInv (countAdd s b pe x) := by
  unfold countAdd
  split
  · exact ite_inv (modSlot_inv h) (modPE_inv (modSlot_inv h))
  · exact h

theorem countSnap_inv {s : State} {b pe x} (h : PackageInv s) : PackageInv (countSnap s b pe x) := by
  unfold countSnap
  split
  · split
    · exact h
    · exact sendReq_inv (modSlot_inv h)
  · exact h

theorem countersEnd_inv {s : State} {b} (h : PackageInv s) : PackageInv (countersEnd s b) :=
  foldl_inv (fun _ _ g => foldl_inv (fun _ _ k => countSnap_inv k) g) (foldl_inv (fun _ _ g => foldl_inv (fun _ _ k => countAdd_inv k) g) h)

theorem snapStep_inv {s : State} {c} (h : PackageInv s) : PackageInv (snapStep s c) := by
  unfold snapStep
  split
  · exact h
  · refine ite_inv h ?_
    split <;> exact cmdReply_inv h

theorem execYield_inv {s : State} {n} (h : PackageInv s) : OutInv (execYield n s) :=
  outInv_next (fire_inv h (fun _ _ g => optInv_ite (issueSimple_inv g) (optInv_some (commandEnter_inv (modSlot_inv (charge_inv g)) rfl))))

theorem yieldStep_inv {s : State} {c} (h : PackageInv s) : PackageInv (yieldStep s c) :=
  ite_inv h (ite_inv (cmdReply_inv h) (ite_inv (cmdReply_inv h) h))

theorem execStarve_inv {s : State} {b vf} (h : PackageInv s) : OutInv (execStarve b vf s) := by
  unfold execStarve
  refine outInv_next (ite_inv h ?_)
  split
  · exact h
  · exact modBulk_inv (postEvent_inv h)

theorem nrgMeet_inv {s : State} {vf} (h : PackageInv s) : PackageInv (nrgMeet s vf) := ite_inv h (ownMeet_inv h)
theorem nrgWrite_inv {s : State} {vf v} (h : PackageInv s) : PackageInv (nrgWrite s vf v) := ite_inv (regPut_inv h) (ite_inv h (memPutLe_inv h))
theorem nrgKeep_inv {s : State} {vf} (h : PackageInv s) : PackageInv (nrgKeep s vf) := ite_inv h (memPutLe_inv (nrgMeet_inv h))

theorem nrgCap_inv {s : State} {vf c} (h : PackageInv s) : PackageInv (nrgCap s vf c) := by
  unfold nrgCap
  split
  · exact ite_inv (postEvent_inv (frame_inv h)) h
  · exact h

theorem nrgFold_inv {s0 : State} {vf d} (h : PackageInv s0) : PackageInv (nrgFold s0 vf d) := nrgCap_inv (nrgWrite_inv (frame_inv (nrgMeet_inv h)))
theorem foldSlot_inv {s : State} {b sl} (h : PackageInv s) : PackageInv (foldSlot s b sl) := ite_inv (setSlot_inv h) (nrgFold_inv (setSlot_inv h))

theorem foldsEnd_inv {s : State} {b} (h : PackageInv s) : PackageInv (foldsEnd s b) :=
  foldl_inv (fun _ _ g => cmdPut_inv (foldSlot_inv g)) (foldl_inv (fun _ _ g => ite_inv (modSlot_inv (foldSlot_inv g)) g) h)

theorem vfEnter_inv {s : State} {vf} (h : PackageInv s) : PackageInv (vfEnter s vf) :=
  ite_inv h (regPut_inv (frame_inv (ownWord_inv (regPut_inv (rcbUse_inv h)))))

theorem vfLeave_inv {s : State} {vf nrg} (h : PackageInv s) : PackageInv (vfLeave s vf nrg) :=
  ite_inv h (rcbRetire_inv (regPut_inv (memPutLe_inv (ownWord_inv (ite_inv (memPutLe_inv h) h)))))

theorem tablesChanged_inv {s s1 : State} {b vfs} (h : PackageInv s1) : PackageInv (tablesChanged s s1 b vfs) :=
  foldl_inv (fun _ _ g => ite_inv (vfLeave_inv g) (ite_inv (vfEnter_inv g) g)) (regSetBits_inv h)

theorem quantSet_inv {s : State} {b sl en v} (h : PackageInv s) : PackageInv (quantSet s b sl en v) :=
  frame_inv (foldl_inv (fun _ _ g => budgetMove_inv g) (tablesChanged_inv (foldl_inv (fun _ _ g => budgetMove_inv g) (regPut_inv h))))

theorem schErr_inv {s : State} {b} (h : PackageInv s) : PackageInv (schErr s b) := regSetBits_inv h

theorem execQuantWrite_inv {s : State} {b sl en v} (h : PackageInv s) : OutInv (execQuantWrite b sl en v s) :=
  outInv_next (ite_inv (schErr_inv h) (modSlot_inv (quantSet_inv h)))

theorem execVfscopeWrite_inv {s : State} {vf v} (h : PackageInv s) : OutInv (execVfscopeWrite vf v s) := outInv_next (regPut_inv h)

theorem peBudget_inv {s : State} {p} (h : PackageInv s) : PackageInv (peBudget s p) :=
  foldl_inv (fun _ _ g => ite_inv g (budgetMove_inv g)) (foldl_inv (fun _ _ g => budgetMove_inv g) h)

theorem slotClear_inv {s : State} {b sl} (h : PackageInv s) : PackageInv (slotClear s b sl) := by
  unfold slotClear
  exact modSlot_inv (modBulk_inv (foldl_inv (fun _ _ g => frame_inv g) (foldl_inv (fun _ _ g => modPE_inv g) h)))

theorem savedDrop_inv {s : State} {vf b sl} (h : PackageInv s) : PackageInv (savedDrop s vf b sl) :=
  ite_inv (frame_inv (saveMeet_inv h)) (memPutLe_inv (memPutLe_inv (ownWord_inv (frame_inv (saveMeet_inv h)))))

theorem reqsOrphan_inv {s : State} {hit} (h : PackageInv s) : PackageInv (reqsOrphan s hit) := h
theorem parksClose_inv {s : State} {b} (h : PackageInv s) : PackageInv (parksClose s b) := h
theorem launchesDrop_inv {s : State} {hit} (h : PackageInv s) : PackageInv (launchesDrop s hit) := h

theorem vfQueuesClear_inv {s : State} {bs vf} (h : PackageInv s) : PackageInv (vfQueuesClear s bs vf).2 := 
  foldl_snd_inv (fun _ _ ha => mk_snd_inv (qClear_inv ha)) h

theorem unbindLids_inv {s : State} {lids} (h : PackageInv s) : PackageInv (unbindLids s lids) := h
theorem abandonNotices_inv {s : State} {b vf} (h : PackageInv s) : PackageInv (abandonNotices s b vf) := h

theorem slotReset_inv {s : State} {b sl} (h : PackageInv s) : PackageInv (slotReset s b sl) := by
  unfold slotReset
  exact modSlot_inv (slotClear_inv h)

theorem vfSlotsClear_inv {s : State} {bs vf} (h : PackageInv s) : PackageInv (vfSlotsClear s bs vf) :=
  foldl_inv (fun _ _ g => savedDrop_inv g) (foldl_inv (fun _ _ g => foldl_inv (fun _ _ k => peBudget_inv k) g)
      (foldl_inv (fun _ _ g => slotReset_inv (foldl_inv (fun _ _ k => peBudget_inv k) (foldSlot_inv g))) h))

theorem vfResetDone_inv {s : State} {b vf n bs} (h : PackageInv s) : PackageInv (vfResetDone s b vf n bs) := ite_inv (postEvent_inv h) (frame_inv h)
theorem vfDoneFor_inv {s : State} {b} (h : PackageInv s) : PackageInv (vfDoneFor s b) := foldl_inv (fun _ _ g => postEvent_inv g) (frame_inv h)

theorem vfResetAll_inv {s : State} {b vf} (h : PackageInv s) : PackageInv (vfResetAll s b vf) :=
  vfResetDone_inv (abandonNotices_inv (foldl_inv (fun _ _ g => wstatRefresh_inv (parksClose_inv (modBulk_inv g)))
    (filter_inv (reqsOrphan_inv (unbindLids_inv (launchesDrop_inv (vfQueuesClear_inv (tasksDrop_inv (dropStores_inv (vfSlotsClear_inv h))))))))))

theorem execVfReset_inv {s : State} {b vf} (h : PackageInv s) : OutInv (execVfReset b vf s) := outInv_next (vfResetAll_inv h)
theorem forceEdge_inv {s : State} {z en on} (h : PackageInv s) : PackageInv (forceEdge s z en on) := regSetBits_inv h

theorem fenceEdges_inv {s : State} {b} (h : PackageInv s) : PackageInv (fenceEdges s b) :=
  foldl_inv (fun _ _ g => forceEdge_inv g) (foldl_inv (fun _ _ g => forceEdge_inv g) h)

theorem unfenceEdges_inv {s : State} {b} (h : PackageInv s) : PackageInv (unfenceEdges s b) :=
  foldl_inv (fun _ _ g => ite_inv (forceEdge_inv g) (forceEdge_inv g)) (foldl_inv (fun _ _ g => forceEdge_inv g) h)

theorem fenceAnswer_inv {s : State} {b} (h : PackageInv s) : PackageInv (fenceAnswer s b) := by
  unfold fenceAnswer
  refine foldl_inv (fun _ _ g => ite_inv (cmdReply_inv (newError_inv g)) (ite_inv (hqStat_inv (cmdDel_inv g)) (cmdDel_inv g)))
    (foldl_inv (fun _ _ g => ?_) h)
  refine reqSettle_inv (wstatRefresh_inv (foldl_inv (fun _ _ k => ?_) g))
  split
  · exact k
  · exact pieceDone_inv (newReqError_inv k)

theorem resetBegin_inv {s : State} {b rail hold} (h : PackageInv s) : PackageInv (resetBegin s b rail hold) :=
  ite_inv h (fenceAnswer_inv (modBulk_inv (regSetBits_inv (fenceEdges_inv h))))

theorem execBhrstGo_inv {s : State} {b rail hold} (h : PackageInv s) : OutInv (execBhrstGo b rail hold s) := outInv_next (resetBegin_inv h)
theorem bhReqs_inv {s : State} {b} (h : PackageInv s) : PackageInv (bhReqs s b) := h

theorem loanEnd_inv {s : State} {b sl} (h : PackageInv s) : PackageInv (loanEnd s b sl) :=
  ite_inv h (modSlot_inv (regPut_inv (foldl_inv (fun _ _ g => quantSet_inv g) h)))

theorem opAbandon_inv {s : State} {b ctl stat} (h : PackageInv s) : PackageInv (opAbandon s b ctl stat) := ite_inv (regSetBits_inv (regPut_inv h)) h

theorem bhClear_inv {s : State} {b} (h : PackageInv s) : PackageInv (bhClear s b) := by
  refine foldl_inv (fun _ _ g => wstatRefresh_inv g) (regSetBits_inv (foldl_inv (fun _ _ g => frame_inv (regPut_inv (regPut_inv g))) ?_))
  refine foldl_inv (fun _ _ g => ite_inv (hqStat_inv g) g) (opAbandon_inv (opAbandon_inv (regSetBits_inv (regSetBits_inv ?_))))
  refine ite_inv (xbErr_inv ?_) ?_
  all_goals
    refine modBulk_inv (filter_inv (bhReqs_inv (foldl_inv (fun _ _ g => loanEnd_inv g) ?_)))
    refine foldl_inv (fun _ _ g => foldl_inv (fun _ _ k => ite_inv (savedDrop_inv k) k) g) (launchesDrop_inv (tasksDrop_inv (dropStores_inv ?_)))
    exact foldl_inv (fun _ _ g => foldl_inv (fun _ _ k => peBudget_inv k) g) (foldl_inv (fun _ _ g => foldl_inv (fun _ _ k => peBudget_inv k) g) h)

theorem relock_inv {s : State} {b} (h : PackageInv s) : PackageInv (relock s b) := regSetBits_inv (regSetBits_inv (regSetBits_inv h))

theorem execResetFenceDone_inv {s : State} {b} (h : PackageInv s) : OutInv (execResetFenceDone b s) :=
  outInv_next (ite_inv h (ite_inv (ite_inv (regSetBits_inv (regSetBits_inv (bhClear_inv (fenceAnswer_inv h))))
      (regSetBits_inv (bhClear_inv (fenceAnswer_inv h)))) (relock_inv
      (ite_inv (regSetBits_inv (regSetBits_inv (bhClear_inv (fenceAnswer_inv h)))) (regSetBits_inv (bhClear_inv (fenceAnswer_inv h)))))))

theorem execBhrstRelease_inv {s : State} {b} (h : PackageInv s) : OutInv (execBhrstRelease b s) := outInv_next (ite_inv h (relock_inv h))

theorem gatesClose_inv {s : State} {b} (h : PackageInv s) : PackageInv (gatesClose s b) :=
  foldl_inv (fun _ _ g => foldl_inv (fun _ _ k => ite_inv (regSetBits_inv k) k) (regSetBits_inv g))
      (foldl_inv (fun _ _ g => ite_inv (regSetBits_inv g) g) (regSetBits_inv h))

theorem bhRun_inv {s : State} {b} (h : PackageInv s) : PackageInv (bhRun s b) :=
  vfDoneFor_inv (foldl_inv (fun _ _ g => postEvent_inv g) (regSetBits_inv
      (foldl_inv (fun _ _ g => ite_inv g (regPut_inv (ownWord_inv g)))
      (modBulk_inv (ite_inv (gatesClose_inv (unfenceEdges_inv (regSetBits_inv h))) (unfenceEdges_inv (regSetBits_inv h)))))))

theorem stackZero_inv {s : State} {b} (h : PackageInv s) : PackageInv (stackZero s b) := ⟨stackZero_wf s b h.1, h.2⟩

theorem retenant_inv {s : State} {b} (h : PackageInv s) : PackageInv (retenant s b) :=
  modBulk_inv (frame_inv (foldl_inv (fun _ _ g => ite_inv g (vfLeave_inv g))
      (regSetBits_inv (frame_inv (foldl_inv (fun _ _ g => qClear_inv g) h)))))

theorem bhErr_inv {s : State} {b} (h : PackageInv s) : PackageInv (bhErr s b) := regSetBits_inv h

theorem execBhctlWrite_inv {s : State} {b v} (h : PackageInv s) : OutInv (execBhctlWrite b v s) :=
  outInv_next (ite_inv (bhErr_inv h) (regPut_inv (ite_inv (retenant_inv h) h)))

theorem execBhclkWrite_inv {s : State} {b v} (h : PackageInv s) : OutInv (execBhclkWrite b v s) :=
  outInv_next (ite_inv (bhErr_inv h) (ite_inv h (regPut_inv h)))

theorem reset_inv : PackageInv State.reset := ⟨rfl, .nil, fun _ hin => nomatch hin⟩

theorem execPowerOnBringup_inv {s : State} : OutInv (execPowerOnBringup s) :=
  outInv_next (ite_inv (frame_inv reset_inv) (foldl_inv (fun _ _ g => regSetBits_inv g) (frame_inv reset_inv)))

end Sys2Proof.Machine
end

section
/-! SUPPORT. Frozen masters, slots, spokes, registers and class 7 keep the invariants (R390 to R395, R403 to R458). -/

namespace Sys2Proof.Machine

theorem masterGo_inv {s : State} {b m} (h : PackageInv s) : PackageInv (masterGo s b m) := engineStart_inv (releaseMaster_inv h)

theorem frzRetry_inv {s : State} {b m vf} (h : PackageInv s) : PackageInv (frzRetry s b m vf) :=
  masterGo_inv (foldl_inv (fun _ _ g => cmdPut_inv g) (foldl_inv (fun _ _ g => reqAgain_inv g) h))

theorem reqAbandon_inv {s : State} {r v} (h : PackageInv s) : PackageInv (reqAbandon s r v) := reqFail_inv h

theorem frzFail_inv {s : State} {b m vf} (h : PackageInv s) : PackageInv (frzFail s b m vf) :=
  masterGo_inv (foldl_inv (fun _ _ g => cmdReply_inv (newError_inv g))
      (foldl_inv (fun _ _ g => reqAbandon_inv (newError_inv g)) (releaseMaster_inv h)))

theorem frzApply_inv {s : State} {b op m vf} (h : PackageInv s) : PackageInv (frzApply s b op m vf) := by
  unfold frzApply
  split
  · exact frzRetry_inv h
  · exact frzFail_inv h
  · exact freezeMaster_inv h
  · exact h

theorem frzWrite_inv {s : State} {b op m vf} (h : PackageInv s) : PackageInv (frzWrite s b op m vf) := ite_inv (frzApply_inv h) (modBulk_inv h)
theorem execFrzctlRetry_inv {s : State} {b m vf} (h : PackageInv s) : OutInv (execFrzctlRetry b m vf s) := outInv_next (frzWrite_inv h)
theorem execFrzctlFail_inv {s : State} {b m vf} (h : PackageInv s) : OutInv (execFrzctlFail b m vf s) := outInv_next (frzWrite_inv h)
theorem execFrzctlFreeze_inv {s : State} {b m vf} (h : PackageInv s) : OutInv (execFrzctlFreeze b m vf s) := outInv_next (frzWrite_inv h)
theorem switchOut_inv {s : State} {b sl vf} (h : PackageInv s) : PackageInv (switchOut s b sl vf) := foldl_inv (fun _ _ g => modSlot_inv g) h
theorem loadAbandon_inv {s : State} {c} (h : PackageInv s) : PackageInv (loadAbandon s c) := cmdPut_inv (frame_inv h)

theorem saveCmds_inv {s : State} {b vf pes} (h : PackageInv s) : PackageInv (saveCmds s b vf pes) :=
  foldl_inv (fun _ _ g => ite_inv (loadAbandon_inv g) (ite_inv (cmdPut_inv g) g)) (foldl_inv (fun _ _ g => loadAbandon_inv g) h)

theorem writeRuns_inv {s : State} {vf base rs} (h : PackageInv s) : PackageInv (writeRuns s vf base rs) := foldl_inv (fun _ _ g => ownPut_inv g) h
theorem chargeKib_inv {s : State} {b sl n} (h : PackageInv s) : PackageInv (chargeKib s b sl n) := charge_inv h

theorem saveWrite_inv {s : State} {b sl vf} (h : PackageInv s) : PackageInv (saveWrite s b sl vf) :=
  ite_inv (saveMeet_inv h) (memPutLe_inv (foldl_inv (fun _ _ g => writeRuns_inv g) (writeRuns_inv (writeRuns_inv (drawn_inv (saveMeet_inv h))))))

theorem saveSlot_inv {s : State} {b vf sl} (h : PackageInv s) : PackageInv (saveSlot s b vf sl) :=
  slotReset_inv (frame_inv (saveWrite_inv (nrgKeep_inv (foldSlot_inv (chargeKib_inv (foldl_inv (fun _ _ g => modPE_inv g) h))))))

theorem slotNext_inv {s : State} {b vf sl} (h : PackageInv s) : PackageInv (slotNext s b vf sl) := by
  unfold slotNext
  dsimp only
  split
  · exact modSlot_inv (ite_inv (loanEnd_inv h) h)
  · exact ite_inv (loanEnd_inv h) h

theorem saveGroup_inv {s : State} {b vf g} (h : PackageInv s) : PackageInv (saveGroup s b vf g) :=
  foldl_inv (fun _ _ g => slotNext_inv g) (frame_inv (foldl_inv (fun _ _ g => saveSlot_inv g) (saveCmds_inv h)))

theorem execContextSave_inv {s : State} {b sl} (h : PackageInv s) : OutInv (execContextSave b sl s) := by
  unfold execContextSave
  refine outInv_next (ite_inv h ?_)
  dsimp only
  split
  · split
    · exact detach_inv h
    · exact h
  · exact ite_inv (saveGroup_inv h) h

theorem blockMeet_inv {s : State} {vf blk pes} (h : PackageInv s) : PackageInv (blockMeet s vf blk pes) :=
  foldl_inv (fun _ _ g => foldl_inv (fun _ _ k => ownMeet_inv k) (ownMeet_inv g)) (ownMeet_inv (ownMeet_inv h))

theorem slotLoad_inv {s0 : State} {b vf sl} (h : PackageInv s0) : PackageInv (slotLoad s0 b vf sl) := by
  unfold slotLoad
  dsimp only
  split
  · exact modSlot_inv (slotReset_inv (saveMeet_inv h))
  · exact chargeKib_inv (frame_inv (memPutLe_inv (setSlot_inv
      (modBulk_inv (foldl_inv (fun _ _ g => frame_inv g) (foldl_inv (fun _ _ g => setPE_inv g) (blockMeet_inv (saveMeet_inv h))))))))

theorem vaRead_inv {s : State} {b vf va n} (h : PackageInv s) : PackageInv (vaRead s b vf va n).1 := by
  unfold vaRead
  refine foldl_fst_inv (fun _ _ g => ?_) h
  split
  · exact g
  · dsimp only
    split
    · exact pageTouch_inv g
    · exact ite_fst_inv (pageTouch_inv g) (ownMeet_inv (pageTouch_inv g))

theorem cfgReread_inv {s : State} {c} (h : PackageInv s) : PackageInv (cfgReread s c) := by
  unfold cfgReread
  dsimp only
  split
  · exact vaRead_inv h
  · split
    · exact vaRead_inv (vaRead_inv h)
    · exact ite_inv (vaRead_inv (vaRead_inv h)) (foldl_inv (fun _ _ g => modPE_inv g) (cfgPut_inv (vaRead_inv (vaRead_inv h))))

theorem cfgsReload_inv {s : State} {b vf} (h : PackageInv s) : PackageInv (cfgsReload s b vf) := by
  unfold cfgsReload
  refine foldl_inv (fun _ _ g => ?_) h
  dsimp only
  split
  · exact cfgPut_inv (cfgReread_inv g)
  · exact cfgReread_inv g

theorem peClean_inv {s : State} {b pe} (h : PackageInv s) : PackageInv (peClean s b pe) :=
  foldl_inv (fun _ _ g => frameFree_inv g) (boundaryOver_inv (readyDiscard_inv h))

theorem tagsBack_inv {s : State} {b vf pe} (h : PackageInv s) : PackageInv (tagsBack s b vf pe) :=
  foldl_inv (fun _ _ g => tagFollow_inv g) (modPE_inv h)

theorem unspill_inv {s : State} {t} (h : PackageInv s) : PackageInv (unspill s t) := by
  unfold unspill
  refine ite_inv (modPE_inv h) ?_
  split
  · next e =>
    exact takeToken_inv h _ e
  · exact modPE_inv h

theorem ringDeliver_inv {s : State} {b vf sl} (h : PackageInv s) : PackageInv (ringDeliver s b vf sl) :=
  ite_inv h (foldl_inv (fun _ _ g => unspill_inv g) (memPutLe_inv (foldl_inv (fun _ _ g => ownMeet_inv g) (ownMeet_inv h))))

theorem frzPending_inv {s : State} {b vf} (h : PackageInv s) : PackageInv (frzPending s b vf) :=
  foldl_inv (fun _ _ g => frzApply_inv g) (modBulk_inv h)

theorem restoreGroup_inv {s : State} {b vf g} (h : PackageInv s) : PackageInv (restoreGroup s b vf g) :=
  foldl_inv (fun _ _ g => ringDeliver_inv g) (foldl_inv (fun _ _ g => engineStart_inv g)
      (frzPending_inv (foldl_inv (fun _ _ g => tagsBack_inv (peClean_inv g)) (cfgsReload_inv (foldl_inv (fun _ _ g => slotLoad_inv g) h)))))

theorem execContextRestore_inv {s : State} {b sl crcOk} (h : PackageInv s) : OutInv (execContextRestore b sl crcOk s) := by
  unfold execContextRestore
  refine outInv_next ?_
  split
  · exact h
  · exact ite_inv h (ite_inv (restoreGroup_inv h) (vfResetAll_inv (postEvent_inv h)))

theorem execSlotownWrite_inv {s : State} {b sl v} (h : PackageInv s) : OutInv (execSlotownWrite b sl v s) := outInv_next (regPut_inv h)

theorem xfersEnd_inv {s : State} {b sl vf} (h : PackageInv s) : PackageInv (xfersEnd s b sl vf) :=
  foldl_inv (fun _ _ g => cmdReply_inv (newError_inv g)) h

theorem consumersDetach_inv {s : State} {b sl vf} (h : PackageInv s) : PackageInv (consumersDetach s b sl vf) := by
  unfold consumersDetach
  refine foldl_inv (fun _ _ g => ?_) h
  refine foldl_inv (fun _ _ k => ?_) g
  refine ite_inv k (foldl_inv (fun _ _ j => ?_) k)
  refine ite_inv j ?_
  split
  · exact detach_inv j
  · exact j

theorem execSlotReclaim_inv {s : State} {b sl} (h : PackageInv s) : OutInv (execSlotReclaim b sl s) := by
  unfold execSlotReclaim
  refine outInv_next (ite_inv h ?_)
  dsimp only
  split
  · exact switchOut_inv (modSlot_inv (consumersDetach_inv (xfersEnd_inv h)))
  · exact modSlot_inv (consumersDetach_inv (xfersEnd_inv h))
  · exact loanEnd_inv (modSlot_inv (foldSlot_inv (modSlot_inv (consumersDetach_inv (xfersEnd_inv h)))))

theorem execHostAcknowledgement_inv {s : State} {req piece bytes} (h : PackageInv s) : OutInv (execHostAcknowledgement req piece bytes s) := by
  unfold execHostAcknowledgement
  refine outInv_next ?_
  split
  · exact h
  · split
    · exact h
    · refine ite_inv h ?_
      split
      · exact reqSettle_inv (wstatRefresh_inv (ite_inv (pieceDone_inv h) (piecePut_inv (newId_inv h))))
      · exact ite_inv h (reqSettle_inv (wstatRefresh_inv (pieceDone_inv h)))

theorem spkstatPut_inv {s : State} {n v} (h : PackageInv s) : PackageInv (spkstatPut s n v) := h

theorem execSpokeLinkDown_inv {s : State} {port} (h : PackageInv s) : OutInv (execSpokeLinkDown port s) := by
  unfold execSpokeLinkDown
  refine outInv_next (ite_inv h (foldl_inv (fun _ _ g => ?_) (spkstatPut_inv h)))
  refine reqSettle_inv (foldl_inv (fun _ _ k => ?_) g)
  split
  · exact k
  · exact pieceDone_inv (newReqError_inv k)

theorem replyFlit_inv {s : State} {port fl code data} (h : PackageInv s) : PackageInv (replyFlit s port fl code data) := h

theorem spokeRefuse_inv {s : State} {b port fl} (h : PackageInv s) : PackageInv (spokeRefuse s b port fl) :=
  replyFlit_inv (postEvent_inv (draw_inv h))

theorem remoteAccess_inv {s : State} {fl n} (h : PackageInv s) : PackageInv (remoteAccess s fl n).2.2 :=
  ite_snd_snd_inv (ownTry_inv h) (ite_snd_snd_inv (ownMeet_inv h) (ownMeet_inv h))

theorem remoteContinue_inv {s : State} {b fl} (h : PackageInv s) : PackageInv (remoteContinue s b fl) :=
  ite_inv (unitPoison_inv (ownMeet_inv (ownWord_inv h))) (commandEnter_inv (ownMeet_inv (ownWord_inv h)) rfl)

theorem remoteJoin_inv {s : State} {b fl} (h : PackageInv s) : PackageInv (remoteJoin s b fl) :=
  ite_inv (unitPoison_inv (unitMeet_inv h)) (ite_inv (remoteContinue_inv (blockWrite_inv (unitMeet_inv h)))
      (ite_inv (postEvent_inv (blockWrite_inv (unitMeet_inv h))) (blockWrite_inv (unitMeet_inv h))))

theorem remoteAtom_inv {s : State} {b port fl a} (h : PackageInv s) : PackageInv (remoteAtom s b port fl a).1 := performAtom_inv h

theorem execSpokeRequestReceive_inv {s : State} {port fl} (h : PackageInv s) : OutInv (execSpokeRequestReceive port fl s) :=
  outInv_next (ite_inv h (ite_inv (replyFlit_inv h) (ite_inv h
      (ite_inv (spokeRefuse_inv h) (ite_inv (replyFlit_inv (remoteAccess_inv h))
      (ite_inv (replyFlit_inv (remoteJoin_inv (draw_inv h))) (replyFlit_inv (remoteAtom_inv (draw_inv h)))))))))

theorem execSpokeReplyReceive_inv {s : State} {port fl} (h : PackageInv s) : OutInv (execSpokeReplyReceive port fl s) := by
  unfold execSpokeReplyReceive
  refine outInv_next ?_
  dsimp only
  split
  · exact h
  · split
    · exact h
    · exact ite_inv h (ite_inv (reqSettle_inv (pieceDone_inv (newReqError_inv h))) (reqSettle_inv (pieceDone_inv h)))

theorem doorToken_inv {s : State} {b port w0 kind v prio} (h : PackageInv s) : PackageInv (doorToken s b port w0 kind v prio) := h
theorem attErr_inv {s : State} {b} (h : PackageInv s) : PackageInv (attErr s b) := regSetBits_inv h

theorem attWrite_inv {s : State} {b v} (h : PackageInv s) : PackageInv (attWrite s b v) :=
  ite_inv h (ite_inv (attErr_inv h) (regSetBits_inv (regPut_inv h)))

theorem execAttest_inv {s : State} {b v} (h : PackageInv s) : OutInv (execAttest b v s) := by
  unfold execAttest
  refine outInv_next (ite_inv h ?_)
  dsimp only
  split
  · exact ite_inv (attErr_inv (ownMeet_inv (regSetBits_inv (regPut_inv h))))
      (ite_inv (ownTry_inv (ownMeet_inv (regSetBits_inv (regPut_inv h)))) (attErr_inv (ownTry_inv (ownMeet_inv (regSetBits_inv (regPut_inv h))))))
  · exact ite_inv (attErr_inv (drawn_inv (regSetBits_inv (regPut_inv h)))) (drawn_inv (regSetBits_inv (regPut_inv h)))
  · exact attErr_inv (regSetBits_inv (regPut_inv h))

theorem execDbgvalWrite_inv {s : State} {b v} (h : PackageInv s) : OutInv (execDbgvalWrite b v s) := by
  unfold execDbgvalWrite
  refine outInv_next ?_
  dsimp only
  split
  · exact h
  · exact frame_inv h

theorem execDebugTokenDeliver_inv {s : State} {k} (h : PackageInv s) : OutInv (execDebugTokenDeliver k s) := by
  unfold execDebugTokenDeliver
  refine outInv_next ?_
  split
  · exact h
  · exact ite_inv h (frame_inv h)

theorem regMasked_inv {s : State} {b off v m} (h : PackageInv s) : PackageInv (regMasked s b off v m) := regPut_inv h

theorem execBhgateWrite_inv {s : State} {b v} (h : PackageInv s) : OutInv (execBhgateWrite b v s) :=
  outInv_next (ite_inv (regMasked_inv h) (bhErr_inv h))

theorem rangeWrite_inv {s : State} {b base w v m} (h : PackageInv s) : PackageInv (rangeWrite s b base w v m) :=
  ite_inv (bhErr_inv h) (ite_inv (regPut_inv h) (regPut_inv h))

theorem execWintabWrite_inv {s : State} {b en w v} (h : PackageInv s) : OutInv (execWintabWrite b en w v s) := outInv_next (rangeWrite_inv h)

theorem execAptabWrite_inv {s : State} {b a v} (h : PackageInv s) : OutInv (execAptabWrite b a v s) :=
  outInv_next (ite_inv (bhErr_inv h) (regMasked_inv h))

theorem bcErr_inv {s : State} {b} (h : PackageInv s) : PackageInv (bcErr s b) := regSetBits_inv h

theorem bcBegin_inv {s : State} {b v} (h : PackageInv s) : PackageInv (bcBegin s b v) := by
  unfold bcBegin
  split
  · exact h
  · exact bcErr_inv h
  · exact regSetBits_inv (regPut_inv h)

theorem bcEnd_inv {s : State} {b} (h : PackageInv s) : PackageInv (bcEnd s b) := regSetBits_inv (regPut_inv h)

theorem installSource_inv {s : State} {b a n} (h : PackageInv s) : PackageInv (installSource s b a n).2 := by
  unfold installSource
  split
  · exact ite_snd_inv h (ownMeet_inv h)
  · exact drawn_inv h
  · exact h

theorem blockInstall_inv {s : State} {b md} (h : PackageInv s) : PackageInv (blockInstall s b md) := by
  unfold blockInstall
  refine ite_inv (bcErr_inv h) ?_
  dsimp only
  split
  · exact bcErr_inv (installSource_inv h)
  · split
    · exact bcErr_inv (installSource_inv h)
    · exact frame_inv (eccClear_inv (memPut_inv (installSource_inv h)))

theorem blockRegWrite_inv {s t : State} {b} (hs : PackageInv s) (ht : PackageInv t) : PackageInv (blockRegWrite s b t) := ite_inv (bcErr_inv hs) ht

theorem nextOf_inv {o : Host.Outcome State Fault Refusal} {s : State} (ho : OutInv o) (h : PackageInv s) : PackageInv (nextOf o s) := by
  cases o with
  | next t => exact ho t rfl
  | fault => exact h
  | refused => exact h

theorem xbinvWrite_inv {s : State} {b v} (h : PackageInv s) : OptInv id (xbinvWrite s b v) := by
  unfold xbinvWrite
  split <;> exact xbinvPush_inv h

theorem regWrite_inv {s : State} {b off v} (h : PackageInv s) : OptInv id (regWrite s b off v) := by
  unfold regWrite
  dsimp only
  split
  · exact optInv_some h
  · split
    · exact optInv_some (nextOf_inv (execVfrootWrite_inv h) h)
    · exact xbinvWrite_inv h
    · refine optInv_some ?_
      split
      · exact h
      · exact nextOf_inv (execFqctlReplay_inv h) h
      · exact nextOf_inv (execFqctlDrop_inv h) h
      · exact nextOf_inv (execFqctlBadOp_inv h) h
    · exact optInv_some (blockRegWrite_inv h (bcBegin_inv h))
    · exact optInv_some (blockRegWrite_inv h (regMasked_inv h))
    · exact optInv_some (blockRegWrite_inv h (regMasked_inv h))
    · exact optInv_some (blockRegWrite_inv h (regMasked_inv h))
    · exact optInv_some (nextOf_inv (execVfscopeWrite_inv h) h)
    · exact optInv_some (nextOf_inv (execQckeyWrite_inv h) h)
    · exact optInv_some (nextOf_inv (execQuantWrite_inv h) h)
    · exact optInv_some (nextOf_inv (execSlotownWrite_inv h) h)
    · exact optInv_some (nextOf_inv (execBhctlWrite_inv h) h)
    · exact optInv_some (nextOf_inv (execBhclkWrite_inv h) h)
    · exact optInv_some (nextOf_inv (execBhgateWrite_inv h) h)
    · exact optInv_some (ite_inv (nextOf_inv (execBhrstRelease_inv (ite_inv (nextOf_inv (execBhrstGo_inv h) h) h))
        (ite_inv (nextOf_inv (execBhrstGo_inv h) h) h)) (ite_inv (nextOf_inv (execBhrstGo_inv h) h) h))
    · refine optInv_some ?_
      split
      · exact h
      · exact nextOf_inv (execFrzctlRetry_inv h) h
      · exact nextOf_inv (execFrzctlFail_inv h) h
      · exact nextOf_inv (execFrzctlFreeze_inv h) h
    · exact optInv_some (ite_inv (nextOf_inv (execVfReset_inv h) h) h)
    · exact optInv_some (nextOf_inv (execDbgvalWrite_inv h) h)
    · exact optInv_some (nextOf_inv (execWintabWrite_inv h) h)
    · exact optInv_some (frame_inv (regMasked_inv h))
    · exact optInv_some (nextOf_inv (execAptabWrite_inv h) h)
    · exact optInv_some (nextOf_inv (execHqrecCommit_inv h) h)
    · exact optInv_some (ite_inv h (regPut_inv h))
    · exact optInv_some (rangeWrite_inv h)
    · exact optInv_some (attWrite_inv h)
    · exact optInv_some (nextOf_inv (execQueueEnable_inv h) h)
    · exact optInv_some (ite_inv h (regMasked_inv h))
    · exact optInv_some (nextOf_inv (execQcapRightsWrite_inv h) h)
    · exact optInv_some (regMasked_inv h)

theorem issueSilent_inv {s : State} {c} (h : PackageInv s) : PackageInv (issueSilent s c) := pushIssued_inv (charge_inv h)

theorem execTrap_inv {s : State} {n} (h : PackageInv s) : OutInv (execTrap n s) := by
  unfold execTrap
  refine outInv_next (fire_inv h (fun _ _ g => ?_))
  refine optInv_some ?_
  split
  · exact sendFlight_inv (issueSilent_inv g)
  · exact postEvent_inv (issueSilent_inv g)

theorem sysNode_inv {s : State} {code n} (h : PackageInv s) : PackageInv (sysNode s code n) :=
  fire_inv h (fun _ _ g => optInv_ite (failCode_inv g) (optInv_ite optInv_none
      (optInv_some (commandEnter_inv (charge_inv g) ((charge_nextId _ _ _ _ _).symm)))))

theorem sysRefuse_inv {s : State} {c a} (h : PackageInv s) : PackageInv (sysRefuse s c a) :=
  ite_inv (cmdDel_inv (takeFault_inv h)) (cmdPut_inv (takeFault_inv h))

theorem sysStep_inv {s : State} {c} (h : PackageInv s) : PackageInv (sysStep s c) := by
  unfold sysStep
  refine ite_inv h ?_
  split
  · exact cmdReply_inv h
  · refine ite_inv (sysRefuse_inv h) (ite_inv (cmdReply_inv h) (ite_inv (cmdReply_inv h) ?_))
    split
    · exact h
    · next e1 =>
      split
      · exact regWrite_inv h _ e1
      · exact cmdReply_inv (regWrite_inv h _ e1)

theorem execNrgRd_inv {s : State} {n} (h : PackageInv s) : OutInv (execNrgRd n s) :=
  outInv_next (fire_inv h (fun _ _ g => optInv_ite optInv_none (optInv_some (commandEnter_inv (charge_inv g) rfl))))

theorem dropStep_inv {s : State} {c} (h : PackageInv s) : PackageInv (dropStep s c) := by
  unfold dropStep
  split
  · exact cmdReply_inv h
  · exact ite_inv h (ite_inv (cmdPut_inv (publishFinal_inv h)) (ite_inv h (cmdReply_inv (cfgDropAll_inv h))))

theorem execWinOpen_inv {s : State} {n} (h : PackageInv s) : OutInv (execWinOpen n s) :=
  outInv_next (fire_inv h (fun _ _ g => optInv_ite optInv_none
      (optInv_some (sendReq_inv (commandEnter_inv (charge_inv g) ((charge_nextId _ _ _ _ _).symm))))))

theorem winStep_inv {s : State} {c} (h : PackageInv s) : PackageInv (winStep s c) := by
  unfold winStep
  split
  · exact h
  · refine ite_inv h ?_
    split
    · exact cmdReply_inv h
    · refine ite_inv (cmdReply_inv (newError_inv h)) ?_
      split
      · exact cmdReply_inv h
      · exact cmdReply_inv (regPut_inv (regPut_inv h))

theorem execWinClose_inv {s : State} {n} (h : PackageInv s) : OutInv (execWinClose n s) :=
  outInv_next (fire_inv h (fun _ _ g => optInv_ite (failCode_inv g)
      (optInv_ite optInv_none (optInv_some (commandEnter_inv (charge_inv g) ((charge_nextId _ _ _ _ _).symm))))))

theorem closeStep_inv {s : State} {c} (h : PackageInv s) : PackageInv (closeStep s c) := ite_inv (cmdReply_inv h) (cmdPut_inv h)

theorem windowsClose_inv {s : State} {b} (h : PackageInv s) : PackageInv (windowsClose s b) :=
  foldl_inv (fun _ _ g => cmdReply_inv (regSetBits_inv g)) h

theorem execQueueControllerOp_inv {s : State} {cmd} (h : PackageInv s) : OutInv (execQueueControllerOp cmd s) := by
  unfold execQueueControllerOp
  refine outInv_next ?_
  split
  · exact h
  · refine ite_inv h ?_
    split
    · exact queueStep_inv h
    · exact queueStep_inv h
    · exact queueStep_inv h
    · exact queueStep_inv h
    · exact queueStep_inv h
    · exact queueStep_inv h
    · exact queueStep_inv h
    · exact snapStep_inv h
    · exact yieldStep_inv h
    · exact sysStep_inv h
    · exact sysStep_inv h
    · exact ite_inv (cmdReply_inv h) h
    · exact dropStep_inv h
    · exact winStep_inv h
    · exact closeStep_inv h
    · exact h

end Sys2Proof.Machine
end

section
/-! SUPPORT. Every step keeps the invariants: O60. -/

namespace Sys2Proof.Machine

theorem issuing_inv {s : State} {f} (h : PackageInv s) : PackageInv (issuing s f) := h

theorem surveyed_inv {s : State} {i} (h : PackageInv s) : PackageInv (surveyed s i) := by
  unfold surveyed
  split
  · exact modBulk_inv h
  · exact h

theorem ageAll_inv {s : State} {b pe} (h : PackageInv s) : PackageInv (ageAll s b pe) := ite_inv h (modPE_inv h)

theorem peCycle_inv {s : State} {b pe} (h : PackageInv s) : PackageInv (peCycle s b pe) :=
  ite_inv (coordCycle_inv (ageAll_inv h)) (heldRetry_inv (coordCycle_inv (ageAll_inv h)))

theorem tick_inv {s : State} {b} (h : PackageInv s) : PackageInv (tick s b) :=
  ite_inv h (ite_inv (foldl_inv (fun _ _ g => ite_inv g (modSlot_inv g))
      (modBulk_inv (ite_inv (windowsClose_inv (endCycle_inv (countersEnd_inv (foldsEnd_inv h)))) h)))
      (tstAgain_inv (foldl_inv (fun _ _ g => peCycle_inv g)
      (foldl_inv (fun _ _ g => ite_inv g (modSlot_inv g)) (modBulk_inv
      (ite_inv (windowsClose_inv (endCycle_inv (countersEnd_inv (foldsEnd_inv h)))) h))))))

/-- Every row of the opcode table keeps the invariants, by the operations that its meaning uses. -/
theorem exec_inv {i : Instr} {s : State} (h : PackageInv s) : OutInv (exec i s) := by
  cases i with
  | nop _ | mov _ | const _ | sink _ | switch _ | merge _ | gate _ | nullify _ | isnull _ | iserr _ | errcode _ | frameof _ | relay _ | trel _ =>
    exact outInv_next (fire_inv h (fun _ _ g => issueSimple_inv g))
  | mkerr _ => exact outInv_next (fire_inv h (fun _ _ g => issueSimple_inv (newError_inv g)))
  | falloc _ => exact execFalloc_inv h
  | ffree _ => exact execFfree_inv h
  | flink _ => exact outInv_next (fire_inv h (fun _ _ g => optInv_ite (failCode_inv g) (issueSimple_inv g)))
  | send _ => exact execSend_inv h
  | count _ => exact outInv_next (fire_inv h (fun _ _ g => optInv_ite (issueSimple_inv g) (issueSimple_inv (modPE_inv g))))
  | halt _ => exact outInv_next (fire_inv h (fun _ _ g => issueSimple_inv (haltLaunch_inv g)))
  | add _ | sub _ | neg _ | min _ | max _ | abs _ | and _ | or _ | xor _ | not _ | shl _ | shr _ | sar _ | rotl _ | clz _ | ctz _ | popc _ | cmp _
      | sel _ | addsat _ | subsat _ | ext _ | ins _ | cvt _ | idx _ =>
    exact outInv_next (fireSimple_inv h)
  | mul _ | mulh _ => exact outInv_next (fireMul_inv h)
  | div _ | rem _ => exact outInv_next (fireDiv_inv h)
  | bnd _ => exact outInv_next (fire_inv h (fun _ _ g => optInv_ite (scalarIssue_inv g) (failCode_inv g)))
  | fadd _ | fsub _ | fmul _ | ffma _ | fmin _ | fmax _ | fabs _ | fneg _ | fcmp _ | fcvt _ | frnd _ | fclass _ | fscl _ =>
    exact outInv_next (fireFloat_inv h)
  | frcp _ | frsq _ | fsqrt _ | fdiv _ => exact outInv_next (fireFdiv_inv h)
  | fexp2 _ | flog2 _ | ftanh _ | fsigm _ => exact outInv_next (fireSpecial_inv h)
  | tadd _ | tsub _ | tmul _ | tfma _ | tmin _ | tmax _ | tabs _ | tneg _ => exact outInv_next (elementwise_inv h)
  | tscl _ => exact execTscl_inv h
  | tbias _ => exact execTbias_inv h
  | tclamp _ => exact execTclamp_inv h
  | tact _ => exact execTact_inv h
  | tred _ => exact execTred_inv h
  | ttr _ | tbc _ => exact outInv_next (rearrange_inv h)
  | tsel _ => exact execTsel_inv h
  | tcmp _ => exact execTcmp_inv h
  | tcpy _ => exact execTcpy_inv h
  | tview _ => exact execTview_inv h
  | tcond _ => exact execTcond_inv h
  | tcvt _ => exact execTcvt_inv h
  | trng _ => exact execTrng_inv h
  | tfill _ | tiota _ => exact outInv_next (filled_inv h)
  | accNew _ => exact execAccNew_inv h
  | accZero _ => exact outInv_next (fire_inv h (fun _ _ g => issueAcc_inv (modPE_inv g)))
  | accFree _ => exact outInv_next (fire_inv h (fun _ _ g => issueAcc_inv g))
  | accGet _ => exact execAccGet_inv h
  | mma _ => exact execMma_inv h
  | mmaPair _ => exact execMmaPair_inv h
  | smma _ => exact execSmma_inv h
  | accDrain _ => exact execAccDrain_inv h
  | accRl _ => exact execAccRl_inv h
  | rlIns _ => exact execRlIns_inv h
  | rlMerge _ => exact execRlMerge_inv h
  | rlOut _ => exact execRlOut_inv h
  | rlThr _ => exact outInv_next (fire_inv h (fun _ _ g => optInv_ite (comboOut_inv g) (optInv_ite (comboOut_inv g) (issueAcc_inv g))))
  | ld _ | ldt _ => exact outInv_next (loadElem_inv h)
  | st _ | stt _ => exact outInv_next (storeElem_inv h)
  | tld _ => exact execTld_inv h
  | tst _ => exact execTst_inv h
  | talloc _ => exact execTalloc_inv h
  | tref _ => exact outInv_next (fire_inv h (fun _ _ g => optInv_ite (failCode_inv g) (issueSimple_inv (setPE_inv g))))
  | pumpGet _ | pumpPut _ | pumpXfer _ | pumpMcast _ | gather _ | scatter _ => exact outInv_next (engineNode_inv h)
  | stream _ => exact execStream_inv h
  | atomAdd _ | atomFadd _ | atomMin _ | atomMax _ | atomAnd _ | atomOr _ | atomXor _ | atomXchg _ | atomCas _ => exact outInv_next (atomNode_inv h)
  | redAdd _ | redFadd _ | redMin _ | redMax _ | redAnd _ | redOr _ | redXor _ => exact outInv_next (redNode_inv h)
  | phase _ => exact execPhase_inv h
  | fence _ => exact execFence_inv h
  | afence _ => exact execAfence_inv h
  | spawn _ => exact execSpawn_inv h
  | join _ => exact outInv_next (fire_inv h (fun _ _ g => optInv_ite (failCode_inv g) (optInv_some (sendReq_inv (charge_inv g)))))
  | enq _ | deq _ | steal _ | qlen _ | cfgDrop _ => exact outInv_next (commandNode_inv h)
  | barArrive _ => exact outInv_next (fire_inv h (fun _ _ g => issueSimple_inv (modPE_inv g)))
  | barComb _ => exact execBarComb_inv h
  | rcntAdd _ => exact execRcntAdd_inv h
  | rcntSnap _ => exact execRcntSnap_inv h
  | yield _ => exact execYield_inv h
  | trap _ => exact execTrap_inv h
  | brk _ => exact outInv_next (fire_inv h (fun _ _ g => optInv_some (freezeMaster_inv (postEvent_inv (issueSilent_inv g)))))
  | evt _ => exact outInv_next (fire_inv h (fun _ _ g => optInv_some (postEvent_inv (issueSilent_inv g))))
  | sysrd _ | syswr _ => exact outInv_next (sysNode_inv h)
  | nrgRd _ => exact execNrgRd_inv h
  | seed _ => exact outInv_next (fire_inv h (fun _ _ g => optInv_ite (failCode_inv g) (optInv_some (pushIssued_inv (charge_inv (modSlot_inv g))))))
  | cfgLd _ => exact execCfgLd_inv h
  | winOpen _ => exact execWinOpen_inv h
  | winClose _ => exact execWinClose_inv h
  | tokenArrival _ => exact execTokenArrival_inv h
  | coordinateToken _ => exact execCoordinateToken_inv h
  | resultEmit _ _ _ => exact execResultEmit_inv h
  | readyAging _ _ _ => exact execReadyAging_inv h
  | windowWrite _ _ => exact execWindowWrite_inv h
  | windowAccessPerform _ _ => exact execWindowAccessPerform_inv h
  | wellTranslate _ => exact execWellTranslate_inv h
  | pageWalkComplete _ _ _ => exact execPageWalkComplete_inv h
  | parkRefusedRetry _ => exact execParkRefusedRetry_inv h
  | fqctlReplay _ _ => exact execFqctlReplay_inv h
  | fqctlDrop _ _ => exact execFqctlDrop_inv h
  | fqctlBadOp _ _ _ => exact execFqctlBadOp_inv h
  | xbinvVf _ _ | xbinvVa _ _ _ | xbinvAll _ | xbinvBad _ => exact outInv_next (getD_inv (xbinvPush_inv h) h)
  | xbinvComplete _ => exact execXbinvComplete_inv h
  | vfrootWrite _ _ => exact execVfrootWrite_inv h
  | sectorAdmit _ _ => exact execSectorAdmit_inv h
  | sectorReturn _ _ => exact execSectorReturn_inv h
  | fetchReply _ _ _ => exact execFetchReply_inv h
  | inboundAccept _ _ => exact execInboundAccept_inv h
  | edgeCrossing _ _ => exact execEdgeCrossing_inv h
  | sparseUpdateOp _ _ => exact execSparseUpdateOp_inv h
  | joinCounterUpdate _ _ => exact execJoinCounterUpdate_inv h
  | eccWriteback _ => exact outInv_next (ite_inv (eccPut_inv h) h)
  | scrubStep _ => exact outInv_next (ite_inv h (foldl_inv (fun _ _ g => ite_inv g (foldl_inv (fun _ _ k => scrubCw_inv k) g)) (modBulk_inv h)))
  | phaseBoundary _ => exact execPhaseBoundary_inv h
  | cisternFull _ _ => exact execCisternFull_inv h
  | blockInstall _ _ => exact outInv_next (ite_inv (blockInstall_inv (bcEnd_inv h)) h)
  | blockMetaRead _ => exact outInv_next (ite_inv (regSetBits_inv (bcEnd_inv h)) h)
  | bcctlBadOp _ => exact outInv_next (bcErr_inv h)
  | engineCompletion _ => exact execEngineCompletion_inv h
  | streamElement _ => exact execStreamElement_inv h
  | mcastLagExpire _ => exact execMcastLagExpire_inv h
  | pairMessage _ _ => exact execPairMessage_inv h
  | pairLimitExpire _ _ _ => exact execPairLimitExpire_inv h
  | barrierLimitExpire _ _ _ _ => exact execBarrierLimitExpire_inv h
  | rngGeneratorServe _ _ => exact execRngGeneratorServe_inv h
  | starve _ _ => exact execStarve_inv h
  | placementRetry _ => exact execPlacementRetry_inv h
  | launchTake _ _ => exact execLaunchTake_inv h
  | launchStart _ => exact execLaunchStart_inv h
  | launchQuiesce _ => exact execLaunchQuiesce_inv h
  | launchEnd _ => exact execLaunchEnd_inv h
  | queueControllerOp _ => exact execQueueControllerOp_inv h
  | taskAccept _ => exact execTaskAccept_inv h
  | dispatchDecision _ => exact execDispatchDecision_inv h
  | taskComplete _ => exact execTaskComplete_inv h
  | hqrecCommit _ _ _ => exact execHqrecCommit_inv h
  | queueEnable _ _ _ => exact execQueueEnable_inv h
  | qckeyWrite _ _ => exact execQckeyWrite_inv h
  | qcapRightsWrite _ _ _ => exact execQcapRightsWrite_inv h
  | quantumEnd _ _ => exact outInv_next (ite_inv h (ite_inv h (ite_inv (switchOut_inv h) (setSlot_inv h))))
  | contextSave _ _ => exact execContextSave_inv h
  | contextRestore _ _ _ => exact execContextRestore_inv h
  | quantWrite _ _ _ _ => exact execQuantWrite_inv h
  | slotownWrite _ _ _ => exact execSlotownWrite_inv h
  | slotLend _ _ _ =>
    exact outInv_next (ite_inv h (modSlot_inv (regPut_inv (foldl_inv (fun _ _ g => quantSet_inv g) (slotReset_inv (foldSlot_inv h))))))
  | slotReclaim _ _ => exact execSlotReclaim_inv h
  | vfscopeWrite _ _ => exact execVfscopeWrite_inv h
  | energyFold _ _ => exact outInv_next (ite_inv h (setSlot_inv h))
  | bhrstGo _ _ _ => exact execBhrstGo_inv h
  | bhrstRelease _ => exact execBhrstRelease_inv h
  | resetFenceDone _ => exact execResetFenceDone_inv h
  | resetRelockDone _ => exact outInv_next (ite_inv h (ite_inv (regSetBits_inv (regSetBits_inv h)) (bhRun_inv (regSetBits_inv h))))
  | resetScrubDone _ => exact outInv_next (ite_inv h (bhRun_inv (stackZero_inv h)))
  | bhctlWrite _ _ => exact execBhctlWrite_inv h
  | bhgateWrite _ _ => exact execBhgateWrite_inv h
  | wintabWrite _ _ _ _ => exact execWintabWrite_inv h
  | bhclkWrite _ _ => exact execBhclkWrite_inv h
  | clockLock _ => exact outInv_next (ite_inv h (regSetBits_inv h))
  | aptabWrite _ _ _ => exact execAptabWrite_inv h
  | frzctlRetry _ _ _ => exact execFrzctlRetry_inv h
  | frzctlFail _ _ _ => exact execFrzctlFail_inv h
  | frzctlFreeze _ _ _ => exact execFrzctlFreeze_inv h
  | vfReset _ _ => exact execVfReset_inv h
  | dbgvalWrite _ _ => exact execDbgvalWrite_inv h
  | debugTokenDeliver _ => exact execDebugTokenDeliver_inv h
  | attest _ _ => exact execAttest_inv h
  | hostMemAccess _ _ _ => exact outInv_ite outInv_fault (outInv_next (ite_inv h (ite_inv (ownTry_inv h) (ownMeet_inv h))))
  | spokeRequestReceive _ _ => exact execSpokeRequestReceive_inv h
  | spokeReplyReceive _ _ => exact execSpokeReplyReceive_inv h
  | doorDelivery _ _ => exact outInv_next (ite_inv h (ite_inv (replyFlit_inv h) (ite_inv (spokeRefuse_inv h) (replyFlit_inv (doorToken_inv h)))))
  | spokeNotice _ _ => exact outInv_next (ite_inv h (foldl_inv (fun _ _ g => ite_inv (doorToken_inv (newError_inv g)) g) h))
  | spokeLinkUp _ _ | discardedFlit _ _ => exact outInv_next (ite_inv h (spkstatPut_inv h))
  | spokeLinkDown _ => exact execSpokeLinkDown_inv h
  | thermalTrip _ => exact outInv_next (ite_inv (resetBegin_inv h) (ite_inv (modBulk_inv h) (regSetBits_inv (regSetBits_inv h))))
  | powerOnBringup => exact execPowerOnBringup_inv
  | registerWrite _ _ _ => exact outInv_next (ite_inv h (getD_inv (regWrite_inv h) h))
  | hostAcknowledgement _ _ _ => exact execHostAcknowledgement_inv h

/-- The issue of a firing performs what its record decodes to, or faults. -/
theorem issueFiring_inv {s : State} {f : Firing} (h : PackageInv s) : OutInv (issueFiring s f) := by
  unfold issueFiring
  split
  · exact outInv_fault
  · exact exec_inv (issuing_inv h)

theorem issueStep_inv {s : State} {b pe k : Nat} (h : PackageInv s) : OutInv (issueStep s b pe k) := by
  unfold issueStep
  split
  · exact outInv_next h
  · exact outInv_ite (issueFiring_inv h) (outInv_next h)

theorem perform_inv {c : Choice} {s : State} (h : PackageInv s) : OutInv (perform c s) := by
  cases c with
  | issue b pe k => exact issueStep_inv h
  | happen i => exact outInv_ite (exec_inv (surveyed_inv h)) (outInv_next h)
  | tick b => exact outInv_next (tick_inv h)

theorem scheduled_inv {s : State} (h : PackageInv s) : OutInv (scheduled s) := by
  unfold scheduled
  split
  · exact perform_inv (frame_inv h)
  · split
    · exact perform_inv (drawn_inv h)
    · exact outInv_next (drawn_inv h)

/-- Settles O60: whatever the schedule names is performed by operations that keep the invariants. -/
theorem invariantKept : Obligations.InvariantKept := fun _ t h e => scheduled_inv h t e

end Sys2Proof.Machine
end

section
/-! SUPPORT. What an atomic or a reduction sends (R126, R174, R176, R209, R210). -/

namespace Sys2Proof.Machine

open Host

/-- A scope within the cap of the firing's VF is performed as it is written, and no event tells of it (R174). -/
theorem scopeCap_within {s : State} {f : Firing} {scope : Nat} (h : scope ≤ bits (vfScope s f.vf) 0 3) : scopeCap s f scope = some (scope, s) := by
  unfold scopeCap
  exact if_pos h

theorem releaseSet_takeReady (s : State) (f : Firing) (vf scope : Nat) : releaseSet (takeReady s f) vf scope = releaseSet s vf scope := rfl

theorem vfScope_takeReady (s : State) (f : Firing) (vf : Nat) : vfScope (takeReady s f) vf = vfScope s vf := rfl

theorem tagRoom_takeReady (s : State) (code : Nat) (n : Node) : tagRoom (takeReady s s.cur) (firingCtx s code n).f = tagRoom s s.cur := by
  unfold tagRoom
  rw [firingCtx_bh, firingCtx_pe, getPE_takeReady_keeps (·.fetch) (fun _ _ _ => rfl)]

/-- The writes that an atomic or a reduction waits for: none without REL (R174, R176). -/
def atomWaits (s : State) (n : Node) : List Nat := if n.lit.getLsbD 7 then releaseSet s s.cur.vf (n.lit.extractLsb' 8 3).toNat else []

/-- Without REL, or with a scope within the cap, nothing happens before the request but what it waits for is noted (R174). -/
theorem relOf_within {s : State} {n : Node} (code : Nat) (h : n.lit.getLsbD 7 = false ∨ scopeWithin s (n.lit.extractLsb' 8 3).toNat) :
    relOf (takeReady s s.cur) (firingCtx s code n) = some (atomWaits s n, takeReady s s.cur) := by
  unfold relOf atomWaits
  rw [firingCtx_node, firingCtx_vf]
  have rel := litBits_one n 7
  have bit : litBits n 7 1 < 2 := litBits_eq n 7 1 ▸ (n.lit.extractLsb' 7 1).isLt
  cases hb : n.lit.getLsbD 7 with
  | false =>
    have clear : litBits n 7 1 ≠ 1 := mt rel.mp (by rw [hb]; decide)
    have zero : litBits n 7 1 = 0 := by omega
    rw [if_pos zero]; rfl
  | true =>
    have cap : (n.lit.extractLsb' 8 3).toNat ≤ bits (vfScope (takeReady s s.cur) (firingCtx s code n).f.vf) 0 3 := by
      rw [firingCtx_vf, vfScope_takeReady]
      exact h.resolve_left (by rw [hb]; decide)
    have one : ¬litBits n 7 1 = 0 := by rw [rel.mpr hb]; decide
    rw [if_neg one, litBits_eq n 8 3, scopeCap_within cap, Option.map_some, releaseSet_takeReady, if_pos rfl]

/-- One request of an atomic of width TYPE has been sent to l, and nothing else has changed but the ready queue. -/
def AtomicSent (s t : State) (n : Node) (code op : Nat) (red : Bool) (owner : Owner) : Prop :=
  ∃ (r : Req), t.reqs = s.reqs ++ [r] ∧ r.va = (payloadAt (firingCtx s code n).f .l).toNat ∧ r.len = tyBytes n.ty ∧ r.owner = owner ∧
    r.waitFor = atomWaits s n ∧ r.st = .atWell ∧
    r.atom = some { op := op, ty := n.ty, operand := rWord (firingCtx s code n), cmp := payloadAt (firingCtx s code n).f .p, det := n.lit.getLsbD 6, red := red } ∧
    (firedPE s t).ready = (firedPE s s).ready.erase s.cur ∧ t.regs = s.regs ∧ ∀ a, memByte t a = memByte s a

/-- The request of an atomic goes behind those sent before it, at the address and with the operation of its firing. -/
theorem sendReq_atomicSent {s u : State} {n : Node} {code op : Nat} {red : Bool} {owner : Owner} (reqs : u.reqs = s.reqs) (regs : u.regs = s.regs)
    (mem : u.mem = s.mem) (ready : (firedPE s u).ready = (firedPE s s).ready.erase s.cur) :
    AtomicSent s (sendReq u (atomReq (firingCtx s code n) op red (atomWaits s n) owner)) n code op red owner := by
  have det : (litBits n 6 1 == 1) = n.lit.getLsbD 6 := by rw [Bool.eq_iff_iff, beq_iff_eq]; exact litBits_one n 6
  refine ⟨_, congrArg (· ++ [_]) reqs, Nat.mod_eq_of_lt (BitVec.isLt _), ?_, rfl, rfl, rfl, ?_, ready, regs, fun a => memByte_congr s _ mem a⟩
  · show tyBytes (firingCtx s code n).n.ty = _
    rw [firingCtx_node]
  · show some ({ op := op, ty := (firingCtx s code n).n.ty, operand := _, cmp := _, det := litBits (firingCtx s code n).n 6 1 == 1, red := red } : AtomOp) = _
    rw [firingCtx_node, det]

theorem firedPE_takeReady_ready (s : State) : (firedPE s (takeReady s s.cur)).ready = (firedPE s s).ready.erase s.cur := by
  unfold firedPE
  rw [getPE_takeReady, if_pos rfl]

theorem atomAskew_iff (s : State) (code : Nat) (n : Node) :
    atomAskew (firingCtx s code n) = true ↔ (payloadAt (firingCtx s code n).f .l).toNat % tyBytes n.ty ≠ 0 := by
  unfold atomAskew
  rw [firingCtx_node, bne_iff_ne]

/-- An aligned atom takes a fetch tag and sends its request under it (R209). -/
theorem atom_sends {s : State} {n : Node} {i : Instr} {op : Nat} (hi : exec i s = .next (atomNode s (0x150 + op) n))
    (within : n.lit.getLsbD 7 = false ∨ scopeWithin s (n.lit.extractLsb' 8 3).toNat) (h : performs s (0x150 + op) n = true)
    (aligned : ¬(payloadAt (firingCtx s (0x150 + op) n).f .l).toNat % tyBytes n.ty ≠ 0) (room : tagRoom s s.cur = true) :
    ∃ t : State, ∃ (tag : Tag), exec i s = .next t ∧ AtomicSent s t n (0x150 + op) op false (.tag s.nextId) ∧
      (firedPE s t).fetch = (firedPE s s).fetch ++ [tag] ∧ tag.id = s.nextId ∧ tag.st = .issued ∧ tag.node = n := by
  let tag := newTag (takeReady s s.cur) (firingCtx s (0x150 + op) n) 0 0
  have own : firedPE s (charge (tagEnter (takeReady s s.cur) tag) s.cur.bh s.cur.pe 8 1) =
      { firedPE s (takeReady s s.cur) with fetch := (firedPE s (takeReady s s.cur)).fetch ++ [tag] } := by
    unfold firedPE
    have hb : tag.f.bh = s.cur.bh := firingCtx_bh _ _ _
    have hp : tag.f.pe = s.cur.pe := firingCtx_pe _ _ _
    rw [getPE_charge]
    show getPE (modPE (takeReady s s.cur) tag.f.bh tag.f.pe fun p => { p with fetch := p.fetch ++ [tag] }) _ _ = _
    rw [getPE_modPE, hb, hp, if_pos rfl]
  have run : exec i s = .next (sendReq (charge (tagEnter (takeReady s s.cur) tag) s.cur.bh s.cur.pe 8 1)
      (atomReq (firingCtx s (0x150 + op) n) op false (atomWaits s n) (.tag s.nextId))) := by
    rw [hi]
    unfold atomNode
    rw [fire_perform s (0x150 + op) n _ h]
    simp only [atomAskew_iff, if_neg aligned, relOf_within _ within, tagRoom_takeReady, room, Bool.not_true, Bool.false_eq_true, if_false, Nat.add_sub_cancel_left,
      firingCtx_bh, firingCtx_pe, Option.getD_some]
    rfl
  refine ⟨_, tag, run, sendReq_atomicSent ?_ ?_ ?_ ?_, ?_, rfl, rfl, firingCtx_node _ _ _⟩
  · rw [charge_reqs]; rfl
  · rw [charge_regs]; rfl
  · rw [charge_mem]; rfl
  · rw [own]; exact firedPE_takeReady_ready s
  · show (firedPE s (charge _ _ _ _ _)).fetch = _
    rw [own]
    exact congrArg (· ++ [tag]) (getPE_takeReady_keeps (·.fetch) (fun _ _ _ => rfl) s s.cur _ _)

/-- An aligned red sends its request and takes no tag (R210). -/
theorem red_sends {s : State} {n : Node} {i : Instr} {op : Nat} (hi : exec i s = .next (redNode s (0x159 + op) n))
    (within : n.lit.getLsbD 7 = false ∨ scopeWithin s (n.lit.extractLsb' 8 3).toNat) (h : performs s (0x159 + op) n = true)
    (aligned : ¬(payloadAt (firingCtx s (0x159 + op) n).f .l).toNat % tyBytes n.ty ≠ 0) :
    ∃ t : State, exec i s = .next t ∧ AtomicSent s t n (0x159 + op) op true .red ∧ (firedPE s t).fetch = (firedPE s s).fetch := by
  have own : firedPE s (charge (takeReady s s.cur) s.cur.bh s.cur.pe 8 1) = firedPE s (takeReady s s.cur) := getPE_charge _ _ _ _ _ _ _
  have run : exec i s = .next (sendReq (charge (takeReady s s.cur) s.cur.bh s.cur.pe 8 1)
      (atomReq (firingCtx s (0x159 + op) n) op true (atomWaits s n) .red)) := by
    rw [hi]
    unfold redNode
    rw [fire_perform s (0x159 + op) n _ h]
    simp only [atomAskew_iff, if_neg aligned, relOf_within _ within, Nat.add_sub_cancel_left, firingCtx_bh, firingCtx_pe, Option.getD_some]
  refine ⟨_, run, sendReq_atomicSent ?_ ?_ ?_ ?_, ?_⟩
  · rw [charge_reqs]; rfl
  · rw [charge_regs]; rfl
  · rw [charge_mem]; rfl
  · rw [own]; exact firedPE_takeReady_ready s
  · show (firedPE s (charge _ _ _ _ _)).fetch = _
    rw [own]
    exact getPE_takeReady_keeps (·.fetch) (fun _ _ _ => rfl) s s.cur _ _

/-- Each instruction of R209 and R210 is an atom or a red by its opcode. -/
theorem exec_atomic (s : State) (n : Node) :
    ∀ x ∈ [(Instr.atomAdd n, 0x150), (Instr.atomFadd n, 0x151), (Instr.atomMin n, 0x152), (Instr.atomMax n, 0x153), (Instr.atomAnd n, 0x154),
      (Instr.atomOr n, 0x155), (Instr.atomXor n, 0x156), (Instr.atomXchg n, 0x157), (Instr.atomCas n, 0x158), (Instr.redAdd n, 0x159),
      (Instr.redFadd n, 0x15A), (Instr.redMin n, 0x15B), (Instr.redMax n, 0x15C), (Instr.redAnd n, 0x15D), (Instr.redOr n, 0x15E), (Instr.redXor n, 0x15F)],
      exec x.1 s = .next (if x.2 < 0x159 then atomNode s x.2 n else redNode s x.2 n) ∧ x.2 ∉ [0x011, 0x012, 0x186, 0x187] := by
  intro x hx
  fin_cases hx <;> exact ⟨rfl, by dsimp only; decide⟩

/-- A misaligned atomic ends with ALIGN before its scope is judged (R176, log 37). -/
theorem atomic_askew {s : State} {n : Node} {i : Instr} {code : Nat} (hi : exec i s = .next (if code < 0x159 then atomNode s code n else redNode s code n))
    (plain : code ∉ [0x011, 0x012, 0x186, 0x187]) (h : performs s code n = true) (skew : (payloadAt (firingCtx s code n).f .l).toNat % tyBytes n.ty ≠ 0) :
    ErrsWith s i code n 0x14 := by
  have askew := (atomAskew_iff s code n).mpr skew
  split at hi
  · exact errsWith_of_fire 0x14 hi h plain (if_pos askew)
  · exact errsWith_of_fire 0x14 hi h plain (if_pos askew)

/-- Settles O28, one lemma for the atoms, one for the reductions and one for a misaligned address. -/
theorem atomicsAreSent : Obligations.AtomicsAreSent := by
  unfold Obligations.AtomicsAreSent
  refine fun s n => ⟨fun within => ⟨fun x hx h aligned room => ?_, fun x hx h aligned => ?_⟩, fun x hx h skew => ?_⟩
  · have run : exec x.1 s = .next (atomNode s (0x150 + x.2) n) := by fin_cases hx <;> rfl
    exact atom_sends run within h aligned room
  · have run : exec x.1 s = .next (redNode s (0x159 + x.2) n) := by fin_cases hx <;> rfl
    exact red_sends run within h aligned
  · obtain ⟨run, plain⟩ := exec_atomic s n x hx
    obtain ⟨t, step, only, issues⟩ := atomic_askew run plain h skew
    exact ⟨t, _, step, newError_code s _ 0x14 (by decide), only.reqs, issues⟩

end Sys2Proof.Machine
end

section
/-! SUPPORT. The statement about the work of HBM's units. A register's key is b * 2^24 + offset (R403), so an offset of 2^24 + 0x11000 in bulkhead 0 is the WSTAT of
bulkhead 1: the frame that the statement asks of a host access, over offsets of any size, holds WSTAT itself fast. -/

namespace Sys2Proof.Machine

open Host

/-- A package that has power and no error in its memory; the first block of stack 1 is RAW, so that a read of its first sector needs no other (R142). -/
def rawStackState : State := { State.reset with bmeta := [(2 ^ 25, mdRaw)] }

theorem rawStackState_clean : cleanMemory rawStackState := by
  refine ⟨fun _ => rfl, fun blk => ?_⟩
  have byte : blockMeta rawStackState blk = mdRaw ∨ blockMeta rawStackState blk = mdZero := by
    unfold blockMeta rawStackState sget
    split
    · exact .inl rfl
    · exact .inr rfl
  rcases byte with h | h <;> rw [h] <;> decide

/-- The frame of a host access, that it changes no register but WSTAT, over all offsets (R133, R447). -/
def OnlyWstat (s t : State) : Prop := ∀ b off, off ≠ 0x11000 → regGet t b off = regGet s b off

/-- The PEAK of stack 1's WSTAT after a step. -/
def peakAfter (o : Outcome State Fault Refusal) : Nat :=
  match o with
  | .next t => regBits t 1 0x11000 16 15
  | _ => 0

/-- A host access to stack 1 holds a sector slot of its well for a moment, and WSTAT.PEAK keeps the count (R133). -/
theorem hostRead_peak : peakAfter (exec (.hostMemAccess false (2 ^ 36) [0]) rawStackState) = 1 := by decide +kernel

theorem rawStackState_peak : regBits rawStackState 1 0x11000 16 15 = 0 := by decide +kernel

/-- A state with the same registers but WSTAT, by the statement's frame, has the same WSTAT in bulkhead 1. -/
theorem OnlyWstat.peak {s t : State} (h : OnlyWstat s t) : regBits t 1 0x11000 16 15 = regBits s 1 0x11000 16 15 := by
  have key : regKey 0 (2 ^ 24 + 0x11000) = regKey 1 0x11000 := by decide
  have same := h 0 (2 ^ 24 + 0x11000) (by decide)
  unfold regGet at same
  rw [key] at same
  exact congrArg (fun w : Word => bits w.toNat 16 15) same

/-- Refutes O45: a host access to a byte of stack 1 raises WSTAT.PEAK of bulkhead 1, which the statement's frame over offsets beyond 2^24 also names as a register of
bulkhead 0 that must stay as it was. -/
theorem not_hbmUnitsWork : ¬ Obligations.HbmUnitsWork := by
  unfold Obligations.HbmUnitsWork
  rintro ⟨-, -, -, -, host⟩
  obtain ⟨inside, -⟩ := host rawStackState (2 ^ 36) [0] rfl (by decide)
  have clean : cleanAt rawStackState (2 ^ 36 / 2048 * 2048) ((2 ^ 36 + [(0 : Byte)].length - 1) / 2048 * 2048 + 2048 - 2 ^ 36 / 2048 * 2048) :=
    fun _ _ => ⟨rawStackState_clean.1 _, cleanMemory_lost _ rawStackState_clean _⟩
  obtain ⟨-, t, run, -, frame⟩ := inside (by decide) clean
  have peak := hostRead_peak
  rw [run] at peak
  have same : regBits t 1 0x11000 16 15 = 0 := (OnlyWstat.peak frame).trans rawStackState_peak
  exact absurd (same.symm.trans peak) (by decide)

end Sys2Proof.Machine
end

section
/-! SUPPORT. The statement about engine commands. A gather makes its tile before it reads its index (R189, R207), and the pages of the new tile read as empty from then on: a
tile entry that names no page, which the statement does not exclude, stands on page 0 of the tile store, and the new tile takes that page. -/

namespace Sys2Proof.Machine

open Host

/-- A gather under descriptor 0, without acq or rel and with no destination. -/
def pagelessNode : Node := ⟨.n64, 0, none, none, false, 0, false, false, false, false, 0⟩

/-- Its descriptor: one index of 32 bits below 16, TID 0, rows of 16 bytes, a stride of 16 (R198). -/
def pagelessDesc : BitVec 256 := BitVec.ofNat 256 (2 + 2 ^ 6 + 2 ^ 26 + 16 * 2 ^ 32 + 16 * 2 ^ 64)

/-- The firing: its index tile is the entry 1, and its offset is zero. -/
def pagelessFiring : Firing :=
  { Firing.empty with l := some { kind := .handle, payload := handleWord 1 0 1 }, r := some { kind := .value, payload := 0 } }

/-- The entry of the index tile: a tile of TID 0 that names no page. -/
def pagelessEntry : HEntry := { HEntry.empty with kind := .tile, ref := 1 }

/-- PE 0 has that one entry, and the first byte of its tile store holds 5. VF 0 is resident with a configuration that declares TID 0, of one row. -/
def pagelessState : State :=
  { State.reset with
    pes := [(peKey 0 0, { PE.empty with handles := [(1, pagelessEntry)], tile := [(0, 5)], ready := [pagelessFiring] })]
    slots := [(0, { Slot.empty with st := .resident })]
    cfgs := [{ slotCfg with descs := [pagelessDesc], tids := [{ tid := 0, fmt := .n8, form := 0, planes := 0, rows := 1, scale := 0, ibase := 0 }] }]
    cur := pagelessFiring }

/-- The addresses that are asked for after a step. -/
def addressesAfter (o : Outcome State Fault Refusal) : List Nat :=
  match o with
  | .next t => t.reqs.map (·.va)
  | _ => []

/-- The gather reads index zero, of the page that its own tile has just taken. -/
theorem pageless_gathers : addressesAfter (exec (.gather pagelessNode) pagelessState) = [0] := by decide +kernel

/-- As the firing issues, the index at the entry's row 0 is 5, whose row stands at 5 × 16. -/
theorem pageless_index : (0, 80) ∈ (indexRows (descOf pagelessState pagelessState.cur pagelessNode) 0
    (rowBytes (firedPE pagelessState pagelessState) pagelessEntry.pages 0) 16).1 := by decide +kernel

theorem pageless_tid : tidEntry pagelessState 0 (bits (descOf pagelessState pagelessState.cur pagelessNode) 16 10) =
    some { tid := 0, fmt := .n8, form := 0, planes := 0, rows := 1, scale := 0, ibase := 0 } := by decide +kernel

theorem pageless_room : (allocTile pagelessState (firingCtx pagelessState 0x14D pagelessNode).f 0 0 1 true).isSome = true := by decide +kernel

theorem pageless_invariant : PackageInv pagelessState := ⟨by decide +kernel, .nil, fun _ h => absurd h List.not_mem_nil⟩

/-- Refutes O30: a gather whose index tile names no page reads its index of the page that its own new tile has taken, cleared, and asks for the row at index 0; the
statement has it ask for the row at the index that stood there before. -/
theorem not_engineCommandsEntered : ¬ Obligations.EngineCommandsEntered := by
  unfold Obligations.EngineCommandsEntered
  intro entered
  obtain ⟨-, -, -, -, gather, -⟩ := entered pagelessState pagelessNode pageless_invariant (.inl (by decide))
  obtain ⟨t, h, run, -, -, -, -, rows⟩ := gather _ (by decide +kernel) (by decide +kernel) pageless_tid pageless_room
  obtain ⟨-, sent⟩ := rows ⟨by decide +kernel, by decide +kernel, by decide +kernel⟩
  obtain ⟨r, mem, -, va, -⟩ := sent (.inl (by decide)) (by decide +kernel) (0, 80) pageless_index
  have addresses := pageless_gathers
  rw [run] at addresses
  have listed : r.va ∈ t.reqs.map (·.va) := List.mem_map_of_mem mem
  rw [show t.reqs.map (·.va) = [0] from addresses, va] at listed
  exact absurd listed (by decide)

end Sys2Proof.Machine
end

section
/-! SUPPORT. What a publication writes, byte by byte (R146, R163): at every address that some store writes one of the stores that R163 lets survive, gathered into writes, each
under a mask, and each write carried whole by the sector requests of a request. -/

namespace Sys2Proof.Machine

open Host

/-! The stores that may survive at a byte (R163). -/

/-- The order in which the stores of one PE rank (R163, R168). -/
def storeRank (mode : Nat) (p : PStore) : Nat ×ₗ Nat ×ₗ Nat ×ₗ Nat :=
  toLex (p.phase, toLex (if mode = 1 then p.wave else 0, toLex (if mode = 1 then p.lsid else 0, p.sid)))

/-- A store that ranks above another has the greater rank. -/
theorem storeRank_lt {mode : Nat} {a b : PStore} (above : storeAbove mode a b = true) : storeRank mode b < storeRank mode a := by
  unfold storeAbove at above
  unfold storeRank
  simp only [Prod.Lex.toLex_lt_toLex]
  by_cases one : mode = 1
  · simp only [one, if_true, Bool.or_eq_true, Bool.and_eq_true, decide_eq_true_eq, beq_iff_eq] at above ⊢
    omega
  · simp only [one, if_false, Bool.or_eq_true, Bool.and_eq_true, decide_eq_true_eq, beq_iff_eq, lt_irrefl, false_or, true_and] at above ⊢
    omega

/-- Among some things one is greatest. -/
theorem exists_greatest {α β : Type} [LinearOrder β] (rank : α → β) {l : List α} (some_ : l ≠ []) : ∃ x ∈ l, ∀ y ∈ l, ¬rank x < rank y := by
  cases found : l.argmax rank with
  | none => exact absurd (List.argmax_eq_none.mp found) some_
  | some x => exact ⟨x, List.argmax_mem found, fun y mem => List.not_lt_of_mem_argmax mem found⟩

theorem candidates_mem {mode : Nat} {xs : List PubByte} {y : PubByte} (mem : y ∈ candidates mode xs) : y ∈ xs := by
  unfold candidates at mem
  dsimp only at mem
  split at mem
  · exact List.mem_of_mem_filter (List.mem_of_mem_filter mem)
  · exact List.mem_of_mem_filter mem

/-- Where stores write a byte, some store may survive (R163). -/
theorem candidates_some (mode : Nat) {xs : List PubByte} (some_ : xs ≠ []) : candidates mode xs ≠ [] := by
  obtain ⟨x, mem, greatest⟩ := exists_greatest (fun x : PubByte => storeRank mode x.st) some_
  have top : x ∈ xs.filter fun x => xs.all fun y => !(y.st.pe == x.st.pe && storeAbove mode y.st x.st) := by
    refine List.mem_filter.mpr ⟨mem, List.all_eq_true.mpr fun y there => ?_⟩
    have below : storeAbove mode y.st x.st = false := Bool.eq_false_iff.mpr fun above => greatest y there (storeRank_lt above)
    rw [below, Bool.and_false, Bool.not_false]
  unfold candidates
  dsimp only
  split
  · obtain ⟨z, zmem, last⟩ := exists_greatest (fun x : PubByte => (toLex (x.st.wave, x.st.lsid) : Nat ×ₗ Nat)) (List.ne_nil_of_mem top)
    refine List.ne_nil_of_mem (a := z) (List.mem_filter.mpr ⟨zmem, List.all_eq_true.mpr fun y there => ?_⟩)
    have not_later := last y there
    simp only [Prod.Lex.toLex_lt_toLex] at not_later
    simp only [Bool.not_eq_true', Bool.or_eq_false_iff, Bool.and_eq_false_iff, decide_eq_false_iff_not, beq_eq_false_iff_ne]
    omega
  · exact List.ne_nil_of_mem top

/-- The survivor at an address is one of the stores that R163 lets survive there. -/
theorem survivorAt_mem {mode d a : Nat} {xs : List PubByte} {y : PubByte} (survives : survivorAt mode d a xs = some y) :
    y ∈ candidates mode (xs.filter fun x => x.pa == a) ∧ y ∈ xs ∧ y.pa = a := by
  have mem := List.mem_of_getElem? survives
  obtain ⟨there, here⟩ := List.mem_filter.mp (candidates_mem mem)
  exact ⟨mem, there, beq_iff_eq.mp here⟩

/-- Where a store writes, one survives. -/
theorem survivorAt_some (mode d : Nat) {xs : List PubByte} {x : PubByte} (mem : x ∈ xs) : ∃ y, survivorAt mode d x.pa xs = some y := by
  have some_ := candidates_some mode (List.ne_nil_of_mem (List.mem_filter (p := fun z : PubByte => z.pa == x.pa).mpr ⟨mem, beq_self_eq_true x.pa⟩))
  unfold survivorAt
  dsimp only
  have few := List.length_pos_of_ne_nil some_
  exact ⟨_, List.getElem?_eq_getElem (Nat.lt_of_lt_of_eq (Nat.mod_lt _ (by omega)) (by omega))⟩

/-! The addresses that stores write, rising. -/

theorem mem_keys_sins {α : Type} (m : SMap α) (k : Nat) (v : α) (x : Nat) : x ∈ (sins m k v).map (·.1) ↔ x = k ∨ x ∈ m.map (·.1) := by
  induction m with
  | nil => simp [sins]
  | cons e m ih =>
    unfold sins
    split
    · simp
    · split
      · next same => simp [same]
      · simp only [List.map_cons, List.mem_cons, ih]
        exact or_left_comm

theorem keys_sins_rising {α : Type} {m : SMap α} (k : Nat) (v : α) (rising : (m.map (·.1)).Pairwise (· < ·)) : ((sins m k v).map (·.1)).Pairwise (· < ·) := by
  induction m with
  | nil => exact List.pairwise_singleton _ _
  | cons e m ih =>
    obtain ⟨first, rest⟩ := List.pairwise_cons.mp rising
    unfold sins
    split
    · next before => exact List.pairwise_cons.mpr ⟨List.forall_mem_cons.mpr ⟨before, fun x mem => before.trans (first x mem)⟩, rising⟩
    · split
      · next same => exact List.pairwise_cons.mpr ⟨fun x mem => same ▸ first x mem, rest⟩
      · refine List.pairwise_cons.mpr ⟨fun x mem => ?_, ih rest⟩
        rcases (mem_keys_sins m k v x).mp mem with rfl | later
        · show e.1 < x
          omega
        · exact first x later

theorem pubAddrs_spec (xs : List PubByte) : (∀ a, a ∈ pubAddrs xs ↔ ∃ x ∈ xs, x.pa = a) ∧ (pubAddrs xs).Pairwise (· < ·) := by
  suffices ∀ m : SMap Unit, (m.map (·.1)).Pairwise (· < ·) →
      (∀ a, a ∈ (xs.foldl (fun m x => sins m x.pa ()) m).map (·.1) ↔ a ∈ m.map (·.1) ∨ ∃ x ∈ xs, x.pa = a) ∧
        ((xs.foldl (fun m x => sins m x.pa ()) m).map (·.1)).Pairwise (· < ·) by
    obtain ⟨same, rising⟩ := this [] .nil
    exact ⟨fun a => (same a).trans (by simp), rising⟩
  induction xs with
  | nil => exact fun m rising => ⟨fun a => by simp, rising⟩
  | cons x xs ih =>
    intro m rising
    obtain ⟨same, rising'⟩ := ih _ (keys_sins_rising x.pa () rising)
    refine ⟨fun a => (same a).trans ?_, rising'⟩
    rw [mem_keys_sins, List.exists_mem_cons_iff, or_comm (a := a = x.pa), or_assoc, eq_comm (a := a)]

/-! The writes of a publication (R146). -/

/-- A write puts v at a. -/
def PubRun.Writes (run : PubRun) (a : Nat) (v : Byte) : Prop :=
  ∃ i < run.bytes.length, run.pa + i = a ∧ maskAt run.mask i = true ∧ run.bytes.getD i 0 = v

/-- A write of HBM stays in the block that it begins in (R146). -/
def PubRun.InBlock (run : PubRun) : Prop := regionOf run.pa = .hbm → run.pa % 2048 + run.bytes.length ≤ 2048

/-- The write of one byte. -/
def PubByte.alone (x : PubByte) : PubRun :=
  { pa := x.pa, bytes := [x.byte], mask := [], comp := false, hostc := x.hostc, pe := x.st.pe, cfg := x.st.cfg }

/-- Whether a byte goes into the write that follows it. -/
def PubByte.joins (x : PubByte) (r : PubRun) : Bool :=
  if regionOf x.pa == .hbm then r.pa / 2048 == x.pa / 2048 else r.pa == x.pa + 1 && !runBreak r.pa

/-- A write with a byte before it. -/
def PubByte.joined (x : PubByte) (r : PubRun) : PubRun :=
  let gap := r.pa - (x.pa + 1)
  { r with
    pa := x.pa, bytes := x.byte :: (List.replicate gap 0 ++ r.bytes), hostc := x.hostc || r.hostc, pe := x.st.pe
    mask := if gap = 0 ∧ r.mask.isEmpty then []
            else true :: (List.replicate gap false ++ (if r.mask.isEmpty then List.replicate r.bytes.length true else r.mask)) }

/-- A byte stands alone, or goes into the write that follows it. -/
theorem pubRuns_cons (x : PubByte) (xs : List PubByte) :
    pubRuns (x :: xs) = x.alone :: pubRuns xs ∨ ∃ r rs, pubRuns xs = r :: rs ∧ x.joins r = true ∧ pubRuns (x :: xs) = x.joined r :: rs := by
  have unfolds : pubRuns (x :: xs) = (match pubRuns xs with
      | [] => [x.alone]
      | r :: rs => if x.joins r then x.joined r :: rs else x.alone :: r :: rs) := rfl
  rw [unfolds]
  cases pubRuns xs with
  | nil => exact .inl rfl
  | cons r rs =>
    dsimp only
    split
    · next joins => exact .inr ⟨r, rs, rfl, joins, rfl⟩
    · exact .inl rfl

theorem alone_writes (x : PubByte) (a : Nat) (v : Byte) : x.alone.Writes a v ↔ x.pa = a ∧ x.byte = v := by
  constructor
  · rintro ⟨i, inside, at_, -, reads⟩
    have first : i = 0 := Nat.lt_one_iff.mp inside
    subst first
    exact ⟨at_, reads⟩
  · rintro ⟨at_, reads⟩
    exact ⟨0, Nat.zero_lt_one, at_, rfl, reads⟩

/-- Behind its first byte a joined write is masked as the write that it has taken in. -/
theorem joined_maskAt (x : PubByte) (r : PubRun) {i : Nat} (inside : i < r.bytes.length) :
    maskAt (x.joined r).mask (1 + (r.pa - (x.pa + 1)) + i) = maskAt r.mask i := by
  unfold PubByte.joined
  dsimp only
  generalize r.pa - (x.pa + 1) = gap
  have drop (m : List Bool) : (true :: (List.replicate gap false ++ m)).getD (1 + gap + i) false = m.getD i false := by
    rw [show 1 + gap + i = (gap + i) + 1 by omega, List.getD_cons_succ, List.getD_append_right _ _ _ _ (by simp)]
    simp
  cases empty : r.mask with
  | nil =>
    split
    · rfl
    · show List.getD _ _ false = true
      rw [drop]
      simp [inside]
  | cons b m =>
    rw [if_neg (by simp)]
    exact drop _

theorem joined_gap_masked (x : PubByte) (r : PubRun) {i : Nat} (gap : i < r.pa - (x.pa + 1)) : maskAt (x.joined r).mask (1 + i) = false := by
  unfold PubByte.joined
  dsimp only
  rw [if_neg (by omega)]
  show List.getD _ _ false = false
  rw [Nat.add_comm 1 i, List.getD_cons_succ, List.getD_append _ _ _ _ (by simpa using gap)]
  simp [gap]

theorem joined_maskAt_zero (x : PubByte) (r : PubRun) : maskAt (x.joined r).mask 0 = true := by
  unfold PubByte.joined
  dsimp only
  split <;> rfl

theorem joined_byte (x : PubByte) (r : PubRun) (i : Nat) : (x.joined r).bytes.getD (1 + (r.pa - (x.pa + 1)) + i) 0 = r.bytes.getD i 0 := by
  unfold PubByte.joined
  dsimp only
  rw [show 1 + (r.pa - (x.pa + 1)) + i = (r.pa - (x.pa + 1) + i) + 1 by omega, List.getD_cons_succ, List.getD_append_right _ _ _ _ (by simp)]
  simp

theorem joined_length (x : PubByte) (r : PubRun) : (x.joined r).bytes.length = 1 + (r.pa - (x.pa + 1)) + r.bytes.length := by
  unfold PubByte.joined
  simp
  omega

/-- A write that has taken in a byte before it writes that byte and what it wrote, and nothing in the gap. -/
theorem joined_writes (x : PubByte) (r : PubRun) (before : x.pa < r.pa) (a : Nat) (v : Byte) :
    (x.joined r).Writes a v ↔ (x.pa = a ∧ x.byte = v) ∨ r.Writes a v := by
  constructor
  · rintro ⟨i, inside, at_, masked, reads⟩
    have start : x.pa + i = a := at_
    rcases Nat.eq_zero_or_pos i with rfl | later
    · exact .inl ⟨start, reads⟩
    · by_cases gap : i - 1 < r.pa - (x.pa + 1)
      · have off := joined_gap_masked x r gap
        rw [show 1 + (i - 1) = i by omega, masked] at off
        cases off
      · obtain ⟨j, rfl⟩ : ∃ j, i = 1 + (r.pa - (x.pa + 1)) + j := ⟨i - (1 + (r.pa - (x.pa + 1))), by omega⟩
        rw [joined_length] at inside
        have inside' : j < r.bytes.length := by omega
        rw [joined_maskAt x r inside'] at masked
        rw [joined_byte] at reads
        exact .inr ⟨j, inside', by omega, masked, reads⟩
  · rintro (⟨at_, reads⟩ | ⟨j, inside, at_, masked, reads⟩)
    · exact ⟨0, by rw [joined_length]; omega, at_, joined_maskAt_zero x r, reads⟩
    · refine ⟨1 + (r.pa - (x.pa + 1)) + j, by rw [joined_length]; omega, ?_, (joined_maskAt x r inside).trans masked, (joined_byte x r j).trans reads⟩
      show x.pa + _ = a
      omega

/-- The first stacks of the physical map are HBM (R25). -/
theorem regionOf_hbm (pa : Nat) : regionOf pa = .hbm ↔ pa < 0xC000000000 := by
  unfold regionOf
  split
  · next low => exact ⟨fun _ => low, fun _ => rfl⟩
  · next high =>
    refine ⟨fun h => ?_, fun low => absurd low high⟩
    split at h
    · cases h
    · split at h
      · cases h
      · split at h <;> cases h

theorem joined_inBlock {x : PubByte} {r : PubRun} (before : x.pa < r.pa) (joins : x.joins r = true) (inside : r.InBlock) : (x.joined r).InBlock := by
  intro hbm
  have here : regionOf x.pa = .hbm := hbm
  have low := (regionOf_hbm _).mp here
  have block : r.pa / 2048 = x.pa / 2048 := by
    unfold PubByte.joins at joins
    rw [here] at joins
    exact beq_iff_eq.mp joins
  have fits := inside ((regionOf_hbm _).mpr (by omega))
  rw [joined_length]
  show x.pa % 2048 + _ ≤ 2048
  omega

/-- The writes of rising bytes write each of them and nothing else, and each begins at one of them, in its block. -/
theorem pubRuns_writes {ys : List PubByte} (rising : ys.Pairwise (·.pa < ·.pa)) :
    (∀ a v, (∃ run ∈ pubRuns ys, run.Writes a v) ↔ ∃ y ∈ ys, y.pa = a ∧ y.byte = v) ∧ ∀ run ∈ pubRuns ys, run.InBlock ∧ ∃ y ∈ ys, y.pa = run.pa := by
  induction ys with
  | nil => exact ⟨fun a v => by simp [pubRuns], fun run mem => absurd mem List.not_mem_nil⟩
  | cons x xs ih =>
    obtain ⟨first, rest⟩ := List.pairwise_cons.mp rising
    obtain ⟨writes, begins⟩ := ih rest
    have begins' (run : PubRun) (mem : run ∈ pubRuns xs) : run.InBlock ∧ ∃ y ∈ x :: xs, y.pa = run.pa := by
      obtain ⟨inside, y, there, at_⟩ := begins run mem
      exact ⟨inside, y, List.mem_cons_of_mem x there, at_⟩
    rcases pubRuns_cons x xs with eq | ⟨r, rs, eq', joins, eq⟩
    · rw [eq]
      refine ⟨fun a v => ?_, List.forall_mem_cons.mpr ⟨⟨fun _ => ?_, x, List.mem_cons_self, rfl⟩, begins'⟩⟩
      · rw [List.exists_mem_cons_iff, List.exists_mem_cons_iff, alone_writes, writes]
      · show x.pa % 2048 + 1 ≤ 2048
        omega
    · rw [eq'] at begins' begins writes
      obtain ⟨inside, y, there, at_⟩ := begins r List.mem_cons_self
      have before : x.pa < r.pa := at_ ▸ first y there
      rw [eq]
      refine ⟨fun a v => ?_, List.forall_mem_cons.mpr ⟨⟨joined_inBlock before joins inside, x, List.mem_cons_self, rfl⟩, fun run mem => begins' run (List.mem_cons_of_mem r mem)⟩⟩
      rw [List.exists_mem_cons_iff, List.exists_mem_cons_iff, joined_writes x r before, ← writes, List.exists_mem_cons_iff, or_assoc]

/-! The request of a write (R112, R115). -/

/-- A request puts v at a. -/
def Req.Writes (r : Req) (a : Nat) (v : Byte) : Prop :=
  ∃ p ∈ r.pieces, p.pa ≤ a ∧ a < p.pa + p.len ∧ maskAt r.mask (p.off + (a - p.pa)) = true ∧ r.data.getD (p.off + (a - p.pa)) 0 = v

/-- A sector request carries bytes of the n from pa on alone, each at its place. -/
def Piece.Within (pa n : Nat) (p : Piece) : Prop := p.len = 0 ∨ p.off + p.len ≤ n ∧ p.pa = pa + p.off

theorem piecesOf_within (b chunk : Nat) (comp hostc : Bool) (base n : Nat) : ∀ k off pa len, pa = base + off → off + len ≤ n →
    ∀ p ∈ piecesOf b chunk comp hostc k off pa len, p.Within base n := by
  intro k
  induction k with
  | zero => exact fun off pa len _ _ p mem => absurd mem List.not_mem_nil
  | succ k ih =>
    intro off pa len at_ fits p mem
    unfold piecesOf at mem
    split at mem
    · exact absurd mem List.not_mem_nil
    · rcases List.mem_cons.mp mem with rfl | later
      · refine .inr ⟨?_, at_⟩
        show off + min len (chunk - pa % chunk) ≤ n
        omega
      · exact ih _ _ _ (by omega) (by omega) p later

theorem blockPieces_within (s : State) (b : Nat) (comp hostc : Bool) (pa n : Nat) : ∀ p ∈ blockPieces s b true comp hostc 0 pa n, p.Within pa n := by
  intro p mem
  unfold blockPieces at mem
  dsimp only at mem
  rw [Bool.true_or, if_pos rfl] at mem
  rcases List.mem_append.mp mem with extra | own
  · obtain ⟨k, -, rfl⟩ := List.mem_map.mp extra
    exact .inl rfl
  · exact piecesOf_within b 256 comp hostc pa n 9 0 pa n rfl (by omega) p own

/-- The sector requests of a write of a publication (R112, R146). -/
def pubPieces (s : State) (b : Nat) (run : PubRun) : List Piece :=
  if regionOf run.pa == .hbm then
    (blockPieces s b true run.comp run.hostc 0 run.pa run.bytes.length).filter fun p =>
      (p.len == 0 || (List.range p.len).any fun i => maskAt run.mask (p.off + i)) || !rawInPlace s run.comp (run.pa / 2048)
  else piecesOf b (pieceChunk b run.pa run.bytes.length) false false (run.bytes.length / 16 + 2) 0 run.pa run.bytes.length

theorem pubPieces_within (s : State) (b : Nat) (run : PubRun) : ∀ p ∈ pubPieces s b run, p.Within run.pa run.bytes.length := by
  intro p mem
  unfold pubPieces at mem
  split at mem
  · exact blockPieces_within s b run.comp run.hostc run.pa _ p (List.mem_of_mem_filter mem)
  · exact piecesOf_within b _ false false run.pa _ _ 0 run.pa _ rfl (by omega) p mem

/-- Granules and sectors are enough for every byte of an access. -/
theorem pieceChunk_fits (b pa len n : Nat) : 0 < pieceChunk b pa len ∧ pa % pieceChunk b pa len + n ≤ (n / 16 + 2) * pieceChunk b pa len := by
  unfold pieceChunk
  split <;> omega

theorem pubPieces_carries (s : State) (b : Nat) {run : PubRun} (inside : run.InBlock) {i : Nat} (here : i < run.bytes.length) (masked : maskAt run.mask i = true) :
    ∃ p ∈ pubPieces s b run, p.off ≤ i ∧ i < p.off + p.len ∧ p.pa + (i - p.off) = run.pa + i := by
  unfold pubPieces
  split
  · next hbm =>
    have small := inside (beq_iff_eq.mp hbm)
    obtain ⟨p, mem, -, -, -, low, high, at_⟩ :=
      blockPieces_carries s b true run.comp run.hostc 0 run.pa run.bytes.length (by omega) (Nat.zero_le i) (Nat.lt_of_lt_of_eq here (Nat.zero_add _).symm)
    refine ⟨p, List.mem_filter.mpr ⟨mem, ?_⟩, low, high, at_⟩
    have written : ((List.range p.len).any fun k => maskAt run.mask (p.off + k)) = true :=
      List.any_eq_true.mpr ⟨i - p.off, List.mem_range.mpr (by omega), by rw [show p.off + (i - p.off) = i by omega]; exact masked⟩
    rw [written, Bool.or_true, Bool.true_or]
  · obtain ⟨pos, fits⟩ := pieceChunk_fits b run.pa run.bytes.length run.bytes.length
    obtain ⟨p, mem, -, -, -, low, high, at_⟩ :=
      piecesOf_carries b _ false false pos _ 0 run.pa run.bytes.length fits i (Nat.zero_le i) (Nat.lt_of_lt_of_eq here (Nat.zero_add _).symm)
    exact ⟨p, mem, low, high, at_⟩

/-- A request of a publication, which writes what a write of it does. -/
def Performs (run : PubRun) (r : Req) : Prop := (∃ pe, r.owner = .pub pe) ∧ ∀ a v, r.Writes a v ↔ run.Writes a v

theorem mem_numberPieces {ps : List Piece} {x : Piece} (mem : x ∈ numberPieces ps) : ∃ y ∈ ps, ∃ k, x = { y with key := k } := by
  obtain ⟨⟨y, k⟩, there, rfl⟩ := List.mem_map.mp mem
  exact ⟨y, List.fst_mem_of_mem_zipIdx there, k, rfl⟩

/-- A request with the bytes, the mask and the sector requests of a write writes what it does. -/
theorem req_writes_iff (s : State) (b : Nat) {run : PubRun} (inside : run.InBlock) {r : Req} (data : r.data = run.bytes) (mask : r.mask = run.mask)
    (pieces : r.pieces = numberPieces (pubPieces s b run)) (a : Nat) (v : Byte) : r.Writes a v ↔ run.Writes a v := by
  unfold Req.Writes PubRun.Writes
  rw [data, mask, pieces]
  constructor
  · rintro ⟨p, mem, low, high, masked, reads⟩
    obtain ⟨q, there, k, rfl⟩ := mem_numberPieces mem
    rcases pubPieces_within s b run q there with none_ | ⟨fits, at_⟩
    · dsimp only at low high
      omega
    · dsimp only at low high
      exact ⟨q.off + (a - q.pa), by omega, by omega, masked, reads⟩
  · rintro ⟨i, here, at_, masked, reads⟩
    obtain ⟨p, mem, low, high, place⟩ := pubPieces_carries s b inside here masked
    obtain ⟨k, there⟩ := numberPieces_mem mem
    have same : p.off + (a - p.pa) = i := by omega
    exact ⟨_, there, by dsimp only; omega, by dsimp only; omega, by rw [same]; exact masked, by rw [same]; exact reads⟩

/-- A write of a publication is one more request, under the next number (R115). -/
theorem pubRequest_performs (s : State) (b vf lid : Nat) {run : PubRun} (after : List Nat) (inside : run.InBlock) :
    ∃ r, pubRequest s b vf lid run after = { s with reqs := s.reqs ++ [r], nextId := s.nextId + 1 } ∧ Performs run r :=
  ⟨_, rfl, ⟨_, rfl⟩, fun a v => req_writes_iff s b inside rfl rfl rfl a v⟩

/-- A change of its COMP bit changes nothing that a write writes. -/
theorem Performs.of_comp {run : PubRun} {comp : Bool} {r : Req} (h : Performs { run with comp := comp } r) : Performs run r := h

/-- The writes of a publication, one request after the other. -/
theorem pubRequests_perform (b vf lid : Nat) (after : List Nat) (comp : PubRun → Bool) (runs : List PubRun) (inside : ∀ run ∈ runs, run.InBlock) (acc : State × List Nat) :
    ∃ rs n, (runs.foldl (fun acc run => (pubRequest acc.1 b vf lid { run with comp := comp run } after, acc.2 ++ [acc.1.nextId])) acc).1 =
        { acc.1 with reqs := acc.1.reqs ++ rs, nextId := n } ∧ (∀ run ∈ runs, ∃ r ∈ rs, Performs run r) ∧ ∀ r ∈ rs, ∃ run ∈ runs, Performs run r := by
  induction runs generalizing acc with
  | nil => exact ⟨[], acc.1.nextId, by simp, by simp, by simp⟩
  | cons run runs ih =>
    obtain ⟨first, rest⟩ := List.forall_mem_cons.mp inside
    obtain ⟨r, eq, performs⟩ := pubRequest_performs acc.1 b vf lid (run := { run with comp := comp run }) after first
    obtain ⟨rs, n, eq', forth, back⟩ := ih rest (pubRequest acc.1 b vf lid { run with comp := comp run } after, acc.2 ++ [acc.1.nextId])
    refine ⟨r :: rs, n, ?_, ?_, ?_⟩
    · rw [List.foldl_cons, eq', eq]
      simp
    · refine List.forall_mem_cons.mpr ⟨⟨r, List.mem_cons_self, performs.of_comp⟩, fun x mem => ?_⟩
      obtain ⟨y, there, does⟩ := forth x mem
      exact ⟨y, List.mem_cons_of_mem r there, does⟩
    · refine List.forall_mem_cons.mpr ⟨⟨run, List.mem_cons_self, performs.of_comp⟩, fun y mem => ?_⟩
      obtain ⟨x, there, does⟩ := back y mem
      exact ⟨x, List.mem_cons_of_mem run there, does⟩

/-- The bytes that survive stand at rising addresses. -/
theorem survivors_rising (mode d : Nat) (xs : List PubByte) : ((pubAddrs xs).filterMap fun a => survivorAt mode d a xs).Pairwise (·.pa < ·.pa) := by
  refine List.pairwise_filterMap.mpr ((pubAddrs_spec xs).2.imp fun {a c} less y at_a z at_c => ?_)
  obtain ⟨-, -, rfl⟩ := survivorAt_mem at_a
  obtain ⟨-, -, rfl⟩ := survivorAt_mem at_c
  exact less

theorem mem_survivors {mode d : Nat} {xs : List PubByte} {y : PubByte} (mem : y ∈ (pubAddrs xs).filterMap fun a => survivorAt mode d a xs) :
    y ∈ candidates mode (xs.filter fun x => x.pa == y.pa) ∧ y ∈ xs := by
  obtain ⟨a, -, survives⟩ := List.mem_filterMap.mp mem
  obtain ⟨candidate, there, rfl⟩ := survivorAt_mem survives
  exact ⟨candidate, there⟩

theorem survivors_everywhere (mode d : Nat) {xs : List PubByte} {x : PubByte} (mem : x ∈ xs) :
    ∃ y ∈ (pubAddrs xs).filterMap fun a => survivorAt mode d a xs, y.pa = x.pa := by
  obtain ⟨y, survives⟩ := survivorAt_some mode d mem
  exact ⟨y, List.mem_filterMap.mpr ⟨x.pa, ((pubAddrs_spec xs).1 _).mpr ⟨x, mem, rfl⟩, survives⟩, (survivorAt_mem survives).2.2⟩

/-- A publication of some stores is requests that write, at every byte that some of them write, the byte of one that R163 lets survive, and no other byte. -/
theorem publish_performs (s : State) (b vf lid mode : Nat) (after : List Nat) (sts : List PStore) :
    ∃ rs n, (publish s b vf lid mode after sts fun _ => true).1 = { drawn s with reqs := s.reqs ++ rs, nextId := n } ∧
      (∀ x ∈ (sts.map pubBytes).flatten, ∃ r ∈ rs, ∃ y ∈ candidates mode ((sts.map pubBytes).flatten.filter fun z => z.pa == x.pa), r.Writes x.pa y.byte) ∧
      ∀ r ∈ rs, (∃ pe, r.owner = .pub pe) ∧ ∀ a v, r.Writes a v → ∃ x ∈ (sts.map pubBytes).flatten, x.pa = a := by
  unfold publish
  dsimp only
  generalize (sts.map pubBytes).flatten = xs
  rw [List.filter_true]
  obtain ⟨writes, begins⟩ := pubRuns_writes (survivors_rising mode s.fresh xs)
  obtain ⟨rs, n, eq, forth, back⟩ := pubRequests_perform b vf lid after (fun run => (xs.filter fun x => x.pa / 2048 == run.pa / 2048).all fun x => x.comp)
    _ (fun run mem => (begins run mem).1) (drawn s, [])
  refine ⟨rs, n, eq, fun x mem => ?_, fun r mem => ?_⟩
  · obtain ⟨y, survives, same⟩ := survivors_everywhere mode s.fresh mem
    obtain ⟨run, there, does⟩ := (writes x.pa y.byte).mpr ⟨y, survives, same, rfl⟩
    obtain ⟨r, here, -, performs⟩ := forth run there
    exact ⟨r, here, y, same ▸ (mem_survivors survives).1, (performs _ _).mpr does⟩
  · obtain ⟨run, there, owner, performs⟩ := back r mem
    refine ⟨owner, fun a v does => ?_⟩
    obtain ⟨y, survives, at_, -⟩ := (writes a v).mp ⟨run, there, (performs a v).mp does⟩
    exact ⟨y, (mem_survivors survives).2, at_⟩

end Sys2Proof.Machine
end

section
/-! SUPPORT. What a phase boundary does to its group, to the group's stores and to the phase nodes that wait for it (R159 to R161, R165). -/

namespace Sys2Proof.Machine

open Host

/-- Entries that go back change what is charged, and the bulkhead's record of failing stores (R165, R166). -/
theorem dropStores_only (s : State) (gone : PStore → Bool) :
    ∃ rs bs, dropStores s gone = { s with stores := s.stores.filter fun p => !gone p, rcbs := rs, bhs := bs } := by
  have fold (l : List PStore) (t : State) : ∃ rs bs, l.foldl entriesBack t = { t with rcbs := rs, bhs := bs } := by
    induction l generalizing t with
    | nil => exact ⟨_, _, rfl⟩
    | cons p l ih => exact ih (entriesBack t p)
  exact fold _ _

/-- Whether the writes that a store left with have all been performed (R165). -/
def publicationOver (s : State) (p : PStore) : Bool := match p.leaving with | some ids => ids.all (writePerformed s) | none => false

theorem publicationOver_staying (s : State) {p : PStore} (stays : p.leaving = none) : publicationOver s p = false := by
  unfold publicationOver
  rw [stays]

/-- What settles: the stores whose publication is over go, where their boundary has been passed, or stay published early (R165, R168). -/
theorem leaveSettle_only (s : State) : ∃ rs bs sts, leaveSettle s = { s with stores := sts, rcbs := rs, bhs := bs } ∧
    sts = (s.stores.filter fun p => !(publicationOver s p && storePassed s p)).map fun p => if publicationOver s p then { p with leaving := none } else p := by
  obtain ⟨rs, bs, only⟩ := dropStores_only s fun p => publicationOver s p && storePassed s p
  have unfolds : leaveSettle s = if !(s.stores.any (publicationOver s)) then s else
      { dropStores s (fun p => publicationOver s p && storePassed s p) with
        stores := (dropStores s fun p => publicationOver s p && storePassed s p).stores.map fun p => if publicationOver s p then { p with leaving := none } else p } := rfl
  rw [unfolds, only]
  split
  · next idle =>
    have none_ (p : PStore) (mem : p ∈ s.stores) : publicationOver s p = false := by
      rw [Bool.not_eq_true', List.any_eq_false] at idle
      exact Bool.eq_false_iff.mpr (idle p mem)
    refine ⟨s.rcbs, s.bhs, s.stores, rfl, ?_⟩
    rw [List.filter_eq_self.mpr fun p mem => by rw [none_ p mem]; rfl]
    refine ((List.map_congr_left fun p mem => ?_).trans (List.map_id _)).symm
    rw [none_ p mem]
    rfl
  · exact ⟨rs, bs, _, rfl, rfl⟩

/-- A store that is not leaving stays as it is. -/
theorem mem_leaveSettle {s : State} {p : PStore} (mem : p ∈ s.stores) (stays : p.leaving = none) : p ∈ (leaveSettle s).stores := by
  obtain ⟨_, _, _, eq, rfl⟩ := leaveSettle_only s
  have going := publicationOver_staying s stays
  rw [eq]
  refine List.mem_map.mpr ⟨p, List.mem_filter.mpr ⟨mem, ?_⟩, ?_⟩
  · rw [going]
    rfl
  · rw [going]
    rfl

/-- A store of a passed boundary that is still there has not changed. -/
theorem mem_of_leaveSettle {s : State} {p : PStore} (mem : p ∈ (leaveSettle s).stores) (passed : storePassed s p = true) : p ∈ s.stores := by
  obtain ⟨_, _, _, eq, rfl⟩ := leaveSettle_only s
  rw [eq] at mem
  obtain ⟨q, there, rfl⟩ := List.mem_map.mp mem
  obtain ⟨there, kept⟩ := List.mem_filter.mp there
  cases ended : publicationOver s q with
  | false => exact there
  | true =>
    rw [ended, if_pos rfl] at passed
    have passed' : storePassed s q = true := passed
    rw [ended, passed'] at kept
    cases kept

/-- The scope of a boundary: the widest of its arrivals' (R161). -/
def boundaryScope (c : Placed) : Nat := ((c.arrivals.filter fun a => a.2.2.1 == c.boundary).map fun a => a.2.2.2).foldl max 0

/-- The group behind the boundary. -/
def boundaryNext (c : Placed) : Placed := { c with boundary := c.boundary + 1, arrivals := c.arrivals.filter fun a => a.2.2.1 != c.boundary }

/-- The stores that a boundary publishes (R161). -/
def boundaryStores (cfg : Nat) (c : Placed) (x : PStore) : Bool := x.cfg == cfg && x.phase == c.boundary && !x.parts.isEmpty

/-- The firings of phase nodes that waited for the boundary wait for its writes. -/
def boundaryWaits (cfg phase : Nat) (keys : List Nat) (q : PE) : PE :=
  { q with issued := q.issued.map fun i => if i.wait == .phase cfg phase then { i with wait := .reqs keys } else i }

/-- None of them waits for the boundary then. -/
theorem boundaryWaits_done (cfg phase : Nat) (keys : List Nat) (q : PE) : ∀ i ∈ (boundaryWaits cfg phase keys q).issued, i.wait ≠ .phase cfg phase := by
  intro i mem
  obtain ⟨j, -, rfl⟩ := List.mem_map.mp mem
  split
  · exact Wait.noConfusion
  · next other => exact fun same => other (beq_iff_eq.mpr same)

/-- A group that waits for further keys keeps the rest (R160). -/
theorem groupWaits_only {s : State} {cfg : Nat} {g : Placed} (keys : List Nat) (found : cfgAt s cfg = some g) :
    ∃ ks, groupWaits s cfg keys = cfgPut s { g with keys := ks } := by
  unfold groupWaits
  rw [found]
  exact ⟨_, rfl⟩

/-- What a boundary that can complete does: it publishes, its group goes on, the stores begin to leave and what waited waits for the writes (R159, R161, R165). -/
theorem phaseBoundary_run {s : State} {cfg : Nat} {c : Placed} (found : cfgAt s cfg = some c) (ready : boundaryReady s c = true) :
    let w := publish s c.bh c.vf c.lid c.mode (pubsMoving s cfg) (s.stores.filter (boundaryStores cfg c)) fun _ => true
    ∃ ks keys, exec (.phaseBoundary cfg) s = .next ((rectPes c).foldl (fun t pe => modPE t c.bh pe (boundaryWaits cfg c.boundary keys))
      (leaveSettle (leaveWith (cfgPut (cfgPut w.1 (boundaryNext c)) { boundaryNext c with keys := ks }) w.2 (boundaryStores cfg c)))) := by
  intro w
  have named : c.id = cfg := by simpa using List.find?_some (p := fun x : Placed => x.id == cfg) found
  have found' : cfgAt w.1 cfg = some c := by
    obtain ⟨rs, n, eq, -⟩ := publish_performs s c.bh c.vf c.lid c.mode (pubsMoving s cfg) (s.stores.filter (boundaryStores cfg c))
    show cfgAt (publish _ _ _ _ _ _ _ _).1 cfg = some c
    rw [eq]
    exact found
  have next := cfgAt_cfgPut (h := boundaryNext c) found' named
  obtain ⟨ks, waits⟩ := groupWaits_only (keysOf (boundaryScope c) w.2 ++ releaseSet s c.vf (boundaryScope c)) next
  refine ⟨ks, keysOf (boundaryScope c) w.2 ++ releaseSet s c.vf (boundaryScope c), ?_⟩
  rw [← waits]
  show execPhaseBoundary cfg s = _
  unfold execPhaseBoundary
  rw [found]
  dsimp only
  rw [if_neg (by rw [ready]; exact Bool.false_ne_true)]
  rw [show cfgAt (publish s c.bh c.vf c.lid c.mode (pubsMoving s cfg) (s.stores.filter fun x => x.cfg == cfg && x.phase == c.boundary && !x.parts.isEmpty)
    fun _ => true).1 cfg = some c from found']
  rfl

/-- The stores of a boundary that has been passed are leaving, as long as they are there; another store that is not leaving stays (R161, R165). -/
theorem boundaryStores_leave {s : State} {cfg : Nat} {c g : Placed} (ids : List Nat) (group : cfgAt s cfg = some g) (passed : c.boundary < g.boundary) :
    (∀ x ∈ (leaveSettle (leaveWith s ids (boundaryStores cfg c))).stores, boundaryStores cfg c x = true → x.leaving ≠ none) ∧
      ∀ x ∈ s.stores, boundaryStores cfg c x = false → x.leaving = none → x ∈ (leaveSettle (leaveWith s ids (boundaryStores cfg c))).stores := by
  constructor
  · intro x mem mine
    have gone : storePassed (leaveWith s ids (boundaryStores cfg c)) x = true := by
      simp only [boundaryStores, Bool.and_eq_true, beq_iff_eq] at mine
      obtain ⟨⟨ours, phase⟩, -⟩ := mine
      have group' : cfgAt (leaveWith s ids (boundaryStores cfg c)) cfg = some g := group
      unfold storePassed
      rw [ours, group']
      exact decide_eq_true (phase ▸ passed)
    obtain ⟨y, -, rfl⟩ := List.mem_map.mp (mem_of_leaveSettle mem gone)
    split at mine
    · next hit =>
      rw [if_pos hit]
      exact Option.some_ne_none _
    · next missed => exact absurd mine missed
  · intro x mem others stays
    refine mem_leaveSettle (List.mem_map.mpr ⟨x, mem, ?_⟩) stays
    rw [others]
    rfl

/-- Before the stores leave, the publication has been sent and the group has gone on. -/
theorem phaseBoundary_sent {s : State} {cfg : Nat} {c : Placed} (found : cfgAt s cfg = some c) (ready : boundaryReady s c = true) :
    let xs := ((s.stores.filter (boundaryStores cfg c)).map pubBytes).flatten
    ∃ (u : State) (ids ks keys : List Nat) (rs : List Req),
      exec (.phaseBoundary cfg) s = .next ((rectPes c).foldl (fun t pe => modPE t c.bh pe (boundaryWaits cfg c.boundary keys))
        (leaveSettle (leaveWith u ids (boundaryStores cfg c)))) ∧
      cfgAt u cfg = some { boundaryNext c with keys := ks } ∧ (u.stores = s.stores ∧ u.reqs = s.reqs ++ rs ∧ u.regs = s.regs ∧ u.mem = s.mem) ∧
      (∀ x ∈ xs, ∃ r ∈ rs, ∃ y ∈ candidates c.mode (xs.filter fun z => z.pa == x.pa), r.Writes x.pa y.byte) ∧
      ∀ r ∈ rs, (∃ pe, r.owner = .pub pe) ∧ ∀ a v, r.Writes a v → ∃ x ∈ xs, x.pa = a := by
  intro xs
  have named : c.id = cfg := by simpa using List.find?_some (p := fun x : Placed => x.id == cfg) found
  obtain ⟨ks, keys, run⟩ := phaseBoundary_run found ready
  obtain ⟨rs, n, sent, surviving, written⟩ := publish_performs s c.bh c.vf c.lid c.mode (pubsMoving s cfg) (s.stores.filter (boundaryStores cfg c))
  dsimp only at run
  rw [sent] at run
  exact ⟨_, _, ks, keys, rs, run, cfgAt_cfgPut (cfgAt_cfgPut (s := { drawn s with reqs := s.reqs ++ rs, nextId := n }) found named) named, ⟨rfl, rfl, rfl, rfl⟩,
    surviving, written⟩

/-- A boundary that can complete publishes what is pending in its phase, and its group goes on (R146, R159, R161, R163). -/
theorem phaseBoundary_publishes {s : State} {cfg : Nat} {c : Placed} (found : cfgAt s cfg = some c) (ready : boundaryReady s c = true) :
    let xs := ((s.stores.filter (boundaryStores cfg c)).map pubBytes).flatten
    ∃ (t : State) (g : Placed) (rs : List Req), exec (.phaseBoundary cfg) s = .next t ∧ cfgAt t cfg = some g ∧ g.boundary = c.boundary + 1 ∧
      g.arrivals = c.arrivals.filter (fun a => a.2.2.1 != c.boundary) ∧
      (∀ x ∈ t.stores, boundaryStores cfg c x = true → x.leaving ≠ none) ∧
      (∀ x ∈ s.stores, boundaryStores cfg c x = false → x.leaving = none → x ∈ t.stores) ∧
      (∀ pe ∈ rectPes c, ∀ i ∈ (getPE t c.bh pe).issued, i.wait ≠ .phase cfg c.boundary) ∧ t.reqs = s.reqs ++ rs ∧
      (∀ x ∈ xs, ∃ r ∈ rs, ∃ y ∈ candidates c.mode (xs.filter fun z => z.pa == x.pa), r.Writes x.pa y.byte) ∧
      (∀ r ∈ rs, (∃ pe, r.owner = .pub pe) ∧ ∀ a v, r.Writes a v → ∃ x ∈ xs, x.pa = a) ∧ t.regs = s.regs ∧ t.mem = s.mem := by
  intro xs
  obtain ⟨u, ids, ks, keys, rs, run, group, ⟨stores, reqs, regs, mem⟩, surviving, written⟩ := phaseBoundary_sent found ready
  obtain ⟨leaving, staying⟩ := boundaryStores_leave ids group (Nat.lt_succ_self c.boundary)
  obtain ⟨_, _, _, settled, -⟩ := leaveSettle_only (leaveWith u ids (boundaryStores cfg c))
  obtain ⟨_, folded⟩ := foldl_modPE_state c.bh (boundaryWaits cfg c.boundary keys) (rectPes c) (leaveSettle (leaveWith u ids (boundaryStores cfg c)))
  have waits (pe : Nat) (there : pe ∈ rectPes c) := getPE_foldl_modPE_mem (f := boundaryWaits cfg c.boundary keys) (b := c.bh)
    (leaveSettle (leaveWith u ids (boundaryStores cfg c))) there
  rw [folded] at run waits
  refine ⟨_, { boundaryNext c with keys := ks }, rs, run, ?_, rfl, rfl, leaving, stores ▸ staying, fun pe there => ?_, ?_, surviving, written, ?_, ?_⟩
  · rw [settled]
    exact group
  · obtain ⟨q, reads⟩ := waits pe there
    rw [reads]
    exact boundaryWaits_done cfg c.boundary keys q
  · rw [settled]
    exact reqs
  · rw [settled]
    exact regs
  · rw [settled]
    exact mem

end Sys2Proof.Machine
end

section
/-! SUPPORT. What a full cistern's event does to the stores that wait: with CFAULT those that stand matched are marked, and a tst that has issued fails (R166, R188). -/

namespace Sys2Proof.Machine

open Host

/-- t is s after stores have failed: PEs, error numbers and the next number alone can differ. -/
def OnlyFails (s t : State) : Prop := ∃ ps es n, t = { s with pes := ps, errSeq := es, nextId := n }

theorem OnlyFails.refl (s : State) : OnlyFails s s := ⟨_, _, _, rfl⟩

theorem OnlyFails.trans {s t u : State} (h : OnlyFails s t) (g : OnlyFails t u) : OnlyFails s u := by
  obtain ⟨_, _, _, rfl⟩ := h
  obtain ⟨_, _, _, rfl⟩ := g
  exact ⟨_, _, _, rfl⟩

theorem OnlyFails.foldl {α : Type} {f : State → α → State} (step : ∀ s x, OnlyFails s (f s x)) (l : List α) (s : State) : OnlyFails s (l.foldl f s) := by
  induction l generalizing s with
  | nil => exact .refl s
  | cons x l ih => exact (step s x).trans (ih _)

theorem tstDrop_only (s : State) (x : Tag) : ∃ ps, tstDrop s x = { s with pes := ps } := by
  unfold tstDrop
  dsimp only
  split
  · exact ⟨_, rfl⟩
  · exact dropRef_only _ _ _ _ _ _

/-- A tst that fails answers with an error and drops its tile (R188). -/
theorem tstFail_only (s : State) (x : Tag) : OnlyFails s (tstFail s x) := by
  obtain ⟨_, dropped⟩ := tstDrop_only s x
  unfold tstFail
  dsimp only
  rw [dropped]
  exact ⟨_, _, _, rfl⟩

theorem tstDrop_ready (s : State) (x : Tag) (c q : Nat) : (getPE (tstDrop s x) c q).ready = (getPE s c q).ready := by
  unfold tstDrop dropRef
  dsimp only
  split
  · rfl
  · rw [getPE_modPE]
    split
    · next same => unfold getPE; rw [same]
    · rfl

/-- What stands matched stays as a tst fails. -/
theorem tstFail_ready (s : State) (x : Tag) (c q : Nat) : (getPE (tstFail s x) c q).ready = (getPE s c q).ready := by
  unfold tstFail tagReplied pushReply
  dsimp only
  rw [getPE_pushIssued_keeps (·.ready) fun _ _ => rfl]
  unfold tagPut
  rw [getPE_modPE, ← tstDrop_ready s x c q]
  split
  · next same => unfold getPE; rw [same]; rfl
  · rfl

theorem tstFails_ready (l : List Tag) (s : State) (c q : Nat) : (getPE (l.foldl tstFail s) c q).ready = (getPE s c q).ready := by
  induction l generalizing s with
  | nil => rfl
  | cons x l ih => exact (ih _).trans (tstFail_ready s x c q)

/-- The mark that a waiting store of a group gets (R166, log 35). -/
def failMark (s : State) (p : PE) (vf g : Nat) (f : Firing) : Firing :=
  if f.vf == vf && f.cfg == g && storeWaits s p f then { f with fails := true } else f

/-- The stores of one PE fail, as they waited in s. -/
def failOn (s : State) (b vf g : Nat) (t : State) (pe : Nat) : State :=
  ((getPE s b pe).fetch.filter fun x => x.f.vf == vf && x.f.cfg == g && tstWaits s (getPE s b pe) x).foldl tstFail
    (modPE t b pe fun q => { q with ready := q.ready.map (failMark s (getPE s b pe) vf g) })

theorem storesFail_eq (s : State) (b vf g : Nat) : storesFail s b vf g = (storePes s b vf).foldl (failOn s b vf g) s := rfl

theorem failOn_only (s : State) (b vf g : Nat) (t : State) (pe : Nat) : OnlyFails t (failOn s b vf g t pe) :=
  OnlyFails.trans ⟨_, _, _, rfl⟩ (OnlyFails.foldl tstFail_only _ _)

theorem storesFail_only (s : State) (b vf g : Nat) : OnlyFails s (storesFail s b vf g) := OnlyFails.foldl (failOn_only s b vf g) _ s

theorem failOn_ready (s : State) (b vf g : Nat) (t : State) (pe q : Nat) :
    (getPE (failOn s b vf g t pe) b q).ready = if q = pe then (getPE t b q).ready.map (failMark s (getPE s b pe) vf g) else (getPE t b q).ready := by
  unfold failOn
  rw [tstFails_ready, getPE_modPE]
  by_cases same : q = pe
  · rw [same, if_pos rfl, if_pos rfl]
  · rw [if_neg same, if_neg fun key : peKey b q = peKey b pe => same (Nat.add_left_cancel key)]

/-- A mark stays. -/
theorem failOn_keeps_mark {s : State} {b vf g : Nat} {t : State} {pe q : Nat} {f : Firing} (marked : { f with fails := true } ∈ (getPE t b q).ready) :
    { f with fails := true } ∈ (getPE (failOn s b vf g t pe) b q).ready := by
  rw [failOn_ready]
  split
  · refine List.mem_map.mpr ⟨_, marked, ?_⟩
    unfold failMark
    split <;> rfl
  · exact marked

theorem failOn_fold_keeps_mark {s : State} {b vf g : Nat} {q : Nat} {f : Firing} (l : List Nat) {t : State} (marked : { f with fails := true } ∈ (getPE t b q).ready) :
    { f with fails := true } ∈ (getPE (l.foldl (failOn s b vf g) t) b q).ready := by
  induction l generalizing t with
  | nil => exact marked
  | cons x l ih => exact ih (failOn_keeps_mark marked)

/-- A store that waits on one of the PEs is marked. -/
theorem failOn_fold_marks {s : State} {b vf g q : Nat} {f : Firing} (ours : f.vf = vf) (group : f.cfg = g) (waits : storeWaits s (getPE s b q) f = true) (l : List Nat)
    {t : State} (there : q ∈ l) (ready : f ∈ (getPE t b q).ready) : { f with fails := true } ∈ (getPE (l.foldl (failOn s b vf g) t) b q).ready := by
  induction l generalizing t with
  | nil => exact absurd there List.not_mem_nil
  | cons x l ih =>
    rw [List.foldl_cons]
    by_cases same : q = x
    · refine failOn_fold_keeps_mark l ?_
      rw [failOn_ready, if_pos same, ← same]
      refine List.mem_map.mpr ⟨f, ready, ?_⟩
      unfold failMark
      rw [waits, ours, group, beq_self_eq_true, beq_self_eq_true]
      rfl
    · refine ih ((List.mem_cons.mp there).resolve_left same) ?_
      rw [failOn_ready, if_neg same]
      exact ready

theorem storesFail_marks {s : State} {b vf g q : Nat} {f : Firing} (ours : f.vf = vf) (group : f.cfg = g) (waits : storeWaits s (getPE s b q) f = true)
    (there : q ∈ storePes s b vf) (ready : f ∈ (getPE s b q).ready) : { f with fails := true } ∈ (getPE (storesFail s b vf g) b q).ready := by
  rw [storesFail_eq]
  exact failOn_fold_marks ours group waits _ there ready

/-! What an event leaves of a cistern: who waits there. -/

/-- The well's counts are not what names a VF's RCB (R133, R368). -/
theorem vfRcbAddr_apart {s t : State} (apart : RegsApart wellOff s t) (vf : Nat) : vfRcbAddr t vf = vfRcbAddr s vf := by
  unfold vfRcbAddr
  rw [apart.regGet (homeOf vf) (by omega) (by simp [wellOff]; omega)]

theorem chargeAddr_apart {s t : State} (tasks : t.tasks = s.tasks) (launches : t.launches = s.launches) (apart : RegsApart wellOff s t) (vf lid : Nat) (task : Option Nat) :
    chargeAddr t vf lid task = chargeAddr s vf lid task := by
  unfold chargeAddr taskAt launchAt
  rw [tasks, launches, vfRcbAddr_apart apart]

/-- Whether a store gets its entries depends on the stores, on the budgets and on what names them (R165, R367). -/
theorem cistTake_apart {s t : State} (stores : t.stores = s.stores) (rcbs : t.rcbs = s.rcbs) (tasks : t.tasks = s.tasks) (launches : t.launches = s.launches)
    (apart : RegsApart wellOff s t) (f : Firing) (n : Nat) : cistTake t f n = cistTake s f n := by
  have outside (off : Nat) (low : 0x18000 ≤ off) (_ : off < 0x18800) : wellOff off = false := by simp [wellOff]; omega
  unfold cistTake
  rw [stores, apart.tableVfs outside, apart.inTables outside, chargeAddr_apart tasks launches apart, budgetOk_congr _ _ rcbs]

/-- Whether a store waits does not depend on memory, on event numbers or on what is noted of a full cistern. -/
theorem storeWaits_apart {s t : State} (only : ∃ m bm e r q bs, t = { s with mem := m, bmeta := bm, ecc := e, regs := r, evSeq := q, bhs := bs })
    (apart : RegsApart wellOff s t) (p : PE) (f : Firing) : storeWaits t p f = storeWaits s p f := by
  obtain ⟨_, _, _, _, _, _, eq⟩ := only
  have takes := cistTake_apart (s := s) (t := t) (by rw [eq]) (by rw [eq]) (by rw [eq]) (by rw [eq]) apart
  subst eq
  unfold storeWaits
  simp only [takes]
  rfl

/-! The event of a full cistern (R166). -/

/-- The groups of some firings, each once. -/
theorem groups_single {fs : List Firing} {g : Nat} (some_ : fs ≠ []) (group : ∀ f ∈ fs, f.cfg = g) :
    fs.foldl (fun m f => if m.contains f.cfg then m else m ++ [f.cfg]) ([] : List Nat) = [g] := by
  have stays (l : List Firing) (same : ∀ f ∈ l, f.cfg = g) : l.foldl (fun m f => if m.contains f.cfg then m else m ++ [f.cfg]) [g] = [g] := by
    induction l with
    | nil => rfl
    | cons f l ih =>
      obtain ⟨first, rest⟩ := List.forall_mem_cons.mp same
      rw [List.foldl_cons, first, if_pos (by simp)]
      exact ih rest
  cases fs with
  | nil => exact absurd rfl some_
  | cons f l =>
    obtain ⟨first, rest⟩ := List.forall_mem_cons.mp group
    rw [List.foldl_cons, first]
    exact stays l rest

/-- The groups of the stores that wait, whose event has not been posted (R166). -/
def waitingGroups (s : State) (b vf : Nat) : List Nat :=
  ((storeWaiters s b vf).foldl (fun m f => if m.contains f.cfg then m else m ++ [f.cfg]) ([] : List Nat)).filter fun g => !(getBulk s b).cfPosted.contains g

theorem waitingGroups_single {s : State} {b vf g : Nat} (some_ : storeWaiters s b vf ≠ []) (group : ∀ f ∈ storeWaiters s b vf, f.cfg = g)
    (fresh : (getBulk s b).cfPosted.contains g = false) : waitingGroups s b vf = [g] := by
  unfold waitingGroups
  rw [groups_single some_ group, List.filter_cons_of_pos (by rw [fresh]; rfl), List.filter_nil]

/-- Whether a write of a publication of a VF is on its way in a bulkhead (R166). -/
def publicationMoves (s : State) (b vf : Nat) : Bool :=
  s.reqs.any fun r => r.vf == vf && r.bh == b && (match r.owner with | .pub _ => true | _ => false) && !waitClear s (2 * r.id)

theorem publicationMoves_none {s : State} {b vf : Nat}
    (idle : ∀ r ∈ s.reqs, r.vf = vf → r.bh = b → (∃ pe, r.owner = .pub pe) → waitClear s (2 * r.id) = true) : publicationMoves s b vf = false := by
  refine List.any_eq_false.mpr fun r mem moving => ?_
  simp only [Bool.and_eq_true, beq_iff_eq, Bool.not_eq_true'] at moving
  obtain ⟨⟨⟨ours, here⟩, owner⟩, waits⟩ := moving
  have pub : ∃ pe, r.owner = .pub pe := by
    split at owner
    · next pe eq => exact ⟨pe, eq⟩
    · cases owner
  rw [idle r mem ours here pub] at waits
  cases waits

/-- The launch that an event about a group names. -/
def groupLid (s : State) (g : Nat) : Nat := match cfgAt s g with | some c => c.lid | none => 0xFFFF

/-- The event is posted, and it is noted that it has been, and with CFAULT that the group's stores fail. -/
def cisternPosted (cfault : Bool) (s : State) (b vf g : Nat) : State :=
  modBulk (postEvent s (wellSrc b) b (some vf) (some (groupLid s g)) 0x07 (groupLid s g)) b fun x =>
    { x with cfPosted := x.cfPosted ++ [g], cfMode := if cfault then x.cfMode ++ [(vf, g)] else x.cfMode }

theorem execCisternFull_eq (b vf : Nat) (s : State) :
    execCisternFull b vf s = .next (
      if (storeWaiters s b vf).isEmpty ∨ (waitingGroups s b vf).isEmpty ∨ publicationMoves s b vf ∨ !(getBulk s b).stuck.contains vf ∨ !bhRuns s b then s
      else (waitingGroups s b vf).foldl (fun t g =>
        if bitAt (vfScope s vf) 4 then storesFail (cisternPosted (bitAt (vfScope s vf) 4) t b vf g) b vf g
        else cisternPosted (bitAt (vfScope s vf) 4) t b vf g) s) := rfl

/-- Where the stores of one group wait and nothing else can go on, the event is posted (R166). -/
theorem cisternFull_run {s : State} {b vf g : Nat} (some_ : storeWaiters s b vf ≠ []) (group : ∀ f ∈ storeWaiters s b vf, f.cfg = g)
    (fresh : (getBulk s b).cfPosted.contains g = false) (idle : ∀ r ∈ s.reqs, r.vf = vf → r.bh = b → (∃ pe, r.owner = .pub pe) → waitClear s (2 * r.id) = true)
    (stuck : (getBulk s b).stuck.contains vf = true) (runs : bhRuns s b = true) :
    exec (.cisternFull b vf) s = .next (if bitAt (vfScope s vf) 4 then storesFail (cisternPosted (bitAt (vfScope s vf) 4) s b vf g) b vf g
      else cisternPosted (bitAt (vfScope s vf) 4) s b vf g) := by
  show execCisternFull b vf s = _
  rw [execCisternFull_eq, waitingGroups_single some_ group fresh, publicationMoves_none idle, stuck, runs, List.isEmpty_eq_false_iff.mpr some_, if_neg (by simp)]
  rfl

/-- In clean memory the event takes a number of the well's, and is noted (R166, R421). -/
theorem cisternPosted_spec {s : State} (cfault : Bool) (b vf g : Nat) (clean : cleanMemory s) :
    let t := cisternPosted cfault s b vf g
    (∃ m bm e r q bs, t = { s with mem := m, bmeta := bm, ecc := e, regs := r, evSeq := q, bhs := bs }) ∧ RegsApart wellOff s t ∧ SameRegs s t ∧
      sget 0 t.evSeq (wellSrc b) = (sget 0 s.evSeq (wellSrc b) + 1) % 2 ^ 32 ∧ (getBulk t b).cfPosted = (getBulk s b).cfPosted ++ [g] ∧
      (getBulk t b).cfMode = (getBulk s b).cfMode ++ (if cfault then [(vf, g)] else []) := by
  dsimp only
  unfold cisternPosted
  generalize groupLid s g = lid
  obtain ⟨⟨_, _, _, _, only⟩, -, -⟩ := postEvent_quiet s (wellSrc b) b (some vf) (some lid) 0x07 lid clean
  obtain ⟨counts, same, -, -⟩ := postEvent_counts (wellSrc b) b (some vf) (some lid) 0x07 lid clean
  have apart := postEvent_apart s (wellSrc b) b (some vf) (some lid) 0x07 lid
  generalize postEvent s (wellSrc b) b (some vf) (some lid) 0x07 lid = t at *
  subst only
  refine ⟨⟨_, _, _, _, _, _, rfl⟩, apart, same, counts, ?_, ?_⟩
  · rw [getBulk_modBulk, if_pos rfl]
    rfl
  · rw [getBulk_modBulk, if_pos rfl]
    cases cfault
    · exact (List.append_nil _).symm
    · rfl

/-- With CFAULT the matched stores of the group that wait are marked to fail (R166, log 35). -/
theorem cisternPosted_marks {s : State} (cfault : Bool) {b vf g pe : Nat} {f : Firing} (clean : cleanMemory s) (there : pe ∈ storePes s b vf) (ready : f ∈ (getPE s b pe).ready)
    (ours : f.vf = vf) (group : f.cfg = g) (waits : storeWaits s (getPE s b pe) f = true) : { f with fails := true } ∈ (getPE (storesFail (cisternPosted cfault s b vf g) b vf g) b pe).ready := by
  obtain ⟨only, apart, -⟩ := cisternPosted_spec cfault b vf g clean
  have still := storeWaits_apart only apart (getPE s b pe) f
  generalize cisternPosted cfault s b vf g = t at *
  obtain ⟨_, _, _, _, _, _, rfl⟩ := only
  exact storesFail_marks ours group (still.trans waits) there ready

end Sys2Proof.Machine
end

section
/-! The statement about phase boundaries and the cistern (R146, R159, R161, R163, R165, R166). -/

namespace Sys2Proof.Machine

open Host

/-- Settles O46: a publication is requests that write, byte by byte, what R163 lets survive; an event leaves who waits as it was, so that the stores it finds are
those that it marks. -/
theorem boundariesPublish : Obligations.BoundariesPublish := by
  unfold Obligations.BoundariesPublish
  refine ⟨fun s cfg c found ready => ?_, fun s b vf g some_ group fresh idle stuck runs clean => ?_⟩
  · obtain ⟨t, h, rs, run, next, passed, arrivals, leaving, staying, woken, reqs, surviving, written, regs, mem⟩ := phaseBoundary_publishes found ready
    refine ⟨t, h, run, next, passed, arrivals, leaving, staying, woken, ?_, ?_, regs, fun a => congrArg (sget 0 · a) mem⟩
    · rintro a ⟨x, there, rfl⟩
      obtain ⟨r, sent, y, survives, p, piece, low, high, masked, reads⟩ := surviving x there
      exact ⟨r, reqs ▸ List.mem_append_right _ sent, (written r sent).1, p, piece, low, high, masked, y, survives, reads⟩
    · intro r there new p piece i inside masked
      rw [reqs] at there
      have sent := (List.mem_append.mp there).resolve_left new
      have place : p.pa + i - p.pa = i := Nat.add_sub_cancel_left _ _
      exact (written r sent).2 (p.pa + i) _ ⟨p, piece, by omega, by omega, by rw [place]; exact masked, rfl⟩
  · have run := cisternFull_run some_ group fresh idle stuck runs
    generalize bitAt (vfScope s vf) 4 = cfault at run ⊢
    obtain ⟨⟨_, _, _, _, _, _, only⟩, -, same, counts, posted, mode⟩ := cisternPosted_spec cfault b vf g clean
    refine ⟨_, run, ?_⟩
    cases cfault with
    | false => exact ⟨counts, posted, mode, same, by rw [if_neg Bool.false_ne_true, only], fun cfault => absurd cfault Bool.false_ne_true⟩
    | true =>
      rw [if_pos rfl]
      have marks (pe : Nat) (there : pe ∈ storePes s b vf) (f : Firing) (ready : f ∈ (getPE s b pe).ready) (ours : f.vf = vf) (our : f.cfg = g)
        (waits : storeWaits s (getPE s b pe) f = true) := cisternPosted_marks true clean there ready ours our waits
      obtain ⟨_, _, _, fails⟩ := storesFail_only (cisternPosted true s b vf g) b vf g
      rw [fails] at marks ⊢
      exact ⟨counts, posted, mode, same, by rw [only], fun _ => marks⟩

end Sys2Proof.Machine
end

section
/-! SUPPORT. The statement about node stores. A tst issues when the entries of its row 0 can be taken, and each further row looks for its own (R188): the statement asks for room
for the first row alone. Where the next one finds none and the stores of its group fail (R166), the tst fails with it, and its tag does not stay ISSUED. -/

namespace Sys2Proof.Machine

open Host

/-- A record of tst with one destination. -/
def shortTstNode : Node := ⟨.n64, 0, some ⟨0, 0, 1, .l, .cur⟩, none, false, 0, false, false, false, false, 0⟩

/-- Its firing: the tile of entry 1, to address 4096. -/
def shortTstFiring : Firing :=
  { Firing.empty with l := some { kind := .handle, payload := handleWord 1 0 1 }, r := some { kind := .value, payload := 4096 } }

/-- Its configuration declares TID 0, of two rows. -/
def shortTstCfg : Placed := { slotCfg with tids := [{ tid := 0, fmt := .n8, form := 0, planes := 0, rows := 2, scale := 0, ibase := 0 }] }

/-- The RCB at address 128, of VF 0: its cistern budget is the 32 entries that one row takes, and nothing is charged to it yet. -/
def oneRowRcb : Rcb :=
  { addr := 128, active := true, parent := 0, vf := 0, fdom := false, prio := 0, cap := 7, strict := false, cfault := true, errhalt := false, ecap := 0, evq := 0, quant := 0,
    limit := { Budget.zero with cist := 32 }, used := Budget.zero, ecapPosted := false }

/-- VF 0 is resident and VFRCB names that RCB; the stores of its group that find no entry fail at once, after an event with CFAULT (R166). The firing stands on PE 0. -/
def shortTstState : State :=
  { State.reset with
    regs := sput 0 State.reset.regs (regKey 0 0x12400) (1 + 128)
    pes := [(peKey 0 0, { PE.empty with handles := [(1, { HEntry.empty with kind := .tile, ref := 1, pages := [0] })], ready := [shortTstFiring] })]
    slots := [(0, { Slot.empty with st := .resident })]
    bhs := [(0, { Bulk.empty with cfMode := [(0, 0)] })]
    cfgs := [shortTstCfg]
    rcbs := [oneRowRcb]
    cur := shortTstFiring }

/-- The states of the fetch tags of PE 0 after a step. -/
def tagStatesAfter (o : Outcome State Fault Refusal) : List TagState :=
  match o with
  | .next t => (getPE t 0 0).fetch.map fun x => x.st
  | _ => []

/-- Row 1 is not stored, and the answer is there. -/
theorem shortTst_replied : tagStatesAfter (exec (.tst shortTstNode) shortTstState) = [.replied] := by decide +kernel

/-- Refutes O26: where the cistern budget has room for row 0 of a tile and no more, and the group's stores fail, row 1 finds no entry, and the tst is answered with CISTERN_FULL
in the same step (R188); the statement has its tag stay ISSUED. -/
theorem not_nodeStoresStayPending : ¬ Obligations.NodeStoresStayPending := by
  unfold Obligations.NodeStoresStayPending
  rintro ⟨pending, -⟩
  obtain ⟨-, -, tst⟩ := pending shortTstState shortTstNode shortTstCfg rfl rfl
  have room : (cistTake shortTstState shortTstState.cur (cistEntries 4096 512)).isSome = true := by decide +kernel
  obtain ⟨t, p, tag, run, -, -, -, -, -, issued, -, -, -, fired⟩ := tst (by decide +kernel) rfl (by decide +kernel) (by decide +kernel) room
  have replied := shortTst_replied
  rw [run] at replied
  have held : (getPE t 0 0).fetch = [tag] := congrArg PE.fetch fired
  have states : tagStatesAfter (.next t) = [tag.st] := congrArg (List.map fun x : Tag => x.st) held
  rw [states, issued] at replied
  exact absurd replied (by decide)

end Sys2Proof.Machine
end

section
/-! SUPPORT. The statement about phases and fences. An afence publishes early what its PE holds (R168), but leaves to a boundary what that is publishing already: those stores
stand in the cistern until their writes have been performed (R165), not marked as published early, and the afence waits for the writes among those on their way. -/

namespace Sys2Proof.Machine

open Host

/-- A pending store of PE 0 in phase 0: eight bytes of 5 at address 64. It leaves with the write of number 1. -/
def leavingStore : PStore :=
  { sid := 0, bh := 0, pe := 0, vf := 0, lid := 0xFFFF, cfg := 0, phase := 0, wave := 0, lsid := 0, task := none, va := 64, bytes := List.replicate 8 5,
    parts := [(0, 64, 8, false, false)], early := false, shared := 1, tag := none, leaving := some [1], payer := 0 }

/-- That write: the publication of the store. -/
def leavingRun : PubRun := { pa := 64, bytes := List.replicate 8 5, mask := [], comp := false, hostc := false, pe := 0, cfg := 0 }

/-- A record of afence at scope 0 with one destination, and its firing, as node 1 of PE 0. -/
def boundaryAfence : Node := ⟨.n64, 0, some ⟨0, 0, 2, .l, .cur⟩, none, false, 0, false, false, false, false, 0⟩
def boundaryFiring : Firing := { Firing.empty with node := 1, l := some { kind := .value, payload := 0 } }

/-- VF 0 is resident; node 0 of PE 0, the one phase node of its group, has fired for phase 0, and the group has passed that boundary: the publication waits at the well. The
afence stands ready. -/
def leavingState : State :=
  pubRequest
    { State.reset with
      pes := [(peKey 0 0, { PE.empty with ready := [boundaryFiring] })]
      slots := [(0, { Slot.empty with st := .resident })]
      cfgs := [{ slotCfg with phNodes := [(0, 0)], boundary := 1, pePhase := [(0, 1)], keys := [2] }]
      stores := [leavingStore]
      cur := boundaryFiring }
    0 0 0xFFFF leavingRun []

/-- The pending stores after a step. -/
def pendingAfter (o : Outcome State Fault Refusal) : List PStore :=
  match o with
  | .next t => t.stores
  | _ => []

/-- The afence leaves it to the boundary. -/
theorem afence_keeps_leavingStore : pendingAfter (exec (.afence boundaryAfence) leavingState) = [leavingStore] := by decide +kernel

/-- Refutes O29: a store that a boundary is publishing is not published early as well (R161, R168), and stays unmarked, where the statement has an afence mark every
translated store of its PE as published early. -/
theorem not_phasesAndFences : ¬ Obligations.PhasesAndFences := by
  unfold Obligations.PhasesAndFences
  intro all
  obtain ⟨-, -, -, -, afence⟩ := all leavingState boundaryAfence
  have within : scopeWithin leavingState 0 := Nat.zero_le _
  have translated : ∀ p ∈ leavingState.stores, p.parts ≠ [] := by decide +kernel
  obtain ⟨t, it, ids, run, -, -, -, -, -, -, -, -, early⟩ := afence (by decide +kernel) (by decide +kernel) within fun p there _ _ _ _ => translated p there
  have stores : pendingAfter (.next t) = [leavingStore] := run ▸ afence_keeps_leavingStore
  have there : leavingStore ∈ pendingAfter (.next t) := stores ▸ List.mem_singleton.mpr rfl
  have set : leavingStore.early = true := early leavingStore there (by decide +kernel) (by decide +kernel) (by decide) (by decide +kernel)
  exact absurd set (by decide)

end Sys2Proof.Machine
end

section
/-! SUPPORT. The scalar classes (R227, R274, R291, R299): operands as integers and as bits of the node's type, and what the issue of a scalar firing does, with a unit
that it holds, with one that only has to be free, or with none. -/

namespace Sys2Proof.Machine

open Host

/-! Operands and results of a type (R76, R274). -/

theorem tyWidth_pos (t : Ty) : 0 < tyWidth t := by cases t <;> decide

theorem sextInt_eq_toInt {w : Nat} (pos : 0 < w) (x : Nat) : sextInt w x = (BitVec.ofNat w x).toInt := by
  obtain ⟨w, rfl⟩ := Nat.exists_eq_add_of_le' pos
  rw [← sextInt_toNat, BitVec.toNat_ofNat]
  unfold sextInt
  rw [Nat.mod_mod]

theorem readInt_eq_vecInt (t : Ty) (v : Word) : readInt t v = vecInt t (v.setWidth (tyWidth t)) := by
  unfold readInt vecInt
  rw [sextInt_eq_toInt (tyWidth_pos t), BitVec.toNat_setWidth, BitVec.ofNat_toNat]

theorem word_wrapNat (x : Int) : word (wrapNat 64 x) = BitVec.ofInt 64 x :=
  BitVec.eq_of_toNat_eq (by rw [word, BitVec.toNat_ofNat, wrapNat_lt, BitVec.toNat_ofInt]; rfl)

/-- A result is extended from the width of its type (R76). -/
theorem extend_eq_widen (t : Ty) (x : Nat) : extend t x = widen t (BitVec.ofNat (tyWidth t) x) := by
  unfold extend widen
  rw [sextInt_eq_toInt (tyWidth_pos t), word_wrapNat]
  congr 1
  exact BitVec.eq_of_toNat_eq (by rw [word, BitVec.toNat_ofNat, BitVec.toNat_setWidth, BitVec.toNat_ofNat])

theorem lInt_firingCtx (s : State) (code : Nat) (n : Node) : lInt (firingCtx s code n) = vecInt n.ty (lVec n.ty (firingCtx s code n)) := by
  unfold lInt lVec
  rw [firingCtx_node, readInt_eq_vecInt]

theorem rInt_firingCtx (s : State) (code : Nat) (n : Node) : rInt (firingCtx s code n) = vecInt n.ty (rVec n.ty (firingCtx s code n)) := by
  unfold rInt rVec
  rw [firingCtx_node, readInt_eq_vecInt]

theorem lBits_firingCtx (s : State) (code : Nat) (n : Node) : lBits (firingCtx s code n) = (lVec n.ty (firingCtx s code n)).toNat := by
  unfold lBits lVec
  rw [firingCtx_node, BitVec.toNat_setWidth]

/-! The units (R227). -/

theorem unitFree_takeReady (s : State) (code : Nat) (n : Node) (u : Nat) :
    unitFree (takeReady s s.cur) (firingCtx s code n).f u = unitFree s s.cur u := by
  unfold unitFree
  rw [firingCtx_bh, firingCtx_pe, cycleOf_takeReady, getPE_takeReady, if_pos rfl]

theorem charge_holdUnit (s : State) (f : Firing) (u k b pe cls count : Nat) :
    charge (holdUnit s f u k) b pe cls count = holdUnit (charge s b pe cls count) f u k := by
  have weight : energyWeight (holdUnit s f u k) b cls = energyWeight s b cls := rfl
  unfold charge
  dsimp only
  rw [weight]
  split <;> rfl

/-- A unit that is held is among what an issue may touch (R227). -/
theorem holdUnit_only {s u : State} {f : Firing} (hb : f.bh = s.cur.bh) (hpe : f.pe = s.cur.pe) (x k : Nat) (h : OnlyIssues s u) :
    OnlyIssues s (holdUnit u f x k) := by
  have own : firedPE s (holdUnit u f x k) = { firedPE s u with units := sput 0 (firedPE s u).units x (cycleOf u s.cur.bh + k) } := by
    unfold firedPE holdUnit; rw [hb, hpe, getPE_modPE, if_pos rfl]
  have others : ∀ b pe, peKey b pe ≠ peKey s.cur.bh s.cur.pe → getPE (holdUnit u f x k) b pe = getPE u b pe := fun b pe far => by
    unfold holdUnit; rw [hb, hpe, getPE_modPE, if_neg far]
  exact { h with own := by
                   rw [own]
                   exact congrArg (fun p : PE => { p with units := sput 0 (firedPE s u).units x (cycleOf u s.cur.bh + k) }) h.own
                 others := fun b pe far => (others b pe far).trans (h.others b pe far) }

/-- A scalar firing has left its queue, its unit has been taken for `lat` cycles, and it has been charged and entered (R227, R427). -/
def heldState (s : State) (code : Nat) (n : Node) (unit lat cls : Nat) (r : ScalarRes) : State :=
  pushIssued (charge (holdUnit (takeReady s s.cur) (firingCtx s code n).f unit lat) s.cur.bh s.cur.pe cls 1) (firingCtx s code n).f n lat (toUsed n .value r.val)
    (dropsOf s code n) r.flags .nothing

theorem heldState_only (s : State) (code : Nat) (n : Node) (unit lat cls : Nat) (r : ScalarRes) : OnlyIssues s (heldState s code n unit lat cls r) := by
  unfold heldState pushIssued pushWriting
  rw [pushItem_only (firingCtx_bh s code n) (firingCtx_pe s code n), charge_holdUnit]
  exact holdUnit_only (firingCtx_bh s code n) (firingCtx_pe s code n) unit lat (chargedState_only s cls 1 n)

theorem heldState_units (s : State) (code : Nat) (n : Node) (unit lat cls : Nat) (r : ScalarRes) :
    (firedPE s (heldState s code n unit lat cls r)).units = sput 0 (firedPE s s).units unit (cycleOf s s.cur.bh + lat) := by
  unfold firedPE heldState pushIssued holdUnit
  rw [getPE_pushWriting, firingCtx_bh, firingCtx_pe, if_pos rfl, getPE_charge, getPE_modPE, if_pos rfl, cycleOf_takeReady, getPE_takeReady, if_pos rfl]

theorem heldState_issues (s : State) (code : Nat) (n : Node) (unit lat cls : Nat) (r : ScalarRes) :
    Issues s (heldState s code n unit lat cls r) (itemOf s code n lat (toUsed n .value r.val) (dropsOf s code n) r.flags) := by
  have own : firedPE s (holdUnit (takeReady s s.cur) (firingCtx s code n).f unit lat) =
      { firedPE s (takeReady s s.cur) with units := sput 0 (firedPE s (takeReady s s.cur)).units unit (cycleOf (takeReady s s.cur) s.cur.bh + lat) } := by
    unfold firedPE holdUnit; rw [firingCtx_bh, firingCtx_pe, getPE_modPE, if_pos rfl]
  exact ((takeReady_departed s).of_same (by rw [own]; exact ⟨rfl, rfl, rfl⟩) (holdUnit_nextId _ _ _ _) (holdUnit_bhs _ _ _ _)).issues code cls 1 n lat _ _ _

/-! The issue of a scalar firing (R227). -/

section
variable {s : State} {i : Instr} {code : Nat} {n : Node} {lat cls unit : Nat} {pipe : Option Nat} {g : Ctx → ScalarRes}

/-- A pipelined firing gives its value once the unit that has to be free is free. -/
theorem givesValue_of_pipelined (hi : exec i s = .next (fire s code n fun c t => scalarIssue t c lat cls none pipe (g c))) (h : performs s code n = true)
    (free : ∀ u ∈ pipe, unitFree s s.cur u = true) {v : Word} {fl : BitVec 9} (res : g (firingCtx s code n) = ⟨v, fl⟩) : GivesValue s i code n lat v fl := by
  refine completesWith_of_fire s i code n cls 1 lat _ _ fl _ hi h ?_
  have ready : ((none : Option Nat).toList ++ pipe.toList).all (fun u => unitFree (takeReady s s.cur) (firingCtx s code n).f u) = true := by
    simpa [unitFree_takeReady] using free
  unfold scalarIssue
  rw [ready, res, firingCtx_node]
  rfl

/-- A firing that holds its unit takes it for its latency, where it is free. -/
theorem holds_of_fire (hi : exec i s = .next (fire s code n fun c t => scalarIssue t c lat cls (some unit) none (g c))) (h : performs s code n = true)
    (free : unitFree s s.cur unit = true) : exec i s = .next (heldState s code n unit lat cls (g (firingCtx s code n))) := by
  rw [hi, fire_perform s code n _ h]
  unfold scalarIssue
  simp only [Option.toList_some, Option.toList_none, List.append_nil, List.all_cons, List.all_nil, unitFree_takeReady, free, firingCtx_node, firingCtx_bh, firingCtx_pe]
  rfl

/-- It then gives its value. -/
theorem givesValue_of_holds (hi : exec i s = .next (fire s code n fun c t => scalarIssue t c lat cls (some unit) none (g c))) (h : performs s code n = true)
    (free : unitFree s s.cur unit = true) {v : Word} {fl : BitVec 9} (res : g (firingCtx s code n) = ⟨v, fl⟩) : GivesValue s i code n lat v fl := by
  refine ⟨_, holds_of_fire hi h free, heldState_only _ _ _ _ _ _ _, ?_⟩
  rw [res]
  exact heldState_issues s code n unit lat cls ⟨v, fl⟩

/-- Where the unit is held, the firing keeps its place (R226). -/
theorem waits_of_held (hi : exec i s = .next (fire s code n fun c t => scalarIssue t c lat cls (some unit) none (g c))) (h : performs s code n = true)
    (held : unitFree s s.cur unit = false) : exec i s = .next s := by
  rw [hi, fire_perform s code n _ h]
  unfold scalarIssue
  simp only [Option.toList_some, Option.toList_none, List.append_nil, List.all_cons, List.all_nil, unitFree_takeReady, held]
  rfl

end

end Sys2Proof.Machine
end

section
/-! SUPPORT. The statements about bnd (R221, R298) and about scalar floating point (R227, R300 to R307). -/

namespace Sys2Proof.Machine

open Host

/-- Settles O11: bnd compares the operands as integers of its type; where l is out of bounds its own check fails. -/
theorem boundsNodeTraps : Obligations.BoundsNodeTraps := by
  unfold Obligations.BoundsNodeTraps
  intro s n h c x src payload
  have within : (decide (0 ≤ lInt c) && decide (lInt c < rInt c)) = true ↔ 0 ≤ x ∧ x < vecInt n.ty (rVec n.ty c) := by
    rw [Bool.and_eq_true, decide_eq_true_iff, decide_eq_true_iff, lInt_firingCtx, rInt_firingCtx]
  refine ⟨fun inside => ?passes, fun outside => ?traps⟩
  case passes =>
    refine completesWith_of_fire s (.bnd n) 0x05D n 0 1 1 _ _ 0 _ rfl h ?_
    refine (if_pos (within.mpr inside)).trans ?_
    unfold scalarIssue
    rw [firingCtx_node]
    rfl
  case traps => exact errsWith_of_fire (i := .bnd n) 0x0C rfl h (by decide) (if_neg (mt within.mp outside))

section
variable {s : State} {i : Instr} {code : Nat} {n : Node} {lat : Nat} {f : Ty → Ctx → FloatRes}

theorem floatRes_firingCtx (s : State) (code : Nat) (n : Node) (f : Ty → Ctx → FloatRes) :
    floatRes (firingCtx s code n).n.ty (f (firingCtx s code n).n.ty (firingCtx s code n)) =
      ⟨extend n.ty (f n.ty (firingCtx s code n)).val, (f n.ty (firingCtx s code n)).flags⟩ := by
  rw [firingCtx_node]; rfl

/-- A pipelined class 2 instruction gives the pattern and the flags of its operation (R300). -/
theorem givesValue_of_fireFloat (f : Ty → Ctx → FloatRes) (hi : exec i s = .next (fireFloat s code n lat fun c => floatRes c.n.ty (f c.n.ty c)))
    (h : performs s code n = true) : GivesValue s i code n lat (extend n.ty (f n.ty (firingCtx s code n)).val) (f n.ty (firingCtx s code n)).flags :=
  givesValue_of_pipelined hi h nofun (floatRes_firingCtx s code n f)

/-- So does one on the divider (R300). -/
theorem givesValue_of_fireFdiv (f : Ty → Ctx → FloatRes) (hi : exec i s = .next (fireFdiv s code n lat fun c => floatRes c.n.ty (f c.n.ty c)))
    (h : performs s code n = true) (free : unitFree s s.cur unitFpDiv = true) :
    GivesValue s i code n lat (extend n.ty (f n.ty (firingCtx s code n)).val) (f n.ty (firingCtx s code n)).flags :=
  givesValue_of_holds hi h free (floatRes_firingCtx s code n f)

/-- So does a special function (R307). -/
theorem givesValue_of_fireSpecial (f : Ty → Ctx → FloatRes) (hi : exec i s = .next (fireSpecial s code n fun c => floatRes c.n.ty (f c.n.ty c)))
    (h : performs s code n = true) (free : unitFree s s.cur unitSfu = true) :
    GivesValue s i code n 12 (extend n.ty (f n.ty (firingCtx s code n)).val) (f n.ty (firingCtx s code n)).flags :=
  givesValue_of_pipelined hi h (by rintro u ⟨⟩; exact free) (floatRes_firingCtx s code n f)

end

/-- A pattern without its sign bit (R302). -/
theorem signCleared_eq {w : Nat} (pos : 0 < w) (x : BitVec w) : x &&& (BitVec.allOnes w >>> 1) = BitVec.ofNat w (x.toNat % 2 ^ (w - 1)) := by
  refine BitVec.eq_of_getLsbD_eq fun i hi => ?_
  have below : 1 + i < w ↔ i < w - 1 := by omega
  simp [Nat.testBit_mod_two_pow, hi, BitVec.getLsbD, below, Bool.and_comm]

/-- A pattern with its sign bit inverted (R302). -/
theorem signInverted_eq {w : Nat} (pos : 0 < w) (x : BitVec w) : x ^^^ BitVec.twoPow w (w - 1) = BitVec.ofNat w (Nat.xor x.toNat (2 ^ (w - 1))) := by
  have signBit : 2 ^ (w - 1) < 2 ^ w := Nat.pow_lt_pow_right (by decide) (by omega)
  have small : Nat.xor x.toNat (2 ^ (w - 1)) < 2 ^ w := Nat.xor_lt_two_pow x.isLt signBit
  refine BitVec.eq_of_toNat_eq ?_
  rw [BitVec.toNat_xor, BitVec.toNat_twoPow, BitVec.toNat_ofNat, Nat.mod_eq_of_lt small, Nat.mod_eq_of_lt signBit]
  rfl

theorem word_b2n (b : Bool) : word (b2n b) = if b then 1 else 0 := by cases b <;> rfl

/-- Settles O12: each is the pipelined issue of its operation; the sign bit is cleared and inverted as a bit. -/
theorem pipelinedFloatResults : Obligations.PipelinedFloatResults := by
  unfold Obligations.PipelinedFloatResults
  intro s n c gives mode x y lv
  refine ⟨?fadd, ?fsub, ?fmul, ?ffma, ?fmin, ?fmax, ?fabs, ?fneg, ?fcmp, ?fcvt, ?frnd, ?fclass, ?fscl⟩
  case fadd => exact givesValue_of_fireFloat (fun t c => fadd t c.pol (roundMode c) (lBits c) (rBits c)) rfl
  case fsub => exact givesValue_of_fireFloat (fun t c => fsub t c.pol (roundMode c) (lBits c) (rBits c)) rfl
  case fmul => exact givesValue_of_fireFloat (fun t c => fmul t c.pol (roundMode c) (lBits c) (rBits c)) rfl
  case ffma => exact givesValue_of_fireFloat (fun t c => ffma t c.pol (roundMode c) (lBits c) (rBits c) (pBits c)) rfl
  case fmin => exact givesValue_of_fireFloat (fun t c => fminmax t c.pol false (lBits c) (rBits c)) rfl
  case fmax => exact givesValue_of_fireFloat (fun t c => fminmax t c.pol true (lBits c) (rBits c)) rfl
  case frnd => exact givesValue_of_fireFloat (fun t c => frnd t c.pol (roundMode c) (lBits c)) rfl
  case fscl => exact givesValue_of_fireFloat (fun t c => fscl t c.pol (roundMode c) (lBits c) (payloadAt c.f .r).toInt) rfl
  case fabs =>
    refine fun h => givesValue_of_pipelined (i := .fabs n) rfl h nofun (congrArg wordRes ?_)
    rw [lBits_firingCtx, firingCtx_node, extend_eq_widen, ← signCleared_eq (tyWidth_pos n.ty)]
  case fneg =>
    refine fun h => givesValue_of_pipelined (i := .fneg n) rfl h nofun (congrArg wordRes ?_)
    rw [lBits_firingCtx, firingCtx_node, extend_eq_widen, ← signInverted_eq (tyWidth_pos n.ty)]
  case fcmp =>
    refine fun h => givesValue_of_pipelined (i := .fcmp n) rfl h nofun ?_
    unfold fcmpRes
    dsimp only
    rw [word_b2n, firingCtx_node, litBits_eq]
  case fcvt => exact fun h => givesValue_of_pipelined (i := .fcvt n) rfl h nofun rfl
  case fclass =>
    refine fun h => givesValue_of_pipelined (i := .fclass n) rfl h nofun (congrArg wordRes ?_)
    rw [firingCtx_node]
    rfl

/-- The divider is taken by one firing at a time (R227, R300). -/
theorem fireFdiv_divider {s : State} {i : Instr} {code : Nat} {n : Node} {lat : Nat} {g : Ctx → ScalarRes} (hi : exec i s = .next (fireFdiv s code n lat g))
    (h : performs s code n = true) :
    (unitFree s s.cur unitFpDiv = true → ∃ t : State, exec i s = .next t ∧ sget 0 (firedPE s t).units unitFpDiv = cycleOf s s.cur.bh + lat) ∧
      (unitFree s s.cur unitFpDiv = false → exec i s = .next s) := by
  refine ⟨fun free => ⟨_, holds_of_fire hi h free, ?_⟩, waits_of_held hi h⟩
  rw [heldState_units, sget_sput_same]

/-- Settles O13: each is the issue of its operation on the unit that it needs, and those of the divider hold it. -/
theorem iterativeFloatResults : Obligations.IterativeFloatResults := by
  unfold Obligations.IterativeFloatResults
  intro s n c gives
  refine ⟨?frcp, ?frsq, ?fsqrt, ?fdiv, ?fexp2, ?flog2, ?ftanh, ?fsigm, ?divider⟩
  case frcp => exact givesValue_of_fireFdiv (fun t c => frcp t c.pol (roundMode c) (lBits c)) rfl
  case frsq => exact givesValue_of_fireFdiv (fun t c => frsq t c.pol (roundMode c) (lBits c)) rfl
  case fsqrt => exact givesValue_of_fireFdiv (fun t c => fsqrt t c.pol (roundMode c) (lBits c)) rfl
  case fdiv => exact givesValue_of_fireFdiv (fun t c => fdiv t c.pol (roundMode c) (lBits c) (rBits c)) rfl
  case fexp2 => exact givesValue_of_fireSpecial (fun t c => fexp2 t c.pol (lBits c)) rfl
  case flog2 => exact givesValue_of_fireSpecial (fun t c => flog2 t c.pol (lBits c)) rfl
  case ftanh => exact givesValue_of_fireSpecial (fun t c => ftanh t c.pol (lBits c)) rfl
  case fsigm => exact givesValue_of_fireSpecial (fun t c => fsigm t c.pol (lBits c)) rfl
  case divider =>
    intro x named
    simp only [List.mem_cons, List.not_mem_nil, or_false] at named
    obtain rfl | rfl | rfl | rfl := named
    · exact fireFdiv_divider (i := .frcp n) rfl
    · exact fireFdiv_divider (i := .frsq n) rfl
    · exact fireFdiv_divider (i := .fsqrt n) rfl
    · exact fireFdiv_divider (i := .fdiv n) rfl

end Sys2Proof.Machine
end

section
/-! SUPPORT. The end of the wait of an issued firing, and the leader of a pair: its message, BROKEN, and its LIMIT (R350, R351). -/

namespace Sys2Proof.Machine

open Host

/-! The end of a wait. -/

/-- An issued firing whose wait has ended: what it emits and when, and the effects and flags that come with it. -/
def endedItem (x : Issued) (due : Nat) (es : List Emit) (fx : List Effect) (fl : BitVec 9) : Issued :=
  { x with due := due, emits := es, effects := x.effects ++ fx, flags := x.flags ||| fl, wait := .nothing }

section
variable (s : State) (it : Issued) (due : Nat) (es : List Emit) (fx : List Effect) (fl : BitVec 9)

theorem getPE_issuedSet : getPE (issuedSet s it due es fx fl) it.f.bh it.f.pe =
    { getPE s it.f.bh it.f.pe with
      issued := (getPE s it.f.bh it.f.pe).issued.map fun x => if x.id = it.id then endedItem x due es fx fl else x } := by
  unfold issuedSet
  rw [getPE_modPE, if_pos rfl]
  rfl

theorem issuedSet_mem (h : it ∈ (getPE s it.f.bh it.f.pe).issued) :
    endedItem it due es fx fl ∈ (getPE (issuedSet s it due es fx fl) it.f.bh it.f.pe).issued := by
  rw [getPE_issuedSet]
  exact List.mem_map.mpr ⟨it, h, if_pos rfl⟩

theorem issuedSet_alone (h : (getPE s it.f.bh it.f.pe).issued = [it]) :
    (getPE (issuedSet s it due es fx fl) it.f.bh it.f.pe).issued = [endedItem it due es fx fl] := by
  rw [getPE_issuedSet, h]
  exact congrArg (fun x => [x]) (if_pos rfl)

theorem getSlot_issuedSet (b sl : Nat) : getSlot (issuedSet s it due es fx fl) b sl = getSlot s b sl :=
  getSlot_congr (modPE_slots _ _ _ _) b sl

end

/-! Leaders. -/

/-- A leader stands alone among the issued firings of its PE, and waits. -/
structure LeaderWaits (s : State) (it : Issued) (own : List CellSum) (limit start : Nat) : Prop where
  alone : (getPE s it.f.bh it.f.pe).issued = [it]
  waits : it.wait = .pair own limit start
  runs : bhRuns s it.f.bh = true

/-- The leader's wait has ended: it emits `es`, not before its array part is over, and not before cycle `lo`. -/
def LeaderEnds (t : State) (it : Issued) (es : List Emit) (lo : Nat) : Prop :=
  ∃ jt, (getPE t it.f.bh it.f.pe).issued = [jt] ∧ jt.f = it.f ∧ jt.wait = .nothing ∧ jt.emits = es ∧ jt.due = max it.due lo

section
variable {s : State} {it : Issued} {own : List CellSum} {limit start : Nat}

theorem mergeSums_issued (s : State) (b pe h : Nat) (sets : List (List CellSum)) :
    (getPE (mergeSums s b pe h sets).1 b pe).issued = (getPE s b pe).issued := by
  unfold mergeSums
  dsimp only
  rw [getPE_setPE, if_pos rfl]
  rfl

/-- A leader that takes its follower's sums passes its handle on (R350). -/
theorem pairServe_ends (alone : (getPE s it.f.bh it.f.pe).issued = [it]) (sums : List CellSum) :
    LeaderEnds (pairServe s it own (some sums)) it (toUsed it.node .handle (payloadAt it.f .p)) (cycleOf s it.f.bh + 4) :=
  ⟨_, issuedSet_alone _ it _ _ _ _ ((mergeSums_issued _ _ _ _ _).trans alone), rfl, rfl, rfl, rfl⟩

/-- The accumulator is that of the merge of both parts. -/
theorem pairServe_acc (sums : List CellSum) : (getPE (pairServe s it own (some sums)) it.f.bh it.f.pe).acc =
    (getPE (mergeSums s it.f.bh it.f.pe (handleIdx (payloadAt it.f .p)) [own, sums]).1 it.f.bh it.f.pe).acc := by
  unfold pairServe
  dsimp only
  rw [getPE_issuedSet]

/-- A leader that fails ends with a new error of its PE (R350, R351). -/
theorem pairFail_ends (alone : (getPE s it.f.bh it.f.pe).issued = [it]) (code : Nat) :
    LeaderEnds (pairFail s it code) it (toUsed it.node .err (newError s (peSrc it.f.bh it.f.pe) code).1) (cycleOf s it.f.bh) := by
  unfold pairFail
  dsimp only
  rw [errEmits_eq]
  exact ⟨_, issuedSet_alone _ it _ _ _ _ alone, rfl, rfl, rfl, rfl⟩

theorem pairLeader_of_even {pe : Nat} (h : pe % 2 = 0) : pairLeader pe = true := beq_iff_eq.mpr h

/-- The message for the one leader that waits is taken off the link (R350). -/
theorem pairMessage_takes (w : LeaderWaits s it own limit start) (even : it.f.pe % 2 = 0) (owes : (getPE s it.f.bh it.f.pe).discards = []) {m : PairMsg}
    (found : pairFind s it.f.bh it.f.pe it.f.fp = some m) {sums : Option (List CellSum)} (has : m.sums = sums) :
    exec (.pairMessage it.f.bh it.f.pe) s = .next (pairServe (pairTake s it.f.bh it.f.pe m) it own sums) := by
  show execPairMessage it.f.bh it.f.pe s = _
  unfold execPairMessage
  simp [w.alone, w.waits, w.runs, pairLeader_of_even even, owes, found, has]

/-- Where there is none and the follower is frozen, BROKEN stands for it, and the follower discards in its turn (R350, log 46). -/
theorem pairMessage_broken (w : LeaderWaits s it own limit start) (even : it.f.pe % 2 = 0) (owes : (getPE s it.f.bh it.f.pe).discards = [])
    (none_ : pairFind s it.f.bh it.f.pe it.f.fp = none) (frozen : (getPE s it.f.bh (pairOther it.f.pe)).frozen.isSome = true) :
    exec (.pairMessage it.f.bh it.f.pe) s = .next (pairServe (modPE s it.f.bh (pairOther it.f.pe) fun q =>
      { q with discards := q.discards ++ [{ node := it.f.node, fp := it.f.fp, id := it.id }] }) it own none) := by
  show execPairMessage it.f.bh it.f.pe s = _
  unfold execPairMessage
  simp [w.alone, w.waits, w.runs, pairLeader_of_even even, owes, none_, frozen]

/-- At its LIMIT a leader ends, and will discard the message (R351). -/
theorem pairLimitExpire_fails (w : LeaderWaits s it own limit start) (some_ : limit ≠ 0)
    (late : start + 64 * limit ≤ (getSlot s it.f.bh (slotOf it.f.pe)).resCycles) (none_ : pairFind s it.f.bh it.f.pe it.f.fp = none) :
    exec (.pairLimitExpire it.f.bh it.f.pe 0) s = .next (pairFail (modPE s it.f.bh it.f.pe fun q =>
      { q with discards := q.discards ++ [{ node := it.f.node, fp := it.f.fp, id := it.id }] }) it 0x10) := by
  show execPairLimitExpire it.f.bh it.f.pe 0 s = _
  unfold execPairLimitExpire
  simp [w.alone, w.waits, w.runs, some_, none_, Nat.not_lt.mpr late]

/-- The leader whose follower is frozen ends with PAIR_BROKEN (R350, log 46). -/
theorem leader_endsBroken (w : LeaderWaits s it own limit start) (even : it.f.pe % 2 = 0) (owes : (getPE s it.f.bh it.f.pe).discards = [])
    (none_ : pairFind s it.f.bh it.f.pe it.f.fp = none) (frozen : (getPE s it.f.bh (pairOther it.f.pe)).frozen.isSome = true) :
    ∃ t : State, exec (.pairMessage it.f.bh it.f.pe) s = .next t ∧
      LeaderEnds t it (toUsed it.node .err (newError s (peSrc it.f.bh it.f.pe) 0x0F).1) (cycleOf s it.f.bh) ∧ t.links = s.links := by
  have apart : peKey it.f.bh it.f.pe ≠ peKey it.f.bh (pairOther it.f.pe) := by unfold peKey pairOther; rw [if_pos even]; omega
  refine ⟨_, pairMessage_broken w even owes none_ frozen, pairFail_ends (Eq.trans ?_ w.alone) 0x0F, rfl⟩
  rw [getPE_modPE, if_neg apart]

/-- The leader at its LIMIT ends with LIMIT, and owes a discard (R351). -/
theorem leader_endsLimited (w : LeaderWaits s it own limit start) (some_ : limit ≠ 0)
    (late : start + 64 * limit ≤ (getSlot s it.f.bh (slotOf it.f.pe)).resCycles) (none_ : pairFind s it.f.bh it.f.pe it.f.fp = none) :
    ∃ t : State, exec (.pairLimitExpire it.f.bh it.f.pe 0) s = .next t ∧
      LeaderEnds t it (toUsed it.node .err (newError s (peSrc it.f.bh it.f.pe) 0x10).1) (cycleOf s it.f.bh) ∧
      (getPE t it.f.bh it.f.pe).discards = (getPE s it.f.bh it.f.pe).discards ++ [{ node := it.f.node, fp := it.f.fp, id := it.id }] := by
  have here := getPE_modPE s it.f.bh it.f.pe it.f.bh it.f.pe fun q => { q with discards := q.discards ++ [{ node := it.f.node, fp := it.f.fp, id := it.id }] }
  rw [if_pos rfl] at here
  refine ⟨_, pairLimitExpire_fails w some_ late none_, pairFail_ends ((congrArg PE.issued here).trans w.alone) 0x10, ?_⟩
  exact (congrArg PE.discards (getPE_issuedSet _ it _ _ _ _)).trans (congrArg PE.discards here)

end

end Sys2Proof.Machine
end

section
/-! SUPPORT. A root combiner at its limit (R400, R401): what stands in its slot, and the state that it leaves. -/

namespace Sys2Proof.Machine

open Host

/-- What is entered stands behind what was issued before (R227). -/
theorem pushIssued_enters (u : State) (f : Firing) (n : Node) (lat : Nat) (es : List Emit) (fx : List Effect) (fl : BitVec 9) (w : Wait) : ∃ it : Issued,
    getPE (pushIssued u f n lat es fx fl w) f.bh f.pe = { getPE u f.bh f.pe with issued := (getPE u f.bh f.pe).issued ++ [it] } ∧ it.f = f ∧ it.emits = es :=
  ⟨_, (getPE_pushWriting _ _ _ _ _ _ _ _ _ _ _).trans (if_pos rfl), rfl, rfl⟩

/-- The word in which a combiner's slot holds its counts, and the tag of the slot, which says FILLED while the word is not zero (R400). -/
def barPacked (x : BarSlot) : Word := word (x.cur + x.c0 * 2 ^ 32 + b2n x.a0 * 2 ^ 47 + x.c1 * 2 ^ 48 + b2n x.a1 * 2 ^ 63)
def barTag (x : BarSlot) : BitVec 16 := if barPacked x = 0 then 0 else mkTag tagFilled 0 0

/-- A combiner is written to its slot and among the timers (R400). -/
theorem barStore_eq (p : PE) (node fp sl : Nat) (x : BarSlot) :
    ∃ ts, barStore p node fp sl x = { slotPut p (16 * fp + sl) (barTag x) (barPacked x) with timers := ts } := ⟨_, rfl⟩

theorem slotPut_issued (p : PE) (sl : Nat) (t : BitVec 16) (v : Word) : (slotPut p sl t v).issued = p.issued := by unfold slotPut; rfl

/-- The word and the tag are hidden while the record is compared: their arithmetic on literals of 64 bits plays no part in it. -/
theorem barStore_issued (p : PE) (node fp sl : Nat) (x : BarSlot) : (barStore p node fp sl x).issued = p.issued := by
  obtain ⟨ts, stored⟩ := barStore_eq p node fp sl x
  generalize barTag x = t at stored
  generalize barPacked x = v at stored
  rw [stored]
  exact slotPut_issued p (16 * fp + sl) t v

/-- A slot is read from the tags and the values. -/
theorem slotValue_congr {p q : PE} (tags : p.tags = q.tags) (frames : p.frames = q.frames) (j : Nat) : slotValue p j = slotValue q j := by
  unfold slotValue slotTag
  rw [tags, frames]

theorem slotValue_timers (p : PE) (sl j : Nat) (t : BitVec 16) (v : Word) (ts : List BarTimer) :
    slotValue { slotPut p sl t v with timers := ts } j = slotValue (slotPut p sl t v) j := slotValue_congr rfl rfl j

/-- The slot of a combiner reads as its word (R51, R400). -/
theorem slotValue_slotPut_barTag (p : PE) (sl : Nat) (x : BarSlot) : slotValue (slotPut p sl (barTag x) (barPacked x)) sl = barPacked x := by
  unfold barTag
  split
  · next zero =>
      unfold slotValue
      rw [slotTag_slotPut, if_pos rfl, zero]
      rfl
  · exact slotValue_slotPut_same p sl _ _ (by decide)

theorem slotValue_barStore (p : PE) (node fp sl : Nat) (x : BarSlot) : slotValue (barStore p node fp sl x) (16 * fp + sl) = barPacked x := by
  obtain ⟨ts, stored⟩ := barStore_eq p node fp sl x
  rw [stored, slotValue_timers, slotValue_slotPut_barTag]

theorem bitAt_of_b2n {v i : Nat} {b : Bool} (h : v / 2 ^ i % 2 = b2n b) : bitAt v i = b := by
  unfold bitAt
  rw [h]
  cases b <;> rfl

/-- Each field of that word reads as it was packed. -/
theorem barPacked_fields {x : BarSlot} (cur : x.cur < 2 ^ 32) (c0 : x.c0 < 2 ^ 15) (c1 : x.c1 < 2 ^ 15) :
    let v := (barPacked x).toNat
    bits v 0 32 = x.cur ∧ bits v 32 15 = x.c0 ∧ bitAt v 47 = x.a0 ∧ bits v 48 15 = x.c1 ∧ bitAt v 63 = x.a1 := by
  have bit (b : Bool) : b2n b < 2 := by cases b <;> decide
  have a0 := bit x.a0
  have a1 := bit x.a1
  intro v
  have parts : v = x.cur + x.c0 * 2 ^ 32 + b2n x.a0 * 2 ^ 47 + x.c1 * 2 ^ 48 + b2n x.a1 * 2 ^ 63 := by
    show (word _).toNat = _
    rw [word, BitVec.toNat_ofNat]
    exact Nat.mod_eq_of_lt (by omega)
  clear_value v
  unfold bits
  exact ⟨by omega, by omega, bitAt_of_b2n (by omega), by omega, bitAt_of_b2n (by omega)⟩

/-- What a combiner's slot holds is read back (R400). -/
theorem barRead_barStore (p : PE) (node fp sl : Nat) {x : BarSlot} (cur : x.cur < 2 ^ 32) (c0 : x.c0 < 2 ^ 15) (c1 : x.c1 < 2 ^ 15) :
    let y := barRead (barStore p node fp sl x) node fp sl
    y.cur = x.cur ∧ y.c0 = x.c0 ∧ y.a0 = x.a0 ∧ y.c1 = x.c1 ∧ y.a1 = x.a1 := by
  unfold barRead
  rw [slotValue_barStore]
  exact barPacked_fields cur c0 c1

/-- A combiner for whose first phase too few have arrived completes none (R400). -/
theorem barRun_waits (n : Node) (node fp expect k : Nat) {x : BarSlot} (few : x.c0 < expect) (h : List Flight) : barRun n node fp expect k x h = (x, h, []) := by
  cases k with
  | zero => rfl
  | succ k => exact if_pos few

/-- A PE on which a combiner has gone on to its next phase, with no arrival held (R401). -/
def combinerMoved (p : PE) (node fp sl : Nat) : PE := { barStore p node fp sl (barNext (barRead p node fp sl)) with hold := [] }

theorem hold_issued (p : PE) (h : List Flight) : ({ p with hold := h } : PE).issued = p.issued := rfl

theorem combinerMoved_issued (p : PE) (node fp sl : Nat) : (combinerMoved p node fp sl).issued = p.issued := by
  unfold combinerMoved
  exact (hold_issued _ []).trans (barStore_issued p node fp sl _)

/-- A root combiner has gone on to its next phase without a release, and a firing of its node emits LIMIT on VC1 (R228, R401). -/
def combinerLimited (s : State) (b pe node fp : Nat) (c : Placed) (n : Node) : State :=
  let e := newError s (peSrc b pe) 0x10
  let u := setPE e.2 b pe (combinerMoved (getPE s b pe) node fp n.slot.toNat)
  pushIssued u (innerFiring u b pe node fp c) n 1 ((toUsed n .err e.1).map fun x => { x with vc1 := true }) (if usedDests n = [] then [.sinkErr e.1] else []) 0 .nothing

section
variable {s : State} {b pe node fp since : Nat} {tm : BarTimer} {c : Placed} {o : OpInfo} {n : Node}

/-- A root combiner at its limit makes LIMIT, and goes on to the next phase, for which too few have arrived (R401). -/
theorem barrierLimitExpire_ends (timer : barTimer (getPE s b pe) node fp = some tm) (counts : tm.since = some since)
    (cover : cfgCovering s b pe (getSlot s b (slotOf pe)).vf node = some c) (info : nodeInfo (getPE s b pe) node = some (o, n)) (comb : o.code = 0x187)
    (root : n.lit.getLsbD 4 = true) (limited : barLimit s c.lid ≠ 0) (here : (getSlot s b (slotOf pe)).st = .resident) (runs : bhRuns s b = true)
    (late : since + 64 * barLimit s c.lid ≤ (getSlot s b (slotOf pe)).resCycles) (held : (getPE s b pe).hold = [])
    (few : (barRead (getPE s b pe) node fp n.slot.toNat).c1 < barExpect n) :
    exec (.barrierLimitExpire b pe node fp) s = .next (combinerLimited s b pe node fp c n) := by
  have counted : litBits n 4 1 = 1 := (litBits_one n 4).mpr root
  have waits : barRun n node fp (barExpect n) 64 (barNext (barRead (getPE s b pe) node fp n.slot.toNat)) [] = _ := barRun_waits n node fp _ 64 few []
  show execBarrierLimitExpire b pe node fp s = _
  unfold execBarrierLimitExpire combinerLimited
  simp [timer, counts, cover, info, comb, counted, limited, here, runs, Nat.not_lt.mpr late, held, barHeld, waits, barCount, barEmits, errEmits_eq]
  rfl

end

/-- The combiner has moved on, and the error stands issued behind what already was (R228, R401). -/
theorem getPE_combinerLimited (s : State) (b pe node fp : Nat) (c : Placed) (n : Node) : ∃ it : Issued,
    getPE (combinerLimited s b pe node fp c n) b pe =
      { combinerMoved (getPE s b pe) node fp n.slot.toNat with issued := (getPE s b pe).issued ++ [it] } ∧
      it.f.node = node ∧ it.f.fp = fp ∧ it.emits = (toUsed n .err (newError s (peSrc b pe) 0x10).1).map fun e => { e with vc1 := true } := by
  unfold combinerLimited
  dsimp only
  generalize hu : setPE (newError s (peSrc b pe) 0x10).2 b pe (combinerMoved (getPE s b pe) node fp n.slot.toNat) = u
  have here : getPE u b pe = combinerMoved (getPE s b pe) node fp n.slot.toNat := by rw [← hu, getPE_setPE, if_pos rfl]
  obtain ⟨it, entered, firing, emits⟩ := pushIssued_enters u (innerFiring u b pe node fp c) n 1
    ((toUsed n .err (newError s (peSrc b pe) 0x10).1).map fun x => { x with vc1 := true }) (if usedDests n = [] then [.sinkErr (newError s (peSrc b pe) 0x10).1] else [])
    0 .nothing
  have inner : getPE u (innerFiring u b pe node fp c).bh (innerFiring u b pe node fp c).pe = combinerMoved (getPE s b pe) node fp n.slot.toNat := here
  rw [inner, combinerMoved_issued] at entered
  exact ⟨it, entered, congrArg Firing.node firing, congrArg Firing.fp firing, emits⟩

/-- A combiner is read from its slot and its timer. -/
theorem barRead_congr {p q : PE} (tags : p.tags = q.tags) (frames : p.frames = q.frames) (timers : p.timers = q.timers) (node fp sl : Nat) :
    barRead p node fp sl = barRead q node fp sl := by
  unfold barRead barTimer
  rw [slotValue_congr tags frames, timers]

/-- A combiner that has moved on stands in its next phase, with what had arrived for it (R401). -/
theorem barRead_combinerMoved (p : PE) (node fp sl : Nat) (is : List Issued) :
    let x := barRead p node fp sl
    let y := barRead { combinerMoved p node fp sl with issued := is } node fp sl
    y.cur = (x.cur + 1) % 2 ^ 32 ∧ y.c0 = x.c1 ∧ y.a0 = x.a1 ∧ y.c1 = 0 ∧ y.a1 = false := by
  have cur : (barNext (barRead p node fp sl)).cur < 2 ^ 32 := Nat.mod_lt _ (by decide)
  have c0 : (barNext (barRead p node fp sl)).c0 < 2 ^ 15 := Nat.mod_lt _ (by decide)
  have c1 : (barNext (barRead p node fp sl)).c1 < 2 ^ 15 := Nat.two_pow_pos 15
  have fields := barRead_barStore p node fp sl cur c0 c1
  have same : barRead { combinerMoved p node fp sl with issued := is } node fp sl = barRead (barStore p node fp sl (barNext (barRead p node fp sl))) node fp sl :=
    barRead_congr (by simp only [combinerMoved]) (by simp only [combinerMoved]) (by simp only [combinerMoved]) node fp sl
  rw [same]
  exact fields

end Sys2Proof.Machine
end

section
/-! SUPPORT. The generator of a slot serves the firing at the head of its queue (R270, R330, R441). -/

namespace Sys2Proof.Machine

open Host

section
variable {s : State} {b sl pe id : Nat} {q : List (Nat × Nat)} {it : Issued}

/-- The generator of a slot can serve the firing at the head of its queue. -/
structure GeneratorTurn (s : State) (b sl pe id : Nat) (q : List (Nat × Nat)) (it : Issued) : Prop where
  free : (getSlot s b sl).rngAt ≤ cycleOf s b
  owned : (getSlot s b sl).st ≠ .idle
  runs : bhRuns s b = true
  head : (getSlot s b sl).rngQueue = (pe, id) :: q
  found : ((getPE s b pe).issued.find? fun i => i.id == id) = some it
  bh : it.f.bh = b
  pe : it.f.pe = pe

/-- A firing that waited at the generator has been served. -/
def Served (t : State) (b pe id : Nat) (it : Issued) (due : Nat) (es : List Emit) : Prop :=
  ∃ jt ∈ (getPE t b pe).issued, jt.id = id ∧ jt.f = it.f ∧ jt.wait = .nothing ∧ jt.due = due ∧ jt.emits = es

theorem issuedSet_served {u : State} (w : GeneratorTurn s b sl pe id q it) (same : (getPE u b pe).issued = (getPE s b pe).issued) (due : Nat) (es : List Emit) :
    Served (issuedSet u it due es [] 0) b pe id it due es := by
  obtain ⟨-, -, -, -, found, rfl, rfl⟩ := w
  have known : it.id = id := beq_iff_eq.mp (List.find?_some (p := fun i : Issued => i.id == id) found)
  refine ⟨_, issuedSet_mem u it due es [] 0 (same ▸ List.mem_of_find?_eq_some found), known, rfl, rfl, rfl, rfl⟩

/-- A seed's stream is its literal (R441). -/
theorem rngStream_lit (n : Node) : BitVec.ofNat 32 (litBits n 0 16) = n.lit.setWidth 32 := by
  refine BitVec.eq_of_toNat_eq ?_
  have low := n.lit.isLt
  rw [litBits_eq, BitVec.toNat_ofNat, BitVec.toNat_setWidth, BitVec.extractLsb'_toNat, Nat.shiftRight_zero, Nat.mod_eq_of_lt low]

/-- A seed sets the generator, and answers with where its counter stood (R441). -/
theorem rngGeneratorServe_seeds (w : GeneratorTurn s b sl pe id q it)
    (seed : (nodeInfo (getPE s b pe) it.f.node).map (fun y => y.1.code) = some 0x1C6) :
    exec (.rngGeneratorServe b sl) s = .next (issuedSet
      (setSlot s b sl { getSlot s b sl with rngQueue := q, rngKey := payloadAt it.f .l, rngStream := BitVec.ofNat 32 (litBits it.node 0 16), rngCtr := 0 })
      it (cycleOf s b + 1) (toUsed it.node .value (getSlot s b sl).rngCtr) [] 0) := by
  obtain ⟨y, info, code⟩ := Option.map_eq_some_iff.mp seed
  show execRngGeneratorServe b sl s = _
  unfold execRngGeneratorServe
  simp [Nat.not_lt.mpr w.free, w.owned, w.runs, w.head, w.found, info, code]

/-- A PE whose trng has been given its tile: the rows, and the metadata of a loaded tile where its TID is live (R187, R330). -/
def rngFilled (s : State) (vf : Nat) (p : PE) (h : Nat) (rows : List Nat) : PE :=
  let e := handleAt p h
  let p1 := tileFill p e.pages rows
  match tidEntry s vf e.tid with
  | some t => handlePut p1 h (loadedMeta t e (tileRows p1 e t.rows).1)
  | none => p1

/-- It differs in its tile and in the entry. -/
theorem rngFilled_tile (s : State) (vf : Nat) (p : PE) (h : Nat) (rows : List Nat) :
    (rngFilled s vf p h rows).tile = (tileFill p (handleAt p h).pages rows).tile ∧ (rngFilled s vf p h rows).issued = p.issued := by
  have kept := (tileFill_rest p (handleAt p h).pages rows).1
  unfold rngFilled
  dsimp only
  split
  · exact ⟨rfl, kept⟩
  · exact ⟨rfl, kept⟩

/-- A trng gets its tile, and the generator's counter moves on (R330). -/
theorem rngGeneratorServe_fills (w : GeneratorTurn s b sl pe id q it) {h : Nat} {fx : List Effect}
    (tile : (nodeInfo (getPE s b pe) it.f.node).map (fun y => y.1.code) ≠ some 0x1C6) (made : it.effects = .produced h :: fx) :
    exec (.rngGeneratorServe b sl) s = .next (issuedSet
      (setSlot (modPE s b pe fun p => rngFilled s it.f.vf p h
          (rngTile (getSlot s b sl).rngKey.toNat (getSlot s b sl).rngStream.toNat (getSlot s b sl).rngCtr.toNat)) b sl
        { getSlot s b sl with rngQueue := q, rngCtr := (getSlot s b sl).rngCtr + 512, rngAt := cycleOf s b + 128 })
      it (cycleOf s b + 130) it.emits [] 0) := by
  show execRngGeneratorServe b sl s = _
  unfold execRngGeneratorServe
  cases info : nodeInfo (getPE s b pe) it.f.node with
  | none =>
    simp [Nat.not_lt.mpr w.free, w.owned, w.runs, w.head, w.found, info, made]
    rfl
  | some y =>
    have other : y.1.code ≠ 0x1C6 := fun same => tile (by rw [info]; exact congrArg some same)
    simp [Nat.not_lt.mpr w.free, w.owned, w.runs, w.head, w.found, info, other, made]
    rfl

/-- The seed has been served, and the generator stands as it set it (R441). -/
theorem generator_servesSeed (w : GeneratorTurn s b sl pe id q it) (seed : (nodeInfo (getPE s b pe) it.f.node).map (fun y => y.1.code) = some 0x1C6) :
    let x := getSlot s b sl
    ∃ t : State, exec (.rngGeneratorServe b sl) s = .next t ∧ Served t b pe id it (cycleOf s b + 1) (toUsed it.node .value x.rngCtr) ∧
      getSlot t b sl = { x with rngQueue := q, rngKey := payloadAt it.f .l, rngStream := it.node.lit.setWidth 32, rngCtr := 0 } := by
  refine ⟨_, rngGeneratorServe_seeds w seed, issuedSet_served w rfl _ _, ?_⟩
  rw [getSlot_issuedSet, getSlot_setSlot, if_pos rfl, rngStream_lit]

/-- The trng has been served, and the generator has moved on by 512 blocks (R330). -/
theorem generator_servesTile (w : GeneratorTurn s b sl pe id q it) (h : Nat) (fx : List Effect)
    (tile : (nodeInfo (getPE s b pe) it.f.node).map (fun y => y.1.code) ≠ some 0x1C6) (made : it.effects = .produced h :: fx) :
    let x := getSlot s b sl
    ∃ t : State, exec (.rngGeneratorServe b sl) s = .next t ∧ Served t b pe id it (cycleOf s b + 130) it.emits ∧
      getSlot t b sl = { x with rngQueue := q, rngCtr := x.rngCtr + 512, rngAt := cycleOf s b + 128 } ∧
      (getPE t b pe).tile = (tileFill (getPE s b pe) (handleAt (getPE s b pe) h).pages (rngTile x.rngKey.toNat x.rngStream.toNat x.rngCtr.toNat)).tile := by
  intro x
  have filled := getPE_modPE s b pe b pe fun p => rngFilled s it.f.vf p h (rngTile x.rngKey.toNat x.rngStream.toNat x.rngCtr.toNat)
  rw [if_pos rfl] at filled
  obtain ⟨tile', issued⟩ := rngFilled_tile s it.f.vf (getPE s b pe) h (rngTile x.rngKey.toNat x.rngStream.toNat x.rngCtr.toNat)
  refine ⟨_, rngGeneratorServe_fills w tile made, issuedSet_served w ((congrArg PE.issued filled).trans issued) _ _, ?slot, ?tile⟩
  case slot => rw [getSlot_issuedSet, getSlot_setSlot, if_pos rfl]
  case tile =>
    obtain ⟨-, -, -, -, -, rfl, rfl⟩ := w
    rw [getPE_issuedSet]
    exact (congrArg PE.tile filled).trans tile'

end

end Sys2Proof.Machine
end

section
/-! SUPPORT. STARVE (R237), and the statement about pairs, barriers and generators. -/

namespace Sys2Proof.Machine

open Host

/-- A VF that has waited long enough in a bulkhead posts STARVE there (R237). -/
theorem starve_posts {s : State} {b vf : Nat} (new_ : (getBulk s b).posted.contains vf = false) (idle : sget 0 (getBulk s b).lastIssue vf + 2 ^ 20 ≤ cycleOf s b)
    (runs : bhRuns s b = true) (waits : ∃ w ∈ starveCases s b vf, w.2.2.2 + 2 ^ 20 ≤ cycleOf s b) :
    ∃ payload, exec (.starve b vf) s = .next (modBulk (postEvent s (seqrSrc b) b (some vf) none 0x0B payload) b fun y => { y with posted := y.posted ++ [vf] }) := by
  obtain ⟨w, first⟩ : ∃ w, (starveCases s b vf).find? (fun w => decide (w.2.2.2 + 2 ^ 20 ≤ cycleOf s b)) = some w := by
    obtain ⟨w, mem, long⟩ := waits
    exact Option.isSome_iff_exists.mp (List.find?_isSome.mpr ⟨w, mem, decide_eq_true long⟩)
  refine ⟨w.1 + w.2.1 * 2 ^ 8 + w.2.2.1 * 2 ^ 17, ?_⟩
  have go : ¬((getBulk s b).posted.contains vf = true ∨ (getBulk s b).cycle < sget 0 (getBulk s b).lastIssue vf + 2 ^ 20 ∨ (!bhRuns s b) = true) := by
    rw [new_, runs]
    exact fun stop => stop.elim nofun fun stop => stop.elim (Nat.not_lt.mpr idle) nofun
  have found : (starveCases s b vf).find? (fun w => decide (w.2.2.2 + 2 ^ 20 ≤ (getBulk s b).cycle)) = some w := first
  show execStarve b vf s = _
  unfold execStarve
  dsimp only
  rw [if_neg go, found]

/-- An event in clean memory leaves the bulkheads alone (R421, R422). -/
theorem getBulk_postEvent {s : State} (src b : Nat) (vf lid : Option Nat) (code payload : Nat) (clean : cleanMemory s) (c : Nat) :
    getBulk (postEvent s src b vf lid code payload) c = getBulk s c := by
  obtain ⟨⟨_, _, _, _, only⟩, -, -⟩ := postEvent_quiet s src b vf lid code payload clean
  rw [only]
  rfl

/-- Settles O48: each wait ends as its step's lemma says. -/
theorem pairsBarriersAndGenerators : Obligations.PairsBarriersAndGenerators := by
  unfold Obligations.PairsBarriersAndGenerators
  refine ⟨?leaders, ?combiners, ?generators, ?starve⟩
  case leaders =>
    rintro s _ _ it own limit start alone waits rfl rfl runs
    have w : LeaderWaits s it own limit start := ⟨alone, waits, runs⟩
    refine ⟨fun m even owes found => ⟨fun sums has => ?taken, fun broken => ?broken⟩, leader_endsBroken w, leader_endsLimited w⟩
    case taken => exact ⟨_, pairMessage_takes w even owes found has, rfl, pairServe_ends alone sums, pairServe_acc sums⟩
    case broken => exact ⟨_, pairMessage_takes w even owes found broken, rfl, pairFail_ends alone 0x0F⟩
  case combiners =>
    intro s b pe node fp since tm c o n timer counts cover info comb root limited here runs late held x few
    have expect : barExpect n = (n.lit.extractLsb' 5 11).toNat + 1 := congrArg (· + 1) (litBits_eq n 5 11)
    obtain ⟨it, moved, hnode, hfp, emits⟩ := getPE_combinerLimited s b pe node fp c n
    have run := barrierLimitExpire_ends timer counts cover info comb root limited here runs late held (expect ▸ few)
    refine ⟨_, it, run, congrArg PE.issued moved, hnode, hfp, emits, ?_⟩
    rw [moved]
    exact barRead_combinerMoved (getPE s b pe) node fp n.slot.toNat _
  case generators =>
    intro s b sl pe id q it free owned runs head found bh hpe
    have w : GeneratorTurn s b sl pe id q it := ⟨free, owned, runs, head, found, bh, hpe⟩
    exact ⟨generator_servesSeed w, generator_servesTile w⟩
  case starve =>
    intro s b vf new_ idle runs waits clean
    obtain ⟨payload, run⟩ := starve_posts new_ idle runs waits
    obtain ⟨counts, same, -⟩ := postEvent_counts (seqrSrc b) b (some vf) none 0x0B payload clean
    refine ⟨_, run, ?_, counts, same⟩
    rw [getBulk_modBulk, if_pos rfl, getBulk_postEvent _ _ _ _ _ _ clean]

end Sys2Proof.Machine
end
